-- ==== Sys2Proof/Word.lean ====
section
/-! DEFINITION. The word types of the part and the sparse map in which the model holds
large indexed stores (R10: little-endian structures; R12: 32-bit registers). -/

namespace Sys2Proof

/-- One byte. -/
abbrev Byte := BitVec 8
/-- A 16-bit quantity: statuses (R16), handles, counters of R176. -/
abbrev Half := BitVec 16
/-- A 32-bit quantity: every register (R12), FP32 values, epoch numbers, slot numbers. -/
abbrev Word := BitVec 32
/-- A 64-bit quantity: device time, addresses, FP64 sums. -/
abbrev Dword := BitVec 64
/-- A byte string, first byte first. -/
abbrev Bytes := List Byte
/-- A store indexed by a number: the pairs listed, keys strictly rising; what an
unlisted key holds is the store's default, named where the store is read. -/
abbrev Map (α : Type) := List (Nat × α)
/-- A status of R16. -/
abbrev Status := BitVec 16

end Sys2Proof
end

