-- ==== Sys2Proof/Syntax.lean ====
section
/-! DEFINITION. The commands of the part: one constructor of `Instr` for each row of
spec/opcode_table.json, with the row's operands. -/

namespace Sys2Proof

/-- A party that makes configuration accesses (R509). -/
inductive Requester where
  /-- The management queue pair. -/
  | mgmt
  /-- The Owner queue pair of this index. -/
  | ownerQp (i : BitVec 12)
  /-- JTAG. -/
  | jtag
  /-- The PC firmware. -/
  | pcFw
  deriving DecidableEq, Repr

/-- Who makes a register access and in which world (R14, R428, R509). -/
structure Acc where
  /-- The requester. -/
  who : Requester
  /-- True in the secure world. -/
  secure : Bool
  deriving DecidableEq, Repr

/-- The bundle header HDR (R157); it comes with the slot C command of its bundle. -/
structure Hdr where
  /-- PP: the bundle is a preemption point. -/
  pp : Bool
  /-- YLD: the bundle is a yield point. -/
  yld : Bool
  /-- IDLE cycles after the bundle. -/
  idle : BitVec 14
  deriving DecidableEq, Repr

/-- A 21-bit scratch operand (R162). -/
structure Scr where
  /-- WIN, the window. -/
  win : BitVec 3
  /-- XA, the register added. -/
  xa : BitVec 5
  /-- OFF, the offset. -/
  off : BitVec 13
  deriving DecidableEq, Repr

/-- The transfers the part makes and receives for a message between parts (R372). -/
structure Flit where
  /-- TYPE of R365. -/
  kind : BitVec 4
  /-- ORDERED of R365. -/
  ordered : Bool
  /-- DST of R365. -/
  dst : BitVec 12
  /-- SRC of R365. -/
  src : BitVec 12
  /-- SEQ of R365. -/
  seq : BitVec 12
  /-- ACK of R365. -/
  ack : BitVec 12
  /-- ACKV of R365. -/
  ackv : Bool
  /-- LEN of R365. -/
  len : Byte
  /-- PAYLOAD of R365. -/
  payload : Bytes
  deriving DecidableEq, Repr

/-- A received Ethernet frame as the part's MAC sees it (R285, R309). -/
structure Frame where
  /-- The MAC that it arrives on; 8 is the management port. -/
  mac : Fin 9
  /-- Its length in bytes. -/
  len : Nat
  /-- The VLAN identifier of its IEEE 802.1Q tag, if it has one. -/
  vlan : Option (BitVec 12)
  /-- An uncorrectable FEC codeword fell within it. -/
  fec : Bool
  deriving DecidableEq, Repr

/-- A received RoCEv2 packet, or the packets of one message, apart from what its command says (R286, R289, R291). -/
structure Pkt where
  /-- The frame of the first packet. -/
  frame : Frame
  /-- The transport is Reliable Connected. -/
  rc : Bool
  /-- Source GID. -/
  gid : Bytes
  /-- Source QPN. -/
  qpn : BitVec 24
  /-- PSN of the first packet. -/
  psn : BitVec 24
  /-- It carries an immediate. -/
  imm : Bool
  deriving DecidableEq, Repr

/-- A received packet and the queue pair that it names, of `w` bits; of 13 bits, 4096 is the management queue pair. -/
structure QpPkt (w : Nat) where
  /-- The queue pair. -/
  qp : BitVec w
  /-- The packet. -/
  pkt : Pkt
  deriving DecidableEq, Repr

/-- A received SEND: its packets, and the bytes of its payload (R286). -/
structure SendMsg where
  /-- Its packets. -/
  rx : QpPkt 13
  /-- Bytes of its payload. -/
  len : Nat
  deriving DecidableEq, Repr

/-- A received fallback datagram: its frame and its payload (R285, R464). -/
structure FbMsg where
  /-- The frame. -/
  frame : Frame
  /-- The payload. -/
  data : Bytes
  /-- Power-up values of the PUF block, if it is read again (R435). -/
  puf : Bytes := []
  deriving DecidableEq, Repr

/-- A received claim datagram: its frame and its payload (R285, R300). -/
structure ClaimMsg where
  /-- The frame. -/
  frame : Frame
  /-- The payload. -/
  data : Bytes
  deriving DecidableEq, Repr

/-- What selects a PTP message: its frame, its domain, its transport, and whether it is a Sync (R297). -/
structure PtpHdr where
  /-- The frame. -/
  frame : Frame
  /-- The domain number. -/
  domain : Byte
  /-- IEEE 802.3 transport, else UDP. -/
  ieee : Bool
  /-- It is a Sync. -/
  sync : Bool
  deriving DecidableEq, Repr

/-- An element of a core's accumulator sets: set, row and column (R203). -/
structure AccAt where
  /-- The set. -/
  set : BitVec 2
  /-- The row. -/
  m : BitVec 5
  /-- The column. -/
  n : Byte
  deriving DecidableEq, Repr

/-- One table's part of a publication step: TID, epoch number, epoch root (R384). -/
structure StepTab where
  /-- The table. -/
  tid : BitVec 12
  /-- The new epoch number. -/
  epoch : Word
  /-- The sender's epoch root of that epoch. -/
  root : Bytes
  /-- A primary's mirror is in SYNC, and so sends a READY of its own (R384, log entry 89). -/
  sync : Bool := true
  deriving DecidableEq, Repr

/-- A KIND of NAK received from a remote queue pair (R289). -/
inductive Nak where
  /-- A sequence error: go-back-N. -/
  | sequence
  /-- Remote Access Error. -/
  | remoteAccess
  /-- Invalid Request. -/
  | invalidRequest
  deriving DecidableEq, Repr

/-- One monitor site's reading (R490). -/
structure Site where
  /-- Slack, signed pips. -/
  slack : Int
  /-- Temperature in 1/16 degree, signed. -/
  temp : Int
  /-- Ring-oscillator count over 1 µs. -/
  ro : Half
  deriving DecidableEq, Repr

/-- Outcomes of AVSBus attempts on the two rails, in order; an attempt that is not listed is acknowledged (R475). -/
structure Acks where
  core : List Bool := []
  fold : List Bool := []
  deriving DecidableEq, Repr

/-- One reading of every monitor site, and the AVSBus attempts that it leads to (R490, R492). -/
structure Reading where
  sites : List Site
  acks : Acks := {}
  deriving DecidableEq, Repr

/-- What stage 7 measures for plan 0: the readings before and after step 2, the AVSBus attempts, the eyes of the
Ethernet lanes and the margins of the UCIe modules (R493 to R496). -/
structure BootMeas where
  sites1 : List Site
  sites2 : List Site
  acks : Acks := {}
  eth : List Byte
  ucie : List Byte
  deriving DecidableEq, Repr

/-- Folds whose PLL, and folds whose UCIe modules, failed three attempts in stage 6 (R465). -/
structure FoldFail where
  pll : Byte
  ucie : Byte
  deriving DecidableEq, Repr

/-- The management port came up in stage 5, and ms since stage 0 began (R465, R469). -/
structure StartUp where
  mgmtUp : Bool
  ms : Nat
  deriving DecidableEq, Repr

/-- An image read from SPI NOR in stage 4, and the power-up values of the PUF block if it is read again (R435, R464). -/
structure SpiMsg where
  img : Bytes
  puf : Bytes
  deriving DecidableEq, Repr

/-- Levels at the boundary-scan cells, and what is shifted in at TDI (R444, R483). -/
structure ScanMsg where
  pins : Bytes
  tdi : Bytes
  deriving DecidableEq, Repr

/-- A sideband write: the address it is sent to, and its bytes (R486, R487). -/
structure SbWrite where
  addr : BitVec 7
  data : Bytes
  deriving DecidableEq, Repr

/-- A sideband read: the address it is sent to, and how many bytes are taken (R486, R487). -/
structure SbRead where
  addr : BitVec 7
  n : Nat
  deriving DecidableEq, Repr

/-- What a fill was made for (R347). -/
inductive FillFor where
  /-- The zeroing of REGION_UNMAP of this index (R316). -/
  | unmap (index : Nat)
  /-- The clearing of R303 step 3 or R420 step 4. -/
  | clear
  /-- The boot fill of this fold, and ms since stage 0 began (R462, R469). -/
  | boot (fold : Fin 8) (ms : Nat)
  deriving DecidableEq, Repr

/-- The conditioned inputs with a minimum gap or a stuck timer (R479). -/
inductive Pin where
  /-- THERM_ALERT_N. -/
  | alert
  /-- FORCE_THROTTLE_N. -/
  | throttle
  /-- PAIR_SYNC_IN. -/
  | sync
  /-- PWRGOOD, whose minimum gap is the 10 ms of R480. -/
  | pwrgood
  deriving DecidableEq, Repr

/-- A unit that resets alone (R422): ranking core or fold. -/
inductive UnitId where
  /-- RC0 or RC1. -/
  | core (c : Fin 2)
  /-- F0 to F7. -/
  | fold (f : Fin 8)
  deriving DecidableEq, Repr

/-- The scope of a fold reset (R422); a core has the scope `whole`. -/
inductive Scope where
  /-- The gather engine alone. -/
  | gx
  /-- The row update engine alone. -/
  | ru
  /-- GX, RU and FM together, or the whole core. -/
  | whole
  deriving DecidableEq, Repr

/-- A range of a message's data that carries marks, by offset and length (R402). -/
structure Mark where
  off : Nat
  len : Nat
  poison : Bool := false
  suspect : Bool := false
  hard : Bool := false
  deriving DecidableEq, Repr

/-- Data that travels with its marks (R402, R403). -/
structure Marked where
  data : Bytes
  marks : List Mark := []
  deriving DecidableEq, Repr

/-- A dynamic address assigned on the sideband, by ENTDAA or, `direct`, by SETDASA to a static address (R486). -/
structure DaaMsg where
  addr : BitVec 7
  static_ : BitVec 7 := 0
  direct : Bool := false
  deriving DecidableEq, Repr

/-- What a unit reports to the IG (R400, R415). -/
structure ErrRep where
  /-- Structure code of R400. -/
  code : Byte
  /-- Block of R415, bits [7:4] of UNIT. -/
  block : BitVec 4
  /-- Instance of R415, bits [3:0] of UNIT. -/
  inst : BitVec 4
  /-- True for a corrected error (R401). -/
  corrected : Bool
  /-- True when the read found a poison mark and not a fresh error. -/
  reread : Bool
  /-- True when a CONTROL or CORE_ILLEGAL report is of an illegal bundle (R184). -/
  illegal : Bool
  /-- LOCATION of R415. -/
  location : Dword
  /-- DETAIL of R415. -/
  detail : Dword
  /-- The entry or index of the structure that is hit, where it has one. -/
  index : Nat
  /-- The request handle first affected, if any. -/
  req : Option Half
  deriving DecidableEq, Repr

/-- Answers of PAIR_MSG (R397, R398). -/
inductive PairMsg where
  /-- FORM asked by the partner: its role, RULE of each of its folds, and the trained tables it holds with
  their descriptors. -/
  | form (src : BitVec 12) (mirror : Bool) (syncEn : Bool) (rule : Byte) (tabs : List (BitVec 12 × Bytes))
  /-- SWITCH asked by the partner. -/
  | switch (src : BitVec 12)
  /-- RESYNC asked by the mirror for these tables; none named means all. -/
  | resync (src : BitVec 12) (tids : List (BitVec 12))
  /-- BREAK made by the partner. -/
  | brk (src : BitVec 12)
  /-- The partner accepts the action waiting here. -/
  | accept (src : BitVec 12)
  /-- The partner refuses the action waiting here with this status. -/
  | refuse (src : BitVec 12) (st : Status)
  /-- The sender holds this trained table with this descriptor, in a current epoch of this number and root: the partner
  may hold it too (R389, log entry 161). -/
  | holds (src : BitVec 12) (tid : BitVec 12) (desc : Bytes) (epoch : Word) (root : Bytes)
  /-- The sender has taken over from a member's primary (R388, log entry 162). -/
  | tookOver (src : BitVec 12) (index : BitVec 12)
  deriving DecidableEq, Repr

/-- Register selection on the 256 slots of a bundle's M instruction is by `Fin 2`, the core. -/
abbrev Core2 := Fin 2

/-- The commands of the part. -/
inductive Instr where
  /- Commands of the rings: queue and absolute entry number of a fetched entry. -/
  | launch (q : BitVec 10) (n : Word)
  | lookup (q : BitVec 10) (n : Word)
  | update (q : BitVec 10) (n : Word)
  | tableLoadFull (q : BitVec 10) (n : Word)
  | tableLoadRows (q : BitVec 10) (n : Word)
  | tableCommit (q : BitVec 10) (n : Word)
  | tableCommitDrop (q : BitVec 10) (n : Word)
  | tableExport (q : BitVec 10) (n : Word)
  | graphStore (q : BitVec 10) (n : Word)
  | graphPatch (q : BitVec 10) (n : Word)
  | graphRetire (q : BitVec 10) (n : Word)
  | fence (q : BitVec 10) (n : Word)
  | nop (q : BitVec 10) (n : Word)
  | abortCommand (n : Word)
  | abortQueue (n : Word)
  | abortCid (n : Word)
  | abortAllQueues (n : Word)
  | queueCreate (n : Word)
  | queueDestroy (n : Word)
  | regionMap (n : Word)
  | regionUnmap (n : Word)
  | statsRead (n : Word)
  | attest (n : Word)
  | pairForm (n : Word)
  | pairBreak (n : Word)
  | pairSwitch (n : Word)
  | pairTakeover (n : Word)
  | pairResync (n : Word)
  | leaseRenewOwner (n : Word)
  | leaseRenewSession (n : Word)
  /- Doorbells, rings and transfers. -/
  | doorbell (qp : BitVec 12) (k : Pkt) (rkey : Word) (va : Dword) (data : Bytes)
  | keepalive (rx : QpPkt 12) (rkey : Word) (data : Bytes)
  | feQ0DbLo (a : Acc) (v : Word)
  | feQ0DbHi (a : Acc) (v : Word)
  | ringReadLands (q : BitVec 10) (slots : List Bytes)
  | staleBackoffExpire (q : BitVec 10)
  | queueTimeout (q : BitVec 10) (n : Word)
  | dmaReadLands (x : Nat) (data : Bytes)
  | dmaPieceIssue (x : Nat)
  | faultWaitRewalk (x : Nat)
  | faultWaitExpire (x : Nat)
  | xlSyncDone (n : Word)
  | window1Zeroed (c : Core2) (slot : Fin 4)
  | inputSegmentLands (req : Half) (seg : Fin 16)
  /- Slot C. -/
  | cnop (c : Core2) (h : Hdr)
  | loop (c : Core2) (h : Hdr) (xa : BitVec 5) (body : BitVec 13) (cnt : BitVec 14)
  | br (c : Core2) (h : Hdr) (off : BitVec 18)
  | brc (c : Core2) (h : Hdr) (cond : BitVec 3) (xa xb : BitVec 5) (off : BitVec 18)
  | wait (c : Core2) (h : Hdr) (ctr xa : BitVec 5) (tgt : Half)
  | addi (c : Core2) (h : Hdr) (xd xa : BitVec 5) (imm : BitVec 27)
  | lui (c : Core2) (h : Hdr) (xd : BitVec 5) (imm : Half)
  | alu (c : Core2) (h : Hdr) (xd xa xb : BitVec 5) (fn : BitVec 4)
  | ldx (c : Core2) (h : Hdr) (xd xa : BitVec 5) (imm : BitVec 27)
  | stx (c : Core2) (h : Hdr) (xa xb : BitVec 5) (imm : BitVec 27)
  | trap (c : Core2) (h : Hdr) (code : BitVec 2)
  | endLaunch (c : Core2) (h : Hdr)
  /- Slot M. -/
  | mnop (c : Core2)
  | copy (c : Core2) (sa sb : Scr) (lines : BitVec 12)
  | fill (c : Core2) (sb : Scr) (lines : BitVec 12)
  | ldw (c : Core2) (sa : Scr) (xd : BitVec 5)
  | stw (c : Core2) (sb : Scr) (xs : BitVec 5)
  | gissue (c : Core2) (sa sb : Scr) (ctr : BitVec 5) (nfb chain : Bool)
  | grel (c : Core2) (fmask : Byte) (dep : Bool) (xt : BitVec 5)
  | allgather (c : Core2) (sa : Scr) (ctr : BitVec 5)
  | dcollPut (c : Core2) (sa : Scr) (ctr : BitVec 5)
  | dcollGet (c : Core2) (sa : Scr) (ctr : BitVec 5)
  | barrier (c : Core2) (sa : Scr) (ctr : BitVec 5)
  | output (c : Core2) (sa : Scr) (ctr : BitVec 5) (lines : BitVec 12) (seg : BitVec 4)
  /- Slots A and V. -/
  | anop (c : Core2)
  | mma (c : Core2) (sd : Scr) (xw xx : BitVec 5) (set : BitVec 2) (zero : Bool)
  | aclr (c : Core2) (set : BitVec 2)
  | vnop (c : Core2)
  | vew (c : Core2) (sd : Scr) (xo : BitVec 5) (fn act : BitVec 4) (rule : Bool) (imm : Half)
  | vscan (c : Core2) (sd : Scr) (xo : BitVec 5) (fn act : BitVec 4) (rule : Bool) (imm : Half)
  | vred (c : Core2) (sd : Scr) (xo : BitVec 5) (fn act : BitVec 4) (rule : Bool) (imm : Half)
  /- Events of launches. -/
  | sliceDone (f : Fin 8) (gen : Byte) (req : Half) (ctr : BitVec 5)
  | collectiveDone (req : Half) (index : Half)
  | outputRangeRead (req : Half)
  | issueQueueFree (c : Core2)
  | yieldPoint (c : Core2)
  | endRequest (req : Half)
  | launchEnd (req : Half)
  | completionPost (q : BitVec 10) (n : Word)
  /- Gather engine. -/
  | programAccept (f : Fin 8) (desc : Bytes)
  | programBody (f : Fin 8) (p : Nat) (body : List Word)
  | rowReadReturn (f : Fin 8) (p : Nat) (pos : Nat)
  | partialSlice (f : Fin 8) (p : Nat) (bag : Nat) (src : Fin 8) (gen : Byte) (terms : Nat)
      (vals : List Word) (bad : Bool)
  | tileRelease (f : Fin 8) (req : Half) (tile : Word)
  | dependenceRelease (f : Fin 8) (req : Half)
  | contextDrained (f : Fin 8) (ctx : Byte)
  | decayPeriodEnd (f : Fin 8)
  | migrationFlip (f : Fin 8) (way : Nat)
  | epochGraceExpire (tid : BitVec 12)
  | asideFree (f : Fin 8) (tid : BitVec 12)
  | tableCommitStep (q : BitVec 10) (n : Word)
  | updateCommitPoint (q : BitVec 10) (n : Word)
  | updatePublish (q : BitVec 10) (n : Word)
  | recoveringClear (f : Fin 8)
  /- Fold memory. -/
  | fmRequest (f : Fin 8) (part : Fin 16) (wide write : Bool) (addr : Nat) (data : Bytes) (len : Nat)
  | runIssue (f : Fin 8) (ch : Fin 16)
  | readDataReturn (f : Fin 8) (ch : Fin 16) (flipData : BitVec 256) (flipChk : BitVec 16)
  | refresh (f : Fin 8) (ch : Fin 16)
  | refreshRateRead (f : Fin 8) (rates : List (Fin 3))
  | maintenanceSlot (f : Fin 8) (ch : Fin 16) (osc : Int)
  | scrub (f : Fin 8) (ch : Fin 16) (flipData : BitVec 256) (flipChk : BitVec 16)
  | fillDone (w : FillFor)
  | retrainStep (f : Fin 8) (ch : Fin 16) (rdEye wrEye vref : Byte) (last : Bool)
  /- Resets of units and the IG. -/
  | unitResetRequest (u : UnitId) (sc : Scope) (cause : Word)
  | quiet (u : UnitId) (late : Option Word)
  | unitResetDone (u : UnitId)
  | errorReport (e : ErrRep)
  | residueMismatch (c : Core2) (e : AccAt) (bundle : BitVec 17)
  | replay (req : Half)
  | faultRecordClose (recno : Word)
  /- Network. -/
  | configRdmaAccess (mgmt : Bool) (rx : QpPkt 12) (write : Bool) (rkey : Word) (va : Dword)
      (len : Nat) (data : Bytes)
  | peerWindowAccess (rx : QpPkt 12) (write : Bool) (rkey : Word) (va : Dword) (len : Nat)
      (data : Bytes)
  | sendReceived (m : SendMsg)
  | atomicReceived (rx : QpPkt 13)
  | claim (m : ClaimMsg)
  | neighbourDiscovery (fr : Frame) (ipv6 : Bool) (addr : Bytes)
  | pauseFrame (mac : Fin 9)
  | ptpMessage (h : PtpHdr) (offset : Int) (time : Dword) (rate : Int)
  | ceMarkedPacket (rx : QpPkt 13)
  | cnpReceived (rx : QpPkt 13)
  | rateIncrease (qp : BitVec 12)
  | pfcXoff (port : Fin 4) (prio : BitVec 3)
  | pfcXon (port : Fin 4) (prio : BitVec 3)
  | pfcStuck (port : Fin 4)
  | ackReceived (rx : QpPkt 13) (count : Nat)
  | ackTimeout (qp : BitVec 13) (rnr : Bool)
  | nakReceived (rx : QpPkt 13) (e : Nak)
  | macLinkChange (mac : Fin 9) (up : Bool)
  | sessionLeaseExpire (ses : BitVec 10)
  /- Register writes with an effect of their own. -/
  | npLeaseRenew (a : Acc) (v : Word)
  | npSesOpen (a : Acc) (v : Word)
  | npSesClose (a : Acc) (v : Word)
  | npQpEnable (a : Acc) (v : Word)
  | npQpReset (a : Acc) (v : Word)
  | stepBack (a : Acc) (v : Word)
  | npPortMode (a : Acc) (port : Fin 4) (v : Word)
  | feQEnable (a : Acc) (v : Word)
  | feQKey0 (a : Acc) (v : Word)
  | xlTblWin (a : Acc) (word : BitVec 10) (v : Word)
  | xlFqCons (a : Acc) (v : Word)
  | igFlogCons (a : Acc) (v : Word)
  | igUrst (a : Acc) (v : Word)
  | pcRstCtlWhole (a : Acc) (v : Word)
  | pcWorldMap (a : Acc) (v : Word)
  | pcOwnerKey (a : Acc) (k : Fin 8) (v : Word)
  | pcDbgSubmit (a : Acc) (v : Word)
  | pcFlashErase (a : Acc) (v : Word)
  | pcFlashProgram (a : Acc) (v : Word)
  | pcFlashRead (a : Acc) (v : Word)
  | flashOpDone (failed : Bool) (data : Bytes)
  | replanRequest (a : Acc) (v : Word)
  | dlPartId (a : Acc) (v : Word)
  | dlLinkRetrain (a : Acc) (v : Word)
  | dissolve (a : Acc) (v : Word)
  | gxPolicyCtl (a : Acc) (f : Fin 8) (v : Word)
  | gxPopThresh (a : Acc) (f : Fin 8) (v : Word)
  | fmPartRate (a : Acc) (f : Fin 8) (v : Word)
  | fmEccInj (a : Acc) (f : Fin 8) (v : Word)
  | maResInj (a : Acc) (c : Core2) (v : Word)
  | veQsClear (a : Acc) (c : Core2) (v : Word)
  | ruConvClear (a : Acc) (f : Fin 8) (v : Word)
  | scratchWindowAccess (a : Acc) (c : Core2) (write : Bool) (off : BitVec 24) (v : Word)
  | lowHalfRead (a : Acc) (addr : Word)
  | registerWrite (a : Acc) (addr : Word) (v : Word)
  /- Drove links, groups and pairs. -/
  | flitReceive (l : Fin 32) (flit : Bytes) (crc : Word) (fecOk corrected : Bool)
  | droveNak (l : Fin 32) (seq : BitVec 12)
  | flitAckTimeout (l : Fin 32)
  | linkTrainingDone (l : Fin 32) (nbr : BitVec 12) (nlink : BitVec 5)
  | linkTrainingFail (l : Fin 32)
  | linkLossOfLock (l : Fin 32)
  | pinReq (src : BitVec 12) (key : Word) (tids : List (BitVec 12))
  | pin (key : Word) (epochs : List (BitVec 12 × Word))
  | record (key : Word) (epochs : List (BitVec 12 × Word)) (arrivals : List (BitVec 12))
  | keyRecordTimeout (key : Word)
  | release (tid : BitVec 12) (epoch : Word)
  | ready (src : BitVec 12) (upd : Bool) (tabs : List StepTab)
  | go (set : List (BitVec 12 × Word)) (roots : List (BitVec 12 × List Bytes))
  | cancel (set : List (BitVec 12 × Word)) (mismatch : Bool)
  | barrierTimeout (set : List (BitVec 12 × Word))
  | clear (member : BitVec 12) (key : Word) (index : Half)
  | slice (member : BitVec 12) (key : Word) (index : Half) (off : Nat) (data : Marked) (last : Bool)
  | put (src : BitVec 12) (tag : Word) (win : BitVec 6) (off : Dword) (data : Marked)
  | getReq (src : BitVec 12) (tag : Word) (win : BitVec 6) (off : Dword) (len : Nat)
  | getData (src : BitVec 12) (tag : Word) (data : Marked)
  | deny (src : BitVec 12) (tag : Word)
  | abandon (key : Word)
  | collectiveTimeout (req : Half) (index : Half)
  | hb (src : BitVec 12) (mirror : Bool) (st : BitVec 3) (count : Word)
  | partnerSilent (pinSilent : Bool)
  | stream (upd : Half) (tag : Dword) (epochs : List (BitVec 12 × Word)) (recs : List Bytes)
      (deltas : List Bytes) (whole : Bool)
  | prepared (upd : Half)
  | commit (upd : Half)
  | discard (upd : Half)
  | root (tid : BitVec 12) (epoch : Word) (r : Bytes)
  | bulk (tid : BitVec 12) (first : Word) (rows : List Marked)
  /- Reset, boot and clocks. -/
  | pwrgoodFall (ns : Nat) (accepted : Bool) (straps : List (BitVec 3))
  | resetNAssert (ns : Nat) (accepted : Bool) (straps : List (BitVec 3))
  | foldPllLoss (f : Fin 8)
  | ethReferenceLoss (macs : List (Fin 9))
  | romSelf (rom : Bytes)
  | identity (rec helper : Bytes) (blocks : List Bytes)
  | imageSpi (img : Bytes)
  | fallbackDatagram (m : FbMsg)
  | fallbackSpiRetry (m : SpiMsg)
  | fwStart (sramOk : Bool) (coreFail : BitVec 2) (up : StartUp)
  | folds (fail : FoldFail) (attempts : Nat)
  | memory (fail : BitVec 128) (eyes : List (Byte × Byte × Byte)) (m : BootMeas) (ms : Nat)
  /- Pins. -/
  | thermAlertN (low : Bool)
  | forceThrottleN (low : Bool)
  | pairSyncIn (high : Bool)
  | minimumGapEnd (p : Pin)
  | stuckTimeout (p : Pin)
  | reArm (p : Pin)
  | trstN (low : Bool)
  | sidebandWrite (m : SbWrite)
  | sidebandRead (m : SbRead)
  | entdaa (m : DaaMsg)
  | tokenLoad (token : Bytes)
  | samplePreload (m : ScanMsg)
  | debugAccess (write : Bool) (addr : Word) (v : Word)
  /- Margins, power and heat. -/
  | monitorRead (m : Reading)
  | replan (sites1 sites2 : List Site) (links : List Half) (eth ucie : List Byte) (failed : List (Fin 32))
      (acks1 acks2 : Acks)
  | thermalLoop (elapsed10 : Bool)
  | powerLoop (mw : Word) (mean : Word) (energy : Dword)
  | avsRetry (acks : Acks)
  | telemetryRefresh (rails : List Word) (hours : Word)
  | graphCheckDone (q : BitVec 10) (n : Word) (code : Byte) (bundle : BitVec 17)
  | pairMsg (m : PairMsg)
  | ucieModuleDown (f : Fin 8) (m : Fin 2) (retrained : Bool)
  | linkEnable (a : Acc) (v : Word)
  | sessionWindowRead (rx : QpPkt 12) (rkey : Word) (va : Dword) (len : Nat)
  /- Commands without operands. -/
  | launchAdmission
  | lookupAdmission
  | ptpSyncLoss
  | ownerLeaseExpire
  | hbSend
  | pairSyncToggle
  | pwrgoodRise
  | resetNRelease
  | rootPllLock
  | rootPllLoss
  | droveReferenceLoss
  | bootWatchdog
  | thermtrip
  | sbSclStuck
  | idcode
  | bypass
  | extest
  | replanPeriod
  | pairAnswerTimeout
  | containmentDone
  | rootPllLockTimeout
  deriving DecidableEq, Repr

end Sys2Proof
end

