-- ==== Sys2Proof/Decode.lean ====
section
/-! DEFINITION. Words of the command table, and the 32 B bundles in which a stored graph holds the slot commands
(R156, R157, R162, R167, R168, R190, R207). Every row of spec/opcode_table.json has an empty list of fields and no
bits: a command of this block is an event with operands and no word of the table spells one. -/

namespace Sys2Proof

/-- The command a word spells by the table's bits: none, for no row of the table gives bits. -/
def decodeTableWord (_nbits _w : Nat) : Option Instr := none

/-- Bits [hi:lo] of a word. -/
def fieldOf (w hi lo : Nat) : Nat := w / 2 ^ lo % 2 ^ (hi + 1 - lo)

/-- The same as a bit vector. -/
def fieldBv (n w lo : Nat) : BitVec n := BitVec.ofNat n (w / 2 ^ lo)

/-- One bit of a word. -/
def fieldBit (w i : Nat) : Bool := w / 2 ^ i % 2 == 1

/-- A bundle header (R157). -/
def decodeHdr (w : Nat) : Hdr := { pp := fieldBit w 0, yld := fieldBit w 1, idle := fieldBv 14 w 2 }

/-- A 21-bit scratch operand: OFF, XA, WIN (R162). -/
def decodeScr (w : Nat) : Scr := { win := fieldBv 3 w 18, xa := fieldBv 5 w 13, off := fieldBv 13 w 0 }

/-- The result where every field that must be 0 is 0. -/
def whenZero (z : List Nat) (i : Instr) : Option Instr := if z.all (· == 0) then some i else none

/-- Slot C, 48 bits: OP, XD, XA, XB, IMM (R167). None for a reserved opcode, a reserved code, or a field that the
instruction does not use and that is not 0. -/
def decodeC (c : Core2) (h : Hdr) (w : Nat) : Option Instr :=
  let xd := fieldOf w 10 6
  let xa := fieldOf w 15 11
  let xb := fieldOf w 20 16
  let imm := fieldOf w 47 21
  let XD : BitVec 5 := BitVec.ofNat 5 xd
  let XA : BitVec 5 := BitVec.ofNat 5 xa
  let XB : BitVec 5 := BitVec.ofNat 5 xb
  match fieldOf w 5 0 with
  | 0x00 => whenZero [xd, xa, xb, imm] (.cnop c h)
  | 0x01 => whenZero [xd, xb] (.loop c h XA (fieldBv 13 imm 0) (fieldBv 14 imm 13))
  | 0x02 => whenZero [xd, xa, xb, fieldOf imm 26 18] (.br c h (fieldBv 18 imm 0))
  | 0x03 =>
    if 6 ≤ fieldOf xd 2 0 then none
    else whenZero [fieldOf xd 4 3, fieldOf imm 26 18] (.brc c h (fieldBv 3 xd 0) XA XB (fieldBv 18 imm 0))
  | 0x04 => whenZero [xb, fieldOf imm 26 16] (.wait c h XD XA (fieldBv 16 imm 0))
  | 0x05 => whenZero [xb] (.addi c h XD XA (fieldBv 27 imm 0))
  | 0x06 => whenZero [xa, xb, fieldOf imm 26 16] (.lui c h XD (fieldBv 16 imm 0))
  | 0x07 =>
    if 11 ≤ fieldOf imm 3 0 then none
    else whenZero [fieldOf imm 26 4] (.alu c h XD XA XB (fieldBv 4 imm 0))
  | 0x08 => whenZero [xb] (.ldx c h XD XA (fieldBv 27 imm 0))
  | 0x09 => whenZero [xd] (.stx c h XA XB (fieldBv 27 imm 0))
  | 0x0A => whenZero [xd, xa, xb, fieldOf imm 26 1] (.trap c h (fieldBv 2 imm 0))
  | 0x0B => whenZero [xd, xa, xb, imm] (.endLaunch c h)
  | _ => none

/-- DCOLL of a KIND. KIND stands in the descriptor and not in the word; a KIND that no collective has goes to the
ALLGATHER row, which finds it out. -/
def dcollOf (c : Core2) (kind : Nat) (sa : Scr) (ctr : BitVec 5) : Instr :=
  match kind with
  | 2 => .dcollPut c sa ctr
  | 3 => .dcollGet c sa ctr
  | 4 => .barrier c sa ctr
  | _ => .allgather c sa ctr

/-- Slot M, 64 bits: OP, SA, SB, ARG (R168). `kind` is the KIND of the descriptor that a DCOLL names. -/
def decodeM (c : Core2) (kind : Nat) (w : Nat) : Option Instr :=
  let sa := fieldOf w 26 6
  let sb := fieldOf w 47 27
  let arg := fieldOf w 63 48
  let SA := decodeScr sa
  let SB := decodeScr sb
  match fieldOf w 5 0 with
  | 0x00 => whenZero [sa, sb, arg] (.mnop c)
  | 0x01 => whenZero [fieldOf arg 15 12] (.copy c SA SB (fieldBv 12 arg 0))
  | 0x02 => whenZero [sa, fieldOf arg 15 12] (.fill c SB (fieldBv 12 arg 0))
  | 0x03 => whenZero [sb, fieldOf arg 15 5] (.ldw c SA (fieldBv 5 arg 0))
  | 0x04 => whenZero [sa, fieldOf arg 15 5] (.stw c SB (fieldBv 5 arg 0))
  | 0x05 => whenZero [fieldOf arg 15 7] (.gissue c SA SB (fieldBv 5 arg 0) (fieldBit arg 5) (fieldBit arg 6))
  | 0x06 => whenZero [sa, sb, fieldOf arg 15 14] (.grel c (fieldBv 8 arg 0) (fieldBit arg 8) (fieldBv 5 arg 9))
  | 0x07 => whenZero [sb, fieldOf arg 15 5] (dcollOf c kind SA (fieldBv 5 arg 0))
  | 0x08 => whenZero [fieldOf sb 20 5] (.output c SA (fieldBv 5 sb 0) (fieldBv 12 arg 0) (fieldBv 4 arg 12))
  | _ => none

/-- Slot A, 64 bits: OP, SD, XW, XX, SET, ZERO (R190). -/
def decodeA (c : Core2) (w : Nat) : Option Instr :=
  let sd := fieldOf w 26 6
  match fieldOf w 5 0 with
  | 0x00 => whenZero [fieldOf w 63 40] (.anop c)
  | 0x01 => whenZero [fieldOf w 63 40]
      (.mma c (decodeScr sd) (fieldBv 5 w 27) (fieldBv 5 w 32) (fieldBv 2 w 37) (fieldBit w 39))
  | 0x02 => whenZero [fieldOf w 63 40] (.aclr c (fieldBv 2 w 37))
  | _ => none

/-- Slot V, 64 bits: OP, SD, XO, FN, ACT, RULE, IMM (R207), with the functions of R210, R212 and R213 and the
activations of R211. -/
def decodeV (c : Core2) (w : Nat) : Option Instr :=
  let sd := decodeScr (fieldOf w 26 6)
  let xo : BitVec 5 := fieldBv 5 w 27
  let fn := fieldOf w 35 32
  let act := fieldOf w 39 36
  let z := [fieldOf w 41 41, fieldOf w 63 58]
  let FN : BitVec 4 := BitVec.ofNat 4 fn
  let ACT : BitVec 4 := BitVec.ofNat 4 act
  match fieldOf w 5 0 with
  | 0x00 => whenZero z (.vnop c)
  | 0x01 => if 9 ≤ fn ∨ 11 ≤ act then none
            else whenZero z (.vew c sd xo FN ACT (fieldBit w 40) (fieldBv 16 w 42))
  | 0x02 => if 4 ≤ fn ∨ 11 ≤ act then none
            else whenZero z (.vscan c sd xo FN ACT (fieldBit w 40) (fieldBv 16 w 42))
  | 0x03 => if (fn ≠ 0 ∧ fn ≠ 2 ∧ fn ≠ 3) ∨ 11 ≤ act then none
            else whenZero z (.vred c sd xo FN ACT (fieldBit w 40) (fieldBv 16 w 42))
  | _ => none

/-- The header and the commands of the four slots of a bundle. -/
structure Bundle where
  hdr : Hdr
  c : Instr
  m : Instr
  a : Instr
  v : Instr
  deriving DecidableEq, Repr

/-- A bundle of 256 bits: HDR, C, M, A, V (R156); none where a slot's encoding is refused (R166). -/
def decodeBundle (c : Core2) (kind : Nat) (w : Nat) : Option Bundle :=
  let h := decodeHdr (fieldOf w 15 0)
  match decodeC c h (fieldOf w 63 16), decodeM c kind (fieldOf w 127 64), decodeA c (fieldOf w 191 128),
      decodeV c (fieldOf w 255 192) with
  | some ci, some mi, some ai, some vi => some { hdr := h, c := ci, m := mi, a := ai, v := vi }
  | _, _, _, _ => none

end Sys2Proof
end

