-- ==== Sys2Proof/Config.lean ====
section
/-! DEFINITION. What an implementation fixes and the spec does not: free values, with no body, so that
nothing can be proved about them (log entries 3, 7 and 8). The step applies them to a counter of the
state, so that each use takes a fresh value. -/

namespace Sys2Proof.Config

/-- An unstated value, for the n-th draw (log entry 3). -/
opaque freeNat : Nat → Nat

/-- The byte that a vector result, in FP32, is stored as in a plain INT8 destination: R209 does not encode that kind
(log entry 140). -/
opaque freeInt8 : Word → Byte

/-- An activation code other than NONE and RELU, with its immediate, of a 32-bit integer sum, whose value R212 does
not state (log entry 141). -/
opaque intAct : Nat → Nat → Word → Word

/-- The n-th draw of the entropy source of R445, conditioned (log entry 8). -/
opaque entropy : Nat → Bytes

/-- Where the part starts to look for room in a pool whose placement rule the spec leaves to it
(log entry 7). -/
opaque placeFrom : Nat → Nat

/-- Where in its pool a record of the RU lies, by the record: R101, R117 and R121 do not give the slots (log entry 133). -/
opaque poolAt : Nat → Nat

/-- The 32 B identity seed that the power-up values of the PUF block give with the helper data: R435 does not give the
reconstruction (log entry 179). -/
opaque pufSeed : Bytes → Bytes → Bytes

/-- Baseline of a site's oscillator count in CALIBRATION, whose layout R437 does not give (log entry 180). -/
opaque roBase : Bytes → Nat → Int

/-- The deterministic ML-DSA-44 public key of a seed, FIPS 204 (log entry 8). -/
opaque mldsaPublic : Bytes → Bytes

/-- The private key of a seed (log entry 8). -/
opaque mldsaPrivate : Bytes → Bytes

/-- A hedged signature: private key, context byte, message, draw number (log entry 8). -/
opaque mldsaSign : Bytes → Byte → Bytes → Nat → Bytes

/-- Verification: public key, context byte, message, signature (log entry 8). -/
opaque mldsaVerify : Bytes → Byte → Bytes → Bytes → Bool

/-- PUF reconstruction: power-up values and helper data to a seed are the commands' operands; the SPI
NOR's own answer to an erase or a program is too. The die's IDCODE word, which R444 does not give. -/
opaque idcode : BitVec 32

/-- The MIPI manufacturer identifier of R486, whose value the spec does not give. -/
opaque mipiId : BitVec 15

/-- REC_ROOT and FW_ROOT of R434, in the mask ROM. -/
opaque recRoot : Bytes

/-- FW_ROOT of R434, in the mask ROM. -/
opaque fwRoot : Bytes

/-- A byte of the body of a Drove message whose layout the spec does not give (log entry 153). -/
opaque droveByte : Instr → Nat → Byte

/-- FLAGS of a Drove message (log entry 153). -/
opaque droveFlags : Instr → Byte

/-- TAG of a Drove message that is no access to a remote window (log entry 153). -/
opaque droveTag : Instr → Word

/-- ADDR of a Drove message (log entry 153). -/
opaque droveAddr : Instr → Dword

end Sys2Proof.Config
end

