-- ==== Sys2Proof/Machine/Sparse.lean ====
section
/-! DEFINITION. Sparse stores and byte memory: the maps of `Word.lean` and the memories of R21, R161
and R462, with the byte order of R10 decided here once. -/

namespace Sys2Proof.Machine

/-- What a map holds at a key; `d` where the key is not listed. -/
def mget {α : Type} (d : α) : Map α → Nat → α
  | [], _ => d
  | (k, v) :: m, i => if k = i then v else mget d m i

/-- Lists a value at a key, keeping the keys rising. -/
def mput {α : Type} : Map α → Nat → α → Map α
  | [], i, v => [(i, v)]
  | (k, w) :: m, i, v =>
    if i < k then (i, v) :: (k, w) :: m
    else if k = i then (i, v) :: m
    else (k, w) :: mput m i v

/-- Unlists a key. -/
def mdel {α : Type} : Map α → Nat → Map α
  | [], _ => []
  | (k, w) :: m, i => if k = i then mdel m i else (k, w) :: mdel m i

/-- Writes a value at a key; the default `d` is unlisted. -/
def mset {α : Type} [DecidableEq α] (d : α) (m : Map α) (i : Nat) (v : α) : Map α :=
  if v = d then mdel m i else mput m i v

/-- Changes what a map holds at a key. -/
def mupd {α : Type} [DecidableEq α] (d : α) (m : Map α) (i : Nat) (f : α → α) : Map α :=
  mset d m i (f (mget d m i))

/-- Every value of a map changed; a value that becomes the default is unlisted. -/
def mmap {α : Type} [DecidableEq α] (d : α) (g : α → α) (m : Map α) : Map α :=
  (m.map (fun (k, v) => (k, g v))).filter (fun (_, v) => decide (v ≠ d))

/-- The canonical form of a map: keys strictly rising, no default listed. -/
def mwf {α : Type} [DecidableEq α] (d : α) : Map α → Bool
  | [] => true
  | [(_, v)] => decide (v ≠ d)
  | (k, v) :: (k', v') :: m => decide (v ≠ d) && decide (k < k') && mwf d ((k', v') :: m)

/-! ## Byte memory -/

/-- One byte; an unlisted address reads 0 (R462). -/
def rd (m : List Host.Cell) (a : Nat) : Byte := mget 0 m a

/-- `n` bytes from an address. -/
def rdN (m : List Host.Cell) (a : Nat) : Nat → Bytes
  | 0 => []
  | n + 1 => rd m a :: rdN m (a + 1) n

/-- One byte written. -/
def wr (m : List Host.Cell) (a : Nat) (b : Byte) : List Host.Cell := mset 0 m a b

/-- The cells of a byte string from an address, zero bytes unlisted. -/
def cellsOf : Nat → Bytes → List Host.Cell
  | _, [] => []
  | a, b :: bs => if b = 0 then cellsOf (a + 1) bs else (a, b) :: cellsOf (a + 1) bs

/-- A byte string written from an address. -/
def wrN (m : List Host.Cell) (a : Nat) (bs : Bytes) : List Host.Cell :=
  m.filter (fun c => c.1 < a) ++ cellsOf a bs ++ m.filter (fun c => a + bs.length ≤ c.1)

/-- `n` bytes from an address cleared. -/
def clrN (m : List Host.Cell) (a n : Nat) : List Host.Cell :=
  m.filter (fun c => c.1 < a || a + n ≤ c.1)

/-- The canonical form of a memory. -/
def memWf (m : List Host.Cell) : Bool := mwf (0 : Byte) m

/-- The entries of a map in a range of keys dropped. -/
def mclr {α : Type} (m : Map α) (a n : Nat) : Map α :=
  m.filter (fun c => c.1 < a || a + n ≤ c.1)

/-! ## Bytes and numbers (R10) -/

/-- The number a little-endian byte string holds. -/
def leNat : Bytes → Nat
  | [] => 0
  | b :: bs => b.toNat + 256 * leNat bs

/-- A number as `n` little-endian bytes. -/
def toLE : Nat → Nat → Bytes
  | 0, _ => []
  | n + 1, v => BitVec.ofNat 8 (v % 256) :: toLE n (v / 256)

/-- A big-endian byte string's number, as the wire has GIDs. -/
def beNat (bs : Bytes) : Nat := leNat bs.reverse

/-- `n` bytes of a string from an offset, zero bytes beyond its end. -/
def slice (bs : Bytes) (off n : Nat) : Bytes :=
  let t := (bs.drop off).take n
  t ++ List.replicate (n - t.length) 0

/-- The little-endian number in `n` bytes at an offset. -/
def fld (bs : Bytes) (off n : Nat) : Nat := leNat ((bs.drop off).take n)

/-- Bits `hi` to `lo` of a number. -/
def bits (v hi lo : Nat) : Nat := v / 2 ^ lo % 2 ^ (hi + 1 - lo)

/-- Bit `i` of a number. -/
def bit (v i : Nat) : Bool := v / 2 ^ i % 2 = 1

/-- A number with bits `hi` to `lo` replaced. -/
def setBits (v hi lo x : Nat) : Nat :=
  v % 2 ^ lo + 2 ^ lo * (x % 2 ^ (hi + 1 - lo)) + 2 ^ (hi + 1) * (v / 2 ^ (hi + 1))

/-- All bytes of a string are zero. -/
def allZero (bs : Bytes) : Bool := bs.all (· == 0)

/-- A byte string cut into words, the last completed with zeros. -/
def wordsOf : Nat → Bytes → List Word
  | 0, _ => []
  | n + 1, bs => BitVec.ofNat 32 (leNat (bs.take 4)) :: wordsOf n (bs.drop 4)

/-- Words as bytes. -/
def bytesOf (ws : List Word) : Bytes := ws.flatMap (fun w => toLE 4 w.toNat)

/-- The two's-complement value of an `n`-bit number. -/
def sgn (n v : Nat) : Int := if v % 2 ^ n < 2 ^ (n - 1) then (v % 2 ^ n : Int) else (v % 2 ^ n : Int) - 2 ^ n

/-- An integer as an `n`-bit two's-complement number. -/
def tc (n : Nat) (i : Int) : Nat := (i % (2 ^ n : Int)).toNat

/-- A Boolean as a bit. -/
def b2n (b : Bool) : Nat := if b then 1 else 0

/-- The first list element that satisfies a test is changed. -/
def updFirst {α : Type} (p : α → Bool) (f : α → α) : List α → List α
  | [] => []
  | x :: xs => if p x then f x :: xs else x :: updFirst p f xs

/-- Every list element that satisfies a test is changed. -/
def updAll {α : Type} (p : α → Bool) (f : α → α) (l : List α) : List α :=
  l.map (fun x => if p x then f x else x)

/-- The numbers of set bits below `n`, rising. -/
def bitsSet (n v : Nat) : List Nat := (List.range n).filter (fun i => bit v i)

/-! ## Order of lists -/

/-- Inserted before the first element that it does not follow. -/
def insBy {α : Type} (before : α → α → Bool) (x : α) : List α → List α
  | [] => [x]
  | y :: ys => if before x y then x :: y :: ys else y :: insBy before x ys

/-- A list sorted; equal elements keep their order. -/
def sortBy {α : Type} (before : α → α → Bool) (l : List α) : List α :=
  l.reverse.foldl (fun a x => insBy (fun p q => !before q p) x a) []

end Sys2Proof.Machine
end

