-- ==== Sys2Proof/Machine/RegTable.lean ====
section
/-! DEFINITION. The register map (R505 to R507) and every field map of the chapters as one table:
offset, reset value and the bits of each access code of R14. A bit in no mask is RO or reserved
(R15). `bank` is the selector register of the instance shown, as an address in the same range, or
none. Resets given as 'from the part record', 'sampled' and 'drawn at boot' are 0 here and take
their value at the boot steps that give it (log entry 5). -/

namespace Sys2Proof.Machine

/-- One register, or a run of word registers `off` to `last`. -/
structure RegDef where
  /-- Offset in its range: the part's block half for the global blocks, the range of one core or fold. -/
  off : Nat
  /-- Offset of the last word. -/
  last : Nat
  /-- Reset value. -/
  reset : Nat
  /-- Bits with access RW. -/
  rw : Nat
  /-- Bits with access RWS. -/
  rws : Nat
  /-- Bits with access RW1C. -/
  w1c : Nat
  /-- Bits with access ROS. -/
  ros : Nat
  /-- Bits with access WO. -/
  wo : Nat
  /-- Selector register of the instance shown. -/
  bank : Option Nat
  /-- It is itself a selector, held once per requester (R509). -/
  sel : Bool
  deriving DecidableEq, Repr

/-- GX_POLICY_CTL (R67). -/
def aGxPolicyCtl : Nat := 0x420000
/-- GX_POP_THRESH (R67). -/
def aGxPopThresh : Nat := 0x420004
/-- GX_POLICY_STAT (R67). -/
def aGxPolicyStat : Nat := 0x420008
/-- GX_POP_PERIOD (R67). -/
def aGxPopPeriod : Nat := 0x42000C
/-- GX_PEN_ROW_BASE (R67). -/
def aGxPenRowBase : Nat := 0x420010
/-- GX_PEN_ROW_LIMIT (R67). -/
def aGxPenRowLimit : Nat := 0x420014
/-- GX_ASIDE_PEN (R67). -/
def aGxAsidePen : Nat := 0x420018
/-- GX_ASIDE_PAST (R67). -/
def aGxAsidePast : Nat := 0x42001C
/-- GX_EPOCH_GRACE_MAX (R67). -/
def aGxEpochGraceMax : Nat := 0x420020
/-- GX_DIR_USED (R67). -/
def aGxDirUsed : Nat := 0x420024
/-- GX_CNT_PROMOTE (R67). -/
def aGxCntPromote : Nat := 0x420040
/-- GX_CNT_DEMOTE (R67). -/
def aGxCntDemote : Nat := 0x420044
/-- GX_CNT_REWIDEN (R67). -/
def aGxCntRewiden : Nat := 0x420048
/-- GX_CNT_NARROW (R67). -/
def aGxCntNarrow : Nat := 0x42004C
/-- GX_CNT_PROMOTE_SKIP (R67). -/
def aGxCntPromoteSkip : Nat := 0x420050
/-- GX_CNT_MIG_ABORT (R67). -/
def aGxCntMigAbort : Nat := 0x420054
/-- GX_CNT_RETIRED (R67). -/
def aGxCntRetired : Nat := 0x420058
/-- GX_TBL_SEL (R67). -/
def aGxTblSel : Nat := 0x420080
/-- GX_TBL_STATE (R67). -/
def aGxTblState : Nat := 0x420084
/-- GX_TBL_EPOCH (R67). -/
def aGxTblEpoch : Nat := 0x420088
/-- GX_TBL_PINS_CUR (R67). -/
def aGxTblPinsCur : Nat := 0x42008C
/-- GX_TBL_PINS_PREV (R67). -/
def aGxTblPinsPrev : Nat := 0x420090
/-- GX_TBL_PEN_USE (R67). -/
def aGxTblPenUse : Nat := 0x420094
/-- GX_GATHER_CTL (R98). -/
def aGxGatherCtl : Nat := 0x430000
/-- GX_GATHER_STAT (R98). -/
def aGxGatherStat : Nat := 0x430004
/-- GX_LANE_MAP (R98). -/
def aGxLaneMap : Nat := 0x430008
/-- GX_CTX_FREE (R98). -/
def aGxCtxFree : Nat := 0x43000C
/-- GX_CTX_SEL (R98). -/
def aGxCtxSel : Nat := 0x430010
/-- GX_CTX_STATE (R98). -/
def aGxCtxState : Nat := 0x430014
/-- GX_CNT_PROGRAMS (R98). -/
def aGxCntPrograms : Nat := 0x430040
/-- GX_CNT_LOOKUP_PEN (R98). -/
def aGxCntLookupPen : Nat := 0x430044
/-- GX_CNT_LOOKUP_PAST (R98). -/
def aGxCntLookupPast : Nat := 0x430048
/-- GX_CNT_OOB (R98). -/
def aGxCntOob : Nat := 0x43004C
/-- GX_CNT_BUBBLE (R98). -/
def aGxCntBubble : Nat := 0x430050
/-- GX_CNT_DRAINED (R98). -/
def aGxCntDrained : Nat := 0x430054
/-- RU_CTL (R132). -/
def aRuCtl : Nat := 0x810000
/-- RU_STAT (R132). -/
def aRuStat : Nat := 0x810004
/-- RU_MASTER_POOL (R132). -/
def aRuMasterPool : Nat := 0x810008
/-- RU_JRNL_SIZE (R132). -/
def aRuJrnlSize : Nat := 0x81000C
/-- RU_DLOG_SIZE (R132). -/
def aRuDlogSize : Nat := 0x810010
/-- RU_MASTER_USED (R132). -/
def aRuMasterUsed : Nat := 0x810014
/-- RU_JRNL_USED (R132). -/
def aRuJrnlUsed : Nat := 0x810018
/-- RU_DLOG_USED (R132). -/
def aRuDlogUsed : Nat := 0x81001C
/-- RU_TBL_SEL (R132). -/
def aRuTblSel : Nat := 0x810020
/-- RU_TBL_MASTERS (R132). -/
def aRuTblMasters : Nat := 0x810024
/-- RU_TBL_LATE (R132). -/
def aRuTblLate : Nat := 0x810028
/-- RU_CNT_ROWS (R132). -/
def aRuCntRows : Nat := 0x810040
/-- RU_CNT_MERGED (R132). -/
def aRuCntMerged : Nat := 0x810044
/-- RU_CNT_ADMIT (R132). -/
def aRuCntAdmit : Nat := 0x810048
/-- RU_CNT_ADMIT_SKIP (R132). -/
def aRuCntAdmitSkip : Nat := 0x81004C
/-- RU_CNT_DROP (R132). -/
def aRuCntDrop : Nat := 0x810050
/-- RU_CNT_LATE_LOG (R132). -/
def aRuCntLateLog : Nat := 0x810054
/-- RU_CNT_LATE_APPLY (R132). -/
def aRuCntLateApply : Nat := 0x810058
/-- RU_CNT_LATE_DISCARD (R132). -/
def aRuCntLateDiscard : Nat := 0x81005C
/-- RU_CNT_ROLLFWD (R132). -/
def aRuCntRollfwd : Nat := 0x810060
/-- VE_QS_CTL (R152). -/
def aVeQsCtl : Nat := 0x820000
/-- VE_QS_SSE_LO (R152). -/
def aVeQsSseLo : Nat := 0x820008
/-- VE_QS_SSE_HI (R152). -/
def aVeQsSseHi : Nat := 0x82000C
/-- VE_QS_SS_LO (R152). -/
def aVeQsSsLo : Nat := 0x820010
/-- VE_QS_SS_HI (R152). -/
def aVeQsSsHi : Nat := 0x820014
/-- VE_QS_COUNT_LO (R152). -/
def aVeQsCountLo : Nat := 0x820018
/-- VE_QS_COUNT_HI (R152). -/
def aVeQsCountHi : Nat := 0x82001C
/-- VE_QS_ABSMAX (R152). -/
def aVeQsAbsmax : Nat := 0x820020
/-- VE_QS_ERRMAX (R152). -/
def aVeQsErrmax : Nat := 0x820024
/-- VE_QS_SAT (R152). -/
def aVeQsSat : Nat := 0x820028
/-- VE_QS_NONFINITE (R152). -/
def aVeQsNonfinite : Nat := 0x82002C
/-- VE_CNT_MISALIGN (R152). -/
def aVeCntMisalign : Nat := 0x820030
/-- RU_CONV_CTL (R152). -/
def aRuConvCtl : Nat := 0x810100
/-- RU_CONV_SSE_LO (R152). -/
def aRuConvSseLo : Nat := 0x810108
/-- RU_CONV_SSE_HI (R152). -/
def aRuConvSseHi : Nat := 0x81010C
/-- RU_CONV_SS_LO (R152). -/
def aRuConvSsLo : Nat := 0x810110
/-- RU_CONV_SS_HI (R152). -/
def aRuConvSsHi : Nat := 0x810114
/-- RU_CONV_COUNT_LO (R152). -/
def aRuConvCountLo : Nat := 0x810118
/-- RU_CONV_COUNT_HI (R152). -/
def aRuConvCountHi : Nat := 0x81011C
/-- RU_CONV_ABSMAX (R152). -/
def aRuConvAbsmax : Nat := 0x810120
/-- RU_CONV_ERRMAX (R152). -/
def aRuConvErrmax : Nat := 0x810124
/-- RU_CONV_SAT (R152). -/
def aRuConvSat : Nat := 0x810128
/-- RU_CONV_NONFINITE (R152). -/
def aRuConvNonfinite : Nat := 0x81012C
/-- GX_CNT_TAG_BAD (R152). -/
def aGxCntTagBad : Nat := 0x430058
/-- SQ_CTL (R185). -/
def aSqCtl : Nat := 0x0
/-- SQ_STAT (R185). -/
def aSqStat : Nat := 0x4
/-- SQ_SLOT_SEL (R185). -/
def aSqSlotSel : Nat := 0x8
/-- SQ_SLOT_STATE (R185). -/
def aSqSlotState : Nat := 0xC
/-- SQ_SLOT_PC (R185). -/
def aSqSlotPc : Nat := 0x10
/-- SQ_SLOT_EXC (R185). -/
def aSqSlotExc : Nat := 0x14
/-- SQ_IMEM_USED (R185). -/
def aSqImemUsed : Nat := 0x18
/-- SQ_SCR_VIEW (R185). -/
def aSqScrView : Nat := 0x1C
/-- SQ_CNT_LAUNCH (R185). -/
def aSqCntLaunch : Nat := 0x40
/-- SQ_CNT_BUNDLES (R185). -/
def aSqCntBundles : Nat := 0x44
/-- SQ_CNT_WAIT_CYC (R185). -/
def aSqCntWaitCyc : Nat := 0x48
/-- SQ_CNT_SWITCH (R185). -/
def aSqCntSwitch : Nat := 0x4C
/-- SQ_CNT_ISSUE_FULL (R185). -/
def aSqCntIssueFull : Nat := 0x50
/-- SQ_CNT_ENDED (R185). -/
def aSqCntEnded : Nat := 0x54
/-- MA_STRIP_MAP (R216). -/
def aMaStripMap : Nat := 0x400000
/-- MA_PACE (R216). -/
def aMaPace : Nat := 0x400004
/-- MA_STAT (R216). -/
def aMaStat : Nat := 0x400008
/-- MA_RES_INJ (R216). -/
def aMaResInj : Nat := 0x40000C
/-- MA_CNT_INSTR (R216). -/
def aMaCntInstr : Nat := 0x400040
/-- MA_CNT_BUSY (R216). -/
def aMaCntBusy : Nat := 0x400044
/-- MA_CNT_RESIDUE (R216). -/
def aMaCntResidue : Nat := 0x400048
/-- MA_CNT_POISON (R216). -/
def aMaCntPoison : Nat := 0x40004C
/-- MA_CNT_ECC (R216). -/
def aMaCntEcc : Nat := 0x400050
/-- VE_STAT (R216). -/
def aVeStat : Nat := 0x800000
/-- VE_CNT_INSTR (R216). -/
def aVeCntInstr : Nat := 0x800040
/-- VE_CNT_BUSY (R216). -/
def aVeCntBusy : Nat := 0x800044
/-- VE_CNT_POISON (R216). -/
def aVeCntPoison : Nat := 0x800048
/-- VE_CNT_NAN (R216). -/
def aVeCntNan : Nat := 0x80004C
/-- SQ_CONST_SIZE (R245). -/
def aSqConstSize : Nat := 0x10000
/-- SQ_GS_COUNT (R245). -/
def aSqGsCount : Nat := 0x10004
/-- SQ_GS_FAIL (R245). -/
def aSqGsFail : Nat := 0x10008
/-- SQ_GV_SEL (R245). -/
def aSqGvSel : Nat := 0x1000C
/-- SQ_GV_STATE (R245). -/
def aSqGvState : Nat := 0x10010
/-- SQ_GV_CUR (R245). -/
def aSqGvCur : Nat := 0x10014
/-- SQ_GV_REFS (R245). -/
def aSqGvRefs : Nat := 0x10018
/-- SQ_GV_DIGEST0 (R245). -/
def aSqGvDigest0 : Nat := 0x10020
/-- SQ_GV_DIGEST1 (R245). -/
def aSqGvDigest1 : Nat := 0x10024
/-- SQ_GV_DIGEST2 (R245). -/
def aSqGvDigest2 : Nat := 0x10028
/-- SQ_GV_DIGEST3 (R245). -/
def aSqGvDigest3 : Nat := 0x1002C
/-- SQ_GV_DIGEST4 (R245). -/
def aSqGvDigest4 : Nat := 0x10030
/-- SQ_GV_DIGEST5 (R245). -/
def aSqGvDigest5 : Nat := 0x10034
/-- SQ_GV_DIGEST6 (R245). -/
def aSqGvDigest6 : Nat := 0x10038
/-- SQ_GV_DIGEST7 (R245). -/
def aSqGvDigest7 : Nat := 0x1003C
/-- SQ_CNT_ADMIT_WAIT (R245). -/
def aSqCntAdmitWait : Nat := 0x10040
/-- SQ_CNT_GS_REFUSED (R245). -/
def aSqCntGsRefused : Nat := 0x10044
/-- SQ_CNT_PATCH (R245). -/
def aSqCntPatch : Nat := 0x10048
/-- SQ_CNT_VER_RETIRED (R245). -/
def aSqCntVerRetired : Nat := 0x1004C
/-- FE_STALE_BACKOFF (R282). -/
def aFeStaleBackoff : Nat := 0x100000
/-- FE_STALE_RETRIES (R282). -/
def aFeStaleRetries : Nat := 0x100004
/-- FE_Q0_DB_LO (R282). -/
def aFeQ0DbLo : Nat := 0x100010
/-- FE_Q0_DB_HI (R282). -/
def aFeQ0DbHi : Nat := 0x100014
/-- FE_CNT_ENTRIES (R282). -/
def aFeCntEntries : Nat := 0x100040
/-- FE_CNT_CPL (R282). -/
def aFeCntCpl : Nat := 0x100044
/-- FE_CNT_DB (R282). -/
def aFeCntDb : Nat := 0x100048
/-- FE_CNT_DB_BAD (R282). -/
def aFeCntDbBad : Nat := 0x10004C
/-- FE_CNT_DB_OLD (R282). -/
def aFeCntDbOld : Nat := 0x100050
/-- FE_CNT_STALE (R282). -/
def aFeCntStale : Nat := 0x100054
/-- FE_CNT_HALT (R282). -/
def aFeCntHalt : Nat := 0x100058
/-- FE_CNT_TIMEOUT (R282). -/
def aFeCntTimeout : Nat := 0x10005C
/-- FE_CNT_ABORTED (R282). -/
def aFeCntAborted : Nat := 0x100060
/-- FE_CNT_REJECT (R282). -/
def aFeCntReject : Nat := 0x100064
/-- FE_Q_SEL (R282). -/
def aFeQSel : Nat := 0x110000
/-- FE_Q_CTL (R282). -/
def aFeQCtl : Nat := 0x110004
/-- FE_Q_STATE (R282). -/
def aFeQState : Nat := 0x110008
/-- FE_Q_CONS (R282). -/
def aFeQCons : Nat := 0x11000C
/-- FE_Q_PROD (R282). -/
def aFeQProd : Nat := 0x110010
/-- FE_Q_CPL (R282). -/
def aFeQCpl : Nat := 0x110014
/-- FE_Q_OUTST (R282). -/
def aFeQOutst : Nat := 0x110018
/-- FE_Q_RING_LO (R282). -/
def aFeQRingLo : Nat := 0x110020
/-- FE_Q_RING_HI (R282). -/
def aFeQRingHi : Nat := 0x110024
/-- FE_Q_CQ_LO (R282). -/
def aFeQCqLo : Nat := 0x110028
/-- FE_Q_CQ_HI (R282). -/
def aFeQCqHi : Nat := 0x11002C
/-- FE_Q_CFG (R282). -/
def aFeQCfg : Nat := 0x110030
/-- FE_Q_SESSION (R282). -/
def aFeQSession : Nat := 0x110034
/-- FE_Q_KEY (R282). -/
def aFeQKey : Nat := 0x110038
/-- FE_Q_KEY0 (R282). -/
def aFeQKey0 : Nat := 0x11003C
/-- FE_Q_TIMEOUT (R282). -/
def aFeQTimeout : Nat := 0x110040
/-- NP_PORT_CFG0 (R309). -/
def aNpPortCfg0 : Nat := 0x200000
/-- NP_PORT_CFG1 (R309). -/
def aNpPortCfg1 : Nat := 0x200004
/-- NP_PORT_CFG2 (R309). -/
def aNpPortCfg2 : Nat := 0x200008
/-- NP_PORT_CFG3 (R309). -/
def aNpPortCfg3 : Nat := 0x20000C
/-- NP_PORT_STAT0 (R309). -/
def aNpPortStat0 : Nat := 0x200010
/-- NP_PORT_STAT1 (R309). -/
def aNpPortStat1 : Nat := 0x200014
/-- NP_PORT_STAT2 (R309). -/
def aNpPortStat2 : Nat := 0x200018
/-- NP_PORT_STAT3 (R309). -/
def aNpPortStat3 : Nat := 0x20001C
/-- NP_MAC_SEL (R309). -/
def aNpMacSel : Nat := 0x200020
/-- NP_MAC_IPV6_0 (R309). -/
def aNpMacIpv60 : Nat := 0x200030
/-- NP_MAC_IPV6_1 (R309). -/
def aNpMacIpv61 : Nat := 0x200034
/-- NP_MAC_IPV6_2 (R309). -/
def aNpMacIpv62 : Nat := 0x200038
/-- NP_MAC_IPV6_3 (R309). -/
def aNpMacIpv63 : Nat := 0x20003C
/-- NP_MAC_ADDR_LO (R309). -/
def aNpMacAddrLo : Nat := 0x200024
/-- NP_MAC_IPV4 (R309). -/
def aNpMacIpv4 : Nat := 0x20002C
/-- NP_MAC_ADDR_HI (R309). -/
def aNpMacAddrHi : Nat := 0x200028
/-- NP_MAC_VLAN (R309). -/
def aNpMacVlan : Nat := 0x200040
/-- NP_PTP_CTL (R309). -/
def aNpPtpCtl : Nat := 0x210000
/-- NP_PTP_STAT (R309). -/
def aNpPtpStat : Nat := 0x210004
/-- NP_PTP_TIME_LO (R309). -/
def aNpPtpTimeLo : Nat := 0x210008
/-- NP_PTP_TIME_HI (R309). -/
def aNpPtpTimeHi : Nat := 0x21000C
/-- NP_PTP_OFFSET (R309). -/
def aNpPtpOffset : Nat := 0x210010
/-- NP_PTP_RATE (R309). -/
def aNpPtpRate : Nat := 0x210014
/-- NP_LEASE_TIMEOUT (R309). -/
def aNpLeaseTimeout : Nat := 0x220000
/-- NP_LEASE_RENEW (R309). -/
def aNpLeaseRenew : Nat := 0x220004
/-- NP_LEASE_STAT (R309). -/
def aNpLeaseStat : Nat := 0x220008
/-- NP_SES_SEL (R309). -/
def aNpSesSel : Nat := 0x230000
/-- NP_SES_CTL (R309). -/
def aNpSesCtl : Nat := 0x230004
/-- NP_SES_PERIOD (R309). -/
def aNpSesPeriod : Nat := 0x230008
/-- NP_SES_KEYW (R309). -/
def aNpSesKeyw : Nat := 0x23000C
/-- NP_SES_KEY (R309). -/
def aNpSesKey : Nat := 0x230010
/-- NP_SES_STATE (R309). -/
def aNpSesState : Nat := 0x230014
/-- NP_QP_SEL (R309). -/
def aNpQpSel : Nat := 0x240000
/-- NP_QP_CFG (R309). -/
def aNpQpCfg : Nat := 0x240004
/-- NP_QP_RQPN (R309). -/
def aNpQpRqpn : Nat := 0x240008
/-- NP_QP_SPSN (R309). -/
def aNpQpSpsn : Nat := 0x24000C
/-- NP_QP_RPSN (R309). -/
def aNpQpRpsn : Nat := 0x240010
/-- NP_QP_RGID0 (R309). -/
def aNpQpRgid0 : Nat := 0x240014
/-- NP_QP_RGID1 (R309). -/
def aNpQpRgid1 : Nat := 0x240018
/-- NP_QP_RGID2 (R309). -/
def aNpQpRgid2 : Nat := 0x24001C
/-- NP_QP_RGID3 (R309). -/
def aNpQpRgid3 : Nat := 0x240020
/-- NP_QP_TMO (R309). -/
def aNpQpTmo : Nat := 0x240024
/-- NP_QP_CTL (R309). -/
def aNpQpCtl : Nat := 0x240028
/-- NP_QP_STATE (R309). -/
def aNpQpState : Nat := 0x24002C
/-- NP_CC_CFG (R309). -/
def aNpCcCfg : Nat := 0x250000
/-- NP_CNT_RX_PKT (R309). -/
def aNpCntRxPkt : Nat := 0x260000
/-- NP_CNT_TX_PKT (R309). -/
def aNpCntTxPkt : Nat := 0x260004
/-- NP_CNT_RX_DROP (R309). -/
def aNpCntRxDrop : Nat := 0x260008
/-- NP_CNT_RX_DISCARD (R309). -/
def aNpCntRxDiscard : Nat := 0x26000C
/-- NP_CNT_RETRY (R309). -/
def aNpCntRetry : Nat := 0x260010
/-- NP_CNT_QP_ERR (R309). -/
def aNpCntQpErr : Nat := 0x260014
/-- NP_CNT_CNP_RX (R309). -/
def aNpCntCnpRx : Nat := 0x260018
/-- NP_CNT_CNP_TX (R309). -/
def aNpCntCnpTx : Nat := 0x26001C
/-- NP_CNT_CPL_LOST (R309). -/
def aNpCntCplLost : Nat := 0x260020
/-- NP_CNT_SES_LAPSE (R309). -/
def aNpCntSesLapse : Nat := 0x260024
/-- NP_CNT_CLAIM_IGN (R309). -/
def aNpCntClaimIgn : Nat := 0x260028
/-- XL_STAT (R337). -/
def aXlStat : Nat := 0x400000
/-- XL_ACC_CTL (R337). -/
def aXlAccCtl : Nat := 0x400004
/-- XL_FAULT_WAIT (R337). -/
def aXlFaultWait : Nat := 0x400008
/-- XL_CTX_SEL (R337). -/
def aXlCtxSel : Nat := 0x410000
/-- XL_TGT_SEL (R337). -/
def aXlTgtSel : Nat := 0x410010
/-- XL_MW_SEL (R337). -/
def aXlMwSel : Nat := 0x410020
/-- XL_RWIN_SEL (R337). -/
def aXlRwinSel : Nat := 0x410040
/-- XL_REG_SEL (R337). -/
def aXlRegSel : Nat := 0x410060
/-- XL_TBL_SEL (R337). -/
def aXlTblSel : Nat := 0x420000
/-- XL_CTX_CFG (R337). -/
def aXlCtxCfg : Nat := 0x410004
/-- XL_TGT_CFG (R337). -/
def aXlTgtCfg : Nat := 0x410014
/-- XL_TGT_RKEY (R337). -/
def aXlTgtRkey : Nat := 0x410018
/-- XL_MW_BASE_LO (R337). -/
def aXlMwBaseLo : Nat := 0x410028
/-- XL_MW_BASE_HI (R337). -/
def aXlMwBaseHi : Nat := 0x41002C
/-- XL_MW_PAGES (R337). -/
def aXlMwPages : Nat := 0x410030
/-- XL_FQ_ADDR_LO (R337). -/
def aXlFqAddrLo : Nat := 0x430008
/-- XL_FQ_ADDR_HI (R337). -/
def aXlFqAddrHi : Nat := 0x43000C
/-- XL_MW_CFG (R337). -/
def aXlMwCfg : Nat := 0x410024
/-- XL_MW_TAG (R337). -/
def aXlMwTag : Nat := 0x410034
/-- XL_RWIN_CFG (R337). -/
def aXlRwinCfg : Nat := 0x410044
/-- XL_RWIN_REGION (R337). -/
def aXlRwinRegion : Nat := 0x410048
/-- XL_REG_WORD0 (R337). -/
def aXlRegWord0 : Nat := 0x410064
/-- XL_REG_WORD1 (R337). -/
def aXlRegWord1 : Nat := 0x410068
/-- XL_REG_WORD2 (R337). -/
def aXlRegWord2 : Nat := 0x41006C
/-- XL_REG_WORD3 (R337). -/
def aXlRegWord3 : Nat := 0x410070
/-- XL_REG_WORD4 (R337). -/
def aXlRegWord4 : Nat := 0x410074
/-- XL_REG_WORD5 (R337). -/
def aXlRegWord5 : Nat := 0x410078
/-- XL_REG_WORD6 (R337). -/
def aXlRegWord6 : Nat := 0x41007C
/-- XL_REG_WORD7 (R337). -/
def aXlRegWord7 : Nat := 0x410080
/-- XL_TBL_WIN (R337). -/
def aXlTblWin : Nat := 0x431000
/-- XL_FQ_TGT (R337). -/
def aXlFqTgt : Nat := 0x430000
/-- XL_FQ_CFG (R337). -/
def aXlFqCfg : Nat := 0x430004
/-- XL_FQ_PROD (R337). -/
def aXlFqProd : Nat := 0x430010
/-- XL_FQ_CONS (R337). -/
def aXlFqCons : Nat := 0x430014
/-- XL_CNT_XLAT (R337). -/
def aXlCntXlat : Nat := 0x440000
/-- XL_CNT_MISS (R337). -/
def aXlCntMiss : Nat := 0x440004
/-- XL_CNT_FAULT (R337). -/
def aXlCntFault : Nat := 0x440008
/-- XL_CNT_HOT (R337). -/
def aXlCntHot : Nat := 0x44000C
/-- XL_CNT_DENIED (R337). -/
def aXlCntDenied : Nat := 0x440010
/-- XL_CNT_SYNC (R337). -/
def aXlCntSync : Nat := 0x440014
/-- XL_CNT_FQ_LOST (R337). -/
def aXlCntFqLost : Nat := 0x440018
/-- FM_CAP (R363). -/
def aFmCap : Nat := 0x0
/-- FM_CTL (R363). -/
def aFmCtl : Nat := 0x4
/-- FM_REG_STAT (R363). -/
def aFmRegStat : Nat := 0x8
/-- FM_CH_SEL (R363). -/
def aFmChSel : Nat := 0x10
/-- FM_CH_STAT (R363). -/
def aFmChStat : Nat := 0x14
/-- FM_CH_UE_ADDR (R363). -/
def aFmChUeAddr : Nat := 0x18
/-- FM_CH_CE (R363). -/
def aFmChCe : Nat := 0x20
/-- FM_CH_UE (R363). -/
def aFmChUe : Nat := 0x24
/-- FM_CH_RD_BURST (R363). -/
def aFmChRdBurst : Nat := 0x28
/-- FM_CH_WR_BURST (R363). -/
def aFmChWrBurst : Nat := 0x2C
/-- FM_CH_ACT (R363). -/
def aFmChAct : Nat := 0x30
/-- FM_CH_REF_WAIT (R363). -/
def aFmChRefWait : Nat := 0x34
/-- FM_CH_DRIFT_STEP (R363). -/
def aFmChDriftStep : Nat := 0x38
/-- FM_TRN_CTL (R363). -/
def aFmTrnCtl : Nat := 0x40
/-- FM_TRN_STAT (R363). -/
def aFmTrnStat : Nat := 0x44
/-- FM_PART_SEL (R363). -/
def aFmPartSel : Nat := 0x80
/-- FM_PART_RATE (R363). -/
def aFmPartRate : Nat := 0x84
/-- FM_PART_TOKENS (R363). -/
def aFmPartTokens : Nat := 0x88
/-- FM_PART_QUEUED (R363). -/
def aFmPartQueued : Nat := 0x8C
/-- FM_PART_CNT_BURST (R363). -/
def aFmPartCntBurst : Nat := 0x90
/-- FM_PART_CNT_WAIT (R363). -/
def aFmPartCntWait : Nat := 0x94
/-- FM_PART_CNT_BORROW (R363). -/
def aFmPartCntBorrow : Nat := 0x98
/-- FM_ECC_INJ (R363). -/
def aFmEccInj : Nat := 0xC0
/-- DL_PART_ID (R399). -/
def aDlPartId : Nat := 0x300000
/-- DL_STAT (R399). -/
def aDlStat : Nat := 0x300004
/-- DL_LINK_SEL (R399). -/
def aDlLinkSel : Nat := 0x300010
/-- DL_ROUTE_SEL (R399). -/
def aDlRouteSel : Nat := 0x310000
/-- DL_GRP_SEL (R399). -/
def aDlGrpSel : Nat := 0x320008
/-- DL_LINK_STAT (R399). -/
def aDlLinkStat : Nat := 0x300014
/-- DL_LINK_CTL (R399). -/
def aDlLinkCtl : Nat := 0x300018
/-- DL_LINK_NBR (R399). -/
def aDlLinkNbr : Nat := 0x30001C
/-- DL_LINK_CNT_TX (R399). -/
def aDlLinkCntTx : Nat := 0x300020
/-- DL_LINK_CNT_RX (R399). -/
def aDlLinkCntRx : Nat := 0x300024
/-- DL_LINK_CNT_CRC (R399). -/
def aDlLinkCntCrc : Nat := 0x300028
/-- DL_LINK_CNT_FEC (R399). -/
def aDlLinkCntFec : Nat := 0x30002C
/-- DL_LINK_CNT_RETRY (R399). -/
def aDlLinkCntRetry : Nat := 0x300030
/-- DL_LINK_CNT_DOWN (R399). -/
def aDlLinkCntDown : Nat := 0x300034
/-- DL_ROUTE_CFG (R399). -/
def aDlRouteCfg : Nat := 0x310004
/-- DL_ROUTE_STAT (R399). -/
def aDlRouteStat : Nat := 0x310008
/-- DL_GRP_CTL (R399). -/
def aDlGrpCtl : Nat := 0x320000
/-- DL_GRP_SIZE (R399). -/
def aDlGrpSize : Nat := 0x320004
/-- DL_GRP_MEMBER (R399). -/
def aDlGrpMember : Nat := 0x32000C
/-- DL_COLL_TMO (R399). -/
def aDlCollTmo : Nat := 0x320010
/-- DL_KEY_TMO (R399). -/
def aDlKeyTmo : Nat := 0x320014
/-- DL_BARRIER_TMO (R399). -/
def aDlBarrierTmo : Nat := 0x320018
/-- DL_GRP_STAT (R399). -/
def aDlGrpStat : Nat := 0x32001C
/-- DL_CNT_PIN (R399). -/
def aDlCntPin : Nat := 0x320040
/-- DL_CNT_COLL (R399). -/
def aDlCntColl : Nat := 0x320044
/-- DL_CNT_COLL_FAIL (R399). -/
def aDlCntCollFail : Nat := 0x320048
/-- DL_CNT_BARRIER (R399). -/
def aDlCntBarrier : Nat := 0x32004C
/-- DL_CNT_CANCEL (R399). -/
def aDlCntCancel : Nat := 0x320050
/-- DL_CNT_FWD (R399). -/
def aDlCntFwd : Nat := 0x320054
/-- DL_PAIR_CFG (R399). -/
def aDlPairCfg : Nat := 0x330000
/-- DL_PAIR_STAT (R399). -/
def aDlPairStat : Nat := 0x330004
/-- DL_PAIR_DIV_TID (R399). -/
def aDlPairDivTid : Nat := 0x330008
/-- DL_PAIR_LAST_TAG_LO (R399). -/
def aDlPairLastTagLo : Nat := 0x33000C
/-- DL_PAIR_LAST_TAG_HI (R399). -/
def aDlPairLastTagHi : Nat := 0x330010
/-- DL_CNT_HB_MISS (R399). -/
def aDlCntHbMiss : Nat := 0x330040
/-- DL_CNT_STREAM (R399). -/
def aDlCntStream : Nat := 0x330044
/-- DL_CNT_TAKEOVER (R399). -/
def aDlCntTakeover : Nat := 0x330048
/-- DL_CNT_DIVERGE (R399). -/
def aDlCntDiverge : Nat := 0x33004C
/-- IG_STAT (R427). -/
def aIgStat : Nat := 0x800000
/-- IG_FLOG_CTL (R427). -/
def aIgFlogCtl : Nat := 0x800004
/-- IG_FLOG_PROD (R427). -/
def aIgFlogProd : Nat := 0x800008
/-- IG_FLOG_CONS (R427). -/
def aIgFlogCons : Nat := 0x80000C
/-- IG_FLOG_LOST (R427). -/
def aIgFlogLost : Nat := 0x800010
/-- IG_REPLAY_CTL (R427). -/
def aIgReplayCtl : Nat := 0x800014
/-- IG_UNIT_SEL (R427). -/
def aIgUnitSel : Nat := 0x800018
/-- IG_UNIT_STATE (R427). -/
def aIgUnitState : Nat := 0x80001C
/-- IG_URST (R427). -/
def aIgUrst : Nat := 0x800020
/-- IG_CRESET_CAUSE (R427). -/
def aIgCresetCause : Nat := 0x800024
/-- IG_CRESET_RECNO (R427). -/
def aIgCresetRecno : Nat := 0x800028
/-- IG_FLOG (R427). -/
def aIgFlog : Nat := 0x810000
/-- IG_CNT_POISON (R427). -/
def aIgCntPoison : Nat := 0x820000
/-- IG_CNT_REPLAY (R427). -/
def aIgCntReplay : Nat := 0x820004
/-- IG_CNT_REPLAY_AGREE (R427). -/
def aIgCntReplayAgree : Nat := 0x820008
/-- IG_CNT_REPLAY_FAIL (R427). -/
def aIgCntReplayFail : Nat := 0x82000C
/-- IG_CNT_UNIT_RESET (R427). -/
def aIgCntUnitReset : Nat := 0x820010
/-- IG_CNT_STALE (R427). -/
def aIgCntStale : Nat := 0x820014
/-- IG_CNT_CONTAIN (R427). -/
def aIgCntContain : Nat := 0x820018
/-- IG_CNT_WORLD (R427). -/
def aIgCntWorld : Nat := 0x82001C
/-- PC_SEC_STAT (R448). -/
def aPcSecStat : Nat := 0x20000
/-- PC_WORLD_MAP (R448). -/
def aPcWorldMap : Nat := 0x20004
/-- PC_DEVICE_ID0 (R448). -/
def aPcDeviceId0 : Nat := 0x20010
/-- PC_DEVICE_ID1 (R448). -/
def aPcDeviceId1 : Nat := 0x20014
/-- PC_DEVICE_ID2 (R448). -/
def aPcDeviceId2 : Nat := 0x20018
/-- PC_DEVICE_ID3 (R448). -/
def aPcDeviceId3 : Nat := 0x2001C
/-- PC_DEVICE_ID4 (R448). -/
def aPcDeviceId4 : Nat := 0x20020
/-- PC_DEVICE_ID5 (R448). -/
def aPcDeviceId5 : Nat := 0x20024
/-- PC_DEVICE_ID6 (R448). -/
def aPcDeviceId6 : Nat := 0x20028
/-- PC_DEVICE_ID7 (R448). -/
def aPcDeviceId7 : Nat := 0x2002C
/-- PC_FW_SVN (R448). -/
def aPcFwSvn : Nat := 0x20030
/-- PC_OWNER_KEY0 (R448). -/
def aPcOwnerKey0 : Nat := 0x20040
/-- PC_OWNER_KEY1 (R448). -/
def aPcOwnerKey1 : Nat := 0x20044
/-- PC_OWNER_KEY2 (R448). -/
def aPcOwnerKey2 : Nat := 0x20048
/-- PC_OWNER_KEY3 (R448). -/
def aPcOwnerKey3 : Nat := 0x2004C
/-- PC_OWNER_KEY4 (R448). -/
def aPcOwnerKey4 : Nat := 0x20050
/-- PC_OWNER_KEY5 (R448). -/
def aPcOwnerKey5 : Nat := 0x20054
/-- PC_OWNER_KEY6 (R448). -/
def aPcOwnerKey6 : Nat := 0x20058
/-- PC_OWNER_KEY7 (R448). -/
def aPcOwnerKey7 : Nat := 0x2005C
/-- PC_DBG_NONCE0 (R448). -/
def aPcDbgNonce0 : Nat := 0x20060
/-- PC_DBG_NONCE1 (R448). -/
def aPcDbgNonce1 : Nat := 0x20064
/-- PC_DBG_NONCE2 (R448). -/
def aPcDbgNonce2 : Nat := 0x20068
/-- PC_DBG_NONCE3 (R448). -/
def aPcDbgNonce3 : Nat := 0x2006C
/-- PC_DBG_NONCE4 (R448). -/
def aPcDbgNonce4 : Nat := 0x20070
/-- PC_DBG_NONCE5 (R448). -/
def aPcDbgNonce5 : Nat := 0x20074
/-- PC_DBG_NONCE6 (R448). -/
def aPcDbgNonce6 : Nat := 0x20078
/-- PC_DBG_NONCE7 (R448). -/
def aPcDbgNonce7 : Nat := 0x2007C
/-- PC_DBG_CTL (R448). -/
def aPcDbgCtl : Nat := 0x20080
/-- PC_DBG_STAT (R448). -/
def aPcDbgStat : Nat := 0x20084
/-- PC_CNT_TOKEN_BAD (R448). -/
def aPcCntTokenBad : Nat := 0x20088
/-- PC_DBG_TOKEN (R448). -/
def aPcDbgToken : Nat := 0x21000
/-- PC_CLK_STAT (R469). -/
def aPcClkStat : Nat := 0x10000
/-- PC_BOOT_STAT (R469). -/
def aPcBootStat : Nat := 0x10004
/-- PC_BOOT_TIME (R469). -/
def aPcBootTime : Nat := 0x10008
/-- PC_RST_CAUSE (R469). -/
def aPcRstCause : Nat := 0x1000C
/-- PC_BOOT_TRIES (R469). -/
def aPcBootTries : Nat := 0x10010
/-- PC_RST_CTL (R469). -/
def aPcRstCtl : Nat := 0x10014
/-- PC_FLASH_ADDR (R469). -/
def aPcFlashAddr : Nat := 0x10020
/-- PC_FLASH_CTL (R469). -/
def aPcFlashCtl : Nat := 0x10024
/-- PC_FLASH_BUF (R469). -/
def aPcFlashBuf : Nat := 0x11000
/-- PC_PIN_STAT (R489). -/
def aPcPinStat : Nat := 0x30000
/-- PC_PIN_CFG (R489). -/
def aPcPinCfg : Nat := 0x30004
/-- PC_AVS_STAT (R489). -/
def aPcAvsStat : Nat := 0x30008
/-- PC_CNT_ALERT_IGN (R489). -/
def aPcCntAlertIgn : Nat := 0x30040
/-- PC_CNT_THROTTLE_IGN (R489). -/
def aPcCntThrottleIgn : Nat := 0x30044
/-- PC_CNT_SYNC_IGN (R489). -/
def aPcCntSyncIgn : Nat := 0x30048
/-- PC_CNT_PIN_FAULT (R489). -/
def aPcCntPinFault : Nat := 0x3004C
/-- PC_CNT_STRAP_CHG (R489). -/
def aPcCntStrapChg : Nat := 0x30050
/-- PC_CNT_SB_RESET (R489). -/
def aPcCntSbReset : Nat := 0x30054
/-- PC_CNT_AVS_ERR (R489). -/
def aPcCntAvsErr : Nat := 0x30058
/-- PC_MARGIN_CTL (R504). -/
def aPcMarginCtl : Nat := 0x40000
/-- PC_MARGIN_STAT (R504). -/
def aPcMarginStat : Nat := 0x40004
/-- PC_MON_SEL (R504). -/
def aPcMonSel : Nat := 0x40008
/-- PC_MON_VAL (R504). -/
def aPcMonVal : Nat := 0x4000C
/-- PC_THR_STAT (R504). -/
def aPcThrStat : Nat := 0x40010
/-- PC_THR_CTL (R504). -/
def aPcThrCtl : Nat := 0x40014
/-- PC_TEMP_MAX (R504). -/
def aPcTempMax : Nat := 0x40018
/-- PC_PWR_TOTAL (R504). -/
def aPcPwrTotal : Nat := 0x4001C
/-- PC_ENERGY_LO (R504). -/
def aPcEnergyLo : Nat := 0x40020
/-- PC_ENERGY_HI (R504). -/
def aPcEnergyHi : Nat := 0x40024
/-- PC_PLAN (R504). -/
def aPcPlan : Nat := 0x41000
/-- PC_CNT_REPLAN (R504). -/
def aPcCntReplan : Nat := 0x40040
/-- PC_CNT_EMERG (R504). -/
def aPcCntEmerg : Nat := 0x40044
/-- PC_CNT_THR_MS (R504). -/
def aPcCntThrMs : Nat := 0x40048

/-- Registers of PC, part 1. -/
def regsPc0 : List RegDef := [
  -- PC_CLK_STAT
  ⟨aPcClkStat, 0x10000, 0x0, 0x0, 0x0, 0x0, 0x0, 0x0, none, false⟩,
  -- PC_BOOT_STAT
  ⟨aPcBootStat, 0x10004, 0x0, 0x0, 0x0, 0x0, 0x0, 0x0, none, false⟩,
  -- PC_BOOT_TIME
  ⟨aPcBootTime, 0x10008, 0x0, 0x0, 0x0, 0x0, 0x0, 0x0, none, false⟩,
  -- PC_RST_CAUSE
  ⟨aPcRstCause, 0x1000C, 0x0, 0x0, 0x0, 0x0, 0x0, 0x0, none, false⟩,
  -- PC_BOOT_TRIES
  ⟨aPcBootTries, 0x10010, 0x0, 0x0, 0x0, 0x0, 0x0, 0x0, none, false⟩,
  -- PC_RST_CTL
  ⟨aPcRstCtl, 0x10014, 0x0, 0x0, 0x0, 0x0, 0x0, 0x1, none, false⟩,
  -- PC_FLASH_ADDR
  ⟨aPcFlashAddr, 0x10020, 0x0, 0x0, 0xFFFFFFF, 0x0, 0x0, 0x0, none, false⟩,
  -- PC_FLASH_CTL
  ⟨aPcFlashCtl, 0x10024, 0x0, 0x0, 0x0, 0x10, 0x0, 0x7, none, false⟩,
  -- PC_FLASH_BUF
  ⟨aPcFlashBuf, 0x11FFC, 0x0, 0x0, 0xFFFFFFFF, 0x0, 0x0, 0x0, none, false⟩,
  -- PC_SEC_STAT
  ⟨aPcSecStat, 0x20000, 0x0, 0x0, 0x0, 0x8, 0x0, 0x0, none, false⟩,
  -- PC_WORLD_MAP
  ⟨aPcWorldMap, 0x20004, 0x0, 0x0, 0x3FF, 0x0, 0x0, 0x0, none, false⟩,
  -- PC_DEVICE_ID0
  ⟨aPcDeviceId0, 0x20010, 0x0, 0x0, 0x0, 0x0, 0x0, 0x0, none, false⟩,
  -- PC_DEVICE_ID1
  ⟨aPcDeviceId1, 0x20014, 0x0, 0x0, 0x0, 0x0, 0x0, 0x0, none, false⟩,
  -- PC_DEVICE_ID2
  ⟨aPcDeviceId2, 0x20018, 0x0, 0x0, 0x0, 0x0, 0x0, 0x0, none, false⟩,
  -- PC_DEVICE_ID3
  ⟨aPcDeviceId3, 0x2001C, 0x0, 0x0, 0x0, 0x0, 0x0, 0x0, none, false⟩,
  -- PC_DEVICE_ID4
  ⟨aPcDeviceId4, 0x20020, 0x0, 0x0, 0x0, 0x0, 0x0, 0x0, none, false⟩,
  -- PC_DEVICE_ID5
  ⟨aPcDeviceId5, 0x20024, 0x0, 0x0, 0x0, 0x0, 0x0, 0x0, none, false⟩,
  -- PC_DEVICE_ID6
  ⟨aPcDeviceId6, 0x20028, 0x0, 0x0, 0x0, 0x0, 0x0, 0x0, none, false⟩,
  -- PC_DEVICE_ID7
  ⟨aPcDeviceId7, 0x2002C, 0x0, 0x0, 0x0, 0x0, 0x0, 0x0, none, false⟩,
  -- PC_FW_SVN
  ⟨aPcFwSvn, 0x20030, 0x0, 0x0, 0x0, 0x0, 0x0, 0x0, none, false⟩,
  -- PC_OWNER_KEY0
  ⟨aPcOwnerKey0, 0x20040, 0x0, 0x0, 0xFFFFFFFF, 0x0, 0x0, 0x0, none, false⟩,
  -- PC_OWNER_KEY1
  ⟨aPcOwnerKey1, 0x20044, 0x0, 0x0, 0xFFFFFFFF, 0x0, 0x0, 0x0, none, false⟩,
  -- PC_OWNER_KEY2
  ⟨aPcOwnerKey2, 0x20048, 0x0, 0x0, 0xFFFFFFFF, 0x0, 0x0, 0x0, none, false⟩,
  -- PC_OWNER_KEY3
  ⟨aPcOwnerKey3, 0x2004C, 0x0, 0x0, 0xFFFFFFFF, 0x0, 0x0, 0x0, none, false⟩,
  -- PC_OWNER_KEY4
  ⟨aPcOwnerKey4, 0x20050, 0x0, 0x0, 0xFFFFFFFF, 0x0, 0x0, 0x0, none, false⟩]

/-- Registers of PC, part 2. -/
def regsPc1 : List RegDef := [
  -- PC_OWNER_KEY5
  ⟨aPcOwnerKey5, 0x20054, 0x0, 0x0, 0xFFFFFFFF, 0x0, 0x0, 0x0, none, false⟩,
  -- PC_OWNER_KEY6
  ⟨aPcOwnerKey6, 0x20058, 0x0, 0x0, 0xFFFFFFFF, 0x0, 0x0, 0x0, none, false⟩,
  -- PC_OWNER_KEY7
  ⟨aPcOwnerKey7, 0x2005C, 0x0, 0x0, 0xFFFFFFFF, 0x0, 0x0, 0x0, none, false⟩,
  -- PC_DBG_NONCE0
  ⟨aPcDbgNonce0, 0x20060, 0x0, 0x0, 0x0, 0x0, 0xFFFFFFFF, 0x0, none, false⟩,
  -- PC_DBG_NONCE1
  ⟨aPcDbgNonce1, 0x20064, 0x0, 0x0, 0x0, 0x0, 0xFFFFFFFF, 0x0, none, false⟩,
  -- PC_DBG_NONCE2
  ⟨aPcDbgNonce2, 0x20068, 0x0, 0x0, 0x0, 0x0, 0xFFFFFFFF, 0x0, none, false⟩,
  -- PC_DBG_NONCE3
  ⟨aPcDbgNonce3, 0x2006C, 0x0, 0x0, 0x0, 0x0, 0xFFFFFFFF, 0x0, none, false⟩,
  -- PC_DBG_NONCE4
  ⟨aPcDbgNonce4, 0x20070, 0x0, 0x0, 0x0, 0x0, 0xFFFFFFFF, 0x0, none, false⟩,
  -- PC_DBG_NONCE5
  ⟨aPcDbgNonce5, 0x20074, 0x0, 0x0, 0x0, 0x0, 0xFFFFFFFF, 0x0, none, false⟩,
  -- PC_DBG_NONCE6
  ⟨aPcDbgNonce6, 0x20078, 0x0, 0x0, 0x0, 0x0, 0xFFFFFFFF, 0x0, none, false⟩,
  -- PC_DBG_NONCE7
  ⟨aPcDbgNonce7, 0x2007C, 0x0, 0x0, 0x0, 0x0, 0xFFFFFFFF, 0x0, none, false⟩,
  -- PC_DBG_CTL
  ⟨aPcDbgCtl, 0x20080, 0x0, 0x0, 0x0, 0x0, 0x0, 0x1, none, false⟩,
  -- PC_DBG_STAT
  ⟨aPcDbgStat, 0x20084, 0x0, 0x0, 0x0, 0x0, 0x0, 0x0, none, false⟩,
  -- PC_CNT_TOKEN_BAD
  ⟨aPcCntTokenBad, 0x20088, 0x0, 0x0, 0x0, 0x0, 0x0, 0x0, none, false⟩,
  -- PC_DBG_TOKEN
  ⟨aPcDbgToken, 0x21FFC, 0x0, 0x0, 0xFFFFFFFF, 0x0, 0x0, 0x0, none, false⟩,
  -- PC_PIN_STAT
  ⟨aPcPinStat, 0x30000, 0x0, 0x0, 0x0, 0x80, 0x0, 0x0, none, false⟩,
  -- PC_PIN_CFG
  ⟨aPcPinCfg, 0x30004, 0x1E, 0x0, 0xFFF, 0x0, 0x0, 0x0, none, false⟩,
  -- PC_AVS_STAT
  ⟨aPcAvsStat, 0x30008, 0xC8320, 0x0, 0x0, 0x100000, 0x0, 0x0, none, false⟩,
  -- PC_CNT_ALERT_IGN
  ⟨aPcCntAlertIgn, 0x30040, 0x0, 0x0, 0x0, 0x0, 0x0, 0x0, none, false⟩,
  -- PC_CNT_THROTTLE_IGN
  ⟨aPcCntThrottleIgn, 0x30044, 0x0, 0x0, 0x0, 0x0, 0x0, 0x0, none, false⟩,
  -- PC_CNT_SYNC_IGN
  ⟨aPcCntSyncIgn, 0x30048, 0x0, 0x0, 0x0, 0x0, 0x0, 0x0, none, false⟩,
  -- PC_CNT_PIN_FAULT
  ⟨aPcCntPinFault, 0x3004C, 0x0, 0x0, 0x0, 0x0, 0x0, 0x0, none, false⟩,
  -- PC_CNT_STRAP_CHG
  ⟨aPcCntStrapChg, 0x30050, 0x0, 0x0, 0x0, 0x0, 0x0, 0x0, none, false⟩,
  -- PC_CNT_SB_RESET
  ⟨aPcCntSbReset, 0x30054, 0x0, 0x0, 0x0, 0x0, 0x0, 0x0, none, false⟩,
  -- PC_CNT_AVS_ERR
  ⟨aPcCntAvsErr, 0x30058, 0x0, 0x0, 0x0, 0x0, 0x0, 0x0, none, false⟩]

/-- Registers of PC, part 3. -/
def regsPc2 : List RegDef := [
  -- PC_MARGIN_CTL
  ⟨aPcMarginCtl, 0x40000, 0x1419018, 0x0, 0x3FFFFFF, 0x0, 0x0, 0x4000000, none, false⟩,
  -- PC_MARGIN_STAT
  ⟨aPcMarginStat, 0x40004, 0x0, 0x0, 0x0, 0x18, 0x0, 0x0, none, false⟩,
  -- PC_MON_SEL
  ⟨aPcMonSel, 0x40008, 0x0, 0x3F, 0x0, 0x0, 0x0, 0x0, none, true⟩,
  -- PC_MON_VAL
  ⟨aPcMonVal, 0x4000C, 0x0, 0x0, 0x0, 0x0, 0x0, 0x0, (some aPcMonSel), false⟩,
  -- PC_THR_STAT
  ⟨aPcThrStat, 0x40010, 0x10, 0x0, 0x0, 0x0, 0x0, 0x0, none, false⟩,
  -- PC_THR_CTL
  ⟨aPcThrCtl, 0x40014, 0x2BC64, 0x0, 0xFFFFF, 0x0, 0x0, 0x0, none, false⟩,
  -- PC_TEMP_MAX
  ⟨aPcTempMax, 0x40018, 0x0, 0x0, 0x0, 0x0, 0x0, 0x0, none, false⟩,
  -- PC_PWR_TOTAL
  ⟨aPcPwrTotal, 0x4001C, 0x0, 0x0, 0x0, 0x0, 0x0, 0x0, none, false⟩,
  -- PC_ENERGY_LO
  ⟨aPcEnergyLo, 0x40020, 0x0, 0x0, 0x0, 0x0, 0x0, 0x0, none, false⟩,
  -- PC_ENERGY_HI
  ⟨aPcEnergyHi, 0x40024, 0x0, 0x0, 0x0, 0x0, 0x0, 0x0, none, false⟩,
  -- PC_CNT_REPLAN
  ⟨aPcCntReplan, 0x40040, 0x0, 0x0, 0x0, 0x0, 0x0, 0x0, none, false⟩,
  -- PC_CNT_EMERG
  ⟨aPcCntEmerg, 0x40044, 0x0, 0x0, 0x0, 0x0, 0x0, 0x0, none, false⟩,
  -- PC_CNT_THR_MS
  ⟨aPcCntThrMs, 0x40048, 0x0, 0x0, 0x0, 0x0, 0x0, 0x0, none, false⟩,
  -- PC_PLAN
  ⟨aPcPlan, 0x410FC, 0x0, 0x0, 0x0, 0x0, 0x0, 0x0, none, false⟩]

/-- Registers of PC. -/
def regsPc : List RegDef := regsPc0 ++ regsPc1 ++ regsPc2

/-- Registers of FE, part 1. -/
def regsFe0 : List RegDef := [
  -- FE_STALE_BACKOFF
  ⟨aFeStaleBackoff, 0x100000, 0x2, 0x0, 0x3FF, 0x0, 0x0, 0x0, none, false⟩,
  -- FE_STALE_RETRIES
  ⟨aFeStaleRetries, 0x100004, 0x8, 0x0, 0xFF, 0x0, 0x0, 0x0, none, false⟩,
  -- FE_Q0_DB_LO
  ⟨aFeQ0DbLo, 0x100010, 0x0, 0x0, 0x0, 0x0, 0x0, 0xFFFFFFFF, none, false⟩,
  -- FE_Q0_DB_HI
  ⟨aFeQ0DbHi, 0x100014, 0x0, 0x0, 0x0, 0x0, 0x0, 0xFFFFFFFF, none, false⟩,
  -- FE_CNT_ENTRIES
  ⟨aFeCntEntries, 0x100040, 0x0, 0x0, 0x0, 0x0, 0x0, 0x0, none, false⟩,
  -- FE_CNT_CPL
  ⟨aFeCntCpl, 0x100044, 0x0, 0x0, 0x0, 0x0, 0x0, 0x0, none, false⟩,
  -- FE_CNT_DB
  ⟨aFeCntDb, 0x100048, 0x0, 0x0, 0x0, 0x0, 0x0, 0x0, none, false⟩,
  -- FE_CNT_DB_BAD
  ⟨aFeCntDbBad, 0x10004C, 0x0, 0x0, 0x0, 0x0, 0x0, 0x0, none, false⟩,
  -- FE_CNT_DB_OLD
  ⟨aFeCntDbOld, 0x100050, 0x0, 0x0, 0x0, 0x0, 0x0, 0x0, none, false⟩,
  -- FE_CNT_STALE
  ⟨aFeCntStale, 0x100054, 0x0, 0x0, 0x0, 0x0, 0x0, 0x0, none, false⟩,
  -- FE_CNT_HALT
  ⟨aFeCntHalt, 0x100058, 0x0, 0x0, 0x0, 0x0, 0x0, 0x0, none, false⟩,
  -- FE_CNT_TIMEOUT
  ⟨aFeCntTimeout, 0x10005C, 0x0, 0x0, 0x0, 0x0, 0x0, 0x0, none, false⟩,
  -- FE_CNT_ABORTED
  ⟨aFeCntAborted, 0x100060, 0x0, 0x0, 0x0, 0x0, 0x0, 0x0, none, false⟩,
  -- FE_CNT_REJECT
  ⟨aFeCntReject, 0x100064, 0x0, 0x0, 0x0, 0x0, 0x0, 0x0, none, false⟩,
  -- FE_Q_SEL
  ⟨aFeQSel, 0x110000, 0x0, 0x3FF, 0x0, 0x0, 0x0, 0x0, none, true⟩,
  -- FE_Q_CTL
  ⟨aFeQCtl, 0x110004, 0x0, 0x0, 0x1, 0x0, 0x0, 0x0, (some aFeQSel), false⟩,
  -- FE_Q_STATE
  ⟨aFeQState, 0x110008, 0x0, 0x0, 0x0, 0x8, 0x0, 0x0, (some aFeQSel), false⟩,
  -- FE_Q_CONS
  ⟨aFeQCons, 0x11000C, 0x0, 0x0, 0x0, 0x0, 0x0, 0x0, (some aFeQSel), false⟩,
  -- FE_Q_PROD
  ⟨aFeQProd, 0x110010, 0x0, 0x0, 0x0, 0x0, 0x0, 0x0, (some aFeQSel), false⟩,
  -- FE_Q_CPL
  ⟨aFeQCpl, 0x110014, 0x0, 0x0, 0x0, 0x0, 0x0, 0x0, (some aFeQSel), false⟩,
  -- FE_Q_OUTST
  ⟨aFeQOutst, 0x110018, 0x0, 0x0, 0x0, 0x0, 0x0, 0x0, (some aFeQSel), false⟩,
  -- FE_Q_RING_LO
  ⟨aFeQRingLo, 0x110020, 0x0, 0x0, 0xFFFFFFFF, 0x0, 0x0, 0x0, (some aFeQSel), false⟩,
  -- FE_Q_RING_HI
  ⟨aFeQRingHi, 0x110024, 0x0, 0x0, 0xFFFFFFFF, 0x0, 0x0, 0x0, (some aFeQSel), false⟩,
  -- FE_Q_CQ_LO
  ⟨aFeQCqLo, 0x110028, 0x0, 0x0, 0xFFFFFFFF, 0x0, 0x0, 0x0, (some aFeQSel), false⟩,
  -- FE_Q_CQ_HI
  ⟨aFeQCqHi, 0x11002C, 0x0, 0x0, 0xFFFFFFFF, 0x0, 0x0, 0x0, (some aFeQSel), false⟩]

/-- Registers of FE, part 2. -/
def regsFe1 : List RegDef := [
  -- FE_Q_CFG
  ⟨aFeQCfg, 0x110030, 0x100006, 0x0, 0x1FFFFF, 0x0, 0x0, 0x0, (some aFeQSel), false⟩,
  -- FE_Q_SESSION
  ⟨aFeQSession, 0x110034, 0x0, 0x0, 0xFFFF, 0x0, 0x0, 0x0, (some aFeQSel), false⟩,
  -- FE_Q_KEY
  ⟨aFeQKey, 0x110038, 0x0, 0x0, 0x0, 0x0, 0xFFFFFFFF, 0x0, (some aFeQSel), false⟩,
  -- FE_Q_KEY0
  ⟨aFeQKey0, 0x11003C, 0x0, 0x0, 0x0, 0x0, 0x0, 0xFFFFFFFF, none, false⟩,
  -- FE_Q_TIMEOUT
  ⟨aFeQTimeout, 0x110040, 0xF4240, 0x0, 0x3FFFFF, 0x0, 0x0, 0x0, (some aFeQSel), false⟩]

/-- Registers of FE. -/
def regsFe : List RegDef := regsFe0 ++ regsFe1

/-- Registers of NP, part 1. -/
def regsNp0 : List RegDef := [
  -- NP_PORT_CFG0
  ⟨aNpPortCfg0, 0x200000, 0x58, 0x0, 0x7F, 0x0, 0x0, 0x0, none, false⟩,
  -- NP_PORT_CFG1
  ⟨aNpPortCfg1, 0x200004, 0x58, 0x0, 0x7F, 0x0, 0x0, 0x0, none, false⟩,
  -- NP_PORT_CFG2
  ⟨aNpPortCfg2, 0x200008, 0x58, 0x0, 0x7F, 0x0, 0x0, 0x0, none, false⟩,
  -- NP_PORT_CFG3
  ⟨aNpPortCfg3, 0x20000C, 0x58, 0x0, 0x7F, 0x0, 0x0, 0x0, none, false⟩,
  -- NP_PORT_STAT0
  ⟨aNpPortStat0, 0x200010, 0x0, 0x0, 0x0, 0xC, 0x0, 0x0, none, false⟩,
  -- NP_PORT_STAT1
  ⟨aNpPortStat1, 0x200014, 0x0, 0x0, 0x0, 0xC, 0x0, 0x0, none, false⟩,
  -- NP_PORT_STAT2
  ⟨aNpPortStat2, 0x200018, 0x0, 0x0, 0x0, 0xC, 0x0, 0x0, none, false⟩,
  -- NP_PORT_STAT3
  ⟨aNpPortStat3, 0x20001C, 0x0, 0x0, 0x0, 0xC, 0x0, 0x0, none, false⟩,
  -- NP_MAC_SEL
  ⟨aNpMacSel, 0x200020, 0x0, 0xF, 0x0, 0x0, 0x0, 0x0, none, true⟩,
  -- NP_MAC_ADDR_LO
  ⟨aNpMacAddrLo, 0x200024, 0x0, 0x0, 0xFFFFFFFF, 0x0, 0x0, 0x0, (some aNpMacSel), false⟩,
  -- NP_MAC_ADDR_HI
  ⟨aNpMacAddrHi, 0x200028, 0x0, 0x0, 0xFFFF, 0x0, 0x0, 0x0, (some aNpMacSel), false⟩,
  -- NP_MAC_IPV4
  ⟨aNpMacIpv4, 0x20002C, 0x0, 0x0, 0xFFFFFFFF, 0x0, 0x0, 0x0, (some aNpMacSel), false⟩,
  -- NP_MAC_IPV6_0
  ⟨aNpMacIpv60, 0x200030, 0x0, 0x0, 0xFFFFFFFF, 0x0, 0x0, 0x0, (some aNpMacSel), false⟩,
  -- NP_MAC_IPV6_1
  ⟨aNpMacIpv61, 0x200034, 0x0, 0x0, 0xFFFFFFFF, 0x0, 0x0, 0x0, (some aNpMacSel), false⟩,
  -- NP_MAC_IPV6_2
  ⟨aNpMacIpv62, 0x200038, 0x0, 0x0, 0xFFFFFFFF, 0x0, 0x0, 0x0, (some aNpMacSel), false⟩,
  -- NP_MAC_IPV6_3
  ⟨aNpMacIpv63, 0x20003C, 0x0, 0x0, 0xFFFFFFFF, 0x0, 0x0, 0x0, (some aNpMacSel), false⟩,
  -- NP_MAC_VLAN
  ⟨aNpMacVlan, 0x200040, 0x34000, 0x0, 0x7FFFF, 0x0, 0x0, 0x0, (some aNpMacSel), false⟩,
  -- NP_PTP_CTL
  ⟨aNpPtpCtl, 0x210000, 0x10, 0x0, 0x3FFF, 0x0, 0x0, 0x4000, none, false⟩,
  -- NP_PTP_STAT
  ⟨aNpPtpStat, 0x210004, 0x0, 0x0, 0x0, 0x8, 0x0, 0x0, none, false⟩,
  -- NP_PTP_TIME_LO
  ⟨aNpPtpTimeLo, 0x210008, 0x0, 0x0, 0x0, 0x0, 0x0, 0x0, none, false⟩,
  -- NP_PTP_TIME_HI
  ⟨aNpPtpTimeHi, 0x21000C, 0x0, 0x0, 0x0, 0x0, 0x0, 0x0, none, false⟩,
  -- NP_PTP_OFFSET
  ⟨aNpPtpOffset, 0x210010, 0x0, 0x0, 0x0, 0x0, 0x0, 0x0, none, false⟩,
  -- NP_PTP_RATE
  ⟨aNpPtpRate, 0x210014, 0x0, 0x0, 0x0, 0x0, 0x0, 0x0, none, false⟩,
  -- NP_LEASE_TIMEOUT
  ⟨aNpLeaseTimeout, 0x220000, 0x0, 0x0, 0xFFFF, 0x0, 0x0, 0x0, none, false⟩,
  -- NP_LEASE_RENEW
  ⟨aNpLeaseRenew, 0x220004, 0x0, 0x0, 0x0, 0x0, 0x0, 0x1, none, false⟩]

/-- Registers of NP, part 2. -/
def regsNp1 : List RegDef := [
  -- NP_LEASE_STAT
  ⟨aNpLeaseStat, 0x220008, 0x0, 0x0, 0x0, 0x0, 0x0, 0x0, none, false⟩,
  -- NP_SES_SEL
  ⟨aNpSesSel, 0x230000, 0x0, 0x3FF, 0x0, 0x0, 0x0, 0x0, none, true⟩,
  -- NP_SES_CTL
  ⟨aNpSesCtl, 0x230004, 0x0, 0x0, 0x0, 0x0, 0x0, 0x3, (some aNpSesSel), false⟩,
  -- NP_SES_PERIOD
  ⟨aNpSesPeriod, 0x230008, 0x3E8, 0x0, 0xFFFF, 0x0, 0x0, 0x0, (some aNpSesSel), false⟩,
  -- NP_SES_KEYW
  ⟨aNpSesKeyw, 0x23000C, 0x0, 0x0, 0x0, 0x0, 0x0, 0xFFFFFFFF, (some aNpSesSel), false⟩,
  -- NP_SES_KEY
  ⟨aNpSesKey, 0x230010, 0x0, 0x0, 0x0, 0x0, 0xFFFFFFFF, 0x0, (some aNpSesSel), false⟩,
  -- NP_SES_STATE
  ⟨aNpSesState, 0x230014, 0x0, 0x0, 0x0, 0x2, 0x0, 0x0, (some aNpSesSel), false⟩,
  -- NP_QP_SEL
  ⟨aNpQpSel, 0x240000, 0x0, 0x1FFF, 0x0, 0x0, 0x0, 0x0, none, true⟩,
  -- NP_QP_CFG
  ⟨aNpQpCfg, 0x240004, 0x60, 0x0, 0x7FFFF, 0x0, 0x0, 0x0, (some aNpQpSel), false⟩,
  -- NP_QP_RQPN
  ⟨aNpQpRqpn, 0x240008, 0x0, 0x0, 0xFFFFFF, 0x0, 0x0, 0x0, (some aNpQpSel), false⟩,
  -- NP_QP_SPSN
  ⟨aNpQpSpsn, 0x24000C, 0x0, 0x0, 0xFFFFFF, 0x0, 0x0, 0x0, (some aNpQpSel), false⟩,
  -- NP_QP_RPSN
  ⟨aNpQpRpsn, 0x240010, 0x0, 0x0, 0xFFFFFF, 0x0, 0x0, 0x0, (some aNpQpSel), false⟩,
  -- NP_QP_RGID0
  ⟨aNpQpRgid0, 0x240014, 0x0, 0x0, 0xFFFFFFFF, 0x0, 0x0, 0x0, (some aNpQpSel), false⟩,
  -- NP_QP_RGID1
  ⟨aNpQpRgid1, 0x240018, 0x0, 0x0, 0xFFFFFFFF, 0x0, 0x0, 0x0, (some aNpQpSel), false⟩,
  -- NP_QP_RGID2
  ⟨aNpQpRgid2, 0x24001C, 0x0, 0x0, 0xFFFFFFFF, 0x0, 0x0, 0x0, (some aNpQpSel), false⟩,
  -- NP_QP_RGID3
  ⟨aNpQpRgid3, 0x240020, 0x0, 0x0, 0xFFFFFFFF, 0x0, 0x0, 0x0, (some aNpQpSel), false⟩,
  -- NP_QP_TMO
  ⟨aNpQpTmo, 0x240024, 0x7E8, 0x0, 0x7FF, 0x0, 0x0, 0x0, (some aNpQpSel), false⟩,
  -- NP_QP_CTL
  ⟨aNpQpCtl, 0x240028, 0x0, 0x0, 0x0, 0x0, 0x0, 0x3, (some aNpQpSel), false⟩,
  -- NP_QP_STATE
  ⟨aNpQpState, 0x24002C, 0x0, 0x0, 0x0, 0x0, 0x0, 0x0, (some aNpQpSel), false⟩,
  -- NP_CC_CFG
  ⟨aNpCcCfg, 0x250000, 0x9B82993, 0x0, 0xFFFFFFF, 0x0, 0x0, 0x0, none, false⟩,
  -- NP_CNT_RX_PKT
  ⟨aNpCntRxPkt, 0x260000, 0x0, 0x0, 0x0, 0x0, 0x0, 0x0, none, false⟩,
  -- NP_CNT_TX_PKT
  ⟨aNpCntTxPkt, 0x260004, 0x0, 0x0, 0x0, 0x0, 0x0, 0x0, none, false⟩,
  -- NP_CNT_RX_DROP
  ⟨aNpCntRxDrop, 0x260008, 0x0, 0x0, 0x0, 0x0, 0x0, 0x0, none, false⟩,
  -- NP_CNT_RX_DISCARD
  ⟨aNpCntRxDiscard, 0x26000C, 0x0, 0x0, 0x0, 0x0, 0x0, 0x0, none, false⟩,
  -- NP_CNT_RETRY
  ⟨aNpCntRetry, 0x260010, 0x0, 0x0, 0x0, 0x0, 0x0, 0x0, none, false⟩]

/-- Registers of NP, part 3. -/
def regsNp2 : List RegDef := [
  -- NP_CNT_QP_ERR
  ⟨aNpCntQpErr, 0x260014, 0x0, 0x0, 0x0, 0x0, 0x0, 0x0, none, false⟩,
  -- NP_CNT_CNP_RX
  ⟨aNpCntCnpRx, 0x260018, 0x0, 0x0, 0x0, 0x0, 0x0, 0x0, none, false⟩,
  -- NP_CNT_CNP_TX
  ⟨aNpCntCnpTx, 0x26001C, 0x0, 0x0, 0x0, 0x0, 0x0, 0x0, none, false⟩,
  -- NP_CNT_CPL_LOST
  ⟨aNpCntCplLost, 0x260020, 0x0, 0x0, 0x0, 0x0, 0x0, 0x0, none, false⟩,
  -- NP_CNT_SES_LAPSE
  ⟨aNpCntSesLapse, 0x260024, 0x0, 0x0, 0x0, 0x0, 0x0, 0x0, none, false⟩,
  -- NP_CNT_CLAIM_IGN
  ⟨aNpCntClaimIgn, 0x260028, 0x0, 0x0, 0x0, 0x0, 0x0, 0x0, none, false⟩]

/-- Registers of NP. -/
def regsNp : List RegDef := regsNp0 ++ regsNp1 ++ regsNp2

/-- Registers of DL, part 1. -/
def regsDl0 : List RegDef := [
  -- DL_PART_ID
  ⟨aDlPartId, 0x300000, 0xFFF, 0x0, 0xFFF, 0x0, 0x0, 0x0, none, false⟩,
  -- DL_STAT
  ⟨aDlStat, 0x300004, 0x0, 0x0, 0x0, 0x3, 0x0, 0x0, none, false⟩,
  -- DL_LINK_SEL
  ⟨aDlLinkSel, 0x300010, 0x0, 0xFFF, 0x0, 0x0, 0x0, 0x0, none, true⟩,
  -- DL_LINK_STAT
  ⟨aDlLinkStat, 0x300014, 0x0, 0x0, 0x0, 0x0, 0x0, 0x0, (some aDlLinkSel), false⟩,
  -- DL_LINK_CTL
  ⟨aDlLinkCtl, 0x300018, 0x1, 0x0, 0x1, 0x0, 0x0, 0x2, (some aDlLinkSel), false⟩,
  -- DL_LINK_NBR
  ⟨aDlLinkNbr, 0x30001C, 0xFFF, 0x0, 0x0, 0x0, 0x0, 0x0, (some aDlLinkSel), false⟩,
  -- DL_LINK_CNT_TX
  ⟨aDlLinkCntTx, 0x300020, 0x0, 0x0, 0x0, 0x0, 0x0, 0x0, (some aDlLinkSel), false⟩,
  -- DL_LINK_CNT_RX
  ⟨aDlLinkCntRx, 0x300024, 0x0, 0x0, 0x0, 0x0, 0x0, 0x0, (some aDlLinkSel), false⟩,
  -- DL_LINK_CNT_CRC
  ⟨aDlLinkCntCrc, 0x300028, 0x0, 0x0, 0x0, 0x0, 0x0, 0x0, (some aDlLinkSel), false⟩,
  -- DL_LINK_CNT_FEC
  ⟨aDlLinkCntFec, 0x30002C, 0x0, 0x0, 0x0, 0x0, 0x0, 0x0, (some aDlLinkSel), false⟩,
  -- DL_LINK_CNT_RETRY
  ⟨aDlLinkCntRetry, 0x300030, 0x0, 0x0, 0x0, 0x0, 0x0, 0x0, (some aDlLinkSel), false⟩,
  -- DL_LINK_CNT_DOWN
  ⟨aDlLinkCntDown, 0x300034, 0x0, 0x0, 0x0, 0x0, 0x0, 0x0, (some aDlLinkSel), false⟩,
  -- DL_ROUTE_SEL
  ⟨aDlRouteSel, 0x310000, 0x0, 0xFFF, 0x0, 0x0, 0x0, 0x0, none, true⟩,
  -- DL_ROUTE_CFG
  ⟨aDlRouteCfg, 0x310004, 0xFFFFFF, 0x0, 0xFFFFFFFF, 0x0, 0x0, 0x0, (some aDlRouteSel), false⟩,
  -- DL_ROUTE_STAT
  ⟨aDlRouteStat, 0x310008, 0x0, 0x0, 0x0, 0x0, 0x0, 0x0, (some aDlRouteSel), false⟩,
  -- DL_GRP_CTL
  ⟨aDlGrpCtl, 0x320000, 0x0, 0x0, 0x1, 0x0, 0x0, 0x2, none, false⟩,
  -- DL_GRP_SIZE
  ⟨aDlGrpSize, 0x320004, 0x0, 0x0, 0xFFF0FFF, 0x0, 0x0, 0x0, none, false⟩,
  -- DL_GRP_SEL
  ⟨aDlGrpSel, 0x320008, 0x0, 0xFFF, 0x0, 0x0, 0x0, 0x0, none, true⟩,
  -- DL_GRP_MEMBER
  ⟨aDlGrpMember, 0x32000C, 0xFFF0FFF, 0x0, 0xFFF0FFF, 0x0, 0x0, 0x0, (some aDlGrpSel), false⟩,
  -- DL_COLL_TMO
  ⟨aDlCollTmo, 0x320010, 0x3E8, 0x0, 0xFFFF, 0x0, 0x0, 0x0, none, false⟩,
  -- DL_KEY_TMO
  ⟨aDlKeyTmo, 0x320014, 0x7D0, 0x0, 0xFFFF, 0x0, 0x0, 0x0, none, false⟩,
  -- DL_BARRIER_TMO
  ⟨aDlBarrierTmo, 0x320018, 0xA, 0x0, 0xFFFF, 0x0, 0x0, 0x0, none, false⟩,
  -- DL_GRP_STAT
  ⟨aDlGrpStat, 0x32001C, 0x0, 0x0, 0x0, 0x3, 0x0, 0x0, none, false⟩,
  -- DL_CNT_PIN
  ⟨aDlCntPin, 0x320040, 0x0, 0x0, 0x0, 0x0, 0x0, 0x0, none, false⟩,
  -- DL_CNT_COLL
  ⟨aDlCntColl, 0x320044, 0x0, 0x0, 0x0, 0x0, 0x0, 0x0, none, false⟩]

/-- Registers of DL, part 2. -/
def regsDl1 : List RegDef := [
  -- DL_CNT_COLL_FAIL
  ⟨aDlCntCollFail, 0x320048, 0x0, 0x0, 0x0, 0x0, 0x0, 0x0, none, false⟩,
  -- DL_CNT_BARRIER
  ⟨aDlCntBarrier, 0x32004C, 0x0, 0x0, 0x0, 0x0, 0x0, 0x0, none, false⟩,
  -- DL_CNT_CANCEL
  ⟨aDlCntCancel, 0x320050, 0x0, 0x0, 0x0, 0x0, 0x0, 0x0, none, false⟩,
  -- DL_CNT_FWD
  ⟨aDlCntFwd, 0x320054, 0x0, 0x0, 0x0, 0x0, 0x0, 0x0, none, false⟩,
  -- DL_PAIR_CFG
  ⟨aDlPairCfg, 0x330000, 0xA0FFF, 0x0, 0xFF0000, 0x0, 0x0, 0x0, none, false⟩,
  -- DL_PAIR_STAT
  ⟨aDlPairStat, 0x330004, 0x0, 0x0, 0x0, 0x8, 0x0, 0x0, none, false⟩,
  -- DL_PAIR_DIV_TID
  ⟨aDlPairDivTid, 0x330008, 0x0, 0x0, 0x0, 0x0, 0x0, 0x0, none, false⟩,
  -- DL_PAIR_LAST_TAG_LO
  ⟨aDlPairLastTagLo, 0x33000C, 0x0, 0x0, 0x0, 0x0, 0x0, 0x0, none, false⟩,
  -- DL_PAIR_LAST_TAG_HI
  ⟨aDlPairLastTagHi, 0x330010, 0x0, 0x0, 0x0, 0x0, 0x0, 0x0, none, false⟩,
  -- DL_CNT_HB_MISS
  ⟨aDlCntHbMiss, 0x330040, 0x0, 0x0, 0x0, 0x0, 0x0, 0x0, none, false⟩,
  -- DL_CNT_STREAM
  ⟨aDlCntStream, 0x330044, 0x0, 0x0, 0x0, 0x0, 0x0, 0x0, none, false⟩,
  -- DL_CNT_TAKEOVER
  ⟨aDlCntTakeover, 0x330048, 0x0, 0x0, 0x0, 0x0, 0x0, 0x0, none, false⟩,
  -- DL_CNT_DIVERGE
  ⟨aDlCntDiverge, 0x33004C, 0x0, 0x0, 0x0, 0x0, 0x0, 0x0, none, false⟩]

/-- Registers of DL. -/
def regsDl : List RegDef := regsDl0 ++ regsDl1

/-- Registers of XL, part 1. -/
def regsXl0 : List RegDef := [
  -- XL_STAT
  ⟨aXlStat, 0x400000, 0x0, 0x0, 0x0, 0x6, 0x0, 0x0, none, false⟩,
  -- XL_ACC_CTL
  ⟨aXlAccCtl, 0x400004, 0x0, 0x0, 0xFF, 0x0, 0x0, 0x0, none, false⟩,
  -- XL_FAULT_WAIT
  ⟨aXlFaultWait, 0x400008, 0x64, 0x0, 0x3FF, 0x0, 0x0, 0x0, none, false⟩,
  -- XL_CTX_SEL
  ⟨aXlCtxSel, 0x410000, 0x0, 0x3FFF, 0x0, 0x0, 0x0, 0x0, none, true⟩,
  -- XL_CTX_CFG
  ⟨aXlCtxCfg, 0x410004, 0x0, 0x0, 0x1FFF00F, 0x0, 0x0, 0x0, (some aXlCtxSel), false⟩,
  -- XL_TGT_SEL
  ⟨aXlTgtSel, 0x410010, 0x0, 0x3FFF, 0x0, 0x0, 0x0, 0x0, none, true⟩,
  -- XL_TGT_CFG
  ⟨aXlTgtCfg, 0x410014, 0x0, 0x0, 0x1FFF0001, 0x0, 0x0, 0x0, (some aXlTgtSel), false⟩,
  -- XL_TGT_RKEY
  ⟨aXlTgtRkey, 0x410018, 0x0, 0x0, 0xFFFFFFFF, 0x0, 0x0, 0x0, (some aXlTgtSel), false⟩,
  -- XL_MW_SEL
  ⟨aXlMwSel, 0x410020, 0x0, 0x3FFF, 0x0, 0x0, 0x0, 0x0, none, true⟩,
  -- XL_MW_CFG
  ⟨aXlMwCfg, 0x410024, 0x0, 0x0, 0xFFFFFF7, 0x0, 0x0, 0x0, (some aXlMwSel), false⟩,
  -- XL_MW_BASE_LO
  ⟨aXlMwBaseLo, 0x410028, 0x0, 0x0, 0xFFFFFFFF, 0x0, 0x0, 0x0, (some aXlMwSel), false⟩,
  -- XL_MW_BASE_HI
  ⟨aXlMwBaseHi, 0x41002C, 0x0, 0x0, 0xFFFFFFFF, 0x0, 0x0, 0x0, (some aXlMwSel), false⟩,
  -- XL_MW_PAGES
  ⟨aXlMwPages, 0x410030, 0x0, 0x0, 0xFFFFFFFF, 0x0, 0x0, 0x0, (some aXlMwSel), false⟩,
  -- XL_MW_TAG
  ⟨aXlMwTag, 0x410034, 0x0, 0x0, 0xFFFFF, 0x0, 0x0, 0x0, (some aXlMwSel), false⟩,
  -- XL_RWIN_SEL
  ⟨aXlRwinSel, 0x410040, 0x0, 0x3FFF, 0x0, 0x0, 0x0, 0x0, none, true⟩,
  -- XL_RWIN_CFG
  ⟨aXlRwinCfg, 0x410044, 0x0, 0x0, 0x1FFFFF, 0x0, 0x0, 0x0, (some aXlRwinSel), false⟩,
  -- XL_RWIN_REGION
  ⟨aXlRwinRegion, 0x410048, 0x0, 0x0, 0x3FFF, 0x0, 0x0, 0x0, (some aXlRwinSel), false⟩,
  -- XL_REG_SEL
  ⟨aXlRegSel, 0x410060, 0x0, 0x3FFF, 0x0, 0x0, 0x0, 0x0, none, true⟩,
  -- XL_REG_WORD0
  ⟨aXlRegWord0, 0x410064, 0x0, 0x0, 0x0, 0x0, 0x0, 0x0, (some aXlRegSel), false⟩,
  -- XL_REG_WORD1
  ⟨aXlRegWord1, 0x410068, 0x0, 0x0, 0x0, 0x0, 0x0, 0x0, (some aXlRegSel), false⟩,
  -- XL_REG_WORD2
  ⟨aXlRegWord2, 0x41006C, 0x0, 0x0, 0x0, 0x0, 0x0, 0x0, (some aXlRegSel), false⟩,
  -- XL_REG_WORD3
  ⟨aXlRegWord3, 0x410070, 0x0, 0x0, 0x0, 0x0, 0x0, 0x0, (some aXlRegSel), false⟩,
  -- XL_REG_WORD4
  ⟨aXlRegWord4, 0x410074, 0x0, 0x0, 0x0, 0x0, 0x0, 0x0, (some aXlRegSel), false⟩,
  -- XL_REG_WORD5
  ⟨aXlRegWord5, 0x410078, 0x0, 0x0, 0x0, 0x0, 0x0, 0x0, (some aXlRegSel), false⟩,
  -- XL_REG_WORD6
  ⟨aXlRegWord6, 0x41007C, 0x0, 0x0, 0x0, 0x0, 0x0, 0x0, (some aXlRegSel), false⟩]

/-- Registers of XL, part 2. -/
def regsXl1 : List RegDef := [
  -- XL_REG_WORD7
  ⟨aXlRegWord7, 0x410080, 0x0, 0x0, 0x0, 0x0, 0x0, 0x0, (some aXlRegSel), false⟩,
  -- XL_TBL_SEL
  ⟨aXlTblSel, 0x420000, 0x0, 0x3FFF, 0x0, 0x0, 0x0, 0x0, none, true⟩,
  -- XL_FQ_TGT
  ⟨aXlFqTgt, 0x430000, 0x0, 0x0, 0xFFF, 0x0, 0x0, 0x0, none, false⟩,
  -- XL_FQ_CFG
  ⟨aXlFqCfg, 0x430004, 0x60, 0x0, 0x1F1, 0x0, 0x0, 0x0, none, false⟩,
  -- XL_FQ_ADDR_LO
  ⟨aXlFqAddrLo, 0x430008, 0x0, 0x0, 0xFFFFFFFF, 0x0, 0x0, 0x0, none, false⟩,
  -- XL_FQ_ADDR_HI
  ⟨aXlFqAddrHi, 0x43000C, 0x0, 0x0, 0xFFFFFFFF, 0x0, 0x0, 0x0, none, false⟩,
  -- XL_FQ_PROD
  ⟨aXlFqProd, 0x430010, 0x0, 0x0, 0x0, 0x0, 0x0, 0x0, none, false⟩,
  -- XL_FQ_CONS
  ⟨aXlFqCons, 0x430014, 0x0, 0x0, 0xFFFFFFFF, 0x0, 0x0, 0x0, none, false⟩,
  -- XL_TBL_WIN
  ⟨aXlTblWin, 0x431FFC, 0x0, 0x0, 0xFFFFFFFF, 0x0, 0x0, 0x0, (some aXlTblSel), false⟩,
  -- XL_CNT_XLAT
  ⟨aXlCntXlat, 0x440000, 0x0, 0x0, 0x0, 0x0, 0x0, 0x0, none, false⟩,
  -- XL_CNT_MISS
  ⟨aXlCntMiss, 0x440004, 0x0, 0x0, 0x0, 0x0, 0x0, 0x0, none, false⟩,
  -- XL_CNT_FAULT
  ⟨aXlCntFault, 0x440008, 0x0, 0x0, 0x0, 0x0, 0x0, 0x0, none, false⟩,
  -- XL_CNT_HOT
  ⟨aXlCntHot, 0x44000C, 0x0, 0x0, 0x0, 0x0, 0x0, 0x0, none, false⟩,
  -- XL_CNT_DENIED
  ⟨aXlCntDenied, 0x440010, 0x0, 0x0, 0x0, 0x0, 0x0, 0x0, none, false⟩,
  -- XL_CNT_SYNC
  ⟨aXlCntSync, 0x440014, 0x0, 0x0, 0x0, 0x0, 0x0, 0x0, none, false⟩,
  -- XL_CNT_FQ_LOST
  ⟨aXlCntFqLost, 0x440018, 0x0, 0x0, 0x0, 0x0, 0x0, 0x0, none, false⟩]

/-- Registers of XL. -/
def regsXl : List RegDef := regsXl0 ++ regsXl1

/-- Registers of IG, part 1. -/
def regsIg0 : List RegDef := [
  -- IG_STAT
  ⟨aIgStat, 0x800000, 0x0, 0x0, 0x0, 0xE, 0x0, 0x0, none, false⟩,
  -- IG_FLOG_CTL
  ⟨aIgFlogCtl, 0x800004, 0x4003E8, 0x0, 0xFFFFFF, 0x0, 0x0, 0x0, none, false⟩,
  -- IG_FLOG_PROD
  ⟨aIgFlogProd, 0x800008, 0x0, 0x0, 0x0, 0x0, 0x0, 0x0, none, false⟩,
  -- IG_FLOG_CONS
  ⟨aIgFlogCons, 0x80000C, 0x0, 0x0, 0xFFFFFFFF, 0x0, 0x0, 0x0, none, false⟩,
  -- IG_FLOG_LOST
  ⟨aIgFlogLost, 0x800010, 0x0, 0x0, 0x0, 0x0, 0x0, 0x0, none, false⟩,
  -- IG_REPLAY_CTL
  ⟨aIgReplayCtl, 0x800014, 0x1001, 0x0, 0xFF03, 0x0, 0x0, 0x0, none, false⟩,
  -- IG_UNIT_SEL
  ⟨aIgUnitSel, 0x800018, 0x0, 0xF, 0x0, 0x0, 0x0, 0x0, none, true⟩,
  -- IG_UNIT_STATE
  ⟨aIgUnitState, 0x80001C, 0x0, 0x0, 0x0, 0x0, 0x0, 0x0, (some aIgUnitSel), false⟩,
  -- IG_URST
  ⟨aIgUrst, 0x800020, 0x0, 0x0, 0x0, 0x0, 0x0, 0x7, (some aIgUnitSel), false⟩,
  -- IG_CRESET_CAUSE
  ⟨aIgCresetCause, 0x800024, 0x0, 0x0, 0x0, 0x0, 0x0, 0x0, none, false⟩,
  -- IG_CRESET_RECNO
  ⟨aIgCresetRecno, 0x800028, 0x0, 0x0, 0x0, 0x0, 0x0, 0x0, none, false⟩,
  -- IG_FLOG
  ⟨aIgFlog, 0x813FFC, 0x0, 0x0, 0x0, 0x0, 0x0, 0x0, none, false⟩,
  -- IG_CNT_POISON
  ⟨aIgCntPoison, 0x820000, 0x0, 0x0, 0x0, 0x0, 0x0, 0x0, none, false⟩,
  -- IG_CNT_REPLAY
  ⟨aIgCntReplay, 0x820004, 0x0, 0x0, 0x0, 0x0, 0x0, 0x0, none, false⟩,
  -- IG_CNT_REPLAY_AGREE
  ⟨aIgCntReplayAgree, 0x820008, 0x0, 0x0, 0x0, 0x0, 0x0, 0x0, none, false⟩,
  -- IG_CNT_REPLAY_FAIL
  ⟨aIgCntReplayFail, 0x82000C, 0x0, 0x0, 0x0, 0x0, 0x0, 0x0, none, false⟩,
  -- IG_CNT_UNIT_RESET
  ⟨aIgCntUnitReset, 0x820010, 0x0, 0x0, 0x0, 0x0, 0x0, 0x0, none, false⟩,
  -- IG_CNT_STALE
  ⟨aIgCntStale, 0x820014, 0x0, 0x0, 0x0, 0x0, 0x0, 0x0, none, false⟩,
  -- IG_CNT_CONTAIN
  ⟨aIgCntContain, 0x820018, 0x0, 0x0, 0x0, 0x0, 0x0, 0x0, none, false⟩,
  -- IG_CNT_WORLD
  ⟨aIgCntWorld, 0x82001C, 0x0, 0x0, 0x0, 0x0, 0x0, 0x0, none, false⟩]

/-- Registers of IG. -/
def regsIg : List RegDef := regsIg0

/-- Registers of SQ, part 1. -/
def regsSq0 : List RegDef := [
  -- SQ_CTL
  ⟨aSqCtl, 0x0, 0x1, 0x0, 0x1, 0x0, 0x0, 0x0, none, false⟩,
  -- SQ_STAT
  ⟨aSqStat, 0x4, 0x0, 0x0, 0x0, 0x0, 0x0, 0x0, none, false⟩,
  -- SQ_SLOT_SEL
  ⟨aSqSlotSel, 0x8, 0x0, 0x3, 0x0, 0x0, 0x0, 0x0, none, true⟩,
  -- SQ_SLOT_STATE
  ⟨aSqSlotState, 0xC, 0x0, 0x0, 0x0, 0x0, 0x0, 0x0, (some aSqSlotSel), false⟩,
  -- SQ_SLOT_PC
  ⟨aSqSlotPc, 0x10, 0x0, 0x0, 0x0, 0x0, 0x0, 0x0, (some aSqSlotSel), false⟩,
  -- SQ_SLOT_EXC
  ⟨aSqSlotExc, 0x14, 0x0, 0x0, 0x0, 0x0, 0x0, 0x0, (some aSqSlotSel), false⟩,
  -- SQ_IMEM_USED
  ⟨aSqImemUsed, 0x18, 0x0, 0x0, 0x0, 0x0, 0x0, 0x0, none, false⟩,
  -- SQ_SCR_VIEW
  ⟨aSqScrView, 0x1C, 0x0, 0x0, 0x3, 0x0, 0x0, 0x0, none, false⟩,
  -- SQ_CNT_LAUNCH
  ⟨aSqCntLaunch, 0x40, 0x0, 0x0, 0x0, 0x0, 0x0, 0x0, none, false⟩,
  -- SQ_CNT_BUNDLES
  ⟨aSqCntBundles, 0x44, 0x0, 0x0, 0x0, 0x0, 0x0, 0x0, none, false⟩,
  -- SQ_CNT_WAIT_CYC
  ⟨aSqCntWaitCyc, 0x48, 0x0, 0x0, 0x0, 0x0, 0x0, 0x0, none, false⟩,
  -- SQ_CNT_SWITCH
  ⟨aSqCntSwitch, 0x4C, 0x0, 0x0, 0x0, 0x0, 0x0, 0x0, none, false⟩,
  -- SQ_CNT_ISSUE_FULL
  ⟨aSqCntIssueFull, 0x50, 0x0, 0x0, 0x0, 0x0, 0x0, 0x0, none, false⟩,
  -- SQ_CNT_ENDED
  ⟨aSqCntEnded, 0x54, 0x0, 0x0, 0x0, 0x0, 0x0, 0x0, none, false⟩,
  -- SQ_CONST_SIZE
  ⟨aSqConstSize, 0x10000, 0x800, 0x0, 0x1FFF, 0x0, 0x0, 0x0, none, false⟩,
  -- SQ_GS_COUNT
  ⟨aSqGsCount, 0x10004, 0x0, 0x0, 0x0, 0x0, 0x0, 0x0, none, false⟩,
  -- SQ_GS_FAIL
  ⟨aSqGsFail, 0x10008, 0x0, 0x0, 0x0, 0x0, 0x0, 0x0, none, false⟩,
  -- SQ_GV_SEL
  ⟨aSqGvSel, 0x1000C, 0x0, 0x3FF, 0x0, 0x0, 0x0, 0x0, none, true⟩,
  -- SQ_GV_STATE
  ⟨aSqGvState, 0x10010, 0x0, 0x0, 0x0, 0x0, 0x0, 0x0, (some aSqGvSel), false⟩,
  -- SQ_GV_CUR
  ⟨aSqGvCur, 0x10014, 0x0, 0x0, 0x0, 0x0, 0x0, 0x0, (some aSqGvSel), false⟩,
  -- SQ_GV_REFS
  ⟨aSqGvRefs, 0x10018, 0x0, 0x0, 0x0, 0x0, 0x0, 0x0, (some aSqGvSel), false⟩,
  -- SQ_GV_DIGEST0
  ⟨aSqGvDigest0, 0x10020, 0x0, 0x0, 0x0, 0x0, 0x0, 0x0, (some aSqGvSel), false⟩,
  -- SQ_GV_DIGEST1
  ⟨aSqGvDigest1, 0x10024, 0x0, 0x0, 0x0, 0x0, 0x0, 0x0, (some aSqGvSel), false⟩,
  -- SQ_GV_DIGEST2
  ⟨aSqGvDigest2, 0x10028, 0x0, 0x0, 0x0, 0x0, 0x0, 0x0, (some aSqGvSel), false⟩,
  -- SQ_GV_DIGEST3
  ⟨aSqGvDigest3, 0x1002C, 0x0, 0x0, 0x0, 0x0, 0x0, 0x0, (some aSqGvSel), false⟩]

/-- Registers of SQ, part 2. -/
def regsSq1 : List RegDef := [
  -- SQ_GV_DIGEST4
  ⟨aSqGvDigest4, 0x10030, 0x0, 0x0, 0x0, 0x0, 0x0, 0x0, (some aSqGvSel), false⟩,
  -- SQ_GV_DIGEST5
  ⟨aSqGvDigest5, 0x10034, 0x0, 0x0, 0x0, 0x0, 0x0, 0x0, (some aSqGvSel), false⟩,
  -- SQ_GV_DIGEST6
  ⟨aSqGvDigest6, 0x10038, 0x0, 0x0, 0x0, 0x0, 0x0, 0x0, (some aSqGvSel), false⟩,
  -- SQ_GV_DIGEST7
  ⟨aSqGvDigest7, 0x1003C, 0x0, 0x0, 0x0, 0x0, 0x0, 0x0, (some aSqGvSel), false⟩,
  -- SQ_CNT_ADMIT_WAIT
  ⟨aSqCntAdmitWait, 0x10040, 0x0, 0x0, 0x0, 0x0, 0x0, 0x0, none, false⟩,
  -- SQ_CNT_GS_REFUSED
  ⟨aSqCntGsRefused, 0x10044, 0x0, 0x0, 0x0, 0x0, 0x0, 0x0, none, false⟩,
  -- SQ_CNT_PATCH
  ⟨aSqCntPatch, 0x10048, 0x0, 0x0, 0x0, 0x0, 0x0, 0x0, none, false⟩,
  -- SQ_CNT_VER_RETIRED
  ⟨aSqCntVerRetired, 0x1004C, 0x0, 0x0, 0x0, 0x0, 0x0, 0x0, none, false⟩]

/-- Registers of SQ. -/
def regsSq : List RegDef := regsSq0 ++ regsSq1

/-- Registers of MA, part 1. -/
def regsMa0 : List RegDef := [
  -- MA_STRIP_MAP
  ⟨aMaStripMap, 0x400000, 0x0, 0x0, 0x0, 0x0, 0x0, 0x0, none, false⟩,
  -- MA_PACE
  ⟨aMaPace, 0x400004, 0x0, 0x0, 0x0, 0x0, 0x0, 0x0, none, false⟩,
  -- MA_STAT
  ⟨aMaStat, 0x400008, 0x0, 0x0, 0x0, 0x0, 0x0, 0x0, none, false⟩,
  -- MA_RES_INJ
  ⟨aMaResInj, 0x40000C, 0x0, 0x0, 0x1, 0x0, 0x0, 0x0, none, false⟩,
  -- MA_CNT_INSTR
  ⟨aMaCntInstr, 0x400040, 0x0, 0x0, 0x0, 0x0, 0x0, 0x0, none, false⟩,
  -- MA_CNT_BUSY
  ⟨aMaCntBusy, 0x400044, 0x0, 0x0, 0x0, 0x0, 0x0, 0x0, none, false⟩,
  -- MA_CNT_RESIDUE
  ⟨aMaCntResidue, 0x400048, 0x0, 0x0, 0x0, 0x0, 0x0, 0x0, none, false⟩,
  -- MA_CNT_POISON
  ⟨aMaCntPoison, 0x40004C, 0x0, 0x0, 0x0, 0x0, 0x0, 0x0, none, false⟩,
  -- MA_CNT_ECC
  ⟨aMaCntEcc, 0x400050, 0x0, 0x0, 0x0, 0x0, 0x0, 0x0, none, false⟩]

/-- Registers of MA. -/
def regsMa : List RegDef := regsMa0

/-- Registers of VE, part 1. -/
def regsVe0 : List RegDef := [
  -- VE_STAT
  ⟨aVeStat, 0x800000, 0x0, 0x0, 0x0, 0x0, 0x0, 0x0, none, false⟩,
  -- VE_CNT_INSTR
  ⟨aVeCntInstr, 0x800040, 0x0, 0x0, 0x0, 0x0, 0x0, 0x0, none, false⟩,
  -- VE_CNT_BUSY
  ⟨aVeCntBusy, 0x800044, 0x0, 0x0, 0x0, 0x0, 0x0, 0x0, none, false⟩,
  -- VE_CNT_POISON
  ⟨aVeCntPoison, 0x800048, 0x0, 0x0, 0x0, 0x0, 0x0, 0x0, none, false⟩,
  -- VE_CNT_NAN
  ⟨aVeCntNan, 0x80004C, 0x0, 0x0, 0x0, 0x0, 0x0, 0x0, none, false⟩,
  -- VE_QS_CTL
  ⟨aVeQsCtl, 0x820000, 0x1, 0x1, 0x0, 0x0, 0x0, 0x2, none, false⟩,
  -- VE_QS_SSE_LO
  ⟨aVeQsSseLo, 0x820008, 0x0, 0x0, 0x0, 0x0, 0x0, 0x0, none, false⟩,
  -- VE_QS_SSE_HI
  ⟨aVeQsSseHi, 0x82000C, 0x0, 0x0, 0x0, 0x0, 0x0, 0x0, none, false⟩,
  -- VE_QS_SS_LO
  ⟨aVeQsSsLo, 0x820010, 0x0, 0x0, 0x0, 0x0, 0x0, 0x0, none, false⟩,
  -- VE_QS_SS_HI
  ⟨aVeQsSsHi, 0x820014, 0x0, 0x0, 0x0, 0x0, 0x0, 0x0, none, false⟩,
  -- VE_QS_COUNT_LO
  ⟨aVeQsCountLo, 0x820018, 0x0, 0x0, 0x0, 0x0, 0x0, 0x0, none, false⟩,
  -- VE_QS_COUNT_HI
  ⟨aVeQsCountHi, 0x82001C, 0x0, 0x0, 0x0, 0x0, 0x0, 0x0, none, false⟩,
  -- VE_QS_ABSMAX
  ⟨aVeQsAbsmax, 0x820020, 0x0, 0x0, 0x0, 0x0, 0x0, 0x0, none, false⟩,
  -- VE_QS_ERRMAX
  ⟨aVeQsErrmax, 0x820024, 0x0, 0x0, 0x0, 0x0, 0x0, 0x0, none, false⟩,
  -- VE_QS_SAT
  ⟨aVeQsSat, 0x820028, 0x0, 0x0, 0x0, 0x0, 0x0, 0x0, none, false⟩,
  -- VE_QS_NONFINITE
  ⟨aVeQsNonfinite, 0x82002C, 0x0, 0x0, 0x0, 0x0, 0x0, 0x0, none, false⟩,
  -- VE_CNT_MISALIGN
  ⟨aVeCntMisalign, 0x820030, 0x0, 0x0, 0x0, 0x0, 0x0, 0x0, none, false⟩]

/-- Registers of VE. -/
def regsVe : List RegDef := regsVe0

/-- Registers of FM, part 1. -/
def regsFm0 : List RegDef := [
  -- FM_CAP
  ⟨aFmCap, 0x0, 0x0, 0x0, 0x0, 0x0, 0x0, 0x0, none, false⟩,
  -- FM_CTL
  ⟨aFmCtl, 0x4, 0x1803, 0x0, 0xFF03, 0x0, 0x0, 0x0, none, false⟩,
  -- FM_REG_STAT
  ⟨aFmRegStat, 0x8, 0x2000000, 0x0, 0x0, 0x0, 0x0, 0x0, none, false⟩,
  -- FM_CH_SEL
  ⟨aFmChSel, 0x10, 0x0, 0xF, 0x0, 0x0, 0x0, 0x0, none, true⟩,
  -- FM_CH_STAT
  ⟨aFmChStat, 0x14, 0x0, 0x0, 0x0, 0x30, 0x0, 0x0, (some aFmChSel), false⟩,
  -- FM_CH_UE_ADDR
  ⟨aFmChUeAddr, 0x18, 0x0, 0x0, 0x0, 0x0, 0x0, 0x0, (some aFmChSel), false⟩,
  -- FM_CH_CE
  ⟨aFmChCe, 0x20, 0x0, 0x0, 0x0, 0x0, 0x0, 0x0, (some aFmChSel), false⟩,
  -- FM_CH_UE
  ⟨aFmChUe, 0x24, 0x0, 0x0, 0x0, 0x0, 0x0, 0x0, (some aFmChSel), false⟩,
  -- FM_CH_RD_BURST
  ⟨aFmChRdBurst, 0x28, 0x0, 0x0, 0x0, 0x0, 0x0, 0x0, (some aFmChSel), false⟩,
  -- FM_CH_WR_BURST
  ⟨aFmChWrBurst, 0x2C, 0x0, 0x0, 0x0, 0x0, 0x0, 0x0, (some aFmChSel), false⟩,
  -- FM_CH_ACT
  ⟨aFmChAct, 0x30, 0x0, 0x0, 0x0, 0x0, 0x0, 0x0, (some aFmChSel), false⟩,
  -- FM_CH_REF_WAIT
  ⟨aFmChRefWait, 0x34, 0x0, 0x0, 0x0, 0x0, 0x0, 0x0, (some aFmChSel), false⟩,
  -- FM_CH_DRIFT_STEP
  ⟨aFmChDriftStep, 0x38, 0x0, 0x0, 0x0, 0x0, 0x0, 0x0, (some aFmChSel), false⟩,
  -- FM_TRN_CTL
  ⟨aFmTrnCtl, 0x40, 0x4, 0x0, 0x7F, 0x0, 0x0, 0x0, none, false⟩,
  -- FM_TRN_STAT
  ⟨aFmTrnStat, 0x44, 0x0, 0x0, 0x0, 0x0, 0x0, 0x0, (some aFmChSel), false⟩,
  -- FM_PART_SEL
  ⟨aFmPartSel, 0x80, 0x0, 0xF, 0x0, 0x0, 0x0, 0x0, none, true⟩,
  -- FM_PART_RATE
  ⟨aFmPartRate, 0x84, 0x400020, 0x0, 0x3FF03FF, 0x0, 0x0, 0x0, (some aFmPartSel), false⟩,
  -- FM_PART_TOKENS
  ⟨aFmPartTokens, 0x88, 0x0, 0x0, 0x0, 0x0, 0x0, 0x0, (some aFmPartSel), false⟩,
  -- FM_PART_QUEUED
  ⟨aFmPartQueued, 0x8C, 0x0, 0x0, 0x0, 0x0, 0x0, 0x0, (some aFmPartSel), false⟩,
  -- FM_PART_CNT_BURST
  ⟨aFmPartCntBurst, 0x90, 0x0, 0x0, 0x0, 0x0, 0x0, 0x0, (some aFmPartSel), false⟩,
  -- FM_PART_CNT_WAIT
  ⟨aFmPartCntWait, 0x94, 0x0, 0x0, 0x0, 0x0, 0x0, 0x0, (some aFmPartSel), false⟩,
  -- FM_PART_CNT_BORROW
  ⟨aFmPartCntBorrow, 0x98, 0x0, 0x0, 0x0, 0x0, 0x0, 0x0, (some aFmPartSel), false⟩,
  -- FM_ECC_INJ
  ⟨aFmEccInj, 0xC0, 0x0, 0x0, 0xF3, 0x0, 0x0, 0x0, none, false⟩]

/-- Registers of FM. -/
def regsFm : List RegDef := regsFm0

/-- Registers of GX, part 1. -/
def regsGx0 : List RegDef := [
  -- GX_POLICY_CTL
  ⟨aGxPolicyCtl, 0x420000, 0x4033, 0xFF77, 0x0, 0x0, 0x0, 0x0, none, false⟩,
  -- GX_POP_THRESH
  ⟨aGxPopThresh, 0x420004, 0x40A01030, 0xFFFFFFFF, 0x0, 0x0, 0x0, 0x0, none, false⟩,
  -- GX_POLICY_STAT
  ⟨aGxPolicyStat, 0x420008, 0x0, 0x0, 0x0, 0xE, 0x0, 0x0, none, false⟩,
  -- GX_POP_PERIOD
  ⟨aGxPopPeriod, 0x42000C, 0x0, 0x0, 0x0, 0x0, 0x0, 0x0, none, false⟩,
  -- GX_PEN_ROW_BASE
  ⟨aGxPenRowBase, 0x420010, 0x0, 0x1FFFFF, 0x0, 0x0, 0x0, 0x0, none, false⟩,
  -- GX_PEN_ROW_LIMIT
  ⟨aGxPenRowLimit, 0x420014, 0x1C0000, 0x1FFFFF, 0x0, 0x0, 0x0, 0x0, none, false⟩,
  -- GX_ASIDE_PEN
  ⟨aGxAsidePen, 0x420018, 0x400, 0xFFF, 0x0, 0x0, 0x0, 0x0, none, false⟩,
  -- GX_ASIDE_PAST
  ⟨aGxAsidePast, 0x42001C, 0x400, 0xFFFF, 0x0, 0x0, 0x0, 0x0, none, false⟩,
  -- GX_EPOCH_GRACE_MAX
  ⟨aGxEpochGraceMax, 0x420020, 0x2710, 0xFFFFF, 0x0, 0x0, 0x0, 0x0, none, false⟩,
  -- GX_DIR_USED
  ⟨aGxDirUsed, 0x420024, 0x0, 0x0, 0x0, 0x0, 0x0, 0x0, none, false⟩,
  -- GX_CNT_PROMOTE
  ⟨aGxCntPromote, 0x420040, 0x0, 0x0, 0x0, 0x0, 0x0, 0x0, none, false⟩,
  -- GX_CNT_DEMOTE
  ⟨aGxCntDemote, 0x420044, 0x0, 0x0, 0x0, 0x0, 0x0, 0x0, none, false⟩,
  -- GX_CNT_REWIDEN
  ⟨aGxCntRewiden, 0x420048, 0x0, 0x0, 0x0, 0x0, 0x0, 0x0, none, false⟩,
  -- GX_CNT_NARROW
  ⟨aGxCntNarrow, 0x42004C, 0x0, 0x0, 0x0, 0x0, 0x0, 0x0, none, false⟩,
  -- GX_CNT_PROMOTE_SKIP
  ⟨aGxCntPromoteSkip, 0x420050, 0x0, 0x0, 0x0, 0x0, 0x0, 0x0, none, false⟩,
  -- GX_CNT_MIG_ABORT
  ⟨aGxCntMigAbort, 0x420054, 0x0, 0x0, 0x0, 0x0, 0x0, 0x0, none, false⟩,
  -- GX_CNT_RETIRED
  ⟨aGxCntRetired, 0x420058, 0x0, 0x0, 0x0, 0x0, 0x0, 0x0, none, false⟩,
  -- GX_TBL_SEL
  ⟨aGxTblSel, 0x420080, 0x0, 0xFFF, 0x0, 0x0, 0x0, 0x0, none, true⟩,
  -- GX_TBL_STATE
  ⟨aGxTblState, 0x420084, 0x0, 0x0, 0x0, 0x0, 0x0, 0x0, (some aGxTblSel), false⟩,
  -- GX_TBL_EPOCH
  ⟨aGxTblEpoch, 0x420088, 0x0, 0x0, 0x0, 0x0, 0x0, 0x0, (some aGxTblSel), false⟩,
  -- GX_TBL_PINS_CUR
  ⟨aGxTblPinsCur, 0x42008C, 0x0, 0x0, 0x0, 0x0, 0x0, 0x0, (some aGxTblSel), false⟩,
  -- GX_TBL_PINS_PREV
  ⟨aGxTblPinsPrev, 0x420090, 0x0, 0x0, 0x0, 0x0, 0x0, 0x0, (some aGxTblSel), false⟩,
  -- GX_TBL_PEN_USE
  ⟨aGxTblPenUse, 0x420094, 0x0, 0x0, 0x0, 0x0, 0x0, 0x0, (some aGxTblSel), false⟩,
  -- GX_GATHER_CTL
  ⟨aGxGatherCtl, 0x430000, 0x121, 0x1F3, 0x0, 0x0, 0x0, 0x0, none, false⟩,
  -- GX_GATHER_STAT
  ⟨aGxGatherStat, 0x430004, 0x0, 0x0, 0x0, 0x3, 0x0, 0x0, none, false⟩]

/-- Registers of GX, part 2. -/
def regsGx1 : List RegDef := [
  -- GX_LANE_MAP
  ⟨aGxLaneMap, 0x430008, 0x0, 0x0, 0x0, 0x0, 0x0, 0x0, none, false⟩,
  -- GX_CTX_FREE
  ⟨aGxCtxFree, 0x43000C, 0x100, 0x0, 0x0, 0x0, 0x0, 0x0, none, false⟩,
  -- GX_CTX_SEL
  ⟨aGxCtxSel, 0x430010, 0x0, 0xFF, 0x0, 0x0, 0x0, 0x0, none, true⟩,
  -- GX_CTX_STATE
  ⟨aGxCtxState, 0x430014, 0x0, 0x0, 0x0, 0x0, 0x0, 0x0, (some aGxCtxSel), false⟩,
  -- GX_CNT_PROGRAMS
  ⟨aGxCntPrograms, 0x430040, 0x0, 0x0, 0x0, 0x0, 0x0, 0x0, none, false⟩,
  -- GX_CNT_LOOKUP_PEN
  ⟨aGxCntLookupPen, 0x430044, 0x0, 0x0, 0x0, 0x0, 0x0, 0x0, none, false⟩,
  -- GX_CNT_LOOKUP_PAST
  ⟨aGxCntLookupPast, 0x430048, 0x0, 0x0, 0x0, 0x0, 0x0, 0x0, none, false⟩,
  -- GX_CNT_OOB
  ⟨aGxCntOob, 0x43004C, 0x0, 0x0, 0x0, 0x0, 0x0, 0x0, none, false⟩,
  -- GX_CNT_BUBBLE
  ⟨aGxCntBubble, 0x430050, 0x0, 0x0, 0x0, 0x0, 0x0, 0x0, none, false⟩,
  -- GX_CNT_DRAINED
  ⟨aGxCntDrained, 0x430054, 0x0, 0x0, 0x0, 0x0, 0x0, 0x0, none, false⟩,
  -- GX_CNT_TAG_BAD
  ⟨aGxCntTagBad, 0x430058, 0x0, 0x0, 0x0, 0x0, 0x0, 0x0, none, false⟩]

/-- Registers of GX. -/
def regsGx : List RegDef := regsGx0 ++ regsGx1

/-- Registers of RU, part 1. -/
def regsRu0 : List RegDef := [
  -- RU_CTL
  ⟨aRuCtl, 0x810000, 0xF3, 0xF3, 0x0, 0x0, 0x0, 0x0, none, false⟩,
  -- RU_STAT
  ⟨aRuStat, 0x810004, 0x0, 0x0, 0x0, 0xE, 0x0, 0x0, none, false⟩,
  -- RU_MASTER_POOL
  ⟨aRuMasterPool, 0x810008, 0x0, 0xFFFF, 0x0, 0x0, 0x0, 0x0, none, false⟩,
  -- RU_JRNL_SIZE
  ⟨aRuJrnlSize, 0x81000C, 0x0, 0x1FFF, 0x0, 0x0, 0x0, 0x0, none, false⟩,
  -- RU_DLOG_SIZE
  ⟨aRuDlogSize, 0x810010, 0x0, 0xFFFF, 0x0, 0x0, 0x0, 0x0, none, false⟩,
  -- RU_MASTER_USED
  ⟨aRuMasterUsed, 0x810014, 0x0, 0x0, 0x0, 0x0, 0x0, 0x0, none, false⟩,
  -- RU_JRNL_USED
  ⟨aRuJrnlUsed, 0x810018, 0x0, 0x0, 0x0, 0x0, 0x0, 0x0, none, false⟩,
  -- RU_DLOG_USED
  ⟨aRuDlogUsed, 0x81001C, 0x0, 0x0, 0x0, 0x0, 0x0, 0x0, none, false⟩,
  -- RU_TBL_SEL
  ⟨aRuTblSel, 0x810020, 0x0, 0xFFF, 0x0, 0x0, 0x0, 0x0, none, true⟩,
  -- RU_TBL_MASTERS
  ⟨aRuTblMasters, 0x810024, 0x0, 0x0, 0x0, 0x0, 0x0, 0x0, (some aRuTblSel), false⟩,
  -- RU_TBL_LATE
  ⟨aRuTblLate, 0x810028, 0x0, 0x0, 0x0, 0x0, 0x0, 0x0, (some aRuTblSel), false⟩,
  -- RU_CNT_ROWS
  ⟨aRuCntRows, 0x810040, 0x0, 0x0, 0x0, 0x0, 0x0, 0x0, none, false⟩,
  -- RU_CNT_MERGED
  ⟨aRuCntMerged, 0x810044, 0x0, 0x0, 0x0, 0x0, 0x0, 0x0, none, false⟩,
  -- RU_CNT_ADMIT
  ⟨aRuCntAdmit, 0x810048, 0x0, 0x0, 0x0, 0x0, 0x0, 0x0, none, false⟩,
  -- RU_CNT_ADMIT_SKIP
  ⟨aRuCntAdmitSkip, 0x81004C, 0x0, 0x0, 0x0, 0x0, 0x0, 0x0, none, false⟩,
  -- RU_CNT_DROP
  ⟨aRuCntDrop, 0x810050, 0x0, 0x0, 0x0, 0x0, 0x0, 0x0, none, false⟩,
  -- RU_CNT_LATE_LOG
  ⟨aRuCntLateLog, 0x810054, 0x0, 0x0, 0x0, 0x0, 0x0, 0x0, none, false⟩,
  -- RU_CNT_LATE_APPLY
  ⟨aRuCntLateApply, 0x810058, 0x0, 0x0, 0x0, 0x0, 0x0, 0x0, none, false⟩,
  -- RU_CNT_LATE_DISCARD
  ⟨aRuCntLateDiscard, 0x81005C, 0x0, 0x0, 0x0, 0x0, 0x0, 0x0, none, false⟩,
  -- RU_CNT_ROLLFWD
  ⟨aRuCntRollfwd, 0x810060, 0x0, 0x0, 0x0, 0x0, 0x0, 0x0, none, false⟩,
  -- RU_CONV_CTL
  ⟨aRuConvCtl, 0x810100, 0x2, 0x3, 0x0, 0x0, 0x0, 0x4, none, false⟩,
  -- RU_CONV_SSE_LO
  ⟨aRuConvSseLo, 0x810108, 0x0, 0x0, 0x0, 0x0, 0x0, 0x0, none, false⟩,
  -- RU_CONV_SSE_HI
  ⟨aRuConvSseHi, 0x81010C, 0x0, 0x0, 0x0, 0x0, 0x0, 0x0, none, false⟩,
  -- RU_CONV_SS_LO
  ⟨aRuConvSsLo, 0x810110, 0x0, 0x0, 0x0, 0x0, 0x0, 0x0, none, false⟩,
  -- RU_CONV_SS_HI
  ⟨aRuConvSsHi, 0x810114, 0x0, 0x0, 0x0, 0x0, 0x0, 0x0, none, false⟩]

/-- Registers of RU, part 2. -/
def regsRu1 : List RegDef := [
  -- RU_CONV_COUNT_LO
  ⟨aRuConvCountLo, 0x810118, 0x0, 0x0, 0x0, 0x0, 0x0, 0x0, none, false⟩,
  -- RU_CONV_COUNT_HI
  ⟨aRuConvCountHi, 0x81011C, 0x0, 0x0, 0x0, 0x0, 0x0, 0x0, none, false⟩,
  -- RU_CONV_ABSMAX
  ⟨aRuConvAbsmax, 0x810120, 0x0, 0x0, 0x0, 0x0, 0x0, 0x0, none, false⟩,
  -- RU_CONV_ERRMAX
  ⟨aRuConvErrmax, 0x810124, 0x0, 0x0, 0x0, 0x0, 0x0, 0x0, none, false⟩,
  -- RU_CONV_SAT
  ⟨aRuConvSat, 0x810128, 0x0, 0x0, 0x0, 0x0, 0x0, 0x0, none, false⟩,
  -- RU_CONV_NONFINITE
  ⟨aRuConvNonfinite, 0x81012C, 0x0, 0x0, 0x0, 0x0, 0x0, 0x0, none, false⟩]

/-- Registers of RU. -/
def regsRu : List RegDef := regsRu0 ++ regsRu1

/-- Which range an address lies in, and its offset there (R506). -/
inductive Range where
  /-- The global blocks PC, FE, NP, DL, XL, IG; the offset is the address. -/
  | glob (off : Nat)
  /-- The register range of a ranking core. -/
  | core (c : Nat) (off : Nat)
  /-- The scratch window of a ranking core. -/
  | win (c : Nat) (off : Nat)
  /-- The register range of a fold. -/
  | fold (f : Nat) (off : Nat)
  /-- No aperture. -/
  | none
  deriving DecidableEq, Repr

/-- The aperture table of R506. -/
def rangeOf (a : Nat) : Range :=
  if a < 0x1000000 then .glob a
  else if a < 0x3000000 then .core (a / 0x1000000 - 1) (a % 0x1000000)
  else if a < 0x5000000 then .win (a / 0x1000000 - 3) (a % 0x1000000)
  else if 0x10000000 ≤ a ∧ a < 0x18000000 then .fold (a / 0x1000000 - 16) (a % 0x1000000)
  else .none

/-- Address of a core's register from its offset in the core range (R506). -/
def coreReg (c off : Nat) : Nat := 0x1000000 * (c + 1) + off

/-- Address of a fold's register from its offset in the fold range (R506). -/
def foldReg (f off : Nat) : Nat := 0x10000000 + 0x1000000 * f + off

/-- The registers of one range (R506, R507). -/
def regsOfRange : Range → List RegDef
  | .glob o =>
    if o < 0x100000 then regsPc else if o < 0x200000 then regsFe else if o < 0x300000 then regsNp
    else if o < 0x400000 then regsDl else if o < 0x800000 then regsXl else regsIg
  | .core _ o => if o < 0x400000 then regsSq else if o < 0x800000 then regsMa else regsVe
  | .fold _ o => if o < 0x400000 then regsFm else if o < 0x800000 then regsGx else regsRu
  | .win _ _ => []
  | .none => []

/-- The offset of an address in its range. -/
def offOf : Range → Nat
  | .glob o => o
  | .core _ o => o
  | .win _ o => o
  | .fold _ o => o
  | .none => 0

/-- The base of a range: an offset plus it is a configuration address. -/
def baseOf : Range → Nat
  | .glob _ => 0
  | .core c _ => coreReg c 0
  | .win c _ => 0x1000000 * (c + 3)
  | .fold f _ => foldReg f 0
  | .none => 0

/-- The register at an address, if a field map places one there (R505). -/
def regDef (a : Nat) : Option RegDef :=
  let r := rangeOf a
  if a % 4 = 0 then (regsOfRange r).find? (fun d => d.off ≤ offOf r && offOf r ≤ d.last) else none

/-- Reset value of the register at an address; 0 where there is none. -/
def regReset (a : Nat) : Word :=
  match regDef a with
  | some d => BitVec.ofNat 32 d.reset
  | none => 0

end Sys2Proof.Machine
end

