-- ==== Sys2Proof/Machine/State.lean ====
section
/-! DEFINITION. The state of the part: every queue, table, buffer, engine, link and register that the
spec gives it, as plain data, and `State.reset`, the machine right after a power-on reset.

Configuration registers that hold a word of their own live in `State.regs`, keyed by
configuration address and selected instance; an unlisted key holds the register's reset value
(RegTable.lean). A register that only shows other state has no second home: it is computed when it
is read (RegRead.lean). -/

namespace Sys2Proof.Machine

/-- Byte memory: the listed cells, addresses strictly rising; an unlisted byte reads 0, as the boot
leaves every memory (R462). -/
abbrev Memory := List Host.Cell

/-! ## Front end -/

/-- States of a queue's fetch engine (R259). -/
inductive QSt where
  | disabled | idle | active | draining | backoff | halted
  deriving DecidableEq, Repr

/-- A ring READ outstanding: first slot, number of slots, transfer (R258). -/
structure RingRead where
  first : Word
  slots : Nat
  xfer : Nat
  deriving DecidableEq, Repr

/-- One queue (R246, R257, R259, R282). -/
structure Queue where
  st : QSt := .disabled
  c : Word := 0
  f : Word := 0
  l : Word := 0
  posted : Word := 0
  retry : Nat := 0
  dbRange : Bool := false
  haltStatus : Status := 0
  ring : Dword := 0
  cq : Dword := 0
  log2 : Nat := 6
  session : Half := 0
  cid : BitVec 12 := 0
  world : Bool := true
  part : BitVec 4 := 0
  key : Word := 0
  timeout : BitVec 22 := 1000000
  reads : List RingRead := []
  got : List (Word × Bytes) := []
  deriving DecidableEq, Repr

/-- Where a fetched command stands. -/
inductive Phase where
  /-- Its tag matched; its own command has not run yet (R263). -/
  | fetched
  /-- It waits for the data of a transfer: argument block, batch, image, body, nonce. -/
  | data
  /-- Its data has landed; its own command goes on with it. -/
  | landed
  /-- It has arrived and waits at admission (R228). -/
  | admission
  /-- It has been taken by its unit and waits there (R62, R122, R316, R397, R328). -/
  | unit
  /-- Admitted and running. -/
  | running
  /-- Ended: the status is decided, its completion is not posted. -/
  | ended
  deriving DecidableEq, Repr

/-- A command fetched whose completion is not posted (R258). -/
structure Cmd where
  q : BitVec 10
  n : Word
  entry : Bytes
  payload : Bytes
  phase : Phase := .fetched
  tagNs : Dword := 0
  arrival : Nat := 0
  status : Status := 0
  timed : Bool := false
  admitNs : Word := 0
  runNs : Word := 0
  tally8 : Bytes := []
  handle : Half := 0
  data : Bytes := []
  bodies : List Bytes := []
  committed : Bool := false
  silent : Bool := false
  /-- Place in the order in which commands ended (R275). -/
  endNo : Nat := 0
  /-- ABORT: the commands it ended, whose completions it waits for (R281). -/
  waits : List (BitVec 10 × Word) := []
  /-- LAUNCH: it has been counted as waiting at the admission head (R230). -/
  waited : Bool := false
  /-- A group request has sent its PIN_REQ, with this key (R377). -/
  asked : Option Word := none
  /-- The epochs that its PIN carried (R377). -/
  gotPin : Option (List (BitVec 12 × Word)) := none
  /-- A FULL load with start row 0 has staged its image (R512). -/
  begun : Bool := false
  /-- UPDATE: the tables it changes, each with the epoch it builds (R58, R117). -/
  opens : List (BitVec 12 × Word) := []
  deriving DecidableEq, Repr

/-- What a transfer carries; it decides what its landing or its acknowledgement does (R322). -/
inductive XKind where
  | ring | args | batch | image | patch | desc | loadSrc | nonce
  | body (i : Nat)
  | segment (req : Half) (i : Nat)
  | result (req : Half) (seg : Nat)
  | tally (req : Half)
  | exportRow | stats | evidence | completion
  | peer
  deriving DecidableEq, Repr

/-- A transfer: the bytes not yet issued, the pieces on the wire, and for whom it is made. -/
structure Xfer where
  id : Nat
  kind : XKind
  read : Bool
  q : BitVec 10
  n : Word
  cid : BitVec 12
  secure : Bool
  addr : Dword
  left : Nat
  data : Bytes := []
  pieces : List (BitVec 13) := []
  held : Option Byte := none
  /-- PSN of a peer's request (R289). -/
  psn : BitVec 24 := 0
  /-- Ranges of the data that came marked POISON from local pages: offset and length. -/
  marks : List Mark := []
  deriving DecidableEq, Repr

/-- What a RoCEv2 packet of the part carries beside its operation: MAC, ECT mark, DSCP, IEEE 802.1Q tag and first
PSN (R285, R289, R293, R309). -/
structure RoceHdr where
  mac : Nat
  ect : Bool
  dscp : Nat
  vlan : Option Nat
  psn : BitVec 24
  /-- IPv6, and the source address. -/
  ipv6 : Bool
  src : Bytes
  deriving DecidableEq, Repr

/-- What the part has sent: the messages it put on a wire, oldest first. -/
inductive Tx where
  /-- A RoCEv2 message with its header. -/
  | roce (h : RoceHdr) (t : Tx)
  /-- A PTP delay request on a MAC (R297). -/
  | ptpDelayReq (mac : Nat) (domain : Nat) (ieee : Bool)
  | write (qp : BitVec 13) (rkey : Word) (addr : Dword) (data : Bytes) (imm : Option Word)
  | readReq (qp : BitVec 13) (rkey : Word) (addr : Dword) (len : Nat) (x : Nat)
  | ack (qp : BitVec 13)
  | nak (qp : BitVec 13) (k : Nak)
  | readResp (qp : BitVec 13) (data : Bytes)
  | cnp (qp : BitVec 13)
  | resend (qp : BitVec 13)
  | ndAnswer (mac : Nat) (addr : Bytes)
  | fallback (data : Bytes)
  | regData (who : Requester) (v : Word)
  | sideband (data : Bytes)
  | tdo (data : Bytes)
  | avs (rail : Nat) (mv : Nat)
  | fault (data : Bytes)
  | drove (dst : BitVec 12) (m : Instr)
  | flit (link : Nat) (b : Bytes)
  /-- A lookup program sent to a fold: descriptor and body (R171, R72). -/
  | program (f : Nat) (desc : Bytes) (body : List Word)
  /-- A slice-done signal: fold, request, and the program's number on the fold (R96). -/
  | sliceDone (f : Nat) (req : Half) (p : Nat)
  /-- Read data of an FM request returned to its requester: fold, order, data, poison mark (R344). -/
  | fmData (f : Nat) (order : Nat) (data : Bytes) (poison : Bool)
  /-- Any other message to a fold or to the core die, as the command it arrives as. -/
  | fold (f : Nat) (m : Instr)
  deriving DecidableEq, Repr

/-- The front end beyond its registers. -/
structure Fe where
  queues : Map Queue := []
  cmds : List Cmd := []
  xfers : List Xfer := []
  nextXfer : Nat := 0
  nextArrival : Nat := 0
  nextEnd : Nat := 0
  /-- READs under way whose transfer has been dropped: transfer and queue pair of each (R268, R280, R328). -/
  lost : List (Nat × BitVec 13) := []
  /-- Held low halves of queue 0 doorbells, by requester (R255). -/
  dbLo : Map (Option Word) := []
  deriving DecidableEq, Repr

/-! ## Requests -/

/-- Kinds of admitted request. -/
inductive ReqKind where
  | launch | lookup | exp
  deriving DecidableEq, Repr

/-- A result segment (R269). -/
structure OutSeg where
  cap : Word
  addr : Dword
  off : Nat := 0
  deriving DecidableEq, Repr

/-- An admitted request (R51, R231, R238, R270, R408). -/
structure Req where
  handle : Half
  q : BitVec 10
  n : Word
  kind : ReqKind
  cid : BitVec 12
  world : Bool
  part : BitVec 4
  hiprio : Bool := false
  wantTally : Bool := false
  gid : Nat := 0
  ver : Word := 0
  kind2 : List (Nat × Word) := []
  pins : List (BitVec 12 × Word) := []
  core : Nat := 0
  slot : Nat := 0
  /-- For each fold used, the physical contexts in launch-relative order (R231, R270). -/
  ctxs : Map (List Nat) := []
  scalars : Bytes := []
  segs : List (Word × Dword) := []
  landed : List Nat := []
  outs : List OutSeg := []
  inMsg : Bytes := []
  outMsg : Bytes := []
  firstIn : Bytes := []
  firstOut : Bytes := []
  poisoned : Bool := false
  suspect : Bool := false
  reported : Bool := false
  usedDcoll : Bool := false
  endSt : Option Status := none
  /-- An epoch it was pinned to has retired: it sends no further program and writes no further result (R57). -/
  retired : Bool := false
  exc : Status := 0
  done : Bool := false
  /-- 0 first run, 1 waiting for its replay, 2 replaying, 3 confirmed, 4 not confirmed (R410, R411). -/
  replay : Nat := 0
  /-- Replay mode in force when the mismatch was reported (R409). -/
  rmode : Nat := 0
  firstCore : Nat := 0
  tally : Bytes := []
  key : Option Word := none
  /-- Ranges handed to the FE and not yet read: address, bytes, segment, counter (R174). -/
  ranges : List (Nat × Nat × Nat × BitVec 5) := []
  /-- Counters of programs sent whose slice-done signals are still to come (R171). -/
  dueCtrs : List (BitVec 5) := []
  /-- LOOKUP: descriptors as sent and slices written so far (R270). -/
  progs : List Bytes := []
  finished : Nat := 0
  high : Nat := 0
  admitAt : Dword := 0
  firstAt : Option Dword := none
  deriving DecidableEq, Repr

/-! ## Ranking cores -/

/-- States of a launch slot (R180). -/
inductive SlotSt where
  | free | running | ready | held | ending
  deriving DecidableEq, Repr

/-- A scratch window bound to a launch (R163): base and size in the scratchpad, writable or not. -/
structure Win where
  base : Nat
  size : Nat
  wr : Bool
  deriving DecidableEq, Repr

/-- One active LOOP: first bundle of the body, last bundle, iterations left (R167). -/
structure LoopRec where
  first : BitVec 17
  last : BitVec 17
  left : Word
  deriving DecidableEq, Repr

/-- A launch slot (R154). -/
structure Slot where
  st : SlotSt := .free
  req : Half := 0
  pc : BitVec 17 := 0
  x : Map Word := []
  loops : List LoopRec := []
  ctr : Map Half := []
  win : Map (Option Win) := []
  par : Map Word := []
  exc : Status := 0
  /-- Issue cycle of the instruction whose exception is recorded (R184). -/
  excAt : Nat := 0
  /-- The first exception that ends the launch (R184, R408), and its issue cycle. -/
  endExc : Status := 0
  endExcAt : Nat := 0
  /-- The yield handling of the bundle to issue next has been done (R182). -/
  yielded : Bool := false
  /-- An end request is pending, or a recorded exception ends the launch (R181, R184). -/
  mustEnd : Bool := false
  hiprio : Bool := false
  /-- A WAIT is held: its counter and target (R178). -/
  waitHeld : Bool := false
  waitCtr : BitVec 5 := 0
  waitTgt : Half := 0
  waitXa : BitVec 5 := 0
  /-- A bundle with YLD stands at its yield point (R182). -/
  atYield : Bool := false
  /-- Cycle in which the next bundle may issue (R158). -/
  next : Nat := 0
  order : Nat := 0
  /-- Window 1 has been zeroed (R231). -/
  zeroed : Bool := false
  /-- END has issued and waits for its OUTPUT ranges (R179). -/
  atEnd : Bool := false
  /-- Byte after the body of the previous GISSUE (R171). -/
  chain : Option Nat := none
  pace : Nat := 16
  codeBase : Nat := 0
  codeLen : Nat := 0
  deriving DecidableEq, Repr

/-- An accumulator or vector register element with its marks (R203, R206, R402). -/
structure El where
  v : Word := 0
  poison : Bool := false
  suspect : Bool := false
  /-- The POISON is an error's own, not yet counted against a request (R408). -/
  hard : Bool := false
  deriving DecidableEq, Repr

/-- Bytes read from or written to the scratchpad, with the marks of their granules (R402). -/
structure Span where
  data : Bytes
  poison : Bool := false
  suspect : Bool := false
  hard : Bool := false
  deriving DecidableEq, Repr

/-- An operand reference (R188). -/
structure OpRef where
  addr : Nat
  saddr : Nat
  rowlen : Nat
  row0 : Nat
  col0 : Nat
  kind : Nat
  fmt : Nat
  group : Nat
  panel : Bool
  plog : Nat
  deriving DecidableEq, Repr

/-- An MMA in flight (R191, R198, R199): its descriptor, and the lines fetched so far, newest first. -/
structure MaJob where
  slot : Nat
  req : Half
  issued : Nat
  bundle : BitVec 17
  set : Nat
  zero : Bool
  w : OpRef
  x : OpRef
  dw : Nat
  dx : Nat
  nout : Nat
  m : Nat
  kb : Nat
  /-- Tile-pair period T. -/
  period : Nat
  occ : Nat
  pair : Nat := 0
  grp : Nat := 0
  /-- The descriptor came marked POISON. -/
  mark : Bool := false
  /-- Outputs, row and column, whose reduction holds a result that failed its check (R205). -/
  bad : List (Nat × Nat) := []
  got : List Span := []
  deriving DecidableEq, Repr

/-- Where a scan or reduction stands (R212, R213): terms as exact fields, extreme value, marks. -/
structure ScanSt where
  nan : Bool := false
  pinf : Bool := false
  ninf : Bool := false
  sum : Int := 0
  exp : Int := 0
  any : Bool := false
  allNegZero : Bool := true
  ext : Option Word := none
  int : Word := 0
  poison : Bool := false
  suspect : Bool := false
  deriving DecidableEq, Repr

/-- A vector instruction in flight (R207, R208, R214). -/
structure VeJob where
  slot : Nat
  req : Half
  issued : Nat
  op : Nat
  fn : Nat
  act : Nat
  rule : Bool
  imm : Nat
  a : OpRef
  b : OpRef
  d : OpRef
  dx : Nat
  rows : Nat
  cols : Nat
  bcast : Nat
  stat : Nat
  q : Nat
  slab : Nat := 0
  scan : ScanSt := {}
  /-- Statistics so far (R150): COUNT, SSE, SS, ABSMAX, ERRMAX, SAT, NONFINITE. -/
  stats : List Nat := [0, 0, 0, 0, 0, 0, 0]
  poisoned : Bool := false
  /-- The descriptor came marked POISON. -/
  mark : Bool := false
  /-- Canonical NaNs written from inputs that are not NaN. -/
  nans : Nat := 0
  deriving DecidableEq, Repr

/-- One write of a vector instruction. -/
inductive Put where
  | mem (addr : Nat) (s : Span)
  | acc (i : Nat) (e : El)
  | vr (i : Nat) (e : El)
  deriving DecidableEq, Repr

/-- What happens in a later cycle of an instruction already issued (R159, R170, R199, R214). -/
inductive Act where
  | setReg (slot : Nat) (xd : BitVec 5) (v : Word)
  | setPar (slot : Nat) (word : Nat) (v : Word)
  /-- COPY: a source line is read; `src` and `dst` are absent when suppressed. -/
  | copyLine (slot : Nat) (src dst : Option Nat)
  /-- A span written; `own` is the slot whose instruction writes it. -/
  | putSpan (own : Option Nat) (addr : Nat) (s : Span)
  | loadWord (slot : Nat) (xd : BitVec 5) (addr : Option Nat)
  | maFetch (j : MaJob)
  | maDone (j : MaJob)
  | clearAcc (set : Nat)
  | veSlab (j : VeJob)
  | puts (l : List Put)
  | veStats (j : VeJob)
  deriving DecidableEq, Repr

/-- An effect due in a cycle. Acts that write come before acts that read in one cycle; `mav` marks
the work of MA and VE of a slot, abandoned at its end (R181). -/
structure Flight where
  due : Nat
  reads : Bool
  mav : Option Nat
  act : Act
  deriving DecidableEq, Repr

/-- The bundle whose slots are being issued (R158): its slot C instruction has come with the
header, and its M, A and V instructions follow. -/
structure OpenB where
  slot : Nat
  /-- Issue cycle. -/
  at_ : Nat
  /-- Cycles to the next bundle of the launch. -/
  cost : Nat
  /-- Bundle address. -/
  pc : BitVec 17
  /-- The slot as it stood before the bundle, which a hold of R175 returns to. -/
  before : Slot
  /-- What slots C, A and V do in later cycles. -/
  fl : List Flight
  /-- Slots M, A and V of the bundle have come. -/
  m : Bool := false
  a : Bool := false
  v : Bool := false
  /-- Status of a TRAP in slot C, which ends the launch as the bundle closes (R167). -/
  ends : Option Status := none
  deriving DecidableEq, Repr

/-- An entry of the issue queue (R175). -/
inductive IssueE where
  /-- A program: its copies by fold, its body, and the counter of its slice-done signal. -/
  | program (req : Half) (copies : List (Nat × Bytes)) (body : List Word) (ctr : BitVec 5)
  | rel (req : Half) (folds : Byte) (dep : Bool) (v : Word)
  | coll (req : Half) (index : Half)
  | out (req : Half) (addr : Nat) (lines : Nat) (seg : Nat) (ctr : BitVec 5)
  deriving DecidableEq, Repr

/-- A ranking core (R153). -/
structure Core where
  slots : Map Slot := []
  run : Option Nat := none
  /-- Order of admission of the launch that ran last (R183). -/
  lastRun : Option Nat := none
  cycle : Nat := 0
  scratch : Memory := []
  /-- Granules of 64 B marked POISON and SUSPECT (R402). -/
  poison : Map Bool := []
  suspect : Map Bool := []
  /-- Granules whose POISON is an error's own, not derived by a request (R408). -/
  hard : Map Bool := []
  acc : Map El := []
  accInt : Map Bool := []
  vr : Map El := []
  flight : List Flight := []
  issueQ : List IssueE := []
  /-- A bundle is held for a full issue queue (R175). -/
  heldFull : Bool := false
  opened : Option OpenB := none
  /-- MA instructions: set, pace, first cycle, cycle from which the array is free (MA_STAT). -/
  maRun : List (Nat × Nat × Nat × Nat) := []
  /-- VE instructions: OP, first cycle, cycle from which the engine is free (VE_STAT). -/
  veRun : List (Nat × Nat × Nat) := []
  deriving DecidableEq, Repr

/-! ## Graph store -/

/-- Where a version lies on one core: first bundle, constant area base, in bytes. -/
structure Place where
  core : Nat
  imem : Nat
  const : Nat
  deriving DecidableEq, Repr

/-- A version of a graph (R217, R226). -/
structure Version where
  gid : Nat
  num : Word
  image : Bytes
  digest : Bytes
  places : List Place
  current : Bool
  /-- Cores on which it is damaged (R405). -/
  damaged : List Nat := []
  deriving DecidableEq, Repr

/-! ## Tables -/

/-- A table image (R30, R37, R59, R318). -/
structure Image where
  desc : Bytes
  /-- Home extent base by fold. -/
  base : Map Nat := []
  /-- Owning region index by fold (R318). -/
  owner : Map Nat := []
  rows : Nat := 0
  /-- The leaves of the hash store by fold, as last computed; a staged image's grow as its rows land (R128). -/
  leaves : Map (List Bytes) := []
  deriving DecidableEq, Repr

/-- A readable epoch (R50, R52). -/
structure Epoch where
  num : Word
  img : Bool
  pins : Nat := 0
  /-- Group holds on it (R378). -/
  holds : Nat := 0
  root : Bytes := []
  /-- Roots of every slice of the epoch, in SLICE_INDEX order, where known (R240). -/
  slices : List Bytes := []
  since : Dword := 0
  /-- RULE latched when it opened, by fold (R146). -/
  rule : Map Bool := []
  deriving DecidableEq, Repr

/-- The open epoch (R53, R146). -/
structure OpenE where
  num : Word
  rows : Bool
  /-- RULE latched when it opened, by fold (R146). -/
  rule : Map Bool := []
  /-- The marked leaves have been computed again since the last write (R128). -/
  hashed : Bool := false
  deriving DecidableEq, Repr

/-- A TID (R27, R50 to R64). -/
structure Table where
  img0 : Option Image := none
  img1 : Option Image := none
  cur : Option Epoch := none
  prev : Option Epoch := none
  opened : Option OpenE := none
  staged : Bool := false
  /-- Image slot of the staged image. -/
  stagedIn : Bool := false
  dropped : Bool := false
  diverged : Bool := false
  /-- Roots of its last four epochs, newest first, on a mirrored table (R394). -/
  lastRoots : List (Word × Bytes) := []
  deriving DecidableEq, Repr

/-! ## Folds -/

/-- A directory entry (R39). -/
structure DirE where
  row : Word := 0
  tid : BitVec 12 := 0
  img : Bool := false
  t : Bool := false
  v : Bool := false
  m : Bool := false
  dirty : Bool := false
  cls : BitVec 2 := 0
  pcls : BitVec 2 := 0
  pop : Byte := 0
  ver : Byte := 0
  penLoc : BitVec 21 := 0
  atier : Bool := false
  aloc : BitVec 31 := 0
  deriving DecidableEq, Repr

/-- A master record (R101). -/
structure Master where
  row : Word
  tid : BitVec 12
  img : Bool
  mseq : Word
  wseq : Word
  b1p : Word
  b2p : Word
  acc : Word
  w : List Word
  m : List Word
  v : List Word
  poison : Bool := false
  /-- Its index entry is gone; its room stays taken until its image is freed (R400). -/
  lost : Bool := false
  deriving DecidableEq, Repr

/-- A delta record (R117). -/
structure Delta where
  row : Word
  tid : BitVec 12
  img : Bool
  origin : Word
  due : Word
  d : List Word
  poison : Bool := false
  applied : Bool := false
  /-- The UPDATE that logged it, until that UPDATE publishes. -/
  upd : Option Half := none
  /-- It came on the pair stream (R391). -/
  mir : Bool := false
  deriving DecidableEq, Repr

/-- A journal record (R121). -/
structure Jrec where
  row : Word
  tid : BitVec 12
  img : Bool
  kind : Byte
  arg : Byte
  usn : Word
  epoch : Word
  handle : Half
  g : List Word
  poison : Bool := false
  /-- It came on the pair stream (R391). -/
  mir : Bool := false
  deriving DecidableEq, Repr

/-- States of a gather context (R88). -/
inductive CtxSt where
  | free | bound | running | held | draining
  deriving DecidableEq, Repr

/-- A gather context (R88). -/
structure Ctx where
  st : CtxSt := .free
  req : Half := 0
  deriving DecidableEq, Repr

/-- A partial slice that reached the lead fold: bag, sending fold, terms, values, mark (R87). -/
structure Partial where
  bag : Nat
  src : Nat
  terms : Nat
  vals : Option (List Word)
  bad : Bool
  deriving DecidableEq, Repr

/-- A lookup program accepted by a fold and not finished (R70, R71, R89). -/
structure Prog where
  id : Nat
  ctx : Nat
  req : Half
  desc : Bytes
  body : List Word := []
  /-- Positions returned with their terms and poison mark. -/
  terms : Map (List Word × Bool) := []
  parts : List Partial := []
  written : List Nat := []
  held : Bool := false
  /-- Its place among the equal programs that its request has sent to the fold (R87). -/
  ord : Nat := 0
  /-- It has consumed the dependence release it needed (R91). -/
  depOk : Bool := false
  /-- An index buffer word of it was uncorrectable: no lookup is made for it and its slices are poisoned (R400). -/
  bad : Bool := false
  deriving DecidableEq, Repr

/-- A request's releases on a fold (R91, R92): highest tile released, dependence releases left; and what its
programs accepted there share with their copies on other folds (R87). -/
structure Rel where
  req : Half
  tile : Int := -1
  deps : Nat := 0
  keys : List Bytes := []
  deriving DecidableEq, Repr

/-- A migration (R65). -/
structure Mig where
  way : Nat
  toPen : Bool
  deriving DecidableEq, Repr

/-- A run queued in the FM (R348, R350). -/
structure Run where
  order : Nat
  part : Nat
  ch : Nat
  write : Bool
  /-- Channel sector indices, all in one row. -/
  secs : List Nat
  /-- For a write: for each sector, its bytes and the bytes of it that are written. -/
  data : List (Bytes × List Bool)
  /-- The read half of a partial-sector write (R345). -/
  rmw : Bool := false
  deriving DecidableEq, Repr

/-- An FM channel (R338, R343, R356 to R361). -/
structure Chan where
  trained : Bool := false
  retraining : Bool := false
  refMult : BitVec 2 := 0
  /-- The multiplier that the next rotation takes (R357). -/
  refNext : BitVec 2 := 0
  hot : Bool := false
  driftFlag : Bool := false
  ueAddr : BitVec 27 := 0
  pair : BitVec 3 := 0
  /-- Refresh intervals since the last maintenance slot (R358). -/
  intervals : Nat := 0
  oscStarted : Bool := false
  /-- The oscillator value recorded at the last training (R360). -/
  oscBase : Int := 0
  driftSteps : Nat := 0
  delay : Int := 0
  pendingStep : Option Bool := none
  openRow : Map Nat := []
  rdEye : Byte := 0
  wrEye : Byte := 0
  vref : Byte := 0
  steps : Nat := 0
  scrubAt : Nat := 0
  issued : List Run := []
  deriving DecidableEq, Repr

/-- A fold: pasture, pen, directory, gather engine, RU and FM (R19, R338). -/
structure Fold where
  pasture : Memory := []
  /-- Stored check word XOR the CRC of R342 of the stored data, by sector; 0xFFFF is POISON (R402). -/
  check : Map Half := []
  pen : Memory := []
  /-- Pen lines of 64 B marked POISON. -/
  penPoison : Map Bool := []
  dir : Map DirE := []
  period : Byte := 0
  sampled : Nat := 0
  migs : List Mig := []
  migLog : List Nat := []
  waitDemote : List Nat := []
  /-- Writes that wait for a way, each with the way whose row was demoted for it (R55). -/
  wayWaits : List (Nat × BitVec 12 × Bool × Word) := []
  waitRepair : List Nat := []
  ctxs : Map Ctx := []
  progs : List Prog := []
  nextProg : Nat := 0
  /-- Programs with a lower number were accepted in an earlier generation of the fold (R426). -/
  bornAt : Nat := 0
  rels : List Rel := []
  masters : List Master := []
  deltas : List Delta := []
  journal : List Jrec := []
  chans : Map Chan := []
  tokens : Map Int := []
  runs : List Run := []
  nextRun : Nat := 0
  /-- The model's own: CLK_FAB cycles that the regulators have run on for an access of one command (log entry 132). -/
  ahead : Nat := 0
  disabled : Bool := false
  /-- The boot fill of R462 has completed. -/
  filled : Bool := false
  /-- UCIe modules that failed to retrain (R400). -/
  mods : BitVec 2 := 0
  deriving DecidableEq, Repr

/-! ## Updates and commits under way -/

/-- A TABLE_COMMIT or UPDATE step that waits for GO (R384). -/
structure StepRec where
  q : BitVec 10
  n : Word
  upd : Bool
  set : List (BitVec 12 × Word)
  /-- On a mirror: the streamed UPDATE whose step it is (R391). -/
  str : Option Half := none
  deriving DecidableEq, Repr

/-- A READY held by the leader (R384). -/
structure ReadyRec where
  src : BitVec 12
  upd : Bool
  tabs : List StepTab
  deriving DecidableEq, Repr

/-- A streamed UPDATE on a mirror (R391). -/
structure StreamRec where
  upd : Half
  tag : Dword
  epochs : List (BitVec 12 × Word)
  recs : List Bytes
  deltas : List Bytes
  whole : Bool
  /-- COMMIT has come, or a takeover completes it (R391, R395). -/
  committed : Bool := false
  /-- The drop and class change records have come, or will not (R391). -/
  step2 : Bool := false
  deriving DecidableEq, Repr

/-- The mirrored UPDATE that the primary has under way (R391). -/
structure MirrorRec where
  upd : Half
  /-- Its drop and class change records are to follow when they are made. -/
  step2 : Bool := false
  prepared : Bool := false
  discarded : Bool := false
  deriving DecidableEq, Repr

/-- A collective under way (R381, R382). -/
structure Coll where
  req : Half
  core : Nat
  slot : Nat
  kind : Byte
  key : Word
  index : Half
  ctr : BitVec 5
  src : Nat
  dst : Nat
  bytes : Nat
  stride : Nat
  /-- PUT, GET: offset in the remote window; the member stands in `stride`, the window number in `dst` of
  a PUT and in `src` of a GET. -/
  off : Nat := 0
  cleared : List (BitVec 12) := []
  sent : List (BitVec 12) := []
  landed : List (BitVec 12) := []
  tag : Word := 0
  /-- Its issue queue entry has been taken (R175). -/
  started : Bool := false
  /-- Its counter has risen (R381). -/
  risen : Bool := false
  deriving DecidableEq, Repr

/-- An open record of the leader (R377). -/
structure KeyRec where
  key : Word
  epochs : List (BitVec 12 × Word)
  arrivals : List (BitVec 12)
  deriving DecidableEq, Repr

/-! ## Network -/

/-- States of a queue pair (R288). -/
inductive QpSt where
  | reset | rts | error
  deriving DecidableEq, Repr

/-- A message sent on a queue pair and not acknowledged: its transfer, the PSNs it takes, and whether it is a
fault-queue record (R289, R336). -/
structure OutMsg where
  x : Nat
  pk : Nat := 1
  fq : Bool := false
  deriving DecidableEq, Repr

/-- A queue pair beyond its configuration registers (R287 to R294). -/
structure Qp where
  st : QpSt := .reset
  cause : Byte := 0
  /-- Messages sent and not acknowledged, oldest first. -/
  out : List OutMsg := []
  /-- PSN of the next request of the remote side (R288, R289). -/
  epsn : BitVec 24 := 0
  /-- PSN of the next message sent (R288, R289). -/
  spsn : BitVec 24 := 0
  /-- A sequence NAK has been sent for the PSN expected (R289). -/
  nakSent : Bool := false
  retries : Nat := 0
  rnr : Nat := 0
  /-- Rc of R294 in Gbit/s. -/
  rate : Rat := 0
  /-- Device time at which the last CNP was sent, if one was (R293). -/
  cnpAt : Option Dword := none
  deriving DecidableEq, Repr

/-- A session (R304 to R307). -/
structure Session where
  live : Bool := false
  openFail : Bool := false
  key : Word := 0
  /-- Expiry in CLK_SLOW cycles. -/
  expiry : Nat := 0
  deriving DecidableEq, Repr

/-- A message held while priority flow control pauses its port: queue pair, PSN and message (R295). -/
structure HeldTx where
  qp : Nat
  psn : BitVec 24
  tx : Tx
  deriving DecidableEq, Repr

/-- The network ports beyond their registers. -/
structure Np where
  qps : Map Qp := []
  sessions : Map Session := []
  linkUp : Map Bool := []
  /-- MAC configuration words in effect, taken when the link came up (R309). -/
  macLive : Map (List Word) := []
  owned : Bool := false
  lapsed : Bool := false
  expiry : Nat := 0
  ns : Dword := 0
  nsFrac : BitVec 40 := 0
  ptpOffset : Int := 0
  ptpRate : Int := 0
  ptpRun : Nat := 0
  /-- The priority is paused by a received XOFF (R295). -/
  paused : Map Bool := []
  pfcIgnore : Map Bool := []
  /-- RoCEv2 messages held by a pause, oldest first (R295). -/
  heldTx : List HeldTx := []
  deriving DecidableEq, Repr

/-! ## Translation -/

/-- A region descriptor (R312). -/
structure Region where
  base : Nat := 0
  limit : Nat := 0
  cid : BitVec 12 := 0
  world : Bool := false
  mask : BitVec 12 := 0
  kind : BitVec 4 := 0
  unit : BitVec 3 := 0
  rd : Bool := false
  wr : Bool := false
  tables : Bool := false
  window : Bool := false
  /-- It is being unmapped (R316). -/
  unmapping : Bool := false
  deriving DecidableEq, Repr

/-- A cached translation: the leaf, the context's WORLD, COUNT and WAIT at the walk, and the leaf's entry in the table
store; none where the leaf is 0 (R327, R332). -/
structure Tlb where
  leaf : Dword := 0
  world : Bool := false
  count : Bool := false
  wait : Bool := false
  at_ : Nat := 0
  deriving DecidableEq, Repr

/-- The XL beyond its registers. -/
structure Xl where
  regions : Map Region := []
  /-- Table store: entry 512 × page + index (R323). -/
  store : Map Dword := []
  /-- Held low halves, by requester and entry (R323). -/
  lowHalf : Map (Option Word) := []
  /-- Cached translations, by CID × 2^36 + page (R327). -/
  cache : Map Tlb := []
  /-- XL_SYNC fences waiting: entry, and the pieces translated before the sync point, as transfer and the queue pairs
  of its pieces (R328). -/
  syncs : List (Word × List (Nat × List (BitVec 13))) := []
  deriving DecidableEq, Repr

/-! ## Drove links -/

/-- States of a link (R367). -/
inductive LinkSt where
  | down | training | up | failed
  deriving DecidableEq, Repr

/-- A Drove link (R364 to R368). -/
structure Link where
  st : LinkSt := .down
  nbr : BitVec 12 := 0xFFF
  nlink : BitVec 5 := 0
  /-- Training has finished; it comes UP once both ends hold an ID. -/
  trained : Bool := false
  txSeq : BitVec 12 := 0
  rxSeq : BitVec 12 := 0
  /-- The retry buffer, oldest first (R366). -/
  retry : List Flit := []
  resends : Nat := 0
  fails : Nat := 0
  deriving DecidableEq, Repr

/-- States of a pair (R396). -/
inductive PairSt where
  | none | forming | sync | solo | stale
  deriving DecidableEq, Repr

/-- A mirrored table being brought to one state (R390). -/
structure FormRec where
  tid : BitVec 12
  /-- Primary: its new epoch is open or published. Mirror: its staged image is started. -/
  began : Bool := false
  /-- Primary: the rows have been sent. -/
  sent : Bool := false
  /-- Mirror: rows landed, and the first rows of the messages that brought them. -/
  rows : Nat := 0
  firsts : List Word := []
  /-- Mirror: number and root of the primary's epoch. -/
  root : Option (Word × Bytes) := none
  deriving DecidableEq, Repr

/-- A planned role swap (R397): none, draining, or due. -/
inductive SwapSt where
  | no | drain | due
  deriving DecidableEq, Repr

/-- The Drove unit beyond its registers. -/
structure Dl where
  links : Map Link := []
  /-- Flits that wait for a link or for ordered flits on an older path, oldest first (R372). -/
  waitTx : List Flit := []
  /-- Destinations for which a flit has been lost (R371). -/
  lostDst : List (BitVec 12) := []
  dissolved : Bool := false
  records : List KeyRec := []
  waitingPins : List (BitVec 12 × Word × List (BitVec 12)) := []
  steps : List StepRec := []
  readys : List ReadyRec := []
  colls : List Coll := []
  /-- CLEARs received before their collective was issued here: member, key, index (R381). -/
  clears : List (BitVec 12 × Word × Half) := []
  nextTag : Word := 0
  pair : PairSt := .none
  partner : BitVec 12 := 0xFFF
  mirror : Bool := false
  syncEn : Bool := false
  hbAlive : Bool := false
  pinAlive : Bool := false
  silent : Bool := false
  /-- Role, pair state and count of the last heartbeat received (R393). -/
  hbRole : Bool := false
  hbState : BitVec 3 := 0
  hbCount : Word := 0
  streams : List StreamRec := []
  mirrored : List MirrorRec := []
  /-- UPDATEs whose DISCARD is not acknowledged: queue, entry, and the ordered flits for the partner up to it (R391). -/
  discards : List (BitVec 10 × Word × Nat) := []
  /-- Tables that R390 is bringing to one state. -/
  forming : List FormRec := []
  /-- PUTs and GET_REQs that wait for a fold to take them (R353, R424). -/
  waitMsgs : List Instr := []
  /-- The planned role swap under way (R397). -/
  swap : SwapSt := .no
  /-- Roots received for epochs not published here yet (R394). -/
  peerRoots : List (BitVec 12 × Word × Bytes) := []
  /-- CLK_FAB cycles since the last heartbeat or the last heartbeat period counted as missed, and the periods counted since
  the last heartbeat (R393, R399). -/
  hbIdle : Nat := 0
  hbMissed : Nat := 0
  /-- The mirrored tables (R389). -/
  mtids : List (BitVec 12) := []
  /-- The PAIR_CTL that waits for the partner (R398). -/
  pairCmd : Option Word := none
  syncOut : Bool := false
  deriving DecidableEq, Repr

/-! ## Integrity unit -/

/-- A fault record (R414). -/
structure Frec where
  recno : Word := 0
  cls : Byte := 0
  unit : Byte := 0
  open_ : Bool := false
  contained : Bool := false
  escalated : Bool := false
  priv : Bool := false
  gen : Byte := 0
  count : Word := 0
  status : Half := 0
  qid : Half := 0
  entry : Word := 0
  first : Dword := 0
  last : Dword := 0
  location : Dword := 0
  detail : Dword := 0
  deriving DecidableEq, Repr

/-- States of a unit (R424, IG_UNIT_STATE). -/
inductive UnitSt where
  | service | quiescing | resetting | recovering
  deriving DecidableEq, Repr

/-- A resettable unit (R422). -/
structure Unit_ where
  st : UnitSt := .service
  gen : Byte := 0
  scope : Scope := .whole
  cause : Word := 0xFFFFFFFF
  /-- A reset wanted after the one in progress (R424). -/
  again : Option Scope := none
  /-- Device time at which its last reset started (R423). -/
  last : Option Dword := none
  deriving DecidableEq, Repr

/-- The integrity unit beyond its registers. -/
structure Ig where
  flog : Map Frec := []
  units : Map Unit_ := []
  /-- Corrected errors this second, by structure and unit (R401). -/
  ce : Map Nat := []
  /-- Launches with a residue mismatch this second, by array (R412). -/
  residue : Map (List Half) := []
  second : Dword := 0
  deriving DecidableEq, Repr

/-! ## Platform controller -/

/-- A conditioned input (R478). -/
structure Cond where
  filtered : Bool := false
  accepted : Bool := false
  inGap : Bool := false
  faulty : Bool := false
  /-- PAIR_SYNC_IN: CLK_FAB times of the latest ignored edges, newest first (R479). -/
  edges : List Nat := []
  deriving DecidableEq, Repr

/-- A PC_FLASH operation (R461). -/
inductive FlashOp where
  | erase (addr : Nat) | program (addr : Nat) (data : Bytes) | read (addr : Nat)
  deriving DecidableEq, Repr

/-- TAP instructions (R444). -/
inductive TapIr where
  | idcode | bypass | sample | extest | token | access
  deriving DecidableEq, Repr

/-- The platform controller beyond its registers. -/
structure Pc where
  /-- An orderly reset is in progress: its cause (R453). -/
  orderly : Option (BitVec 4) := none
  /-- PWRGOOD and RESET_N as accepted. -/
  pwrgood : Bool := true
  resetN : Bool := true
  /-- Level of the PWRGOOD pin, and the 10 ms after an accepted fall (R480). -/
  pwrPin : Bool := true
  pwrGap : Bool := false
  tripped : Bool := false
  pllTries : Nat := 0
  record : Bytes := []
  helper : Bytes := []
  seed : Bytes := []
  /-- Power-up values that the 16 KiB PUF block holds; none where it is written with zeros throughout (R435). -/
  puf : Option Bytes := none
  romDigest : Bytes := []
  image : Bytes := []
  fwDigest : Bytes := []
  identityPk : Bytes := []
  aliasPk : Bytes := []
  aliasSk : Bytes := []
  aliasSig : Bytes := []
  /-- The fallback transfer: total length and pieces held by offset (R464). -/
  fbTotal : Nat := 0
  fbPieces : Map Bytes := []
  flash : Option FlashOp := none
  draws : Nat := 0
  plan : Bytes := []
  planNo : Nat := 0
  replanning : Bool := false
  replanReason : Byte := 0
  /-- Channels that the re-plan under way has retrained, as 16 × fold + channel, and folds that a unit reset has met
  in it (R494, R495). -/
  retrained : List Nat := []
  skipFolds : List Nat := []
  sites : List Site := []
  /-- The ageing trend: each site's latest oscillator count less its baseline in CALIBRATION (R491). -/
  trend : List Int := []
  lowCore : Nat := 0
  lowFold : Nat := 0
  thermDuty : Nat := 16
  powDuty : Nat := 16
  /-- Milliseconds since the power loop last changed its duty, at most 10 (R502). -/
  powMs : Nat := 0
  duty : Nat := 16
  /-- Rails whose 0.80 V write is being repeated, and that lowering has ended (R475). -/
  avsRetry : List Nat := []
  avsNoLow : Bool := false
  coreMv : Nat := 800
  foldMv : Nat := 800
  alert : Cond := {}
  throttle : Cond := {}
  sync : Cond := {}
  sbPtr : Byte := 0
  /-- The latched 4-byte field: its first byte and its bytes (R487). -/
  sbLatch : Option (Nat × Bytes) := none
  sbDyn : Option (BitVec 7) := none
  telemetry : Bytes := []
  tap : TapIr := .idcode
  /-- The boundary-scan cells as last preloaded (R444). -/
  bsr : Bytes := []
  tapReset : Bool := true
  dbgLevel : BitVec 2 := 0
  bootMs : Nat := 0
  deriving DecidableEq, Repr

/-! ## The whole state -/

/-- The state of the part. -/
structure State where
  /-- Commands waiting, first in, first out. -/
  pending : List Instr := []
  /-- Stored register words, by 16,384 × address + selected instance. -/
  regs : Map Word := []
  /-- Selector copies, by requester and address (R509). -/
  sels : Map Word := []
  /-- High halves latched by a low-half read, by requester and address (R13). -/
  latches : Map (Option Word) := []
  fe : Fe := {}
  reqs : List Req := []
  nextHandle : Half := 1
  lastCore : Nat := 1
  nextOrder : Nat := 0
  cores : Map Core := []
  graphs : List Version := []
  /-- GIDs with a patch or store being checked (R224). -/
  checking : List (Nat × BitVec 10 × Word) := []
  tables : Map Table := []
  folds : Map Fold := []
  np : Np := {}
  xl : Xl := {}
  dl : Dl := {}
  ig : Ig := {}
  pc : Pc := {}
  /-- CLK_FAB cycles since reset. -/
  fab : Nat := 0
  /-- What the part has sent, oldest first (the model's own field). -/
  tx : List Tx := []
  /-- Free values drawn so far (the model's own field). -/
  fresh : Nat := 0
  deriving DecidableEq, Repr

/-- Why the machine stops with a fault. -/
inductive Fault where
  /-- FM_REQUEST names a fold address at or above the usable pasture of its fold, which R339 and the
  table of R338 say does not exist. Raised by `execFmRequest`; safe: the part makes no such request. -/
  | noSuchFoldAddress (addr : Nat)
  deriving DecidableEq, Repr

/-- Why a command is refused by the model. -/
inductive Refusal where
  /-- No meaning written for the command. Safe. -/
  | notModelled (mnemonic : String)
  deriving DecidableEq, Repr

/-- The part right after a power-on reset: boot stage 0, unowned, every register at its reset
value, every memory clear (R453 to R462). -/
def State.reset : State := {}

end Sys2Proof.Machine
end

