-- ==== Sys2Proof/Machine/Ops.lean ====
section
/-! DEFINITION. The named operations over the state: stored registers, counters, the maps of queues,
folds, cores, tables, requests and commands, device time, the outgoing trace and free values. Every
meaning reads and writes the state through them. -/

namespace Sys2Proof.Machine

/-- What a step answers. -/
abbrev Out := Host.Outcome State Fault Refusal

/-! ## Stored registers (R12) -/

/-- Key of a stored register: address and selected instance. -/
def regKey (a i : Nat) : Nat := a * 16384 + i

/-- A stored register word; its reset value where nothing has been written. -/
def rv (s : State) (a : Nat) (i : Nat := 0) : Nat := (mget (regReset a) s.regs (regKey a i)).toNat

/-- A stored register word set. -/
def rset (s : State) (a i v : Nat) : State :=
  { s with regs := mset (regReset a) s.regs (regKey a i) (BitVec.ofNat 32 v) }

/-- A field of a stored register. -/
def rf (s : State) (a i hi lo : Nat) : Nat := bits (rv s a i) hi lo

/-- One bit of a stored register. -/
def rb (s : State) (a i b : Nat) : Bool := bit (rv s a i) b

/-- A field of a stored register set. -/
def rsetF (s : State) (a i hi lo v : Nat) : State := rset s a i (setBits (rv s a i) hi lo v)

/-- A counter raised, wrapping at 2^32. -/
def cntN (s : State) (a i n : Nat) : State := rset s a i (rv s a i + n)

/-- A counter raised by one, wrapping at 2^32. -/
def cnt (s : State) (a : Nat) (i : Nat := 0) : State := cntN s a i 1

/-- A 64-bit quantity in two registers. -/
def rv64 (s : State) (a i : Nat) : Nat := rv s a i + 2 ^ 32 * rv s (a + 4) i

/-- A 64-bit quantity set in two registers. -/
def rset64 (s : State) (a i v : Nat) : State := rset (rset s a i v) (a + 4) i (v / 2 ^ 32)

/-- A byte string kept in a run of registers. -/
def rsetBytes (s : State) (a i : Nat) : Bytes → State
  | [] => s
  | b0 :: b1 :: b2 :: b3 :: bs =>
    rsetBytes (rset s a i (leNat [b0, b1, b2, b3])) (a + 4) i bs
  | bs => rset s a i (leNat bs)

/-- The byte string in `n` words of registers. -/
def rbytes (s : State) (a i : Nat) : Nat → Bytes
  | 0 => []
  | n + 1 => toLE 4 (rv s a i) ++ rbytes s (a + 4) i n

/-! ## Trace, time and free values -/

/-- Puts a message on a wire. -/
def emit (s : State) (t : Tx) : State := { s with tx := s.tx ++ [t] }

/-- Device nanosecond time (R296). -/
def now (s : State) : Nat := s.np.ns.toNat

/-- A free value and the state that has drawn it (log entry 3). -/
def draw (s : State) : Nat × State := (Config.freeNat s.fresh, { s with fresh := s.fresh + 1 })

/-- STAGE of PC_BOOT_STAT (R458). -/
def stage (s : State) : Nat := rf s aPcBootStat 0 3 0

/-- An orderly reset is in progress: no doorbell, no claim and no configuration access is accepted (R303,
R420). -/
def closed (s : State) : Bool := s.pc.orderly.isSome

/-- The part is held in reset: PWRGOOD or RESET_N low, or a thermal trip (R456, R485). -/
def heldInReset (s : State) : Bool := !s.pc.pwrgood || !s.pc.resetN || s.pc.tripped

/-- CLK_SLOW cycles since reset: 100 MHz against 960 MHz (R449). -/
def slow (s : State) : Nat := s.fab * 5 / 48

/-! ## Folds, cores, queues and tables -/

/-- A fold. -/
def fold (s : State) (f : Nat) : Fold := mget {} s.folds f
/-- A fold set. -/
def setFold (s : State) (f : Nat) (x : Fold) : State := { s with folds := mset {} s.folds f x }
/-- A fold changed. -/
def updFold (s : State) (f : Nat) (g : Fold → Fold) : State := setFold s f (g (fold s f))

/-- A ranking core. -/
def core (s : State) (c : Nat) : Core := mget {} s.cores c
/-- A ranking core set. -/
def setCore (s : State) (c : Nat) (x : Core) : State := { s with cores := mset {} s.cores c x }
/-- A ranking core changed. -/
def updCore (s : State) (c : Nat) (g : Core → Core) : State := setCore s c (g (core s c))

/-- A launch slot of a core. -/
def cslot (x : Core) (k : Nat) : Slot := mget {} x.slots k
/-- A launch slot set. -/
def csetSlot (x : Core) (k : Nat) (v : Slot) : Core := { x with slots := mset {} x.slots k v }
/-- A launch slot changed. -/
def cupdSlot (x : Core) (k : Nat) (g : Slot → Slot) : Core := csetSlot x k (g (cslot x k))

/-- A queue. -/
def queue (s : State) (q : Nat) : Queue := mget {} s.fe.queues q
/-- A queue set. -/
def setQueue (s : State) (q : Nat) (x : Queue) : State :=
  { s with fe := { s.fe with queues := mset {} s.fe.queues q x } }
/-- A queue changed. -/
def updQueue (s : State) (q : Nat) (g : Queue → Queue) : State := setQueue s q (g (queue s q))

/-- A table. -/
def table (s : State) (t : Nat) : Table := mget {} s.tables t
/-- A table set. -/
def setTable (s : State) (t : Nat) (x : Table) : State := { s with tables := mset {} s.tables t x }
/-- A table changed. -/
def updTable (s : State) (t : Nat) (g : Table → Table) : State := setTable s t (g (table s t))

/-- A queue pair; 4,096 is the management queue pair (R287). -/
def qp (s : State) (i : Nat) : Qp := mget {} s.np.qps i
/-- A queue pair set. -/
def setQp (s : State) (i : Nat) (x : Qp) : State :=
  { s with np := { s.np with qps := mset {} s.np.qps i x } }
/-- A queue pair changed. -/
def updQp (s : State) (i : Nat) (g : Qp → Qp) : State := setQp s i (g (qp s i))

/-- A session. -/
def session (s : State) (i : Nat) : Session := mget {} s.np.sessions i
/-- A session set. -/
def setSession (s : State) (i : Nat) (x : Session) : State :=
  { s with np := { s.np with sessions := mset {} s.np.sessions i x } }
/-- A session changed. -/
def updSession (s : State) (i : Nat) (g : Session → Session) : State := setSession s i (g (session s i))

/-- A region descriptor. -/
def region (s : State) (i : Nat) : Region := mget {} s.xl.regions i
/-- A region descriptor set. -/
def setRegion (s : State) (i : Nat) (x : Region) : State :=
  { s with xl := { s.xl with regions := mset {} s.xl.regions i x } }

/-- A Drove link. -/
def link (s : State) (i : Nat) : Link := mget {} s.dl.links i
/-- A Drove link set. -/
def setLink (s : State) (i : Nat) (x : Link) : State :=
  { s with dl := { s.dl with links := mset {} s.dl.links i x } }
/-- A Drove link changed. -/
def updLink (s : State) (i : Nat) (g : Link → Link) : State := setLink s i (g (link s i))

/-- A resettable unit: 0, 1 the cores, 2 + f the folds (IG_UNIT_SEL). -/
def unit (s : State) (u : Nat) : Unit_ := mget {} s.ig.units u
/-- A resettable unit set. -/
def setUnit (s : State) (u : Nat) (x : Unit_) : State :=
  { s with ig := { s.ig with units := mset {} s.ig.units u x } }
/-- A resettable unit changed. -/
def updUnit (s : State) (u : Nat) (g : Unit_ → Unit_) : State := setUnit s u (g (unit s u))

/-! ## Fetched commands and requests -/

/-- The fetched command of a queue and entry number. -/
def cmd (s : State) (q : Nat) (n : Word) : Option Cmd :=
  s.fe.cmds.find? (fun c => c.q.toNat == q && c.n == n)
/-- A fetched command changed. -/
def updCmd (s : State) (q : Nat) (n : Word) (g : Cmd → Cmd) : State :=
  { s with fe := { s.fe with cmds := updFirst (fun c => c.q.toNat == q && c.n == n) g s.fe.cmds } }
/-- A fetched command dropped. -/
def dropCmd (s : State) (q : Nat) (n : Word) : State :=
  { s with fe := { s.fe with cmds := s.fe.cmds.filter (fun c => !(c.q.toNat == q && c.n == n)) } }

/-- An admitted request. -/
def req (s : State) (h : Half) : Option Req := s.reqs.find? (fun r => r.handle == h)
/-- An admitted request changed. -/
def updReq (s : State) (h : Half) (g : Req → Req) : State :=
  { s with reqs := updFirst (fun r => r.handle == h) g s.reqs }

/-- A transfer. -/
def xfer (s : State) (x : Nat) : Option Xfer := s.fe.xfers.find? (fun t => t.id == x)
/-- A transfer changed. -/
def updXfer (s : State) (x : Nat) (g : Xfer → Xfer) : State :=
  { s with fe := { s.fe with xfers := updFirst (fun t => t.id == x) g s.fe.xfers } }
/-- A transfer dropped. -/
def dropXfer (s : State) (x : Nat) : State :=
  { s with fe := { s.fe with xfers := s.fe.xfers.filter (fun t => !(t.id == x)) } }

/-- A function applied along a list of numbers. -/
def forAll {α : Type} (l : List α) (s : State) (g : State → α → State) : State := l.foldl g s

end Sys2Proof.Machine
end

