-- ==== Sys2Proof/Machine/Flit.lean ====
section
/-! DEFINITION. Flits of the Drove links and the messages that they carry: the 256 B layout with its CRC, the message
header, and how a message is cut into flits (R365, R372). -/

namespace Sys2Proof.Machine

/-! ## The flit (R365) -/

/-- One bit into the register of CRC-32C, reflected. -/
def crc32cBit (r : Nat) : Nat := if r % 2 = 1 then Nat.xor (r / 2) 0x82F63B78 else r / 2

/-- One byte into the register of CRC-32C. -/
def crc32cByte (r : Nat) (b : Byte) : Nat :=
  crc32cBit (crc32cBit (crc32cBit (crc32cBit (crc32cBit (crc32cBit (crc32cBit (crc32cBit (Nat.xor r b.toNat))))))))

/-- CRC-32C of bytes. -/
def crc32c (b : Bytes) : Nat := Nat.xor (b.foldl crc32cByte 0xFFFFFFFF) 0xFFFFFFFF

/-- Bytes 0 to 251 of a flit. -/
def flitHead (f : Flit) : Bytes :=
  [BitVec.ofNat 8 (f.kind.toNat + 16 * b2n f.ordered), 0] ++ toLE 2 f.dst.toNat ++ toLE 2 f.src.toNat ++
    toLE 2 f.seq.toNat ++ toLE 2 (f.ack.toNat + 2 ^ 15 * b2n f.ackv) ++ [f.len, 0] ++ slice f.payload 0 240

/-- The 256 bytes of a flit, with its CRC. -/
def flitBytes (f : Flit) : Bytes := flitHead f ++ toLE 4 (crc32c (flitHead f))

/-- The flit that 252 bytes before the CRC hold; reserved bits are ignored. -/
def flitOf (b : Bytes) : Flit :=
  let k := fld b 0 1
  let a := fld b 8 2
  let n := min 240 (fld b 10 1)
  { kind := BitVec.ofNat 4 k, ordered := bit k 4, dst := BitVec.ofNat 12 (fld b 2 2), src := BitVec.ofNat 12 (fld b 4 2)
    seq := BitVec.ofNat 12 (fld b 6 2), ack := BitVec.ofNat 12 a, ackv := bit a 15, len := BitVec.ofNat 8 n
    payload := slice b 12 n }

/-- The CRC of a received flit is right for its first 252 bytes. -/
def flitCrcOk (b : Bytes) (crc : Word) : Bool := b.length == 252 && crc.toNat == crc32c b

/-! ## Messages (R372) -/

/-- KIND of a message, and whether it is ordered traffic. -/
def msgKind (m : Instr) : Nat × Bool :=
  match m with
  | .pinReq .. => (0x01, true)
  | .pin .. => (0x02, true)
  | .ready .. => (0x03, true)
  | .go .. => (0x04, true)
  | .cancel .. => (0x05, true)
  | .release .. => (0x06, true)
  | .clear .. => (0x07, true)
  | .record .. => (0x08, true)
  | .pairMsg .. => (0x09, true)
  | .slice .. => (0x0A, false)
  | .put .. => (0x0B, false)
  | .getReq .. => (0x0C, true)
  | .getData .. => (0x0C, false)
  | .deny .. => (0x0D, true)
  | .abandon .. => (0x0E, true)
  | .hb .. => (0x10, true)
  | .stream .. => (0x11, true)
  | .prepared .. => (0x11, true)
  | .commit .. => (0x11, true)
  | .discard .. => (0x11, true)
  | .root .. => (0x12, true)
  | .bulk .. => (0x13, false)
  | _ => (0, true)

/-- Bytes that the body of a message takes where the spec gives it no layout: those of its fields (log entry 153). -/
def msgLen (m : Instr) : Nat :=
  match m with
  | .pinReq _ _ ts => 6 + 2 * ts.length
  | .pin _ es => 4 + 6 * es.length
  | .ready _ _ ts => 3 + 38 * ts.length
  | .go set roots => 6 * set.length + (roots.map (fun r => 2 + 32 * r.2.length)).sum
  | .cancel set _ => 1 + 6 * set.length
  | .release .. => 6
  | .clear .. => 8
  | .record _ es ps => 4 + 6 * es.length + 2 * ps.length
  | .pairMsg (.form _ _ _ _ tabs) => 8 + 66 * tabs.length
  | .pairMsg (.resync _ ts) => 4 + 2 * ts.length
  | .pairMsg (.holds _ _ d _ r) => 8 + d.length + r.length
  | .pairMsg _ => 8
  | .getReq .. => 13
  | .hb .. => 8
  | .stream _ _ es rs ds _ => 11 + 6 * es.length + (rs.map List.length).sum + (ds.map List.length).sum
  | .prepared _ => 2
  | .commit _ => 2
  | .discard _ => 2
  | .root .. => 38
  | _ => 4

/-- The body of a message: the data of placed traffic, and free bytes where the spec gives no layout. -/
def msgBody (m : Instr) : Bytes :=
  match m with
  | .slice _ _ _ _ d _ => d.data
  | .put _ _ _ _ d => d.data
  | .getData _ _ d => d.data
  | .bulk _ _ rows => rows.flatMap (·.data)
  | _ => (List.range (msgLen m)).map (Config.droveByte m)

/-- TAG of a message: that of an access to a remote window, and a free value elsewhere. -/
def msgTag (m : Instr) : Nat :=
  match m with
  | .put _ t .. => t.toNat
  | .getReq _ t .. => t.toNat
  | .getData _ t _ => t.toNat
  | .deny _ t => t.toNat
  | _ => (Config.droveTag m).toNat

/-- Flits of a message. -/
def msgFlits (m : Instr) : Nat := max 1 ((16 + (msgBody m).length + 239) / 240)

/-- The bytes of a message: its 16 B header and its body. -/
def msgBytes (m : Instr) : Bytes :=
  [BitVec.ofNat 8 (msgKind m).1, Config.droveFlags m] ++ toLE 2 (msgFlits m) ++ toLE 4 (msgTag m) ++
    toLE 8 (Config.droveAddr m).toNat ++ msgBody m

/-- A message cut into flits from this part to another. -/
def mkFlits (me d : Nat) (m : Instr) : List Flit :=
  let b := msgBytes m
  (List.range (msgFlits m)).map (fun k =>
    let p := (b.drop (240 * k)).take 240
    { kind := if k = 0 then 1 else 2, ordered := (msgKind m).2, dst := BitVec.ofNat 12 d, src := BitVec.ofNat 12 me, seq := 0
      ack := 0, ackv := false, len := BitVec.ofNat 8 p.length, payload := p })

end Sys2Proof.Machine
end

