-- ==== Sys2Proof/Machine/DlBase.lean ====
section
/-! DEFINITION. Drove messages, routes and column groups as the other units use them: who a message goes to, whether a
part has a route, and the links on which its flits leave (R366, R368, R371 to R374, R379). -/

namespace Sys2Proof.Machine

/-! ## Routes (R368, R371) -/

/-- This part's ID. -/
def myId (s : State) : Nat := rf s aDlPartId 0 11 0

/-- The trunk to a neighbour has an UP link. -/
def trunkUp (s : State) (p : Nat) : Bool := s.dl.links.any (fun (_, l) => l.st == .up && l.nbr.toNat == p)

/-- The neighbour on whose trunk traffic to a part goes, and USING of DL_ROUTE_STAT. -/
def routeTo (s : State) (d : Nat) : Option (Nat × Nat) :=
  let a := rf s aDlRouteCfg d 11 0
  let b := rf s aDlRouteCfg d 23 12
  if a ≠ 0xFFF ∧ trunkUp s a then some (a, 1)
  else if a ≠ 0xFFF ∧ b ≠ 0xFFF ∧ trunkUp s b then some (b, 2)
  else none

/-- A part can be reached; a part always reaches itself. -/
def reaches (s : State) (d : Nat) : Bool := d == myId s || (routeTo s d).isSome

/-! ## Sending flits (R365, R366, R371, R372) -/

/-- UP links of the trunk to a neighbour, rising. -/
def trunk (s : State) (p : Nat) : List Nat :=
  (s.dl.links.filter (fun (_, l) => l.st == .up && l.nbr.toNat == p)).map (·.1)

/-- A flit put on a link: it takes the link's next SEQ, carries the link's acknowledgement and stays in the
retry buffer. -/
def putFlit (s : State) (l : Nat) (fl : Flit) : State :=
  let k := link s l
  let f : Flit := { fl with seq := k.txSeq, ack := k.rxSeq - 1, ackv := true }
  let s := setLink s l { k with txSeq := k.txSeq + 1, retry := k.retry ++ [f] }
  emit (cnt s aDlLinkCntTx l) (.flit l (flitBytes f))

/-- The retry buffer of a link has room. -/
def linkRoom (s : State) (l : Nat) : Bool := (link s l).retry.length < 512

/-- Of two links the one with the fewer unacknowledged flits, the first if they have as many. -/
def lessBusy (s : State) (a : Option Nat) (l : Nat) : Option Nat :=
  match a with
  | some k => if (link s l).retry.length < (link s k).retry.length then some l else a
  | none => some l

/-- An ordered flit to a destination is not acknowledged yet on another link (R372). -/
def olderPath (s : State) (l : Nat) (dst : BitVec 12) : Bool :=
  s.dl.links.any (fun (k, x) => k ≠ l && x.st == .up && x.retry.any (fun f => f.ordered && f.dst == dst))

/-- The link on which a flit to a neighbour goes now: ordered traffic on the lowest UP link of the trunk, once no
ordered flit for its destination is unacknowledged on another path; placed traffic on the link of the trunk with the
fewest unacknowledged flits, so that it uses every link (R368, R372). -/
def pickLink (s : State) (p : Nat) (fl : Flit) : Option Nat :=
  let ls := trunk s p
  if fl.ordered then
    match ls with
    | l :: _ => if linkRoom s l && !olderPath s l fl.dst then some l else none
    | [] => none
  else (ls.filter (linkRoom s)).foldl (lessBusy s) none

/-- A flit is lost for want of a route; the first for its destination sets ROUTE_LOST (R371). -/
def loseFlit (s : State) (dst : BitVec 12) : State :=
  if s.dl.lostDst.contains dst then s
  else rsetF { s with dl := { s.dl with lostDst := dst :: s.dl.lostDst } } aDlStat 0 0 0 1

/-- A flit of this part or of another goes on the trunk to its destination, is lost without a route, or waits for a
link; ordered flits of one destination wait behind each other (R371, R372). -/
def sendFlit (s : State) (fl : Flit) : State :=
  let wait (s : State) : State := { s with dl := { s.dl with waitTx := s.dl.waitTx ++ [fl] } }
  if fl.ordered && s.dl.waitTx.any (fun f => f.ordered && f.dst == fl.dst) then wait s
  else match routeTo s fl.dst.toNat with
    | none => loseFlit s fl.dst
    | some (p, _) => match pickLink s p fl with
      | some l => putFlit s l fl
      | none => wait s

/-- Flits sent again in their order, before those that wait. -/
def drainFlits (s : State) (first : List Flit) : State :=
  (first ++ s.dl.waitTx).foldl sendFlit { s with dl := { s.dl with waitTx := [] } }

/-- A message sent to a part in the payloads of its flits; without a route it is lost (R371, R372). A message of the
part to itself takes no link. -/
def droveSend (s : State) (d : Nat) (m : Instr) : State :=
  let dst := BitVec.ofNat 12 d
  if d = 0xFFF then s
  else if d = myId s then emit s (.drove dst m)
  else if (routeTo s d).isSome then (mkFlits (myId s) d m).foldl sendFlit (emit s (.drove dst m))
  else loseFlit s dst

/-- The most bytes of a block that one message of placed traffic carries: the 16 bits of FLITS count fewer flits than a
block of 16 MiB takes (R372, R380, log entry 160). -/
def pieceMax : Nat := 2 ^ 23

/-- The pieces of a block: offset and length of each. -/
def pieces (n : Nat) : List (Nat × Nat) :=
  (List.range (max 1 ((n + pieceMax - 1) / pieceMax))).map (fun k => (k * pieceMax, min pieceMax (n - k * pieceMax)))

/-- TAG of the k-th piece of a GET (log entry 160). -/
def pieceTag (tag : Word) (k : Nat) : Word := tag + BitVec.ofNat 32 (2 ^ 31 * k)

/-- Ordered flits for a part that are not acknowledged yet. -/
def orderedOut (s : State) (dst : BitVec 12) : Nat :=
  let mine (f : Flit) : Bool := f.ordered && f.dst == dst
  (s.dl.links.map (fun (_, l) => (l.retry.filter mine).length)).sum + (s.dl.waitTx.filter mine).length

/-- Flits acknowledged: of the ordered ones for the partner, so many fewer stand before a DISCARD's acknowledgement
(R391). -/
def countAcked (s : State) (l : List Flit) : State :=
  let k := (l.filter (fun f => f.ordered && f.dst == s.dl.partner)).length
  { s with dl := { s.dl with discards := (s.dl.discards.map (fun (q, n, j) => (q, n, j - k))).filter (fun (_, _, j) => j ≠ 0) } }

/-! ## Groups (R374) -/

/-- The group is enabled. -/
def grpOn (s : State) : Bool := rb s aDlGrpCtl 0 0
/-- Members of the group. -/
def grpN (s : State) : Nat := rf s aDlGrpSize 0 11 0 + 1
/-- This part's member index. -/
def myIdx (s : State) : Nat := rf s aDlGrpSize 0 27 16
/-- Primary of a member. -/
def memPrim (s : State) (i : Nat) : Nat := rf s aDlGrpMember i 11 0
/-- Mirror of a member; 0xFFF for none. -/
def memMirr (s : State) (i : Nat) : Nat := rf s aDlGrpMember i 27 16
/-- The leader. -/
def leader (s : State) : Nat := memPrim s 0
/-- This part leads the group. -/
def isLeader (s : State) : Bool := grpOn s && leader s == myId s
/-- This part is a mirror in the group: the member table names it so, or it is the mirror of a formed pair (R379). -/
def isGrpMirror (s : State) : Bool :=
  grpOn s && memPrim s (myIdx s) ≠ myId s && (memMirr s (myIdx s) == myId s || (s.dl.pair ≠ .none && s.dl.mirror))
/-- Indices of the other members. -/
def others (s : State) : List Nat := (List.range (grpN s)).filter (· ≠ myIdx s)
/-- Member index of a part, as primary or mirror. -/
def idxOf (s : State) (p : Nat) : Option Nat := (List.range (grpN s)).find? (fun i => memPrim s i == p || memMirr s i == p)

/-- A message to every other member's primary. -/
def toMembers (s : State) (m : Instr) : State := (others s).foldl (fun s i => droveSend s (memPrim s i) m) s

/-- Every member and mirror of the group, this part among them. -/
def allParts (s : State) : List Nat :=
  (List.range (grpN s)).flatMap (fun i => [memPrim s i] ++ (if memMirr s i = 0xFFF then [] else [memMirr s i]))

end Sys2Proof.Machine
end

