-- ==== Sys2Proof/Machine/Fp.lean ====
section
/-! DEFINITION. Floating-point arithmetic of the lanes, arrays and engines (R81, R84, R85, R193 to R195,
R209 to R213): every operation is the exact real result rounded once to nearest even, subnormals kept,
a NaN result written as the canonical NaN. Bit patterns are natural numbers. -/

namespace Sys2Proof.Machine

/-- A binary format: fraction bits and exponent bits. -/
structure Fmt where
  /-- Fraction bits. -/
  mb : Nat
  /-- Exponent bits. -/
  eb : Nat
  deriving DecidableEq, Repr

/-- binary32. -/
def F32 : Fmt := ⟨23, 8⟩
/-- binary64. -/
def F64 : Fmt := ⟨52, 11⟩
/-- bfloat16. -/
def BF16 : Fmt := ⟨7, 8⟩
/-- OCP E5M2. -/
def E5M2 : Fmt := ⟨2, 5⟩

/-- The value of a datum; `fin neg m e` is ± m × 2^e, a signed zero when m is 0. -/
inductive Fv where
  | nan
  | inf (neg : Bool)
  | fin (neg : Bool) (m : Nat) (e : Int)
  deriving DecidableEq, Repr

/-- Exponent of the last place of a subnormal. -/
def qmin (f : Fmt) : Int := 2 - (2 ^ (f.eb - 1) : Nat) - f.mb

/-- The canonical NaN of R81 (0x7FC0_0000) and R85 (0x7FC0). -/
def cnan (f : Fmt) : Nat := (2 ^ f.eb - 1) * 2 ^ f.mb + 2 ^ (f.mb - 1)

/-- An infinity. -/
def finf (f : Fmt) (neg : Bool) : Nat := (2 ^ f.eb - 1) * 2 ^ f.mb + b2n neg * 2 ^ (f.mb + f.eb)

/-- A signed zero. -/
def fzero (f : Fmt) (neg : Bool) : Nat := b2n neg * 2 ^ (f.mb + f.eb)

/-- The value of a bit pattern. -/
def fdec (f : Fmt) (x : Nat) : Fv :=
  let neg := bit x (f.mb + f.eb)
  let ex := bits x (f.mb + f.eb - 1) f.mb
  let fr := x % 2 ^ f.mb
  if ex = 2 ^ f.eb - 1 then (if fr = 0 then .inf neg else .nan)
  else if ex = 0 then .fin neg fr (qmin f)
  else .fin neg (2 ^ f.mb + fr) (qmin f + (ex - 1 : Nat))

/-- A real value ± m × 2^e, or one strictly between ± m × 2^e and ± (m + 1) × 2^e when `st` holds,
rounded to nearest even; beyond the range an infinity of its sign (R85, R193). -/
def fround (f : Fmt) (neg : Bool) (m : Nat) (e : Int) (st : Bool := false) : Nat :=
  let sgnBit := b2n neg * 2 ^ (f.mb + f.eb)
  if m = 0 then sgnBit
  else
    let len : Int := Nat.log2 m + 1
    let q := max (e + len - (f.mb + 1)) (qmin f)
    let r : Nat :=
      if q ≤ e then m * 2 ^ (e - q).toNat
      else
        let sh := (q - e).toNat
        let d := m / 2 ^ sh
        let rem := m % 2 ^ sh
        let half := 2 ^ (sh - 1)
        if half < rem then d + 1
        else if rem = half then (if st then d + 1 else d + d % 2)
        else d
    let enc := r + (q - qmin f).toNat * 2 ^ f.mb
    if (2 ^ f.eb - 1) * 2 ^ f.mb ≤ enc then finf f neg else sgnBit + enc

/-- A signed integer scaled by 2^e, rounded; an exact zero takes the sign given. -/
def froundI (f : Fmt) (i : Int) (e : Int) (zneg : Bool := false) : Nat :=
  if i = 0 then fzero f zneg else fround f (i < 0) i.natAbs e

/-- A value rounded to a format. -/
def fenc (f : Fmt) : Fv → Nat
  | .nan => cnan f
  | .inf n => finf f n
  | .fin n m e => fround f n m e

/-- One format's datum converted to another. -/
def fconv (f g : Fmt) (x : Nat) : Nat := fenc g (fdec f x)

/-- A signed integer from sign and magnitude. -/
def sint (neg : Bool) (m : Nat) : Int := if neg then -(m : Int) else m

/-- The exact sum of two values, rounded. -/
def fvAdd (f : Fmt) : Fv → Fv → Nat
  | .nan, _ => cnan f
  | _, .nan => cnan f
  | .inf a, .inf b => if a = b then finf f a else cnan f
  | .inf a, _ => finf f a
  | _, .inf b => finf f b
  | .fin na ma ea, .fin nb mb eb =>
    let e := min ea eb
    let i := sint na (ma * 2 ^ (ea - e).toNat) + sint nb (mb * 2 ^ (eb - e).toNat)
    froundI f i e (na && nb)

/-- The exact product of two values, as a value. -/
def fvMul : Fv → Fv → Fv
  | .nan, _ => .nan
  | _, .nan => .nan
  | .inf a, .inf b => .inf (a != b)
  | .inf a, .fin b m _ => if m = 0 then .nan else .inf (a != b)
  | .fin a m _, .inf b => if m = 0 then .nan else .inf (a != b)
  | .fin a m e, .fin b m' e' => .fin (a != b) (m * m') (e + e')

/-- The quotient of two values, rounded. -/
def fvDiv (f : Fmt) : Fv → Fv → Nat
  | .nan, _ => cnan f
  | _, .nan => cnan f
  | .inf _, .inf _ => cnan f
  | .inf a, .fin b _ _ => finf f (a != b)
  | .fin a _ _, .inf b => fzero f (a != b)
  | .fin a m e, .fin b m' e' =>
    if m' = 0 then (if m = 0 then cnan f else finf f (a != b))
    else if m = 0 then fzero f (a != b)
    else
      let k := f.mb + 4 + Nat.log2 m'
      let n := m * 2 ^ k
      fround f (a != b) (n / m') (e - e' - k) (n % m' != 0)

/-- Largest integer whose square is at most `n`, by `fuel` binary digits from the top. -/
def isqrt (n : Nat) : Nat → Nat → Nat
  | 0, acc => acc
  | k + 1, acc =>
    let t := acc + 2 ^ k
    isqrt n k (if t * t ≤ n then t else acc)

/-- Floor of the square root. -/
def sqrtFloor (n : Nat) : Nat := isqrt n (Nat.log2 n / 2 + 1) 0

/-- The square root of a value, rounded. -/
def fvSqrt (f : Fmt) : Fv → Nat
  | .nan => cnan f
  | .inf n => if n then cnan f else finf f false
  | .fin n m e =>
    if m = 0 then fzero f n
    else if n then cnan f
    else
      let k := 2 * (f.mb + 4)
      let k := if (e - k) % 2 = 0 then k else k + 1
      let v := m * 2 ^ k
      let r := sqrtFloor v
      fround f false r ((e - k) / 2) (r * r != v)

/-- FP32 addition. -/
def add32 (a b : Nat) : Nat := fvAdd F32 (fdec F32 a) (fdec F32 b)
/-- FP32 multiplication. -/
def mul32 (a b : Nat) : Nat := fenc F32 (fvMul (fdec F32 a) (fdec F32 b))
/-- FP32 subtraction. -/
def sub32 (a b : Nat) : Nat := add32 a (Nat.xor b 0x80000000)
/-- FP32 division. -/
def div32 (a b : Nat) : Nat := fvDiv F32 (fdec F32 a) (fdec F32 b)
/-- FP32 square root. -/
def sqrt32 (a : Nat) : Nat := fvSqrt F32 (fdec F32 a)
/-- Fused multiply-add, rounded once. -/
def fma32 (a b c : Nat) : Nat := fvAdd F32 (fvMul (fdec F32 a) (fdec F32 b)) (fdec F32 c)

/-- FP64 addition. -/
def add64 (a b : Nat) : Nat := fvAdd F64 (fdec F64 a) (fdec F64 b)
/-- The difference of two FP32 data in FP64. -/
def sub3264 (a b : Nat) : Nat := fvAdd F64 (fdec F32 a) (fdec F32 (Nat.xor b 0x80000000))
/-- FP64 square. -/
def sqr64 (a : Nat) : Nat := fenc F64 (fvMul (fdec F64 a) (fdec F64 a))

/-- It is a NaN. -/
def isNan32 (a : Nat) : Bool := fdec F32 a = .nan
/-- It is an infinity. -/
def isInf32 (a : Nat) : Bool := a % 2 ^ 31 = 0x7F800000

/-- An order-preserving integer for data that are not NaN; −0 lies just below +0 (R84). -/
def ord32 (a : Nat) : Int := if 2 ^ 31 ≤ a then -((a - 2 ^ 31 : Nat) : Int) - 1 else a

/-- Maximum of R84: a NaN gives the canonical NaN, +0 is larger than −0. -/
def max32 (a b : Nat) : Nat :=
  if isNan32 a || isNan32 b then cnan F32 else if ord32 a < ord32 b then b else a

/-- Minimum, the rules of R84 mirrored. -/
def min32 (a b : Nat) : Nat :=
  if isNan32 a || isNan32 b then cnan F32 else if ord32 b < ord32 a then b else a

/-- Absolute value. -/
def abs32 (a : Nat) : Nat := a % 2 ^ 31
/-- Sign inverted. -/
def neg32 (a : Nat) : Nat := Nat.xor a 0x80000000

/-- FP32 rounded to BF16 (R85). -/
def toBf16 (a : Nat) : Nat := fconv F32 BF16 a
/-- BF16 widened exactly. -/
def ofBf16 (a : Nat) : Nat := fconv BF16 F32 a

/-- A signed integer rounded to FP32. -/
def ofInt32 (i : Int) : Nat := froundI F32 i 0

/-- FP32 rounded to an integer to nearest even and saturated to 32 bits; a NaN gives 0 (R209). -/
def toInt32 (a : Nat) : Int :=
  match fdec F32 a with
  | .nan => 0
  | .inf n => if n then -2147483648 else 2147483647
  | .fin n m e =>
    let i : Nat :=
      if 0 ≤ e then m * 2 ^ e.toNat
      else
        let sh := (-e).toNat
        let d := m / 2 ^ sh
        let rem := m % 2 ^ sh
        if 2 ^ (sh - 1) < rem then d + 1 else if rem = 2 ^ (sh - 1) then d + d % 2 else d
    max (-2147483648) (min 2147483647 (sint n i))

/-! ## Exact sums (R193, R212) -/

/-- A running exact sum: NaN seen, +∞ seen, −∞ seen, integer and exponent, every term −0. -/
structure ESum where
  nan : Bool := false
  pinf : Bool := false
  ninf : Bool := false
  i : Int := 0
  e : Int := 0
  any : Bool := false
  allNegZero : Bool := true
  deriving DecidableEq, Repr

/-- A value added to a running sum. -/
def esAdd (s : ESum) (v : Fv) : ESum :=
  match v with
  | .nan => { s with nan := true, any := true, allNegZero := false }
  | .inf n => { s with pinf := s.pinf || !n, ninf := s.ninf || n, any := true, allNegZero := false }
  | .fin n m e' =>
    let e := min s.e e'
    { s with i := s.i * 2 ^ (s.e - e).toNat + sint n m * 2 ^ (e' - e).toNat, e := e, any := true
             allNegZero := s.allNegZero && n && m == 0 }

/-- A running sum rounded once (R212). -/
def esOut (s : ESum) : Nat :=
  if s.nan || (s.pinf && s.ninf) then cnan F32
  else if s.pinf then finf F32 false
  else if s.ninf then finf F32 true
  else froundI F32 s.i s.e (s.any && s.allNegZero)

end Sys2Proof.Machine
end

