-- ==== Sys2Proof/Machine/Quant.lean ====
section
/-! DEFINITION. Quantised formats: the bell grid, group scales, decoding, the conversion rule and its
statistics (R32 to R34, R133 to R151). -/

namespace Sys2Proof.Machine

/-- Formats of R137. -/
inductive QFmt where
  | b4 | e4m3 | e5m2 | int8 | int8a
  deriving DecidableEq, Repr

/-- The format of a FMT code (R137); 5 to 7 are reserved. -/
def qfmtOf : Nat → Option QFmt
  | 0 => some .b4
  | 1 => some .e4m3
  | 2 => some .e5m2
  | 3 => some .int8
  | 4 => some .int8a
  | _ => none

/-- The FMT code of a format. -/
def qcode : QFmt → Nat
  | .b4 => 0 | .e4m3 => 1 | .e5m2 => 2 | .int8 => 3 | .int8a => 4

/-- The magnitudes M of R133. -/
def bellMag : List Nat := [0, 4, 9, 15, 22, 32, 45, 64]

/-- The grid integer G of a B4 code (R133). -/
def bellG (c : Nat) : Int := sint (bit c 3) ((bellMag[c % 8]?).getD 0)

/-- The value of an E4M3 code (OCP): bias 7, no infinity, NaN at S.1111.111. -/
def e4m3Val (c : Nat) : Fv :=
  let neg := bit c 7
  let ex := bits c 6 3
  let fr := c % 8
  if ex = 15 ∧ fr = 7 then .nan
  else if ex = 0 then .fin neg fr (-9)
  else .fin neg (8 + fr) ((ex : Int) - 10)

/-- Grid value x of an element code (R136); INT8A codes are handled by R145. -/
def gridVal (f : QFmt) (c : Nat) : Fv :=
  match f with
  | .b4 => let g := bellG c; .fin (g < 0) g.natAbs 0
  | .e4m3 => e4m3Val (c % 256)
  | .e5m2 => fdec E5M2 (c % 256)
  | .int8 => let g := sgn 8 c; .fin (g < 0) g.natAbs 0
  | .int8a => let g := sgn 8 c; .fin (g < 0) g.natAbs 0

/-- The unit u(c) of R134, for c from 0x01. -/
def unitVal (c : Nat) : Fv := .fin false (8 + c % 8) ((c / 8 : Nat) - 40 : Int)

/-- The group factor t(c) = round(u(c) × SUPER) (R134). -/
def groupT (super c : Nat) : Nat := fenc F32 (fvMul (unitVal c) (fdec F32 super))

/-- An element decoded under its group scale code and super-scale (R135, R136). -/
def qdec (f : QFmt) (super gc code : Nat) : Nat :=
  if gc = 0 then 0
  else fenc F32 (fvMul (gridVal f code) (fdec F32 (groupT super gc)))

/-- An INT8A element decoded: round(S × q + ZP) (R145). -/
def qdecA (sS zp code : Nat) : Nat :=
  fvAdd F32 (fvMul (fdec F32 sS) (gridVal .int8a code)) (fdec F32 zp)

/-! ## The conversion rule -/

/-- Non-finite sources replaced (R144). -/
def finSrc (x : Nat) : Nat :=
  match fdec F32 x with
  | .nan => 0
  | .inf n => if n then 0xFF7FFFFF else 0x7F7FFFFF
  | .fin _ _ _ => x

/-- A source is non-finite. -/
def nonFin (x : Nat) : Bool := isNan32 x || isInf32 x

/-- Target of R137. -/
def qtarget : QFmt → Nat
  | .b4 => 64 | .e4m3 => 448 | .e5m2 => 57344 | .int8 => 127 | .int8a => 0

/-- Number of magnitudes of a format; the code of magnitude index i is i, the sign apart. -/
def nMags : QFmt → Nat
  | .b4 => 8 | .e4m3 => 127 | .e5m2 => 124 | .int8 => 128 | .int8a => 0

/-- The code of a sign and magnitude index; a zero magnitude is written as +0 (R133, R141). -/
def codeOf (f : QFmt) (neg : Bool) (i : Nat) : Nat :=
  if i = 0 then 0
  else match f with
    | .b4 => i + 8 * b2n neg
    | .int8 => if neg then 256 - i else i
    | .int8a => if neg then 256 - i else i
    | _ => i + 128 * b2n neg

/-- An exact comparison of two non-negative finite values: m × 2^e ≤ m' × 2^e'. -/
def dyLe (m : Nat) (e : Int) (m' : Nat) (e' : Int) : Bool :=
  let k := min e e'
  m * 2 ^ (e - k).toNat ≤ m' * 2 ^ (e' - k).toNat

/-- Magnitude and exponent of a finite value. -/
def magOf : Fv → Nat × Int
  | .fin _ m e => (m, e)
  | _ => (0, 0)

/-- Exact distance of two non-negative finite values, as magnitude and exponent. -/
def dyDist (m : Nat) (e : Int) (m' : Nat) (e' : Int) : Nat × Int :=
  let k := min e e'
  (((m * 2 ^ (e - k).toNat : Nat) - (m' * 2 ^ (e' - k).toNat : Nat) : Int).natAbs, k)

/-- The magnitude index whose decoded magnitude lies nearest to |x| under the factor t, ties to the
even index (R141), searched upward from index `i` with the best so far. -/
def nearIdx (f : QFmt) (t : Fv) (xm : Nat) (xe : Int) : Nat → Nat → Nat → (Nat × Int) → Nat
  | 0, _, best, _ => best
  | n + 1, i, best, bd =>
    let v := magOf (fdec F32 (fenc F32 (fvMul (gridVal f i) t)))
    let d := dyDist xm xe v.1 v.2
    let less := !(dyLe bd.1 bd.2 d.1 d.2)
    let tie := dyLe d.1 d.2 bd.1 bd.2 && dyLe bd.1 bd.2 d.1 d.2
    if less || (tie && best % 2 = 1 && i % 2 = 0) then nearIdx f t xm xe n (i + 1) i d
    else nearIdx f t xm xe n (i + 1) best bd

/-- An element encoded: code and whether it saturated (R141). -/
def qenc (f : QFmt) (super gc x : Nat) : Nat × Bool :=
  if gc = 0 then (0, false)
  else
    let t := fdec F32 (groupT super gc)
    let xv := magOf (fdec F32 x)
    let top := nMags f - 1
    let tv := magOf (fdec F32 (fenc F32 (fvMul (gridVal f top) t)))
    if !(dyLe xv.1 xv.2 tv.1 tv.2) then (codeOf f (2 ^ 31 ≤ x) top, true)
    else (codeOf f (2 ^ 31 ≤ x) (nearIdx f t xv.1 xv.2 (nMags f - 1) 1 0 xv), false)

/-- Largest absolute value of a list, as FP32 bits. -/
def absMax (xs : List Nat) : Nat := xs.foldl (fun a x => max a (abs32 x)) 0

/-- SUPER of a unit (R140 step 2). -/
def superOf (f : QFmt) (a : Nat) : Nat :=
  if a = 0 then 0
  else fvDiv F32 (fdec F32 a) (fvMul (.fin false (qtarget f) 0) (unitVal 0xFF))

/-- t(c) × target ≥ a, compared exactly. -/
def covers (f : QFmt) (super a c : Nat) : Bool :=
  let t := magOf (fdec F32 (groupT super c))
  let x := magOf (fdec F32 a)
  dyLe x.1 x.2 (t.1 * qtarget f) t.2

/-- c0 of R140 step 4: the least code that covers, searched upward with `n` codes left. -/
def leastCode (f : QFmt) (super a : Nat) : Nat → Nat → Nat
  | 0, _ => 0xFF
  | n + 1, c => if covers f super a c then c else leastCode f super a n (c + 1)

/-- Σ (v − x)² in FP64 in element order (R142). -/
def groupErr (f : QFmt) (super gc : Nat) (xs : List Nat) : Nat :=
  xs.foldl (fun acc x => add64 acc (sqr64 (sub3264 (qdec f super gc (qenc f super gc x).1) x))) 0

/-- The best of the codes c, c + 1, … tried under MSE, with `n` more to try (R142). -/
def mseCode (f : QFmt) (super : Nat) (xs : List Nat) : Nat → Nat → Nat → Nat → Nat
  | 0, _, best, _ => best
  | n + 1, c, best, err =>
    if 0xFF < c then best
    else
      let e := groupErr f super c xs
      if e < err then mseCode f super xs n (c + 1) c e else mseCode f super xs n (c + 1) best err

/-- The scale code of a group (R140, R142). -/
def groupCode (f : QFmt) (absmaxRule : Bool) (super : Nat) (xs : List Nat) : Nat :=
  let a := absMax xs
  if a = 0 then 0
  else
    let c0 := leastCode f super a 255 1
    let same := xs.all (fun x => x == xs.headD 0)
    if absmaxRule || same then c0 else mseCode f super xs 3 (c0 + 1) c0 (groupErr f super c0 xs)

/-- A list cut into pieces of `g`. -/
def chunks {α : Type} (g : Nat) : Nat → List α → List (List α)
  | 0, _ => []
  | n + 1, xs => if xs.isEmpty then [] else xs.take g :: chunks g n (xs.drop g)

/-- Statistics of conversions (R150). -/
structure QStats where
  count : Nat := 0
  sse : Nat := 0
  ss : Nat := 0
  absmax : Nat := 0
  errmax : Nat := 0
  sat : Nat := 0
  nonfin : Nat := 0
  deriving DecidableEq, Repr

/-- One element counted: source after R144, decoded value, saturated, replaced (R150). -/
def qsAdd (s : QStats) (x v : Nat) (sat nf : Bool) : QStats :=
  let d64 := sub3264 v x
  let d32 := abs32 (sub32 v x)
  { count := s.count + 1
    sse := add64 s.sse (sqr64 d64)
    ss := add64 s.ss (sqr64 (fconv F32 F64 x))
    absmax := max s.absmax (abs32 x)
    errmax := max s.errmax d32
    sat := s.sat + b2n sat
    nonfin := s.nonfin + b2n nf }

/-- A converted unit: super-scale, group codes, element codes, statistics. -/
structure Conv where
  super : Nat
  gcodes : List Nat
  codes : List Nat
  stats : QStats
  deriving DecidableEq, Repr

/-- A unit of FP32 sources converted (R140 to R144), `enc` encoding one element from its position, its
super-scale, its group code and its source (R141, or R115). -/
def convertWith (f : QFmt) (absmaxRule : Bool) (g : Nat) (enc : Nat → Nat → Nat → Nat → Nat × Bool)
    (st : QStats) (src : List Nat) : Conv :=
  let xs := src.map finSrc
  let super := superOf f (absMax xs)
  let groups := chunks g xs.length xs
  let gcodes := groups.map (groupCode f absmaxRule super)
  let enc1 := (xs.zipIdx).map (fun (x, i) => enc i super ((gcodes[i / g]?).getD 0) x)
  let st' := ((xs.zip src).zip (enc1.zipIdx)).foldl
    (fun s ((x, x0), (c, i)) =>
      qsAdd s x (qdec f super ((gcodes[i / g]?).getD 0) c.1) c.2 (nonFin x0)) st
  { super := super, gcodes := gcodes, codes := enc1.map (·.1), stats := st' }

/-- The conversion rule with round-to-nearest-even. -/
def convert (f : QFmt) (absmaxRule : Bool) (g : Nat) (st : QStats) (src : List Nat) : Conv :=
  convertWith f absmaxRule g (fun _ super gc x => qenc f super gc x) st src

/-- Affine INT8 conversion of a block (R145): S, ZP, codes, statistics. -/
def convertA (st : QStats) (src : List Nat) : Nat × Nat × List Nat × QStats :=
  let xs := src.map finSrc
  let mn := xs.foldl min32 (xs.headD 0)
  let mx := xs.foldl max32 (xs.headD 0)
  let same := ord32 mn = ord32 mx || (abs32 mn = 0 && abs32 mx = 0)
  let sS := if same then 0x00800000
    else
      let diff : Fv := match fdec F32 mx, fdec F32 mn with
        | .fin na ma ea, .fin nb mb eb =>
          let e := min ea eb
          let i := sint na (ma * 2 ^ (ea - e).toNat) - sint nb (mb * 2 ^ (eb - e).toNat)
          .fin (i < 0) i.natAbs e
        | _, _ => .nan
      max 0x00800000 (fvDiv F32 diff (.fin false 255 0))
  let zp := if same then mx else fvAdd F32 (fdec F32 mn) (fvMul (.fin false 128 0) (fdec F32 sS))
  let one (x : Nat) : Nat × Bool :=
    if same then (0, false)
    else match fdec F32 x, fdec F32 zp, fdec F32 sS with
      | .fin na ma ea, .fin nb mb eb, .fin _ ms es =>
        let e := min ea (min eb es)
        let num := sint na (ma * 2 ^ (ea - e).toNat) - sint nb (mb * 2 ^ (eb - e).toNat)
        let den : Nat := ms * 2 ^ (es - e).toNat
        let q : Nat := num.natAbs / den
        let r : Nat := num.natAbs % den
        let q := if den < 2 * r then q + 1 else if 2 * r = den then q + q % 2 else q
        let i := sint (num < 0) q
        if i < -128 then (128, true) else if 127 < i then (127, true) else (tc 8 i, false)
      | _, _, _ => (0, false)
  let cs := xs.map one
  let st' := ((xs.zip src).zip cs).foldl
    (fun s ((x, x0), c) => qsAdd s x (qdecA sS zp c.1) c.2 (nonFin x0)) st
  (sS, zp, cs.map (·.1), st')

/-- Nibbles packed two to a byte, the even element low (R33). -/
def packNib : List Nat → Bytes
  | [] => []
  | [a] => [BitVec.ofNat 8 (a % 16)]
  | a :: b :: r => BitVec.ofNat 8 (a % 16 + 16 * (b % 16)) :: packNib r

/-- Element codes of a format packed as R33 packs a code area. -/
def packCodes (f : QFmt) (cs : List Nat) : Bytes :=
  match f with
  | .b4 => packNib cs
  | _ => cs.map (BitVec.ofNat 8)

/-- Element code i of a packed code area (R33). -/
def codeAt (f : QFmt) (area : Bytes) (i : Nat) : Nat :=
  match f with
  | .b4 => let b := ((area[i / 2]?).getD 0).toNat; if i % 2 = 0 then b % 16 else b / 16
  | _ => ((area[i]?).getD 0).toNat

/-! ## Row slots (R33, R34, R36) -/

/-- Code area bytes of a class at a dimension (R32). -/
def codeBytes (cls dim : Nat) : Nat := if cls = 0 then dim / 2 else if cls = 1 then dim else 2 * dim

/-- Slot size (R33). -/
def slotSize (cls dim : Nat) : Nat := 32 + (codeBytes cls dim + 31) / 32 * 32

/-- Group size of a GROUP code. -/
def groupSize (g : Nat) : Nat := 32 * 2 ^ g

/-- The format of a row class; BF16 has none. -/
def classFmt (cls : Nat) : Option QFmt := if cls = 0 then some .b4 else if cls = 1 then some .e4m3 else none

/-- A row slot's elements as FP32 (R81). -/
def rowVals (cls group dim : Nat) (slot : Bytes) : List Nat :=
  (List.range dim).map (fun i =>
    match classFmt cls with
    | some f => qdec f (fld slot 16 4) (fld slot (i / groupSize group) 1) (codeAt f (slot.drop 32) i)
    | none => ofBf16 (fld slot (32 + 2 * i) 2))

/-- Whether a row slot's CLASS, TAG and GROUP match (R35). -/
def rowTagOk (cls group row : Nat) (slot : Bytes) : Bool :=
  let h := fld slot 21 1
  bits h 1 0 == cls && (cls == 2 || (fld slot 20 1 == row % 256 && bits h 3 2 == group))

/-- A row slot from its parts (R33, R34); POP and STAMP as given. -/
def rowSlot (cls group dim row wseq pop stamp : Nat) (super : Nat) (gcodes : List Nat) (area : Bytes) :
    Bytes :=
  slice (gcodes.map (BitVec.ofNat 8)) 0 16 ++ toLE 4 super ++ toLE 1 (row % 256) ++
    toLE 1 (cls + 4 * group) ++ toLE 1 pop ++ toLE 1 stamp ++ toLE 4 wseq ++ toLE 4 0 ++
    slice area 0 (slotSize cls dim - 32)

/-- A row slot with its POP and STAMP bytes taken as given. -/
def withPop (slot : Bytes) (pop stamp : Nat) : Bytes :=
  slot.take 22 ++ [BitVec.ofNat 8 pop, BitVec.ofNat 8 stamp] ++ slot.drop 24

/-- A BF16 code area from FP32 values (R144). -/
def bf16Area (vs : List Nat) : Bytes := vs.flatMap (fun v => toLE 2 (toBf16 v))

/-! ## Pooling (R82 to R85) -/

/-- Pooling operators: addition, or maximum. -/
def poolOp (mx : Bool) (a b : Nat) : Nat := if mx then max32 a b else add32 a b

/-- Two vectors, either of which may be empty (R83). -/
def poolV (mx : Bool) : Option (List Nat) → Option (List Nat) → Option (List Nat)
  | none, b => b
  | a, none => a
  | some a, some b => some (List.zipWith (poolOp mx) a b)

/-- Partial k of R83: terms k, k + 8, … from the left. -/
def poolK (mx : Bool) (ts : List (List Nat)) (k : Nat) : Option (List Nat) :=
  (ts.zipIdx.filter (fun (_, i) => i % 8 == k)).foldl (fun a (t, _) => poolV mx a (some t)) none

/-- The pooled sum s of R83. -/
def pool (mx : Bool) (ts : List (List Nat)) : Option (List Nat) :=
  let p := poolK mx ts
  let q0 := poolV mx (p 0) (p 1)
  let q1 := poolV mx (p 2) (p 3)
  let q2 := poolV mx (p 4) (p 5)
  let q3 := poolV mx (p 6) (p 7)
  poolV mx (poolV mx q0 q1) (poolV mx q2 q3)

/-- The pooled value of a bag (R85): `mode` is POOL, m the number of terms. -/
def poolOut (mode dim m : Nat) : Option (List Nat) → List Nat
  | none => List.replicate dim 0
  | some s => if mode = 1 then s.map (fun x => div32 x (ofInt32 m)) else s

/-- A slice in its format (R85): OUTF 0 is BF16, 1 is FP32. -/
def sliceBytes (outf : Nat) (vs : List Nat) : Bytes :=
  vs.flatMap (fun v => if outf = 0 then toLE 2 (toBf16 v) else toLE 4 v)

end Sys2Proof.Machine
end

