-- ==== Sys2Proof/Machine/IgOps.lean ====
section
/-! DEFINITION. Operations of the integrity unit that every family uses: opening and repeating fault
records, closing them, marks of requests (R408, R413 to R417). -/

namespace Sys2Proof.Machine

/-- Block numbers of R415. -/
def blkPC : Nat := 0
def blkFE : Nat := 1
def blkNP : Nat := 2
def blkDL : Nat := 3
def blkXL : Nat := 4
def blkIG : Nat := 5
def blkSQ : Nat := 6
def blkMA : Nat := 7
def blkVE : Nat := 8
def blkFM : Nat := 9
def blkGX : Nat := 10
def blkRU : Nat := 11

/-- What an event writes into a record it opens (R414). -/
structure Ev where
  cls : Nat
  block : Nat
  inst : Nat := 0
  location : Nat := 0
  detail : Nat := 0
  req : Option Half := none
  priv : Bool := false
  contained : Bool := false
  escalated : Bool := false
  gen : Nat := 0
  /-- Status given to the first affected request. -/
  status : Status := 0
  deriving DecidableEq, Repr

/-- UNIT of R415. -/
def unitByte (block inst : Nat) : Nat := block * 16 + inst

/-- The generation that a record of a block carries. -/
def genOf (s : State) (block inst : Nat) : Nat :=
  if block = blkSQ ∨ block = blkMA ∨ block = blkVE then (unit s inst).gen.toNat
  else if block = blkFM ∨ block = blkGX ∨ block = blkRU then (unit s (2 + inst)).gen.toNat
  else 0

/-- The slot of the OPEN record of a unit and class, if there is one (R416). -/
def openSlot (s : State) (cls unit : Nat) : Option Nat :=
  (s.ig.flog.find? (fun (_, r) => r.open_ && r.cls.toNat == cls && r.unit.toNat == unit)).map (·.1)

/-- A record of the fault log by slot. -/
def flogAt (s : State) (i : Nat) : Frec := mget {} s.ig.flog i
/-- A record of the fault log set. -/
def setFlog (s : State) (i : Nat) (r : Frec) : State :=
  { s with ig := { s.ig with flog := mset {} s.ig.flog i r } }

/-- The queue and entry a request came from; none gives QID bit 15 (R414). -/
def evWho (s : State) (h : Option Half) : Nat × Word :=
  match h.bind (req s) with
  | some r => (r.q.toNat, r.n)
  | none => (0x8000, 0)

/-- An event of the fault log: repeats the OPEN record of its unit and class, or opens a new one while
the driver has left room, or is counted as lost (R416, R417). -/
def logEv (s : State) (e : Ev) : State :=
  let u := unitByte e.block e.inst
  match openSlot s e.cls u with
  | some i =>
    let r := flogAt s i
    setFlog s i { r with count := if r.count = 0xFFFFFFFF then r.count else r.count + 1
                         last := s.np.ns
                         contained := r.contained || e.contained
                         escalated := r.escalated || e.escalated }
  | none =>
    let p := rv s aIgFlogProd
    if ((p : Int) - rv s aIgFlogCons) % 2 ^ 32 < 256 then
      let w := evWho s e.req
      let s := setFlog s (p % 256)
        { recno := BitVec.ofNat 32 p, cls := BitVec.ofNat 8 e.cls, unit := BitVec.ofNat 8 u
          open_ := true, contained := e.contained, escalated := e.escalated, priv := e.priv
          gen := BitVec.ofNat 8 e.gen, count := 1, status := e.status
          qid := BitVec.ofNat 16 w.1, entry := w.2, first := s.np.ns, last := s.np.ns
          location := BitVec.ofNat 64 e.location, detail := BitVec.ofNat 64 e.detail }
      rset s aIgFlogProd 0 (p + 1)
    else cnt (rsetF s aIgStat 0 2 2 1) aIgFlogLost

/-- RECNO of the OPEN record of a unit and class; 0xFFFF_FFFF where there is none (R415). -/
def openRecno (s : State) (cls block inst : Nat) : Nat :=
  match openSlot s cls (unitByte block inst) with
  | some i => (flogAt s i).recno.toNat
  | none => 0xFFFFFFFF

/-- Records of the named blocks and instance closed by a reset of their scope (R416). -/
def closeRecs (s : State) (units : List Nat) : State :=
  { s with ig := { s.ig with flog := mmap {} (fun r =>
      if units.contains r.unit.toNat then { r with open_ := false } else r) s.ig.flog } }

/-- A fault record as its 64 bytes (R414). -/
def frecBytes (r : Frec) : Bytes :=
  toLE 4 r.recno.toNat ++ [r.cls, r.unit] ++
    toLE 1 (b2n r.open_ + 2 * b2n r.contained + 4 * b2n r.escalated + 8 * b2n r.priv) ++ [r.gen] ++
    toLE 4 r.count.toNat ++ toLE 2 r.status.toNat ++ toLE 2 r.qid.toNat ++ toLE 4 r.entry.toNat ++
    toLE 4 0 ++ toLE 8 r.first.toNat ++ toLE 8 r.last.toNat ++ toLE 8 r.location.toNat ++
    toLE 8 r.detail.toNat ++ toLE 8 0

/-- A world violation by a configuration access (R415): recorded for the block that owns the register,
and counted. -/
def worldViolation (s : State) (block inst addr : Nat) (who : Requester) : State :=
  let d := match who with | .ownerQp i => i.toNat | _ => 4096
  cnt (logEv s { cls := 6, block := block, inst := inst, location := addr, detail := d, gen := genOf s block inst })
    aIgCntWorld

/-- POISONED set on a request (R408). -/
def markPoison (s : State) (h : Half) : State := updReq s h (fun r => { r with poisoned := true })
/-- SUSPECT set on a request (R408). -/
def markSuspect (s : State) (h : Half) : State := updReq s h (fun r => { r with suspect := true })

/-- A whole fold is being reset: its memory takes no new request (R424). -/
def fmHeld (s : State) (f : Nat) : Bool :=
  let u := unit s (2 + f)
  (u.st == .quiescing || u.st == .resetting) && u.scope == .whole

/-! ## Wanting a unit reset (R423, R424) -/

/-- The narrowest scope that covers two requests (R424). -/
def mergeScope (a b : Scope) : Scope := if a = b then a else .whole

/-- A scope covers another. -/
def coversScope (a b : Scope) : Bool := a == b || a == .whole

/-- A unit reset of a fold meets a re-plan under way, which skips the fold's channels (R495). -/
def meetReplan (s : State) (u : Nat) : State :=
  if s.pc.replanning && decide (2 ≤ u) && !s.pc.skipFolds.contains (u - 2) then
    { s with pc := { s.pc with skipFolds := s.pc.skipFolds ++ [u - 2] } }
  else s

/-- A unit reset wanted (R423, R424): it starts by marking the unit QUIESCING, merges with a reset before
step 4, is served by a reset that covers it, or waits: for the reset in progress, or for 1 ms from the
start of the previous one. In an orderly reset it is ignored (R457). -/
def wantReset (s : State) (u : Nat) (sc : Scope) (cause : Word) : State :=
  if closed s then s
  else
    let t := updUnit s u (fun x =>
    let later := { x with again := some (match x.again with | some a => mergeScope a sc | none => sc)
                          cause := cause }
    match x.st with
    | .quiescing => { x with scope := mergeScope x.scope sc }
    | .resetting => if coversScope x.scope sc then x else later
    | _ =>
      let start := { x with st := .quiescing, again := none, cause := cause
                            scope := match x.again with | some a => mergeScope a sc | none => sc }
      match x.last with
      | some t => if s.np.ns.toNat < t.toNat + 1000000 then later else start
      | none => start)
    if (unit t u).st == .quiescing then meetReplan t u else t

/-! ## Counts within a second (R401, R412) -/

/-- The counts of the second that device time stands in: those of an earlier second are over. -/
def thisSecond (s : State) : State :=
  let sec := BitVec.ofNat 64 (now s / 1000000000)
  if s.ig.second = sec then s else { s with ig := { s.ig with second := sec, ce := [], residue := [] } }

/-! ## Residue mismatches (R205, R409, R412) -/

/-- A residue or adder mismatch of an array reported to the IG: it is counted and logged, the request is
marked SUSPECT and reported, under ADOPT its launch ends at the next preemption point, and an array that
reports more launches within a second than LIMIT gives its core a unit reset, which the record caused. In an orderly
reset the report is ignored (R421, R457). -/
def residueReport (s : State) (c k : Nat) (h : Half) (set bundle : Nat) : State :=
  if closed s then s
  else
  let s := cnt s (coreReg c aMaCntResidue)
  let s := logEv s { cls := 3, block := blkMA, inst := c, location := c + 2 * set
                     detail := bundle + 2 ^ 32 * h.toNat, req := some h, gen := genOf s blkMA c }
  let m := rf s aIgReplayCtl 0 1 0
  let s := updReq s h (fun r =>
    let off := r.key.isSome || r.usedDcoll
    { r with suspect := true, reported := true
             rmode := if r.reported || r.replay ≠ 0 then r.rmode else if off then 0 else if m = 3 then 1 else m })
  let s := match req s h with
    | some r => if r.rmode = 1 ∧ r.replay = 0 then
        updCore s c (fun x => cupdSlot x k (fun v => { v with mustEnd := true })) else s
    | none => s
  let s := thisSecond s
  let l := mget [] s.ig.residue c
  let l := if l.contains h then l else h :: l
  let s := { s with ig := { s.ig with residue := mset [] s.ig.residue c l } }
  if max 1 (rf s aIgReplayCtl 0 15 8) < l.length then wantReset s c .whole (BitVec.ofNat 32 (openRecno s 3 blkMA c)) else s

end Sys2Proof.Machine
end

