-- ==== Sys2Proof/Machine/Flags.lean ====
section
/-! DEFINITION. Statuses (R16) and the flags of a launch: its recorded exceptions, and the conditions of
counters, branches and waits (R167, R176, R177, R184). -/

namespace Sys2Proof.Machine

/-! ## Statuses (R16) -/

/-- ST_REGION_DENIED. -/
def stRegionDenied : Status := 0x3002
/-- ST_BAD_FIELD. -/
def stBadField : Status := 0x1002
/-- ST_BAD_LENGTH. -/
def stBadLength : Status := 0x1003
/-- ST_BAD_STATE. -/
def stBadState : Status := 0x1004
/-- ST_BAD_OPCODE. -/
def stBadOpcode : Status := 0x1001
/-- ST_NO_RESOURCE. -/
def stNoResource : Status := 0x2001
/-- ST_RING_STALE. -/
def stRingStale : Status := 0x2002
/-- ST_XLAT_FAULT. -/
def stXlatFault : Status := 0x3001
/-- ST_POISON_CONSUMED. -/
def stPoison : Status := 0x4001
/-- ST_SCALE_MISALIGNED. -/
def stMisaligned : Status := 0x4002
/-- ST_REPLAY_MISMATCH. -/
def stReplayMismatch : Status := 0x4003
/-- ST_TIMEOUT. -/
def stTimeout : Status := 0x5001
/-- ST_ABORTED. -/
def stAborted : Status := 0x5002
/-- ST_UNIT_RESET. -/
def stUnitReset : Status := 0x5003
/-- ST_WORLD_VIOLATION. -/
def stWorld : Status := 0x6001
/-- ST_LEASE_LOST. -/
def stLeaseLost : Status := 0x6002
/-- ST_PEER_UNREACHABLE. -/
def stPeer : Status := 0x7001
/-- ST_PAIR_DIVERGED. -/
def stDiverged : Status := 0x7002
/-- ST_EPOCH_RETIRED. -/
def stRetired : Status := 0x8001
/-- ST_TABLE_BUSY. -/
def stTableBusy : Status := 0x8002


/-! ## Exceptions (R184) -/

/-- An exception of a slot recorded: the first in issue order stands in SQ_SLOT_EXC; `ends` for those
that end the launch at its next preemption point, the first of which R408 reports. -/
def recExc (x : Core) (k : Nat) (st : Status) (at_ : Nat) (ends : Bool) : Core :=
  cupdSlot x k (fun v =>
    let first := v.exc = 0 ∨ at_ < v.excAt
    let firstE := ends ∧ (v.endExc = 0 ∨ at_ < v.endExcAt)
    { v with exc := if first then st else v.exc
             excAt := if first then at_ else v.excAt
             endExc := if firstE then st else v.endExc
             endExcAt := if firstE then at_ else v.endExcAt
             mustEnd := v.mustEnd || ends })

/-- A bundle that fails R166 is reported to the IG as CORE_ILLEGAL: bundle address and launch slot
(R184, R415). -/
def illegalBundle (s : State) (c k pc : Nat) : State :=
  logEv s { cls := 8, block := blkSQ, inst := c, location := pc, detail := k
            req := some (cslot (core s c) k).req, gen := genOf s blkSQ c }

/-! ## Conditions -/

/-- Whether XA COND XB holds; the reserved conditions 6 and 7 never do (R167). -/
def condHolds (cond : BitVec 3) (a b : Word) : Bool :=
  match cond.toNat with
  | 0 => a == b
  | 1 => a != b
  | 2 => a.slt b
  | 3 => !(a.slt b)
  | 4 => a.ult b
  | 5 => !(a.ult b)
  | _ => false

/-- XA FN XB of ALU; none for a reserved function (R167). -/
def aluFn (fn : BitVec 4) (a b : Word) : Option Word :=
  match fn.toNat with
  | 0 => some (a + b)
  | 1 => some (a - b)
  | 2 => some (a &&& b)
  | 3 => some (a ||| b)
  | 4 => some (a ^^^ b)
  | 5 => some (a <<< (b.toNat % 32))
  | 6 => some (a >>> (b.toNat % 32))
  | 7 => some (a.sshiftRight (b.toNat % 32))
  | 8 => some (a * b)
  | 9 => some (if a.slt b then a else b)
  | 10 => some (if a.slt b then b else a)
  | _ => none

/-- A counter satisfies a target when it is at most 32,767 beyond it, modulo 65,536 (R177). -/
def ctrReached (v t : Half) : Bool := (v - t).toNat < 32768

/-- A counter of a slot (R176). -/
def ctrOf (v : Slot) (n : Nat) : Half := mget 0 v.ctr n

/-- A WAIT held by a slot is satisfied. -/
def waitOk (v : Slot) : Bool := ctrReached (ctrOf v v.waitCtr.toNat) v.waitTgt

end Sys2Proof.Machine
end

