-- ==== Sys2Proof/Machine/Pasture.lean ====
section
/-! DEFINITION. The pasture as its users see it: the interleave over channels, the check word, reads that
correct or poison, whole and partial writes, fills, poison, and the reports they make (R339 to R347, R400
to R403, R437, R510). -/

namespace Sys2Proof.Machine

/-! ## Where a fold address lies (R338 to R341) -/

/-- DIE_GB of the part record (R437). -/
def dieGb (s : State) : Nat := fld s.pc.record 28 1

/-- Usable pasture of a fold in bytes (R338); 0 before a part record is read. -/
def usable (s : State) : Nat :=
  if dieGb s = 32 then 60 * 2 ^ 30 else if dieGb s = 24 then 45 * 2 ^ 30 else 0

/-- m >> 28 of R340 for channel granule `x`. -/
def chanMix (x : Nat) : Nat := x * 0x9E3779B1 % 2 ^ 32 / 2 ^ 28

/-- Channel of a fold address (R340). -/
def chanOf (a : Nat) : Nat := Nat.xor (a / 256 % 16) (chanMix (a / 4096))

/-- Channel sector index of a fold address (R341). -/
def secOf (a : Nat) : Nat := 8 * (a / 4096) + a / 32 % 8

/-- The fold address of a channel's sector (R340 inverted). -/
def addrOf (c i : Nat) : Nat :=
  let x := i / 8
  (x * 16 + Nat.xor (c % 16) (chanMix x)) * 256 + i % 8 * 32

/-- Row index of a channel sector (R341). -/
def rowIdx (i : Nat) : Nat := i / 60
/-- Bank of a channel sector (R341). -/
def bankOf (i : Nat) : Nat := Nat.xor (i / 60 % 16) (i / 60 / 16 % 16)
/-- DRAM row of a channel sector (R341). -/
def dramRow (i : Nat) : Nat := i / 60 / 16
/-- Check sector of a channel sector (R341). -/
def chkSec (i : Nat) : Nat := 60 + i % 60 / 16

/-! ## The check word (R342, R343) -/

/-- One message bit into the CRC register of x^16 + x^12 + x^5 + 1. -/
def crcBit (r : Nat) (b : Bool) : Nat :=
  let t := Nat.xor (r / 2 ^ 15) (b2n b)
  let r := r * 2 % 2 ^ 16
  if t % 2 = 1 then Nat.xor r 0x1021 else r

/-- Byte and bit of message bit 16 q + t of the data (R342). -/
def pinBit (q t : Nat) : Nat × Nat := (2 * t + q / 8, q % 8)

/-- The message of R342: i as 32 bits, then the data in pin order. -/
def crcMsg (i : Nat) (d : Bytes) : List Bool :=
  (List.range 32).map (fun k => bit i (31 - k)) ++
  (List.range 256).map (fun n =>
    let p := pinBit (n / 16) (n % 16)
    bit ((d[p.1]?).getD 0).toNat p.2)

/-- The check word of sector `i` with data `d` (R342). -/
def crc16 (i : Nat) (d : Bytes) : Nat := (crcMsg i d).foldl crcBit 0

/-- x^n reduced: the syndrome of the message bit `n − 16` places before the last. -/
def synPow : Nat → Nat
  | 0 => 1
  | n + 1 => crcBit (synPow n) false

/-- What a syndrome says (R343). -/
inductive Syn where
  | good
  /-- A data bit, by its place 0 to 255 in pin order. -/
  | data (n : Nat)
  | check
  | bad
  deriving DecidableEq, Repr

/-- Data bits whose syndrome is `d`, tried from place `n − 1` down. -/
def synFind (d : Nat) : Nat → Nat → Option Nat
  | 0, _ => none
  | n + 1, p => if p = d then some n else synFind d n (crcBit p false)

/-- The outcome of a syndrome (R343). -/
def synOf (d : Nat) : Syn :=
  if d = 0 then .good
  else if (List.range 16).any (fun k => d == 2 ^ k) then .check
  else match synFind d 256 (synPow 16) with
    | some n => .data n
    | none => .bad

/-- A data bit of a sector inverted. -/
def flipBit (d : Bytes) (n : Nat) : Bytes :=
  let p := pinBit (n / 16) (n % 16)
  d.zipIdx.map (fun (b, i) => if i = p.1 then b ^^^ BitVec.ofNat 8 (2 ^ p.2) else b)

/-- A sector after an address bit of `i` would have been read wrong is uncorrectable: its syndrome is no
data bit's. Data as returned, and whether it is poisoned (R343, R344). -/
def secDecode (dev : Nat) (d : Bytes) : Bytes × Bool :=
  match synOf dev with
  | .good => (d, false)
  | .check => (d, false)
  | .data n => (flipBit d n, false)
  | .bad => (d, true)

/-- The deviation of a sector's check word. -/
def devAt (x : Fold) (a : Nat) : Nat := (mget 0 x.check (a / 32)).toNat

/-- A sector as a read returns it. -/
def secRead (x : Fold) (a : Nat) : Bytes × Bool :=
  secDecode (devAt x a) (rdN x.pasture (a / 32 * 32) 32)

/-- First addresses of the sectors that `n` bytes from `a` touch. -/
def sectors (a n : Nat) : List Nat :=
  if n = 0 then [] else (List.range ((a + n - 1) / 32 - a / 32 + 1)).map (fun k => (a / 32 + k) * 32)

/-- Bytes as read, and whether any sector is poisoned. -/
def pasRead (x : Fold) (a n : Nat) : Bytes × Bool :=
  let l := (sectors a n).map (secRead x)
  (slice (l.flatMap (·.1)) (a % 32) n, l.any (·.2))

/-- Marks of bytes as read: those of each poisoned sector (R402, R403). -/
def secMarks (x : Fold) (a n : Nat) : List Mark :=
  ((sectors a n).filter (fun k => (secRead x k).2)).map (fun k =>
    let lo := max a k
    { off := lo - a, len := min (a + n) (k + 32) - lo, poison := true, hard := true })

/-! ## Reports (R344, R400, R401, R415) -/

/-- A corrected error counted for its structure and unit; beyond CE_THRESH within a second a CE_RATE
record opens (R401). -/
def ceCount (s : State) (code block inst : Nat) : State :=
  let s := thisSecond s
  let k := code * 256 + unitByte block inst
  let n := mget 0 s.ig.ce k + 1
  let s := { s with ig := { s.ig with ce := mset 0 s.ig.ce k n } }
  let th := rf s aIgFlogCtl 0 23 16
  if th ≠ 0 ∧ n = th + 1 then
    logEv s { cls := 12, block := block, inst := inst, location := code, detail := n, gen := genOf s block inst }
  else s

/-- What an uncorrectable read knows of the row it reads (R415). -/
structure RowRef where
  tid : Nat
  row : Nat
  deriving DecidableEq, Repr

/-- DETAIL of MEM_UE. -/
def ueDetail (syn : Nat) (r : Option RowRef) : Nat :=
  match r with
  | some r => syn + 2 ^ 28 + 2 ^ 16 * r.tid + 2 ^ 32 * r.row
  | none => syn

/-- An uncorrectable pasture sector reported: MEM_UE, or POISON_REREAD for a poisoned one (R344, R402,
R415). -/
def reportUe (s : State) (f a : Nat) (row : Option RowRef) (h : Option Half) : State :=
  let d := devAt (fold s f) a
  logEv s { cls := if d = 0xFFFF then 2 else 1, block := blkFM, inst := f
            location := 2 ^ 56 + 2 ^ 48 * chanOf a + secOf a, detail := ueDetail d row, req := h
            status := if h.isSome then stPoison else 0, gen := (unit s (2 + f)).gen.toNat }

/-! ## Runs, rows and partitions (R347, R348, R351 to R353) -/

/-- DEPTH of a partition; 0 acts as 1. -/
def partDepth (s : State) (f p : Nat) : Nat := max 1 (rf s (foldReg f aFmPartRate) p 25 16)
/-- RATE of a partition; larger values act as 640. -/
def partRate (s : State) (f p : Nat) : Nat := min 640 (rf s (foldReg f aFmPartRate) p 9 0)
/-- Token count of a partition in 1/64 burst. -/
def tokens (s : State) (f p : Nat) : Int := mget 0 (fold s f).tokens p
/-- BORROW of FM_CTL (R353). -/
def borrows (s : State) (f : Nat) : Bool := rb s (foldReg f aFmCtl) 0 0
/-- A run of a partition is eligible; one of a partition with RATE 0 only borrows (R352, R353). -/
def eligible (s : State) (f p : Nat) : Bool := decide (0 < tokens s f p) && decide (partRate s f p ≠ 0)
/-- A run of a partition may issue on a fold that is not being reset as a whole: it is eligible, or may borrow (R353,
R424). -/
def mayFm (s : State) (f p : Nat) : Bool := (eligible s f p || borrows s f) && !fmHeld s f
/-- Bursts of a run: data bursts and distinct check bursts (R348). -/
def runBursts (secs : List Nat) : Nat := secs.length + ((secs.map chkSec).eraseDups).length

/-- CLK_FAB cycles until a partition whose count is `t` has T > 0 (R352). -/
def cyclesTo (t : Int) (rate : Nat) : Nat := if 0 < t then 0 else (-t).toNat / rate + 1

/-- A partition's tokens after `k` CLK_FAB cycles, and the cycles among them in which a head of it was held with
T ≤ 0 counted; `waits` says that the access at hand is one (R352, R363). -/
def tokensOn (s : State) (f p k : Nat) (waits : Bool) : State :=
  let r := partRate s f p
  let held := if waits || (fold s f).runs.any (fun q => q.part == p) then
    (if r = 0 then (if tokens s f p ≤ 0 then k else 0) else min k (cyclesTo (tokens s f p) r)) else 0
  let t := min (tokens s f p + r * k) (64 * partDepth s f p : Int)
  cntN (updFold s f (fun x => { x with tokens := mset 0 x.tokens p t })) (foldReg f aFmPartCntWait) p held

/-- Without BORROW a run of an access waits until its partition is eligible: the regulators of the fold run on by
the cycles that this takes, which the next CLK_FAB cycles then do not refill again. With RATE 0 it never becomes
eligible, and the command tests that before it starts (R352, R353, log entry 132). -/
def waitFm (s : State) (f p : Nat) : State :=
  if eligible s f p || borrows s f || partRate s f p == 0 then s
  else
    let k := cyclesTo (tokens s f p) (partRate s f p)
    let s := (List.range 16).foldl (fun s q => tokensOn s f q k (q == p)) s
    updFold s f (fun x => { x with ahead := x.ahead + k })

/-- Tokens charged to a partition for `k` bursts, never below −64 × DEPTH (R352). -/
def charge (s : State) (f p k : Nat) : State :=
  let t := max (-(64 * partDepth s f p : Int)) (tokens s f p - 64 * k)
  cntN (updFold s f (fun x => { x with tokens := mset 0 x.tokens p t })) (foldReg f aFmPartCntBurst) p k

/-- A channel changed. -/
def updChan (s : State) (f ch : Nat) (g : Chan → Chan) : State :=
  updFold s f (fun x => { x with chans := mupd {} x.chans ch g })

/-- A row opened for a run: one activation if it is not open already (R348). -/
def openRow (s : State) (f ch i : Nat) : State :=
  let c := mget {} (fold s f).chans ch
  if mget 0 c.openRow (bankOf i) = dramRow i + 1 then s
  else cnt (updChan s f ch (fun c => { c with openRow := mset 0 c.openRow (bankOf i) (dramRow i + 1) })) (foldReg f aFmChAct) ch

/-- A run of a partition starts on its channel: it waits until it may issue, a borrowing is counted, and its row is
opened (R348, R353). -/
def startRun (s : State) (f p ch i : Nat) : State :=
  let s := waitFm s f p
  openRow (if eligible s f p || !borrows s f then s else cnt s (foldReg f aFmPartCntBorrow) p) f ch i

/-- The bursts of a run charged to its partition and counted on its channel: sectors read and sectors written
(R351, R363). -/
def spend (s : State) (f p ch : Nat) (rd wr : List Nat) : State :=
  let k := runBursts rd
  let w := runBursts wr
  cntN (cntN (charge s f p (k + 2 * w)) (foldReg f aFmChRdBurst) ch k) (foldReg f aFmChWrBurst) ch w

/-- The runs of an access: its sectors granule by granule, those of a granule in one row together (R348). -/
def runsOf (as : List Nat) : List (List Nat) :=
  let key (a : Nat) : Nat × Nat := (a / 256, rowIdx (secOf a))
  ((as.map key).eraseDups).map (fun k => as.filter (fun a => key a == k))

/-- The runs of an access made: started, charged and counted. -/
def makeRuns (s : State) (f p : Nat) (as : List Nat) (isRd isWr : Nat → Bool) : State :=
  (runsOf as).foldl (fun s l =>
    let ch := chanOf (l.headD 0)
    spend (startRun s f p ch (secOf (l.headD 0))) f p ch ((l.filter isRd).map secOf) ((l.filter isWr).map secOf)) s

/-! ## Sectors -/

/-- A sector's data and check word as stored, marked POISON or not; an armed injection inverts bits of byte 0
and is used up (R402, R510). -/
def putSector (s : State) (f a : Nat) (d : Bytes) (mark : Bool) : State :=
  let i := foldReg f aFmEccInj
  let hit := rb s i 0 0 && rf s i 0 7 4 == chanOf a
  let m : Byte := if !hit then 0 else if rb s i 0 1 then 3 else 1
  let d' := match d with | b :: r => (b ^^^ m) :: r | [] => []
  let dev := if hit then Nat.xor (crc16 (secOf a) d') (crc16 (secOf a) d) else 0
  let dev := if mark then Nat.xor dev 0xFFFF else dev
  let s := updFold s f (fun x => { x with pasture := wrN x.pasture a d'
                                          check := mset 0 x.check (a / 32) (BitVec.ofNat 16 dev) })
  if hit then rsetF s i 0 0 0 0 else s

/-- A corrected sector written back, a narrow write in partition 15 (R343, R355). -/
def writeBack (s : State) (f a : Nat) : State :=
  let ch := chanOf a
  let s := putSector s f (a / 32 * 32) (secRead (fold s f) a).1 false
  spend (startRun s f 15 ch (secOf a)) f 15 ch [] [secOf a]

/-- The read of one sector with its consequences: a correction is counted and written back, but where the read
is half of a read-modify-write, which makes no other access to the sector; an uncorrectable read is counted,
recorded and reported (R343 to R345). -/
def noteSec (s : State) (f : Nat) (row : Option RowRef) (h : Option Half) (back : Bool) (a : Nat) : State :=
  let ch := chanOf a
  match synOf (devAt (fold s f) a) with
  | .good => s
  | .bad =>
    let s := cnt s (foldReg f aFmChUe) ch
    let s := updChan s f ch (fun c => { c with ueAddr := BitVec.ofNat 27 (secOf a) })
    reportUe s f a row h
  | _ =>
    let s := ceCount (cnt s (foldReg f aFmChCe) ch) 1 blkFM f
    if back then writeBack s f a else s

/-! ## Queued runs (R345, R349, R351) -/

/-- Which sectors of a write run are written in part. -/
def partSecs (r : Run) : List Nat :=
  ((r.secs.zip r.data).filter (fun (_, _, m) => !m.all (fun b => b))).map (·.1)

/-- The sectors of a write run stored, merged where only part of a sector is written; one whose read is
uncorrectable is not written, and costs no write (R345). -/
def storeRun (s : State) (f : Nat) (r : Run) : State :=
  let x := fold s f
  let ok (i : Nat) : Bool := !((partSecs r).contains i && (secRead x (addrOf r.ch i)).2)
  let s := spend s f r.part r.ch [] (r.secs.filter ok)
  (r.secs.zip r.data).foldl (fun s (i, d, m) =>
    let a := addrOf r.ch i
    if m.all (fun b => b) then putSector s f a d false
    else
      let old := secRead (fold s f) a
      let s := noteSec s f none none false a
      if old.2 then s
      else putSector s f a ((old.1.zip (d.zip m)).map (fun (o, n, b) => if b then n else o)) false) s

/-- A run issued on its channel: charged, its row opened; a whole write takes effect, a read and the read half
of a read-modify-write wait for their data (R345, R348, R351). -/
def issueRun (s : State) (f : Nat) (r : Run) : State :=
  let s := updFold s f (fun x => { x with runs := x.runs.filter (fun q => q.order ≠ r.order) })
  let s := startRun s f r.part r.ch (r.secs.headD 0)
  if r.write && !r.rmw then storeRun s f r
  else
    let s := spend s f r.part r.ch (if r.write then partSecs r else r.secs) []
    updChan s f r.ch (fun c => { c with issued := c.issued ++ [r] })

/-- The data of a run issued on a channel returns: it is corrected and written back, or returned poisoned and
reported; the write half of a read-modify-write follows (R343 to R345). -/
def returnRun (s : State) (f : Nat) (r : Run) : State :=
  let s := updChan s f r.ch (fun c => { c with issued := c.issued.filter (fun q => q.order ≠ r.order) })
  if r.write then storeRun s f r
  else
    let as := r.secs.map (addrOf r.ch)
    let d := as.map (secRead (fold s f))
    let s := as.foldl (fun s a => noteSec s f none none true a) s
    emit s (.fmData f r.order (d.flatMap (·.1)) (d.any (·.2)))

/-- Runs that have not taken effect yet, in arrival order. -/
def pendingRuns (x : Fold) : List Run :=
  sortBy (fun a b => decide (a.order ≤ b.order)) (x.runs ++ x.chans.flatMap (fun (_, c) => c.issued))

/-- A pending run served to its end. -/
def serveRun (s : State) (f : Nat) (r : Run) : State :=
  let queued := (fold s f).runs.any (fun q => q.order == r.order)
  let s := if queued then issueRun s f r else s
  if queued && r.write && !r.rmw then s else returnRun s f r

/-- The runs of which `clash` holds served, with every run that arrived before them. -/
def serveTo (s : State) (f : Nat) (clash : Run → Bool) : State :=
  let x := fold s f
  let last := ((pendingRuns x).filter clash).foldl (fun n r => max n (r.order + 1)) 0
  ((pendingRuns x).filter (fun r => r.order < last)).foldl (fun s r => serveRun s f r) s

/-- What arrived before an access of a partition and must take effect before it is served: runs on its sectors,
and queued runs of its partition on its channels, with every run that arrived before those (R349, R350). -/
def serveBefore (s : State) (f p : Nat) (as : List Nat) : State :=
  let x := fold s f
  serveTo s f (fun r => as.any (fun a => r.ch == chanOf a && (r.secs.contains (secOf a) || (r.part == p && x.runs.contains r))))

/-! ## Accesses of the fold's own users -/

/-- `n` bytes of a fold's pasture read in a partition, with the consequences of R343 and R344. -/
def fmRead (s : State) (p f a n : Nat) (row : Option RowRef := none) (h : Option Half := none) :
    State × Bytes × Bool :=
  let as := sectors a n
  let s := serveBefore s f p as
  let r := pasRead (fold s f) a n
  let s := makeRuns s f p as (fun _ => true) (fun _ => false)
  (as.foldl (fun s k => noteSec s f row h true k) s, r.1, r.2)

/-- Bytes of a write that fall in the sector at `k`, merged into its data. -/
def mergeSec (old : Bytes) (k a : Nat) (bs : Bytes) : Bytes :=
  old.zipIdx.map (fun (b, i) =>
    if a ≤ k + i ∧ k + i < a + bs.length then (bs[k + i - a]?).getD 0 else b)

/-- One sector of a write: whole, or a read-modify-write that is not made when its read is uncorrectable
(R345). -/
def writeSec (s : State) (f a : Nat) (bs : Bytes) (mark : Bool) (k : Nat) : State :=
  if a ≤ k ∧ k + 32 ≤ a + bs.length then putSector s f k (slice bs (k - a) 32) mark
  else
    let r := secRead (fold s f) k
    let s := noteSec s f none none false k
    if r.2 then s else putSector s f k (mergeSec r.1 k a bs) mark

/-- Bytes written into a fold's pasture in a partition, `mark` saying which sectors they mark (R345, R402, R403). -/
def fmPutBy (s : State) (p f a : Nat) (bs : Bytes) (mark : Nat → Bool) : State :=
  let as := sectors a bs.length
  let s := serveBefore s f p as
  let x := fold s f
  let whole (k : Nat) : Bool := decide (a ≤ k) && decide (k + 32 ≤ a + bs.length)
  let s := makeRuns s f p as (fun k => !whole k) (fun k => whole k || !(secRead x k).2)
  as.foldl (fun s k => writeSec s f a bs (mark k) k) s

/-- Bytes written that mark every sector that they reach, or none (R402, R403). -/
def fmPut (s : State) (p f a : Nat) (bs : Bytes) (mark : Bool) : State := fmPutBy s p f a bs (fun _ => mark)

/-- Marked data written: each sector that a marked range reaches is poisoned (R402, R403). -/
def fmPutMarked (s : State) (p f a : Nat) (m : Marked) : State :=
  fmPutBy s p f a m.data (fun k => m.marks.any (fun r => decide (a + r.off < k + 32) && decide (k < a + r.off + r.len)))

/-- Bytes of fresh data written. -/
def fmWrite (s : State) (p f a : Nat) (bs : Bytes) : State := fmPut s p f a bs false

/-! ## Fills (R347, R510) -/

/-- An armed injection takes the sector of its channel with the lowest index in a range that a fill writes
(R510). -/
def fillInject (s : State) (f lo hi : Nat) : State :=
  let i := foldReg f aFmEccInj
  if rb s i 0 0 && lo < hi then
    match (List.range (2 * 4096 / 32)).find? (fun k => chanOf (lo + 32 * k) == rf s i 0 7 4 && lo + 32 * k < hi) with
    | some k => putSector s f (lo + 32 * k) (List.replicate 32 0) false
    | none => s
  else s

/-- One run of a fill: the sectors `a` to `b` − 1 of one row of a channel, each data burst and each check burst costed
once in partition 15 (R347, R351). -/
def fillRun (s : State) (f ch a b : Nat) : State :=
  let n := b - a + ((b - 1) % 60 / 16 - a % 60 / 16 + 1)
  let s := startRun s f 15 ch a
  let t := max (-(64 * partDepth s f 15 : Int)) (tokens s f 15 - 64 * n)
  let s := cntN (updFold s f (fun x => { x with tokens := mset 0 x.tokens 15 t })) (foldReg f aFmPartCntBurst) 15 n
  cntN s (foldReg f aFmChWrBurst) ch n

/-- The runs of a fill on one row of every channel, within the sectors `lo` to `hi` − 1. -/
def fillRow (s : State) (f lo hi r : Nat) : State :=
  (List.range 16).foldl (fun s ch => fillRun s f ch (max lo (60 * r)) (min hi (60 * (r + 1)))) s

/-- The rows of a fill from a row on, in ascending order (R347). -/
def fillRowsFrom (s : State) (f lo hi : Nat) : Nat → Nat → State
  | 0, _ => s
  | n + 1, r => fillRowsFrom (fillRow s f lo hi r) f lo hi n (r + 1)

/-- A fill of a 4 KiB-aligned range with zeros in partition 15: what arrived before it on its sectors and in its
partition is served first, then its runs are made row by row (R347 to R353). -/
def fmFill (s : State) (f lo hi : Nat) : State :=
  let x := fold s f
  let a := lo / 512
  let b := hi / 512
  let s := serveTo s f (fun r => r.secs.any (fun i => decide (a ≤ i) && decide (i < b)) || (r.part == 15 && x.runs.contains r))
  let s := updFold s f (fun x => { x with pasture := clrN x.pasture lo (hi - lo)
                                          check := mclr x.check (lo / 32) ((hi - lo) / 32) })
  fillInject (if a < b then fillRowsFrom s f a b (rowIdx (b - 1) - rowIdx a + 1) (rowIdx a) else s) f lo hi

/-- A fill of every row of every channel, outside all partitions: its bursts are counted and not costed, and each row
that is not open already is activated (R347, R348, R462). -/
def fmFillAll (s : State) (f : Nat) : State :=
  let rows := usable s / 30720
  let s := (List.range 16).foldl (fun s ch =>
    let c := mget {} (fold s f).chans ch
    let open0 := ((List.range 16).filter (fun k => decide (k < rows) && mget 0 c.openRow (bankOf (60 * k)) == 1)).length
    let s := cntN (cntN s (foldReg f aFmChWrBurst) ch (rows * 64)) (foldReg f aFmChAct) ch (rows - open0)
    updChan s f ch (fun c => { c with openRow := (List.range (min 16 rows)).foldl (fun m k =>
      let i := 60 * (rows - 1 - k)
      mset 0 m (bankOf i) (dramRow i + 1)) c.openRow })) s
  fillInject s f 0 (usable s)

end Sys2Proof.Machine
end

