-- ==== Sys2Proof/Machine/Roce.lean ====
section
/-! DEFINITION. The RoCEv2 transport below the commands: the MACs with their links and frames, the packets that the
part accepts, and how a message leaves on a queue pair (R283 to R286, R288, R289, R291, R293, R295, R309). -/

namespace Sys2Proof.Machine

/-! ## MACs (R283, R285, R309, R466) -/

/-- MODE of a data port; 3 acts as 0 (R283). -/
def portMode (s : State) (p : Nat) : Nat := let m := rf s (aNpPortCfg0 + 4 * p) 0 1 0; if m = 3 then 0 else m

/-- The MAC exists in the mode of its port; MAC 8 is the management port. -/
def macOn (s : State) (m : Nat) : Bool :=
  if m = 8 then 4 ≤ stage s
  else match portMode s (m / 2) with
    | 1 => m % 2 == 0
    | 2 => true
    | _ => false

/-- Line rate of a data MAC in Gbit/s; 0 where the mode of its port gives it none. -/
def lineRate (s : State) (m : Nat) : Nat :=
  match portMode s (m / 2) with
  | 1 => if m % 2 = 0 then 800 else 0
  | 2 => 400
  | _ => 0

/-- Configuration words of a MAC as written: address low and high, IPv4, IPv6 words, VLAN. -/
def macWords (s : State) (m : Nat) : List Word :=
  [aNpMacAddrLo, aNpMacAddrHi, aNpMacIpv4, aNpMacIpv60, aNpMacIpv61, aNpMacIpv62, aNpMacIpv63, aNpMacVlan].map
    (fun a => BitVec.ofNat 32 (rv s a m))

/-- The words of the boot address of MAC 8 (R466): MAC 0x02, 0x59 and SERIAL, and the EUI-64 link-local
address formed from it; its VLAN word is as written. -/
def bootWords (s : State) : List Word :=
  let mac : Bytes := [0x02, 0x59] ++ slice s.pc.record 4 4
  let b (i : Nat) : Byte := (mac[i]?).getD 0
  let ip : Bytes := [0xFE, 0x80, 0, 0, 0, 0, 0, 0, b 0 ^^^ 0x02, b 1, b 2, 0xFF, 0xFE, b 3, b 4, b 5]
  wordsOf 2 (mac ++ [0, 0]) ++ [0] ++ wordsOf 4 ip ++ [BitVec.ofNat 32 (rv s aNpMacVlan 8)]

/-- The configuration in effect of a MAC. -/
def macLive (s : State) (m : Nat) : List Word := mget [] s.np.macLive m

/-- Bytes of words `i` to `i + n - 1` of a MAC's configuration. -/
def macBytes (l : List Word) (i n : Nat) : Bytes := bytesOf ((l.drop i).take n)

/-- The link of a MAC is up. -/
def linkOn (s : State) (m : Nat) : Bool := mget false s.np.linkUp m

/-- A MAC's link comes up with the configuration that stands, or goes down. -/
def setMac (s : State) (m : Nat) (up : Bool) : State :=
  { s with np := { s.np with
      linkUp := mset false s.np.linkUp m up
      macLive := if up then mset [] s.np.macLive m (macWords s m) else s.np.macLive } }

/-- MAC 8 comes up with its boot address. -/
def bootMac (s : State) : State :=
  { s with np := { s.np with linkUp := mset false s.np.linkUp 8 true, macLive := mset [] s.np.macLive 8 (bootWords s) } }

/-! ## Queue pairs -/

/-- Role of a queue pair; the management queue pair is an Owner (R287). -/
def qpRole (s : State) (i : Nat) : Nat := if i = 4096 then 3 else rf s aNpQpCfg i 1 0

/-- Session of a Session queue pair. -/
def qpSession (s : State) (i : Nat) : Nat := rf s aNpQpCfg i 17 8

/-- A queue pair is in RTS. -/
def qpRts (s : State) (i : Nat) : Bool := (qp s i).st == .rts

/-- The MAC that carries a queue pair (R287). -/
def qpMac (s : State) (i : Nat) : Nat := if i = 4096 then 8 else rf s aNpQpCfg i 4 2

/-- The port of a queue pair's MAC; the management port is port 4. -/
def qpPort (s : State) (i : Nat) : Nat := qpMac s i / 2

/-- Priority flow control holds the RoCEv2 traffic of a queue pair's port (R295). -/
def qpPaused (s : State) (i : Nat) : Bool := mget false s.np.paused (qpPort s i)

/-- Path MTU of a queue pair (R288). -/
def mtu (s : State) (i : Nat) : Nat :=
  match rf s aNpQpCfg i 6 5 with | 1 => 1024 | 2 => 2048 | _ => 4096

/-- Packets that `n` bytes take on a queue pair. -/
def pkts (s : State) (i n : Nat) : Nat := max 1 ((n + mtu s i - 1) / mtu s i)

/-- RDMA READs outstanding on a queue pair, those among them whose transfer has been dropped. -/
def readsOn (s : State) (i : Nat) : Nat :=
  (s.fe.lost.filter (fun r => r.2.toNat == i)).length + ((s.fe.xfers.filter (fun t => t.read && t.kind != .peer)).map (fun t => (t.pieces.filter (fun p => p.toNat == i)).length)).sum

/-! ## Sending -/

/-- VLAN word of a MAC in effect: VID, TAGGED and DSCP. -/
def vlanWord (s : State) (m : Nat) : Nat := (((macLive s m)[7]?).getD 0).toNat

/-- A queue pair uses the IPv6 address of its MAC, else the IPv4 one (NP_QP_CFG.IPV6, R309). -/
def qpV6 (s : State) (i : Nat) : Bool := rb s aNpQpCfg i 7

/-- The header of a message on a queue pair, from the MAC's address that IPV6 chooses; the management port has no ECT setting and sends Not-ECT (R293, R309,
log entry 145). -/
def roceHdr (s : State) (i : Nat) (psn : BitVec 24) (t : Tx) : RoceHdr :=
  let m := qpMac s i
  let v := vlanWord s m
  { mac := m, ect := m ≠ 8 && rb s (aNpPortCfg0 + 4 * (m / 2)) 0 6
    dscp := match t with | .cnp _ => 48 | _ => bits v 18 13
    vlan := if bit v 12 then some (v % 4096) else none, psn := psn
    ipv6 := qpV6 s i, src := if qpV6 s i then macBytes (macLive s m) 3 4 else macBytes (macLive s m) 2 1 }

/-- Packets of a message sent on a queue pair; a retransmission sends everything unacknowledged again. -/
def txPkts (s : State) (i : Nat) (t : Tx) : Nat :=
  match t with
  | .write _ _ _ d _ => pkts s i d.length
  | .readResp _ d => pkts s i d.length
  | .resend _ => ((qp s i).out.map (·.pk)).sum + readsOn s i
  | _ => 1

/-- A message put on the wire of its queue pair's MAC, or lost where the link is down (R283, R289). -/
def putTx (s : State) (i : Nat) (psn : BitVec 24) (t : Tx) : State :=
  if linkOn s (qpMac s i) then emit (cntN s aNpCntTxPkt 0 (txPkts s i t)) (.roce (roceHdr s i psn t) t) else s

/-- A message sent on a queue pair, or held while its port is paused (R295). -/
def sendQp (s : State) (i : Nat) (psn : BitVec 24) (t : Tx) : State :=
  if qpPaused s i then { s with np := { s.np with heldTx := s.np.heldTx ++ [{ qp := i, psn := psn, tx := t }] } }
  else putTx s i psn t

/-- A request of the part sent on a queue pair; it takes `k` PSNs (R288, R289). -/
def sendReq (s : State) (i k : Nat) (t : Tx) : State :=
  let psn := (qp s i).spsn
  sendQp (updQp s i (fun p => { p with spsn := p.spsn + BitVec.ofNat 24 k })) i psn t

/-- A write sent on a queue pair, acknowledged as part of transfer `x`; `fq` marks a fault-queue record. -/
def sendOn (s : State) (i x : Nat) (fq : Bool) (t : Tx) : State :=
  let k := txPkts s i t
  sendReq (updQp s i (fun p => { p with out := p.out ++ [{ x := x, pk := k, fq := fq }] })) i k t

/-- What a pause held at a port goes out, oldest first (R295). -/
def flushPort (s : State) (p : Nat) : State :=
  let l := s.np.heldTx.filter (fun h => qpPort s h.qp == p)
  let s := { s with np := { s.np with heldTx := s.np.heldTx.filter (fun h => qpPort s h.qp != p) } }
  l.foldl (fun s h => putTx s h.qp h.psn h.tx) s

/-- A port's RoCEv2 priority resumes. -/
def unpause (s : State) (p : Nat) : State :=
  flushPort { s with np := { s.np with paused := mset false s.np.paused p false } } p

/-- What a pause held at a port is discarded (R283). -/
def dropHeld (s : State) (p : Nat) : State :=
  { s with np := { s.np with heldTx := s.np.heldTx.filter (fun h => qpPort s h.qp != p) } }

/-! ## Receiving (R284 to R286, R289, R291) -/

/-- A frame dropped and counted (R284, R285, R286, R291, R295). -/
def rxDrop (s : State) : State := cnt s aNpCntRxDrop

/-- A MAC accepts a frame: at most 9,216 B, and tagged exactly as TAGGED and VID say (R285, R309, log entry 145). -/
def frameOk (s : State) (fr : Frame) : Bool :=
  fr.len ≤ 9216 &&
    (let v := vlanWord s fr.mac
      if bit v 12 then fr.vlan == some (BitVec.ofNat 12 v) else fr.vlan.isNone)

/-- A frame that arrives: nothing on a MAC that is down; lost where a codeword of it is uncorrectable, which a data
port notes; dropped and counted where the MAC does not accept it. -/
def rxFrame (s : State) (fr : Frame) (g : State → State) : State :=
  if !linkOn s fr.mac then s
  else if fr.fec then (if fr.mac.val = 8 then s else rsetF s (aNpPortStat0 + 4 * (fr.mac.val / 2)) 0 2 2 1)
  else if !frameOk s fr then rxDrop s
  else g s

/-- A packet comes from the queue pair's remote side: on its MAC, from its GID and QPN (R291). -/
def pktFrom (s : State) (i : Nat) (k : Pkt) : Bool :=
  k.frame.mac.val == qpMac s i && k.gid == rbytes s aNpQpRgid0 i 4 && k.qpn.toNat == rv s aNpQpRqpn i

/-- A message of `n` packets for a queue pair: counted, and dropped where its transport is not Reliable Connected, the
queue pair is not in RTS, or its source differs (R286, R291). -/
def rxPkt (s : State) (i n : Nat) (k : Pkt) (g : State → State) : State :=
  rxFrame s k.frame (fun s =>
    let s := cntN s aNpCntRxPkt 0 n
    if closed s || !k.rc || !qpRts s i || !pktFrom s i k then cntN s aNpCntRxDrop 0 n else g s)

/-- A request of the remote side, of `n` packets and `m` PSNs, in PSN order: the one expected acts, one ahead of it is
answered with one sequence NAK, and a repeated one is answered again (R289). -/
def rxReq (s : State) (i n m : Nat) (k : Pkt) (again g : State → State) : State :=
  rxPkt s i n k (fun s =>
    let p := qp s i
    let d := (k.psn - p.epsn).toNat
    if d = 0 then g (updQp s i (fun p => { p with epsn := p.epsn + BitVec.ofNat 24 m, nakSent := false }))
    else if d < 2 ^ 23 then
      if p.nakSent then s
      else sendQp (updQp s i (fun p => { p with nakSent := true })) i p.epsn (.nak (BitVec.ofNat 13 i) .sequence)
    else again s)

/-- A NAK Remote Access Error; the queue pair stays in RTS. -/
def nakAccess (s : State) (i : Nat) (psn : BitVec 24) : State := sendQp s i psn (.nak (BitVec.ofNat 13 i) .remoteAccess)

/-- An acknowledgement. -/
def ackTo (s : State) (i : Nat) (psn : BitVec 24) : State := sendQp s i psn (.ack (BitVec.ofNat 13 i))

/-- The answer to a READ. -/
def respTo (s : State) (i : Nat) (psn : BitVec 24) (d : Bytes) : State := sendQp s i psn (.readResp (BitVec.ofNat 13 i) d)

end Sys2Proof.Machine
end

