-- ==== Sys2Proof/Machine/Xl.lean ====
section
/-! DEFINITION. Translation and protection: region descriptors and their checks, the page-table walk, the
cache, the checks of a piece, access counts, the fault queue and remote windows (R310 to R336). -/

namespace Sys2Proof.Machine

/-! ## Region descriptors (R311 to R320) -/

/-- A region descriptor from its 32 bytes (R312). -/
def regionOf (b : Bytes) : Region :=
  let w := fld b 16 2
  let k := fld b 20 1
  let r := fld b 21 1
  { base := fld b 0 8, limit := fld b 8 8, cid := BitVec.ofNat 12 w, world := bit w 15
    mask := BitVec.ofNat 12 (fld b 18 2), kind := BitVec.ofNat 4 k, unit := BitVec.ofNat 3 (k / 16)
    rd := bit r 0, wr := bit r 1, tables := bit r 2, window := bit r 3 }

/-- A region descriptor as its 32 bytes. -/
def regionBytes (r : Region) : Bytes :=
  toLE 8 r.base ++ toLE 8 r.limit ++ toLE 2 (r.cid.toNat + 2 ^ 15 * b2n r.world) ++ toLE 2 r.mask.toNat ++
    toLE 1 (r.kind.toNat + 16 * r.unit.toNat) ++
    toLE 1 (b2n r.rd + 2 * b2n r.wr + 4 * b2n r.tables + 8 * b2n r.window) ++ toLE 10 0

/-- Reserved fields of a region descriptor are 0 (R312). -/
def regionRes (b : Bytes) : Bool :=
  bits (fld b 16 2) 14 12 == 0 && bits (fld b 18 2) 15 12 == 0 && !bit (fld b 20 1) 7 &&
    bits (fld b 21 1) 7 4 == 0 && fld b 22 10 == 0

/-- An access by a CID and world matches a region, the right apart (R317). -/
def regionMatch (r : Region) (cid : BitVec 12) (secure : Bool) : Bool :=
  (cid &&& r.mask) == (r.cid &&& r.mask) && (secure || !r.world)

/-- An access by a CID and world with a right passes a region's checks (R317). -/
def regionOk (s : State) (i : Nat) (cid : BitVec 12) (secure write : Bool) : Bool :=
  let r := region s i
  r.kind.toNat == 1 && !r.unmapping && regionMatch r cid secure && (if write then r.wr else r.rd)

/-- Bytes of the pools at the top of a fold's pasture (R313). -/
def poolBytes (s : State) (f : Nat) : Nat :=
  (rf s (foldReg f aGxAsidePast) 0 15 0 + rf s (foldReg f aRuMasterPool) 0 15 0 +
    rf s (foldReg f aRuJrnlSize) 0 15 0 + rf s (foldReg f aRuDlogSize) 0 15 0) * 2 ^ 20

/-- First address of the pools of a fold (R313). -/
def poolBase (s : State) (f : Nat) : Nat := usable s - poolBytes s f

/-- The address up to which a region is used: a region that reaches into the pools is not used above their base
(R313). -/
def regionTop (s : State) (r : Region) : Nat := if r.kind.toNat = 1 then min r.limit (poolBase s r.unit.toNat) else r.limit

/-- Index of the descriptor of a scratch window (R311). -/
def winIdx (c k w : Nat) : Nat := 16320 + 32 * c + 8 * k + w

/-! ## Queue pairs as the XL sees them -/

/-- Queue pair of a target entry (R325, R337). -/
def tgtQp (s : State) (t : Nat) : Nat := min 4096 (rf s aXlTgtCfg t 28 16)

/-! ## The walk (R323, R324) -/

/-- A table store entry. -/
def ptEntry (s : State) (page i : Nat) : Nat := (mget 0 s.xl.store (512 * page + i)).toNat

/-- Index of an address at a level (R324). -/
def ptIdx (va lvl : Nat) : Nat := va / 2 ^ (12 + 9 * (lvl - 1)) % 512

/-- A table entry is present: V, with no reserved field nonzero. -/
def tabOk (e : Nat) : Bool := bit e 0 && bits e 11 1 == 0 && bits e 63 25 == 0

/-- A leaf is present: V, with no reserved field nonzero. -/
def leafOk (e : Nat) : Bool := bit e 0 && (!bit e 3 || bits e 63 50 == 0)

/-- Store entry of the leaf of an address, or the first level where V is 0. -/
def walk (s : State) (page va : Nat) : Nat → Nat ⊕ Nat
  | 0 => .inl 0
  | 1 => let i := 512 * page + ptIdx va 1
         if leafOk (ptEntry s page (ptIdx va 1)) then .inr i else .inl 1
  | l + 1 =>
    let e := ptEntry s page (ptIdx va (l + 1))
    if tabOk e then walk s (bits e 24 12) va l else .inl (l + 1)

/-- The walk of a context's address from its root. -/
def walkCtx (s : State) (cid va : Nat) : Nat ⊕ Nat := walk s (rf s aXlCtxCfg cid 24 12) va 4

/-! ## A piece (R325, R326) -/

/-- Who makes a transfer: commanding queue, or none for a peer. -/
structure Who where
  q : Option Nat
  cid : Nat
  secure : Bool
  deriving DecidableEq, Repr

/-- What a piece translates to; a fault says whether its context waits at the check that failed (R329). -/
inductive Xlat where
  | remote (qp rkey addr : Nat)
  | loc (f addr : Nat)
  | fault (cause level : Nat) (wait : Bool)
  deriving DecidableEq, Repr

/-- Checks 4 to 7 on a translation; a context with WAIT holds a piece that fails check 4 or 7 (R326, R329). -/
def leafXlat (s : State) (w : Who) (va : Nat) (c : Tlb) (read : Bool) : Xlat :=
  let leaf := c.leaf.toNat
  if read && !bit leaf 1 then .fault 3 0 c.wait
  else if !read && !bit leaf 2 then .fault 4 0 c.wait
  else if !bit leaf 3 then
    let t := bits leaf 63 52
    let i := tgtQp s t
    let role := qpRole s i
    let ok := rb s aXlTgtCfg t 0 && (match w.q with
      | none => false
      | some q => (role == 1 && qpSession s i == (queue s q).session.toNat) || role == 2 ||
          (q == 0 && role == 3))
    if ok then .remote i (rv s aXlTgtRkey t) (bits leaf 51 12 * 4096 + va % 4096) else .fault 6 0 false
  else
    let r := region s (bits leaf 49 36)
    let p := bits leaf 35 12
    if r.kind.toNat ≠ 1 ∨ r.unmapping ∨ !r.window ∨ !(if read then r.rd else r.wr) ∨
        regionTop s r < r.base + p * 4096 + 4096 then .fault 7 0 false
    else if !w.secure && r.world then .fault 5 0 c.wait
    else .loc r.unit.toNat (r.base + p * 4096 + va % 4096)

/-- Key of a cached translation. -/
def tlbKey (cid va : Nat) : Nat := cid * 2 ^ 36 + va / 4096

/-- The cached translation of an address; none on a rewalk. -/
def tlbFind (s : State) (cid va : Nat) (rewalk : Bool) : Option Tlb :=
  let c := mget {} s.xl.cache (tlbKey cid va)
  if rewalk ∨ 2 ^ 48 ≤ va ∨ c.leaf = 0 then none else some c

/-- A walk finds the leaf of an address, with the context as it stands, or fails check 3 at a level (R324, R326). -/
def walkTlb (s : State) (cid va : Nat) : Tlb ⊕ Nat :=
  if 2 ^ 48 ≤ va then .inr 4
  else match walkCtx s cid va with
    | .inl l => .inr l
    | .inr i => .inl { leaf := mget 0 s.xl.store i, world := rb s aXlCtxCfg cid 1, count := rb s aXlCtxCfg cid 2
                       wait := rb s aXlCtxCfg cid 3, at_ := i }

/-- Checks 1 to 3 (R326): the translation to use, cached or walked, or the fault. VALID is read live, and the rest of
the context as it was when a cached translation was walked (R327). -/
def findXlat (s : State) (w : Who) (va : Nat) (rewalk : Bool) : Tlb ⊕ Xlat :=
  if !rb s aXlCtxCfg w.cid 0 then .inr (.fault 1 0 false)
  else match tlbFind s w.cid va rewalk with
    | some c => if c.world && !w.secure then .inr (.fault 5 0 false) else .inl c
    | none =>
      if rb s aXlCtxCfg w.cid 1 && !w.secure then .inr (.fault 5 0 false)
      else match walkTlb s w.cid va with
        | .inl c => .inl c
        | .inr l => .inr (.fault 2 l (rb s aXlCtxCfg w.cid 3))

/-- The translation of a piece, through the cache unless it is a rewalk, with no effect on state. -/
def xlat (s : State) (w : Who) (va : Nat) (read rewalk : Bool) : Xlat :=
  match findXlat s w va rewalk with
  | .inl c => leafXlat s w va c read
  | .inr f => f

/-- A translation put into the cache of 8,192 entries; when it is full, a free choice of entry leaves (R327). -/
def tlbPut (s : State) (k : Nat) (c : Tlb) : State :=
  if s.xl.cache.length < 8192 ∨ (mget {} s.xl.cache k).leaf ≠ 0 then
    { s with xl := { s.xl with cache := mset {} s.xl.cache k c } }
  else
    let (v, s) := draw s
    let drop := (s.xl.cache[v % 8192]?).map (·.1)
    { s with xl := { s.xl with cache := mset {} (mdel s.xl.cache (drop.getD 0)) k c } }

/-- What the walk of a piece leaves in the cache, with the miss counted (R327). -/
def xlatNote (s : State) (w : Who) (va : Nat) (rewalk : Bool) : State :=
  if !rb s aXlCtxCfg w.cid 0 ∨ (tlbFind s w.cid va rewalk).isSome ∨ (rb s aXlCtxCfg w.cid 1 ∧ !w.secure) ∨ 2 ^ 48 ≤ va then s
  else
    let s := cnt s aXlCntMiss
    match walkTlb s w.cid va with
    | .inr _ => s
    | .inl c => tlbPut s (tlbKey w.cid va) c

/-! ## The fault queue (R335, R336) -/

/-- What a fault-queue record reports. -/
structure FqRec where
  status : Nat
  kind : Nat
  cause : Nat
  level : Nat := 0
  source : Nat
  cid : Nat
  secure : Bool
  addr : Nat
  who : Nat
  entry : Nat := 0
  deriving DecidableEq, Repr

/-- M of R335. -/
def fqM (s : State) : Nat :=
  let l := rf s aXlFqCfg 0 8 4
  2 ^ (if 6 ≤ l ∧ l ≤ 16 then l else 6)

/-- A record's 32 bytes. -/
def fqBytes (s : State) (k : Nat) (r : FqRec) : Bytes :=
  toLE 2 r.status ++ toLE 1 (r.kind + 128 * b2n (k / fqM s % 2 == 0)) ++ toLE 1 r.cause ++ toLE 1 r.level ++
    toLE 1 r.source ++ toLE 2 (r.cid + 2 ^ 15 * b2n r.secure) ++ toLE 8 r.addr ++ toLE 2 r.who ++ toLE 2 0 ++
    toLE 4 r.entry ++ toLE 8 (now s)

/-- A fault-queue record written, or dropped and counted (R335, R336). -/
def fqWrite (s : State) (r : FqRec) : State :=
  let p := rv s aXlFqProd
  if !rb s aXlFqCfg 0 0 then cnt s aXlCntFqLost
  else if tc 32 ((p : Int) - rv s aXlFqCons) = fqM s then cnt (rsetF s aXlStat 0 1 1 1) aXlCntFqLost
  else
    let s' := rset s aXlFqProd 0 (p + 1)
    let t := rf s aXlFqTgt 0 11 0
    let i := tgtQp s t
    if rb s aXlTgtCfg t 0 && qpRts s i then
      let x := s'.fe.nextXfer
      sendOn { s' with fe := { s'.fe with nextXfer := x + 1 } } i x true
        (.write (BitVec.ofNat 13 i) (BitVec.ofNat 32 (rv s aXlTgtRkey t))
          (BitVec.ofNat 64 (rv64 s aXlFqAddrLo 0 + 32 * (p % fqM s))) (fqBytes s p r) none)
    else cnt s' aXlCntFqLost

/-! ## Access counts (R332, R333) -/

/-- A translated piece counted in the table store's entry of its leaf, of a cache hit as of a walk; a crossing of HOT
writes a hot-page record (R332, R333). -/
def accCount (s : State) (w : Who) (va : Nat) (c : Tlb) (source who entry : Nat) : State :=
  let e := (mget 0 s.xl.store c.at_).toNat
  let a := bits e 11 4
  if !c.count ∨ a = 255 then s
  else
    let s := { s with xl := { s.xl with store := mset 0 s.xl.store c.at_ (BitVec.ofNat 64 (setBits e 11 4 (a + 1))) } }
    let hot := rf s aXlAccCtl 0 7 0
    if hot ≠ 0 ∧ a + 1 = hot then
      fqWrite (cnt s aXlCntHot)
        { status := 0, kind := 2, cause := 0, source := source, cid := w.cid, secure := w.secure
          addr := va / 4096 * 4096, who := who, entry := entry }
    else s

/-- A piece that translates is counted: in XL_CNT_XLAT, in the cache, and in its leaf (R327, R332). -/
def xlatDone (s : State) (w : Who) (va : Nat) (rewalk : Bool) (source who entry : Nat) : State :=
  let c := match findXlat s w va rewalk with | .inl c => c | .inr _ => {}
  accCount (cnt (xlatNote s w va rewalk) aXlCntXlat) w va c source who entry

/-! ## Remote windows (R334) -/

/-- The remote window entry of a source part and window number, if one is enabled. -/
def rwinFind (s : State) (src win : Nat) : Option Nat :=
  (List.range 4096).find? (fun i => rb s aXlRwinCfg i 0 && rf s aXlRwinCfg i 20 9 == src &&
    rf s aXlRwinCfg i 8 3 == win)

/-- What a remote window opens: the pasture of a fold or the scratchpad of a core, and an address. -/
inductive RwinTo where
  | fold (f a : Nat)
  | core (c a : Nat)
  deriving DecidableEq, Repr

/-- A Drove access matched against the remote window table. -/
def rwinAddr (s : State) (src win off n : Nat) (write : Bool) : Option RwinTo :=
  match rwinFind s src win with
  | none => none
  | some i =>
    let r := region s (rf s aXlRwinRegion i 13 0)
    let right := if write then rb s aXlRwinCfg i 2 && r.wr else rb s aXlRwinCfg i 1 && r.rd
    if r.kind ≠ 0 ∧ !r.unmapping ∧ right ∧ r.base + off + n ≤ regionTop s r ∧ off < r.limit - r.base then
      some (if r.kind.toNat = 1 then .fold r.unit.toNat (r.base + off) else .core r.unit.toNat (r.base + off))
    else none

/-- A remote window denial: a KIND 3 record, counted (R334). -/
def rwinDeny (s : State) (src off : Nat) : State :=
  fqWrite (cnt s aXlCntDenied)
    { status := stRegionDenied.toNat, kind := 3, cause := 9, source := 9, cid := 0, secure := false
      addr := off, who := src }

end Sys2Proof.Machine
end

