-- ==== Sys2Proof/Machine/Desc.lean ====
section
/-! DEFINITION. Table descriptors and their checks (R29 to R31, R99, R100), home extents and their
allocation (R37, R128, R313, R318, R512), and the images a fold holds (R67). -/

namespace Sys2Proof.Machine

/-! ## Fields of a descriptor (R30, R99) -/

/-- TID. -/
def dTid (d : Bytes) : Nat := fld d 0 2 % 4096
/-- TRAINED. -/
def dTrained (d : Bytes) : Bool := bit (fld d 2 1) 0
/-- REWIDTH_OK. -/
def dRewidth (d : Bytes) : Bool := bit (fld d 2 1) 1
/-- MIGRATE_OK. -/
def dMigrate (d : Bytes) : Bool := bit (fld d 2 1) 2
/-- PASTURE_CLASS. -/
def dPclass (d : Bytes) : Nat := fld d 3 1 % 4
/-- PEN_CEILING. -/
def dCeil (d : Bytes) : Nat := bits (fld d 3 1) 3 2
/-- GROUP. -/
def dGroup (d : Bytes) : Nat := bits (fld d 3 1) 5 4
/-- FOLD_MASK. -/
def dMask (d : Bytes) : Nat := fld d 4 1
/-- DIM. -/
def dDim (d : Bytes) : Nat := fld d 6 2 % 1024
/-- ROW_COUNT. -/
def dRows (d : Bytes) : Nat := fld d 8 4
/-- SLICE_INDEX. -/
def dSidx (d : Bytes) : Nat := fld d 12 2 % 4096
/-- SLICE_COUNT_M1. -/
def dScnt (d : Bytes) : Nat := fld d 14 2 % 4096
/-- PEN_QUOTA. -/
def dQuota (d : Bytes) : Nat := fld d 16 4
/-- OPT. -/
def dOpt (d : Bytes) : Nat := fld d 32 1 % 4
/-- SR. -/
def dSr (d : Bytes) : Bool := bit (fld d 32 1) 2
/-- SEED_ALL. -/
def dSeed (d : Bytes) : Bool := bit (fld d 32 1) 3
/-- LATE_K. -/
def dLateK (d : Bytes) : Nat := fld d 33 1 % 128
/-- ADMIT. -/
def dAdmit (d : Bytes) : Nat := fld d 34 1
/-- DROP. -/
def dDrop (d : Bytes) : Nat := fld d 35 1
/-- An FP32 field of UPDATE_SETTINGS, −0 taken as +0 (R100). -/
def dFp (d : Bytes) (off : Nat) : Nat := if fld d off 4 = 0x80000000 then 0 else fld d off 4

/-- Slot size of a class of the table. -/
def dSlot (d : Bytes) (cls : Nat) : Nat := slotSize cls (dDim d)
/-- Pasture slot size of the table. -/
def dPslot (d : Bytes) : Nat := dSlot d (dPclass d)

/-! ## Checks (R31, R100) -/

/-- A reserved field is nonzero. -/
def descRes (d : Bytes) : Bool :=
  bits (fld d 0 2) 15 12 ≠ 0 || bits (fld d 2 1) 7 3 ≠ 0 || bits (fld d 3 1) 7 6 ≠ 0 || fld d 5 1 ≠ 0 ||
    bits (fld d 6 2) 15 10 ≠ 0 || bits (fld d 12 2) 15 12 ≠ 0 || bits (fld d 14 2) 15 12 ≠ 0 ||
    fld d 20 12 ≠ 0 ||
    (dTrained d && (bits (fld d 32 1) 7 4 ≠ 0 || bit (fld d 33 1) 7 || fld d 60 4 ≠ 0))

/-- It differs from the current image in a field that a replacement keeps. -/
def descDiffers (d c : Bytes) : Bool :=
  dTrained d ≠ dTrained c || dPclass d ≠ dPclass c || dCeil d ≠ dCeil c || dGroup d ≠ dGroup c ||
    dDim d ≠ dDim c || dSidx d ≠ dSidx c || dScnt d ≠ dScnt c

/-- The checks of R31; `cur` is the descriptor of the current image. -/
def desc31 (d : Bytes) (cur : Option Bytes) : Bool :=
  !descRes d && dPclass d ≠ 3 && dCeil d ≠ 3 && dGroup d ≠ 3 && dPclass d ≤ dCeil d &&
    (dCeil d == dPclass d || (dTrained d && dRewidth d)) &&
    32 ≤ dDim d && dDim d ≤ 512 && dDim d % 32 == 0 && dDim d % groupSize (dGroup d) == 0 &&
    [1, 2, 4, 8].contains (bitsSet 8 (dMask d)).length && dRows d ≠ 0 && dSidx d ≤ dScnt d &&
    (dTrained d || allZero (d.drop 32)) &&
    (match cur with | some c => !descDiffers d c | none => true)

/-- A non-negative finite FP32 field. -/
def fpNonNeg (x : Nat) : Bool := x < 0x7F800000

/-- The checks of R100. -/
def desc100 (d : Bytes) : Bool :=
  let o := dOpt d
  !dTrained d ||
    (o ≠ 3 && 1 ≤ dLateK d && dLateK d ≤ 64 && fpNonNeg (dFp d 36) && fpNonNeg (dFp d 40) &&
      fpNonNeg (dFp d 56) && (o ≠ 2 || (dFp d 44 < 0x3F800000 && dFp d 48 < 0x3F800000)) &&
      (o == 0 || (0 < dFp d 52 && fpNonNeg (dFp d 52))) &&
      (o ≠ 0 || (dFp d 44 == 0 && dFp d 48 == 0 && dFp d 52 == 0)) &&
      (o ≠ 1 || (dFp d 44 == 0 && dFp d 48 == 0)) && (dDrop d == 0 || dDrop d < dAdmit d))

/-! ## Rows and folds (R29) -/

/-- Folds of a table, ascending. -/
def dFolds (d : Bytes) : List Nat := bitsSet 8 (dMask d)

/-- Fold and local row of a row. -/
def rowFold (d : Bytes) (r : Nat) : Nat × Nat :=
  let l := dFolds d
  ((l[r % l.length]?).getD 0, r / l.length)

/-- Rows a fold holds. -/
def rowsOn (d : Bytes) (f : Nat) : Nat :=
  let l := dFolds d
  match l.idxOf? f with
  | some p => (dRows d + l.length - 1 - p) / l.length
  | none => 0

/-- The row whose local number on a fold is `k`. -/
def rowAt (d : Bytes) (f k : Nat) : Nat :=
  let l := dFolds d
  k * l.length + (l.idxOf? f).getD 0

/-! ## Extents (R37, R128) -/

/-- Bytes of a fold's home extent. -/
def extBytes (d : Bytes) (f : Nat) : Nat := rowsOn d f * dPslot d

/-- Row blocks of a fold's home extent (R61). -/
def leafCount (d : Bytes) (f : Nat) : Nat :=
  let n := rowsOn d f
  if n = 0 then 0 else (n - 1) * dPslot d / 4096 + 1

/-- Height of a fold's tree (R127). -/
def treeH (leaves : Nat) : Nat :=
  ((List.range 9).find? (fun h => 1 ≤ h && leaves ≤ 16 ^ h)).getD 9

/-- Bytes of a fold's hash store: 32 for each leaf and node (R128). -/
def hashBytes (d : Bytes) (f : Nat) : Nat :=
  let n := leafCount d f
  32 * (n + ((List.range (treeH n)).map (fun j => (n + 16 ^ (j + 1) - 1) / 16 ^ (j + 1))).sum)

/-- Address of a home slot. -/
def homeA (im : Image) (f l : Nat) : Nat := mget 0 im.base f + l * dPslot im.desc

/-- Image of a table by slot. -/
def imgOf (t : Table) (img : Bool) : Option Image := if img then t.img1 else t.img0

/-- Image slot of a table set. -/
def setImg (t : Table) (img : Bool) (i : Option Image) : Table :=
  if img then { t with img1 := i } else { t with img0 := i }

/-- Images a fold holds, with their tables (R67). -/
def imagesOn (s : State) (f : Nat) : List (Nat × Bool × Image) :=
  s.tables.flatMap (fun (tid, t) =>
    ([false, true].filterMap (fun b => (imgOf t b).map (fun i => (tid, b, i)))).filter
      (fun (_, _, i) => bit (dMask i.desc) f))

/-- A fold holds a table image. -/
def holdsImage (s : State) (f : Nat) : Bool := !(imagesOn s f).isEmpty
/-- A fold holds an image with TRAINED = 1. -/
def holdsTrained (s : State) (f : Nat) : Bool := (imagesOn s f).any (fun (_, _, i) => dTrained i.desc)

/-- Extents of a fold in use, those of a staged image of `tid` apart. -/
def extents (s : State) (f tid : Nat) : List (Nat × Nat) :=
  ((imagesOn s f).filter (fun (t, b, _) =>
      !(t == tid && (table s t).staged && (table s t).stagedIn == b))).map
    (fun (_, _, i) => (mget 0 i.base f, extBytes i.desc f + hashBytes i.desc f))

/-- `n` raised to a multiple of `a`. -/
def alignUp (n a : Nat) : Nat := (n + a - 1) / a * a

/-- A place of `n` bytes in [lo, hi) is free of the intervals in use. -/
def fits (lo hi n : Nat) (occ : List (Nat × Nat)) (a : Nat) : Bool :=
  lo ≤ a && a + n ≤ hi && occ.all (fun (b, m) => a + n ≤ b || b + m ≤ a || m == 0)

/-- The least of a list. -/
def leastOf (l : List Nat) : Option Nat :=
  l.foldl (fun b x => match b with | none => some x | some y => some (min x y)) none

/-- Room for `n` bytes in [lo, hi): the first place at or after `start`, else the first of all. -/
def allocIn (lo hi al n start : Nat) (occ : List (Nat × Nat)) : Option Nat :=
  let c := ((lo :: start :: occ.map (fun (b, m) => b + m)).map (fun a => alignUp a al)).filter (fits lo hi n occ)
  match leastOf (c.filter (start ≤ ·)) with
  | some a => some a
  | none => leastOf c

/-- A fold's home extent with its hash store, from the first region of the tables of the queue's CID and
world that has room: base and region (R318). -/
def allocExt (s : State) (f tid cid : Nat) (secure : Bool) (n : Nat) : Option (Nat × Nat) :=
  let occ := extents s f tid
  s.xl.regions.findSome? (fun (i, r) =>
    if r.kind.toNat = 1 ∧ r.unit.toNat = f ∧ r.tables ∧ r.wr ∧ !r.unmapping ∧ r.cid.toNat = cid ∧ r.world = secure then
      (allocIn r.base (min r.limit (poolBase s f)) 32 n r.base occ).map (fun a => (a, i))
    else none)

/-- A region holds part of a table image (R316). -/
def regionHolds (s : State) (i : Nat) : Bool :=
  s.tables.any (fun (_, t) => [t.img0, t.img1].any (fun o => match o with
    | some im => im.owner.any (fun (_, j) => j == i)
    | none => false))

/-- The check of a fold access against the owning region of the image (R319). -/
def ownerOk (s : State) (im : Image) (f : Nat) (cid : BitVec 12) (secure write : Bool) : Bool :=
  regionOk s (mget 16384 im.owner f) cid secure write

/-! ## Epochs (R50) -/

/-- The next epoch number; 0 is skipped. -/
def nextEpoch (n : Word) : Word := if n = 0xFFFFFFFF then 1 else n + 1

/-- The epoch number `k` publications after `n`. -/
def epochPlus (n : Word) : Nat → Word
  | 0 => n
  | k + 1 => nextEpoch (epochPlus n k)

/-- The number of a table's open or next epoch. -/
def buildEpoch (t : Table) : Word := match t.cur with | some e => nextEpoch e.num | none => 1

/-- The readable epoch of a number. -/
def epochOf (t : Table) (n : Word) : Option Epoch :=
  match t.cur with
  | some e => if e.num = n then some e else
      (match t.prev with | some p => if p.num = n then some p else none | none => none)
  | none => match t.prev with | some p => if p.num = n then some p else none | none => none

/-- Descriptor of the current image. -/
def curDesc (t : Table) : Option Bytes := (t.cur.bind (fun e => imgOf t e.img)).map (·.desc)

end Sys2Proof.Machine
end

