-- ==== Sys2Proof/Machine/Scratch.lean ====
section
/-! DEFINITION. The scratchpad of a ranking core: windows, the two ports and granule marks (R161 to
R165, R320, R402, R403). -/

namespace Sys2Proof.Machine

/-- Bytes of a scratchpad (R161). -/
def scrBytes : Nat := 48 * 1024 * 1024

/-- Bytes read from a scratchpad, marked if any granule they touch is marked (R402, R403). -/
def scrRead (x : Core) (a n : Nat) : Span :=
  let gs := (List.range ((a + n + 63) / 64 - a / 64)).map (· + a / 64)
  { data := rdN x.scratch a n
    poison := gs.any (fun g => mget false x.poison g)
    suspect := gs.any (fun g => mget false x.suspect g)
    hard := gs.any (fun g => mget false x.hard g) }

/-- Bytes read from a scratchpad with the marks of each granule that they touch (R402, R403). -/
def readMarked (x : Core) (a n : Nat) : Marked :=
  let gs := (List.range ((a + n + 63) / 64 - a / 64)).map (· + a / 64)
  { data := rdN x.scratch a n
    marks := (gs.filter (fun g => mget false x.poison g || mget false x.suspect g || mget false x.hard g)).map (fun g =>
      let lo := max a (64 * g)
      { off := lo - a, len := min (a + n) (64 * g + 64) - lo, poison := mget false x.poison g
        suspect := mget false x.suspect g, hard := mget false x.hard g }) }

/-- The first `n` bytes of marked data. -/
def cutMarked (m : Marked) (n : Nat) : Marked :=
  { data := slice m.data 0 n
    marks := (m.marks.filter (fun k => k.off < n)).map (fun k => { k with len := min k.len (n - k.off) }) }

/-- A part of marked data, from byte `off` on. -/
def partMarked (m : Marked) (off n : Nat) : Marked :=
  cutMarked { data := m.data.drop off
              marks := (m.marks.filter (fun k => decide (off < k.off + k.len))).map (fun k =>
                { k with off := k.off - off, len := k.off + k.len - max off k.off }) } n

/-- Marked data that has come from another part: poison in it is consumed here as an error of its own (R403, R408). -/
def farMarked (m : Marked) : Marked := { m with marks := m.marks.map (fun k => { k with hard := k.hard || k.poison }) }

/-- Marked data placed at an address: all of it, then each marked range with its marks. -/
def markedSpans (a : Nat) (m : Marked) : List (Nat × Span) :=
  (a, { data := m.data }) :: m.marks.map (fun k =>
    (a + k.off, { data := slice m.data k.off k.len, poison := k.poison, suspect := k.suspect, hard := k.hard }))

/-- A granule's mark after writes: set by marked data, cleared where fresh data covers all 64 bytes,
and otherwise left (R403). -/
def markAfter (old : Bool) (g : Nat) (ws : List (Nat × Nat × Bool)) : Bool :=
  let here := ws.filter (fun (a, n, _) => a < 64 * g + 64 && 64 * g < a + n)
  if here.any (fun (_, _, mk) => mk) then true
  else if (List.range 64).all (fun o =>
      here.any (fun (a, n, _) => a ≤ 64 * g + o && 64 * g + o < a + n)) then false
  else old

/-- Granules touched by writes. -/
def granules (ws : List (Nat × Nat × Bool)) : List Nat :=
  (ws.flatMap (fun (a, n, _) => (List.range ((a + n + 63) / 64 - a / 64)).map (· + a / 64))).eraseDups

/-- Granule marks after spans are written, `sel` choosing the mark. -/
def marksAfter (m : Map Bool) (ws : List (Nat × Span)) (sel : Span → Bool) : Map Bool :=
  let l := ws.map (fun (a, sp) => (a, sp.data.length, sel sp))
  (granules l).foldl (fun m g => mset false m g (markAfter (mget false m g) g l)) m

/-- Spans written together: bytes, then marks by granule (R403). -/
def scrWrites (x : Core) (ws : List (Nat × Span)) : Core :=
  { x with scratch := ws.foldl (fun m (a, sp) => wrN m a sp.data) x.scratch
           poison := marksAfter x.poison ws (·.poison)
           suspect := marksAfter x.suspect ws (·.suspect)
           hard := marksAfter x.hard ws (·.hard) }

/-- One span written. -/
def scrWrite (x : Core) (a : Nat) (sp : Span) : Core := scrWrites x [(a, sp)]

/-- An effect that writes through the core port. -/
def portWrites : Act → Bool
  | .putSpan .. => true
  | .puts .. => true
  | .veStats .. => true
  | _ => false

/-- Spans written together through the external port in this cycle: over a write of the core port in the same cycle,
whose lines are visible from the next, they land last (R165). -/
def extWrites (x : Core) (ws : List (Nat × Span)) : Core :=
  let y := scrWrites x ws
  if x.flight.any (fun f => f.due == x.cycle + 1 && portWrites f.act) then
    { y with flight := y.flight ++ ws.map (fun (a, sp) =>
        { due := x.cycle + 1, reads := false, mav := none, act := .putSpan none a sp }) }
  else y

/-- One span written through the external port. -/
def extWrite (x : Core) (a : Nat) (sp : Span) : Core := extWrites x [(a, sp)]

/-- Marked data written through the external port: its marks go where its bytes go (R402, R403). -/
def extPut (x : Core) (a : Nat) (m : Marked) : Core := extWrites x (markedSpans a m)

/-- A range of a scratchpad written with zeros, its marks cleared. -/
def scrZero (x : Core) (a n : Nat) : Core :=
  { x with scratch := clrN x.scratch a n
           poison := mclr x.poison (a / 64) (n / 64)
           suspect := mclr x.suspect (a / 64) (n / 64)
           hard := mclr x.hard (a / 64) (n / 64) }

/-! ## Windows (R162 to R164) -/

/-- A window of a slot. -/
def slotWin (v : Slot) (w : Nat) : Option Win := mget none v.win w

/-- A scalar register; X0 reads 0 (R160). -/
def xreg (v : Slot) (r : Nat) : Nat := if r = 0 then 0 else (mget 0 v.x r).toNat

/-- A scalar register set; X0 ignores writes (R160). -/
def setXreg (v : Slot) (r : Nat) (w : Word) : Slot := if r = 0 then v else { v with x := mset 0 v.x r w }

/-- A parameter word (R160). -/
def parWord (v : Slot) (i : Nat) : Nat := (mget 0 v.par (i % 1024)).toNat

/-- Offset of a scratch operand at the core port (R162). -/
def coreOff (v : Slot) (o : Scr) : Nat := bits (xreg v o.xa.toNat) 25 13 * 8192 + o.off.toNat

/-- Offset of a scratch operand at the external port (R162). -/
def extOff (v : Slot) (o : Scr) : Nat := xreg v o.xa.toNat % 2 ^ 26 + o.off.toNat

/-- Physical address of `n` bytes at an offset of a window, if the window is bound, holds them and, for
a write, is writable (R164). -/
def winAddr (v : Slot) (w off n : Nat) (write : Bool) : Option Nat :=
  match slotWin v w with
  | some win => if off + n ≤ win.size ∧ (!write || win.wr) then some (win.base + off) else none
  | none => none

end Sys2Proof.Machine
end

