-- ==== Sys2Proof/Machine/Dir.lean ====
section
/-! DEFINITION. The row directory of a fold, the pen and the aside copies: resolution, allocation,
versioned writes of working copies, migrations and popularity (R38 to R47, R54, R55, R65, R66, R404,
R511). -/

namespace Sys2Proof.Machine

/-! ## Directory (R38, R39) -/

/-- The set of a row. -/
def dirSet (tid : Nat) (img : Bool) (r : Nat) : Nat :=
  (r * 0x9E3779B1 + tid * 0x85EBCA77 + b2n img * 0xC2B2AE3D) % 2 ^ 32 / 2 ^ 16

/-- An entry, by set × 16 + way. -/
def dirAt (x : Fold) (k : Nat) : DirE := mget {} x.dir k
/-- An entry set. -/
def setDir (x : Fold) (k : Nat) (e : DirE) : Fold := { x with dir := mset {} x.dir k e }
/-- An entry changed. -/
def updDir (x : Fold) (k : Nat) (g : DirE → DirE) : Fold := setDir x k (g (dirAt x k))

/-- An entry with T, V and M all 0 is free. -/
def dirFree (e : DirE) : Bool := !e.t && !e.v && !e.m

/-- Entries in use. -/
def dirUsed (x : Fold) : List (Nat × DirE) := x.dir.filter (fun (_, e) => !dirFree e)

/-- The entry of a row, if it has one. -/
def probe (x : Fold) (tid : Nat) (img : Bool) (r : Nat) : Option Nat :=
  ((List.range 16).map (fun w => dirSet tid img r * 16 + w)).find? (fun k =>
    let e := dirAt x k
    !dirFree e && e.tid.toNat == tid && e.img == img && e.row.toNat == r)

/-- The lowest free way of a row's set below `n`. -/
def freeWay (x : Fold) (tid : Nat) (img : Bool) (r n : Nat) : Option Nat :=
  ((List.range n).map (fun w => dirSet tid img r * 16 + w)).find? (fun k => dirFree (dirAt x k))

/-! ## Where a row is read (R40) -/

/-- A row slot: in the pen or in the pasture, and its byte address there. -/
structure Loc where
  pen : Bool
  addr : Nat
  deriving DecidableEq, Repr

/-- Address of a pen slot or an aside slot. -/
def penA (e : DirE) : Nat := e.penLoc.toNat * 32
/-- The aside copy of an entry. -/
def asideL (e : DirE) : Loc := { pen := e.atier, addr := e.aloc.toNat * 32 }
/-- The current location of an entry. -/
def curL (e : DirE) (home : Nat) : Loc := if e.t then { pen := true, addr := penA e } else { pen := false, addr := home }

/-- The location and class that a lookup pinned to epoch `p` reads (R40), with the entry, if any. -/
def resolve (x : Fold) (im : Image) (f tid : Nat) (img : Bool) (r p : Nat) : Loc × Nat × Option Nat :=
  let home := homeA im f (rowFold im.desc r).2
  match probe x tid img r with
  | none => ({ pen := false, addr := home }, dPclass im.desc, none)
  | some k =>
    let e := dirAt x k
    let d := (e.ver.toNat + 256 - p % 256) % 256
    if e.v && 1 ≤ d && d ≤ 127 then (asideL e, e.pcls.toNat, some k)
    else (curL e home, e.cls.toNat, some k)

/-! ## Pen -/

/-- Bytes of the pen read, marked if any line they touch is marked (R402, R403). -/
def penRead (x : Fold) (a n : Nat) : Bytes × Bool :=
  (rdN x.pen a n, ((List.range ((a + n + 63) / 64 - a / 64)).map (· + a / 64)).any (fun g => mget false x.penPoison g))

/-- Bytes of the pen written; a partial write of a line leaves its mark (R403). -/
def penWrite (x : Fold) (a : Nat) (bs : Bytes) (mark : Bool) : Fold :=
  let ws := [(a, bs.length, mark)]
  { x with pen := wrN x.pen a bs
           penPoison := (granules ws).foldl (fun m g => mset false m g (markAfter (mget false m g) g ws)) x.penPoison }

/-- The partition of the RU's traffic on a fold (R132, R355). -/
def ruPart (s : State) (f : Nat) : Nat := rf s (foldReg f aRuCtl) 0 7 4

/-- Runs of the RU on `n` bytes of a pool or store at `a`, wide, in its partition (R348, R355). -/
def poolRuns (s : State) (f a n : Nat) (write : Bool) : State :=
  let as := sectors a n
  makeRuns (serveBefore s f (ruPart s f) as) f (ruPart s f) as (fun _ => !write) (fun _ => write)

/-- A slot read; in the pasture, in a partition. -/
def readLoc (s : State) (p f : Nat) (l : Loc) (n : Nat) (row : Option RowRef) (h : Option Half) :
    State × Bytes × Bool :=
  if l.pen then (s, penRead (fold s f) l.addr n) else fmRead s p f l.addr n row h

/-- A slot written; bytes 22 and 23 of a home slot are kept when `keep` holds, and written 0 elsewhere. -/
def writeLoc (s : State) (p f : Nat) (l : Loc) (slot : Bytes) (keep mark : Bool) : State :=
  if l.pen then updFold s f (fun x => penWrite x l.addr (withPop slot 0 0) mark)
  else
    let s := serveBefore s f p (sectors l.addr slot.length)
    let old := rdN (fold s f).pasture (l.addr + 22) 2
    let slot := if keep then withPop slot (fld old 0 1) (fld old 1 1) else withPop slot 0 0
    fmPut s p f l.addr slot mark

/-- Descriptor of an entry's image. -/
def entryIm (s : State) (e : DirE) : Option Image := imgOf (table s e.tid.toNat) e.img

/-- Size of a class's slot for an entry. -/
def entrySlot (s : State) (e : DirE) (cls : Nat) : Nat :=
  match entryIm s e with | some i => dSlot i.desc cls | none => 0

/-- Size of the pen slot that an entry names by PEN_LOC, if it names one (R511). -/
def penSlotOf (s : State) (e : DirE) : Nat :=
  if e.t then entrySlot s e e.cls.toNat
  else if e.m then (match entryIm s e with | some i => dPslot i.desc | none => 0) else 0

/-- Pen slots in use: rows and migration targets, and pen aside copies. -/
def penOcc (s : State) (f : Nat) : List (Nat × Nat) :=
  (dirUsed (fold s f)).flatMap (fun (_, e) =>
    (if e.t || e.m then [(penA e, penSlotOf s e)] else []) ++
      (if e.v && e.atier then [(e.aloc.toNat * 32, entrySlot s e e.pcls.toNat)] else []))

/-- A table's pen use in a fold (R511). -/
def penUse (s : State) (f tid : Nat) : Nat :=
  ((dirUsed (fold s f)).map (fun (_, e) => if e.tid.toNat = tid then penSlotOf s e else 0)).sum

/-- Base of the pen row area. -/
def penLo (s : State) (f : Nat) : Nat := rf s (foldReg f aGxPenRowBase) 0 20 0 * 32
/-- Limit of the pen row area. -/
def penHi (s : State) (f : Nat) : Nat := rf s (foldReg f aGxPenRowLimit) 0 20 0 * 32
/-- Bytes of the pen aside reserve, at the top of the row area (log entry 7). -/
def asideBytes (s : State) (f : Nat) : Nat := rf s (foldReg f aGxAsidePen) 0 11 0 * 4096

/-- Alignment of a pen slot (R36). -/
def penAlign (n : Nat) : Nat := if n % 64 = 0 then 64 else 32

/-- Where an allocator starts to look: its own choice (log entry 7). -/
def startAt (s : State) (lo hi : Nat) : Nat × State :=
  (lo + Config.placeFrom s.fresh % (hi - lo + 1), { s with fresh := s.fresh + 1 })

/-- A pen slot of `n` bytes in the row area, outside the reserve. -/
def penAlloc (s : State) (f n : Nat) : Option Nat × State :=
  let hi := penHi s f - asideBytes s f
  let r := startAt s (penLo s f) hi
  (allocIn (penLo s f) hi (penAlign n) n r.1 (penOcc s f), r.2)

/-- Bytes of the pasture aside pool. -/
def asidePast (s : State) (f : Nat) : Nat := rf s (foldReg f aGxAsidePast) 0 15 0 * 2 ^ 20

/-- Pasture aside slots in use. -/
def asideOcc (s : State) (f : Nat) : List (Nat × Nat) :=
  (dirUsed (fold s f)).filterMap (fun (_, e) =>
    if e.v && !e.atier then some (e.aloc.toNat * 32, entrySlot s e e.pcls.toNat) else none)

/-- An aside slot: in the pen reserve for a pen row while room remains there, else in the pasture pool
(R54). -/
def asideAlloc (s : State) (f n : Nat) (pen : Bool) : Option Loc × State :=
  let r := startAt s (penHi s f - asideBytes s f) (penHi s f)
  let p := if pen then allocIn (penHi s f - asideBytes s f) (penHi s f) (penAlign n) n r.1 (penOcc s f) else none
  match p with
  | some a => (some { pen := true, addr := a }, r.2)
  | none =>
    let lo := usable s - asidePast s f
    let r := startAt r.2 lo (usable s)
    ((allocIn lo (usable s) 32 n r.1 (asideOcc s f)).map (fun a => { pen := false, addr := a }), r.2)

/-! ## Popularity (R42) -/

/-- POP of a home slot after its decay. -/
def effPop (x : Fold) (home : Nat) : Nat :=
  let d := (x.period.toNat + 256 - (rd x.pasture (home + 23)).toNat) % 256
  (rd x.pasture (home + 22)).toNat / 2 ^ min 8 d

/-- POP and the current period written to a home header (R42, R55). -/
def writePop (s : State) (p f home pop : Nat) : State :=
  fmWrite s p f (home + 22) [BitVec.ofNat 8 pop, (fold s f).period]

/-- An entry freed: its POP goes to the home header (R55, R355). -/
def freeEntry (s : State) (f k : Nat) : State :=
  let e := dirAt (fold s f) k
  let s := match entryIm s e with
    | some im => writePop s 15 f (homeA im f (rowFold im.desc e.row.toNat).2) e.pop.toNat
    | none => s
  updFold s f (fun x => setDir x k {})

/-- An entry freed if T, V and M are all 0. -/
def reapEntry (s : State) (f k : Nat) : State :=
  if dirFree (dirAt (fold s f) k) then freeEntry s f k else s

/-! ## Policy (R47) -/

/-- A threshold of GX_POP_THRESH. -/
def popTh (s : State) (f hi lo : Nat) : Nat := rf s (foldReg f aGxPopThresh) 0 hi lo

/-- THRESH_BAD. -/
def threshBad (s : State) (f : Nat) : Bool :=
  popTh s f 7 0 ≤ popTh s f 15 8 || popTh s f 23 16 ≤ popTh s f 31 24

/-- A bit of GX_POLICY_STAT set. -/
def polStat (s : State) (f b : Nat) : State := rsetF s (foldReg f aGxPolicyStat) 0 b b 1

/-! ## Migrations (R44, R45, R65, R66) -/

/-- A migration started: M is set. -/
def startMig (s : State) (f k : Nat) (toPen : Bool) : State :=
  updFold s f (fun x => { updDir x k (fun e => { e with m := true }) with migs := x.migs ++ [{ way := k, toPen := toPen }] })

/-- A row may be demoted: it is in the pen, at PASTURE_CLASS, and does not migrate (R40, R45, R55). -/
def mayLeave (s : State) (e : DirE) : Bool :=
  e.t && !e.m && (match entryIm s e with | some i => e.cls.toNat == dPclass i.desc | none => false)

/-- A demotion that waits for a place when 64 run; a repair goes ahead of those of R55, its own row's among them
(R55, R404). -/
def needDemote (s : State) (f k : Nat) (repair : Bool) : State :=
  let x := fold s f
  if x.waitRepair.contains k ∨ (dirAt x k).m ∨ (x.waitDemote.contains k ∧ !repair) then s
  else
    let x := { x with waitDemote := x.waitDemote.filter (· ≠ k) }
    if x.migs.length < 64 then startMig (setFold s f x) f k false
    else if repair then setFold s f { x with waitRepair := x.waitRepair ++ [k] }
    else setFold s f { x with waitDemote := x.waitDemote ++ [k] }

/-- A clean pen copy that returns poisoned data is repaired (R404). -/
def repairPen (s : State) (f k : Nat) (bad : Bool) : State :=
  let e := dirAt (fold s f) k
  if bad && mayLeave s e && !e.dirty then needDemote s f k true else s

/-- The demotions that wait start while there is a place for them: repairs first, then those of R55; one whose
row may leave the pen no more, or is no longer clean for a repair, is forgotten. `n` bounds those looked at. -/
def startWaiting : Nat → State → Nat → State
  | 0, s, _ => s
  | n + 1, s, f =>
    let x := fold s f
    let go (s : State) (k : Nat) (repair : Bool) : State :=
      if mayLeave s (dirAt x k) && !(repair && (dirAt x k).dirty) then startMig s f k false else s
    if 64 ≤ x.migs.length then s
    else match x.waitRepair, x.waitDemote with
      | k :: r, _ => startWaiting n (go (setFold s f { x with waitRepair := r }) k true) f
      | [], k :: r => startWaiting n (go (setFold s f { x with waitDemote := r }) k false) f
      | [], [] => s

/-- Places have become free: what waits for one starts (R55, R66, R404). -/
def nextWaiting (s : State) (f : Nat) : State :=
  startWaiting ((fold s f).waitRepair.length + (fold s f).waitDemote.length) s f

/-- A migration leaves the fold's list and its log. -/
def dropMig (x : Fold) (k : Nat) : Fold :=
  { x with migs := x.migs.filter (fun g => g.way ≠ k), migLog := x.migLog.filter (· ≠ k) }

/-- The oldest migration is abandoned: its target is freed and M cleared (R66). -/
def abandonMig (s : State) (f k : Nat) : State :=
  let s := updFold s f (fun x => dropMig (updDir x k (fun e => { e with m := false })) k)
  let s := cnt s (foldReg f aGxCntMigAbort)
  nextWaiting (reapEntry s f k) f

/-- A write to a migrating row is logged; while it finds the log full, the oldest migration is abandoned. `n`
bounds the migrations abandoned. -/
def logMigN : Nat → State → Nat → Nat → State
  | 0, s, _, _ => s
  | n + 1, s, f, k =>
    let x := fold s f
    if !(dirAt x k).m then s
    else if x.migLog.length < 1024 then setFold s f { x with migLog := x.migLog ++ [k] }
    else match x.migs with
      | g :: _ => logMigN n (polStat (abandonMig s f g.way) f 3) f k
      | [] => s

/-- A write to a row logged if the row migrates (R65, R66). -/
def logMig (s : State) (f k : Nat) : State := logMigN ((fold s f).migs.length + 1) s f k

/-- A row's slot copied between the pen and the home slot, `k` times over (R65 step 4). -/
def copySlot (f n : Nat) (src dst : Loc) (keep : Bool) (row : RowRef) : Nat → State → State
  | 0, s => s
  | k + 1, s =>
    let r := readLoc s 15 f src n (some row) none
    copySlot f n src dst keep row k (writeLoc r.1 15 f dst r.2.1 keep r.2.2)

/-- The flip of a migration: the copy is made, and again for each logged write, T flips, M and DIRTY clear, and an
entry with V = 0 that has left the pen is freed. DIRTY is tested as the copy is made, at the flip (R65, log entry 159). -/
def flipMig (s : State) (f k : Nat) : State :=
  let x := fold s f
  let e := dirAt x k
  match entryIm s e with
  | none => s
  | some im =>
    let home := homeA im f (rowFold im.desc e.row.toNat).2
    let n := dPslot im.desc
    let ref : RowRef := { tid := e.tid.toNat, row := e.row.toNat }
    let times := 1 + (x.migLog.filter (· == k)).length
    let s :=
      if e.t then
        let s := if e.dirty then copySlot f n { pen := true, addr := penA e } { pen := false, addr := home } true ref times s else s
        let s := updFold s f (fun x => dropMig (updDir x k (fun e => { e with t := false, m := false, dirty := false })) k)
        cnt s (foldReg f aGxCntDemote)
      else
        let s := copySlot f n { pen := false, addr := home } { pen := true, addr := penA e } false ref times s
        let s := updFold s f (fun x => dropMig (updDir x k (fun e => { e with t := true, m := false, dirty := false })) k)
        cnt s (foldReg f aGxCntPromote)
    nextWaiting (reapEntry s f k) f

/-- A lookup's count tested for promotion: one for which there is no room or no way is skipped and counted; one
that only the limit of 64 prevents is neither started nor counted (R44, R47, R66). -/
def tryPromote (s : State) (f : Nat) (im : Image) (tid : Nat) (img : Bool) (r count : Nat) : State :=
  let x := fold s f
  let k := probe x tid img r
  let e := match k with | some k => dirAt x k | none => {}
  let pol := foldReg f aGxPolicyCtl
  if e.t || e.m || count < popTh s f 7 0 || !rb s pol 0 0 || !dMigrate im.desc || threshBad s f then s
  else
    let n := dPslot im.desc
    let way := match k with | some k => some k | none => freeWay x tid img r 12
    let quota := penUse s f tid + n ≤ dQuota im.desc * 4096
    let (slot, s1) := if quota then penAlloc s f n else (none, s)
    match way, slot with
    | some k, some a =>
      if 64 ≤ x.migs.length then s
      else
      let s := updFold s1 f (fun x => updDir x k (fun e =>
        { e with row := BitVec.ofNat 32 r, tid := BitVec.ofNat 12 tid, img := img
                 cls := BitVec.ofNat 2 (dPclass im.desc), pop := BitVec.ofNat 8 count
                 penLoc := BitVec.ofNat 21 (a / 32) }))
      startMig s f k true
    | _, _ =>
      let s := cnt s (foldReg f aGxCntPromoteSkip)
      if way.isNone then polStat s f 1 else s

/-! ## Working-copy writes (R54, R55) -/

/-- The coldest row of a set that R55 may demote. -/
def coldest (s : State) (f set : Nat) : Option Nat :=
  let x := fold s f
  let ok (k : Nat) : Bool :=
    let e := dirAt x k
    mayLeave s e && !e.v
  (((List.range 16).map (fun w => set * 16 + w)).filter ok).foldl (fun b k =>
    match b with
    | none => some k
    | some j => if (dirAt x k).pop.toNat < (dirAt x j).pop.toNat then some k else some j) none

/-- What a write of a working copy needs to know. -/
structure WcW where
  f : Nat
  tid : Nat
  img : Bool
  row : Nat
  /-- Open epoch. -/
  o : Nat
  /-- The new slot and its class. -/
  slot : Bytes
  cls : Nat
  mark : Bool := false
  /-- A class change: the new pen slot (R46). A row outside the pen, which only a mirror may find, enters it there
  (R49). -/
  newPen : Option Nat := none
  deriving DecidableEq, Repr

/-- The entry of a written row, made if the row has none; without a free way the coldest row that may
leave is demoted, once for this write, and the write waits (R54 step 2, R55). -/
def wcEntry (s : State) (im : Image) (w : WcW) : State × Option Nat :=
  let x := fold s w.f
  match probe x w.tid w.img w.row with
  | some k => (s, some k)
  | none =>
    let mine (y : Nat × BitVec 12 × Bool × Word) : Bool := y.2.1.toNat == w.tid && y.2.2.1 == w.img && y.2.2.2.toNat == w.row
    match freeWay x w.tid w.img w.row 16 with
    | some k =>
      let e : DirE := { row := BitVec.ofNat 32 w.row, tid := BitVec.ofNat 12 w.tid, img := w.img
                        cls := BitVec.ofNat 2 (dPclass im.desc)
                        pop := BitVec.ofNat 8 (effPop x (homeA im w.f (rowFold im.desc w.row).2)) }
      (updFold s w.f (fun x => { setDir x k e with wayWaits := x.wayWaits.filter (fun y => !mine y) }), some k)
    | none =>
      if x.wayWaits.any (fun y => mine y && ((dirAt x y.1).m || x.waitDemote.contains y.1 || x.waitRepair.contains y.1)) then (s, none)
      else match coldest s w.f (dirSet w.tid w.img w.row) with
        | some k =>
          let y := (k, BitVec.ofNat 12 w.tid, w.img, BitVec.ofNat 32 w.row)
          (needDemote (updFold s w.f (fun x => { x with wayWaits := x.wayWaits.filter (fun y => !mine y) ++ [y] })) w.f k false, none)
        | none => (s, none)

/-- A working copy written (R54): the prior version is kept, in a dead aside slot of the row where it has one that
is large enough (log entry 124), then the new copy is written. The second part
is false where the write waits for a way or for aside space (R55, R56). -/
def wcWrite (s : State) (im : Image) (w : WcW) : State × Bool :=
  match wcEntry s im w with
  | (s, none) => (s, false)
  | (s, some k) =>
    let e := dirAt (fold s w.f) k
    let home := homeA im w.f (rowFold im.desc w.row).2
    let n := dSlot im.desc e.cls.toNat
    let kept := e.v && e.ver.toNat == w.o % 256
    let ver := BitVec.ofNat 8 w.o
    let r : State × Bool :=
      if kept then (s, true)
      else match (if e.t then w.newPen else none) with
        | some _ =>
          (updFold s w.f (fun x => updDir x k (fun e =>
            { e with v := true, ver := ver, pcls := e.cls, atier := true, aloc := BitVec.ofNat 31 e.penLoc.toNat })), true)
        | none =>
          let dead := e.v && n ≤ dSlot im.desc e.pcls.toNat
          let r := if dead then (some (asideL e), s)
            else asideAlloc (updFold s w.f (fun x => updDir x k (fun e => { e with v := false }))) w.f n e.t
          match r with
          | (some l, s) =>
            let p := ruPart s w.f
            let c := readLoc s p w.f (curL e home) n (some { tid := w.tid, row := w.row }) none
            let s := writeLoc (repairPen c.1 w.f k c.2.2) p w.f l c.2.1 false c.2.2
            (updFold s w.f (fun x => updDir x k (fun e =>
              { e with v := true, ver := ver, pcls := e.cls, atier := l.pen, aloc := BitVec.ofNat 31 (l.addr / 32) })), true)
          | (none, s) => (polStat (reapEntry s w.f k) w.f 2, false)
    if !r.2 then r
    else
      let s := match w.newPen with
        | some a => updFold r.1 w.f (fun x => updDir x k (fun e => { e with t := true, penLoc := BitVec.ofNat 21 (a / 32) }))
        | none => r.1
      let e := dirAt (fold s w.f) k
      let s := writeLoc s (ruPart s w.f) w.f (curL e home) w.slot true w.mark
      let s := updFold s w.f (fun x => updDir x k (fun e =>
        { e with cls := BitVec.ofNat 2 w.cls, dirty := e.dirty || e.t }))
      (logMig s w.f k, true)

/-- The working copy of a row as it stands (open epoch included): slot, class, mark; a poisoned clean pen copy is
repaired (R404). -/
def wcRead (s : State) (im : Image) (f tid : Nat) (img : Bool) (r : Nat) : State × Bytes × Nat × Bool :=
  let home := homeA im f (rowFold im.desc r).2
  let x := fold s f
  let row : RowRef := { tid := tid, row := r }
  match probe x tid img r with
  | some k =>
    let cls := (dirAt x k).cls.toNat
    let c := readLoc s (ruPart s f) f (curL (dirAt x k) home) (dSlot im.desc cls) (some row) none
    (repairPen c.1 f k c.2.2, c.2.1, cls, c.2.2)
  | none =>
    let c := readLoc s (ruPart s f) f { pen := false, addr := home } (dSlot im.desc (dPclass im.desc)) (some row) none
    (c.1, c.2.1, dPclass im.desc, c.2.2)

/-- Aside slots dead in every readable epoch freed, and empty entries with them (R55). -/
def asideFree (s : State) (f tid : Nat) : State :=
  let t := table s tid
  let dead (e : DirE) : Bool :=
    e.tid.toNat == tid && e.v && !(t.prev.isSome) &&
      !(t.opened.isSome && e.ver.toNat == (buildEpoch t).toNat % 256)
  let ks := ((fold s f).dir.filter (fun (_, e) => dead e)).map (·.1)
  ks.foldl (fun s k => reapEntry (updFold s f (fun x => updDir x k (fun e => { e with v := false }))) f k) s

end Sys2Proof.Machine
end

