-- ==== Sys2Proof/Machine/Sha3.lean ====
section
/-! DEFINITION. SHA3-256, which R2 and the digest rules name by its standard; its inside is that of FIPS 202
(log entry 8). -/

namespace Sys2Proof.Machine

/-- A lane of a Keccak state, lane x + 5 y. -/
def lane (a : List Dword) (i : Nat) : Dword := a.getD i 0

/-- Rotation offsets of ρ, lane x + 5 y. -/
def rhoOff : List Nat :=
  [0, 1, 62, 28, 27, 36, 44, 6, 55, 20, 3, 10, 43, 25, 39, 41, 45, 15, 21, 8, 18, 2, 61, 56, 14]

/-- Round constants of ι. -/
def iotaRC : List Dword :=
  [0x0000000000000001, 0x0000000000008082, 0x800000000000808A, 0x8000000080008000,
   0x000000000000808B, 0x0000000080000001, 0x8000000080008081, 0x8000000000008009,
   0x000000000000008A, 0x0000000000000088, 0x0000000080008009, 0x000000008000000A] ++
  [0x000000008000808B, 0x800000000000008B, 0x8000000000008089, 0x8000000000008003,
   0x8000000000008002, 0x8000000000000080, 0x000000000000800A, 0x800000008000000A,
   0x8000000080008081, 0x8000000000008080, 0x0000000080000001, 0x8000000080008008]

/-- θ. -/
def kTheta (a : List Dword) : List Dword :=
  let c := (List.range 5).map (fun x =>
    lane a x ^^^ lane a (x + 5) ^^^ lane a (x + 10) ^^^ lane a (x + 15) ^^^ lane a (x + 20))
  let d := (List.range 5).map (fun x => lane c ((x + 4) % 5) ^^^ (lane c ((x + 1) % 5)).rotateLeft 1)
  (List.range 25).map (fun i => lane a i ^^^ lane d (i % 5))

/-- ρ and π: lane (x, y) of the result is lane (x + 3 y, x) rotated. -/
def kRhoPi (a : List Dword) : List Dword :=
  (List.range 25).map (fun i =>
    let x := i % 5
    let y := i / 5
    let j := (x + 3 * y) % 5 + 5 * x
    (lane a j).rotateLeft (rhoOff.getD j 0))

/-- χ. -/
def kChi (a : List Dword) : List Dword :=
  (List.range 25).map (fun i =>
    let x := i % 5
    let y := 5 * (i / 5)
    lane a i ^^^ (~~~(lane a ((x + 1) % 5 + y)) &&& lane a ((x + 2) % 5 + y)))

/-- One round. -/
def kRound (a : List Dword) (rc : Dword) : List Dword :=
  match kChi (kRhoPi (kTheta a)) with
  | [] => []
  | l :: r => (l ^^^ rc) :: r

/-- Keccak-f[1600]. -/
def keccakF (a : List Dword) : List Dword := iotaRC.foldl kRound a

/-- The message padded to whole blocks of 136 bytes, domain bits 01. -/
def shaPad (m : Bytes) : Bytes :=
  let p := 136 - m.length % 136
  if p = 1 then m ++ [0x86] else m ++ [0x06] ++ List.replicate (p - 2) 0 ++ [0x80]

/-- A block absorbed. -/
def absorb (a : List Dword) (b : Bytes) : List Dword :=
  keccakF ((List.range 25).map (fun i =>
    if i < 17 then lane a i ^^^ BitVec.ofNat 64 (fld b (8 * i) 8) else lane a i))

/-- Blocks absorbed in order. -/
def absorbAll : Nat → List Dword → Bytes → List Dword
  | 0, a, _ => a
  | n + 1, a, m => absorbAll n (absorb a (m.take 136)) (m.drop 136)

/-- SHA3-256 of a byte string. -/
def sha3 (m : Bytes) : Bytes :=
  let p := shaPad m
  let a := absorbAll (p.length / 136) (List.replicate 25 0) p
  (a.take 4).flatMap (fun w => toLE 8 w.toNat)

end Sys2Proof.Machine
end

