-- ==== Sys2Proof/Machine/TblOps.lean ====
section
/-! DEFINITION. Epochs and pins: epoch roots, publication, the end of a readable epoch, the release of what
a request holds, and the retirement of graph versions (R50 to R53, R57, R61 to R63, R89, R103, R119,
R127, R226, R240). -/

namespace Sys2Proof.Machine

/-! ## Epoch roots (R61, R127) -/

/-- The content of a row slot: its header with bytes 22 and 23 as 0, then its code area. -/
def rowContent (cls dim : Nat) (slot : Bytes) : Bytes := (withPop slot 0 0).take (32 + codeBytes cls dim)

/-- The content of local row `l` of a fold as its working copy stands. -/
def rowBytes (s : State) (im : Image) (f tid : Nat) (img : Bool) (l : Nat) : Bytes :=
  let c := wcRead s im f tid img (rowAt im.desc f l)
  rowContent c.2.2.1 (dDim im.desc) c.2.1

/-- Leaf `k` of a fold. -/
def leafDigest (s : State) (im : Image) (f tid : Nat) (img : Bool) (k : Nat) : Bytes :=
  let sz := dPslot im.desc
  let lo := (4096 * k + sz - 1) / sz
  let hi := min (rowsOn im.desc f) ((4096 * (k + 1) + sz - 1) / sz)
  sha3 (0 :: toLE 4 k ++ (List.range (hi - lo)).flatMap (fun i => rowBytes s im f tid img (lo + i)))

/-- A node of 16 children, a missing one 32 zero bytes. -/
def nodeDigest (j : Nat) (l : List Bytes) : Bytes :=
  sha3 (1 :: toLE 1 j ++ (List.range 16).flatMap (fun i => (l[i]?).getD (List.replicate 32 0)))

/-- The nodes of level `j` over those below. -/
def nodesUp (j : Nat) (l : List Bytes) : List Bytes :=
  if l.isEmpty then [nodeDigest j []] else (chunks 16 l.length l).map (nodeDigest j)

/-- A fold's root from its leaves. -/
def treeRoot (l : List Bytes) : Bytes :=
  ((List.range (treeH l.length)).foldl (fun l j => nodesUp (j + 1) l) l).headD []

/-- The root of a fold: the nodes over its kept leaves. -/
def foldRoot (im : Image) (f : Nat) : Bytes := treeRoot (mget [] im.leaves f)

/-- The epoch root of an image from its kept leaves. -/
def epochRoot (im : Image) (tid : Nat) : Bytes :=
  let d := im.desc
  sha3 (2 :: toLE 2 tid ++ toLE 2 (dSidx d) ++ toLE 4 (dRows d) ++ toLE 1 (dMask d) ++
    (dFolds d).flatMap (foldRoot im))

/-- Block of a local row (R61). -/
def leafOf (d : Bytes) (l : Nat) : Nat := l * dPslot d / 4096

/-- Local rows of a fold among the first `n` rows of a table. -/
def rowsBelow (d : Bytes) (f n : Nat) : Nat := ((List.range (rowsOn d f)).filter (fun l => rowAt d f l < n)).length

/-- The leaves of a staged image's blocks whose rows have all landed, built as they land (R62, R128). -/
def growLeaves (s : State) (im : Image) (tid : Nat) (img : Bool) : Image :=
  { im with leaves := (dFolds im.desc).foldl (fun m f =>
      let n := rowsBelow im.desc f im.rows
      let full := if n = rowsOn im.desc f then leafCount im.desc f else leafOf im.desc n
      let have_ := mget [] m f
      mset [] m f (have_ ++ (List.range (full - have_.length)).map (fun k => leafDigest s im f tid img (have_.length + k)))) im.leaves }

/-- The table root of an epoch (R240). -/
def tableRoot (d : Bytes) (e : Epoch) : Bytes :=
  if dScnt d = 0 then e.root else sha3 (5 :: toLE 2 (dScnt d + 1) ++ e.slices.flatten)

/-! ## The end of an epoch and of an image -/

/-- What a fold holds of an image is freed: entries, masters, moments, journal and delta records; pending
deltas are counted (R103, R119). A migration of the image that still runs goes with its entry and its log
records, and is counted as neither made nor abandoned (log entry 125). -/
def freeOnFold (s : State) (tid : Nat) (img : Bool) (f : Nat) : State :=
  let x := fold s f
  let mine (t : BitVec 12) (i : Bool) : Bool := t.toNat == tid && i == img
  let n := (x.deltas.filter (fun d => mine d.tid d.img && !d.applied)).length
  let ks := (x.dir.filter (fun (_, e) => mine e.tid e.img)).map (·.1)
  let x := ks.foldl (fun x k => dropMig x k) x
  let s := setFold s f { x with
    dir := x.dir.filter (fun (_, e) => !mine e.tid e.img)
    waitDemote := x.waitDemote.filter (fun k => !ks.contains k)
    waitRepair := x.waitRepair.filter (fun k => !ks.contains k)
    wayWaits := x.wayWaits.filter (fun y => !mine y.2.1 y.2.2.1)
    masters := x.masters.filter (fun m => !mine m.tid m.img)
    deltas := x.deltas.filter (fun d => !mine d.tid d.img)
    journal := x.journal.filter (fun j => !mine j.tid j.img) }
  nextWaiting (cntN s (foldReg f aRuCntLateDiscard) 0 n) f

/-- An image freed with its extents. -/
def freeImage (s : State) (tid : Nat) (img : Bool) : State :=
  match imgOf (table s tid) img with
  | none => s
  | some im =>
    let s := (dFolds im.desc).foldl (fun s f => freeOnFold s tid img f) s
    updTable s tid (fun t => setImg t img none)

/-- The previous epoch becomes unreadable: its image is freed if it has been replaced or dropped, and a
dropped table's TID becomes free (R52, R63). -/
def prevGone (s : State) (tid : Nat) : State :=
  let t := table s tid
  match t.prev with
  | none => s
  | some p =>
    let s := updTable s tid (fun t => { t with prev := none })
    let live := match t.cur with | some c => c.img == p.img | none => false
    let s := if live then s else freeImage s tid p.img
    if t.cur.isNone then setTable s tid {} else s

/-- The previous epoch is readable while it holds pins or group holds (R52, R378). -/
def checkPrev (s : State) (tid : Nat) : State :=
  match (table s tid).prev with
  | some p => if p.pins = 0 ∧ p.holds = 0 then prevGone s tid else s
  | none => s

/-- A pin taken on the current epoch. -/
def pinCur (s : State) (tid : Nat) : State :=
  updTable s tid (fun t => { t with cur := t.cur.map (fun e => { e with pins := e.pins + 1 }) })

/-- A pin on a readable epoch of a table. -/
def pinNum (s : State) (tid : Nat) (n : Word) : State :=
  let up (e : Epoch) : Epoch := if e.num = n then { e with pins := e.pins + 1 } else e
  updTable s tid (fun t => { t with cur := t.cur.map up, prev := t.prev.map up })

/-- A pin released; the previous epoch's last pin makes it unreadable (R51, R52). -/
def unpin (s : State) (tid : Nat) (n : Word) : State :=
  let dec (e : Epoch) : Epoch := if e.num = n then { e with pins := e.pins - 1 } else e
  checkPrev (updTable s tid (fun t => { t with cur := t.cur.map dec, prev := t.prev.map dec })) tid

/-! ## Publication (R50, R58, R62, R63) -/

/-- Blocks of a fold that hold a row written in the open epoch (R128). -/
def markedLeaves (s : State) (im : Image) (f tid : Nat) (img : Bool) (ver : Nat) : List Nat :=
  (((fold s f).dir.filter (fun (_, e) => e.tid.toNat == tid && e.img == img && e.v && e.ver.toNat == ver)).map
    (fun (_, e) => leafOf im.desc (rowFold im.desc e.row.toNat).2)).eraseDups

/-- First node of a level of a fold's tree in its hash store, leaves first (R128, log entry 133). -/
def levelAt (n j : Nat) : Nat := ((List.range j).map (fun i => (n + 16 ^ i - 1) / 16 ^ i)).sum

/-- The RU's runs on the hash store for a set of leaves: each leaf written, and level by level the children of every
node above read and the node written (R127, R128, R355). -/
def hashRuns (s : State) (im : Image) (f : Nat) (ks : List Nat) : State :=
  let n := leafCount im.desc f
  let at_ (j k : Nat) : Nat := mget 0 im.base f + extBytes im.desc f + 32 * (levelAt n j + k)
  if ks.isEmpty then s
  else (List.range (treeH n + 1)).foldl (fun s j =>
    ((ks.map (· / 16 ^ j)).eraseDups).foldl (fun s k =>
      poolRuns (if j = 0 then s else poolRuns s f (at_ (j - 1) (16 * k)) (32 * min 16 ((n + 16 ^ (j - 1) - 1) / 16 ^ (j - 1) - 16 * k)) false) f (at_ j k) 32 true) s) s

/-- The marked leaves of a fold made again from their rows, which the RU reads (R128, R406). -/
def rehashFold (s : State) (im : Image) (tid : Nat) (img : Bool) (ver f : Nat) : State :=
  let ks := markedLeaves s im f tid img ver
  let s := ((List.range (rowsOn im.desc f)).filter (fun l => ks.contains (leafOf im.desc l))).foldl
    (fun s l => (wcRead s im f tid img (rowAt im.desc f l)).1) (hashRuns s im f ks)
  let ls := ks.foldl (fun (l : List Bytes) k => l.set k (leafDigest s im f tid img k)) (mget [] im.leaves f)
  updTable s tid (fun t => setImg t img ((imgOf t img).map (fun i => { i with leaves := mset [] i.leaves f ls })))

/-- Step 6 of R122: the leaves marked in a table's open epoch are computed again, once all its writes are made;
a staged image's tree was built as its rows landed. -/
def rehash (s : State) (tid : Nat) : State :=
  let t := table s tid
  match t.opened, t.cur.bind (fun e => (imgOf t e.img).map (fun i => (e.img, i))) with
  | some o, some (img, im) =>
    if o.hashed then s
    else
      let s := (dFolds im.desc).foldl (fun s f => rehashFold s im tid img (o.num.toNat % 256) f) s
      updTable s tid (fun t => { t with opened := t.opened.map (fun o => { o with hashed := true }) })
  | _, _ => s

/-- An open record still names an epoch (R378). -/
def named (s : State) (t : BitVec 12 × Word) : Bool := s.dl.records.any (fun r => r.epochs.contains t)

/-- The group holds an epoch of a group table that stops being current on this part alone: on the leader where a record
names it, and on any other part until RELEASE (R378, log entry 154). -/
def groupHolds (s : State) (tid : Nat) (e : Epoch) : Bool :=
  grpOn s && !s.dl.dissolved &&
    (match imgOf (table s tid) e.img with | some im => decide (0 < dScnt im.desc) | none => false) &&
    (!isLeader s || named s (BitVec.ofNat 12 tid, e.num))

/-- A table's staged image or open epoch becomes current with its root and the roots of every slice; through
the barrier, the epoch before it stays held by the group until RELEASE (R378). -/
def publish (s : State) (tid : Nat) (slices : List Bytes) (held : Bool) : State :=
  let s := if (table s tid).staged then s else rehash s tid
  let t := table s tid
  let img := if t.staged then t.stagedIn else (match t.cur with | some e => e.img | none => t.stagedIn)
  match imgOf t img with
  | none => s
  | some im =>
    let root := epochRoot im tid
    let n := buildEpoch t
    let e : Epoch := { num := n, img := img, root := root
                       slices := if slices.isEmpty then [root] else slices, since := s.np.ns
                       rule := match t.opened with | some o => o.rule | none => [] }
    let s := setTable s tid { t with
      prev := t.cur.map (fun c => { c with since := s.np.ns, holds := if held then 1 else 0 })
      cur := some e, opened := none, staged := false
      lastRoots := ((n, root) :: t.lastRoots).take 4 }
    checkPrev s tid

/-- The current epoch of a table ends without a new one; the group may hold it on (R63, R378). A leader releases an
epoch that no record names. -/
def dropTable (s : State) (tid : Nat) : State :=
  let t := table s tid
  let s := match t.cur with
    | some e => if isLeader s && !groupHolds s tid e && (match imgOf t e.img with | some im => decide (0 < dScnt im.desc) | none => false) then
        ((allParts s).filter (fun p => p ≠ myId s)).foldl (fun s p => droveSend s p (.release (BitVec.ofNat 12 tid) e.num)) s
      else s
    | none => s
  checkPrev (setTable s tid { t with
    prev := t.cur.map (fun c => { c with since := s.np.ns, holds := b2n (groupHolds s tid c) }), cur := none, dropped := true }) tid

/-- A table's staged image discarded. -/
def dropStaged (s : State) (tid : Nat) : State :=
  let t := table s tid
  if t.staged then updTable (freeImage s tid t.stagedIn) tid (fun t => { t with staged := false }) else s

/-! ## Requests -/

/-- Contexts bound to a request drain (R89). -/
def drainCtx (s : State) (h : Half) : State :=
  { s with folds := mmap {} (fun x => { x with ctxs := mmap {} (fun y =>
      if y.req = h ∧ y.st ≠ .free then { y with st := .draining } else y) x.ctxs }) s.folds }

/-- A version that nothing references retires, and is counted on the cores that held it (R226). -/
def sweepVersions (s : State) : State :=
  let held (v : Version) : Bool :=
    v.current || s.reqs.any (fun r => r.kind == .launch && !r.done &&
      ((r.gid == v.gid && r.ver == v.num) || r.kind2.any (fun (g, n) => g == v.gid && n == v.num)))
  let gone := s.graphs.filter (fun v => !held v)
  let s := { s with graphs := s.graphs.filter held }
  gone.foldl (fun s v => v.places.foldl (fun s p => cnt s (coreReg p.core aSqCntVerRetired)) s) s

/-- The pins of a request released (R51). -/
def releasePins (s : State) (h : Half) : State :=
  match req s h with
  | none => s
  | some r => r.pins.foldl (fun s (t, n) => unpin s t.toNat n) (updReq s h (fun r => { r with pins := [] }))

/-- What a request holds is released: pins, releases kept on the folds, contexts and versions (R51, R89,
R92, R226). -/
def releaseReq (s : State) (h : Half) : State :=
  match req s h with
  | none => s
  | some r =>
    let s := { drainCtx s h with reqs := s.reqs.filter (fun x => !(x.handle == h)) }
    let s := { s with folds := mmap {} (fun x => { x with rels := x.rels.filter (fun y => !(y.req == h)) }) s.folds }
    sweepVersions (r.pins.foldl (fun s (t, n) => unpin s t.toNat n) s)

end Sys2Proof.Machine
end

