-- ==== Sys2Proof/Machine/FeOps.lean ====
section
/-! DEFINITION. Operations of the front end that its commands share: entry fields, inline payload,
transfers and their pieces, landings, the ending of commands, halting of queues, and failures of queue
pairs (R247, R250, R251, R275, R277, R280, R290, R322, R325, R329, R330). -/

namespace Sys2Proof.Machine

/-! ## The entry (R250, R251) -/

/-- OPCODE. -/
def cOp (c : Cmd) : Nat := fld c.entry 0 1
/-- FENCE_BEFORE. -/
def cFence (c : Cmd) : Bool := bit (fld c.entry 1 1) 1
/-- TALLY. -/
def cTally (c : Cmd) : Bool := bit (fld c.entry 1 1) 2
/-- HIPRIO. -/
def cHiprio (c : Cmd) : Bool := bit (fld c.entry 1 1) 3
/-- An operand of `n` bytes. -/
def cF (c : Cmd) (off n : Nat) : Nat := fld c.entry off n
/-- USER_TAG. -/
def cTag (c : Cmd) : Nat := fld c.entry 8 8

/-- An address operand names inline payload. -/
def isInline (a : Nat) : Bool := bit a 63

/-- Inline payload of `n` bytes named by an address operand, if valid (R251). -/
def inlineData (c : Cmd) (a n : Nat) : Option Bytes :=
  if bits a 62 9 = 0 ∧ bit (fld c.entry 1 1) 0 ∧ a % 512 + n ≤ c.payload.length then
    some ((c.payload.drop (a % 512)).take n) else none

/-- A source address operand is valid (R247, R251). -/
def srcOk (c : Cmd) (a n : Nat) : Bool := if isInline a then (inlineData c a n).isSome else a < 2 ^ 48

/-- A source that may not be inline, or a destination (R247, R251). -/
def plainAddr (a : Nat) : Bool := a < 2 ^ 48

/-! ## Transfers -/

/-- The identity under which a command's transfers are translated. -/
def cmdWho (s : State) (q : Nat) : Who :=
  { q := some q, cid := (queue s q).cid.toNat, secure := (queue s q).world }

/-- A transfer made for a command, with its number. -/
def newXfer (s : State) (kind : XKind) (read : Bool) (q : BitVec 10) (n : Word) (addr left : Nat)
    (data : Bytes) : State × Nat :=
  let qq := queue s q.toNat
  let x := s.fe.nextXfer
  ({ s with fe := { s.fe with
      nextXfer := x + 1
      xfers := s.fe.xfers ++ [{ id := x, kind := kind, read := read, q := q, n := n, cid := qq.cid
                                secure := qq.world, addr := BitVec.ofNat 64 addr, left := left, data := data }] } }, x)

/-- Transfers whose landing a command waits for before it goes on. -/
def feedsCmd (k : XKind) : Bool :=
  match k with
  | .args | .batch | .image | .patch | .desc | .loadSrc | .nonce | .body _ => true
  | _ => false

/-- Data of a command's transfer put where the command finds it; when nothing it waits for is left, its own
command may go on. -/
def giveCmd (s : State) (q : BitVec 10) (n : Word) (kind : XKind) (data : Bytes) : State :=
  let s := updCmd s q.toNat n (fun c =>
    match kind with
    | .desc => { c with bodies := [data] }
    | .body i => { c with bodies := (c.bodies ++ List.replicate (i + 1 - c.bodies.length) []).set i data }
    | _ => { c with data := data })
  if s.fe.xfers.any (fun t => t.q == q && t.n == n && feedsCmd t.kind) then s
  else updCmd s q.toNat n (fun c => if c.phase = .data then { c with phase := .landed } else c)

/-- A command's source read: inline payload is there at once, anything else is a transfer (R251, R268). -/
def fetchSrc (s : State) (c : Cmd) (kind : XKind) (a n : Nat) : State :=
  let s := updCmd s c.q.toNat c.n (fun c => { c with phase := .data })
  match (if isInline a then inlineData c a n else none) with
  | some d => giveCmd s c.q c.n kind d
  | none => (newXfer s kind true c.q c.n a n []).1

/-- A write made for a command. -/
def sendDst (s : State) (c : Cmd) (kind : XKind) (a : Nat) (data : Bytes) : State :=
  (newXfer s kind false c.q c.n a data.length data).1

/-! ## Ending commands -/

/-- A command ends: its status is decided and its completion may be posted; on a queue that is gone it is
dropped without one; a group request that ends before it is admitted tells the other members (R259, R275, R307,
R383). -/
def finish (s : State) (q : Nat) (n : Word) (st : Status) : State :=
  match cmd s q n with
  | none => s
  | some c =>
    let s := match c.phase, c.asked with
      | .admission, some k => (c.gotPin.getD []).foldl (fun s (t, n) => unpin s t.toNat n) (toMembers s (.abandon k))
      | _, _ => s
    if c.silent then
      dropCmd (if c.handle = 0 then s else releaseReq s c.handle) q n
    else
      let s := if c.handle ≠ 0 ∧ (st = stAborted ∨ st = stTimeout ∨ st = stUnitReset) then releasePins s c.handle else s
      let e := s.fe.nextEnd
      let s := { s with fe := { s.fe with nextEnd := e + 1 } }
      updCmd s q n (fun c => if c.phase = .ended then c else { c with phase := .ended, status := st, endNo := e })

/-- The queue pair number that marks a piece of local memory. -/
def localPiece : BitVec 13 := 8191

/-- READs that a transfer has out on queue pairs. -/
def readsOut (t : Xfer) : List (Nat × BitVec 13) :=
  if t.read && t.kind != .peer then (t.pieces.filter (· != localPiece)).map (fun p => (t.id, p)) else []

/-- Transfers that a test names are dropped: data still to land is discarded, and nothing more is sent for them; their
READs stay under way until they are answered (R268, R280, R328). -/
def dropWhere (s : State) (p : Xfer → Bool) : State :=
  { s with fe := { s.fe with xfers := s.fe.xfers.filter (fun t => !p t)
                             lost := s.fe.lost ++ (s.fe.xfers.filter p).flatMap readsOut } }

/-- The command's transfers are dropped. -/
def dropXfers (s : State) (q : Nat) (n : Word) : State :=
  dropWhere s (fun t => t.q.toNat == q && t.n == n && t.kind != .ring && t.kind != .completion)

/-- What an UPDATE has logged before its commit point is discarded (R123). -/
def dropUpdate (s : State) (h : Half) : State :=
  { s with folds := mmap {} (fun x => { x with
      journal := x.journal.filter (fun j => j.mir || j.handle != h)
      deltas := x.deltas.filter (fun d => d.mir || d.upd != some h) }) s.folds }

/-- DISCARD to the mirror for a streamed UPDATE that ends before its commit point; its status waits until the DISCARD's
flits are acknowledged, and one that is lost for want of a route is never (R391). -/
def discardUpd (s : State) (c : Cmd) : State :=
  if s.dl.mirrored.any (fun m => m.upd == c.handle) then
    let s := { s with dl := { s.dl with mirrored := s.dl.mirrored.filter (fun m => m.upd ≠ c.handle) } }
    if s.dl.silent then s
    else
      let s := droveSend s s.dl.partner.toNat (.discard c.handle)
      let k := if reaches s s.dl.partner.toNat then orderedOut s s.dl.partner else 2 ^ 32
      { s with dl := { s.dl with discards := (s.dl.discards ++ [(c.q, c.n, k)]).filter (fun (_, _, j) => j ≠ 0) } }
  else s

/-- A command's status waits for the acknowledgement of its DISCARD, unless the mirror is silent (R391). -/
def awaitsDiscard (s : State) (c : Cmd) : Bool :=
  !s.dl.silent && s.dl.discards.any (fun (q, n, _) => q == c.q && n == c.n)

/-- A command that completes as if not aborted: GRAPH_RETIRE, FENCE, NOP and the admin commands (R280). -/
def unaborted (c : Cmd) : Bool := 9 ≤ cOp c

/-- A request is to end with a status; the first such cause stands (R181, R408). -/
def wantEnd (s : State) (h : Half) (st : Status) : State :=
  updReq s h (fun r =>
    let exc := (cslot (core s r.core) r.slot).endExc
    { r with endSt := match r.endSt with
        | some e => some e
        | none => if r.kind = .launch ∧ exc ≠ 0 then some exc else some st })

/-- A command has result writes that are not all sent and acknowledged. -/
def unsent (s : State) (q : Nat) (n : Word) : Bool :=
  s.fe.xfers.any (fun t => t.q.toNat == q && t.n == n && !t.read && t.kind != .completion)

/-- A command whose results are void when it ends before its completion is posted (R280): LAUNCH, LOOKUP and
TABLE_EXPORT. -/
def voidable (c : Cmd) : Bool := cOp c == 1 || cOp c == 2 || cOp c == 6

/-- A command that has ended well, so that an ABORT or a timeout may still end it: its completion is not posted. -/
def stillAborts (c : Cmd) : Bool := c.phase == .ended && (c.status == 0 || c.status == stMisaligned) && voidable c

/-- A command ends before it completed, with the outcome of the ABORT table (R278, R280, R290, R330); one that
has done its work but whose completion is not posted has not completed where its results are then void (R24, R280), or
where a result write of it fails. -/
def abortCmd (s : State) (q : Nat) (n : Word) (st : Status) : State :=
  match cmd s q n with
  | none => s
  | some c =>
    if c.phase = .ended then
      (if stillAborts c ∨ ((c.status = 0 ∨ c.status = stMisaligned) ∧ unsent s q n) then updCmd (dropXfers s q n) q n (fun c => { c with status := st, tally8 := [] }) else s)
    else if c.phase = .running ∧ cOp c = 1 then
      let s := wantEnd s c.handle st
      match req s c.handle with
      | some r =>
        if r.replay = 1 then
          finish (dropXfers (updReq s c.handle (fun r => { r with replay := 3, done := true })) q n) q n st
        else s
      | none => s
    else if c.phase = .running ∧ cOp c = 2 then
      finish (drainCtx (dropXfers s q n) c.handle) q n st
    else if c.committed then s
    else
      let s := if cOp c = 3 ∧ c.handle ≠ 0 then discardUpd (dropUpdate s c.handle) c else s
      let s := if c.begun then dropStaged s (cF c 18 2) else s
      let s := { s with checking := s.checking.filter (fun (_, q', n') => !(q'.toNat == q && n' == n))
                        dl := { s.dl with steps := s.dl.steps.filter (fun t => !(t.q.toNat == q && t.n == n)) } }
      finish (dropXfers s q n) q n st

/-- A command ended by an ABORT, a timeout, or the end of its queue (R278, R280). -/
def abortOne (s : State) (q : Nat) (n : Word) (st : Status) : State :=
  match cmd s q n with
  | some c => if unaborted c then s else abortCmd s q n st
  | none => s

/-- A command that ends with no completion, its queue being gone. -/
def silence (s : State) (q : Nat) (n : Word) : State := updCmd s q n (fun c => { c with silent := true })

/-- A queue's fetch stops: outstanding ring READs and fetched slots are discarded (R259). -/
def stopFetch (s : State) (q : Nat) : State :=
  let s := dropWhere s (fun t => t.q.toNat == q && t.kind == .ring)
  updQueue s q (fun u => { u with reads := [], got := [] })

/-- A queue moves to HALTED with a status (R259). -/
def haltQueue (s : State) (q : Nat) (st : Status) : State :=
  let u := queue s q
  if u.st = .disabled then s
  else
    let s := updQueue (stopFetch s q) q (fun u => { u with st := .halted, haltStatus := st })
    if u.st = .halted then s else cnt s aFeCntHalt

/-- A completion that concerns no dispatched command: the entry number given, USER_TAG 0, no times (R262). -/
def postBare (s : State) (q : Nat) (n : Word) (st : Status) : State :=
  let e := s.fe.nextEnd
  { s with fe := { s.fe with
      nextEnd := e + 1
      cmds := s.fe.cmds ++ [{ q := BitVec.ofNat 10 q, n := n, entry := List.replicate 64 0, payload := []
                              phase := .ended, status := st, timed := true, endNo := e }] } }

/-! ## Request handles -/

/-- A request handle that no request holds (log entry 6). -/
def findHandle (s : State) : Nat → Half → Half
  | 0, h => h
  | k + 1, h => if h = 0 ∨ (req s h).isSome ∨ s.fe.cmds.any (fun c => c.handle == h) then findHandle s k (h + 1) else h

/-- A new request handle. -/
def takeHandle (s : State) : Half × State :=
  let h := findHandle s 65536 s.nextHandle
  (h, { s with nextHandle := h + 1 })

/-! ## Pieces -/

/-- Bytes of the next piece of a transfer (R322). -/
def pieceLen (t : Xfer) : Nat := min t.left (4096 - t.addr.toNat % 4096)

/-- The MACs that carry the READs which a transfer has out are up, so that they can be answered (R283). -/
def piecesUp (s : State) (t : Xfer) : Bool :=
  t.pieces.all (fun p => p == localPiece || linkOn s (qpMac s p.toNat))

/-- Packets in which the READs that a transfer has out are answered: of `left` bytes from address `a`, one for each path
MTU begun in a piece (R289, R309). -/
def answerPkts (s : State) (a left : Nat) : List (BitVec 13) → Nat
  | [] => 0
  | p :: ps =>
    let n := min left (4096 - a % 4096)
    (if p = localPiece then 0 else pkts s p.toNat n) + answerPkts s (a + n) (left - n) ps

/-- The READs a transfer has out are answered: their packets are counted, and as every acknowledgement does it starts the
retries of their queue pairs again; no sync point waits for them longer (R289, R328). -/
def readAnswered (s : State) (t : Xfer) : State :=
  let l := t.pieces.filter (· != localPiece)
  let s := { s with xl := { s.xl with syncs := s.xl.syncs.map (fun (n, xs) => (n, xs.filter (fun (x, _) => x ≠ t.id))) } }
  l.foldl (fun s p => updQp s p.toNat (fun x => { x with retries := 0, rnr := 0 }))
    (if l.isEmpty then s else cntN s aNpCntRxPkt 0 (answerPkts s (t.addr.toNat - t.data.length) t.data.length t.pieces))

/-- A transfer fails: a ring READ or a completion write halts its queue, anything else ends its command; a ring READ
that faults posts its status, one whose queue pair fails posts nothing (R259, R277, R290, R330). -/
def failXfer (s : State) (t : Xfer) (st : Status) : State :=
  match t.kind with
  | .ring =>
    let c := (queue s t.q.toNat).c
    let s := haltQueue (dropWhere s (fun u => u.id == t.id)) t.q.toNat st
    if st = stXlatFault then postBare s t.q.toNat c st else s
  | .completion =>
    let s := haltQueue (dropXfer s t.id) t.q.toNat st
    if st = stPeer then cnt s aNpCntCplLost else s
  | .peer => dropXfer s t.id
  | _ => dropWhere (abortCmd s t.q.toNat t.n st) (fun u => u.id == t.id)

/-- SOURCE of a fault-queue record (R335). -/
def xSource (t : Xfer) : Nat :=
  match t.kind with
  | .ring => 1
  | .result _ _ | .tally _ | .stats | .evidence => 3
  | .completion => 4
  | .desc | .loadSrc => 5
  | .exportRow => 6
  | .peer => if t.read then 7 else 8
  | _ => 2

/-- A piece faults: it is counted and recorded, and its transfer ends (R330). -/
def xlatFault (s : State) (t : Xfer) (cause level : Nat) : State :=
  let s := fqWrite (cnt s aXlCntFault)
    { status := stXlatFault.toNat, kind := 1, cause := cause, level := level, source := xSource t
      cid := t.cid.toNat, secure := t.secure, addr := t.addr.toNat, who := t.q.toNat, entry := t.n.toNat }
  failXfer s t stXlatFault

/-- A piece of a transfer is on its way or done: the transfer moves on. -/
def stepXfer (s : State) (t : Xfer) (n : Nat) (on : BitVec 13) (got : Bytes) : State :=
  updXfer s t.id (fun t => { t with
    addr := t.addr + BitVec.ofNat 64 n, left := t.left - n, held := none
    data := if t.read then t.data ++ got else t.data.drop n
    pieces := if t.read || on != localPiece then t.pieces ++ [on] else t.pieces })

/-- A write transfer with nothing left to send and nothing unacknowledged is over. -/
def closeXfer (s : State) (x : Nat) : State :=
  match xfer s x with
  | some t => if !t.read ∧ t.left = 0 ∧ t.pieces = [] then dropXfer s x else s
  | none => s

/-- The immediate of R308. -/
def notifyImm (t : Xfer) : Word := BitVec.ofNat 32 (t.q.toNat * 2 ^ 22 + t.n.toNat % 2 ^ 22)

/-- The result segment or area that a write belongs to, with its number. -/
def segOf (t : Xfer) : Option (Half × Nat) :=
  match t.kind with | .result h g => some (h, g) | .tally h => some (h, 0) | _ => none

/-- First addresses of the pieces of `n` bytes from an address (R322). -/
def pieceAddrs (a n : Nat) : List Nat :=
  if n = 0 then [] else (List.range ((a + n - 1) / 4096 - a / 4096 + 1)).map (fun k => max a ((a / 4096 + k) * 4096))

/-- An access of a queue's identity goes on a queue pair. -/
def goesOn (s : State) (w : Who) (a i : Nat) (read : Bool) : Bool :=
  match xlat s w a read false with
  | .remote j _ _ => i == j
  | _ => false

/-- The identity under which a transfer is translated; a peer's commands no queue. -/
def xWho (t : Xfer) : Who :=
  { q := if t.kind = .peer then none else some t.q.toNat, cid := t.cid.toNat, secure := t.secure }

/-- The last write of a result segment or area on a NOTIFY queue pair carries the immediate (R308): the
command has ended and no later piece of the segment goes on that queue pair. -/
def lastWrite (s : State) (t : Xfer) (i : Nat) : Bool :=
  match segOf t with
  | none => false
  | some g =>
    qpRole s i == 2 && rb s aNpQpCfg i 18 &&
      !(((pieceAddrs t.addr.toNat t.left).drop 1).any (fun a => goesOn s (xWho t) a i false)) &&
      !(s.fe.xfers.any (fun u => t.id < u.id && segOf u == some g &&
        (pieceAddrs u.addr.toNat u.left).any (fun a => goesOn s (xWho u) a i false)))

/-- A held last write: on a NOTIFY queue pair the last write of a segment is known only when the command
has ended. -/
def holdLast (s : State) (t : Xfer) (i : Nat) : Bool :=
  lastWrite s t i && (match cmd s t.q.toNat t.n with | some c => c.phase != .ended | none => false)

/-- The next piece of a transfer, translated: sent on its queue pair, made in local memory, held in a WAIT
context at check 3, 4 or 7, or faulted (R322, R325, R326, R329, R330). -/
def issuePiece (s : State) (t : Xfer) (rewalk : Bool) : State :=
  let w := xWho t
  let va := t.addr.toNat
  let n := pieceLen t
  match xlat s w va t.read rewalk with
  | .fault c l wait =>
    let s := xlatNote s w va rewalk
    if wait then updXfer s t.id (fun t => { t with held := some (BitVec.ofNat 8 (c + 16 * l)) })
    else xlatFault s t c l
  | .remote i rkey ra =>
    let imm := if lastWrite s t i then some (notifyImm t) else none
    let s := xlatDone s w va rewalk (xSource t) t.q.toNat t.n.toNat
    if !qpRts s i then failXfer s t stPeer
    else
      let qi := BitVec.ofNat 13 i
      if t.read then
        stepXfer (sendReq s i (pkts s i n) (.readReq qi (BitVec.ofNat 32 rkey) (BitVec.ofNat 64 ra) n t.id))
          t n qi (List.replicate n 0)
      else
        stepXfer (sendOn s i t.id false (.write qi (BitVec.ofNat 32 rkey) (BitVec.ofNat 64 ra) (t.data.take n) imm))
          t n qi []
  | .loc f a =>
    let s := xlatDone s w va rewalk (xSource t) t.q.toNat t.n.toNat
    if t.read then
      let r := fmRead s 15 f a n
      let s := if r.2.2 then updXfer r.1 t.id (fun t => { t with
        marks := t.marks ++ (secMarks (fold r.1 f) a n).map (fun k => { k with off := t.data.length + k.off }) }) else r.1
      stepXfer s t n localPiece r.2.1
    else closeXfer (stepXfer (fmWrite s 15 f a (t.data.take n)) t n localPiece []) t.id

/-! ## Landing -/

/-- The whole data of a READ: bytes of local pieces as read, bytes of remote pieces as they landed. -/
def mergeData (start : Nat) : List (BitVec 13) → Bytes → Bytes → Bytes
  | [], _, _ => []
  | p :: ps, loc, rem =>
    let n := min loc.length (4096 - start % 4096)
    (if p = localPiece then loc.take n else slice rem 0 n) ++ mergeData (start + n) ps (loc.drop n) (rem.drop n)

/-! ## Queue pair failures (R290) -/

/-- Queues whose ring or completion queue a queue pair carries, in any page of them. -/
def carried (s : State) (i : Nat) : List Nat :=
  (s.fe.queues.filter (fun (q, u) => u.st != .disabled &&
    ((pieceAddrs u.ring.toNat (64 * 2 ^ u.log2)).any (fun a => goesOn s (cmdWho s q) a i true) ||
      (pieceAddrs u.cq.toNat (32 * 2 ^ u.log2)).any (fun a => goesOn s (cmdWho s q) a i false)))).map (·.1)

/-- A queue pair leaves RTS: transfers with a piece on it fail, fault-queue records that it has not had acknowledged
are lost, what a pause holds for it is dropped, and the queues it carries halt (R290, R336). -/
def qpDown (s : State) (i : Nat) : State :=
  let qs := carried s i
  let ts := s.fe.xfers.filter (fun t => t.pieces.any (fun p => p.toNat == i))
  let s := cntN s aXlCntFqLost 0 ((qp s i).out.filter (·.fq)).length
  let s := updQp { s with np := { s.np with heldTx := s.np.heldTx.filter (fun h => h.qp ≠ i) } } i (fun p => { p with out := [] })
  let s := ts.foldl (fun s t => match xfer s t.id with | some t => failXfer s t stPeer | none => s) s
  let s := { s with fe := { s.fe with lost := s.fe.lost.filter (fun r => r.2.toNat ≠ i) } }
  qs.foldl (fun s q => haltQueue s q stPeer) s

/-- A queue pair enters ERROR with a cause (R289, R290). -/
def qpError (s : State) (i cause : Nat) : State :=
  let s := cnt (updQp s i (fun p => { p with st := .error, cause := BitVec.ofNat 8 cause })) aNpCntQpErr
  qpDown s i

end Sys2Proof.Machine
end

