-- ==== Sys2Proof/Machine/RegOps.lean ====
section
/-! DEFINITION. Requesters of configuration accesses, their selector copies and latches (R13, R509). -/

namespace Sys2Proof.Machine

/-- Number of a requester. -/
def whoCode (w : Requester) : Nat :=
  match w with
  | .ownerQp i => i.toNat
  | .mgmt => 4096
  | .jtag => 4097
  | .pcFw => 4098

/-- Key of a requester's copy of an address. -/
def whoKey (w : Requester) (a : Nat) : Nat := whoCode w * 2 ^ 32 + a

/-- A requester's copy of a selector (R509). -/
def selOf (s : State) (w : Requester) (a : Nat) : Nat := (mget (regReset a) s.sels (whoKey w a)).toNat

/-- A requester's copy of a selector set. -/
def setSel (s : State) (w : Requester) (a v : Nat) : State :=
  { s with sels := mset (regReset a) s.sels (whoKey w a) (BitVec.ofNat 32 v) }

/-- A high half latched for a requester (R13). -/
def latchOf (s : State) (w : Requester) (a : Nat) : Option Word := mget none s.latches (whoKey w a)

/-- A high half latched or taken. The latch is one per requester and address: a change of the selector between the two
reads does not drop it (DESIGN CHOICE, log entry 177). -/
def setLatch (s : State) (w : Requester) (a : Nat) (v : Option Word) : State :=
  { s with latches := mset none s.latches (whoKey w a) v }

/-! ## Who may access configuration space (R292, R303, R420, R428, R444, R456) -/

/-- An access can come from its requester and has the world that the requester has: the management queue pair
and the Owner queue pairs in RTS and the PC firmware are secure, and JTAG has the world of its level. -/
def mayAccess (s : State) (a : Acc) : Bool :=
  !closed s && !heldInReset s &&
    (match a.who with
      | .mgmt => a.secure && qpRts s 4096
      | .ownerQp i => a.secure && qpRts s i.toNat && qpRole s i.toNat == 3
      | .pcFw => a.secure
      | .jtag => if s.pc.dbgLevel = 3 then a.secure else s.pc.dbgLevel == 2 && !a.secure)

/-- An access made if it can come. -/
def acc1 (s : State) (a : Acc) (g : State → State) : State := if mayAccess s a then g s else s

/-! ## Selected instances (R399, R309) -/

/-- The instance that a requester's selector names, as the field maps bound it. -/
def selIx (s : State) (w : Requester) (sel : Nat) : Nat :=
  let v := selOf s w sel
  if sel = aDlLinkSel then v % 32
  else if sel = aNpMacSel then min 8 (v % 16)
  else if sel = aNpQpSel then min 4096 v
  else if sel = aIgUnitSel then min 9 (v % 16)
  else if sel = aXlCtxSel ∨ sel = aXlTgtSel ∨ sel = aXlMwSel ∨ sel = aXlRwinSel then v % 4096
  else if sel = aXlTblSel then v % 8192
  else v % 16384

/-- An access that only the secure world makes: from the non-secure world it is ignored and recorded (R14). -/
def secureOnly (s : State) (a : Acc) (block inst addr : Nat) (g : State → State) : State :=
  if a.secure then g s else worldViolation s block inst addr a.who

end Sys2Proof.Machine
end

