-- ==== Sys2Proof/Machine/FeRings.lean ====
section
/-! DEFINITION. Rings: doorbells and their latch, the fetch engine, the parse of landed slots, the checks of
an entry's header, and stale tags (R246, R248, R252 to R262). -/

namespace Sys2Proof.Machine

/-- Slots of a queue's ring. -/
def ringN (u : Queue) : Nat := 2 ^ u.log2

/-- Commands of a queue whose completion is not posted. -/
def outst (s : State) (q : Nat) : Nat := (s.fe.cmds.filter (fun c => c.q.toNat == q)).length

/-- The limits of R258 leave room for another READ. -/
def roomFor (s : State) (q : Nat) : Bool := outst s q < 64 && s.fe.cmds.length < 4096

/-- One ring READ issued from F (R258). -/
def readOne (s : State) (q : Nat) : State :=
  let u := queue s q
  if u.st ≠ .active ∨ u.f = u.l ∨ 4 ≤ u.reads.length ∨ !roomFor s q then s
  else
    let n := ringN u
    let k := min 16 (min (u.l - u.f).toNat (n - u.f.toNat % n))
    let r := newXfer s .ring true (BitVec.ofNat 10 q) u.f (u.ring.toNat + 64 * (u.f.toNat % n)) (64 * k) []
    updQueue r.1 q (fun u =>
      let f := u.f + BitVec.ofNat 32 k
      { u with f := f, reads := u.reads ++ [{ first := u.f, slots := k, xfer := r.2 }]
               st := if f = u.l then .draining else u.st })

/-- Ring READs issued while the queue is ACTIVE, up to 4 outstanding (R258, R259). -/
def fetchRing (s : State) (q : Nat) : State :=
  let s := readOne (readOne (readOne (readOne s q) q) q) q
  updQueue s q (fun u => { u with st := if u.st = .active ∧ u.f = u.l ∧ u.reads ≠ [] then .draining else u.st })

/-! ## Doorbells (R254 to R257) -/

/-- A doorbell value judged against C and L (R257, R259). -/
def judgeDb (s : State) (q v : Nat) : State :=
  let u := queue s q
  if u.st = .halted then cnt s aFeCntDbOld
  else
    let d := tc 16 ((v : Int) - u.c.toNat)
    if ringN u < d then cnt (updQueue s q (fun u => { u with dbRange := true })) aFeCntDbBad
    else if (u.l - u.c).toNat < d then
      let s := updQueue s q (fun u =>
        { u with l := u.c + BitVec.ofNat 32 d
                 st := if u.st = .idle ∨ u.st = .draining then .active else u.st })
      fetchRing (cnt s aFeCntDb) q
    else cnt s aFeCntDbOld

/-- A doorbell passes the checks of R256 that its value and queue make. -/
def dbOk (s : State) (v : Nat) : Bool :=
  let q := v % 1024
  let u := queue s q
  bits v 31 26 == 0 && u.st != .disabled && bits v 63 32 == u.key.toNat

/-! ## Parsing (R252, R253, R258 to R262) -/

/-- Steps 1 to 3 of R252 on an entry's first slot. -/
def headerCheck (q : Nat) (b : Bytes) : Status :=
  let op := fld b 0 1
  let fl := fld b 1 1
  let sl := fld b 2 2
  let op1 := 1 ≤ op && op ≤ 11
  let adm := 16 ≤ op && op ≤ 24
  if !(op1 || (adm && q == 0)) then stBadOpcode
  else if bits fl 7 4 ≠ 0 ∨ fld b 6 2 ≠ 0 ∨ (bit fl 2 ∧ 2 < op) ∨ (bit fl 3 ∧ op ≠ 1) ∨ (bit fl 1 ∧ op = 16) then
    stBadField
  else if bit fl 0 = decide (sl = 1) then stBadLength
  else 0

/-- The pieces under way: those of live transfers, those of dropped transfers that are not acknowledged, and the READs
of dropped transfers that are not answered. -/
def piecesOut (s : State) : List (Nat × List (BitVec 13)) :=
  ((s.fe.xfers.filter (fun t => t.kind != .peer)).map (fun t => (t.id, t.pieces.filter (· != localPiece)))).filter (fun e => !e.2.isEmpty) ++
    s.np.qps.flatMap (fun (i, p) =>
      (p.out.filter (fun o => !o.fq && (xfer s o.x).isNone)).map (fun o => (o.x, [BitVec.ofNat 13 i]))) ++
    s.fe.lost.map (fun (x, i) => (x, [i]))

/-- The sync point of a FENCE: the translation cache is emptied, and the pieces under way are noted; one is taken for
an entry (R328). -/
def syncPoint (s : State) (n : Word) : State :=
  if s.xl.syncs.any (fun e => e.1 == n) then s
  else { s with xl := { s.xl with cache := [], syncs := s.xl.syncs ++ [(n, piecesOut s)] } }

/-- An entry is a FENCE of queue 0 with XL_SYNC. -/
def isSync (q : Nat) (e : Bytes) : Bool := q == 0 && fld e 0 1 == 10 && bit (fld e 16 1) 0

/-- An entry taken: its command goes to dispatch, or is refused by its header; with its tag matched, a FENCE with
XL_SYNC takes its sync point (R252, R258, R328). -/
def takeEntry (s : State) (q : Nat) (c : Word) (sl : Nat) (bs : Bytes) : State :=
  let e := bs.take 64
  let st := headerCheck q e
  let s := updQueue s q (fun u => { u with c := u.c + BitVec.ofNat 32 sl, retry := 0
                                           got := u.got.filter (fun (i, _) => !((i - c).toNat < sl)) })
  let s := { s with fe := { s.fe with cmds := s.fe.cmds ++
    [{ q := BitVec.ofNat 10 q, n := c, entry := e, payload := bs.drop 64, tagNs := s.np.ns }] } }
  if st = 0 then (if isSync q e then syncPoint s c else s) else finish (cnt s aFeCntReject) q c st

/-- A slot as landed. -/
def slotAt (u : Queue) (i : Word) : Option Bytes := (u.got.find? (fun (j, _) => j == i)).map (·.2)

/-- A stale tag at C (R259, R262): the slots fetched are discarded, and the queue backs off, or gives up. -/
def staleTag (s : State) (q : Nat) : State :=
  let u := queue s q
  let s := updQueue (stopFetch s q) q (fun u => { u with f := u.c })
  if u.retry = rf s aFeStaleRetries 0 7 0 then
    haltQueue (postBare s q u.c stRingStale) q stRingStale
  else updQueue s q (fun u => { u with retry := u.retry + 1, st := .backoff })

/-- An entry that cannot be framed (R253): ST_BAD_LENGTH is posted for it and the queue halts. -/
def badFrame (s : State) (q : Nat) (b : Bytes) : State :=
  let u := queue s q
  let e := s.fe.nextEnd
  let s := { s with fe := { s.fe with
    nextEnd := e + 1
    cmds := s.fe.cmds ++ [{ q := BitVec.ofNat 10 q, n := u.c, entry := b, payload := [], phase := .ended
                            status := stBadLength, tagNs := s.np.ns, endNo := e }] } }
  haltQueue s q stBadLength

/-- Landed slots parsed in ascending order, at most `k` entries. -/
def parse : Nat → State → Nat → State
  | 0, s, _ => s
  | k + 1, s, q =>
    let u := queue s q
    if (u.st ≠ .active ∧ u.st ≠ .draining) ∨ 64 ≤ outst s q ∨ 4096 ≤ s.fe.cmds.length then s
    else match slotAt u u.c with
      | none => s
      | some b =>
        let sl := fld b 2 2
        let n := ringN u
        if fld b 4 2 ≠ u.c.toNat % 65536 then staleTag s q
        else if sl = 0 ∨ 8 < sl ∨ n < u.c.toNat % n + sl then badFrame s q b
        else
          let bs := (List.range sl).map (fun i => slotAt u (u.c + BitVec.ofNat 32 i))
          if bs.all (·.isSome) then parse k (takeEntry s q u.c sl (bs.flatMap (fun o => o.getD []))) q
          else if u.reads = [] ∧ (u.l - u.c).toNat < sl then
            updQueue s q (fun u => { u with f := u.c, got := [], st := .idle })
          else s

/-- The decision on a queue after a parse (R259): with no READ outstanding it goes idle when C = L, or is
ACTIVE again, as it stays at the limits of R258, and while ACTIVE it issues READs. -/
def decide1 (s : State) (q : Nat) : State :=
  let s := updQueue s q (fun u =>
    if (u.st = .draining ∨ u.st = .active) ∧ u.reads = [] ∧ u.f = u.l then
      (if u.c = u.l then { u with st := .idle } else { u with st := .active, f := if u.got = [] then u.c else u.f })
    else u)
  fetchRing s q

/-- Landed slots parsed and the queue's state decided. -/
def pump (s : State) (q : Nat) : State := decide1 (parse 65 s q) q

/-- Every queue that is fetching goes on where the limits of R258 held it. -/
def resume (s : State) : State :=
  ((s.fe.queues.filter (fun (_, u) => u.st == .active || u.st == .draining)).map (·.1)).foldl pump s

/-- RING_READ_LANDS: the oldest outstanding ring READ lands; its slots are parsed (R258 to R262). -/
def execRingReadLands (q : BitVec 10) (slots : List Bytes) (s : State) : Out :=
  .next (let u := queue s q.toNat
    match u.reads with
    | [] => s
    | r :: rs =>
      match xfer s r.xfer with
      | none => s
      | some t =>
        if t.left ≠ 0 ∨ !piecesUp s t ∨ slots.length ≠ r.slots ∨ (u.st ≠ .active ∧ u.st ≠ .draining) then s
        else
          let d := mergeData (t.addr.toNat - t.data.length) t.pieces t.data (slots.flatMap (fun b => slice b 0 64))
          let s := dropXfer s t.id
          let s := updQueue s q.toNat (fun u => { u with
            reads := rs
            got := u.got ++ (List.range r.slots).map (fun i => (r.first + BitVec.ofNat 32 i, slice d (64 * i) 64)) })
          pump (readAnswered s t) q.toNat)

/-- STALE_BACKOFF_EXPIRE: the queue refetches from C (R259, R262). -/
def execStaleBackoffExpire (q : BitVec 10) (s : State) : Out :=
  .next (let u := queue s q.toNat
    if u.st ≠ .backoff then s
    else fetchRing (cnt (updQueue s q.toNat (fun u => { u with st := .active, f := u.c })) aFeCntStale) q.toNat)

/-! ## Queue 0 (R246, R255, R282) -/

/-- FE_Q0_DB_LO: the low half held for its requester; ignored from the non-secure world, and a write from
JTAG is discarded (R255). -/
def wrFeQ0DbLo (s : State) (a : Acc) (v : Word) : State :=
  if !a.secure ∨ a.who = .jtag then s
    else { s with fe := { s.fe with dbLo := mset none s.fe.dbLo (whoCode a.who) (some v) } }

/-- FE_Q0_DB_LO: the access made. -/
def execFeQ0DbLo (a : Acc) (v : Word) (s : State) : Out := .next (acc1 s a (fun s => wrFeQ0DbLo s a v))

/-- FE_Q0_DB_HI: joins the held low half and submits the doorbell (R255, R256, R257). -/
def wrFeQ0DbHi (s : State) (a : Acc) (v : Word) : State :=
  if !a.secure ∨ a.who = .jtag then s
    else match mget none s.fe.dbLo (whoCode a.who) with
      | none => cnt s aFeCntDbBad
      | some lo =>
        let s := { s with fe := { s.fe with dbLo := mset none s.fe.dbLo (whoCode a.who) none } }
        let d := lo.toNat + 2 ^ 32 * v.toNat
        if d % 1024 ≠ 0 ∨ !dbOk s d then cnt s aFeCntDbBad else judgeDb s 0 (bits d 25 10)

/-- FE_Q0_DB_HI: the access made. -/
def execFeQ0DbHi (a : Acc) (v : Word) (s : State) : Out := .next (acc1 s a (fun s => wrFeQ0DbHi s a v))

/-- LOG2_SLOTS of a field: 6 to 15, others act as 6 (R282). -/
def log2Of (v : Nat) : Nat := if 6 ≤ v ∧ v ≤ 15 then v else 6

/-- FE_Q_ENABLE: queue 0 is created from its FE_Q fields (R246, R259, R282). Base addresses with nonzero low 12 bits are
used as written (DESIGN CHOICE, log entry 176). -/
def wrFeQEnable (s : State) (a : Acc) (v : Word) : State :=
  secureOnly s a blkFE 0 aFeQCtl (fun s =>
    if !bit v.toNat 0 ∨ selOf s a.who aFeQSel ≠ 0 ∨ (queue s 0).st ≠ .disabled then s
    else
      let cfg := rv s aFeQCfg 0
      setQueue s 0
        { st := .idle, ring := BitVec.ofNat 64 (rv64 s aFeQRingLo 0), cq := BitVec.ofNat 64 (rv64 s aFeQCqLo 0)
          log2 := log2Of (bits cfg 3 0), cid := BitVec.ofNat 12 (bits cfg 19 8), world := bit cfg 20
          part := BitVec.ofNat 4 (bits cfg 7 4), key := (queue s 0).key, session := 0
          timeout := (queue s 0).timeout, dbRange := (queue s 0).dbRange })

/-- FE_Q_ENABLE: the access made. -/
def execFeQEnable (a : Acc) (v : Word) (s : State) : Out := .next (acc1 s a (fun s => wrFeQEnable s a v))

/-- FE_Q_KEY0: queue 0's key, while it is DISABLED (R282). -/
def wrFeQKey0 (s : State) (a : Acc) (v : Word) : State :=
  if a.secure ∧ (queue s 0).st = .disabled then updQueue s 0 (fun u => { u with key := v }) else s

/-- FE_Q_KEY0: the access made. -/
def execFeQKey0 (a : Acc) (v : Word) (s : State) : Out := .next (acc1 s a (fun s => wrFeQKey0 s a v))

end Sys2Proof.Machine
end

