-- ==== Sys2Proof/Machine/Gx.lean ====
section
/-! DEFINITION. The gather engine of a fold: lookup programs, their checks and prefetch rules, row reads,
pooling, slices, and the fold's own placement events (R68 to R97, R42 to R45, R55, R65, R426). -/

namespace Sys2Proof.Machine

/-! ## The descriptor (R70, R71) -/

/-- POOL. -/
def pPool (d : Bytes) : Nat := fld d 1 1 % 4
/-- OUTF. -/
def pOutf (d : Bytes) : Nat := bits (fld d 1 1) 2 2
/-- LAYOUT. -/
def pLayout (d : Bytes) : Bool := bit (fld d 1 1) 3
/-- OOB. -/
def pOob (d : Bytes) : Bool := bit (fld d 1 1) 4
/-- DEP. -/
def pDep (d : Bytes) : Bool := bit (fld d 1 1) 5
/-- TID. -/
def pTid (d : Bytes) : Nat := fld d 2 2 % 4096
/-- TILE. -/
def pTile (d : Bytes) : Nat := fld d 4 2
/-- PF_MODE. -/
def pMode (d : Bytes) : Nat := fld d 6 1 % 4
/-- PF_DEPTH. -/
def pDepth (d : Bytes) : Nat := bits (fld d 6 1) 7 4
/-- GEN. -/
def pGen (d : Bytes) : Nat := fld d 7 1
/-- BAGS. -/
def pBags (d : Bytes) : Nat := fld d 8 2
/-- FIXED_K. -/
def pK (d : Bytes) : Nat := fld d 10 2
/-- NIDX. -/
def pNidx (d : Bytes) : Nat := fld d 12 4
/-- DEST. -/
def pDest (d : Bytes) : Nat := fld d 16 4
/-- STRIDE. -/
def pStride (d : Bytes) : Nat := fld d 20 4
/-- REQ. -/
def pReq (d : Bytes) : Half := BitVec.ofNat 16 (fld d 26 2)
/-- DSEL. -/
def pDsel (d : Bytes) : Nat := fld d 29 1 % 4

/-- Bytes of one slice (R96). -/
def sliceLen (d : Bytes) (dim : Nat) : Nat := if pOutf d = 0 then dim * 2 else dim * 4

/-- A descriptor keeps R70, for a table of `dim` columns. -/
def progOk (d : Bytes) (dim : Nat) : Bool :=
  !bit (fld d 1 1) 7 && bits (fld d 2 2) 15 12 == 0 && pMode d ≠ 3 && bits (fld d 6 1) 3 2 == 0 &&
    1 ≤ pBags d && pBags d ≤ 4096 && (if pLayout d then 1 ≤ pK d && pK d ≤ 4096 else pK d == 0) &&
    pNidx d ≤ 1048576 && pDest d % 64 == 0 && pStride d % 64 == 0 && sliceLen d dim ≤ pStride d &&
    bits (fld d 24 2) 14 12 == 0 && bits (fld d 28 1) 7 4 == 0 && pDsel d ≠ 3 && bits (fld d 29 1) 7 2 == 0 &&
    fld d 30 34 == 0

/-- Words of the offsets array. -/
def nOffs (d : Bytes) : Nat := if pLayout d then 0 else pBags d + 1
/-- Words of a body (R71). -/
def bodyLen (d : Bytes) : Nat := nOffs d + pNidx d + (if pPool d = 2 then pNidx d else 0)

/-- A word of a body. -/
def bWord (p : Prog) (i : Nat) : Nat := ((p.body[i]?).getD 0).toNat

/-- Index positions of bag `b`. -/
def bagRange (p : Prog) (b : Nat) : Nat × Nat :=
  if pLayout p.desc then (b * pK p.desc, (b + 1) * pK p.desc) else (bWord p b, bWord p (b + 1))

/-- The index at a position. -/
def idxAt (p : Prog) (i : Nat) : Nat := bWord p (nOffs p.desc + i)

/-- PARTITION (R355). -/
def pPart (d : Bytes) : Nat := fld d 28 1 % 16

/-- What two copies of one program of a striped table share: all but CTX, the prefetch byte that each fold fixes, and
GEN (R87). -/
def progKey (d : Bytes) : Bytes := (d.drop 1).take 5 ++ d.drop 8

/-- The offsets, indices and weights of bag `b` have landed. -/
def bagLanded (p : Prog) (b : Nat) : Bool :=
  let d := p.desc
  let n := p.body.length
  (pLayout d || b + 2 ≤ n) &&
    (let hi := (bagRange p b).2
     nOffs d + hi ≤ n && (pPool d ≠ 2 || nOffs d + pNidx d + hi ≤ n))

/-- The whole body has landed. -/
def bodyLanded (p : Prog) : Bool := bodyLen p.desc ≤ p.body.length

/-- The offsets that have landed keep R73. -/
def offsOk (d : Bytes) (body : List Word) : Bool :=
  let o (i : Nat) : Option Nat := (body[i]?).map (·.toNat)
  if pLayout d then pNidx d == pBags d * pK d
  else (List.range (pBags d + 1)).all (fun i =>
    match o i with
    | none => true
    | some v => (i ≠ 0 || v == 0) && (i ≠ pBags d || v == pNidx d) &&
        (i == 0 || (match o (i - 1) with | some u => decide (u ≤ v) | none => true)))

/-! ## Requests and images -/

/-- The image and epoch a request has pinned for a table (R77). -/
def pinnedIm (s : State) (h : Half) (tid : Nat) : Option (Image × Bool × Nat) :=
  match req s h with
  | none => none
  | some r =>
    match r.pins.find? (fun (t, _) => t.toNat == tid) with
    | none => none
    | some (_, n) => (epochOf (table s tid) n).bind (fun e => (imgOf (table s tid) e.img).map (fun i => (i, e.img, n.toNat)))

/-- A fold ends a request with a status: its contexts on the fold drain, and the request is to end. -/
def foldEnds (s : State) (f : Nat) (h : Half) (st : Status) : State :=
  match req s h with
  | none => s
  | some r =>
    if r.kind = .launch then
      let s := updFold s f (fun x => { x with ctxs := mmap {} (fun y =>
        if y.req = h ∧ y.st ≠ .free then { y with st := .draining } else y) x.ctxs })
      wantEnd s h st
    else abortCmd s r.q.toNat r.n st

/-- A tag, class or group mismatch recorded against the request (R148, R184). -/
def noteMisaligned (s : State) (h : Half) : State :=
  match req s h with
  | none => s
  | some r =>
    if r.kind = .launch then updCore s r.core (fun x => recExc x r.slot stMisaligned x.cycle false)
    else updReq s h (fun r => { r with exc := if r.exc = 0 then stMisaligned else r.exc })

/-! ## Prefetch (R88 to R92) -/

/-- A context of a fold. -/
def ctxAt (x : Fold) (c : Nat) : Ctx := mget {} x.ctxs c
/-- A context set. -/
def setCtx (x : Fold) (c : Nat) (y : Ctx) : Fold := { x with ctxs := mset {} x.ctxs c y }

/-- The oldest program of a context. -/
def oldest (x : Fold) (c : Nat) : Option Prog := x.progs.find? (fun p => p.ctx == c)

/-- A request's releases on a fold. -/
def relOf (x : Fold) (h : Half) : Rel := (x.rels.find? (fun r => r.req == h)).getD { req := h }
/-- A request's releases changed. -/
def updRel (x : Fold) (h : Half) (g : Rel → Rel) : Fold :=
  if x.rels.any (fun r => r.req == h) then { x with rels := updFirst (fun r => r.req == h) g x.rels }
  else { x with rels := x.rels ++ [g { req := h }] }

/-- The tile rule of R91 for a program whose mode and depth are in force. -/
def tileOk (x : Fold) (p : Prog) : Bool :=
  pMode p.desc ≠ 1 || (pTile p.desc : Int) ≤ (relOf x p.req).tile + pDepth p.desc

/-- A program changed. -/
def updProg (x : Fold) (id : Nat) (g : Prog → Prog) : Fold :=
  { x with progs := updFirst (fun p => p.id == id) g x.progs }

/-- Whether a context's oldest program runs; a program with DEP takes a dependence release. -/
def startProg (x : Fold) (p : Prog) : Fold :=
  let rel := relOf x p.req
  let run := tileOk x p && (!pDep p.desc || p.depOk || 0 < rel.deps)
  let x := if run && pDep p.desc && !p.depOk then
      updProg (updRel x p.req (fun r => { r with deps := r.deps - 1 })) p.id (fun p => { p with depOk := true })
    else x
  setCtx x p.ctx { st := if run then .running else .held, req := p.req }

/-- The state of a context after a program has come, gone or been released (R89). -/
def settleCtx (x : Fold) (c : Nat) : Fold :=
  let y := ctxAt x c
  if y.st = .free ∨ y.st = .draining then x
  else match oldest x c with
    | none => setCtx x c { y with st := .bound }
    | some p => if y.st = .running ∧ p.depOk then x else startProg x p

/-- Every context of a request settled, in the order in which their oldest programs were accepted. -/
def settleReq (x : Fold) (h : Half) : Fold :=
  let cs := (x.progs.filter (fun p => p.req == h)).map (·.ctx)
  cs.eraseDups.foldl settleCtx x

/-- A program runs: it is the oldest of a RUNNING context. -/
def isRunning (x : Fold) (p : Prog) : Bool :=
  (ctxAt x p.ctx).st == .running && (match oldest x p.ctx with | some q => q.id == p.id | none => false)

/-! ## Slices (R83 to R87, R96, R97) -/

/-- Positions of a bag whose rows this fold holds: neither pads nor out of range. -/
def bagTerms (p : Prog) (im : Image) (f b : Nat) : List Nat :=
  let r := bagRange p b
  if p.bad then []
  else ((List.range (r.2 - r.1)).map (· + r.1)).filter (fun i =>
    let v := idxAt p i
    v ≠ 0xFFFFFFFF && v < dRows im.desc && (rowFold im.desc v).1 == f)

/-- The poison pattern of R407 in place of every word. -/
def poisonPat (n : Nat) : Bytes := (List.range n).map (fun i => ([0xF1, 0xFF, 0xF1, 0xFF] : Bytes).getD (i % 4) 0)

/-- A slice written to the scratchpad, or to the FE staging and on to the client (R96, R97, R270). -/
def writeSlice (s : State) (p : Prog) (b : Nat) (bytes : Bytes) (bad : Bool) : State :=
  let a := pDest p.desc + b * pStride p.desc
  if pDsel p.desc < 2 then
    updCore s (pDsel p.desc) (fun x => extWrite x a { data := bytes, poison := bad })
  else match req s p.req with
    | none => s
    | some r =>
      match r.outs.head? with
      | none => s
      | some o =>
        if o.cap.toNat < a + bytes.length then abortCmd s r.q.toNat r.n stBadLength
        else
          let data := if bad then poisonPat bytes.length else bytes
          let s := updReq s p.req (fun r => { r with high := max r.high (a + bytes.length) })
          (newXfer s (.result p.req 0) false r.q r.n (o.addr.toNat + a) data.length data).1

/-- A bag whose partials from every fold are in: combined in ascending fold order and written (R85, R87). -/
def finishBag (s : State) (f : Nat) (p : Prog) (im : Image) (b : Nat) : State :=
  let folds := dFolds im.desc
  let ps := folds.map (fun g => p.parts.find? (fun q => q.bag == b && q.src == g))
  if !(ps.all (·.isSome)) then s
  else
    let l := ps.filterMap id
    let mx := pPool p.desc == 3
    let v := l.foldl (fun a q => poolV mx a (q.vals.map (fun ws => ws.map (·.toNat)))) none
    let m := (l.map (·.terms)).sum
    let out := poolOut (pPool p.desc) (dDim im.desc) m v
    let s := writeSlice s p b (sliceBytes (pOutf p.desc) out) (l.any (·.bad))
    updFold s f (fun x => updProg x p.id (fun p => { p with written := b :: p.written }))

/-- The copy of a program on another fold: the same request, descriptor and place among the request's equal programs
(R87). -/
def copyOn (s : State) (g : Nat) (p : Prog) : Option Prog :=
  (fold s g).progs.find? (fun q => q.req == p.req && q.ord == p.ord && progKey q.desc == progKey p.desc)

/-- A bag whose terms are all in on this fold: pooled, and kept by the lead fold or sent to it, to the lead's own copy
of the program (R83, R87). -/
def poolBag (s : State) (f : Nat) (p : Prog) (im : Image) (b : Nat) : State :=
  let ts := (bagTerms p im f b).map (fun i => mget ([], false) p.terms i)
  let v := pool (pPool p.desc == 3) (ts.map (fun (t, _) => t.map (·.toNat)))
  let vals := v.map (fun l => l.map (BitVec.ofNat 32))
  let bad := p.bad || ts.any (·.2)
  let lead := (dFolds im.desc).headD f
  if lead = f then
    let s := updFold s f (fun x => updProg x p.id (fun p =>
      { p with parts := { bag := b, src := f, terms := ts.length, vals := vals, bad := bad } :: p.parts }))
    match (fold s f).progs.find? (fun q => q.id == p.id) with
    | some p => finishBag s f p im b
    | none => s
  else
    let m : Instr := .partialSlice (BitVec.ofNat 3 lead).toFin ((copyOn s lead p).elim p.id (·.id)) b (BitVec.ofNat 3 f).toFin
      (unit s (2 + f)).gen ts.length (vals.getD []) bad
    updFold (emit s (.fold lead m)) f (fun x => updProg x p.id (fun p => { p with written := b :: p.written }))

/-- A bag is ready to be pooled on this fold. No slice of a program is written before its whole body has passed its
checks (R73, R75), and a partial slice waits until the lead fold has accepted its copy (R87). -/
def bagReady (s : State) (p : Prog) (im : Image) (f b : Nat) : Bool :=
  let lead := (dFolds im.desc).headD f
  bodyLanded p && (lead == f || (copyOn s lead p).isSome) && !(p.written.contains b) && !(p.parts.any (fun q => q.bag == b && q.src == f)) &&
    (bagTerms p im f b).all (fun i => p.terms.any (fun (j, _) => j == i))

/-- A running program goes on: bags whose rows are in are pooled; after the last slice it posts its
slice-done signal, leaves, and its context goes on (R89, R96). -/
def goOnce (s : State) (f id : Nat) : State :=
  let x := fold s f
  match x.progs.find? (fun p => p.id == id) with
  | none => s
  | some p =>
    if !isRunning x p then s
    else match pinnedIm s p.req (pTid p.desc) with
      | none => s
      | some (im, _, _) =>
        let s := (List.range (pBags p.desc)).foldl (fun s b =>
          match (fold s f).progs.find? (fun p => p.id == id) with
          | some p => if bagReady s p im f b then poolBag s f p im b else s
          | none => s) s
        match (fold s f).progs.find? (fun p => p.id == id) with
        | none => s
        | some p =>
          if bodyLanded p && p.written.length == pBags p.desc then
            let s := if (dFolds im.desc).headD f = f then emit s (.sliceDone f p.req p.id) else s
            updFold s f (fun x => settleCtx { x with progs := x.progs.filter (fun q => q.id ≠ id) } p.ctx)
          else s

/-- A program goes on, and when it has left its context, the next of the context, `n` programs at most. -/
def goOnN : Nat → State → Nat → Nat → State
  | 0, s, _, _ => s
  | n + 1, s, f, id =>
    match (fold s f).progs.find? (fun p => p.id == id) with
    | none => s
    | some p =>
      let s := goOnce s f id
      if (fold s f).progs.any (fun q => q.id == id) then s
      else match oldest (fold s f) p.ctx with
        | some q => goOnN n s f q.id
        | none => s

/-- A program goes on, with those that follow it in its context. -/
def goOn (s : State) (f id : Nat) : State := goOnN ((fold s f).progs.length + 1) s f id

/-- Every running program of a request goes on. -/
def goOnReq (s : State) (f : Nat) (h : Half) : State :=
  (((fold s f).progs.filter (fun p => p.req == h)).map (·.id)).foldl (fun s id => goOn s f id) s

/-! ## Rows -/

/-- The gather engine of a fold is being reset: it accepts nothing new (R424). -/
def gxHeld (s : State) (f : Nat) : Bool :=
  let u := unit s (2 + f)
  (u.st == .quiescing || u.st == .resetting) && u.scope ≠ .ru

/-- Programs of a request on the other folds of a striped table go on, where they waited for this fold's copy. -/
def goOnPeers (s : State) (f : Nat) (im : Image) (h : Half) : State :=
  ((dFolds im.desc).filter (fun g => g ≠ f)).foldl (fun s g => goOnReq s g h) s

/-- Effective prefetch mode and depth, fixed when the program is accepted (R91, R98). -/
def withPf (s : State) (f : Nat) (d : Bytes) : Bytes :=
  let ctl := foldReg f aGxGatherCtl
  let m := if pMode d = 0 then (if rf s ctl 0 1 0 = 2 then 2 else 1) else pMode d
  let k := if pDepth d = 0 then max 1 (rf s ctl 0 7 4) else pDepth d
  d.take 6 ++ toLE 1 (m + 16 * k) ++ d.drop 7

/-- PROGRAM_ACCEPT: a program for a live request and the fold's generation is accepted; a descriptor that
breaks R70 ends its request (R72, R89, R90, R426). A table that the request has not pinned, or that the fold does not
hold, breaks R70 here (log entry 130); a context that is not the request's, or is draining, discards the program
(log entry 131). -/
def execProgramAccept (f : Fin 8) (desc : Bytes) (s : State) : Out :=
  .next (let d := slice desc 0 64
    let x := fold s f
    let h := pReq d
    if pGen d ≠ (unit s (2 + f.val)).gen.toNat then cnt s aIgCntStale
    else if gxHeld s f then s
    else if (req s h).isNone ∨ (ctxAt x (fld d 0 1)).req ≠ h ∨ (ctxAt x (fld d 0 1)).st = .free ∨
        (ctxAt x (fld d 0 1)).st = .draining then s
    else
      match pinnedIm s h (pTid d) with
      | none => foldEnds (rsetF s (foldReg f aGxGatherStat) 0 0 0 1) f h stBadField
      | some (im, _, _) =>
        if !progOk d (dDim im.desc) ∨ !bit (dMask im.desc) f then
          foldEnds (rsetF s (foldReg f aGxGatherStat) 0 0 0 1) f h stBadField
        else
          let k := progKey d
          let p : Prog := { id := x.nextProg, ctx := fld d 0 1, req := h, desc := withPf s f d
                            ord := ((relOf x h).keys.filter (· == k)).length }
          let x := updRel x h (fun r => { r with keys := r.keys ++ [k] })
          let s := setFold s f (settleCtx { x with progs := x.progs ++ [p], nextProg := x.nextProg + 1 } p.ctx)
          goOnPeers (cnt s (foldReg f aGxCntPrograms)) f im h)

/-- An index that has landed: an out-of-range one on the fold of its position is skipped and counted, or
ends the request (R74, R75, R87). -/
def noteIdx (s : State) (f : Nat) (p : Prog) (im : Image) (i : Nat) : State :=
  let v := idxAt p i
  if v = 0xFFFFFFFF ∨ v < dRows im.desc ∨ (rowFold im.desc v).1 ≠ f then s
  else if pOob p.desc then foldEnds s f p.req stBadField
  else cnt s (foldReg f aGxCntOob)

/-- PROGRAM_BODY: words of a program's body land and are checked; bags whose data has landed go on (R71 to
R76). A body of a program accepted in an earlier generation of the fold is stale (R426, log entry 164). -/
def execProgramBody (f : Fin 8) (p : Nat) (body : List Word) (s : State) : Out :=
  .next (match (fold s f).progs.find? (fun q => q.id == p) with
    | none => if p < (fold s f).bornAt then cnt s aIgCntStale else s
    | some q =>
      if (ctxAt (fold s f) q.ctx).st = .draining then s
      else
        let old := q.body.length
        let all := (q.body ++ body).take (bodyLen q.desc)
        let q := { q with body := all }
        let s := updFold s f (fun x => updProg x p (fun _ => q))
        if !offsOk q.desc all then
          foldEnds (rsetF s (foldReg f aGxGatherStat) 0 1 1 1) f q.req stBadLength
        else match pinnedIm s q.req (pTid q.desc) with
          | none => s
          | some (im, _, _) =>
            let lo := old - nOffs q.desc
            let hi := min (pNidx q.desc) (all.length - nOffs q.desc)
            let s := ((List.range (hi - lo)).map (· + lo)).foldl (fun s i => noteIdx s f q im i) s
            goOn s f p)

/-- The count of a lookup, sampled in the lookup's partition (R42, R355). When SAMPLE_SHIFT is written within a run, the
lookups counted so far stand, and the one that reaches the new 2^s is sampled (DESIGN CHOICE, log entry 165). -/
def countLookup (s : State) (p f : Nat) (im : Image) (key : Option Nat) (r : Nat) : State × Nat :=
  let x := fold s f
  match key with
  | some k =>
    let n := min 255 ((dirAt x k).pop.toNat + 1)
    (updFold s f (fun x => updDir x k (fun e => { e with pop := BitVec.ofNat 8 n })), n)
  | none =>
    let home := homeA im f (rowFold im.desc r).2
    let sh := min 6 (rf s (foldReg f aGxPolicyCtl) 0 6 4)
    let eff := effPop x home
    if 2 ^ sh ≤ x.sampled + 1 then
      let n := min 255 (eff + 2 ^ sh)
      (writePop (setFold s f { x with sampled := 0 }) p f home n, n)
    else (setFold s f { x with sampled := x.sampled + 1 }, eff)

/-- One row read for a program: the owner's check, the read, the tag check, the counts and the term (R35,
R42, R77 to R82, R97, R404). -/
def readRow (s : State) (f : Nat) (p : Prog) (im : Image) (img : Bool) (ep pos : Nat) : State :=
  let tid := pTid p.desc
  let r := idxAt p pos
  let x := fold s f
  let l := resolve x im f tid img r ep
  let d := im.desc
  let rd := readLoc s (pPart p.desc) f l.1 (dSlot d l.2.1) (some { tid := tid, row := r }) (some p.req)
  let s := cnt rd.1 (foldReg f (if l.1.pen then aGxCntLookupPen else aGxCntLookupPast))
  let poisoned := rd.2.2
  let tagBad := !poisoned && !rowTagOk l.2.1 (dGroup d) r rd.2.1
  let s := if poisoned then markPoison s p.req else s
  let s := if tagBad then noteMisaligned (cnt s (foldReg f aGxCntTagBad)) p.req else s
  let s := match l.2.2 with
    | some k =>
      repairPen s f k (poisoned && l.1.pen && penA (dirAt (fold s f) k) == l.1.addr)
    | none => s
  let c := countLookup s (pPart p.desc) f im l.2.2 r
  let s := tryPromote c.1 f im tid img r c.2
  let vs := rowVals l.2.1 (dGroup d) (dDim d) rd.2.1
  let w := bWord p (nOffs p.desc + pNidx p.desc + pos)
  let term := if pPool p.desc = 2 then vs.map (mul32 w) else vs
  updFold s f (fun x => updProg x p.id (fun p =>
    { p with terms := mput p.terms pos (term.map (BitVec.ofNat 32), poisoned || tagBad) }))

/-! ## Service order (R93, R94) -/

/-- Index positions of a program whose rows this fold holds and whose bags have landed, not read yet, in order. -/
def unread (p : Prog) (im : Image) (f : Nat) : List Nat :=
  ((List.range (pBags p.desc)).filter (bagLanded p)).flatMap (fun b =>
    (bagTerms p im f b).filter (fun i => !(p.terms.any (fun (j, _) => j == i))))

/-- Where a program's next read stands. -/
inductive Next where
  /-- It has no read left. -/
  | done
  /-- Its next read cannot be issued: the program is held, stands behind an older one of its context, its body has not
  landed, or its partition holds the read (R94). -/
  | stuck
  | read (pos : Nat)
  deriving DecidableEq, Repr

/-- The next read of a program. -/
def nextOf (s : State) (f : Nat) (p : Prog) : Next :=
  let x := fold s f
  let first := match oldest x p.ctx with | some o => o.id == p.id | none => false
  if (ctxAt x p.ctx).st == .draining then .done
  else match pinnedIm s p.req (pTid p.desc) with
    | none => .done
    | some (im, img, ep) =>
      match unread p im f with
      | [] => if bodyLanded p then .done else .stuck
      | i :: _ =>
        if !first || (ctxAt x p.ctx).st == .held then .stuck
        else if (resolve x im f (pTid p.desc) img (idxAt p i) ep).1.pen || mayFm s f (pPart p.desc) then .read i else .stuck

/-- The read that is issued next: the first, in acceptance order, of a program that can issue one, and whether it goes
before an older program's; with BUBBLE_EN = 0 the fold waits for that one instead (R93, R94). -/
def nextRead (s : State) (f : Nat) : List Prog → Bool → Option (Prog × Nat × Bool)
  | [], _ => none
  | p :: ps, bub =>
    match nextOf s f p with
    | .done => nextRead s f ps bub
    | .stuck => if rb s (foldReg f aGxGatherCtl) 0 8 then nextRead s f ps true else none
    | .read i => some (p, i, bub)

/-- A read made: the owner's check, then the row (R79, R81). -/
def takeRead (s : State) (f : Nat) (p : Prog) (pos : Nat) (bub : Bool) : State :=
  match pinnedIm s p.req (pTid p.desc), req s p.req with
  | some (im, img, ep), some r =>
    let s := if bub then cnt s (foldReg f aGxCntBubble) else s
    if !ownerOk s im f r.cid r.world false then foldEnds s f p.req stRegionDenied
    else goOn (readRow s f p im img ep pos) f p.id
  | _, _ => s

/-- A program of a fold has a read left at a position. -/
def isUnread (s : State) (f p pos : Nat) : Bool :=
  match (fold s f).progs.find? (fun q => q.id == p) with
  | none => false
  | some q =>
    isRunning (fold s f) q && (match pinnedIm s q.req (pTid q.desc) with
      | some (im, _, _) => (unread q im f).contains pos
      | none => false)

/-- Reads made in the order of R93 up to the one at a position of a program; `n` bounds them. -/
def readsTo : Nat → State → Nat → Nat → Nat → State
  | 0, s, _, _, _ => s
  | n + 1, s, f, p, pos =>
    if !isUnread s f p pos then s
    else match nextRead s f (fold s f).progs false with
      | none => s
      | some (q, i, bub) => readsTo n (takeRead s f q i bub) f p pos

/-- Index positions of a fold's programs: no more reads than these can come before one of them. -/
def readBound (x : Fold) : Nat := ((x.progs.map (fun p => pNidx p.desc + 1)).sum) + 1

/-- ROW_READ_RETURN: the read made for an index position of a running program returns, with those that are issued
before it and had not returned yet (R40, R81, R93, R94). -/
def execRowReadReturn (f : Fin 8) (p : Nat) (pos : Nat) (s : State) : Out :=
  .next (readsTo (readBound (fold s f)) s f p pos)

/-- PARTIAL_SLICE: the lead fold receives a partial slice and writes the bag when every fold's is in; one
of a stale generation is dropped (R87, R426). -/
def execPartialSlice (f : Fin 8) (p : Nat) (bag : Nat) (src : Fin 8) (gen : Byte) (terms : Nat)
    (vals : List Word) (bad : Bool) (s : State) : Out :=
  .next (if gen ≠ (unit s (2 + src.val)).gen then cnt s aIgCntStale
    else match (fold s f).progs.find? (fun q => q.id == p) with
      | none => s
      | some q =>
        if (ctxAt (fold s f) q.ctx).st = .draining ∨ q.parts.any (fun t => t.bag == bag && t.src == src.val) ∨ src = f then s
        else match pinnedIm s q.req (pTid q.desc) with
          | none => s
          | some (im, _, _) =>
            let q := { q with parts := { bag := bag, src := src, terms := terms
                                         vals := if terms = 0 then none else some vals, bad := bad } :: q.parts }
            let s := updFold s f (fun x => updProg x p (fun _ => q))
            goOn (if q.written.contains bag then s else finishBag s f q im bag) f p)

/-- TILE_RELEASE: the released tile number of a request on a fold rises (R91, R92). -/
def execTileRelease (f : Fin 8) (h : Half) (tile : Word) (s : State) : Out :=
  .next (if (req s h).isNone then s
    else
      let s := updFold s f (fun x => settleReq (updRel x h (fun r => { r with tile := max r.tile tile.toNat })) h)
      goOnReq s f h)

/-- DEPENDENCE_RELEASE: lets one DEP program of the request run, now or when it arrives (R91, R92). -/
def execDependenceRelease (f : Fin 8) (h : Half) (s : State) : Out :=
  .next (if (req s h).isNone then s
    else
      let s := updFold s f (fun x => settleReq (updRel x h (fun r => { r with deps := r.deps + 1 })) h)
      goOnReq s f h)

/-- CONTEXT_DRAINED: a DRAINING context is FREE again (R89, R90). -/
def execContextDrained (f : Fin 8) (ctx : Byte) (s : State) : Out :=
  .next (let x := fold s f
    if (ctxAt x ctx.toNat).st ≠ .draining then s
    else
      let s := setFold s f { setCtx x ctx.toNat {} with progs := x.progs.filter (fun p => p.ctx ≠ ctx.toNat) }
      cnt s (foldReg f aGxCntDrained))

/-- The sweep's visit to an entry: POP halves, and a cold row at PASTURE_CLASS starts its demotion (R43,
R45). -/
def sweepEntry (s : State) (f k : Nat) : State :=
  let s := updFold s f (fun x => updDir x k (fun e => { e with pop := e.pop >>> 1 }))
  let e := dirAt (fold s f) k
  let base := match entryIm s e with | some i => e.cls.toNat == dPclass i.desc | none => false
  if e.t && !e.m && base && e.pop.toNat < popTh s f 15 8 && rb s (foldReg f aGxPolicyCtl) 0 1 && !threshBad s f &&
      (fold s f).migs.length < 64 then startMig s f k false
  else s

/-- DECAY_PERIOD_END: D advances and the sweep visits every entry in set order (R43, R45). -/
def execDecayPeriodEnd (f : Fin 8) (s : State) : Out :=
  .next (if rf s (foldReg f aGxPolicyCtl) 0 15 8 = 0 then s
    else
      let s := updFold s f (fun x => { x with period := x.period + 1 })
      ((dirUsed (fold s f)).map (·.1)).foldl (fun s k => sweepEntry s f k) s)

/-- MIGRATION_FLIP: the migration of the entry at a way ends, once partition 15 lets its copies run (R65, R355). -/
def execMigrationFlip (f : Fin 8) (way : Nat) (s : State) : Out :=
  .next (if (dirAt (fold s f) way).m && mayFm s f 15 then flipMig s f way else s)

/-- ASIDE_FREE: the fold frees a table's dead aside slots, once partition 15 lets its writes run (R55, R355). -/
def execAsideFree (f : Fin 8) (tid : BitVec 12) (s : State) : Out :=
  .next (if mayFm s f 15 then asideFree s f tid.toNat else s)

end Sys2Proof.Machine
end

