-- ==== Sys2Proof/Machine/FeCmds.lean ====
section
/-! DEFINITION. Commands of the rings as they are dispatched: order and fences, the operand checks that all
share, and NOP, FENCE, ABORT, QUEUE_CREATE, QUEUE_DESTROY, REGION_MAP, REGION_UNMAP, STATS_READ and
LEASE_RENEW (R252, R263 to R265, R271 to R274, R278 to R282, R301, R306, R314 to R316, R432, R438). -/

namespace Sys2Proof.Machine

/-! ## Dispatch (R263, R265) -/

/-- Commands of the same queue fetched before this one and still outstanding. -/
def earlier (s : State) (c : Cmd) : List Cmd :=
  (s.fe.cmds.takeWhile (fun d => !(d.q == c.q && d.n == c.n))).filter (fun d => d.q == c.q)

/-- A command may be dispatched: in ring order, behind no held fence; ABORT goes ahead (R263, R265). -/
def canGo (s : State) (c : Cmd) : Bool :=
  cOp c == 16 || ((earlier s c).all (fun d => d.phase ≠ .fetched) && (!cFence c || (earlier s c).isEmpty))

/-- A part whose record or identity failed takes only ATTEST and LEASE_RENEW (R438). -/
def identityBlocks (s : State) (c : Cmd) : Bool :=
  !(rb s aPcSecStat 0 0 && rb s aPcSecStat 0 1) && cOp c ≠ 22 && cOp c ≠ 24

/-- An entry refused: counted, and completed with its status (R252, R282). -/
def reject (s : State) (c : Cmd) (st : Status) : State := finish (cnt s aFeCntReject) c.q.toNat c.n st

/-- The command arrives (R264). -/
def arrive (s : State) (c : Cmd) : State :=
  let a := s.fe.nextArrival
  updCmd { s with fe := { s.fe with nextArrival := a + 1 } } c.q.toNat c.n (fun c => { c with arrival := a + 1 })

/-- The command's phase set. -/
def setPhase (s : State) (c : Cmd) (p : Phase) : State := updCmd s c.q.toNat c.n (fun c => { c with phase := p })

/-- The row of a ring command: `first` when it is dispatched, `landed` when the data it reads is there. -/
def ownOr (no : State → Cmd → State) (op q : Nat) (n : Word) (first landed : State → Cmd → State) (s : State) : State :=
  match cmd s q n with
  | none => s
  | some c =>
    if cOp c ≠ op then s
    else match c.phase with
      | .fetched =>
        if !canGo s c then s
        else
          let s := cnt s aFeCntEntries
          if identityBlocks s c then no s c else first s c
      | .landed => landed s c
      | _ => s

/-- A command of a row; one that the part's identity blocks is refused with ST_BAD_STATE. -/
def own (op q : Nat) (n : Word) (first landed : State → Cmd → State) (s : State) : State :=
  ownOr (fun s c => reject s c stBadState) op q n first landed s

/-- Bytes of the entry from `off` that are reserved are 0 (R11). -/
def zero (c : Cmd) (off n : Nat) : Bool := cF c off n == 0

/-- A row without a second part. -/
def noLanded (s : State) (_ : Cmd) : State := s

/-- A command is in flight and belongs to a row. -/
def rowMine (s : State) (q : Nat) (n : Word) (mine : Cmd → Bool) : Bool :=
  match cmd s q n with | some c => mine c | none => false

/-- NOP: completes at dispatch (R271, R272). -/
def execNop (q : BitVec 10) (n : Word) (s : State) : Out :=
  .next (own 11 q.toNat n (fun s c =>
    if zero c 16 48 then finish (arrive s c) c.q.toNat c.n 0 else reject s c stBadField) noLanded s)

/-! ## What waits for completions (R272, R281) -/

/-- What is left to do when everything an ABORT waits for is posted: it ends, with its restart made. -/
def endAbort (s : State) (c : Cmd) : State :=
  let q := cF c 18 2
  if cF c 16 1 = 1 ∧ bit (cF c 17 1) 0 then
    if (queue s q).st = .halted then
      let at_ := BitVec.ofNat 32 (cF c 28 4)
      let s := updQueue s q (fun u => { u with st := .idle, c := at_, f := at_, l := at_, retry := 0 })
      finish s c.q.toNat c.n 0
    else finish s c.q.toNat c.n stBadState
  else finish s c.q.toNat c.n 0

/-- Whether a FENCE or ABORT that has been dispatched may end. -/
def mayEnd (s : State) (c : Cmd) : Bool :=
  c.phase == .unit &&
    ((cOp c == 10 && (earlier s c).isEmpty && !(c.q == 0 && s.xl.syncs.any (fun (m, _) => m == c.n))) ||
      (cOp c == 16 && c.waits.all (fun (q, n) => (cmd s q.toNat n).isNone)))

/-- FENCEs and ABORTs whose waits are over end. -/
def settle (s : State) : State :=
  (s.fe.cmds.filter (mayEnd s)).foldl (fun s c => if cOp c = 16 then endAbort s c else finish s c.q.toNat c.n 0) s

/-- FENCE: with XL_SYNC it has taken a sync point at its tag check, which emptied the translation cache and noted the
pieces that were under way; a refused one waits for none (R271, R272, R328). -/
def execFence (q : BitVec 10) (n : Word) (s : State) : Out :=
  .next (own 10 q.toNat n (fun s c =>
    let sync := bit (cF c 16 1) 0
    if bits (cF c 16 1) 7 1 ≠ 0 ∨ !zero c 17 47 ∨ (sync ∧ q ≠ 0) then
      reject (if q = 0 then { s with xl := { s.xl with syncs := s.xl.syncs.filter (fun e => e.1 ≠ n) } } else s) c stBadField
    else
      let s := setPhase (arrive s c) c .unit
      settle (if sync then syncPoint s n else s)) noLanded s)

/-- A piece noted at a sync point is still under way: a write until it is acknowledged, a READ until it is answered. -/
def underWay (s : State) (x : Nat) (l : List (BitVec 13)) : Bool :=
  !l.isEmpty && ((xfer s x).isSome || s.fe.lost.any (fun r => r.1 == x) ||
    l.any (fun i => (qp s i.toNat).out.any (fun o => o.x == x)))

/-- XL_SYNC_DONE: every piece translated before the sync point has been acknowledged, landed or failed
(R328). -/
def execXlSyncDone (n : Word) (s : State) : Out :=
  .next (match s.xl.syncs.find? (fun (m, _) => m == n) with
    | none => s
    | some (_, xs) =>
      if xs.any (fun (x, l) => underWay s x l) then s
      else settle (cnt { s with xl := { s.xl with syncs := s.xl.syncs.filter (fun (m, _) => m ≠ n) } } aXlCntSync))

/-! ## ABORT (R279 to R281) -/

/-- A running LAUNCH that is to end already: what ends it is counted once (R181, R282). -/
def isEnding (s : State) (d : Cmd) : Bool :=
  d.phase == .running && cOp d == 1 && (match req s d.handle with | some r => r.endSt.isSome | none => false)

/-- A command is ended by an ABORT, and counted unless it is ending already; what it waits for is added to `waits`. -/
def abortInto (s : State) (who : Cmd) (d : Cmd) : State :=
  if (d.phase = .ended ∧ !stillAborts d) ∨ unaborted d ∨ d.committed then s
  else
    let s := if isEnding s d then s else cnt (abortOne s d.q.toNat d.n stAborted) aFeCntAborted
    updCmd s who.q.toNat who.n (fun w => { w with waits := (d.q, d.n) :: w.waits })

/-- Every outstanding command of a queue ended, and the queue HALTED unless the ABORT is to restart it, which only a
HALTED queue does (R259, R279). -/
def abortWhole (s : State) (who : Cmd) (q : Nat) : State :=
  let s := (s.fe.cmds.filter (fun d => d.q.toNat == q)).foldl (fun s d => abortInto s who d) s
  if bit (cF who 17 1) 0 then s else haltQueue s q stAborted

/-- The operand checks of ABORT; a field that the scope does not use is reserved. -/
def abortOk (c : Cmd) : Bool :=
  let sc := cF c 16 1
  let rs := cF c 17 1
  sc ≤ 3 && rs ≤ 1 && (rs == 0 || sc == 1) && bits (cF c 18 2) 15 10 == 0 && bits (cF c 24 2) 15 12 == 0 &&
    (if sc ≤ 1 then cF c 18 2 ≠ 0 else cF c 18 2 == 0) && (sc == 0 || cF c 20 4 == 0) &&
    (sc == 2 || cF c 24 2 == 0) && (rs == 1 || cF c 28 4 == 0) && zero c 26 2 && zero c 32 32

/-- ABORT with the scope its row is for; a malformed one belongs to ABORT_COMMAND's row. -/
def abortRow (n : Word) (mine : Cmd → Bool) (act : State → Cmd → State) (s : State) : State :=
  match cmd s 0 n with
  | none => s
  | some c =>
    if cOp c ≠ 16 ∨ c.phase ≠ .fetched ∨ !mine c then s
    else
      let s := cnt s aFeCntEntries
      if identityBlocks s c then reject s c stBadState
      else if !abortOk c then reject s c stBadField
      else settle (act (setPhase (arrive s c) c .unit) c)

/-- ABORT of one command. -/
def execAbortCommand (n : Word) (s : State) : Out :=
  .next (abortRow n (fun c => !abortOk c || cF c 16 1 == 0) (fun s c =>
    match cmd s (cF c 18 2) (BitVec.ofNat 32 (cF c 20 4)) with
    | some d => abortInto s c d
    | none => s) s)

/-- ABORT of one queue; a queue that is not created gives ST_BAD_STATE. -/
def execAbortQueue (n : Word) (s : State) : Out :=
  .next (abortRow n (fun c => abortOk c && cF c 16 1 == 1) (fun s c =>
    if (queue s (cF c 18 2)).st = .disabled then reject s c stBadState else abortWhole s c (cF c 18 2)) s)

/-- Created queues but queue 0 that satisfy a test. -/
def queuesThat (s : State) (p : Queue → Bool) : List Nat :=
  (s.fe.queues.filter (fun (q, u) => q ≠ 0 && u.st ≠ .disabled && p u)).map (·.1)

/-- ABORT of every queue of a CID; queue 0, which carries it, is spared. -/
def execAbortCid (n : Word) (s : State) : Out :=
  .next (abortRow n (fun c => abortOk c && cF c 16 1 == 2) (fun s c =>
    (queuesThat s (fun u => u.cid.toNat == cF c 24 2)).foldl (fun s q => abortWhole s c q) s) s)

/-- ABORT of every queue but queue 0. -/
def execAbortAllQueues (n : Word) (s : State) : Out :=
  .next (abortRow n (fun c => abortOk c && cF c 16 1 == 3) (fun s c =>
    (queuesThat s (fun _ => true)).foldl (fun s q => abortWhole s c q) s) s)

/-- QUEUE_TIMEOUT: a command whose completion is not posted within FE_Q_TIMEOUT of its tag check ends (R278). -/
def execQueueTimeout (q : BitVec 10) (n : Word) (s : State) : Out :=
  .next (match cmd s q.toNat n with
    | none => s
    | some c =>
      if (c.phase = .ended ∧ !stillAborts c) ∨ unaborted c ∨ c.committed ∨ isEnding s c then s
      else settle (cnt (abortOne s q.toNat n stTimeout) aFeCntTimeout))

/-! ## Queues (R246, R259, R273, R432) -/

/-- Commands of a queue that is gone still run (R259, R280). -/
def stillSilent (s : State) (q : Nat) : Bool := s.fe.cmds.any (fun d => d.q.toNat == q && d.silent)

/-- QUEUE_CREATE; it is held at dispatch while commands of an earlier queue of its number still run (log entry
144). -/
def execQueueCreate (n : Word) (s : State) : Out :=
  .next (if rowMine s 0 n (fun c => cOp c == 17 && stillSilent s (cF c 16 2)) then s else own 17 0 n (fun s c =>
    let q := cF c 16 2
    let w := cF c 40 2
    let ses := cF c 42 2
    if q = 0 ∨ 1023 < q ∨ cF c 18 1 < 6 ∨ 15 < cF c 18 1 ∨ !zero c 19 1 ∨ cF c 24 8 % 4096 ≠ 0 ∨ !plainAddr (cF c 24 8) ∨
        cF c 32 8 % 4096 ≠ 0 ∨ !plainAddr (cF c 32 8) ∨ bits w 14 12 ≠ 0 ∨ ses = 0 ∨ 1023 < ses ∨ cF c 44 4 = 0 ∨
        4000000 < cF c 44 4 ∨ 15 < cF c 48 1 ∨ !zero c 49 15 then reject s c stBadField
    else if bit w 15 ≠ rb s aXlCtxCfg (w % 4096) 1 then reject s c stWorld
    else if (queue s q).st ≠ .disabled ∨ !(session s ses).live then reject s c stBadState
    else
      let s := setQueue (arrive s c) q
        { st := .idle, ring := BitVec.ofNat 64 (cF c 24 8), cq := BitVec.ofNat 64 (cF c 32 8), log2 := cF c 18 1
          session := BitVec.ofNat 16 ses, cid := BitVec.ofNat 12 (w % 4096), world := bit w 15
          part := BitVec.ofNat 4 (cF c 48 1), key := BitVec.ofNat 32 (cF c 20 4), timeout := BitVec.ofNat 22 (cF c 44 4)
          dbRange := (queue s q).dbRange }
      finish s 0 n 0) noLanded s)

/-- A queue's commands end with no completion and the queue is gone, its key zeroised; DB_RANGE stays. Commands that no
ABORT ends stay and run, without a completion; no completion still to be written is (R259, R275, R280, R447). -/
def dropQueue (s : State) (q : Nat) (st : Status) : State :=
  let s : State := stopFetch s q
  let s : State := { s with fe := { s.fe with xfers := s.fe.xfers.filter (fun t => !(t.q.toNat == q && t.kind == .completion)) } }
  let cs := s.fe.cmds.filter (fun d => d.q.toNat == q)
  let s := cs.foldl (fun s d => silence s q d.n) s
  let s := cs.foldl (fun s (d : Cmd) => if d.phase = .ended then finish (dropXfers s q d.n) q d.n d.status
    else abortOne s q d.n st) s
  updQueue s q (fun u => { dbRange := u.dbRange })

/-- QUEUE_DESTROY. -/
def execQueueDestroy (n : Word) (s : State) : Out :=
  .next (own 18 0 n (fun s c =>
    let q := cF c 16 2
    if q = 0 ∨ 1023 < q ∨ !zero c 18 46 then reject s c stBadField
    else if (queue s q).st = .disabled then reject s c stBadState
    else resume (settle (finish (dropQueue (arrive s c) q stAborted) 0 n 0))) noLanded s)

/-! ## Regions (R311 to R316, R432) -/

/-- World bit of a unit in PC_WORLD_MAP: 0, 1 the cores, 2 + f the folds (R429). -/
def unitWorld (s : State) (u : Nat) : Bool := rb s aPcWorldMap 0 u

/-- The checks of a region descriptor (R314, R432). -/
def regionCheck (s : State) (i : Nat) (b : Bytes) : Status :=
  let r := regionOf b
  let f := r.unit.toNat
  let old := region s i
  if !regionRes b ∨ r.kind.toNat ≠ 1 ∨ r.base % 4096 ≠ 0 ∨ r.limit % 4096 ≠ 0 ∨ r.limit ≤ r.base ∨ usable s < r.limit ∨
      (r.tables ∧ r.window) ∨ 16320 ≤ i then stBadField
  else if r.world ≠ unitWorld s (2 + f) then stWorld
  else if old.kind ≠ 0 ∧ (old.unmapping ∨ old.base ≠ r.base ∨ old.limit ≠ r.limit ∨ old.kind ≠ r.kind ∨
      old.unit ≠ r.unit ∨ old.world ≠ r.world) then stBadState
  else if s.xl.regions.any (fun (j, o) => j ≠ i && j < 16320 && o.kind ≠ 0 && o.unit == r.unit &&
      o.base < r.limit && r.base < o.limit) then stBadState
  else 0

/-- REGION_MAP: reads the descriptor, checks it and installs it (R314, R315). -/
def execRegionMap (n : Word) (s : State) : Out :=
  .next (own 19 0 n (fun s c =>
    if bits (cF c 16 2) 15 14 ≠ 0 ∨ !zero c 18 6 ∨ !zero c 32 32 ∨ !srcOk c (cF c 24 8) 32 then reject s c stBadField
    else fetchSrc (arrive s c) c .args (cF c 24 8) 32)
    (fun s c =>
      let i := cF c 16 2
      let st := regionCheck s i c.data
      if st ≠ 0 then reject s c st
      else finish (setRegion s i (regionOf c.data)) 0 n 0) s)

/-- REGION_UNMAP: the descriptor becomes invalid; the fill of its range ends the command (R316). -/
def execRegionUnmap (n : Word) (s : State) : Out :=
  .next (own 20 0 n (fun s c =>
    let i := cF c 16 2
    let r := region s i
    if 16320 ≤ i ∨ !zero c 18 46 then reject s c stBadField
    else if r.kind = 0 ∨ r.unmapping ∨ regionHolds s i then reject s c stBadState
    else setRegion (setPhase (arrive s c) c .unit) i { r with unmapping := true }) noLanded s)

/-! ## STATS_READ (R274) -/

/-- One record. -/
def statRec (s : State) (blk inst base off words : Nat) : Bytes :=
  toLE 1 blk ++ toLE 1 inst ++ toLE 2 words ++ toLE 4 off ++ rbytes s (base + off) 0 words

/-- The records of the selected blocks. -/
def statRecs (s : State) (sel : Nat) : List Bytes :=
  let block (b blk n : Nat) (base : Nat → Nat) (rs : List (Nat × Nat)) : List Bytes :=
    if bit sel b then (List.range n).flatMap (fun i => rs.map (fun (o, w) => statRec s blk i (base i) o w)) else []
  block 0 1 1 (fun _ => 0x100000) [(0x40, 10)] ++
    block 1 2 8 (fun f => foldReg f 0x400000) [(0x20040, 7), (0x30040, 7)] ++
    block 2 3 8 (fun f => foldReg f 0x800000) [(0x10040, 9), (0x10108, 10)] ++
    block 3 4 2 (fun c => coreReg c 0) [(0x40, 6), (0x10040, 4)] ++
    block 4 5 2 (fun c => coreReg c 0x400000) [(0x40, 5)] ++
    block 5 6 2 (fun c => coreReg c 0x800000) [(0x40, 4), (0x20008, 11)]

/-- STATS_READ: samples the counters and writes them to the destination. -/
def execStatsRead (n : Word) (s : State) : Out :=
  .next (own 21 0 n (fun s c =>
    let sel := cF c 16 1
    if sel = 0 ∨ 64 ≤ sel ∨ !zero c 17 3 ∨ !zero c 32 32 ∨ !plainAddr (cF c 24 8) then reject s c stBadField
    else
      let rs := statRecs s sel
      let len := 32 + (rs.map List.length).sum
      if cF c 20 4 < len then reject s c stBadLength
      else
        let data := toLE 8 (now s) ++ toLE 4 len ++ toLE 2 rs.length ++ List.replicate 18 0 ++ rs.flatten
        finish (sendDst (arrive s c) c .stats (cF c 24 8) data) 0 n 0) noLanded s)

/-! ## LEASE_RENEW (R301, R306) -/

/-- CLK_SLOW cycles of a lease period in ms. -/
def leaseCyc (ms : Nat) : Nat := ms * 100000

/-- LEASE_RENEW's shared operand checks. -/
def leaseOk (c : Cmd) : Bool := zero c 17 1 && zero c 24 40

/-- LEASE_RENEW with KIND 0: sets the owner lease period when PERIOD is not 0, and renews the lease (R301); one that
comes after the cycle of the expiry renews nothing (R302). A reserved KIND is refused here. -/
def execLeaseRenewOwner (n : Word) (s : State) : Out :=
  .next (if rowMine s 0 n (fun c => cF c 16 1 != 1) then
      own 24 0 n (fun s c =>
        let p := cF c 20 4
        if cF c 16 1 ≠ 0 ∨ !leaseOk c ∨ cF c 18 2 ≠ 0 ∨ (p ≠ 0 ∧ (p < 100 ∨ 60000 < p)) then reject s c stBadField
        else if !s.np.owned ∨ s.np.lapsed ∨ s.np.expiry < slow s then reject s c stLeaseLost
        else
          let s := if p = 0 then s else rset s aNpLeaseTimeout 0 p
          let s := { s with np := { s.np with expiry := slow s + leaseCyc (rv s aNpLeaseTimeout) } }
          finish (arrive s c) 0 n 0) noLanded s
    else s)

/-- LEASE_RENEW with KIND 1: sets a live session's period when PERIOD is not 0, and renews its lease, up to the cycle
of its expiry (R302, R306). -/
def execLeaseRenewSession (n : Word) (s : State) : Out :=
  .next (if rowMine s 0 n (fun c => cF c 16 1 == 1) then
      own 24 0 n (fun s c =>
        let p := cF c 20 4
        let i := cF c 18 2
        if !leaseOk c ∨ i = 0 ∨ 1023 < i ∨ (p ≠ 0 ∧ (p < 10 ∨ 60000 < p)) then reject s c stBadField
        else if !(session s i).live ∨ (session s i).expiry < slow s then reject s c stLeaseLost
        else
          let s := if p = 0 then s else rset s aNpSesPeriod i p
          let s := updSession s i (fun x => { x with expiry := slow s + leaseCyc (rv s aNpSesPeriod i) })
          finish (arrive s c) 0 n 0) noLanded s
    else s)

end Sys2Proof.Machine
end

