-- ==== Sys2Proof/Machine/Operands.lean ====
section
/-! DEFINITION. Operands of the matrix array and the vector engine: operand references, where an element
lies, reading an element as FP32 and the check of block tags (R147, R188, R189, R204, R209). -/

namespace Sys2Proof.Machine

/-- An operand reference from its 16 bytes (R188). -/
def opRef (b : Bytes) : OpRef :=
  let k := fld b 14 1
  let l := fld b 15 1
  { addr := fld b 0 4, saddr := fld b 4 4, rowlen := fld b 8 2, row0 := fld b 10 2, col0 := fld b 12 2
    kind := k % 8, fmt := l % 8, group := bits l 4 3, panel := bit l 0, plog := bits l 3 1 }

/-- WIN of a scratch address of R188. -/
def refWin (a : Nat) : Nat := bits a 31 29
/-- Window offset of a scratch address of R188. -/
def refOff (a : Nat) : Nat := a % 2 ^ 26

/-- Bytes of a data block of 256 elements (R189). -/
def blockBytes (r : OpRef) : Nat := if r.fmt = 0 then 128 else 256

/-- Block index b of an element (R147, R189). -/
def blockIdx (r : OpRef) (R C : Nat) : Nat := R * (r.rowlen / 256) + C / 256

/-- Element size of a plain tensor. -/
def elemSize (r : OpRef) : Nat := if r.kind = 3 then 2 else if r.kind = 5 then 1 else 4

/-- Window offset of a plain element (R189). -/
def plainOff (r : OpRef) (R C : Nat) : Nat :=
  let e := elemSize r
  let w := 32 * 2 ^ r.plog
  refOff r.addr + (if r.panel then e * (C / w * r.saddr + R * r.rowlen + C % w)
    else e * (R * r.rowlen + C))

/-- Row R of an operand row under its Δ. -/
def opRow (r : OpRef) (d row : Nat) : Nat := (r.row0 + d + row) % 2 ^ 32

/-- `n` bytes at an offset of a window read at the core port: lines of 0 where the access is suppressed
(R164); the flag says that it was. -/
def winRead (x : Core) (v : Slot) (w off n : Nat) : Span × Bool :=
  match winAddr v w off n false with
  | some a => (scrRead x a n, false)
  | none => ({ data := List.replicate n 0 }, true)

/-- The parts of a range that lie in one line of 128 B each, as offset and length (R164 judges each line touched). -/
def linePieces (off n : Nat) : List (Nat × Nat) :=
  if n = 0 then []
  else (List.range ((off + n - 1) / 128 + 1 - off / 128)).map (fun i =>
    let a := max off ((off / 128 + i) * 128)
    (a, min (off + n) ((off / 128 + i + 1) * 128) - a))

/-- A range read line by line at the core port: a line outside the window reads as 0, the others as they are (R164,
R189); the flag says that one was suppressed. -/
def winLines (x : Core) (v : Slot) (w off n : Nat) : Span × Bool :=
  (linePieces off n).foldl (fun (sp, den) (o, k) =>
    let t := winRead x v w o k
    ({ data := sp.data ++ t.1.data, poison := sp.poison || t.1.poison
       suspect := sp.suspect || t.1.suspect, hard := sp.hard || t.1.hard }, den || t.2)) (({ data := [] } : Span), false)

/-- The scale block agrees with the block index, format and group size expected (R147). -/
def scaleOk (r : OpRef) (b : Nat) (sc : Bytes) : Bool :=
  fld sc 0 1 == b % 256 && fld sc 1 1 % 8 == r.fmt && bits (fld sc 1 1) 4 3 == r.group

/-- An element read: FP32 value, stored word, marks, whether an access was suppressed, and the block
whose check failed. -/
structure Src where
  v : Nat
  raw : Nat := 0
  poison : Bool := false
  suspect : Bool := false
  hard : Bool := false
  denied : Bool := false
  mis : Option Nat := none
  deriving DecidableEq, Repr

/-- An element outside its window, set or register: it reads 0 (R164, R204). -/
def srcDenied : Src := { v := 0, denied := true }

/-- A quantised element (R136, R145, R147, R189). -/
def srcQuant (x : Core) (v : Slot) (r : OpRef) (R C : Nat) : Src :=
  let b := blockIdx r R C
  let sc := winLines x v (refWin r.saddr) (refOff r.saddr + 16 * b) 16
  let da := winLines x v (refWin r.addr) (refOff r.addr + b * blockBytes r) (blockBytes r)
  let i := C % 256
  let el := winRead x v (refWin r.addr)
    (refOff r.addr + b * blockBytes r + (if r.fmt = 0 then i / 2 else i)) 1
  let mis := !(da.1.poison || sc.1.poison) && !scaleOk r b sc.1.data
  let val := match qfmtOf r.fmt with
    | some .int8a => qdecA (fld sc.1.data 4 4) (fld sc.1.data 8 4) (codeAt .int8a da.1.data i)
    | some f => qdec f (fld sc.1.data 4 4) (fld sc.1.data (8 + i / groupSize r.group) 1)
        (codeAt f da.1.data i)
    | none => 0
  { v := val, raw := val, poison := el.1.poison || sc.1.poison || mis
    suspect := el.1.suspect || sc.1.suspect, hard := el.1.hard || sc.1.hard
    denied := sc.2 || el.2, mis := if mis then some b else none }

/-- FP32 value of the bits of a plain element (R209). -/
def plainVal (kind raw : Nat) : Nat :=
  if kind = 3 then ofBf16 raw
  else if kind = 5 then ofInt32 (sgn 8 raw)
  else if kind = 6 then ofInt32 (sgn 32 raw)
  else raw

/-- A plain element (R189, R209). -/
def srcPlain (x : Core) (v : Slot) (r : OpRef) (R C : Nat) : Src :=
  let p := winLines x v (refWin r.addr) (plainOff r R C) (elemSize r)
  let raw := leNat p.1.data
  { v := plainVal r.kind raw, raw := raw, poison := p.1.poison, suspect := p.1.suspect
    hard := p.1.hard, denied := p.2 }

/-- Index of an accumulator element (R203); none outside the set (R189). -/
def accIdx (r : OpRef) (R C : Nat) : Option Nat :=
  if R ≤ 31 ∧ C ≤ 255 then some (r.addr % 4 * 8192 + R * 256 + C) else none

/-- Index of a vector register element; none outside the register (R189). -/
def vrIdx (r : OpRef) (R C : Nat) : Option Nat :=
  if R * r.rowlen + C ≤ 511 then some (r.addr % 8 * 512 + R * r.rowlen + C) else none

/-- A set is tagged INT32 (R203). -/
def accIsInt (x : Core) (set : Nat) : Bool := mget false x.accInt set

/-- Element (R, C) of an operand (R189, R209). -/
def srcAt (x : Core) (v : Slot) (r : OpRef) (R C : Nat) : Src :=
  match r.kind with
  | 1 =>
    match accIdx r R C with
    | some i =>
      let e := mget {} x.acc i
      { v := if accIsInt x (r.addr % 4) then ofInt32 (sgn 32 e.v.toNat) else e.v.toNat
        raw := e.v.toNat, poison := e.poison, suspect := e.suspect, hard := e.hard }
    | none => srcDenied
  | 4 => srcQuant x v r R C
  | 7 =>
    match vrIdx r R C with
    | some i =>
      let e := mget {} x.vr i
      { v := e.v.toNat, raw := e.v.toNat, poison := e.poison, suspect := e.suspect, hard := e.hard }
    | none => srcDenied
  | 0 => { v := 0 }
  | _ => srcPlain x v r R C

/-- An operand holds 32-bit integers: INT32 in scratch, or a set tagged INT32 (R212). -/
def srcIsInt (x : Core) (r : OpRef) : Bool := r.kind == 6 || (r.kind == 1 && accIsInt x (r.addr % 4))

end Sys2Proof.Machine
end

