-- ==== Sys2Proof/Machine/Ma.lean ====
section
/-! DEFINITION. The matrix array: descriptors, fetch lists and their cycles, unit results, terms, the
reduction order, and the writing of an accumulator set (R186 to R205). -/

namespace Sys2Proof.Machine

/-! ## Descriptor and timing -/

/-- Lines per data block LW or LX (R198). -/
def maLines (r : OpRef) : Nat :=
  if r.kind = 4 then (if r.fmt = 0 then 1 else 2) else if r.kind = 5 then 2 else 4

/-- SW or SX (R198). -/
def maScales (r : OpRef) : Nat := if r.kind = 4 then 1 else 0

/-- The combinations of R187. -/
def maComb (w x : OpRef) : Bool :=
  if w.kind = 4 ∧ x.kind = 4 then
    (w.fmt == 0 && (x.fmt == 1 || x.fmt == 2 || x.fmt == 3)) ||
    ((w.fmt == 1 || w.fmt == 2) && (x.fmt == 1 || x.fmt == 2)) || (w.fmt == 3 && x.fmt == 3)
  else (w.kind == 5 && x.kind == 5) || (w.kind == 3 && x.kind == 3)

/-- Lines fetched per tile pair N (R198). -/
def maN (j : MaJob) : Nat :=
  j.nout * (maLines j.w + maScales j.w) + j.m * (maLines j.x + maScales j.x)

/-- F = ceil(N / 16) (R198). -/
def maF (n : Nat) : Nat := (n + 15) / 16

/-- T = max(Cc, F) (R198). -/
def maT (m rq pace n : Nat) : Nat := max ((32 * m * rq + pace - 1) / pace) (maF n)

/-- An MMA from its descriptor, its Δ values and the launch's pace (R191, R198). -/
def maJob (slot : Nat) (v : Slot) (at_ : Nat) (pc : BitVec 17) (set : Nat) (zero : Bool) (dw dx : Nat)
    (sp : Span) : MaJob :=
  let d := sp.data
  let w := opRef (d.take 16)
  let x := opRef ((d.drop 16).take 16)
  let j : MaJob :=
    { slot := slot, req := v.req, issued := at_, bundle := pc, set := set, zero := zero, w := w, x := x
      dw := dw, dx := dx, nout := fld d 32 2, m := fld d 34 1, kb := fld d 36 2
      period := 0, occ := 0, mark := sp.poison }
  let t := maT j.m (if w.kind = 3 then 4 else 1) v.pace (maN j)
  { j with period := t, occ := maF (maN j) + j.kb * t }

/-! ## Operand fetch (R199) -/

/-- Line `k` of the data block of an operand row in pair `p`: 128 B of a quantised block, or the
elements of a plain tensor, 32 at a time. -/
def maDataLine (x : Core) (v : Slot) (r : OpRef) (d row k p : Nat) : Span × Bool :=
  let R := opRow r d row
  let C := r.col0 + 256 * p
  if r.kind = 4 then
    winLines x v (refWin r.addr) (refOff r.addr + blockIdx r R C * blockBytes r + 128 * k) 128
  else
    let e := elemSize r
    (List.range (4 / e)).foldl (fun (sp, den) i =>
      let t := winLines x v (refWin r.addr) (plainOff r R (C + k * (128 / e) + 32 * i)) (32 * e)
      ({ data := sp.data ++ t.1.data, poison := sp.poison || t.1.poison
         suspect := sp.suspect || t.1.suspect, hard := sp.hard || t.1.hard }, den || t.2))
      (({ data := [] } : Span), false)

/-- The scale block of an operand row in pair `p`. -/
def maScale (x : Core) (v : Slot) (r : OpRef) (d row p : Nat) : Span × Bool :=
  winLines x v (refWin r.saddr) (refOff r.saddr + 16 * blockIdx r (opRow r d row) (r.col0 + 256 * p)) 16

/-- Line `l` of the fetch list of pair `p`: weight data, weight scales, activation data, activation
scales. -/
def maItem (x : Core) (v : Slot) (j : MaJob) (p l : Nat) : Span × Bool :=
  let lw := maLines j.w
  let lx := maLines j.x
  let a := j.nout * lw
  let b := a + j.nout * maScales j.w
  let c := b + j.m * lx
  if l < a then maDataLine x v j.w j.dw (l / lw) (l % lw) p
  else if l < b then maScale x v j.w j.dw (l - a) p
  else if l < c then maDataLine x v j.x j.dx ((l - b) / lx) ((l - b) % lx) p
  else maScale x v j.x j.dx (l - c) p

/-- One cycle of fetch: 16 lines read, and what follows: the next 16, the next pair, or the end. -/
def doMaFetch (s : State) (c : Nat) (j : MaJob) : State :=
  let x := core s c
  let v := cslot x j.slot
  let n := maN j
  let ls := (List.range 16).map (· + 16 * j.grp) |>.filter (· < n)
  let got := ls.map (maItem x v j j.pair)
  let j1 := { j with got := (got.map (·.1)).reverse ++ j.got }
  let x := if got.any (·.2) then recExc x j.slot stRegionDenied j.issued true else x
  let st := j.issued + 2
  let nf : Flight :=
    if 16 * (j.grp + 1) < n then
      { due := st + j.pair * j.period + j.grp + 1, reads := true, mav := some j.slot
        act := .maFetch { j1 with grp := j.grp + 1 } }
    else if j.pair + 1 < j.kb then
      { due := st + (j.pair + 1) * j.period, reads := true, mav := some j.slot
        act := .maFetch { j1 with pair := j.pair + 1, grp := 0 } }
    else
      { due := j.issued + j.occ + 16, reads := false, mav := some j.slot, act := .maDone j1 }
  setCore s c { x with flight := x.flight ++ [nf] }

/-! ## Arithmetic (R193 to R196) -/

/-- A data block as fetched: bytes, scale block, marks, and whether its check failed (R147). -/
structure Blk where
  data : Bytes
  sc : Bytes
  poison : Bool
  suspect : Bool
  hard : Bool
  mis : Bool
  deriving DecidableEq, Repr

/-- The data block of an operand row from the lines of its pair. -/
def maBlk (r : OpRef) (d row p : Nat) (lines : List Span) (sc : Option Span) : Blk :=
  let s := sc.toList
  let pz := lines.any (·.poison) || s.any (·.poison)
  let scb := (s.map (·.data)).headD []
  let b := blockIdx r (opRow r d row) (r.col0 + 256 * p)
  { data := lines.flatMap (·.data), sc := scb, poison := pz
    suspect := lines.any (·.suspect) || s.any (·.suspect)
    hard := lines.any (·.hard) || s.any (·.hard)
    mis := r.kind == 4 && !pz && !scaleOk r b scb }

/-- Weight blocks, then activation blocks, of pair `p`, from its lines in fetch order. -/
def maBlks (j : MaJob) (p : Nat) (items : List Span) : List Blk × List Blk :=
  let lw := maLines j.w
  let lx := maLines j.x
  let a := j.nout * lw
  let b := a + j.nout * maScales j.w
  let c := b + j.m * lx
  ((List.range j.nout).map (fun n =>
      maBlk j.w j.dw n p ((items.drop (n * lw)).take lw)
        (if j.w.kind = 4 then (items.drop (a + n)).head? else none)),
   (List.range j.m).map (fun m =>
      maBlk j.x j.dx m p ((items.drop (b + m * lx)).take lx)
        (if j.x.kind = 4 then (items.drop (c + m)).head? else none)))

/-- Grid value of element `i` of a block (R193). -/
def maGrid (r : OpRef) (b : Blk) (i : Nat) : Fv :=
  if r.kind = 4 then
    match qfmtOf r.fmt with
    | some f => gridVal f (codeAt f b.data i)
    | none => .nan
  else if r.kind = 3 then fdec BF16 (fld b.data (2 * i) 2)
  else let g := sgn 8 (fld b.data i 1); .fin (g < 0) g.natAbs 0

/-- The unit result u of chunk `q` of a pair of blocks (R193). An exact zero is +0. -/
def maUnit (j : MaJob) (w x : Blk) (q : Nat) : Nat :=
  let e := (List.range 32).foldl
    (fun (e : ESum) i => esAdd e (fvMul (maGrid j.w w (32 * q + i)) (maGrid j.x x (32 * q + i)))) {}
  esOut { e with allNegZero := false }

/-- Group scale code of chunk `q` (R139). -/
def maGcode (r : OpRef) (b : Blk) (q : Nat) : Nat := fld b.sc (8 + 32 * q / groupSize r.group) 1

/-- The term of chunk `q` (R194). -/
def maTerm (j : MaJob) (w x : Blk) (q : Nat) : Nat :=
  if j.w.kind = 4 then
    let gw := maGcode j.w w q
    let gx := maGcode j.x x q
    if gw = 0 ∨ gx = 0 then 0
    else mul32 (maUnit j w x q) (mul32 (groupT (fld w.sc 4 4) gw) (groupT (fld x.sc 4 4) gx))
  else maUnit j w x q

/-- The exact unit result of the plain INT8 combination (R196). -/
def maTermI (w x : Blk) (q : Nat) : Int :=
  (List.range 32).foldl (fun a i =>
    a + sgn 8 (fld w.data (32 * q + i) 1) * sgn 8 (fld x.data (32 * q + i) 1)) 0

/-- The two tiles of a pair added to c (R195). -/
def maPair (j : MaJob) (c : Nat) (w x : Blk) : Nat :=
  (List.range 2).foldl (fun c h =>
    let t := fun k => maTerm j w x (4 * h + k)
    add32 c (add32 (add32 (t 0) (t 1)) (add32 (t 2) (t 3)))) c

/-- The two tiles of a pair added to c in two's complement (R196). -/
def maPairI (c : Nat) (w x : Blk) : Nat :=
  tc 32 ((List.range 8).foldl (fun a q => a + maTermI w x q) (c : Int))

/-- C[m][n] after an MMA, from its starting element and its blocks pair by pair (R195, R203, R204). -/
def maOut (j : MaJob) (isInt : Bool) (start : El) (ws xs : List Blk) : El :=
  let bs := ws.zip xs
  let v := bs.foldl (fun c (w, x) => if isInt then maPairI c w x else maPair j c w x) start.v.toNat
  { v := BitVec.ofNat 32 v
    poison := start.poison || j.mark || bs.any (fun (w, x) => w.poison || x.poison || w.mis || x.mis)
    suspect := start.suspect || bs.any (fun (w, x) => w.suspect || x.suspect) }

/-- The end of an MMA: the set is written, or, when the tag of the set differs from the accumulator type
and the sums start from its contents, the writes are suppressed (R203, R204). Every output whose reduction holds a
result that failed its check is SUSPECT. An armed MA_RES_INJ strikes output (0, 0) of the first MMA whose result is
then written (DESIGN CHOICE: R205 says only the next unit result; log entry 137). -/
def doMaDone (s : State) (c : Nat) (j : MaJob) : State :=
  let x := core s c
  let isInt := j.w.kind == 5
  let n := maN j
  let items := j.got.reverse
  let pairs := (List.range j.kb).map (fun p => maBlks j p ((items.drop (p * n)).take n))
  let blks := pairs.flatMap (fun p => p.1 ++ p.2)
  let mis := (blks.filter (·.mis)).length
  let x := if mis = 0 then x else recExc x j.slot stMisaligned j.issued false
  let s := cntN (setCore s c x) (coreReg c aVeCntMisalign) 0 mis
  let hard := blks.any (·.hard) || j.mark
  if !j.zero && accIsInt x j.set != isInt then
    setCore s c (recExc x j.slot stBadField j.issued true)
  else
    let cells := (List.range j.m).flatMap (fun m => (List.range j.nout).map (fun n => (m, n)))
    let inside := cells.filter (fun (m, n) => m ≤ 31 ∧ n ≤ 255)
    let outs := inside.map (fun (m, n) =>
      let i := j.set * 8192 + m * 256 + n
      let start : El := if j.zero then {} else mget {} x.acc i
      (i, start.hard, maOut j isInt start (pairs.map (fun (p : List Blk × List Blk) => (p.1[n]?).getD ⟨[], [], false, false, false, false⟩))
        (pairs.map (fun (p : List Blk × List Blk) => (p.2[m]?).getD ⟨[], [], false, false, false, false⟩))))
    let arm := rb s (coreReg c aMaResInj) 0 0 && j.kb != 0
    let outs := outs.map (fun (i, h, e) =>
      (i, h, if j.bad.any (fun (m, n) => j.set * 8192 + m * 256 + n == i) then { e with suspect := true } else e))
    let outs := if arm then
        (match outs with | (i, h, e) :: r => (i, h, { e with suspect := true }) :: r | [] => []) else outs
    let x := { x with acc := outs.foldl (fun a (i, _, e) => mset {} a i e) x.acc
                      accInt := mset false x.accInt j.set (if j.zero then isInt else accIsInt x j.set) }
    let x := if inside.length < cells.length then recExc x j.slot stRegionDenied j.issued true else x
    let s := setCore s c x
    let s := if outs.any (fun (_, _, e) => e.poison) then cnt s (coreReg c aMaCntPoison) else s
    let s := if hard || outs.any (fun (_, h, _) => h) then markPoison s j.req else s
    if arm && !outs.isEmpty then
      residueReport (rsetF s (coreReg c aMaResInj) 0 0 0 0) c j.slot j.req j.set j.bundle.toNat
    else s

/-- A result in the reduction of output (m, n) fails its check: the output is marked SUSPECT, in the set if the MMA of
that set and bundle has written it, else when it does (R205). -/
def suspectOut (x : Core) (k set bundle m n : Nat) : Core :=
  let mine (j : MaJob) : Bool := j.slot == k && j.set == set && j.bundle.toNat == bundle
  let hit (f : Flight) : Bool := match f.act with | .maFetch j => mine j | .maDone j => mine j | _ => false
  if x.flight.any hit then
    { x with flight := x.flight.map (fun f => if !hit f then f else match f.act with
        | .maFetch j => { f with act := .maFetch { j with bad := j.bad ++ [(m, n)] } }
        | .maDone j => { f with act := .maDone { j with bad := j.bad ++ [(m, n)] } }
        | _ => f) }
  else
    let i := set * 8192 + m * 256 + n
    { x with acc := mset {} x.acc i { mget {} x.acc i with suspect := true } }

/-- ACLR (R190): +0 in every element of the set, its tag FP32, its flags clear. -/
def doAclr (x : Core) (set : Nat) : Core :=
  { x with acc := mclr x.acc (set * 8192) 8192, accInt := mset false x.accInt set false }

end Sys2Proof.Machine
end

