-- ==== Sys2Proof/Machine/Transc.lean ====
section
/-! DEFINITION. The activation functions of R211. Functions 3 to 10 return the FP32 value nearest to the
exact real function: reciprocal and reciprocal root are rounded exactly; the others are evaluated in
fixed point with 1,024 fraction bits, far beyond the distance of any FP32 argument's image from a
rounding boundary that is known (log entry 15). -/

namespace Sys2Proof.Machine

/-- Fraction bits of the fixed-point evaluation. -/
def FX : Nat := 1024
/-- One in fixed point. -/
def fxOne : Int := 2 ^ FX

/-- Product in fixed point. -/
def fxMul (a b : Int) : Int := a * b / 2 ^ FX
/-- Quotient in fixed point. -/
def fxDiv (a b : Int) : Int := a * 2 ^ FX / b

/-- Sum of a series: term t at index n, each next term given by `nxt`, at most `fuel` terms. -/
def fxSeries (nxt : Nat → Int → Int) : Nat → Nat → Int → Int → Int
  | 0, _, _, acc => acc
  | k + 1, n, t, acc => fxSeries nxt k (n + 1) (nxt n t) (acc + t)

/-- ln 2 as Σ 1 / (k 2^k). -/
def fxLn2 : Int :=
  (List.range 1030).foldl (fun a k => a + fxOne / (((k + 1 : Nat) : Int) * 2 ^ (k + 1))) 0

/-- arctan(1/q), each term divided by its odd index. -/
def fxAtanQ (q : Int) : Nat → Nat → Int → Int → Int
  | 0, _, _, acc => acc
  | k + 1, n, t, acc => fxAtanQ q k (n + 1) (-(t / (q * q))) (acc + t / ((2 * n + 1 : Nat) : Int))

/-- π by Machin's formula. -/
def fxPi : Int := 4 * (4 * fxAtanQ 5 450 0 (fxOne / 5) 0 - fxAtanQ 239 150 0 (fxOne / 239) 0)

/-- e^r for |r| below 1. -/
def fxExpSmall (r : Int) : Int :=
  fxSeries (fun n t => fxMul t r / ((n + 1 : Nat) : Int)) 180 0 fxOne 0

/-- e^x, as mantissa in fixed point in [1/2, 4) and a power of two. -/
def fxExp (x : Int) : Int × Int :=
  let k := x / fxLn2
  (fxExpSmall (x - k * fxLn2), k)

/-- e^x in fixed point, for x at most about 200. -/
def fxExpV (x : Int) : Int :=
  let (v, k) := fxExp x
  if 0 ≤ k then v * 2 ^ k.toNat else v / 2 ^ (-k).toNat

/-- A finite FP32 value in fixed point. -/
def fxOf (neg : Bool) (m : Nat) (e : Int) : Int :=
  let k := e + FX
  sint neg (if 0 ≤ k then m * 2 ^ k.toNat else m / 2 ^ (-k).toNat)

/-- A fixed-point value rounded to FP32; an exact zero in fixed point takes the sign given. -/
def fxRound (x : Int) (zneg : Bool) : Nat :=
  if x = 0 then fzero F32 zneg else fround F32 (x < 0) x.natAbs (-(FX : Int)) true

/-- ln m for a normalised mantissa in [1, 2), by 2 artanh((m − 1)/(m + 1)). -/
def fxLnMant (v : Int) : Int :=
  let z := fxDiv (v - fxOne) (v + fxOne)
  let z2 := fxMul z z
  let rec go : Nat → Nat → Int → Int → Int
    | 0, _, _, acc => acc
    | k + 1, n, t, acc => go k (n + 1) (fxMul t z2) (acc + t / ((2 * n + 1 : Nat) : Int))
  2 * go 340 0 z 0

/-- Φ(x) for |x| at most 16, in fixed point. -/
def fxPhi (x : Int) : Int :=
  let a : Int := x.natAbs
  let pdfInv := sqrtFloor (2 * fxPi * fxOne).toNat
  let pdf := fxDiv (fxExpV (-(fxMul a a / 2))) pdfInv
  let s := fxSeries (fun n t => fxMul (fxMul t a) a / ((2 * n + 3 : Nat) : Int)) 900 0 a 0
  let h := fxMul pdf s
  if x < 0 then fxOne / 2 - h else fxOne / 2 + h

/-- |x| is at least n, for a finite value. -/
def magGe (m : Nat) (e : Int) (n : Nat) : Bool :=
  if 0 ≤ e then n ≤ m * 2 ^ e.toNat else n * 2 ^ (-e).toNat ≤ m

/-- 1 / (1 + e^−x) in fixed point. -/
def fxSigm (x : Int) : Int := fxDiv fxOne (fxOne + fxExpV (-x))

/-- SIGMOID (R211). -/
def actSigmoid (x : Nat) : Nat :=
  match fdec F32 x with
  | .nan => cnan F32
  | .inf n => if n then 0 else 0x3F800000
  | .fin n m e =>
    if magGe m e 160 then (if n then 0 else 0x3F800000) else fxRound (fxSigm (fxOf n m e)) false

/-- TANH (R211). A zero is the nearest value for a zero input, and it keeps the input's sign, here and in SILU and GELU
(DESIGN CHOICE: R211 names no sign for it; log entry 138). -/
def actTanh (x : Nat) : Nat :=
  match fdec F32 x with
  | .nan => cnan F32
  | .inf n => if n then 0xBF800000 else 0x3F800000
  | .fin n m e =>
    if m = 0 then x
    else if magGe m e 20 then (if n then 0xBF800000 else 0x3F800000)
    else if m * 2 ^ 24 < 2 ^ (24 - 12 - e).toNat then
      -- |x| < 2^−12: x − x³/3 + 2x⁵/15, below one last place of the fixed point
      let v := fxOf n m e
      let v2 := fxMul v v
      fxRound (v - fxMul v v2 / 3 + 2 * fxMul v (fxMul v2 v2) / 15) n
    else
      let y := fxExpV (2 * fxOf n m e)
      fxRound (fxDiv (y - fxOne) (y + fxOne)) n

/-- SILU (R211). -/
def actSilu (x : Nat) : Nat :=
  match fdec F32 x with
  | .nan => cnan F32
  | .inf n => if n then 0x80000000 else 0x7F800000
  | .fin n m e =>
    if m = 0 then x
    else if magGe m e 160 then (if n then 0x80000000 else x)
    else
      let v := fxOf n m e
      fxRound (fxMul v (fxSigm v)) n

/-- GELU (R211). -/
def actGelu (x : Nat) : Nat :=
  match fdec F32 x with
  | .nan => cnan F32
  | .inf n => if n then 0x80000000 else 0x7F800000
  | .fin n m e =>
    if m = 0 then x
    else if magGe m e 16 then (if n then 0x80000000 else x)
    else
      let v := fxOf n m e
      fxRound (fxMul v (fxPhi v)) n

/-- EXP (R211). -/
def actExp (x : Nat) : Nat :=
  match fdec F32 x with
  | .nan => cnan F32
  | .inf n => if n then 0 else 0x7F800000
  | .fin n m e =>
    if m = 0 then 0x3F800000
    else if magGe m e 128 then (if n then 0 else 0x7F800000)
    else fxRound (fxExpV (fxOf n m e)) false

/-- LOG (R211). -/
def actLog (x : Nat) : Nat :=
  match fdec F32 x with
  | .nan => cnan F32
  | .inf n => if n then cnan F32 else 0x7F800000
  | .fin n m e =>
    if m = 0 then 0xFF800000
    else if n then cnan F32
    else
      let l := Nat.log2 m
      let v := fxLnMant (m * 2 ^ (FX - l))
      fxRound (v + (e + l) * fxLn2) false

/-- RECIP (R211). -/
def actRecip (x : Nat) : Nat := fvDiv F32 (.fin false 1 0) (fdec F32 x)

/-- RSQRT (R211). -/
def actRsqrt (x : Nat) : Nat :=
  match fdec F32 x with
  | .nan => cnan F32
  | .inf n => if n then cnan F32 else 0
  | .fin n m e =>
    if m = 0 then finf F32 n
    else if n then cnan F32
    else
      -- 1/√(m 2^e) = √(2^(2K) / m') 2^(−K − e'/2) with e' even
      let m' := if e % 2 = 0 then m else 2 * m
      let e' := if e % 2 = 0 then e else e - 1
      let v := 2 ^ 200 / m'
      let r := sqrtFloor v
      fround F32 false r (-100 - e' / 2) (!(r * r == v && 2 ^ 200 % m' == 0))

/-- LEAKY (R211), the slope an FP32 value. -/
def actLeaky (x slope : Nat) : Nat :=
  match fdec F32 x with
  | .nan => cnan F32
  | .inf n => if n then mul32 x slope else x
  | .fin n m _ => if n && m != 0 then mul32 x slope else x

/-- RELU (R211). -/
def actRelu (x : Nat) : Nat :=
  match fdec F32 x with
  | .nan => cnan F32
  | .inf n => if n then 0 else x
  | .fin n m _ => if n || m = 0 then 0 else x

/-- The activation of a code (R211); `imm` is the widened immediate. NONE passes a value unchanged, a NaN
as the canonical NaN. -/
def actFn (a : Nat) (imm x : Nat) : Nat :=
  match a with
  | 0 => if isNan32 x then cnan F32 else x
  | 1 => actRelu x
  | 2 => actLeaky x imm
  | 3 => actSigmoid x
  | 4 => actTanh x
  | 5 => actSilu x
  | 6 => actGelu x
  | 7 => actExp x
  | 8 => actLog x
  | 9 => actRecip x
  | 10 => actRsqrt x
  | _ => x

end Sys2Proof.Machine
end

