-- ==== Sys2Proof/Machine/Ve.lean ====
section
/-! DEFINITION. The vector engine: descriptors, slabs and their cycles, element functions, scans and
reductions, destination encodings, quantised blocks and their statistics, and marks (R206 to R215, R150,
R151). -/

namespace Sys2Proof.Machine

/-! ## Descriptor and timing -/

/-- A vector instruction from its descriptor (R207, R208, R214). `op` is 1 VEW, 2 VSCAN, 3 VRED. -/
def veJob (slot : Nat) (v : Slot) (at_ op fn act : Nat) (rule : Bool) (imm dx : Nat) (sp : Span) : VeJob :=
  let d := sp.data
  let D := opRef ((d.drop 32).take 16)
  { slot := slot, req := v.req, issued := at_, op := op, fn := fn, act := act, rule := rule, imm := imm
    a := opRef (d.take 16), b := opRef ((d.drop 16).take 16), d := D, dx := dx
    rows := fld d 48 2, cols := fld d 50 2, bcast := fld d 52 1 % 4, stat := fld d 56 4
    q := if (3 ≤ act ∧ act ≤ 10) ∨ (D.kind = 4 ∧ !rule) then 2 else 1, mark := sp.poison }

/-- Slab count S (R214). -/
def veSlabs (j : VeJob) : Nat := (j.rows * j.cols + 511) / 512

/-- OCC (R214). -/
def veOcc (j : VeJob) : Nat := veSlabs j * j.q

/-- A function code that the instruction defines, with an ACT and a BCAST it may have, and a quantised destination
that holds whole blocks (R192, R210, R212, R213). -/
def veFnOk (j : VeJob) : Bool :=
  (j.d.kind != 4 || (j.op != 3 && j.cols % 256 == 0 && (qfmtOf j.d.fmt).isSome)) && match j.op with
  | 1 => j.fn ≤ 8 && (j.fn != 3 || j.b.kind != 0) &&
      !(j.act == 2 && (j.fn == 3 || (j.fn ≤ 5 && j.b.kind == 0)))
  | 2 => j.fn ≤ 3 && (j.b.kind == 0 || j.bcast == 0)
  | _ => j.fn == 0 || j.fn == 2 || j.fn == 3

/-- The function uses b′ (R210). -/
def veUsesB (fn : Nat) : Bool := fn ≤ 5

/-! ## Elements -/

/-- The A element of row `r` and column `c`. -/
def veA (x : Core) (v : Slot) (j : VeJob) (r c : Nat) : Src :=
  srcAt x v j.a (opRow j.a j.dx r) (j.a.col0 + c)

/-- The B element that BCAST selects (R208). Row ROW0 of BCAST 1 is ROW0 plus the Δ of XO, as any row of B is (DESIGN
CHOICE: log entry 172). -/
def veB (x : Core) (v : Slot) (j : VeJob) (r c : Nat) : Src :=
  srcAt x v j.b (opRow j.b j.dx (if j.bcast = 1 then 0 else r))
    (if j.bcast = 2 then j.b.col0 else j.b.col0 + c)

/-- f of R210. -/
def veF (fn imm a b : Nat) : Nat :=
  match fn with
  | 0 => add32 a b
  | 1 => sub32 a b
  | 2 => mul32 a b
  | 3 => fma32 a b (ofBf16 imm)
  | 4 => min32 a b
  | 5 => max32 a b
  | 6 => a
  | 7 => abs32 a
  | _ => neg32 a

/-- An output element: position, value or exact integer, marks, and what its sources were. -/
structure Yel where
  row : Nat
  col : Nat
  v : Nat
  int : Option Nat := none
  poison : Bool
  suspect : Bool
  hard : Bool
  denied : Bool
  mis : List (Bool × Nat)
  /-- A source was a NaN. -/
  nanIn : Bool
  deriving DecidableEq, Repr

/-- Failed block checks of an element's sources. -/
def veMis (a b : Src) : List (Bool × Nat) :=
  (a.mis.toList.map (fun i => (false, i))) ++ (b.mis.toList.map (fun i => (true, i)))

/-- VEW: y = ACT(f(a, b′)) (R210, R215). -/
def veElem (x : Core) (v : Slot) (j : VeJob) (r c : Nat) : Yel :=
  let a := veA x v j r c
  let b : Src := if veUsesB j.fn then
      (if j.b.kind = 0 then { v := ofBf16 j.imm } else veB x v j r c) else { v := 0 }
  { row := r, col := c, v := actFn j.act (ofBf16 j.imm) (veF j.fn j.imm a.v b.v)
    poison := a.poison || b.poison || j.mark, suspect := a.suspect || b.suspect, hard := a.hard || b.hard
    denied := a.denied || b.denied, mis := veMis a b
    nanIn := isNan32 a.v || isNan32 b.v || (j.fn == 3 && isNan32 (ofBf16 j.imm)) }

/-! ## Scans and reductions (R212, R213) -/

/-- The running sum of a scan. -/
def scanSum (t : ScanSt) : ESum :=
  { nan := t.nan, pinf := t.pinf, ninf := t.ninf, i := t.sum, e := t.exp, any := t.any
    allNegZero := t.allNegZero }

/-- An element taken into a scan. -/
def scanAdd (j : VeJob) (t : ScanSt) (a : Src) : ScanSt :=
  let e := esAdd (scanSum t) (fdec F32 a.v)
  let mx := j.fn != 3
  { nan := e.nan, pinf := e.pinf, ninf := e.ninf, sum := e.i, exp := e.e, any := e.any
    allNegZero := e.allNegZero
    ext := some (match t.ext with
      | none => if isNan32 a.v then BitVec.ofNat 32 (cnan F32) else BitVec.ofNat 32 a.v
      | some w => BitVec.ofNat 32 (if mx then max32 w.toNat a.v else min32 w.toNat a.v))
    int := t.int + BitVec.ofNat 32 a.raw, poison := t.poison || a.poison
    suspect := t.suspect || a.suspect }

/-- Sums in two's complement: A and D hold 32-bit integers (R212). -/
def veInt (x : Core) (j : VeJob) : Bool :=
  srcIsInt x j.a && j.d.kind == 6 && (j.op == 3 || j.fn ≤ 1) && j.fn != 2 && j.fn != 3

/-- What a scan holds as FP32. -/
def scanVal (j : VeJob) (t : ScanSt) : Nat :=
  if j.fn = 2 ∨ j.fn = 3 then ((t.ext.getD 0).toNat) else esOut (scanSum t)

/-- ACT of an integer sum, which is not converted: NONE and RELU keep their meaning on integers, LEAKY on those that
are not negative; for the others R212 states no value (log entry 141). -/
def intAct (act imm : Nat) (w : Word) : Word :=
  if act = 0 ∨ (act = 2 ∧ !w.slt 0) then w
  else if act = 1 then (if w.slt 0 then 0 else w)
  else Config.intAct act imm w

/-- An output of a scan, with ACT (R212); an integer sum is not converted. -/
def scanOut (x : Core) (j : VeJob) (t : ScanSt) (r c : Nat) (s : Src) (mis : List (Bool × Nat))
    (pz sus : Bool) : Yel :=
  let y := if veInt x j then ofInt32 (sgn 32 t.int.toNat) else scanVal j t
  { row := r, col := c, v := actFn j.act (ofBf16 j.imm) y
    int := if veInt x j then some (intAct j.act j.imm t.int).toNat else none
    poison := pz || j.mark, suspect := sus, hard := s.hard, denied := s.denied, mis := mis
    nanIn := t.nan || isNan32 s.v }

/-- One element of a scan: the state after it and the output (R212). -/
def scanStep (x : Core) (v : Slot) (j : VeJob) (t : ScanSt) (r c : Nat) : ScanSt × Yel :=
  let a := veA x v j r c
  let b : Src := if j.b.kind = 0 then { v := 0 } else veB x v j r c
  let t := if c = 0 ∨ abs32 b.v ≠ 0 then {} else t
  let t' := scanAdd j t { a with poison := a.poison || b.poison, suspect := a.suspect || b.suspect }
  let s : Src := { a with hard := a.hard || b.hard, denied := a.denied || b.denied }
  (t', scanOut x j (if j.fn = 1 then t else t') r c s (veMis a b) t'.poison t'.suspect)

/-- One element of a reduction: an output follows the last of its row (R213). -/
def redStep (x : Core) (v : Slot) (j : VeJob) (t : ScanSt) (r c : Nat) : ScanSt × Option Yel × Src :=
  let a := veA x v j r c
  let t' := scanAdd j (if c = 0 then {} else t) a
  (t', if c + 1 = j.cols then some (scanOut x j t' r 0 a (veMis a { v := 0 }) t'.poison t'.suspect)
       else none, a)

/-! ## Destinations (R209) -/

/-- The writes of a plain, set or register destination, one for each line; none where the access is suppressed. The byte of a plain INT8
destination, whose encoding the spec does not give, is a free value of what it encodes (log entry 140). -/
def vePut (v : Slot) (j : VeJob) (y : Yel) : List (Option Put) :=
  let R := opRow j.d j.dx y.row
  let C := j.d.col0 + y.col
  let e : El := { v := BitVec.ofNat 32 y.v, poison := y.poison, suspect := y.suspect }
  match j.d.kind with
  | 1 => [(accIdx j.d R C).map (fun i => .acc i e)]
  | 7 => [(vrIdx j.d R C).map (fun i => .vr i e)]
  | _ =>
    let n := elemSize j.d
    let w := if j.d.kind = 3 then toBf16 y.v
      else if j.d.kind = 6 then (y.int.getD (tc 32 (toInt32 y.v)))
      else if j.d.kind = 5 then (Config.freeInt8 (BitVec.ofNat 32 y.v)).toNat
      else y.v
    (linePieces (plainOff j.d R C) n).map (fun (o, k) => (winAddr v (refWin j.d.addr) o k true).map (fun a =>
      .mem a { data := slice (toLE n w) (o - plainOff j.d R C) k, poison := y.poison, suspect := y.suspect }))

/-- The statistics so far. -/
def veStatsOf (l : List Nat) : QStats :=
  match l with
  | [a, b, c, d, e, f, g] => ⟨a, b, c, d, e, f, g⟩
  | _ => {}

/-- Statistics as a list. -/
def veStatsTo (q : QStats) : List Nat := [q.count, q.sse, q.ss, q.absmax, q.errmax, q.sat, q.nonfin]

/-- A data block of 256 outputs converted: its data and scale writes, with the statistics after it
(R140 to R145, R209). -/
def veBlock (v : Slot) (j : VeJob) (q : QStats) (ys : List Yel) : List Put × Bool × QStats :=
  match ys with
  | [] => ([], false, q)
  | y :: _ =>
    let R := opRow j.d j.dx y.row
    let b := blockIdx j.d R (j.d.col0 + y.col)
    let pz := ys.any (·.poison)
    let su := ys.any (·.suspect)
    let src := ys.map (·.v)
    let hd := [BitVec.ofNat 8 b, BitVec.ofNat 8 (j.d.fmt + 8 * j.d.group), 0, 0]
    let (area, sc, q') := match qfmtOf j.d.fmt with
      | some .int8a =>
        let r := convertA q src
        (packCodes .int8a r.2.2.1, hd ++ toLE 4 r.1 ++ toLE 4 r.2.1 ++ toLE 4 0, r.2.2.2)
      | some f =>
        let r := convert f j.rule (groupSize j.d.group) q src
        (packCodes f r.codes, hd ++ toLE 4 r.super ++ slice (r.gcodes.map (BitVec.ofNat 8)) 0 8, r.stats)
      | none => ([], [], q)
    let off := refOff j.d.addr + b * blockBytes j.d
    let da := (linePieces off (blockBytes j.d)).map (fun (o, n) =>
      (o - off, n, winAddr v (refWin j.d.addr) o n true))
    let sb := refOff j.d.saddr + 16 * b
    let sa := (linePieces sb 16).map (fun (o, n) => (o - sb, n, winAddr v (refWin j.d.saddr) o n true))
    (da.filterMap (fun (o, n, a) => a.map (fun a => Put.mem a { data := slice area o n, poison := pz, suspect := su })) ++
      sa.filterMap (fun (o, n, a) => a.map (fun a => Put.mem a { data := slice sc o n, poison := pz, suspect := su })),
     (da ++ sa).any (fun (_, _, a) => a.isNone), q')

/-- Outputs of a slab, with the scan state after it, and the marks and failures of every element read. -/
def veOuts (x : Core) (v : Slot) (j : VeJob) : List Yel × List Yel × ScanSt :=
  let n := min 512 (j.rows * j.cols - 512 * j.slab)
  let es := (List.range n).map (fun i => ((512 * j.slab + i) / j.cols, (512 * j.slab + i) % j.cols))
  match j.op with
  | 1 => let ys := es.map (fun (r, c) => veElem x v j r c); (ys, ys, j.scan)
  | 2 =>
    let o := es.foldl (fun (ys, t) (r, c) => let z := scanStep x v j t r c; (ys ++ [z.2], z.1)) (([] : List Yel), j.scan)
    (o.1, o.1, o.2)
  | _ =>
    let o := es.foldl (fun (ys, rs, t) (r, c) =>
      let z := redStep x v j t r c
      let m : Yel := { row := r, col := c, v := 0, poison := z.2.2.poison, suspect := z.2.2.suspect
                       hard := z.2.2.hard, denied := z.2.2.denied, mis := veMis z.2.2 { v := 0 }, nanIn := true }
      (ys ++ z.2.1.toList, rs ++ [m], z.1)) (([] : List Yel), ([] : List Yel), j.scan)
    (o.1, o.2.1, o.2.2)

/-- Conversion statistics added to a run of registers that starts with SSE (R151, R152). -/
def addStats (s : State) (a : Nat) (q : QStats) : State :=
  let s := rset64 s a 0 (add64 (rv64 s a 0) q.sse)
  let s := rset64 s (a + 8) 0 (add64 (rv64 s (a + 8) 0) q.ss)
  let s := rset64 s (a + 16) 0 (rv64 s (a + 16) 0 + q.count)
  let s := rset s (a + 24) 0 (max (rv s (a + 24)) q.absmax)
  let s := rset s (a + 28) 0 (max (rv s (a + 28)) q.errmax)
  cntN (cntN s (a + 32) 0 q.sat) (a + 36) 0 q.nonfin

/-- Canonical NaNs that a slab writes from sources that are none (VE_CNT_NAN): integers and quantised codes hold no
NaN, and a suppressed write writes none. -/
def veNans (j : VeJob) (ys : List Yel) (ps : List (List (Option Put))) : Nat :=
  if j.d.kind = 1 ∨ j.d.kind = 2 ∨ j.d.kind = 3 ∨ j.d.kind = 7 then
    ((ys.zip ps).filter (fun (y, p) => p.any (·.isSome) && y.v == cnan F32 && !y.nanIn)).length
  else 0

/-- One slab: its elements are read and its writes fall due (R214, R215). VE_CNT_MISALIGN counts each block of A and
of B that fails its check once a slab (DESIGN CHOICE: R148 says only that the event is counted; log entry 135). -/
def doVeSlab (s : State) (c : Nat) (j : VeJob) : State :=
  let x := core s c
  let v := cslot x j.slot
  let (ys, rs, scan) := veOuts x v j
  let at_ := j.issued + 2 + j.slab * j.q
  let (puts, den, q', nans, wrote) :=
    if j.d.kind = 4 then
      (chunks 256 ys.length ys).foldl (fun (ps, d, q, _, w) b =>
        let r := veBlock v j q b
        (ps ++ r.1, d || r.2.1, r.2.2, 0, if r.1.isEmpty then w else w ++ b))
        (([] : List Put), false, veStatsOf j.stats, 0, ([] : List Yel))
    else if j.d.kind = 0 then ([], false, veStatsOf j.stats, 0, [])
    else
      let ps := ys.map (vePut v j)
      (ps.flatten.filterMap id, ps.flatten.any (·.isNone), veStatsOf j.stats, veNans j ys ps,
        ((ys.zip ps).filter (fun (_, p) => p.any (·.isSome))).map (·.1))
  let mis := ((rs.flatMap (·.mis)).eraseDups).length
  let x := if den || rs.any (·.denied) then recExc x j.slot stRegionDenied j.issued true else x
  let x := if mis = 0 then x else recExc x j.slot stMisaligned j.issued false
  let j' := { j with slab := j.slab + 1, scan := scan, stats := veStatsTo q'
                     poisoned := j.poisoned || (wrote.any (·.poison))
                     nans := j.nans + nans }
  let w : Flight := { due := at_ + (if j.d.kind = 4 then 41 else 25), reads := false, mav := some j.slot
                      act := .puts puts }
  let nf : Flight :=
    if j.slab + 1 < veSlabs j then
      { due := at_ + j.q, reads := true, mav := some j.slot, act := .veSlab j' }
    else { due := j.issued + veOcc j + 42, reads := false, mav := some j.slot, act := .veStats j' }
  let s := setCore s c { x with flight := x.flight ++ [w, nf] }
  let s := cntN s (coreReg c aVeCntMisalign) 0 mis
  if rs.any (·.hard) then markPoison s j.req else s

/-- Writes of a vector instruction; a set written becomes tagged FP32 (R209). -/
def doPuts (x : Core) (l : List Put) : Core :=
  let x := scrWrites x (l.filterMap (fun p => match p with | .mem a sp => some (a, sp) | _ => none))
  l.foldl (fun x p => match p with
    | .acc i e => { x with acc := mset {} x.acc i e, accInt := mset false x.accInt (i / 8192) false }
    | .vr i e => { x with vr := mset {} x.vr i e }
    | .mem _ _ => x) x

/-- A saturating count in two bytes (R151). -/
def sat16 (n : Nat) : Nat := min n 65535

/-- The end of a vector instruction: the statistics record and the registers (R151, R209, R216). -/
def doVeStats (s : State) (c : Nat) (j : VeJob) : State :=
  let q := veStatsOf j.stats
  let s := if j.poisoned then cnt s (coreReg c aVeCntPoison) else s
  let s := cntN s (coreReg c aVeCntNan) 0 j.nans
  if j.d.kind = 4 then
    let s := if rb s (coreReg c aVeQsCtl) 0 0 then addStats s (coreReg c aVeQsSseLo) q else s
    if j.stat = 0 then s
    else
      let x := core s c
      let v := cslot x j.slot
      match winAddr v (refWin j.stat) (refOff j.stat / 32 * 32) 32 true with
      | some a => setCore s c (scrWrite x a
          { data := toLE 8 q.sse ++ toLE 8 q.ss ++ toLE 4 q.count ++ toLE 4 q.absmax ++ toLE 4 q.errmax
                      ++ toLE 2 (sat16 q.sat) ++ toLE 2 (sat16 q.nonfin) })
      | none => setCore s c (recExc x j.slot stRegionDenied j.issued true)
  else s

end Sys2Proof.Machine
end

