-- ==== Sys2Proof/Machine/Rc.lean ====
section
/-! DEFINITION. The sequencer of a ranking core: effects due in later cycles, the advance of CLK_CORE
cycles, opening and closing a bundle, loops and branches, the choice of a launch, and the ending of a
launch at a preemption point (R153 to R159, R167, R175, R178, R180 to R183). -/

namespace Sys2Proof.Machine

/-! ## Effects in later cycles (R159, R170, R198, R214) -/

/-- A flight put into a core. -/
def addFlight (s : State) (c : Nat) (f : Flight) : State :=
  updCore s c (fun x => { x with flight := x.flight ++ [f] })

/-- ACLR lands: MMAs issued before it that still have to write the set come first. -/
def doClear (s : State) (c set due : Nat) : State :=
  let before (f : Flight) : Bool :=
    match f.act with | .maDone j => j.set == set && j.issued + 10 < due | _ => false
  let js := (core s c).flight.filter before
  let s := updCore s c (fun x => { x with flight := x.flight.filter (fun f => !before f) })
  let s := js.foldl (fun s f => match f.act with | .maDone j => doMaDone s c j | _ => s) s
  updCore s c (fun x => doAclr x set)

/-- What happens when a flight falls due. -/
def doAct (s : State) (c : Nat) (f : Flight) : State :=
  match f.act with
  | .setReg k xd v => updCore s c (fun x => cupdSlot x k (fun w => setXreg w xd.toNat v))
  | .setPar k i v => updCore s c (fun x => cupdSlot x k (fun w => { w with par := mset 0 w.par i v }))
  | .copyLine k src dst =>
    match dst with
    | some d =>
      let m : Marked := match src with
        | some a => readMarked (core s c) a 128
        | none => { data := List.replicate 128 0 }
      (markedSpans d m).foldl (fun s (a, sp) =>
        addFlight s c { due := f.due + 5, reads := false, mav := none, act := .putSpan (some k) a sp }) s
    | none => s
  | .putSpan _ a sp => updCore s c (fun x => scrWrite x a sp)
  | .loadWord k xd a =>
    let v := match a with | some a => leNat (scrRead (core s c) a 4).data | none => 0
    addFlight s c { due := f.due + 6, reads := false, mav := none
                    act := .setReg k xd (BitVec.ofNat 32 v) }
  | .maFetch j => doMaFetch s c j
  | .maDone j => doMaDone s c j
  | .clearAcc set => doClear s c set f.due
  | .veSlab j => doVeSlab s c j
  | .puts l => updCore s c (fun x => doPuts x l)
  | .veStats j => doVeStats s c j

/-- A flight comes before another: an earlier cycle, or a write before a read in one cycle. -/
def flBefore (f g : Flight) : Bool := f.due < g.due || (f.due == g.due && !f.reads && g.reads)

/-- The flight of a list that comes first. -/
def firstFl (l : List Flight) : Option Flight :=
  l.foldl (fun b f => match b with | none => some f | some g => if flBefore f g then some f else b) none

/-- The flight to run next, of those due by cycle `t`. -/
def nextFl (l : List Flight) (t : Nat) : Option Flight := firstFl (l.filter (·.due ≤ t))

/-- The flight belongs to the launch of a slot. -/
def ownedBy (k : Nat) (f : Flight) : Bool :=
  f.mav == some k || match f.act with
    | .setReg j _ _ => j == k | .setPar j _ _ => j == k | .loadWord j _ _ => j == k | .copyLine j _ _ => j == k
    | .putSpan o _ _ => o == some k
    | _ => false

/-- Flights due by cycle `t` run in order, at most `n` of them. -/
def runFl (c t : Nat) : Nat → State → State
  | 0, s => s
  | n + 1, s =>
    match nextFl (core s c).flight t with
    | none => s
    | some f =>
      runFl c t n (doAct (updCore s c (fun x => { x with flight := x.flight.erase f })) c f)

/-- Flights of a slot run in order, whatever their cycle, at most `n` of them. -/
def runOwn (c k : Nat) : Nat → State → State
  | 0, s => s
  | n + 1, s =>
    match firstFl ((core s c).flight.filter (ownedBy k)) with
    | none => s
    | some f =>
      runOwn c k n (doAct (updCore s c (fun x => { x with flight := x.flight.erase f })) c f)

/-- What a launch that ends has under way is done before its slot is freed, so that nothing of it reaches the next
launch (R179, R233). -/
def finishOwn (s : State) (c k : Nat) : State := runOwn c k (((core s c).flight.length + 1) * 2 ^ 20) s

/-- Cycles of [lo, hi) that lie in [a, b). -/
def overlap (lo hi a b : Nat) : Nat := min hi b - max lo a

/-- Entries leave a core's issue queue; a bundle held for a full one may issue once an entry is free (R175). -/
def keepQ (x : Core) (keep : IssueE → Bool) : Core :=
  let q := x.issueQ.filter keep
  { x with issueQ := q, heldFull := x.heldFull && decide (512 ≤ q.length) }

/-- Programs and releases of a request leave the issue queues, and its gather contexts drain (R89, R181). -/
def drainReq (s : State) (h : Half) : State :=
  { s with
    cores := mmap {} (fun x => keepQ x (fun e => match e with
      | .program r _ _ _ => r != h | .rel r _ _ _ => r != h | _ => true)) s.cores
    folds := mmap {} (fun x => { x with ctxs := mmap {} (fun y =>
      if y.req = h ∧ y.st ≠ .free then { y with st := .draining } else y) x.ctxs }) s.folds }

/-- A launch ends at a preemption point: no bundle of it issues again, its MA and VE work in flight is
abandoned with its writes, and its contexts drain (R181). -/
def endSlot (s : State) (c k : Nat) : State :=
  let v := cslot (core s c) k
  let s := updCore s c (fun x =>
    { cupdSlot x k (fun v => { v with st := .ending, waitHeld := false, atYield := false }) with
      flight := x.flight.filter (fun f => f.mav != some k)
      maRun := if x.run = some k then [] else x.maRun
      veRun := if x.run = some k then [] else x.veRun
      opened := match x.opened with | some o => if o.slot = k then none else x.opened | none => none
      heldFull := x.heldFull && x.run != some k })
  let s := updReq s v.req (fun r =>
    { r with endSt := match r.endSt with
        | some e => some e
        | none => if v.endExc = 0 then none else some v.endExc })
  drainReq s v.req

/-- The open bundle closed: what its slots do in later cycles is under way, and the next bundle of the launch may
issue when its cycles are over (R158, R159). A TRAP of its slot C ends the launch: all four slots have issued with it
(R158, R167). -/
def closeB (s : State) (c : Nat) : State :=
  match (core s c).opened with
  | none => s
  | some o =>
    let s := updCore s c (fun x =>
      { cupdSlot x o.slot (fun v => { v with next := o.at_ + o.cost }) with
        opened := none, flight := x.flight ++ o.fl })
    match o.ends with
    | some st => endSlot (updCore s c (fun x => recExc x o.slot st o.at_ true)) c o.slot
    | none => s

/-- The open bundle closed, if it is a slot's. -/
def closeOwn (s : State) (c k : Nat) : State :=
  match (core s c).opened with
  | some o => if o.slot = k then closeB s c else s
  | none => s

/-- A slot stands at a hold: a WAIT not satisfied, a bundle held for a full issue queue, or a yield point. Every cycle
of it is a preemption point (R175, R178, R181, R182). -/
def atHold (x : Core) (k : Nat) : Bool :=
  let v := cslot x k
  (x.heldFull && x.run == some k) || (v.waitHeld && !waitOk v) || v.atYield

/-- The chosen launch issues nothing for a WAIT or a full issue queue (SQ_CNT_WAIT_CYC). -/
def waits (x : Core) : Bool :=
  x.heldFull || (match x.run with
    | some k => (cslot x k).waitHeld && !waitOk (cslot x k) && (cslot x k).st == .running
    | none => false)

/-- A launch with an end pending that issues nothing, READY, HELD or at a hold, ends (R181). -/
def endIdle (s : State) (c k : Nat) : State :=
  let v := cslot (core s c) k
  if v.mustEnd && (v.st == .ready || v.st == .held || (v.st == .running && atHold (core s c) k)) then endSlot s c k else s

/-- A launch that has an end pending and stands at a hold ends there (R181). -/
def endHeld (s : State) (c : Nat) : State :=
  match (core s c).run with
  | some k =>
    let v := cslot (core s c) k
    if v.mustEnd && (v.st == .running || v.st == .held) && atHold (core s c) k then endSlot s c k else s
  | none => s

/-- A core advanced to cycle `t`: a bundle still open has all its slots, what falls due happens, busy and waiting
cycles are counted, and a launch held with an end pending ends. -/
def runCore (s : State) (c t : Nat) : State :=
  if t ≤ (core s c).cycle then s
  else
    let s := closeB s c
    let s := runFl c t (((core s c).flight.length + 1) * (4 * (t + 2))) s
    let x := core s c
    let mb := (x.maRun.map (fun (_, _, a, b) => overlap x.cycle t a b)).sum
    let vb := (x.veRun.map (fun (_, a, b) => overlap x.cycle t a b)).sum
    let s := setCore s c { x with cycle := t
                                  maRun := x.maRun.filter (fun (_, _, _, b) => t < b)
                                  veRun := x.veRun.filter (fun (_, _, b) => t < b) }
    let s := cntN s (coreReg c aMaCntBusy) 0 mb
    let s := cntN s (coreReg c aVeCntBusy) 0 vb
    let s := if waits x then cntN s (coreReg c aSqCntWaitCyc) 0 (t - x.cycle) else s
    endHeld s c

/-! ## Bundles -/

/-- The bundle of a slot lies outside its version's code range (R155). -/
def outside (v : Slot) : Bool := v.pc.toNat < v.codeBase || v.codeBase + v.codeLen ≤ v.pc.toNat

/-- The slot whose bundles issue, at the cycle in which its next bundle issues, with the state advanced to
that cycle: a launch RUNNING, zeroed, not at END, whose bundle is not held (R158, R175, R178, R231); a held WAIT lets
no bundle but its own through (`w`). A bundle with PP whose launch has an end pending ends it instead (R181), and one
outside the code range is reported and does nothing (R155, R184). -/
def readyB (s : State) (c : Nat) (h : Hdr) (w : Bool := false) : State × Option (Nat × Slot) :=
  let s := closeB s c
  let x := core s c
  match x.run with
  | none => (s, none)
  | some k =>
    let v := cslot x k
    if v.st ≠ .running ∨ !v.zeroed ∨ v.atEnd ∨ x.heldFull ∨ (v.waitHeld && !w) then (s, none)
    else
      let s := runCore s c (max x.cycle v.next)
      let v := cslot (core s c) k
      if v.st ≠ .running then (s, none)
      else if h.pp && v.mustEnd then (endSlot s c k, none)
      else if outside v then (illegalBundle s c k v.pc.toNat, none)
      else (s, some (k, v))

/-- A bundle at a yield point waits for YIELD_POINT (R182). -/
def yieldGate (h : Hdr) (v : Slot) : Bool := !h.yld || v.yielded

/-- A launch comes to a yield point: with an end pending, before it or during its wait, it ends, else it waits for
YIELD_POINT (R181, R182; a YLD bundle without PP at which an end is already pending: DESIGN CHOICE, log entry 166). -/
def atGate (s : State) (c k : Nat) (v : Slot) : State :=
  if v.mustEnd then endSlot s c k
  else updCore s c (fun x => cupdSlot x k (fun v => { v with atYield := true }))

/-- The bundle issues: it is opened for its other slots, counted, and the launch's place moves on. -/
def issueB (s : State) (c k : Nat) (v : Slot) (h : Hdr) (taken : Bool) (nx : BitVec 17 × List LoopRec)
    (fl : List (Nat × Act)) : State :=
  let s := updReq s v.req (fun r =>
    { r with firstAt := match r.firstAt with | some t => some t | none => some s.np.ns })
  let t := (core s c).cycle
  let s := updCore s c (fun x =>
    { cupdSlot x k (fun v => { v with
        pc := nx.1, loops := nx.2, yielded := false, atYield := false, waitHeld := false }) with
      opened := some { slot := k, at_ := t, cost := 1 + h.idle.toNat + (if taken then 2 else 0), pc := v.pc, before := v
                       fl := fl.map (fun (lat, a) =>
                         ({ due := t + lat, reads := false, mav := none, act := a } : Flight)) } })
  cnt s (coreReg c aSqCntBundles)

/-- What follows a bundle that takes no branch: the next bundle, or the first of the innermost body that
ends here and has iterations left (R158, R167). -/
def seqNext : List LoopRec → BitVec 17 → BitVec 17 × List LoopRec
  | [], pc => (pc + 1, [])
  | l :: r, pc =>
    if pc = l.last then
      (if 1 < l.left.toNat then (l.first, { l with left := l.left - 1 } :: r) else seqNext r pc)
    else (pc + 1, l :: r)

/-- A branch: loops whose body does not hold the target are left. -/
def brNext (loops : List LoopRec) (t : BitVec 17) : BitVec 17 × List LoopRec :=
  (t, loops.dropWhile (fun l => t.toNat < l.first.toNat || l.last.toNat < t.toNat))

/-! ## The choice of a launch (R183) -/

/-- The slots that may run: RUNNING, READY, and HELD with its WAIT satisfied; not before window 1 is zeroed
(R231). -/
def mayRun (v : Slot) : Bool :=
  v.zeroed && (v.st == .running || v.st == .ready || (v.st == .held && waitOk v))

/-- A launch goes before another: HIPRIO first, then the earliest admitted. -/
def runsBefore (a b : Slot) : Bool :=
  if a.hiprio == b.hiprio then a.order < b.order else a.hiprio

/-- The launch to run. -/
def pick (x : Core) : Option Nat :=
  (List.range 4).foldl (fun b k =>
    if mayRun (cslot x k) then
      (match b with | none => some k | some j => if runsBefore (cslot x k) (cslot x j) then some k else b)
    else b) none

/-- The sequencer chooses the launch to run; a switch to a launch other than the one that ran last costs 16 cycles and
is counted. -/
def chooseRun (s : State) (c : Nat) : State :=
  let x := core s c
  let p := pick x
  let old := x.run
  let x := match old with
    | some k => if p = some k then x
        else cupdSlot x k (fun v => { v with st := if v.st = .running then .ready else v.st })
    | none => x
  match p with
  | none => setCore s c { x with run := none }
  | some k =>
    let o := (cslot x k).order
    let sw := match x.lastRun with | some l => l != o | none => false
    let x := cupdSlot x k (fun v =>
      { v with st := .running, next := if sw then max v.next (x.cycle + 16) else v.next })
    let s := setCore s c { x with run := some k, lastRun := some o }
    if sw then cnt s (coreReg c aSqCntSwitch) else s

/-- A core that runs nothing chooses when a launch may run. -/
def wakeCore (s : State) (c : Nat) : State := if (core s c).run.isNone then chooseRun s c else s

/-- A counter of a slot rises by one (R176, R177). -/
def bumpCtr (s : State) (c k n : Nat) : State :=
  let s := updCore s c (fun x => cupdSlot x k (fun v => { v with ctr := mset 0 v.ctr n (ctrOf v n + 1) }))
  wakeCore s c

/-- Cycle by which every MA and VE instruction of a slot has written its results (R182). -/
def mavDone (x : Core) (k : Nat) : Nat :=
  (x.flight.filter (fun f => f.mav == some k)).foldl (fun m f =>
    max m (match f.act with
      | .maFetch j => j.issued + j.occ + 16
      | .veSlab j => j.issued + veOcc j + 42
      | _ => f.due)) x.cycle

/-- Weight tiles, accumulators and vector registers cleared (R182, R203). -/
def clearMav (x : Core) : Core := { x with acc := [], accInt := [], vr := [] }

end Sys2Proof.Machine
end

