-- ==== Sys2Proof/Machine/DlOps.lean ====
section
/-! DEFINITION. Collectives of launches: their blocks, their start, their end and their failure (R376, R380 to
R383). -/

namespace Sys2Proof.Machine

/-! ## Collectives (R380 to R383) -/

/-- A collective changed. -/
def updColl (s : State) (h idx : Half) (g : Coll → Coll) : State :=
  { s with dl := { s.dl with colls := updFirst (fun c => c.req == h && c.index == idx) g s.dl.colls } }

/-- A collective of a request by number. -/
def collOf (s : State) (h idx : Half) : Option Coll := s.dl.colls.find? (fun c => c.req == h && c.index == idx)

/-- An exception of a launch recorded for an event outside its code; a launch that issues nothing ends with it (R181,
R184). -/
def excOf (s : State) (h : Half) (st : Status) : State :=
  match req s h with
  | some r =>
    if r.done ∨ (cslot (core s r.core) r.slot).req ≠ h then s
    else endIdle (updCore s r.core (fun x => recExc x r.slot st x.cycle true)) r.core r.slot
  | none => s

/-- A collective ends its launch with ST_PEER_UNREACHABLE (R383). -/
def failColl (s : State) (c : Coll) : State :=
  let s := { s with dl := { s.dl with colls := s.dl.colls.filter (fun d => !(d.req == c.req && d.index == c.index)) } }
  wantEnd (excOf (cnt s aDlCntCollFail) c.req stPeer) c.req stPeer

/-- This part's block of a collective, with its marks. -/
def collBlock (s : State) (c : Coll) : Marked := readMarked (core s c.core) c.src c.bytes

/-- The block sent to a member that has sent CLEAR, in as many messages as it takes. -/
def sendBlock (s : State) (c : Coll) (q : BitVec 12) : State :=
  let b := collBlock s c
  let s := (pieces c.bytes).foldl (fun s p => droveSend s (memPrim s q.toNat)
    (.slice (BitVec.ofNat 12 (myIdx s)) c.key c.index p.1 (partMarked b p.1 p.2) (decide (c.bytes ≤ p.1 + p.2)))) s
  updColl s c.req c.index (fun c => { c with sent := q :: c.sent })

/-- Every condition of a collective's counter holds (R381, R382). -/
def collDone (s : State) (c : Coll) : Bool :=
  c.started &&
    (match c.kind.toNat with
      | 2 => true
      | 3 => decide ((pieces c.bytes).length ≤ c.landed.length)
      | _ => (others s).all (fun q => c.landed.contains (BitVec.ofNat 12 q) && c.sent.contains (BitVec.ofNat 12 q)))

/-- A collective starts when its issue queue entry is taken (R381, R382); a member without a route ends its
launch (R383). -/
def startColl (s : State) (h idx : Half) : State :=
  match collOf s h idx with
  | none => s
  | some c =>
    let s := updColl s h idx (fun c => { c with started := true })
    let me := BitVec.ofNat 12 (myId s)
    if c.kind = 2 ∨ c.kind = 3 then
      let tgt := memPrim s c.stride
      if !reaches s tgt ∨ tgt = 0xFFF then failColl s c
      else if c.kind = 2 then
        let b := collBlock s c
        (pieces c.bytes).foldl (fun s p => droveSend s tgt
          (.put me c.tag (BitVec.ofNat 6 c.dst) (BitVec.ofNat 64 (c.off + p.1)) (partMarked b p.1 p.2))) s
      else (pieces c.bytes).zipIdx.foldl (fun s (p, k) => droveSend s tgt
        (.getReq me (pieceTag c.tag k) (BitVec.ofNat 6 c.src) (BitVec.ofNat 64 (c.off + p.1)) p.2)) s
    else if (others s).any (fun q => memPrim s q == 0xFFF || !reaches s (memPrim s q)) then failColl s c
    else
      let s := toMembers s (.clear (BitVec.ofNat 12 (myIdx s)) c.key idx)
      let to_ := c.dst + myIdx s * c.stride
      let s := if c.bytes = 0 ∨ to_ = c.src then s
        else updCore s c.core (fun x => extPut x to_ (readMarked x c.src c.bytes))
      c.cleared.foldl (fun s q => sendBlock s c q) s

/-- Parts that a collective still needs (R381, R382). -/
def collNeeds (s : State) (c : Coll) : List Nat :=
  match c.kind.toNat with
  | 2 => []
  | 3 => if c.landed.length < (pieces c.bytes).length then [memPrim s c.stride] else []
  | _ => ((others s).filter (fun q => !(c.landed.contains (BitVec.ofNat 12 q) && c.sent.contains (BitVec.ofNat 12 q)))).map (memPrim s)

/-- Collectives under way that have no route to a member they need end their launches (R383). -/
def cutColls (s : State) : State :=
  (s.dl.colls.filter (fun c => c.started && !c.risen && (collNeeds s c).any (fun p => !reaches s p))).foldl failColl s

/-- What waits for the leader while it has no route: a group request that waits for its PIN, and a commit that waits for
GO, end with ST_PEER_UNREACHABLE; an UPDATE waits on (R373, R386). -/
def cutWaits (s : State) : State :=
  if !grpOn s || s.dl.dissolved || reaches s (leader s) then s
  else
    let s := (s.fe.cmds.filter (fun c => c.asked.isSome && c.gotPin.isNone && c.phase == .admission)).foldl
      (fun s c => finish s c.q.toNat c.n stPeer) s
    (s.dl.steps.filter (fun t => !t.upd)).foldl (fun s t =>
      finish { s with dl := { s.dl with steps := s.dl.steps.filter (fun x => x ≠ t) } } t.q.toNat t.n stPeer) s

/-- What a lost route ends (R373, R383). -/
def cutRoutes (s : State) : State := cutWaits (cutColls s)

/-- What a launch leaves behind on the Drove links: its collectives, and ABANDON to every member when a group
request ends before END (R383). -/
def endColls (s : State) (r : Req) (byEnd : Bool) : State :=
  let s := { s with dl := { s.dl with colls := s.dl.colls.filter (fun c => c.req ≠ r.handle) } }
  match r.key with
  | some k => if byEnd then s else toMembers s (.abandon k)
  | none => s

end Sys2Proof.Machine
end

