-- ==== Sys2Proof/Machine/Links.lean ====
section
/-! DEFINITION. Drove links: flits, acknowledgement and resending, training, trunks, forwarding, part ID and
the enable and retrain controls (R364 to R372, R399). -/

namespace Sys2Proof.Machine

/-! ## Receiving (R365, R366) -/

/-- A NAK that names the SEQ a link expects. -/
def sendNak (s : State) (l : Nat) : State :=
  let k := link s l
  emit (cnt s aDlLinkCntTx l) (.flit l (flitBytes { kind := 3, ordered := false, dst := k.nbr, src := BitVec.ofNat 12 (myId s)
                                                    seq := 0, ack := k.rxSeq, ackv := false, len := 0, payload := [] }))

/-- An idle flit, which carries a link's acknowledgement (R365). -/
def sendIdle (s : State) (l : Nat) : State :=
  let k := link s l
  emit (cnt s aDlLinkCntTx l) (.flit l (flitBytes { kind := 0, ordered := false, dst := k.nbr, src := BitVec.ofNat 12 (myId s)
                                                    seq := 0, ack := k.rxSeq - 1, ackv := true, len := 0, payload := [] }))

/-- Flits acknowledged up to and including a SEQ leave the retry buffer, and what waits for a link may go. -/
def ackFlits (s : State) (l : Nat) (ack : BitVec 12) : State :=
  match (link s l).retry.findIdx? (fun f => f.seq == ack) with
  | some i =>
    let got := (link s l).retry.take (i + 1)
    drainFlits (countAcked (updLink s l (fun k => { k with retry := k.retry.drop (i + 1), resends := 0 })) got) []
  | none => s

/-! ## Leaving UP (R367) -/

/-- A link leaves UP: its unacknowledged flits go again, in their order and before those that wait, on the other links
of its trunk, or on another route; what waits on a part without a route ends (R373, R383). -/
def leaveUp (s : State) (l : Nat) (st : LinkSt) : State :=
  let k := link s l
  if k.st ≠ .up then setLink s l { k with st := st, trained := false }
  else
    let s := setLink s l { k with st := st, trained := false, retry := [], resends := 0, txSeq := 0, rxSeq := 0 }
    cutRoutes (drainFlits (cnt s aDlLinkCntDown l) k.retry)

/-- Every flit from a SEQ on is sent again; the eighth time in a row the link goes to TRAINING (R366,
R367). -/
def resend (s : State) (l : Nat) : State :=
  let k := link s l
  if k.st ≠ .up ∨ k.retry.isEmpty then s
  else if 7 ≤ k.resends then leaveUp (cnt s aDlLinkCntRetry l) l .training
  else
    let s := setLink (cnt s aDlLinkCntRetry l) l { k with resends := k.resends + 1 }
    k.retry.foldl (fun s f => emit (cnt s aDlLinkCntTx l) (.flit l (flitBytes { f with ack := (link s l).rxSeq - 1, ackv := true }))) s

/-- FLIT_RECEIVE: the CRC of the flit's 252 B is checked, and the flit is accepted in SEQ order and acknowledged, or dropped and
answered with a NAK; one for another part is forwarded (R365, R366, R371). Idle flits and NAKs carry no SEQ of their
own. -/
def execFlitReceive (l : Fin 32) (b : Bytes) (crc : Word) (fecOk corrected : Bool) (s : State) : Out :=
  .next (let k := link s l
    let fl := flitOf b
    if k.st ≠ .up then s
    else
      let s := if corrected then cnt s aDlLinkCntFec l else s
      let s := if flitCrcOk b crc then s else cnt s aDlLinkCntCrc l
      if !flitCrcOk b crc ∨ !fecOk then sendNak s l
      else if fl.kind = 0 then
        let s := cnt s aDlLinkCntRx l
        if fl.ackv then ackFlits s l fl.ack else s
      else if fl.kind = 3 then resend (ackFlits (cnt s aDlLinkCntRx l) l (fl.ack - 1)) l
      else if 3 < fl.kind.toNat ∨ fl.seq ≠ k.rxSeq then sendNak s l
      else
        let s := cnt (updLink s l (fun k => { k with rxSeq := k.rxSeq + 1 })) aDlLinkCntRx l
        let s := if fl.ackv then ackFlits s l fl.ack else s
        sendIdle (if fl.dst.toNat = myId s then s else sendFlit (if (routeTo s fl.dst.toNat).isSome then cnt s aDlCntFwd else s) fl) l)

/-- DROVE_NAK: every flit before the named SEQ is there; the sender resends from it (R366). -/
def execDroveNak (l : Fin 32) (seq : BitVec 12) (s : State) : Out :=
  .next (resend (ackFlits s l (seq - 1)) l)

/-- FLIT_ACK_TIMEOUT: 2 µs without an acknowledgement; the sender resends from the oldest flit (R366,
R367). -/
def execFlitAckTimeout (l : Fin 32) (s : State) : Out := .next (resend s l)

/-! ## Training (R367, R368, R370) -/

/-- A trained link comes UP once both ends hold different part IDs; what waits for a link may go. -/
def comeUp (s : State) (l : Nat) : State :=
  let k := link s l
  let me := myId s
  if k.st ≠ .training ∨ !k.trained ∨ me = 0xFFF ∨ k.nbr = 0xFFF then s
  else if k.nbr.toNat = me then rsetF s aDlStat 0 1 1 1
  else drainFlits (setLink s l { k with st := .up, fails := 0, txSeq := 0, rxSeq := 0, retry := [], resends := 0 }) []

/-- LINK_TRAINING_DONE: the ends have exchanged part IDs and link numbers (R367, R368). -/
def execLinkTrainingDone (l : Fin 32) (nbr : BitVec 12) (nlink : BitVec 5) (s : State) : Out :=
  .next (if (link s l).st ≠ .training then s
    else comeUp (updLink s l (fun k => { k with trained := true, nbr := nbr, nlink := nlink, fails := 0 })) l)

/-- LINK_TRAINING_FAIL: the second failure in a row sends the link to FAILED (R367). -/
def execLinkTrainingFail (l : Fin 32) (s : State) : Out :=
  .next (let k := link s l
    if k.st ≠ .training then s
    else setLink s l { k with fails := k.fails + 1, trained := false, st := if 1 ≤ k.fails then .failed else .training })

/-- LINK_LOSS_OF_LOCK: the link trains again, its traffic moving to other links (R367, R372). -/
def execLinkLossOfLock (l : Fin 32) (s : State) : Out :=
  .next (if (link s l).st = .up then leaveUp s l .training else s)

/-- Links may train: the part has started its Drove links in boot stage 6 (R467). -/
def dlRuns (s : State) : Bool := 6 ≤ rf s aPcBootStat 0 3 0

/-- DL_LINK_CTL.RETRAIN of a requester's selected link. -/
def wrRetrain (s : State) (a : Acc) (v : Word) : State :=
  let l := selIx s a.who aDlLinkSel
  if !a.secure ∨ !bit v.toNat 1 then s
  else
    let k := link s l
    if k.st = .failed then setLink s l { k with st := .training, fails := 0, trained := false } else s

/-- DL_LINK_CTL.ENABLE of a requester's selected link. -/
def wrLinkEnable (s : State) (a : Acc) (v : Word) : State :=
  secureOnly s a blkDL 0 aDlLinkCtl (fun s =>
    let l := selIx s a.who aDlLinkSel
    let on := bit v.toNat 0
    let s := rsetF s aDlLinkCtl l 0 0 (b2n on)
    let k := link s l
    if !on then (if k.st = .down then s else leaveUp s l .down)
    else if k.st = .down ∧ dlRuns s then setLink s l { k with st := .training, trained := false, fails := 0 }
    else s)

/-- DL_LINK_CTL written: ENABLE, then RETRAIN (R367, R399). -/
def wrLinkCtl (s : State) (a : Acc) (v : Word) : State := wrRetrain (wrLinkEnable s a v) a v

/-- DL_LINK_RETRAIN: RETRAIN takes a link out of FAILED (R367). -/
def execDlLinkRetrain (a : Acc) (v : Word) (s : State) : Out := .next (acc1 s a (fun s => wrLinkCtl s a v))

/-- LINK_ENABLE: a link starts training, or goes DOWN (R367). -/
def execLinkEnable (a : Acc) (v : Word) (s : State) : Out := .next (acc1 s a (fun s => wrLinkCtl s a v))

/-- DL_PART_ID written; ignored while any link is UP (R370). -/
def wrPartId (s : State) (a : Acc) (v : Word) : State :=
  secureOnly s a blkDL 0 aDlPartId (fun s =>
    if s.dl.links.any (fun (_, l) => l.st == .up) then s
    else
      let s := rsetF s aDlPartId 0 11 0 v.toNat
      (List.range 32).foldl comeUp s)

/-- DL_PART_ID: sets the part ID; trained links come UP (R367, R370). -/
def execDlPartId (a : Acc) (v : Word) (s : State) : Out := .next (acc1 s a (fun s => wrPartId s a v))

end Sys2Proof.Machine
end

