-- ==== Sys2Proof/Machine/Dma.lean ====
section
/-! DEFINITION. Transfers: the issue of their pieces, held pieces, landings, peer accesses, and the posting of
completions (R24, R237, R242, R268, R275, R277, R289, R290, R322, R325 to R331, R407, R414). -/

namespace Sys2Proof.Machine

/-! ## When a piece may issue -/

/-- Queue pairs on which a held piece may turn out to go: its leaf's, where the walk finds one, and those of the pieces
that its transfer has out (log entry 146). -/
def heldQps (s : State) (t : Xfer) : List Nat :=
  let own := (t.pieces.filter (· != localPiece)).map (·.toNat)
  match walkTlb s t.cid.toNat t.addr.toNat with
  | .inl c => if bit c.leaf.toNat 3 then own else tgtQp s (bits c.leaf.toNat 63 52) :: own
  | .inr _ => own

/-- A held piece stands before a transfer's next piece: one that goes on the same queue pair, or, while nothing tells the
held piece's queue pair, one of the same commanding queue (R329, log entry 146). -/
def behindHeld (s : State) (t : Xfer) (i : Option Nat) : Bool :=
  s.fe.xfers.any (fun u => u.id ≠ t.id && u.held.isSome && u.kind ≠ .peer &&
    (match heldQps s u, i with
      | [], _ => u.q == t.q
      | l, some i => l.contains i
      | _, none => false))

/-- An earlier transfer of the same input segments, or of the same result segment, has bytes left: their pieces go in
order (R268, R308). -/
def segWaits (s : State) (t : Xfer) : Bool :=
  s.fe.xfers.any (fun u => u.id < t.id && u.left ≠ 0 &&
    (match t.kind, u.kind with
      | .segment h _, .segment g _ => h == g
      | _, _ => (segOf t).isSome && segOf u == segOf t))

/-- What the piece's way asks: no pause of its port, room for a READ, and no last write that waits for its command to
end; a local piece issues in partition 15 of its fold (R289, R295, R308, R326, R353). -/
def wayFree (s : State) (t : Xfer) (rewalk : Bool) : Bool :=
  match xlat s (xWho t) t.addr.toNat t.read rewalk with
  | .remote i _ _ => !qpPaused s i && (!t.read || readsOn s i < 16) && !holdLast s t i
  | .loc f _ => mayFm s f 15
  | .fault _ _ _ => true

/-- Peers' accesses on one queue pair are made in the order in which they came (R289, R329). -/
def peerTurn (s : State) (t : Xfer) : Bool :=
  !(s.fe.xfers.any (fun u => u.kind == .peer && u.id < t.id && u.pieces == t.pieces))

/-- A transfer's next piece may issue: nothing held is ahead of it, its turn in its segment or on its queue pair has
come, and its way is free. -/
def mayIssue (s : State) (t : Xfer) : Bool :=
  t.held.isNone &&
    (if t.kind = .peer then peerTurn s t
    else
      let way := match xlat s (xWho t) t.addr.toNat t.read false with | .remote i _ _ => some i | _ => none
      t.left ≠ 0 && !behindHeld s t way && !segWaits s t && wayFree s t false)

/-! ## Peers (R331) -/

/-- A peer access by its window: what remains of it, made piece by piece while partition 15 of the fold lets it; `n`
bounds the pieces. -/
def peerRun : Nat → State → Xfer → Bool → State
  | 0, s, _, _ => s
  | k + 1, s, t, rewalk =>
    let i := (t.pieces.head?.map (·.toNat)).getD 0
    if t.left = 0 then
      let s := dropXfer s t.id
      if t.read then respTo s i t.psn t.data else ackTo s i t.psn
    else
      let w := xWho t
      let va := t.addr.toNat
      let n := pieceLen t
      let next (s : State) (got : Bytes) : State :=
        let t' := { t with addr := t.addr + BitVec.ofNat 64 n, left := t.left - n, held := none
                           data := if t.read then t.data ++ got else t.data.drop n }
        peerRun k (updXfer s t.id (fun _ => t')) t' false
      match xlat s w va t.read rewalk with
      | .loc f a =>
        if !mayFm s f 15 then s
        else
          let s := xlatDone s w va rewalk (xSource t) i 0
          if t.read then let r := fmRead s 15 f a n; next r.1 r.2.1
          else next (fmWrite s 15 f a (t.data.take n)) []
      | .remote _ _ _ => s
      | .fault c l wait =>
        let s := xlatNote s w va rewalk
        if wait then updXfer s t.id (fun t => { t with held := some (BitVec.ofNat 8 (c + 16 * l)) })
        else
          let s := fqWrite (cnt s aXlCntFault)
            { status := stXlatFault.toNat, kind := 1, cause := c, level := l, source := xSource t, cid := w.cid
              secure := false, addr := va, who := i }
          nakAccess (dropXfer s t.id) i t.psn

/-- A transfer's next piece, of a command or of a peer. -/
def nextPiece (s : State) (t : Xfer) (rewalk : Bool) : State :=
  if t.kind = .peer then peerRun (t.left / 4096 + 3) s t rewalk else issuePiece s t rewalk

/-! ## Rows -/

/-- DMA_PIECE_ISSUE: the next piece of a transfer is translated and issued, held, or faults (R322, R325,
R326, R329, R330). -/
def execDmaPieceIssue (x : Nat) (s : State) : Out :=
  .next (match xfer s x with
    | none => s
    | some t => if mayIssue s t then nextPiece s t false else s)

/-- FAULT_WAIT_REWALK: a held piece is walked again without the cache, and goes when its way is free (R329). -/
def execFaultWaitRewalk (x : Nat) (s : State) : Out :=
  .next (match xfer s x with
    | none => s
    | some t => if t.held.isSome ∧ (t.kind = .peer ∨ wayFree s t true) then nextPiece s t true else s)

/-- FAULT_WAIT_EXPIRE: a held piece faults with its last cause (R329, R330). -/
def execFaultWaitExpire (x : Nat) (s : State) : Out :=
  .next (match xfer s x with
    | none => s
    | some t =>
      match t.held with
      | none => s
      | some h =>
        let c := h.toNat % 16
        let l := h.toNat / 16
        if t.kind = .peer then
          let i := (t.pieces.head?.map (·.toNat)).getD 0
          let s := fqWrite (cnt s aXlCntFault)
            { status := stXlatFault.toNat, kind := 1, cause := c, level := l, source := xSource t, cid := t.cid.toNat
              secure := false, addr := t.addr.toNat, who := i }
          nakAccess (dropXfer s x) i t.psn
        else xlatFault s t c l)

/-- The body of a LOOKUP's program sent on to the folds that hold its table (R71, R270). -/
def sendBody (s : State) (h : Half) (i : Nat) (data : Bytes) : State :=
  match req s h with
  | none => s
  | some r =>
    match r.progs[i]? with
    | none => s
    | some d =>
      let folds := match pinnedIm s h (pTid d) with | some (im, _, _) => dFolds im.desc | none => []
      let ws := wordsOf (data.length / 4) data
      folds.foldl (fun s f =>
        let p := ((fold s f).progs.find? (fun p => p.req == h && pDest p.desc == pDest d && p.body.isEmpty)).map (·.id)
        emit s (.fold f (.programBody (BitVec.ofNat 3 f).toFin (p.getD 0) ws))) s

/-- The READs of a dropped transfer are answered: the data is discarded, and nothing waits for them longer (R268, R289,
R328). -/
def lostLands (s : State) (x : Nat) : State :=
  let l := s.fe.lost.filter (fun r => r.1 == x)
  if l.isEmpty || !(l.all (fun r => linkOn s (qpMac s r.2.toNat))) then s
  else
    let s := { s with fe := { s.fe with lost := s.fe.lost.filter (fun r => r.1 ≠ x) } }
    l.foldl (fun s r => updQp s r.2.toNat (fun p => { p with retries := 0, rnr := 0 })) (cntN s aNpCntRxPkt 0 l.length)

/-- DMA_READ_LANDS: the data of the READs that a transfer has out lands; pieces of local memory, and pieces that
landed before, are already there. With its last piece the transfer is complete (R268, R289, R322). -/
def execDmaReadLands (x : Nat) (data : Bytes) (s : State) : Out :=
  .next (match xfer s x with
    | none => lostLands s x
    | some t =>
      if !t.read ∨ t.pieces.isEmpty ∨ t.kind = .ring ∨ t.kind = .peer ∨ !piecesUp s t then s
      else
        let d := mergeData (t.addr.toNat - t.data.length) t.pieces t.data data
        let s := readAnswered s t
        if t.left ≠ 0 then updXfer s x (fun t => { t with data := d, pieces := t.pieces.map (fun _ => localPiece) })
        else match t.kind with
        | .segment _ _ => updXfer s x (fun t => { t with data := d, pieces := [] })
        | k =>
          let s := dropXfer s x
          if !t.marks.isEmpty then abortCmd s t.q.toNat t.n stPoison
          else
            let s := giveCmd s t.q t.n k d
            match k, cmd s t.q.toNat t.n with
            | .body i, some c => if c.handle = 0 then s else sendBody s c.handle i d
            | _, _ => s)

/-! ## Completions (R24, R237, R275) -/

/-- The queue pair that a queue's completion is written on. -/
def cqQp (s : State) (q : Nat) : Option Nat :=
  let u := queue s q
  match xlat s (cmdWho s q) (u.cq.toNat + 32 * (u.posted.toNat % 2 ^ u.log2)) false false with
  | .remote i _ _ => some i
  | _ => none

/-- Every result write of a command has been posted on the completion's queue pair, or acknowledged (R24). -/
def resultsDone (s : State) (c : Cmd) : Bool :=
  let i := cqQp s c.q.toNat
  (s.fe.xfers.filter (fun t => t.q == c.q && t.n == c.n && !t.read && t.kind ≠ .completion)).all (fun t =>
    t.left == 0 && t.pieces.all (fun p => some p.toNat == i))

/-- A duration that saturates at 0xFFFF_FFFF. -/
def sat32 (n : Nat) : Nat := min n 0xFFFFFFFF

/-- ADMIT_NS and RUN_NS of a command posted now (R237, R275). -/
def cplTimes (s : State) (c : Cmd) : Nat × Nat :=
  if c.timed then (c.admitNs.toNat, c.runNs.toNat)
  else if cOp c = 1 ∨ cOp c = 2 then
    (match req s c.handle with
      | none => (c.admitNs.toNat, c.runNs.toNat)
      | some r => match r.firstAt with
        | some t => (sat32 (t.toNat - r.admitAt.toNat), sat32 (now s - t.toNat))
        | none => (sat32 (now s - r.admitAt.toNat), 0))
  else (0, sat32 (now s - c.tagNs.toNat))

/-- The 32 bytes of a completion. -/
def cplBytes (s : State) (c : Cmd) : Bytes :=
  let u := queue s c.q.toNat
  let t := cplTimes s c
  toLE 2 c.status.toNat ++ toLE 2 (c.q.toNat + 2 ^ 15 * b2n (u.posted.toNat / 2 ^ u.log2 % 2 == 0)) ++ toLE 4 c.n.toNat ++
    toLE 8 (cTag c) ++ toLE 4 t.1 ++ toLE 4 t.2 ++ slice c.tally8 0 8

/-- The status of a request noted in the fault records that name it, opened since its tag check, closed or not (R414). -/
def noteStatus (s : State) (q : Nat) (n : Word) (st : Status) (since : Dword) : State :=
  { s with ig := { s.ig with flog := mmap {} (fun r =>
      if r.qid.toNat = q ∧ r.entry = n ∧ since ≤ r.first then { r with status := st } else r) s.ig.flog } }

/-- The completion to post next on a queue: the command that ended first, those apart whose DISCARD is not
acknowledged. -/
def firstEnded (s : State) (q : Nat) : Option Cmd :=
  (s.fe.cmds.filter (fun c => c.q.toNat == q && c.phase == .ended && !awaitsDiscard s c)).foldl (fun b c =>
    match b with | none => some c | some d => if c.endNo < d.endNo then some c else b) none

/-- COMPLETION_POST: the completion is written after the command's results, and what the request held is
released, and a queue held at the limits of R258 goes on fetching (R24, R51, R258, R275, R277). -/
def execCompletionPost (q : BitVec 10) (n : Word) (s : State) : Out :=
  .next (match firstEnded s q.toNat with
    | none => s
    | some c =>
      if c.n ≠ n ∨ !resultsDone s c ∨ (queue s q.toNat).st = .disabled then s
      else
        let u := queue s q.toNat
        let a := u.cq.toNat + 32 * (u.posted.toNat % 2 ^ u.log2)
        let r := newXfer s .completion false q n a 32 (cplBytes s c)
        let s := updQueue (cnt r.1 aFeCntCpl) q.toNat (fun u => { u with posted := u.posted + 1 })
        let s := noteStatus s q.toNat n c.status c.tagNs
        let s := if c.status = stPoison then cnt s aIgCntPoison
          else if c.status = stReplayMismatch then cnt s aIgCntReplayFail else s
        let s := dropCmd (if c.handle = 0 then s else releaseReq s c.handle) q.toNat n
        let s := match xfer s r.2 with
          | some t => if mayIssue s t then issuePiece s t false else s
          | none => s
        resume (settle s))

end Sys2Proof.Machine
end

