-- ==== Sys2Proof/Machine/Reset.lean ====
section
/-! DEFINITION. Whole-part resets: the orderly reset with its steps, zeroisation, the abrupt reset, what is
retained, and the end of a fill (R303, R347, R420, R447, R453 to R457, R462, R468). -/

namespace Sys2Proof.Machine

/-- STAGE set. -/
def setStage (s : State) (n : Nat) : State := rsetF s aPcBootStat 0 3 0 n

/-- CODE of PC_BOOT_STAT set. -/
def setCode (s : State) (n : Nat) : State := rsetF s aPcBootStat 0 23 16 n

/-! ## Steps 1 and 2 of an orderly reset (R303, R420, R454) -/

/-- The completion of a command that an orderly reset ends, where its queue's completion queue can be
written. -/
def postEnd (s : State) (c : Cmd) (st : Status) : State :=
  let q := c.q.toNat
  let u := queue s q
  let a := u.cq.toNat + 32 * (u.posted.toNat % 2 ^ u.log2)
  if c.silent ∨ u.st = .disabled then s
  else
    let b := cplBytes s { c with status := st, tally8 := [] }
    let done (s : State) : State :=
      noteStatus (updQueue (cnt s aFeCntCpl) q (fun u => { u with posted := u.posted + 1 })) q c.n st c.tagNs
    match xlat s (cmdWho s q) a false false with
    | .remote i rkey ra =>
      if qpRts s i then
        let x := s.fe.nextXfer
        done (sendOn { s with fe := { s.fe with nextXfer := x + 1 } } i x false
          (.write (BitVec.ofNat 13 i) (BitVec.ofNat 32 rkey) (BitVec.ofNat 64 ra) b none))
      else s
    | .loc f ra => done (fmWrite s 15 f ra b)
    | .fault _ _ _ => s

/-- Every outstanding command ends with a status, whatever it was doing; queues are DISABLED and every session
lapses. -/
def endAll (s : State) (st : Status) : State :=
  let s := s.fe.cmds.foldl (fun s c => postEnd s c st) s
  let lapsed := (s.np.sessions.filter (fun (_, x) => x.live)).length
  let s := cntN s aNpCntSesLapse 0 lapsed
  { s with
    fe := { s.fe with cmds := [], xfers := [], queues := [], dbLo := [] }
    reqs := [], checking := []
    cores := mmap {} (fun x => { x with slots := [], run := none, lastRun := none, flight := [], issueQ := [], opened := none, heldFull := false }) s.cores
    folds := mmap {} (fun x => { x with ctxs := [], progs := [], rels := [], runs := [] }) s.folds
    dl := { s.dl with records := [], waitingPins := [], steps := [], readys := [], colls := [], clears := [] }
    np := { s.np with sessions := [] }
    xl := { s.xl with syncs := [] } }

/-- Stored registers of an address range take their reset value of 0. -/
def clearRegs (s : State) (lo hi : Nat) : State :=
  { s with regs := s.regs.filter (fun (k, _) => k < regKey lo 0 || regKey (hi + 4) 0 ≤ k) }

/-- Key material zeroised, every queue pair to RESET, and the Drove links down (R303 step 2, R447). Doorbell
and session keys are gone with their queues and sessions. -/
def zeroise (s : State) : State :=
  let s := clearRegs s aXlMwTag aXlMwTag
  let s := clearRegs s aXlTgtRkey aXlTgtRkey
  let s := clearRegs s aPcOwnerKey0 aPcOwnerKey7
  let s := clearRegs s aPcDbgNonce0 aPcDbgNonce7
  let s := clearRegs s aPcDbgToken (aPcDbgToken + 4092)
  let s := rsetF s aPcSecStat 0 2 2 0
  { s with
    pc := { s.pc with aliasSk := [] }
    np := { s.np with qps := [], heldTx := [] }
    sels := [], latches := []
    dl := { s.dl with waitTx := [], links := mmap {} (fun l => { l with st := .down, trained := false, retry := [], resends := 0, txSeq := 0, rxSeq := 0 }) s.dl.links } }

/-- An orderly reset starts: steps 1 and 2 are made, and the clearing of step 3 begins. Another orderly reset
merges with it (R453, R457). -/
def startOrderly (s : State) (cause : BitVec 4) (st : Status) : State :=
  if closed s ∨ heldInReset s then s
  else
    let s := zeroise (endAll s st)
    { s with pc := { s.pc with orderly := some cause }, np := { s.np with lapsed := true } }

/-! ## The whole-part reset (R453 to R456) -/

/-- The retained set of a state put into the state after reset; the reset covers every block, so every record of the
fault log closes (R416, R455; log entry 155). -/
def retain (s : State) : State :=
  let put (t : State) (a : Nat) : State := rset t a 0 (rv s a)
  let t : State := { State.reset with ig := { State.reset.ig with flog := mmap {} (fun r => { r with open_ := false }) s.ig.flog } }
  let t := [aIgFlogProd, aIgFlogCons, aIgFlogLost, aIgCresetCause, aIgCresetRecno].foldl put t
  rsetF t aIgStat 0 1 1 (rf s aIgStat 0 1 1)

/-- A conditioned input after a reset: its levels read 0, and its declaration, timers and count go; a level that stays
active comes through the filter again (R478, R489; log entry 184). -/
def condReset : Cond := {}

/-- What no reset changes: the waiting commands, the trace, the free values drawn, the levels of the pins and
the strapped address until it is sampled. -/
def keepOutside (s t : State) : State :=
  let t := { t with
    pending := s.pending, tx := s.tx, fresh := s.fresh
    pc := { t.pc with pwrgood := s.pc.pwrgood, resetN := s.pc.resetN, tripped := s.pc.tripped, tapReset := s.pc.tapReset
                      pwrPin := s.pc.pwrPin, pwrGap := s.pc.pwrGap, draws := s.pc.draws
                      alert := condReset, throttle := condReset, sync := condReset } }
  rsetF t aPcPinStat 0 10 8 (rf s aPcPinStat 0 10 8)

/-- SB_ADDR sampled at a reset whose row gives no levels of the pins: a free value (R482; log entry 114). -/
def sampleStraps (s : State) : State := let d := draw s; rsetF d.2 aPcPinStat 0 10 8 (d.1 % 8)

/-- A whole-part reset with a cause, PWRGOOD staying high: the retained set is kept, PC_BOOT_TRIES counts watchdog
resets in a row, SB_ADDR is sampled, and the test port keeps its instruction (R453, R455, R463, R482, R483; log entry
185). -/
def wholeReset (s : State) (cause : Nat) : State :=
  let t := keepOutside s (retain s)
  let t := sampleStraps { t with pc := { t.pc with tap := s.pc.tap } }
  let t := rset t aPcRstCause 0 cause
  rset t aPcBootTries 0 (if cause = 5 then min 3 (rv s aPcBootTries + 1) else 0)

/-- A power-on reset: nothing is retained (R453). -/
def powerReset (s : State) : State := keepOutside s State.reset

/-! ## A re-plan starts (R493) -/

/-- A re-plan starts with its reason, on a part that has booted; a trigger during a re-plan merges into it. -/
def startReplan (s : State) (reason : Nat) : State :=
  if closed s || heldInReset s || s.pc.replanning || !(stage s == 8 || stage s == 9) then s
  else rsetF { s with pc := { s.pc with
    replanning := true, replanReason := BitVec.ofNat 8 reason, retrained := [], skipFolds := [] } } aPcMarginStat 0 0 0 1

/-! ## The end of a fill (R303, R316, R347, R420, R462, R468) -/

/-- Every channel of a fold is trained (R359). -/
def foldTrained (s : State) (f : Nat) : Bool := (List.range 16).all (fun k => (mget {} (fold s f).chans k).trained)

/-- Every fold that is not disabled has completed its boot fill. -/
def allFilled (s : State) : Bool := (List.range 8).all (fun f => (fold s f).disabled || (fold s f).filled)

/-- The part enters READY, so many ms after stage 0 began: claims are accepted from now on (R458, R463, R468, R469). -/
def enterReady (s : State) (ms : Nat) : State :=
  let s := rset { s with pc := { s.pc with bootMs := ms } } aPcBootTime 0 (min 0xFFFF ms)
  setStage (rset s aPcBootTries 0 0) 8

/-- A region's pages zeroed, its descriptor freed and its REGION_UNMAP ended (R316). -/
def unmapDone (s : State) (i : Nat) : State :=
  let r := region s i
  if !r.unmapping then s
  else
    let top := regionTop s r
    let s := setRegion (if r.base < top then fmFill s r.unit.toNat r.base top else s) i {}
    match s.fe.cmds.find? (fun c => cOp c == 20 && c.q == 0 && c.phase == .unit && cF c 16 2 == i) with
    | some c => finish s 0 c.n 0
    | none => s

/-- FILL_DONE: the end of the zeroing of an unmapped region, of the clearing of an orderly reset, or of a
fold's boot fill, which follows its training (R462). -/
def execFillDone (w : FillFor) (s : State) : Out :=
  .next (match w with
    | .unmap i => if mayFm s (region s i).unit.toNat 15 then unmapDone s i else s
    | .clear => match s.pc.orderly with
      | some c => wholeReset s c.toNat
      | none => s
    | .boot f ms =>
      if heldInReset s ∨ stage s ≠ 7 ∨ (fold s f).disabled ∨ (fold s f).filled ∨ !foldTrained s f then s
      else
        let s := updFold s f (fun x => { x with pasture := [], check := [], pen := [], penPoison := [], dir := []
                                                masters := [], filled := true })
        let s := fmFillAll s f
        if allFilled s then enterReady s ms else s)

end Sys2Proof.Machine
end

