-- ==== Sys2Proof/Machine/Fm.lean ====
section
/-! DEFINITION. The fold memory controller: requests split into runs, their issue under the partition
regulators, read data as it returns, refresh, maintenance slots, scrub and retraining (R343 to R361, R510). -/

namespace Sys2Proof.Machine

/-! ## Partitions (R350 to R354) -/

/-- RATE summed over the partitions of a fold (R354). -/
def rateSum (s : State) (f : Nat) : Nat := ((List.range 16).map (partRate s f)).sum

/-- Tokens of every partition of a fold after one CLK_FAB cycle, and the cycles in which a head was held with
T ≤ 0 counted (R352, R363). -/
def tickFold (s : State) (f : Nat) : State :=
  (List.range 16).foldl (fun s p =>
    let s := if tokens s f p ≤ 0 && (fold s f).runs.any (fun r => r.part == p) then cnt s (foldReg f aFmPartCntWait) p else s
    let t := min (tokens s f p + partRate s f p) (64 * partDepth s f p : Int)
    updFold s f (fun x => { x with tokens := mset 0 x.tokens p t })) s

/-! ## Requests (R348 to R350) -/

/-- A sector of a request: channel, index, bytes and which of them are written. -/
structure SecReq where
  ch : Nat
  i : Nat
  data : Bytes
  mask : List Bool
  deriving DecidableEq, Repr

/-- The sectors of a request at an address. -/
def reqSecs (a n : Nat) (data : Bytes) : List SecReq :=
  (sectors a n).map (fun k => { ch := chanOf k, i := secOf k
                                data := (List.range 32).map (fun j => if a ≤ k + j ∧ k + j < a + n then (data[k + j - a]?).getD 0 else 0)
                                mask := (List.range 32).map (fun j => decide (a ≤ k + j ∧ k + j < a + n)) })

/-- A sector added to the runs of a request: to the last run where it lies in the same granule and row. -/
def addSec (part : Nat) (write : Bool) (l : List Run) (x : SecReq) : List Run :=
  let whole := x.mask.all (fun b => b)
  match l.reverse with
  | r :: rs =>
    if r.ch = x.ch ∧ (r.secs.headD 0) / 8 = x.i / 8 ∧ rowIdx (r.secs.headD 0) = rowIdx x.i then
      (({ r with secs := r.secs ++ [x.i], data := r.data ++ [(x.data, x.mask)], rmw := r.rmw || (write && !whole) } :: rs)).reverse
    else l ++ [{ order := 0, part := part, ch := x.ch, write := write, secs := [x.i], data := [(x.data, x.mask)], rmw := write && !whole }]
  | [] => [{ order := 0, part := part, ch := x.ch, write := write, secs := [x.i], data := [(x.data, x.mask)], rmw := write && !whole }]

/-- The runs of a request. -/
def reqRuns (part : Nat) (write : Bool) (a n : Nat) (data : Bytes) : List Run :=
  (reqSecs a n data).foldl (addSec part write) []

/-- Runs outstanding in a fold. -/
def runsOut (x : Fold) : Nat := x.runs.length + ((x.chans.map (fun (_, c) => c.issued.length)).sum)

/-- Runs queued of a partition on a channel. -/
def queued (x : Fold) (p ch : Nat) : Nat := (x.runs.filter (fun r => r.part == p && r.ch == ch)).length

/-- FM_REQUEST: a narrow or wide request is split into runs, queued per partition and channel; with a full
queue the requester holds it. An address that the usable pasture does not have is a fault (R339, R348 to
R350). -/
def execFmRequest (f : Fin 8) (part : Fin 16) (_wide write : Bool) (addr : Nat) (data : Bytes) (len : Nat) (s : State) : Out :=
  let x := fold s f
  let n := if write then data.length else len
  if !x.filled || fmHeld s f then .next s
  else if usable s < addr + n then .fault (.noSuchFoldAddress addr)
  else
    let rs := reqRuns part write addr n data
    if 1024 < runsOut x + rs.length ∨ rs.any (fun r => 32 < queued x r.part r.ch + (rs.filter (fun q => q.ch == r.ch)).length) then .next s
    else
      let rs := rs.zipIdx.map (fun (r, k) => { r with order := x.nextRun + k })
      .next (setFold s f { x with runs := x.runs ++ rs, nextRun := x.nextRun + rs.length })

/-! ## Issue (R351 to R353) -/

/-- An earlier run on the same sector is still pending (R349). -/
def hazard (x : Fold) (r : Run) : Bool :=
  let clash (q : Run) : Bool := q.order < r.order && q.ch == r.ch && q.secs.any (fun i => r.secs.contains i)
  x.runs.any clash || (mget {} x.chans r.ch).issued.any clash

/-- Heads of the queues of a channel that no earlier request holds. -/
def heads (x : Fold) (ch : Nat) : List Run :=
  ((List.range 16).filterMap (fun p => x.runs.find? (fun r => r.part == p && r.ch == ch))).filter (fun r => !hazard x r)

/-- The earliest run of a list. -/
def earliest (l : List Run) : Option Run :=
  l.foldl (fun b r => match b with | none => some r | some q => if r.order < q.order then some r else some q) none

/-- RUN_ISSUE: the channel takes the earliest eligible head, or with BORROW the earliest other (R353). -/
def execRunIssue (f : Fin 8) (ch : Fin 16) (s : State) : Out :=
  .next (let x := fold s f
    let hs := heads x ch
    if (mget {} x.chans ch).trained = false ∨ ((unit s (2 + f.val)).st = .resetting ∧ fmHeld s f) then s
    else match earliest (hs.filter (fun r => eligible s f r.part)) with
      | some r => issueRun s f r
      | none =>
        if !borrows s f then s
        else match earliest hs with
          | some r => issueRun s f r
          | none => s)

/-! ## Data (R343 to R346) -/

/-- Bits of a stored sector and of its check word found inverted. -/
def flipSector (s : State) (f a : Nat) (fd : BitVec 256) (fc : BitVec 16) : State :=
  if fd = 0 ∧ fc = 0 then s
  else updFold s f (fun x =>
    let d := rdN x.pasture a 32
    let d' := d.zipIdx.map (fun (b, i) => b ^^^ BitVec.ofNat 8 (fd.toNat / 2 ^ (8 * i)))
    let dev := Nat.xor (Nat.xor (devAt x a) (Nat.xor (crc16 (secOf a) d) (crc16 (secOf a) d'))) fc.toNat
    { x with pasture := wrN x.pasture a d', check := mset 0 x.check (a / 32) (BitVec.ofNat 16 dev) })

/-- READ_DATA_RETURN: the data of the oldest issued run of a channel returns, with the bits of its first sector
that have gone wrong (R343 to R345). -/
def execReadDataReturn (f : Fin 8) (ch : Fin 16) (fd : BitVec 256) (fc : BitVec 16) (s : State) : Out :=
  .next (match (mget {} (fold s f).chans ch).issued with
    | [] => s
    | r :: _ => returnRun (flipSector s f (addrOf ch (r.secs.headD 0)) fd fc) f r)

/-- Data sectors of a channel. -/
def chanSecs (s : State) : Nat := usable s / 512

/-- SCRUB: the channel's next sectors, those left of the granule it has reached, are read in ascending order by a
wide read in partition 15, and corrected or reported as by any other read; bits of the first of them have gone
wrong (R346). -/
def execScrub (f : Fin 8) (ch : Fin 16) (fd : BitVec 256) (fc : BitVec 16) (s : State) : Out :=
  .next (if !rb s (foldReg f aFmCtl) 0 1 ∨ !(fold s f).filled ∨ chanSecs s = 0 ∨ !mayFm s f 15 then s
    else
      let i := (mget {} (fold s f).chans ch).scrubAt
      let as := (List.range (8 - i % 8)).map (fun k => addrOf ch (i + k))
      let s := flipSector (serveBefore s f 15 as) f (addrOf ch i) fd fc
      let s := makeRuns s f 15 as (fun _ => true) (fun _ => false)
      let s := as.foldl (fun s a => noteSec s f none none true a) s
      updChan s f ch (fun c => { c with scrubAt := (i + (8 - i % 8)) % chanSecs s }))

/-! ## Refresh, maintenance and training (R356 to R361) -/

/-- Heads of a channel that a refresh of some banks, or a maintenance slot, delays. -/
def delayed (x : Fold) (ch : Nat) (p : Nat → Bool) : Nat :=
  ((heads x ch).filter (fun r => p (bankOf (r.secs.headD 0)))).length

/-- REFRESH: one bank pair is refreshed, its rows are closed, and the rotation goes on; at its start the
refresh multiplier changes (R356, R357). -/
def execRefresh (f : Fin 8) (ch : Fin 16) (s : State) : Out :=
  .next (let x := fold s f
    let c := mget {} x.chans ch
    if !c.trained then s
    else
      let c := if c.pair = 0 then { c with refMult := c.refNext } else c
      let b := c.pair.toNat
      let n := delayed x ch (fun k => k % 8 == b)
      let s := cntN s (foldReg f aFmChRefWait) ch n
      updChan s f ch (fun _ => { c with pair := c.pair + 1, intervals := c.intervals + 1
                                        openRow := mset 0 (mset 0 c.openRow b 0) (b + 8) 0 }))

/-- REFRESH_RATE_READ: the multiplier that each die asks for is taken at its next rotation, and a die that asks
for four times is HOT (R357). -/
def execRefreshRateRead (f : Fin 8) (rates : List (Fin 3)) (s : State) : Out :=
  .next (rates.zipIdx.foldl (fun s (r, k) =>
    if k < 16 ∧ (mget {} (fold s f).chans k).trained then
      updChan s f k (fun c => { c with refNext := BitVec.ofNat 2 r, hot := c.hot || r.val == 2 })
    else s) s)

/-- DRIFT of FM_TRN_CTL; 0 acts as 1 (R360). -/
def driftLim (s : State) (f : Nat) : Nat := max 1 (rf s (foldReg f aFmTrnCtl) 0 6 0)

/-- MAINTENANCE_SLOT: a pending delay step is applied, and the oscillator is started or read (R358, R360). -/
def execMaintenanceSlot (f : Fin 8) (ch : Fin 16) (osc : Int) (s : State) : Out :=
  .next (let c := mget {} (fold s f).chans ch
    if !c.trained then s
    else
      let s := cntN s (foldReg f aFmChRefWait) ch (delayed (fold s f) ch (fun _ => true))
      let s := if c.pendingStep.isSome then cnt s (foldReg f aFmChDriftStep) ch else s
      let c := match c.pendingStep with
        | some up => { c with pendingStep := none, delay := if up then c.delay + 1 else c.delay - 1
                              driftSteps := c.driftSteps + 1, driftFlag := c.driftFlag || c.driftSteps + 1 == 8 }
        | none => c
      let c := if !c.oscStarted then { c with oscStarted := true }
        else { c with oscStarted := false
                      pendingStep := if driftLim s f < (osc - c.oscBase).natAbs then some (decide (c.oscBase < osc)) else none }
      let was := (mget {} (fold s f).chans ch).driftFlag
      let s := updChan s f ch (fun _ => { c with intervals := 0 })
      if c.driftFlag && !was then startReplan s 3 else s)

/-- A fold whose channels a re-plan skips: it is in a unit reset, or has met one in this re-plan (R495). -/
def foldSkipped (s : State) (f : Nat) : Bool :=
  s.pc.skipFolds.contains f || (unit s (2 + f)).st == .quiescing || (unit s (2 + f)).st == .resetting

/-- RETRAIN_STEP: one step of the retraining of a channel that a re-plan has ordered, one channel of a fold at a
time; the last step records its eyes. A fold that a unit reset has met in the re-plan is skipped (R361, R363, R495). -/
def execRetrainStep (f : Fin 8) (ch : Fin 16) (rdEye wrEye vref : Byte) (last : Bool) (s : State) : Out :=
  .next (let x := fold s f
    let c := mget {} x.chans ch
    if !s.pc.replanning ∨ !c.trained ∨ foldSkipped s f ∨ x.chans.any (fun (k, y) => k ≠ ch.val && y.retraining) then s
    else
      let n := if c.retraining then c.steps + 1 else 1
      let r := draw s
      let s := if last then { r.2 with pc := { r.2.pc with
        retrained := if r.2.pc.retrained.contains (16 * f.val + ch.val) then r.2.pc.retrained else r.2.pc.retrained ++ [16 * f.val + ch.val] } }
        else s
      let c := if last then { c with rdEye := rdEye, wrEye := wrEye, vref := vref, driftSteps := 0, oscBase := r.1, oscStarted := false }
        else c
      updChan s f ch (fun _ => { c with retraining := !last, steps := n }))

/-! ## Registers (R363, R510) -/

/-- FM_PART_RATE of a requester's selected partition (R363). -/
def wrPartRate (s : State) (a : Acc) (f : Nat) (v : Word) : State :=
  secureOnly s a blkFM f (foldReg f aFmPartRate) (fun s =>
    rset s (foldReg f aFmPartRate) (selOf s a.who (foldReg f aFmPartSel) % 16) (v.toNat % 1024 + 65536 * bits v.toNat 25 16))

/-- FM_PART_RATE. -/
def execFmPartRate (a : Acc) (f : Fin 8) (v : Word) (s : State) : Out := .next (acc1 s a (fun s => wrPartRate s a f v))

/-- FM_ECC_INJ: while ARM is 1 a write replaces CH and DOUBLE and leaves the injection armed (R510). -/
def wrEccInj (s : State) (a : Acc) (f : Nat) (v : Word) : State :=
  secureOnly s a blkFM f (foldReg f aFmEccInj) (fun s =>
    let r := foldReg f aFmEccInj
    let armed := rb s r 0 0 || bit v.toNat 0
    rset s r 0 (b2n armed + 2 * b2n (bit v.toNat 1) + 16 * bits v.toNat 7 4))

/-- FM_ECC_INJ. -/
def execFmEccInj (a : Acc) (f : Fin 8) (v : Word) (s : State) : Out := .next (acc1 s a (fun s => wrEccInj s a f v))

end Sys2Proof.Machine
end

