-- ==== Sys2Proof/Machine/RcAV.lean ====
section
/-! DEFINITION. Slots A and V: the instructions of the matrix array and the vector engine, issued in the
cycle of their open bundle (R156, R190, R198, R207, R214). -/

namespace Sys2Proof.Machine

/-- The open bundle of a core that is not held, with its slot. -/
def openSlots (s : State) (c : Nat) : Option (OpenB × Slot) :=
  let x := core s c
  match x.opened with
  | some o => if x.heldFull then none else some (o, cslot x o.slot)
  | none => none

/-- Slot A of the open bundle is taken. -/
def takeA (s : State) (c : Nat) : State :=
  updCore s c (fun x => { x with opened := x.opened.map (fun o => { o with a := true }) })

/-- Slot V of the open bundle is taken. -/
def takeV (s : State) (c : Nat) : State :=
  updCore s c (fun x => { x with opened := x.opened.map (fun o => { o with v := true }) })

/-- An effect of the open bundle in a later cycle. -/
def addOpen (s : State) (c : Nat) (f : Flight) : State :=
  updCore s c (fun x => { x with opened := x.opened.map (fun o => { o with fl := o.fl ++ [f] }) })

/-- A 64 B descriptor read at the core port (R162, R164, R190, R207). -/
def readDesc (s : State) (c : Nat) (v : Slot) (sd : Scr) : Span × Bool :=
  winRead (core s c) v sd.win.toNat (coreOff v sd) 64

/-- A descriptor that came marked by an error counts against the request; a suppressed read is an
exception. -/
def noteDesc (s : State) (c : Nat) (o : OpenB) (v : Slot) (d : Span × Bool) : State :=
  let s := if d.1.hard then markPoison s v.req else s
  if d.2 then updCore s c (fun x => recExc x o.slot stRegionDenied o.at_ true) else s

/-- ANOP: nothing (R190). -/
def execAnop (c : Core2) (s : State) : Out := .next (takeA s c)

/-- MMA: C of a set from weight and activation blocks (R191, R195, R198, R199). -/
def execMma (c : Core2) (sd : Scr) (xw xx : BitVec 5) (set : BitVec 2) (zero : Bool) (s : State) : Out :=
  .next (match openSlots s c with
    | none => s
    | some (o, v) =>
      if o.a then s
      else
        let d := readDesc s c v sd
        let s := noteDesc (takeA s c) c o v d
        let j := maJob o.slot v o.at_ o.pc set.toNat zero (xreg v xw.toNat) (xreg v xx.toNat) d.1
        if d.2 then s
        else if !maComb j.w j.x ∨ maN j = 0 ∨ j.kb = 0 then illegalBundle s c o.slot o.pc.toNat
        else
          let s := addOpen s c { due := o.at_ + 2, reads := true, mav := some o.slot, act := .maFetch j }
          let s := updCore s c (fun x =>
            { x with maRun := x.maRun ++ [(set.toNat, v.pace, o.at_ + 2, o.at_ + 2 + j.occ)] })
          cnt s (coreReg c aMaCntInstr))

/-- ACLR: +0 in every element of the set, visible from cycle i + 10 (R190, R198). -/
def execAclr (c : Core2) (set : BitVec 2) (s : State) : Out :=
  .next (match openSlots s c with
    | none => s
    | some (o, v) =>
      if o.a then s
      else
        let s := addOpen (takeA s c) c
          { due := o.at_ + 10, reads := false, mav := some o.slot, act := .clearAcc set.toNat }
        let s := updCore s c (fun x =>
          { x with maRun := x.maRun ++ [(set.toNat, v.pace, o.at_ + 2, o.at_ + 10)] })
        cnt s (coreReg c aMaCntInstr))

/-- A vector instruction started (R207, R208, R214). -/
def startVe (c : Nat) (sd : Scr) (xo : BitVec 5) (op : Nat) (fn act : BitVec 4) (rule : Bool) (imm : Half)
    (s : State) : State :=
  match openSlots s c with
  | none => s
  | some (o, v) =>
    if o.v then s
    else
      let d := readDesc s c v sd
      let s := noteDesc (takeV s c) c o v d
      let j := veJob o.slot v o.at_ op fn.toNat act.toNat rule imm.toNat (xreg v xo.toNat) d.1
      if d.2 then s
      else if !veFnOk j ∨ 10 < j.act ∨ j.rows * j.cols = 0 then illegalBundle s c o.slot o.pc.toNat
      else
        let s := addOpen s c { due := o.at_ + 2, reads := true, mav := some o.slot, act := .veSlab j }
        let s := updCore s c (fun x =>
          { x with veRun := x.veRun ++ [(op, o.at_ + 2, o.at_ + 2 + veOcc j)] })
        cnt s (coreReg c aVeCntInstr)

/-- VNOP: nothing (R207). -/
def execVnop (c : Core2) (s : State) : Out := .next (takeV s c)

/-- VEW: y = ACT(f(a, b′)) for every element (R210). -/
def execVew (c : Core2) (sd : Scr) (xo : BitVec 5) (fn act : BitVec 4) (rule : Bool) (imm : Half)
    (s : State) : Out := .next (startVe c sd xo 1 fn act rule imm s)

/-- VSCAN: segmented scans of each row (R212). -/
def execVscan (c : Core2) (sd : Scr) (xo : BitVec 5) (fn act : BitVec 4) (rule : Bool) (imm : Half)
    (s : State) : Out := .next (startVe c sd xo 2 fn act rule imm s)

/-- VRED: each row reduced into column 0 of D (R213). -/
def execVred (c : Core2) (sd : Scr) (xo : BitVec 5) (fn act : BitVec 4) (rule : Bool) (imm : Half)
    (s : State) : Out := .next (startVe c sd xo 3 fn act rule imm s)

end Sys2Proof.Machine
end

