-- ==== Sys2Proof/Machine/RcM.lean ====
section
/-! DEFINITION. Slot M: moves through the core port, and the instructions that go through the issue queue:
lookup programs, releases, collectives and outputs (R162, R164, R168 to R175, R184, R380 to R382). -/

namespace Sys2Proof.Machine

/-- Slot M of the open bundle is taken. -/
def takeM (s : State) (c : Nat) : State :=
  updCore s c (fun x => { x with opened := x.opened.map (fun o => { o with m := true }) })

/-- An exception of the open bundle that ends its launch at the next preemption point (R184). -/
def mExc (s : State) (c : Nat) (o : OpenB) (st : Status) : State :=
  updCore s c (fun x => recExc x o.slot st o.at_ true)

/-- A slot M instruction run in the open bundle, if its slot is still to come. -/
def withM (s : State) (c : Nat) (g : State → OpenB → Slot → State) : State :=
  match openSlots s c with
  | none => s
  | some (o, v) => if o.m then s else g (takeM s c) o v

/-! ## Core port (R169, R170) -/

/-- Physical address of line `i` of a 128 B aligned operand. -/
def lineAddr (v : Slot) (p : Scr) (i : Nat) (write : Bool) : Option Nat :=
  winAddr v p.win.toNat (coreOff v p / 128 * 128 + 128 * i) 128 write

/-- Physical address of a word operand. -/
def wordAddr (v : Slot) (p : Scr) (write : Bool) : Option Nat :=
  winAddr v p.win.toNat (coreOff v p / 4 * 4) 4 write

/-- An exception for a suppressed access of the core port (R164). -/
def noteDenied (s : State) (c : Nat) (o : OpenB) (bad : Bool) : State :=
  if bad then mExc s c o stRegionDenied else s

/-- MNOP: nothing (R168). -/
def execMnop (c : Core2) (s : State) : Out := .next (withM s c (fun s _ _ => s))

/-- COPY: source line i read in cycle 2 + i, destination line i visible from cycle 7 + i (R170). -/
def execCopy (c : Core2) (sa sb : Scr) (lines : BitVec 12) (s : State) : Out :=
  .next (withM s c (fun s o v =>
    (List.range (lines.toNat + 1)).foldl (fun s i =>
      let src := lineAddr v sa i false
      let dst := lineAddr v sb i true
      addFlight (noteDenied s c o (src.isNone || dst.isNone)) c
        { due := o.at_ + 2 + i, reads := true, mav := none, act := .copyLine o.slot src dst }) s))

/-- FILL: destination line i of zeros, visible from cycle 3 + i (R170). -/
def execFill (c : Core2) (sb : Scr) (lines : BitVec 12) (s : State) : Out :=
  .next (withM s c (fun s o v =>
    (List.range (lines.toNat + 1)).foldl (fun s i =>
      match lineAddr v sb i true with
      | some a => addFlight s c { due := o.at_ + 3 + i, reads := false, mav := none
                                  act := .putSpan (some o.slot) a { data := List.replicate 128 0 } }
      | none => noteDenied s c o true) s))

/-- LDW: XD = a word of the scratchpad, read in cycle 2 and written in cycle 8 (R170). -/
def execLdw (c : Core2) (sa : Scr) (xd : BitVec 5) (s : State) : Out :=
  .next (withM s c (fun s o v =>
    let a := wordAddr v sa false
    addFlight (noteDenied s c o a.isNone) c
      { due := o.at_ + 2, reads := true, mav := none, act := .loadWord o.slot xd a }))

/-- STW: a word of the scratchpad = XS, visible from cycle 3 (R170). -/
def execStw (c : Core2) (sb : Scr) (xs : BitVec 5) (s : State) : Out :=
  .next (withM s c (fun s o v =>
    match wordAddr v sb true with
    | some a => addFlight s c { due := o.at_ + 3, reads := false, mav := none
                                act := .putSpan (some o.slot) a { data := toLE 4 (xreg v xs.toNat) } }
    | none => noteDenied s c o true))

/-! ## The issue queue (R175) -/

/-- The open bundle is held for a full issue queue: no slot of it has issued, and its commands come again, from its
slot C on, once an entry is free (R175; log entry 139). -/
def holdB (s : State) (c : Nat) (o : OpenB) : State :=
  let b := o.before
  let ma := o.fl.any (fun f => match f.act with | .maFetch _ => true | .clearAcc _ => true | _ => false)
  let ve := o.fl.any (fun f => match f.act with | .veSlab _ => true | _ => false)
  let s := updCore s c (fun x =>
    { cupdSlot x o.slot (fun v => { v with
        pc := b.pc, loops := b.loops, yielded := b.yielded, atEnd := b.atEnd }) with
      opened := none, heldFull := true
      maRun := x.maRun.filter (fun (_, _, a, _) => a ≠ o.at_ + 2)
      veRun := x.veRun.filter (fun (_, a, _) => a ≠ o.at_ + 2) })
  let s := cntN s (coreReg c aSqCntBundles) 0 (2 ^ 32 - 1)
  let s := if ma then cntN s (coreReg c aMaCntInstr) 0 (2 ^ 32 - 1) else s
  let s := if ve then cntN s (coreReg c aVeCntInstr) 0 (2 ^ 32 - 1) else s
  cnt s (coreReg c aSqCntIssueFull)

/-- An instruction that needs an entry of the issue queue: with the queue full its bundle is held, which is
a preemption point. -/
def withQ (s : State) (c : Nat) (g : State → OpenB → Slot → State) : State :=
  match openSlots s c with
  | none => s
  | some (o, v) =>
    if o.m then s
    else if 512 ≤ (core s c).issueQ.length then endHeld (holdB s c o) c
    else g (takeM s c) o v

/-- An entry put at the end of the issue queue. -/
def putQ (s : State) (c : Nat) (e : IssueE) : State :=
  updCore s c (fun x => { x with issueQ := x.issueQ ++ [e] })

/-! ## GISSUE (R171) -/

/-- A 32-bit scratch address of R171: WIN in [31:29], window offset in [25:0]. -/
def sAddr (v : Slot) (a n : Nat) (write : Bool) : Option Nat := winAddr v (a / 2 ^ 29) (a % 2 ^ 26) n write

/-- Window and offset of a program's body; none for a CHAIN without an earlier GISSUE. -/
def bodyAt (v : Slot) (sb : Scr) (chain : Bool) : Option (Nat × Nat) :=
  if chain then v.chain.map (fun a => (a / 2 ^ 32, a % 2 ^ 32)) else some (sb.win.toNat, extOff v sb)

/-- The descriptor sent to fold `f`: CTX, GEN, DEST, CID, WORLD, REQ and DSEL replaced (R171 step 4). -/
def sentDesc (s : State) (r : Req) (d : Bytes) (f ctx dest dsel : Nat) : Bytes :=
  let w := setBits (setBits (fld d 24 2) 11 0 r.cid.toNat) 15 15 (b2n r.world)
  toLE 1 ctx ++ slice d 1 6 ++ [(unit s (2 + f)).gen] ++ slice d 8 8 ++ toLE 4 dest ++ slice d 20 4 ++
    toLE 2 w ++ toLE 2 r.handle.toNat ++ slice d 28 1 ++ toLE 1 (setBits (fld d 29 1) 1 0 dsel) ++ slice d 30 34

/-- Physical context of a launch-relative one on a fold; none beyond the context count. -/
def physCtx (r : Req) (f i : Nat) : Option Nat := (mget [] r.ctxs f)[i]?

/-- The next CHAIN body of the launch starts where this one ends (R171 step 2). -/
def setChain (s : State) (c k bw e : Nat) : State :=
  updCore s c (fun x => cupdSlot x k (fun v => { v with chain := some (bw * 2 ^ 32 + e) }))

/-- GISSUE: builds, checks and queues one lookup program (R171). The next CHAIN body starts at the byte after this one's,
sent or refused; where its descriptor or its index count cannot be read, the bytes read as 0 (R164; log entry 168). Descriptor, body and the folds' generations are read as
the bundle issues (DESIGN CHOICE: R171 gives its steps no moment; log entry 136). -/
def execGissue (c : Core2) (sa sb : Scr) (ctr : BitVec 5) (nfb chain : Bool) (s : State) : Out :=
  .next (withQ s c (fun s o v =>
    match req s v.req, bodyAt v sb chain with
    | none, _ => s
    | _, none => illegalBundle s c o.slot o.pc.toNat
    | some r, some (bw, bo) =>
      match winAddr v sa.win.toNat (extOff v sa) 64 false with
      | none => mExc (setChain s c o.slot bw bo) c o stRegionDenied
      | some da =>
        let dsp := scrRead (core s c) da 64
        let d := dsp.data
        let na := winAddr v bw (bo + 4 * pBags d) 4 false
        let nx (d : Bytes) : State := setChain s c o.slot bw (bo + 4 * bodyLen d)
        if nfb && pLayout d then mExc (nx d) c o stBadField
        else if nfb && na.isNone then mExc (nx (d.take 12 ++ toLE 4 0 ++ d.drop 16)) c o stRegionDenied
        else
          let d := if nfb then d.take 12 ++ (scrRead (core s c) (na.getD 0) 4).data ++ d.drop 16 else d
          let n := 4 * bodyLen d
          let s := nx d
          match pinnedIm s v.req (pTid d) with
          | none => mExc s c o stBadField
          | some (im, _, _) =>
            let dim := dDim im.desc
            let folds := dFolds im.desc
            let span := (pBags d - 1) * pStride d + sliceLen d dim
            let ctxOk := folds.all (fun f => (physCtx r f (fld d 0 1)).isSome)
            let dst := sAddr v (pDest d) span true
            if !progOk (sentDesc s r d 0 0 (pDest d) c) dim ∨ !ctxOk then mExc s c o stBadField
            else match dst, winAddr v bw bo n false with
              | some a, some b =>
                let body := scrRead (core s c) b n
                let s := if dsp.hard || body.hard then markPoison s v.req else s
                putQ s c (.program v.req
                  (folds.map (fun f => (f, sentDesc s r d f ((physCtx r f (fld d 0 1)).getD 0) a c)))
                  (wordsOf (n / 4) body.data) ctr)
              | _, _ => mExc s c o stRegionDenied))

/-- GREL: queues a tile release or a dependence release (R172). -/
def execGrel (c : Core2) (fmask : Byte) (dep : Bool) (xt : BitVec 5) (s : State) : Out :=
  .next (withQ s c (fun s _ v => putQ s c (.rel v.req fmask dep (BitVec.ofNat 32 (xreg v xt.toNat)))))

/-- OUTPUT: queues a range for the FE (R174). -/
def execOutput (c : Core2) (sa : Scr) (ctr : BitVec 5) (lines : BitVec 12) (seg : BitVec 4) (s : State) : Out :=
  .next (withQ s c (fun s o v =>
    match winAddr v sa.win.toNat (extOff v sa) (128 * (lines.toNat + 1)) false with
    | some a => putQ s c (.out v.req a (lines.toNat + 1) seg.toNat ctr)
    | none => mExc s c o stRegionDenied))

/-! ## DCOLL (R173, R380 to R382) -/

/-- KIND of a collective descriptor. -/
def gKind (d : Bytes) : Nat := fld d 0 1
/-- BYTES of a collective descriptor; a BARRIER has none. -/
def gBytes (d : Bytes) : Nat := if gKind d = 4 then 0 else fld d 12 4

/-- A collective descriptor keeps R380. -/
def collOk (s : State) (d : Bytes) : Bool :=
  let k := gKind d
  fld d 1 1 == 0 && fld d 23 1 == 0 && allZero (d.drop 32) &&
    (k == 4 || (64 ≤ gBytes d && gBytes d ≤ 16 * 2 ^ 20 && gBytes d % 64 == 0)) &&
    (k ≠ 1 || (gBytes d ≤ fld d 16 4 && fld d 16 4 % 64 == 0)) &&
    ((k ≠ 2 && k ≠ 3) || (fld d 20 2 < grpN s && fld d 22 1 < 64)) &&
    ((k ≠ 1 && k ≠ 2) || bits (fld d 4 4) 28 26 == 0) && ((k ≠ 1 && k ≠ 3) || bits (fld d 8 4) 28 26 == 0)

/-- A launch that has issued a DCOLL runs under MODE 0: it is not replayed, nor ended for a replay (R409, R412). -/
def neverReplayed (s : State) (h : Half) : State :=
  match req s h with
  | none => s
  | some r =>
    let adopt := r.reported && r.replay == 0 && r.rmode == 1 && r.endSt.isNone && (cslot (core s r.core) r.slot).endExc == 0
    let s := updReq s h (fun r => { r with usedDcoll := true, rmode := if r.replay = 0 then 0 else r.rmode })
    if adopt then updCore s r.core (fun x => cupdSlot x r.slot (fun v => { v with mustEnd := false })) else s

/-- DCOLL of a kind: its descriptor is read and checked, and the collective is queued. A descriptor of
another defined kind belongs to that kind's row. -/
def dcoll (c : Nat) (kind : Nat) (sa : Scr) (ctr : BitVec 5) (s : State) : State :=
  let mine (v : Slot) : Bool :=
    match winAddr v sa.win.toNat (extOff v sa) 64 false with
    | some a => let k := gKind (scrRead (core s c) a 64).data
                k == kind || (kind == 1 && (k == 0 || 4 < k))
    | none => true
  match openSlots s c with
  | none => s
  | some (_, v) =>
    if !mine v then s
    else withQ s c (fun s o v =>
      match req s v.req, winAddr v sa.win.toNat (extOff v sa) 64 false with
      | none, _ => s
      | _, none => mExc s c o stRegionDenied
      | some r, some a =>
        let d := (scrRead (core s c) a 64).data
        let k := gKind d
        let n := gBytes d
        let tag := s.dl.nextTag
        if sa.win ≠ 0 ∨ k = 0 ∨ 4 < k ∨ !collOk s d then illegalBundle s c o.slot o.pc.toNat
        else
          let area := if k = 1 then (grpN s - 1) * fld d 16 4 + n else n
          let src := if k = 1 ∨ k = 2 then sAddr v (fld d 4 4) n false else some 0
          let dst := if k = 1 ∨ k = 3 then sAddr v (fld d 8 4) area true else some 0
          match src, dst with
          | some sr, some ds =>
            let early := s.dl.clears.filter (fun (_, ky, ix) => ky == BitVec.ofNat 32 (fld r.scalars 60 4) && ix.toNat == fld d 2 2)
            let cl : Coll :=
              { req := v.req, core := c, slot := o.slot, kind := BitVec.ofNat 8 k
                key := BitVec.ofNat 32 (fld r.scalars 60 4), index := BitVec.ofNat 16 (fld d 2 2), ctr := ctr
                src := if k = 3 then fld d 22 1 else sr, dst := if k = 2 then fld d 22 1 else ds, bytes := n
                stride := if k = 1 then fld d 16 4 else fld d 20 2, off := fld d 24 8
                cleared := early.map (fun (m, _, _) => m), tag := tag }
            let s := { s with dl := { s.dl with
              colls := s.dl.colls ++ [cl], nextTag := tag + 1
              clears := s.dl.clears.filter (fun (_, ky, ix) => !(ky == cl.key && ix == cl.index)) } }
            putQ (neverReplayed s v.req) c (.coll v.req cl.index)
          | _, _ => mExc s c o stRegionDenied)

/-- DCOLL of kind ALLGATHER (R381). -/
def execAllgather (c : Core2) (sa : Scr) (ctr : BitVec 5) (s : State) : Out := .next (dcoll c 1 sa ctr s)

/-- DCOLL of kind PUT (R382). -/
def execDcollPut (c : Core2) (sa : Scr) (ctr : BitVec 5) (s : State) : Out := .next (dcoll c 2 sa ctr s)

/-- DCOLL of kind GET (R382). -/
def execDcollGet (c : Core2) (sa : Scr) (ctr : BitVec 5) (s : State) : Out := .next (dcoll c 3 sa ctr s)

/-- DCOLL of kind BARRIER (R381). -/
def execBarrier (c : Core2) (sa : Scr) (ctr : BitVec 5) (s : State) : Out := .next (dcoll c 4 sa ctr s)

end Sys2Proof.Machine
end

