-- ==== Sys2Proof/Machine/Code.lean ====
section
/-! DEFINITION. Graph images: their fields, and what their code and descriptors must keep on every path (R166, R192,
R200, R219, R220, R380). The walk carries what the code fixes: register values from constants, the places that they give,
and what has still to move through the external port. Where a register's value comes from the launch, the checks that
depend on it stay open, and their finding is the operand of GRAPH_CHECK_DONE (log entry 13). -/

namespace Sys2Proof.Machine

/-! ## Images (R219, R220) -/

/-- GID. -/
def gGid (d : Bytes) : Nat := fld d 0 2 % 1024
/-- PACE. -/
def gPace (d : Bytes) : Nat := fld d 2 1
/-- OUTKIND: pooled feature vectors. -/
def gVectors (d : Bytes) : Bool := bit (fld d 3 1) 0
/-- The version may run on core `c`. -/
def gCore (d : Bytes) (c : Nat) : Bool := bit (fld d 3 1) (1 + c)
/-- CODE_BUNDLES. -/
def gCode (d : Bytes) : Nat := fld d 4 4
/-- CONST_BYTES. -/
def gConst (d : Bytes) : Nat := fld d 8 4
/-- BUF_BYTES. -/
def gBuf (d : Bytes) : Nat := fld d 12 4
/-- NTABLES. -/
def gNtab (d : Bytes) : Nat := fld d 16 1
/-- NSEG. -/
def gNseg (d : Bytes) : Nat := fld d 17 1
/-- NOSEG. -/
def gNoseg (d : Bytes) : Nat := fld d 18 1
/-- CTX_COUNT. -/
def gCtxN (d : Bytes) : Nat := fld d 20 2 % 512

/-- Entry of window `w`, 2 to 7. -/
def gWin (d : Bytes) (w : Nat) : Bytes := slice d (32 + 16 * (w - 2)) 16
/-- KIND of a window entry. -/
def wKind (e : Bytes) : Nat := fld e 0 1
/-- WRITABLE of a window entry. -/
def wWr (e : Bytes) : Bool := bit (fld e 1 1) 0
/-- SGID of a window entry. -/
def wSgid (e : Bytes) : Nat := fld e 2 2 % 1024
/-- OFFSET of a window entry. -/
def wOff (e : Bytes) : Nat := fld e 4 4
/-- SIZE of a window entry. -/
def wSize (e : Bytes) : Nat := fld e 8 4

/-- Entry `k` of the table list. -/
def gTab (d : Bytes) (k : Nat) : Nat := fld d (128 + 4 * k) 4
/-- The TIDs of the table list. -/
def gTids (d : Bytes) : List Nat := (List.range (gNtab d)).map (fun k => gTab d k % 4096)
/-- OFFSET of input segment `k`. -/
def gSegOff (d : Bytes) (k : Nat) : Nat := fld d (384 + 8 * k) 4
/-- MAXLEN of input segment `k`. -/
def gSegMax (d : Bytes) (k : Nat) : Nat := fld d (388 + 8 * k) 4
/-- Windows of KIND 2, in window order. -/
def gShared (d : Bytes) : List Bytes := ((List.range 6).map (fun i => gWin d (i + 2))).filter (fun e => wKind e == 2)

/-- Length of the image a header describes. -/
def gLen (d : Bytes) : Nat := 1024 + 32 * gCode d + gConst d

/-! ## Bundles and descriptors of an image -/

/-- Bundle `i` of an image. -/
def bundleOf (d : Bytes) (i : Nat) : Option Bundle :=
  if i < gCode d then decodeBundle 0 1 (fld d (1024 + 32 * i) 32) else none

/-- A scratch address keeps its reserved bits 0 (R188). -/
def scrAddrOk (a : Nat) : Bool := bits a 28 26 == 0

/-- An operand reference keeps R188 and R139: reserved fields, KIND, FMT and GROUP. -/
def refOk (b : Bytes) : Bool :=
  let r := opRef b
  let l := fld b 15 1
  fld b 14 1 < 8 && match r.kind with
  | 0 => r.saddr == 0 && l == 0
  | 1 => r.addr < 4 && r.saddr == 0 && r.rowlen == 0 && l == 0
  | 4 => scrAddrOk r.addr && scrAddrOk r.saddr && r.rowlen % 256 == 0 && l < 32 &&
      (if r.fmt = 4 then r.group == 3 else r.fmt < 4 && r.group < 3)
  | 7 => r.addr < 8 && r.saddr == 0 && l == 0
  | _ => scrAddrOk r.addr && (r.panel || r.saddr == 0) && l < 16

/-- A matrix operand's columns: COL0 a multiple of 256, and the range inside ROWLEN unless the operand is panelled
(R191, R192). Where both operands are panelled, nothing bounds KB above (DESIGN CHOICE: R191 gives ROWLEN / 256, R192
leaves panelled operands out; log entry 170). -/
def maColsOk (r : OpRef) (kb : Nat) : Bool :=
  r.col0 % 256 == 0 && ((r.kind != 4 && r.panel) || r.col0 + 256 * kb ≤ r.rowlen)

/-- A matrix descriptor keeps R192. -/
def maDescOk (b : Bytes) : Bool :=
  let w := opRef (b.take 16)
  let x := opRef (slice b 16 16)
  let n := fld b 32 2
  let m := fld b 34 1
  let kb := fld b 36 2
  refOk (b.take 16) && refOk (slice b 16 16) && maComb w x && fld b 35 1 == 0 && allZero (b.drop 38) &&
    1 ≤ n && n ≤ 256 && 1 ≤ m && m ≤ 32 && 1 ≤ kb && maColsOk w kb && maColsOk x kb

/-- A vector descriptor, with the function of its instruction, keeps R192, R210 and R212. An AREF or DREF of KIND 0 is
accepted: A then reads +0 and D writes nothing (DESIGN CHOICE: R208 gives KIND 0 a meaning for BREF only; log entry
171). -/
def veDescOk (b : Bytes) (j : VeJob) : Bool :=
  let q (r : OpRef) : Bool := r.kind != 4 || r.col0 % 256 == 0
  let out (r : OpRef) : Bool := match r.kind with
    | 0 => true | 1 => true | 7 => true
    | 4 => refWin r.addr != 0 && refWin r.saddr != 0
    | _ => refWin r.addr != 0
  refOk (b.take 16) && refOk (slice b 16 16) && refOk (slice b 32 16) &&
    fld b 52 1 < 3 && allZero (slice b 53 3) && scrAddrOk (fld b 56 4) && allZero (slice b 60 4) &&
    1 ≤ j.rows && j.rows ≤ 4096 && 1 ≤ j.cols && j.cols ≤ 8704 && j.rows * j.cols ≤ 1048576 &&
    q j.a && q j.b && q j.d && out j.d && veFnOk j

/-- The fields of a collective descriptor that R380 fixes, apart from the size of the group. -/
def collFieldsOk (b : Bytes) : Bool :=
  let k := gKind b
  let n := fld b 12 4
  1 ≤ k && k ≤ 4 && fld b 1 1 == 0 && fld b 23 1 == 0 && allZero (b.drop 32) &&
    (k == 4 || (64 ≤ n && n ≤ 16 * 2 ^ 20 && n % 64 == 0)) &&
    (k != 1 || (n ≤ fld b 16 4 && fld b 16 4 % 64 == 0)) &&
    ((k != 2 && k != 3) || fld b 22 1 < 64) &&
    ((k != 1 && k != 2) || scrAddrOk (fld b 4 4)) &&
    ((k != 1 && k != 3) || (scrAddrOk (fld b 8 4) && refWin (fld b 8 4) != 0))

/-! ## A place on a path -/

/-- A range that an instruction moves through the external port: the data of an input segment, of a slice or of a
collective that lands, or a body, an output or a block that is read. -/
structure Ext where
  /-- Offset and length in the buffer region; none where the code does not fix them. -/
  at_ : Option (Nat × Nat)
  ctr : Nat
  /-- How many instructions had named the counter, this one among them. -/
  idx : Nat
  wr : Bool
  /-- A WAIT may have reported it. -/
  maybe : Bool := false
  deriving DecidableEq, Repr

/-- A range of the buffer region that the core port reads or writes, and the cycles until its last access. -/
structure Port where
  off : Nat
  len : Nat
  wr : Bool
  till : Nat
  deriving DecidableEq, Repr

/-- A place on a path: the bundle, the loops around it (first bundle, last, iterations left where the code fixes them),
and in cycles from now: the last preemption point, the engines' next issue, when each set is visible and when it has been
read, when every MA and VE instruction has written, and the register writes, bank uses and accesses to come. -/
structure Walk where
  pc : Nat
  loops : List (Nat × Nat × Option Nat) := []
  /-- Cycles since the last preemption point. -/
  gap : Nat := 0
  ma : Nat := 0
  ve : Nat := 0
  vis : List Nat := [0, 0, 0, 0]
  rdv : List Nat := [0, 0, 0, 0]
  mav : Nat := 0
  /-- A GISSUE has issued. -/
  gis : Bool := false
  /-- Where the body of the last GISSUE ends, window and offset. -/
  chain : Option (Nat × Nat) := none
  /-- The value of each register that the code fixes. -/
  vals : List (Option Word) := []
  regs : List (Nat × Nat × Option Word) := []
  banks : List (Nat × Nat) := []
  /-- Instructions so far that named each counter. -/
  sent : List Nat := []
  exts : List Ext := []
  ports : List Port := []
  /-- A branch or a loop count was not fixed by the code. -/
  split : Bool := false
  /-- The path has gone back after such a branch: registers and ranges are no longer followed. -/
  vague : Bool := false
  deriving DecidableEq, Repr

/-- A register's value, where the code fixes it. -/
def known (w : Walk) (r : BitVec 5) : Option Nat :=
  if r = 0 then some 0 else ((w.vals[r.toNat]?).getD none).map (·.toNat)

/-- Every register of the list has a value that the code fixes. -/
def allKnown (w : Walk) (l : List (BitVec 5)) : Bool := l.all (fun r => (known w r).isSome)

/-- Window and offset of a scratch operand at the core port (R162). -/
def coreAt (w : Walk) (p : Scr) : Option (Nat × Nat) :=
  (known w p.xa).map (fun x => (p.win.toNat, bits x 25 13 * 8192 + p.off.toNat))

/-- Window and offset of a scratch operand at the external port (R162). -/
def extAt (w : Walk) (p : Scr) : Option (Nat × Nat) :=
  (known w p.xa).map (fun x => (p.win.toNat, x % 2 ^ 26 + p.off.toNat))

/-- `n` bytes of an image's constants, the contents of window 0 (R219). -/
def constAt (d : Bytes) (off n : Nat) : Option Bytes :=
  if off + n ≤ gConst d then some (slice d (1024 + 32 * gCode d + off) n) else none

/-- The 64 B descriptor at a place of window 0; none elsewhere. -/
def descAt (d : Bytes) (p : Option (Nat × Nat)) : Option Bytes :=
  match p with
  | some (0, off) => constAt d off 64
  | _ => none

/-- The MMA of a slot A, where its descriptor is fixed; a Δ register that is not stands at 0. -/
def maOf (d : Bytes) (w : Walk) (i : Instr) : Option MaJob :=
  match i with
  | .mma _ sd xw xx set zero => (descAt d (coreAt w sd)).map (fun b =>
      maJob 0 { pace := gPace d } 0 0 set.toNat zero ((known w xw).getD 0) ((known w xx).getD 0) { data := b })
  | _ => none

/-- The descriptor operand and the Δ register of a vector instruction. -/
def veSd (i : Instr) : Option (Scr × BitVec 5) :=
  match i with
  | .vew _ sd xo .. => some (sd, xo)
  | .vscan _ sd xo .. => some (sd, xo)
  | .vred _ sd xo .. => some (sd, xo)
  | _ => none

/-- The vector instruction of a slot V, with its descriptor, where that is fixed. -/
def veOf (d : Bytes) (w : Walk) (i : Instr) : Option (Bytes × VeJob) :=
  let f (op : Nat) (sd : Scr) (xo : BitVec 5) (fn act : BitVec 4) (rule : Bool) (imm : Half) : Option (Bytes × VeJob) :=
    (descAt d (coreAt w sd)).map (fun b =>
      (b, veJob 0 {} 0 op fn.toNat act.toNat rule imm.toNat ((known w xo).getD 0) { data := b }))
  match i with
  | .vew _ sd xo fn act rule imm => f 1 sd xo fn act rule imm
  | .vscan _ sd xo fn act rule imm => f 2 sd xo fn act rule imm
  | .vred _ sd xo fn act rule imm => f 3 sd xo fn act rule imm
  | _ => none

/-- A descriptor operand does not name window 0, or names a place beyond it (R192). -/
def sdOut (d : Bytes) (sd : Scr) (at_ : Option (Nat × Nat)) : Bool :=
  sd.win != 0 || (match at_ with | some p => (descAt d (some p)).isNone | none => false)

/-- The descriptors of a bundle keep R192 and R380, as far as their places are fixed. A DCOLL of any kind decodes as
ALLGATHER here: its descriptor gives the kind. -/
def descsOk (d : Bytes) (w : Walk) (b : Bundle) : Bool :=
  (match b.a with
    | .mma _ sd .. => !sdOut d sd (coreAt w sd) && ((descAt d (coreAt w sd)).map maDescOk).getD true
    | _ => true) &&
  (match veSd b.v with
    | some (sd, _) => !sdOut d sd (coreAt w sd) && ((veOf d w b.v).map (fun (x, j) => veDescOk x j)).getD true
    | none => true) &&
  (match b.m with
    | .allgather _ sa _ => !sdOut d sa (extAt w sa) && ((descAt d (extAt w sa)).map collFieldsOk).getD true
    | _ => true)

/-! ## What a bundle does in later cycles -/

/-- A parameter word whose value the image fixes: the input map's offsets and the zeros after them (R160, R232). -/
def parKnown (d : Bytes) (i : Nat) : Option Word :=
  if 96 ≤ i ∧ i < 112 then some (BitVec.ofNat 32 (if i - 96 < gNseg d then gSegOff d (i - 96) else 0))
  else if 112 ≤ i ∧ i < 256 then some 0 else none

/-- Scalar registers that a bundle writes, with their latencies and the values that the code fixes (R159, R167, R170). -/
def regWrites (d : Bytes) (w : Walk) (b : Bundle) : List (Nat × Nat × Option Word) :=
  let kv (r : BitVec 5) : Option Word := (known w r).map (BitVec.ofNat 32)
  let c : List (Nat × Nat × Option Word) := match b.c with
    | .addi _ _ xd xa imm => [(xd.toNat, 1, (kv xa).map (· + imm.signExtend 32))]
    | .lui _ _ xd imm => [(xd.toNat, 1, some (BitVec.ofNat 32 (imm.toNat * 65536)))]
    | .alu _ _ xd xa xb fn => [(xd.toNat, if fn = 8 then 3 else 1,
        match kv xa, kv xb with | some x, some y => aluFn fn x y | _, _ => none)]
    | .ldx _ _ xd xa imm => [(xd.toNat, 4,
        (kv xa).bind (fun x => parKnown d ((x + imm.signExtend 32).toNat % 4096 / 4)))]
    | _ => []
  let m : List (Nat × Nat × Option Word) := match b.m with
    | .ldw _ sa xd => [(xd.toNat, 8, match coreAt w sa with
        | some (0, off) => (constAt d (off / 4 * 4) 4).map (fun x => BitVec.ofNat 32 (leNat x))
        | _ => none)]
    | _ => []
  (c ++ m).filter (fun (r, _) => r ≠ 0)

/-- Bank of a window offset: window bases are multiples of 8 KiB (R161, R163). -/
def scrBank (off : Nat) : Nat := off / 128 % 64

/-- Bank uses of slot M, cycle after issue and bank; a core-port operand names the same banks whatever its register
holds (R162, R170). -/
def mBanks (i : Instr) : List (Nat × Nat) :=
  let run (t n : Nat) (p : Scr) : List (Nat × Nat) :=
    (List.range n).map (fun i => (t + i, scrBank (p.off.toNat + 128 * i)))
  match i with
  | .copy _ sa sb l => run 2 (l.toNat + 1) sa ++ run 6 (l.toNat + 1) sb
  | .fill _ sb l => run 2 (l.toNat + 1) sb
  | .ldw _ sa _ => run 2 1 sa
  | .stw _ sb _ => run 2 1 sb
  | _ => []

/-- Window offset of line `l` of the fetch list of pair `p` (R189, R199). -/
def maLineOff (j : MaJob) (p l : Nat) : Nat :=
  let lw := maLines j.w
  let lx := maLines j.x
  let a := j.nout * lw
  let b := a + j.nout * maScales j.w
  let c := b + j.m * lx
  let data (r : OpRef) (dl row k : Nat) : Nat :=
    let C := r.col0 + 256 * p
    if r.kind = 4 then refOff r.addr + blockIdx r (opRow r dl row) C * blockBytes r + 128 * k
    else plainOff r (opRow r dl row) (C + k * (128 / elemSize r))
  let scale (r : OpRef) (dl row : Nat) : Nat :=
    refOff r.saddr + 16 * blockIdx r (opRow r dl row) (r.col0 + 256 * p)
  if l < a then data j.w j.dw (l / lw) (l % lw)
  else if l < b then scale j.w j.dw (l - a)
  else if l < c then data j.x j.dx ((l - b) / lx) ((l - b) % lx)
  else scale j.x j.dx (l - c)

/-- Bank uses of an MMA (R199). -/
def maBanks (j : MaJob) : List (Nat × Nat) :=
  (List.range j.kb).flatMap (fun p =>
    (List.range (maN j)).map (fun l => (2 + p * j.period + l / 16, scrBank (maLineOff j p l))))

/-- Bytes of an operand that hold element (r, c), as window, offset and length: none for a set or a register (R189). -/
def elemAt (o : OpRef) (dx r c : Nat) : List (Nat × Nat × Nat) :=
  let R := opRow o dx r
  let C := o.col0 + c
  match o.kind with
  | 0 => [] | 1 => [] | 7 => []
  | 4 =>
    let b := blockIdx o R C
    let i := C % 256
    [(refWin o.addr, refOff o.addr + b * blockBytes o + (if o.fmt = 0 then i / 2 else i), 1),
     (refWin o.saddr, refOff o.saddr + 16 * b, 16)]
  | _ => [(refWin o.addr, plainOff o R C, elemSize o)]

/-- The B element that BCAST selects (R208). -/
def bAt (j : VeJob) (r c : Nat) : List (Nat × Nat × Nat) :=
  elemAt j.b j.dx (if j.bcast = 1 then 0 else r) (if j.bcast = 2 then 0 else c)

/-- Bank uses of a vector instruction: every line of A and B that a slab uses as it is read, and the lines of D as they
are written, a quantised block with the slab that holds its last element (R214). -/
def veBanks (j : VeJob) : List (Nat × Nat) :=
  (List.range (veSlabs j)).flatMap (fun k =>
    let n := min 512 (j.rows * j.cols - 512 * k)
    let es := (List.range n).map (fun i => ((512 * k + i) / j.cols, (512 * k + i) % j.cols))
    let line (x : Nat × Nat × Nat) : Nat × Nat := (x.1, x.2.1 / 128)
    let rd := (es.flatMap (fun (r, c) => elemAt j.a j.dx r c ++ bAt j r c)).map line
    let wr := (es.flatMap (fun (r, c) =>
      if j.op = 3 then (if c + 1 = j.cols then elemAt j.d j.dx r 0 else [])
      else if j.d.kind = 4 then
        (if c % 256 = 255 then (List.range 256).flatMap (fun i => elemAt j.d j.dx r (c - 255 + i)) else [])
      else elemAt j.d j.dx r c)).map line
    (rd.eraseDups.map (fun (_, l) => (2 + k * j.q, l % 64))) ++
      (wr.eraseDups.map (fun (_, l) => (2 + k * j.q + (if j.d.kind = 4 then 40 else 24), l % 64))))

/-- Bank uses of a bundle, where the code fixes them. -/
def banksOf (d : Bytes) (w : Walk) (b : Bundle) : List (Nat × Nat) :=
  mBanks b.m ++
    (match b.a with
      | .mma _ _ xw xx _ _ => if allKnown w [xw, xx] then ((maOf d w b.a).map maBanks).getD [] else []
      | _ => []) ++
    (match veSd b.v with
      | some (_, xo) => if allKnown w [xo] then ((veOf d w b.v).map (fun (_, j) => veBanks j)).getD [] else []
      | none => [])

/-! ## Ranges of the buffer region (R166) -/

/-- A range of a window that shows the buffer region, as offset and length in it; none for the other windows (R163). -/
def bufAt (d : Bytes) (win off n : Nat) : Option (Nat × Nat) :=
  if win = 1 then some (off, n)
  else if 2 ≤ win ∧ wKind (gWin d win) = 1 then some (wOff (gWin d win) + off, n) else none

/-- Ranges that an MMA reads. -/
def maRanges (j : MaJob) : List (Nat × Nat × Nat) :=
  let rows (r : OpRef) (dl n : Nat) : List (Nat × Nat × Nat) :=
    (List.range n).flatMap (fun row => (List.range j.kb).flatMap (fun p =>
      let R := opRow r dl row
      let C := r.col0 + 256 * p
      if r.kind = 4 then
        [(refWin r.addr, refOff r.addr + blockIdx r R C * blockBytes r, blockBytes r),
         (refWin r.saddr, refOff r.saddr + 16 * blockIdx r R C, 16)]
      else (List.range 8).map (fun k => (refWin r.addr, plainOff r R (C + 32 * k), 32 * elemSize r))))
  rows j.w j.dw j.nout ++ rows j.x j.dx j.m

/-- Elements of a vector instruction. -/
def veCells (j : VeJob) : List (Nat × Nat) :=
  (List.range j.rows).flatMap (fun r => (List.range j.cols).map (fun c => (r, c)))

/-- Ranges that a vector instruction reads. -/
def veReadsAt (j : VeJob) : List (Nat × Nat × Nat) :=
  (veCells j).flatMap (fun (r, c) => elemAt j.a j.dx r c ++ bAt j r c)

/-- Ranges that a vector instruction writes: its destination and its statistics record (R151, R209). -/
def veWritesAt (j : VeJob) : List (Nat × Nat × Nat) :=
  (if j.op = 3 then (List.range j.rows).flatMap (fun r => elemAt j.d j.dx r 0)
   else (veCells j).flatMap (fun (r, c) => elemAt j.d j.dx r c)) ++
    (if j.d.kind = 4 ∧ j.stat ≠ 0 then [(refWin j.stat, refOff j.stat / 32 * 32, 32)] else [])

/-- Accesses of a bundle to the buffer region at the core port, where the code fixes them. -/
def portsOf (d : Bytes) (w : Walk) (b : Bundle) : List Port :=
  let rg (wr : Bool) (till : Nat) (l : List (Nat × Nat × Nat)) : List Port :=
    l.filterMap (fun (win, off, n) => (bufAt d win off n).map (fun (o, n) => { off := o, len := n, wr := wr, till := till }))
  let at_ (p : Scr) (al n : Nat) : List (Nat × Nat × Nat) :=
    (coreAt w p).toList.map (fun (win, off) => (win, off / al * al, n))
  let m := match b.m with
    | .copy _ sa sb l => rg false (2 + l.toNat) (at_ sa 128 (128 * (l.toNat + 1))) ++
        rg true (6 + l.toNat) (at_ sb 128 (128 * (l.toNat + 1)))
    | .fill _ sb l => rg true (2 + l.toNat) (at_ sb 128 (128 * (l.toNat + 1)))
    | .ldw _ sa _ => rg false 2 (at_ sa 4 4)
    | .stw _ sb _ => rg true 2 (at_ sb 4 4)
    | _ => []
  let a := match b.a with
    | .mma _ _ xw xx _ _ => if allKnown w [xw, xx] then
        ((maOf d w b.a).map (fun j => rg false (2 + j.occ) (maRanges j))).getD [] else []
    | _ => []
  let v := match veSd b.v with
    | some (_, xo) => if allKnown w [xo] then
        ((veOf d w b.v).map (fun (_, j) => rg false (2 + veOcc j) (veReadsAt j) ++
          rg true (veOcc j + 42) (veWritesAt j))).getD [] else []
    | none => []
  m ++ a ++ v

/-- The counter that an instruction of slot M names. -/
def ctrNamed (b : Bundle) : Option Nat :=
  match b.m with
  | .gissue _ _ _ ctr _ _ => some ctr.toNat
  | .output _ _ ctr _ _ => some ctr.toNat
  | .allgather _ _ ctr => some ctr.toNat
  | _ => none

/-- Window and offset of a 32-bit scratch address of R171. -/
def sAt (a : Nat) : Nat × Nat := (a / 2 ^ 29, a % 2 ^ 26)

/-- Where the body of a GISSUE starts (R171 step 2). -/
def bodyFrom (w : Walk) (sb : Scr) (chain : Bool) : Option (Nat × Nat) := if chain then w.chain else extAt w sb

/-- Length of the body of a GISSUE; with NFB its index count comes from the body. -/
def bodySize (d : Bytes) (w : Walk) (sa : Scr) (nfb : Bool) : Option Nat :=
  if nfb then none else (descAt d (extAt w sa)).map (fun p => 4 * bodyLen p)

/-- Where the slices of a program land: BAGS slices at STRIDE, of the table that the image lists (R96, R171). -/
def slicesAt (d p : Bytes) : Option (Nat × Nat × Nat) :=
  (((List.range (gNtab d)).map (gTab d)).find? (fun e => e % 4096 == pTid p)).map (fun e =>
    ((sAt (pDest p)).1, (sAt (pDest p)).2, (pBags p - 1) * pStride p + sliceLen p (bits e 25 16)))

/-- Ranges that a bundle sets moving through the external port. The landing area of an ALLGATHER depends on the size of
the group. -/
def extsOf (d : Bytes) (w : Walk) (b : Bundle) : List Ext :=
  let c := (ctrNamed b).getD 0
  let ext (wr : Bool) (r : Option (Nat × Nat × Nat)) : List Ext :=
    match r with
    | none => [{ at_ := none, ctr := c, idx := w.sent.getD c 0 + 1, wr := wr }]
    | some (win, off, n) =>
      (bufAt d win off n).toList.map (fun x => { at_ := some x, ctr := c, idx := w.sent.getD c 0 + 1, wr := wr })
  match b.m with
  | .gissue _ sa sb _ nfb chain =>
    ext true ((descAt d (extAt w sa)).bind (slicesAt d)) ++
      ext false (match bodyFrom w sb chain, bodySize d w sa nfb with
        | some (win, off), some n => some (win, off, n)
        | some (0, off), none => some (0, off, 0)
        | _, _ => none)
  | .output _ sa _ l _ => ext false ((extAt w sa).map (fun (win, off) => (win, off, 128 * (l.toNat + 1))))
  | .allgather _ sa _ =>
    match descAt d (extAt w sa) with
    | none => ext true none ++ ext false none
    | some p =>
      let from_ := ((sAt (fld p 4 4)).1, (sAt (fld p 4 4)).2, gBytes p)
      let to_ := ((sAt (fld p 8 4)).1, (sAt (fld p 8 4)).2, gBytes p)
      if gKind p = 1 then ext true none ++ ext false (some from_)
      else if gKind p = 2 then ext false (some from_)
      else if gKind p = 3 then ext true (some to_)
      else []
  | _ => []

/-- A core-port access against a range of the external port: a read of bytes that may still land, or a write of bytes
that may still be read; whether that is certain. -/
def clash (e : Ext) (p : Port) : Option (Nat × Bool) :=
  if e.wr = p.wr then none
  else match e.at_ with
    | none => some (if e.wr then 3 else 4, false)
    | some (o, n) => if o < p.off + p.len ∧ p.off < o + n then some (if e.wr then 3 else 4, !e.maybe) else none

/-- The clashes of a bundle, and whether each is certain: its accesses with what moves already and with what it sets
moving, and the accesses under way with the latter (R166). -/
def clashes (d : Bytes) (w : Walk) (b : Bundle) : List (Nat × Bool) :=
  let ps := portsOf d w b
  let es := extsOf d w b
  ps.flatMap (fun p => (w.exts ++ es).filterMap (fun e => clash e p)) ++
    w.ports.flatMap (fun p => es.filterMap (fun e => clash e p))

/-- The bundle's WAIT satisfied: counter 0 reports the input segments in their order; of the instructions that name
another counter, a target reports all once it is as high as their number, and may report those below it. -/
def waited (w : Walk) (b : Bundle) : Walk :=
  match b.c with
  | .wait _ _ ctr xa tgt =>
    let c := ctr.toNat
    let t := if xa = 0 then some tgt.toNat else known w xa
    { w with exts := w.exts.filterMap (fun e =>
        if e.ctr ≠ c then some e
        else match t with
          | none => some { e with maybe := true }
          | some t =>
            if (ctrReached (BitVec.ofNat 16 t) (BitVec.ofNat 16 (if c = 0 then e.idx else w.sent.getD c 0))) then none
            else if ctrReached (BitVec.ofNat 16 t) (BitVec.ofNat 16 e.idx) then some { e with maybe := true }
            else some e) }
  | _ => w

/-! ## The engines' spacing (R198, R200, R214) -/

/-- OCC of a slot A, the cycle from which its set is visible, and the set. -/
def maTimes (d : Bytes) (w : Walk) (i : Instr) : Option (Nat × Nat × Nat) :=
  match i with
  | .mma _ _ _ _ set _ => some (match maOf d w i with
      | some j => (j.occ, j.occ + 16, set.toNat)
      | none => (0, 0, set.toNat))
  | .aclr _ set => some (8, 10, set.toNat)
  | _ => none

/-- Sets that a vector instruction reads. -/
def veReads (j : VeJob) : List Nat :=
  (if j.a.kind = 1 then [j.a.addr % 4] else []) ++ (if j.b.kind = 1 then [j.b.addr % 4] else [])

/-- Sets that a vector instruction writes. -/
def veWrites (j : VeJob) : List Nat := if j.d.kind = 1 then [j.d.addr % 4] else []

/-! ## Paths -/

/-- Bundles that may follow one that takes no branch. -/
def walkNext : List (Nat × Nat × Option Nat) → Nat → List (Nat × List (Nat × Nat × Option Nat))
  | [], pc => [(pc + 1, [])]
  | (a, b, n) :: r, pc =>
    if pc = b then
      match n with
      | some k => if 1 < k then [(a, (a, b, some (k - 1)) :: r)] else walkNext r pc
      | none => (a, (a, b, none) :: r) :: walkNext r pc
    else [(pc + 1, (a, b, n) :: r)]

/-- A branch, leaving the loops whose body does not hold its target; none where that lies outside the code. -/
def walkBranch (n : Nat) (w : Walk) (off : BitVec 18) : Option (Nat × List (Nat × Nat × Option Nat)) :=
  let t := (w.pc : Int) + off.toInt
  if t < 0 ∨ (n : Int) ≤ t then none
  else some (t.toNat, w.loops.dropWhile (fun (a, b, _) => t.toNat < a || b < t.toNat))

/-- A bundle is a preemption point on every path: PP, or a WAIT (R181). -/
def isPp (b : Bundle) : Bool := b.hdr.pp || (match b.c with | .wait .. => true | _ => false)

/-- A body that a register counts holds a preemption point (R166). -/
def bodyHasPp (d : Bytes) (first last : Nat) : Bool :=
  (List.range (last + 1 - first)).any (fun i =>
    match bundleOf d (first + i) with | some b => isPp b | none => false)

/-- Where a bundle leads: whether the branch is taken, the next place, and whether the code left the choice open; or the
check of R166 that its slot C fails. A branch on registers whose values the code fixes goes one way. -/
def walkTo (d : Bytes) (w : Walk) (b : Bundle) :
    Except Nat (Bool × List (Bool × Nat × List (Nat × Nat × Option Nat))) :=
  let n := gCode d
  let seq := (walkNext w.loops w.pc).map (fun x => (false, x))
  let open_ := w.loops.any (fun (_, b, k) => b == w.pc && k.isNone)
  match b.c with
  | .endLaunch .. => .ok (false, [])
  | .trap .. => .ok (false, [])
  | .br _ _ off => match walkBranch n w off with
    | some x => .ok (false, [(true, x)])
    | none => .error 8
  | .brc _ _ cond xa xb off => match walkBranch n w off with
    | some x =>
      match known w xa, known w xb with
      | some p, some q =>
        .ok (open_, if condHolds cond (BitVec.ofNat 32 p) (BitVec.ofNat 32 q) then [(true, x)] else seq)
      | _, _ => .ok (true, (true, x) :: seq)
    | none => .error 8
  | .loop _ _ xa body cnt =>
    let last := w.pc + body.toNat
    let skip := (walkNext w.loops last).map (fun x => (false, x))
    let enter (k : Option Nat) := [(false, w.pc + 1, (w.pc + 1, last, k) :: w.loops)]
    let counted (k : Nat) := if k = 0 then skip else enter (some k)
    if n ≤ last then .error 8
    else if body = 0 ∨ 4 ≤ w.loops.length ∨ w.loops.any (fun (_, b, _) => b < last) then .error 6
    else if xa ≠ 0 then
      (if bodyHasPp d (w.pc + 1) last then
        (match known w xa with
          | some k => .ok (open_, counted k)
          | none => .ok (true, enter none ++ skip))
       else .error 6)
    else .ok (open_, counted cnt.toNat)
  | _ => .ok (open_, seq)

/-- The check that a bundle fails where it stands on a path, apart from its slot C: descriptors, preemption, control of
CHAIN, registers, spacing, banks, external data and buffer reuse (R166, R192, R200). -/
def walkFail (d : Bytes) (w : Walk) (b : Bundle) : Option Nat :=
  let rw := (regWrites d w b).map (fun (r, c, _) => (r, c))
  let bk := banksOf d w b
  let chain := match b.m with | .gissue _ _ _ _ _ ch => ch && !w.gis | _ => false
  let at_ (l : List Nat) (k : Nat) : Nat := l.getD k 0
  let ma := match maTimes d w b.a with
    | some (_, _, set) => 0 < w.ma || 0 < at_ w.rdv set
    | none => false
  let ve := match veOf d w b.v with
    | some (_, j) => 0 < w.ve || (veReads j).any (fun k => 2 < at_ w.vis k) || (veWrites j).any (fun k => 0 < at_ w.rdv k)
    | none => false
  if !descsOk d w b then some 10
  else if 3840 < w.gap then some 7
  else if chain then some 8
  else if !(rw.Nodup) || rw.any (fun x => w.regs.any (fun (r, c, _) => x == (r, c))) then some 5
  else if ma || ve then some 11
  else if !(bk.Nodup) || bk.any (fun x => w.banks.contains x) then some 2
  else ((clashes d w b).find? (·.2)).map (·.1)

/-- The checks that a bundle leaves open where it stands: those that depend on a register whose value the code does not
fix, and clashes that are not certain. -/
def walkOpen (d : Bytes) (w : Walk) (b : Bundle) : List Nat :=
  let unless_ (r : BitVec 5) (l : List Nat) : List Nat := if allKnown w [r] then [] else l
  (match b.a with
    | .mma _ sd xw xx _ _ => unless_ sd.xa [2, 3, 10, 11] ++ unless_ xw [2, 3] ++ unless_ xx [2, 3]
    | _ => []) ++
  (match veSd b.v with
    | some (sd, xo) => unless_ sd.xa [2, 3, 4, 10, 11] ++ unless_ xo [2, 3, 4]
    | none => []) ++
  (match b.m with
    | .copy _ sa sb _ => unless_ sa.xa [3] ++ unless_ sb.xa [4]
    | .fill _ sb _ => unless_ sb.xa [4]
    | .ldw _ sa _ => unless_ sa.xa [3]
    | .stw _ sb _ => unless_ sb.xa [4]
    | .allgather _ sa _ => unless_ sa.xa [10]
    | _ => []) ++
  (clashes d w b).map (·.1) ++ (if w.vague then [3, 4] else [])

/-- A path `t` cycles later. -/
def pass (w : Walk) (t : Nat) : Walk :=
  let due (r : Nat) : Option (Nat × Option Word) :=
    (w.regs.filter (fun (q, c, _) => q = r && c ≤ t)).foldl (fun b (_, c, v) =>
      match b with | some (e, u) => if e ≤ c then some (c, v) else some (e, u) | none => some (c, v)) none
  { w with
    ma := w.ma - t, ve := w.ve - t, mav := w.mav - t, vis := w.vis.map (· - t), rdv := w.rdv.map (· - t)
    vals := w.vals.zipIdx.map (fun (v, r) => match due r with | some (_, u) => u | none => v)
    regs := (w.regs.filter (fun (_, c, _) => t < c)).map (fun (r, c, v) => (r, c - t, v))
    banks := (w.banks.filter (fun (c, _) => t < c)).map (fun (c, k) => (c - t, k))
    ports := (w.ports.filter (fun p => t < p.till)).map (fun p => { p with till := p.till - t }) }

/-- Registers and ranges no longer followed. -/
def blur (w : Walk) : Walk :=
  { w with vague := true, vals := [], chain := none, sent := [], exts := [], ports := []
           regs := w.regs.map (fun (r, c, _) => (r, c, none)) }

/-- A path after a bundle that costs `t` cycles. A path that goes back after a choice the code left open is blurred. -/
def walkOn (d : Bytes) (w : Walk) (b : Bundle) (t : Nat) (open_ : Bool)
    (to_ : Nat × List (Nat × Nat × Option Nat)) : Walk :=
  let ms := maTimes d w b.a
  let vs := (veOf d w b.v).map (·.2)
  let vis := w.vis.zipIdx.map (fun (x, k) =>
    let x := match ms with | some (_, v, set) => if set = k then max x v else x | none => x
    match vs with | some j => if (veWrites j).contains k then max x (veOcc j + 42) else x | none => x)
  let rdv := w.rdv.zipIdx.map (fun (x, k) =>
    match vs with | some j => if (veReads j).contains k then max x (veOcc j - j.q + 1) else x | none => x)
  let split := w.split || open_
  let w' : Walk :=
    { w with
      pc := to_.1, loops := to_.2, gap := (if isPp b then 0 else w.gap) + t
      ma := match ms with | some (o, _, _) => o | none => w.ma
      ve := match vs with | some j => veOcc j | none => w.ve
      vis := vis, rdv := rdv
      mav := max w.mav (max (match ms with | some (_, v, _) => v | none => 0)
        (match vs with | some j => veOcc j + 42 | none => 0))
      gis := w.gis || (match b.m with | .gissue .. => true | _ => false)
      chain := match b.m with
        | .gissue _ sa sb _ nfb ch => (match bodyFrom w sb ch, bodySize d w sa nfb with
            | some (win, off), some n => some (win, off + n)
            | _, _ => none)
        | _ => w.chain
      sent := w.sent.zipIdx.map (fun (n, k) => if ctrNamed b = some k then n + 1 else n)
      exts := w.exts ++ extsOf d w b, ports := w.ports ++ portsOf d w b
      regs := w.regs ++ regWrites d w b, banks := w.banks ++ banksOf d w b, split := split }
  pass (if w.vague || (split && to_.1 ≤ w.pc) then blur w' else w') t

/-- What a place on a path leads to and leaves open, or the check it fails. A WAIT is satisfied at once, and a yield
point drains the engines first (R182, R200). -/
def walkStep (d : Bytes) (w : Walk) : Except Nat (List Nat × List Walk) :=
  match bundleOf d w.pc with
  | none => .ok ([], [])
  | some b =>
    let w := waited w b
    let w := if b.hdr.yld then pass w w.mav else w
    match walkFail d w b, walkTo d w b with
    | some k, _ => .error k
    | none, .error k => .error k
    | none, .ok (open_, l) =>
      .ok (walkOpen d w b, l.map (fun (taken, to_) =>
        walkOn d w b (1 + b.hdr.idle.toNat + (if taken then 2 else 0)) open_ to_))

/-- Every place that a path reaches, each looked at once: the first check that fails, with its bundle, and the checks
left open. -/
def walkAll (d : Bytes) : Nat → List Walk → List Nat → List Walk → Option (Nat × Nat) × List Nat
  | 0, _, op, _ => (none, op)
  | _ + 1, _, op, [] => (none, op)
  | n + 1, seen, op, w :: todo =>
    if seen.contains w then walkAll d n seen op todo
    else match walkStep d w with
      | .error k => (some (k, w.pc), op)
      | .ok (o, ws) => walkAll d n (w :: seen) (o ++ op).eraseDups (ws ++ todo)

/-- Steps allowed to `walkAll`: more than the places that a path of R166 has. -/
def walkFuel : Nat := 2 ^ 64

/-- A path at admission: registers and counters 0, every input segment still to land (R160, R176, R268). -/
def walkStart (d : Bytes) : Walk :=
  { pc := 0, vals := List.replicate 32 (some 0), sent := gNseg d :: List.replicate 31 0
    exts := (List.range (gNseg d)).map (fun k =>
      { at_ := some (gSegOff d k, gSegMax d k), ctr := 0, idx := k + 1, wr := true }) }

/-- The paths of an image: the check that one fails, and the checks left open. -/
def codePaths (d : Bytes) : Option (Nat × Nat) × List Nat := walkAll d walkFuel [] [] [walkStart d]

/-- The first bundle for which a check fails. -/
def firstBundle (d : Bytes) (f : Nat → Bool) : Option Nat := (List.range (gCode d)).find? f

/-- The check of code and descriptors that an image fails, with its bundle: encoding first, then the descriptors whose
places need no register, then the paths (R166, R192, R200). -/
def codeFail (d : Bytes) : Option (Nat × Nat) :=
  match firstBundle d (fun i => (bundleOf d i).isNone) with
  | some i => some (9, i)
  | none =>
    match firstBundle d (fun i => match bundleOf d i with | some b => !descsOk d { pc := i } b | none => false) with
    | some i => some (10, i)
    | none => (codePaths d).1

/-- The checks of an image that its code leaves open. -/
def codeOpen (d : Bytes) : List Nat := (codePaths d).2

end Sys2Proof.Machine
end

