-- ==== Sys2Proof/Machine/Graph.lean ====
section
/-! DEFINITION. The graph store: graph images and their checks, GRAPH_STORE, GRAPH_PATCH, GRAPH_RETIRE and the
end of the whole-image check (R201, R217 to R227, R271, R405, R432, R437). -/

namespace Sys2Proof.Machine

/-- Bytes of a core's constant area (R218). -/
def constBytes (s : State) (c : Nat) : Nat := rf s (coreReg c aSqConstSize) 0 12 0 * 8192

/-- A window entry keeps R220. -/
def winOk (d e : Bytes) : Bool :=
  wKind e ≤ 2 && bits (fld e 1 1) 7 1 == 0 && bits (fld e 2 2) 15 10 == 0 && fld e 12 4 == 0 && wSize e % 8192 == 0 &&
    (match wKind e with
      | 0 => !wWr e && wSgid e == 0 && wSize e == 0
      | 1 => wSgid e == 0 && wOff e % 8192 == 0 && wOff e + wSize e ≤ gBuf d
      | _ => !wWr e)

/-- An input map entry keeps R220. -/
def segOk (d : Bytes) (k : Nat) : Bool :=
  if gNseg d ≤ k then fld d (384 + 8 * k) 8 == 0
  else gSegOff d k % 64 == 0 && 64 ≤ gSegMax d k && gSegMax d k ≤ gBuf d && gSegOff d k + gSegMax d k ≤ gBuf d

/-- Two input segments do not overlap. -/
def segApart (d : Bytes) (i j : Nat) : Bool :=
  gSegOff d i + gSegMax d i ≤ gSegOff d j || gSegOff d j + gSegMax d j ≤ gSegOff d i

/-- Pairs of different numbers below `n`. -/
def pairsBelow (n : Nat) : List (Nat × Nat) := (List.range n).flatMap (fun i => (List.range i).map (fun j => (i, j)))

/-- Cores that an image names. -/
def gCores (d : Bytes) : List Nat := (List.range 2).filter (gCore d)

/-- The header and its entries keep R219 and R220. -/
def headerOk (s : State) (d : Bytes) : Bool :=
  bits (fld d 0 2) 15 10 == 0 && bits (fld d 3 1) 7 3 == 0 && fld d 19 1 == 0 && bits (fld d 20 2) 15 9 == 0 &&
    fld d 22 10 == 0 && allZero ((d.drop 512).take 512) && (gPace d == 15 || gPace d == 16) && !(gCores d).isEmpty &&
    1 ≤ gCode d && gCode d ≤ 131072 && gConst d % 8192 == 0 && (gCores d).all (fun c => gConst d ≤ constBytes s c) &&
    gBuf d % 8192 == 0 && 8192 ≤ gBuf d && gNtab d ≤ 64 && 1 ≤ gNseg d && gNseg d ≤ 16 && 1 ≤ gNoseg d && gNoseg d ≤ 16 &&
    gCtxN d ≤ 256 && (List.range 6).all (fun i => winOk d (gWin d (i + 2))) &&
    (List.range 64).all (fun k => if gNtab d ≤ k then gTab d k == 0 else bits (gTab d k) 31 26 == 0) &&
    (gTids d).Nodup && (List.range 16).all (segOk d) &&
    (pairsBelow (gNseg d)).all (fun (i, j) => segApart d i j)

/-! ## Versions -/

/-- The current version of a GID. -/
def curVer (s : State) (g : Nat) : Option Version := s.graphs.find? (fun v => v.gid == g && v.current)

/-- A version of a GID by number. -/
def verOf (s : State) (g : Nat) (n : Word) : Option Version := s.graphs.find? (fun v => v.gid == g && v.num == n)

/-- Where a version lies on a core. -/
def placeOn (v : Version) (c : Nat) : Option Place := v.places.find? (fun p => p.core == c)

/-- Part pace (R201, R437). -/
def partPace (s : State) : Nat := fld s.pc.record 29 1

/-- Room for code and constants on a core. -/
def findPlace (s : State) (c code const : Nat) : Option Place :=
  let here := s.graphs.filterMap (fun v => (placeOn v c).map (fun p => (p, v.image)))
  let io := here.map (fun (p, d) => (p.imem, gCode d))
  let co := here.map (fun (p, d) => (p.const, gConst d))
  match allocIn 0 131072 1 code 0 io, allocIn (scrBytes - constBytes s c) scrBytes 8192 const (scrBytes - constBytes s c) co with
  | some i, some k => some { core := c, imem := i, const := k }
  | _, _ => none

/-- Places on every core named; none if a core lacks room or 2,048 versions are held. -/
def findPlaces (s : State) (d : Bytes) (cores : List Nat) : Option (List Place) :=
  let l := cores.map (fun c => findPlace s c (gCode d) (gConst d))
  if 2048 ≤ s.graphs.length then none else if l.all (·.isSome) then some (l.filterMap id) else none

/-! ## Checks (R222, R432) -/

/-- State checks of an image: shared windows and pace. -/
def imageState (s : State) (d : Bytes) : Bool :=
  (gShared d).all (fun e => wSgid e ≠ gGid d && (curVer s (wSgid e)).isSome) &&
    !(gPace d == 16 && partPace s == 15)

/-- The failing check of an image, with its status; code checks apart. -/
def imageFail (s : State) (w : Bool) (d : Bytes) (store : Bool) (cores : List Nat) : Option (Nat × Status) :=
  if d.length < 1024 then some (12, stBadLength)
  else if !headerOk s d then some (1, stBadField)
  else if d.length ≠ gLen d then some (12, stBadLength)
  else if cores.any (fun c => unitWorld s c ≠ w) then some (13, stWorld)
  else if (store && s.graphs.any (fun v => v.gid == gGid d)) || !imageState s d then some (13, stBadState)
  else if (findPlaces s d cores).isNone then some (14, stNoResource)
  else none

/-- A store or patch refused: SQ_GS_FAIL and its count (R222). One refused for its own operands counts as a header or
entry field, and for the part's identity as state (DESIGN CHOICE: R245 names no other code; log entry 173); where no core
is known, both count it. -/
def refuseGraph (s : State) (c : Cmd) (cores : List Nat) (code bundle : Nat) (st : Status) : State :=
  let s := { s with checking := s.checking.filter (fun (_, q, n) => !(q == c.q && n == c.n)) }
  let s := (List.range 2).foldl (fun s k => rset s (coreReg k aSqGsFail) 0 (code + 256 * bundle)) s
  let s := (if cores.isEmpty then [0, 1] else cores).foldl (fun s k => cnt s (coreReg k aSqCntGsRefused)) s
  reject s c st

/-- An image under check: its command waits for GRAPH_CHECK_DONE. -/
def underCheck (s : State) (c : Cmd) (d : Bytes) : State :=
  let s := updCmd s c.q.toNat c.n (fun c => { c with data := d, phase := .unit })
  { s with checking := s.checking ++ [(gGid d, c.q, c.n)] }

/-- GRAPH_STORE: reads the image and checks it (R219, R222, R223). -/
def execGraphStore (q : BitVec 10) (n : Word) (s : State) : Out :=
  .next (ownOr (fun s c => refuseGraph s c [] 13 0 stBadState) 7 q.toNat n (fun s c =>
    if !zero c 16 4 ∨ !zero c 32 32 ∨ !plainAddr (cF c 24 8) then refuseGraph s c [] 1 0 stBadField
    else if cF c 20 4 < 1024 then refuseGraph s c [] 12 0 stBadLength
    else fetchSrc (arrive s c) c .image (cF c 24 8) (cF c 20 4))
    (fun s c =>
      match imageFail s (queue s c.q.toNat).world c.data true (gCores c.data) with
      | some (k, st) => refuseGraph s c (gCores c.data) k 0 st
      | none => underCheck s c c.data) s)

/-! ## Patches (R224, R225) -/

/-- The ranges of a patch stream, offset and data; none where one lies outside the stream or the rules. Padding is not
looked at, and a stream that does not end with its last range is refused as a patch range is (DESIGN CHOICE: R224 names
neither; log entry 174). -/
def patchRanges (len : Nat) : Nat → Nat → Bytes → Option (List (Nat × Bytes))
  | 0, _, r => if r.isEmpty then some [] else none
  | k + 1, lo, r =>
    let off := fld r 0 4
    let n := fld r 4 4
    if r.length < 8 ∨ n = 0 ∨ off < lo ∨ len < off + n ∨ r.length < 8 + (n + 7) / 8 * 8 then none
    else (patchRanges len k (off + n) (r.drop (8 + (n + 7) / 8 * 8))).map (fun l => (off, (r.drop 8).take n) :: l)

/-- Bytes of a string replaced. -/
def replaceAt (d : Bytes) (off : Nat) (b : Bytes) : Bytes := d.take off ++ b ++ d.drop (off + b.length)

/-- The image a patch builds. -/
def patchedImage (base : Bytes) (len : Nat) (l : List (Nat × Bytes)) : Bytes :=
  l.foldl (fun d (o, b) => replaceAt d o b) (slice base 0 len)

/-- Cores of a version that are not damaged (R405). -/
def soundCores (v : Version) : List Nat := (v.places.map (·.core)).filter (fun c => !v.damaged.contains c)

/-- GRAPH_PATCH: builds the new image and checks it (R222, R224, R225, R405). -/
def execGraphPatch (q : BitVec 10) (n : Word) (s : State) : Out :=
  .next (ownOr (fun s c => refuseGraph s c [] 13 0 stBadState) 8 q.toNat n (fun s c =>
    if !zero c 16 4 ∨ !zero c 32 32 ∨ !srcOk c (cF c 24 8) (cF c 20 4) then refuseGraph s c [] 1 0 stBadField
    else if cF c 20 4 < 32 then refuseGraph s c [] 12 0 stBadLength
    else fetchSrc (arrive s c) c .patch (cF c 24 8) (cF c 20 4))
    (fun s c =>
      let p := c.data
      let g := fld p 0 2 % 1024
      let cores := match curVer s g with | some v => v.places.map (·.core) | none => []
      let nr := fld p 12 2
      if fld p 16 4 ≠ p.length then refuseGraph s c cores 12 0 stBadLength
      else if bits (fld p 0 2) 15 10 ≠ 0 ∨ fld p 2 2 ≠ 0 ∨ fld p 14 2 ≠ 0 ∨ fld p 20 12 ≠ 0 ∨ nr = 0 ∨ 4096 < nr then
        refuseGraph s c cores 15 0 stBadField
      else match patchRanges (fld p 8 4) nr 0 (p.drop 32) with
        | none => refuseGraph s c cores 15 0 stBadField
        | some l =>
          match curVer s g with
          | none => refuseGraph s c cores 13 0 stBadState
          | some v =>
            if v.num.toNat ≠ fld p 4 4 ∨ s.checking.any (fun (h, _, _) => h == g) ∨ (soundCores v).isEmpty then
              refuseGraph s c cores 13 0 stBadState
            else
              let d := patchedImage v.image (fld p 8 4) l
              if d.length ≥ 1024 ∧ gGid d ≠ g then refuseGraph s c cores 15 0 stBadField
              else match imageFail s (queue s c.q.toNat).world d false cores with
                | some (k, st) => refuseGraph s c cores k 0 st
                | none => underCheck s c d) s)

/-- GRAPH_RETIRE: the current version ends, and retires when nothing references it (R226, R227). -/
def execGraphRetire (q : BitVec 10) (n : Word) (s : State) : Out :=
  .next (own 9 q.toNat n (fun s c =>
    let g := cF c 16 2
    if 1024 ≤ g ∨ !zero c 18 46 then reject s c stBadField
    else if (curVer s g).isNone ∨ s.checking.any (fun (h, _, _) => h == g) ∨
        s.graphs.any (fun v => v.current && v.gid ≠ g && (gShared v.image).any (fun e => wSgid e == g)) then
      reject s c stBadState
    else
      let s := arrive s c
      let s := { s with graphs := s.graphs.map (fun v => if v.gid = g then { v with current := false } else v) }
      finish (sweepVersions s) c.q.toNat c.n 0) noLanded s)

/-! ## The end of a check (R223, R225) -/

/-- A version becomes current: its constants are written, and the version it follows is current no longer. -/
def installVer (s : State) (d : Bytes) (num : Word) (ps : List Place) : State :=
  let g := gGid d
  let v : Version := { gid := g, num := num, image := d, digest := sha3 d, places := ps, current := true }
  let s := { s with graphs := s.graphs.map (fun v => if v.gid = g then { v with current := false } else v) ++ [v] }
  let s := ps.foldl (fun s p => updCore s p.core (fun x =>
    scrWrite x p.const { data := d.drop (1024 + 32 * gCode d) })) s
  sweepVersions s

/-- Status of a failed check by its code in SQ_GS_FAIL. -/
def gsStatus (code : Nat) : Status :=
  if code = 12 then stBadLength else if code = 13 then stBadState else if code = 14 then stNoResource else stBadField

/-- A check whose finding is an operand: the image's code leaves it open, for a register that it depends on takes its
value from the launch (log entry 13). -/
def openCheck (d : Bytes) (code : Nat) : Bool := (codeOpen d).contains code

/-- The check of R166, R192 and R200 that an image fails: the one computed from it, else the one found. -/
def pathFail (d : Bytes) (code bundle : Nat) : Option (Nat × Nat) :=
  match codeFail d with
  | some x => some x
  | none => if openCheck d code then some (code, bundle) else none

/-- GRAPH_CHECK_DONE: the check of every path ends; the new version becomes current, or the command is refused
(R222 to R225). -/
def execGraphCheckDone (q : BitVec 10) (n : Word) (code : Byte) (bundle : BitVec 17) (s : State) : Out :=
  .next (match cmd s q.toNat n with
    | none => s
    | some c =>
      let d := c.data
      if c.phase ≠ .unit ∨ (cOp c ≠ 7 ∧ cOp c ≠ 8) then s
      else
        let store := cOp c == 7
        let cores := if store then gCores d else match curVer s (gGid d) with
          | some v => v.places.map (·.core) | none => []
        match pathFail d code.toNat bundle.toNat with
        | some (k, b) => refuseGraph s c cores k b (gsStatus k)
        | none => match imageFail s (queue s q.toNat).world d store cores, findPlaces s d cores with
          | some (k, st), _ => refuseGraph s c cores k 0 st
          | none, none => refuseGraph s c cores 14 0 stNoResource
          | none, some ps =>
            let num := match curVer s (gGid d) with | some v => nextEpoch v.num | none => 1
            let s := { s with checking := s.checking.filter (fun (_, q', n') => !(q' == q && n' == n)) }
            let s := installVer s d num ps
            let s := if store then s else cores.foldl (fun s k => cnt s (coreReg k aSqCntPatch)) s
            finish s q.toNat n 0)

end Sys2Proof.Machine
end

