-- ==== Sys2Proof/Machine/Launch.lean ====
section
/-! DEFINITION. LAUNCH and LOOKUP: their operand checks, admission, windows, contexts, tallies, replay and end,
and the events of a launch outside its bundles (R51, R69, R163, R171 to R183, R228 to R243, R266 to R270,
R320, R376 to R383, R405, R407 to R412). -/

namespace Sys2Proof.Machine

/-! ## Arrival (R264, R266, R270) -/

/-- NSEG of a LAUNCH. -/
def lNseg (c : Cmd) : Nat := cF c 18 1
/-- NOSEG of a LAUNCH. -/
def lNoseg (c : Cmd) : Nat := cF c 19 1
/-- Length of input segment `k`. -/
def lSegLen (c : Cmd) (k : Nat) : Nat := if k < lNseg c then fld c.data (64 + 16 * k) 4 else 0
/-- Source of input segment `k`. -/
def lSegAddr (c : Cmd) (k : Nat) : Nat := fld c.data (72 + 16 * k) 8
/-- Capacity and destination of result segment `k`. -/
def lOut (c : Cmd) (k : Nat) : Nat × Nat :=
  (fld c.data (64 + 16 * (lNseg c + k)) 4, fld c.data (72 + 16 * (lNseg c + k)) 8)

/-- The argument block keeps R266 and R247. -/
def launchArgs (c : Cmd) : Bool :=
  (List.range (lNseg c + lNoseg c)).all (fun k => fld c.data (68 + 16 * k) 4 == 0) &&
    (List.range (lNseg c)).all (fun k => srcOk c (lSegAddr c k) (lSegLen c k)) &&
    (List.range (lNoseg c)).all (fun k => plainAddr (lOut c k).2)

/-- Tables of a version that are slices of a column group (R376). -/
def groupTids (s : State) (d : Bytes) : List Nat :=
  (gTids d).filter (fun t => match curDesc (table s t) with | some b => 0 < dScnt b | none => false)

/-- A group request asks the leader for its epochs (R377, R379, R387); what it may not do ends it. -/
def askPins (s : State) (c : Cmd) (tids : List Nat) : State :=
  let key : Word := BitVec.ofNat 32 (fld c.data 60 4)
  if s.dl.dissolved ∨ !grpOn s then finish s c.q.toNat c.n stPeer
  else if isGrpMirror s then reject s c stBadState
  else if !reaches s (leader s) then finish s c.q.toNat c.n stPeer
  else
    let s := updCmd s c.q.toNat c.n (fun c => { c with asked := some key })
    droveSend s (leader s) (.pinReq (BitVec.ofNat 12 (myId s)) key (tids.map (BitVec.ofNat 12)))

/-- LAUNCH: operand and argument checks; it arrives and goes to admission (R266). -/
def execLaunch (q : BitVec 10) (n : Word) (s : State) : Out :=
  .next (own 1 q.toNat n (fun s c =>
    let len := 64 + 16 * (lNseg c + lNoseg c)
    if 1024 ≤ cF c 16 2 ∨ lNseg c = 0 ∨ 16 < lNseg c ∨ lNoseg c = 0 ∨ 16 < lNoseg c ∨ !zero c 32 32 then reject s c stBadField
    else if cF c 20 4 ≠ len then reject s c stBadLength
    else if !srcOk c (cF c 24 8) len then reject s c stBadField
    else fetchSrc s c .args (cF c 24 8) len)
    (fun s c =>
      if !launchArgs c then reject s c stBadField
      else
        let s := setPhase (arrive s c) c .admission
        match curVer s (cF c 16 2), cmd s q.toNat n with
        | some v, some c =>
          let ts := groupTids s v.image
          if ts.isEmpty then s else askPins s c ts
        | _, _ => s) s)

/-- Descriptor of program `p` of a LOOKUP. -/
def kDesc (c : Cmd) (p : Nat) : Bytes := slice c.data (16 + 80 * p) 64
/-- Body bytes and body address of program `p`. -/
def kBody (c : Cmd) (p : Nat) : Nat × Nat := (fld c.data (80 + 80 * p) 4, fld c.data (88 + 80 * p) 8)

/-- The fields of a LOOKUP's program that the FE checks at arrival (R270, R70). -/
def lookupField (c : Cmd) (p : Nat) : Bool :=
  let d := kDesc c p
  fld d 7 1 == 0 && fld d 24 6 == 0 && fld d 0 1 < cF c 16 1 && !pDep d && progOk d 0 && fld c.data (84 + 80 * p) 4 == 0 &&
    srcOk c (kBody c p).2 (kBody c p).1

/-- LOOKUP: operand and argument checks; it arrives and goes to admission (R270). -/
def execLookup (q : BitVec 10) (n : Word) (s : State) : Out :=
  .next (own 2 q.toNat n (fun s c =>
    let np := cF c 16 1
    let len := 16 + 80 * np
    if np = 0 ∨ 64 < np ∨ !zero c 17 3 ∨ !zero c 32 32 then reject s c stBadField
    else if cF c 20 4 ≠ len then reject s c stBadLength
    else if !srcOk c (cF c 24 8) len then reject s c stBadField
    else fetchSrc s c .args (cF c 24 8) len)
    (fun s c =>
      let ps := List.range (cF c 16 1)
      if fld c.data 4 4 ≠ 0 ∨ !plainAddr (fld c.data 8 8) ∨ !(ps.all (lookupField c)) then reject s c stBadField
      else if !(ps.all (fun p => (kBody c p).1 == 4 * bodyLen (kDesc c p))) then reject s c stBadLength
      else setPhase (arrive s c) c .admission) s)

/-! ## The head (R228) -/

/-- The command at the admission head: a replay that waits goes ahead of all (R410). -/
def admHead (s : State) : Option Cmd :=
  if s.reqs.any (fun r => r.replay == 1) then none
  else (s.fe.cmds.filter (fun c => c.phase == .admission)).foldl (fun b c =>
    match b with | none => some c | some d => if c.arrival < d.arrival then some c else some d) none

/-- The lowest FREE contexts of a fold, `n` of them. -/
def freeCtxs (s : State) (f n : Nat) : List Nat :=
  ((List.range 256).filter (fun c => (ctxAt (fold s f) c).st == .free)).take n

/-- A fold serves new requests. -/
def foldServes (s : State) (f : Nat) : Bool := !gxHeld s f && !(fold s f).disabled

/-- `n` contexts on every fold named, bound to a request; none where they are short (R69, R230). -/
def bindCtxs (s : State) (h : Half) (folds : List Nat) (n : Nat) : Option (State × Map (List Nat)) :=
  if !(folds.all (fun f => foldServes s f && (freeCtxs s f n).length == n)) then none
  else some (
    folds.foldl (fun s f => updFold s f (fun x =>
      (freeCtxs s f n).foldl (fun x c => setCtx x c { st := .bound, req := h }) x)) s,
    folds.map (fun f => (f, freeCtxs s f n)))

/-! ## LAUNCH admission (R229 to R232) -/

/-- Versions that the KIND 2 windows of an image show. -/
def sharedVers (s : State) (d : Bytes) : List (Option Version) := (gShared d).map (fun e => curVer s (wSgid e))

/-- Cores on which a version may run for a world: its own, and those that hold what it shows (R230, R430). -/
def mayRunOn (s : State) (v : Version) (w : Bool) (sound : Bool) : List Nat :=
  let has (v : Version) (c : Nat) : Bool := (placeOn v c).isSome && !(sound && v.damaged.contains c)
  (v.places.map (·.core)).filter (fun c => unitWorld s c == w && has v c &&
    (sharedVers s v.image).all (fun o => match o with | some u => has u c | none => false))

/-- Bytes of a core's buffer pool (R218). -/
def poolSize (s : State) (c : Nat) : Nat := scrBytes - constBytes s c

/-- An address of a command's queue lies in peer memory (R25, R267). -/
def inPeer (s : State) (q a : Nat) : Bool :=
  match xlat s (cmdWho s q) a false false with
  | .remote i _ _ => qpRole s i == 2
  | _ => false

/-- A table of the list agrees with its entry (R229). -/
def tabAgrees (s : State) (e : Nat) : Bool :=
  match curDesc (table s (e % 4096)) with
  | none => false
  | some b => dPclass b == bits e 13 12 && dGroup b == bits e 15 14 && dDim b == bits e 25 16

/-- The check that a LAUNCH fails at the head, if any (R229, R267, R379, R394, R405, R432). -/
def launchFail (s : State) (c : Cmd) (v : Version) : Option Status :=
  let d := v.image
  let w := (queue s c.q.toNat).world
  if lNseg c ≠ gNseg d ∨ lNoseg c ≠ gNoseg d then some stBadField
  else if !gVectors d ∧ inPeer s c.q.toNat (lOut c 0).2 then some stBadField
  else if !((List.range (gNtab d)).all (fun k => tabAgrees s (gTab d k))) then some stBadState
  else if !((gShared d).all (fun e => match curVer s (wSgid e) with
      | some u => wSize e ≤ gConst u.image | none => false)) then some stBadState
  else if !(groupTids s d).isEmpty ∧ isGrpMirror s then some stBadState
  else if s.dl.pair ≠ .none ∧ s.dl.mirror ∧ (gTids d).any (fun t => (table s t).diverged) then some stDiverged
  else if !((List.range (lNseg c)).all (fun k => lSegLen c k ≠ 0 && lSegLen c k ≤ gSegMax d k && lSegLen c k % 4 == 0)) then
    some stBadLength
  else if (v.places.map (·.core)).all (fun k => unitWorld s k ≠ w) then some stWorld
  else if (soundCores v).isEmpty ∨ (sharedVers s d).any (fun o => match o with
      | some u => (soundCores u).isEmpty | none => false) ∨
      (mayRunOn s v w true).isEmpty ∧ !(mayRunOn s v w false).isEmpty then some stPoison
  else
    let cs := mayRunOn s v w true
    if cs.all (fun k => poolSize s k < gBuf d) ∨ cs.all (fun k => !rb s (coreReg k aSqCtl) 0 0) then some stNoResource
    else none

/-- Ranges of a core's buffer pool that launches hold. -/
def bufOcc (x : Core) : List (Nat × Nat) :=
  (List.range 4).filterMap (fun k => (slotWin (cslot x k) 1).map (fun w => (w.base, w.size)))

/-- A free slot and room in the buffer pool of a core (R230). -/
def coreRoom (s : State) (c buf : Nat) : Option (Nat × Nat) :=
  let x := core s c
  match (List.range 4).find? (fun k => (cslot x k).st == .free), allocIn 0 (poolSize s c) 8192 buf 0 (bufOcc x) with
  | some k, some a =>
    if rb s (coreReg c aSqCtl) 0 0 && (unit s c).st == .service && !rb s aPcBootStat 0 (13 + c) then some (k, a) else none
  | _, _ => none

/-- Busy slots of a core. -/
def busySlots (s : State) (c : Nat) : Nat := ((List.range 4).filter (fun k => (cslot (core s c) k).st ≠ .free)).length

/-- The core for a LAUNCH among those with room: fewer busy slots, then the one not chosen last. On the first tie after
reset that is RC0 (DESIGN CHOICE: R230 gives only the alternation; log entry 169). -/
def chooseCore (s : State) (l : List Nat) : Option Nat :=
  match l with
  | [] => none
  | [c] => some c
  | c :: d :: _ =>
    if busySlots s c < busySlots s d then some c
    else if busySlots s d < busySlots s c then some d
    else if c = s.lastCore then some d else some c

/-- The region descriptor of a launch's window (R320). -/
def winRegion (c : Nat) (cid : BitVec 12) (w : Bool) (win : Win) : Region :=
  { base := win.base, limit := win.base + win.size, cid := cid, world := w, mask := 0xFFF, kind := 2
    unit := BitVec.ofNat 3 c, rd := true, wr := win.wr }

/-- Windows of a launch on a core; a KIND 2 window shows the version that the launch references (R163, R220, R226,
R231). -/
def launchWins (s : State) (v : Version) (shown : List (Nat × Word)) (c base : Nat) : List (Nat × Win) :=
  let d := v.image
  let p := (placeOn v c).getD { core := c, imem := 0, const := 0 }
  [(0, { base := p.const, size := gConst d, wr := false }), (1, { base := base, size := gBuf d, wr := true })] ++
    (List.range 6).filterMap (fun i =>
      let e := gWin d (i + 2)
      if wKind e = 1 then some (i + 2, { base := base + wOff e, size := wSize e, wr := wWr e })
      else if wKind e = 2 then
        (((shown.find? (fun x => x.1 == wSgid e)).bind (fun x => verOf s x.1 x.2)).bind (fun u => placeOn u c)).map (fun p => (i + 2, { base := p.const, size := wSize e, wr := false }))
      else none)

/-- Parameter words 0 to 255 (R232). -/
def launchPar (s : State) (c : Cmd) (d : Bytes) (pins : List (BitVec 12 × Word)) : Map Word :=
  let rows (k : Nat) : Nat := match pins[k]? with
    | some (t, n) => (match (epochOf (table s t.toNat) n).bind (fun e => imgOf (table s t.toNat) e.img) with
        | some im => dRows im.desc | none => 0)
    | none => 0
  let w (i : Nat) : Nat :=
    if i < 16 then fld c.data (4 * i) 4
    else if i < 32 then lSegLen c (i - 16)
    else if i < 96 then rows (i - 32)
    else if i < 112 then (if i - 96 < gNseg d then gSegOff d (i - 96) else 0)
    else 0
  (List.range 112).foldl (fun m i => mset 0 m i (BitVec.ofNat 32 (w i))) []

/-- A launch put into a slot: windows, parameters, and the transfers of its input segments (R154, R231, R268).
Window 1 is still to be zeroed. -/
def fillSlot (s : State) (c : Cmd) (v : Version) (r : Req) : State :=
  let k := r.core
  let d := v.image
  let base := match (slotWin (cslot (core s k) r.slot) 1) with | some w => w.base | none => 0
  let wins := launchWins s v r.kind2 k base
  let p := (placeOn v k).getD { core := k, imem := 0, const := 0 }
  let s := updCore s k (fun x => csetSlot x r.slot
    { st := .ready, req := r.handle, pc := BitVec.ofNat 17 p.imem, par := launchPar s c d r.pins
      win := wins.foldl (fun m (i, w) => mset none m i (some w)) [], hiprio := r.hiprio, next := x.cycle
      order := s.nextOrder, pace := gPace d, codeBase := p.imem, codeLen := gCode d })
  let s := { s with nextOrder := s.nextOrder + 1 }
  let s := wins.foldl (fun s (i, w) => setRegion s (winIdx k r.slot i) (winRegion k r.cid r.world w)) s
  (List.range (lNseg c)).foldl (fun s i =>
    let a := lSegAddr c i
    let n := lSegLen c i
    match (if isInline a then inlineData c a n else none) with
    | some b => (newXfer s (.segment r.handle i) true c.q c.n a 0 b).1
    | none => (newXfer s (.segment r.handle i) true c.q c.n a n []).1) s

/-- The first bytes of a LAUNCH's input digest (R239). -/
def inStart (scalars : Bytes) (n : Nat) : Bytes := 7 :: scalars ++ toLE 1 n

/-- The admission step of a LAUNCH whose resources are free (R231). -/
def admitLaunch (s : State) (c : Cmd) (v : Version) (pins : List (BitVec 12 × Word)) (k slot base : Nat) : Option State :=
  let d := v.image
  let hs := takeHandle s
  let h := hs.1
  let s := hs.2
  let folds := (List.range 8).filter (fun f => pins.any (fun (t, n) =>
    match (epochOf (table s t.toNat) n).bind (fun e => imgOf (table s t.toNat) e.img) with
    | some im => bit (dMask im.desc) f | none => false))
  match bindCtxs s h folds (gCtxN d) with
  | none => none
  | some (s, ctxs) =>
    let qq := queue s c.q.toNat
    let s := pins.foldl (fun s (t, n) => pinNum s t.toNat n) s
    let r : Req :=
      { handle := h, q := c.q, n := c.n, kind := .launch, cid := qq.cid, world := qq.world, part := qq.part
        hiprio := cHiprio c, wantTally := cTally c, gid := v.gid, ver := v.num
        kind2 := (sharedVers s d).filterMap (fun o => o.map (fun u => (u.gid, u.num))), pins := pins, core := k
        slot := slot, ctxs := ctxs, scalars := slice c.data 0 64
        segs := (List.range (lNseg c)).map (fun i => (BitVec.ofNat 32 (lSegLen c i), BitVec.ofNat 64 (lSegAddr c i)))
        outs := (List.range (lNoseg c)).map (fun i =>
          { cap := BitVec.ofNat 32 (lOut c i).1, addr := BitVec.ofNat 64 (lOut c i).2 })
        inMsg := inStart (slice c.data 0 64) (lNseg c), key := c.asked, admitAt := s.np.ns }
    let s := { s with reqs := s.reqs ++ [r], lastCore := k }
    let s := (c.gotPin.getD []).foldl (fun s (t, n) => unpin s t.toNat n) s
    let s := updCmd s c.q.toNat c.n (fun c => { c with phase := .running, handle := h })
    let s := updCore s k (fun x => cupdSlot x slot (fun v => { v with win := mset none v.win 1 (some { base := base, size := gBuf d, wr := true }) }))
    let s := fillSlot s c v r
    let s := cnt s (coreReg k aSqCntLaunch)
    some (if c.waited then cnt s (coreReg k aSqCntAdmitWait) else s)

/-- The epochs a LAUNCH pins: current ones, and for the tables of a group those that its PIN brought; none
while the PIN is still to come (R51, R377). -/
def launchPins (s : State) (c : Cmd) (d : Bytes) : Option (List (BitVec 12 × Word)) :=
  let grp := groupTids s d
  let one (t : Nat) : Option (BitVec 12 × Word) :=
    if grp.contains t then c.gotPin.bind (fun l => l.find? (fun (u, _) => u.toNat == t))
    else (table s t).cur.map (fun e => (BitVec.ofNat 12 t, e.num))
  let l := (gTids d).map one
  if l.all (·.isSome) then some (l.filterMap id) else none

/-- LAUNCH_ADMISSION: the LAUNCH at the head is refused, admitted, or waits for its resources (R228 to R232). -/
def execLaunchAdmission (s : State) : Out :=
  .next (match admHead s with
    | none => s
    | some c =>
      if cOp c ≠ 1 then s
      else match curVer s (cF c 16 2) with
        | none => reject s c stBadState
        | some v =>
          match launchFail s c v with
          | some st => if st = stPoison then finish s c.q.toNat c.n st else reject s c st
          | none =>
            let grp := groupTids s v.image
            let wait (s : State) : State := updCmd s c.q.toNat c.n (fun c => { c with waited := true })
            if !grp.isEmpty ∧ c.asked.isNone then askPins s c grp
            else match launchPins s c v.image with
              | none => wait s
              | some pins =>
                if pins.any (fun (t, n) => (epochOf (table s t.toNat) n).isNone) then finish s c.q.toNat c.n stRetired
                else
                  let w := (queue s c.q.toNat).world
                  let rooms := (mayRunOn s v w true).filter (fun k => (coreRoom s k (gBuf v.image)).isSome)
                  match chooseCore s rooms with
                  | none => wait s
                  | some k =>
                    match coreRoom s k (gBuf v.image) with
                    | none => wait s
                    | some (slot, base) => (admitLaunch s c v pins k slot base).getD (wait s))

/-- WINDOW_1_ZEROED: window 1 is zeros, and the first bundle may issue (R231). -/
def execWindow1Zeroed (c : Core2) (slot : Fin 4) (s : State) : Out :=
  .next (let v := cslot (core s c) slot
    if v.st = .free ∨ v.zeroed then s
    else
      let s := updCore s c (fun x =>
        let x := match slotWin v 1 with | some w => scrZero x w.base w.size | none => x
        cupdSlot x slot (fun v => { v with zeroed := true }))
      wakeCore s c)

/-! ## Input segments (R176, R239, R268) -/

/-- Bytes of a landed segment: those of an inline one stand in the entry's payload. -/
def segBytes (s : State) (r : Req) (i : Nat) (now_ : Nat × Bytes) : Bytes :=
  if i = now_.1 then now_.2
  else match r.segs[i]?, cmd s r.q.toNat r.n with
    | some (n, a), some c => (inlineData c a.toNat n.toNat).getD []
    | _, _ => []

/-- Leading segments that have landed. -/
def prefixOf (l : List Nat) (n : Nat) : Nat := ((List.range n).takeWhile (fun i => l.contains i)).length

/-- INPUT_SEGMENT_LANDS: a segment whose data is there lands in window 1, inline segments first; counter 0 counts the segments landed,
in the order of the input map, and the input digest takes them in (R176, R239, R268). -/
def execInputSegmentLands (h : Half) (seg : Fin 16) (s : State) : Out :=
  .next (match req s h, s.fe.xfers.find? (fun t => t.kind == .segment h seg.val) with
    | some r, some t =>
      let v := cslot (core s r.core) r.slot
      let inl (u : Xfer) : Bool := isInline u.addr.toNat
      let earlier (u : Xfer) : Bool := (if inl t then inl u && u.id < t.id else inl u || u.id < t.id) &&
        (match u.kind with | .segment g _ => g == h | _ => false)
      if t.left ≠ 0 ∨ !t.pieces.isEmpty ∨ v.req ≠ h ∨ !v.zeroed ∨ v.st = .free ∨ v.st = .ending then s
      else if s.fe.xfers.any earlier then s
      else match verOf s r.gid r.ver, slotWin v 1 with
        | some ver, some w =>
          let a := w.base + gSegOff ver.image seg
          let s := updCore s r.core (fun x => extPut x a { data := t.data, marks := t.marks })
          let old := prefixOf r.landed r.segs.length
          let l := seg.val :: r.landed
          let new := prefixOf l r.segs.length
          let fresh := ((List.range new).filter (fun i => old ≤ i)).flatMap (fun i =>
            let b := segBytes s r i (seg.val, t.data)
            toLE 4 b.length ++ b)
          let s := updReq (dropXfer s t.id) h (fun r => { r with landed := l, inMsg := r.inMsg ++ fresh })
          (List.range (new - old)).foldl (fun s _ => bumpCtr s r.core r.slot 0) s
        | _, _ => s
    | _, _ => s)

/-! ## Tallies (R238 to R243) -/

/-- The tally of a request: graph and shared digests, table roots, input digest (R241). -/
def tallyOf (s : State) (r : Req) (inDigest : Bytes) : Bytes :=
  let dig (g : Nat) (n : Word) : Bytes := match verOf s g n with | some v => v.digest | none => List.replicate 32 0
  let graph := if r.kind = .launch then dig r.gid r.ver else List.replicate 32 0
  let root (t : BitVec 12) (n : Word) : Bytes :=
    let tb := table s t.toNat
    match epochOf tb n with
    | some e => (match imgOf tb e.img with | some im => tableRoot im.desc e | none => [])
    | none => []
  sha3 (6 :: graph ++ toLE 1 r.kind2.length ++ r.kind2.flatMap (fun (g, n) => dig g n) ++ toLE 1 r.pins.length ++
    r.pins.flatMap (fun (t, n) => toLE 2 t.toNat ++ root t n) ++ inDigest)

/-- A request carries a tally (R238). -/
def tallied (r : Req) (st : Status) : Bool := r.wantTally && (st == 0 || st == stMisaligned)

/-- The full tally written at an offset of result segment 0, or ST_BAD_LENGTH where it does not fit (R242,
R269, R270). -/
def writeTally (s : State) (r : Req) (off : Nat) (st : Status) : State × Status :=
  if !tallied r st then (s, st)
  else match r.outs.head? with
    | none => (s, st)
    | some o =>
      if o.cap.toNat < off + 32 then (s, stBadLength)
      else
        let t := tallyOf s r (sha3 r.inMsg)
        let s := (newXfer s (.tally r.handle) false r.q r.n (o.addr.toNat + off) 32 t).1
        (updCmd s r.q.toNat r.n (fun c => { c with tally8 := t.take 8 }), st)

/-! ## LOOKUP admission (R270) -/

/-- TIDs of a LOOKUP in order of first appearance. -/
def lookupTids (c : Cmd) : List Nat := ((List.range (cF c 16 1)).map (fun p => pTid (kDesc c p))).eraseDups

/-- Folds of the current image of a table. -/
def curFolds (s : State) (t : Nat) : List Nat := match curDesc (table s t) with | some d => dFolds d | none => []

/-- The folds on which a context index of a LOOKUP is used. -/
def ctxFolds (s : State) (c : Cmd) (x : Nat) : List Nat :=
  (List.range 8).filter (fun f => (List.range (cF c 16 1)).any (fun p =>
    fld (kDesc c p) 0 1 == x && (curFolds s (pTid (kDesc c p))).contains f))

/-- One context on every fold for each context index, in order; none where they are short. -/
def bindEach (s : State) (c : Cmd) (h : Half) : List Nat → Option (State × List (Nat × Map (List Nat)))
  | [] => some (s, [])
  | x :: xs =>
    match bindCtxs s h (ctxFolds s c x) 1 with
    | none => none
    | some (s, m) => (bindEach s c h xs).map (fun (s, l) => (s, (x, m) :: l))

/-- The programs of an admitted LOOKUP sent, with the releases of each fold's first one (R270). -/
def sendPrograms (s : State) (c : Cmd) (r : Req) (ctxs : List (Nat × Map (List Nat))) : State :=
  ((List.range (cF c 16 1)).foldl (fun (a : State × List Nat) p =>
    let d := kDesc c p
    let b := kBody c p
    let inl := if isInline b.2 then inlineData c b.2 b.1 else none
    let m := match ctxs.find? (fun (x, _) => x == fld d 0 1) with | some (_, m) => m | none => []
    let a := (curFolds a.1 (pTid d)).foldl (fun (a : State × List Nat) f =>
      let s := if a.2.contains f then a.1
        else emit a.1 (.fold f (.tileRelease (BitVec.ofNat 3 f).toFin r.handle 65535))
      let ctx := ((mget [] m f)[0]?).getD 0
      let d' := setDescPart (sentDesc s r d f ctx (pDest d) 2) r.part
      (emit s (.program f d' (match inl with | some x => wordsOf (b.1 / 4) x | none => [])), f :: a.2)) a
    if inl.isSome ∨ b.1 = 0 then a
    else ((newXfer a.1 (.body p) true c.q c.n b.2 b.1 []).1, a.2)) (s, [])).1
where
  /-- PARTITION of a descriptor set. -/
  setDescPart (d : Bytes) (p : BitVec 4) : Bytes := d.take 28 ++ toLE 1 (setBits (fld d 28 1) 3 0 p.toNat) ++ d.drop 29

/-- A program of a LOOKUP keeps R70 for its table. -/
def lookupProgOk (s : State) (c : Cmd) (p : Nat) : Bool :=
  match curDesc (table s (pTid (kDesc c p))) with
  | some d => progOk (kDesc c p) (dDim d)
  | none => false

/-- LOOKUP_ADMISSION: the LOOKUP at the head pins its epochs, takes its contexts and sends its programs (R51,
R228, R230, R270). -/
def execLookupAdmission (s : State) : Out :=
  .next (match admHead s with
    | none => s
    | some c =>
      if cOp c ≠ 2 then s
      else
        let tids := lookupTids c
        if tids.any (fun t => (table s t).cur.isNone) then reject s c stBadState
        else if s.dl.pair ≠ .none ∧ s.dl.mirror ∧ tids.any (fun t => (table s t).diverged) then reject s c stDiverged
        else if !((List.range (cF c 16 1)).all (lookupProgOk s c)) then reject s c stBadField
        else
          let hs := takeHandle s
          let h := hs.1
          let xs := ((List.range (cF c 16 1)).map (fun p => fld (kDesc c p) 0 1)).eraseDups
          match bindEach hs.2 c h xs with
          | none => s
          | some (s, ctxs) =>
            let qq := queue s c.q.toNat
            let pins := tids.filterMap (fun t => (table s t).cur.map (fun e => (BitVec.ofNat 12 t, e.num)))
            let s := pins.foldl (fun s (t, n) => pinNum s t.toNat n) s
            let r : Req :=
              { handle := h, q := c.q, n := c.n, kind := .lookup, cid := qq.cid, world := qq.world, part := qq.part
                wantTally := cTally c, pins := pins
                outs := [{ cap := BitVec.ofNat 32 (fld c.data 0 4), addr := BitVec.ofNat 64 (fld c.data 8 8) }]
                progs := (List.range (cF c 16 1)).map (kDesc c), admitAt := s.np.ns, firstAt := some s.np.ns }
            let s := { s with reqs := s.reqs ++ [r] }
            let s := updCmd s c.q.toNat c.n (fun c => { c with phase := .running, handle := h })
            sendPrograms s c r ctxs)

/-- The input digest message of a LOOKUP (R239). -/
def lookupIn (c : Cmd) : Bytes :=
  let seg (p : Nat) : Bytes :=
    let d := kDesc c p
    let z := [(0 : Byte)] ++ slice d 1 6 ++ [0] ++ slice d 8 8 ++ toLE 4 0 ++ slice d 20 4 ++ toLE 6 0 ++ slice d 30 34
    let b := kBody c p
    let body := if isInline b.2 then (inlineData c b.2 b.1).getD [] else slice ((c.bodies[p]?).getD []) 0 b.1
    toLE 4 (64 + body.length) ++ z ++ body
  inStart (List.replicate 64 0) (cF c 16 1) ++ (List.range (cF c 16 1)).flatMap seg

/-- A LOOKUP whose programs are all done ends: its tally follows the last slice, and its status is that of R408
(R242, R270). -/
def endLookup (s : State) (r : Req) : State :=
  match cmd s r.q.toNat r.n with
  | none => s
  | some c =>
    let st := if r.poisoned then stPoison else if r.exc ≠ 0 then r.exc else 0
    let s := updReq s r.handle (fun r => { r with inMsg := lookupIn c })
    let w := writeTally s { r with inMsg := lookupIn c } r.high st
    finish (drainCtx w.1 r.handle) r.q.toNat r.n w.2

/-- A counter of a request's launch rises, while the launch holds its slot (R176). -/
def bumpOf (s : State) (h : Half) (n : Nat) : State :=
  match req s h with
  | some r => if r.done ∨ (cslot (core s r.core) r.slot).req ≠ h then s else bumpCtr s r.core r.slot n
  | none => s

/-- SLICE_DONE: a program is done; the counter its GISSUE named rises, or the LOOKUP has one program less to
wait for; a stale generation is dropped (R96, R171, R270, R426). -/
def execSliceDone (f : Fin 8) (gen : Byte) (h : Half) (ctr : BitVec 5) (s : State) : Out :=
  .next (if gen ≠ (unit s (2 + f.val)).gen then cnt s aIgCntStale
    else match req s h with
      | none => s
      | some r =>
        if r.kind = .lookup then
          match cmd s r.q.toNat r.n with
          | some c =>
            if c.phase ≠ .running ∨ r.progs.length ≤ r.finished then s
            else
              let r := { r with finished := r.finished + 1 }
              let s := updReq s h (fun _ => r)
              if r.finished = r.progs.length then endLookup s r else s
          | none => s
        else if !r.dueCtrs.contains ctr then s
        else bumpOf (updReq s h (fun r => { r with dueCtrs := r.dueCtrs.erase ctr })) h ctr.toNat)

/-- COLLECTIVE_DONE: a collective is complete and its counter rises (R381, R382). -/
def execCollectiveDone (h idx : Half) (s : State) : Out :=
  .next (match collOf s h idx with
    | none => s
    | some c =>
      if !collDone s c ∨ c.risen then s
      else
        let s := cnt (updColl s h idx (fun c => { c with risen := true })) aDlCntColl
        let s := if c.kind = 2 then s
          else { s with dl := { s.dl with colls := s.dl.colls.filter (fun d => !(d.req == h && d.index == idx)) } }
        bumpOf s h c.ctr.toNat)

/-! ## Outputs (R174, R269, R407, R409) -/

/-- Bytes of a range as the FE writes them: words of marked granules are the poison pattern. -/
def rangeBytes (x : Core) (a n : Nat) : Bytes :=
  let b := rdN x.scratch a n
  b.zipIdx.map (fun (v, i) =>
    let g := (a + i) / 64
    if mget false x.poison g || mget false x.suspect g then (poisonPat 4).getD ((a + i) % 4) 0 else v)

/-- OUTPUT_RANGE_READ: the FE reads the oldest range handed to it, appends it to its segment, and the counter
rises; after a residue report, or once an epoch it reads is retired, nothing more is written (R57, R174, R269,
R407 to R409). What is digested is the range as it was handed over, without the poison pattern (R409). -/
def execOutputRangeRead (h : Half) (s : State) : Out :=
  .next (match req s h with
    | none => s
    | some r =>
      match (if r.done then [] else r.ranges) with
      | [] => s
      | (a, n, seg, ctr) :: rest =>
        let x := core s r.core
        let b := rangeBytes x a n
        let s := if (scrRead x a n).hard then markPoison s h else s
        let o := (r.outs[seg]?).getD { cap := 0, addr := 0 }
        let s := updReq s h (fun r => { r with
          ranges := rest, outMsg := r.outMsg ++ toLE 1 seg ++ toLE 4 n ++ rdN x.scratch a n
          outs := r.outs.zipIdx.map (fun (o, i) => if i = seg then { o with off := o.off + n } else o) })
        let s := if o.cap.toNat < o.off + n then excOf s h stBadLength
          else if r.reported || r.retired then s
          else (newXfer s (.result h seg) false r.q r.n (o.addr.toNat + o.off) n b).1
        bumpOf s h ctr.toNat)

/-- ISSUE_QUEUE_FREE: the entry at the head of the issue queue is sent, no program of a request whose epoch is retired
and none to a gather engine that is being reset, which waits at the head; a bundle held for it may issue (R57, R171 to
R175, R424). -/
def execIssueQueueFree (c : Core2) (s : State) : Out :=
  .next (match (core s c).issueQ with
    | [] => s
    | e :: es =>
      if (match e with | .program _ copies _ _ => copies.any (fun (f, _) => gxHeld s f) | _ => false) then s
      else
      let s := updCore s c (fun x => { x with issueQ := es, heldFull := false })
      match e with
      | .program h copies body ctr =>
        if (match req s h with | some r => r.retired | none => false) then s
        else
          let s := updReq s h (fun r => { r with dueCtrs := r.dueCtrs ++ [ctr] })
          copies.foldl (fun s (f, d) => emit s (.program f d body)) s
      | .rel h folds dep v =>
        (bitsSet 8 folds.toNat).foldl (fun s f =>
          let g := (BitVec.ofNat 3 f).toFin
          emit s (.fold f (if dep then .dependenceRelease g h else .tileRelease g h v))) s
      | .coll h idx => startColl s h idx
      | .out h a lines seg ctr => updReq s h (fun r => { r with ranges := r.ranges ++ [(a, 128 * lines, seg, ctr)] }))

/-! ## Yield points and ends (R179 to R183) -/

/-- YIELD_POINT: MA and VE work of the running launch is written, their state is cleared, and the launch to run
is chosen; a launch with an end pending, before the wait or by its end, ends at once (R181 to R183). A bundle held for a
full issue queue, or at a WAIT without YLD, is at no yield point (R178). -/
def execYieldPoint (c : Core2) (s : State) : Out :=
  .next (let s := closeB s c
    match (core s c).run with
    | none => chooseRun s c
    | some k =>
      let w := cslot (core s c) k
      if (core s c).heldFull ∨ (w.waitHeld ∧ w.st = .running ∧ !w.atYield) then s
      else
        let s := if (cslot (core s c) k).mustEnd then s else runCore s c (mavDone (core s c) k)
        if (cslot (core s c) k).st = .ending then s
        else if (cslot (core s c) k).mustEnd then endSlot s c k
        else
          let s := updCore s c (fun x => cupdSlot (clearMav x) k (fun v => { v with yielded := true, atYield := false }))
          chooseRun s c)

/-- END_REQUEST: an end request reaches the core: a launch that is not issuing, or that END has stopped, ends at once,
any other at its next preemption point (R181). -/
def execEndRequest (h : Half) (s : State) : Out :=
  .next (match req s h with
    | none => s
    | some r =>
      let v := cslot (core s r.core) r.slot
      if r.kind ≠ .launch ∨ r.endSt.isNone ∨ v.req ≠ h ∨ v.st = .free ∨ v.st = .ending then s
      else
        let s := updCore s r.core (fun x => cupdSlot x r.slot (fun v => { v with mustEnd := true }))
        if v.st ≠ .running ∨ v.atEnd ∨ atHold (core s r.core) r.slot then endSlot s r.core r.slot else s)

/-- Entries of a request leave the issue queues, those that hand ranges and collectives over among them. -/
def dropIssue (s : State) (h : Half) : State :=
  { s with cores := mmap {} (fun x => keepQ x (fun e => match e with
      | .program r _ _ _ => r != h | .rel r _ _ _ => r != h | .coll r _ => r != h | .out r _ _ _ _ => r != h)) s.cores }

/-- A launch slot freed with its windows and all it has under way; the accumulators and vector registers of the launch that ran go with it, for
no other launch observes them (R233), and another launch is chosen (R154, R183, R320). -/
def freeSlot (s : State) (c k : Nat) : State :=
  let s := (List.range 8).foldl (fun s w => setRegion s (winIdx c k w) {}) s
  let s := updCore s c (fun x =>
    { csetSlot x k {} with flight := x.flight.filter (fun f => !ownedBy k f) })
  if (core s c).run = some k then chooseRun (updCore s c clearMav) c else s

/-- Transfers of input segments still to land are dropped (R268). -/
def dropSegs (s : State) (h : Half) : State :=
  { s with fe := { s.fe with xfers := s.fe.xfers.filter (fun t => match t.kind with | .segment g _ => g ≠ h | _ => true) } }

/-- A replay confirms its request (R411). -/
def confirmed (r : Req) : Bool :=
  !r.suspect && sha3 r.inMsg == r.firstIn && (r.rmode ≠ 2 || sha3 r.outMsg == r.firstOut)

/-- Status of a launch that ends in slot `v` (R408, R411). -/
def launchStatus (r : Req) (v : Slot) : Status :=
  match r.endSt with
  | some e => e
  | none =>
    if v.endExc ≠ 0 then v.endExc
    else if r.replay = 2 ∧ !confirmed r then stReplayMismatch
    else if r.poisoned ∨ r.suspect then stPoison
    else if v.exc = stMisaligned then stMisaligned
    else 0

/-- The record and the counts of a replay that has ended (R410, R411, R415). -/
def noteReplay (s : State) (r : Req) (st : Status) : State :=
  if r.replay ≠ 2 then s
  else
    let ok := st ≠ stReplayMismatch && r.endSt.isNone && confirmed r
    let s := logEv s { cls := 11, block := blkIG, location := r.firstCore + 2 * r.core
                       detail := if !ok then 3 else if r.rmode = 2 then 2 else 1, req := some r.handle, status := st }
    if ok && r.rmode == 2 then cnt s aIgCntReplayAgree else s

/-- A launch whose first run reported a residue mismatch goes to wait for its replay (R409, R410). -/
def toReplay (s : State) (r : Req) : State :=
  let s := dropIssue (dropSegs (drainReq s r.handle) r.handle) r.handle
  let s := updReq s r.handle (fun r => { r with
    replay := 1, firstIn := sha3 r.inMsg, firstOut := sha3 r.outMsg, firstCore := r.core
    ranges := [], dueCtrs := [] })
  freeSlot s r.core r.slot

/-- Every input segment of a launch has landed. The input digest takes each of them, whatever the code waited for, so
a launch that END has stopped ends no earlier (R179, R239, R244; log entry 142). -/
def allLanded (r : Req) : Bool := prefixOf r.landed r.segs.length == r.segs.length

/-- A launch may end: it is ending, or END has stopped it and every range has been read and every segment has landed. -/
def mayFinish (s : State) (r : Req) : Bool :=
  let v := cslot (core s r.core) r.slot
  let queued := (core s r.core).issueQ.any (fun e => match e with | .out g _ _ _ _ => g == r.handle | _ => false)
  v.st == .ending || (v.atEnd && r.ranges.isEmpty && !queued && allLanded r)

/-- A launch ends, with nothing of it under way: replay or status, tally, and its slot is freed (R226, R238 to R243,
R408 to R412). -/
def endNow (s : State) (h : Half) (byEnd : Bool) : State :=
  match req s h with
  | none => s
  | some r =>
    let v := cslot (core s r.core) r.slot
    if r.endSt.isNone ∧ v.endExc = 0 ∧ r.reported ∧ r.replay = 0 ∧ r.rmode ≠ 0 then toReplay s r
    else
      let st := launchStatus r v
      let off := match r.outs.head? with | some o => o.off | none => 0
      let w := writeTally s r off st
      let s := noteReplay w.1 r w.2
      let s := endColls (dropIssue (dropSegs (drainReq s h) h) h) r byEnd
      let s := if byEnd then s else cnt s (coreReg r.core aSqCntEnded)
      let s := freeSlot s r.core r.slot
      let s := updReq s h (fun r => { r with
        done := true, ranges := [], dueCtrs := [], replay := if r.replay = 2 then 3 else r.replay })
      settle (sweepVersions (finish s r.q.toNat r.n w.2))

/-- A launch that is ending, or whose END finds every range read and every segment landed, ends once its bundle is
closed and what it has under way is done (R179, R233). -/
def launchEnds (s : State) (h : Half) : State :=
  match req s h with
  | none => s
  | some r =>
    if r.kind ≠ .launch ∨ r.done ∨ (cslot (core s r.core) r.slot).req ≠ h then s
    else
      let trap := match (core s r.core).opened with | some o => o.slot == r.slot && o.ends.isSome | none => false
      let s := if trap then closeB s r.core else s
      if !mayFinish s r then s
      else
        let v := cslot (core s r.core) r.slot
        let byEnd := v.atEnd && v.st != .ending
        endNow (finishOwn (closeOwn s r.core r.slot) r.core r.slot) h byEnd

/-- LAUNCH_END. -/
def execLaunchEnd (h : Half) (s : State) : Out := .next (launchEnds s h)

/-- Cores on which a replay may run: those where every version that the request references is undamaged (R405, R410). -/
def replayCores (s : State) (r : Req) (v : Version) : List Nat :=
  (soundCores v).filter (fun k => unitWorld s k == r.world &&
    r.kind2.all (fun x => match verOf s x.1 x.2 with | some u => (soundCores u).contains k | none => false))

/-- REPLAY: a launch that waits for its replay is admitted again: on the other core if it may run there; with no
undamaged core left it ends (R405, R410). -/
def execReplay (h : Half) (s : State) : Out :=
  .next (match req s h with
    | none => s
    | some r =>
      match r.replay, cmd s r.q.toNat r.n, verOf s r.gid r.ver with
      | 1, some c, some v =>
        let other := 1 - r.firstCore
        let cs := replayCores s r v
        let k := if cs.contains other && rb s (coreReg other aSqCtl) 0 0 then other else r.firstCore
        if cs.isEmpty then abortCmd s r.q.toNat r.n stPoison
        else if !cs.contains k then s
        else match coreRoom s k (gBuf v.image) with
        | none => s
        | some (slot, base) =>
          let folds := r.ctxs.map (·.1)
          match bindCtxs s h folds (gCtxN v.image) with
          | none => s
          | some (s, ctxs) =>
            let r := { r with
              core := k, slot := slot, ctxs := ctxs, replay := 2, reported := false, suspect := false, poisoned := false
              landed := [], inMsg := inStart r.scalars (lNseg c), outMsg := []
              outs := r.outs.map (fun o => { o with off := 0 }) }
            let s := updReq s h (fun _ => r)
            let s := updCore s k (fun x => cupdSlot x slot (fun u => { u with win := mset none u.win 1 (some { base := base, size := gBuf v.image, wr := true }) }))
            cnt (fillSlot s c v r) aIgCntReplay
      | _, _, _ => s)

end Sys2Proof.Machine
end

