-- ==== Sys2Proof/Machine/Np.lean ====
section
/-! DEFINITION. The network ports: frames that arrive, queue pairs, congestion and flow control, device time,
the claim, the owner lease and client sessions (R254 to R257, R283 to R309, R331). -/

namespace Sys2Proof.Machine

/-! ## Links and frames (R283 to R285) -/

/-- MAC_LINK_CHANGE: a link goes down or comes up; queue pairs are not reset (R283, R309). MAC 8 comes up with its boot
address while no address of it has been written (R466); in HALT none comes up (R465). -/
def execMacLinkChange (mac : Fin 9) (up : Bool) (s : State) : Out :=
  .next (if up ∧ (!macOn s mac ∨ stage s = 15) then s
    else if mac.val = 8 ∧ up ∧ ((macWords s 8).take 7).all (· == 0) then bootMac s
    else setMac s mac up)

/-- NP_PORT_CFG written: a change of MODE takes the port's links down with every frame in flight, and they train again
(R283); where PFC_EN is cleared or PFC_PRIO changes, no pause of the old setting holds on (R295). -/
def wrPortCfg (s : State) (a : Acc) (p : Nat) (v : Word) : State :=
  secureOnly s a blkNP 0 (aNpPortCfg0 + 4 * p) (fun s =>
    let old := portMode s p
    let pfc := rf s (aNpPortCfg0 + 4 * p) 0 5 2
    let s := rset s (aNpPortCfg0 + 4 * p) 0 (v.toNat % 128)
    let s := if portMode s p ≠ old then dropHeld (setMac (setMac s (2 * p) false) (2 * p + 1) false) p else s
    if rf s (aNpPortCfg0 + 4 * p) 0 5 2 ≠ pfc ∧ pfc % 2 = 1 then unpause s p else s)

/-- NP_PORT_MODE. -/
def execNpPortMode (a : Acc) (port : Fin 4) (v : Word) (s : State) : Out :=
  .next (acc1 s a (fun s => wrPortCfg s a port v))

/-- NEIGHBOUR_DISCOVERY: ARP or neighbour discovery for an address of the MAC is answered with its MAC address; any
other is dropped and counted (R285, R466). -/
def execNeighbourDiscovery (fr : Frame) (ipv6 : Bool) (addr : Bytes) (s : State) : Out :=
  .next (rxFrame s fr (fun s =>
    let l := macLive s fr.mac
    let own := if ipv6 then macBytes l 3 4 else macBytes l 2 1
    if addr = own ∧ own.any (· != 0) then emit s (.ndAnswer fr.mac ((macBytes l 0 2).take 6)) else rxDrop s))

/-- PAUSE_FRAME: dropped and counted (R284). -/
def execPauseFrame (mac : Fin 9) (s : State) : Out := .next (if linkOn s mac then rxDrop s else s)

/-! ## Packets for a queue pair (R286, R291) -/

/-- An immediate of a received packet is discarded and counted (R286). -/
def dropImm (s : State) (k : Pkt) : State := if k.imm then cnt s aNpCntRxDiscard else s

/-- A received WRITE of `n` bytes, in PSN order; a repeated one is acknowledged (R286, R289). -/
def rxWrite (s : State) (i n : Nat) (k : Pkt) (g : State → State) : State :=
  rxReq s i (pkts s i n) (pkts s i n) k (fun s => ackTo s i k.psn) (fun s => g (dropImm s k))

/-- A NAK Invalid Request, which sends the queue pair to ERROR (R289). -/
def nakInvalid (s : State) (i : Nat) (psn : BitVec 24) : State :=
  settle (qpError (sendQp s i psn (.nak (BitVec.ofNat 13 i) .invalidRequest)) i 5)

/-- READs of peers that a queue pair has not answered. -/
def peerReads (s : State) (i : Nat) : Nat :=
  (s.fe.xfers.filter (fun t => t.kind == .peer && t.read && t.pieces.any (fun p => p.toNat == i))).length

/-- A received READ of `n` bytes, in PSN order; a repeated one is served again, and one beyond the 16 that a queue pair
allows is an invalid request (R289, log entry 147). -/
def rxRead (s : State) (i n : Nat) (k : Pkt) (g : State → State) : State :=
  let h (s : State) : State := if 16 ≤ peerReads s i then nakInvalid s i k.psn else g s
  rxReq s i 1 (pkts s i n) k h h

/-- A queue pair in RTS has another role than a row serves: the packet is another row's. One that is not in RTS drops it
and counts it, whatever its role (R287, R291). -/
def otherRole (s : State) (i r : Nat) : Bool := qpRts s i && qpRole s i != r

/-- SEND_RECEIVED: acknowledged, its payload and any immediate discarded and counted (R286). -/
def execSendReceived (m : SendMsg) (s : State) : Out :=
  .next (rxWrite s m.rx.qp.toNat m.len m.rx.pkt (fun s => ackTo (cnt s aNpCntRxDiscard) m.rx.qp.toNat m.rx.pkt.psn))

/-- ATOMIC_RECEIVED: answered with NAK Invalid Request, which sends the queue pair to ERROR (R286, R289). -/
def execAtomicReceived (rx : QpPkt 13) (s : State) : Out :=
  .next (rxReq s rx.qp.toNat 1 1 rx.pkt (fun s => nakInvalid s rx.qp.toNat rx.pkt.psn) (fun s => nakInvalid s rx.qp.toNat rx.pkt.psn))

/-! ## Sessions (R304 to R307) -/

/-- A session is live; session 0 while the owner lease holds (R304). -/
def sesLive (s : State) (i : Nat) : Bool := if i = 0 then s.np.owned && !s.np.lapsed else (session s i).live

/-- A session's lease renewed, up to the cycle of its expiry (R302, R306). -/
def renewSession (s : State) (i : Nat) : State :=
  if i = 0 ∨ (session s i).expiry < slow s then s else updSession s i (fun x => { x with expiry := slow s + leaseCyc (rv s aNpSesPeriod i) })

/-- A session's doorbell window is exposed on a queue pair to an access with an R_Key at an address range
(R305). -/
def inWindow (s : State) (i : Nat) (rkey : Word) (va n : Nat) : Bool :=
  let k := qpSession s i
  k ≠ 0 && sesLive s k && (session s k).key == rkey && va + n ≤ 0x2008

/-- A WRITE to the keepalive word (R306). -/
def keepWrite (s : State) (i : Nat) (data : Bytes) : State :=
  if data.length = 8 ∧ leNat data = 0 then renewSession s (qpSession s i) else cnt s aNpCntRxDiscard

/-- A WRITE in the doorbell part of the window judged (R256, R257, R306). -/
def doorWrite (s : State) (i va : Nat) (data : Bytes) (imm : Bool) : State :=
  let v := leNat data
  let q := v % 1024
  if imm ∨ data.length ≠ 8 ∨ va % 8 ≠ 0 ∨ q ≠ va / 8 ∨ !dbOk s v ∨ (queue s q).session.toNat ≠ qpSession s i ∨ q = 0 then
    cnt s aFeCntDbBad
  else renewSession (judgeDb s q (bits v 25 10)) (qpSession s i)

/-- DOORBELL: a WRITE in the window of a session; the doorbell is judged, and one that passes R256 renews the
lease (R254 to R257, R286, R305, R306). -/
def execDoorbell (q : BitVec 12) (k : Pkt) (rkey : Word) (va : Dword) (data : Bytes) (s : State) : Out :=
  .next (let i := q.toNat
    if otherRole s i 1 then s
    else rxWrite s i data.length k (fun s =>
      if !inWindow s i rkey va.toNat data.length then nakAccess s i k.psn
      else
        let s := if 0x2000 ≤ va.toNat then keepWrite s i data else doorWrite s i va.toNat data k.imm
        ackTo s i k.psn))

/-- KEEPALIVE: a WRITE to the keepalive word renews the session's lease, or is discarded and counted
(R306). -/
def execKeepalive (rx : QpPkt 12) (rkey : Word) (data : Bytes) (s : State) : Out :=
  .next (let i := rx.qp.toNat
    if otherRole s i 1 then s
    else rxWrite s i data.length rx.pkt (fun s =>
      if !inWindow s i rkey 0x2000 data.length then nakAccess s i rx.pkt.psn
      else ackTo (keepWrite s i data) i rx.pkt.psn))

/-- SESSION_WINDOW_READ: a READ on a Session queue pair, or an access to one whose session is not live, is
answered with a NAK Remote Access Error (R305). -/
def execSessionWindowRead (rx : QpPkt 12) (_rkey : Word) (_va : Dword) (len : Nat) (s : State) : Out :=
  .next (if otherRole s rx.qp.toNat 1 then s else rxRead s rx.qp.toNat len rx.pkt (fun s => nakAccess s rx.qp.toNat rx.pkt.psn))

/-- What a requester loses when its queue pair goes to RESET: its selectors, its latches and its held half of a
doorbell (R255, R509). -/
def forgetWho (s : State) (i : Nat) : State :=
  let drop {α : Type} (m : Map α) : Map α := m.filter (fun (k, _) => k / 2 ^ 32 ≠ i)
  { s with sels := drop s.sels, latches := drop s.latches, fe := { s.fe with dbLo := mset none s.fe.dbLo i none } }

/-- A queue pair goes to RESET from any state; its transfers fail (R288, R290). -/
def qpReset (s : State) (i : Nat) : State :=
  let was := (qp s i).st
  let s := updQp s i (fun p => { p with st := .reset, cause := 0, retries := 0, rnr := 0 })
  let s := if was = .rts then qpDown s i else s
  forgetWho (updQp s i (fun _ => {})) i

/-- A session ends by lapse or CLOSE (R307). -/
def closeSession (s : State) (i : Nat) : State :=
  if i = 0 ∨ !(session s i).live then s
  else
    let qs := (s.fe.queues.filter (fun (_, u) => u.st ≠ .disabled && u.session.toNat == i)).map (·.1)
    let s := (qs.filter (· ≠ 0)).foldl (fun s q => dropQueue s q stAborted) s
    let ps := (List.range 4096).filter (fun p => qpRole s p == 1 && qpSession s p == i && (qp s p).st ≠ .reset)
    let s := ps.foldl qpReset s
    let s := setSession s i { openFail := (session s i).openFail }
    resume (settle (cnt s aNpCntSesLapse))

/-- SESSION_LEASE_EXPIRE: the cycle of the session's expiry is over, and no renewal in it has moved it (R302, R306,
R307). -/
def execSessionLeaseExpire (ses : BitVec 10) (s : State) : Out :=
  .next (if closed s ∨ slow s ≤ (session s ses.toNat).expiry then s else closeSession s ses.toNat)

/-- OPEN of a session: one with a queue pair of its own in RTS becomes live (R304). -/
def openSession (s : State) (i : Nat) : State :=
  if i = 0 ∨ (session s i).live then s
  else if (List.range 4096).any (fun p => qpRole s p == 1 && qpSession s p == i && qpRts s p) then
    updSession s i (fun x => { x with live := true, expiry := slow s + leaseCyc (rv s aNpSesPeriod i) })
  else updSession s i (fun x => { x with openFail := true })

/-- NP_SES_CTL written: OPEN acts on a session that is not live, CLOSE on a live one (R304, R307). -/
def wrSesCtl (s : State) (a : Acc) (v : Word) : State :=
  let i := selOf s a.who aNpSesSel % 1024
  if !a.secure then s
  else if (session s i).live then (if bit v.toNat 1 then closeSession s i else s)
  else if bit v.toNat 0 then openSession s i else s

/-- NP_SES_OPEN. -/
def execNpSesOpen (a : Acc) (v : Word) (s : State) : Out := .next (acc1 s a (fun s => wrSesCtl s a v))

/-- NP_SES_CLOSE. -/
def execNpSesClose (a : Acc) (v : Word) (s : State) : Out := .next (acc1 s a (fun s => wrSesCtl s a v))

/-! ## Queue pairs (R287 to R290) -/

/-- A queue pair enters RTS, its rate the line rate of its MAC and its PSNs as set (R288, R294). -/
def qpEnable (s : State) (i : Nat) : State :=
  if (qp s i).st ≠ .reset ∨ qpRole s i = 0 then s
  else setQp s i { st := .rts, rate := lineRate s (rf s aNpQpCfg i 4 2), epsn := BitVec.ofNat 24 (rv s aNpQpRpsn i)
                   spsn := BitVec.ofNat 24 (rv s aNpQpSpsn i) }

/-- NP_QP_CTL written: RESET takes precedence (R288). -/
def wrQpCtl (s : State) (a : Acc) (v : Word) : State :=
  let i := selIx s a.who aNpQpSel
  if !a.secure then s
  else if bit v.toNat 1 then settle (qpReset s i)
  else if bit v.toNat 0 then qpEnable s i else s

/-- NP_QP_ENABLE. -/
def execNpQpEnable (a : Acc) (v : Word) (s : State) : Out := .next (acc1 s a (fun s => wrQpCtl s a v))

/-- NP_QP_RESET. -/
def execNpQpReset (a : Acc) (v : Word) (s : State) : Out := .next (acc1 s a (fun s => wrQpCtl s a v))

/-- The oldest piece that a transfer has on a queue pair is acknowledged; a sync point that noted it waits for it no
longer (R289, R328). -/
def ackPiece (s : State) (i x : Nat) : State :=
  let s := { s with xl := { s.xl with syncs := s.xl.syncs.map (fun (n, xs) => (n, xs.map (fun (y, l) =>
    (y, if y = x then l.eraseP (fun p => p.toNat == i) else l)))) } }
  let s := updXfer s x (fun t => { t with pieces := t.pieces.eraseP (fun p => p.toNat == i) })
  closeXfer s x

/-- ACK_RECEIVED: the oldest outstanding messages of the queue pair are acknowledged (R289). -/
def execAckReceived (rx : QpPkt 13) (count : Nat) (s : State) : Out :=
  .next (let i := rx.qp.toNat
    rxPkt s i 1 rx.pkt (fun s =>
      let l := (qp s i).out
      let s := updQp s i (fun p => { p with out := l.drop count, retries := 0, rnr := 0 })
      (l.take count).foldl (fun s o => ackPiece s i o.x) s))

/-- Something sent on a queue pair is not acknowledged, or a READ of it not answered. -/
def waitsOn (s : State) (i : Nat) : Bool := !(qp s i).out.isEmpty || readsOn s i ≠ 0

/-- Everything unacknowledged sent again, go-back-N (R289). -/
def goBack (s : State) (i : Nat) : State := sendQp (cnt s aNpCntRetry) i 0 (.resend (BitVec.ofNat 13 i))

/-- A transport retry: everything is sent again, or the queue pair goes to ERROR when its retries are used up (R289). -/
def retryQp (s : State) (i : Nat) : State :=
  if rf s aNpQpTmo i 7 5 ≤ (qp s i).retries then settle (qpError s i 1)
  else goBack (updQp s i (fun p => { p with retries := p.retries + 1 })) i

/-- ACK_TIMEOUT: the queue pair retransmits, or goes to ERROR when its retries are used up; 7 RNR retries are
without limit (R289, R309). -/
def execAckTimeout (q : BitVec 13) (rnr : Bool) (s : State) : Out :=
  .next (let i := q.toNat
    let p := qp s i
    if !qpRts s i ∨ !waitsOn s i then s
    else if rnr then
      let lim := rf s aNpQpTmo i 10 8
      if lim ≠ 7 ∧ lim ≤ p.rnr then settle (qpError s i 2) else goBack (updQp s i (fun p => { p with rnr := p.rnr + 1 })) i
    else retryQp s i)

/-- NAK_RECEIVED: a sequence error is recovered go-back-N and takes a retry, any other NAK sends the queue pair to
ERROR (R289). -/
def execNakReceived (rx : QpPkt 13) (e : Nak) (s : State) : Out :=
  .next (rxPkt s rx.qp.toNat 1 rx.pkt (fun s => match e with
    | .sequence => if waitsOn s rx.qp.toNat then retryQp s rx.qp.toNat else s
    | .remoteAccess => settle (qpError s rx.qp.toNat 3)
    | .invalidRequest => settle (qpError s rx.qp.toNat 4)))

/-! ## Congestion (R293 to R295) -/

/-- CE_MARKED_PACKET: the mark of a packet that another command brings; a CNP goes to the remote side, at most one per
CNP_GAP µs (R293). -/
def execCeMarkedPacket (rx : QpPkt 13) (s : State) : Out :=
  .next (let i := rx.qp.toNat
    let gap := rf s aNpCcCfg 0 10 3 * 1000
    let free := match (qp s i).cnpAt with | some t => t.toNat + gap ≤ now s | none => true
    if closed s || !linkOn s rx.pkt.frame.mac || rx.pkt.frame.fec || !frameOk s rx.pkt.frame || !rx.pkt.rc || !qpRts s i || !pktFrom s i rx.pkt ||
      !free then s
    else sendQp (cnt (updQp s i (fun p => { p with cnpAt := some s.np.ns })) aNpCntCnpTx) i 0 (.cnp (BitVec.ofNat 13 i)))

/-- CNP_RECEIVED: with CC_EN the rate of a data-port queue pair falls by 2^−CUT, not below 1 Gbit/s (R294). -/
def execCnpReceived (rx : QpPkt 13) (s : State) : Out :=
  .next (let i := rx.qp.toNat
    rxPkt s i 1 rx.pkt (fun s =>
      let s := cnt s aNpCntCnpRx
      if !rb s aNpCcCfg 0 27 ∨ i = 4096 then s
      else updQp s i (fun p => { p with rate := max 1 (p.rate * (1 - 1 / (2 : Rat) ^ (max 1 (rf s aNpCcCfg 0 2 0)))) })))

/-- RATE_INCREASE: a quiet period raises the rate by INC, up to the line rate (R294). -/
def execRateIncrease (q : BitVec 12) (s : State) : Out :=
  .next (let i := q.toNat
    if !qpRts s i || !rb s aNpCcCfg 0 27 then s
    else updQp s i (fun p => { p with rate := min (lineRate s (rf s aNpQpCfg i 4 2)) (p.rate + rf s aNpCcCfg 0 18 11) }))

/-- PFC is on at a port for a priority. -/
def pfcFor (s : State) (p : Nat) (prio : BitVec 3) : Bool :=
  rb s (aNpPortCfg0 + 4 * p) 0 2 && rf s (aNpPortCfg0 + 4 * p) 0 5 3 == prio.toNat

/-- A MAC of a port is up. -/
def portUp (s : State) (p : Nat) : Bool := linkOn s (2 * p) || linkOn s (2 * p + 1)

/-- PFC_XOFF: the port's RoCEv2 priority pauses, unless PFC is ignored; a frame for another priority is dropped
and counted (R295). -/
def execPfcXoff (port : Fin 4) (prio : BitVec 3) (s : State) : Out :=
  .next (if !portUp s port then s
    else if !pfcFor s port prio then rxDrop s
    else if mget false s.np.pfcIgnore port then s
    else { s with np := { s.np with paused := mset false s.np.paused port true } })

/-- PFC_XON: the priority resumes with what the pause held, and PFC is honoured again (R295). -/
def execPfcXon (port : Fin 4) (prio : BitVec 3) (s : State) : Out :=
  .next (if !portUp s port then s
    else if !pfcFor s port prio then rxDrop s
    else unpause { s with np := { s.np with pfcIgnore := mset false s.np.pfcIgnore port false } } port)

/-- PFC_STUCK: an XOFF held beyond 100 ms is treated as stuck (R295). -/
def execPfcStuck (port : Fin 4) (s : State) : Out :=
  .next (if !mget false s.np.paused port then s
    else
      let s := unpause { s with np := { s.np with pfcIgnore := mset false s.np.pfcIgnore port true } } port
      rsetF s (aNpPortStat0 + 4 * port) 0 3 3 1)

/-! ## Device time (R296 to R298) -/

/-- A PTP message is the selected one: on the MAC of SOURCE, over TRANSPORT, in DOMAIN (R297, R309). -/
def ptpMine (s : State) (fr : Frame) (domain : Byte) (ieee : Bool) : Bool :=
  rb s aNpPtpCtl 0 0 && rf s aNpPtpCtl 0 4 1 == fr.mac.val && rb s aNpPtpCtl 0 5 == ieee && rf s aNpPtpCtl 0 13 6 == domain.toNat

/-- PTP_MESSAGE: a Sync is followed by a delay request, and the measured offset is taken; 16 synchronisations in a row
within 1 µs lock, and the first lock after reset steps the counter forward to PTP time. The rate follows within
±200 ppm, and stays where the offset exceeds 1 µs (R297, R298). -/
def execPtpMessage (h : PtpHdr) (offset : Int) (time : Dword) (rate : Int) (s : State) : Out :=
  .next (rxFrame s h.frame (fun s => if !ptpMine s h.frame h.domain h.ieee then rxDrop s
    else
      let s := if h.sync then emit s (.ptpDelayReq h.frame.mac h.domain.toNat h.ieee) else s
      let run := if 1000 < offset.natAbs then 0
      else if !h.sync then s.np.ptpRun else if offset.natAbs < 1000 then s.np.ptpRun + 1 else 0
      let s := { s with np := { s.np with
        ptpOffset := max (-2147483648) (min 2147483647 offset), ptpRun := run
        ptpRate := if 1000 < offset.natAbs then s.np.ptpRate else max (-200000) (min 200000 rate) } }
      if 1000 < offset.natAbs then
        let s := if rb s aNpPtpStat 0 0 then rsetF s aNpPtpStat 0 2 2 1 else s
        rsetF s aNpPtpStat 0 0 0 0
      else if 16 ≤ run then
        let s := if rb s aNpPtpStat 0 1 then s
          else { s with np := { s.np with ns := if s.np.ns.toNat < time.toNat then time else s.np.ns } }
        rsetF s aNpPtpStat 0 2 0 3
      else s))

/-- PTP_SYNC_LOSS: the clock holds over at its last rate (R297). -/
def execPtpSyncLoss (s : State) : Out :=
  .next (let s := { s with np := { s.np with ptpRun := 0 } }
    if rb s aNpPtpStat 0 0 then rsetF (rsetF s aNpPtpStat 0 0 0 0) aNpPtpStat 0 2 2 1 else s)

/-- NP_PTP_CTL written: the settings, and STEP_BACK, which steps the counter back to PTP time only while no
command is outstanding (R298). The offset is that of the counter from the master. -/
def wrPtpCtl (s : State) (a : Acc) (v : Word) : State :=
  secureOnly s a blkNP 0 aNpPtpCtl (fun s =>
    let s := rset s aNpPtpCtl 0 (v.toNat % 2 ^ 14)
    if !bit v.toNat 14 then s
    else if !s.fe.cmds.isEmpty then rsetF s aNpPtpStat 0 3 3 1
    else if 0 < s.np.ptpOffset then
      { s with np := { s.np with ns := BitVec.ofNat 64 (s.np.ns.toNat - s.np.ptpOffset.toNat), ptpOffset := 0 } }
    else s)

/-- STEP_BACK. -/
def execStepBack (a : Acc) (v : Word) (s : State) : Out := .next (acc1 s a (fun s => wrPtpCtl s a v))

/-! ## The claim and the owner lease (R299 to R303) -/

/-- A claim datagram is valid (R300). -/
def claimOk (d : Bytes) : Bool :=
  d.length == 64 && fld d 0 1 == 1 && fld d 1 3 == 0 && fld d 27 1 == 0 && fld d 31 1 == 0 && fld d 36 28 == 0 &&
    1 ≤ fld d 23 1 && fld d 23 1 ≤ 3 && 100 ≤ fld d 32 4 && fld d 32 4 ≤ 60000

/-- A GID is an IPv4-mapped IPv6 address. -/
def gidV4 (g : Bytes) : Bool := (g.take 10).all (· == 0) && fld g 10 2 == 0xFFFF

/-- CLAIM: on the management port of a part that is READY and has no owner, a valid claim configures the management
queue pair, moves it to RTS and starts the owner lease; any other is dropped and counted (R285, R300, R457, R468). -/
def execClaim (m : ClaimMsg) (s : State) : Out :=
  .next (rxFrame s m.frame (fun s => if m.frame.mac.val ≠ 8 then rxDrop s
    else if closed s ∨ stage s ≠ 8 ∨ s.np.owned ∨ !claimOk m.data then cnt s aNpCntClaimIgn
    else
      let g := slice m.data 4 16
      let s := rset s aNpQpCfg 4096 (3 + 32 * fld m.data 23 1 + 128 * b2n (!gidV4 g))
      let s := rset s aNpQpRqpn 4096 (fld m.data 20 3)
      let s := rset s aNpQpRpsn 4096 (fld m.data 24 3)
      let s := rset s aNpQpSpsn 4096 (fld m.data 28 3)
      let s := rsetBytes s aNpQpRgid0 4096 g
      let s := setQp s 4096 { st := .rts, epsn := BitVec.ofNat 24 (fld m.data 24 3), spsn := BitVec.ofNat 24 (fld m.data 28 3) }
      let s := rset s aNpLeaseTimeout 0 (fld m.data 32 4)
      setStage { s with np := { s.np with owned := true, expiry := slow s + leaseCyc (fld m.data 32 4) } } 9))

/-- NP_LEASE_RENEW written: RENEW from the secure world renews a lease, up to the cycle of its expiry (R301, R302). -/
def wrLeaseRenew (s : State) (a : Acc) (v : Word) : State :=
  if !a.secure ∨ !bit v.toNat 0 ∨ !s.np.owned ∨ s.np.lapsed ∨ s.np.expiry < slow s then s
  else { s with np := { s.np with expiry := slow s + leaseCyc (rv s aNpLeaseTimeout) } }

/-- NP_LEASE_RENEW. -/
def execNpLeaseRenew (a : Acc) (v : Word) (s : State) : Out := .next (acc1 s a (fun s => wrLeaseRenew s a v))

/-- OWNER_LEASE_EXPIRE: the cycle of the expiry is over, and no renewal in it has moved it: the lease lapses, and the
part resets itself: every command ends with ST_LEASE_LOST, keys are zeroised, and the clearing begins (R302, R303). -/
def execOwnerLeaseExpire (s : State) : Out :=
  .next (if !s.np.owned ∨ s.np.lapsed ∨ slow s ≤ s.np.expiry then s else startOrderly s 2 stLeaseLost)

/-! ## Peers (R308, R331) -/

/-- A peer access that fails at its window: cause 8, recorded and answered with a NAK. -/
def peerDeny (s : State) (i w va : Nat) (write : Bool) (psn : BitVec 24) : State :=
  nakAccess (fqWrite (cnt s aXlCntFault)
    { status := stXlatFault.toNat, kind := 1, cause := 8, source := if write then 8 else 7, cid := rf s aXlMwCfg w 15 4, secure := false
      addr := va, who := i }) i psn

/-- PEER_WINDOW_ACCESS: a READ or WRITE through a memory window is checked, translated piece by piece, and made
or refused, behind those that its queue pair has not answered yet (R289, R329, R331). -/
def execPeerWindowAccess (rx : QpPkt 12) (write : Bool) (rkey : Word) (va : Dword) (len : Nat) (data : Bytes)
    (s : State) : Out :=
  .next (let i := rx.qp.toNat
    let n := if write then data.length else len
    if otherRole s i 2 then s
    else (if write then rxWrite s i n rx.pkt else rxRead s i n rx.pkt) (fun s =>
      let w := rkey.toNat % 4096
      let base := (rv64 s aXlMwBaseLo w) / 4096 * 4096
      if !rb s aXlMwCfg w 0 ∨ rkey.toNat / 4096 ≠ rf s aXlMwTag w 19 0 ∨ rf s aXlMwCfg w 27 16 ≠ i ∨
          va.toNat < base ∨ base + 4096 * rv s aXlMwPages w < va.toNat + n ∨ !rb s aXlMwCfg w (if write then 2 else 1) then
        peerDeny s i w va.toNat write rx.pkt.psn
      else
        let x := s.fe.nextXfer
        let t : Xfer := { id := x, kind := .peer, read := !write, q := 0, n := 0, cid := BitVec.ofNat 12 (rf s aXlMwCfg w 15 4)
                          secure := false, addr := va, left := n, data := data, pieces := [BitVec.ofNat 13 i], psn := rx.pkt.psn }
        let s := { s with fe := { s.fe with nextXfer := x + 1, xfers := s.fe.xfers ++ [t] } }
        if mayIssue s t then peerRun (n / 4096 + 3) s t false else s))

end Sys2Proof.Machine
end

