-- ==== Sys2Proof/Machine/RuOps.lean ====
section
/-! DEFINITION. Operations of the row update engines: masters, the derivation of working copies, journal and
delta records, the steps of an UPDATE on a row, drops and class changes (R46, R99 to R122, R146, R151,
R406, R511). -/

namespace Sys2Proof.Machine

/-! ## Masters (R101, R103, R105) -/

/-- Bytes of a master record. -/
def masterSize (d : Bytes) : Nat := 64 + (if dOpt d = 2 then 12 else 4) * dDim d

/-- Set of the master index of a row (R103). -/
def mSet (tid : Nat) (img : Bool) (r : Nat) : Nat :=
  (r * 0x9E3779B1 + tid * 0x85EBCA77 + b2n img * 0xC2B2AE3D) % 2 ^ 32 / 2 ^ 14

/-- A master belongs to an image. -/
def mOf (m : Master) (tid : Nat) (img : Bool) : Bool := m.tid.toNat == tid && m.img == img && !m.lost

/-- The master of a row. -/
def masterOf (x : Fold) (tid : Nat) (img : Bool) (r : Nat) : Option Master :=
  x.masters.find? (fun m => mOf m tid img && m.row.toNat == r)

/-- The master of a row changed. -/
def updMaster (s : State) (f tid : Nat) (img : Bool) (r : Nat) (g : Master → Master) : State :=
  updFold s f (fun x => { x with masters := updFirst (fun m => mOf m tid img && m.row.toNat == r) g x.masters })

/-- The master of a row dropped. -/
def delMaster (s : State) (f tid : Nat) (img : Bool) (r : Nat) : State :=
  updFold s f (fun x => { x with masters := x.masters.filter (fun m => !(mOf m tid img && m.row.toNat == r)) })

/-- Bytes of a fold's master pool in use, those of a staged image of `tid` apart when `apart` holds. -/
def masterUsed (s : State) (f tid : Nat) (apart : Bool) : Nat :=
  ((fold s f).masters.map (fun m =>
    let t := table s m.tid.toNat
    if apart && m.tid.toNat == tid && t.staged && t.stagedIn == m.img then 0
    else match imgOf t m.img with | some im => masterSize im.desc | none => 0)).sum

/-- Bytes of a fold's master pool. -/
def masterPool (s : State) (f : Nat) : Nat := rf s (foldReg f aRuMasterPool) 0 15 0 * 2 ^ 20

/-- Admissions that UPDATEs under way have journaled and not yet seeded. -/
def unseeded (x : Fold) : List Jrec :=
  x.journal.filter (fun j => j.kind == 2 && (masterOf x j.tid.toNat j.img j.row.toNat).isNone)

/-- Bytes of masters that they will take. -/
def unseededBytes (s : State) (l : List Jrec) : Nat :=
  (l.map (fun j => match imgOf (table s j.tid.toNat) j.img with | some im => masterSize im.desc | none => 0)).sum

/-- Rows of a staged image that a fold has still to load. -/
def rowsToLoad (im : Image) (f : Nat) : Nat :=
  ((List.range (rowsOn im.desc f)).filter (fun l => im.rows ≤ rowAt im.desc f l)).length

/-- Bytes of masters that a fold still owes: those of admissions on their way, and those of the rows that SEED_ALL
loads of other tables than `but` have still to land (R104, R105, log entry 48). -/
def masterDue (s : State) (f but : Nat) : Nat :=
  unseededBytes s (unseeded (fold s f)) +
    (s.tables.map (fun (t, tb) => match imgOf tb tb.stagedIn with
      | some im => if t ≠ but && tb.staged && dTrained im.desc && dSeed im.desc then rowsToLoad im f * masterSize im.desc else 0
      | none => 0)).sum

/-- The index set of a row has room. -/
def idxRoom (x : Fold) (tid : Nat) (img : Bool) (r : Nat) : Bool :=
  (x.masters.filter (fun m => !m.lost && mSet m.tid.toNat m.img m.row.toNat == mSet tid img r)).length < 16

/-- Base of the master pool of a fold, below the aside pool (R313). -/
def masterLo (s : State) (f : Nat) : Nat := usable s - asidePast s f - masterPool s f

/-- Address of a master record (R101, log entry 133). -/
def masterAt (s : State) (f tid : Nat) (img : Bool) (r : Nat) : Nat :=
  masterLo s f + 32 * (Config.poolAt ((r * 4096 + tid) * 2 + b2n img) % (masterPool s f / 32 + 1))

/-- The RU's runs on `n` bytes of a row's master record, from byte `off` of it on (R355). -/
def masterRuns (s : State) (f tid : Nat) (img : Bool) (r off n : Nat) (write : Bool) : State :=
  poolRuns s f (masterAt s f tid img r + off) n write

/-- A row's popularity count (R42). -/
def rowCount (s : State) (f : Nat) (im : Image) (tid : Nat) (img : Bool) (r : Nat) : Nat :=
  let x := fold s f
  match probe x tid img r with
  | some k => (dirAt x k).pop.toNat
  | none => effPop x (homeA im f (rowFold im.desc r).2)

/-- FP32 zeros. -/
def zeros (n : Nat) : List Word := List.replicate n 0

/-- A master seeded from a row's working copy; false where that copy reads poisoned (R105, R406). -/
def seedMaster (s : State) (im : Image) (f tid : Nat) (img : Bool) (r : Nat) : State × Bool :=
  let c := wcRead s im f tid img r
  if c.2.2.2 then (c.1, false)
  else
    let d := im.desc
    let wseq : Word := BitVec.ofNat 32 (fld c.2.1 24 4)
    let mo := if dOpt d = 2 then zeros (dDim d) else []
    let m : Master := { row := BitVec.ofNat 32 r, tid := BitVec.ofNat 12 tid, img := img, mseq := wseq, wseq := wseq
                        b1p := 0x3F800000, b2p := 0x3F800000, acc := 0
                        w := (rowVals c.2.2.1 (dGroup d) (dDim d) c.2.1).map (BitVec.ofNat 32), m := mo, v := mo }
    let s := masterRuns (delMaster c.1 f tid img r) f tid img r 0 (masterSize d) true
    (updFold s f (fun x => { x with masters := x.masters ++ [m] }), true)

/-! ## Deriving a working copy (R114, R115) -/

/-- u of R115. -/
def srU (tid row o i : Nat) : Nat :=
  let m (n : Nat) : Nat := n % 2 ^ 32
  let h := Nat.xor (Nat.xor (m (tid * 0x85EBCA77)) (m (row * 0x9E3779B1))) (Nat.xor (m (o * 0xC2B2AE3D)) (m (i * 0x27D4EB2F)))
  let h := m (Nat.xor h (h / 2 ^ 15) * 0x2C1B3C6D)
  let h := m (Nat.xor h (h / 2 ^ 12) * 0x297A2D39)
  Nat.xor h (h / 2 ^ 15) / 2 ^ 8

/-- The choice between two adjacent magnitudes around |x|: true for the larger (R115). -/
def srUp (neg : Bool) (u : Nat) (a x b : Nat × Int) : Bool :=
  let w := dyDist a.1 a.2 b.1 b.2
  let p := if neg then dyDist x.1 x.2 b.1 b.2 else dyDist a.1 a.2 x.1 x.2
  let hi := !(dyLe (p.1 * 2 ^ 24) p.2 (u * w.1) w.2)
  if neg then !hi else hi

/-- The largest index whose decoded magnitude does not exceed |x|: of magnitudes that decode to one value, the highest
(DESIGN CHOICE, log entry 175). -/
def floorIdx (f : QFmt) (t : Fv) (x : Nat × Int) : Nat → Nat → Nat
  | 0, i => i
  | n + 1, i =>
    let v := magOf (fdec F32 (fenc F32 (fvMul (gridVal f (i + 1)) t)))
    if dyLe v.1 v.2 x.1 x.2 then floorIdx f t x n (i + 1) else i

/-- An element encoded with stochastic rounding (R115, R141). -/
def qencSr (f : QFmt) (u super gc x : Nat) : Nat × Bool :=
  if gc = 0 then (0, false)
  else
    let t := fdec F32 (groupT super gc)
    let mag (i : Nat) : Nat × Int := magOf (fdec F32 (fenc F32 (fvMul (gridVal f i) t)))
    let xv := magOf (fdec F32 x)
    let top := nMags f - 1
    let neg := decide (2 ^ 31 ≤ x)
    let tv := mag top
    if !(dyLe xv.1 xv.2 tv.1 tv.2) then (codeOf f neg top, true)
    else
      let i := floorIdx f t xv top 0
      let a := mag i
      if dyLe xv.1 xv.2 a.1 a.2 then (codeOf f neg i, false)
      else (codeOf f neg (if srUp neg u a xv (mag (i + 1)) then i + 1 else i), false)

/-- An element rounded to BF16 stochastically; a NaN, an infinity and a value beyond the largest magnitude
as to nearest even (R115, R144). -/
def bf16Sr (u x : Nat) : Nat :=
  let a := abs32 x
  if 0x7F7F0000 < a ∨ x % 65536 = 0 then toBf16 x
  else
    let neg := decide (2 ^ 31 ≤ x)
    let mag (n : Nat) : Nat × Int := magOf (fdec F32 n)
    let lo := a / 65536
    let up := srUp neg u (mag (lo * 65536)) (mag a) (mag ((lo + 1) * 65536))
    b2n neg * 32768 + (if up then lo + 1 else lo)

/-- A working copy derived from FP32 values at a class; `sr` holds TID and seed epoch when rounding is
stochastic (R114). -/
def deriveRow (d : Bytes) (cls row wseq : Nat) (absRule : Bool) (sr : Option (Nat × Nat)) (vals : List Nat) :
    Bytes × QStats :=
  let g := dGroup d
  match classFmt cls with
  | some f =>
    let enc (i super gc x : Nat) : Nat × Bool := match sr with
      | some (tid, o) => qencSr f (srU tid row o i) super gc x
      | none => qenc f super gc x
    let c := convertWith f absRule (groupSize g) enc {} vals
    (rowSlot cls g (dDim d) row wseq 0 0 c.super c.gcodes (packCodes f c.codes), c.stats)
  | none =>
    let area := match sr with
      | some (tid, o) => vals.zipIdx.flatMap (fun (x, i) => toLE 2 (bf16Sr (srU tid row o i) x))
      | none => bf16Area vals
    (rowSlot cls g (dDim d) row wseq 0 0 0 [] area, {})

/-- The RULE latched for a fold by a table's open epoch (R146). -/
def openRule (s : State) (tid f : Nat) : Bool :=
  match (table s tid).opened with | some o => mget false o.rule f | none => false

/-- Statistics of a conversion added to the fold's registers (R151). -/
def ruStats (s : State) (f : Nat) (q : QStats) : State :=
  if rb s (foldReg f aRuConvCtl) 0 1 && q.count ≠ 0 then addStats s (foldReg f aRuConvSseLo) q else s

/-- A working copy derived in the open epoch of a table, with the statistics of its conversion, which are counted once
the copy is written. -/
def deriveIn (s : State) (im : Image) (f tid row o cls wseq : Nat) (vals : List Nat) : Bytes × QStats :=
  deriveRow im.desc cls row wseq (openRule s tid f) (if dSr im.desc then some (tid, o) else none) vals

/-! ## Journal and delta log (R117, R120, R121) -/

/-- Bytes of a journal record. -/
def jSize (j : Jrec) : Nat := 32 + 4 * j.g.length
/-- Bytes of a delta record. -/
def dSize (d : Delta) : Nat := 32 + 4 * d.d.length

/-- Journal bytes in use. -/
def jUsed (x : Fold) : Nat := (x.journal.map jSize).sum
/-- Delta log bytes in use. -/
def dUsed (x : Fold) : Nat := (x.deltas.map dSize).sum
/-- Bytes of the journal. -/
def jPool (s : State) (f : Nat) : Nat := rf s (foldReg f aRuJrnlSize) 0 12 0 * 2 ^ 20
/-- Bytes of the delta log. -/
def dPool (s : State) (f : Nat) : Nat := rf s (foldReg f aRuDlogSize) 0 15 0 * 2 ^ 20

/-- A journal record as bytes. -/
def jrecBytes (j : Jrec) : Bytes :=
  toLE 4 j.row.toNat ++ toLE 2 (j.tid.toNat + 4096 * b2n j.img) ++ [j.kind, j.arg] ++ toLE 4 j.usn.toNat ++
    toLE 4 j.epoch.toNat ++ toLE 2 j.handle.toNat ++ toLE 14 0 ++ bytesOf j.g

/-- A journal record from its bytes. -/
def jrecOf (b : Bytes) : Jrec :=
  { row := BitVec.ofNat 32 (fld b 0 4), tid := BitVec.ofNat 12 (fld b 4 2), img := bit (fld b 4 2) 12
    kind := BitVec.ofNat 8 (fld b 6 1), arg := BitVec.ofNat 8 (fld b 7 1), usn := BitVec.ofNat 32 (fld b 8 4)
    epoch := BitVec.ofNat 32 (fld b 12 4), handle := BitVec.ofNat 16 (fld b 16 2)
    g := wordsOf ((b.length - 32) / 4) (b.drop 32) }

/-- A delta record as bytes. -/
def deltaBytes (d : Delta) : Bytes :=
  toLE 4 d.row.toNat ++ toLE 2 (d.tid.toNat + 4096 * b2n d.img) ++ toLE 2 0 ++ toLE 4 d.origin.toNat ++
    toLE 4 d.due.toNat ++ toLE 16 0 ++ bytesOf d.d

/-- A delta record from its bytes. -/
def deltaOf (b : Bytes) : Delta :=
  { row := BitVec.ofNat 32 (fld b 0 4), tid := BitVec.ofNat 12 (fld b 4 2), img := bit (fld b 4 2) 12
    origin := BitVec.ofNat 32 (fld b 8 4), due := BitVec.ofNat 32 (fld b 12 4)
    d := wordsOf ((b.length - 32) / 4) (b.drop 32) }

/-- An UPDATE as the RUs carry it: its handle, and whether it came on the pair stream. -/
structure Up where
  h : Half
  mir : Bool
  deriving DecidableEq, Repr

/-- A journal record of an UPDATE. -/
def jMine (u : Up) (j : Jrec) : Bool := j.handle == u.h && j.mir == u.mir

/-- Address of a journal record (R121, R313, log entry 133). -/
def jAt (s : State) (f : Nat) (j : Jrec) : Nat :=
  masterLo s f - jPool s f +
    32 * (Config.poolAt (((j.usn.toNat * 2 ^ 32 + j.row.toNat) * 4096 + j.tid.toNat) * 256 + j.kind.toNat) % (jPool s f / 32 + 1))

/-- Address of a delta record (R117, R313, log entry 133). -/
def dAt (s : State) (f : Nat) (d : Delta) : Nat :=
  masterLo s f - jPool s f - dPool s f +
    32 * (Config.poolAt ((d.origin.toNat * 2 ^ 32 + d.row.toNat) * 4096 + d.tid.toNat) % (dPool s f / 32 + 1))

/-- The RU's runs on a journal record (R355). -/
def jRuns (s : State) (f : Nat) (j : Jrec) (write : Bool) : State := poolRuns s f (jAt s f j) (jSize j) write

/-- The RU's runs on a delta record (R355). -/
def dRuns (s : State) (f : Nat) (d : Delta) (write : Bool) : State := poolRuns s f (dAt s f d) (dSize d) write

/-- A journal record written. -/
def putJ (s : State) (f : Nat) (j : Jrec) : State :=
  updFold (jRuns s f j true) f (fun x => { x with journal := x.journal ++ [j] })

/-- A delta record written (R117). -/
def putD (s : State) (f : Nat) (d : Delta) : State :=
  updFold (dRuns s f d true) f (fun x => { x with deltas := x.deltas ++ [d] })

/-- The records of an UPDATE for a row on a fold, of one kind. -/
def jRows (x : Fold) (u : Up) (kind tid : Nat) (img : Bool) : List Jrec :=
  x.journal.filter (fun j => jMine u j && j.kind.toNat == kind && j.tid.toNat == tid && j.img == img)

/-- The gradient record of a row dropped: its update is discarded (R406). -/
def dropGrad (s : State) (f : Nat) (j : Jrec) : State :=
  updFold s f (fun x => { x with journal := x.journal.filter (fun k =>
    !(k.handle == j.handle && k.mir == j.mir && k.kind == j.kind && k.tid == j.tid && k.img == j.img && k.row == j.row)) })

/-! ## Drops and class changes (R46, R106, R107) -/

/-- A row's master dropped. -/
def dropRow (s : State) (f tid : Nat) (img : Bool) (r : Nat) : State :=
  cnt (delMaster s f tid img r) (foldReg f aRuCntDrop)

/-- A fold's candidates for a drop, in master index order. -/
def dropList (s : State) (u : Up) (im : Image) (f tid : Nat) (img : Bool) : List Master :=
  let x := fold s f
  let d := im.desc
  let mine (r : Nat) : Bool := x.journal.any (fun j => jMine u j && j.kind.toNat ≤ 2 && j.tid.toNat == tid && j.img == img && j.row.toNat == r)
  let ms := x.masters.filter (fun m => mOf m tid img && !mine m.row.toNat && rowCount s f im tid img m.row.toNat < dDrop d &&
    (match probe x tid img m.row.toNat with | some k => (dirAt x k).cls.toNat == dPclass d | none => true))
  if rb s (foldReg f aRuCtl) 0 1 && dDrop d ≠ 0 then
    (sortBy (fun a b => mSet tid img a.row.toNat < mSet tid img b.row.toNat) ms).take 4096
  else []

/-- A pen slot for a row's copy at a new class, within the table's quota and the pen row area; none where the change
is not made (R46, R511). -/
def changeRoom (s : State) (im : Image) (f tid : Nat) (img : Bool) (r cls : Nat) : Option Nat × State :=
  let x := fold s f
  let old := match probe x tid img r with | some k => penSlotOf s (dirAt x k) | none => 0
  let new := dSlot im.desc cls
  if dQuota im.desc * 4096 < penUse s f tid - old + new then (none, s) else penAlloc s f new

/-- A row given a new class: its copy is derived from its master into the pen slot at `a`, and its old pen slot
becomes its aside copy (R46). False where the write waits for an entry or an aside slot. -/
def changeClass (s : State) (im : Image) (f tid : Nat) (img : Bool) (o r cls a : Nat) : State × Bool :=
  match masterOf (fold s f) tid img r with
  | none => (s, true)
  | some m =>
    let was := match probe (fold s f) tid img r with | some k => (dirAt (fold s f) k).cls.toNat | none => dPclass im.desc
    let c := deriveIn s im f tid r o cls m.wseq.toNat (m.w.map (·.toNat))
    let w : WcW := { f := f, tid := tid, img := img, row := r, o := o, slot := c.1, cls := cls, newPen := some a }
    let w := wcWrite s im w
    if w.2 then (cnt (ruStats (masterRuns w.1 f tid img r 0 (masterSize im.desc) false) f c.2)
      (foldReg f (if was < cls then aGxCntRewiden else aGxCntNarrow)), true)
    else (w.1, false)

/-- A class change that a fold makes: its entry, row and new class (R46). -/
def classList (s : State) (im : Image) (f tid : Nat) (img : Bool) : List (Nat × Nat) :=
  let x := fold s f
  let d := im.desc
  let want (e : DirE) : Option Nat :=
    if popTh s f 23 16 ≤ e.pop.toNat ∧ e.cls.toNat < dCeil d then some (e.cls.toNat + 1)
    else if e.pop.toNat < popTh s f 31 24 ∧ dPclass d < e.cls.toNat then some (e.cls.toNat - 1)
    else none
  if rb s (foldReg f aGxPolicyCtl) 0 2 && dRewidth d && !threshBad s f then
    (x.dir.filterMap (fun (_, e) =>
      if e.t && !e.m && e.tid.toNat == tid && e.img == img && (masterOf x tid img e.row.toNat).isSome then
        (want e).map (fun c => (e.row.toNat, c))
      else none)).take 4096
  else []

/-- A journal record of an UPDATE for a row. -/
def jNew (u : Up) (tid : Nat) (img : Bool) (kind arg r usn o : Nat) (g : List Word) : Jrec :=
  { row := BitVec.ofNat 32 r, tid := BitVec.ofNat 12 tid, img := img, kind := BitVec.ofNat 8 kind
    arg := BitVec.ofNat 8 arg, usn := BitVec.ofNat 32 usn, epoch := BitVec.ofNat 32 o, handle := u.h, g := g, mir := u.mir }

/-- WSEQ of a row's working copy. -/
def rowWseq (s : State) (im : Image) (f tid : Nat) (img : Bool) (r : Nat) : Nat :=
  fld (wcRead s im f tid img r).2.1 24 4

/-- The drops of a fold, journaled and made (R106). -/
def ownDrops (s : State) (u : Up) (im : Image) (f tid : Nat) (img : Bool) (o : Nat) : State :=
  (dropList s u im f tid img).foldl (fun s m =>
    dropRow (putJ s f (jNew u tid img 3 0 m.row.toNat m.wseq.toNat o [])) f tid img m.row.toNat) s

/-- A class change journaled and made, where a slot has been found for it; false where it waits (R46, R107). -/
def makeChange (s : State) (slot : Option Nat) (u : Up) (im : Image) (f tid : Nat) (img : Bool) (o r c : Nat) :
    State × Bool :=
  match slot with
  | none => (s, true)
  | some a =>
    let w := match masterOf (fold s f) tid img r with | some m => m.wseq.toNat | none => 0
    changeClass (putJ s f (jNew u tid img 4 c r w o [])) im f tid img o r c a

/-- The class change of a row, where it has room (R46, R107, R511). -/
def ownChange (s : State) (u : Up) (im : Image) (f tid : Nat) (img : Bool) (o r c : Nat) : State × Bool :=
  let room := changeRoom s im f tid img r c
  makeChange room.2 room.1 u im f tid img o r c

/-- The class changes of a fold that have room (R46, R107). -/
def ownChanges (s : State) (u : Up) (im : Image) (f tid : Nat) (img : Bool) (o : Nat) : State :=
  (classList s im f tid img).foldl (fun s e => (ownChange s u im f tid img o e.1 e.2).1) s

/-- Drops carried out from records (R107, R124). -/
def carryDrops (s : State) (u : Up) (f tid : Nat) (img : Bool) : State :=
  (jRows (fold s f) u 3 tid img).foldl (fun s j =>
    if (masterOf (fold s f) tid img j.row.toNat).isSome then dropRow s f tid img j.row.toNat else s) s

/-- A class change carried out from a record, on a row that may be outside this part's pen; a migration of the row
ends first. False where it waits (R49, R65, R107, R124). -/
def carryChange (s : State) (im : Image) (f tid : Nat) (img : Bool) (o r cls : Nat) : State × Bool :=
  let s := match probe (fold s f) tid img r with
    | some k => if (dirAt (fold s f) k).m then flipMig s f k else s
    | none => s
  let now := match probe (fold s f) tid img r with | some k => (dirAt (fold s f) k).cls.toNat | none => dPclass im.desc
  if now = cls ∨ (masterOf (fold s f) tid img r).isNone then (s, true)
  else match changeRoom s im f tid img r cls with
    | (none, s) => (s, true)
    | (some a, s) => changeClass s im f tid img o r cls a

/-- Class changes carried out from records (R107, R124). -/
def carryChanges (s : State) (u : Up) (im : Image) (f tid : Nat) (img : Bool) (o : Nat) : State × Bool :=
  (jRows (fold s f) u 4 tid img).foldl (fun (a : State × Bool) j =>
    let r := carryChange a.1 im f tid img o j.row.toNat j.arg.toNat; (r.1, a.2 && r.2)) (s, true)

/-! ## Phases 2 and 3 (R112, R122, R124, R406) -/

/-- An FP32 field of the settings, as a word's number. -/
def one32 : Nat := 0x3F800000

/-- The lines marked moments (R112). -/
def moments (d : Bytes) (m : Master) (g : List Nat) (u : Word) : Master :=
  let b1 := dFp d 44
  let b2 := dFp d 48
  if dOpt d = 1 then
    let q := g.foldl (fun q x => add32 q (mul32 x x)) 0
    { m with acc := BitVec.ofNat 32 (add32 m.acc.toNat (div32 q (ofInt32 (dDim d)))), mseq := u }
  else if dOpt d = 2 then
    { m with
      m := (m.m.zip g).map (fun (a, x) => BitVec.ofNat 32 (add32 (mul32 b1 a.toNat) (mul32 (sub32 one32 b1) x)))
      v := (m.v.zip g).map (fun (a, x) => BitVec.ofNat 32 (add32 (mul32 b2 a.toNat) (mul32 (sub32 one32 b2) (mul32 x x))))
      b1p := BitVec.ofNat 32 (mul32 m.b1p.toNat b1), b2p := BitVec.ofNat 32 (mul32 m.b2p.toNat b2), mseq := u }
  else { m with mseq := u }

/-- The lines marked weights (R112). -/
def weights (d : Bytes) (m : Master) (g : List Nat) (u : Word) : Master :=
  let lr := dFp d 36
  let w :=
    if dOpt d = 0 then (m.w.zip g).map (fun (w, x) => sub32 w.toNat (mul32 lr x))
    else if dOpt d = 1 then
      let k := div32 lr (add32 (sqrt32 m.acc.toNat) (dFp d 52))
      (m.w.zip g).map (fun (w, x) => sub32 w.toNat (mul32 k x))
    else
      (m.w.zip (m.m.zip m.v)).map (fun (w, a, b) =>
        let mh := div32 a.toNat (sub32 one32 m.b1p.toNat)
        let vh := div32 b.toNat (sub32 one32 m.b2p.toNat)
        sub32 w.toNat (div32 (mul32 lr mh) (add32 (sqrt32 vh) (dFp d 52))))
  { m with w := w.map (BitVec.ofNat 32), wseq := u }

/-- A fold's RU is recovering (R124). -/
def recovering (s : State) (f : Nat) : Bool := (unit s (2 + f)).st == .recovering

/-- A gradient record that reads poisoned in recovery: the row's update is discarded, and a master whose
moments are ahead is dropped (R406). -/
def lostGrad (s : State) (f tid : Nat) (img : Bool) (j : Jrec) : State :=
  let s := dropGrad s f j
  match masterOf (fold s f) tid img j.row.toNat with
  | some m => if m.mseq = m.wseq then s else delMaster s f tid img j.row.toNat
  | none => s

/-- A poisoned or missing master seeded for a gradient record; on a poisoned working copy the row's update is
discarded (R105, R406). -/
def reseed (s : State) (im : Image) (f tid : Nat) (img : Bool) (j : Jrec) : State :=
  let r := seedMaster s im f tid img j.row.toNat
  if r.2 then r.1 else dropGrad (delMaster r.1 f tid img j.row.toNat) f j

/-- A master's part of R406, and the seeding of an admitted row (R105). A poisoned master that is seeded again is
journaled as an admission; in recovery a poisoned admission record makes none. -/
def readyMaster (s : State) (u : Up) (im : Image) (f tid : Nat) (img : Bool) (o : Nat) (j : Jrec) : State :=
  let r := j.row.toNat
  match masterOf (fold s f) tid img r with
  | some m =>
    if m.poison then
      let s := reseed s im f tid img j
      if (masterOf (fold s f) tid img r).isSome then putJ s f (jNew u tid img 2 0 r (j.usn.toNat - 1) o []) else s
    else s
  | none =>
    if (jRows (fold s f) u 2 tid img).any (fun a => a.row == j.row && !(recovering s f && a.poison)) then
      let s := reseed s im f tid img j
      if (masterOf (fold s f) tid img r).isSome then cnt s (foldReg f aRuCntAdmit) else s
    else dropGrad s f j

/-- The row's master is to take one of its two sequence numbers. -/
def isBehind (s : State) (f tid : Nat) (img : Bool) (r : Nat) (seq : Master → Word) (u : Word) : Bool :=
  match masterOf (fold s f) tid img r with | some m => seq m != u | none => false

/-- The runs of a row's phase: its journal record and its master are read, and the master's header with `n` bytes from
`off` on is written (R101, R112, log entry 133). -/
def phaseRuns (s : State) (im : Image) (f tid : Nat) (img : Bool) (j : Jrec) (off n : Nat) : State :=
  let r := j.row.toNat
  let s := masterRuns (jRuns s f j false) f tid img r 0 (masterSize im.desc) false
  masterRuns (masterRuns s f tid img r 0 64 true) f tid img r off n true

/-- Phase 2 of a row: M and V of Adam, and the header. -/
def phase2 (s : State) (u : Up) (im : Image) (f tid : Nat) (img : Bool) (o : Nat) (j : Jrec) : State :=
  if recovering s f && j.poison then lostGrad s f tid img j
  else
    let s := readyMaster s u im f tid img o j
    let n := dDim im.desc
    if !isBehind s f tid img j.row.toNat (·.mseq) j.usn then s
    else updMaster (phaseRuns s im f tid img j (64 + 4 * n) (if dOpt im.desc = 2 then 8 * n else 0)) f tid img j.row.toNat
      (fun m => moments im.desc m (j.g.map (·.toNat)) j.usn)

/-- Phase 3 of a row: the weights, then the working copy. False where the write waits. -/
def phase3 (s : State) (im : Image) (f tid : Nat) (img : Bool) (o : Nat) (j : Jrec) : State × Bool :=
  let r := j.row.toNat
  let s := if !isBehind s f tid img r (·.wseq) j.usn then s
    else updMaster (phaseRuns s im f tid img j 64 (4 * dDim im.desc)) f tid img r (fun m => weights im.desc m (j.g.map (·.toNat)) j.usn)
  match masterOf (fold s f) tid img r with
  | none => (s, true)
  | some m =>
    let c := wcRead s im f tid img r
    if fld c.2.1 24 4 = j.usn.toNat then (c.1, true)
    else
      let n := deriveIn s im f tid r o c.2.2.1 j.usn.toNat (m.w.map (·.toNat))
      let w : WcW := { f := f, tid := tid, img := img, row := r, o := o, slot := n.1, cls := c.2.2.1 }
      let a := wcWrite c.1 im w
      if a.2 then (cnt (ruStats a.1 f n.2) (foldReg f aRuCntRows), true) else wcWrite s im w

/-! ## The late tier (R118) -/

/-- A delta record is due in the epoch `o`; under LATE_FLUSH every pending one is, those that the UPDATE itself has
logged among them. -/
def isDue (o : Nat) (flush : Bool) (d : Delta) : Bool :=
  !d.applied && (flush || 0 ≤ sgn 32 ((o + 2 ^ 32 - d.due.toNat) % 2 ^ 32))

/-- Due records of an image on a fold. -/
def dueOn (x : Fold) (o : Nat) (flush : Bool) (tid : Nat) (img : Bool) : List Delta :=
  x.deltas.filter (fun d => d.tid.toNat == tid && d.img == img && isDue o flush d)

/-- A row's due records applied, as one update; false where the write waits. -/
def lateRow (s : State) (im : Image) (f tid : Nat) (img : Bool) (o : Nat) (flush : Bool) (r : Nat) : State × Bool :=
  let ds := (dueOn (fold s f) o flush tid img).filter (fun d => d.row.toNat == r)
  let mine (d : Delta) : Bool := d.tid.toNat == tid && d.img == img && d.row.toNat == r && isDue o flush d
  let c := wcRead s im f tid img r
  if ds.isEmpty then (s, true)
  else if c.2.2.2 || ds.any (·.poison) then
    (cntN (updFold c.1 f (fun x => { x with deltas := x.deltas.filter (fun d => !mine d) })) (foldReg f aRuCntLateDiscard) 0 ds.length, true)
  else
    let d := im.desc
    let sum := (ds.drop 1).foldl (fun a e => (a.zip e.d).map (fun (x, y) => add32 x y.toNat)) ((ds.headD { row := 0, tid := 0, img := img, origin := 0, due := 0, d := [] }).d.map (·.toNat))
    let y := ((rowVals c.2.2.1 (dGroup d) (dDim d) c.2.1).zip sum).map (fun (a, b) => sub32 a (mul32 (dFp d 40) b))
    let n := deriveIn c.1 im f tid r o (dPclass d) ((fld c.2.1 24 4 + 1) % 2 ^ 32) y
    let w : WcW := { f := f, tid := tid, img := img, row := r, o := o, slot := n.1, cls := dPclass d }
    let r1 := wcWrite (ds.foldl (fun s d => dRuns s f d false) c.1) im w
    if r1.2 then
      (cnt (updFold (ruStats r1.1 f n.2) f (fun x => { x with deltas := x.deltas.map (fun d => if mine d then { d with applied := true } else d) })) (foldReg f aRuCntLateApply), true)
    else wcWrite s im w

end Sys2Proof.Machine
end

