-- ==== Sys2Proof/Machine/TableCmds.lean ====
section
/-! DEFINITION. Table commands: the order of commands on a table, TABLE_LOAD, TABLE_COMMIT and its step,
TABLE_EXPORT, and the end of an epoch's grace (R50 to R64, R129 to R131, R264, R271, R319, R375, R384, R512). -/

namespace Sys2Proof.Machine

/-! ## Order on a table (R58, R62, R264) -/

/-- The row of a ring command that goes on after its dispatch as often as it must: `first` when it is
dispatched, `go` from then on. -/
def ownGo (op q : Nat) (n : Word) (mine : Cmd → Bool) (first go : State → Cmd → State) (s : State) : State :=
  match cmd s q n with
  | none => s
  | some c =>
    if cOp c ≠ op ∨ !mine c then s
    else match c.phase with
      | .fetched =>
        if !canGo s c then s
        else
          let s := cnt s aFeCntEntries
          if identityBlocks s c then reject s c stBadState else first s c
      | .landed => go s c
      | .unit => go s c
      | .running => go s c
      | _ => s

/-- Every command of a ring. -/
def anyCmd (_ : Cmd) : Bool := true

/-- Record size of a section (R108). -/
def recSize (d : Bytes) (bf : Bool) : Nat := 8 + (if bf then 2 else 4) * dDim d

/-- Sections of a batch from an offset: offset and TID; the walk ends at a table whose DIM is not known. -/
def secWalk (s : State) (b : Bytes) : Nat → Nat → List (Nat × Nat)
  | 0, _ => []
  | k + 1, off =>
    let tid := fld b off 2 % 4096
    (off, tid) :: (match curDesc (table s tid) with
      | some d => secWalk s b k (off + 32 + fld b (off + 4) 4 * recSize d (bit (fld b (off + 2) 1) 0))
      | none => [])

/-- Sections of a batch. -/
def sections (s : State) (b : Bytes) : List (Nat × Nat) := secWalk s b (min 16 (fld b 0 2)) 32

/-- TIDs of a TABLE_COMMIT. -/
def commitTids (c : Cmd) : List Nat := (List.range (min 16 (cF c 16 1))).map (fun k => cF c (20 + 2 * k) 2 % 4096)

/-- Tables a command touches; none where they are not known yet. -/
def cmdTids (s : State) (c : Cmd) : Option (List Nat) :=
  if cOp c = 3 then (if c.data.isEmpty then none else some ((sections s c.data).map (·.2)))
  else if cOp c = 4 then some [cF c 18 2 % 4096]
  else if cOp c = 5 then some (commitTids c)
  else some [cF c 16 2 % 4096]

/-- A FULL load that continues a staged image. -/
def isCont (c : Cmd) : Bool := cOp c == 4 && cF c 16 1 == 0 && cF c 20 4 != 0

/-- TABLE_COMMIT with DROP. -/
def cDrop (c : Cmd) : Bool := bit (cF c 17 1) 1

/-- A FULL load that continues the staged image of a waiting TABLE_COMMIT goes ahead of that commit and of what
waits behind it (R62, R264). -/
def goesAhead (s : State) (c d : Cmd) : Bool :=
  isCont c && !isCont d && s.fe.cmds.any (fun e =>
    cOp e == 5 && !cDrop e && e.arrival != 0 && decide (e.arrival ≤ d.arrival) && e.phase != .ended &&
      (commitTids e).contains (cF c 18 2 % 4096))

/-- An earlier command on one of its tables is still to be applied. -/
def blockedBy (s : State) (c : Cmd) : Bool :=
  s.fe.cmds.any (fun d =>
    3 ≤ cOp d && cOp d ≤ 6 && d.arrival ≠ 0 && d.arrival < c.arrival && d.phase ≠ .ended &&
      !(cOp d == 6 && d.phase == .running) && !goesAhead s c d &&
      (match cmdTids s c, cmdTids s d with
        | some a, some b => a.any (fun t => b.contains t)
        | _, _ => true))

/-- A fold's RU takes no new work: its unit is being reset or recovers (R124, R424). -/
def ruOff (s : State) (f : Nat) : Bool :=
  let u := unit s (2 + f)
  ((u.st == .quiescing || u.st == .resetting) && u.scope != .gx) || u.st == .recovering || rb s (foldReg f aRuStat) 0 0

/-- A fold's RU makes no new access: it takes no new work, or its partition holds its runs (R353). -/
def ruHeld (s : State) (f : Nat) : Bool := ruOff s f || !mayFm s f (ruPart s f)

/-- The command's queue as a region check sees it. -/
def mayTouch (s : State) (c : Cmd) (im : Image) (f : Nat) (write : Bool) : Bool :=
  let u := queue s c.q.toNat
  ownerOk s im f u.cid u.world write

/-- Folds that hold a range of rows. -/
def rangeFolds (d : Bytes) (first n : Nat) : List Nat :=
  ((List.range (min n 8)).map (fun k => (rowFold d (first + k)).1)).eraseDups

/-- Rows of a range that a fold holds. -/
def rangeOn (d : Bytes) (f first n : Nat) : Nat :=
  ((List.range n).filter (fun k => (rowFold d (first + k)).1 == f)).length

/-! ## TABLE_LOAD (R59, R60, R512) -/

/-- Operand checks of TABLE_LOAD (R271). -/
def loadOk (c : Cmd) : Bool :=
  let full0 := cF c 16 1 == 0 && cF c 20 4 == 0
  cF c 16 1 ≤ 1 && zero c 17 1 && bits (cF c 18 2) 15 12 == 0 && cF c 24 4 ≠ 0 && zero c 28 4 && zero c 48 16 &&
    (isInline (cF c 32 8) || plainAddr (cF c 32 8)) && (if full0 then srcOk c (cF c 40 8) 64 else cF c 40 8 == 0)

/-- First part of TABLE_LOAD: checks, arrival, and the fetch of the descriptor of a first FULL load. -/
def loadFirst (s : State) (c : Cmd) : State :=
  if !loadOk c then reject s c stBadField
  else
    let s := arrive s c
    if cF c 16 1 = 0 ∧ cF c 20 4 = 0 then fetchSrc s c .desc (cF c 40 8) 64 else setPhase s c .landed

/-- Refused, its operands disagreeing with state. -/
def loadSrc (s : State) (c : Cmd) (d : Bytes) : State :=
  let n := cF c 24 4 * dPslot d
  if !srcOk c (cF c 32 8) n then reject s c stBadField else fetchSrc s c .loadSrc (cF c 32 8) n

/-- Home extents of a new image on every fold, a staged image of its TID counting as free (R318, R512). -/
def newExtents (s : State) (c : Cmd) (tid : Nat) (d : Bytes) : Option (List (Nat × Nat × Nat)) :=
  let u := queue s c.q.toNat
  (dFolds d).mapM (fun f =>
    (allocExt s f tid u.cid.toNat u.world (extBytes d f + hashBytes d f)).map (fun (a, i) => (f, a, i)))

/-- Status of a FULL load with start row 0 before anything is discarded; 0 where it may go on (R31, R60, R64,
R100, R105, R375, R512). Of several checks that fail, the first in the order of this definition gives the status:
fields, the state of the group, a busy table, resources (log entry 127). -/
def fullFail (s : State) (c : Cmd) (tid : Nat) (d : Bytes) : Status :=
  let t := table s tid
  if dTid d ≠ tid ∨ !desc31 d (curDesc t) ∨ !desc100 d ∨ dRows d < cF c 24 4 then stBadField
  else if dScnt d ≠ 0 ∧ (!grpOn s ∨ dScnt d + 1 ≠ grpN s ∨ dSidx d ≠ myIdx s) then stBadState
  else if t.opened.isSome || t.dropped || (match t.prev, t.cur with | some p, some e => p.img != e.img | some _, none => true | _, _ => false) then
    stTableBusy
  else if dTrained d ∧ (dFolds d).any (fun f => jPool s f = 0 ∨ dPool s f = 0) then stNoResource
  else if (newExtents s c tid d).isNone then stNoResource
  else if dTrained d ∧ dSeed d ∧
      (dFolds d).any (fun f => masterPool s f < masterUsed s f tid true + masterDue s f tid + rowsOn d f * masterSize d) then stNoResource
  else 0

/-- A FULL load with start row 0 that passes: the earlier staged image is discarded and its own is started. -/
def startImage (s : State) (c : Cmd) (tid : Nat) (d : Bytes) : State :=
  match newExtents s c tid d with
  | none => s
  | some l =>
    let s := dropStaged s tid
    let t := table s tid
    let slot := match t.cur with | some e => !e.img | none => t.img0.isSome
    let im : Image := { desc := d, base := l.foldl (fun m (f, a, _) => mset 0 m f a) []
                        owner := l.foldl (fun m (f, _, i) => mset 16384 m f i) [] }
    updCmd (setTable s tid { setImg t slot (some im) with staged := true, stagedIn := slot }) c.q.toNat c.n
      (fun c => { c with begun := true })

/-- A row's slot in a source agrees with its row number and the descriptor (R60). -/
def srcRowOk (d : Bytes) (r : Nat) (slot : Bytes) : Bool :=
  fld slot 20 1 == r % 256 && fld slot 21 1 == dPclass d + 4 * dGroup d && fld slot 28 4 == 0

/-- A row slot of a source, its padding written 0 (R33). -/
def srcRow (d : Bytes) (data : Bytes) (k : Nat) : Bytes :=
  slice ((slice data (k * dPslot d) (dPslot d)).take (32 + codeBytes (dPclass d) (dDim d))) 0 (dPslot d)

/-- One row of a FULL load put in its home slot, POP from the source and STAMP the current period; under
SEED_ALL it is seeded while the index and the pool have room (R59, R105, log entry 48). -/
def loadRow (s : State) (im : Image) (tid : Nat) (img : Bool) (r : Nat) (slot : Bytes) : State :=
  let f := (rowFold im.desc r).1
  let s := fmWrite s (ruPart s f) f (homeA im f (rowFold im.desc r).2) (withPop slot (fld slot 22 1) (fold s f).period.toNat)
  if dTrained im.desc && dSeed im.desc && idxRoom (fold s f) tid img r &&
      decide (masterUsed s f tid false + masterSize im.desc ≤ masterPool s f) then (seedMaster s im f tid img r).1 else s

/-- A command that has staged an image ends without success: none stays staged (R512). -/
def loadEnds (s : State) (c : Cmd) (st : Status) : State :=
  let s := if c.begun then dropStaged s (cF c 18 2 % 4096) else s
  finish s c.q.toNat c.n st

/-- The rows of a FULL load land (R59, R60). -/
def fullRows (s : State) (c : Cmd) : State :=
  let tid := cF c 18 2 % 4096
  let t := table s tid
  match t.staged, imgOf t t.stagedIn with
  | true, some im =>
    let d := im.desc
    let start := cF c 20 4
    let n := cF c 24 4
    if im.rows ≠ start then loadEnds s c stBadField
    else if !((List.range n).all (fun k => srcRowOk d (start + k) (srcRow d c.data k))) then loadEnds s c stBadField
    else
      let s := (List.range n).foldl (fun s k => loadRow s im tid t.stagedIn (start + k) (srcRow d c.data k)) s
      let old := im
      let im := growLeaves s { im with rows := start + n } tid t.stagedIn
      let s := (dFolds d).foldl (fun s f => hashRuns s im f
        ((List.range (mget [] im.leaves f).length).drop (mget [] old.leaves f).length)) s
      finish (updTable s tid (fun t => setImg t t.stagedIn (some im))) c.q.toNat c.n 0
  | _, _ => loadEnds s c stBadState

/-- TABLE_LOAD in FULL mode goes on. A start row above 0 with no staged image to go on with is a load out of place,
ST_BAD_STATE (log entry 126); one that does not follow the last row loaded is ST_BAD_FIELD (R60). -/
def fullGo (s : State) (c : Cmd) : State :=
  let tid := cF c 18 2 % 4096
  if !c.data.isEmpty then fullRows s c
  else if blockedBy s c then s
  else if cF c 20 4 = 0 then
    let d := c.bodies.headD []
    let st := fullFail s c tid d
    if st ≠ 0 then reject s c st
    else if !srcOk c (cF c 32 8) (cF c 24 4 * dPslot d) then reject s c stBadField
    else if (dFolds d).any (ruHeld s) then s
    else loadSrc (startImage s c tid d) c d
  else
    let t := table s tid
    match t.staged, imgOf t t.stagedIn with
    | true, some im =>
      if im.rows ≠ cF c 20 4 ∨ dRows im.desc < cF c 20 4 + cF c 24 4 then reject s c stBadField
      else if (dFolds im.desc).any (ruHeld s) then s
      else loadSrc s c im.desc
    | _, _ => reject s c stBadState

/-- TABLE_LOAD with MODE FULL; a reserved MODE is refused here. -/
def execTableLoadFull (q : BitVec 10) (n : Word) (s : State) : Out :=
  .next (ownGo 4 q.toNat n (fun c => cF c 16 1 != 1) loadFirst fullGo s)

/-- RULE of the folds of an image, as an epoch that opens latches it (R146). -/
def latchRule (s : State) (d : Bytes) : Map Bool :=
  (dFolds d).foldl (fun m f => mset false m f (rb s (foldReg f aRuConvCtl) 0 0)) []

/-- The open epoch of a table, opened if it is not, as a write into it is made (R53). -/
def openEpoch (s : State) (tid : Nat) (d : Bytes) (rows : Bool) : State :=
  updTable s tid (fun t => { t with opened := some { (t.opened.getD { num := buildEpoch t, rows := rows, rule := latchRule s d }) with hashed := false } })

/-- The rows of a ROWS load are written, each whole, those that pass; the table's epoch opens with the first
write that is made (R53, R54, R59, R60). -/
def rowsWrite (s : State) (c : Cmd) (im : Image) (tid : Nat) (img : Bool) : State :=
  let d := im.desc
  let start := cF c 20 4
  let o := (buildEpoch (table s tid)).toNat
  let r := (List.range (cF c 24 4)).foldl (fun (a : State × Bool × Bool) k =>
    let slot := srcRow d c.data k
    let f := (rowFold d (start + k)).1
    if !srcRowOk d (start + k) slot then (a.1, a.2.1, false)
    else
      let w := wcWrite a.1 im { f := f, tid := tid, img := img, row := start + k, o := o, slot := slot, cls := dPclass d }
      (if w.2 then openEpoch w.1 tid d true else w.1, a.2.1 && w.2, a.2.2)) (s, true, true)
  if !r.2.1 then setPhase r.1 c .running
  else finish r.1 c.q.toNat c.n (if r.2.2 then 0 else stBadField)

/-- TABLE_LOAD in ROWS mode goes on. Of the checks that it fails, the status is that of the first in the order of
this definition: the table's state before a staged image (log entry 127). The owner is checked before the source
is read and again before the rows are written (R319). -/
def rowsGo (s : State) (c : Cmd) : State :=
  let tid := cF c 18 2 % 4096
  let t := table s tid
  match t.cur.bind (fun e => (imgOf t e.img).map (fun i => (e.img, i))) with
  | none => if !c.data.isEmpty ∨ !blockedBy s c then reject s c stBadState else s
  | some (img, im) =>
    let d := im.desc
    let start := cF c 20 4
    let n := cF c 24 4
    if !c.data.isEmpty then
      if t.prev.isSome ∨ (rangeFolds d start n).any (ruHeld s) then s
      else if (rangeFolds d start n).any (fun f => !mayTouch s c im f true) then finish s c.q.toNat c.n stRegionDenied
      else rowsWrite s c im tid img
    else if blockedBy s c then s
    else if dTrained d then reject s c stBadState
    else if dRows d < start + n then reject s c stBadField
    else if t.staged then reject s c stTableBusy
    else if (rangeFolds d start n).any (fun f => asidePast s f / dPslot d < rangeOn d f start n) then reject s c stNoResource
    else if (rangeFolds d start n).any (fun f => !mayTouch s c im f true) then reject s c stRegionDenied
    else if (rangeFolds d start n).any (ruHeld s) then s
    else loadSrc s c d

/-- TABLE_LOAD with MODE ROWS. -/
def execTableLoadRows (q : BitVec 10) (n : Word) (s : State) : Out :=
  .next (ownGo 4 q.toNat n (fun c => cF c 16 1 == 1) loadFirst rowsGo s)

/-! ## TABLE_COMMIT (R62, R63) -/

/-- Operand checks of TABLE_COMMIT (R271). -/
def commitOk (c : Cmd) : Bool :=
  let n := cF c 16 1
  1 ≤ n && n ≤ 16 && bits (cF c 17 1) 7 2 == 0 && cF c 17 1 ≠ 3 && zero c 18 2 && zero c (20 + 2 * n) (44 - 2 * n) &&
    (List.range n).all (fun k => bits (cF c (20 + 2 * k) 2) 15 12 == 0) && (commitTids c).eraseDups.length == n

/-- The part of both kinds of TABLE_COMMIT that its own row does: it arrives and waits for its step. -/
def commitFirst (s : State) (c : Cmd) : State :=
  if !commitOk c then reject s c stBadField else setPhase (arrive s c) c .unit

/-- Nothing more: the step is TABLE_COMMIT_STEP's. -/
def commitStay (s : State) (_ : Cmd) : State := s

/-- TABLE_COMMIT without DROP. -/
def execTableCommit (q : BitVec 10) (n : Word) (s : State) : Out :=
  .next (ownGo 5 q.toNat n (fun c => !cDrop c) commitFirst commitStay s)

/-- TABLE_COMMIT with DROP. -/
def execTableCommitDrop (q : BitVec 10) (n : Word) (s : State) : Out :=
  .next (ownGo 5 q.toNat n cDrop commitFirst commitStay s)

/-- One row copied into the pen by WARM; false where the fold is full (R63, R511). -/
def warmRow (s : State) (im : Image) (tid : Nat) (img : Bool) (f : Nat) (e : DirE) : State × Bool :=
  let r := e.row.toNat
  let n := dPslot im.desc
  if dQuota im.desc * 4096 < penUse s f tid + n then (s, false)
  else match freeWay (fold s f) tid img r 12 with
    | none => (s, true)
    | some k =>
      match penAlloc s f n with
      | (none, s) => (s, false)
      | (some a, s) =>
        let home := homeA im f (rowFold im.desc r).2
        let c := readLoc s (ruPart s f) f { pen := false, addr := home } n (some { tid := tid, row := r }) none
        let s := writeLoc c.1 (ruPart s f) f { pen := true, addr := a } c.2.1 false c.2.2
        (updFold s f (fun x => setDir x k
          { row := e.row, tid := e.tid, img := img, t := true, cls := BitVec.ofNat 2 (dPclass im.desc), pop := e.pop
            penLoc := BitVec.ofNat 21 (a / 32) }), true)

/-- WARM for one table: the pen-resident rows of the current image, by falling POP, then by row (R63). Neither
GX_POLICY_CTL.PROMOTE_EN nor THRESH_BAD stops these copies (DESIGN CHOICE, log entry 178). -/
def warmTable (s : State) (tid : Nat) : State :=
  let t := table s tid
  match t.staged, imgOf t t.stagedIn, t.cur with
  | true, some im, some cur =>
    if !dMigrate im.desc then s
    else
      let es := s.folds.flatMap (fun (_, x) => (x.dir.map (·.2)).filter (fun e =>
        e.t && e.tid.toNat == tid && e.img == cur.img && e.row.toNat < dRows im.desc))
      let es := sortBy (fun a b => b.pop.toNat < a.pop.toNat || (a.pop == b.pop && a.row.toNat < b.row.toNat)) es
      (dFolds im.desc).foldl (fun s f =>
        ((es.filter (fun e => (rowFold im.desc e.row.toNat).1 == f)).foldl (fun (a : State × Bool) e =>
          if a.2 then warmRow a.1 im tid t.stagedIn f e else a) (s, true)).1) s
  | _, _, _ => s

/-- The tables of a list that are slices of a column group, with the epochs their step makes. -/
def groupSet (s : State) (tids : List Nat) : List (BitVec 12 × Word) :=
  tids.filterMap (fun t =>
    let tb := table s t
    let im := if tb.staged then imgOf tb tb.stagedIn else (tb.cur.bind (fun e => imgOf tb e.img))
    match im with
    | some i => if 0 < dScnt i.desc then some (BitVec.ofNat 12 t, buildEpoch tb) else none
    | none => none)

/-- The root of the epoch that a table's step makes current. -/
def nextRoot (s : State) (tid : Nat) : Bytes :=
  let t := table s tid
  let img := if t.staged then t.stagedIn else (match t.cur with | some e => e.img | none => t.stagedIn)
  match imgOf t img with | some im => epochRoot im tid | none => []

/-- The part's pair is in SYNC. -/
def inSync (s : State) : Bool := s.dl.pair == .sync && !s.dl.silent

/-- This part's READY for a step with the roots of its tables; a mirror that is not in SYNC sends none (R384). -/
def readyOut (s : State) (upd : Bool) (set : List (BitVec 12 × Word)) : State :=
  if isGrpMirror s && !inSync s then s
  else
    let tabs : List StepTab := set.map (fun (t, e) => { tid := t, epoch := e, root := nextRoot s t.toNat, sync := inSync s })
    droveSend s (leader s) (.ready (BitVec.ofNat 12 (myId s)) upd tabs)

/-- A step waits for GO, and this part's READY for it goes to the leader (R384). -/
def sendReady (s : State) (q : BitVec 10) (n : Word) (upd : Bool) (set : List (BitVec 12 × Word)) (str : Option Half) : State :=
  let s := set.foldl (fun s (t, _) => if (table s t.toNat).staged then s else rehash s t.toNat) s
  let s := { s with dl := { s.dl with steps := s.dl.steps ++ [{ q := q, n := n, upd := upd, set := set, str := str }] } }
  readyOut s upd set

/-- A mirrored table marked diverged (R394). -/
def diverge (s : State) (tid : Nat) : State :=
  if (table s tid).diverged then s
  else cnt (rset (rsetF (updTable s tid (fun t => { t with diverged := true })) aDlPairStat 0 3 3 1) aDlPairDivTid 0 tid) aDlCntDiverge

/-- The partner's root of an epoch compared with this part's; one of an epoch not published here yet is
kept (R394). -/
def rootCheck (s : State) (tid : BitVec 12) (n : Word) (r : Bytes) : State :=
  match (table s tid.toNat).lastRoots.find? (fun (m, _) => m == n) with
  | some (_, mine) => if mine = r then s else diverge s tid.toNat
  | none => { s with dl := { s.dl with peerRoots := ((tid, n, r) :: s.dl.peerRoots).take 16384 } }

/-- Roots kept for the epoch that a table has just published compared with it. -/
def rootsKept (s : State) (tid : BitVec 12) (n : Word) : State :=
  let l := s.dl.peerRoots.filter (fun (t, m, _) => t == tid && m == n)
  l.foldl (fun s (t, m, r) => rootCheck s t m r)
    { s with dl := { s.dl with peerRoots := s.dl.peerRoots.filter (fun (t, m, _) => !(t == tid && m == n)) } }

/-- A trained table that this part holds is named to its partner (R389, log entry 161). -/
def sayHeld (s : State) (tid : Nat) : State :=
  match curDesc (table s tid), (table s tid).cur with
  | some d, some e => if dTrained d then
      droveSend s s.dl.partner.toNat (.pairMsg (.holds (BitVec.ofNat 12 (myId s)) (BitVec.ofNat 12 tid) d e.num e.root))
    else s
  | _, _ => s

/-- A table published; a mirrored one sends its root to the partner, and a trained one that is not mirrored is named to
it (R62, R389, R394). -/
def publishTable (s : State) (tid : Nat) (slices : List Bytes) : State :=
  let s := publish s tid slices (!slices.isEmpty)
  match (table s tid).cur with
  | some e =>
    let t := BitVec.ofNat 12 tid
    let s := if s.dl.pair ≠ .none ∧ !s.dl.mtids.contains t then sayHeld s tid else s
    if s.dl.pair = .sync ∧ s.dl.mtids.contains t ∧ !(table s tid).diverged then
      rootsKept (droveSend s s.dl.partner.toNat (.root t e.num e.root)) t e.num
    else s
  | none => s

/-- The step of a TABLE_COMMIT without DROP: WARM copies, then publication of every table in one step. -/
def commitNow (s : State) (c : Cmd) (roots : Nat → List Bytes) : State :=
  let ts := commitTids c
  let s := if bit (cF c 17 1) 0 then ts.foldl warmTable s else s
  let s := ts.foldl (fun s t => publishTable s t (roots t)) s
  let s := { s with dl := { s.dl with steps := s.dl.steps.filter (fun t => !(t.q == c.q && t.n == c.n)) } }
  finish s c.q.toNat c.n 0

/-- Folds of every image of a table. -/
def tableFolds (s : State) (t : Nat) : List Nat :=
  let tb := table s t
  ((match tb.img0 with | some i => dFolds i.desc | none => []) ++ (match tb.img1 with | some i => dFolds i.desc | none => [])).eraseDups

/-- TABLE_COMMIT without DROP judged, and stepped when its conditions hold. -/
def commitJudge (s : State) (c : Cmd) : State :=
  let ts := commitTids c
  let tb := ts.map (table s)
  if tb.any (fun t => !t.staged && !(match t.opened with | some o => o.rows | none => false)) then reject s c stBadState
  else if tb.any (fun t => t.prev.isSome ||
      (t.staged && (match imgOf t t.stagedIn with | some im => im.rows < dRows im.desc | none => true))) then s
  else if (ts.flatMap (tableFolds s)).any (if bit (cF c 17 1) 0 then ruHeld s else ruOff s) then s
  else
    let g := groupSet s ts
    if g.isEmpty then commitNow s c (fun _ => [])
    else if s.dl.dissolved ∨ !grpOn s ∨ !reaches s (leader s) then finish s c.q.toNat c.n stPeer
    else if s.dl.steps.any (fun t => t.q == c.q && t.n == c.n) then s
    else sendReady s c.q c.n false g none

/-- TABLE_COMMIT with DROP judged, and stepped when its conditions hold. -/
def dropJudge (s : State) (c : Cmd) : State :=
  let ts := commitTids c
  let tb := ts.map (table s)
  if tb.any (·.cur.isNone) then reject s c stBadState
  else if tb.any (fun t => t.staged || t.opened.isSome) then reject s c stTableBusy
  else if tb.any (·.prev.isSome) ∨ (ts.flatMap (tableFolds s)).any (ruOff s) then s
  else finish (ts.foldl dropTable s) c.q.toNat c.n 0

/-- TABLE_COMMIT_STEP: a waiting commit whose turn has come is judged and, when its conditions hold, takes
its step (R62, R63). -/
def execTableCommitStep (q : BitVec 10) (n : Word) (s : State) : Out :=
  .next (match cmd s q.toNat n with
    | none => s
    | some c =>
      if cOp c ≠ 5 ∨ c.phase ≠ .unit ∨ blockedBy s c then s
      else if cDrop c then dropJudge s c else commitJudge s c)

/-! ## TABLE_EXPORT (R129 to R131) -/

/-- Operand checks of TABLE_EXPORT (R271). -/
def exportOk (c : Cmd) : Bool :=
  bits (cF c 16 2) 15 12 == 0 && bits (cF c 18 1) 7 1 == 0 && zero c 19 1 && cF c 24 4 ≠ 0 && zero c 28 4 &&
    plainAddr (cF c 32 8) && zero c 48 16

/-- One row of an export: its slot, and whether it read poisoned (R130, R131, R406, R407). -/
def exportRow (s : State) (im : Image) (e : Epoch) (tid r : Nat) (atP : Bool) : State × Bytes × Bool :=
  let d := im.desc
  let f := (rowFold d r).1
  let k := resolve (fold s f) im f tid e.img r e.num.toNat
  let cls := k.2.1
  let c := readLoc s (ruPart s f) f k.1 (dSlot d cls) (some { tid := tid, row := r }) none
  let c := match k.2.2 with
    | some w => (repairPen c.1 f w (c.2.2 && k.1.pen && penA (dirAt (fold s f) w) == k.1.addr), c.2)
    | none => c
  let pop := rowCount s f im tid e.img r
  let out (b : Bytes) : Bytes := withPop b pop 0
  if c.2.2 then (c.1, poisonPat (dSlot d (if atP then dPclass d else cls)), true)
  else if atP && cls ≠ dPclass d then
    match masterOf (fold c.1 f) tid e.img r with
    | some m =>
      let w := fld c.2.1 24 4
      let b := deriveRow d (dPclass d) r w (mget false e.rule f) none (m.w.map (·.toNat))
      (ruStats (masterRuns c.1 f tid e.img r 0 (masterSize d) false) f b.2, out b.1, m.poison)
    | none => (c.1, out c.2.1, false)
  else (c.1, out c.2.1, false)

/-- The stream of an export (R130). -/
def exportStream (s : State) (im : Image) (e : Epoch) (tid first count : Nat) (atP : Bool) : State × Bytes × Bool :=
  let r := (List.range count).foldl (fun (a : State × Bytes × Bool) k =>
    let r := exportRow a.1 im e tid (first + k) atP
    (r.1, a.2.1 ++ r.2.1, a.2.2 || r.2.2)) (s, [], false)
  (r.1, slice im.desc 0 64 ++ toLE 4 e.num.toNat ++ toLE 4 first ++ toLE 4 count ++ toLE 1 (b2n atP) ++ toLE 19 0 ++
    slice e.root 0 32 ++ r.2.1, r.2.2)

/-- TABLE_EXPORT is judged, pins the current epoch, and its stream goes out. -/
def exportJudge (s : State) (c : Cmd) : State :=
  let tid := cF c 16 2 % 4096
  let t := table s tid
  match t.cur.bind (fun e => (imgOf t e.img).map (fun i => (e, i))) with
  | none => reject s c stBadState
  | some (e, im) =>
    let d := im.desc
    let first := cF c 20 4
    let count := cF c 24 4
    let atP := bit (cF c 18 1) 0
    if dRows d < first + count then reject s c stBadField
    else if s.dl.pair ≠ .none ∧ s.dl.mirror ∧ t.diverged then reject s c stDiverged
    else if cF c 40 8 < 128 + count * dSlot d (if atP then dPclass d else dCeil d) then reject s c stBadLength
    else if (rangeFolds d first count).any (fun f => !mayTouch s c im f false) then reject s c stRegionDenied
    else if (rangeFolds d first count).any (ruHeld s) then s
    else
      let u := queue s c.q.toNat
      let h := takeHandle s
      let s := pinCur h.2 tid
      let r := exportStream s im e tid first count atP
      let rq : Req := { handle := h.1, q := c.q, n := c.n, kind := .exp, cid := u.cid, world := u.world, part := u.part
                        pins := [(BitVec.ofNat 12 tid, e.num)], admitAt := s.np.ns, firstAt := some s.np.ns
                        poisoned := r.2.2 }
      let s := { r.1 with reqs := r.1.reqs ++ [rq] }
      let s := updCmd s c.q.toNat c.n (fun c => { c with handle := h.1, phase := .running })
      sendDst s c .exportRow (cF c 32 8) r.2.1

/-- TABLE_EXPORT goes on: it waits for its turn, and ends when its stream has been sent. -/
def exportGo (s : State) (c : Cmd) : State :=
  if c.phase = .running then
    if s.fe.xfers.any (fun t => t.q == c.q && t.n == c.n && t.kind == .exportRow && t.left ≠ 0) then s
    else finish s c.q.toNat c.n (match req s c.handle with | some r => if r.poisoned then stPoison else 0 | none => 0)
  else if blockedBy s c then s else exportJudge s c

/-- TABLE_EXPORT. -/
def execTableExport (q : BitVec 10) (n : Word) (s : State) : Out :=
  .next (ownGo 6 q.toNat n anyCmd (fun s c =>
    if !exportOk c then reject s c stBadField else setPhase (arrive s c) c .landed) exportGo s)

/-! ## The end of the grace (R57) -/

/-- A request still pinned to a retired epoch ends: it sends no further program and writes no further result data
(R57). -/
def retireReq (s : State) (r : Req) : State :=
  let mine (t : Xfer) : Bool := t.q == r.q && t.n == r.n && !t.read && t.kind != .completion
  let xs := (s.fe.xfers.filter (fun t => !(mine t && t.pieces.isEmpty))).map (fun t =>
    if mine t then { t with left := 0, data := [] } else t)
  let s := updReq { s with fe := { s.fe with xfers := xs } } r.handle (fun r => { r with retired := true })
  match cmd s r.q.toNat r.n with
  | some c =>
    if c.phase = .ended then updCmd s r.q.toNat r.n (fun c => { c with status := stRetired, tally8 := [] })
    else abortCmd s r.q.toNat r.n stRetired
  | none => s

/-- EPOCH_GRACE_EXPIRE: a previous epoch that still holds pins retires; the requests that it ends are those still
pinned to it, those that hold the group's pins and wait at admission among them (R52, R57, R377, R378). -/
def execEpochGraceExpire (tid : BitVec 12) (s : State) : Out :=
  .next (let t := table s tid.toNat
    match t.prev with
    | none => s
    | some p =>
      let rs := s.reqs.filter (fun r => r.pins.any (fun (i, n) => i == tid && n == p.num))
      let f := match imgOf t p.img with | some im => (dFolds im.desc).headD 0 | none => 0
      let s := rs.foldl retireReq s
      let cs := s.fe.cmds.filter (fun c => c.phase == .admission && (c.gotPin.getD []).any (fun (i, n) => i == tid && n == p.num))
      let s := cs.foldl (fun s c => finish s c.q.toNat c.n stRetired) s
      let s := cntN s (foldReg f aGxCntRetired) 0 (rs.length + cs.length)
      let s := { s with reqs := s.reqs.map (fun r => { r with pins := r.pins.filter (fun (i, n) => !(i == tid && n == p.num)) }) }
      prevGone s tid.toNat)

end Sys2Proof.Machine
end

