-- ==== Sys2Proof/Machine/Ru.lean ====
section
/-! DEFINITION. UPDATE: the checks of its batch, the routing of its rows, its three phases on each fold, its
commit point, its publication, and recovery (R58, R104 to R111, R117 to R124, R384, R389 to R392, R406). -/

namespace Sys2Proof.Machine

/-! ## The batch (R108 to R110) -/

/-- A checked section: its table, image, factor, merged rows with their gradient sums, and the folds of the
records merged into an earlier one. -/
structure Sec where
  tid : Nat
  img : Bool
  im : Image
  scale : Nat
  rows : List (Nat × List Nat)
  merged : List Nat
  deriving DecidableEq, Repr

/-- A sum of gradients added for a row, left to right; true where the row was there. -/
def mergeRow (r : Nat) (v : List Nat) : List (Nat × List Nat) → List (Nat × List Nat) × Bool
  | [] => ([(r, v)], false)
  | (k, w) :: l =>
    if k = r then ((k, (w.zip v).map (fun (a, b) => add32 a b)) :: l, true)
    else let m := mergeRow r v l; ((k, w) :: m.1, m.2)

/-- Gradient elements of a record. -/
def recVals (b : Bytes) (p dim : Nat) (bf : Bool) : List Nat :=
  (List.range dim).map (fun i => if bf then ofBf16 (fld b (p + 8 + 2 * i) 2) else fld b (p + 8 + 4 * i) 4)

/-- Records of a section, in order; none where one fails (R109). -/
def secRecs (b : Bytes) (d : Bytes) (bf : Bool) : Nat → Nat → List (Nat × List Nat) → List Nat →
    Option (List (Nat × List Nat) × List Nat)
  | 0, _, rows, merged => some (rows, merged)
  | n + 1, p, rows, merged =>
    let r := fld b p 4
    let next := p + recSize d bf
    if fld b (p + 4) 4 ≠ 0 then none
    else if r = 0xFFFFFFFF then secRecs b d bf n next rows merged
    else if dRows d ≤ r then none
    else
      let v := recVals b p (dDim d) bf
      if v.any nonFin then none
      else
        let m := mergeRow r v rows
        secRecs b d bf n next m.1 (if m.2 then merged ++ [(rowFold d r).1] else merged)

/-- A table takes no UPDATE here: it has no current epoch, is not trained, or is mirrored on a mirror (R109,
R389). -/
def noUpdate (s : State) (tid : Nat) : Bool :=
  let t := table s tid
  (match curDesc t with | some d => !dTrained d | none => true) ||
    (s.dl.pair != .none && s.dl.mirror && s.dl.mtids.contains (BitVec.ofNat 12 tid))

/-- Sections checked in batch order from an offset, with those before (R109 steps 2 and 3). -/
def secCheck (s : State) (b : Bytes) : Nat → Nat → List Sec → Status ⊕ List Sec
  | 0, off, l => if off = fld b 4 4 then .inr l else .inl stBadLength
  | k + 1, off, l =>
    let tid := fld b off 2 % 4096
    let bf := bit (fld b (off + 2) 1) 0
    let n := fld b (off + 4) 4
    let gs := fld b (off + 8) 4
    if fld b 4 4 < off + 32 then .inl stBadLength
    else if bits (fld b off 2) 15 12 ≠ 0 ∨ bits (fld b (off + 2) 1) 7 1 ≠ 0 ∨ fld b (off + 3) 1 ≠ 0 ∨ 1048576 < n ∨
        nonFin gs ∨ fld b (off + 12) 20 ≠ 0 ∨ l.any (fun x => x.tid == tid) then .inl stBadField
    else if noUpdate s tid then .inl stBadState
    else match (table s tid).cur.bind (fun e => (imgOf (table s tid) e.img).map (fun i => (e.img, i))) with
      | none => .inl stBadState
      | some (img, im) =>
        let fin := off + 32 + n * recSize im.desc bf
        if fld b 4 4 < fin then .inl stBadLength
        else match secRecs b im.desc bf n (off + 32) [] [] with
          | none => .inl stBadField
          | some (rows, merged) =>
            secCheck s b k fin (l ++ [{ tid := tid, img := img, im := im, scale := gs, rows := rows, merged := merged }])

/-- The checks of a batch that need no pool (R109 steps 1 to 4). -/
def batchCheck (s : State) (b : Bytes) : Status ⊕ List Sec :=
  if bits (fld b 2 2) 15 1 ≠ 0 ∨ fld b 8 24 ≠ 0 ∨ fld b 0 2 = 0 ∨ 16 < fld b 0 2 then .inl stBadField
  else match secCheck s b (fld b 0 2) 32 [] with
    | .inl st => .inl st
    | .inr l =>
      if l.any (fun x => (table s x.tid).staged || (match (table s x.tid).opened with | some o => o.rows | none => false)) then
        .inl stTableBusy
      else .inr l

/-- LATE_FLUSH. -/
def bFlush (b : Bytes) : Bool := bit (fld b 2 2) 0

/-- The merged gradient of a row (R110). -/
def gradOf (d : Bytes) (scale : Nat) (sum : List Nat) : List Nat :=
  let clip := dFp d 56
  sum.map (fun x =>
    let g := mul32 scale x
    if clip ≠ 0 ∧ !isNan32 g ∧ clip < abs32 g then (if 2 ^ 31 ≤ g then clip + 2 ^ 31 else clip) else g)

/-! ## Routing (R104, R111, R117) -/

/-- A merged row on its way. -/
structure RowUp where
  f : Nat
  tid : Nat
  img : Bool
  row : Nat
  dim : Nat
  g : List Nat
  /-- It takes the master path. -/
  master : Bool
  /-- It is admitted. -/
  admits : Bool
  /-- Its admission was skipped for lack of room. -/
  skip : Bool
  /-- Its WSEQ. -/
  wseq : Nat
  deriving DecidableEq, Repr

/-- Bytes of masters that rows on a fold will take. -/
def admitBytes (s : State) (f : Nat) (l : List RowUp) : Nat :=
  (l.map (fun r => if r.admits && r.f == f then
    (match imgOf (table s r.tid) r.img with | some im => masterSize im.desc | none => 0) else 0)).sum

/-- Where a merged row goes, after the rows before it and the admissions of the UPDATEs under way; its WSEQ is its
master's, or its working copy's where it has none (R102, R104). -/
def routeRow (s : State) (x : Sec) (l : List RowUp) (r : Nat) (sum : List Nat) : RowUp :=
  let d := x.im.desc
  let f := (rowFold d r).1
  let fo := fold s f
  let has := (masterOf fo x.tid x.img r).isSome
  let want := !has && (dAdmit d == 0 || dAdmit d ≤ rowCount s f x.im x.tid x.img r) &&
    !(fo.deltas.any (fun e => e.tid.toNat == x.tid && e.img == x.img && e.row.toNat == r)) && rb s (foldReg f aRuCtl) 0 0
  let set (y : RowUp) : Bool := y.admits && y.f == f && mSet y.tid y.img y.row == mSet x.tid x.img r
  let due := unseeded fo
  let idx := (fo.masters.filter (fun m => !m.lost && mSet m.tid.toNat m.img m.row.toNat == mSet x.tid x.img r)).length +
    (due.filter (fun j => mSet j.tid.toNat j.img j.row.toNat == mSet x.tid x.img r)).length + (l.filter set).length
  let room := idx < 16 && masterUsed s f 0 false + masterDue s f 4096 + admitBytes s f l + masterSize d ≤ masterPool s f
  { f := f, tid := x.tid, img := x.img, row := r, dim := dDim d, g := gradOf d x.scale sum, master := has || (want && room)
    admits := want && room, skip := want && !room
    wseq := match masterOf fo x.tid x.img r with | some m => m.wseq.toNat | none => rowWseq s x.im f x.tid x.img r }

/-- The rows of a batch with their ways. -/
def routeAll (s : State) (l : List Sec) : List RowUp :=
  l.foldl (fun a x => x.rows.foldl (fun a (r, g) => a ++ [routeRow s x a r g]) a) []

/-- Rows of a table with due records on a fold, once each. -/
def dueRows (s : State) (o : Nat) (flush : Bool) (f tid : Nat) (img : Bool) : List Nat :=
  ((dueOn (fold s f) o flush tid img).map (fun d => d.row.toNat)).eraseDups

/-- A row of a batch changes its working copy in the batch's own step: on the master path, or under LATE_FLUSH
(R58, R118). -/
def changesNow (flush : Bool) (r : RowUp) : Bool := r.master || flush

/-- The tables an UPDATE changes, with the epochs it builds (R58). -/
def changedTabs (s : State) (l : List Sec) (rs : List RowUp) (flush : Bool) : List (BitVec 12 × Word) :=
  (l.filter (fun x =>
    let o := (buildEpoch (table s x.tid)).toNat
    rs.any (fun r => r.tid == x.tid && changesNow flush r) ||
      (dFolds x.im.desc).any (fun f => !(dueRows s o flush f x.tid x.img).isEmpty))).map
    (fun x => (BitVec.ofNat 12 x.tid, buildEpoch (table s x.tid)))

/-- Journal room of the drop and class change records of one table on a fold: the 4,096 of each that R46 and R106
allow for each epoch that opens (R109, log entry 128). -/
def stepRoom : Nat := 2 * 4096 * 32

/-- Journal bytes that a batch needs on a fold. -/
def jNeed (l : List Sec) (rs : List RowUp) (op : List (BitVec 12 × Word)) (f : Nat) : Nat :=
  ((rs.filter (fun r => r.f == f && r.master)).map (fun r => 32 + 4 * r.dim + 32 * b2n r.admits)).sum +
    stepRoom * (l.filter (fun x => bit (dMask x.im.desc) f && op.any (fun (t, _) => t.toNat == x.tid))).length

/-- Delta log bytes that a batch needs on a fold. -/
def dNeed (rs : List RowUp) (f : Nat) : Nat :=
  ((rs.filter (fun r => r.f == f && !r.master)).map (fun r => 32 + 4 * r.dim)).sum

/-- Bytes of aside slots that a batch needs on a fold, each row's counted as a slot at PASTURE_CLASS (R56, log entry
129). -/
def asideNeed (s : State) (l : List Sec) (rs : List RowUp) (flush : Bool) (f : Nat) : Nat :=
  (l.map (fun x =>
    let o := (buildEpoch (table s x.tid)).toNat
    let a := (rs.filter (fun r => r.f == f && changesNow flush r && r.tid == x.tid)).map (·.row)
    dPslot x.im.desc * ((a ++ dueRows s o flush f x.tid x.img).eraseDups).length)).sum

/-- Journal room of drop and class change records kept for UPDATEs under way on a fold. -/
def jKept (s : State) (f : Nat) : Nat :=
  ((s.fe.cmds.filter (fun c => cOp c == 3 && (c.phase == .unit || c.phase == .running))).map (fun c =>
    (c.opens.map (fun (t, _) =>
      let used := ((fold s f).journal.filter (fun j => !j.mir && j.handle == c.handle && j.tid == t && 3 ≤ j.kind.toNat)).length
      match curDesc (table s t.toNat) with
      | some d => if bit (dMask d) f then stepRoom - 32 * used else 0
      | none => 0)).sum)).sum

/-! ## Phase 1 (R117, R121, R122) -/

/-- Phase 1 of a row. -/
def phase1 (s : State) (u : Up) (r : RowUp) : State :=
  let o := (buildEpoch (table s r.tid)).toNat
  let g := r.g.map (BitVec.ofNat 32)
  let s := if r.skip then rsetF (cnt s (foldReg r.f aRuCntAdmitSkip)) (foldReg r.f aRuStat) 0 3 3 1 else s
  if r.master then
    let s := if r.admits then putJ s r.f (jNew u r.tid r.img 2 0 r.row r.wseq o []) else s
    putJ s r.f (jNew u r.tid r.img 1 0 r.row (r.wseq + 1) o g)
  else
    let k := match imgOf (table s r.tid) r.img with | some im => dLateK im.desc | none => 1
    let d : Delta := { row := BitVec.ofNat 32 r.row, tid := BitVec.ofNat 12 r.tid, img := r.img, origin := BitVec.ofNat 32 o
                       due := epochPlus (BitVec.ofNat 32 o) k, d := g, upd := some u.h, mir := u.mir }
    cnt (putD s r.f d) (foldReg r.f aRuCntLateLog)

/-- The primary of a live pair streams a table's updates (R391, R392, R394). -/
def streams (s : State) (tid : BitVec 12) : Bool :=
  s.dl.pair == .sync && !s.dl.mirror && !s.dl.silent && s.dl.mtids.contains tid && !(table s tid.toNat).diverged

/-- Records of an UPDATE for the mirrored tables, in journal order. -/
def streamRecs (s : State) (u : Up) (kinds : Nat → Bool) : List Bytes :=
  s.folds.flatMap (fun (_, x) => (x.journal.filter (fun j => jMine u j && kinds j.kind.toNat && streams s j.tid)).map jrecBytes)

/-- Records sent as STREAM messages in order, at most 1,024 to a message; the last says that the stream is whole (R372,
R391, log entry 160). -/
def sendRecs (s : State) (h : Half) (tag : Nat) (es : List (BitVec 12 × Word)) (recs ds : List Bytes) : State :=
  let n := max 1 ((recs.length + ds.length + 1023) / 1024)
  let all := recs.map (fun b => (true, b)) ++ ds.map (fun b => (false, b))
  (List.range n).foldl (fun s k =>
    let l := (all.drop (1024 * k)).take 1024
    droveSend s s.dl.partner.toNat (.stream h (BitVec.ofNat 64 tag) (if k = 0 then es else [])
      ((l.filter (·.1)).map (·.2)) ((l.filter (fun x => !x.1)).map (·.2)) (k + 1 == n))) s

/-- The stream of an UPDATE that names a mirrored table goes to the mirror (R391 step 1); under LATE_FLUSH it
also carries the pending delta records, made due in the epoch that the UPDATE builds. -/
def sendStream (s : State) (u : Up) (tag : Nat) (op : List (BitVec 12 × Word)) (tids : List Nat) (flush : Bool) : State :=
  if tids.any (fun t => streams s (BitVec.ofNat 12 t)) then
    let mine (d : Delta) : Bool := d.upd == some u.h && !d.mir
    let ds := s.folds.flatMap (fun (_, x) => (x.deltas.filter (fun d => streams s d.tid &&
      (mine d || (flush && !d.applied && tids.contains d.tid.toNat)))).map (fun d =>
        deltaBytes (if flush then { d with due := buildEpoch (table s d.tid.toNat) } else d)))
    let es := op.filter (fun (t, _) => streams s t)
    let s' := { s with dl := { s.dl with mirrored := s.dl.mirrored ++ [{ upd := u.h, step2 := !es.isEmpty }] } }
    sendRecs s' u.h tag es (streamRecs s u (fun _ => true)) ds
  else s

/-- The batch judged in its turn, routed, and logged (R109 to R111, R122 step 1). -/
def updateJudge (s : State) (c : Cmd) : State :=
  match batchCheck s c.data with
  | .inl st => reject s c st
  | .inr l =>
    let rs := routeAll s l
    let flush := bFlush c.data
    let op := changedTabs s l rs flush
    let fs := List.range 8
    let touched := fs.filter (fun f => rs.any (fun r => r.f == f) || op.any (fun (t, _) =>
      match curDesc (table s t.toNat) with | some d => bit (dMask d) f | none => false))
    if fs.any (fun f => jPool s f < jNeed l rs op f || dPool s f < dNeed rs f || asidePast s f < asideNeed s l rs flush f) then
      reject s c stNoResource
    else if l.any (fun x => ((x.rows.map (fun (r, _) => (rowFold x.im.desc r).1)).eraseDups).any (fun f => !mayTouch s c x.im f true)) then
      reject s c stRegionDenied
    else if touched.any (ruHeld s) then s
    else
      let jw := fs.filter (fun f => jNeed l rs op f ≠ 0 && jPool s f < jUsed (fold s f) + jKept s f + jNeed l rs op f)
      let dw := fs.filter (fun f => dNeed rs f ≠ 0 && dPool s f < dUsed (fold s f) + dNeed rs f)
      if !jw.isEmpty ∨ !dw.isEmpty then
        let s := jw.foldl (fun s f => rsetF s (foldReg f aRuStat) 0 1 1 1) s
        dw.foldl (fun s f => rsetF s (foldReg f aRuStat) 0 2 2 1) s
      else
        let h := takeHandle s
        let u : Up := { h := h.1, mir := false }
        let s := rs.foldl (fun s r => phase1 s u r) h.2
        let s := (l.flatMap (·.merged)).foldl (fun s f => cnt s (foldReg f aRuCntMerged)) s
        let s := updCmd s c.q.toNat c.n (fun c => { c with handle := h.1, opens := op, phase := .unit })
        sendStream s u (cTag c) op (l.map (·.tid)) flush

/-! ## Steps 2 to 5 of R122 -/

/-- A table that an UPDATE changes, with its image and the epoch it builds. -/
structure UpTab where
  tid : Nat
  img : Bool
  im : Image
  o : Nat
  deriving DecidableEq, Repr

/-- The tables of an UPDATE that still have a current epoch. -/
def upTabs (s : State) (op : List (BitVec 12 × Word)) : List UpTab :=
  op.filterMap (fun (t, o) =>
    let tb := table s t.toNat
    tb.cur.bind (fun e => (imgOf tb e.img).map (fun i => { tid := t.toNat, img := e.img, im := i, o := o.toNat })))

/-- Those of them that a fold holds. -/
def upOn (ts : List UpTab) (f : Nat) : List UpTab := ts.filter (fun t => bit (dMask t.im.desc) f)

/-- Phases 2 and 3 and the late applications of an UPDATE's tables on one fold, each step over all of them before the
next; false where a write waits, which holds the steps after it (R122). -/
def rollFold (s : State) (u : Up) (ts : List UpTab) (flush : Bool) (f : Nat) : State × Bool :=
  let ts := upOn ts f
  let s := ts.foldl (fun s t => (jRows (fold s f) u 1 t.tid t.img).foldl (fun s j => phase2 s u t.im f t.tid t.img t.o j) s) s
  let a := ts.foldl (fun (a : State × Bool) t => (jRows (fold a.1 f) u 1 t.tid t.img).foldl (fun (a : State × Bool) j =>
    let r := phase3 a.1 t.im f t.tid t.img t.o j; (r.1, a.2 && r.2)) a) (s, true)
  if !a.2 then a
  else ts.foldl (fun (a : State × Bool) t => (dueRows a.1 t.o flush f t.tid t.img).foldl (fun (a : State × Bool) r =>
    let b := lateRow a.1 t.im f t.tid t.img t.o flush r; (b.1, a.2 && b.2)) a) a

/-- The drops of a fold for an UPDATE, then its class changes (R106). -/
def openFold (s : State) (u : Up) (ts : List UpTab) (f : Nat) : State :=
  let ts := upOn ts f
  let s := ts.foldl (fun s t => ownDrops s u t.im f t.tid t.img t.o) s
  ts.foldl (fun s t => ownChanges s u t.im f t.tid t.img t.o) s

/-- The open epochs of an UPDATE's tables opened, with each fold's drops and class changes before any working-copy
write (R53, R106). -/
def openBy (s : State) (u : Up) (ts : List UpTab) : State :=
  let s := ts.foldl (fun s t => openEpoch s t.tid t.im.desc false) s
  if u.mir then s else (List.range 8).foldl (fun s f => openFold s u ts f) s

/-- Drops and class changes of a fold carried out from an UPDATE's records; false where one waits. -/
def carryOut (s : State) (u : Up) (ts : List UpTab) (f : Nat) : State × Bool :=
  let ts := upOn ts f
  let s := ts.foldl (fun s t => carryDrops s u f t.tid t.img) s
  ts.foldl (fun (a : State × Bool) t =>
    let r := carryChanges a.1 u t.im f t.tid t.img t.o; (r.1, a.2 && r.2)) (s, true)

/-- One fold's part of an UPDATE past its commit point moved on; a mirror carries its partner's drops and class
changes out first (R107, R122). -/
def moveFold (s : State) (u : Up) (ts : List UpTab) (flush : Bool) (f : Nat) : State × Bool :=
  if (upOn ts f).isEmpty then (s, true)
  else if ruHeld s f then (s, false)
  else
    let a := if u.mir then carryOut s u ts f else (s, true)
    if a.2 then rollFold a.1 u ts flush f else a

/-- An UPDATE moved on: its epochs open together, once every previous epoch is unreadable, and each fold goes on;
false where something waits (R53, R58, R122). -/
def rollAll (s : State) (u : Up) (flush : Bool) (op : List (BitVec 12 × Word)) : State × Bool :=
  let ts := upTabs s op
  let closed := ts.filter (fun t => (table s t.tid).opened.isNone)
  let fs := (List.range 8).filter (fun f => !(upOn ts f).isEmpty)
  if !closed.isEmpty && (closed.any (fun t => (table s t.tid).prev.isSome) || fs.any (ruHeld s)) then (s, false)
  else
    let s := if closed.isEmpty then s else openBy s u closed
    fs.foldl (fun (a : State × Bool) f => let r := moveFold a.1 u ts flush f; (r.1, a.2 && r.2)) (s, true)

/-- The tables of a list whose epochs are open. -/
def allOpen (s : State) (op : List (BitVec 12 × Word)) : Bool := op.all (fun (t, _) => (table s t.toNat).opened.isSome)

/-- An UPDATE past its commit point moved on: the mirror gets the drops and class changes when they are
made (R391). -/
def updateRoll (s : State) (c : Cmd) : State :=
  let u : Up := { h := c.handle, mir := false }
  let before := allOpen s c.opens
  let r := rollAll s u (bFlush c.data) c.opens
  let s := r.1
  let s := if !before && allOpen s c.opens && !s.dl.silent && s.dl.mirrored.any (fun m => m.upd == c.handle && m.step2) then
      sendRecs s c.handle (cTag c) [] (streamRecs s u (fun k => 3 ≤ k)) []
    else s
  if r.2 then setPhase (c.opens.foldl (fun s (t, _) => rehash s t.toNat) s) c .running else s

/-- UPDATE goes on. -/
def updateGo (s : State) (c : Cmd) : State :=
  match c.phase with
  | .landed =>
    let tids := (sections s c.data).map (·.2)
    let held := tids.any (fun t => s.dl.forming.any (fun x => x.tid.toNat == t) ||
      (s.dl.swap != .no && !s.dl.mirror && s.dl.mtids.contains (BitVec.ofNat 12 t)))
    if blockedBy s c ∨ held then s else updateJudge s c
  | .unit => if c.committed then updateRoll s c else s
  | _ => s

/-- UPDATE: reads its batch, is judged in its turn, and after its commit point runs its phases (R108 to
R122, R271). -/
def execUpdate (q : BitVec 10) (n : Word) (s : State) : Out :=
  .next (ownGo 3 q.toNat n anyCmd (fun s c =>
    if !zero c 16 4 ∨ !zero c 32 32 then reject s c stBadField
    else if cF c 20 4 < 32 then reject s c stBadLength
    else if !srcOk c (cF c 24 8) (cF c 20 4) then reject s c stBadField
    else fetchSrc (arrive s c) c .batch (cF c 24 8) (cF c 20 4))
    (fun s c =>
      if c.phase = .landed ∧ fld c.data 4 4 ≠ cF c 20 4 then reject s c stBadLength else updateGo s c) s)

/-! ## Commit point, publication, recovery -/

/-- UPDATE_COMMIT_POINT: phase 1 is over on every fold, and on a live pair PREPARED has come (R123, R391,
R392). -/
def execUpdateCommitPoint (q : BitVec 10) (n : Word) (s : State) : Out :=
  .next (match cmd s q.toNat n with
    | none => s
    | some c =>
      if cOp c ≠ 3 ∨ c.phase ≠ .unit ∨ c.committed then s
      else
        let m := s.dl.mirrored.find? (fun m => m.upd == c.handle)
        let live := s.dl.pair == .sync && !s.dl.silent
        if live && (match m with | some m => !m.prepared | none => false) then s
        else
          let s := updCmd s q.toNat n (fun c => { c with committed := true })
          if live && m.isSome then cnt (droveSend s s.dl.partner.toNat (.commit c.handle)) aDlCntStream else s)

/-- What an UPDATE kept in the logs is freed (R120, R122). -/
def freeLogs (s : State) (u : Up) (op : List (BitVec 12 × Word)) : State :=
  { s with folds := mmap {} (fun x => { x with
      journal := x.journal.filter (fun j => !jMine u j)
      deltas := (x.deltas.filter (fun d => !(d.applied && op.any (fun (t, _) => t == d.tid)))).map (fun d =>
        if d.upd = some u.h ∧ d.mir = u.mir then { d with upd := none } else d) }) s.folds }

/-- The publication of an UPDATE: every table it changed, in one step, and its end (R58). -/
def publishUpd (s : State) (c : Cmd) (roots : Nat → List Bytes) : State :=
  let u : Up := { h := c.handle, mir := false }
  let s := freeLogs s u c.opens
  let s := c.opens.foldl (fun s (t, _) => publishTable s t.toNat (roots t.toNat)) s
  let s := { s with dl := { s.dl with steps := s.dl.steps.filter (fun t => !(t.q == c.q && t.n == c.n))
                                      mirrored := s.dl.mirrored.filter (fun m => m.upd ≠ c.handle) } }
  finish s c.q.toNat c.n 0

/-- UPDATE_PUBLISH: every fold has finished; the new epochs become current in one step, group tables through
the barrier (R58, R122, R384, R387). -/
def execUpdatePublish (q : BitVec 10) (n : Word) (s : State) : Out :=
  .next (match cmd s q.toNat n with
    | none => s
    | some c =>
      if cOp c ≠ 3 ∨ c.phase ≠ .running then s
      else
        let g := groupSet s (c.opens.map (fun (t, _) => t.toNat))
        if g.isEmpty ∨ s.dl.dissolved ∨ !grpOn s then publishUpd s c (fun _ => [])
        else if s.dl.steps.any (fun t => t.q == q && t.n == n) then s
        else sendReady s q n true g none)

/-- Rows of a fold that recovery has to finish for the tables of an UPDATE, each once: those whose working copy is
behind, those with due records, and those whose drop or class change is still to be carried out (R124). -/
def toFinish (s : State) (u : Up) (ts : List UpTab) (flush : Bool) (f : Nat) : Nat :=
  (ts.map (fun t =>
    let x := fold s f
    let rows (k : Nat) (p : Jrec → Bool) : List Nat := ((jRows x u k t.tid t.img).filter p).map (fun j => j.row.toNat)
    let has (j : Jrec) : Bool := (masterOf x t.tid t.img j.row.toNat).isSome
    let cls (j : Jrec) : Nat := match probe x t.tid t.img j.row.toNat with | some k => (dirAt x k).cls.toNat | none => dPclass t.im.desc
    ((rows 1 (fun j => rowWseq s t.im f t.tid t.img j.row.toNat != j.usn.toNat) ++ dueRows s t.o flush f t.tid t.img ++
      rows 3 has ++ rows 4 (fun j => has j && cls j != j.arg.toNat)).eraseDups).length)).sum

/-- Recovery of one fold for one UPDATE, over its tables whose epochs are open; false where a write waits
(R124). -/
def recoverUp (s : State) (u : Up) (flush : Bool) (op : List (BitVec 12 × Word)) (f : Nat) : State × Bool :=
  let ts := (upOn (upTabs s op) f).filter (fun t => (table s t.tid).opened.isSome)
  let n := toFinish s u ts flush f
  let a := carryOut s u ts f
  let r := if a.2 then rollFold a.1 u ts flush f else a
  (cntN r.1 (foldReg f aRuCntRollfwd) 0 (n - toFinish r.1 u ts flush f), r.2)

/-- RECOVERING_CLEAR: an RU that has left reset finishes every UPDATE past its commit point forward, then
takes work again (R124, R125). -/
def execRecoveringClear (f : Fin 8) (s : State) : Out :=
  .next (if !recovering s f then s
    else
      let cs := s.fe.cmds.filter (fun c => cOp c == 3 && c.committed && c.phase == .unit)
      let r := cs.foldl (fun (a : State × Bool) c =>
        let b := recoverUp a.1 { h := c.handle, mir := false } (bFlush c.data) c.opens f
        (b.1, a.2 && b.2)) (s, true)
      let r := (r.1.dl.streams.filter (·.committed)).foldl (fun (a : State × Bool) t =>
        let b := recoverUp a.1 { h := t.upd, mir := true } false t.epochs f
        (b.1, a.2 && b.2)) r
      if r.2 then rsetF (updUnit r.1 (2 + f) (fun u => { u with st := .service })) (foldReg f aRuStat) 0 0 0 0 else r.1)

end Sys2Proof.Machine
end

