-- ==== Sys2Proof/Machine/Drove.lean ====
section
/-! DEFINITION. Column groups: the rendezvous of group requests, the epoch barrier, collectives as their
messages arrive, and DISSOLVE (R373 to R388). -/

namespace Sys2Proof.Machine

/-! ## Records of the leader (R377, R378) -/

/-- The mirror of the leader's slot. -/
def leadMirror (s : State) : Nat := memMirr s 0

/-- The leader's state sent on to its mirror, while that is in SYNC (R388). -/
def toLeadMirror (s : State) (m : Instr) : State :=
  if leader s == myId s && leadMirror s ≠ 0xFFF && s.dl.pair == .sync && !s.dl.silent && s.dl.partner.toNat == leadMirror s then
    droveSend s (leadMirror s) m else s

/-- A group hold dropped on this part: the previous epoch may become unreadable (R378). -/
def dropHold (s : State) (tid : Nat) (n : Word) : State :=
  checkPrev (updTable s tid (fun t => { t with prev := t.prev.map (fun p => if p.num = n then { p with holds := 0 } else p) })) tid

/-- RELEASE to every member and mirror, this part among them. -/
def sendRelease (s : State) (t : BitVec 12 × Word) : State :=
  let s := ((allParts s).filter (fun p => p ≠ myId s)).foldl (fun s p => droveSend s p (.release t.1 t.2)) s
  dropHold s t.1.toNat t.2

/-- A PIN_REQ answered from the record of its key, opened if there is none (R377). -/
def answerPin (s : State) (src : BitVec 12) (key : Word) (tids : List (BitVec 12)) : State :=
  let r := (s.dl.records.find? (fun r => r.key == key)).getD
    { key := key, arrivals := []
      epochs := tids.filterMap (fun t => (table s t.toNat).cur.map (fun e => (t, e.num))) }
  let r := { r with arrivals := if r.arrivals.contains src then r.arrivals else r.arrivals ++ [src] }
  let s := toLeadMirror s (.record key r.epochs r.arrivals)
  let full := (List.range (grpN s)).all (fun i => r.arrivals.any (fun p => p.toNat == memPrim s i || p.toNat == memMirr s i))
  let rest := s.dl.records.filter (fun x => x.key ≠ key)
  let s := { s with dl := { s.dl with records := if full then rest else rest ++ [r] } }
  let s := if src.toNat = myId s then emit s (.drove src (.pin key r.epochs)) else droveSend s src.toNat (.pin key r.epochs)
  if full then (r.epochs.filter (fun t => !named s t)).foldl sendRelease s else s

/-- A PIN_REQ of a key can be answered: its record is open, or one of the 4,096 is free. -/
def pinRoom (s : State) (key : Word) : Bool :=
  decide (s.dl.records.length < 4096) || s.dl.records.any (fun r => r.key == key)

/-- PIN_REQs that waited for room among the records, oldest first, as many as can be answered now; `n` bounds them. -/
def serveWaiting : Nat → State → State
  | 0, s => s
  | n + 1, s =>
    match s.dl.waitingPins.find? (fun w => pinRoom s w.2.1) with
    | none => s
    | some w => serveWaiting n (answerPin { s with dl := { s.dl with waitingPins := s.dl.waitingPins.erase w } } w.1 w.2.1 w.2.2)

/-- Every waiting PIN_REQ that can be answered. -/
def servePins (s : State) : State := serveWaiting s.dl.waitingPins.length s

/-- PIN_REQ: the leader opens or uses the record of the key and answers; on a part without a group the
request is turned away (R377, R387). -/
def execPinReq (src : BitVec 12) (key : Word) (tids : List (BitVec 12)) (s : State) : Out :=
  .next (if s.dl.dissolved ∨ !grpOn s then droveSend s src.toNat (.abandon key)
    else if leader s ≠ myId s then s
    else if !pinRoom s key then
      { s with dl := { s.dl with waitingPins := s.dl.waitingPins ++ [(src, key, tids)] } }
    else servePins (answerPin s src key tids))

/-- PIN: the requesting part pins the epochs it received; one that is not readable ends the request (R57,
R377). -/
def execPin (key : Word) (epochs : List (BitVec 12 × Word)) (s : State) : Out :=
  .next (let s := cnt s aDlCntPin
    match s.fe.cmds.find? (fun c => c.asked == some key && c.phase == .admission && c.gotPin.isNone) with
    | none => s
    | some c =>
      if epochs.any (fun (t, n) => (epochOf (table s t.toNat) n).isNone) then finish s c.q.toNat c.n stRetired
      else
        let s := epochs.foldl (fun s (t, n) => pinNum s t.toNat n) s
        updCmd s c.q.toNat c.n (fun c => { c with gotPin := some epochs }))

/-- RECORD: the leader's mirror keeps the record; one whose members have all arrived is closed (R377,
R388). -/
def execRecord (key : Word) (epochs : List (BitVec 12 × Word)) (arrivals : List (BitVec 12)) (s : State) : Out :=
  .next (let full := (List.range (grpN s)).all (fun i => arrivals.any (fun p => p.toNat == memPrim s i || p.toNat == memMirr s i))
    let rest := s.dl.records.filter (fun x => x.key ≠ key)
    { s with dl := { s.dl with records := if full then rest else rest ++ [{ key := key, epochs := epochs, arrivals := arrivals }] } })

/-- KEY_RECORD_TIMEOUT: an open record closes (R377, R378). -/
def execKeyRecordTimeout (key : Word) (s : State) : Out :=
  .next (match s.dl.records.find? (fun r => r.key == key) with
    | none => s
    | some r =>
      let s := { s with dl := { s.dl with records := s.dl.records.filter (fun x => x.key ≠ key) } }
      let s := if isLeader s then (r.epochs.filter (fun t => !named s t)).foldl sendRelease s else s
      servePins s)

/-- RELEASE: no open record names the epoch any more (R378). -/
def execRelease (tid : BitVec 12) (epoch : Word) (s : State) : Out := .next (dropHold s tid.toNat epoch)

/-! ## The barrier (R384 to R386) -/

/-- Two sets of tables share one. -/
def shares (a b : List StepTab) : Bool := a.any (fun x => b.any (fun y => x.tid == y.tid))

/-- READYs joined to a set by common tables, `n` times over. -/
def joinReady (l : List ReadyRec) : Nat → List StepTab → List StepTab
  | 0, set => set
  | n + 1, set =>
    let set' := (l.filter (fun r => shares r.tabs set)).flatMap (·.tabs)
    joinReady l n ((set ++ set').foldl (fun a x => if a.any (fun y => y.tid == x.tid && y.epoch == x.epoch) then a else a ++ [x]) [])

/-- The set S of a table: the READYs that belong to it (R384 step 2). -/
def readySet (s : State) (tid : BitVec 12) : List ReadyRec :=
  let l := s.dl.readys
  let set := joinReady l l.length ((l.flatMap (·.tabs)).filter (fun x => x.tid == tid))
  l.filter (fun r => shares r.tabs set)

/-- (TID, epoch) pairs of a set of READYs. -/
def pairsOf (l : List ReadyRec) : List (BitVec 12 × Word) := ((l.flatMap (·.tabs)).map (fun x => (x.tid, x.epoch))).eraseDups

/-- READYs of a set disagree: in the epoch of a table, or in kind (R385). -/
def mismatched (l : List ReadyRec) : Bool :=
  l.any (fun a => l.any (fun b => shares a.tabs b.tabs && (a.upd != b.upd ||
    a.tabs.any (fun x => b.tabs.any (fun y => x.tid == y.tid && x.epoch != y.epoch)))))

/-- Parts that a barrier needs: every primary, and the mirrors that their primaries' READYs say are in SYNC (R384, log
entry 89). -/
def barrierParts (s : State) (l : List ReadyRec) : List Nat :=
  (List.range (grpN s)).flatMap (fun i =>
    let sync := l.any (fun r => r.src.toNat == memPrim s i && r.tabs.any (·.sync))
    [memPrim s i] ++ (if memMirr s i ≠ 0xFFF && sync then [memMirr s i] else []))

/-- READY is in for every pair of the set from every part that the barrier needs. -/
def complete (s : State) (l : List ReadyRec) : Bool :=
  (pairsOf l).all (fun (t, e) => (barrierParts s l).all (fun p =>
    l.any (fun r => r.src.toNat == p && r.tabs.any (fun x => x.tid == t && x.epoch == e))))

/-- Slice roots of each table of a set, in SLICE_INDEX order, from the primaries' READYs. -/
def rootsOf (s : State) (l : List ReadyRec) : List (BitVec 12 × List Bytes) :=
  (pairsOf l).map (fun (t, e) => (t, (List.range (grpN s)).map (fun i =>
    ((l.find? (fun r => r.src.toNat == memPrim s i && r.tabs.any (fun x => x.tid == t && x.epoch == e))).bind
      (fun r => (r.tabs.find? (fun x => x.tid == t)).map (·.root))).getD [])))

/-- A mirror's streamed UPDATE published: its tables become current and its tag is recorded (R391). -/
def publishStream (s : State) (h : Half) (roots : Nat → List Bytes) : State :=
  match s.dl.streams.find? (fun t => t.upd == h && t.committed) with
  | none => s
  | some t =>
    let s := freeLogs s { h := h, mir := true } t.epochs
    let s := t.epochs.foldl (fun s (x, _) => publishTable s x.toNat (roots x.toNat)) s
    let s := { s with dl := { s.dl with streams := s.dl.streams.filter (fun x => !(x.upd == h && x.committed))
                                        steps := s.dl.steps.filter (fun x => x.str ≠ some h) } }
    rset64 s aDlPairLastTagLo 0 t.tag.toNat

/-- A part publishes the steps of a set (R384 step 4). -/
def applyGo (s : State) (set : List (BitVec 12 × Word)) (roots : List (BitVec 12 × List Bytes)) : State :=
  let root (t : Nat) : List Bytes := ((roots.find? (fun (x, _) => x.toNat == t)).map (·.2)).getD []
  let mine := s.dl.steps.filter (fun t => t.set.any (fun x => set.contains x))
  let s := cnt s aDlCntBarrier
  let s := { s with dl := { s.dl with readys := s.dl.readys.filter (fun r => !(r.tabs.any (fun x => set.contains (x.tid, x.epoch)))) } }
  mine.foldl (fun s t =>
    match t.str with
    | some h => publishStream s h root
    | none => match cmd s t.q.toNat t.n with
      | some c => if t.upd then publishUpd s c root else commitNow s c root
      | none => s) s

/-- The epoch before a number. -/
def prevNum (n : Word) : Word := if n = 1 then 0xFFFFFFFF else n - 1

/-- GO to every part of the barrier, and this part's own step; epochs no longer current that no record names are released. -/
def sendGo (s : State) (l : List ReadyRec) : State :=
  let set := pairsOf l
  let roots := rootsOf s l
  let s := ((barrierParts s l).filter (fun p => p ≠ myId s)).foldl (fun s p => droveSend s p (.go set roots)) s
  let s := applyGo s set roots
  ((set.map (fun (t, e) => (t, prevNum e))).filter (fun t => !named s t)).foldl sendRelease s

/-- A waiting TABLE_COMMIT step that the barrier gives up (R385). -/
def cancelSteps (s : State) (set : List (BitVec 12 × Word)) (mismatch : Bool) : State :=
  let mine := s.dl.steps.filter (fun t => !t.upd && t.set.any (fun x => set.any (fun y => x.1 == y.1)))
  mine.foldl (fun s t =>
    let s := { s with dl := { s.dl with steps := s.dl.steps.filter (fun x => !(x.q == t.q && x.n == t.n && x.str == t.str)) } }
    finish s t.q.toNat t.n (if mismatch then stBadState else stPeer)) s

/-- CANCEL to every part that sent READY for the commits of a set, and to the leader's mirror, which holds them too
(R385, R388). -/
def sendCancel (s : State) (l : List ReadyRec) (mismatch : Bool) : State :=
  let cs := l.filter (fun r => !r.upd)
  let set := pairsOf cs
  let s := { s with dl := { s.dl with readys := s.dl.readys.filter (fun r => !cs.contains r) } }
  let s := (((cs.map (·.src)).eraseDups).filter (fun p => p.toNat ≠ myId s)).foldl (fun s p => droveSend s p.toNat (.cancel set mismatch)) s
  let s := if cs.any (fun r => r.src.toNat == leadMirror s) then s else toLeadMirror s (.cancel set mismatch)
  if cs.any (fun r => r.src.toNat == myId s) then cnt (cancelSteps s set mismatch) aDlCntCancel else s

/-- READY: the leader adds it to its set, sends GO when the set is complete, and cancels commits that
disagree (R384 to R386, R388). -/
def execReady (src : BitVec 12) (upd : Bool) (tabs : List StepTab) (s : State) : Out :=
  .next (if s.dl.dissolved ∨ !grpOn s then s
    else
      let s := toLeadMirror s (.ready src upd tabs)
      let r : ReadyRec := { src := src, upd := upd, tabs := tabs }
      let s := { s with dl := { s.dl with readys := (s.dl.readys.filter (fun x => !(x.src == src && x.tabs == tabs))) ++ [r] } }
      if leader s ≠ myId s then s
      else
        let l := readySet s (tabs.headD { tid := 0, epoch := 0, root := [] }).tid
        if mismatched l then
          let s := rsetF s aDlGrpStat 0 1 1 1
          sendCancel s l true
        else if complete s l then sendGo s l
        else s)

/-- GO (R384 step 4). -/
def execGo (set : List (BitVec 12 × Word)) (roots : List (BitVec 12 × List Bytes)) (s : State) : Out :=
  .next (applyGo s set roots)

/-- CANCEL: the part's TABLE_COMMIT completes without publishing, and the leader's mirror forgets the READYs of the set
(R385, R388). -/
def execCancel (set : List (BitVec 12 × Word)) (mismatch : Bool) (s : State) : Out :=
  .next (let s := { s with dl := { s.dl with readys := s.dl.readys.filter (fun r =>
      r.upd || !(r.tabs.any (fun x => set.contains (x.tid, x.epoch)))) } }
    cancelSteps (cnt s aDlCntCancel) set mismatch)

/-- BARRIER_TIMEOUT: commits are cancelled; a set with an UPDATE stalls (R385, R386). -/
def execBarrierTimeout (set : List (BitVec 12 × Word)) (s : State) : Out :=
  .next (if !isLeader s then s
    else
      let l := s.dl.readys.filter (fun r => r.tabs.any (fun x => set.any (fun (t, _) => t == x.tid)))
      let bad := mismatched l
      let s := if l.any (·.upd) then rsetF s aDlGrpStat 0 0 0 1 else s
      let s := if bad then rsetF s aDlGrpStat 0 1 1 1 else s
      if l.any (fun r => !r.upd) then sendCancel s l bad else s)

/-! ## Collectives (R381 to R383) -/

/-- A collective by its key and number. -/
def collBy (s : State) (key : Word) (idx : Half) : Option Coll := s.dl.colls.find? (fun c => c.key == key && c.index == idx)

/-- CLEAR: a member may now be sent this part's block (R381). -/
def execClear (member : BitVec 12) (key : Word) (idx : Half) (s : State) : Out :=
  .next (match collBy s key idx with
    | none => { s with dl := { s.dl with clears := s.dl.clears ++ [(member, key, idx)] } }
    | some c =>
      let s := updColl s c.req idx (fun c => { c with cleared := member :: c.cleared })
      if c.started && !c.sent.contains member then sendBlock s c member else s)

/-- SLICE: a member's block, or a part of it, lands with its marks (R381, R403; log entry 157). -/
def execSlice (member : BitVec 12) (key : Word) (idx : Half) (off : Nat) (data : Marked) (last : Bool) (s : State) : Out :=
  .next (match collBy s key idx with
    | none => s
    | some c =>
      let d := cutMarked data (min data.data.length (c.bytes - off))
      let s := if d.data.isEmpty then s
        else updCore s c.core (fun x => extPut x (c.dst + member.toNat * c.stride + off) (farMarked d))
      if last && !c.landed.contains member then updColl s c.req idx (fun c => { c with landed := member :: c.landed }) else s)

/-- A message that waits until its fold takes it. -/
def waitMsg (s : State) (m : Instr) : State := { s with dl := { s.dl with waitMsgs := s.dl.waitMsgs ++ [m] } }

/-- A PUT written with its marks into a local remote window, or denied; it waits while partition 15 of its fold may not
run (R334, R353, R382, R403, R424; log entry 157). -/
def putGo (s : State) (src : BitVec 12) (tag : Word) (win : BitVec 6) (off : Dword) (data : Marked) : State :=
  match rwinAddr s src.toNat win.toNat off.toNat data.data.length true with
    | some (.fold f a) => if mayFm s f 15 then fmPutMarked s 15 f a data else waitMsg s (.put src tag win off data)
    | some (.core c a) => updCore s c (fun x => extPut x a (farMarked data))
    | none => droveSend (rwinDeny s src.toNat off.toNat) src.toNat (.deny (BitVec.ofNat 12 (myId s)) tag)

/-- PUT. -/
def execPut (src : BitVec 12) (tag : Word) (win : BitVec 6) (off : Dword) (data : Marked) (s : State) : Out :=
  .next (putGo s src tag win off data)

/-- A GET_REQ read from a local remote window and answered with its marks, or denied; it waits while partition 15 of its
fold may not run (R334, R353, R382, R403, R424; log entry 157). -/
def getGo (s : State) (src : BitVec 12) (tag : Word) (win : BitVec 6) (off : Dword) (len : Nat) : State :=
  let me := BitVec.ofNat 12 (myId s)
  match rwinAddr s src.toNat win.toNat off.toNat len false with
    | some (.fold f a) =>
      if !mayFm s f 15 then waitMsg s (.getReq src tag win off len)
      else
        let r := fmRead s 15 f a len
        droveSend r.1 src.toNat (.getData me tag { data := r.2.1, marks := secMarks (fold r.1 f) a len })
    | some (.core c a) => droveSend s src.toNat (.getData me tag (readMarked (core s c) a len))
    | none => droveSend (rwinDeny s src.toNat off.toNat) src.toNat (.deny me tag)

/-- GET_REQ. -/
def execGetReq (src : BitVec 12) (tag : Word) (win : BitVec 6) (off : Dword) (len : Nat) (s : State) : Out :=
  .next (getGo s src tag win off len)

/-- The waiting accesses of other parts served in their order, as far as their folds take them. -/
def serveMsgs (s : State) : State :=
  s.dl.waitMsgs.foldl (fun s m => match m with
    | .put src tag win off data => putGo s src tag win off data
    | .getReq src tag win off len => getGo s src tag win off len
    | _ => s) { s with dl := { s.dl with waitMsgs := [] } }

/-- GET_DATA lands with its marks in the requester's scratchpad (R382, R403; log entry 157). -/
def execGetData (src : BitVec 12) (tag : Word) (data : Marked) (s : State) : Out :=
  .next (match s.dl.colls.find? (fun c => c.kind == 3 && c.tag.toNat % 2 ^ 31 == tag.toNat % 2 ^ 31 && memPrim s c.stride == src.toNat) with
    | none => s
    | some c =>
      let off := if tag = c.tag then 0 else pieceMax
      let s := updCore s c.core (fun x => extPut x (c.dst + off) (farMarked (cutMarked data (c.bytes - off))))
      updColl s c.req c.index (fun c => { c with landed := c.landed ++ [src] }))

/-- DENY: the launch records ST_REGION_DENIED and ends at its next preemption point; the counter still rises
(R382). -/
def execDeny (src : BitVec 12) (tag : Word) (s : State) : Out :=
  .next (match s.dl.colls.find? (fun c => (c.kind == 2 || c.kind == 3) && c.tag.toNat % 2 ^ 31 == tag.toNat % 2 ^ 31 &&
      memPrim s c.stride == src.toNat) with
    | none => s
    | some c => updColl (excOf s c.req stRegionDenied) c.req c.index (fun c => { c with landed := c.landed ++ [src] }))

/-- ABANDON: this part's half of the group request ends, which it tells every member in its turn (R383). -/
def execAbandon (key : Word) (s : State) : Out :=
  .next (match s.fe.cmds.find? (fun c => c.asked == some key && c.phase == .admission) with
    | some c => finish s c.q.toNat c.n stPeer
    | none =>
      match s.reqs.find? (fun r => r.key == some key && !r.done) with
      | none => s
      | some r =>
        let cs := s.dl.colls.filter (fun c => c.req == r.handle && !c.risen)
        let s := { s with dl := { s.dl with colls := s.dl.colls.filter (fun c => c.req ≠ r.handle) } }
        wantEnd (excOf (cntN s aDlCntCollFail 0 cs.length) r.handle stPeer) r.handle stPeer)

/-- COLLECTIVE_TIMEOUT: a collective not done within DL_COLL_TMO ends its launch (R383). -/
def execCollectiveTimeout (h idx : Half) (s : State) : Out :=
  .next (match collOf s h idx with
    | none => s
    | some c => if c.risen ∨ collDone s c then s else failColl s c)

/-! ## DISSOLVE and changes of the leader (R387, R388) -/

/-- DL_GRP_CTL.DISSOLVE: the group is disabled, waiting UPDATE steps publish locally, and group requests
end. -/
def dissolveGroup (s : State) : State :=
  let s := rsetF { s with dl := { s.dl with dissolved := true, records := [], waitingPins := [], readys := [] } } aDlGrpCtl 0 0 0 0
  let s := (s.tables.filterMap (fun (t, tb) => tb.prev.map (fun p => (t, p.num)))).foldl (fun s (t, n) => dropHold s t n) s
  let s := s.dl.steps.foldl (fun s t =>
    match t.str with
    | some h => publishStream s h (fun _ => [])
    | none => match cmd s t.q.toNat t.n with
      | some c => if t.upd then publishUpd s c (fun _ => []) else finish s t.q.toNat t.n stPeer
      | none => s) s
  let s := { s with dl := { s.dl with steps := [] } }
  let s := (s.fe.cmds.filter (fun c => c.asked.isSome && c.phase == .admission)).foldl (fun s c => finish s c.q.toNat c.n stPeer) s
  (s.reqs.filter (fun r => r.key.isSome && !r.done)).foldl (fun s r => wantEnd s r.handle stPeer) s

/-- The part holds a table with SLICE_COUNT_M1 above 0 (R374). -/
def hasGroupTab (s : State) : Bool :=
  s.tables.any (fun (_, t) => [t.img0, t.img1].any (fun i => match i with | some i => 0 < dScnt i.desc | none => false))

/-- DL_GRP_CTL written: DISSOLVE, and ENABLE, which is writable only while no group table is held; enabling
builds the group again (R374, R387). -/
def wrGrpCtl (s : State) (a : Acc) (v : Word) : State :=
  secureOnly s a blkDL 0 aDlGrpCtl (fun s =>
    let s := if bit v.toNat 1 then dissolveGroup s else s
    if hasGroupTab s ∨ bit v.toNat 1 then s
    else
      let s := rsetF s aDlGrpCtl 0 0 0 (bits v.toNat 0 0)
      if bit v.toNat 0 then { s with dl := { s.dl with dissolved := false } } else s)

/-- DISSOLVE (R387). -/
def execDissolve (a : Acc) (v : Word) (s : State) : Out := .next (acc1 s a (fun s => wrGrpCtl s a v))

/-- What a new leader has not answered is sent to it again: PIN_REQs without a PIN, and READYs without GO
(R388). -/
def resendLeader (s : State) : State :=
  let me := BitVec.ofNat 12 (myId s)
  let s := (s.fe.cmds.filter (fun c => c.asked.isSome && c.gotPin.isNone && c.phase == .admission)).foldl (fun s c =>
    match curVer s (cF c 16 2) with
    | some v =>
      let ts := (gTids v.image).filter (fun t => match curDesc (table s t) with | some b => 0 < dScnt b | none => false)
      droveSend s (leader s) (.pinReq me (c.asked.getD 0) (ts.map (BitVec.ofNat 12)))
    | none => s) s
  s.dl.steps.foldl (fun s t => readyOut s t.upd t.set) s

/-- The member table written by the driver, while no group table is held: a new leader is sent what is unanswered
(R374, R388). -/
def wrGrpMember (s : State) (a : Acc) (v : Word) : State :=
  secureOnly s a blkDL 0 aDlGrpMember (fun s =>
    let i := selIx s a.who aDlGrpSel
    let old := memPrim s i
    let s := if hasGroupTab s then s else rset s aDlGrpMember i (v.toNat % 4096 + 65536 * bits v.toNat 27 16)
    if i = 0 ∧ memPrim s 0 ≠ old ∧ grpOn s then resendLeader s else s)

end Sys2Proof.Machine
end

