-- ==== Sys2Proof/Machine/Pair.lean ====
section
/-! DEFINITION. Pairs: heartbeats, silence and takeover, the stream of UPDATEs on the mirror, roots, and
PAIR_CTL (R389 to R398). -/

namespace Sys2Proof.Machine

/-! ## The pair -/

/-- Code of a pair state in DL_PAIR_STAT (R396). -/
def pairCode (p : PairSt) : Nat :=
  match p with
  | .none => 0
  | .forming => 1
  | .sync => 2
  | .solo => 3
  | .stale => 4

/-- A message to the partner. -/
def toPartner (s : State) (m : Instr) : State := droveSend s s.dl.partner.toNat m

/-- This part's ID in a message. -/
def meId (s : State) : BitVec 12 := BitVec.ofNat 12 (myId s)

/-- RULE of every fold (R146, R389). -/
def rules (s : State) : Byte :=
  BitVec.ofNat 8 ((List.range 8).map (fun f => 2 ^ f * b2n (rb s (foldReg f aRuConvCtl) 0 0))).sum

/-- The trained tables that the part holds, with their descriptors. -/
def trainedTabs (s : State) : List (BitVec 12 × Bytes) :=
  s.tables.filterMap (fun (t, tb) => match curDesc tb with
    | some d => if dTrained d then some (BitVec.ofNat 12 t, d) else none
    | none => none)

/-! ## PAIR_CTL commands (R397, R398) -/

/-- The PAIR_CTL that is running. -/
def pairRun (s : State) : Option Cmd := s.fe.cmds.find? (fun c => cOp c == 23 && c.q == 0 && c.phase == .running)

/-- The running PAIR_CTL ends with a status. -/
def pairEnd (s : State) (st : Status) : State :=
  let s := { s with dl := { s.dl with pairCmd := none } }
  match pairRun s with
  | some c => finish s 0 c.n st
  | none => s

/-- TIDs of a RESYNC. -/
def resyncTids (c : Cmd) : List (BitVec 12) := (List.range (min 12 (cF c 20 1))).map (fun k => BitVec.ofNat 12 (cF c (24 + 2 * k) 2))

/-- The operand checks of PAIR_CTL: a reserved field, an argument that the action does not use, and a PARTNER
that is not the other part of the pair. -/
def pairOk (s : State) (c : Cmd) : Bool :=
  let n := cF c 20 1
  let args := match cF c 16 1 with
    | 1 => n ≤ 1 && cF c 21 1 ≤ 1 && zero c 22 26
    | 5 => n ≤ 12 && zero c 21 3 && zero c (24 + 2 * n) (24 - 2 * n) &&
        (List.range n).all (fun k => bits (cF c (24 + 2 * k) 2) 15 12 == 0)
    | _ => zero c 20 28
  let p := cF c 18 2
  1 ≤ cF c 16 1 && cF c 16 1 ≤ 5 && zero c 17 1 && zero c 48 16 && p < 0xFFF && p ≠ myId s && args &&
    (s.dl.pair == .none || s.dl.partner.toNat == p)

/-- The row of a PAIR_CTL action; a malformed one belongs to PAIR_FORM's row. -/
def pairRow (n : Word) (act : Nat) (go : State → Cmd → State) (s : State) : State :=
  match cmd s 0 n with
  | none => s
  | some c =>
    if pairOk s c then
      (if cF c 16 1 = act then own 23 0 n (fun s c => go (arrive s c) c) noLanded s else s)
    else if act = 1 then own 23 0 n (fun s c => reject s c stBadField) noLanded s
    else s

/-- A PAIR_CTL that has asked the partner and waits for its answer. -/
def askPartner (s : State) (c : Cmd) (p : Nat) (m : PairMsg) : State :=
  let s := setPhase { s with dl := { s.dl with pairCmd := some c.n } } c .running
  droveSend s p (.pairMsg m)

/-- This part's FORM message for a waiting FORM. -/
def formMsg (s : State) (c : Cmd) : PairMsg :=
  .form (meId s) (cF c 20 1 == 1) (bit (cF c 21 1) 0) (rules s) (trainedTabs s)

/-- PAIR_CTL FORM: asks the partner (R397). -/
def execPairForm (n : Word) (s : State) : Out :=
  .next (pairRow n 1 (fun s c =>
    if s.dl.pair ≠ .none ∨ s.dl.pairCmd.isSome then reject s c stBadState
    else askPartner s c (cF c 18 2) (formMsg s c)) s)

/-- A streamed UPDATE that has not been committed is dropped, with its records (R391). -/
def dropStream (s : State) (h : Half) : State :=
  { s with
    dl := { s.dl with streams := s.dl.streams.filter (fun t => !(t.upd == h && !t.committed)) }
    folds := mmap {} (fun x => { x with
      journal := x.journal.filter (fun j => !(j.mir && j.handle == h))
      deltas := x.deltas.filter (fun d => !(d.mir && d.upd == some h)) }) s.folds }

/-- Every streamed UPDATE that has not been committed is dropped. -/
def dropStreams (s : State) : State :=
  (s.dl.streams.filter (fun t => !t.committed)).foldl (fun s t => dropStream s t.upd) s

/-- The pair ends here; a PAIR_CTL that was running ends with ST_PEER_UNREACHABLE. -/
def leavePair (s : State) : State :=
  let s := pairEnd (dropStreams s) stPeer
  { s with dl := { s.dl with pair := .none, partner := 0xFFF, mirror := false, syncEn := false, hbAlive := false
                             pinAlive := false, silent := false, forming := [], swap := .no, mtids := []
                             mirrored := [], peerRoots := [], discards := [], syncOut := false } }

/-- PAIR_CTL BREAK: the part goes to NONE and tells its partner. -/
def execPairBreak (n : Word) (s : State) : Out :=
  .next (pairRow n 2 (fun s c =>
    let s := if s.dl.pair = .none then s else toPartner s (.pairMsg (.brk (meId s)))
    finish (leavePair s) 0 c.n 0) s)

/-- PAIR_CTL SWITCH: asks the partner. -/
def execPairSwitch (n : Word) (s : State) : Out :=
  .next (pairRow n 3 (fun s c =>
    if s.dl.pair ≠ .sync ∨ s.dl.swap ≠ .no ∨ s.dl.pairCmd.isSome then reject s c stBadState
    else askPartner s c (cF c 18 2) (.switch (meId s))) s)

/-! ## Streamed UPDATEs on the mirror (R391) -/

/-- Tables that a streamed UPDATE touches. -/
def streamTids (t : StreamRec) : List (BitVec 12) := t.epochs.map (·.1) ++ t.deltas.map (fun b => (deltaOf b).tid)

/-- An earlier streamed UPDATE on one of its tables is still to be published: the partner's update order (R107). -/
def behindStream (s : State) (t : StreamRec) : Bool :=
  (s.dl.streams.takeWhile (fun x => x.upd ≠ t.upd)).any (fun x => (streamTids x).any (fun k => (streamTids t).contains k))

/-- A streamed UPDATE that COMMIT has released and whose records are complete goes on in its turn; when every fold has
finished it publishes, through the barrier where it changes tables of the column group. One that opens no epoch has no
second part. -/
def rollStream (s : State) (t : StreamRec) : State :=
  if !t.committed ∨ (!t.step2 ∧ !t.epochs.isEmpty) ∨ behindStream s t then s
  else
    let r := rollAll s { h := t.upd, mir := true } false t.epochs
    if !r.2 then r.1
    else
      let s := t.epochs.foldl (fun s (x, _) => rehash s x.toNat) r.1
      let g := groupSet s (t.epochs.map (fun (x, _) => x.toNat))
      if g.isEmpty ∨ s.dl.dissolved ∨ !grpOn s then publishStream s t.upd (fun _ => [])
      else if s.dl.steps.any (fun x => x.str == some t.upd) then s
      else sendReady s 0 0 true g (some t.upd)

/-- Every streamed UPDATE moved on. -/
def rollStreams (s : State) : State := s.dl.streams.foldl rollStream s

/-- A streamed UPDATE changed. -/
def updStream (s : State) (h : Half) (g : StreamRec → StreamRec) : State :=
  { s with dl := { s.dl with streams := updFirst (fun t => t.upd == h) g s.dl.streams } }

/-- A streamed journal record written into the mirror's journal, naming the mirror's own image. -/
def putStreamed (s : State) (b : Bytes) : State :=
  let j := jrecOf b
  match (table s j.tid.toNat).cur.bind (fun e => (imgOf (table s j.tid.toNat) e.img).map (fun i => (e.img, i))) with
  | some (img, im) => putJ s (rowFold im.desc j.row.toNat).1 { j with img := img, mir := true }
  | none => s

/-- Two delta records stand for the same row and origin. -/
def sameDelta (d e : Delta) : Bool := e.tid == d.tid && e.row == d.row && e.origin == d.origin

/-- Delta records that the mirror holds pending from earlier UPDATEs for a record's row and origin. -/
def heldDeltas (s : State) (h : Half) (d : Delta) : Nat :=
  (s.folds.map (fun (_, x) => (x.deltas.filter (fun e => sameDelta d e && !e.applied && e.upd != some h)).length)).sum

/-- The delta records of a stream: true for those that the UPDATE itself logged. Under LATE_FLUSH, where a record is due
in the epoch being built, as many of one row and origin as the mirror holds pending stand for those; they come first, in
the order of the primary's log (R391, log entry 163). -/
def splitDeltas (s : State) (t : StreamRec) : List (Bool × Delta) :=
  (t.deltas.map deltaOf).foldl (fun a d =>
    let flush := t.epochs.any (fun (x, o) => x == d.tid && o == d.due)
    let seen := (a.filter (fun e => sameDelta d e.2)).length
    a ++ [(!(flush && decide (seen < heldDeltas s t.upd d)), d)]) []

/-- A delta record of the UPDATE written into the mirror's delta log. -/
def putDelta (s : State) (t : StreamRec) (d : Delta) : State :=
  match (table s d.tid.toNat).cur.bind (fun e => (imgOf (table s d.tid.toNat) e.img).map (fun i => (e.img, i))) with
  | some (img, im) => putD s (rowFold im.desc d.row.toNat).1 { d with img := img, upd := some t.upd, mir := true }
  | none => s

/-- A first stream that is whole is written into the journal and the delta log, and PREPARED answers it. -/
def takeStream (s : State) (t : StreamRec) : State :=
  let s := t.recs.foldl putStreamed s
  let s := ((splitDeltas s t).filter (·.1)).foldl (fun s d => putDelta s t d.2) s
  toPartner s (.prepared t.upd)

/-- STREAM: records of an UPDATE arrive on the mirror. The drop and class change records that follow the
first whole stream let the UPDATE go on (R391). -/
def execStream (upd : Half) (tag : Dword) (epochs : List (BitVec 12 × Word)) (recs deltas : List Bytes) (whole : Bool)
    (s : State) : Out :=
  .next (if s.dl.pair ≠ .sync ∨ !s.dl.mirror then s
    else match s.dl.streams.find? (fun t => t.upd == upd) with
      | none =>
        let t : StreamRec := { upd := upd, tag := tag, epochs := epochs, recs := recs, deltas := deltas, whole := whole }
        let s := { s with dl := { s.dl with streams := s.dl.streams ++ [t] } }
        if whole then takeStream s t else s
      | some t =>
        if t.whole then
          let s := recs.foldl putStreamed s
          if whole then rollStreams (updStream s upd (fun t => { t with step2 := true })) else s
        else
          let t : StreamRec := { t with epochs := t.epochs ++ epochs, recs := t.recs ++ recs, deltas := t.deltas ++ deltas, whole := whole }
          let s := updStream s upd (fun _ => t)
          if whole then takeStream s t else s)

/-- PREPARED: the mirror holds the records of an UPDATE (R391). -/
def execPrepared (upd : Half) (s : State) : Out :=
  .next { s with dl := { s.dl with mirrored := s.dl.mirrored.map (fun m => if m.upd = upd then { m with prepared := true } else m) } }

/-- A streamed UPDATE released, and counted: a flush makes the pending records due that its stream names. -/
def commitStream (s : State) (t : StreamRec) : State :=
  let fl := (splitDeltas s t).filter (fun d => !d.1)
  let s := fl.foldl (fun s d => { s with folds := mmap {} (fun x => { x with
    deltas := x.deltas.map (fun e => if sameDelta d.2 e && e.upd != some t.upd then { e with due := d.2.due } else e) }) s.folds }) s
  cnt (updStream s t.upd (fun t => { t with committed := true })) aDlCntStream

/-- COMMIT: the mirror carries out the UPDATE from the streamed records (R391). -/
def execCommit (upd : Half) (s : State) : Out :=
  .next (match s.dl.streams.find? (fun t => t.upd == upd && t.whole && !t.committed) with
    | some t => rollStreams (commitStream s t)
    | none => s)

/-- DISCARD: the mirror drops the streamed records of an UPDATE (R391). -/
def execDiscard (upd : Half) (s : State) : Out := .next (dropStream s upd)

/-! ## Heartbeats and silence (R393, R395) -/

/-- HB: the partner is alive on Drove (R393). -/
def execHb (src : BitVec 12) (mirror : Bool) (st : BitVec 3) (count : Word) (s : State) : Out :=
  .next (if s.dl.pair = .none ∨ src ≠ s.dl.partner then s
    else { s with dl := { s.dl with hbAlive := true, hbIdle := 0, hbMissed := 0, hbRole := mirror, hbState := st, hbCount := count } })

/-- HB_SEND: a heartbeat goes to the partner, with the count of streamed UPDATEs committed (R393). -/
def execHbSend (s : State) : Out :=
  .next (if s.dl.pair = .none then s
    else toPartner s (.hb (meId s) s.dl.mirror (BitVec.ofNat 3 (pairCode s.dl.pair)) (BitVec.ofNat 32 (rv s aDlCntStream))))

/-- PAIR_SYNC_TOGGLE: PAIR_SYNC_OUT toggles while the part holds a pair role and SYNC_EN is set (R393). -/
def execPairSyncToggle (s : State) : Out :=
  .next (if s.dl.pair ≠ .none ∧ s.dl.syncEn then { s with dl := { s.dl with syncOut := !s.dl.syncOut } } else s)

/-- Barriers whose set is complete go on at a part that has become the leader (R388). -/
def goBarriers (s : State) : State :=
  s.dl.readys.foldl (fun s r =>
    let l := readySet s (r.tabs.headD { tid := 0, epoch := 0, root := [] }).tid
    if !l.isEmpty && !mismatched l && complete s l then sendGo s l else s) s

/-- This part is the primary of its member index. -/
def isGrpPart (s : State) : Bool := grpOn s && memPrim s (myIdx s) == myId s

/-- A takeover: the mirror completes every UPDATE whose stream it holds whole, drops a partial one, and is
primary of its member index from now on, which it tells the group (R395, R388, log entry 162). -/
def takeOver (s : State) : State :=
  let whole := s.dl.streams.filter (fun t => t.whole && !t.committed)
  let s := whole.foldl commitStream s
  let s := dropStreams s
  let s := { s with dl := { s.dl with streams := s.dl.streams.map (fun t => { t with step2 := true })
                                      pair := .solo, mirror := false, swap := .no } }
  let s := cnt s aDlCntTakeover
  let me := myId s
  let s := if grpOn s then
      (List.range (grpN s)).foldl (fun s i => if memMirr s i = me then rset s aDlGrpMember i (me + 65536 * 0xFFF) else s) s
    else s
  let s := if isGrpPart s then
      ((allParts s).filter (fun p => p ≠ me)).foldl (fun s p =>
        droveSend s p (.pairMsg (.tookOver (meId s) (BitVec.ofNat 12 (myIdx s))))) s
    else s
  let s := rollStreams s
  if isLeader s then goBarriers s else s

/-- MISS of DL_PAIR_CFG; 0 and 1 act as 2 (R393, R399). -/
def pairMiss (s : State) : Nat := max 2 (rf s aDlPairCfg 0 23 16)

/-- PARTNER_SILENT: no HB has arrived for MISS × 12 µs. In SYNC the primary goes on alone, and the mirror takes
over or goes stale by what the pin shows; an input declared faulty never counts as silent (R393, R395,
R396). -/
def execPartnerSilent (pinSilent : Bool) (s : State) : Out :=
  .next (if s.dl.pair = .none then s
    else
      let pin := pinSilent && s.dl.syncEn && !s.pc.sync.faulty
      let s := cntN s aDlCntHbMiss 0 (pairMiss s - s.dl.hbMissed)
      let s := { s with dl := { s.dl with hbAlive := false, silent := true, hbMissed := max s.dl.hbMissed (pairMiss s)
                                          pinAlive := if s.dl.syncEn then !pin else s.dl.pinAlive } }
      let s := pairEnd s stPeer
      if s.dl.pair ≠ .sync then s
      else if !s.dl.mirror then { s with dl := { s.dl with pair := .solo, swap := .no } }
      else if pin then takeOver s
      else { s with dl := { s.dl with pair := .stale, swap := .no } })

/-- PAIR_CTL TAKEOVER: on a STALE or SOLO mirror without heartbeats (R397, R398). -/
def execPairTakeover (n : Word) (s : State) : Out :=
  .next (pairRow n 4 (fun s c =>
    if !s.dl.mirror ∨ s.dl.hbAlive ∨ (s.dl.pair ≠ .stale ∧ s.dl.pair ≠ .solo) then reject s c stBadState
    else finish (takeOver s) 0 c.n 0) s)

/-! ## Forming and RESYNC (R390) -/

/-- The records of a table that R390 has brought to one state are struck; when none is left the pair is in
SYNC and the PAIR_CTL ends; a mirror now sends the READYs that it kept back (R384). -/
def formDone (s : State) (tid : BitVec 12) : State :=
  let s := updTable s tid.toNat (fun t => { t with diverged := false })
  let s := { s with dl := { s.dl with forming := s.dl.forming.filter (fun x => x.tid ≠ tid) } }
  if s.dl.forming.isEmpty then
    let s := { s with dl := { s.dl with pair := .sync, silent := false } }
    pairEnd (if isGrpMirror s then s.dl.steps.foldl (fun s t => readyOut s t.upd t.set) s else s) 0
  else s

/-- Roots of one epoch differ after step 3: the table is diverged; a FORM ends with ST_PAIR_DIVERGED and the
pair is not made. -/
def formFail (s : State) (tid : BitVec 12) : State :=
  let s := diverge s tid.toNat
  let form := match pairRun s with | some c => cF c 16 1 == 1 | none => false
  let s := { s with dl := { s.dl with forming := s.dl.forming.filter (fun x => x.tid ≠ tid) } }
  let s := pairEnd s stDiverged
  if form then leavePair s else s

/-- A forming table's record changed. -/
def updForm (s : State) (tid : BitVec 12) (g : FormRec → FormRec) : State :=
  { s with dl := { s.dl with forming := updFirst (fun x => x.tid == tid) g s.dl.forming } }

/-- The open epoch of a table published while an image stays staged beside it. -/
def publishOpen (s : State) (tid : Nat) : State :=
  let st := (table s tid).staged
  let held := match (table s tid).cur with | some e => groupHolds s tid e | none => false
  let s := publish (updTable s tid (fun t => { t with staged := false })) tid [] held
  updTable s tid (fun t => { t with staged := st })

/-- Rows of an image wider than its PASTURE_CLASS on a fold. -/
def wideRows (s : State) (im : Image) (f tid : Nat) (img : Bool) : List Nat :=
  ((fold s f).dir.filter (fun (_, e) => e.t && e.tid.toNat == tid && e.img == img && e.cls.toNat ≠ dPclass im.desc)).map
    (fun (_, e) => e.row.toNat)

/-- Step 1 of R390 on one fold: pending deltas applied, wide rows narrowed, masters dropped; false where
something waits. -/
def formFold (s : State) (im : Image) (tid : Nat) (img : Bool) (o f : Nat) : State × Bool :=
  if ruHeld s f then (s, false)
  else
    let r := (dueRows s o true f tid img).foldl (fun (a : State × Bool) r =>
      let b := lateRow a.1 im f tid img o true r; (b.1, a.2 && b.2)) (s, true)
    let s := (wideRows r.1 im f tid img).foldl (fun s w => (carryChange s im f tid img o w (dPclass im.desc)).1) r.1
    if !r.2 || !(wideRows s im f tid img).isEmpty then (s, false)
    else
      let ms := (fold s f).masters.filter (fun m => mOf m tid img)
      (ms.foldl (fun s m => dropRow s f tid img m.row.toNat) s, true)

/-- The rows of a table sent as BULK messages, then the root of its new epoch. -/
def sendBulk (s : State) (im : Image) (tid : Nat) (img : Bool) (e : Epoch) : State :=
  let n := dRows im.desc
  let slot (s : State) (r : Nat) : Marked :=
    let f := (rowFold im.desc r).1
    let w := wcRead s im f tid img r
    let b := withPop w.2.1 (rowCount s f im tid img r) 0
    { data := b, marks := if w.2.2.2 then [{ off := 0, len := b.length, poison := true }] else [] }
  let s := (List.range ((n + 255) / 256)).foldl (fun s k =>
    toPartner s (.bulk (BitVec.ofNat 12 tid) (BitVec.ofNat 32 (256 * k))
      ((List.range (min 256 (n - 256 * k))).map (fun i => slot s (256 * k + i))))) s
  toPartner s (.root (BitVec.ofNat 12 tid) e.num e.root)

/-- An UPDATE on the table is past its routing. -/
def updRuns (s : State) (tid : Nat) : Bool :=
  s.fe.cmds.any (fun c => cOp c == 3 && (c.phase == .unit || c.phase == .running) &&
    ((sections s c.data).map (·.2)).contains tid)

/-- Steps 1 and 2 of R390 on the primary for one table, as far as they can go. -/
def formStep (s : State) (x : FormRec) : State :=
  let tid := x.tid.toNat
  let t := table s tid
  if x.sent then s
  else match t.cur.bind (fun e => (imgOf t e.img).map (fun i => (e.img, i))) with
    | none => s
    | some (img, im) =>
      if !x.began && (t.opened.isSome || t.prev.isSome || updRuns s tid) then s
      else
        let s := if x.began then s else openEpoch (updForm s x.tid (fun x => { x with began := true })) tid im.desc false
        let o := match (table s tid).opened with | some o => o.num.toNat | none => 0
        let r := (dFolds im.desc).foldl (fun (a : State × Bool) f =>
          let b := formFold a.1 im tid img o f; (b.1, a.2 && b.2)) (s, true)
        if !r.2 then r.1
        else
          let s := { r.1 with folds := mmap {} (fun y => { y with
            deltas := y.deltas.filter (fun d => !(d.applied && d.tid == x.tid)) }) r.1.folds }
          let s := updForm (publishOpen s tid) x.tid (fun x => { x with sent := true })
          match (table s tid).cur with
          | some e => sendBulk s im tid e.img e
          | none => s

/-- A staged FULL image started on the mirror for a table's BULK rows. -/
def startBulk (s : State) (tid : BitVec 12) : State :=
  let t := table s tid.toNat
  match t.cur.bind (fun e => (imgOf t e.img).map (fun i => (e.img, i))) with
  | none => s
  | some (img, im) =>
    let s := dropStaged s tid.toNat
    let d := im.desc
    let exts := (dFolds d).mapM (fun f =>
      let r := region s (mget 16384 im.owner f)
      (allocExt s f tid.toNat r.cid.toNat r.world (extBytes d f + hashBytes d f)).map (fun (a, i) => (f, a, i)))
    match exts with
    | none => pairEnd s stNoResource
    | some l =>
      let n : Image := { desc := d, base := l.foldl (fun m (f, a, _) => mset 0 m f a) []
                         owner := l.foldl (fun m (f, _, i) => mset 16384 m f i) [] }
      updForm (updTable s tid.toNat (fun t => { setImg t (!img) (some n) with staged := true, stagedIn := !img })) tid
        (fun x => { x with began := true })

/-- Step 3 of R390: the mirror publishes the image under the primary's epoch number when every row is there
and its previous epoch is gone, and the roots are compared. -/
def formPublish (s : State) (tid : BitVec 12) : State :=
  let t := table s tid.toNat
  match s.dl.forming.find? (fun x => x.tid == tid), imgOf t t.stagedIn with
  | some x, some im =>
    match x.root with
    | none => s
    | some (n, r) =>
      if !s.dl.mirror ∨ !x.began ∨ !t.staged ∨ x.rows < dRows im.desc ∨ t.prev.isSome then s
      else
        let held := match t.cur with | some e => groupHolds s tid.toNat e | none => false
        let s := publish s tid.toNat [] held
        let s := updTable s tid.toNat (fun t => { t with cur := t.cur.map (fun e => { e with num := n })
                                                         lastRoots := match t.lastRoots with | (_, a) :: l => (n, a) :: l | [] => [] })
        match (table s tid.toNat).cur with
        | none => s
        | some e =>
          let s := toPartner s (.root tid n e.root)
          if e.root = r then formDone s tid else formFail s tid
  | _, _ => s

/-- BULK: rows land in the mirror's staged image, in any order; the image's tree is built when the last has landed (R372,
R390 step 2). -/
def execBulk (tid : BitVec 12) (first : Word) (rows : List Marked) (s : State) : Out :=
  .next (match s.dl.forming.find? (fun x => x.tid == tid) with
    | none => s
    | some x =>
      if !s.dl.mirror ∨ x.firsts.contains first then s
      else
        let s := if x.began then s else startBulk s tid
        let t := table s tid.toNat
        match t.staged, imgOf t t.stagedIn with
        | true, some im =>
          let rows := rows.take (dRows im.desc - first.toNat)
          let s := (rows.zipIdx).foldl (fun s (b, k) =>
            let l := rowFold im.desc (first.toNat + k)
            fmPut s (ruPart s l.1) l.1 (homeA im l.1 l.2)
              (withPop (slice b.data 0 (dPslot im.desc)) (fld b.data 22 1) (fold s l.1).period.toNat) (!b.marks.isEmpty)) s
          let n := x.rows + rows.length
          let s := if n < dRows im.desc then s
            else updTable s tid.toNat (fun t => setImg t t.stagedIn (some (growLeaves s { im with rows := n } tid.toNat t.stagedIn)))
          formPublish (updForm s tid (fun x => { x with rows := n, firsts := first :: x.firsts })) tid
        | _, _ => s)

/-- ROOT: the partner's root of an epoch (R390 step 3, R394). -/
def execRoot (tid : BitVec 12) (epoch : Word) (r : Bytes) (s : State) : Out :=
  .next (match s.dl.forming.find? (fun x => x.tid == tid) with
    | some x =>
      if s.dl.mirror then formPublish (updForm s tid (fun x => { x with root := some (epoch, r) })) tid
      else if !x.sent then s
      else match (table s tid.toNat).lastRoots.find? (fun (m, _) => m == epoch) with
        | some (_, mine) => if mine = r then formDone s tid else formFail s tid
        | none => s
    | none =>
      if s.dl.pair = .sync ∧ s.dl.mtids.contains tid then rootCheck s tid epoch r else s)

/-- The pair begins to form: every mirrored table is brought to one state. -/
def beginForm (s : State) (p : BitVec 12) (mirror syncEn : Bool) (tids : List (BitVec 12)) : State :=
  let s := { s with dl := { s.dl with pair := .forming, partner := p, mirror := mirror, syncEn := syncEn, silent := false
                                      hbAlive := true, hbIdle := 0, hbMissed := 0, mtids := tids, pairCmd := none
                                      forming := tids.map (fun t => { tid := t }) } }
  if tids.isEmpty then pairEnd { s with dl := { s.dl with pair := .sync } } 0 else s

/-- The tables of RESYNC begin to be brought to one state; from SOLO and STALE the pair is FORMING (R396). -/
def beginResync (s : State) (tids : List (BitVec 12)) : State :=
  let l := if tids.isEmpty then s.dl.mtids else tids.filter (fun t => s.dl.mtids.contains t)
  let s := if s.dl.mirror then
      let s := dropStreams s
      { s with dl := { s.dl with streams := s.dl.streams.filter (fun t => !(t.epochs.any (fun (x, _) => l.contains x))) } }
    else s
  let s := { s with dl := { s.dl with
    pairCmd := none, silent := false
    pair := if s.dl.pair = .sync then .sync else .forming
    forming := s.dl.forming.filter (fun x => !l.contains x.tid) ++ l.map (fun t => { tid := t }) } }
  if l.isEmpty then pairEnd { s with dl := { s.dl with pair := .sync } } 0 else s

/-- PAIR_CTL RESYNC: on the mirror, asks the primary (R397, R398). -/
def execPairResync (n : Word) (s : State) : Out :=
  .next (pairRow n 5 (fun s c =>
    if s.dl.pair = .none ∨ !s.dl.mirror ∨ s.dl.pair = .forming ∨ s.dl.pairCmd.isSome then reject s c stBadState
    else if (resyncTids c).any (fun t => !s.dl.mtids.contains t) then reject s c stBadField
    else askPartner s c (cF c 18 2) (.resync (meId s) (resyncTids c))) s)

/-- The partners' FORMs compared: the mirrored tables, or none where they disagree (R398). -/
def formAgree (s : State) (c : Cmd) (mirror syncEn : Bool) (rule : Byte) (tabs : List (BitVec 12 × Bytes)) :
    Option (List (BitVec 12)) :=
  let mine := trainedTabs s
  let me := cF c 20 1 == 1
  let prim := if me then tabs else mine
  let mirr := if me then mine else tabs
  let held (t : BitVec 12 × Bytes) : Bool := mirr.any (fun (x, d) => x == t.1 && !descDiffers t.2 d)
  if me = mirror ∨ syncEn ≠ bit (cF c 21 1) 0 ∨ rule ≠ rules s ∨ !prim.all held then none else some (prim.map (·.1))

/-- The waiting PAIR_CTL of an action. -/
def waitingFor (s : State) (act : Nat) : Option Cmd :=
  match s.dl.pairCmd.bind (cmd s 0) with
  | some c => if cF c 16 1 = act then some c else none
  | none => none

/-- The partner holds a trained table: where this part holds it too, with an equal descriptor, it is mirrored from now on,
and the partner is told so; while their current epochs differ in number or root it is not known to agree, and stands as
diverged until RESYNC (R389, R394, log entry 161). -/
def tableHeld (s : State) (tid : BitVec 12) (d : Bytes) (epoch : Word) (root : Bytes) : State :=
  match curDesc (table s tid.toNat), (table s tid.toNat).cur with
  | some mine, some e =>
    if s.dl.mtids.contains tid || !dTrained mine || descDiffers d mine then s
    else
      let s := sayHeld { s with dl := { s.dl with mtids := s.dl.mtids ++ [tid] } } tid.toNat
      if e.num = epoch ∧ e.root = root then s else diverge s tid.toNat
  | _, _ => s

/-- Another member's mirror has taken over: the member table names it, a new leader is sent what is unanswered, and a
leader goes on with its barriers (R386, R388, log entry 162). -/
def memberTaken (s : State) (src idx : BitVec 12) : State :=
  if !grpOn s || memMirr s idx.toNat ≠ src.toNat then s
  else
    let s := rset s aDlGrpMember idx.toNat (src.toNat + 65536 * 0xFFF)
    let s := if idx = 0 then resendLeader s else s
    if isLeader s then goBarriers s else s

/-- PAIR_MSG: an action of the partner, or its answer (R397, R398). -/
def execPairMsg (m : PairMsg) (s : State) : Out :=
  .next (match m with
    | .form src mirror syncEn rule tabs =>
      match waitingFor s 1 with
      | none => s
      | some c =>
        if cF c 18 2 ≠ src.toNat then s
        else
          let s := droveSend s src.toNat (.pairMsg (formMsg s c))
          match formAgree s c mirror syncEn rule tabs with
          | none => pairEnd s stBadState
          | some tids => beginForm s src (cF c 20 1 == 1) syncEn tids
    | .switch src =>
      if s.dl.pair = .sync ∧ src = s.dl.partner ∧ s.dl.swap = .no then
        toPartner { s with dl := { s.dl with swap := .drain } } (.pairMsg (.accept (meId s)))
      else droveSend s src.toNat (.pairMsg (.refuse (meId s) stBadState))
    | .resync src tids =>
      if s.dl.pair ≠ .none ∧ src = s.dl.partner ∧ !s.dl.mirror ∧ s.dl.pair ≠ .forming then
        beginResync (toPartner s (.pairMsg (.accept (meId s)))) tids
      else droveSend s src.toNat (.pairMsg (.refuse (meId s) stBadState))
    | .brk src => if s.dl.pair ≠ .none ∧ src = s.dl.partner then leavePair s else s
    | .accept src =>
      if src ≠ s.dl.partner then s
      else match waitingFor s 3, waitingFor s 5 with
        | some _, _ => { s with dl := { s.dl with pairCmd := none, swap := .drain } }
        | _, some c => beginResync s (resyncTids c)
        | _, _ => if s.dl.swap = .drain ∧ s.dl.mirror then { s with dl := { s.dl with swap := .due } } else s
    | .refuse _ st => if s.dl.pairCmd.isSome then pairEnd s st else s
    | .holds src tid d epoch root => if s.dl.pair ≠ .none ∧ src = s.dl.partner then tableHeld s tid d epoch root else s
    | .tookOver src idx => memberTaken s src idx)

/-- PAIR_ANSWER_TIMEOUT: the partner has not answered within 10 ms (R398). -/
def execPairAnswerTimeout (s : State) : Out := .next (if s.dl.pairCmd.isSome then pairEnd s stPeer else s)

/-! ## What the pair does at a tick (log entry 1) -/

/-- A planned swap goes on: the drained primary gives its role up and tells the mirror, which takes it when it
has published every streamed UPDATE (R397). -/
def swapStep (s : State) : State :=
  match s.dl.swap with
  | .no => s
  | .drain =>
    if s.dl.mirror || !s.dl.mirrored.isEmpty then s
    else pairEnd (toPartner { s with dl := { s.dl with mirror := true, swap := .no } } (.pairMsg (.accept (meId s)))) 0
  | .due => if s.dl.streams.isEmpty then pairEnd { s with dl := { s.dl with mirror := false, swap := .no } } 0 else s

/-- CLK_FAB cycles of a heartbeat period of 12 µs (R393, R449). -/
def hbPeriod : Nat := 11520

/-- A cycle without a heartbeat; a whole period without one is counted as missed (R393, R399). -/
def hbTick (s : State) : State :=
  if s.dl.pair = .none then s
  else if s.dl.hbIdle + 1 < hbPeriod then { s with dl := { s.dl with hbIdle := s.dl.hbIdle + 1 } }
  else cnt { s with dl := { s.dl with hbIdle := 0, hbMissed := s.dl.hbMissed + 1 } } aDlCntHbMiss

/-- One tick of the pair. -/
def pairTick (s : State) : State :=
  let s := hbTick s
  let s := rollStreams s
  let s := s.dl.forming.foldl (fun s x => if s.dl.mirror then formPublish s x.tid else formStep s x) s
  swapStep s

end Sys2Proof.Machine
end

