-- ==== Sys2Proof/Machine/Ig.lean ====
section
/-! DEFINITION. The integrity unit: unit resets, error reports and their containment, residue mismatches, the
fault log's closing, and its registers (R400 to R427). -/

namespace Sys2Proof.Machine

/-! ## Unit resets (R422 to R426) -/

/-- Number of a unit: 0 and 1 the cores, 2 to 9 the folds (R427). -/
def unitNo (u : UnitId) : Nat := match u with | .core c => c.val | .fold f => 2 + f.val

/-- Instance of a unit. -/
def unitInst (u : Nat) : Nat := if u < 2 then u else u - 2

/-- Block that names a scope of a unit (R415). -/
def scopeBlk (u : Nat) (sc : Scope) : Nat :=
  if u < 2 then blkSQ else match sc with | .gx => blkGX | .ru => blkRU | .whole => blkFM

/-- Scope code of a UNIT_RESET record (R415). -/
def scopeCode (u : Nat) (sc : Scope) : Nat :=
  if u < 2 then 0 else match sc with | .gx => 0 | .ru => 1 | .whole => 2

/-- Blocks and instances that a reset covers (R416). -/
def scopeUnits (u : Nat) (sc : Scope) : List Nat :=
  (if u < 2 then [blkSQ, blkMA, blkVE] else match sc with
    | .gx => [blkGX] | .ru => [blkRU] | .whole => [blkFM, blkGX, blkRU]).map (fun b => unitByte b (unitInst u))

/-- Launches that run on a core. -/
def onCore (s : State) (c : Nat) : List Req :=
  s.reqs.filter (fun r => r.kind = .launch && !r.done && r.core == c && r.replay != 1)

/-- A core's reset ends its launches, and the launches that wait for a replay it alone could run (R412, R425). -/
def coreEnds (s : State) (c : Nat) : State :=
  let s := (onCore s c).foldl (fun s r =>
    let s := wantEnd s r.handle stUnitReset
    if (cslot (core s c) r.slot).st = .ending then s
    else endSlot (updCore s c (fun x => cupdSlot x r.slot (fun v => { v with mustEnd := true }))) c r.slot) s
  let stuck := s.reqs.filter (fun r => r.kind = .launch && r.replay == 1 && r.firstCore == c &&
    (match verOf s r.gid r.ver with
      | some v => !(v.places.any (fun p => p.core == 1 - c)) || !rb s (coreReg (1 - c) aSqCtl) 0 0
      | none => true))
  stuck.foldl (fun s r => abortCmd s r.q.toNat r.n stUnitReset) s

/-- A gather engine's reset ends the requests that hold a context on the fold; contexts, programs and the
migration log are lost, and migrations are abandoned (R66, R425). -/
def gxEnds (s : State) (f : Nat) : State :=
  let hs := (((fold s f).ctxs.filter (fun (_, y) => y.st ≠ .free)).map (fun (_, y) => y.req)).eraseDups
  let s := hs.foldl (fun s h => foldEnds s f h stUnitReset) s
  let x := fold s f
  let s := setFold s f { x with ctxs := [], progs := [], rels := [], waitDemote := [], waitRepair := [] }
  let s := (x.migs.map (·.way)).foldl (fun s k => abandonMig s f k) s
  updFold s f (fun y => { y with migLog := [], waitDemote := x.waitDemote, waitRepair := x.waitRepair })

/-- The RUs have taken a command: its turn has come, and it waits there, reads its source, or runs. -/
def ruHas (s : State) (c : Cmd) : Bool :=
  match c.phase with
  | .unit => true
  | .running => true
  | .landed => !blockedBy s c
  | .data => s.fe.xfers.any (fun t => t.q == c.q && t.n == c.n && t.kind == .loadSrc)
  | _ => false

/-- Commands that an RU's reset ends: those its unit has taken that touch a table of the fold (R425). -/
def ruHits (s : State) (f : Nat) (c : Cmd) : Bool :=
  3 ≤ cOp c && cOp c ≤ 6 && ruHas s c && !c.committed &&
    ((cmdTids s c).getD []).any (fun t => (tableFolds s t).contains f)

/-- An RU's reset ends them. -/
def ruEnds (s : State) (f : Nat) : State :=
  (s.fe.cmds.filter (ruHits s f)).foldl (fun s c => abortCmd s c.q.toNat c.n stUnitReset) s

/-- Step 4 of a unit reset: what the scope loses, and the requests it ends (R424, R425). -/
def unitEnds (s : State) (u : Nat) (sc : Scope) : State :=
  if u < 2 then coreEnds s u
  else
    let f := u - 2
    match sc with
    | .gx => gxEnds s f
    | .ru => ruEnds s f
    | .whole =>
      updFold (ruEnds (gxEnds s f) f) f (fun x => { x with runs := [], chans := mmap {} (fun c => { c with issued := [] }) x.chans })

/-- QUIET or the deadline: the generation advances, the unit is RESETTING, a UNIT_RESET record opens, and the
requests at the unit end (R416, R421, R424). A program body on its way to a fold belongs to the old generation from then
on (R426). In an orderly reset the unit reset is ignored (R457). -/
def unitQuiet (s : State) (u : Nat) (late : Option Word) : State :=
  let x := unit s u
  if x.st ≠ .quiescing ∨ closed s then s
  else
    let b := scopeBlk u x.scope
    let s := match late with
      | some n => logEv s { cls := 7, block := b, inst := unitInst u, detail := n.toNat, gen := x.gen.toNat }
      | none => s
    let g := x.gen + 1
    let s := closeRecs s (scopeUnits u x.scope)
    let s := updUnit s u (fun x => { x with st := .resetting, gen := g, last := some s.np.ns })
    let s := if u < 2 then s else updFold s (u - 2) (fun x => { x with bornAt := x.nextProg })
    let s := logEv (cnt s aIgCntUnitReset)
      { cls := 9, block := b, inst := unitInst u, location := x.cause.toNat
        detail := g.toNat + 256 * scopeCode u x.scope, gen := g.toNat }
    settle (unitEnds s u x.scope)

/-- A core as its reset leaves it: launch slots, accumulators, vector registers and issue queue gone, and its
buffer pool zeroed (R425). -/
def coreFresh (s : State) (c : Nat) : State :=
  let s := (onCore s c).foldl (fun s r => launchEnds s r.handle) s
  updCore s c (fun x => scrZero { x with
    slots := [], run := none, lastRun := none, flight := [], issueQ := [], opened := none, heldFull := false
    acc := [], accInt := [], vr := [], maRun := [], veRun := [] } 0 (poolSize s c))

/-- The unit returns to service; an RU recovers first, and a fold's modules and PLL are up again (R124, R424,
R452). -/
def unitBack (s : State) (u : Nat) : State :=
  let x := unit s u
  if x.st ≠ .resetting then s
  else if u < 2 then updUnit (coreFresh s u) u (fun x => { x with st := .service })
  else
    let f := u - 2
    let s := if x.scope = .gx then s else rsetF s (foldReg f aRuStat) 0 0 0 1
    let s := if x.scope = .whole ∧ !(fold s f).disabled then
        rsetF (updFold s f (fun y => { y with mods := 0 })) aPcClkStat 0 (1 + f) (1 + f) 1 else s
    let s := updUnit s u (fun x => { x with st := if rb s (foldReg f aRuStat) 0 0 then .recovering else .service })
    if x.scope = .ru then s else (List.range 64).foldl (fun s _ => nextWaiting s f) s

/-- A deferred reset starts once the unit is back and 1 ms has passed (R423, R424). -/
def startAgain (s : State) (u : Nat) : State :=
  let x := unit s u
  match x.again with
  | some sc =>
    let due := match x.last with | some t => t.toNat + 1000000 ≤ now s | none => true
    if (x.st == .service || x.st == .recovering) && due && !closed s then
      setUnit (meetReplan s u) u { x with st := .quiescing, scope := sc, again := none }
    else s
  | none => s

/-- UNIT_RESET_REQUEST (R423, R424). -/
def execUnitResetRequest (u : UnitId) (sc : Scope) (cause : Word) (s : State) : Out :=
  .next (if closed s || heldInReset s then s
    else wantReset s (unitNo u) (match u with | .core _ => .whole | .fold _ => sc) cause)

/-- QUIET (R424). -/
def execQuiet (u : UnitId) (late : Option Word) (s : State) : Out := .next (unitQuiet s (unitNo u) late)

/-- UNIT_RESET_DONE (R425). -/
def execUnitResetDone (u : UnitId) (s : State) : Out := .next (unitBack s (unitNo u))

/-- IG_URST written: a reset of the selected unit, from the secure world only (R424, R427). -/
def wrIgUrst (s : State) (a : Acc) (v : Word) : State :=
  let u := min 9 (selOf s a.who aIgUnitSel % 16)
  let sc : Scope := if u < 2 then .whole else match bits v.toNat 2 1 with | 0 => .gx | 1 => .ru | _ => .whole
  if a.secure && bit v.toNat 0 then wantReset s u sc 0xFFFFFFFF else s

/-- IG_URST. -/
def execIgUrst (a : Acc) (v : Word) (s : State) : Out := .next (acc1 s a (fun s => wrIgUrst s a v))

/-- IG_FLOG_CONS written (R413). -/
def wrFlogCons (s : State) (a : Acc) (v : Word) : State :=
  secureOnly s a blkIG 0 aIgFlogCons (fun s => rset s aIgFlogCons 0 v.toNat)

/-- IG_FLOG_CONS. -/
def execIgFlogCons (a : Acc) (v : Word) (s : State) : Out := .next (acc1 s a (fun s => wrFlogCons s a v))

/-- FAULT_RECORD_CLOSE: HOLD ms without a repeat (R416). -/
def execFaultRecordClose (recno : Word) (s : State) : Out :=
  .next (let i := recno.toNat % 256
    let r := flogAt s i
    if r.recno = recno ∧ r.open_ then setFlog s i { r with open_ := false } else s)

/-- MA_RES_INJ written (R205). -/
def wrResInj (s : State) (a : Acc) (c : Nat) (v : Word) : State :=
  secureOnly s a blkMA c (coreReg c aMaResInj) (fun s => rset s (coreReg c aMaResInj) 0 (v.toNat % 2))

/-- MA_RES_INJ. -/
def execMaResInj (a : Acc) (c : Core2) (v : Word) (s : State) : Out := .next (acc1 s a (fun s => wrResInj s a c v))

/-- RESIDUE_MISMATCH: an array's check fails in the reduction of an output of the launch that runs on its core (R205,
R409, R412). In an orderly reset it is ignored (R421, R457). -/
def execResidueMismatch (c : Core2) (e : AccAt) (bundle : BitVec 17) (s : State) : Out :=
  .next (match (core s c).run with
    | none => s
    | some k =>
      if closed s then s
      else
      let s := updCore s c (fun x => suspectOut x k e.set.toNat bundle.toNat e.m.toNat e.n.toNat)
      residueReport s c k (cslot (core s c) k).req e.set.toNat bundle.toNat)

/-! ## Containment (R418 to R421, R457) -/

/-- Structures that hold isolation, ownership or command state (R400). -/
def privCode (code : Nat) : Bool := code == 3 || (16 ≤ code && code ≤ 23)

/-- A containment reset by record `n`, of this class, block and instance; before READY an abrupt reset (R420,
R457). -/
def escalate (s : State) (cls block inst n : Nat) : State :=
  if stage s = 15 then s
  else if stage s < 8 then wholeReset s 3
  else
    let s := logEv s { cls := 10, block := blkIG, location := n, detail := cls }
    let s := rset s aIgCresetCause 0 (cls + 256 * unitByte block inst)
    let s := rset s aIgCresetRecno 0 n
    startOrderly (rsetF s aIgStat 0 1 1 1) 3 stUnitReset

/-- The containment action of a privileged structure (R400). -/
def contain (s : State) (code index : Nat) : State :=
  match code with
  | 16 => { s with xl := { s.xl with store := mset 0 s.xl.store index 0 } }
  | 17 =>
    let i := index % 65536
    match index / 65536 with
    | 0 => rsetF s aXlCtxCfg i 0 0 0
    | 1 => rsetF s aXlTgtCfg i 0 0 0
    | 2 => rsetF s aXlMwCfg i 0 0 0
    | _ => rsetF s aXlRwinCfg i 0 0 0
  | 19 => haltQueue s index stUnitReset
  | 20 => closeSession s index
  | _ => s

/-- A fault log record that was lost: its slot is rewritten (R400, R415, R421). -/
def logUe (s : State) (i : Nat) (esc : Bool) : State :=
  let r := flogAt s i
  rsetF (setFlog s i { recno := r.recno, cls := 13, unit := BitVec.ofNat 8 (unitByte blkIG 0), contained := true
                       escalated := esc, priv := true, count := 1, qid := 0x8000, first := s.np.ns, last := s.np.ns
                       location := BitVec.ofNat 64 i, detail := r.recno.setWidth 64 }) aIgStat 0 3 3 1

/-! ## Error reports (R400 to R408) -/

/-- LOCATION of MEM_UE and POISON_REREAD (R415). -/
def ueLoc (e : ErrRep) : Nat := e.code.toNat * 2 ^ 56 + e.location.toNat % 2 ^ 56

/-- DETAIL of MEM_UE; a reread has syndrome 0xFFFF (R415). -/
def ueDet (e : ErrRep) : Nat := if e.reread then e.detail.toNat / 65536 * 65536 + 0xFFFF else e.detail.toNat

/-- The record of a report: class, and status of its first request. -/
def ueEv (s : State) (e : ErrRep) (cls : Nat) (loc det : Nat) (st : Status) : Ev :=
  { cls := cls, block := e.block.toNat, inst := e.inst.toNat, location := loc, detail := det, req := e.req
    status := if e.req.isSome then st else 0, gen := genOf s e.block.toNat e.inst.toNat }

/-- MEM_UE or POISON_REREAD logged. -/
def logUeRep (s : State) (e : ErrRep) : State :=
  logEv s (ueEv s e (if e.reread then 2 else 1) (ueLoc e) (ueDet e) stPoison)

/-- The first affected request consumes poison (R408). -/
def poisonReq (s : State) (e : ErrRep) : State := match e.req with | some h => markPoison s h | none => s

/-- The records of the pools that lie on an uncorrectable sector read poisoned (R400, R406): master records, journal
and delta log stand apart from the pasture's bytes, at the addresses that the model gives them (log entries 50, 133). -/
def poolPoison (s : State) (f a : Nat) : State :=
  let on (p n : Nat) : Bool := p < a + 32 && a < p + n
  updFold s f (fun x => { x with
    masters := x.masters.map (fun m => match imgOf (table s m.tid.toNat) m.img with
      | some im => if on (masterAt s f m.tid.toNat m.img m.row.toNat) (masterSize im.desc) then { m with poison := true } else m
      | none => m)
    journal := x.journal.map (fun j => if on (jAt s f j) (jSize j) then { j with poison := true } else j)
    deltas := x.deltas.map (fun d => if on (dAt s f d) (dSize d) then { d with poison := true } else d) })

/-- An uncorrectable pasture sector: it reads poisoned until it is written (R343, R344). -/
def badSector (s : State) (f : Nat) (e : ErrRep) : State :=
  let ch := bits e.location.toNat 51 48
  let i := e.location.toNat % 2 ^ 27
  let d := ueDet e % 65536
  let s := poolPoison s f (addrOf ch i)
  let s := match synOf d with
    | .bad => updFold s f (fun x => { x with check := mset 0 x.check (addrOf ch i / 32) (BitVec.ofNat 16 d) })
    | _ => s
  updFold (cnt s (foldReg f aFmChUe) ch) f (fun x =>
    { x with chans := mupd {} x.chans ch (fun c => { c with ueAddr := BitVec.ofNat 27 i }) })

/-- An uncorrectable pen line: marked, and a clean pen copy in it is demoted at once (R403, R404). -/
def badPenLine (s : State) (f : Nat) (e : ErrRep) : State :=
  let g := e.location.toNat % 2 ^ 56 / 64
  let s := updFold s f (fun x => { x with penPoison := mset false x.penPoison g true })
  let hit := (dirUsed (fold s f)).filter (fun (_, d) =>
    d.t && penA d < 64 * g + 64 && 64 * g < penA d + penSlotOf s d)
  hit.foldl (fun s (k, _) => repairPen s f k true) s

/-- A program with an uncorrectable index buffer word: no lookup is made for it, and every slice of it is
poisoned. -/
def badIndex (s : State) (f id : Nat) : State :=
  match (fold s f).progs.find? (fun p => p.id == id) with
  | none => s
  | some p => goOn (markPoison (updFold s f (fun x => updProg x id (fun p => { p with bad := true, terms := [] }))) p.req) f id

/-- A damaged version: marked on the core, recorded, and a launch that reads a damaged bundle ends at once,
POISONED; a damaged constant line is marked (R405). -/
def badImage (s : State) (c : Nat) (e : ErrRep) : State :=
  let a := e.location.toNat % 2 ^ 56
  let code := e.index == 0
  let hit (v : Version) : Bool := v.places.any (fun p => p.core == c &&
    (if code then 32 * p.imem ≤ a && a < 32 * (p.imem + gCode v.image) else p.const ≤ a && a < p.const + gConst v.image))
  let s := if code then s else updCore s c (fun x =>
    { x with poison := mset false x.poison (a / 64) true, hard := mset false x.hard (a / 64) true })
  match s.graphs.find? hit with
  | none => s
  | some v =>
    let s := { s with graphs := updFirst hit (fun v => { v with damaged := if v.damaged.contains c then v.damaged else c :: v.damaged }) s.graphs }
    let s := logEv s (ueEv s e 14 v.gid v.num.toNat stPoison)
    match e.req.bind (req s) with
    | some r =>
      if code ∧ r.kind = .launch ∧ !r.done ∧ r.core = c ∧ r.replay ≠ 1 then endSlot (markPoison s r.handle) c r.slot else s
    | none => s

/-- A UCIe module that failed to retrain, after `tries` retries; when both of a fold have, the fold is reset (R400,
R415). -/
def moduleDown (s : State) (f m : Nat) (retrained : Bool) (tries : Nat) : State :=
  let s := logEv s { cls := 4, block := blkFM, inst := f, location := 2 * f + m, detail := tries, gen := genOf s blkFM f }
  if retrained then s
  else
    let s := updFold s f (fun x => { x with mods := x.mods ||| (1#2 <<< m) })
    if (fold s f).mods = 3 then wantReset s (2 + f) .whole (BitVec.ofNat 32 (openRecno s 4 blkFM f)) else s

/-- UCIE_MODULE_DOWN: how many retries were made is a free value. -/
def execUcieModuleDown (f : Fin 8) (m : Fin 2) (retrained : Bool) (s : State) : Out :=
  .next (if closed s || heldInReset s then s else moduleDown (draw s).2 f m retrained (draw s).1)

/-- An uncorrectable error of a privileged structure: contained, or, where its action is none or the IG is in
containment, a containment reset (R418, R419); in a boot before READY an abrupt reset (R457). -/
def privError (s : State) (e : ErrRep) : State :=
  let code := e.code.toNat
  let esc := code == 3 || code == 21 || code == 22 || rb s aIgStat 0 0 || stage s < 8
  let cls := if code = 23 then 13 else if e.reread then 2 else 1
  let s := if code = 23 then logUe s (e.index % 256) esc
    else logEv s { ueEv s e cls (ueLoc e) (ueDet e) stUnitReset with priv := true, contained := !esc, escalated := esc }
  if esc then
    let s := if code = 19 then (s.fe.cmds.filter (fun c => c.q.toNat == e.index)).foldl (fun s c => silence s c.q.toNat c.n) s else s
    if code = 23 then escalate s 13 blkIG 0 (flogAt s (e.index % 256)).recno.toNat
    else escalate s cls e.block.toNat e.inst.toNat (openRecno s cls e.block.toNat e.inst.toNat)
  else contain (cnt (rsetF s aIgStat 0 0 0 1) aIgCntContain) code e.index

/-- The scope that resets the holder of control state (R400 code 0x06, R422). -/
def holderReset (s : State) (e : ErrRep) : State :=
  let b := e.block.toNat
  let i := e.inst.toNat
  let n := BitVec.ofNat 32 (openRecno s 5 b i)
  if b = blkSQ ∨ b = blkMA ∨ b = blkVE then wantReset s (i % 2) .whole n
  else if b = blkGX then wantReset s (2 + i % 8) .gx n
  else if b = blkRU then wantReset s (2 + i % 8) .ru n
  else if b = blkFM then wantReset s (2 + i % 8) .whole n
  else s

/-- What each structure's uncorrectable error does (R400). -/
def structError (s : State) (e : ErrRep) : State :=
  let i := e.inst.toNat
  match e.code.toNat with
  | 1 => badSector (poisonReq (logUeRep s e) e) (i % 8) e
  | 2 => badPenLine (poisonReq (logUeRep s e) e) (i % 8) e
  | 4 =>
    let s := logUeRep s e
    updFold s (i % 8) (fun x => { x with masters := x.masters.zipIdx.map (fun (m, k) => if k = e.index then { m with lost := true } else m) })
  | 5 => badIndex (poisonReq (logUeRep s e) e) (i % 8) e.index
  | 6 => holderReset (logEv s (ueEv s e 5 6 e.detail.toNat stUnitReset)) e
  | 7 =>
    let g := e.location.toNat % 2 ^ 56 / 64
    updCore (logUeRep s e) (i % 2) (fun x => { x with poison := mset false x.poison g true, hard := mset false x.hard g true })
  | 8 => badImage (logUeRep s e) (i % 2) e
  | 9 => updCore (logUeRep s e) (i % 2) (fun x => { x with acc := mupd {} x.acc e.index (fun v => { v with poison := true, hard := true }) })
  | 10 => updCore (logUeRep s e) (i % 2) (fun x => { x with vr := mupd {} x.vr e.index (fun v => { v with poison := true, hard := true }) })
  | 11 => match (core s (i % 2)).run with
    | some k =>
      let set := bits e.location.toNat 2 1
      let b := bits e.detail.toNat 16 0
      let s := updCore s (i % 2) (fun x => suspectOut x k set b (e.index / 256 % 32) (e.index % 256))
      residueReport s (i % 2) k (cslot (core s (i % 2)) k).req set b
    | none => s
  | 12 => moduleDown s (e.index / 2 % 8) (e.index % 2) false e.detail.toNat
  | 13 => logEv s (ueEv s e 4 e.location.toNat e.detail.toNat 0)
  | 14 => rxDrop s
  | 15 => let s := logUeRep s e; { s with xl := { s.xl with cache := mdel s.xl.cache e.index } }
  | 24 => poisonReq (logUeRep s e) e
  | _ => s

/-- ERROR_REPORT: a unit reports an error; a corrected one is counted, an illegal bundle is recorded, and an
uncorrectable one is handled by its structure. In a containment reset every event is ignored (R400, R401, R421). -/
def execErrorReport (e : ErrRep) (s : State) : Out :=
  .next (if s.pc.orderly = some 3 || heldInReset s then s
    else if e.corrected then
      let s := ceCount s e.code.toNat e.block.toNat e.inst.toNat
      if e.code = 1 then cnt s (foldReg (e.inst.toNat % 8) aFmChCe) (bits e.location.toNat 51 48)
      else if e.code = 9 then cnt s (coreReg (e.inst.toNat % 2) aMaCntEcc) else s
    else if e.illegal then logEv s (ueEv s e 8 e.location.toNat e.detail.toNat 0)
    else if privCode e.code.toNat then privError s e
    else structError s e)

/-- CONTAINMENT_DONE (R418). -/
def execContainmentDone (s : State) : Out := .next (rsetF s aIgStat 0 0 0 0)

end Sys2Proof.Machine
end

