-- ==== Sys2Proof/Machine/Margin.lean ====
section
/-! DEFINITION. Monitors and margins, the plan record and re-plans, voltages, throttling, the thermal and power
loops, and the telemetry bytes (R475, R490 to R504). -/

namespace Sys2Proof.Machine

/-! ## Signed values -/

/-- A signed value in eight bits, held to their range. -/
def pip8 (i : Int) : Nat := tc 8 (max (-128) (min 127 i))

/-- The least of a list; 0 where it is empty. -/
def minInt : List Int → Int
  | [] => 0
  | [x] => x
  | x :: xs => min x (minInt xs)

/-- The greatest of a list; 0 where it is empty. -/
def maxInt : List Int → Int
  | [] => 0
  | [x] => x
  | x :: xs => max x (maxInt xs)

/-! ## Margins (R490 to R492) -/

/-- Margin of a domain: 0 VDD_CORE, sites 0 to 39; 1 VDD_FOLD, sites 40 to 63 (R491). -/
def domMargin (l : List Site) (dom : Nat) : Int := minInt ((if dom = 0 then l.take 40 else l.drop 40).map (·.slack))

/-- TARGET, FLOOR and HYST in force; a FLOOR above TARGET acts as TARGET (R504). -/
def mTarget (s : State) : Nat := rf s aPcMarginCtl 0 13 8
def mFloor (s : State) : Nat := min (mTarget s) (rf s aPcMarginCtl 0 19 14)
def mHyst (s : State) : Nat := rf s aPcMarginCtl 0 23 20

/-- A raise in mV that brings a margin to TARGET: ceil((TARGET - M) × 2.5 / 5) × 5 (R492, R494). -/
def raiseMv (target : Nat) (m : Int) : Nat := (((target : Int) - m + 1) / 2).toNat * 5

/-- A fall in mV: floor((M - TARGET) × 2.5 / 5) × 5 (R494). -/
def fallMv (target : Nat) (m : Int) : Nat := ((m - target) / 2).toNat * 5

/-- Voltage of a rail as last acknowledged, in mV (R475). -/
def railMv (s : State) (dom : Nat) : Nat := if dom = 0 then rf s aPcAvsStat 0 9 0 else rf s aPcAvsStat 0 19 10

/-- A Voltage write sent and acknowledged (R475). -/
def setRail (s : State) (dom mv : Nat) : State :=
  let s := emit s (.avs dom mv)
  let s := { s with pc := if dom = 0 then { s.pc with coreMv := mv } else { s.pc with foldMv := mv } }
  if dom = 0 then rsetF s aPcAvsStat 0 9 0 mv else rsetF s aPcAvsStat 0 19 10 mv

/-- The attempts for a rail that are left, and those for it put back. -/
def acksOf (a : Acks) (dom : Nat) : List Bool := if dom = 0 then a.core else a.fold
def setAcks (a : Acks) (dom : Nat) (l : List Bool) : Acks := if dom = 0 then { a with core := l } else { a with fold := l }

/-- A Voltage write that fails three attempts: ERR, no lowering from now on, and 0.80 V repeated (R475). -/
def failRail (s : State) (dom mv : Nat) : State :=
  let s := cntN (rsetF ((List.range 3).foldl (fun s _ => emit s (.avs dom mv)) s) aPcAvsStat 0 20 20 1) aPcCntAvsErr 0 3
  { s with pc := { s.pc with avsNoLow := true
                             avsRetry := if s.pc.avsRetry.contains dom then s.pc.avsRetry else s.pc.avsRetry ++ [dom] } }

/-- A Voltage write, with up to three attempts as their outcomes come: each that fails is sent and counted (R475, R489). -/
def voltWrite (s : State) (a : Acks) (dom mv : Nat) : State × Acks :=
  let l := acksOf a dom
  let n := ((l.take 3).takeWhile (fun b => !b)).length
  let a := setAcks a dom (l.drop (min 3 (n + 1)))
  if n = 3 then (failRail s dom mv, a)
  else (setRail (cntN ((List.range n).foldl (fun s _ => emit s (.avs dom mv)) s) aPcCntAvsErr 0 n) dom mv, a)

/-- The readings of the sites stored: margins, hottest sensors, and the ageing trend of the oscillator counts against
their baseline (R490, R491, R504; log entry 180). -/
def takeSites (s : State) (l : List Site) : State :=
  let base := Config.roBase (slice s.pc.record 1376 288)
  let s := { s with pc := { s.pc with
    sites := l, trend := (List.range l.length).map (fun k => ((((l[k]?).map Site.ro).getD 0).toNat : Int) - base k) } }
  let s := rsetF (rsetF s aPcMarginStat 0 15 8 (pip8 (domMargin l 0))) aPcMarginStat 0 23 16 (pip8 (domMargin l 1))
  rset s aPcTempMax 0 (tc 16 (maxInt ((l.take 40).map (·.temp))) + 65536 * tc 16 (maxInt ((l.drop 40).map (·.temp))))

/-- A reading has found a domain below FLOOR. -/
def belowFloor (s : State) (l : List Site) (dom : Nat) : Bool := domMargin l dom < (mFloor s : Int)

/-- A domain below FLOOR has its rail raised at once, and a re-plan starts, or merges into the one under way (R492,
R495). -/
def emergency (s : State) (a : Acks) (dom : Nat) : State × Acks :=
  if belowFloor s s.pc.sites dom then
    let w := voltWrite s a dom (min 850 (railMv s dom + raiseMv (mTarget s) (domMargin s.pc.sites dom)))
    (startReplan (cnt (rsetF w.1 aPcMarginStat 0 3 3 1) aPcCntEmerg) 4, w.2)
  else (s, a)

/-- A reading of every site, with what it leads to at once (R490 to R492). -/
def reading (s : State) (l : List Site) (a : Acks) : State × Acks :=
  let r := emergency (takeSites s l) a 0
  emergency r.1 r.2 1

/-- Readings in a row below TARGET − HYST. -/
def lowRun (s : State) (dom old : Nat) : Nat :=
  if domMargin s.pc.sites dom < (mTarget s : Int) - mHyst s then old + 1 else 0

/-- The PC firmware runs: from stage 5 on, not in HALT (R458, R475). -/
def fwRuns (s : State) : Bool := !heldInReset s && 5 ≤ stage s && stage s ≤ 9

/-- MONITOR_READ: every site is read (R490 to R493). -/
def execMonitorRead (m : Reading) (s : State) : Out :=
  .next (if !fwRuns s ∨ m.sites.length ≠ 64 then s
    else
      let s := (reading s m.sites m.acks).1
      let c := lowRun s 0 s.pc.lowCore
      let f := lowRun s 1 s.pc.lowFold
      let s := { s with pc := { s.pc with lowCore := c, lowFold := f } }
      if rb s aPcMarginCtl 0 24 && (60 ≤ c || 60 ≤ f) then
        startReplan { s with pc := { s.pc with lowCore := if 60 ≤ c then 0 else c, lowFold := if 60 ≤ f then 0 else f } } 2
      else s)

/-! ## Throttling (R497, R498) -/

/-- DUTY_FLOOR of the plan in force. -/
def dutyFloor (s : State) : Nat := if s.pc.plan.isEmpty then 16 else fld s.pc.plan 23 1

/-- Duty of a pin: `d` while its accepted level is active and it is not faulty. -/
def pinDuty (c : Cond) (d : Nat) : Nat := if c.accepted && !c.faulty then d else 16

/-- The least of the sources' duties (R498). -/
def dutyNow (s : State) : Nat :=
  min (min (pinDuty s.pc.alert 8) (pinDuty s.pc.throttle 4)) (min (min s.pc.thermDuty s.pc.powDuty) (dutyFloor s))

/-- Cause bits of PC_THR_STAT, bit 0 for ALERT (R504). -/
def dutyCauses (s : State) : Nat :=
  b2n (pinDuty s.pc.alert 8 < 16) + 2 * b2n (pinDuty s.pc.throttle 4 < 16) + 4 * b2n (s.pc.thermDuty < 16) +
    8 * b2n (s.pc.powDuty < 16) + 16 * b2n (dutyFloor s < 16)

/-- One step down: 16, 12, 8, 4. -/
def stepDown (d : Nat) : Nat := max 4 (d - 4)
/-- One step up. -/
def stepUp (d : Nat) : Nat := min 16 (d + 4)

/-- A channel of the part reports HOT (R357). -/
def anyHot (s : State) : Bool := s.folds.any (fun (_, x) => x.chans.any (fun (_, c) => c.hot))

/-- THERMAL_LOOP: one run, 1 ms after the last; `elapsed10` says that every sensor has stayed below
TJ_THROTTLE − 5 °C for 10 ms since the last step (R500). -/
def execThermalLoop (elapsed10 : Bool) (s : State) : Out :=
  .next (if !fwRuns s then s
    else
      let tj : Int := 16 * rf s aPcThrCtl 0 7 0
      let s := if s.pc.duty < 16 then cnt s aPcCntThrMs else s
      let hot := s.pc.sites.any (fun x => tj ≤ x.temp) || anyHot s
      let cool := s.pc.sites.all (fun x => x.temp < tj - 80)
      let d := s.pc.thermDuty
      { s with pc := { s.pc with thermDuty := if hot then stepDown d else if elapsed10 && cool then stepUp d else d } })

/-- POWER_LOOP: an estimate of the power in mW, its mean over the last 10 ms, and the energy in mJ since the last
estimate (R502). -/
def execPowerLoop (mw mean : Word) (energy : Dword) (s : State) : Out :=
  .next (if !fwRuns s then s
    else
      let s := rset s aPcPwrTotal 0 mw.toNat
      let s := rset64 s aPcEnergyLo 0 ((rv64 s aPcEnergyLo 0 + energy.toNat) % 2 ^ 64)
      let cap := 1000 * rf s aPcThrCtl 0 19 8
      let n := min 10 (s.pc.powMs + 1)
      let up := 100 * mean.toNat < 95 * cap
      let dn := cap < mean.toNat
      if n = 10 ∧ (up ∨ dn) then
        { s with pc := { s.pc with powMs := 0, powDuty := if dn then stepDown s.pc.powDuty else stepUp s.pc.powDuty } }
      else { s with pc := { s.pc with powMs := n } })

/-! ## Re-plans (R493 to R496) -/

/-- What a plan sets a rail to, from its margin: unlimited falls only in plan 0 (R494). -/
def planMv (s : State) (dom : Nat) (m : Int) (first : Bool) : Nat :=
  let t := mTarget s
  let mv := railMv s dom
  if m < (t : Int) then min 850 (mv + raiseMv t m)
  else if (t : Int) + mHyst s ≤ m ∧ !s.pc.avsNoLow then
    max 650 (mv - (if first then fallMv t m else min 10 (fallMv t m)))
  else mv

/-- What of a plan comes from its retraining and eye reads. -/
structure PlanEyes where
  links : List Half
  eth : List Byte
  ucie : List Byte
  skipLink : Bool
  skipFold : Bool

/-- `n` bytes of a list, completed with zeros. -/
def padTo (n : Nat) (l : Bytes) : Bytes := (l ++ List.replicate (n - l.length) 0).take n

/-- FOLD of the record: the least eyes of a fold's channels as they were last trained, and the channels that this plan
has retrained (R496). -/
def foldRow (s : State) (f : Nat) : Bytes :=
  if (fold s f).disabled then [0, 0, 0, 0]
  else
    let l := (List.range 16).map (fun k => mget {} (fold s f).chans k)
    let least (g : Chan → Byte) : Byte := (l.map g).foldl (fun a b => if b.toNat < a.toNat then b else a) 255
    [least (·.rdEye), least (·.wrEye), least (·.vref), BitVec.ofNat 8 ((s.pc.retrained.filter (fun k => k / 16 == f)).length)]

/-- The plan record (R496). -/
def planBytes (s : State) (no reason dutyF low none_ : Nat) (l : List Site) (e : PlanEyes) : Bytes :=
  [1, BitVec.ofNat 8 reason, 0, 0] ++ toLE 4 no ++ toLE 8 (now s) ++ toLE 2 (railMv s 0) ++ toLE 2 (railMv s 1) ++
    toLE 1 (mTarget s) ++ toLE 1 (mFloor s) ++ toLE 1 (mHyst s) ++ toLE 1 dutyF ++
    toLE 1 (pip8 (domMargin l 0)) ++ toLE 1 (pip8 (domMargin l 1)) ++
    toLE 1 (low + 2 * none_ + 4 * b2n e.skipLink + 8 * b2n e.skipFold) ++ toLE 5 0 ++
    padTo 64 (l.map (fun x => BitVec.ofNat 8 (pip8 x.slack))) ++
    padTo 32 ((List.range 8).flatMap (foldRow s)) ++
    padTo 64 (e.links.flatMap (fun h => toLE 2 h.toNat)) ++ padTo 32 e.eth ++ padTo 16 e.ucie ++ toLE 16 0

/-- The voltage rule on one rail, from the readings of step 1. A rail that those readings have raised at once is not
raised by them again (R492, R494, R495; log entry 181). -/
def planVolt (s : State) (a : Acks) (first : Bool) (l1 : List Site) (dom : Nat) : State × Acks :=
  let mv := planMv s dom (domMargin l1 dom) first
  if mv = railMv s dom ∨ belowFloor s l1 dom then (s, a) else voltWrite s a dom mv

/-- Steps 1 and 2 of a plan: the sites are read, the voltages set from that reading, and the sites read again, each
reading with its emergency raises (R492, R494). -/
def planVolts (s : State) (first : Bool) (l1 l2 : List Site) (a1 a2 : Acks) : State :=
  let r := reading s l1 a1
  let r := planVolt r.1 { core := r.2.core ++ a2.core, fold := r.2.fold ++ a2.fold } first l1 0
  let r := planVolt r.1 r.2 first l1 1
  (reading r.1 l2 r.2).1

/-- A plan put into force: voltages, duty floor, flags, record (R494 to R496). -/
def makePlan (s : State) (first : Bool) (reason : Nat) (l1 l : List Site) (e : PlanEyes) (a1 a2 : Acks) : State :=
  let s := planVolts s first l1 l a1 a2
  let bad (lim : Nat) (dom : Nat) : Bool := railMv s dom == 850 && domMargin l dom < (lim : Int)
  let low := bad (mTarget s) 0 || bad (mTarget s) 1
  let worst := bad (mFloor s) 0 || bad (mFloor s) 1
  let no := if first then 0 else s.pc.planNo + 1
  let p := planBytes s no reason (if worst then 4 else if low then 12 else 16) (b2n low) (b2n worst) l e
  let s := { s with pc := { s.pc with plan := p, planNo := no, replanning := false } }
  let s := rsetF (rsetF s aPcMarginStat 0 0 0 0) aPcMarginStat 0 2 1 (b2n low + 2 * b2n worst)
  let s := if e.skipLink || e.skipFold then rsetF s aPcMarginStat 0 4 4 1 else s
  if first then s else cnt s aPcCntReplan

/-- A link can be retrained: its trunk holds another UP link, or the route of its neighbour has an ALT path that is UP
(R494; log entry 182). -/
def linkSpare (s : State) (l : Nat) : Bool :=
  let p := (link s l).nbr.toNat
  let b := rf s aDlRouteCfg p 23 12
  2 ≤ (trunk s p).length || (b != 0xFFF && b != p && trunkUp s b)

/-- A link retrained: it leaves UP, its traffic moving to the other paths, and comes UP again; where its training has
failed twice in a row it is FAILED (R367, R494, R495). -/
def retrainLink (s : State) (l : Nat) (failed : Bool) : State :=
  let s := leaveUp s l .training
  if failed then updLink s l (fun k => { k with st := .failed, fails := 2 })
  else comeUp (updLink s l (fun k => { k with trained := true, fails := 0 })) l

/-- Step 4: the UP links one at a time; those retrained, and whether one was skipped. -/
def retrainLinks (s : State) (failed : List (Fin 32)) : State × List Nat × Bool :=
  (List.range 32).foldl (fun r l =>
    if (link r.1 l).st ≠ .up then r
    else if !linkSpare r.1 l then (r.1, r.2.1, true)
    else
      let bad := failed.any (fun k => k.val == l)
      (retrainLink r.1 l bad, if bad then r.2.1 else r.2.1 ++ [l], r.2.2)) (s, [], false)

/-- REPLAN: a re-plan under way runs to its end with its plan in force: the sites read, the voltages set, the Drove links
retrained; a fold with a weak UCIe module is reset where UCIE_RESET allows it. Its channels are retrained by the steps
of R361 before it (R494, R495). -/
def execReplan (sites1 sites2 : List Site) (links : List Half) (eth ucie : List Byte) (failed : List (Fin 32))
    (acks1 acks2 : Acks) (s : State) : Out :=
  .next (if !s.pc.replanning ∨ closed s ∨ heldInReset s ∨ sites1.length ≠ 64 ∨ sites2.length ≠ 64 then s
    else
      let r := retrainLinks s failed
      let s := r.1
      let e : PlanEyes := {
        links := (List.range 32).map (fun l => if r.2.1.contains l then (links[l]?).getD 0 else 0)
        eth := eth, ucie := ucie, skipLink := r.2.2
        skipFold := (List.range 8).any (fun f => !(fold s f).disabled && foldSkipped s f) }
      let s := makePlan s false s.pc.replanReason.toNat sites1 sites2 e acks1 acks2
      if rb s aPcMarginCtl 0 25 then
        (List.range 8).foldl (fun s f =>
          if (ucie.drop (2 * f)).take 2 |>.any (fun m => m.toNat < 4) then wantReset s (2 + f) .whole 0xFFFFFFFF else s) s
      else s)

/-- REPLAN_PERIOD: PERIOD_H hours after the last plan (R493). -/
def execReplanPeriod (s : State) : Out :=
  .next (if rf s aPcMarginCtl 0 7 0 = 0 then s else startReplan s 1)

/-- PC_MARGIN_CTL written: its settings, and REPLAN (R493, R504). -/
def wrMarginCtl (s : State) (a : Acc) (v : Word) : State :=
  secureOnly s a blkPC 0 aPcMarginCtl (fun s =>
    let s := rset s aPcMarginCtl 0 (v.toNat % 2 ^ 26)
    if bit v.toNat 26 then startReplan s 5 else s)

/-- REPLAN_REQUEST. -/
def execReplanRequest (a : Acc) (v : Word) (s : State) : Out := .next (acc1 s a (fun s => wrMarginCtl s a v))

/-- AVS_RETRY: the repeated write of 0.80 V on each rail that waits for one, acknowledged or not (R475). -/
def execAvsRetry (acks : Acks) (s : State) : Out :=
  .next (if !fwRuns s ∨ s.pc.avsRetry.isEmpty then s
    else s.pc.avsRetry.foldl (fun s d =>
      if (acksOf acks d).headD true then
        setRail { s with pc := { s.pc with avsRetry := s.pc.avsRetry.filter (fun x => x != d) } } d 800
      else cnt (emit s (.avs d 800)) aPcCntAvsErr) s)

/-! ## Telemetry (R503) -/

/-- TELEMETRY_REFRESH: the sideband bytes 0x40 to 0xFF; the powers of the five groups of rails and the age of the
plan in hours are measured (R503). -/
def execTelemetryRefresh (rails : List Word) (hours : Word) (s : State) : Out :=
  .next (if !fwRuns s then s
    else
      let l := s.pc.sites
      let hot (a n : Nat) : Bytes := toLE 2 (tc 16 (maxInt (((l.drop a).take n).map (·.temp))))
      let mask := ((List.range 8).map (fun f => if (fold s f).chans.any (fun (_, c) => c.hot) then 2 ^ f else 0)).sum
      let b := hot 0 40 ++ hot 40 24 ++ (List.range 8).flatMap (fun f => hot (40 + 3 * f) 3) ++ toLE 1 mask ++
        toLE 1 s.pc.duty ++ toLE 1 (dutyCauses s) ++ toLE 1 0 ++ toLE 4 (rv s aPcPwrTotal) ++
        padTo 20 (rails.flatMap (fun w => toLE 4 w.toNat)) ++ toLE 8 (rv64 s aPcEnergyLo 0) ++
        toLE 2 (railMv s 0) ++ toLE 2 (railMv s 1) ++ toLE 1 (rf s aPcMarginStat 0 15 8) ++
        toLE 1 (rf s aPcMarginStat 0 23 16) ++ toLE 1 (rf s aPcMarginStat 0 4 0) ++ toLE 1 0 ++
        toLE 4 s.pc.planNo ++ toLE 4 hours.toNat
      { s with pc := { s.pc with telemetry := padTo 192 b } })

end Sys2Proof.Machine
end

