-- ==== Sys2Proof/Machine/Boot.lean ====
section
/-! DEFINITION. Pins that reset the part, clocks, the boot stages, the firmware image and SPI NOR
(R433 to R440, R449 to R469, R480, R482, R485, R501). -/

namespace Sys2Proof.Machine

/-! ## Pins that reset (R453, R456, R457, R480, R482, R485, R501) -/

/-- A pulse is accepted: always from 1 µs on, never below 100 ns, and in between as the filter decides (R480). -/
def pulseOk (ns : Nat) (acc : Bool) : Bool := 1000 ≤ ns || (100 ≤ ns && acc)

/-- Changes of a list of levels from a level on. -/
def changes : BitVec 3 → List (BitVec 3) → Nat
  | _, [] => 0
  | a, b :: l => (if a = b then 0 else 1) + changes b l

/-- SB_ADDR from three samples: each bit takes its majority. The levels that follow the samples in the list are those the
pins take later, each change of them ignored and counted (R479, R482; log entry 114). -/
def strap (s : State) (l : List (BitVec 3)) : State :=
  if l.length < 3 then s
  else
    let v := ((List.range 3).map (fun i => if 2 ≤ ((l.take 3).filter (fun v => bit v.toNat i)).length then 2 ^ i else 0)).sum
    cntN (rsetF s aPcPinStat 0 10 8 v) aPcCntStrapChg 0 (changes (BitVec.ofNat 3 v) (l.drop 3))

/-- PWRGOOD_FALL: a power-on reset, held for 10 ms at least; it ends a thermal trip (R453, R480, R485). -/
def execPwrgoodFall (ns : Nat) (accepted : Bool) (straps : List (BitVec 3)) (s : State) : Out :=
  .next (if !pulseOk ns accepted then s
    else
      let t := powerReset s
      strap { t with pc := { t.pc with pwrgood := false, pwrPin := false, pwrGap := true, tripped := false } } straps)

/-- PWRGOOD_RISE: it takes effect at once, or at the end of the 10 ms (R458, R480). -/
def execPwrgoodRise (s : State) : Out :=
  .next { s with pc := { s.pc with pwrPin := true, pwrgood := s.pc.pwrgood || !s.pc.pwrGap } }

/-- RESET_N_ASSERT: an abrupt reset; while THERMTRIP_N is asserted only the pin's level is kept, which holds the part
once a power cycle has ended the trip (R453, R456, R480, R485). -/
def execResetNAssert (ns : Nat) (accepted : Bool) (straps : List (BitVec 3)) (s : State) : Out :=
  .next (if !pulseOk ns accepted then s
    else if s.pc.tripped then { s with pc := { s.pc with resetN := false } }
    else
      let t := if s.pc.pwrgood then wholeReset s 1 else s
      strap { t with pc := { t.pc with resetN := false } } straps)

/-- RESET_N_RELEASE: the boot starts (R458). -/
def execResetNRelease (s : State) : Out := .next { s with pc := { s.pc with resetN := true } }

/-- THERMTRIP: THERMTRIP_N asserts, and an abrupt reset with cause 7 is held until PWRGOOD falls (R457, R485,
R501). -/
def execThermtrip (s : State) : Out :=
  .next (if !s.pc.pwrgood ∨ s.pc.tripped then s
    else
      let t := wholeReset s 7
      { t with pc := { t.pc with tripped := true } })

/-! ## Clocks (R452, R465) -/

/-- The boot cannot proceed: no MAC answers from now on (R465). -/
def halt (s : State) (code : Nat) : State :=
  setStage (setCode { s with np := { s.np with linkUp := [] } } code) 15

/-- ROOT_PLL_LOCK: the PC is released, and stage 1 begins (R452, R458). -/
def execRootPllLock (s : State) : Out :=
  .next (if heldInReset s ∨ stage s ≠ 0 then s
    else setStage (rset { s with pc := { s.pc with pllTries := 0 } } aPcClkStat 0 1) 1)

/-- ROOT_PLL_LOCK_TIMEOUT: the third attempt without lock sends the part to HALT, CLK_SLOW on REFCLK (R465). -/
def execRootPllLockTimeout (s : State) : Out :=
  .next (if heldInReset s ∨ stage s ≠ 0 then s
    else
      let n := s.pc.pllTries + 1
      let s := { s with pc := { s.pc with pllTries := n } }
      if n < 3 then s else halt (rsetF s aPcClkStat 0 9 9 1) 8)

/-- ROOT_PLL_LOSS: CLK_SLOW goes to REFCLK, and a clock-fault reset follows, cause 6 (R452, R454). -/
def execRootPllLoss (s : State) : Out :=
  .next (if heldInReset s ∨ !rb s aPcClkStat 0 0 then s
    else rsetF (wholeReset s 6) aPcClkStat 0 9 9 1)

/-- FOLD_PLL_LOSS: both UCIe modules lose their clock, and the fold is reset (R452). -/
def execFoldPllLoss (f : Fin 8) (s : State) : Out :=
  .next (if closed s ∨ heldInReset s ∨ !rb s aPcClkStat 0 (1 + f) then s
    else
      let d := draw (rsetF s aPcClkStat 0 (1 + f) (1 + f) 0)
      let e := draw d.2
      moduleDown (moduleDown e.2 f 0 false d.1) f 1 false e.1)

/-- ETH_REFERENCE_LOSS: the MACs concerned go down; queue pairs are not reset (R452). -/
def execEthReferenceLoss (macs : List (Fin 9)) (s : State) : Out :=
  .next (macs.foldl (fun s m => setMac s m false) s)

/-- DROVE_REFERENCE_LOSS: every link leaves UP and trains (R452). -/
def execDroveReferenceLoss (s : State) : Out :=
  .next ((List.range 32).foldl (fun s l => if (link s l).st = .up then leaveUp s l .training else s) s)

/-! ## Signatures and keys (R433 to R437) -/

/-- A signature verifies over signed bytes: the message is their SHA3-256 digest (R433). -/
def signedOk (key : Bytes) (ctx : Byte) (signed sig : Bytes) : Bool := Config.mldsaVerify key ctx (sha3 signed) sig

/-- The part record is signed by the record key (R434, R437, R438). -/
def recordOk (r : Bytes) : Bool :=
  sha3 (slice r 1664 1312) == Config.recRoot && signedOk (slice r 1664 1312) 2 (slice r 0 2976) (slice r 2976 2420)

/-- Seed of the identity key pair (R436). -/
def idSeed (seed : Bytes) : Bytes := sha3 (0x10 :: seed)

/-- The record and the identity have passed, or need not (R438). -/
def recFlag (s : State) : Bool := rb s aPcSecStat 0 0
def idFlag (s : State) : Bool := rb s aPcSecStat 0 1

/-- The next draw of the entropy source (R445). -/
def entropy32 (s : State) : Bytes × State :=
  (slice (Config.entropy s.pc.draws) 0 32, { s with pc := { s.pc with draws := s.pc.draws + 1 } })

/-- A signature made by the part, hedged (R433). -/
def sign (s : State) (sk : Bytes) (ctx : Byte) (signed : Bytes) : Bytes × State :=
  (slice (Config.mldsaSign sk ctx (sha3 signed) s.pc.draws) 0 2420, { s with pc := { s.pc with draws := s.pc.draws + 1 } })

/-- A new token nonce (R445). -/
def newNonce (s : State) : State := let r := entropy32 s; rsetBytes r.2 aPcDbgNonce0 0 r.1

/-! ## Stages 1 to 4 (R438, R458 to R460, R464) -/

/-- A boot row runs in its stage, on a part that is not held in reset. -/
def inStage (s : State) (n : Nat) (g : State → State) : State := if heldInReset s || stage s != n then s else g s

/-- ROM_SELF: ROM_DIGEST over the mask ROM (R441, R458). -/
def execRomSelf (rom : Bytes) (s : State) : Out :=
  .next (inStage s 1 (fun s => setStage { s with pc := { s.pc with romDigest := sha3 rom } } 2))

/-- The ROM zeroises the seed, brings up the management port with its boot address, and waits for an image on it
(R464, R466). -/
def toFallback (s : State) : State :=
  setStage (bootMac { s with pc := { s.pc with seed := [], fbTotal := 0, fbPieces := [] } }) 4

/-- A cycle of the PUF block: its power-up values give a seed, and the block is written with zeros (R435). -/
def pufCycle (s : State) (block : Bytes) : Bytes × State :=
  let s := { s with pc := { s.pc with puf := some (slice block 0 16384) } }
  (slice (Config.pufSeed (s.pc.puf.getD []) s.pc.helper) 0 32, { s with pc := { s.pc with puf := none } })

/-- IDENTITY: the record is verified; on a good one the helper data and up to three reconstructions, each with a cycle of
the PUF block, are checked against it (R435, R438, R458, R463). -/
def execIdentity (record helper : Bytes) (blocks : List Bytes) (s : State) : Out :=
  .next (inStage s 2 (fun s =>
    let r := slice record 0 5396
    let ok := recordOk r
    let good (x : Bytes) : Bool := Config.mldsaPublic (idSeed x) == slice r 64 1312
    let s := { s with pc := { s.pc with record := r, helper := helper } }
    let seeds := (blocks.take 3).map (fun b => (pufCycle s b).1)
    let idOk := ok && sha3 helper == slice r 32 32 && seeds.any good
    let seed := if ok then (seeds.find? good).getD [] else seeds.headD []
    let s := blocks.foldl (fun s b => (pufCycle s b).2) s
    let s := { s with pc := { s.pc with seed := seed } }
    let s := rsetF s aPcSecStat 0 1 0 (b2n ok + 2 * b2n idOk)
    let s := if !ok then setCode s 5 else if !idOk then setCode s 6 else s
    let s := if ok && idOk then s
      else rsetF (rsetF ((List.range 8).foldl (fun s f => updFold s f (fun x => { x with disabled := true })) s)
        aPcBootStat 0 12 5 255) aPcBootStat 0 14 13 3
    if rv s aPcBootTries = 3 then toFallback s else setStage s 3))

/-- BODY_LEN of an image, and its length (R439). -/
def bodyOf (b : Bytes) : Nat := fld b 8 4
def imageLen (b : Bytes) : Nat := 3796 + bodyOf b

/-- The check of R460 that an image fails: 1 header, 2 length, 3 key, 4 signature; 0 if it passes. -/
def imageCode (b : Bytes) : Nat :=
  if fld b 0 1 ≠ 1 ∨ !allZero (slice b 1 3) ∨ !allZero (slice b 12 52) then 1
  else if 4190508 < bodyOf b ∨ b.length < imageLen b then 2
  else if sha3 (slice b 64 1312) ≠ Config.fwRoot then 3
  else if !signedOk (slice b 64 1312) 1 (b.take (1376 + bodyOf b)) (slice b (1376 + bodyOf b) 2420) then 4
  else 0

/-- An image that passed is the running image (R460). -/
def runImage (s : State) (b : Bytes) (src : Nat) : State :=
  let s := { s with pc := { s.pc with
    image := b.take (imageLen b), fwDigest := sha3 (b.take (1376 + bodyOf b)), fbTotal := 0, fbPieces := [] } }
  setStage (rsetF s aPcBootStat 0 4 4 src) 5

/-- In stage 4 the seed is zeroised, so the PUF is read again before an image is run (R435, R464). -/
def rereadPuf (s : State) (block : Bytes) : State :=
  let r := pufCycle s block
  { r.2 with pc := { r.2.pc with seed := r.1 } }

/-- IMAGE_SPI: the image of SPI NOR is run, or stage 4 is entered (R460). -/
def execImageSpi (img : Bytes) (s : State) : Out :=
  .next (inStage s 3 (fun s => if imageCode img = 0 then runImage s img 0 else toFallback (setCode s (imageCode img))))

/-- A fallback datagram is in form (R464). -/
def fbOk (d : Bytes) : Bool :=
  let t := fld d 4 4
  let o := fld d 8 4
  let n := fld d 12 2
  fld d 0 1 == 1 && fld d 1 3 == 0 && fld d 14 2 == 0 && 3796 ≤ t && t ≤ 4194304 && o % 1024 == 0 &&
    1 ≤ n && n ≤ 1024 && o + n ≤ t && (n == 1024 || o + n == t) && d.length == 16 + n

/-- Bytes of the fallback transfer that are held. -/
def fbHeld (m : Map Bytes) : Nat := (m.map (fun (_, b) => b.length)).sum

/-- FALLBACK_DATAGRAM: taken on the management port by the frame checks of every datagram; a piece is kept and answered;
a whole image is checked, and run or discarded (R285, R464). -/
def execFallbackDatagram (m : FbMsg) (s : State) : Out :=
  .next (rxFrame s m.frame (fun s => if heldInReset s ∨ stage s ≠ 4 ∨ m.frame.mac.val ≠ 8 ∨ !fbOk m.data then rxDrop s
    else
      let d := m.data
      let t := fld d 4 4
      let old := if s.pc.fbTotal = t then s.pc.fbPieces else []
      let p := mput old (fld d 8 4) (d.drop 16)
      let s := emit { s with pc := { s.pc with fbTotal := t, fbPieces := p } }
        (.fallback ([1, 0, 0, 0] ++ toLE 4 t ++ toLE 4 (fbHeld p) ++ toLE 4 0))
      if fbHeld p < t then s
      else
        let img := p.flatMap (·.2)
        if imageCode img = 0 then runImage (rereadPuf s m.puf) img 1
        else setCode { s with pc := { s.pc with fbTotal := 0, fbPieces := [] } } (imageCode img)))

/-- FALLBACK_SPI_RETRY: SPI NOR is read once more (R464). -/
def execFallbackSpiRetry (m : SpiMsg) (s : State) : Out :=
  .next (inStage s 4 (fun s =>
    if imageCode m.img = 0 then runImage (rereadPuf s m.puf) m.img 0 else setCode s (imageCode m.img)))

/-! ## Stages 5 to 7 (R436, R458, R462, R465, R467) -/

/-- Bytes under ALIAS_SIG (R442). -/
def bindBytes (s : State) : Bytes :=
  s.pc.romDigest ++ s.pc.fwDigest ++ sha3 s.pc.record ++ s.pc.aliasPk ++ toLE 4 (fld s.pc.image 4 4)

/-- Identity and alias keys, the binding, and zeroisation of the seed (R436). -/
def makeKeys (s : State) : State :=
  let x := idSeed s.pc.seed
  let pk := Config.mldsaPublic x
  let ax := sha3 (0x11 :: (s.pc.seed ++ s.pc.fwDigest))
  let s := { s with pc := { s.pc with identityPk := pk } }
  let s := rset s aPcFwSvn 0 (fld s.pc.image 4 4)
  let s := if idFlag s then rsetBytes s aPcDeviceId0 0 (sha3 pk) else s
  let s := if recFlag s && !idFlag s then s
    else
      let s := { s with pc := { s.pc with aliasPk := slice (Config.mldsaPublic ax) 0 1312, aliasSk := Config.mldsaPrivate ax } }
      let g := sign s (Config.mldsaPrivate x) 3 (bindBytes s)
      rsetF { g.2 with pc := { g.2.pc with aliasSig := g.1 } } aPcSecStat 0 2 2 1
  { s with pc := { s.pc with seed := [] } }

/-- Drove links start training where their ENABLE is 1 (R467). -/
def trainLinks (s : State) : State :=
  (List.range 32).foldl (fun s l =>
    if rb s aDlLinkCtl l 0 ∧ (link s l).st = .down then setLink s l { (link s l) with st := .training, trained := false, fails := 0 }
    else s) s

/-- A core that failed its self-test: held in reset, recorded (R465). -/
def coreFailed (s : State) (c : Nat) : State :=
  let d := draw s
  let e := draw d.2
  logEv (setCode (rsetF e.2 aPcBootStat 0 (13 + c) (13 + c) 1) 11)
    { cls := 1, block := blkSQ, inst := c, location := 7 * 2 ^ 56 + d.1 % 2 ^ 56, detail := e.1 % 65536 }

/-- A core-die SRAM that failed its self-test, recorded; which one it is, and its address, are not given (R415, R465). -/
def sramFailed (s : State) : State :=
  let d := draw s
  let e := draw d.2
  logEv e.2 { cls := 1, block := d.1 % 6, location := d.1 / 6 % 2 ^ 64, detail := e.1 % 65536 }

/-- FW_START: keys, the firmware, the core die's self-test and the management port (R436, R445, R458, R465). -/
def execFwStart (sramOk : Bool) (coreFail : BitVec 2) (up : StartUp) (s : State) : Out :=
  .next (inStage s 5 (fun s =>
    let s := newNonce (makeKeys s)
    if !sramOk then halt (sramFailed s) 9
    else
      let s := (bitsSet 2 coreFail.toNat).foldl coreFailed s
      let s := if up.mgmtUp then bootMac s else setCode (setMac s 8 false) 12
      if recFlag s && idFlag s then trainLinks (setStage s 6)
      else enterReady s up.ms))

/-- A fold that failed its bring-up: disabled and recorded; the boot continues (R465). -/
def foldFailed (n : Nat) (s : State) (f : Nat) : State :=
  let s := updFold s f (fun x => { x with disabled := true })
  logEv (setCode (rsetF s aPcBootStat 0 (5 + f) (5 + f) 1) 10)
    { cls := 4, block := blkFM, inst := f, location := 2 * f, detail := n }

/-- FOLDS: the folds whose PLL or modules failed three attempts are disabled; the PLLs that did not fail are locked (R452,
R458, R465). -/
def execFolds (fail : FoldFail) (attempts : Nat) (s : State) : Out :=
  .next (inStage s 6 (fun s =>
    let s := (bitsSet 8 (Nat.lor fail.pll.toNat fail.ucie.toNat)).foldl (foldFailed attempts) s
    setStage (rsetF s aPcClkStat 0 8 1 (255 - fail.pll.toNat)) 7))

/-- The channels of a fold that pass their training: their eyes, and the oscillator value that is recorded (R359,
R360); a channel that fails stays untrained. -/
def trainFold (fail : BitVec 128) (eyes : List (Byte × Byte × Byte)) (s : State) (f : Nat) : State :=
  ((List.range 16).filter (fun k => !bit fail.toNat (16 * f + k))).foldl (fun s k =>
    let e := (eyes[16 * f + k]?).getD (0, 0, 0)
    let r := draw s
    updFold r.2 f (fun x => { x with
      chans := mset {} x.chans k { trained := true, rdEye := e.1, wrEye := e.2.1, vref := e.2.2, oscBase := r.1 } })) s

/-- MEMORY: the channels are trained, all but those that `fail` names by 16 × fold + channel, plan 0 is made, and
the boot fills begin (R359, R462, R465, R493). -/
def execMemory (fail : BitVec 128) (eyes : List (Byte × Byte × Byte)) (m : BootMeas) (ms : Nat) (s : State) : Out :=
  .next (inStage s 7 (fun s =>
    if !s.pc.plan.isEmpty then s
    else
      let up := (List.range 8).filter (fun f => !(fold s f).disabled)
      let s := up.foldl (trainFold fail eyes) s
      let s := (up.filter (fun f => bits fail.toNat (16 * f + 15) (16 * f) ≠ 0)).foldl (foldFailed 3) s
      let s := { s with pc := { s.pc with
        retrained := (up.filter (fun f => !(fold s f).disabled)).flatMap (fun f => (List.range 16).map (fun k => 16 * f + k)) } }
      let e : PlanEyes := { links := [], eth := m.eth, ucie := m.ucie, skipLink := false, skipFold := false }
      let s := makePlan s true 0 m.sites1 m.sites2 e {} m.acks
      if allFilled s then enterReady s ms else s))

/-- BOOT_WATCHDOG: 2 s after the firmware took over, before READY (R463). -/
def execBootWatchdog (s : State) : Out :=
  .next (if heldInReset s ∨ stage s < 5 ∨ 8 ≤ stage s then s else wholeReset s 5)

/-- PC_RST_CTL written: WHOLE from the secure world starts an orderly reset (R454). -/
def wrRstCtl (s : State) (a : Acc) (v : Word) : State :=
  if a.secure && bit v.toNat 0 then startOrderly s 4 stUnitReset else s

/-- PC_RST_CTL_WHOLE. -/
def execPcRstCtlWhole (a : Acc) (v : Word) (s : State) : Out := .next (acc1 s a (fun s => wrRstCtl s a v))

/-! ## SPI NOR from the firmware (R459, R461) -/

/-- Address of a PC_FLASH operation, aligned to `n`. -/
def flashAddr (s : State) (n : Nat) : Nat := rf s aPcFlashAddr 0 27 0 / n * n

/-- An operation started, or refused below 0x10000 (R459). -/
def flashGo (s : State) (a : Nat) (op : FlashOp) : State :=
  if a < 0x10000 then rsetF s aPcFlashCtl 0 4 4 1
  else rsetF { s with pc := { s.pc with flash := some op } } aPcFlashCtl 0 3 3 1

/-- PC_FLASH_CTL written: ERR is cleared by a 1; the lowest of the operation bits set acts, from the secure world
and while nothing runs (R461, R469). -/
def wrFlashCtl (s : State) (a : Acc) (v : Word) : State :=
  let n := v.toNat
  let s := if bit n 4 then rsetF s aPcFlashCtl 0 4 4 0 else s
  if !a.secure || s.pc.flash.isSome then s
  else if bit n 0 then flashGo s (flashAddr s 65536) (.erase (flashAddr s 65536))
  else if bit n 1 then flashGo s (flashAddr s 4096) (.program (flashAddr s 4096) (rbytes s aPcFlashBuf 0 1024))
  else if bit n 2 then flashGo s (flashAddr s 4096) (.read (flashAddr s 4096))
  else s

/-- PC_FLASH_ERASE. -/
def execPcFlashErase (a : Acc) (v : Word) (s : State) : Out := .next (acc1 s a (fun s => wrFlashCtl s a v))

/-- PC_FLASH_PROGRAM. -/
def execPcFlashProgram (a : Acc) (v : Word) (s : State) : Out := .next (acc1 s a (fun s => wrFlashCtl s a v))

/-- PC_FLASH_READ. -/
def execPcFlashRead (a : Acc) (v : Word) (s : State) : Out := .next (acc1 s a (fun s => wrFlashCtl s a v))

/-- FLASH_OP_DONE: the operation ends; a read's data lands in PC_FLASH_BUF (R461). -/
def execFlashOpDone (failed : Bool) (data : Bytes) (s : State) : Out :=
  .next (match s.pc.flash with
    | none => s
    | some op =>
      let s := rsetF { s with pc := { s.pc with flash := none } } aPcFlashCtl 0 3 3 0
      if failed then rsetF s aPcFlashCtl 0 4 4 1
      else match op with
        | .read _ => rsetBytes s aPcFlashBuf 0 (slice data 0 4096)
        | _ => s)

end Sys2Proof.Machine
end

