-- ==== Sys2Proof/Machine/Pins.lean ====
section
/-! DEFINITION. Conditioned inputs, the sideband and the test port's pins (R478 to R488). -/

namespace Sys2Proof.Machine

/-! ## Conditioned inputs (R478, R479, R481) -/

/-- A conditioned input of the part. -/
def condOf (s : State) (p : Pin) : Cond :=
  match p with
  | .alert => s.pc.alert
  | .throttle => s.pc.throttle
  | .sync => s.pc.sync
  | .pwrgood => {}

/-- A conditioned input set. -/
def setCond (s : State) (p : Pin) (c : Cond) : State :=
  match p with
  | .alert => { s with pc := { s.pc with alert := c } }
  | .throttle => { s with pc := { s.pc with throttle := c } }
  | .sync => { s with pc := { s.pc with sync := c } }
  | .pwrgood => s

/-- Counter of an input's ignored changes (R489). -/
def ignCnt (p : Pin) : Nat :=
  match p with | .alert => aPcCntAlertIgn | .throttle => aPcCntThrottleIgn | _ => aPcCntSyncIgn

/-- An input declared faulty (R478). -/
def declare_ (s : State) (p : Pin) : State :=
  cnt (rsetF (setCond s p { condOf s p with faulty := true }) aPcPinStat 0 7 7 1) aPcCntPinFault

/-- The filtered level of an input changes: the accepted level follows, and a minimum gap begins; within a gap
the change is ignored and counted (R478). -/
def filterTo (s : State) (p : Pin) (lvl : Bool) : State :=
  let c := condOf s p
  if c.filtered = lvl then s
  else if c.inGap then cnt (setCond s p { c with filtered := lvl }) (ignCnt p)
  else setCond s p { c with filtered := lvl, accepted := lvl, inGap := true }

/-- THERM_ALERT_N changes (R479, R498). -/
def execThermAlertN (low : Bool) (s : State) : Out := .next (filterTo s .alert low)

/-- FORCE_THROTTLE_N changes (R479, R498). -/
def execForceThrottleN (low : Bool) (s : State) : Out := .next (filterTo s .throttle low)

/-- An accepted edge of PAIR_SYNC_IN shows the partner alive on its pin, unless the pin is faulty (R393, R481). -/
def syncEdge (s : State) : State :=
  if s.pc.sync.faulty then s else { s with dl := { s.dl with pinAlive := true } }

/-- PAIR_SYNC_IN changes: an accepted edge counts for the pair; 64 ignored edges within 1 ms declare the pin
faulty, and a faulty pin never counts as silent (R479, R481). -/
def execPairSyncIn (high : Bool) (s : State) : Out :=
  .next (let c := s.pc.sync
    if c.filtered = high then s
    else if !c.inGap then syncEdge (filterTo s .sync high)
    else
      let s := filterTo s .sync high
      let es := (s.fab :: c.edges).take 64
      let s := setCond s .sync { s.pc.sync with edges := es }
      if !c.faulty ∧ es.length = 64 ∧ s.fab - (es.getLast?).getD 0 ≤ 960000 then
        let s := declare_ s .sync
        { s with dl := { s.dl with pinAlive := true } }
      else s)

/-- MINIMUM_GAP_END: the accepted level takes the filtered level; for PWRGOOD, a rise within the 10 ms takes
effect (R478, R480). -/
def execMinimumGapEnd (p : Pin) (s : State) : Out :=
  .next (match p with
    | .pwrgood => { s with pc := { s.pc with pwrGap := false, pwrgood := s.pc.pwrgood || s.pc.pwrPin } }
    | _ =>
      let c := condOf s p
      if !c.inGap then s
      else if c.filtered = c.accepted then setCond s p { c with inGap := false }
      else
        let s := setCond s p { c with accepted := c.filtered }
        if p = .sync then syncEdge s else s)

/-- STUCK_TIMEOUT: an input active for its timeout is declared faulty (R478, R479). -/
def execStuckTimeout (p : Pin) (s : State) : Out :=
  .next (let c := condOf s p
    if (p = .alert ∨ p = .throttle) ∧ c.accepted ∧ !c.faulty then declare_ s p else s)

/-- RE_ARM: an input inactive for its re-arm time, or PAIR_SYNC_IN without an ignored edge, acts again (R478,
R479). -/
def execReArm (p : Pin) (s : State) : Out :=
  .next (let c := condOf s p
    if !c.faulty then s
    else if p = .sync then setCond s p { c with faulty := false, edges := [] }
    else if c.accepted then s
    else setCond s p { c with faulty := false })

/-- PC_PIN_STAT as it reads (R489). -/
def pinStat (s : State) : Nat :=
  b2n s.pc.alert.accepted + 2 * b2n s.pc.throttle.accepted + 4 * b2n s.pc.sync.accepted + 8 * b2n s.dl.syncOut +
    16 * b2n s.pc.alert.faulty + 32 * b2n s.pc.throttle.faulty + 64 * b2n s.pc.sync.faulty +
    128 * rf s aPcPinStat 0 7 7 + 256 * rf s aPcPinStat 0 10 8

/-! ## The sideband (R486 to R488) -/

/-- The sideband answers its address: not while RESET_N or PWRGOOD holds the part in reset (R487, R501). -/
def sbAnswers (s : State) : Bool := s.pc.pwrgood && (s.pc.tripped || s.pc.resetN)

/-- The address that the sideband target answers to: the dynamic address once it has one, else its static address
0x58 + SB_ADDR (R486; log entry 186). -/
def sbAddr (s : State) : BitVec 7 :=
  match s.pc.sbDyn with
  | some a => a
  | none => BitVec.ofNat 7 (0x58 + rf s aPcPinStat 0 10 8)

/-- DEVICE_ID on the sideband: from the identity check on, the digest of the record's identity key, which is the
part's (R436, R438, R488). -/
def sbDevice (s : State) : Bytes :=
  if rb s aPcSecStat 0 1 then slice (sha3 (slice s.pc.record 64 1312)) 0 8 else List.replicate 8 0

/-- A byte of the part record as read; 0xFF before stage 2 has read it. -/
def recByte (s : State) (i : Nat) : Bytes := if s.pc.record.isEmpty then [0xFF] else slice s.pc.record i 1

/-- The sideband map (R488). -/
def sbMap (s : State) : Bytes :=
  toLE 4 0x7107 ++ recByte s 1 ++ recByte s 2 ++ toLE 2 (rf s aPcSecStat 0 1 0) ++ slice s.pc.record 4 4 ++
    toLE 4 (rv s aPcBootStat) ++ toLE 1 (rf s aPcRstCause 0 3 0) ++ toLE 1 (rf s aPcBootTries 0 1 0) ++ toLE 2 0 ++
    toLE 4 (pinStat s) ++ sbDevice s ++ List.replicate 32 0 ++ padTo 192 s.pc.telemetry

/-- First bytes of the 4-byte fields of the map (R488, R503). -/
def sbFields : List Nat := [0x00, 0x08, 0x0C, 0x14, 0x58, 0x5C, 0x60, 0x64, 0x68, 0x6C, 0x70, 0x74, 0x80, 0x84]

/-- One byte read from the pointer: byte 0 of a 4-byte field latches the field (R487). -/
def sbByte (s : State) : Byte × State :=
  let p := s.pc.sbPtr.toNat
  let m := sbMap s
  let s1 := { s with pc := { s.pc with sbPtr := s.pc.sbPtr + 1 } }
  if sbFields.contains p then ((m[p]?).getD 0, { s1 with pc := { s1.pc with sbLatch := some (p, slice m p 4) } })
  else match s.pc.sbLatch with
    | some (b, l) => if b < p ∧ p < b + 4 then ((l[p - b]?).getD 0, s1) else ((m[p]?).getD 0, s1)
    | none => ((m[p]?).getD 0, s1)

/-- `n` bytes read. -/
def sbBytes : Nat → State → Bytes × State
  | 0, s => ([], s)
  | n + 1, s =>
    let b := sbByte s
    let r := sbBytes n b.2
    (b.1 :: r.1, r.2)

/-- SIDEBAND_WRITE: the first byte sets the pointer (R487). -/
def execSidebandWrite (m : SbWrite) (s : State) : Out :=
  .next (match m.data with
    | b :: _ => if sbAnswers s ∧ m.addr = sbAddr s then { s with pc := { s.pc with sbPtr := b } } else s
    | [] => s)

/-- SIDEBAND_READ: bytes from the pointer, which advances (R487). -/
def execSidebandRead (m : SbRead) (s : State) : Out :=
  .next (if sbAnswers s ∧ m.addr = sbAddr s then (let r := sbBytes m.n s; emit r.2 (.sideband r.1)) else s)

/-- The 48-bit provisional ID (R486). -/
def provId (s : State) : Nat :=
  2 ^ 33 * Config.mipiId.toNat + 2 ^ 16 * 0x7107 + 2 ^ 12 * rf s aPcPinStat 0 10 8

/-- ENTDAA: a target without a dynamic address sends its provisional ID, most significant byte first, and takes the
dynamic address that the controller assigns; SETDASA assigns one to the static address 0x58 + SB_ADDR (R486; log entries
156 and 186). -/
def execEntdaa (m : DaaMsg) (s : State) : Out :=
  .next (if !sbAnswers s ∨ s.pc.sbDyn.isSome ∨ (m.direct ∧ m.static_ ≠ sbAddr s) then s
    else
      let s := if m.direct then s else emit s (.sideband (toLE 6 (provId s)).reverse)
      { s with pc := { s.pc with sbDyn := some m.addr } })

/-- SB_SCL_STUCK: the sideband target is reset (R479). -/
def execSbSclStuck (s : State) : Out :=
  .next (cnt { s with pc := { s.pc with sbPtr := 0, sbLatch := none, sbDyn := none } } aPcCntSbReset)

end Sys2Proof.Machine
end

