-- ==== Sys2Proof/Machine/Sec.lean ====
section
/-! DEFINITION. Worlds of units, attestation, debug unlock and the test access port (R428 to R448). -/

namespace Sys2Proof.Machine

/-! ## World map and owner key (R431, R446) -/

/-- A unit is empty: a core holds no graph version, a fold is named by no valid region descriptor (R431). -/
def unitEmpty (s : State) (u : Nat) : Bool :=
  if u < 2 then !(s.graphs.any (fun v => v.places.any (fun p => p.core == u)))
  else !(s.xl.regions.any (fun (_, r) => r.kind.toNat == 1 && !r.unmapping && 2 + r.unit.toNat == u))

/-- PC_WORLD_MAP written: every unit whose bit changes must be empty, or no bit changes (R431). -/
def wrWorldMap (s : State) (a : Acc) (v : Word) : State :=
  secureOnly s a blkPC 0 aPcWorldMap (fun s =>
    let new := v.toNat % 1024
    if (List.range 10).all (fun u => bit new u == unitWorld s u || unitEmpty s u) then rset s aPcWorldMap 0 new
    else rsetF s aPcSecStat 0 3 3 1)

/-- PC_WORLD_MAP. -/
def execPcWorldMap (a : Acc) (v : Word) (s : State) : Out := .next (acc1 s a (fun s => wrWorldMap s a v))

/-- PC_OWNER_KEY written: taken while all eight words read 0 (R446, R448). -/
def wrOwnerKey (s : State) (a : Acc) (k : Nat) (v : Word) : State :=
  secureOnly s a blkPC 0 (aPcOwnerKey0 + 4 * k) (fun s =>
    if allZero (rbytes s aPcOwnerKey0 0 8) then rset s (aPcOwnerKey0 + 4 * k) 0 v.toNat else s)

/-- PC_OWNER_KEY. -/
def execPcOwnerKey (a : Acc) (k : Fin 8) (v : Word) (s : State) : Out := .next (acc1 s a (fun s => wrOwnerKey s a k v))

/-! ## Attestation (R441 to R443) -/

/-- DEVICE_ID (R436). -/
def deviceId (s : State) : Bytes := if s.pc.identityPk.isEmpty then List.replicate 32 0 else sha3 s.pc.identityPk

/-- GRAPH_DIGEST (R441). -/
def graphDigest (s : State) : Bytes :=
  let l := sortBy (fun (a b : Version) => a.gid < b.gid || (a.gid == b.gid && a.num.toNat < b.num.toNat)) s.graphs
  sha3 ([0x08] ++ toLE 2 l.length ++ l.flatMap (fun v =>
    toLE 2 v.gid ++ toLE 4 v.num.toNat ++ toLE 1 (b2n v.current) ++ v.digest))

/-- Bytes 0 to 9,415 of the evidence (R442). -/
def evidenceBody (s : State) (nonce : Bytes) : Bytes :=
  toLE 1 1 ++ toLE 1 nonce.length ++
    toLE 1 (b2n (recFlag s) + 2 * b2n (rb s aIgStat 0 1) + 4 * b2n (s.pc.dbgLevel ≠ 0) + 8 * b2n (rb s aNpPtpStat 0 0)) ++
    toLE 1 0 ++ toLE 4 11836 ++ toLE 4 (rv s aPcFwSvn) ++ toLE 4 0 ++ toLE 8 (now s) ++ deviceId s ++ toLE 8 0 ++
    slice nonce 0 64 ++ s.pc.romDigest ++ s.pc.fwDigest ++ sha3 s.pc.record ++ sha3 (slice s.pc.plan 0 256) ++
    graphDigest s ++ slice s.pc.record 0 5396 ++ s.pc.aliasPk ++ s.pc.aliasSig

/-- A part holds its alias private key (R438, R446). -/
def aliasHeld (s : State) : Bool := rb s aPcSecStat 0 2

/-- ATTEST: reads the nonce, takes its snapshot, signs and writes the evidence; ATTESTs run one at a time in
arrival order (R443). -/
def execAttest (n : Word) (s : State) : Out :=
  .next (own 22 0 n (fun s c =>
    let len := cF c 16 4
    if len = 0 ∨ 64 < len ∨ !zero c 40 24 ∨ !srcOk c (cF c 24 8) len ∨ !plainAddr (cF c 32 8) then reject s c stBadField
    else if cF c 20 4 < 11836 then reject s c stBadLength
    else if !aliasHeld s then reject s c stBadState
    else fetchSrc (arrive s c) c .nonce (cF c 24 8) len)
    (fun s c =>
      if s.fe.cmds.any (fun d => cOp d == 22 && d.phase ≠ .ended && d.arrival ≠ 0 && d.arrival < c.arrival) then s
      else if !aliasHeld s then reject s c stBadState
      else
        let b := evidenceBody s c.data
        let g := sign s s.pc.aliasSk 4 b
        finish (sendDst g.2 c .evidence (cF c 32 8) (b ++ g.1)) 0 n 0) s)

/-! ## Debug unlock (R444 to R446) -/

/-- The check that a submitted token fails, as its RESULT code; 1 where it passes (R445). -/
def tokenResult (s : State) (t : Bytes) : Nat :=
  let key := rbytes s aPcOwnerKey0 0 8
  if allZero key then 7
  else if fld t 0 1 ≠ 1 ∨ fld t 1 1 = 0 ∨ 3 < fld t 1 1 ∨ !allZero (slice t 2 6) then 6
  else if sha3 (slice t 72 1312) ≠ key then 3
  else if slice t 8 32 ≠ deviceId s then 4
  else if slice t 40 32 ≠ rbytes s aPcDbgNonce0 0 8 then 5
  else if !signedOk (slice t 72 1312) 5 (slice t 0 1384) (slice t 1384 2420) then 2
  else 1

/-- The level raised; before OBSERVE or FULL the alias private key is zeroised (R446). -/
def raiseLevel (s : State) (l : Nat) : State :=
  if l ≤ s.pc.dbgLevel.toNat then s
  else
    let s := if 2 ≤ l then rsetF { s with pc := { s.pc with aliasSk := [] } } aPcSecStat 0 2 2 0 else s
    rsetF { s with pc := { s.pc with dbgLevel := BitVec.ofNat 2 l } } aPcSecStat 0 5 4 l

/-- The token in PC_DBG_TOKEN submitted: checked, counted or granted, and a new nonce drawn (R445). -/
def submitToken (s : State) : State :=
  let t := rbytes s aPcDbgToken 0 951
  let r := tokenResult s t
  let s := rset s aPcDbgStat 0 r
  newNonce (if r = 1 then raiseLevel s (fld t 1 1) else cnt s aPcCntTokenBad)

/-- PC_DBG_CTL written: SUBMIT, ignored from the non-secure world (R445, R448). -/
def wrDbgCtl (s : State) (a : Acc) (v : Word) : State := if a.secure && bit v.toNat 0 then submitToken s else s

/-- PC_DBG_SUBMIT. -/
def execPcDbgSubmit (a : Acc) (v : Word) (s : State) : Out := .next (acc1 s a (fun s => wrDbgCtl s a v))

/-! ## The test access port (R444, R479, R483) -/

/-- TRST_N: held low, the TAP stays in Test-Logic-Reset, where IEEE 1149.1 selects IDCODE (R479). -/
def execTrstN (low : Bool) (s : State) : Out :=
  .next { s with pc := { s.pc with tapReset := low, tap := if low then .idcode else s.pc.tap } }

/-- TDO driven: high impedance during reset and before stage 5 (R484; log entry 188). -/
def driveTdo (s : State) (b : Bytes) : State := if heldInReset s ∨ stage s < 5 then s else emit s (.tdo b)

/-- A TAP instruction is shifted in: out of Test-Logic-Reset it is selected, and does its work; one that the debug
level does not make available selects BYPASS (R444). -/
def tapGo (s : State) (level : Nat) (ir : TapIr) (g : State → State) : State :=
  if s.pc.tapReset then s
  else if s.pc.dbgLevel.toNat < level then driveTdo { s with pc := { s.pc with tap := .bypass } } [0]
  else g { s with pc := { s.pc with tap := ir } }

/-- IDCODE. -/
def execIdcode (s : State) : Out := .next (tapGo s 0 .idcode (fun s => driveTdo s (toLE 4 Config.idcode.toNat)))

/-- BYPASS: the one-bit register captures 0. -/
def execBypass (s : State) : Out := .next (tapGo s 0 .bypass (fun s => driveTdo s [0]))

/-- SAMPLE/PRELOAD: the levels sampled at the pins are shifted out, and the cells are loaded with what is shifted in at
TDI (R444, R483). -/
def execSamplePreload (m : ScanMsg) (s : State) : Out :=
  .next (tapGo s 1 .sample (fun s => driveTdo { s with pc := { s.pc with bsr := m.tdi } } m.pins))

/-- EXTEST: the preloaded cells drive the pins, and what the cells capture is read out: levels at the pins that the
command does not give, a free value of as many bytes. -/
def execExtest (s : State) : Out :=
  .next (tapGo s 1 .extest (fun s => let d := draw s; driveTdo d.2 (toLE s.pc.bsr.length d.1)))

/-- TOKEN_LOAD: the token buffer is written from the port, and the token submitted (R444). -/
def execTokenLoad (token : Bytes) (s : State) : Out :=
  .next (tapGo s 0 .token (fun s =>
    if closed s ∨ !fwRuns s then s else submitToken (rsetBytes s aPcDbgToken 0 (slice token 0 4096))))

end Sys2Proof.Machine
end

