-- ==== Sys2Proof/Machine/RegRead.lean ====
section
/-! DEFINITION. What a read of configuration space answers: the registers that show other state, the stored
ones, the scratch windows, and the latches of 64-bit quantities (R12 to R15, R67, R98, R132, R152, R185, R216,
R245, R282, R309, R337, R363, R399, R427, R448, R465, R469, R489, R504 to R509). -/

namespace Sys2Proof.Machine

/-- Word `n` of a byte string, bytes beyond its end 0. -/
def wordAt (b : Bytes) (n : Nat) : Nat := leNat (slice b (4 * n) 4)

/-- Word index of an offset in a run of registers from `lo`. -/
def runIx (o lo : Nat) : Nat := (o - lo) / 4

/-! ## PC (R448, R469, R489, R504) -/

/-- Low half of PC_MON_VAL's site: slack, temperature in whole degrees, oscillator count. -/
def monVal (x : Site) : Nat := pip8 x.slack + 256 * tc 8 (x.temp / 16) + 65536 * x.ro.toNat

/-- A PC register as it stands. -/
def pcReg (s : State) (w : Requester) (o : Nat) : Nat :=
  if o = aPcPinStat then pinStat s
  else if o = aPcMonVal then
    match s.pc.sites[selIx s w aPcMonSel % 64]? with
    | some x => monVal x
    | none => 0
  else if o = aPcThrStat then s.pc.duty + 256 * dutyCauses s
  else if aPcPlan ≤ o ∧ o < aPcPlan + 256 then wordAt s.pc.plan (runIx o aPcPlan)
  else rv s o 0

/-! ## FE (R282) -/

/-- Code of a queue state in FE_Q_STATE (R259). -/
def qCode (q : QSt) : Nat :=
  match q with
  | .disabled => 0
  | .idle => 1
  | .active => 2
  | .draining => 3
  | .backoff => 4
  | .halted => 5

/-- The FE_Q configuration of a created queue, or the words written for queue 0 while it is DISABLED. -/
def feQCfg (s : State) (q o : Nat) : Nat :=
  let u := queue s q
  if q = 0 ∧ u.st = .disabled then rv s o 0
  else if o = aFeQRingLo then u.ring.toNat % 2 ^ 32
  else if o = aFeQRingHi then u.ring.toNat / 2 ^ 32
  else if o = aFeQCqLo then u.cq.toNat % 2 ^ 32
  else if o = aFeQCqHi then u.cq.toNat / 2 ^ 32
  else u.log2 + 16 * u.part.toNat + 256 * u.cid.toNat + 2 ^ 20 * b2n u.world

/-- An FE register as it stands. -/
def feReg (s : State) (w : Requester) (o : Nat) : Nat :=
  let q := selIx s w aFeQSel
  let u := queue s q
  if o = aFeQCtl then b2n (u.st != .disabled)
  else if o = aFeQState then qCode u.st + 8 * b2n u.dbRange + 16 * min 15 u.retry + 65536 * u.haltStatus.toNat
  else if o = aFeQCons then u.c.toNat
  else if o = aFeQProd then u.l.toNat
  else if o = aFeQCpl then u.posted.toNat
  else if o = aFeQOutst then min 64 (outst s q)
  else if o = aFeQRingLo ∨ o = aFeQRingHi ∨ o = aFeQCqLo ∨ o = aFeQCqHi ∨ o = aFeQCfg then feQCfg s q o
  else if o = aFeQSession then u.session.toNat
  else if o = aFeQKey then u.key.toNat
  else if o = aFeQTimeout then u.timeout.toNat
  else rv s o 0

/-! ## NP (R309) -/

/-- Whole milliseconds to an expiry in CLK_SLOW cycles. -/
def msLeft (s : State) (t : Nat) : Nat := (t - slow s) / 100000

/-- Code of a queue pair state. -/
def qpCode (p : QpSt) : Nat :=
  match p with
  | .reset => 0
  | .rts => 1
  | .error => 2

/-- An NP register as it stands. -/
def npReg (s : State) (w : Requester) (o i : Nat) : Nat :=
  if aNpPortStat0 ≤ o ∧ o ≤ aNpPortStat3 then
    let p := runIx o aNpPortStat0
    rv s o 0 + b2n (mget false s.np.linkUp (2 * p)) + 2 * b2n (mget false s.np.linkUp (2 * p + 1))
  else if o = aNpPtpTimeLo then now s % 2 ^ 32
  else if o = aNpPtpTimeHi then now s / 2 ^ 32
  else if o = aNpPtpOffset then tc 32 s.np.ptpOffset
  else if o = aNpPtpRate then tc 32 s.np.ptpRate
  else if o = aNpLeaseStat then b2n s.np.owned + (if s.np.owned then 65536 * msLeft s s.np.expiry else 0)
  else if o = aNpSesKey then (session s (selIx s w aNpSesSel)).key.toNat
  else if o = aNpSesState then
    let k := selIx s w aNpSesSel
    let x := session s k
    b2n (sesLive s k) + 2 * b2n x.openFail + (if sesLive s k ∧ k ≠ 0 then 65536 * msLeft s x.expiry else 0)
  else if o = aNpQpState then
    let p := qp s (selIx s w aNpQpSel)
    qpCode p.st + 256 * p.cause.toNat
  else rv s o i

/-! ## XL (R337) -/

/-- An XL register as it stands. -/
def xlReg (s : State) (w : Requester) (o i : Nat) : Nat :=
  if o = aXlStat then rv s o 0 / 2 * 2 + b2n (!s.xl.syncs.isEmpty)
  else if aXlRegWord0 ≤ o ∧ o ≤ aXlRegWord7 then
    wordAt (regionBytes (region s (selIx s w aXlRegSel))) (runIx o aXlRegWord0)
  else if aXlTblWin ≤ o ∧ o < aXlTblWin + 4096 then
    let k := runIx o aXlTblWin
    ptEntry s (selIx s w aXlTblSel) (k / 2) / 2 ^ (32 * (k % 2)) % 2 ^ 32
  else rv s o i

/-! ## DL (R399) -/

/-- Code of a link state (R367). -/
def linkCode (l : LinkSt) : Nat :=
  match l with
  | .down => 0
  | .training => 1
  | .up => 2
  | .failed => 3

/-- A DL register as it stands. -/
def dlReg (s : State) (w : Requester) (o i : Nat) : Nat :=
  if o = aDlLinkStat then linkCode (link s (selIx s w aDlLinkSel)).st
  else if o = aDlLinkNbr then
    let l := link s (selIx s w aDlLinkSel)
    l.nbr.toNat + 65536 * l.nlink.toNat
  else if o = aDlRouteStat then
    match routeTo s (selIx s w aDlRouteSel) with
    | some r => r.2
    | none => 0
  else if o = aDlGrpStat then
    rv s o 0 % 4 + 4 * b2n (isLeader s) + 8 * b2n s.dl.dissolved +
      65536 * (if isLeader s then s.dl.records.length else 0)
  else if o = aDlPairCfg then
    s.dl.partner.toNat + 4096 * b2n s.dl.mirror + 8192 * b2n s.dl.syncEn + 65536 * rf s o 0 23 16
  else if o = aDlPairStat then
    pairCode s.dl.pair + 8 * b2n (rb s o 0 3) + 16 * b2n s.dl.hbAlive + 32 * b2n (s.dl.pinAlive || s.pc.sync.faulty)
  else rv s o i

/-! ## IG (R427) -/

/-- Code of a unit state (R424). -/
def unitCode (u : UnitSt) : Nat :=
  match u with
  | .service => 0
  | .quiescing => 1
  | .resetting => 2
  | .recovering => 3

/-- An IG register as it stands. -/
def igReg (s : State) (w : Requester) (o : Nat) : Nat :=
  if o = aIgUnitState then
    let u := unit s (selIx s w aIgUnitSel)
    u.gen.toNat + 256 * unitCode u.st
  else if aIgFlog ≤ o ∧ o < aIgFlog + 16384 then
    wordAt (frecBytes (flogAt s (runIx o aIgFlog / 16))) (runIx o aIgFlog % 16)
  else rv s o 0

/-! ## Ranking cores (R152, R185, R216, R245) -/

/-- Code of a slot state (R180). -/
def slotCode (x : SlotSt) : Nat :=
  match x with
  | .free => 0
  | .running => 1
  | .ready => 2
  | .held => 3
  | .ending => 4

/-- Launches that hold any version of a graph, through KIND 2 windows too (R245). -/
def graphRefs (s : State) (g : Nat) : Nat :=
  (s.reqs.filter (fun r => r.kind == .launch && !r.done && (r.gid == g || r.kind2.any (fun (h, _) => h == g)))).length

/-- Bundles of a core's instruction memory in use. -/
def imemUsed (s : State) (c : Nat) : Nat :=
  (s.graphs.map (fun v => if (placeOn v c).isSome then gCode v.image else 0)).sum

/-- SQ_GV_STATE of a graph. -/
def gvState (s : State) (g : Nat) : Nat :=
  let on (c : Nat) : Bool := match curVer s g with | some v => (soundCores v).contains c | none => false
  b2n (curVer s g).isSome + 2 * b2n (s.checking.any (fun (h, _, _) => h == g) && (curVer s g).isSome) + 4 * b2n (on 0) +
    8 * b2n (on 1) + 256 * (s.graphs.filter (fun v => v.gid == g)).length

/-- An SQ register of a core as it stands. -/
def sqReg (s : State) (w : Requester) (c o : Nat) : Nat :=
  let x := core s c
  let v := cslot x (selIx s w (coreReg c aSqSlotSel))
  let g := selIx s w (coreReg c aSqGvSel)
  if o = aSqStat then
    ((List.range 4).filter (fun k => (cslot x k).st != .free)).length +
      (match (List.range 4).find? (fun k => (cslot x k).st == .running) with | some k => 8 + 16 * k | none => 0)
  else if o = aSqSlotState then
    slotCode v.st + 8 * b2n v.hiprio + (if v.st = .held then 16 * v.waitCtr.toNat else 0) +
      (if v.st = .free then 0 else 65536 * v.req.toNat)
  else if o = aSqSlotPc then v.pc.toNat
  else if o = aSqSlotExc then v.exc.toNat
  else if o = aSqImemUsed then imemUsed s c
  else if o = aSqGsCount then (s.graphs.filter (·.current)).length + 65536 * s.graphs.length
  else if o = aSqGvState then gvState s g
  else if o = aSqGvCur then
    match curVer s g with
    | some v => v.num.toNat
    | none => 0
  else if o = aSqGvRefs then graphRefs s g
  else if aSqGvDigest0 ≤ o ∧ o ≤ aSqGvDigest7 then
    match curVer s g with
    | some v => wordAt v.digest (runIx o aSqGvDigest0)
    | none => 0
  else rv s (coreReg c o) 0

/-- The MA instruction that runs, if one does: set and pace. -/
def maNow (x : Core) : Option (Nat × Nat) :=
  (x.maRun.find? (fun (_, _, a, b) => a ≤ x.cycle && x.cycle < b)).map (fun (k, p, _, _) => (k, p))

/-- An MA register of a core as it stands. -/
def maReg (s : State) (c o : Nat) : Nat :=
  let x := core s c
  if o = aMaStripMap then fld s.pc.record (8 + 2 * c) 2
  else if o = aMaPace then
    partPace s % 32 + 256 * (match maNow x with | some (_, p) => p % 32 | none => 0)
  else if o = aMaStat then
    (match maNow x with | some (k, _) => 1 + 2 * (k % 4) | none => 0) +
      8 * ((List.range 4).map (fun k => 2 ^ k * b2n (mget false x.accInt k))).sum
  else rv s (coreReg c o) 0

/-- A VE register of a core as it stands. -/
def veReg (s : State) (c o : Nat) : Nat :=
  let x := core s c
  if o = aVeStat then
    match x.veRun.find? (fun (_, a, b) => a ≤ x.cycle && x.cycle < b) with
    | some (op, _, _) => 1 + 2 * (op % 64)
    | none => 0
  else rv s (coreReg c o) 0

/-! ## Folds (R67, R98, R132, R152, R363) -/

/-- An FM register of a fold as it stands. -/
def fmReg (s : State) (w : Requester) (f o i : Nat) : Nat :=
  let x := fold s f
  let c := mget {} x.chans (selIx s w (foldReg f aFmChSel))
  if o = aFmCap then (if x.disabled then 0 else usable s / 2 ^ 20) + 65536 * dieGb s
  else if o = aFmRegStat then b2n (512 < rateSum s f) + 65536 * rateSum s f
  else if o = aFmChStat then
    b2n c.trained + 2 * b2n c.retraining + 4 * c.refMult.toNat + 16 * b2n c.hot + 32 * b2n c.driftFlag
  else if o = aFmChUeAddr then c.ueAddr.toNat
  else if o = aFmTrnStat then c.rdEye.toNat + 256 * c.wrEye.toNat + 65536 * c.vref.toNat + 2 ^ 24 * (c.steps % 256)
  else if o = aFmPartTokens then tc 32 (tokens s f i)
  else if o = aFmPartQueued then (x.runs.filter (fun r => r.part == i)).length
  else rv s (foldReg f o) i

/-- The fold is in the FOLD_MASK of an image of a table (R67). -/
def tblHere (s : State) (f t : Nat) : Bool := (imagesOn s f).any (fun (u, _, _) => u == t)

/-- GX_TBL_STATE of a table. -/
def tblState (t : Table) : Nat :=
  b2n t.cur.isSome + 2 * b2n t.staged + 4 * b2n t.opened.isSome + 8 * b2n t.prev.isSome +
    16 * (match t.cur with | some e => b2n e.img | none => 0)

/-- A GX register of a fold as it stands. -/
def gxReg (s : State) (w : Requester) (f o : Nat) : Nat :=
  let x := fold s f
  let k := selIx s w (foldReg f aGxTblSel) % 4096
  let t := table s k
  let q := selIx s w (foldReg f aGxCtxSel) % 256
  if o = aGxPolicyStat then rv s (foldReg f o) 0 / 2 * 2 + b2n (threshBad s f)
  else if o = aGxPopPeriod then x.period.toNat
  else if o = aGxDirUsed then (dirUsed x).length
  else if o = aGxTblState then (if tblHere s f k then tblState t else 0)
  else if o = aGxTblEpoch then (match tblHere s f k, t.cur with | true, some e => e.num.toNat | _, _ => 0)
  else if o = aGxTblPinsCur then (match tblHere s f k, t.cur with | true, some e => e.pins | _, _ => 0)
  else if o = aGxTblPinsPrev then (match tblHere s f k, t.prev with | true, some e => e.pins | _, _ => 0)
  else if o = aGxTblPenUse then (if tblHere s f k then (penUse s f k + 4095) / 4096 else 0)
  else if o = aGxLaneMap then fld s.pc.record (12 + 2 * f) 2
  else if o = aGxCtxFree then
    (if x.disabled then 0 else 256 - (x.ctxs.filter (fun (_, c) => c.st != .free)).length)
  else if o = aGxCtxState then
    let c := ctxAt x q
    (match c.st with | .free => 0 | .bound => 1 | .running => 2 | .held => 3 | .draining => 4) +
      256 * min 255 (x.progs.filter (fun p => p.ctx == q)).length +
      (if c.st = .free then 0 else 65536 * c.req.toNat)
  else rv s (foldReg f o) 0

/-- An RU register of a fold as it stands. -/
def ruReg (s : State) (w : Requester) (f o : Nat) : Nat :=
  let x := fold s f
  let k := selIx s w (foldReg f aRuTblSel) % 4096
  if o = aRuStat then rv s (foldReg f o) 0 / 2 * 2 + b2n (recovering s f || rb s (foldReg f o) 0 0)
  else if o = aRuMasterUsed then (x.masters.filter (fun m => !m.lost)).length
  else if o = aRuJrnlUsed then (jUsed x + 1023) / 1024
  else if o = aRuDlogUsed then (x.deltas.filter (fun d => !d.applied)).length
  else if o = aRuTblMasters then (x.masters.filter (fun m => !m.lost && m.tid.toNat == k)).length
  else if o = aRuTblLate then (x.deltas.filter (fun d => !d.applied && d.tid.toNat == k)).length
  else rv s (foldReg f o) 0

/-! ## Every register -/

/-- A ranking core held in reset since boot (R465). -/
def coreHeld (s : State) (c : Nat) : Bool := rb s aPcBootStat 0 (13 + c)

/-- The range of a ranking core held in reset, whose selectors read 0 as its other registers do (R465). -/
def rangeHeld (s : State) (r : Range) : Bool := match r with | .core c _ => coreHeld s c | _ => false

/-- Instance that a requester's access to a register names. -/
def instOf (s : State) (w : Requester) (r : Range) (d : RegDef) : Nat :=
  match d.bank with
  | some b => selIx s w (baseOf r + b)
  | none => 0

/-- The register at an offset of a range, as it stands. -/
def regNow (s : State) (w : Requester) (r : Range) (i : Nat) : Nat :=
  match r with
  | .glob o =>
    if o < 0x100000 then pcReg s w o
    else if o < 0x200000 then feReg s w o
    else if o < 0x300000 then npReg s w o i
    else if o < 0x400000 then dlReg s w o i
    else if o < 0x800000 then xlReg s w o i
    else igReg s w o
  | .core c o =>
    if coreHeld s c then 0
    else if o < 0x400000 then sqReg s w c o
    else if o < 0x800000 then maReg s c o
    else veReg s c o
  | .fold f o =>
    if o < 0x400000 then fmReg s w f o i
    else if o < 0x800000 then gxReg s w f o
    else ruReg s w f o
  | _ => 0

/-- The value a read by a requester finds at an address, reserved bits 0. -/
def regLive (s : State) (w : Requester) (a : Nat) : Nat :=
  match regDef a with
  | none => 0
  | some d => if d.sel then (if rangeHeld s (rangeOf a) then 0 else selOf s w a) else regNow s w (rangeOf a) (instOf s w (rangeOf a) d)

/-- Low halves of the 64-bit quantities (R13): those with registers of their own, the entries of the table window, BASE
and LIMIT of a region descriptor, FIRST_NS, LAST_NS, LOCATION and DETAIL of a fault record, and TIME of the plan
(R496). -/
def lowHalf (r : Range) : Bool :=
  match r with
  | .glob o => (aXlTblWin ≤ o && o < aXlTblWin + 4096 && o % 8 == 0) || o == aXlRegWord0 || o == aXlRegWord2 ||
      (aIgFlog ≤ o && o < aIgFlog + 0x4000 && [24, 32, 40, 48].contains (o % 64)) || [aFeQRingLo, aFeQCqLo, aNpMacAddrLo, aNpPtpTimeLo, aXlMwBaseLo, aXlFqAddrLo, aDlPairLastTagLo,
      aPcEnergyLo, aPcPlan + 8].contains o
  | .core _ o => [aVeQsSseLo, aVeQsSsLo, aVeQsCountLo].contains o
  | .fold _ o => [aRuConvSseLo, aRuConvSsLo, aRuConvCountLo].contains o
  | _ => false

/-- Bits of ROS fields read 0 to the non-secure world (R14). -/
def hideRos (d : RegDef) (secure : Bool) (v : Nat) : Nat := if secure then v else v - Nat.land v d.ros

/-- A read of a register: its value, and the state with the latch taken or set (R13, R14). -/
def readDef (s : State) (a : Acc) (addr : Nat) (d : RegDef) : Nat × State :=
  let live (x : Nat) : Nat := hideRos d a.secure (regLive s a.who x)
  if lowHalf (rangeOf addr) then
    (live addr, setLatch s a.who (addr + 4) (some (BitVec.ofNat 32 (live (addr + 4)))))
  else if 4 ≤ addr ∧ lowHalf (rangeOf (addr - 4)) then
    match latchOf s a.who addr with
    | some v => (v.toNat, setLatch s a.who addr none)
    | none => (live addr, s)
  else (live addr, s)

/-! ## The scratch windows (R185, R508) -/

/-- Scratchpad byte behind byte `k` of a core's scratch window. -/
def viewByte (s : State) (c k : Nat) : Nat := min 2 (rf s (coreReg c aSqScrView) 0 1 0) * 2 ^ 24 + k

/-- A read of a scratch window: 4 B of the scratchpad, to the secure world only. -/
def viewRead (s : State) (a : Acc) (c k : Nat) : Nat × State :=
  if !a.secure then (0, worldViolation s blkSQ c (0x1000000 * (c + 3) + k) a.who)
  else if k % 4 ≠ 0 then (0, s)
  else (leNat (scrRead (core s c) (viewByte s c k) 4).data, s)

/-- A write of a scratch window. -/
def viewWrite (s : State) (a : Acc) (c k : Nat) (v : Word) : State :=
  if !a.secure then worldViolation s blkSQ c (0x1000000 * (c + 3) + k) a.who
  else if k % 4 ≠ 0 then s
  else updCore s c (fun x => extWrite x (viewByte s c k) { data := toLE 4 v.toNat })

/-- A read of configuration space; an address with no register reads 0 (R505). -/
def regRead (s : State) (a : Acc) (addr : Nat) : Word × State :=
  let r := match rangeOf addr with
    | .win c k => viewRead s a c k
    | _ => match regDef addr with
      | none => (0, s)
      | some d => readDef s a addr d
  (BitVec.ofNat 32 r.1, r.2)

end Sys2Proof.Machine
end

