-- ==== Sys2Proof/Machine/RegWrite.lean ====
section
/-! DEFINITION. Writes of configuration space: the fields by their access codes, the bounds and conditions that
the field maps set, the registers with an effect of their own, and the commands that make accesses (R12 to R15,
R43, R47, R67, R132, R152, R292, R323, R336, R337, R374, R428, R505 to R509). -/

namespace Sys2Proof.Machine

/-! ## Fields by access code (R14, R15) -/

/-- What a write leaves in a register: RW and RWS fields set, RW1C bits with a 1 cleared. -/
def merged (d : RegDef) (old v : Nat) : Nat :=
  let set := d.rw + d.rws
  let old' := old - Nat.land old (Nat.land d.w1c v)
  (old' - Nat.land old' set) + Nat.land v set

/-- Block of R415 and instance that own the register at an address. -/
def ownerOf (r : Range) : Nat × Nat :=
  match r with
  | .glob o => (if o < 0x100000 then blkPC else if o < 0x200000 then blkFE else if o < 0x300000 then blkNP
      else if o < 0x400000 then blkDL else if o < 0x800000 then blkXL else blkIG, 0)
  | .core c o => (if o < 0x400000 then blkSQ else if o < 0x800000 then blkMA else blkVE, c)
  | .win c _ => (blkSQ, c)
  | .fold f o => (if o < 0x400000 then blkFM else if o < 0x800000 then blkGX else blkRU, f)
  | .none => (0, 0)

/-! ## Bounds of the field maps -/

/-- A value held between two bounds. -/
def clampTo (lo hi v : Nat) : Nat := max lo (min hi v)

/-- The word that a register takes for a word written, where its field map clamps it. -/
def clampReg (r : Range) (v : Nat) : Nat :=
  match r with
  | .glob o =>
    if o = aPcPinCfg then min 3600 v
    else if o = aPcThrCtl then clampTo 60 105 (v % 256) + 256 * clampTo 150 700 (v / 256)
    else if o = aDlCollTmo ∨ o = aDlKeyTmo ∨ o = aDlBarrierTmo then max 1 v
    else if o = aNpLeaseTimeout then clampTo 100 60000 v
    else if o = aNpSesPeriod then clampTo 10 60000 v
    else v
  | .core _ o => if o = aSqConstSize then min 6144 v else v
  | .fold _ o =>
    if o = aGxEpochGraceMax then clampTo 100 1000000 v
    else if o = aRuJrnlSize then (if v = 0 then 0 else clampTo 16 4096 v)
    else v
  | _ => v

/-- A register that its field map lets be written only in some states can be written now (R67, R132, R245, R288,
R374). -/
def writable (s : State) (r : Range) (i : Nat) : Bool :=
  match r with
  | .glob o =>
    if aNpQpCfg ≤ o ∧ o ≤ aNpQpTmo then (qp s i).st == .reset
    else if o = aDlGrpSize then !hasGroupTab s
    else true
  | .core c o => if o = aSqConstSize then unitEmpty s c else true
  | .fold f o =>
    if o = aGxPenRowBase ∨ o = aGxPenRowLimit ∨ o = aGxAsidePen ∨ o = aGxAsidePast ∨ o = aGxEpochGraceMax then
      !holdsImage s f
    else if o = aRuMasterPool ∨ o = aRuJrnlSize ∨ o = aRuDlogSize then !holdsTrained s f
    else true
  | _ => true

/-- A write of a register whose fields have no effect of their own. -/
def plainWrite (s : State) (a : Acc) (addr : Nat) (d : RegDef) (v : Word) : State :=
  let r := rangeOf addr
  let i := instOf s a.who r d
  let d := if a.secure then d else { d with rws := 0 }
  if writable s r i then
    let old := rv s addr i
    let new := merged d old v.toNat
    if d.rw + d.rws = 0 then rset s addr i new else rset s addr i (clampReg r new)
  else s

/-! ## Registers with an effect of their own -/

/-- GX_POLICY_CTL written (R43, R44 to R46): either world. -/
def wrPolicyCtl (s : State) (f : Nat) (v : Word) : State :=
  rset s (foldReg f aGxPolicyCtl) 0 (v.toNat % 8 + 16 * bits v.toNat 6 4 + 256 * bits v.toNat 15 8)

/-- GX_POLICY_CTL. -/
def execGxPolicyCtl (a : Acc) (f : Fin 8) (v : Word) (s : State) : Out := .next (acc1 s a (fun s => wrPolicyCtl s f v))

/-- GX_POP_THRESH written; THRESH_BAD follows from it (R47). -/
def wrPopThresh (s : State) (f : Nat) (v : Word) : State := rset s (foldReg f aGxPopThresh) 0 v.toNat

/-- GX_POP_THRESH. -/
def execGxPopThresh (a : Acc) (f : Fin 8) (v : Word) (s : State) : Out := .next (acc1 s a (fun s => wrPopThresh s f v))

/-- VE_QS_CTL written: STATS_EN, and CLEAR (R152); none on a core held in reset. -/
def wrQsCtl (s : State) (c : Nat) (v : Word) : State :=
  if coreHeld s c then s
  else
    let s := rset s (coreReg c aVeQsCtl) 0 (v.toNat % 2)
    if bit v.toNat 1 then clearRegs s (coreReg c aVeQsSseLo) (coreReg c aVeCntMisalign) else s

/-- VE_QS_CLEAR. -/
def execVeQsClear (a : Acc) (c : Core2) (v : Word) (s : State) : Out := .next (acc1 s a (fun s => wrQsCtl s c v))

/-- RU_CONV_CTL written: RULE while the fold holds no trained image, STATS_EN, and CLEAR (R152). -/
def wrConvCtl (s : State) (f : Nat) (v : Word) : State :=
  let r := foldReg f aRuConvCtl
  let rule := if holdsTrained s f then rf s r 0 0 0 else v.toNat % 2
  let s := rset s r 0 (rule + 2 * bits v.toNat 1 1)
  if bit v.toNat 2 then clearRegs s (foldReg f aRuConvSseLo) (foldReg f aRuConvNonfinite) else s

/-- RU_CONV_CLEAR. -/
def execRuConvClear (a : Acc) (f : Fin 8) (v : Word) (s : State) : Out := .next (acc1 s a (fun s => wrConvCtl s f v))

/-- A word of the table window written: a low half is held, a high half commits its entry (R323, R332). -/
def wrTblWin (s : State) (a : Acc) (word : Nat) (v : Word) : State :=
  secureOnly s a blkXL 0 (aXlTblWin + 4 * word) (fun s =>
    let e := 512 * selIx s a.who aXlTblSel + word / 2
    let k := whoKey a.who e
    if word % 2 = 0 then { s with xl := { s.xl with lowHalf := mset none s.xl.lowHalf k (some v) } }
    else
      let low := match mget none s.xl.lowHalf k with
        | some l => l.toNat
        | none => (mget 0 s.xl.store e).toNat % 2 ^ 32
      { s with xl := { s.xl with
          lowHalf := mset none s.xl.lowHalf k none
          store := mset 0 s.xl.store e (BitVec.ofNat 64 (low + 2 ^ 32 * v.toNat)) } })

/-- XL_TBL_WIN. -/
def execXlTblWin (a : Acc) (word : BitVec 10) (v : Word) (s : State) : Out :=
  .next (acc1 s a (fun s => wrTblWin s a word.toNat v))

/-- XL_FQ_CONS written: the driver reports consumption, which makes room (R336). -/
def wrFqCons (s : State) (a : Acc) (v : Word) : State :=
  secureOnly s a blkXL 0 aXlFqCons (fun s => rset s aXlFqCons 0 v.toNat)

/-- XL_FQ_CONS. -/
def execXlFqCons (a : Acc) (v : Word) (s : State) : Out := .next (acc1 s a (fun s => wrFqCons s a v))

/-- XL_FQ_CFG written: LOG2 only while ENABLE is 0; records are numbered from ENABLE on (R336, R337). -/
def wrFqCfg (s : State) (v : Word) : State :=
  let was := rb s aXlFqCfg 0 0
  let log := if was then rf s aXlFqCfg 0 8 4 else bits v.toNat 8 4
  let s := rset s aXlFqCfg 0 (v.toNat % 2 + 16 * log)
  if !was ∧ bit v.toNat 0 then rset s aXlFqProd 0 0 else s

/-- XL_RWIN_CFG written: an entry that names the source and window of another enabled one is not enabled (R334). -/
def wrRwinCfg (s : State) (i : Nat) (v : Word) : State :=
  let n := v.toNat % 2 ^ 21
  let dup := bit n 0 && (List.range 4096).any (fun j => j ≠ i && rb s aXlRwinCfg j 0 &&
    rf s aXlRwinCfg j 20 3 == bits n 20 3)
  if dup then rsetF (rset s aXlRwinCfg i (n - 1)) aXlStat 0 2 2 1 else rset s aXlRwinCfg i n

/-- FE_Q_TIMEOUT written: for a created queue, or for queue 0 before it is (R278, R282). -/
def wrFeTimeout (s : State) (q : Nat) (v : Word) : State :=
  if (queue s q).st = .disabled ∧ q ≠ 0 then s
  else updQueue s q (fun u => { u with timeout := BitVec.ofNat 22 (clampTo 1 4000000 (v.toNat % 2 ^ 22)) })

/-- A field of queue 0's configuration written, while queue 0 is selected and DISABLED (R282). -/
def wrFeQCfg (s : State) (q o : Nat) (v : Nat) : State :=
  if q = 0 ∧ (queue s 0).st = .disabled then rset s o 0 v else s

/-- NP_SES_KEYW written: the session's key while it is not live (R304, R309). -/
def wrSesKeyw (s : State) (a : Acc) (v : Word) : State :=
  let i := selIx s a.who aNpSesSel
  if a.secure && !sesLive s i then updSession s i (fun x => { x with key := v }) else s

/-- A write of a global register with an effect of its own; none for the others. -/
def globWrite (s : State) (a : Acc) (o i : Nat) (v : Word) : Option State :=
  let q := selIx s a.who aFeQSel
  let sec (st : State) : State := secureOnly s a (ownerOf (.glob o)).1 0 o (fun _ => st)
  if o = aFeQ0DbLo then some (wrFeQ0DbLo s a v)
  else if o = aFeQ0DbHi then some (wrFeQ0DbHi s a v)
  else if o = aFeQCtl then some (wrFeQEnable s a v)
  else if o = aFeQKey0 then some (wrFeQKey0 s a v)
  else if o = aFeQState then
    some (if bit v.toNat 3 then updQueue s q (fun u => { u with dbRange := false }) else s)
  else if o = aFeQTimeout then some (sec (wrFeTimeout s q v))
  else if o = aFeQSession then some (sec s)
  else if o = aFeQRingLo ∨ o = aFeQRingHi ∨ o = aFeQCqLo ∨ o = aFeQCqHi then some (sec (wrFeQCfg s q o v.toNat))
  else if o = aFeQCfg then some (sec (wrFeQCfg s q o (v.toNat % 2 ^ 21)))
  else if aNpPortCfg0 ≤ o ∧ o ≤ aNpPortCfg3 then some (wrPortCfg s a (runIx o aNpPortCfg0) v)
  else if o = aNpPtpCtl then some (wrPtpCtl s a v)
  else if o = aNpLeaseRenew then some (wrLeaseRenew s a v)
  else if o = aNpSesCtl then some (wrSesCtl s a v)
  else if o = aNpSesKeyw then some (wrSesKeyw s a v)
  else if o = aNpSesState then
    let k := selIx s a.who aNpSesSel
    some (if bit v.toNat 1 then updSession s k (fun x => { x with openFail := false }) else s)
  else if o = aNpQpCtl then some (wrQpCtl s a v)
  else if o = aDlPartId then some (wrPartId s a v)
  else if o = aDlRouteCfg then some (secureOnly s a blkDL 0 o (fun s => cutColls (drainFlits (rset s o i v.toNat) [])))
  else if o = aDlLinkCtl then some (wrLinkCtl s a v)
  else if o = aDlGrpCtl then some (wrGrpCtl s a v)
  else if o = aDlGrpMember then some (wrGrpMember s a v)
  else if aXlTblWin ≤ o ∧ o < aXlTblWin + 4096 then some (wrTblWin s a (runIx o aXlTblWin) v)
  else if o = aXlFqCons then some (wrFqCons s a v)
  else if o = aXlFqCfg then some (sec (wrFqCfg s v))
  else if o = aXlRwinCfg then some (sec (wrRwinCfg s i v))
  else if o = aIgFlogCons then some (wrFlogCons s a v)
  else if o = aIgUrst then some (wrIgUrst s a v)
  else if o = aPcRstCtl then some (wrRstCtl s a v)
  else if o = aPcFlashCtl then some (wrFlashCtl s a v)
  else if o = aPcWorldMap then some (wrWorldMap s a v)
  else if aPcOwnerKey0 ≤ o ∧ o ≤ aPcOwnerKey7 then some (wrOwnerKey s a (runIx o aPcOwnerKey0) v)
  else if o = aPcDbgCtl then some (wrDbgCtl s a v)
  else if o = aPcMarginCtl then some (wrMarginCtl s a v)
  else none

/-- A write of a register of a fold with an effect of its own. -/
def foldWrite (s : State) (a : Acc) (f o i : Nat) (v : Word) : Option State :=
  if o = aGxPolicyCtl then some (wrPolicyCtl s f v)
  else if o = aGxPopThresh then some (wrPopThresh s f v)
  else if o = aRuConvCtl then some (wrConvCtl s f v)
  else if o = aFmPartRate then some (wrPartRate s a f v)
  else if o = aFmEccInj then some (wrEccInj s a f v)
  else if o = aFmChStat then
    some (updChan s f i (fun c => { c with hot := c.hot && !bit v.toNat 4, driftFlag := c.driftFlag && !bit v.toNat 5 }))
  else none

/-- A write of a register of a ranking core with an effect of its own; a core held in reset takes none (R465). -/
def coreWrite (s : State) (a : Acc) (c o : Nat) (v : Word) : Option State :=
  if coreHeld s c then some s
  else if o = aVeQsCtl then some (wrQsCtl s c v)
  else if o = aMaResInj then some (wrResInj s a c v)
  else none

/-- A write of a register (R14): selectors to the requester's own copy, registers with an effect of their own, and
the plain ones; from the non-secure world a register with RWS fields records a violation. -/
def writeDef (s : State) (a : Acc) (addr : Nat) (d : RegDef) (v : Word) : State :=
  let r := rangeOf addr
  if d.sel then (if rangeHeld s r then s else setSel s a.who addr (Nat.land v.toNat d.rw))
  else
    let own := match r with
      | .glob o => globWrite s a o (instOf s a.who r d) v
      | .core c o => coreWrite s a c o v
      | .fold f o => foldWrite s a f o (instOf s a.who r d) v
      | _ => none
    match own with
    | some t => t
    | none =>
      let s := plainWrite s a addr d v
      if !a.secure ∧ d.rws ≠ 0 then worldViolation s (ownerOf r).1 (ownerOf r).2 addr a.who else s

/-- A write of configuration space; an address with no register ignores it (R505). -/
def regWrite (s : State) (a : Acc) (addr : Nat) (v : Word) : State :=
  match rangeOf addr with
  | .win c k => viewWrite s a c k v
  | _ => match regDef addr with
    | none => s
    | some d => writeDef s a addr d v

/-- REGISTER_WRITE: a write by a requester (R14). -/
def execRegisterWrite (a : Acc) (addr v : Word) (s : State) : Out :=
  .next (acc1 s a (fun s => regWrite s a addr.toNat v))

/-- LOW_HALF_READ: a read by a requester, of the low half of a 64-bit quantity or any other register (R13, R14). -/
def execLowHalfRead (a : Acc) (addr : Word) (s : State) : Out :=
  .next (acc1 s a (fun s => let r := regRead s a addr.toNat; emit r.2 (.regData a.who r.1)))

/-- SCRATCH_WINDOW_ACCESS: a read or write of a core's scratch window (R185, R508). -/
def execScratchWindowAccess (a : Acc) (c : Core2) (write : Bool) (off : BitVec 24) (v : Word) (s : State) : Out :=
  .next (acc1 s a (fun s =>
    if write then viewWrite s a c off.toNat v
    else
      let r := viewRead s a c off.toNat
      emit r.2 (.regData a.who (BitVec.ofNat 32 r.1))))

/-- DEBUG_ACCESS: JTAG reads or writes configuration space, non-secure at OBSERVE and secure at FULL (R428, R444). -/
def execDebugAccess (write : Bool) (addr v : Word) (s : State) : Out :=
  .next (tapGo s 2 .access (fun s =>
    let a : Acc := { who := .jtag, secure := s.pc.dbgLevel == 3 }
    acc1 s a (fun s =>
      if write then regWrite s a addr.toNat v
      else
        let r := regRead s a addr.toNat
        driveTdo r.2 (toLE 4 r.1.toNat))))

/-! ## RDMA to configuration space (R292) -/

/-- Words of an RDMA READ, in ascending order; a queue pair that has left RTS reads no further. -/
def rdmaRead (a : Acc) : Nat → Nat → State → Bytes × State
  | 0, _, s => ([], s)
  | n + 1, va, s =>
    if mayAccess s a then
      let r := regRead s a va
      let t := rdmaRead a n (va + 4) r.2
      (toLE 4 r.1.toNat ++ t.1, t.2)
    else ([], s)

/-- Words of an RDMA WRITE, in ascending order; once the requester may no longer access, no further word acts. -/
def rdmaWrite (a : Acc) : Nat → Nat → Bytes → State → State
  | 0, _, _, s => s
  | n + 1, va, bs, s =>
    rdmaWrite a n (va + 4) (bs.drop 4)
      (acc1 s a (fun s => regWrite s a va (BitVec.ofNat 32 (leNat (bs.take 4)))))

/-- CONFIG_RDMA_ACCESS: each naturally aligned 4 B is one secure access, in ascending order; a wrong R_Key or
alignment is answered with a NAK (R286, R289, R292, R505). -/
def execConfigRdmaAccess (mgmt : Bool) (rx : QpPkt 12) (write : Bool) (rkey : Word) (va : Dword) (len : Nat)
    (data : Bytes) (s : State) : Out :=
  .next (let i := if mgmt then 4096 else rx.qp.toNat
    let n := if write then data.length else len
    if otherRole s i 3 then s
    else (if write then rxWrite s i n rx.pkt else rxRead s i n rx.pkt) (fun s =>
      let a : Acc := { who := if mgmt then .mgmt else .ownerQp rx.qp, secure := true }
      if rkey ≠ 0 ∨ va.toNat % 4 ≠ 0 ∨ n % 4 ≠ 0 then nakAccess s i rx.pkt.psn
      else if write then
        let s := rdmaWrite a (n / 4) va.toNat data s
        if mayAccess s a then ackTo s i rx.pkt.psn else s
      else
        let r := rdmaRead a (n / 4) va.toNat s
        if mayAccess r.2 a then respTo r.2 i rx.pkt.psn r.1 else r.2))

end Sys2Proof.Machine
end

