-- ==== Sys2Proof/Machine/Clock.lean ====
section
/-! DEFINITION. What one CLK_FAB cycle does when no command waits (R296, R297, R352, R424, R449, R498): device time,
tokens of the fold memories, waiting unit resets, the pair's own progress, and the CLK_CORE cycles that the duty
enables (log entry 1). -/

namespace Sys2Proof.Machine

/-- The device nanosecond counter advanced by one CLK_FAB cycle, 25/24 ns, adjusted by the rate in
parts per billion, with its 40-bit fraction (R296). -/
def tickNs (n : Np) : Np :=
  let step : Int := (2 ^ 40 * 25 * (1000000000 + n.ptpRate)) / (24 * 1000000000)
  let t : Int := n.nsFrac.toNat + step
  { n with ns := BitVec.ofNat 64 ((n.ns.toNat : Int) + t / 2 ^ 40).toNat
           nsFrac := BitVec.ofNat 40 (t % 2 ^ 40).toNat }

/-- CLK_CORE cycle `k` is enabled at duty `d` (R497). -/
def coreOn (d k : Nat) : Bool := k * d % 16 < d

/-- A core through the two CLK_CORE cycles of CLK_FAB cycle `n` (R449, R497); none while it is held in reset. -/
def tickCore (n : Nat) (s : State) (c : Nat) : State :=
  if coreHeld s c || (unit s c).st == .resetting then s
  else
    let k := b2n (coreOn s.pc.duty (2 * n)) + b2n (coreOn s.pc.duty (2 * n + 1))
    runCore s c ((core s c).cycle + k)

/-- The regulators of a fold through one CLK_FAB cycle; one that an access has already run through is passed over (log
entry 132). -/
def tickRegs (s : State) (f : Nat) : State :=
  if (fold s f).ahead = 0 then tickFold s f else updFold s f (fun x => { x with ahead := x.ahead - 1 })

/-- The duty in force changes at a boundary of 16 CLK_CORE cycles, which is 8 CLK_FAB cycles (R497, R498). -/
def tickDuty (s : State) : State :=
  if s.fab % 8 = 0 then { s with pc := { s.pc with duty := dutyNow s } } else s

/-- One CLK_FAB cycle; a part held in reset, or whose root PLL is not locked, makes none (R452, R456). -/
def tickFab (s : State) : State :=
  if heldInReset s ∨ !rb s aPcClkStat 0 0 then s
  else
    let s := tickDuty s
    let n := s.fab
    let s := { s with fab := s.fab + 1, np := tickNs s.np }
    let s := (List.range 10).foldl startAgain s
    let s := (List.range 8).foldl tickRegs s
    let s := serveMsgs (pairTick s)
    (List.range 2).foldl (tickCore n) s

end Sys2Proof.Machine
end

