-- ==== Sys2Proof/Machine/RcC.lean ====
section
/-! DEFINITION. Slot C, the sequencer instructions (R157 to R159, R167, R177 to R179, R184). Each brings
the header of its bundle and opens it for slots M, A and V. -/

namespace Sys2Proof.Machine

/-- A bundle whose slot C writes a register or parameter word after its latency, or does nothing. -/
def bundleC (s : State) (c : Nat) (h : Hdr) (f : Slot → List (Nat × Act)) : State :=
  match readyB s c h with
  | (s, none) => s
  | (s, some (k, v)) =>
    if yieldGate h v then issueB s c k v h false (seqNext v.loops v.pc) (f v) else atGate s c k v

/-- A register written by slot C (R159). -/
def regFl (k : Nat) (lat : Nat) (xd : BitVec 5) (v : Nat) : List (Nat × Act) :=
  [(lat, .setReg k xd (BitVec.ofNat 32 v))]

/-- The running slot of a core. -/
def runSlot (s : State) (c : Nat) : Nat := (core s c).run.getD 0

/-- CNOP: none. -/
def execCnop (c : Core2) (h : Hdr) (s : State) : Out := .next (bundleC s c h (fun _ => []))

/-- LOOP: the next BODY bundles run count times; a count of 0 skips them (R167). -/
def execLoop (c : Core2) (h : Hdr) (xa : BitVec 5) (body : BitVec 13) (cntv : BitVec 14) (s : State) : Out :=
  .next (match readyB s c h with
    | (s, none) => s
    | (s, some (k, v)) =>
      if !yieldGate h v then atGate s c k v
      else
        let n := if xa = 0 then cntv.toNat else xreg v xa.toNat
        let last := v.pc + BitVec.ofNat 17 body.toNat
        if body = 0 ∨ 4 ≤ v.loops.length then
          issueB (illegalBundle s c k v.pc.toNat) c k v h false (seqNext v.loops v.pc) []
        else if n = 0 then issueB s c k v h false (seqNext v.loops last) []
        else issueB s c k v h false
          (v.pc + 1, { first := v.pc + 1, last := last, left := BitVec.ofNat 32 n } :: v.loops) [])

/-- BR: branches to this bundle + OFF (R167). -/
def execBr (c : Core2) (h : Hdr) (off : BitVec 18) (s : State) : Out :=
  .next (match readyB s c h with
    | (s, none) => s
    | (s, some (k, v)) =>
      if yieldGate h v then issueB s c k v h true (brNext v.loops (v.pc + off.truncate 17)) []
      else atGate s c k v)

/-- BRC: branches if XA COND XB holds (R167). -/
def execBrc (c : Core2) (h : Hdr) (cond : BitVec 3) (xa xb : BitVec 5) (off : BitVec 18) (s : State) : Out :=
  .next (match readyB s c h with
    | (s, none) => s
    | (s, some (k, v)) =>
      if !yieldGate h v then atGate s c k v
      else
        let s := if 6 ≤ cond.toNat then illegalBundle s c k v.pc.toNat else s
        if condHolds cond (BitVec.ofNat 32 (xreg v xa.toNat)) (BitVec.ofNat 32 (xreg v xb.toNat)) then
          issueB s c k v h true (brNext v.loops (v.pc + off.truncate 17)) []
        else issueB s c k v h false (seqNext v.loops v.pc) [])

/-- WAIT: holds its bundle until the counter reaches its target; every cycle of the hold is a preemption
point, and no other bundle issues in it (R177, R178). The target is XA as it stands when the WAIT comes; a hold keeps
that of its last try (DESIGN CHOICE: R177 names no cycle; log entry 167). -/
def execWait (c : Core2) (h : Hdr) (ctr xa : BitVec 5) (tgt : Half) (s : State) : Out :=
  .next (match readyB s c h true with
    | (s, none) => s
    | (s, some (k, v)) =>
      let t : Half := if xa = 0 then tgt else BitVec.ofNat 16 (xreg v xa.toNat)
      let same := ctr == v.waitCtr && xa == v.waitXa && (xa != 0 || tgt == v.waitTgt)
      if v.waitHeld && !same then s
      else if ctrReached (ctrOf v ctr.toNat) t then
        (if yieldGate h v then issueB s c k v h false (seqNext v.loops v.pc) [] else atGate s c k v)
      else if v.mustEnd then endSlot s c k
      else updCore s c (fun x => cupdSlot x k (fun v =>
        { v with waitHeld := true, waitCtr := ctr, waitXa := xa, waitTgt := t
                 st := if h.yld then .held else .running })))

/-- ADDI: XD = XA + IMM (R167). -/
def execAddi (c : Core2) (h : Hdr) (xd xa : BitVec 5) (imm : BitVec 27) (s : State) : Out :=
  .next (bundleC s c h (fun v => regFl (runSlot s c) 1 xd (xreg v xa.toNat + (imm.signExtend 32).toNat)))

/-- LUI: XD = IMM << 16 (R167). -/
def execLui (c : Core2) (h : Hdr) (xd : BitVec 5) (imm : Half) (s : State) : Out :=
  .next (bundleC s c h (fun _ => regFl (runSlot s c) 1 xd (imm.toNat * 65536)))

/-- ALU: XD = XA FN XB, one cycle, three for MUL (R167). -/
def execAlu (c : Core2) (h : Hdr) (xd xa xb : BitVec 5) (fn : BitVec 4) (s : State) : Out :=
  .next (match readyB s c h with
    | (s, none) => s
    | (s, some (k, v)) =>
      if !yieldGate h v then atGate s c k v
      else match aluFn fn (BitVec.ofNat 32 (xreg v xa.toNat)) (BitVec.ofNat 32 (xreg v xb.toNat)) with
        | some r => issueB s c k v h false (seqNext v.loops v.pc)
            [(if fn = 8 then 3 else 1, .setReg k xd r)]
        | none => issueB (illegalBundle s c k v.pc.toNat) c k v h false (seqNext v.loops v.pc) [])

/-- Byte offset of LDX and STX in the parameter area (R167). -/
def parOff (v : Slot) (xa : BitVec 5) (imm : BitVec 27) : Nat :=
  (xreg v xa.toNat + (imm.signExtend 32).toNat) % 4096

/-- LDX: XD = a parameter word, after 4 cycles (R167). -/
def execLdx (c : Core2) (h : Hdr) (xd xa : BitVec 5) (imm : BitVec 27) (s : State) : Out :=
  .next (bundleC s c h (fun v => regFl (runSlot s c) 4 xd (parWord v (parOff v xa imm / 4))))

/-- STX: a parameter word = XB; words 0 to 255 are read-only (R160, R167). -/
def execStx (c : Core2) (h : Hdr) (xa xb : BitVec 5) (imm : BitVec 27) (s : State) : Out :=
  .next (bundleC s c h (fun v =>
    let i := parOff v xa imm / 4
    if i < 256 then [] else [(1, .setPar (runSlot s c) i (BitVec.ofNat 32 (xreg v xb.toNat)))]))

/-- TRAP: ends the launch at once with ST_BAD_FIELD or ST_BAD_LENGTH (R167, R184): no bundle follows its own, whose
other slots issue in the same cycle (R158), and which a full issue queue holds as any other (R175). -/
def execTrap (c : Core2) (h : Hdr) (code : BitVec 2) (s : State) : Out :=
  .next (match readyB s c h with
    | (s, none) => s
    | (s, some (k, v)) =>
      if !yieldGate h v then atGate s c k v
      else if 2 ≤ code.toNat then
        issueB (illegalBundle s c k v.pc.toNat) c k v h false (seqNext v.loops v.pc) []
      else
        updCore (issueB s c k v h false (v.pc + 1, v.loops) []) c (fun x =>
          { x with opened := x.opened.map (fun o =>
              { o with ends := some (if code = 0 then stBadField else stBadLength) }) }))

/-- END: the launch ends when every range of its OUTPUTs has been read (R179). -/
def execEndLaunch (c : Core2) (h : Hdr) (s : State) : Out :=
  .next (match readyB s c h with
    | (s, none) => s
    | (s, some (k, v)) =>
      if !yieldGate h v then atGate s c k v
      else
        let s := issueB s c k v h false (v.pc + 1, v.loops) []
        updCore s c (fun x => cupdSlot x k (fun v => { v with atEnd := true })))

end Sys2Proof.Machine
end

