-- ==== Sys2Proof/Machine/Dispatch.lean ====
section
/-! DEFINITION. Which meaning each command has: one arm for each row of the command table. -/

namespace Sys2Proof.Machine

def exec (i : Instr) (s : State) : Host.Outcome State Fault Refusal :=
  match i with
  | .launch q n => Sys2Proof.Machine.execLaunch q n s
  | .lookup q n => Sys2Proof.Machine.execLookup q n s
  | .update q n => Sys2Proof.Machine.execUpdate q n s
  | .tableLoadFull q n => Sys2Proof.Machine.execTableLoadFull q n s
  | .tableLoadRows q n => Sys2Proof.Machine.execTableLoadRows q n s
  | .tableCommit q n => Sys2Proof.Machine.execTableCommit q n s
  | .tableCommitDrop q n => Sys2Proof.Machine.execTableCommitDrop q n s
  | .tableExport q n => Sys2Proof.Machine.execTableExport q n s
  | .graphStore q n => Sys2Proof.Machine.execGraphStore q n s
  | .graphPatch q n => Sys2Proof.Machine.execGraphPatch q n s
  | .graphRetire q n => Sys2Proof.Machine.execGraphRetire q n s
  | .fence q n => Sys2Proof.Machine.execFence q n s
  | .nop q n => Sys2Proof.Machine.execNop q n s
  | .abortCommand n => Sys2Proof.Machine.execAbortCommand n s
  | .abortQueue n => Sys2Proof.Machine.execAbortQueue n s
  | .abortCid n => Sys2Proof.Machine.execAbortCid n s
  | .abortAllQueues n => Sys2Proof.Machine.execAbortAllQueues n s
  | .queueCreate n => Sys2Proof.Machine.execQueueCreate n s
  | .queueDestroy n => Sys2Proof.Machine.execQueueDestroy n s
  | .regionMap n => Sys2Proof.Machine.execRegionMap n s
  | .regionUnmap n => Sys2Proof.Machine.execRegionUnmap n s
  | .statsRead n => Sys2Proof.Machine.execStatsRead n s
  | .attest n => Sys2Proof.Machine.execAttest n s
  | .pairForm n => Sys2Proof.Machine.execPairForm n s
  | .pairBreak n => Sys2Proof.Machine.execPairBreak n s
  | .pairSwitch n => Sys2Proof.Machine.execPairSwitch n s
  | .pairTakeover n => Sys2Proof.Machine.execPairTakeover n s
  | .pairResync n => Sys2Proof.Machine.execPairResync n s
  | .leaseRenewOwner n => Sys2Proof.Machine.execLeaseRenewOwner n s
  | .leaseRenewSession n => Sys2Proof.Machine.execLeaseRenewSession n s
  | .doorbell qp k rkey va data => Sys2Proof.Machine.execDoorbell qp k rkey va data s
  | .keepalive rx rkey data => Sys2Proof.Machine.execKeepalive rx rkey data s
  | .feQ0DbLo a v => Sys2Proof.Machine.execFeQ0DbLo a v s
  | .feQ0DbHi a v => Sys2Proof.Machine.execFeQ0DbHi a v s
  | .ringReadLands q slots => Sys2Proof.Machine.execRingReadLands q slots s
  | .staleBackoffExpire q => Sys2Proof.Machine.execStaleBackoffExpire q s
  | .queueTimeout q n => Sys2Proof.Machine.execQueueTimeout q n s
  | .dmaReadLands x data => Sys2Proof.Machine.execDmaReadLands x data s
  | .dmaPieceIssue x => Sys2Proof.Machine.execDmaPieceIssue x s
  | .faultWaitRewalk x => Sys2Proof.Machine.execFaultWaitRewalk x s
  | .faultWaitExpire x => Sys2Proof.Machine.execFaultWaitExpire x s
  | .xlSyncDone n => Sys2Proof.Machine.execXlSyncDone n s
  | .window1Zeroed c slot => Sys2Proof.Machine.execWindow1Zeroed c slot s
  | .inputSegmentLands req seg => Sys2Proof.Machine.execInputSegmentLands req seg s
  | .cnop c h => Sys2Proof.Machine.execCnop c h s
  | .loop c h xa body cnt => Sys2Proof.Machine.execLoop c h xa body cnt s
  | .br c h off => Sys2Proof.Machine.execBr c h off s
  | .brc c h cond xa xb off => Sys2Proof.Machine.execBrc c h cond xa xb off s
  | .wait c h ctr xa tgt => Sys2Proof.Machine.execWait c h ctr xa tgt s
  | .addi c h xd xa imm => Sys2Proof.Machine.execAddi c h xd xa imm s
  | .lui c h xd imm => Sys2Proof.Machine.execLui c h xd imm s
  | .alu c h xd xa xb fn => Sys2Proof.Machine.execAlu c h xd xa xb fn s
  | .ldx c h xd xa imm => Sys2Proof.Machine.execLdx c h xd xa imm s
  | .stx c h xa xb imm => Sys2Proof.Machine.execStx c h xa xb imm s
  | .trap c h code => Sys2Proof.Machine.execTrap c h code s
  | .endLaunch c h => Sys2Proof.Machine.execEndLaunch c h s
  | .mnop c => Sys2Proof.Machine.execMnop c s
  | .copy c sa sb lines => Sys2Proof.Machine.execCopy c sa sb lines s
  | .fill c sb lines => Sys2Proof.Machine.execFill c sb lines s
  | .ldw c sa xd => Sys2Proof.Machine.execLdw c sa xd s
  | .stw c sb xs => Sys2Proof.Machine.execStw c sb xs s
  | .gissue c sa sb ctr nfb chain => Sys2Proof.Machine.execGissue c sa sb ctr nfb chain s
  | .grel c fmask dep xt => Sys2Proof.Machine.execGrel c fmask dep xt s
  | .allgather c sa ctr => Sys2Proof.Machine.execAllgather c sa ctr s
  | .dcollPut c sa ctr => Sys2Proof.Machine.execDcollPut c sa ctr s
  | .dcollGet c sa ctr => Sys2Proof.Machine.execDcollGet c sa ctr s
  | .barrier c sa ctr => Sys2Proof.Machine.execBarrier c sa ctr s
  | .output c sa ctr lines seg => Sys2Proof.Machine.execOutput c sa ctr lines seg s
  | .anop c => Sys2Proof.Machine.execAnop c s
  | .mma c sd xw xx set zero => Sys2Proof.Machine.execMma c sd xw xx set zero s
  | .aclr c set => Sys2Proof.Machine.execAclr c set s
  | .vnop c => Sys2Proof.Machine.execVnop c s
  | .vew c sd xo fn act rule imm => Sys2Proof.Machine.execVew c sd xo fn act rule imm s
  | .vscan c sd xo fn act rule imm => Sys2Proof.Machine.execVscan c sd xo fn act rule imm s
  | .vred c sd xo fn act rule imm => Sys2Proof.Machine.execVred c sd xo fn act rule imm s
  | .sliceDone f gen req ctr => Sys2Proof.Machine.execSliceDone f gen req ctr s
  | .collectiveDone req index => Sys2Proof.Machine.execCollectiveDone req index s
  | .outputRangeRead req => Sys2Proof.Machine.execOutputRangeRead req s
  | .issueQueueFree c => Sys2Proof.Machine.execIssueQueueFree c s
  | .yieldPoint c => Sys2Proof.Machine.execYieldPoint c s
  | .endRequest req => Sys2Proof.Machine.execEndRequest req s
  | .launchEnd req => Sys2Proof.Machine.execLaunchEnd req s
  | .completionPost q n => Sys2Proof.Machine.execCompletionPost q n s
  | .programAccept f desc => Sys2Proof.Machine.execProgramAccept f desc s
  | .programBody f p body => Sys2Proof.Machine.execProgramBody f p body s
  | .rowReadReturn f p pos => Sys2Proof.Machine.execRowReadReturn f p pos s
  | .partialSlice f p bag src gen terms vals bad => Sys2Proof.Machine.execPartialSlice f p bag src gen terms vals bad s
  | .tileRelease f req tile => Sys2Proof.Machine.execTileRelease f req tile s
  | .dependenceRelease f req => Sys2Proof.Machine.execDependenceRelease f req s
  | .contextDrained f ctx => Sys2Proof.Machine.execContextDrained f ctx s
  | .decayPeriodEnd f => Sys2Proof.Machine.execDecayPeriodEnd f s
  | .migrationFlip f way => Sys2Proof.Machine.execMigrationFlip f way s
  | .epochGraceExpire tid => Sys2Proof.Machine.execEpochGraceExpire tid s
  | .asideFree f tid => Sys2Proof.Machine.execAsideFree f tid s
  | .tableCommitStep q n => Sys2Proof.Machine.execTableCommitStep q n s
  | .updateCommitPoint q n => Sys2Proof.Machine.execUpdateCommitPoint q n s
  | .updatePublish q n => Sys2Proof.Machine.execUpdatePublish q n s
  | .recoveringClear f => Sys2Proof.Machine.execRecoveringClear f s
  | .fmRequest f part wide write addr data len => Sys2Proof.Machine.execFmRequest f part wide write addr data len s
  | .runIssue f ch => Sys2Proof.Machine.execRunIssue f ch s
  | .readDataReturn f ch flipData flipChk => Sys2Proof.Machine.execReadDataReturn f ch flipData flipChk s
  | .refresh f ch => Sys2Proof.Machine.execRefresh f ch s
  | .refreshRateRead f rates => Sys2Proof.Machine.execRefreshRateRead f rates s
  | .maintenanceSlot f ch osc => Sys2Proof.Machine.execMaintenanceSlot f ch osc s
  | .scrub f ch flipData flipChk => Sys2Proof.Machine.execScrub f ch flipData flipChk s
  | .fillDone w => Sys2Proof.Machine.execFillDone w s
  | .retrainStep f ch rdEye wrEye vref last => Sys2Proof.Machine.execRetrainStep f ch rdEye wrEye vref last s
  | .unitResetRequest u sc cause => Sys2Proof.Machine.execUnitResetRequest u sc cause s
  | .quiet u late => Sys2Proof.Machine.execQuiet u late s
  | .unitResetDone u => Sys2Proof.Machine.execUnitResetDone u s
  | .errorReport e => Sys2Proof.Machine.execErrorReport e s
  | .residueMismatch c e bundle => Sys2Proof.Machine.execResidueMismatch c e bundle s
  | .replay req => Sys2Proof.Machine.execReplay req s
  | .faultRecordClose recno => Sys2Proof.Machine.execFaultRecordClose recno s
  | .configRdmaAccess mgmt rx write rkey va len data => Sys2Proof.Machine.execConfigRdmaAccess mgmt rx write rkey va len data s
  | .peerWindowAccess rx write rkey va len data => Sys2Proof.Machine.execPeerWindowAccess rx write rkey va len data s
  | .sendReceived m => Sys2Proof.Machine.execSendReceived m s
  | .atomicReceived rx => Sys2Proof.Machine.execAtomicReceived rx s
  | .claim m => Sys2Proof.Machine.execClaim m s
  | .neighbourDiscovery fr ipv6 addr => Sys2Proof.Machine.execNeighbourDiscovery fr ipv6 addr s
  | .pauseFrame mac => Sys2Proof.Machine.execPauseFrame mac s
  | .ptpMessage h offset time rate => Sys2Proof.Machine.execPtpMessage h offset time rate s
  | .ceMarkedPacket rx => Sys2Proof.Machine.execCeMarkedPacket rx s
  | .cnpReceived rx => Sys2Proof.Machine.execCnpReceived rx s
  | .rateIncrease qp => Sys2Proof.Machine.execRateIncrease qp s
  | .pfcXoff port prio => Sys2Proof.Machine.execPfcXoff port prio s
  | .pfcXon port prio => Sys2Proof.Machine.execPfcXon port prio s
  | .pfcStuck port => Sys2Proof.Machine.execPfcStuck port s
  | .ackReceived rx count => Sys2Proof.Machine.execAckReceived rx count s
  | .ackTimeout qp rnr => Sys2Proof.Machine.execAckTimeout qp rnr s
  | .nakReceived rx e => Sys2Proof.Machine.execNakReceived rx e s
  | .macLinkChange mac up => Sys2Proof.Machine.execMacLinkChange mac up s
  | .sessionLeaseExpire ses => Sys2Proof.Machine.execSessionLeaseExpire ses s
  | .npLeaseRenew a v => Sys2Proof.Machine.execNpLeaseRenew a v s
  | .npSesOpen a v => Sys2Proof.Machine.execNpSesOpen a v s
  | .npSesClose a v => Sys2Proof.Machine.execNpSesClose a v s
  | .npQpEnable a v => Sys2Proof.Machine.execNpQpEnable a v s
  | .npQpReset a v => Sys2Proof.Machine.execNpQpReset a v s
  | .stepBack a v => Sys2Proof.Machine.execStepBack a v s
  | .npPortMode a port v => Sys2Proof.Machine.execNpPortMode a port v s
  | .feQEnable a v => Sys2Proof.Machine.execFeQEnable a v s
  | .feQKey0 a v => Sys2Proof.Machine.execFeQKey0 a v s
  | .xlTblWin a word v => Sys2Proof.Machine.execXlTblWin a word v s
  | .xlFqCons a v => Sys2Proof.Machine.execXlFqCons a v s
  | .igFlogCons a v => Sys2Proof.Machine.execIgFlogCons a v s
  | .igUrst a v => Sys2Proof.Machine.execIgUrst a v s
  | .pcRstCtlWhole a v => Sys2Proof.Machine.execPcRstCtlWhole a v s
  | .pcWorldMap a v => Sys2Proof.Machine.execPcWorldMap a v s
  | .pcOwnerKey a k v => Sys2Proof.Machine.execPcOwnerKey a k v s
  | .pcDbgSubmit a v => Sys2Proof.Machine.execPcDbgSubmit a v s
  | .pcFlashErase a v => Sys2Proof.Machine.execPcFlashErase a v s
  | .pcFlashProgram a v => Sys2Proof.Machine.execPcFlashProgram a v s
  | .pcFlashRead a v => Sys2Proof.Machine.execPcFlashRead a v s
  | .flashOpDone failed data => Sys2Proof.Machine.execFlashOpDone failed data s
  | .replanRequest a v => Sys2Proof.Machine.execReplanRequest a v s
  | .dlPartId a v => Sys2Proof.Machine.execDlPartId a v s
  | .dlLinkRetrain a v => Sys2Proof.Machine.execDlLinkRetrain a v s
  | .dissolve a v => Sys2Proof.Machine.execDissolve a v s
  | .gxPolicyCtl a f v => Sys2Proof.Machine.execGxPolicyCtl a f v s
  | .gxPopThresh a f v => Sys2Proof.Machine.execGxPopThresh a f v s
  | .fmPartRate a f v => Sys2Proof.Machine.execFmPartRate a f v s
  | .fmEccInj a f v => Sys2Proof.Machine.execFmEccInj a f v s
  | .maResInj a c v => Sys2Proof.Machine.execMaResInj a c v s
  | .veQsClear a c v => Sys2Proof.Machine.execVeQsClear a c v s
  | .ruConvClear a f v => Sys2Proof.Machine.execRuConvClear a f v s
  | .scratchWindowAccess a c write off v => Sys2Proof.Machine.execScratchWindowAccess a c write off v s
  | .lowHalfRead a addr => Sys2Proof.Machine.execLowHalfRead a addr s
  | .registerWrite a addr v => Sys2Proof.Machine.execRegisterWrite a addr v s
  | .flitReceive l flit crc fecOk corrected => Sys2Proof.Machine.execFlitReceive l flit crc fecOk corrected s
  | .droveNak l seq => Sys2Proof.Machine.execDroveNak l seq s
  | .flitAckTimeout l => Sys2Proof.Machine.execFlitAckTimeout l s
  | .linkTrainingDone l nbr nlink => Sys2Proof.Machine.execLinkTrainingDone l nbr nlink s
  | .linkTrainingFail l => Sys2Proof.Machine.execLinkTrainingFail l s
  | .linkLossOfLock l => Sys2Proof.Machine.execLinkLossOfLock l s
  | .pinReq src key tids => Sys2Proof.Machine.execPinReq src key tids s
  | .pin key epochs => Sys2Proof.Machine.execPin key epochs s
  | .record key epochs arrivals => Sys2Proof.Machine.execRecord key epochs arrivals s
  | .keyRecordTimeout key => Sys2Proof.Machine.execKeyRecordTimeout key s
  | .release tid epoch => Sys2Proof.Machine.execRelease tid epoch s
  | .ready src upd tabs => Sys2Proof.Machine.execReady src upd tabs s
  | .go set roots => Sys2Proof.Machine.execGo set roots s
  | .cancel set mismatch => Sys2Proof.Machine.execCancel set mismatch s
  | .barrierTimeout set => Sys2Proof.Machine.execBarrierTimeout set s
  | .clear member key index => Sys2Proof.Machine.execClear member key index s
  | .slice member key index off data last => Sys2Proof.Machine.execSlice member key index off data last s
  | .put src tag win off data => Sys2Proof.Machine.execPut src tag win off data s
  | .getReq src tag win off len => Sys2Proof.Machine.execGetReq src tag win off len s
  | .getData src tag data => Sys2Proof.Machine.execGetData src tag data s
  | .deny src tag => Sys2Proof.Machine.execDeny src tag s
  | .abandon key => Sys2Proof.Machine.execAbandon key s
  | .collectiveTimeout req index => Sys2Proof.Machine.execCollectiveTimeout req index s
  | .hb src mirror st count => Sys2Proof.Machine.execHb src mirror st count s
  | .partnerSilent pinSilent => Sys2Proof.Machine.execPartnerSilent pinSilent s
  | .stream upd tag epochs recs deltas whole => Sys2Proof.Machine.execStream upd tag epochs recs deltas whole s
  | .prepared upd => Sys2Proof.Machine.execPrepared upd s
  | .commit upd => Sys2Proof.Machine.execCommit upd s
  | .discard upd => Sys2Proof.Machine.execDiscard upd s
  | .root tid epoch r => Sys2Proof.Machine.execRoot tid epoch r s
  | .bulk tid first rows => Sys2Proof.Machine.execBulk tid first rows s
  | .pwrgoodFall ns accepted straps => Sys2Proof.Machine.execPwrgoodFall ns accepted straps s
  | .resetNAssert ns accepted straps => Sys2Proof.Machine.execResetNAssert ns accepted straps s
  | .foldPllLoss f => Sys2Proof.Machine.execFoldPllLoss f s
  | .ethReferenceLoss macs => Sys2Proof.Machine.execEthReferenceLoss macs s
  | .romSelf rom => Sys2Proof.Machine.execRomSelf rom s
  | .identity rec helper seeds => Sys2Proof.Machine.execIdentity rec helper seeds s
  | .imageSpi img => Sys2Proof.Machine.execImageSpi img s
  | .fallbackDatagram d => Sys2Proof.Machine.execFallbackDatagram d s
  | .fallbackSpiRetry img => Sys2Proof.Machine.execFallbackSpiRetry img s
  | .fwStart sramOk coreFail mgmtUp => Sys2Proof.Machine.execFwStart sramOk coreFail mgmtUp s
  | .folds fail attempts => Sys2Proof.Machine.execFolds fail attempts s
  | .memory fail eyes sites ms => Sys2Proof.Machine.execMemory fail eyes sites ms s
  | .thermAlertN low => Sys2Proof.Machine.execThermAlertN low s
  | .forceThrottleN low => Sys2Proof.Machine.execForceThrottleN low s
  | .pairSyncIn high => Sys2Proof.Machine.execPairSyncIn high s
  | .minimumGapEnd p => Sys2Proof.Machine.execMinimumGapEnd p s
  | .stuckTimeout p => Sys2Proof.Machine.execStuckTimeout p s
  | .reArm p => Sys2Proof.Machine.execReArm p s
  | .trstN low => Sys2Proof.Machine.execTrstN low s
  | .sidebandWrite data => Sys2Proof.Machine.execSidebandWrite data s
  | .sidebandRead n => Sys2Proof.Machine.execSidebandRead n s
  | .entdaa m => Sys2Proof.Machine.execEntdaa m s
  | .tokenLoad token => Sys2Proof.Machine.execTokenLoad token s
  | .samplePreload pins => Sys2Proof.Machine.execSamplePreload pins s
  | .debugAccess write addr v => Sys2Proof.Machine.execDebugAccess write addr v s
  | .monitorRead sites => Sys2Proof.Machine.execMonitorRead sites s
  | .replan sites2 chans links eth ucie skipLink skipFold retry => Sys2Proof.Machine.execReplan sites2 chans links eth ucie skipLink skipFold retry s
  | .thermalLoop elapsed10 => Sys2Proof.Machine.execThermalLoop elapsed10 s
  | .powerLoop mw mean energy => Sys2Proof.Machine.execPowerLoop mw mean energy s
  | .avsRetry ack => Sys2Proof.Machine.execAvsRetry ack s
  | .telemetryRefresh rails hours => Sys2Proof.Machine.execTelemetryRefresh rails hours s
  | .graphCheckDone q n code bundle => Sys2Proof.Machine.execGraphCheckDone q n code bundle s
  | .pairMsg m => Sys2Proof.Machine.execPairMsg m s
  | .ucieModuleDown f m retrained => Sys2Proof.Machine.execUcieModuleDown f m retrained s
  | .linkEnable a v => Sys2Proof.Machine.execLinkEnable a v s
  | .sessionWindowRead rx rkey va len => Sys2Proof.Machine.execSessionWindowRead rx rkey va len s
  | .launchAdmission => Sys2Proof.Machine.execLaunchAdmission s
  | .lookupAdmission => Sys2Proof.Machine.execLookupAdmission s
  | .ptpSyncLoss => Sys2Proof.Machine.execPtpSyncLoss s
  | .ownerLeaseExpire => Sys2Proof.Machine.execOwnerLeaseExpire s
  | .hbSend => Sys2Proof.Machine.execHbSend s
  | .pairSyncToggle => Sys2Proof.Machine.execPairSyncToggle s
  | .pwrgoodRise => Sys2Proof.Machine.execPwrgoodRise s
  | .resetNRelease => Sys2Proof.Machine.execResetNRelease s
  | .rootPllLock => Sys2Proof.Machine.execRootPllLock s
  | .rootPllLoss => Sys2Proof.Machine.execRootPllLoss s
  | .droveReferenceLoss => Sys2Proof.Machine.execDroveReferenceLoss s
  | .bootWatchdog => Sys2Proof.Machine.execBootWatchdog s
  | .thermtrip => Sys2Proof.Machine.execThermtrip s
  | .sbSclStuck => Sys2Proof.Machine.execSbSclStuck s
  | .idcode => Sys2Proof.Machine.execIdcode s
  | .bypass => Sys2Proof.Machine.execBypass s
  | .extest => Sys2Proof.Machine.execExtest s
  | .replanPeriod => Sys2Proof.Machine.execReplanPeriod s
  | .pairAnswerTimeout => Sys2Proof.Machine.execPairAnswerTimeout s
  | .containmentDone => Sys2Proof.Machine.execContainmentDone s
  | .rootPllLockTimeout => Sys2Proof.Machine.execRootPllLockTimeout s

end Sys2Proof.Machine
end

