-- ==== Sys2Proof/Safety.lean ====
section
/-! DEFINITION. What a safe state and a safe run are: every byte memory in its canonical form, session 0 carried by
the owner lease alone, and no step that stops; and the parts of a state, in which two states may agree. -/

namespace Sys2Proof

/-- The memories of a fold are in canonical form: pasture and pen. -/
def Machine.Fold.canonical (x : Machine.Fold) : Bool := Machine.memWf x.pasture && Machine.memWf x.pen

/-- Every byte memory of the part is in canonical form: pastures, pens and scratchpads. -/
def Machine.State.canonical (s : Machine.State) : Bool :=
  s.folds.all (fun e => e.2.canonical) && s.cores.all (fun e => Machine.memWf e.2.scratch)

/-- Session 0 has no lease of its own: it is never among the open client sessions (R304). -/
def Machine.State.ownerOnly (s : Machine.State) : Bool := s.np.sessions.all (fun e => e.1 != 0 || !e.2.live)

/-- A state from which the next step neither faults nor is refused. -/
def SafeStep (s : Machine.State) : Prop := ∃ t, Machine.step s = .next t

/-- `k` steps from a state, none of which stops. -/
def SafeFor (k : Nat) (s : Machine.State) : Prop := ∃ t, core.run k s = .next t

namespace Machine

/-- The parts of the state that a command may leave untouched. -/
inductive Part where
  | regs | sels | latches | fe | reqs | nextHandle | lastCore | nextOrder | cores | graphs | checking | tables | folds | np
  | xl | dl | ig | pc | fab
  deriving DecidableEq, Repr

/-- Two states agree in a part. -/
def Part.same (p : Part) (s t : State) : Prop :=
  match p with
  | .regs => t.regs = s.regs
  | .sels => t.sels = s.sels
  | .latches => t.latches = s.latches
  | .fe => t.fe = s.fe
  | .reqs => t.reqs = s.reqs
  | .nextHandle => t.nextHandle = s.nextHandle
  | .lastCore => t.lastCore = s.lastCore
  | .nextOrder => t.nextOrder = s.nextOrder
  | .cores => t.cores = s.cores
  | .graphs => t.graphs = s.graphs
  | .checking => t.checking = s.checking
  | .tables => t.tables = s.tables
  | .folds => t.folds = s.folds
  | .np => t.np = s.np
  | .xl => t.xl = s.xl
  | .dl => t.dl = s.dl
  | .ig => t.ig = s.ig
  | .pc => t.pc = s.pc
  | .fab => t.fab = s.fab

end Machine

end Sys2Proof
end

