-- ==== Sys2Proof/Certificates/Slice0/Obligations.lean ====
section
/-! DEFINITION. The statements for the provers. Each holds for every state and every operand that its hypotheses allow.
"Completes" in a name says: in every state that meets the hypotheses, which speak of the state and the operands alone,
the command answers a next state, and that state is the one the rules give. -/

namespace Sys2Proof.Machine

/-! ## When a command of a ring acts -/

/-- Command `c`, entry `n` of queue `q`, with the opcode of its row, is fetched, its turn has come and nothing blocks it:
it is dispatched now (R252, R253, R271). -/
def Dispatched (s : State) (q : Nat) (n : Word) (op : Nat) (c : Cmd) : Prop :=
  cmd s q n = some c ∧ cOp c = op ∧ c.phase = .fetched ∧ canGo s c = true ∧
    identityBlocks (cnt s aFeCntEntries) c = false

/-- The data that command `c` reads has landed. -/
def LandedNow (s : State) (q : Nat) (n : Word) (op : Nat) (c : Cmd) : Prop :=
  cmd s q n = some c ∧ cOp c = op ∧ c.phase = .landed

/-- An ABORT of a scope with sound operands is dispatched now (R279). -/
def AbortNow (s : State) (n : Word) (c : Cmd) (scope : Nat) : Prop :=
  cmd s 0 n = some c ∧ cOp c = 16 ∧ c.phase = .fetched ∧ identityBlocks (cnt s aFeCntEntries) c = false ∧
    abortOk c = true ∧ cF c 16 1 = scope

/-- The entry is counted and the command has arrived (R264). -/
def arrived (s : State) (c : Cmd) : State := arrive (cnt s aFeCntEntries) c

/-- The command has arrived and its unit has it. -/
def atUnit (s : State) (c : Cmd) : State := setPhase (arrived s c) c .unit

/-! ## When a bundle of a core acts -/

/-- A bundle with header `h` issues on core `c`, in the state `u` advanced to its cycle, for slot `k` with registers
`v`. -/
def Issues (s : State) (c : Core2) (h : Hdr) (u : State) (k : Nat) (v : Slot) : Prop :=
  readyB s c h = (u, some (k, v)) ∧ yieldGate h v = true

/-- The WAIT may come now: its launch is in no WAIT's hold, or in that of the same WAIT (R178). -/
def SameWait (v : Slot) (ctr xa : BitVec 5) (tgt : Half) : Prop :=
  v.waitHeld = true → ctr = v.waitCtr ∧ xa = v.waitXa ∧ (xa ≠ 0 ∨ tgt = v.waitTgt)

/-- Slot M of the open bundle is untaken and the issue queue has room. -/
def QueuesM (s : State) (c : Core2) (o : OpenB) (v : Slot) : Prop :=
  openSlots s c = some (o, v) ∧ o.m = false ∧ (core s c).issueQ.length < 512

/-- The descriptor `d` of a DCOLL of a kind is sound, its request `r` is live, and its source `sr` and destination `ds` lie
in their windows; what a kind has none of stands as 0 (R380). -/
def CollReady (s : State) (c : Core2) (o : OpenB) (v : Slot) (sa : Scr) (kind : Nat) (d : Bytes) (r : Req) (sr ds : Nat) :
    Prop :=
  QueuesM s c o v ∧ sa.win = 0 ∧ req s v.req = some r ∧
    (∃ a, winAddr v sa.win.toNat (extOff v sa) 64 false = some a ∧ d = (scrRead (core s c) a 64).data) ∧
    collOk s d = true ∧ gKind d = kind ∧
    (if kind = 1 ∨ kind = 2 then sAddr v (fld d 4 4) (gBytes d) false else some 0) = some sr ∧
    (if kind = 1 ∨ kind = 3 then
      sAddr v (fld d 8 4) (if kind = 1 then (grpN s - 1) * fld d 16 4 + gBytes d else gBytes d) true else some 0) = some ds

/-- The collective that a DCOLL of a kind starts, under its request's key and its index; a PUT and a GET name the window of
the other part, and a GET of it the source (R380 to R382). -/
def newColl (s : State) (c : Core2) (o : OpenB) (v : Slot) (ctr : BitVec 5) (kind : Nat) (d : Bytes) (r : Req) (sr ds : Nat) :
    Coll :=
  { req := v.req, core := c, slot := o.slot, kind := BitVec.ofNat 8 kind
    key := BitVec.ofNat 32 (fld r.scalars 60 4), index := BitVec.ofNat 16 (fld d 2 2), ctr := ctr
    src := if kind = 3 then fld d 22 1 else sr, dst := if kind = 2 then fld d 22 1 else ds, bytes := gBytes d
    stride := if kind = 1 then fld d 16 4 else fld d 20 2, off := fld d 24 8
    cleared := (s.dl.clears.filter (fun e => e.2.1 == BitVec.ofNat 32 (fld r.scalars 60 4) && e.2.2.toNat == fld d 2 2)).map
      (·.1)
    tag := s.dl.nextTag }

/-- What a DCOLL does: its collective is noted with the CLEARs that came before it, and goes to the end of the issue queue
(R381, R382). -/
def collQueued (s : State) (c : Core2) (v : Slot) (x : Coll) : State :=
  putQ (neverReplayed { takeM s c with dl := { s.dl with
      colls := s.dl.colls ++ [x], nextTag := s.dl.nextTag + 1
      clears := s.dl.clears.filter (fun e => !(e.2.1 == x.key && e.2.2 == x.index)) } } v.req) c (.coll v.req x.index)

/-- A WAIT whose bundle has YLD 0 holds its launch, which is at no yield point (R178, R182). -/
def InHold (v : Slot) : Prop := v.waitHeld = true ∧ v.st = .running ∧ v.atYield = false

/-- A launch may end, by its END (`byEnd`) or because it is ending, an open TRAP ending it first; with its bundle closed
and what it has under way done the state is `t`, its request `r` and its slot `v` (R178, R179, R184, R233, R239). -/
def LaunchDone (s : State) (h : Half) (t : State) (r : Req) (v : Slot) (byEnd : Bool) : Prop :=
  ∃ (b : Req) (u : State) (w : Slot), req s h = some b ∧ b.kind = .launch ∧ b.done = false ∧
    (cslot (core s b.core) b.slot).req = h ∧
    ((∀ o, (core s b.core).opened = some o → o.slot = b.slot → o.ends = none) ∧ u = s ∨
      (∃ o, (core s b.core).opened = some o ∧ o.slot = b.slot ∧ o.ends.isSome = true) ∧ u = closeB s b.core) ∧
    w = cslot (core u b.core) b.slot ∧
    (w.st = .ending ∧ byEnd = false ∨ w.st ≠ .ending ∧ w.atEnd = true ∧ b.ranges = [] ∧ allLanded b = true ∧ byEnd = true ∧
      ∀ a n g c, IssueE.out b.handle a n g c ∉ (core u b.core).issueQ) ∧
    t = finishOwn (closeOwn u b.core b.slot) b.core b.slot ∧ req t h = some r ∧ v = cslot (core t r.core) r.slot

/-- A vector operation `j` of slot V starts: its slot is untaken, its descriptor readable and its operands sound. -/
def StartsV (s : State) (c : Core2) (o : OpenB) (v : Slot) (sd : Scr) (xo : BitVec 5) (op : Nat) (fn act : BitVec 4)
    (rule : Bool) (imm : Half) (j : VeJob) : Prop :=
  openSlots s c = some (o, v) ∧ o.v = false ∧ (readDesc s c v sd).2 = false ∧
    j = veJob o.slot v o.at_ op fn.toNat act.toNat rule imm.toNat (xreg v xo.toNat) (readDesc s c v sd).1 ∧
    veFnOk j = true ∧ j.act ≤ 10 ∧ j.rows * j.cols ≠ 0

/-- The state in which vector operation `j` has started. -/
def startedV (s : State) (c : Core2) (o : OpenB) (v : Slot) (sd : Scr) (op : Nat) (j : VeJob) : State :=
  cnt (updCore (addOpen (noteDesc (takeV s c) c o v (readDesc s c v sd)) c
    { due := o.at_ + 2, reads := true, mav := some o.slot, act := .veSlab j }) c (fun x => { x with
      veRun := x.veRun ++ [(op, o.at_ + 2, o.at_ + 2 + veOcc j)] })) (coreReg c aVeCntInstr)

/-- The program that a fold makes of descriptor `d`: its mode and depth are those in force, and it follows the programs
of its request that share the descriptor's key (R87, R91). -/
def accepted (s : State) (f : Nat) (d : Bytes) : Prog :=
  { id := (fold s f).nextProg, ctx := fld d 0 1, req := pReq d, desc := withPf s f d
    ord := ((relOf (fold s f) (pReq d)).keys.filter (· == progKey d)).length }

/-- A message of `n` packets reaches queue pair `i`: its frame is accepted on a MAC whose link is up, it is counted, which
gives `u`, and it is of the Reliable Connected transport, for a queue pair in RTS, and from its remote side (R283, R285,
R286, R291). -/
def Arrives (s u : State) (i n : Nat) (k : Pkt) : Prop :=
  linkOn s k.frame.mac = true ∧ k.frame.fec = false ∧ frameOk s k.frame = true ∧ u = cntN s aNpCntRxPkt 0 n ∧
    closed u = false ∧ k.rc = true ∧ qpRts u i = true ∧ pktFrom u i k = true

/-- A frame is accepted on a MAC whose link is up (R283, R285). -/
def FrameIn (s : State) (fr : Frame) : Prop := linkOn s fr.mac = true ∧ fr.fec = false ∧ frameOk s fr = true

/-- The queue pair has taken the `m` PSNs of a request that came in turn (R289). -/
def tookPsn (u : State) (i m : Nat) : State :=
  updQp u i (fun p => { p with epsn := p.epsn + BitVec.ofNat 24 m, nakSent := false })

/-! ## Parts of the state -/

/-- The parts that a command may change; every other part it leaves as it was. -/
def touches (c : Instr) : List Part :=
  match c with
  | .feQ0DbLo .. | .feQKey0 .. => [.fe]
  | .mnop .. | .copy .. | .fill .. | .ldw .. | .stw .. | .anop .. | .vnop .. => [.cores]
  | .decayPeriodEnd .. | .fmRequest .. | .refreshRateRead .. => [.folds]
  | .faultRecordClose .. => [.ig]
  | .neighbourDiscovery .. | .pauseFrame .. | .gxPolicyCtl .. | .gxPopThresh .. | .veQsClear ..
  | .ruConvClear .. | .containmentDone .. => [.regs]
  | .rateIncrease .. | .macLinkChange .. | .npLeaseRenew .. | .ethReferenceLoss .. => [.np]
  | .linkTrainingFail .. | .record .. | .hb .. | .prepared .. | .pairSyncToggle .. => [.dl]
  | .reArm .. | .trstN .. | .sidebandWrite .. | .sidebandRead .. | .entdaa .. | .samplePreload ..
  | .telemetryRefresh .. | .pwrgoodRise .. | .resetNRelease .. | .idcode .. | .bypass .. | .extest .. => [.pc]
  | .keepalive .. | .sendReceived .. | .claim .. | .ptpMessage .. | .ceMarkedPacket .. | .cnpReceived ..
  | .pfcXoff .. | .pfcXon .. | .pfcStuck .. | .ptpSyncLoss .. => [.regs, .np]
  | .feQ0DbHi .. | .staleBackoffExpire .. => [.regs, .fe]
  | .window1Zeroed .. | .aclr .. => [.regs, .cores]
  | .contextDrained .. | .refresh .. => [.regs, .folds]
  | .retrainStep .. => [.folds, .pc]
  | .unitResetRequest .. | .igUrst .. => [.ig, .pc]
  | .xlFqCons .. | .igFlogCons .. | .pcWorldMap .. | .pcOwnerKey .. | .fmPartRate .. | .fmEccInj ..
  | .maResInj .. => [.regs, .ig]
  | .pcDbgSubmit .. | .pcFlashErase .. | .pcFlashProgram .. | .pcFlashRead .. | .flashOpDone .. | .romSelf ..
  | .fallbackDatagram .. | .fallbackSpiRetry .. | .thermAlertN .. | .forceThrottleN .. | .stuckTimeout ..
  | .tokenLoad .. | .monitorRead .. | .thermalLoop .. | .powerLoop .. | .avsRetry .. | .rootPllLock ..
  | .sbSclStuck .. | .replanPeriod .. => [.regs, .pc]
  | .linkTrainingDone .. | .clear .. | .hbSend .. => [.regs, .dl]
  | .slice .. | .getData .. => [.cores, .dl]
  | .discard .. => [.folds, .dl]
  | .minimumGapEnd .. => [.dl, .pc]
  | .doorbell .. => [.regs, .fe, .np]
  | .collectiveDone .. => [.regs, .cores, .dl]
  | .endRequest .. => [.reqs, .cores, .folds]
  | .migrationFlip .. | .asideFree .. | .recoveringClear .. | .runIssue .. | .readDataReturn .. | .scrub ..
  | .folds .. => [.regs, .folds, .ig]
  | .updateCommitPoint .. => [.regs, .fe, .dl]
  | .maintenanceSlot .. => [.regs, .folds, .pc]
  | .stepBack .. | .npPortMode .. => [.regs, .np, .ig]
  | .feQEnable .. => [.regs, .fe, .ig]
  | .xlTblWin .. => [.regs, .xl, .ig]
  | .replanRequest .. => [.regs, .ig, .pc]
  | .dlPartId .. => [.regs, .dl, .ig]
  | .scratchWindowAccess .. => [.regs, .cores, .ig]
  | .lowHalfRead .. => [.regs, .latches, .ig]
  | .release .. => [.regs, .tables, .folds]
  | .imageSpi .. | .rootPllLockTimeout .. => [.regs, .np, .pc]
  | .pairSyncIn .. => [.regs, .dl, .pc]
  | .inputSegmentLands .. => [.regs, .fe, .reqs, .cores]
  | .grel .. | .output .. => [.regs, .reqs, .cores, .folds]
  | .mma .. | .vew .. | .vscan .. | .vred .. => [.regs, .reqs, .cores, .ig]
  | .ackReceived .. => [.regs, .fe, .np, .xl]
  | .pinReq .. | .keyRecordTimeout .. => [.regs, .tables, .folds, .dl]
  | .deny .. => [.reqs, .cores, .folds, .dl]
  | .foldPllLoss .. | .memory .. | .ucieModuleDown .. => [.regs, .folds, .ig, .pc]
  | .identity .. => [.regs, .folds, .np, .pc]
  | .gissue .. => [.regs, .reqs, .cores, .folds, .ig]
  | .outputRangeRead .. => [.regs, .fe, .reqs, .cores, .folds]
  | .issueQueueFree .. | .collectiveTimeout .. => [.regs, .reqs, .cores, .folds, .dl]
  | .residueMismatch .. => [.regs, .reqs, .cores, .ig, .pc]
  | .stream .. | .commit .. => [.regs, .tables, .folds, .dl, .ig]
  | .fwStart .. => [.regs, .np, .dl, .ig, .pc]
  | .cnop .. | .loop .. | .br .. | .brc .. | .wait .. | .addi .. | .lui .. | .alu .. | .ldx .. | .stx ..
  | .trap .. | .endLaunch .. | .yieldPoint .. => [.regs, .reqs, .cores, .folds, .ig, .pc]
  | .allgather .. | .dcollPut .. | .dcollGet .. | .barrier .. => [.regs, .reqs, .cores, .folds, .dl, .ig]
  | .getReq .. => [.regs, .fe, .folds, .np, .dl, .ig]
  | .launch .. | .lookup .. | .tableCommit .. | .tableCommitDrop .. | .graphRetire .. | .nop ..
  | .queueCreate .. | .statsRead .. | .pairForm .. | .pairBreak .. | .pairSwitch .. | .pairResync .. | .pin ..
  | .cancel .. | .barrierTimeout .. | .pairAnswerTimeout .. => [.regs, .fe, .reqs, .graphs, .tables, .folds, .dl]
  | .put .. => [.regs, .fe, .cores, .folds, .np, .dl, .ig]
  | .tableLoadFull .. | .tableLoadRows .. | .pairTakeover .. | .tableCommitStep .. | .updatePublish ..
  | .dissolve .. | .ready .. | .go .. | .partnerSilent .. | .root .. | .bulk .. | .pairMsg ..
    => [.regs, .fe, .reqs, .graphs, .tables, .folds, .dl, .ig]
  | .graphStore .. | .graphPatch .. | .abortCommand .. | .abortQueue .. | .abortCid .. | .abortAllQueues ..
  | .queueTimeout .. | .epochGraceExpire .. => [.regs, .fe, .reqs, .graphs, .checking, .tables, .folds, .dl]
  | .fence .. | .regionMap .. | .regionUnmap .. | .xlSyncDone ..
    => [.regs, .fe, .reqs, .graphs, .tables, .folds, .xl, .dl]
  | .attest .. => [.regs, .fe, .reqs, .graphs, .tables, .folds, .dl, .pc]
  | .leaseRenewOwner .. | .leaseRenewSession .. => [.regs, .fe, .reqs, .graphs, .tables, .folds, .np, .dl]
  | .sliceDone .. | .flitReceive .. | .droveNak .. | .flitAckTimeout .. | .linkLossOfLock .. | .abandon ..
  | .droveReferenceLoss .. => [.regs, .fe, .reqs, .cores, .graphs, .tables, .folds, .dl]
  | .lookupAdmission .. => [.regs, .fe, .reqs, .nextHandle, .graphs, .tables, .folds, .dl]
  | .update .. | .tableExport .. => [.regs, .fe, .reqs, .nextHandle, .graphs, .tables, .folds, .dl, .ig]
  | .queueDestroy .. => [.regs, .fe, .reqs, .graphs, .checking, .tables, .folds, .xl, .dl]
  | .ringReadLands .. => [.regs, .fe, .reqs, .graphs, .tables, .folds, .np, .xl, .dl]
  | .faultWaitExpire .. | .atomicReceived .. | .ackTimeout .. | .nakReceived .. | .sessionWindowRead ..
    => [.regs, .fe, .reqs, .graphs, .checking, .tables, .folds, .np, .dl]
  | .programAccept .. | .programBody .. | .partialSlice .. | .tileRelease .. | .dependenceRelease ..
  | .graphCheckDone .. => [.regs, .fe, .reqs, .cores, .graphs, .checking, .tables, .folds, .dl]
  | .dlLinkRetrain .. | .linkEnable .. => [.regs, .fe, .reqs, .cores, .graphs, .tables, .folds, .dl, .ig]
  | .dmaReadLands .. => [.regs, .fe, .reqs, .graphs, .checking, .tables, .folds, .np, .xl, .dl]
  | .rowReadReturn .. | .quiet .. => [.regs, .fe, .reqs, .cores, .graphs, .checking, .tables, .folds, .dl, .ig]
  | .replan .. => [.regs, .fe, .reqs, .cores, .graphs, .tables, .folds, .dl, .ig, .pc]
  | .dmaPieceIssue .. | .faultWaitRewalk .. | .completionPost .. | .peerWindowAccess ..
    => [.regs, .fe, .reqs, .graphs, .checking, .tables, .folds, .np, .xl, .dl, .ig]
  | .launchEnd .. | .unitResetDone .. => [.regs, .fe, .reqs, .cores, .graphs, .tables, .folds, .xl, .dl, .ig, .pc]
  | .replay .. => [.regs, .fe, .reqs, .nextOrder, .cores, .graphs, .checking, .tables, .folds, .xl, .dl]
  | .npQpEnable .. | .npQpReset ..
    => [.regs, .sels, .latches, .fe, .reqs, .graphs, .checking, .tables, .folds, .np, .dl]
  | .sessionLeaseExpire .. | .npSesOpen .. | .npSesClose ..
    => [.regs, .sels, .latches, .fe, .reqs, .graphs, .checking, .tables, .folds, .np, .xl, .dl]
  | .launchAdmission ..
    => [.regs, .fe, .reqs, .nextHandle, .lastCore, .nextOrder, .cores, .graphs, .tables, .folds, .xl, .dl]
  | .pcRstCtlWhole .. | .ownerLeaseExpire ..
    => [.regs, .sels, .latches, .fe, .reqs, .cores, .checking, .folds, .np, .xl, .dl, .ig, .pc]
  | .configRdmaAccess .. | .registerWrite .. | .debugAccess ..
    => [.regs, .sels, .latches, .fe, .reqs, .cores, .graphs, .checking, .tables, .folds, .np, .xl, .dl, .ig, .pc]
  | .fillDone .. | .errorReport .. | .pwrgoodFall .. | .resetNAssert .. | .rootPllLoss .. | .bootWatchdog ..
  | .thermtrip ..
    => [.regs, .sels, .latches, .fe, .reqs, .nextHandle, .lastCore, .nextOrder, .cores, .graphs, .checking, .tables, .folds, .np, .xl, .dl, .ig, .pc, .fab]

/-! ## Numbers -/

/-- One FP32 value lies below another. Finite values are compared as integers in units of 2^-149, the unit of the least
subnormal, in which each of them is whole. -/
def below32 : Fv → Fv → Prop
  | .inf true, .inf false => True
  | .inf true, .fin _ _ _ => True
  | .fin _ _ _, .inf false => True
  | .fin n m e, .fin k l f => sint n (m * 2 ^ (e + 149).toNat) < sint k (l * 2 ^ (f + 149).toNat)
  | _, _ => False

/-! ## Registers and fold memory -/

/-- Addresses of the low halves of the 64-bit quantities of the part, those of the table window, the region words, the
fault log and the plan with them (R12, R133, R213, R282, R309, R337, R399, R425, R504). -/
def lowHalves : List Nat :=
  [aFeQRingLo, aFeQCqLo, aNpMacAddrLo, aNpPtpTimeLo, aXlMwBaseLo, aXlFqAddrLo, aDlPairLastTagLo, aPcEnergyLo, aPcPlan + 8] ++
    (List.range 2).flatMap (fun c => [coreReg c aVeQsSseLo, coreReg c aVeQsSsLo, coreReg c aVeQsCountLo]) ++
    (List.range 8).flatMap (fun f => [foldReg f aRuConvSseLo, foldReg f aRuConvSsLo, foldReg f aRuConvCountLo]) ++
    [aXlRegWord0, aXlRegWord2] ++ (List.range 512).map (fun k => aXlTblWin + 8 * k) ++
    (List.range 256).flatMap (fun k => [24, 32, 40, 48].map (fun o => aIgFlog + 64 * k + o))

/-- The run that a channel issues at its next opportunity: the earliest eligible head, or with BORROW the earliest head
(R353). -/
def runTaken (s : State) (f ch : Nat) : Option Run :=
  if (mget {} (fold s f).chans ch).trained = false ∨ ((unit s (2 + f)).st = .resetting ∧ fmHeld s f = true) then none
  else match earliest ((heads (fold s f) ch).filter (fun r => eligible s f r.part)) with
    | some r => some r
    | none => if rb s (foldReg f aFmCtl) 0 0 then earliest (heads (fold s f) ch) else none

/-- Fold address `b` lies in no sector that run `r` stores. -/
def outsideRun (r : Run) (b : Nat) : Prop :=
  ∀ e ∈ r.secs.zip r.data, b < addrOf r.ch e.1 ∨ addrOf r.ch e.1 + e.2.1.length ≤ b

/-- Bursts charged for run `r` at its issue: a read once, a write of whole sectors twice, and of a read-modify-write the read
of the sectors written in part (R351). -/
def issueCost (r : Run) : Nat :=
  if r.write && !r.rmw then 2 * runBursts r.secs else runBursts (if r.write then partSecs r else r.secs)

end Sys2Proof.Machine

open Sys2Proof Sys2Proof.Machine

/-! ## The rings and the commands of the front end -/

/-- NOP and FENCE complete, the NOP at once and the FENCE when what it waits for has completed (R271, R272). The sync point
of a FENCE of queue 0 with XL_SYNC set is taken when its entry's tag is matched: the translation cache is emptied and the
pieces under way on queue pairs are noted, those of dropped transfers with them; XL_SYNC_DONE ends it once each write among
them is acknowledged and each READ answered (R328). -/
def Obligations.NopAndFenceComplete : Prop :=
  (∀ (s : State) (q : BitVec 10) (n : Word) (c : Cmd), Dispatched s q.toNat n 11 c → zero c 16 48 = true →
    exec (.nop q n) s = .next (finish (arrived s c) c.q.toNat c.n 0)) ∧
  (∀ (s : State) (q : BitVec 10) (n : Word) (c : Cmd), Dispatched s q.toNat n 10 c → cF c 16 1 = 0 → zero c 17 47 = true →
    exec (.fence q n) s = .next (settle (atUnit s c))) ∧
  (∀ (s : State) (n : Word) (c : Cmd), Dispatched s 0 n 10 c → cF c 16 1 = 1 → zero c 17 47 = true →
    exec (.fence 0 n) s = .next (settle (syncPoint (atUnit s c) n))) ∧
  (∀ (s : State) (n : Word), (∀ e ∈ s.xl.syncs, e.1 ≠ n) →
    syncPoint s n = { s with xl := { s.xl with cache := [], syncs := s.xl.syncs ++ [(n, piecesOut s)] } }) ∧
  (∀ (s : State) (q : Nat) (c : Word) (sl : Nat) (bs : Bytes) (u : State), headerCheck q (bs.take 64) = 0 →
    u = updQueue s q (fun u => { u with
      c := u.c + BitVec.ofNat 32 sl, retry := 0, got := u.got.filter (fun e => !((e.1 - c).toNat < sl)) }) →
    isSync q (bs.take 64) = true →
    takeEntry s q c sl bs = syncPoint { u with fe := { u.fe with cmds := u.fe.cmds ++
      [{ q := BitVec.ofNat 10 q, n := c, entry := bs.take 64, payload := bs.drop 64, tagNs := u.np.ns }] } } c) ∧
  (∀ (s : State) (n : Word) (xs : List (Nat × List (BitVec 13))), s.xl.syncs.find? (fun e => e.1 == n) = some (n, xs) →
    (∀ e ∈ xs, e.2 ≠ [] → xfer s e.1 = none ∧ (∀ r ∈ s.fe.lost, r.1 ≠ e.1) ∧
      ∀ i ∈ e.2, ∀ o ∈ (qp s i.toNat).out, o.x ≠ e.1) →
    exec (.xlSyncDone n) s =
      .next (settle (cnt { s with xl := { s.xl with syncs := s.xl.syncs.filter (fun e => e.1 ≠ n) } } aXlCntSync)))

/-- ABORT of one command, of a queue, of every queue of a CID and of every queue but 0: the ABORT waits for what it
ended, each ended command is ended with ST_ABORTED and each queue in scope halts unless it is to be restarted; an ABORT
that names no outstanding command ends with nothing done (R279, R280). QUEUE_TIMEOUT ends a command with ST_TIMEOUT
(R278). -/
def Obligations.AbortsComplete : Prop :=
  (∀ (s : State) (n : Word) (c d : Cmd), AbortNow s n c 0 →
    cmd (atUnit s c) (cF c 18 2) (BitVec.ofNat 32 (cF c 20 4)) = some d →
    exec (.abortCommand n) s = .next (settle (abortInto (atUnit s c) c d))) ∧
  (∀ (s : State) (n : Word) (c : Cmd), AbortNow s n c 0 →
    cmd (atUnit s c) (cF c 18 2) (BitVec.ofNat 32 (cF c 20 4)) = none →
    exec (.abortCommand n) s = .next (settle (atUnit s c))) ∧
  (∀ (s : State) (n : Word) (c : Cmd), AbortNow s n c 1 →
    (queue (atUnit s c) (cF c 18 2)).st ≠ .disabled →
    exec (.abortQueue n) s =
      .next (settle (abortWhole (atUnit s c) c (cF c 18 2)))) ∧
  (∀ (s : State) (n : Word) (c : Cmd), AbortNow s n c 2 →
    exec (.abortCid n) s =
      .next (settle ((queuesThat (atUnit s c) (fun u => u.cid.toNat == cF c 24 2)).foldl (fun s q => abortWhole s c q)
        (atUnit s c)))) ∧
  (∀ (s : State) (n : Word) (c : Cmd), AbortNow s n c 3 →
    exec (.abortAllQueues n) s =
      .next (settle ((queuesThat (atUnit s c) (fun _ => true)).foldl (fun s q => abortWhole s c q)
        (atUnit s c)))) ∧
  (∀ (s : State) (q : BitVec 10) (n : Word) (c : Cmd), cmd s q.toNat n = some c →
    (c.phase ≠ .ended ∨ stillAborts c = true) → unaborted c = false → c.committed = false →
    isEnding s c = false → exec (.queueTimeout q n) s = .next (settle (cnt (abortOne s q.toNat n stTimeout) aFeCntTimeout)))

/-- QUEUE_CREATE makes an IDLE queue of its operands, where no command of an earlier queue of its number still runs (log
entry 144 holds it till then, the model's choice), and QUEUE_DESTROY takes a queue away, and each completes with status
0 (R273, R275). -/
def Obligations.QueueCommandsComplete : Prop :=
  (∀ (s : State) (n : Word) (c : Cmd), Dispatched s 0 n 17 c → 1 ≤ cF c 16 2 → cF c 16 2 ≤ 1023 → 6 ≤ cF c 18 1 →
    cF c 18 1 ≤ 15 → zero c 19 1 = true → cF c 24 8 % 4096 = 0 → plainAddr (cF c 24 8) = true → cF c 32 8 % 4096 = 0 →
    plainAddr (cF c 32 8) = true → bits (cF c 40 2) 14 12 = 0 → 1 ≤ cF c 42 2 → cF c 42 2 ≤ 1023 → 1 ≤ cF c 44 4 →
    cF c 44 4 ≤ 4000000 → cF c 48 1 ≤ 15 → zero c 49 15 = true →
    bit (cF c 40 2) 15 = rb s aXlCtxCfg (cF c 40 2 % 4096) 1 → (queue s (cF c 16 2)).st = .disabled →
    (session s (cF c 42 2)).live = true → stillSilent s (cF c 16 2) = false →
    exec (.queueCreate n) s = .next (finish (setQueue (arrived s c) (cF c 16 2)
      { st := .idle, ring := BitVec.ofNat 64 (cF c 24 8), cq := BitVec.ofNat 64 (cF c 32 8), log2 := cF c 18 1
        session := BitVec.ofNat 16 (cF c 42 2), cid := BitVec.ofNat 12 (cF c 40 2 % 4096), world := bit (cF c 40 2) 15
        part := BitVec.ofNat 4 (cF c 48 1), key := BitVec.ofNat 32 (cF c 20 4)
        timeout := BitVec.ofNat 22 (cF c 44 4), dbRange := (queue s (cF c 16 2)).dbRange }) 0 n 0)) ∧
  (∀ (s : State) (n : Word) (c : Cmd), Dispatched s 0 n 18 c → 1 ≤ cF c 16 2 → cF c 16 2 ≤ 1023 → zero c 18 46 = true →
    (queue s (cF c 16 2)).st ≠ .disabled →
    exec (.queueDestroy n) s =
      .next (resume (settle (finish (dropQueue (arrived s c) (cF c 16 2) stAborted) 0 n 0))))

/-- REGION_MAP reads its descriptor and then installs it where the checks pass (R314, R315); REGION_UNMAP invalidates
a region and waits for the fill of its range (R316); STATS_READ writes its sample to its destination (R274). -/
def Obligations.RegionAndStatsComplete : Prop :=
  (∀ (s : State) (n : Word) (c : Cmd), Dispatched s 0 n 19 c → bits (cF c 16 2) 15 14 = 0 → zero c 18 6 = true →
    zero c 32 32 = true → srcOk c (cF c 24 8) 32 = true →
    exec (.regionMap n) s = .next (fetchSrc (arrived s c) c .args (cF c 24 8) 32)) ∧
  (∀ (s : State) (n : Word) (c : Cmd), cmd s 0 n = some c → cOp c = 19 → c.phase = .landed →
    regionCheck s (cF c 16 2) c.data = 0 →
    exec (.regionMap n) s = .next (finish (setRegion s (cF c 16 2) (regionOf c.data)) 0 n 0)) ∧
  (∀ (s : State) (n : Word) (c : Cmd), Dispatched s 0 n 20 c → cF c 16 2 < 16320 → zero c 18 46 = true →
    (region s (cF c 16 2)).kind ≠ 0 → (region s (cF c 16 2)).unmapping = false →
    regionHolds (cnt s aFeCntEntries) (cF c 16 2) = false →
    exec (.regionUnmap n) s = .next (setRegion (atUnit s c) (cF c 16 2)
      { region s (cF c 16 2) with unmapping := true })) ∧
  (∀ (s : State) (n : Word) (c : Cmd) (d : Bytes), Dispatched s 0 n 21 c → 1 ≤ cF c 16 1 → cF c 16 1 ≤ 63 →
    zero c 17 3 = true → zero c 32 32 = true → plainAddr (cF c 24 8) = true →
    32 + ((statRecs (cnt s aFeCntEntries) (cF c 16 1)).map List.length).sum ≤ cF c 20 4 →
    d = toLE 8 (now s) ++ toLE 4 (32 + ((statRecs (cnt s aFeCntEntries) (cF c 16 1)).map List.length).sum) ++
      toLE 2 (statRecs (cnt s aFeCntEntries) (cF c 16 1)).length ++ List.replicate 18 0 ++
      (statRecs (cnt s aFeCntEntries) (cF c 16 1)).flatten →
    exec (.statsRead n) s =
      .next (finish (sendDst (arrived s c) c .stats (cF c 24 8) d) 0 n 0))

/-- A renewal that comes up to the cycle of the expiry sets the period it gives, if it gives one, extends the lease from
now by the period in force, and completes with status 0: the owner's (R301, R302) and a live session's (R306). -/
def Obligations.LeaseRenewalsComplete : Prop :=
  (∀ (s : State) (n : Word) (c : Cmd), Dispatched s 0 n 24 c → cF c 16 1 = 0 → leaseOk c = true → cF c 18 2 = 0 →
    100 ≤ cF c 20 4 → cF c 20 4 ≤ 60000 → s.np.owned = true → s.np.lapsed = false → slow s ≤ s.np.expiry →
    ∃ u, u = rset (cnt s aFeCntEntries) aNpLeaseTimeout 0 (cF c 20 4) ∧
      exec (.leaseRenewOwner n) s = .next (finish (arrive { u with np := { u.np with
        expiry := slow s + leaseCyc (cF c 20 4) } } c) 0 n 0)) ∧
  (∀ (s : State) (n : Word) (c : Cmd), Dispatched s 0 n 24 c → cF c 16 1 = 0 → leaseOk c = true → cF c 18 2 = 0 →
    cF c 20 4 = 0 → s.np.owned = true → s.np.lapsed = false → slow s ≤ s.np.expiry →
    ∃ u, u = cnt s aFeCntEntries ∧
      exec (.leaseRenewOwner n) s = .next (finish (arrive { u with np := { u.np with
        expiry := slow s + leaseCyc (rv s aNpLeaseTimeout) } } c) 0 n 0)) ∧
  (∀ (s : State) (n : Word) (c : Cmd), Dispatched s 0 n 24 c → cF c 16 1 = 1 → leaseOk c = true → 1 ≤ cF c 18 2 →
    cF c 18 2 ≤ 1023 → cF c 20 4 = 0 → (session s (cF c 18 2)).live = true → slow s ≤ (session s (cF c 18 2)).expiry →
    exec (.leaseRenewSession n) s = .next (finish (arrive (updSession (cnt s aFeCntEntries) (cF c 18 2)
      (fun x => { x with expiry := slow s + leaseCyc (rv s aNpSesPeriod (cF c 18 2)) })) c) 0 n 0)) ∧
  (∀ (s : State) (n : Word) (c : Cmd), Dispatched s 0 n 24 c → cF c 16 1 = 1 → leaseOk c = true → 1 ≤ cF c 18 2 →
    cF c 18 2 ≤ 1023 → 10 ≤ cF c 20 4 → cF c 20 4 ≤ 60000 → (session s (cF c 18 2)).live = true →
    slow s ≤ (session s (cF c 18 2)).expiry →
    exec (.leaseRenewSession n) s = .next (finish (arrive (updSession
      (rset (cnt s aFeCntEntries) aNpSesPeriod (cF c 18 2) (cF c 20 4)) (cF c 18 2)
      (fun x => { x with expiry := slow s + leaseCyc (cF c 20 4) })) c) 0 n 0))

/-- A ring READ that lands is parsed, an expired stale wait refetches from C (R259, R262), and the doorbell registers
and the registers of queue 0 take the writes of a requester that may make them (R246, R257, R282). -/
def Obligations.RingEventsComplete : Prop :=
  (∀ (s : State) (q : BitVec 10) (slots : List Bytes) (r : RingRead) (rs : List RingRead) (t : Xfer),
    (queue s q.toNat).reads = r :: rs → xfer s r.xfer = some t → t.left = 0 → piecesUp s t = true →
    slots.length = r.slots → (queue s q.toNat).st = .active ∨ (queue s q.toNat).st = .draining →
    exec (.ringReadLands q slots) s = .next (pump (readAnswered (updQueue (dropXfer s t.id) q.toNat (fun u => { u with
      reads := rs
      got := u.got ++ (List.range r.slots).map (fun i => (r.first + BitVec.ofNat 32 i,
        slice (mergeData (t.addr.toNat - t.data.length) t.pieces t.data (slots.flatMap (fun b => slice b 0 64)))
          (64 * i) 64)) })) t) q.toNat)) ∧
  (∀ (s : State) (q : BitVec 10), (queue s q.toNat).st = .backoff →
    exec (.staleBackoffExpire q) s =
      .next (fetchRing (cnt (updQueue s q.toNat (fun u => { u with st := .active, f := u.c })) aFeCntStale) q.toNat)) ∧
  (∀ (s : State) (a : Acc) (v : Word), mayAccess s a = true → a.secure = true → a.who ≠ .jtag →
    exec (.feQ0DbLo a v) s = .next { s with fe := { s.fe with dbLo := mset none s.fe.dbLo (whoCode a.who) (some v) } }) ∧
  (∀ (s : State) (a : Acc) (v lo : Word), mayAccess s a = true → a.secure = true → a.who ≠ .jtag →
    mget none s.fe.dbLo (whoCode a.who) = some lo → lo.toNat % 1024 = 0 →
    dbOk { s with fe := { s.fe with dbLo := mset none s.fe.dbLo (whoCode a.who) none } } (lo.toNat + 2 ^ 32 * v.toNat) = true →
    exec (.feQ0DbHi a v) s =
      .next (judgeDb { s with fe := { s.fe with dbLo := mset none s.fe.dbLo (whoCode a.who) none } } 0
        (bits (lo.toNat + 2 ^ 32 * v.toNat) 25 10))) ∧
  (∀ (s : State) (a : Acc) (v : Word), mayAccess s a = true → a.secure = true → bit v.toNat 0 = true →
    selOf s a.who aFeQSel = 0 → (queue s 0).st = .disabled →
    ∃ t, exec (.feQEnable a v) s = .next t ∧ (queue t 0).st = .idle ∧ (queue t 0).c = 0 ∧ (queue t 0).l = 0 ∧
      (queue t 0).ring.toNat = rv64 s aFeQRingLo 0 % 2 ^ 64 ∧ (queue t 0).key = (queue s 0).key) ∧
  (∀ (s : State) (a : Acc) (v : Word), mayAccess s a = true → a.secure = true → (queue s 0).st = .disabled →
    exec (.feQKey0 a v) s = .next (updQueue s 0 (fun u => { u with key := v })))

/-! ## Tables, graphs, launches and lookups -/

/-- LAUNCH and LOOKUP complete: dispatched, each checks its operands and reads its argument block; landed and sound, it
arrives and goes to the admission, a LAUNCH of a version with tables of a column group having asked its leader for their
epochs; the head of the admission, a LAUNCH whose version passes its checks and that finds a core with room then runs there,
and a LOOKUP whose tables exist and whose contexts are free sends its programs (R230 to R232, R266, R270, R377). -/
def Obligations.LaunchAndLookupComplete : Prop :=
  (∀ (s : State) (q : BitVec 10) (n : Word) (c : Cmd), Dispatched s q.toNat n 1 c → cF c 16 2 < 1024 → 1 ≤ lNseg c →
    lNseg c ≤ 16 → 1 ≤ lNoseg c → lNoseg c ≤ 16 → zero c 32 32 = true → cF c 20 4 = 64 + 16 * (lNseg c + lNoseg c) →
    srcOk c (cF c 24 8) (cF c 20 4) = true →
    exec (.launch q n) s = .next (fetchSrc (cnt s aFeCntEntries) c .args (cF c 24 8) (cF c 20 4))) ∧
  (∀ (s : State) (q : BitVec 10) (n : Word) (c : Cmd), LandedNow s q.toNat n 1 c → launchArgs c = true →
    (∀ v, curVer (setPhase (arrive s c) c .admission) (cF c 16 2) = some v →
      groupTids (setPhase (arrive s c) c .admission) v.image = []) →
    exec (.launch q n) s = .next (setPhase (arrive s c) c .admission)) ∧
  (∀ (s t : State) (q : BitVec 10) (n : Word) (c d : Cmd) (v : Version) (key : Word), LandedNow s q.toNat n 1 c →
    launchArgs c = true → t = setPhase (arrive s c) c .admission → curVer t (cF c 16 2) = some v →
    groupTids t v.image ≠ [] → cmd t q.toNat n = some d → t.dl.dissolved = false → grpOn t = true →
    isGrpMirror t = false → reaches t (leader t) = true → key = BitVec.ofNat 32 (fld d.data 60 4) →
    ∃ u, u = updCmd t d.q.toNat d.n (fun c => { c with asked := some key }) ∧
      exec (.launch q n) s = .next (droveSend u (leader u)
        (.pinReq (BitVec.ofNat 12 (myId u)) key ((groupTids t v.image).map (BitVec.ofNat 12))))) ∧
  (∀ (s : State) (q : BitVec 10) (n : Word) (c : Cmd), Dispatched s q.toNat n 2 c → 1 ≤ cF c 16 1 → cF c 16 1 ≤ 64 →
    zero c 17 3 = true → zero c 32 32 = true → cF c 20 4 = 16 + 80 * cF c 16 1 →
    srcOk c (cF c 24 8) (cF c 20 4) = true →
    exec (.lookup q n) s = .next (fetchSrc (cnt s aFeCntEntries) c .args (cF c 24 8) (cF c 20 4))) ∧
  (∀ (s : State) (q : BitVec 10) (n : Word) (c : Cmd), LandedNow s q.toNat n 2 c → fld c.data 4 4 = 0 →
    plainAddr (fld c.data 8 8) = true → (∀ p < cF c 16 1, lookupField c p = true ∧ (kBody c p).1 = 4 * bodyLen (kDesc c p)) →
    exec (.lookup q n) s = .next (setPhase (arrive s c) c .admission)) ∧
  (∀ (s t u : State) (q : BitVec 10) (n : Word) (c d : Cmd) (v : Version) (pins : List (BitVec 12 × Word)) (k slot base : Nat),
    LandedNow s q.toNat n 1 c → launchArgs c = true → (∀ x ∈ s.fe.cmds, x.phase ≠ .admission) →
    (∀ r ∈ s.reqs, r.replay ≠ 1) → t = setPhase (arrive s c) c .admission →
    d = { c with arrival := s.fe.nextArrival + 1, phase := .admission } → curVer t (cF c 16 2) = some v →
    groupTids t v.image = [] → launchFail t d v = none → launchPins t d v.image = some pins →
    (∀ p ∈ pins, (epochOf (table t p.1.toNat) p.2).isSome = true) →
    chooseCore t ((mayRunOn t v (queue t c.q.toNat).world true).filter (fun k => (coreRoom t k (gBuf v.image)).isSome)) =
      some k → coreRoom t k (gBuf v.image) = some (slot, base) → admitLaunch t d v pins k slot base = some u →
    exec (.launch q n) s = .next t ∧ exec .launchAdmission t = .next u) ∧
  (∀ (s t u : State) (q : BitVec 10) (n : Word) (c d : Cmd) (ctxs : List (Nat × Map (List Nat))),
    LandedNow s q.toNat n 2 c → fld c.data 4 4 = 0 → plainAddr (fld c.data 8 8) = true →
    (∀ p < cF c 16 1, lookupField c p = true ∧ (kBody c p).1 = 4 * bodyLen (kDesc c p)) →
    (∀ x ∈ s.fe.cmds, x.phase ≠ .admission) → (∀ r ∈ s.reqs, r.replay ≠ 1) → t = setPhase (arrive s c) c .admission →
    d = { c with arrival := s.fe.nextArrival + 1, phase := .admission } →
    (∀ x ∈ lookupTids d, (table t x).cur.isSome = true) → t.dl.pair = .none →
    (∀ p < cF c 16 1, lookupProgOk t d p = true) →
    bindEach (takeHandle t).2 d (takeHandle t).1 (((List.range (cF d 16 1)).map (fun p => fld (kDesc d p) 0 1)).eraseDups) =
      some (u, ctxs) →
    ∃ (w : State) (r : Req), exec (.lookup q n) s = .next t ∧ exec .lookupAdmission t = .next w ∧
      r.handle = (takeHandle t).1 ∧ r.kind = .lookup ∧ r.q = c.q ∧ r.n = n ∧ r.progs = (List.range (cF c 16 1)).map (kDesc c) ∧
      r.pins = (lookupTids d).filterMap (fun x => (table u x).cur.map (fun e => (BitVec.ofNat 12 x, e.num))) ∧
      w = (let u := r.pins.foldl (fun s p => pinNum s p.1.toNat p.2) u
           sendPrograms (updCmd { u with reqs := u.reqs ++ [r] } c.q.toNat c.n
             (fun c => { c with phase := .running, handle := r.handle })) d r ctxs))

/-- The admission of a LAUNCH that finds a core with room admits it there, one that finds none waits, and one whose
version fails a check is refused (R228 to R232); a LOOKUP whose tables exist and whose contexts are free pins its epochs
and sends its programs (R51, R230, R270); a LAUNCH that waits for its replay is admitted again, and ends with ST_POISON where every
core's copy is damaged (R405, R410). -/
def Obligations.AdmissionsComplete : Prop :=
  (∀ (s t : State) (c : Cmd) (v : Version) (pins : List (BitVec 12 × Word)) (k slot base : Nat), admHead s = some c →
    cOp c = 1 → curVer s (cF c 16 2) = some v → launchFail s c v = none → groupTids s v.image = [] →
    launchPins s c v.image = some pins → (∀ p ∈ pins, (epochOf (table s p.1.toNat) p.2).isSome = true) →
    chooseCore s ((mayRunOn s v (queue s c.q.toNat).world true).filter (fun k => (coreRoom s k (gBuf v.image)).isSome)) =
      some k → coreRoom s k (gBuf v.image) = some (slot, base) → admitLaunch s c v pins k slot base = some t →
    exec .launchAdmission s = .next t) ∧
  (∀ (s : State) (c : Cmd) (v : Version) (st : Status), admHead s = some c → cOp c = 1 → curVer s (cF c 16 2) = some v →
    launchFail s c v = some st → st ≠ stPoison → exec .launchAdmission s = .next (reject s c st)) ∧
  (∀ (s u : State) (c : Cmd) (ctxs : List (Nat × Map (List Nat))), admHead s = some c → cOp c = 2 →
    (∀ t ∈ lookupTids c, (table s t).cur.isSome = true) → s.dl.pair = .none →
    (∀ p < cF c 16 1, lookupProgOk s c p = true) →
    bindEach (takeHandle s).2 c (takeHandle s).1 (((List.range (cF c 16 1)).map (fun p => fld (kDesc c p) 0 1)).eraseDups) =
      some (u, ctxs) →
    ∃ (t : State) (r : Req), exec .lookupAdmission s = .next t ∧ r.handle = (takeHandle s).1 ∧ r.kind = .lookup ∧
      r.q = c.q ∧ r.n = c.n ∧
      r.pins = (lookupTids c).filterMap (fun t => (table u t).cur.map (fun e => (BitVec.ofNat 12 t, e.num))) ∧
      r.progs = (List.range (cF c 16 1)).map (kDesc c) ∧
      t = (let u := r.pins.foldl (fun s p => pinNum s p.1.toNat p.2) u
           sendPrograms (updCmd { u with reqs := u.reqs ++ [r] } c.q.toNat c.n
             (fun c => { c with phase := .running, handle := r.handle })) c r ctxs)) ∧
  (∀ (s u : State) (h : Half) (r : Req) (c : Cmd) (v : Version) (k slot base : Nat) (ctxs : Map (List Nat)),
    req s h = some r → r.replay = 1 → cmd s r.q.toNat r.n = some c → verOf s r.gid r.ver = some v →
    (replayCores s r v).contains k = true →
    k = (if (replayCores s r v).contains (1 - r.firstCore) && rb s (coreReg (1 - r.firstCore) aSqCtl) 0 0 then
        1 - r.firstCore else r.firstCore) →
    coreRoom s k (gBuf v.image) = some (slot, base) → bindCtxs s h (r.ctxs.map (·.1)) (gCtxN v.image) = some (u, ctxs) →
    ∃ t r', exec (.replay h) s = .next t ∧ r'.core = k ∧ r'.slot = slot ∧ r'.replay = 2 ∧ r'.landed = [] ∧
      r'.handle = r.handle ∧ r'.outMsg = [] ∧ r'.pins = r.pins ∧ r'.scalars = r.scalars ∧
      t = cnt (fillSlot (updCore (updReq u h (fun _ => r')) k (fun x => cupdSlot x slot (fun w => { w with
        win := mset none w.win 1 (some { base := base, size := gBuf v.image, wr := true }) }))) c v r') aIgCntReplay) ∧
  (∀ (s : State) (h : Half) (r : Req) (c : Cmd) (v : Version), req s h = some r → r.replay = 1 →
    cmd s r.q.toNat r.n = some c → verOf s r.gid r.ver = some v → replayCores s r v = [] →
    exec (.replay h) s = .next (abortCmd s r.q.toNat r.n stPoison))

/-- TABLE_LOAD, TABLE_COMMIT and TABLE_EXPORT arrive when their operands pass their checks; a commit then waits for its
step and an export for its turn (R31, R60, R62, R63, R105). -/
def Obligations.TableCommandsComplete : Prop :=
  (∀ (s : State) (q : BitVec 10) (n : Word) (c : Cmd), Dispatched s q.toNat n 4 c → cF c 16 1 = 0 → loadOk c = true →
    cF c 20 4 = 0 → exec (.tableLoadFull q n) s = .next (fetchSrc (arrived s c) c .desc (cF c 40 8) 64)) ∧
  (∀ (s : State) (q : BitVec 10) (n : Word) (c : Cmd), LandedNow s q.toNat n 4 c → cF c 16 1 = 0 → c.data = [] →
    blockedBy s c = false → cF c 20 4 = 0 → fullFail s c (cF c 18 2 % 4096) (c.bodies.headD []) = 0 →
    srcOk c (cF c 32 8) (cF c 24 4 * dPslot (c.bodies.headD [])) = true →
    (∀ f ∈ dFolds (c.bodies.headD []), ruHeld s f = false) →
    exec (.tableLoadFull q n) s =
      .next (loadSrc (startImage s c (cF c 18 2 % 4096) (c.bodies.headD [])) c (c.bodies.headD []))) ∧
  (∀ (s : State) (q : BitVec 10) (n : Word) (c : Cmd), Dispatched s q.toNat n 4 c → cF c 16 1 = 1 → loadOk c = true →
    exec (.tableLoadRows q n) s = .next (setPhase (arrived s c) c .landed)) ∧
  (∀ (s : State) (q : BitVec 10) (n : Word) (c : Cmd), Dispatched s q.toNat n 5 c → cDrop c = false → commitOk c = true →
    exec (.tableCommit q n) s = .next (atUnit s c)) ∧
  (∀ (s : State) (q : BitVec 10) (n : Word) (c : Cmd), Dispatched s q.toNat n 5 c → cDrop c = true → commitOk c = true →
    exec (.tableCommitDrop q n) s = .next (atUnit s c)) ∧
  (∀ (s : State) (q : BitVec 10) (n : Word) (c : Cmd), cmd s q.toNat n = some c → cOp c = 5 → c.phase = .unit →
    blockedBy s c = false → cDrop c = false → exec (.tableCommitStep q n) s = .next (commitJudge s c)) ∧
  (∀ (s : State) (q : BitVec 10) (n : Word) (c : Cmd), cmd s q.toNat n = some c → cOp c = 5 → c.phase = .unit →
    blockedBy s c = false → cDrop c = true → exec (.tableCommitStep q n) s = .next (dropJudge s c)) ∧
  (∀ (s : State) (q : BitVec 10) (n : Word) (c : Cmd), Dispatched s q.toNat n 6 c → exportOk c = true →
    exec (.tableExport q n) s = .next (setPhase (arrived s c) c .landed)) ∧
  (∀ (s : State) (q : BitVec 10) (n : Word) (c : Cmd), LandedNow s q.toNat n 6 c → blockedBy s c = false →
    exec (.tableExport q n) s = .next (exportJudge s c))

/-- UPDATE reads its batch and is then judged in its turn; its commit point marks it committed and its publication makes
its epochs current (R108, R122, R123); an RU that left reset finishes what was committed and serves again (R124, R125);
an epoch whose grace expires is gone (R57). -/
def Obligations.UpdatesComplete : Prop :=
  (∀ (s : State) (q : BitVec 10) (n : Word) (c : Cmd), Dispatched s q.toNat n 3 c → zero c 16 4 = true →
    zero c 32 32 = true → 32 ≤ cF c 20 4 → srcOk c (cF c 24 8) (cF c 20 4) = true →
    exec (.update q n) s = .next (fetchSrc (arrived s c) c .batch (cF c 24 8) (cF c 20 4))) ∧
  (∀ (s : State) (q : BitVec 10) (n : Word) (c : Cmd), LandedNow s q.toNat n 3 c → fld c.data 4 4 = cF c 20 4 →
    exec (.update q n) s = .next (updateGo s c)) ∧
  (∀ (s : State) (q : BitVec 10) (n : Word) (c : Cmd), cmd s q.toNat n = some c → cOp c = 3 → c.phase = .unit →
    c.committed = false → s.dl.pair ≠ .sync →
    exec (.updateCommitPoint q n) s = .next (updCmd s q.toNat n (fun c => { c with committed := true }))) ∧
  (∀ (s : State) (q : BitVec 10) (n : Word) (c : Cmd) (m : MirrorRec), cmd s q.toNat n = some c → cOp c = 3 →
    c.phase = .unit → c.committed = false → s.dl.pair = .sync → s.dl.silent = false →
    s.dl.mirrored.find? (fun m => m.upd == c.handle) = some m → m.prepared = true →
    exec (.updateCommitPoint q n) s =
      .next (cnt (droveSend (updCmd s q.toNat n (fun c => { c with committed := true })) s.dl.partner.toNat
        (.commit c.handle)) aDlCntStream)) ∧
  (∀ (s : State) (q : BitVec 10) (n : Word) (c : Cmd), cmd s q.toNat n = some c → cOp c = 3 → c.phase = .running →
    groupSet s (c.opens.map (fun e => e.1.toNat)) = [] →
    exec (.updatePublish q n) s = .next (publishUpd s c (fun _ => []))) ∧
  (∀ (s : State) (f : Fin 8), recovering s f = true → (∀ c ∈ s.fe.cmds, cOp c = 3 → c.committed = false) →
    (∀ t ∈ s.dl.streams, t.committed = false) →
    exec (.recoveringClear f) s =
      .next (rsetF (updUnit s (2 + f) (fun u => { u with st := .service })) (foldReg f aRuStat) 0 0 0 0)) ∧
  (∀ (s : State) (tid : BitVec 12) (p : Epoch), (table s tid.toNat).prev = some p →
    ∃ t u, exec (.epochGraceExpire tid) s = .next t ∧ t = prevGone u tid.toNat ∧
      ∀ r ∈ u.reqs, (tid, p.num) ∉ r.pins)

/-- GRAPH_STORE and GRAPH_PATCH read their image and go under check; the check installs a new version or refuses it;
GRAPH_RETIRE ends the current version (R219, R222 to R227). -/
def Obligations.GraphCommandsComplete : Prop :=
  (∀ (s : State) (q : BitVec 10) (n : Word) (c : Cmd), Dispatched s q.toNat n 7 c → zero c 16 4 = true →
    zero c 32 32 = true → plainAddr (cF c 24 8) = true → 1024 ≤ cF c 20 4 →
    exec (.graphStore q n) s = .next (fetchSrc (arrived s c) c .image (cF c 24 8) (cF c 20 4))) ∧
  (∀ (s : State) (q : BitVec 10) (n : Word) (c : Cmd), LandedNow s q.toNat n 7 c →
    imageFail s (queue s c.q.toNat).world c.data true (gCores c.data) = none →
    exec (.graphStore q n) s = .next (underCheck s c c.data)) ∧
  (∀ (s : State) (q : BitVec 10) (n : Word) (c : Cmd), Dispatched s q.toNat n 8 c → zero c 16 4 = true →
    zero c 32 32 = true → srcOk c (cF c 24 8) (cF c 20 4) = true → 32 ≤ cF c 20 4 →
    exec (.graphPatch q n) s = .next (fetchSrc (arrived s c) c .patch (cF c 24 8) (cF c 20 4))) ∧
  (∀ (s : State) (q : BitVec 10) (n : Word) (c : Cmd), Dispatched s q.toNat n 9 c → cF c 16 2 < 1024 →
    zero c 18 46 = true → (curVer s (cF c 16 2)).isSome = true → (∀ e ∈ s.checking, e.1 ≠ cF c 16 2) →
    (∀ v ∈ s.graphs, v.current = true → v.gid ≠ cF c 16 2 → ∀ e ∈ gShared v.image, wSgid e ≠ cF c 16 2) →
    ∃ u, u = arrived s c ∧ exec (.graphRetire q n) s = .next (finish (sweepVersions { u with
      graphs := s.graphs.map (fun v => if v.gid = cF c 16 2 then { v with current := false } else v) }) c.q.toNat c.n 0)) ∧
  (∀ (s : State) (q : BitVec 10) (n : Word) (bundle : BitVec 17) (c : Cmd) (ps : List Place), cmd s q.toNat n = some c →
    c.phase = .unit → cOp c = 7 → pathFail c.data 0 bundle.toNat = none →
    imageFail s (queue s q.toNat).world c.data true (gCores c.data) = none →
    findPlaces s c.data (gCores c.data) = some ps → curVer s (gGid c.data) = none →
    exec (.graphCheckDone q n 0 bundle) s = .next (finish (installVer { s with
      checking := s.checking.filter (fun e => !(e.2.1 == q && e.2.2 == n)) } c.data 1 ps) q.toNat n 0)) ∧
  (∀ (s : State) (q : BitVec 10) (n : Word) (bundle : BitVec 17) (c : Cmd) (v : Version) (ps : List Place),
    cmd s q.toNat n = some c → c.phase = .unit → cOp c = 8 → pathFail c.data 0 bundle.toNat = none →
    curVer s (gGid c.data) = some v →
    imageFail s (queue s q.toNat).world c.data false (v.places.map (·.core)) = none →
    findPlaces s c.data (v.places.map (·.core)) = some ps →
    exec (.graphCheckDone q n 0 bundle) s = .next (finish ((v.places.map (·.core)).foldl
      (fun s k => cnt s (coreReg k aSqCntPatch)) (installVer { s with
        checking := s.checking.filter (fun e => !(e.2.1 == q && e.2.2 == n)) } c.data (nextEpoch v.num) ps)) q.toNat n 0)) ∧
  (∀ (s : State) (q : BitVec 10) (n : Word) (code : Byte) (bundle : BitVec 17) (c : Cmd) (k b : Nat),
    cmd s q.toNat n = some c → c.phase = .unit → cOp c = 7 → pathFail c.data code.toNat bundle.toNat = some (k, b) →
    exec (.graphCheckDone q n code bundle) s = .next (refuseGraph s c (gCores c.data) k b (gsStatus k)))

/-! ## Gather programs -/

/-- A program whose generation is the fold's, for a context that is its request's, is accepted: it stands behind the
fold's others with the prefetch mode and depth in force, its context settles, and it is counted (R72, R89, R91). A
descriptor that breaks R70 sets DESC_BAD and ends its request, and so does a table that the request has not pinned or
that the fold does not hold (R70, R72; the two last are log entry 130). A stale generation is dropped and counted (R426),
a program for a context that is not its request's is discarded (log entry 131), and a fold in reset accepts nothing
(R424). Body words of a program that a reset of the fold has ended are counted with the stale ones (R426). Body words that land are kept up to the body's length; where the offsets are sound the indices that landed are
noted and the program goes on, and where they are not its request ends (R71, R73, R75). -/
def Obligations.ProgramsComplete : Prop :=
  (∀ (s : State) (f : Fin 8) (desc : Bytes) (im : Image) (img : Bool) (ep : Nat), gxHeld s f = false →
    pGen (slice desc 0 64) = (unit s (2 + f.val)).gen.toNat → (req s (pReq (slice desc 0 64))).isSome = true →
    (ctxAt (fold s f) (fld (slice desc 0 64) 0 1)).req = pReq (slice desc 0 64) →
    (ctxAt (fold s f) (fld (slice desc 0 64) 0 1)).st ≠ .free →
    (ctxAt (fold s f) (fld (slice desc 0 64) 0 1)).st ≠ .draining →
    pinnedIm s (pReq (slice desc 0 64)) (pTid (slice desc 0 64)) = some (im, img, ep) → bit (dMask im.desc) f = true →
    progOk (slice desc 0 64) (dDim im.desc) = true →
    exec (.programAccept f desc) s = .next (goOnPeers (cnt (setFold s f (settleCtx { updRel (fold s f)
        (pReq (slice desc 0 64)) (fun r => { r with keys := r.keys ++ [progKey (slice desc 0 64)] }) with
      progs := (fold s f).progs ++ [accepted s f (slice desc 0 64)], nextProg := (fold s f).nextProg + 1 }
      (fld (slice desc 0 64) 0 1))) (foldReg f aGxCntPrograms)) f im (pReq (slice desc 0 64)))) ∧
  (∀ (s : State) (f : Fin 8) (desc : Bytes) (im : Image) (img : Bool) (ep : Nat), gxHeld s f = false →
    pGen (slice desc 0 64) = (unit s (2 + f.val)).gen.toNat → (req s (pReq (slice desc 0 64))).isSome = true →
    (ctxAt (fold s f) (fld (slice desc 0 64) 0 1)).req = pReq (slice desc 0 64) →
    (ctxAt (fold s f) (fld (slice desc 0 64) 0 1)).st ≠ .free →
    (ctxAt (fold s f) (fld (slice desc 0 64) 0 1)).st ≠ .draining →
    (pinnedIm s (pReq (slice desc 0 64)) (pTid (slice desc 0 64)) = none ∨
      pinnedIm s (pReq (slice desc 0 64)) (pTid (slice desc 0 64)) = some (im, img, ep) ∧
        (progOk (slice desc 0 64) (dDim im.desc) = false ∨ bit (dMask im.desc) f = false)) →
    exec (.programAccept f desc) s =
      .next (foldEnds (rsetF s (foldReg f aGxGatherStat) 0 0 0 1) f (pReq (slice desc 0 64)) stBadField)) ∧
  (∀ (s : State) (f : Fin 8) (desc : Bytes), gxHeld s f = false →
    pGen (slice desc 0 64) = (unit s (2 + f.val)).gen.toNat →
    ((req s (pReq (slice desc 0 64))).isNone = true ∨
      (ctxAt (fold s f) (fld (slice desc 0 64) 0 1)).req ≠ pReq (slice desc 0 64) ∨
      (ctxAt (fold s f) (fld (slice desc 0 64) 0 1)).st = .free ∨
      (ctxAt (fold s f) (fld (slice desc 0 64) 0 1)).st = .draining) →
    exec (.programAccept f desc) s = .next s) ∧
  (∀ (s : State) (f : Fin 8) (desc : Bytes),
    pGen (slice desc 0 64) ≠ (unit s (2 + f.val)).gen.toNat →
    exec (.programAccept f desc) s = .next (cnt s aIgCntStale)) ∧
  (∀ (s : State) (f : Fin 8) (desc : Bytes), pGen (slice desc 0 64) = (unit s (2 + f.val)).gen.toNat →
    gxHeld s f = true → exec (.programAccept f desc) s = .next s) ∧
  (∀ (s : State) (f : Fin 8) (p : Nat) (body : List Word), (∀ q ∈ (fold s f).progs, q.id ≠ p) → p < (fold s f).bornAt →
    exec (.programBody f p body) s = .next (cnt s aIgCntStale)) ∧
  (∀ (s : State) (f : Fin 8) (p : Nat) (body : List Word) (q : Prog) (im : Image) (img : Bool) (ep : Nat),
    (fold s f).progs.find? (fun x => x.id == p) = some q → (ctxAt (fold s f) q.ctx).st ≠ .draining →
    offsOk q.desc ((q.body ++ body).take (bodyLen q.desc)) = true →
    pinnedIm s q.req (pTid q.desc) = some (im, img, ep) →
    exec (.programBody f p body) s = .next (goOn (((List.range
        (min (pNidx q.desc) (((q.body ++ body).take (bodyLen q.desc)).length - nOffs q.desc) -
          (q.body.length - nOffs q.desc))).map (· + (q.body.length - nOffs q.desc))).foldl
        (fun s i => noteIdx s f { q with body := (q.body ++ body).take (bodyLen q.desc) } im i)
        (updFold s f (fun x => updProg x p (fun _ => { q with body := (q.body ++ body).take (bodyLen q.desc) })))) f p)) ∧
  (∀ (s : State) (f : Fin 8) (p : Nat) (body : List Word) (q : Prog),
    (fold s f).progs.find? (fun x => x.id == p) = some q → (ctxAt (fold s f) q.ctx).st ≠ .draining →
    offsOk q.desc ((q.body ++ body).take (bodyLen q.desc)) = false →
    exec (.programBody f p body) s = .next (foldEnds (rsetF
      (updFold s f (fun x => updProg x p (fun _ => { q with body := (q.body ++ body).take (bodyLen q.desc) })))
      (foldReg f aGxGatherStat) 0 1 1 1) f q.req stBadLength))

/-- The read that stands first in the fold's service order is made, after the owner's check, until the position's own is
made; a read that the owner's check denies ends its request (R40, R79, R93, R94, R319). A partial slice of the present
generation is kept for its bag on the lead fold, the bag is written where it is the last one, and the program goes on
(R87). A program that is done raises the counter its GISSUE named, or leaves its LOOKUP one program less, which ends with
its last one (R96, R171, R270). What carries a stale generation is dropped and counted (R426). -/
def Obligations.GatherResultsComplete : Prop :=
  (∀ (s : State) (f : Fin 8) (p pos i n : Nat) (q : Prog) (bub : Bool), isUnread s f p pos = true →
    nextRead s f (fold s f).progs false = some (q, i, bub) → readBound (fold s f) = n + 1 →
    exec (.rowReadReturn f p pos) s = .next (readsTo n (takeRead s f q i bub) f p pos)) ∧
  (∀ (s : State) (f : Fin 8) (p pos i : Nat) (q : Prog) (im : Image) (img : Bool) (ep : Nat) (r : Req),
    isUnread s f p pos = true → nextRead s f (fold s f).progs false = some (q, i, false) →
    pinnedIm s q.req (pTid q.desc) = some (im, img, ep) → req s q.req = some r → ownerOk s im f r.cid r.world false = true →
    isUnread (goOn (readRow s f q im img ep i) f q.id) f p pos = false →
    exec (.rowReadReturn f p pos) s = .next (goOn (readRow s f q im img ep i) f q.id)) ∧
  (∀ (s : State) (f : Fin 8) (p pos i : Nat) (q : Prog) (im : Image) (img : Bool) (ep : Nat) (r : Req),
    isUnread s f p pos = true → nextRead s f (fold s f).progs false = some (q, i, false) →
    pinnedIm s q.req (pTid q.desc) = some (im, img, ep) → req s q.req = some r → ownerOk s im f r.cid r.world false = false →
    isUnread (foldEnds s f q.req stRegionDenied) f p pos = false →
    exec (.rowReadReturn f p pos) s = .next (foldEnds s f q.req stRegionDenied)) ∧
  (∀ (s : State) (f src : Fin 8) (p bag terms : Nat) (gen : Byte) (vals : List Word) (bad : Bool) (q : Prog) (im : Image)
    (img : Bool) (ep : Nat) (pt : Partial), gen = (unit s (2 + src.val)).gen →
    (fold s f).progs.find? (fun x => x.id == p) = some q → (ctxAt (fold s f) q.ctx).st ≠ .draining →
    (∀ t ∈ q.parts, ¬(t.bag = bag ∧ t.src = src.val)) → src ≠ f → pinnedIm s q.req (pTid q.desc) = some (im, img, ep) →
    pt = { bag := bag, src := src.val, terms := terms, vals := if terms = 0 then none else some vals, bad := bad } →
    exec (.partialSlice f p bag src gen terms vals bad) s = .next (goOn
      (if q.written.contains bag then updFold s f (fun x => updProg x p (fun _ => { q with parts := pt :: q.parts }))
       else finishBag (updFold s f (fun x => updProg x p (fun _ => { q with parts := pt :: q.parts }))) f
        { q with parts := pt :: q.parts } im bag) f p)) ∧
  (∀ (s : State) (f src : Fin 8) (p bag terms : Nat) (gen : Byte) (vals : List Word) (bad : Bool),
    gen ≠ (unit s (2 + src.val)).gen →
    exec (.partialSlice f p bag src gen terms vals bad) s = .next (cnt s aIgCntStale)) ∧
  (∀ (s : State) (f : Fin 8) (gen : Byte) (h : Half) (ctr : BitVec 5) (r : Req), gen = (unit s (2 + f.val)).gen →
    req s h = some r → r.kind ≠ .lookup → r.dueCtrs.contains ctr = true → r.done = false →
    (cslot (core s r.core) r.slot).req = h →
    exec (.sliceDone f gen h ctr) s =
      .next (bumpCtr (updReq s h (fun r => { r with dueCtrs := r.dueCtrs.erase ctr })) r.core r.slot ctr.toNat)) ∧
  (∀ (s : State) (f : Fin 8) (gen : Byte) (h : Half) (ctr : BitVec 5) (r : Req) (c : Cmd),
    gen = (unit s (2 + f.val)).gen → req s h = some r → r.kind = .lookup → cmd s r.q.toNat r.n = some c →
    c.phase = .running → r.finished + 1 < r.progs.length →
    exec (.sliceDone f gen h ctr) s = .next (updReq s h (fun _ => { r with finished := r.finished + 1 }))) ∧
  (∀ (s : State) (f : Fin 8) (gen : Byte) (h : Half) (ctr : BitVec 5) (r : Req) (c : Cmd),
    gen = (unit s (2 + f.val)).gen → req s h = some r → r.kind = .lookup → cmd s r.q.toNat r.n = some c →
    c.phase = .running → r.finished + 1 = r.progs.length →
    exec (.sliceDone f gen h ctr) s = .next (endLookup (updReq s h (fun _ => { r with finished := r.finished + 1 }))
      { r with finished := r.finished + 1 })) ∧
  (∀ (s : State) (f : Fin 8) (gen : Byte) (h : Half) (ctr : BitVec 5), gen ≠ (unit s (2 + f.val)).gen →
    exec (.sliceDone f gen h ctr) s = .next (cnt s aIgCntStale))

/-- A tile release raises the released tile number of its request and a dependence release lets one more of its programs
run; the contexts of the request settle and its programs go on (R91, R92). A drained context is free, its programs gone,
and is counted (R90). A decay period that ends advances the period number and the sweep visits every used entry (R43,
R45). An entry under migration flips, and dead aside slots of a table are freed, when partition 15 may run (R55, R65,
R353, R355). -/
def Obligations.GatherEventsComplete : Prop :=
  (∀ (s : State) (f : Fin 8) (h : Half) (tile : Word), (req s h).isSome = true →
    exec (.tileRelease f h tile) s = .next (goOnReq (updFold s f (fun x =>
      settleReq (updRel x h (fun r => { r with tile := max r.tile tile.toNat })) h)) f h)) ∧
  (∀ (s : State) (f : Fin 8) (h : Half), (req s h).isSome = true →
    exec (.dependenceRelease f h) s = .next (goOnReq (updFold s f (fun x =>
      settleReq (updRel x h (fun r => { r with deps := r.deps + 1 })) h)) f h)) ∧
  (∀ (s : State) (f : Fin 8) (ctx : Byte), (ctxAt (fold s f) ctx.toNat).st = .draining →
    exec (.contextDrained f ctx) s = .next (cnt (setFold s f { setCtx (fold s f) ctx.toNat {} with
      progs := (fold s f).progs.filter (fun p => p.ctx ≠ ctx.toNat) }) (foldReg f aGxCntDrained))) ∧
  (∀ (s : State) (f : Fin 8), rf s (foldReg f aGxPolicyCtl) 0 15 8 ≠ 0 →
    exec (.decayPeriodEnd f) s =
      .next (((dirUsed (fold (updFold s f (fun x => { x with period := x.period + 1 })) f)).map (·.1)).foldl
        (fun s k => sweepEntry s f k) (updFold s f (fun x => { x with period := x.period + 1 })))) ∧
  (∀ (s : State) (f : Fin 8) (way : Nat), (dirAt (fold s f) way).m = true → mayFm s f 15 = true →
    exec (.migrationFlip f way) s = .next (flipMig s f way)) ∧
  (∀ (s : State) (f : Fin 8) (tid : BitVec 12), mayFm s f 15 = true →
    exec (.asideFree f tid) s = .next (asideFree s f tid.toNat))

/-! ## Bundles of a core

Core `c` may issue: `readyB s c h` answers the state advanced to the cycle of issue, with the running slot `k` and its
registers `v`. A bundle with YIELD set issues after its yield point (R182). -/

/-- The bundles of slot C that only name their successor issue and take their place in the loop and branch rules: CNOP,
LOOP, BR, BRC and END (R158, R167, R179). -/
def Obligations.SequencingComplete : Prop :=
  (∀ (s u : State) (c : Core2) (h : Hdr) (k : Nat) (v : Slot), Issues s c h u k v →
    exec (.cnop c h) s = .next (issueB u c k v h false (seqNext v.loops v.pc) [])) ∧
  (∀ (s u : State) (c : Core2) (h : Hdr) (k : Nat) (v : Slot) (xa : BitVec 5) (body : BitVec 13) (cntv : BitVec 14),
    Issues s c h u k v → body ≠ 0 → v.loops.length < 4 → (if xa = 0 then cntv.toNat else xreg v xa.toNat) = 0 →
    exec (.loop c h xa body cntv) s =
      .next (issueB u c k v h false (seqNext v.loops (v.pc + BitVec.ofNat 17 body.toNat)) [])) ∧
  (∀ (s u : State) (c : Core2) (h : Hdr) (k : Nat) (v : Slot) (xa : BitVec 5) (body : BitVec 13) (cntv : BitVec 14) (n : Nat),
    Issues s c h u k v → body ≠ 0 → v.loops.length < 4 → n = (if xa = 0 then cntv.toNat else xreg v xa.toNat) → n ≠ 0 →
    exec (.loop c h xa body cntv) s = .next (issueB u c k v h false (v.pc + 1,
      { first := v.pc + 1, last := v.pc + BitVec.ofNat 17 body.toNat, left := BitVec.ofNat 32 n } :: v.loops) [])) ∧
  (∀ (s u : State) (c : Core2) (h : Hdr) (k : Nat) (v : Slot) (off : BitVec 18), Issues s c h u k v →
    exec (.br c h off) s = .next (issueB u c k v h true (brNext v.loops (v.pc + off.truncate 17)) [])) ∧
  (∀ (s u : State) (c : Core2) (h : Hdr) (k : Nat) (v : Slot) (cond : BitVec 3) (xa xb : BitVec 5) (off : BitVec 18),
    Issues s c h u k v → cond.toNat < 6 →
    condHolds cond (BitVec.ofNat 32 (xreg v xa.toNat)) (BitVec.ofNat 32 (xreg v xb.toNat)) = true →
    exec (.brc c h cond xa xb off) s = .next (issueB u c k v h true (brNext v.loops (v.pc + off.truncate 17)) [])) ∧
  (∀ (s u : State) (c : Core2) (h : Hdr) (k : Nat) (v : Slot) (cond : BitVec 3) (xa xb : BitVec 5) (off : BitVec 18),
    Issues s c h u k v → cond.toNat < 6 →
    condHolds cond (BitVec.ofNat 32 (xreg v xa.toNat)) (BitVec.ofNat 32 (xreg v xb.toNat)) = false →
    exec (.brc c h cond xa xb off) s = .next (issueB u c k v h false (seqNext v.loops v.pc) [])) ∧
  (∀ (s u : State) (c : Core2) (h : Hdr) (k : Nat) (v : Slot), Issues s c h u k v →
    exec (.endLaunch c h) s = .next (updCore (issueB u c k v h false (v.pc + 1, v.loops) []) c
      (fun x => cupdSlot x k (fun v => { v with atEnd := true }))))

/-- The bundles that write a register do so after their latency: ADDI, LUI and ALU after 1 cycle, MUL after 3, LDX after
4; STX writes a parameter word from 256 on after 1 (R159, R160, R167). -/
def Obligations.RegisterBundlesComplete : Prop :=
  (∀ (s u : State) (c : Core2) (h : Hdr) (k : Nat) (v : Slot) (xd xa : BitVec 5) (imm : BitVec 27), Issues s c h u k v →
    exec (.addi c h xd xa imm) s = .next (issueB u c k v h false (seqNext v.loops v.pc)
      [(1, .setReg k xd (BitVec.ofNat 32 (xreg v xa.toNat + (imm.signExtend 32).toNat)))])) ∧
  (∀ (s u : State) (c : Core2) (h : Hdr) (k : Nat) (v : Slot) (xd : BitVec 5) (imm : Half), Issues s c h u k v →
    exec (.lui c h xd imm) s = .next (issueB u c k v h false (seqNext v.loops v.pc)
      [(1, .setReg k xd (BitVec.ofNat 32 (imm.toNat * 65536)))])) ∧
  (∀ (s u : State) (c : Core2) (h : Hdr) (k : Nat) (v : Slot) (xd xa xb : BitVec 5) (fn : BitVec 4) (r : Word),
    Issues s c h u k v →
    aluFn fn (BitVec.ofNat 32 (xreg v xa.toNat)) (BitVec.ofNat 32 (xreg v xb.toNat)) = some r →
    exec (.alu c h xd xa xb fn) s = .next (issueB u c k v h false (seqNext v.loops v.pc)
      [(if fn = 8 then 3 else 1, .setReg k xd r)])) ∧
  (∀ (s u : State) (c : Core2) (h : Hdr) (k : Nat) (v : Slot) (xd xa : BitVec 5) (imm : BitVec 27), Issues s c h u k v →
    exec (.ldx c h xd xa imm) s = .next (issueB u c k v h false (seqNext v.loops v.pc)
      [(4, .setReg k xd (BitVec.ofNat 32 (parWord v (parOff v xa imm / 4))))])) ∧
  (∀ (s u : State) (c : Core2) (h : Hdr) (k : Nat) (v : Slot) (xa xb : BitVec 5) (imm : BitVec 27), Issues s c h u k v →
    256 ≤ parOff v xa imm / 4 →
    exec (.stx c h xa xb imm) s = .next (issueB u c k v h false (seqNext v.loops v.pc)
      [(1, .setPar k (parOff v xa imm / 4) (BitVec.ofNat 32 (xreg v xb.toNat)))])) ∧
  (∀ (s u : State) (c : Core2) (h : Hdr) (k : Nat) (v : Slot) (xa xb : BitVec 5) (imm : BitVec 27), Issues s c h u k v →
    parOff v xa imm / 4 < 256 →
    exec (.stx c h xa xb imm) s = .next (issueB u c k v h false (seqNext v.loops v.pc) []))

/-- WAIT issues where its counter has reached its target and holds its launch where it has not; a held WAIT of a launch that
has an end pending ends it. Only the same WAIT comes again in its hold. TRAP 0 and TRAP 1 end the launch with ST_BAD_FIELD
and ST_BAD_LENGTH when their bundle closes (R167, R177, R178, R181, R184). -/
def Obligations.WaitAndTrapComplete : Prop :=
  (∀ (s u : State) (c : Core2) (h : Hdr) (k : Nat) (v : Slot) (ctr xa : BitVec 5) (tgt : Half),
    readyB s c h true = (u, some (k, v)) → yieldGate h v = true → SameWait v ctr xa tgt →
    ctrReached (ctrOf v ctr.toNat) (if xa = 0 then tgt else BitVec.ofNat 16 (xreg v xa.toNat)) = true →
    exec (.wait c h ctr xa tgt) s = .next (issueB u c k v h false (seqNext v.loops v.pc) [])) ∧
  (∀ (s u : State) (c : Core2) (h : Hdr) (k : Nat) (v : Slot) (ctr xa : BitVec 5) (tgt t : Half),
    readyB s c h true = (u, some (k, v)) → SameWait v ctr xa tgt →
    t = (if xa = 0 then tgt else BitVec.ofNat 16 (xreg v xa.toNat)) →
    ctrReached (ctrOf v ctr.toNat) t = false → v.mustEnd = false →
    exec (.wait c h ctr xa tgt) s = .next (updCore u c (fun x => cupdSlot x k (fun v => { v with
      waitHeld := true, waitCtr := ctr, waitXa := xa, waitTgt := t, st := if h.yld then .held else .running })))) ∧
  (∀ (s u : State) (c : Core2) (h : Hdr) (k : Nat) (v : Slot) (ctr xa : BitVec 5) (tgt : Half),
    readyB s c h true = (u, some (k, v)) → SameWait v ctr xa tgt →
    ctrReached (ctrOf v ctr.toNat) (if xa = 0 then tgt else BitVec.ofNat 16 (xreg v xa.toNat)) = false → v.mustEnd = true →
    exec (.wait c h ctr xa tgt) s = .next (endSlot u c k)) ∧
  (∀ (s u : State) (c : Core2) (h : Hdr) (k : Nat) (v : Slot) (code : BitVec 2), Issues s c h u k v → code.toNat < 2 →
    exec (.trap c h code) s = .next (updCore (issueB u c k v h false (v.pc + 1, v.loops) []) c (fun x => { x with
      opened := x.opened.map (fun o => { o with ends := some (if code = 0 then stBadField else stBadLength) }) }))) ∧
  (∀ (s : State) (c : Core2) (o : OpenB) (st : Status), (core s c).opened = some o → o.ends = some st →
    closeB s c = endSlot (updCore (updCore s c (fun x => { cupdSlot x o.slot (fun v => { v with next := o.at_ + o.cost }) with
      opened := none, flight := x.flight ++ o.fl })) c (fun x => recExc x o.slot st o.at_ true)) c o.slot)

/-- What slot M of the open bundle does: nothing for MNOP; COPY and FILL one line a cycle, LDW and STW one word, each at
its cycle (R168, R170). -/
def Obligations.CorePortComplete : Prop :=
  (∀ (s : State) (c : Core2) (o : OpenB) (v : Slot), openSlots s c = some (o, v) → o.m = false →
    exec (.mnop c) s = .next (takeM s c)) ∧
  (∀ (s : State) (c : Core2) (o : OpenB) (v : Slot) (sa sb : Scr) (lines : BitVec 12), openSlots s c = some (o, v) →
    o.m = false → (∀ i ≤ lines.toNat, (lineAddr v sa i false).isSome = true ∧ (lineAddr v sb i true).isSome = true) →
    exec (.copy c sa sb lines) s = .next ((List.range (lines.toNat + 1)).foldl (fun s i => addFlight s c
      { due := o.at_ + 2 + i, reads := true, mav := none
        act := .copyLine o.slot (lineAddr v sa i false) (lineAddr v sb i true) }) (takeM s c))) ∧
  (∀ (s : State) (c : Core2) (o : OpenB) (v : Slot) (sb : Scr) (lines : BitVec 12) (a : Nat → Nat),
    openSlots s c = some (o, v) → o.m = false → (∀ i ≤ lines.toNat, lineAddr v sb i true = some (a i)) →
    exec (.fill c sb lines) s = .next ((List.range (lines.toNat + 1)).foldl (fun s i => addFlight s c
      { due := o.at_ + 3 + i, reads := false, mav := none
        act := .putSpan (some o.slot) (a i) { data := List.replicate 128 0 } }) (takeM s c))) ∧
  (∀ (s : State) (c : Core2) (o : OpenB) (v : Slot) (sa : Scr) (xd : BitVec 5) (a : Nat), openSlots s c = some (o, v) →
    o.m = false → wordAddr v sa false = some a →
    exec (.ldw c sa xd) s = .next (addFlight (takeM s c) c
      { due := o.at_ + 2, reads := true, mav := none, act := .loadWord o.slot xd (some a) })) ∧
  (∀ (s : State) (c : Core2) (o : OpenB) (v : Slot) (sb : Scr) (xs : BitVec 5) (a : Nat), openSlots s c = some (o, v) →
    o.m = false → wordAddr v sb true = some a →
    exec (.stw c sb xs) s = .next (addFlight (takeM s c) c
      { due := o.at_ + 3, reads := false, mav := none, act := .putSpan (some o.slot) a { data := toLE 4 (xreg v xs.toNat) } }))

/-- What slot M puts into the issue queue: a program with its descriptor completed for each fold of its table, with NIDX
read from the offsets under NIDX_FROM_BODY and the body following the last one's under CHAIN; a release; a collective of
each kind; an output range (R171 to R174, R380 to R382). -/
def Obligations.IssueQueueComplete : Prop :=
  (∀ (s : State) (c : Core2) (o : OpenB) (v : Slot) (sa sb : Scr) (ctr : BitVec 5) (nfb chain : Bool) (r : Req)
    (da bw bo na a b n : Nat) (d0 d : Bytes) (im : Image) (img : Bool) (ep : Nat), QueuesM s c o v → req s v.req = some r →
    winAddr v sa.win.toNat (extOff v sa) 64 false = some da → d0 = (scrRead (core s c) da 64).data →
    bodyAt v sb chain = some (bw, bo) →
    (nfb = true → pLayout d0 = false ∧ winAddr v bw (bo + 4 * pBags d0) 4 false = some na) →
    d = (if nfb then d0.take 12 ++ (scrRead (core s c) na 4).data ++ d0.drop 16 else d0) →
    n = 4 * bodyLen d → pinnedIm s v.req (pTid d) = some (im, img, ep) →
    progOk (sentDesc s r d 0 0 (pDest d) c) (dDim im.desc) = true →
    (∀ f ∈ dFolds im.desc, (physCtx r f (fld d 0 1)).isSome = true) →
    sAddr v (pDest d) ((pBags d - 1) * pStride d + sliceLen d (dDim im.desc)) true = some a →
    winAddr v bw bo n false = some b → (scrRead (core s c) da 64).hard = false → (scrRead (core s c) b n).hard = false →
    exec (.gissue c sa sb ctr nfb chain) s = .next (putQ (updCore (takeM s c) c
      (fun x => cupdSlot x o.slot (fun v => { v with chain := some (bw * 2 ^ 32 + bo + n) }))) c (.program v.req
        ((dFolds im.desc).map (fun f => (f, sentDesc s r d f ((physCtx r f (fld d 0 1)).getD 0) a c)))
        (wordsOf (n / 4) (scrRead (core s c) b n).data) ctr))) ∧
  (∀ (s : State) (c : Core2) (o : OpenB) (v : Slot) (fmask : Byte) (dep : Bool) (xt : BitVec 5), QueuesM s c o v →
    exec (.grel c fmask dep xt) s =
      .next (putQ (takeM s c) c (.rel v.req fmask dep (BitVec.ofNat 32 (xreg v xt.toNat))))) ∧
  (∀ (s : State) (c : Core2) (o : OpenB) (v : Slot) (sa : Scr) (ctr : BitVec 5) (lines : BitVec 12) (seg : BitVec 4)
    (a : Nat), QueuesM s c o v → winAddr v sa.win.toNat (extOff v sa) (128 * (lines.toNat + 1)) false = some a →
    exec (.output c sa ctr lines seg) s =
      .next (putQ (takeM s c) c (.out v.req a (lines.toNat + 1) seg.toNat ctr))) ∧
  (∀ (s : State) (c : Core2) (o : OpenB) (v : Slot) (sa : Scr) (ctr : BitVec 5) (d : Bytes) (r : Req) (sr ds : Nat),
    CollReady s c o v sa 1 d r sr ds →
    exec (.allgather c sa ctr) s = .next (collQueued s c v (newColl s c o v ctr 1 d r sr ds))) ∧
  (∀ (s : State) (c : Core2) (o : OpenB) (v : Slot) (sa : Scr) (ctr : BitVec 5) (d : Bytes) (r : Req) (sr ds : Nat),
    CollReady s c o v sa 2 d r sr ds →
    exec (.dcollPut c sa ctr) s = .next (collQueued s c v (newColl s c o v ctr 2 d r sr ds))) ∧
  (∀ (s : State) (c : Core2) (o : OpenB) (v : Slot) (sa : Scr) (ctr : BitVec 5) (d : Bytes) (r : Req) (sr ds : Nat),
    CollReady s c o v sa 3 d r sr ds →
    exec (.dcollGet c sa ctr) s = .next (collQueued s c v (newColl s c o v ctr 3 d r sr ds))) ∧
  (∀ (s : State) (c : Core2) (o : OpenB) (v : Slot) (sa : Scr) (ctr : BitVec 5) (d : Bytes) (r : Req) (sr ds : Nat),
    CollReady s c o v sa 4 d r sr ds →
    exec (.barrier c sa ctr) s = .next (collQueued s c v (newColl s c o v ctr 4 d r sr ds)))

/-- Slots A and V: nothing for ANOP and VNOP; MMA, ACLR and the vector operations start at their cycle of the open
bundle and are counted (R190, R191, R198, R207, R210, R212, R213). -/
def Obligations.EnginesComplete : Prop :=
  (∀ (s : State) (c : Core2), exec (.anop c) s = .next (takeA s c)) ∧
  (∀ (s : State) (c : Core2) (o : OpenB) (v : Slot) (set : BitVec 2), openSlots s c = some (o, v) → o.a = false →
    exec (.aclr c set) s = .next (cnt (updCore (addOpen (takeA s c) c
      { due := o.at_ + 10, reads := false, mav := some o.slot, act := .clearAcc set.toNat }) c (fun x => { x with
        maRun := x.maRun ++ [(set.toNat, v.pace, o.at_ + 2, o.at_ + 10)] })) (coreReg c aMaCntInstr))) ∧
  (∀ (s : State) (c : Core2) (o : OpenB) (v : Slot) (sd : Scr) (xw xx : BitVec 5) (set : BitVec 2) (zero : Bool) (j : MaJob),
    openSlots s c = some (o, v) → o.a = false → (readDesc s c v sd).2 = false →
    j = maJob o.slot v o.at_ o.pc set.toNat zero (xreg v xw.toNat) (xreg v xx.toNat) (readDesc s c v sd).1 →
    maComb j.w j.x = true → maN j ≠ 0 → j.kb ≠ 0 →
    exec (.mma c sd xw xx set zero) s = .next (cnt (updCore (addOpen
      (noteDesc (takeA s c) c o v (readDesc s c v sd)) c
      { due := o.at_ + 2, reads := true, mav := some o.slot, act := .maFetch j }) c (fun x => { x with
        maRun := x.maRun ++ [(set.toNat, v.pace, o.at_ + 2, o.at_ + 2 + j.occ)] })) (coreReg c aMaCntInstr))) ∧
  (∀ (s : State) (c : Core2), exec (.vnop c) s = .next (takeV s c)) ∧
  (∀ (s : State) (c : Core2) (o : OpenB) (v : Slot) (sd : Scr) (xo : BitVec 5) (fn act : BitVec 4) (rule : Bool)
    (imm : Half) (j : VeJob), StartsV s c o v sd xo 1 fn act rule imm j →
    exec (.vew c sd xo fn act rule imm) s = .next (startedV s c o v sd 1 j)) ∧
  (∀ (s : State) (c : Core2) (o : OpenB) (v : Slot) (sd : Scr) (xo : BitVec 5) (fn act : BitVec 4) (rule : Bool)
    (imm : Half) (j : VeJob), StartsV s c o v sd xo 2 fn act rule imm j →
    exec (.vscan c sd xo fn act rule imm) s = .next (startedV s c o v sd 2 j)) ∧
  (∀ (s : State) (c : Core2) (o : OpenB) (v : Slot) (sd : Scr) (xo : BitVec 5) (fn act : BitVec 4) (rule : Bool)
    (imm : Half) (j : VeJob), StartsV s c o v sd xo 3 fn act rule imm j →
    exec (.vred c sd xo fn act rule imm) s = .next (startedV s c o v sd 3 j))

/-! ## Events of requests, transfers and completions -/

/-- A zeroed window lets the launch issue; a segment whose turn has come, the inline ones first, is written into window 1, its bytes join the input
digest in the order of the input map, and counter 0 rises by the segments that this completes; the head of an issue queue
is sent where no gather engine that is being reset holds it, a program only while its request's epochs are not retired; an
output range is read, poison noted, and appended to its segment, and its counter rises (R57, R171 to R176, R231, R239,
R268, R269, R407, R424). -/
def Obligations.LaunchEventsComplete : Prop :=
  (∀ (s : State) (c : Core2) (slot : Fin 4), (cslot (core s c) slot).st ≠ .free → (cslot (core s c) slot).zeroed = false →
    slotWin (cslot (core s c) slot) 1 = none →
    exec (.window1Zeroed c slot) s =
      .next (wakeCore (updCore s c (fun x => cupdSlot x slot (fun v => { v with zeroed := true }))) c)) ∧
  (∀ (s : State) (c : Core2) (slot : Fin 4) (w : Win), (cslot (core s c) slot).st ≠ .free →
    (cslot (core s c) slot).zeroed = false → slotWin (cslot (core s c) slot) 1 = some w →
    exec (.window1Zeroed c slot) s = .next (wakeCore (updCore s c (fun x =>
      cupdSlot (scrZero x w.base w.size) slot (fun v => { v with zeroed := true }))) c)) ∧
  (∀ (s : State) (h : Half) (seg : Fin 16) (r : Req) (t : Xfer) (ver : Version) (w : Win) (old new : Nat), req s h = some r →
    s.fe.xfers.find? (fun t => t.kind == .segment h seg.val) = some t → t.left = 0 → t.pieces = [] →
    (∀ u ∈ s.fe.xfers, (∃ k, u.kind = .segment h k) → if isInline t.addr.toNat = true then
      isInline u.addr.toNat = true → t.id ≤ u.id else isInline u.addr.toNat = false ∧ t.id ≤ u.id) →
    (cslot (core s r.core) r.slot).req = h → (cslot (core s r.core) r.slot).zeroed = true →
    (cslot (core s r.core) r.slot).st ≠ .free → (cslot (core s r.core) r.slot).st ≠ .ending →
    verOf s r.gid r.ver = some ver → slotWin (cslot (core s r.core) r.slot) 1 = some w →
    old = prefixOf r.landed r.segs.length → new = prefixOf (seg.val :: r.landed) r.segs.length →
    ∃ u, u = updCore s r.core (fun x => extPut x (w.base + gSegOff ver.image seg)
        { data := t.data, marks := t.marks }) ∧
      exec (.inputSegmentLands h seg) s = .next ((List.range (new - old)).foldl (fun s _ => bumpCtr s r.core r.slot 0)
        (updReq (dropXfer u t.id) h (fun x => { x with
          landed := seg.val :: r.landed
          inMsg := x.inMsg ++ ((List.range new).filter (fun i => old ≤ i)).flatMap (fun i =>
            toLE 4 (segBytes u r i (seg.val, t.data)).length ++ segBytes u r i (seg.val, t.data)) })))) ∧
  (∀ (s : State) (c : Core2) (h : Half) (copies : List (Nat × Bytes)) (body : List Word) (ctr : BitVec 5) (es : List IssueE),
    (core s c).issueQ = .program h copies body ctr :: es → (∀ e ∈ copies, gxHeld s e.1 = false) →
    (∀ r, req s h = some r → r.retired = false) →
    exec (.issueQueueFree c) s = .next (copies.foldl (fun s e => emit s (.program e.1 e.2 body))
      (updReq (updCore s c (fun x => { x with issueQ := es, heldFull := false })) h
        (fun r => { r with dueCtrs := r.dueCtrs ++ [ctr] })))) ∧
  (∀ (s : State) (c : Core2) (h : Half) (copies : List (Nat × Bytes)) (body : List Word) (ctr : BitVec 5) (es : List IssueE)
    (r : Req), (core s c).issueQ = .program h copies body ctr :: es → (∀ e ∈ copies, gxHeld s e.1 = false) →
    req s h = some r → r.retired = true →
    exec (.issueQueueFree c) s = .next (updCore s c (fun x => { x with issueQ := es, heldFull := false }))) ∧
  (∀ (s : State) (c : Core2) (h : Half) (folds : Byte) (dep : Bool) (v : Word) (es : List IssueE),
    (core s c).issueQ = .rel h folds dep v :: es →
    exec (.issueQueueFree c) s = .next ((bitsSet 8 folds.toNat).foldl (fun s f => emit s (.fold f
        (if dep then .dependenceRelease (BitVec.ofNat 3 f).toFin h else .tileRelease (BitVec.ofNat 3 f).toFin h v)))
      (updCore s c (fun x => { x with issueQ := es, heldFull := false })))) ∧
  (∀ (s : State) (c : Core2) (h idx : Half) (es : List IssueE), (core s c).issueQ = .coll h idx :: es →
    exec (.issueQueueFree c) s = .next (startColl (updCore s c (fun x => { x with issueQ := es, heldFull := false })) h idx)) ∧
  (∀ (s : State) (c : Core2) (h : Half) (a lines seg : Nat) (ctr : BitVec 5) (es : List IssueE),
    (core s c).issueQ = .out h a lines seg ctr :: es →
    exec (.issueQueueFree c) s = .next (updReq (updCore s c (fun x => { x with issueQ := es, heldFull := false })) h
      (fun r => { r with ranges := r.ranges ++ [(a, 128 * lines, seg, ctr)] }))) ∧
  (∀ (s : State) (h : Half) (r : Req) (a n seg : Nat) (ctr : BitVec 5) (rest : List (Nat × Nat × Nat × BitVec 5)) (o : OutSeg),
    req s h = some r → r.ranges = (a, n, seg, ctr) :: rest → r.outs[seg]? = some o → o.off + n ≤ o.cap.toNat →
    r.reported = false → r.retired = false → r.done = false → (cslot (core s r.core) r.slot).req = h →
    ∃ u, exec (.outputRangeRead h) s = .next (bumpCtr (newXfer u (.result h seg) false r.q r.n (o.addr.toNat + o.off) n
        (rangeBytes (core s r.core) a n)).1 r.core r.slot ctr.toNat) ∧
      u = updReq (if (scrRead (core s r.core) a n).hard then markPoison s h else s) h (fun x => { x with
        ranges := rest, outMsg := x.outMsg ++ toLE 1 seg ++ toLE 4 n ++ rdN (core s r.core).scratch a n
        outs := x.outs.zipIdx.map (fun e => if e.2 = seg then { e.1 with off := e.1.off + n } else e.1) }))

/-- The launch that runs at a yield point: its engine work is written, its engine state cleared, and a launch is chosen; one
with an end pending ends at once, and one held for a full issue queue, or by a WAIT with YLD 0, is at no yield point (R175,
R178, R181 to R183). An end
request ends its launch at a hold, or where it does not issue, and marks it otherwise (R181). A launch that is ending, or
whose END finds nothing queued, every range read and every input segment landed (log entry 142, the model's choice), does
what it has under way and ends with its status, tally and record, its slot free, or goes to wait for its replay (R179, R226,
R233, R238 to R243, R408 to R411). A collective that is complete raises its counter (R381, R382). -/
def Obligations.EndEventsComplete : Prop :=
  (∀ (s : State) (c : Core2), (core (closeB s c) c).run = none →
    exec (.yieldPoint c) s = .next (chooseRun (closeB s c) c)) ∧
  (∀ (s u : State) (c : Core2) (k : Nat), u = closeB s c → (core u c).run = some k →
    ((core u c).heldFull = true ∨ InHold (cslot (core u c) k)) → exec (.yieldPoint c) s = .next u) ∧
  (∀ (s u : State) (c : Core2) (k : Nat), u = closeB s c → (core u c).run = some k → (core u c).heldFull = false →
    ¬InHold (cslot (core u c) k) → (cslot (core u c) k).mustEnd = true → (cslot (core u c) k).st ≠ .ending →
    exec (.yieldPoint c) s = .next (endSlot u c k)) ∧
  (∀ (s u w : State) (c : Core2) (k : Nat), u = closeB s c → (core u c).run = some k → (core u c).heldFull = false →
    ¬InHold (cslot (core u c) k) → (cslot (core u c) k).mustEnd = false → w = runCore u c (mavDone (core u c) k) →
    (cslot (core w c) k).st ≠ .ending → (cslot (core w c) k).mustEnd = false →
    exec (.yieldPoint c) s = .next (chooseRun (updCore w c (fun x => cupdSlot (clearMav x) k (fun v => { v with
      yielded := true, atYield := false }))) c)) ∧
  (∀ (s : State) (h : Half) (r : Req), req s h = some r → r.kind = .launch → r.endSt.isSome = true →
    (cslot (core s r.core) r.slot).req = h → (cslot (core s r.core) r.slot).st = .running →
    (cslot (core s r.core) r.slot).atEnd = false → atHold (core s r.core) r.slot = false →
    exec (.endRequest h) s = .next (updCore s r.core (fun x => cupdSlot x r.slot (fun v => { v with mustEnd := true })))) ∧
  (∀ (s : State) (h : Half) (r : Req), req s h = some r → r.kind = .launch → r.endSt.isSome = true →
    (cslot (core s r.core) r.slot).req = h → (cslot (core s r.core) r.slot).st ≠ .free →
    (cslot (core s r.core) r.slot).st ≠ .ending →
    ((cslot (core s r.core) r.slot).st ≠ .running ∨ (cslot (core s r.core) r.slot).atEnd = true ∨
      atHold (core s r.core) r.slot = true) →
    exec (.endRequest h) s =
      .next (endSlot (updCore s r.core (fun x => cupdSlot x r.slot (fun v => { v with mustEnd := true }))) r.core r.slot)) ∧
  (∀ (s t : State) (h : Half) (r : Req) (v : Slot) (byEnd : Bool) (w : State × Status), LaunchDone s h t r v byEnd →
    ¬(r.endSt.isNone = true ∧ v.endExc = 0 ∧ r.reported = true ∧ r.replay = 0 ∧ r.rmode ≠ 0) →
    w = writeTally t r (match r.outs.head? with | some o => o.off | none => 0) (launchStatus r v) →
    ∃ u, u = endColls (dropIssue (dropSegs (drainReq (noteReplay w.1 r w.2) h) h) h) r byEnd ∧
      exec (.launchEnd h) s = .next (settle (sweepVersions (finish (updReq
        (freeSlot (if byEnd then u else cnt u (coreReg r.core aSqCntEnded)) r.core r.slot) h (fun r' => { r' with
          done := true, ranges := [], dueCtrs := [], replay := if r'.replay = 2 then 3 else r'.replay })) r.q.toNat r.n w.2)))) ∧
  (∀ (s t : State) (h : Half) (r : Req) (v : Slot) (byEnd : Bool), LaunchDone s h t r v byEnd → r.endSt = none →
    v.endExc = 0 → r.reported = true → r.replay = 0 → r.rmode ≠ 0 → exec (.launchEnd h) s = .next (toReplay t r)) ∧
  (∀ (s : State) (h idx : Half) (c : Coll), collOf s h idx = some c → collDone s c = true → c.risen = false → c.kind = 2 →
    (∃ r, req s h = some r ∧ r.done = false ∧ r.core = c.core ∧ r.slot = c.slot ∧ (cslot (core s c.core) c.slot).req = h) →
    exec (.collectiveDone h idx) s =
      .next (bumpCtr (cnt (updColl s h idx (fun c => { c with risen := true })) aDlCntColl) c.core c.slot c.ctr.toNat)) ∧
  (∀ (s : State) (h idx : Half) (c : Coll), collOf s h idx = some c → collDone s c = true → c.risen = false → c.kind ≠ 2 →
    (∃ r, req s h = some r ∧ r.done = false ∧ r.core = c.core ∧ r.slot = c.slot ∧ (cslot (core s c.core) c.slot).req = h) →
    ∃ u, u = cnt (updColl s h idx (fun c => { c with risen := true })) aDlCntColl ∧
      exec (.collectiveDone h idx) s = .next (bumpCtr { u with dl := { u.dl with
        colls := u.dl.colls.filter (fun d => !(d.req == h && d.index == idx)) } } c.core c.slot c.ctr.toNat))

/-- A piece whose turn has come is issued, a held piece is walked again when its way is free and at last faults, a peer's
with a record and a NAK. A READ that is complete drops its transfer and gives its data to its command, an input segment's
waits to land, and a poisoned one ends its command. A completion is posted in the order of the endings, after the results,
with its counts, and the queues go on (R24, R258, R268, R275, R322, R329, R330, R407, R414). -/
def Obligations.TransfersComplete : Prop :=
  (∀ (s : State) (x : Nat) (t : Xfer), xfer s x = some t → mayIssue s t = true →
    exec (.dmaPieceIssue x) s = .next (nextPiece s t false)) ∧
  (∀ (s : State) (x : Nat) (t : Xfer), xfer s x = some t → t.held.isSome = true → (t.kind = .peer ∨ wayFree s t true = true) →
    exec (.faultWaitRewalk x) s = .next (nextPiece s t true)) ∧
  (∀ (s : State) (x : Nat) (t : Xfer) (h : Byte), xfer s x = some t → t.held = some h → t.kind ≠ .peer →
    exec (.faultWaitExpire x) s = .next (xlatFault s t (h.toNat % 16) (h.toNat / 16))) ∧
  (∀ (s : State) (x i : Nat) (t : Xfer) (h : Byte), xfer s x = some t → t.held = some h → t.kind = .peer →
    i = (t.pieces.head?.map (·.toNat)).getD 0 →
    exec (.faultWaitExpire x) s = .next (nakAccess (dropXfer (fqWrite (cnt s aXlCntFault)
      { status := stXlatFault.toNat, kind := 1, cause := h.toNat % 16, level := h.toNat / 16, source := xSource t
        cid := t.cid.toNat, secure := false, addr := t.addr.toNat, who := i }) x) i t.psn)) ∧
  (∀ (s : State) (x : Nat) (t : Xfer) (data : Bytes), xfer s x = some t → t.read = true → t.left = 0 → t.pieces ≠ [] →
    piecesUp s t = true → t.kind ≠ .ring → t.kind ≠ .peer → (∀ h k, t.kind ≠ .segment h k) → (∀ i, t.kind ≠ .body i) →
    t.marks = [] →
    exec (.dmaReadLands x data) s = .next (giveCmd (dropXfer (readAnswered s t) x) t.q t.n t.kind
      (mergeData (t.addr.toNat - t.data.length) t.pieces t.data data))) ∧
  (∀ (s : State) (x : Nat) (t : Xfer) (data : Bytes), xfer s x = some t → t.read = true → t.left = 0 → t.pieces ≠ [] →
    piecesUp s t = true → t.kind ≠ .ring → t.kind ≠ .peer → (∀ h k, t.kind ≠ .segment h k) → t.marks ≠ [] →
    exec (.dmaReadLands x data) s = .next (abortCmd (dropXfer (readAnswered s t) x) t.q.toNat t.n stPoison)) ∧
  (∀ (s : State) (x k : Nat) (h : Half) (t : Xfer) (data : Bytes), xfer s x = some t → t.read = true → t.left = 0 →
    t.pieces ≠ [] → piecesUp s t = true → t.kind = .segment h k →
    exec (.dmaReadLands x data) s = .next (updXfer (readAnswered s t) x (fun t' => { t' with
      data := mergeData (t.addr.toNat - t.data.length) t.pieces t.data data, pieces := [] }))) ∧
  (∀ (s : State) (x : Nat) (t : Xfer) (data : Bytes), xfer s x = some t → t.read = true → t.left ≠ 0 → t.pieces ≠ [] →
    piecesUp s t = true → t.kind ≠ .ring → t.kind ≠ .peer →
    exec (.dmaReadLands x data) s = .next (updXfer (readAnswered s t) x (fun t' => { t' with
      data := mergeData (t.addr.toNat - t.data.length) t.pieces t.data data
      pieces := t'.pieces.map (fun _ => localPiece) }))) ∧
  (∀ (s : State) (q : BitVec 10) (n : Word) (c : Cmd), firstEnded s q.toNat = some c → c.n = n → resultsDone s c = true →
    (queue s q.toNat).st ≠ .disabled →
    ∃ r u v w, r = newXfer s .completion false q n ((queue s q.toNat).cq.toNat +
          32 * ((queue s q.toNat).posted.toNat % 2 ^ (queue s q.toNat).log2)) 32 (cplBytes s c) ∧
      u = noteStatus (updQueue (cnt r.1 aFeCntCpl) q.toNat (fun u => { u with posted := u.posted + 1 })) q.toNat n c.status c.tagNs ∧
      v = (if c.status = stPoison then cnt u aIgCntPoison
        else if c.status = stReplayMismatch then cnt u aIgCntReplayFail else u) ∧
      w = dropCmd (if c.handle = 0 then v else releaseReq v c.handle) q.toNat n ∧
      exec (.completionPost q n) s = .next (resume (settle (match xfer w r.2 with
        | some t => if mayIssue w t then issuePiece w t false else w
        | none => w))))

/-! ## Drove links and the group -/

/-- A flit whose CRC holds and whose SEQ is the next is accepted, its acknowledgement taken and its own sent, and it is
forwarded where it is for another part; any other SEQ, an uncorrected error and a wrong CRC are answered with a NAK; an idle
flit only acknowledges, and a NAK flit makes the sender resend (R365, R366, R371). A NAK or a timeout resends from the
retry buffer (R366). Training that ends brings a link up, a second failure in a row makes it FAILED, and a loss of lock
sends it to training (R367, R368). RETRAIN takes a FAILED link back to training, ENABLE starts a link that is DOWN once the
part has started its links and clearing it takes the link DOWN, and the part ID is taken while no link is UP (R367, R370,
R399, R467). -/
def Obligations.LinksComplete : Prop :=
  (∀ (s u w : State) (l : Fin 32) (b : Bytes) (crc : Word) (corrected : Bool), (link s l).st = .up → flitCrcOk b crc = true →
    ((flitOf b).kind = 1 ∨ (flitOf b).kind = 2) → (flitOf b).seq = (link s l).rxSeq →
    u = cnt (updLink (if corrected then cnt s aDlLinkCntFec l else s) l (fun k => { k with rxSeq := k.rxSeq + 1 }))
      aDlLinkCntRx l → w = (if (flitOf b).ackv then ackFlits u l (flitOf b).ack else u) →
    exec (.flitReceive l b crc true corrected) s = .next (sendIdle
      (if (flitOf b).dst.toNat = myId s then w
       else sendFlit (if (routeTo w (flitOf b).dst.toNat).isSome then cnt w aDlCntFwd else w) (flitOf b)) l)) ∧
  (∀ (s : State) (l : Fin 32) (b : Bytes) (crc : Word), (link s l).st = .up → flitCrcOk b crc = true →
    ((flitOf b).kind = 1 ∨ (flitOf b).kind = 2) → (flitOf b).seq ≠ (link s l).rxSeq →
    exec (.flitReceive l b crc true false) s = .next (sendNak s l)) ∧
  (∀ (s : State) (l : Fin 32) (b : Bytes) (crc : Word) (fec : Bool), (link s l).st = .up → flitCrcOk b crc = false →
    exec (.flitReceive l b crc fec false) s = .next (sendNak (cnt s aDlLinkCntCrc l) l)) ∧
  (∀ (s : State) (l : Fin 32) (b : Bytes) (crc : Word), (link s l).st = .up → flitCrcOk b crc = true → (flitOf b).kind = 0 →
    exec (.flitReceive l b crc true false) s = .next (if (flitOf b).ackv then ackFlits (cnt s aDlLinkCntRx l) l (flitOf b).ack
      else cnt s aDlLinkCntRx l)) ∧
  (∀ (s : State) (l : Fin 32) (b : Bytes) (crc : Word), (link s l).st = .up → flitCrcOk b crc = true → (flitOf b).kind = 3 →
    exec (.flitReceive l b crc true false) s = .next (resend (ackFlits (cnt s aDlLinkCntRx l) l ((flitOf b).ack - 1)) l)) ∧
  (∀ (s : State) (l : Fin 32) (seq : BitVec 12), exec (.droveNak l seq) s = .next (resend (ackFlits s l (seq - 1)) l)) ∧
  (∀ (s : State) (l : Fin 32), exec (.flitAckTimeout l) s = .next (resend s l)) ∧
  (∀ (s : State) (l : Fin 32) (nbr : BitVec 12) (nlink : BitVec 5), (link s l).st = .training →
    exec (.linkTrainingDone l nbr nlink) s =
      .next (comeUp (updLink s l (fun k => { k with trained := true, nbr := nbr, nlink := nlink, fails := 0 })) l)) ∧
  (∀ (s : State) (l : Fin 32), (link s l).st = .training →
    exec (.linkTrainingFail l) s = .next (setLink s l { link s l with
      fails := (link s l).fails + 1, trained := false, st := if 1 ≤ (link s l).fails then .failed else .training })) ∧
  (∀ (s : State) (l : Fin 32), (link s l).st = .up → exec (.linkLossOfLock l) s = .next (leaveUp s l .training)) ∧
  (∀ (s : State) (a : Acc) (v : Word) (l : Nat), mayAccess s a = true → a.secure = true → bit v.toNat 0 = true →
    bit v.toNat 1 = true → l = selIx s a.who aDlLinkSel → (link s l).st = .failed →
    exec (.dlLinkRetrain a v) s = .next (setLink (rsetF s aDlLinkCtl l 0 0 1) l { link s l with
      st := .training, fails := 0, trained := false })) ∧
  (∀ (s : State) (a : Acc) (v : Word) (l : Nat), mayAccess s a = true → a.secure = true → bit v.toNat 0 = true →
    bit v.toNat 1 = false → l = selIx s a.who aDlLinkSel → (link s l).st = .down →
    dlRuns (rsetF s aDlLinkCtl l 0 0 1) = true →
    exec (.linkEnable a v) s = .next (setLink (rsetF s aDlLinkCtl l 0 0 1) l { link s l with
      st := .training, trained := false, fails := 0 })) ∧
  (∀ (s : State) (a : Acc) (v : Word) (l : Nat), mayAccess s a = true → a.secure = true → bit v.toNat 0 = false →
    bit v.toNat 1 = false → l = selIx s a.who aDlLinkSel → (link s l).st ≠ .down →
    exec (.linkEnable a v) s = .next (leaveUp (rsetF s aDlLinkCtl l 0 0 0) l .down)) ∧
  (∀ (s : State) (a : Acc) (v : Word), mayAccess s a = true → a.secure = true → (∀ e ∈ s.dl.links, e.2.st ≠ .up) →
    exec (.dlPartId a v) s = .next ((List.range 32).foldl comeUp (rsetF s aDlPartId 0 11 0 v.toNat)))

/-- The leader answers a PIN_REQ when a record can be had, keeps it waiting where none can, and turns it away without a
group; a PIN gives its epochs, pinned, to the command that asked, and ends it where one of them is retired; the leader's
mirror keeps a record until every member has arrived; a record that times out closes, and the leader releases what no
record names any more; a RELEASE drops the hold; and ABANDON ends the command that waits for its PIN, or the launch that
runs (R57, R377, R378, R383, R387, R388). -/
def Obligations.GroupRequestsComplete : Prop :=
  (∀ (s : State) (src : BitVec 12) (key : Word) (tids : List (BitVec 12)), s.dl.dissolved = false → grpOn s = true →
    leader s = myId s → pinRoom s key = true →
    exec (.pinReq src key tids) s = .next (servePins (answerPin s src key tids))) ∧
  (∀ (s : State) (src : BitVec 12) (key : Word) (tids : List (BitVec 12)), s.dl.dissolved = false → grpOn s = true →
    leader s = myId s → pinRoom s key = false →
    exec (.pinReq src key tids) s =
      .next { s with dl := { s.dl with waitingPins := s.dl.waitingPins ++ [(src, key, tids)] } }) ∧
  (∀ (s : State) (src : BitVec 12) (key : Word) (tids : List (BitVec 12)), (s.dl.dissolved = true ∨ grpOn s = false) →
    exec (.pinReq src key tids) s = .next (droveSend s src.toNat (.abandon key))) ∧
  (∀ (s : State) (key : Word) (epochs : List (BitVec 12 × Word)) (c : Cmd),
    s.fe.cmds.find? (fun c => c.asked == some key && c.phase == .admission && c.gotPin.isNone) = some c →
    (∀ e ∈ epochs, (epochOf (table s e.1.toNat) e.2).isSome = true) →
    exec (.pin key epochs) s = .next (updCmd (epochs.foldl (fun s e => pinNum s e.1.toNat e.2) (cnt s aDlCntPin))
      c.q.toNat c.n (fun c => { c with gotPin := some epochs }))) ∧
  (∀ (s : State) (key : Word) (epochs : List (BitVec 12 × Word)) (c : Cmd),
    s.fe.cmds.find? (fun c => c.asked == some key && c.phase == .admission && c.gotPin.isNone) = some c →
    (∃ e ∈ epochs, epochOf (table s e.1.toNat) e.2 = none) →
    exec (.pin key epochs) s = .next (finish (cnt s aDlCntPin) c.q.toNat c.n stRetired)) ∧
  (∀ (s : State) (key : Word) (epochs : List (BitVec 12 × Word)) (arrivals : List (BitVec 12)),
    (∃ i < grpN s, ∀ p ∈ arrivals, p.toNat ≠ memPrim s i ∧ p.toNat ≠ memMirr s i) →
    exec (.record key epochs arrivals) s = .next { s with dl := { s.dl with
      records := s.dl.records.filter (fun x => x.key ≠ key) ++ [{ key := key, epochs := epochs, arrivals := arrivals }] } }) ∧
  (∀ (s : State) (key : Word) (epochs : List (BitVec 12 × Word)) (arrivals : List (BitVec 12)),
    (∀ i < grpN s, ∃ p ∈ arrivals, p.toNat = memPrim s i ∨ p.toNat = memMirr s i) →
    exec (.record key epochs arrivals) s = .next { s with dl := { s.dl with
      records := s.dl.records.filter (fun x => x.key ≠ key) } }) ∧
  (∀ (s u : State) (key : Word) (r : KeyRec), s.dl.records.find? (fun r => r.key == key) = some r →
    u = { s with dl := { s.dl with records := s.dl.records.filter (fun x => x.key ≠ key) } } →
    exec (.keyRecordTimeout key) s = .next (servePins
      (if isLeader s then (r.epochs.filter (fun t => !named u t)).foldl sendRelease u else u))) ∧
  (∀ (s : State) (tid : BitVec 12) (epoch : Word), exec (.release tid epoch) s = .next (dropHold s tid.toNat epoch)) ∧
  (∀ (s : State) (key : Word) (c : Cmd), s.fe.cmds.find? (fun c => c.asked == some key && c.phase == .admission) = some c →
    exec (.abandon key) s = .next (finish s c.q.toNat c.n stPeer)) ∧
  (∀ (s u : State) (key : Word) (r : Req), s.fe.cmds.find? (fun c => c.asked == some key && c.phase == .admission) = none →
    s.reqs.find? (fun r => r.key == some key && !r.done) = some r →
    u = { s with dl := { s.dl with colls := s.dl.colls.filter (fun c => c.req ≠ r.handle) } } →
    exec (.abandon key) s = .next (wantEnd (excOf (cntN u aDlCntCollFail 0
      (s.dl.colls.filter (fun c => c.req == r.handle && !c.risen)).length) r.handle stPeer) r.handle stPeer))

/-- A READY is noted, and sent on to the leader's mirror; one that completes its set makes the leader send GO, and one that
disagrees makes it cancel; GO is carried out; CANCEL cancels the commits of its set; a barrier that times out is cancelled
at its commits and stalls for an UPDATE; and DISSOLVE leaves the group (R384 to R388). -/
def Obligations.BarrierComplete : Prop :=
  (∀ (s u w : State) (src : BitVec 12) (upd : Bool) (tabs : List StepTab), s.dl.dissolved = false → grpOn s = true →
    u = toLeadMirror s (.ready src upd tabs) →
    w = { u with dl := { u.dl with readys := (u.dl.readys.filter (fun x => !(x.src == src && x.tabs == tabs))) ++
      [{ src := src, upd := upd, tabs := tabs }] } } → leader w ≠ myId w →
    exec (.ready src upd tabs) s = .next w) ∧
  (∀ (s u w : State) (src : BitVec 12) (upd : Bool) (x : StepTab) (tabs : List StepTab), s.dl.dissolved = false →
    grpOn s = true → u = toLeadMirror s (.ready src upd (x :: tabs)) →
    w = { u with dl := { u.dl with readys := (u.dl.readys.filter (fun y => !(y.src == src && y.tabs == x :: tabs))) ++
      [{ src := src, upd := upd, tabs := x :: tabs }] } } → leader w = myId w →
    exec (.ready src upd (x :: tabs)) s = .next
      (if mismatched (readySet w x.tid) then sendCancel (rsetF w aDlGrpStat 0 1 1 1) (readySet w x.tid) true
       else if complete w (readySet w x.tid) then sendGo w (readySet w x.tid) else w)) ∧
  (∀ (s : State) (set : List (BitVec 12 × Word)) (roots : List (BitVec 12 × List Bytes)),
    exec (.go set roots) s = .next (applyGo s set roots)) ∧
  (∀ (s : State) (set : List (BitVec 12 × Word)) (mismatch : Bool),
    exec (.cancel set mismatch) s = .next (cancelSteps (cnt { s with dl := { s.dl with
      readys := s.dl.readys.filter (fun r => r.upd || !(r.tabs.any (fun x => set.contains (x.tid, x.epoch)))) } }
      aDlCntCancel) set mismatch)) ∧
  (∀ (s u w : State) (set : List (BitVec 12 × Word)) (l : List ReadyRec), isLeader s = true →
    l = s.dl.readys.filter (fun r => r.tabs.any (fun x => set.any (fun e => e.1 == x.tid))) →
    u = (if l.any (·.upd) then rsetF s aDlGrpStat 0 0 0 1 else s) →
    w = (if mismatched l then rsetF u aDlGrpStat 0 1 1 1 else u) →
    exec (.barrierTimeout set) s = .next (if l.any (fun r => !r.upd) then sendCancel w l (mismatched l) else w)) ∧
  (∀ (s : State) (a : Acc) (v : Word), mayAccess s a = true → a.secure = true → bit v.toNat 1 = true →
    exec (.dissolve a v) s = .next (dissolveGroup s))

/-- A CLEAR is kept until its collective starts, and lets the block go where it has; a slice lands in the scratchpad and the
last of a member counts; a PUT is written and a GET answered where the remote window admits them, in the memory of a fold
(once partition 15 may run there) or in a scratchpad, and denied elsewhere; the data of a GET lands; a DENY ends the launch and the counter still rises; and
a collective that times out fails (R334, R381 to R383). -/
def Obligations.CollectivesComplete : Prop :=
  (∀ (s : State) (m : BitVec 12) (key : Word) (idx : Half), collBy s key idx = none →
    exec (.clear m key idx) s = .next { s with dl := { s.dl with clears := s.dl.clears ++ [(m, key, idx)] } }) ∧
  (∀ (s : State) (m : BitVec 12) (key : Word) (idx : Half) (c : Coll), collBy s key idx = some c →
    exec (.clear m key idx) s = .next
      (if c.started && !c.sent.contains m then sendBlock (updColl s c.req idx (fun c => { c with cleared := m :: c.cleared })) c m
       else updColl s c.req idx (fun c => { c with cleared := m :: c.cleared }))) ∧
  (∀ (s u : State) (m : BitVec 12) (key : Word) (idx : Half) (off : Nat) (data : Marked) (last : Bool) (c : Coll),
    collBy s key idx = some c → (cutMarked data (min data.data.length (c.bytes - off))).data ≠ [] →
    u = updCore s c.core (fun x => extPut x (c.dst + m.toNat * c.stride + off)
      (farMarked (cutMarked data (min data.data.length (c.bytes - off))))) →
    exec (.slice m key idx off data last) s = .next (if last && !c.landed.contains m then
      updColl u c.req idx (fun c => { c with landed := m :: c.landed }) else u)) ∧
  (∀ (s : State) (src : BitVec 12) (tag : Word) (win : BitVec 6) (off : Dword) (data : Marked) (f a : Nat),
    rwinAddr s src.toNat win.toNat off.toNat data.data.length true = some (.fold f a) →
    exec (.put src tag win off data) s = .next (if mayFm s f 15 then fmPutMarked s 15 f a data
      else waitMsg s (.put src tag win off data))) ∧
  (∀ (s : State) (src : BitVec 12) (tag : Word) (win : BitVec 6) (off : Dword) (data : Marked) (c a : Nat),
    rwinAddr s src.toNat win.toNat off.toNat data.data.length true = some (.core c a) →
    exec (.put src tag win off data) s = .next (updCore s c (fun x => extPut x a (farMarked data)))) ∧
  (∀ (s : State) (src : BitVec 12) (tag : Word) (win : BitVec 6) (off : Dword) (data : Marked),
    rwinAddr s src.toNat win.toNat off.toNat data.data.length true = none →
    exec (.put src tag win off data) s = .next (droveSend (rwinDeny s src.toNat off.toNat) src.toNat
      (.deny (BitVec.ofNat 12 (myId s)) tag))) ∧
  (∀ (s : State) (src : BitVec 12) (tag : Word) (win : BitVec 6) (off : Dword) (len f a : Nat),
    rwinAddr s src.toNat win.toNat off.toNat len false = some (.fold f a) → mayFm s f 15 = true →
    exec (.getReq src tag win off len) s = .next (droveSend (fmRead s 15 f a len).1 src.toNat
      (.getData (BitVec.ofNat 12 (myId s)) tag { data := (fmRead s 15 f a len).2.1, marks := secMarks (fold (fmRead s 15 f a len).1 f) a len }))) ∧
  (∀ (s : State) (src : BitVec 12) (tag : Word) (win : BitVec 6) (off : Dword) (len f a : Nat),
    rwinAddr s src.toNat win.toNat off.toNat len false = some (.fold f a) → mayFm s f 15 = false →
    exec (.getReq src tag win off len) s = .next (waitMsg s (.getReq src tag win off len))) ∧
  (∀ (s : State) (src : BitVec 12) (tag : Word) (win : BitVec 6) (off : Dword) (len c a : Nat),
    rwinAddr s src.toNat win.toNat off.toNat len false = some (.core c a) →
    exec (.getReq src tag win off len) s = .next (droveSend s src.toNat
      (.getData (BitVec.ofNat 12 (myId s)) tag (readMarked (core s c) a len)))) ∧
  (∀ (s : State) (src : BitVec 12) (tag : Word) (win : BitVec 6) (off : Dword) (len : Nat),
    rwinAddr s src.toNat win.toNat off.toNat len false = none →
    exec (.getReq src tag win off len) s = .next (droveSend (rwinDeny s src.toNat off.toNat) src.toNat
      (.deny (BitVec.ofNat 12 (myId s)) tag))) ∧
  (∀ (s : State) (src : BitVec 12) (tag : Word) (data : Marked) (c : Coll),
    s.dl.colls.find? (fun c => c.kind == 3 && c.tag.toNat % 2 ^ 31 == tag.toNat % 2 ^ 31 &&
      memPrim s c.stride == src.toNat) = some c →
    exec (.getData src tag data) s = .next (updColl (updCore s c.core (fun x =>
      extPut x (c.dst + if tag = c.tag then 0 else pieceMax)
        (farMarked (cutMarked data (c.bytes - if tag = c.tag then 0 else pieceMax))))) c.req c.index
      (fun c => { c with landed := c.landed ++ [src] }))) ∧
  (∀ (s : State) (src : BitVec 12) (tag : Word) (c : Coll),
    s.dl.colls.find? (fun c => (c.kind == 2 || c.kind == 3) && c.tag.toNat % 2 ^ 31 == tag.toNat % 2 ^ 31 &&
      memPrim s c.stride == src.toNat) = some c →
    exec (.deny src tag) s =
      .next (updColl (excOf s c.req stRegionDenied) c.req c.index (fun c => { c with landed := c.landed ++ [src] }))) ∧
  (∀ (s : State) (h idx : Half) (c : Coll), collOf s h idx = some c → c.risen = false → collDone s c = false →
    exec (.collectiveTimeout h idx) s = .next (failColl s c))

/-! ## Pairs -/

/-- PAIR_CTL with sound operands: FORM without a pair, SWITCH in SYNC, and RESYNC on a mirror ask the partner and wait for
its answer; BREAK tells the partner, leaves the pair and ends with ST_OK, from NONE too; TAKEOVER on a STALE or SOLO mirror
without heartbeats takes the work over and ends with ST_OK; in any other state, or while another PAIR_CTL waits, FORM,
SWITCH, TAKEOVER and RESYNC end with ST_BAD_STATE. A RESYNC of a table that is not mirrored, and a malformed PAIR_CTL, end
with ST_BAD_FIELD (R397, R398). -/
def Obligations.PairCommandsComplete : Prop :=
  (∀ (s : State) (n : Word) (c : Cmd), Dispatched s 0 n 23 c → pairOk s c = true → cF c 16 1 = 1 →
    s.dl.pair = .none → s.dl.pairCmd = none →
    exec (.pairForm n) s = .next (askPartner (arrived s c) c (cF c 18 2) (formMsg (arrived s c) c))) ∧
  (∀ (s : State) (n : Word) (c : Cmd), Dispatched s 0 n 23 c → pairOk s c = true → cF c 16 1 = 1 →
    (s.dl.pair ≠ .none ∨ s.dl.pairCmd.isSome = true) →
    exec (.pairForm n) s = .next (reject (arrived s c) c stBadState)) ∧
  (∀ (s : State) (n : Word) (c : Cmd), Dispatched s 0 n 23 c → pairOk s c = false →
    exec (.pairForm n) s = .next (reject (cnt s aFeCntEntries) c stBadField)) ∧
  (∀ (s : State) (n : Word) (c : Cmd), Dispatched s 0 n 23 c → pairOk s c = true → cF c 16 1 = 2 →
    exec (.pairBreak n) s = .next (finish (leavePair (if s.dl.pair = .none then arrived s c else
      toPartner (arrived s c) (.pairMsg (.brk (meId s))))) 0 c.n 0)) ∧
  (∀ (s : State) (n : Word) (c : Cmd), Dispatched s 0 n 23 c → pairOk s c = true → cF c 16 1 = 3 →
    s.dl.pair = .sync → s.dl.swap = .no → s.dl.pairCmd = none →
    exec (.pairSwitch n) s = .next (askPartner (arrived s c) c (cF c 18 2) (.switch (meId s)))) ∧
  (∀ (s : State) (n : Word) (c : Cmd), Dispatched s 0 n 23 c → pairOk s c = true → cF c 16 1 = 3 →
    (s.dl.pair ≠ .sync ∨ s.dl.swap ≠ .no ∨ s.dl.pairCmd.isSome = true) →
    exec (.pairSwitch n) s = .next (reject (arrived s c) c stBadState)) ∧
  (∀ (s : State) (n : Word) (c : Cmd), Dispatched s 0 n 23 c → pairOk s c = true → cF c 16 1 = 4 →
    s.dl.mirror = true → s.dl.hbAlive = false → (s.dl.pair = .stale ∨ s.dl.pair = .solo) →
    exec (.pairTakeover n) s = .next (finish (takeOver (arrived s c)) 0 c.n 0)) ∧
  (∀ (s : State) (n : Word) (c : Cmd), Dispatched s 0 n 23 c → pairOk s c = true → cF c 16 1 = 4 →
    (s.dl.mirror = false ∨ s.dl.hbAlive = true ∨ (s.dl.pair ≠ .stale ∧ s.dl.pair ≠ .solo)) →
    exec (.pairTakeover n) s = .next (reject (arrived s c) c stBadState)) ∧
  (∀ (s : State) (n : Word) (c : Cmd), Dispatched s 0 n 23 c → pairOk s c = true → cF c 16 1 = 5 →
    s.dl.pair ≠ .none → s.dl.pair ≠ .forming → s.dl.mirror = true → s.dl.pairCmd = none →
    (∀ t ∈ resyncTids c, t ∈ s.dl.mtids) →
    exec (.pairResync n) s = .next (askPartner (arrived s c) c (cF c 18 2) (.resync (meId s) (resyncTids c)))) ∧
  (∀ (s : State) (n : Word) (c : Cmd), Dispatched s 0 n 23 c → pairOk s c = true → cF c 16 1 = 5 →
    s.dl.pair ≠ .none → s.dl.pair ≠ .forming → s.dl.mirror = true → s.dl.pairCmd = none →
    (∃ t ∈ resyncTids c, t ∉ s.dl.mtids) →
    exec (.pairResync n) s = .next (reject (arrived s c) c stBadField)) ∧
  (∀ (s : State) (n : Word) (c : Cmd), Dispatched s 0 n 23 c → pairOk s c = true → cF c 16 1 = 5 →
    (s.dl.pair = .none ∨ s.dl.pair = .forming ∨ s.dl.mirror = false ∨ s.dl.pairCmd.isSome = true) →
    exec (.pairResync n) s = .next (reject (arrived s c) c stBadState))

/-- What comes from the partner: its FORM begins the pair where both agree and ends the waiting FORM where they do not; its
SWITCH is accepted in SYNC and refused elsewhere; its RESYNC is accepted on a primary of the pair that is not forming and
refused elsewhere; BREAK leaves the pair; an acceptance lets the SWITCH or the RESYNC that waits begin, or on a mirror that
drains makes its part of the switch due; a table that the partner holds and a member's takeover are noted; a refusal ends
what waits with its status; and a heartbeat is noted (R379, R388, R389, R393, R396 to R398). Without an answer what waits ends with
ST_PEER_UNREACHABLE (R398). In a pair a heartbeat is sent, and the pin toggles where SYNC_EN is set (R393). A silent
partner leaves a primary in SOLO, and a mirror STALE or the taker of the work where its pin is silent too (R395). -/
def Obligations.PairMessagesComplete : Prop :=
  (∀ (s u : State) (src : BitVec 12) (mirror syncEn : Bool) (rule : Byte) (tabs : List (BitVec 12 × Bytes)) (c : Cmd),
    waitingFor s 1 = some c → cF c 18 2 = src.toNat → u = droveSend s src.toNat (.pairMsg (formMsg s c)) →
    exec (.pairMsg (.form src mirror syncEn rule tabs)) s = .next (match formAgree u c mirror syncEn rule tabs with
      | none => pairEnd u stBadState
      | some tids => beginForm u src (cF c 20 1 == 1) syncEn tids)) ∧
  (∀ (s : State) (src : BitVec 12), s.dl.pair ≠ .none → src = s.dl.partner →
    exec (.pairMsg (.brk src)) s = .next (leavePair s)) ∧
  (∀ (s : State) (src : BitVec 12), s.dl.pair = .sync → src = s.dl.partner → s.dl.swap = .no →
    exec (.pairMsg (.switch src)) s =
      .next (toPartner { s with dl := { s.dl with swap := .drain } } (.pairMsg (.accept (meId s))))) ∧
  (∀ (s : State) (src : BitVec 12), ¬(s.dl.pair = .sync ∧ src = s.dl.partner ∧ s.dl.swap = .no) →
    exec (.pairMsg (.switch src)) s = .next (droveSend s src.toNat (.pairMsg (.refuse (meId s) stBadState)))) ∧
  (∀ (s : State) (src : BitVec 12) (tids : List (BitVec 12)), s.dl.pair ≠ .none → s.dl.pair ≠ .forming →
    src = s.dl.partner → s.dl.mirror = false →
    exec (.pairMsg (.resync src tids)) s = .next (beginResync (toPartner s (.pairMsg (.accept (meId s)))) tids)) ∧
  (∀ (s : State) (src : BitVec 12) (tids : List (BitVec 12)),
    (s.dl.pair = .none ∨ s.dl.pair = .forming ∨ src ≠ s.dl.partner ∨ s.dl.mirror = true) →
    exec (.pairMsg (.resync src tids)) s = .next (droveSend s src.toNat (.pairMsg (.refuse (meId s) stBadState)))) ∧
  (∀ (s : State) (src : BitVec 12), src = s.dl.partner → (waitingFor s 3).isSome = true →
    exec (.pairMsg (.accept src)) s = .next { s with dl := { s.dl with pairCmd := none, swap := .drain } }) ∧
  (∀ (s : State) (src : BitVec 12) (c : Cmd), src = s.dl.partner → waitingFor s 3 = none → waitingFor s 5 = some c →
    exec (.pairMsg (.accept src)) s = .next (beginResync s (resyncTids c))) ∧
  (∀ (s : State) (src : BitVec 12), src = s.dl.partner → waitingFor s 3 = none → waitingFor s 5 = none →
    s.dl.swap = .drain → s.dl.mirror = true →
    exec (.pairMsg (.accept src)) s = .next { s with dl := { s.dl with swap := .due } }) ∧
  (∀ (s : State) (src tid : BitVec 12) (d : Bytes) (epoch : Word) (root : Bytes), s.dl.pair ≠ .none → src = s.dl.partner →
    exec (.pairMsg (.holds src tid d epoch root)) s = .next (tableHeld s tid d epoch root)) ∧
  (∀ (s : State) (src idx : BitVec 12), exec (.pairMsg (.tookOver src idx)) s = .next (memberTaken s src idx)) ∧
  (∀ (s : State) (src : BitVec 12) (st : Status), s.dl.pairCmd.isSome = true →
    exec (.pairMsg (.refuse src st)) s = .next (pairEnd s st)) ∧
  (∀ (s : State), s.dl.pairCmd.isSome = true → exec .pairAnswerTimeout s = .next (pairEnd s stPeer)) ∧
  (∀ (s : State) (src : BitVec 12) (mirror : Bool) (st : BitVec 3) (count : Word), s.dl.pair ≠ .none →
    src = s.dl.partner → exec (.hb src mirror st count) s =
      .next { s with dl := { s.dl with
        hbAlive := true, hbIdle := 0, hbMissed := 0, hbRole := mirror, hbState := st, hbCount := count } }) ∧
  (∀ (s : State), s.dl.pair ≠ .none → exec .hbSend s = .next (toPartner s (.hb (meId s) s.dl.mirror
    (BitVec.ofNat 3 (pairCode s.dl.pair)) (BitVec.ofNat 32 (rv s aDlCntStream))))) ∧
  (∀ (s : State), s.dl.pair ≠ .none → s.dl.syncEn = true →
    exec .pairSyncToggle s = .next { s with dl := { s.dl with syncOut := !s.dl.syncOut } }) ∧
  (∀ (s u : State) (pin pinSilent : Bool), s.dl.pair = .sync → pin = (pinSilent && s.dl.syncEn && !s.pc.sync.faulty) →
    u = pairEnd { cntN s aDlCntHbMiss 0 (pairMiss s - s.dl.hbMissed) with dl := { s.dl with
      hbAlive := false, silent := true, hbMissed := max s.dl.hbMissed (pairMiss s), pinAlive := if s.dl.syncEn then !pin else s.dl.pinAlive } } stPeer →
    exec (.partnerSilent pinSilent) s = .next (if s.dl.mirror = false then { u with dl := { u.dl with pair := .solo, swap := .no } }
      else if pin then takeOver u else { u with dl := { u.dl with pair := .stale, swap := .no } }))

/-- A mirror in SYNC keeps the records that STREAM brings, writes those of a whole first stream and answers PREPARED, and
goes on with the UPDATE after its second; PREPARED marks the primary's record; COMMIT releases the streamed UPDATE and
DISCARD drops it; a ROOT is compared with this part's, and in a forming pair publishes the mirror's image; rows of BULK land
in the image that the mirror stages (R390, R391, R394). -/
def Obligations.MirrorComplete : Prop :=
  (∀ (s : State) (upd : Half) (tag : Dword) (epochs : List (BitVec 12 × Word)) (recs deltas : List Bytes) (whole : Bool)
    (t : StreamRec), s.dl.pair = .sync → s.dl.mirror = true → s.dl.streams.find? (fun t => t.upd == upd) = none →
    t = { upd := upd, tag := tag, epochs := epochs, recs := recs, deltas := deltas, whole := whole } →
    exec (.stream upd tag epochs recs deltas whole) s = .next
      (if whole then takeStream { s with dl := { s.dl with streams := s.dl.streams ++ [t] } } t
       else { s with dl := { s.dl with streams := s.dl.streams ++ [t] } })) ∧
  (∀ (s : State) (upd : Half) (tag : Dword) (epochs : List (BitVec 12 × Word)) (recs deltas : List Bytes) (whole : Bool)
    (t : StreamRec), s.dl.pair = .sync → s.dl.mirror = true → s.dl.streams.find? (fun t => t.upd == upd) = some t →
    t.whole = true → exec (.stream upd tag epochs recs deltas whole) s = .next
      (if whole then rollStreams (updStream (recs.foldl putStreamed s) upd (fun t => { t with step2 := true }))
       else recs.foldl putStreamed s)) ∧
  (∀ (s : State) (upd : Half) (tag : Dword) (epochs : List (BitVec 12 × Word)) (recs deltas : List Bytes) (whole : Bool)
    (t u : StreamRec), s.dl.pair = .sync → s.dl.mirror = true → s.dl.streams.find? (fun t => t.upd == upd) = some t →
    t.whole = false →
    u = { t with epochs := t.epochs ++ epochs, recs := t.recs ++ recs, deltas := t.deltas ++ deltas, whole := whole } →
    exec (.stream upd tag epochs recs deltas whole) s = .next
      (if whole then takeStream (updStream s upd (fun _ => u)) u else updStream s upd (fun _ => u))) ∧
  (∀ (s : State) (upd : Half), exec (.prepared upd) s = .next { s with dl := { s.dl with
    mirrored := s.dl.mirrored.map (fun m => if m.upd = upd then { m with prepared := true } else m) } }) ∧
  (∀ (s : State) (upd : Half) (t : StreamRec),
    s.dl.streams.find? (fun t => t.upd == upd && t.whole && !t.committed) = some t →
    exec (.commit upd) s = .next (rollStreams (commitStream s t))) ∧
  (∀ (s : State) (upd : Half), exec (.discard upd) s = .next (dropStream s upd)) ∧
  (∀ (s : State) (tid : BitVec 12) (epoch : Word) (r : Bytes), s.dl.forming.find? (fun x => x.tid == tid) = none →
    s.dl.pair = .sync → tid ∈ s.dl.mtids → exec (.root tid epoch r) s = .next (rootCheck s tid epoch r)) ∧
  (∀ (s : State) (tid : BitVec 12) (epoch : Word) (r : Bytes) (x : FormRec),
    s.dl.forming.find? (fun x => x.tid == tid) = some x → s.dl.mirror = true →
    exec (.root tid epoch r) s = .next (formPublish (updForm s tid (fun x => { x with root := some (epoch, r) })) tid)) ∧
  (∀ (s : State) (tid : BitVec 12) (epoch : Word) (r mine : Bytes) (x : FormRec),
    s.dl.forming.find? (fun x => x.tid == tid) = some x → s.dl.mirror = false → x.sent = true →
    (table s tid.toNat).lastRoots.find? (fun e => e.1 == epoch) = some (epoch, mine) →
    exec (.root tid epoch r) s = .next (if mine = r then formDone s tid else formFail s tid)) ∧
  (∀ (s u w : State) (tid : BitVec 12) (first : Word) (rows : List Marked) (x : FormRec) (im : Image),
    s.dl.forming.find? (fun x => x.tid == tid) = some x → s.dl.mirror = true → first ∉ x.firsts →
    u = (if x.began then s else startBulk s tid) → (table u tid.toNat).staged = true →
    imgOf (table u tid.toNat) (table u tid.toNat).stagedIn = some im → first.toNat + rows.length ≤ dRows im.desc →
    w = (rows.zipIdx).foldl (fun s e => fmPut s (ruPart s (rowFold im.desc (first.toNat + e.2)).1)
        (rowFold im.desc (first.toNat + e.2)).1
        (homeA im (rowFold im.desc (first.toNat + e.2)).1 (rowFold im.desc (first.toNat + e.2)).2)
        (withPop (slice e.1.data 0 (dPslot im.desc)) (fld e.1.data 22 1)
          (fold s (rowFold im.desc (first.toNat + e.2)).1).period.toNat) (!e.1.marks.isEmpty)) u →
    exec (.bulk tid first rows) s = .next (formPublish (updForm
      (if x.rows + rows.length < dRows im.desc then w else updTable w tid.toNat (fun t => setImg t t.stagedIn
        (some (growLeaves w { im with rows := x.rows + rows.length } tid.toNat t.stagedIn)))) tid
      (fun x' => { x' with rows := x.rows + rows.length, firsts := first :: x'.firsts })) tid))

/-! ## Ports, queue pairs, sessions and the owner -/

/-- A request that reaches a queue pair in PSN order is acted on: a SEND is acknowledged and discarded, an ATOMIC is an
invalid request, a doorbell and a keepalive in the session's window are judged and acknowledged, one outside it is answered
with a NAK Remote Access Error, and so is a READ of it. A SEND ahead of its turn is answered with one sequence NAK, and a
repeated one is acknowledged again; one for a queue pair that is not in RTS is dropped and counted (R254 to R257, R286,
R289, R291, R305, R306). -/
def Obligations.PacketsComplete : Prop :=
  (∀ (s u w : State) (q : BitVec 13) (k : Pkt) (len : Nat), Arrives s u q.toNat (pkts s q.toNat len) k →
    k.psn = (qp u q.toNat).epsn → w = dropImm (tookPsn u q.toNat (pkts s q.toNat len)) k →
    exec (.sendReceived ⟨⟨q, k⟩, len⟩) s = .next (ackTo (cnt w aNpCntRxDiscard) q.toNat k.psn)) ∧
  (∀ (s u : State) (q : BitVec 13) (k : Pkt) (len : Nat), Arrives s u q.toNat (pkts s q.toNat len) k →
    k.psn ≠ (qp u q.toNat).epsn → (k.psn - (qp u q.toNat).epsn).toNat < 2 ^ 23 → (qp u q.toNat).nakSent = false →
    exec (.sendReceived ⟨⟨q, k⟩, len⟩) s = .next (sendQp (updQp u q.toNat (fun p => { p with nakSent := true })) q.toNat
      (qp u q.toNat).epsn (.nak (BitVec.ofNat 13 q.toNat) .sequence))) ∧
  (∀ (s u : State) (q : BitVec 13) (k : Pkt) (len : Nat), Arrives s u q.toNat (pkts s q.toNat len) k →
    2 ^ 23 ≤ (k.psn - (qp u q.toNat).epsn).toNat →
    exec (.sendReceived ⟨⟨q, k⟩, len⟩) s = .next (ackTo u q.toNat k.psn)) ∧
  (∀ (s : State) (q : BitVec 13) (k : Pkt) (len : Nat), linkOn s k.frame.mac = true → k.frame.fec = false →
    frameOk s k.frame = true → qpRts s q.toNat = false →
    exec (.sendReceived ⟨⟨q, k⟩, len⟩) s = .next (cntN (cntN s aNpCntRxPkt 0 (pkts s q.toNat len)) aNpCntRxDrop 0
      (pkts s q.toNat len))) ∧
  (∀ (s u : State) (q : BitVec 13) (k : Pkt), Arrives s u q.toNat 1 k → k.psn = (qp u q.toNat).epsn →
    exec (.atomicReceived ⟨q, k⟩) s = .next (nakInvalid (tookPsn u q.toNat 1) q.toNat k.psn)) ∧
  (∀ (s u w : State) (q : BitVec 12) (k : Pkt) (rkey : Word) (va : Dword) (data : Bytes),
    Arrives s u q.toNat (pkts s q.toNat data.length) k → k.psn = (qp u q.toNat).epsn → qpRole s q.toNat = 1 →
    w = dropImm (tookPsn u q.toNat (pkts s q.toNat data.length)) k →
    inWindow w q.toNat rkey va.toNat data.length = true →
    exec (.doorbell q k rkey va data) s = .next (ackTo (if 0x2000 ≤ va.toNat then keepWrite w q.toNat data
      else doorWrite w q.toNat va.toNat data k.imm) q.toNat k.psn)) ∧
  (∀ (s u w : State) (q : BitVec 12) (k : Pkt) (rkey : Word) (va : Dword) (data : Bytes),
    Arrives s u q.toNat (pkts s q.toNat data.length) k → k.psn = (qp u q.toNat).epsn → qpRole s q.toNat = 1 →
    w = dropImm (tookPsn u q.toNat (pkts s q.toNat data.length)) k →
    inWindow w q.toNat rkey va.toNat data.length = false →
    exec (.doorbell q k rkey va data) s = .next (nakAccess w q.toNat k.psn)) ∧
  (∀ (s u w : State) (q : BitVec 12) (k : Pkt) (rkey : Word) (data : Bytes),
    Arrives s u q.toNat (pkts s q.toNat data.length) k → k.psn = (qp u q.toNat).epsn → qpRole s q.toNat = 1 →
    w = dropImm (tookPsn u q.toNat (pkts s q.toNat data.length)) k → inWindow w q.toNat rkey 0x2000 data.length = true →
    exec (.keepalive ⟨q, k⟩ rkey data) s = .next (ackTo (if data.length = 8 ∧ leNat data = 0 then
      renewSession w (qpSession w q.toNat) else cnt w aNpCntRxDiscard) q.toNat k.psn)) ∧
  (∀ (s u w : State) (q : BitVec 12) (k : Pkt) (rkey : Word) (va : Dword) (len : Nat), Arrives s u q.toNat 1 k →
    k.psn = (qp u q.toNat).epsn → qpRole s q.toNat = 1 → w = tookPsn u q.toNat (pkts s q.toNat len) →
    peerReads w q.toNat < 16 →
    exec (.sessionWindowRead ⟨q, k⟩ rkey va len) s = .next (nakAccess w q.toNat k.psn))

/-- The transport's own events: an acknowledgement takes the oldest messages off and starts the retries anew; a time-out
and a sequence NAK take a retry and go back, or send the queue pair to ERROR when none is left, 7 RNR retries being without
limit; any other NAK sends it to ERROR (R289, R309). -/
def Obligations.TransportComplete : Prop :=
  (∀ (s u : State) (q : BitVec 13) (k : Pkt) (count : Nat), Arrives s u q.toNat 1 k →
    exec (.ackReceived ⟨q, k⟩ count) s = .next (((qp u q.toNat).out.take count).foldl (fun s x => ackPiece s q.toNat x.x)
      (updQp u q.toNat (fun p => { p with out := (qp u q.toNat).out.drop count, retries := 0, rnr := 0 })))) ∧
  (∀ (s : State) (q : BitVec 13), qpRts s q.toNat = true → waitsOn s q.toNat = true →
    (qp s q.toNat).retries < rf s aNpQpTmo q.toNat 7 5 →
    exec (.ackTimeout q false) s =
      .next (goBack (updQp s q.toNat (fun p => { p with retries := p.retries + 1 })) q.toNat)) ∧
  (∀ (s : State) (q : BitVec 13), qpRts s q.toNat = true → waitsOn s q.toNat = true →
    rf s aNpQpTmo q.toNat 7 5 ≤ (qp s q.toNat).retries →
    exec (.ackTimeout q false) s = .next (settle (qpError s q.toNat 1))) ∧
  (∀ (s : State) (q : BitVec 13), qpRts s q.toNat = true → waitsOn s q.toNat = true →
    (rf s aNpQpTmo q.toNat 10 8 = 7 ∨ (qp s q.toNat).rnr < rf s aNpQpTmo q.toNat 10 8) →
    exec (.ackTimeout q true) s = .next (goBack (updQp s q.toNat (fun p => { p with rnr := p.rnr + 1 })) q.toNat)) ∧
  (∀ (s : State) (q : BitVec 13), qpRts s q.toNat = true → waitsOn s q.toNat = true →
    rf s aNpQpTmo q.toNat 10 8 ≠ 7 → rf s aNpQpTmo q.toNat 10 8 ≤ (qp s q.toNat).rnr →
    exec (.ackTimeout q true) s = .next (settle (qpError s q.toNat 2))) ∧
  (∀ (s u : State) (q : BitVec 13) (k : Pkt), Arrives s u q.toNat 1 k → waitsOn u q.toNat = true →
    exec (.nakReceived ⟨q, k⟩ .sequence) s = .next (if rf u aNpQpTmo q.toNat 7 5 ≤ (qp u q.toNat).retries then
      settle (qpError u q.toNat 1) else goBack (updQp u q.toNat (fun p => { p with retries := p.retries + 1 })) q.toNat)) ∧
  (∀ (s u : State) (q : BitVec 13) (k : Pkt), Arrives s u q.toNat 1 k →
    exec (.nakReceived ⟨q, k⟩ .remoteAccess) s = .next (settle (qpError u q.toNat 3))) ∧
  (∀ (s u : State) (q : BitVec 13) (k : Pkt), Arrives s u q.toNat 1 k →
    exec (.nakReceived ⟨q, k⟩ .invalidRequest) s = .next (settle (qpError u q.toNat 4)))

/-- A CE mark is answered with a CNP where none went out within CNP_GAP; with CC_EN a CNP lowers the rate of a data-port
queue pair by its cut and not below 1 Gbit/s, without it a CNP is only counted, and a quiet period raises the rate up to the
line rate; XOFF pauses the port unless PFC is ignored, XON resumes it with what the pause held, and a stuck XOFF is treated
as stuck (R293 to R295). -/
def Obligations.CongestionComplete : Prop :=
  (∀ (s : State) (q : BitVec 13) (k : Pkt), closed s = false → linkOn s k.frame.mac = true → k.frame.fec = false →
    frameOk s k.frame = true → k.rc = true → qpRts s q.toNat = true → pktFrom s q.toNat k = true →
    (∀ t, (qp s q.toNat).cnpAt = some t → t.toNat + rf s aNpCcCfg 0 10 3 * 1000 ≤ now s) →
    exec (.ceMarkedPacket ⟨q, k⟩) s = .next (sendQp (cnt (updQp s q.toNat (fun p => { p with cnpAt := some s.np.ns }))
      aNpCntCnpTx) q.toNat 0 (.cnp (BitVec.ofNat 13 q.toNat)))) ∧
  (∀ (s u : State) (q : BitVec 13) (k : Pkt), Arrives s u q.toNat 1 k → rb (cnt u aNpCntCnpRx) aNpCcCfg 0 27 = true →
    q.toNat ≠ 4096 → exec (.cnpReceived ⟨q, k⟩) s = .next (updQp (cnt u aNpCntCnpRx) q.toNat (fun p => { p with
      rate := max 1 (p.rate * (1 - 1 / (2 : Rat) ^ (max 1 (rf (cnt u aNpCntCnpRx) aNpCcCfg 0 2 0)))) }))) ∧
  (∀ (s u : State) (q : BitVec 13) (k : Pkt), Arrives s u q.toNat 1 k →
    (rb (cnt u aNpCntCnpRx) aNpCcCfg 0 27 = false ∨ q.toNat = 4096) →
    exec (.cnpReceived ⟨q, k⟩) s = .next (cnt u aNpCntCnpRx)) ∧
  (∀ (s : State) (q : BitVec 12), qpRts s q.toNat = true → rb s aNpCcCfg 0 27 = true →
    exec (.rateIncrease q) s = .next (updQp s q.toNat (fun p => { p with
      rate := min (lineRate s (rf s aNpQpCfg q.toNat 4 2)) (p.rate + rf s aNpCcCfg 0 18 11) }))) ∧
  (∀ (s : State) (port : Fin 4) (prio : BitVec 3), portUp s port = true → pfcFor s port prio = true →
    mget false s.np.pfcIgnore port = false →
    exec (.pfcXoff port prio) s = .next { s with np := { s.np with paused := mset false s.np.paused port true } }) ∧
  (∀ (s : State) (port : Fin 4) (prio : BitVec 3), portUp s port = true → pfcFor s port prio = true →
    exec (.pfcXon port prio) s =
      .next (unpause { s with np := { s.np with pfcIgnore := mset false s.np.pfcIgnore port false } } port)) ∧
  (∀ (s : State) (port : Fin 4), mget false s.np.paused port = true →
    exec (.pfcStuck port) s = .next (rsetF (unpause { s with np := { s.np with
      pfcIgnore := mset false s.np.pfcIgnore port true } } port) (aNpPortStat0 + 4 * port) 0 3 3 1))

/-- A link that comes up takes the configuration that stands, MAC 8 its boot address while none is written, and a link goes
down; a change of MODE takes a port's links down with what a pause held; an address of the MAC is answered and another
dropped; a pause frame is dropped (R283 to R285, R309, R466). A PTP message of the selected master is measured, a Sync
followed by a delay request; an offset beyond 1 µs loses the lock and holds the rate, 16 synchronisations in a row lock, and
the first lock steps the counter forward; another message is dropped; a loss of synchronisation holds over; and STEP_BACK
steps the counter back while nothing is outstanding (R297, R298). -/
def Obligations.MacsAndClockComplete : Prop :=
  (∀ (s : State) (mac : Fin 9), (mac.val ≠ 8 ∨ ∃ w ∈ (macWords s 8).take 7, w ≠ 0) → macOn s mac = true → stage s ≠ 15 →
    exec (.macLinkChange mac true) s = .next { s with np := { s.np with
      linkUp := mset false s.np.linkUp mac true, macLive := mset [] s.np.macLive mac (macWords s mac) } }) ∧
  (∀ (s : State), (∀ w ∈ (macWords s 8).take 7, w = 0) → macOn s 8 = true → stage s ≠ 15 →
    exec (.macLinkChange 8 true) s = .next (bootMac s)) ∧
  (∀ (s : State) (mac : Fin 9), exec (.macLinkChange mac false) s =
    .next { s with np := { s.np with linkUp := mset false s.np.linkUp mac false } }) ∧
  (∀ (s u : State) (a : Acc) (port : Fin 4) (v : Word), mayAccess s a = true → a.secure = true →
    u = rset s (aNpPortCfg0 + 4 * port) 0 (v.toNat % 128) → portMode u port ≠ portMode s port →
    rf s (aNpPortCfg0 + 4 * port) 0 5 2 % 2 = 0 →
    exec (.npPortMode a port v) s = .next (dropHeld (setMac (setMac u (2 * port) false) (2 * port + 1) false) port)) ∧
  (∀ (s : State) (fr : Frame) (ipv6 : Bool) (addr : Bytes), linkOn s fr.mac = true → fr.fec = false → frameOk s fr = true →
    addr = (if ipv6 then macBytes (macLive s fr.mac) 3 4 else macBytes (macLive s fr.mac) 2 1) → (∃ b ∈ addr, b ≠ 0) →
    exec (.neighbourDiscovery fr ipv6 addr) s =
      .next (emit s (.ndAnswer fr.mac ((macBytes (macLive s fr.mac) 0 2).take 6)))) ∧
  (∀ (s : State) (fr : Frame) (ipv6 : Bool) (addr : Bytes), linkOn s fr.mac = true → fr.fec = false → frameOk s fr = true →
    addr ≠ (if ipv6 then macBytes (macLive s fr.mac) 3 4 else macBytes (macLive s fr.mac) 2 1) →
    exec (.neighbourDiscovery fr ipv6 addr) s = .next (cnt s aNpCntRxDrop)) ∧
  (∀ (s : State) (mac : Fin 9), linkOn s mac = true → exec (.pauseFrame mac) s = .next (cnt s aNpCntRxDrop)) ∧
  (∀ (s u w : State) (fr : Frame) (domain : Byte) (ieee sync : Bool) (offset : Int) (time : Dword) (rate : Int),
    linkOn s fr.mac = true → fr.fec = false → frameOk s fr = true → ptpMine s fr domain ieee = true →
    u = (if sync then emit s (.ptpDelayReq fr.mac domain.toNat ieee) else s) →
    w = { u with np := { u.np with
      ptpOffset := max (-2147483648) (min 2147483647 offset),
      ptpRun := if 1000 < offset.natAbs then 0 else if !sync then s.np.ptpRun
        else if offset.natAbs < 1000 then s.np.ptpRun + 1 else 0,
      ptpRate := if 1000 < offset.natAbs then s.np.ptpRate else max (-200000) (min 200000 rate) } } →
    exec (.ptpMessage ⟨fr, domain, ieee, sync⟩ offset time rate) s = .next
      (if 1000 < offset.natAbs then rsetF (if rb w aNpPtpStat 0 0 then rsetF w aNpPtpStat 0 2 2 1 else w) aNpPtpStat 0 0 0 0
       else if 16 ≤ w.np.ptpRun then rsetF (if rb w aNpPtpStat 0 1 then w else { w with np := { w.np with
         ns := if w.np.ns.toNat < time.toNat then time else w.np.ns } }) aNpPtpStat 0 2 0 3
       else w)) ∧
  (∀ (s : State) (fr : Frame) (domain : Byte) (ieee sync : Bool) (offset : Int) (time : Dword) (rate : Int),
    linkOn s fr.mac = true → fr.fec = false → frameOk s fr = true → ptpMine s fr domain ieee = false →
    exec (.ptpMessage ⟨fr, domain, ieee, sync⟩ offset time rate) s = .next (cnt s aNpCntRxDrop)) ∧
  (∀ (s u : State), u = { s with np := { s.np with ptpRun := 0 } } → exec .ptpSyncLoss s = .next
    (if rb s aNpPtpStat 0 0 then rsetF (rsetF u aNpPtpStat 0 0 0 0) aNpPtpStat 0 2 2 1 else u)) ∧
  (∀ (s u : State) (a : Acc) (v : Word), mayAccess s a = true → a.secure = true → bit v.toNat 14 = true → s.fe.cmds = [] →
    0 < s.np.ptpOffset → u = rset s aNpPtpCtl 0 (v.toNat % 2 ^ 14) →
    exec (.stepBack a v) s = .next { u with np := { s.np with
      ns := BitVec.ofNat 64 (s.np.ns.toNat - s.np.ptpOffset.toNat), ptpOffset := 0 } })

/-- A valid claim on the management port of a part that is READY takes it: its lease runs, its management queue pair is in
RTS and its stage is OPERATING; RENEW extends a lease that holds, and one whose expiry has passed resets the part; OPEN, CLOSE
and expiry of a session; ENABLE and RESET of a queue pair; and a peer's access is made behind those that its queue pair has
not answered, or refused outside its window (R288, R289, R299 to R307, R331). -/
def Obligations.OwnershipComplete : Prop :=
  (∀ (s : State) (fr : Frame) (d : Bytes), linkOn s fr.mac = true → fr.fec = false → frameOk s fr = true → fr.mac = 8 →
    closed s = false → stage s = 8 → s.np.owned = false → claimOk d = true →
    ∃ t, exec (.claim ⟨fr, d⟩) s = .next t ∧ t.np.owned = true ∧ (qp t 4096).st = .rts ∧ stage t = 9 ∧
      rv t aNpLeaseTimeout 0 = fld d 32 4 ∧ t.np.expiry = slow s + leaseCyc (fld d 32 4)) ∧
  (∀ (s : State) (fr : Frame) (d : Bytes), linkOn s fr.mac = true → fr.fec = false → frameOk s fr = true → fr.mac = 8 →
    (closed s = true ∨ stage s ≠ 8 ∨ s.np.owned = true ∨ claimOk d = false) →
    exec (.claim ⟨fr, d⟩) s = .next (cnt s aNpCntClaimIgn)) ∧
  (∀ (s : State) (a : Acc) (v : Word), mayAccess s a = true → a.secure = true → bit v.toNat 0 = true →
    s.np.owned = true → s.np.lapsed = false → slow s ≤ s.np.expiry → exec (.npLeaseRenew a v) s =
      .next { s with np := { s.np with expiry := slow s + leaseCyc (rv s aNpLeaseTimeout) } }) ∧
  (∀ (s : State), s.np.owned = true → s.np.lapsed = false → s.np.expiry < slow s →
    exec .ownerLeaseExpire s = .next (startOrderly s 2 stLeaseLost)) ∧
  (∀ (s : State) (a : Acc) (v : Word) (i p : Nat), mayAccess s a = true → a.secure = true → bit v.toNat 0 = true →
    i = selOf s a.who aNpSesSel % 1024 → i ≠ 0 → (session s i).live = false → p < 4096 → qpRole s p = 1 →
    qpSession s p = i → qpRts s p = true →
    exec (.npSesOpen a v) s = .next (updSession s i (fun x => { x with
      live := true, expiry := slow s + leaseCyc (rv s aNpSesPeriod i) }))) ∧
  (∀ (s : State) (a : Acc) (v : Word) (i : Nat), mayAccess s a = true → a.secure = true → bit v.toNat 1 = true →
    i = selOf s a.who aNpSesSel % 1024 → (session s i).live = true →
    exec (.npSesClose a v) s = .next (closeSession s i)) ∧
  (∀ (s : State) (ses : BitVec 10), closed s = false → (session s ses.toNat).expiry < slow s →
    exec (.sessionLeaseExpire ses) s = .next (closeSession s ses.toNat)) ∧
  (∀ (s : State) (a : Acc) (v : Word) (i : Nat), mayAccess s a = true → a.secure = true → bit v.toNat 1 = false →
    bit v.toNat 0 = true → i = selIx s a.who aNpQpSel → (qp s i).st = .reset → qpRole s i ≠ 0 →
    exec (.npQpEnable a v) s = .next (setQp s i {
      st := .rts, rate := lineRate s (rf s aNpQpCfg i 4 2)
      epsn := BitVec.ofNat 24 (rv s aNpQpRpsn i), spsn := BitVec.ofNat 24 (rv s aNpQpSpsn i) })) ∧
  (∀ (s : State) (a : Acc) (v : Word), mayAccess s a = true → a.secure = true → bit v.toNat 1 = true →
    exec (.npQpReset a v) s = .next (settle (qpReset s (selIx s a.who aNpQpSel)))) ∧
  (∀ (s u u' : State) (q : BitVec 12) (k : Pkt) (write : Bool) (rkey : Word) (va : Dword) (len n w base : Nat) (data : Bytes),
    n = (if write then data.length else len) → Arrives s u q.toNat (if write then pkts s q.toNat n else 1) k →
    k.psn = (qp u q.toNat).epsn → qpRole s q.toNat = 2 →
    u' = (if write then dropImm (tookPsn u q.toNat (pkts s q.toNat n)) k else tookPsn u q.toNat (pkts s q.toNat n)) →
    (write = false → peerReads u' q.toNat < 16) → w = rkey.toNat % 4096 → base = rv64 u' aXlMwBaseLo w / 4096 * 4096 →
    (rb u' aXlMwCfg w 0 = false ∨ rkey.toNat / 4096 ≠ rf u' aXlMwTag w 19 0 ∨ rf u' aXlMwCfg w 27 16 ≠ q.toNat ∨
      va.toNat < base ∨ base + 4096 * rv u' aXlMwPages w < va.toNat + n ∨ rb u' aXlMwCfg w (if write then 2 else 1) = false) →
    exec (.peerWindowAccess ⟨q, k⟩ write rkey va len data) s = .next (peerDeny u' q.toNat w va.toNat write k.psn)) ∧
  (∀ (s u u' v : State) (q : BitVec 12) (k : Pkt) (write : Bool) (rkey : Word) (va : Dword) (len n w base : Nat)
    (data : Bytes) (x : Xfer),
    n = (if write then data.length else len) → Arrives s u q.toNat (if write then pkts s q.toNat n else 1) k →
    k.psn = (qp u q.toNat).epsn → qpRole s q.toNat = 2 →
    u' = (if write then dropImm (tookPsn u q.toNat (pkts s q.toNat n)) k else tookPsn u q.toNat (pkts s q.toNat n)) →
    (write = false → peerReads u' q.toNat < 16) → w = rkey.toNat % 4096 → base = rv64 u' aXlMwBaseLo w / 4096 * 4096 →
    rb u' aXlMwCfg w 0 = true → rkey.toNat / 4096 = rf u' aXlMwTag w 19 0 → rf u' aXlMwCfg w 27 16 = q.toNat →
    base ≤ va.toNat → va.toNat + n ≤ base + 4096 * rv u' aXlMwPages w → rb u' aXlMwCfg w (if write then 2 else 1) = true →
    x = { id := u'.fe.nextXfer, kind := .peer, read := !write, q := 0, n := 0, cid := BitVec.ofNat 12 (rf u' aXlMwCfg w 15 4),
          secure := false, addr := va, left := n, data := data, pieces := [BitVec.ofNat 13 q.toNat], psn := k.psn } →
    v = { u' with fe := { u'.fe with nextXfer := u'.fe.nextXfer + 1, xfers := u'.fe.xfers ++ [x] } } →
    exec (.peerWindowAccess ⟨q, k⟩ write rkey va len data) s =
      .next (if mayIssue v x then peerRun (n / 4096 + 3) v x false else v))

/-! ## Fold memory -/

/-- A request of a filled fold that is not being reset as a whole (R424) is split into runs that are queued in order, and is held by its requester where a queue has
no room; an address that the usable pasture does not have is a fault (R339, R348 to R350). A trained channel issues the
earliest head whose partition is eligible, and with BORROW the earliest other (R353). The data of the oldest issued run
returns, with the bits of its first sector that have gone wrong: a read's sectors are corrected or reported and go to the
requester, and a write's sectors are merged and stored (R343 to R345). -/
def Obligations.FoldMemoryComplete : Prop :=
  (∀ (s : State) (f : Fin 8) (part : Fin 16) (wide write : Bool) (addr len n : Nat) (data : Bytes) (rs : List Run),
    (fold s f).filled = true → fmHeld s f = false → n = (if write then data.length else len) → addr + n ≤ usable s →
    rs = reqRuns part write addr n data → runsOut (fold s f) + rs.length ≤ 1024 →
    (∀ r ∈ rs, queued (fold s f) r.part r.ch + (rs.filter (fun q => q.ch == r.ch)).length ≤ 32) →
    exec (.fmRequest f part wide write addr data len) s = .next (setFold s f { fold s f with
      runs := (fold s f).runs ++ rs.zipIdx.map (fun e => { e.1 with order := (fold s f).nextRun + e.2 })
      nextRun := (fold s f).nextRun + rs.length })) ∧
  (∀ (s : State) (f : Fin 8) (part : Fin 16) (wide write : Bool) (addr len n : Nat) (data : Bytes) (rs : List Run),
    (fold s f).filled = true → fmHeld s f = false → n = (if write then data.length else len) → addr + n ≤ usable s →
    rs = reqRuns part write addr n data → (1024 < runsOut (fold s f) + rs.length ∨
      ∃ r ∈ rs, 32 < queued (fold s f) r.part r.ch + (rs.filter (fun q => q.ch == r.ch)).length) →
    exec (.fmRequest f part wide write addr data len) s = .next s) ∧
  (∀ (s : State) (f : Fin 8) (part : Fin 16) (wide write : Bool) (addr len n : Nat) (data : Bytes),
    (fold s f).filled = true → fmHeld s f = false → n = (if write then data.length else len) → usable s < addr + n →
    exec (.fmRequest f part wide write addr data len) s = .fault (.noSuchFoldAddress addr)) ∧
  (∀ (s : State) (f : Fin 8) (ch : Fin 16) (r : Run), (mget {} (fold s f).chans ch).trained = true →
    ((unit s (2 + f.val)).st ≠ .resetting ∨ fmHeld s f = false) →
    earliest ((heads (fold s f) ch).filter (fun r => eligible s f r.part)) = some r →
    exec (.runIssue f ch) s = .next (issueRun s f r)) ∧
  (∀ (s : State) (f : Fin 8) (ch : Fin 16) (r : Run), (mget {} (fold s f).chans ch).trained = true →
    ((unit s (2 + f.val)).st ≠ .resetting ∨ fmHeld s f = false) →
    earliest ((heads (fold s f) ch).filter (fun r => eligible s f r.part)) = none →
    borrows s f = true → earliest (heads (fold s f) ch) = some r →
    exec (.runIssue f ch) s = .next (issueRun s f r)) ∧
  (∀ (s u : State) (f : Fin 8) (ch : Fin 16) (fd : BitVec 256) (fc : BitVec 16) (r : Run) (rs : List Run),
    (mget {} (fold s f).chans ch).issued = r :: rs → r.write = true →
    u = flipSector s f (addrOf ch (r.secs.headD 0)) fd fc →
    exec (.readDataReturn f ch fd fc) s = .next (storeRun (updChan u f r.ch (fun c => { c with
      issued := c.issued.filter (fun q => q.order ≠ r.order) })) f r)) ∧
  (∀ (s u : State) (f : Fin 8) (ch : Fin 16) (fd : BitVec 256) (fc : BitVec 16) (r : Run) (rs : List Run),
    (mget {} (fold s f).chans ch).issued = r :: rs → r.write = false →
    u = updChan (flipSector s f (addrOf ch (r.secs.headD 0)) fd fc) f r.ch (fun c => { c with
      issued := c.issued.filter (fun q => q.order ≠ r.order) }) →
    exec (.readDataReturn f ch fd fc) s = .next (emit ((r.secs.map (addrOf r.ch)).foldl
        (fun s a => noteSec s f none none true a) u)
      (.fmData f r.order ((r.secs.map (addrOf r.ch)).flatMap (fun a => (secRead (fold u f) a).1))
        ((r.secs.map (addrOf r.ch)).any (fun a => (secRead (fold u f) a).2)))))

/-- The scrub reads what is left of the granule it has reached, corrects and reports, and moves on; it runs in partition 15
with SCRUB_EN set (R346, R355). A refresh closes the rows of the next bank pair, delays what waits for them, and changes the
multiplier at the start of its rotation; the rates that the dies ask for are taken (R356, R357). A maintenance slot applies
a delay step that is due, starts the oscillator or reads it against the value of the last training, and begins the interval
anew (R358, R360). A step of a retraining is counted, and the last records the eyes (R361). A fill that ends fills its fold
with zeros, ends the REGION_UNMAP whose pages it zeroed, or ends the clearing of an orderly reset (R303, R316, R347,
R420, R468). -/
def Obligations.ChannelUpkeepComplete : Prop :=
  (∀ (s u : State) (f : Fin 8) (ch : Fin 16) (fd : BitVec 256) (fc : BitVec 16) (i : Nat) (as : List Nat),
    rb s (foldReg f aFmCtl) 0 1 = true → (fold s f).filled = true → chanSecs s ≠ 0 → mayFm s f 15 = true →
    i = (mget {} (fold s f).chans ch).scrubAt → as = (List.range (8 - i % 8)).map (fun k => addrOf ch (i + k)) →
    u = makeRuns (flipSector (serveBefore s f 15 as) f (addrOf ch i) fd fc) f 15 as (fun _ => true) (fun _ => false) →
    exec (.scrub f ch fd fc) s = .next (updChan (as.foldl (fun s a => noteSec s f none none true a) u) f ch
      (fun c => { c with scrubAt := (i + (8 - i % 8)) % chanSecs s }))) ∧
  (∀ (s : State) (f : Fin 8) (ch : Fin 16) (c : Chan), c = mget {} (fold s f).chans ch → c.trained = true →
    exec (.refresh f ch) s = .next (updChan (cntN s (foldReg f aFmChRefWait) ch
        (delayed (fold s f) ch (fun k => k % 8 == c.pair.toNat))) f ch (fun _ => { c with
      refMult := if c.pair = 0 then c.refNext else c.refMult, pair := c.pair + 1, intervals := c.intervals + 1
      openRow := mset 0 (mset 0 c.openRow c.pair.toNat 0) (c.pair.toNat + 8) 0 }))) ∧
  (∀ (s : State) (f : Fin 8) (rates : List (Fin 3)),
    exec (.refreshRateRead f rates) s = .next (rates.zipIdx.foldl (fun s e =>
      if e.2 < 16 ∧ (mget {} (fold s f).chans e.2).trained = true then updChan s f e.2 (fun c => { c with
        refNext := BitVec.ofNat 2 e.1, hot := c.hot || e.1.val == 2 }) else s) s)) ∧
  (∀ (s u : State) (f : Fin 8) (ch : Fin 16) (osc : Int) (c d : Chan), c = mget {} (fold s f).chans ch → c.trained = true →
    u = cntN s (foldReg f aFmChRefWait) ch (delayed (fold s f) ch (fun _ => true)) → c.pendingStep = none →
    d = (if c.oscStarted then { c with
        oscStarted := false, intervals := 0,
        pendingStep := if driftLim u f < (osc - c.oscBase).natAbs then some (decide (c.oscBase < osc)) else none }
      else { c with oscStarted := true, intervals := 0 }) →
    exec (.maintenanceSlot f ch osc) s = .next (updChan u f ch (fun _ => d))) ∧
  (∀ (s u : State) (f : Fin 8) (ch : Fin 16) (osc : Int) (c d : Chan) (up : Bool), c = mget {} (fold s f).chans ch →
    c.trained = true → c.pendingStep = some up → c.oscStarted = false →
    u = cnt (cntN s (foldReg f aFmChRefWait) ch (delayed (fold s f) ch (fun _ => true))) (foldReg f aFmChDriftStep) ch →
    d = { c with
      pendingStep := none, delay := if up then c.delay + 1 else c.delay - 1, driftSteps := c.driftSteps + 1,
      driftFlag := c.driftFlag || c.driftSteps + 1 == 8, oscStarted := true, intervals := 0 } →
    d.driftFlag = c.driftFlag → exec (.maintenanceSlot f ch osc) s = .next (updChan u f ch (fun _ => d))) ∧
  (∀ (s : State) (f : Fin 8) (ch : Fin 16) (rdEye wrEye vref : Byte) (c : Chan), c = mget {} (fold s f).chans ch →
    s.pc.replanning = true → c.trained = true → foldSkipped s f = false → (∀ e ∈ (fold s f).chans, e.1 ≠ ch.val → e.2.retraining = false) →
    exec (.retrainStep f ch rdEye wrEye vref false) s = .next (updChan s f ch (fun _ => { c with
      retraining := true, steps := if c.retraining then c.steps + 1 else 1 }))) ∧
  (∀ (s : State) (f : Fin 8) (ch : Fin 16) (rdEye wrEye vref : Byte) (c : Chan), c = mget {} (fold s f).chans ch →
    s.pc.replanning = true → c.trained = true → foldSkipped s f = false → (∀ e ∈ (fold s f).chans, e.1 ≠ ch.val → e.2.retraining = false) →
    ∃ l, (∀ k, k ∈ l ↔ k = 16 * f.val + ch.val ∨ k ∈ s.pc.retrained) ∧
    exec (.retrainStep f ch rdEye wrEye vref true) s = .next (updChan { (draw s).2 with pc := { s.pc with
      draws := (draw s).2.pc.draws, retrained := l } } f ch (fun _ => { c with
      retraining := false, steps := if c.retraining then c.steps + 1 else 1
      rdEye := rdEye, wrEye := wrEye, vref := vref, driftSteps := 0, oscBase := (draw s).1, oscStarted := false }))) ∧
  (∀ (s w : State) (f : Fin 8) (ms : Nat), heldInReset s = false → stage s = 7 → (fold s f).disabled = false →
    (fold s f).filled = false → foldTrained s f = true → w = fmFillAll (updFold s f (fun x => { x with
      pasture := [], check := [], pen := [], penPoison := [], dir := [], masters := [], filled := true })) f →
    exec (.fillDone (.boot f ms)) s = .next (if allFilled w then enterReady w ms else w)) ∧
  (∀ (s : State) (i : Nat) (c : Cmd), (region s i).unmapping = true → mayFm s (region s i).unit.toNat 15 = true →
    (region s i).base < regionTop s (region s i) →
    s.fe.cmds.find? (fun c => cOp c == 20 && c.q == 0 && c.phase == .unit && cF c 16 2 == i) = some c →
    exec (.fillDone (.unmap i)) s = .next (finish
      (setRegion (fmFill s (region s i).unit.toNat (region s i).base (regionTop s (region s i))) i {}) 0 c.n 0)) ∧
  (∀ (s : State) (c : BitVec 4), s.pc.orderly = some c →
    exec (.fillDone .clear) s = .next (wholeReset s c.toNat))

/-- The registers of fold memory and of the matrix array: FM_PART_RATE sets a partition's share and FM_ECC_INJ and
MA_RES_INJ arm an injection, each from the secure world (R205, R344, R352). -/
def Obligations.InjectionRegistersComplete : Prop :=
  (∀ (s : State) (a : Acc) (f : Fin 8) (v : Word), mayAccess s a = true → a.secure = true →
    exec (.fmPartRate a f v) s = .next (rset s (foldReg f aFmPartRate) (selOf s a.who (foldReg f aFmPartSel) % 16)
      (v.toNat % 1024 + 65536 * bits v.toNat 25 16))) ∧
  (∀ (s : State) (a : Acc) (f : Fin 8) (v : Word), mayAccess s a = true → a.secure = true →
    exec (.fmEccInj a f v) s = .next (rset s (foldReg f aFmEccInj) 0 (b2n (rb s (foldReg f aFmEccInj) 0 0 || bit v.toNat 0) +
      2 * b2n (bit v.toNat 1) + 16 * bits v.toNat 7 4))) ∧
  (∀ (s : State) (a : Acc) (c : Core2) (v : Word), mayAccess s a = true → a.secure = true →
    exec (.maResInj a c v) s = .next (rset s (coreReg c aMaResInj) 0 (v.toNat % 2))) ∧
  (∀ (s : State) (a : Acc) (f : Fin 8) (v : Word), mayAccess s a = true → a.secure = false →
    exec (.fmEccInj a f v) s = .next (worldViolation s blkFM f (foldReg f aFmEccInj) a.who))

/-! ## Faults and the reset of a unit -/

/-- A corrected error is counted, on its channel or its core too where that counts them; an illegal bundle is recorded; an
uncorrectable error is handled by its structure, privileged or not; in a containment reset a report is ignored (R400, R401,
R421). A residue mismatch marks its element and is reported to the launch that runs (R205, R409). A record closes when its
hold ends, FLOG_CONS frees records, a module that is lost is recorded and with its pair costs its fold, and containment
ends (R400, R413, R416, R418). -/
def Obligations.ErrorEventsComplete : Prop :=
  (∀ (s u : State) (e : ErrRep), s.pc.orderly ≠ some 3 → heldInReset s = false → e.corrected = true →
    u = ceCount s e.code.toNat e.block.toNat e.inst.toNat →
    exec (.errorReport e) s = .next (if e.code = 1 then
        cnt u (foldReg (e.inst.toNat % 8) aFmChCe) (bits e.location.toNat 51 48)
      else if e.code = 9 then cnt u (coreReg (e.inst.toNat % 2) aMaCntEcc) else u)) ∧
  (∀ (s : State) (e : ErrRep), s.pc.orderly ≠ some 3 → heldInReset s = false → e.corrected = false → e.illegal = true →
    exec (.errorReport e) s = .next (logEv s (ueEv s e 8 e.location.toNat e.detail.toNat 0))) ∧
  (∀ (s : State) (e : ErrRep), s.pc.orderly ≠ some 3 → heldInReset s = false → e.corrected = false → e.illegal = false →
    privCode e.code.toNat = true → exec (.errorReport e) s = .next (privError s e)) ∧
  (∀ (s : State) (e : ErrRep), s.pc.orderly ≠ some 3 → heldInReset s = false → e.corrected = false → e.illegal = false →
    privCode e.code.toNat = false → exec (.errorReport e) s = .next (structError s e)) ∧
  (∀ (s : State) (e : ErrRep), s.pc.orderly = some 3 → exec (.errorReport e) s = .next s) ∧
  (∀ (s : State) (c : Core2) (set : BitVec 2) (bundle : BitVec 17) (m : BitVec 5) (n : Byte) (k : Nat),
    closed s = false → (core s c).run = some k → exec (.residueMismatch c ⟨set, m, n⟩ bundle) s = .next (residueReport
      (updCore s c (fun x => suspectOut x k set.toNat bundle.toNat m.toNat n.toNat)) c k (cslot (core s c) k).req set.toNat
      bundle.toNat)) ∧
  (∀ (s : State) (recno : Word), (flogAt s (recno.toNat % 256)).recno = recno → (flogAt s (recno.toNat % 256)).open_ = true →
    exec (.faultRecordClose recno) s =
      .next (setFlog s (recno.toNat % 256) { flogAt s (recno.toNat % 256) with open_ := false })) ∧
  (∀ (s : State) (a : Acc) (v : Word), mayAccess s a = true → a.secure = true →
    exec (.igFlogCons a v) s = .next (rset s aIgFlogCons 0 v.toNat)) ∧
  (∀ (s : State) (f : Fin 8) (m : Fin 2) (retrained : Bool), closed s = false → heldInReset s = false →
    exec (.ucieModuleDown f m retrained) s = .next (moduleDown (draw s).2 f m retrained (draw s).1)) ∧
  (∀ (s : State), exec .containmentDone s = .next (rsetF s aIgStat 0 0 0 0))

/-- A reset of a unit is asked for by the part and by the driver; in an orderly reset QUIET changes nothing (R457); when
the unit is quiet, or its deadline has come, its generation advances, a UNIT_RESET record opens and what the scope ends ends; when the reset is done a core is fresh and in
service, an RU recovers first, and a gather engine goes on with what waits for its migrations (R416, R421, R423 to
R425). -/
def Obligations.UnitResetComplete : Prop :=
  (∀ (s : State) (k : Core2) (sc : Scope) (cause : Word), closed s = false → heldInReset s = false →
    exec (.unitResetRequest (.core k) sc cause) s = .next (wantReset s (unitNo (.core k)) .whole cause)) ∧
  (∀ (s : State) (f : Fin 8) (sc : Scope) (cause : Word), closed s = false → heldInReset s = false →
    exec (.unitResetRequest (.fold f) sc cause) s = .next (wantReset s (unitNo (.fold f)) sc cause)) ∧
  (∀ (s : State) (a : Acc) (v : Word) (u : Nat), mayAccess s a = true → a.secure = true → bit v.toNat 0 = true →
    u = min 9 (selOf s a.who aIgUnitSel % 16) → exec (.igUrst a v) s = .next (wantReset s u
      (if u < 2 then .whole else if bits v.toNat 2 1 = 0 then .gx else if bits v.toNat 2 1 = 1 then .ru else .whole)
      0xFFFFFFFF)) ∧
  (∀ (s : State) (u : UnitId) (late : Option Word), closed s = true → exec (.quiet u late) s = .next s) ∧
  (∀ (s v w y : State) (u : UnitId) (late : Option Word) (x : Unit_) (b : Nat), closed s = false → x = unit s (unitNo u) →
    x.st = .quiescing →
    b = scopeBlk (unitNo u) x.scope →
    v = (match late with
      | some n => logEv s { cls := 7, block := b, inst := unitInst (unitNo u), detail := n.toNat, gen := x.gen.toNat }
      | none => s) →
    w = updUnit (closeRecs v (scopeUnits (unitNo u) x.scope)) (unitNo u)
      (fun y => { y with st := .resetting, gen := x.gen + 1, last := some v.np.ns }) →
    y = (match u with | .core _ => w | .fold f => updFold w f (fun z => { z with bornAt := z.nextProg })) →
    exec (.quiet u late) s = .next (settle (unitEnds (logEv (cnt y aIgCntUnitReset)
      { cls := 9, block := b, inst := unitInst (unitNo u), location := x.cause.toNat
        detail := (x.gen + 1).toNat + 256 * scopeCode (unitNo u) x.scope, gen := (x.gen + 1).toNat }) (unitNo u) x.scope))) ∧
  (∀ (s : State) (c : Fin 2), (unit s (unitNo (.core c))).st = .resetting →
    exec (.unitResetDone (.core c)) s = .next (updUnit (coreFresh s c) c (fun x => { x with st := .service }))) ∧
  (∀ (s u w : State) (f : Fin 8) (x : Unit_), x = unit s (unitNo (.fold f)) → x.st = .resetting →
    u = (if x.scope = .gx then s else rsetF s (foldReg f aRuStat) 0 0 0 1) →
    w = (if x.scope = .whole ∧ (fold u f).disabled = false then
      rsetF (updFold u f (fun y => { y with mods := 0 })) aPcClkStat 0 (1 + f) (1 + f) 1 else u) →
    exec (.unitResetDone (.fold f)) s = .next ((fun t => if x.scope = .ru then t else
        (List.range 64).foldl (fun s _ => nextWaiting s f) t)
      (updUnit w (2 + f) (fun y => { y with st := if rb w (foldReg f aRuStat) 0 0 then .recovering else .service }))))

/-! ## Resets and the boot -/

/-- The resets of the whole part: PWRGOOD with its gap of 10 ms, RESET_N, a thermal trip, a lost root clock, the boot
watchdog and PC_RST_CTL, each with its cause, what it clears and what it keeps; a pulse that is not accepted, and RESET_N
during a trip, change nothing (R453, R454, R455, R457, R463, R480, R485). -/
def Obligations.WholeResetsComplete : Prop :=
  (∀ (s : State) (ns : Nat) (acc : Bool) (straps : List (BitVec 3)), pulseOk ns acc = true →
    ∃ t, exec (.pwrgoodFall ns acc straps) s = .next (strap t straps) ∧
      t = { powerReset s with pc := { (powerReset s).pc with
        pwrgood := false, pwrPin := false, pwrGap := true, tripped := false } } ∧
      t.folds = [] ∧ t.cores = [] ∧ t.tables = [] ∧ t.fe = State.reset.fe ∧ t.np = State.reset.np ∧ t.ig = State.reset.ig ∧
      t.pending = s.pending ∧ t.tx = s.tx) ∧
  (∀ (s : State), exec .pwrgoodRise s = .next { s with pc := { s.pc with
    pwrPin := true, pwrgood := s.pc.pwrgood || !s.pc.pwrGap } }) ∧
  (∀ (s : State) (ns : Nat) (acc : Bool) (straps : List (BitVec 3)), pulseOk ns acc = true → s.pc.tripped = false →
    s.pc.pwrgood = true →
    ∃ t, exec (.resetNAssert ns acc straps) s = .next (strap t straps) ∧
      t = { wholeReset s 1 with pc := { (wholeReset s 1).pc with resetN := false } } ∧ t.folds = [] ∧ t.cores = [] ∧
      t.tables = [] ∧ t.fe = State.reset.fe ∧ t.ig.flog = s.ig.flog ∧ rv t aPcRstCause = 1) ∧
  (∀ (s : State) (ns : Nat) (acc : Bool) (straps : List (BitVec 3)), pulseOk ns acc = false →
    exec (.resetNAssert ns acc straps) s = .next s) ∧
  (∀ (s : State) (ns : Nat) (acc : Bool) (straps : List (BitVec 3)), pulseOk ns acc = true → s.pc.tripped = true →
    exec (.resetNAssert ns acc straps) s = .next { s with pc := { s.pc with resetN := false } }) ∧
  (∀ (s : State) (ns : Nat) (acc : Bool) (straps : List (BitVec 3)), pulseOk ns acc = false →
    exec (.pwrgoodFall ns acc straps) s = .next s) ∧
  (∀ (s : State), exec .resetNRelease s = .next { s with pc := { s.pc with resetN := true } }) ∧
  (∀ (s : State), s.pc.pwrgood = true → s.pc.tripped = false →
    ∃ t, exec .thermtrip s = .next { t with pc := { t.pc with tripped := true } } ∧ t = wholeReset s 7 ∧
      rv t aPcRstCause = 7 ∧ t.fe = State.reset.fe ∧ t.ig.flog = s.ig.flog) ∧
  (∀ (s : State), heldInReset s = false → rb s aPcClkStat 0 0 = true →
    ∃ t, exec .rootPllLoss s = .next (rsetF t aPcClkStat 0 9 9 1) ∧ t = wholeReset s 6 ∧ rv t aPcRstCause = 6 ∧
      t.fe = State.reset.fe ∧ t.ig.flog = s.ig.flog) ∧
  (∀ (s : State), heldInReset s = false → 5 ≤ stage s → stage s < 8 →
    ∃ t, exec .bootWatchdog s = .next t ∧ t = wholeReset s 5 ∧ rv t aPcRstCause = 5 ∧
      rv t aPcBootTries = min 3 (rv s aPcBootTries + 1) ∧ t.ig.flog = s.ig.flog) ∧
  (∀ (s : State) (a : Acc) (v : Word), mayAccess s a = true → a.secure = true → bit v.toNat 0 = true →
    ∃ t, exec (.pcRstCtlWhole a v) s = .next t ∧ t = startOrderly s 4 stUnitReset ∧ t.pc.orderly = some 4 ∧
      t.np.sessions = [] ∧ t.np.qps = [] ∧ t.fe.queues = [] ∧ t.fe.cmds = [] ∧ rv t aXlTgtRkey = 0)

/-- The clocks: the root clock locks and stage 1 begins, its third time-out halts the part on REFCLK, and a lost fold clock,
Ethernet or Drove reference costs what it clocks: a fold and its modules, the MACs named (no queue pair is reset), and each
Drove link that was up, in ascending order (R452, R458, R465). -/
def Obligations.ClocksComplete : Prop :=
  (∀ (s : State), heldInReset s = false → stage s = 0 → exec .rootPllLock s =
    .next (setStage (rset { s with pc := { s.pc with pllTries := 0 } } aPcClkStat 0 1) 1)) ∧
  (∀ (s : State), heldInReset s = false → stage s = 0 → s.pc.pllTries + 1 < 3 →
    exec .rootPllLockTimeout s = .next { s with pc := { s.pc with pllTries := s.pc.pllTries + 1 } }) ∧
  (∀ (s : State), heldInReset s = false → stage s = 0 → 3 ≤ s.pc.pllTries + 1 →
    ∃ t, exec .rootPllLockTimeout s = .next t ∧ stage t = 15 ∧ rf t aPcBootStat 0 23 16 = 8 ∧
      rb t aPcClkStat 0 9 = true ∧ t.np.linkUp = []) ∧
  (∀ (s : State) (f : Fin 8), closed s = false → heldInReset s = false → rb s aPcClkStat 0 (1 + f) = true →
    exec (.foldPllLoss f) s = .next (
      let d := draw (rsetF s aPcClkStat 0 (1 + f) (1 + f) 0)
      moduleDown (moduleDown (draw d.2).2 f 0 false d.1) f 1 false (draw d.2).1)) ∧
  (∀ (s : State) (macs : List (Fin 9)),
    ∃ t, exec (.ethReferenceLoss macs) s = .next t ∧ (∀ m ∈ macs, mget false t.np.linkUp m = false) ∧
      (∀ k, (∀ m ∈ macs, m.val ≠ k) → mget false t.np.linkUp k = mget false s.np.linkUp k) ∧ t.np.qps = s.np.qps) ∧
  (∀ (s : State), exec .droveReferenceLoss s = .next ((List.range 32).foldl (fun u l =>
    if (link u l).st = .up then leaveUp u l .training else u) s))

/-- The stages of the boot, each in its own stage: the ROM's digest; the identity, whose failure disables the folds; the
image or the fallback, whose datagrams are gathered and answered; the firmware; the folds; and the memory, where a fold with
a channel that failed is disabled and the others are filled (R441, R445, R458 to R460, R462 to R466). -/
def Obligations.BootComplete : Prop :=
  (∀ (s : State) (rom : Bytes), heldInReset s = false → stage s = 1 →
    exec (.romSelf rom) s = .next (setStage { s with pc := { s.pc with romDigest := sha3 rom } } 2)) ∧
  (∀ (s v w : State) (rec helper r x : Bytes) (blocks seeds : List Bytes) (good : Option Bytes) (idOk : Bool),
    heldInReset s = false → stage s = 2 → s.pc.puf = none → r = slice rec 0 5396 →
    seeds = (blocks.take 3).map (fun b => slice (Config.pufSeed (slice b 0 16384) helper) 0 32) →
    good = seeds.find? (fun x => Config.mldsaPublic (idSeed x) == slice r 64 1312) →
    x = (if recordOk r then good.getD [] else seeds.headD []) →
    idOk = (recordOk r && sha3 helper == slice r 32 32 && good.isSome) →
    v = rsetF { s with pc := { s.pc with record := r, helper := helper, seed := x, puf := none } } aPcSecStat 0 1 0
      (if idOk then 3 else if recordOk r then 1 else 0) →
    w = (if idOk then v else rsetF (rsetF ((List.range 8).foldl (fun s f => updFold s f (fun x => { x with disabled := true }))
      (setCode v (if recordOk r then 6 else 5))) aPcBootStat 0 12 5 255) aPcBootStat 0 14 13 3) →
    exec (.identity rec helper blocks) s = .next (if rv w aPcBootTries = 3 then toFallback w else setStage w 3)) ∧
  (∀ (s : State) (img : Bytes), heldInReset s = false → stage s = 3 → exec (.imageSpi img) s =
    .next (if imageCode img = 0 then runImage s img 0 else toFallback (setCode s (imageCode img)))) ∧
  (∀ (s : State) (fr : Frame) (d puf : Bytes) (m : Map Bytes), heldInReset s = false → stage s = 4 → fbOk d = true →
    FrameIn s fr → fr.mac = 8 →
    m = mput (if s.pc.fbTotal = fld d 4 4 then s.pc.fbPieces else []) (fld d 8 4) (d.drop 16) → fbHeld m < fld d 4 4 →
    exec (.fallbackDatagram ⟨fr, d, puf⟩) s = .next (emit { s with pc := { s.pc with fbTotal := fld d 4 4, fbPieces := m } }
      (.fallback ([1, 0, 0, 0] ++ toLE 4 (fld d 4 4) ++ toLE 4 (fbHeld m) ++ toLE 4 0)))) ∧
  (∀ (s u : State) (fr : Frame) (d img puf : Bytes) (m : Map Bytes), heldInReset s = false → stage s = 4 →
    fbOk d = true → FrameIn s fr → fr.mac = 8 →
    m = mput (if s.pc.fbTotal = fld d 4 4 then s.pc.fbPieces else []) (fld d 8 4) (d.drop 16) → fld d 4 4 ≤ fbHeld m →
    img = m.flatMap (·.2) → u = emit { s with pc := { s.pc with fbTotal := fld d 4 4, fbPieces := m } }
      (.fallback ([1, 0, 0, 0] ++ toLE 4 (fld d 4 4) ++ toLE 4 (fbHeld m) ++ toLE 4 0)) →
    exec (.fallbackDatagram ⟨fr, d, puf⟩) s = .next (if imageCode img = 0 then runImage (rereadPuf u puf) img 1
      else setCode { u with pc := { u.pc with fbTotal := 0, fbPieces := [] } } (imageCode img))) ∧
  (∀ (s : State) (fr : Frame) (d puf : Bytes), FrameIn s fr → stage s = 4 → fbOk d = false →
    exec (.fallbackDatagram ⟨fr, d, puf⟩) s = .next (rxDrop s)) ∧
  (∀ (s : State) (img puf : Bytes), heldInReset s = false → stage s = 4 → exec (.fallbackSpiRetry ⟨img, puf⟩) s =
    .next (if imageCode img = 0 then runImage (rereadPuf s puf) img 0 else setCode s (imageCode img))) ∧
  (∀ (s : State) (coreFail : BitVec 2) (up : StartUp), heldInReset s = false → stage s = 5 →
    exec (.fwStart false coreFail up) s = .next (halt (sramFailed (newNonce (makeKeys s))) 9)) ∧
  (∀ (s u w : State) (coreFail : BitVec 2) (mgmtUp : Bool) (ms : Nat), heldInReset s = false → stage s = 5 →
    u = (bitsSet 2 coreFail.toNat).foldl coreFailed (newNonce (makeKeys s)) →
    w = (if mgmtUp then bootMac u else setCode (setMac u 8 false) 12) →
    exec (.fwStart true coreFail ⟨mgmtUp, ms⟩) s = .next (if recFlag w && idFlag w then trainLinks (setStage w 6)
      else enterReady w ms)) ∧
  (∀ (s : State) (pll ucie : Byte) (attempts : Nat), heldInReset s = false → stage s = 6 →
    exec (.folds ⟨pll, ucie⟩ attempts) s = .next (setStage (rsetF
      ((bitsSet 8 (Nat.lor pll.toNat ucie.toNat)).foldl (foldFailed attempts) s) aPcClkStat 0 8 1 (255 - pll.toNat)) 7)) ∧
  (∀ (s w v : State) (fail : BitVec 128) (up : List Nat) (eyes : List (Byte × Byte × Byte)) (m : BootMeas) (ms : Nat),
    heldInReset s = false → stage s = 7 → s.pc.plan = [] →
    up = (List.range 8).filter (fun f => !(fold s f).disabled) →
    w = up.foldl (trainFold fail eyes) s →
    v = (up.filter (fun f => bits fail.toNat (16 * f + 15) (16 * f) ≠ 0)).foldl (foldFailed 3) w →
    ∃ u, u = makePlan { v with pc := { v.pc with
          retrained := (up.filter (fun f => !(fold v f).disabled)).flatMap (fun f => (List.range 16).map (fun k => 16 * f + k)) } }
        true 0 m.sites1 m.sites2 { links := [], eth := m.eth, ucie := m.ucie, skipLink := false, skipFold := false } {}
        m.acks ∧
      exec (.memory fail eyes m ms) s = .next (if allFilled u then enterReady u ms else u))

/-- The flash from the firmware: each operation of the aligned address starts while nothing runs and not below 0x10000, an
operation below it is refused with ERR, and an operation ends with its data or with ERR (R459, R461, R469). -/
def Obligations.FlashComplete : Prop :=
  (∀ (s : State) (a : Acc) (v : Word), mayAccess s a = true → a.secure = true → s.pc.flash = none → v.toNat % 32 = 1 →
    0x10000 ≤ flashAddr s 65536 → exec (.pcFlashErase a v) s =
      .next (rsetF { s with pc := { s.pc with flash := some (.erase (flashAddr s 65536)) } } aPcFlashCtl 0 3 3 1)) ∧
  (∀ (s : State) (a : Acc) (v : Word), mayAccess s a = true → a.secure = true → s.pc.flash = none → v.toNat % 32 = 2 →
    0x10000 ≤ flashAddr s 4096 → exec (.pcFlashProgram a v) s = .next (rsetF { s with pc := { s.pc with
      flash := some (.program (flashAddr s 4096) (rbytes s aPcFlashBuf 0 1024)) } } aPcFlashCtl 0 3 3 1)) ∧
  (∀ (s : State) (a : Acc) (v : Word), mayAccess s a = true → a.secure = true → s.pc.flash = none → v.toNat % 32 = 4 →
    0x10000 ≤ flashAddr s 4096 → exec (.pcFlashRead a v) s =
      .next (rsetF { s with pc := { s.pc with flash := some (.read (flashAddr s 4096)) } } aPcFlashCtl 0 3 3 1)) ∧
  (∀ (s : State) (a : Acc) (v : Word), mayAccess s a = true → a.secure = true → s.pc.flash = none →
    (v.toNat % 32 = 1 → flashAddr s 65536 < 0x10000 → exec (.pcFlashErase a v) s = .next (rsetF s aPcFlashCtl 0 4 4 1)) ∧
    (v.toNat % 32 = 2 → flashAddr s 4096 < 0x10000 → exec (.pcFlashProgram a v) s = .next (rsetF s aPcFlashCtl 0 4 4 1)) ∧
    (v.toNat % 32 = 4 → flashAddr s 4096 < 0x10000 → exec (.pcFlashRead a v) s = .next (rsetF s aPcFlashCtl 0 4 4 1))) ∧
  (∀ (s : State) (a : Acc) (v : Word), mayAccess s a = true → v.toNat % 32 < 8 → a.secure = false ∨ s.pc.flash.isSome = true →
    exec (.pcFlashErase a v) s = .next s ∧ exec (.pcFlashProgram a v) s = .next s ∧ exec (.pcFlashRead a v) s = .next s) ∧
  (∀ (s : State) (data : Bytes) (op : FlashOp), s.pc.flash = some op → exec (.flashOpDone false data) s =
    .next (match op with
      | .read _ => rsetBytes (rsetF { s with pc := { s.pc with flash := none } } aPcFlashCtl 0 3 3 0) aPcFlashBuf 0
        (slice data 0 4096)
      | _ => rsetF { s with pc := { s.pc with flash := none } } aPcFlashCtl 0 3 3 0)) ∧
  (∀ (s : State) (data : Bytes) (op : FlashOp), s.pc.flash = some op → exec (.flashOpDone true data) s =
    .next (rsetF (rsetF { s with pc := { s.pc with flash := none } } aPcFlashCtl 0 3 3 0) aPcFlashCtl 0 4 4 1))

/-! ## Margins, power and pins -/

/-- The firmware's loops: readings are stored, and 60 low ones re-plan where it is enabled; the thermal and the power duty
take their steps; energy adds up; a plan is put in force; a rail's retry is made; the telemetry bytes are refreshed; and
re-plans start by their period and by the register (R475, R490, R492 to R495, R500, R502 to R504). -/
def Obligations.LoopsComplete : Prop :=
  (∀ (s u w : State) (m : Reading), fwRuns s = true → m.sites.length = 64 →
    u = (emergency (emergency (takeSites s m.sites) m.acks 0).1 (emergency (takeSites s m.sites) m.acks 0).2 1).1 →
    w = { u with pc := { u.pc with lowCore := lowRun u 0 u.pc.lowCore, lowFold := lowRun u 1 u.pc.lowFold } } →
    (rb u aPcMarginCtl 0 24 = false ∨ (w.pc.lowCore < 60 ∧ w.pc.lowFold < 60) → exec (.monitorRead m) s = .next w) ∧
    (rb u aPcMarginCtl 0 24 = true → 60 ≤ w.pc.lowCore ∨ 60 ≤ w.pc.lowFold → exec (.monitorRead m) s =
      .next (startReplan { w with pc := { w.pc with
        lowCore := if 60 ≤ w.pc.lowCore then 0 else w.pc.lowCore
        lowFold := if 60 ≤ w.pc.lowFold then 0 else w.pc.lowFold } } 2))) ∧
  (∀ (s u : State) (elapsed10 : Bool), fwRuns s = true → u = (if s.pc.duty < 16 then cnt s aPcCntThrMs else s) →
    ((∃ x ∈ s.pc.sites, (16 * rf s aPcThrCtl 0 7 0 : Int) ≤ x.temp) ∨ anyHot s = true →
      exec (.thermalLoop elapsed10) s = .next { u with pc := { u.pc with thermDuty := stepDown s.pc.thermDuty } }) ∧
    ((∀ x ∈ s.pc.sites, x.temp < (16 * rf s aPcThrCtl 0 7 0 : Int) - 80) → anyHot s = false →
      exec (.thermalLoop true) s = .next { u with pc := { u.pc with thermDuty := stepUp s.pc.thermDuty } }) ∧
    ((∀ x ∈ s.pc.sites, x.temp < (16 * rf s aPcThrCtl 0 7 0 : Int)) → anyHot s = false →
      exec (.thermalLoop false) s = .next u)) ∧
  (∀ (s u : State) (mw mean : Word) (energy : Dword), fwRuns s = true →
    u = rset64 (rset s aPcPwrTotal 0 mw.toNat) aPcEnergyLo 0
      ((rv64 (rset s aPcPwrTotal 0 mw.toNat) aPcEnergyLo 0 + energy.toNat) % 2 ^ 64) →
    (s.pc.powMs + 1 < 10 →
      exec (.powerLoop mw mean energy) s = .next { u with pc := { u.pc with powMs := s.pc.powMs + 1 } }) ∧
    (9 ≤ s.pc.powMs → 1000 * rf u aPcThrCtl 0 19 8 < mean.toNat → exec (.powerLoop mw mean energy) s =
      .next { u with pc := { u.pc with powMs := 0, powDuty := stepDown u.pc.powDuty } }) ∧
    (9 ≤ s.pc.powMs → 100 * mean.toNat < 95 * (1000 * rf u aPcThrCtl 0 19 8) → exec (.powerLoop mw mean energy) s =
      .next { u with pc := { u.pc with powMs := 0, powDuty := stepUp u.pc.powDuty } }) ∧
    (9 ≤ s.pc.powMs → mean.toNat ≤ 1000 * rf u aPcThrCtl 0 19 8 → 95 * (1000 * rf u aPcThrCtl 0 19 8) ≤ 100 * mean.toNat →
      exec (.powerLoop mw mean energy) s = .next { u with pc := { u.pc with powMs := 10 } })) ∧
  (∀ (s u v : State) (sites1 sites2 : List Site) (links : List Half) (eth ucie : List Byte) (failed : List (Fin 32))
    (acks1 acks2 : Acks) (done : List Nat) (skip : Bool), s.pc.replanning = true → closed s = false → heldInReset s = false →
    sites1.length = 64 → sites2.length = 64 → retrainLinks s failed = (v, done, skip) →
    u = makePlan v false v.pc.replanReason.toNat sites1 sites2
      { links := (List.range 32).map (fun l => if done.contains l then (links[l]?).getD 0 else 0), eth := eth, ucie := ucie,
        skipLink := skip, skipFold := (List.range 8).any (fun f => !(fold v f).disabled && foldSkipped v f) } acks1 acks2 →
    (rb u aPcMarginCtl 0 25 = false → exec (.replan sites1 sites2 links eth ucie failed acks1 acks2) s = .next u) ∧
    (rb u aPcMarginCtl 0 25 = true → exec (.replan sites1 sites2 links eth ucie failed acks1 acks2) s =
      .next ((List.range 8).foldl (fun w f => if ((ucie.drop (2 * f)).take 2).any (fun m => m.toNat < 4)
        then wantReset w (2 + f) .whole 0xFFFFFFFF else w) u))) ∧
  (∀ (s : State), rf s aPcMarginCtl 0 7 0 ≠ 0 → exec .replanPeriod s = .next (startReplan s 1)) ∧
  (∀ (s : State) (a : Acc) (v : Word), mayAccess s a = true → a.secure = true → bit v.toNat 26 = true →
    exec (.replanRequest a v) s = .next (startReplan (rset s aPcMarginCtl 0 (v.toNat % 2 ^ 26)) 5)) ∧
  (∀ (s : State), closed s = false → heldInReset s = false → s.pc.replanning = false → stage s = 8 ∨ stage s = 9 →
    ∀ r : Nat, startReplan s r = rsetF { s with pc := { s.pc with
      replanning := true, replanReason := BitVec.ofNat 8 r, retrained := [], skipFolds := [] } } aPcMarginStat 0 0 0 1) ∧
  (∀ (s : State) (acks : Acks), fwRuns s = true → s.pc.avsRetry ≠ [] → exec (.avsRetry acks) s =
    .next (s.pc.avsRetry.foldl (fun s d => if (acksOf acks d).headD true = true
      then setRail { s with pc := { s.pc with avsRetry := s.pc.avsRetry.filter (fun x => x != d) } } d 800
      else cnt (emit s (.avs d 800)) aPcCntAvsErr) s)) ∧
  (∀ (s : State) (rails : List Word) (hours : Word), fwRuns s = true →
    ∃ b, exec (.telemetryRefresh rails hours) s = .next { s with pc := { s.pc with telemetry := b } } ∧ b.length = 192 ∧
      slice b 0 2 = toLE 2 (tc 16 (maxInt ((s.pc.sites.take 40).map (·.temp)))) ∧
      slice b 2 2 = toLE 2 (tc 16 (maxInt (((s.pc.sites.drop 40).take 24).map (·.temp)))) ∧
      slice b 21 2 = toLE 1 s.pc.duty ++ toLE 1 (dutyCauses s) ∧ slice b 24 4 = toLE 4 (rv s aPcPwrTotal) ∧
      slice b 48 8 = toLE 8 (rv64 s aPcEnergyLo 0) ∧ slice b 56 4 = toLE 2 (railMv s 0) ++ toLE 2 (railMv s 1) ∧
      slice b 64 8 = toLE 4 s.pc.planNo ++ toLE 4 hours.toNat)

/-- The conditioned inputs: outside a gap a change of level is accepted and a gap begins; within it the change is counted and
only the filtered level follows, and the sixty-fourth such edge of PAIR_SYNC_IN within 1 ms makes that pin faulty; the gap's
end, the stuck timer and the re-arm timer act on each input (R393, R478 to R481). -/
def Obligations.PinsComplete : Prop :=
  (∀ (s : State) (low : Bool),
    (s.pc.alert.filtered ≠ low → s.pc.alert.inGap = false → exec (.thermAlertN low) s =
      .next { s with pc := { s.pc with
        alert := { s.pc.alert with filtered := low, accepted := low, inGap := true } } }) ∧
    (s.pc.alert.filtered ≠ low → s.pc.alert.inGap = true → exec (.thermAlertN low) s =
      .next (cnt { s with pc := { s.pc with alert := { s.pc.alert with filtered := low } } } aPcCntAlertIgn)) ∧
    (s.pc.throttle.filtered ≠ low → s.pc.throttle.inGap = false → exec (.forceThrottleN low) s =
      .next { s with pc := { s.pc with
        throttle := { s.pc.throttle with filtered := low, accepted := low, inGap := true } } }) ∧
    (s.pc.throttle.filtered ≠ low → s.pc.throttle.inGap = true → exec (.forceThrottleN low) s =
      .next (cnt { s with pc := { s.pc with throttle := { s.pc.throttle with filtered := low } } } aPcCntThrottleIgn))) ∧
  (∀ (s : State) (high : Bool), s.pc.sync.filtered ≠ high → s.pc.sync.inGap = false → exec (.pairSyncIn high) s =
    .next { s with
      pc := { s.pc with sync := { s.pc.sync with filtered := high, accepted := high, inGap := true } }
      dl := { s.dl with pinAlive := s.dl.pinAlive || !s.pc.sync.faulty } }) ∧
  (∀ (s u w : State) (high : Bool) (es : List Nat), s.pc.sync.filtered ≠ high → s.pc.sync.inGap = true →
    u = cnt { s with pc := { s.pc with sync := { s.pc.sync with filtered := high } } } aPcCntSyncIgn →
    es = (s.fab :: s.pc.sync.edges).take 64 → w = { u with pc := { u.pc with sync := { u.pc.sync with edges := es } } } →
    (s.pc.sync.faulty = true ∨ es.length < 64 → exec (.pairSyncIn high) s = .next w) ∧
    (s.pc.sync.faulty = false → es.length = 64 → s.fab - es.getLast?.getD 0 ≤ 960000 → exec (.pairSyncIn high) s =
      .next { declare_ w .sync with dl := { (declare_ w .sync).dl with pinAlive := true } }) ∧
    (960000 < s.fab - es.getLast?.getD 0 → exec (.pairSyncIn high) s = .next w)) ∧
  (∀ (s : State), exec (.minimumGapEnd .pwrgood) s =
    .next { s with pc := { s.pc with pwrGap := false, pwrgood := s.pc.pwrgood || s.pc.pwrPin } }) ∧
  (∀ (s : State) (p : Pin), p ≠ .pwrgood → (condOf s p).inGap = true → (condOf s p).filtered = (condOf s p).accepted →
    exec (.minimumGapEnd p) s = .next (setCond s p { condOf s p with inGap := false })) ∧
  (∀ (s : State) (p : Pin), p = .alert ∨ p = .throttle → (condOf s p).inGap = true →
    (condOf s p).filtered ≠ (condOf s p).accepted →
    exec (.minimumGapEnd p) s = .next (setCond s p { condOf s p with accepted := (condOf s p).filtered })) ∧
  (∀ (s : State), s.pc.sync.inGap = true → s.pc.sync.filtered ≠ s.pc.sync.accepted → exec (.minimumGapEnd .sync) s =
    .next { s with
      pc := { s.pc with sync := { s.pc.sync with accepted := s.pc.sync.filtered } }
      dl := { s.dl with pinAlive := s.dl.pinAlive || !s.pc.sync.faulty } }) ∧
  (∀ (s : State) (p : Pin), p = .alert ∨ p = .throttle → (condOf s p).accepted = true → (condOf s p).faulty = false →
    ∃ t, exec (.stuckTimeout p) s = .next t ∧
      t = cnt (rsetF (setCond s p { condOf s p with faulty := true }) aPcPinStat 0 7 7 1) aPcCntPinFault ∧
      rb t aPcPinStat 0 7 = true ∧ rv t aPcCntPinFault = (rv s aPcCntPinFault + 1) % 2 ^ 32) ∧
  (∀ (s : State) (p : Pin), p = .alert ∨ p = .throttle → (condOf s p).faulty = true → (condOf s p).accepted = false →
    exec (.reArm p) s = .next (setCond s p { condOf s p with faulty := false })) ∧
  (∀ (s : State), s.pc.sync.faulty = true → exec (.reArm .sync) s =
    .next { s with pc := { s.pc with sync := { s.pc.sync with faulty := false, edges := [] } } })

/-- The sideband: a write sets the pointer, a read answers bytes from it and moves it, with byte 0 of a 4-byte field latching
the field; ENTDAA sends the 48-bit provisional ID, with a free MIPI manufacturer identifier, and gives the dynamic address, as SETDASA
does without the ID, and a stuck clock resets the target (R479, R486, R487). -/
def Obligations.SidebandComplete : Prop :=
  (∀ (s : State) (a : BitVec 7) (b : Byte) (rest : Bytes), sbAnswers s = true → a = sbAddr s →
    exec (.sidebandWrite ⟨a, b :: rest⟩) s = .next { s with pc := { s.pc with sbPtr := b } }) ∧
  (∀ (s : State) (a : BitVec 7) (data : Bytes) (n : Nat), sbAnswers s = true → a ≠ sbAddr s →
    exec (.sidebandWrite ⟨a, data⟩) s = .next s ∧ exec (.sidebandRead ⟨a, n⟩) s = .next s) ∧
  (∀ (s : State), s.pc.sbDyn = none → sbAddr s = BitVec.ofNat 7 (0x58 + rf s aPcPinStat 0 10 8)) ∧
  (∀ (s : State) (a : BitVec 7), s.pc.sbDyn = some a → sbAddr s = a) ∧
  (∀ (s : State) (n : Nat), sbAnswers s = true →
    ∃ t d, exec (.sidebandRead ⟨sbAddr s, n⟩) s = .next t ∧ d.length = n ∧ t = emit (sbBytes n s).2 (.sideband d) ∧
      t.pc.sbPtr = s.pc.sbPtr + BitVec.ofNat 8 n) ∧
  (∀ (s : State), sbAnswers s = true → sbFields.contains s.pc.sbPtr.toNat = true → exec (.sidebandRead ⟨sbAddr s, 1⟩) s =
    .next (emit { s with pc := { s.pc with
      sbPtr := s.pc.sbPtr + 1
      sbLatch := some (s.pc.sbPtr.toNat, slice (sbMap s) s.pc.sbPtr.toNat 4) } }
      (.sideband [((sbMap s)[s.pc.sbPtr.toNat]?).getD 0]))) ∧
  (∀ (s : State) (b : Nat) (l : Bytes), sbAnswers s = true → s.pc.sbLatch = some (b, l) → b < s.pc.sbPtr.toNat →
    s.pc.sbPtr.toNat < b + 4 → sbFields.contains s.pc.sbPtr.toNat = false → exec (.sidebandRead ⟨sbAddr s, 1⟩) s =
    .next (emit { s with pc := { s.pc with sbPtr := s.pc.sbPtr + 1 } }
      (.sideband [(l[s.pc.sbPtr.toNat - b]?).getD 0]))) ∧
  (∀ (s u : State) (m : DaaMsg), sbAnswers s = true → s.pc.sbDyn = none →
    (m.direct = true → m.static_ = BitVec.ofNat 7 (0x58 + rf s aPcPinStat 0 10 8)) →
    u = (if m.direct then s else emit s (.sideband (toLE 6 (2 ^ 33 * Config.mipiId.toNat + 2 ^ 16 * 0x7107 +
      2 ^ 12 * rf s aPcPinStat 0 10 8)).reverse)) →
    exec (.entdaa m) s = .next { u with pc := { u.pc with sbDyn := some m.addr } }) ∧
  (∀ (s : State), exec .sbSclStuck s =
    .next (cnt { s with pc := { s.pc with sbPtr := 0, sbLatch := none, sbDyn := none } } aPcCntSbReset))
/-! ## Security, the test access port and the registers -/

/-- ATTEST reads its nonce and then signs and writes its evidence, in the order of arrival (R442, R443); the map of the
worlds, the owner's key and the debug token are taken as R431, R445, R446 and R448 say. -/
def Obligations.SecurityComplete : Prop :=
  (∀ (s : State) (n : Word) (c : Cmd), Dispatched s 0 n 22 c → 1 ≤ cF c 16 4 → cF c 16 4 ≤ 64 → zero c 40 24 = true →
    srcOk c (cF c 24 8) (cF c 16 4) = true → plainAddr (cF c 32 8) = true → 11836 ≤ cF c 20 4 →
    aliasHeld (cnt s aFeCntEntries) = true →
    exec (.attest n) s = .next (fetchSrc (arrived s c) c .nonce (cF c 24 8) (cF c 16 4))) ∧
  (∀ (s : State) (n : Word) (c : Cmd), LandedNow s 0 n 22 c →
    (∀ d ∈ s.fe.cmds, cOp d = 22 → d.phase ≠ .ended → d.arrival ≠ 0 → c.arrival ≤ d.arrival) → aliasHeld s = true →
    exec (.attest n) s = .next (finish (sendDst (sign s s.pc.aliasSk 4 (evidenceBody s c.data)).2 c .evidence (cF c 32 8)
      (evidenceBody s c.data ++ (sign s s.pc.aliasSk 4 (evidenceBody s c.data)).1)) 0 n 0)) ∧
  (∀ (s : State) (a : Acc) (v : Word), mayAccess s a = true → a.secure = true →
    (∀ u < 10, bit (v.toNat % 1024) u = unitWorld s u ∨ unitEmpty s u = true) →
    exec (.pcWorldMap a v) s = .next (rset s aPcWorldMap 0 (v.toNat % 1024))) ∧
  (∀ (s : State) (a : Acc) (v : Word) (u : Nat), mayAccess s a = true → a.secure = true → u < 10 →
    bit (v.toNat % 1024) u ≠ unitWorld s u → unitEmpty s u = false →
    exec (.pcWorldMap a v) s = .next (rsetF s aPcSecStat 0 3 3 1)) ∧
  (∀ (s : State) (a : Acc) (k : Fin 8) (v : Word), mayAccess s a = true → a.secure = true →
    allZero (rbytes s aPcOwnerKey0 0 8) = true →
    exec (.pcOwnerKey a k v) s = .next (rset s (aPcOwnerKey0 + 4 * k) 0 v.toNat)) ∧
  (∀ (s : State) (a : Acc) (k : Fin 8) (v : Word), mayAccess s a = true → a.secure = true →
    allZero (rbytes s aPcOwnerKey0 0 8) = false → exec (.pcOwnerKey a k v) s = .next s) ∧
  (∀ (s : State) (a : Acc) (v : Word), mayAccess s a = true → a.secure = true → bit v.toNat 0 = true →
    exec (.pcDbgSubmit a v) s = .next (submitToken s))

/-- The test access port: out of Test-Logic-Reset each instruction that the debug level makes available is selected and
does its work, and any other selects BYPASS; TDO is driven neither in reset nor before stage 5 (R444, R479, R483, R484). -/
def Obligations.TapComplete : Prop :=
  (∀ (s : State), exec (.trstN true) s = .next { s with pc := { s.pc with tapReset := true, tap := .idcode } }) ∧
  (∀ (s : State), exec (.trstN false) s = .next { s with pc := { s.pc with tapReset := false } }) ∧
  (∀ (s : State), s.pc.tapReset = false → heldInReset s = false → 5 ≤ stage s →
    exec .idcode s = .next (emit { s with pc := { s.pc with tap := .idcode } } (.tdo (toLE 4 Config.idcode.toNat)))) ∧
  (∀ (s : State), s.pc.tapReset = false → heldInReset s = true ∨ stage s < 5 →
    exec .idcode s = .next { s with pc := { s.pc with tap := .idcode } } ∧
    exec .bypass s = .next { s with pc := { s.pc with tap := .bypass } }) ∧
  (∀ (s : State), s.pc.tapReset = false → heldInReset s = false → 5 ≤ stage s →
    exec .bypass s = .next (emit { s with pc := { s.pc with tap := .bypass } } (.tdo [0]))) ∧
  (∀ (s : State) (pins tdi : Bytes), s.pc.tapReset = false → heldInReset s = false → 5 ≤ stage s →
    1 ≤ s.pc.dbgLevel.toNat → exec (.samplePreload ⟨pins, tdi⟩) s =
    .next (emit { s with pc := { s.pc with tap := .sample, bsr := tdi } } (.tdo pins))) ∧
  (∀ (s : State) (m : ScanMsg), s.pc.tapReset = false → heldInReset s = false → 5 ≤ stage s → s.pc.dbgLevel = 0 →
    exec (.samplePreload m) s =
    .next (emit { s with pc := { s.pc with tap := .bypass } } (.tdo [0]))) ∧
  (∀ (s : State), s.pc.tapReset = false → heldInReset s = false → 5 ≤ stage s → 1 ≤ s.pc.dbgLevel.toNat →
    ∃ t d, exec .extest s = .next t ∧ t.pc.tap = .extest ∧ t.tx = s.tx ++ [.tdo d] ∧ d.length = s.pc.bsr.length ∧
      t.fresh = s.fresh + 1) ∧
  (∀ (s : State) (token : Bytes), s.pc.tapReset = false → closed s = false → fwRuns s = true → exec (.tokenLoad token) s =
    .next (submitToken (rsetBytes { s with pc := { s.pc with tap := .token } } aPcDbgToken 0 (slice token 0 4096)))) ∧
  (∀ (s : State) (addr v : Word), s.pc.tapReset = false → s.pc.dbgLevel = 3 → closed s = false → heldInReset s = false →
    exec (.debugAccess true addr v) s = .next (regWrite { s with pc := { s.pc with tap := .access } }
      { who := .jtag, secure := true } addr.toNat v)) ∧
  (∀ (s u : State) (addr v : Word), s.pc.tapReset = false → s.pc.dbgLevel = 2 → closed s = false → heldInReset s = false →
    u = { s with pc := { s.pc with tap := .access } } → exec (.debugAccess false addr v) s =
      .next (driveTdo (regRead u { who := .jtag, secure := false } addr.toNat).2
        (toLE 4 (regRead u { who := .jtag, secure := false } addr.toNat).1.toNat)))

/-- The registers with effects of their own in the gather units, the vector engine and the roll-over units take their
fields and clear their statistics; the table window keeps a low half and commits an entry with its high half; the fault
queue's consumer index is taken (R43, R47, R152, R323, R332, R336). -/
def Obligations.ActionRegistersComplete : Prop :=
  (∀ (s : State) (a : Acc) (f : Fin 8) (v : Word), mayAccess s a = true → exec (.gxPolicyCtl a f v) s =
    .next (rset s (foldReg f aGxPolicyCtl) 0 (v.toNat % 8 + 16 * bits v.toNat 6 4 + 256 * bits v.toNat 15 8))) ∧
  (∀ (s : State) (a : Acc) (f : Fin 8) (v : Word), mayAccess s a = true →
    exec (.gxPopThresh a f v) s = .next (rset s (foldReg f aGxPopThresh) 0 v.toNat)) ∧
  (∀ (s : State) (a : Acc) (c : Core2) (v : Word), mayAccess s a = true → coreHeld s c = false → bit v.toNat 1 = true →
    exec (.veQsClear a c v) s =
      .next (clearRegs (rset s (coreReg c aVeQsCtl) 0 (v.toNat % 2)) (coreReg c aVeQsSseLo) (coreReg c aVeCntMisalign))) ∧
  (∀ (s : State) (a : Acc) (f : Fin 8) (v : Word), mayAccess s a = true → holdsTrained s f = false → bit v.toNat 2 = true →
    exec (.ruConvClear a f v) s = .next (clearRegs (rset s (foldReg f aRuConvCtl) 0 (v.toNat % 2 + 2 * bits v.toNat 1 1))
      (foldReg f aRuConvSseLo) (foldReg f aRuConvNonfinite))) ∧
  (∀ (s : State) (a : Acc) (word : BitVec 10) (v : Word), mayAccess s a = true → a.secure = true → word.toNat % 2 = 0 →
    exec (.xlTblWin a word v) s = .next { s with xl := { s.xl with
      lowHalf := mset none s.xl.lowHalf (whoKey a.who (512 * selIx s a.who aXlTblSel + word.toNat / 2)) (some v) } }) ∧
  (∀ (s : State) (a : Acc) (word : BitVec 10) (v low : Word) (e : Nat), mayAccess s a = true → a.secure = true →
    word.toNat % 2 = 1 → e = 512 * selIx s a.who aXlTblSel + word.toNat / 2 →
    mget none s.xl.lowHalf (whoKey a.who e) = some low →
    exec (.xlTblWin a word v) s = .next { s with xl := { s.xl with
      lowHalf := mset none s.xl.lowHalf (whoKey a.who e) none
      store := mset 0 s.xl.store e (BitVec.ofNat 64 (low.toNat + 2 ^ 32 * v.toNat)) } }) ∧
  (∀ (s : State) (a : Acc) (v : Word), mayAccess s a = true → a.secure = true →
    exec (.xlFqCons a v) s = .next (rset s aXlFqCons 0 v.toNat))

/-- An access to configuration space is made where its requester may make it: a write, a read that answers its data, an
access to a scratch window, and the READs and WRITEs of the management and the Owner queue pairs, word by word in ascending
order, a wrong R_Key or alignment being answered with a NAK (R185, R286, R289, R292, R505). -/
def Obligations.AccessesComplete : Prop :=
  (∀ (s : State) (a : Acc) (addr v : Word), mayAccess s a = true →
    exec (.registerWrite a addr v) s = .next (regWrite s a addr.toNat v)) ∧
  (∀ (s : State) (a : Acc) (addr : Word), mayAccess s a = true → exec (.lowHalfRead a addr) s =
    .next (emit (regRead s a addr.toNat).2 (.regData a.who (regRead s a addr.toNat).1))) ∧
  (∀ (s : State) (a : Acc) (c : Core2) (off : BitVec 24) (v : Word), mayAccess s a = true →
    exec (.scratchWindowAccess a c true off v) s = .next (viewWrite s a c off.toNat v)) ∧
  (∀ (s : State) (a : Acc) (c : Core2) (off : BitVec 24) (v : Word), mayAccess s a = true →
    exec (.scratchWindowAccess a c false off v) s = .next (emit (viewRead s a c off.toNat).2
      (.regData a.who (BitVec.ofNat 32 (viewRead s a c off.toNat).1)))) ∧
  (∀ (s u w z : State) (mgmt : Bool) (q : BitVec 12) (k : Pkt) (va : Dword) (len i : Nat) (data : Bytes) (a : Acc),
    i = (if mgmt then 4096 else q.toNat) → Arrives s u i (pkts s i data.length) k → k.psn = (qp u i).epsn →
    qpRole s i = 3 → va.toNat % 4 = 0 → data.length % 4 = 0 →
    a = { who := if mgmt then .mgmt else .ownerQp q, secure := true } →
    w = dropImm (tookPsn u i (pkts s i data.length)) k → z = rdmaWrite a (data.length / 4) va.toNat data w →
    exec (.configRdmaAccess mgmt ⟨q, k⟩ true 0 va len data) s =
      .next (if mayAccess z a then ackTo z i k.psn else z)) ∧
  (∀ (s u w : State) (mgmt : Bool) (q : BitVec 12) (k : Pkt) (va : Dword) (len i : Nat) (data : Bytes) (a : Acc)
    (r : Bytes × State), i = (if mgmt then 4096 else q.toNat) → Arrives s u i 1 k → k.psn = (qp u i).epsn →
    qpRole s i = 3 → va.toNat % 4 = 0 → len % 4 = 0 →
    a = { who := if mgmt then .mgmt else .ownerQp q, secure := true } →
    w = tookPsn u i (pkts s i len) → peerReads w i < 16 → r = rdmaRead a (len / 4) va.toNat w →
    exec (.configRdmaAccess mgmt ⟨q, k⟩ false 0 va len data) s =
      .next (if mayAccess r.2 a then respTo r.2 i k.psn r.1 else r.2)) ∧
  (∀ (s u : State) (mgmt : Bool) (q : BitVec 12) (k : Pkt) (rkey : Word) (va : Dword) (len i : Nat) (data : Bytes),
    i = (if mgmt then 4096 else q.toNat) → Arrives s u i (pkts s i data.length) k → k.psn = (qp u i).epsn →
    qpRole s i = 3 → rkey ≠ 0 ∨ va.toNat % 4 ≠ 0 ∨ data.length % 4 ≠ 0 →
    exec (.configRdmaAccess mgmt ⟨q, k⟩ true rkey va len data) s =
      .next (nakAccess (dropImm (tookPsn u i (pkts s i data.length)) k) i k.psn))


/-! ## The machine as a whole -/

/-- A step takes the command at the front of the queue and is that command's effect on the state with the queue's rest. With
an empty queue one CLK_FAB cycle passes, and a part held in reset stays as it is (the model's choice, log entry 1). -/
def Obligations.StepTakesTheFront : Prop :=
  (∀ (s : State) (c : Instr) (rest : List Instr),
    step { s with pending := c :: rest } = exec c { s with pending := rest }) ∧
  (∀ (s : State), s.pending = [] → step s = .next (tickFab s)) ∧
  (∀ (s : State), s.pending = [] → heldInReset s = true → step s = .next s)

/-- The state after reset: the registers whose reset value the field maps give and is not 0, the address arithmetic of R509's
worked example, boot stage 0, no owner, no queue, no command, and every memory in canonical form. -/
def Obligations.ResetState : Prop :=
  (rv State.reset aPcPinCfg = 30 ∧ rv State.reset aPcMarginCtl = 0x1419018 ∧ rv State.reset aPcThrCtl = 0x2BC64 ∧
    rf State.reset aPcAvsStat 0 9 0 = 800 ∧ rf State.reset aPcAvsStat 0 19 10 = 800) ∧
  (rv State.reset aFeStaleBackoff = 2 ∧ rv State.reset aFeStaleRetries = 8 ∧ rv State.reset aFeQTimeout = 1000000 ∧
    rv State.reset aFeQCfg = 0x100006) ∧
  (rv State.reset aNpPortCfg0 = 0x58 ∧ rv State.reset aNpSesPeriod = 1000 ∧ rv State.reset aNpQpCfg = 0x60 ∧
    rv State.reset aNpQpTmo = 0x7E8 ∧ rv State.reset aNpCcCfg = 0x9B82993) ∧
  (rv State.reset aDlPartId = 0xFFF ∧ rv State.reset aDlLinkCtl 31 = 1 ∧ rv State.reset aDlLinkNbr 31 = 0xFFF ∧
    rv State.reset aDlRouteCfg 4094 = 0xFFFFFF ∧ rv State.reset aDlGrpMember 15 = 0xFFF0FFF ∧
    rv State.reset aDlCollTmo = 1000 ∧ rv State.reset aDlKeyTmo = 2000 ∧ rv State.reset aDlBarrierTmo = 10 ∧
    rv State.reset aDlPairCfg = 0xA0FFF) ∧
  (rv State.reset aXlFaultWait = 100 ∧ rv State.reset aXlFqCfg = 0x60 ∧ rv State.reset aIgFlogCtl = 0x4003E8 ∧
    rv State.reset aIgReplayCtl = 0x1001) ∧
  (rv State.reset (coreReg 1 aSqCtl) = 1 ∧ rv State.reset (coreReg 1 aSqConstSize) = 0x800 ∧
    rv State.reset (coreReg 1 aVeQsCtl) = 1) ∧
  (rv State.reset (foldReg 7 aFmCtl) = 0x1803 ∧ rv State.reset (foldReg 7 aFmTrnCtl) = 4 ∧
    rv State.reset (foldReg 7 aFmPartRate) 15 = 0x400020 ∧ rv State.reset (foldReg 7 aGxPolicyCtl) = 0x4033 ∧
    rv State.reset (foldReg 7 aGxPopThresh) = 0x40A01030 ∧ rv State.reset (foldReg 7 aGxPenRowLimit) = 0x1C0000 ∧
    rv State.reset (foldReg 7 aGxAsidePen) = 0x400 ∧ rv State.reset (foldReg 7 aGxEpochGraceMax) = 10000 ∧
    rv State.reset (foldReg 7 aGxGatherCtl) = 0x121 ∧ rv State.reset (foldReg 7 aRuCtl) = 0xF3) ∧
  (foldReg 5 aGxPolicyCtl = 0x15420000 ∧ coreReg 1 aVeQsSseLo = 0x02820008) ∧
  (stage State.reset = 0 ∧ State.reset.pending = [] ∧ State.reset.fe.queues = [] ∧ State.reset.np.sessions = [] ∧
    State.reset.pc.dbgLevel = 0) ∧
  (State.reset.canonical = true ∧ State.reset.ownerOnly = true)

/-- Every step, and every command, keeps the memories in canonical form and session 0 to the owner lease (R304). A command
takes nothing from the queue, takes back nothing that was sent, and uses no free value twice. -/
def Obligations.InvariantKept : Prop :=
  (∀ (s t : State), s.canonical = true → s.ownerOnly = true → step s = .next t →
    t.canonical = true ∧ t.ownerOnly = true) ∧
  (∀ (s t : State) (c : Instr), s.canonical = true → s.ownerOnly = true → exec c s = .next t →
    t.canonical = true ∧ t.ownerOnly = true ∧ t.pending = s.pending ∧ (∃ l, t.tx = s.tx ++ l) ∧ s.fresh ≤ t.fresh)

/-- The frame of every command, from a state whose memories and sessions are as `InvariantKept` keeps them: a part of the
state that `touches` does not list for it is unchanged. -/
def Obligations.FramesKept : Prop :=
  ∀ (s t : State) (c : Instr) (p : Part), s.canonical = true → s.ownerOnly = true → exec c s = .next t →
    p ∉ touches c → p.same s t

/-! ## Rules of single functions -/

/-- R340: the channel and channel granule of a granule, that the map is one to one, that the sixteen granules of each x fall
on the sixteen channels once each, and the channel granules that the two pasture sizes have. The sector of R341 goes with
them, so two addresses of one channel and one channel sector lie in one sector. -/
def Obligations.InterleaveOneToOne : Prop :=
  (∀ a : Nat, chanOf a = Nat.xor (a / 256 % 16) (a / 256 / 16 * 0x9E3779B1 % 2 ^ 32 / 2 ^ 28) ∧
    secOf a = 8 * (a / 256 / 16) + a / 32 % 8) ∧
  (∀ a b : Nat, chanOf a = chanOf b → secOf a / 8 = secOf b / 8 → a / 256 = b / 256) ∧
  (∀ a b : Nat, chanOf a = chanOf b → secOf a = secOf b → a / 32 = b / 32) ∧
  (∀ x c : Nat, c < 16 → ∃ g, 16 * x ≤ g ∧ g ≤ 16 * x + 15 ∧ chanOf (256 * g) = c ∧ secOf (256 * g) / 8 = x ∧
    ∀ h, chanOf (256 * h) = c → secOf (256 * h) / 8 = x → h = g) ∧
  (∀ (s : State) (n : Nat), (dieGb s = 32 ∧ n = 15728640) ∨ (dieGb s = 24 ∧ n = 11796480) →
    (∀ a, a < usable s → secOf a / 8 < n) ∧
    ∀ x c, x < n → c < 16 → ∃ a, a < usable s ∧ chanOf a = c ∧ secOf a / 8 = x)

/-- R84: maximum gives the larger operand, takes +0 as larger than −0 and gives the canonical NaN if either operand is a NaN;
the sum of opposite infinities is the canonical NaN. Any two operands that are no NaNs are the same, are the two zeros, or
lie one below the other. -/
def Obligations.MaximumAndSum : Prop :=
  (∀ a b : Nat, a < 2 ^ 32 → b < 2 ^ 32 → below32 (fdec F32 a) (fdec F32 b) →
    poolOp true a b = b ∧ poolOp true b a = b) ∧
  (∀ a b : Nat, a < 2 ^ 32 → b < 2 ^ 32 → fdec F32 a ≠ .nan → fdec F32 b ≠ .nan → a ≠ b →
    below32 (fdec F32 a) (fdec F32 b) ∨ below32 (fdec F32 b) (fdec F32 a) ∨ (a % 2 ^ 31 = 0 ∧ b % 2 ^ 31 = 0)) ∧
  (∀ a : Nat, a < 2 ^ 32 → fdec F32 a ≠ .nan → poolOp true a a = a) ∧
  (poolOp true 0 0x80000000 = 0 ∧ poolOp true 0x80000000 0 = 0) ∧
  (∀ a b : Nat, fdec F32 a = .nan ∨ fdec F32 b = .nan → poolOp true a b = 0x7FC00000) ∧
  (poolOp false 0x7F800000 0xFF800000 = 0x7FC00000 ∧ poolOp false 0xFF800000 0x7F800000 = 0x7FC00000)

/-- The tokens of a partition rise by RATE in every CLK_FAB cycle up to 64 × DEPTH; a channel issues its earliest head with
tokens above 0 and RATE not 0, with BORROW else its earliest head, and with neither waits; and an issue takes 64 for each
burst of its cost, down to −64 × DEPTH at the least (R351, R352, R353). -/
def Obligations.TokensRegulate : Prop :=
  (∀ (s : State) (f p : Nat), p < 16 →
    tokens (tickFold s f) f p = min (tokens s f p + partRate s f p) (64 * partDepth s f p : Int)) ∧
  (∀ (s t : State) (f : Fin 8) (ch : Fin 16) (r : Run), runTaken s f ch = some r → r.part < 16 → r.ch < 16 →
    (r.write = true → r.rmw = false → partSecs r = []) → exec (.runIssue f ch) s = .next t →
    tokens t f r.part = max (-(64 * partDepth s f r.part : Int)) (tokens s f r.part - 64 * issueCost r)) ∧
  (∀ (s : State) (f : Fin 8) (ch : Fin 16), rb s (foldReg f aFmCtl) 0 0 = false →
    (∀ r ∈ heads (fold s f) ch, tokens s f r.part ≤ 0 ∨ partRate s f r.part = 0) → exec (.runIssue f ch) s = .next s) ∧
  (∀ (s : State) (f : Fin 8) (ch : Fin 16) (r : Run), runTaken s f ch = some r →
    exec (.runIssue f ch) s = .next (issueRun s f r))

/-- The fold memory keeps what a run does not store: an issue changes no other fold, a read or the read half of a
read-modify-write changes no byte, and a whole write changes only the bytes it stores; its sector reads as written while no
injection is armed (R345, R348, R510). -/
def Obligations.StoresFramed : Prop :=
  (∀ (s : State) (f : Fin 8) (ch : Fin 16), runTaken s f ch = none → exec (.runIssue f ch) s = .next s) ∧
  (∀ (s t : State) (f : Fin 8) (ch : Fin 16) (r : Run), runTaken s f ch = some r → exec (.runIssue f ch) s = .next t →
    (∀ g, g ≠ f.val → fold t g = fold s g) ∧
    (r.write = false ∨ r.rmw = true → (fold t f).pasture = (fold s f).pasture) ∧
    (r.write = true → r.rmw = false → ∀ b, outsideRun r b → rd (fold t f).pasture b = rd (fold s f).pasture b)) ∧
  (∀ (s t : State) (f : Fin 8) (ch : Fin 16) (r : Run) (i : Nat) (d : Bytes) (m : List Bool),
    runTaken s f ch = some r → r.write = true → r.rmw = false → r.secs = [i] → r.data = [(d, m)] → d.length = 32 →
    (∀ b ∈ m, b = true) → rb s (foldReg f aFmEccInj) 0 0 = false → r.part < 16 → r.ch < 16 →
    exec (.runIssue f ch) s = .next t → rdN (fold t f).pasture (addrOf r.ch i) 32 = d)

/-- R13: a read of the low half of a 64-bit quantity latches its high half for the requester; the requester's next read of the
high half gives the latched value and uses it up; with no latch it gives the live high half. Another requester's latch, and
a latch of another quantity, stay as they are. -/
def Obligations.HighHalfLatched : Prop :=
  (∀ (s : State) (a : Acc) (x : Nat), x ∈ lowHalves → mayAccess s a = true →
    exec (.lowHalfRead a (BitVec.ofNat 32 x)) s = .next (emit
      (setLatch s a.who (x + 4) (some (BitVec.ofNat 32 (regLive s a.who (x + 4)))))
      (.regData a.who (BitVec.ofNat 32 (regLive s a.who x))))) ∧
  (∀ (s : State) (a : Acc) (x : Nat) (v : Word), x ∈ lowHalves → mayAccess s a = true →
    latchOf s a.who (x + 4) = some v →
    exec (.lowHalfRead a (BitVec.ofNat 32 (x + 4))) s = .next (emit (setLatch s a.who (x + 4) none) (.regData a.who v))) ∧
  (∀ (s : State) (a : Acc) (x : Nat), x ∈ lowHalves → mayAccess s a = true → latchOf s a.who (x + 4) = none →
    exec (.lowHalfRead a (BitVec.ofNat 32 (x + 4))) s =
      .next (emit s (.regData a.who (BitVec.ofNat 32 (regLive s a.who (x + 4)))))) ∧
  (∀ (s : State) (w w' : Requester) (x y : Nat) (v : Option Word), x < 2 ^ 32 → y < 2 ^ 32 → (w', y) ≠ (w, x) →
    latchOf (setLatch s w x v) w' y = latchOf s w' y)
end

