-- ==== Sys2Proof/Laws/Memory.lean ====
section
/-! SUPPORT. Laws of the sparse maps and byte memories: reads after writes, and the canonical form that every
operation keeps. -/

namespace Sys2Proof.Machine

/-! ## The canonical form as a proposition -/

/-- Keys of a map lie strictly above `b`, rise strictly, and no listed value is the default. -/
def Above {α : Type} [DecidableEq α] (d : α) : Option Nat → Map α → Prop
  | _, [] => True
  | b, (k, v) :: m => (∀ x ∈ b, x < k) ∧ v ≠ d ∧ Above d (some k) m

theorem mwf_iff_above {α : Type} [DecidableEq α] (d : α) (m : Map α) : mwf d m = true ↔ Above d none m := by
  suffices H : ∀ (m : Map α) (k : Nat) (v : α), mwf d ((k, v) :: m) = true ↔ v ≠ d ∧ Above d (some k) m by
    cases m with
    | nil => simp [mwf, Above]
    | cons c m => obtain ⟨k, v⟩ := c; simp [H, Above]
  intro m
  induction m with
  | nil => intro k v; simp [mwf, Above]
  | cons c m ih =>
    intro k v
    obtain ⟨k', v'⟩ := c
    simp [mwf, Above, ih, and_assoc]

theorem above_mono {α : Type} [DecidableEq α] (d : α) (m : Map α) (b b' : Option Nat)
    (h : ∀ x ∈ b', ∃ y ∈ b, x ≤ y) (hm : Above d b m) : Above d b' m := by
  cases m with
  | nil => trivial
  | cons c m =>
    obtain ⟨k, v⟩ := c
    obtain ⟨h1, h2, h3⟩ := hm
    refine ⟨fun x hx => ?_, h2, h3⟩
    obtain ⟨y, hy, hxy⟩ := h x hx
    exact lt_of_le_of_lt hxy (h1 y hy)

theorem above_mput {α : Type} [DecidableEq α] (d : α) (m : Map α) (b : Option Nat) (i : Nat) (v : α)
    (hb : ∀ x ∈ b, x < i) (hv : v ≠ d) (hm : Above d b m) : Above d b (mput m i v) := by
  induction m generalizing b with
  | nil => exact ⟨hb, hv, trivial⟩
  | cons c m ih =>
    obtain ⟨k, w⟩ := c
    obtain ⟨h1, h2, h3⟩ := hm
    unfold mput
    split
    · rename_i hik
      exact ⟨hb, hv, by intro x hx; cases hx; exact hik, h2, h3⟩
    · split
      · rename_i hki
        subst hki
        exact ⟨hb, hv, h3⟩
      · refine ⟨h1, h2, ih (some k) ?_ h3⟩
        intro x hx
        cases hx
        omega

theorem above_mdel {α : Type} [DecidableEq α] (d : α) (m : Map α) (b : Option Nat) (i : Nat)
    (hm : Above d b m) : Above d b (mdel m i) := by
  induction m generalizing b with
  | nil => trivial
  | cons c m ih =>
    obtain ⟨k, w⟩ := c
    obtain ⟨h1, h2, h3⟩ := hm
    unfold mdel
    split
    · refine ih b (above_mono d m (some k) b ?_ h3)
      intro x hx
      exact ⟨k, rfl, le_of_lt (h1 x hx)⟩
    · exact ⟨h1, h2, ih (some k) h3⟩

theorem above_filter {α : Type} [DecidableEq α] (d : α) (m : Map α) (b : Option Nat) (p : Nat × α → Bool)
    (hm : Above d b m) : Above d b (m.filter p) := by
  induction m generalizing b with
  | nil => trivial
  | cons c m ih =>
    obtain ⟨k, w⟩ := c
    obtain ⟨h1, h2, h3⟩ := hm
    simp only [List.filter]
    split
    · exact ⟨h1, h2, ih (some k) h3⟩
    · refine ih b (above_mono d m (some k) b ?_ h3)
      intro x hx
      exact ⟨k, rfl, le_of_lt (h1 x hx)⟩

theorem mwf_nil {α : Type} [DecidableEq α] (d : α) : mwf d [] = true := rfl

/-- Writing one key keeps the canonical form. -/
theorem mwf_mset {α : Type} [DecidableEq α] (d : α) (m : Map α) (i : Nat) (v : α) (h : mwf d m = true) :
    mwf d (mset d m i v) = true := by
  rw [mwf_iff_above] at *
  unfold mset
  split
  · exact above_mdel d m none i h
  · rename_i hv
    exact above_mput d m none i v (by simp) hv h

/-- Dropping entries keeps the canonical form. -/
theorem mwf_filter {α : Type} [DecidableEq α] (d : α) (m : Map α) (p : Nat × α → Bool) (h : mwf d m = true) :
    mwf d (m.filter p) = true := by
  rw [mwf_iff_above] at *
  exact above_filter d m none p h

/-! ## Reads after writes -/

theorem mget_mput_same {α : Type} (d : α) (m : Map α) (i : Nat) (v : α) : mget d (mput m i v) i = v := by
  induction m with
  | nil => simp [mput, mget]
  | cons c m ih =>
    obtain ⟨k, w⟩ := c
    unfold mput
    split
    · simp [mget]
    · split
      · simp [mget]
      · rename_i h1 h2
        simp [mget, h2, ih]

theorem mget_mput_other {α : Type} (d : α) (m : Map α) (i j : Nat) (v : α) (h : j ≠ i) :
    mget d (mput m i v) j = mget d m j := by
  induction m with
  | nil => simp [mput, mget, Ne.symm h]
  | cons c m ih =>
    obtain ⟨k, w⟩ := c
    unfold mput
    split
    · simp [mget, Ne.symm h]
    · split
      · rename_i h1 h2
        subst h2
        simp [mget, Ne.symm h]
      · simp [mget, ih]

theorem mget_mdel_same {α : Type} (d : α) (m : Map α) (i : Nat) : mget d (mdel m i) i = d := by
  induction m with
  | nil => rfl
  | cons c m ih =>
    obtain ⟨k, w⟩ := c
    unfold mdel
    split
    · exact ih
    · rename_i h
      simp [mget, h, ih]

theorem mget_mdel_other {α : Type} (d : α) (m : Map α) (i j : Nat) (h : j ≠ i) :
    mget d (mdel m i) j = mget d m j := by
  induction m with
  | nil => rfl
  | cons c m ih =>
    obtain ⟨k, w⟩ := c
    unfold mdel
    split
    · rename_i hk
      subst hk
      simp [mget, Ne.symm h, ih]
    · simp [mget, ih]

/-- A key just written reads back. -/
@[simp] theorem mget_mset_same {α : Type} [DecidableEq α] (d : α) (m : Map α) (i : Nat) (v : α) :
    mget d (mset d m i v) i = v := by
  unfold mset
  split
  · rename_i h
    rw [mget_mdel_same, h]
  · exact mget_mput_same d m i v

/-- Other keys keep what they held. -/
theorem mget_mset_other {α : Type} [DecidableEq α] (d : α) (m : Map α) (i j : Nat) (v : α) (h : j ≠ i) :
    mget d (mset d m i v) j = mget d m j := by
  unfold mset
  split
  · exact mget_mdel_other d m i j h
  · exact mget_mput_other d m i j v h

/-- What a map holds at any key after a write. -/
theorem mget_mset {α : Type} [DecidableEq α] (d : α) (m : Map α) (i j : Nat) (v : α) :
    mget d (mset d m i v) j = if j = i then v else mget d m j := by
  split
  · rename_i h
    subst h
    simp
  · rename_i h
    exact mget_mset_other d m i j v h

@[simp] theorem mget_nil {α : Type} (d : α) (i : Nat) : mget d [] i = d := rfl

/-! ## Byte memories -/

theorem rd_wr (m : List Host.Cell) (a x : Nat) (b : Byte) : rd (wr m a b) x = if x = a then b else rd m x := by
  unfold rd wr
  exact mget_mset 0 m a x b

theorem mget_append {α : Type} (d : α) (l r : Map α) (x : Nat) :
    mget d (l ++ r) x = if x ∈ l.map (·.1) then mget d l x else mget d r x := by
  induction l with
  | nil => simp
  | cons c l ih =>
    obtain ⟨k, v⟩ := c
    by_cases h : k = x
    · simp [mget, h]
    · simp only [List.cons_append, mget, h, if_false, ih, List.map_cons, List.mem_cons, Ne.symm h, false_or]

theorem mget_absent {α : Type} (d : α) (l : Map α) (x : Nat) (h : x ∉ l.map (·.1)) : mget d l x = d := by
  induction l with
  | nil => rfl
  | cons c l ih =>
    obtain ⟨k, v⟩ := c
    simp only [List.map_cons, List.mem_cons, not_or] at h
    simp [mget, Ne.symm h.1, ih h.2]

theorem mget_filter_key {α : Type} (d : α) (m : Map α) (p : Nat → Bool) (x : Nat) :
    mget d (m.filter (fun c => p c.1)) x = if p x then mget d m x else d := by
  induction m with
  | nil => simp
  | cons c m ih =>
    obtain ⟨k, v⟩ := c
    by_cases hk : k = x
    · subst hk
      by_cases hp : p k
      · simp [List.filter, hp, mget]
      · simp [List.filter, hp, ih]
    · by_cases hp : p k
      · simp [List.filter, hp, mget, hk, ih]
      · simp [List.filter, hp, mget, hk, ih]

theorem cellsOf_keys (bs : Bytes) (a x : Nat) (h : x ∈ (cellsOf a bs).map (·.1)) : a ≤ x ∧ x < a + bs.length := by
  induction bs generalizing a with
  | nil => simp [cellsOf] at h
  | cons b bs ih =>
    unfold cellsOf at h
    split at h
    · have := ih (a + 1) h; simp; omega
    · simp only [List.map_cons, List.mem_cons] at h
      rcases h with h | h
      · simp; omega
      · have := ih (a + 1) h; simp; omega

theorem mget_cellsOf (bs : Bytes) (a i : Nat) : mget 0 (cellsOf a bs) (a + i) = (bs[i]?).getD 0 := by
  induction bs generalizing a i with
  | nil => simp [cellsOf]
  | cons b bs ih =>
    cases i with
    | zero =>
      unfold cellsOf
      split
      · rename_i hb
        have : a ∉ (cellsOf (a + 1) bs).map (·.1) := by
          intro h; have := cellsOf_keys bs (a + 1) a h; omega
        have hz := mget_absent (0 : Byte) _ a this
        simpa [hb] using hz
      · simp [mget]
    | succ i =>
      have := ih (a + 1) i
      have he : a + 1 + i = a + (i + 1) := by omega
      rw [he] at this
      unfold cellsOf
      split
      · simpa using this
      · simpa [mget] using this

/-- A byte read after a byte string is written. -/
theorem rd_wrN (m : List Host.Cell) (a x : Nat) (bs : Bytes) :
    rd (wrN m a bs) x = if a ≤ x ∧ x < a + bs.length then (bs[x - a]?).getD 0 else rd m x := by
  unfold rd wrN
  rw [List.append_assoc, mget_append, mget_append]
  have h1 := mget_filter_key (0 : Byte) m (fun k => decide (k < a)) x
  have h2 := mget_filter_key (0 : Byte) m (fun k => decide (a + bs.length ≤ k)) x
  by_cases hlo : x < a
  · have hc : x ∉ (cellsOf a bs).map (·.1) := by intro h; have := cellsOf_keys bs a x h; omega
    have hn : ¬ (a ≤ x ∧ x < a + bs.length) := by omega
    have hd : ¬ (a + bs.length ≤ x) := by omega
    simp only [hlo, decide_true, if_true] at h1
    simp only [hd, decide_false, Bool.false_eq_true, if_false] at h2
    rw [if_neg hn, if_neg hc, h2]
    split
    · exact h1
    · rename_i hmem
      rw [← h1]
      exact (mget_absent 0 _ x hmem).symm
  · have hno : x ∉ (m.filter (fun c => decide (c.1 < a))).map (·.1) := by
      intro h
      simp only [List.mem_map, List.mem_filter, decide_eq_true_eq] at h
      obtain ⟨c, ⟨_, hc⟩, rfl⟩ := h
      exact hlo hc
    rw [if_neg hno]
    by_cases hin : x < a + bs.length
    · have hi : a ≤ x ∧ x < a + bs.length := by omega
      rw [if_pos hi]
      have hb := mget_cellsOf bs a (x - a)
      have hx : a + (x - a) = x := by omega
      rw [hx] at hb
      split
      · exact hb
      · rename_i hmem
        rw [← hb, mget_absent 0 _ x hmem]
        have hd : ¬ (a + bs.length ≤ x) := by omega
        simpa [hd] using h2
    · have hi : ¬ (a ≤ x ∧ x < a + bs.length) := by omega
      have hc : x ∉ (cellsOf a bs).map (·.1) := by intro h; have := cellsOf_keys bs a x h; omega
      have hd : a + bs.length ≤ x := by omega
      rw [if_neg hi, if_neg hc]
      simpa [hd] using h2

/-- A byte string just written reads back. -/
theorem rdN_wrN (m : List Host.Cell) (a : Nat) (bs : Bytes) : rdN (wrN m a bs) a bs.length = bs := by
  suffices H : ∀ (k : Nat) (l : Bytes), bs.drop k = l → rdN (wrN m a bs) (a + k) l.length = l by
    simpa using H 0 bs rfl
  intro k l
  induction l generalizing k with
  | nil => intro _; rfl
  | cons b l ih =>
    intro h
    have hk : k < bs.length := by
      by_contra hc
      have : bs.drop k = [] := List.drop_eq_nil_of_le (by omega)
      rw [this] at h
      cases h
    have hb : bs[k]? = some b := by
      have := congrArg List.head? h
      simpa [List.head?_drop] using this
    have hl : bs.drop (k + 1) = l := by
      rw [← List.tail_drop, h]
      rfl
    have hr : rd (wrN m a bs) (a + k) = b := by
      rw [rd_wrN, if_pos (by omega)]
      simp [hb]
    show rd (wrN m a bs) (a + k) :: rdN (wrN m a bs) (a + k + 1) l.length = b :: l
    rw [hr, show a + k + 1 = a + (k + 1) by omega, ih (k + 1) hl]

/-! ## Every memory operation keeps the canonical form -/

theorem above_append {α : Type} [DecidableEq α] (d : α) (l r : Map α) (b : Option Nat) (c : Nat)
    (hl : Above d b l) (hlt : ∀ k ∈ l.map (·.1), k < c) (hb : ∀ x ∈ b, x < c) (hr : Above d none r)
    (hge : ∀ k ∈ r.map (·.1), c ≤ k) : Above d b (l ++ r) := by
  induction l generalizing b with
  | nil =>
    cases r with
    | nil => trivial
    | cons e r =>
      obtain ⟨k, v⟩ := e
      obtain ⟨_, h2, h3⟩ := hr
      refine ⟨fun x hx => lt_of_lt_of_le (hb x hx) (hge k (by simp)), h2, h3⟩
  | cons e l ih =>
    obtain ⟨k, v⟩ := e
    obtain ⟨h1, h2, h3⟩ := hl
    refine ⟨h1, h2, ih (some k) h3 (fun j hj => hlt j (by simp at hj ⊢; exact Or.inr hj)) ?_⟩
    intro x hx
    cases hx
    exact hlt k (by simp)

theorem above_cellsOf (bs : Bytes) (a : Nat) (b : Option Nat) (hb : ∀ x ∈ b, x < a) :
    Above (0 : Byte) b (cellsOf a bs) := by
  induction bs generalizing a b with
  | nil => trivial
  | cons v bs ih =>
    unfold cellsOf
    split
    · exact ih (a + 1) b (fun x hx => by have := hb x hx; omega)
    · rename_i hv
      exact ⟨hb, hv, ih (a + 1) (some a) (by intro x hx; cases hx; omega)⟩

theorem memWf_nil : memWf [] = true := rfl

theorem memWf_wr (m : List Host.Cell) (a : Nat) (b : Byte) (h : memWf m = true) : memWf (wr m a b) = true :=
  mwf_mset 0 m a b h

theorem memWf_clrN (m : List Host.Cell) (a n : Nat) (h : memWf m = true) : memWf (clrN m a n) = true :=
  mwf_filter 0 m _ h

theorem memWf_filter (m : List Host.Cell) (p : Host.Cell → Bool) (h : memWf m = true) : memWf (m.filter p) = true :=
  mwf_filter 0 m p h

theorem memWf_wrN (m : List Host.Cell) (a : Nat) (bs : Bytes) (h : memWf m = true) : memWf (wrN m a bs) = true := by
  unfold memWf at *
  rw [mwf_iff_above] at *
  unfold wrN
  have hk : ∀ (p : Nat → Bool) (k : Nat), k ∈ (m.filter (fun c => p c.1)).map (·.1) → p k = true := by
    intro p k hk
    simp only [List.mem_map, List.mem_filter] at hk
    obtain ⟨c, ⟨_, hc⟩, rfl⟩ := hk
    exact hc
  rw [List.append_assoc]
  refine above_append 0 _ _ none a (above_filter 0 m none _ h) (fun k hm => ?_) (by simp)
    (above_append 0 _ _ none (a + bs.length) (above_cellsOf bs a none (by simp)) (fun k hm => (cellsOf_keys bs a k hm).2)
      (by simp) (above_filter 0 m none _ h) (fun k hm => ?_)) (fun k hm => ?_)
  · simpa using hk (fun k => decide (k < a)) k hm
  · simpa using hk (fun k => decide (a + bs.length ≤ k)) k hm
  · simp only [List.map_append, List.mem_append] at hm
    rcases hm with hm | hm
    · exact (cellsOf_keys bs a k hm).1
    · have := hk (fun k => decide (a + bs.length ≤ k)) k hm
      simp at this
      omega

end Sys2Proof.Machine
end

