-- ==== Sys2Proof/Laws/Keep.lean ====
section
/-! SUPPORT. What no operation of the part does: it takes no waiting command, unsends nothing, draws no free value
twice, spoils no memory's canonical form, opens no lease for session 0, and changes no part of the state but its own.
`Keep T s0 s` says so of a state `s` reached from `s0`, where `T` lists the parts that may differ; each operation has
one lemma that it holds after it if it held before and `T` has the parts the operation changes. -/

namespace Sys2Proof.Machine

theorem Part.same_self (p : Part) (s : State) : p.same s s := by cases p <;> rfl

theorem Part.same_trans (p : Part) (a b c : State) (h : p.same a b) (k : p.same b c) : p.same a c := by
  cases p <;> exact k.trans h

/-- Every part of `l` is listed in `T`. -/
def Within (l T : List Part) : Prop := ∀ p ∈ l, p ∈ T

theorem Within.sub {l k T : List Part} (h : Within l T) (hk : k.all (fun p => l.contains p) = true) : Within k T :=
  fun p hp => h p (by simpa using List.all_eq_true.mp hk p hp)

theorem within_self (T : List Part) : Within T T := fun _ h => h

/-- `s` has the waiting commands of `s0`, has sent what `s0` had sent, its memories and sessions are sound, and it
agrees with `s0` in every part that `T` does not list. -/
structure Keep (T : List Part) (s0 s : State) : Prop where
  pending : s.pending = s0.pending
  sent : ∃ l, s.tx = s0.tx ++ l
  drawn : s0.fresh ≤ s.fresh
  folds : s.folds.all (fun e => e.2.canonical) = true
  cores : s.cores.all (fun e => memWf e.2.scratch) = true
  owner : s.ownerOnly = true
  frame : ∀ p, p ∉ T → p.same s0 s

theorem keep_self (T : List Part) (s : State) (h : s.canonical = true) (ho : s.ownerOnly = true) : Keep T s s := by
  unfold State.canonical at h
  simp only [Bool.and_eq_true] at h
  exact ⟨rfl, ⟨[], by simp⟩, le_refl _, h.1, h.2, ho, fun p _ => p.same_self s⟩

theorem keep_trans (T : List Part) (a b c : State) (h : Keep T a b) (k : Keep T b c) : Keep T a c := by
  obtain ⟨l, hl⟩ := h.sent
  obtain ⟨l2, hl2⟩ := k.sent
  exact ⟨k.pending.trans h.pending, ⟨l ++ l2, by rw [hl2, hl, List.append_assoc]⟩, le_trans h.drawn k.drawn, k.folds,
    k.cores, k.owner, fun p hp => p.same_trans a b c (h.frame p hp) (k.frame p hp)⟩

theorem all_mput {α : Type} (p : Nat × α → Bool) (m : Map α) (i : Nat) (v : α) (hm : m.all p = true)
    (hv : p (i, v) = true) : (mput m i v).all p = true := by
  induction m with
  | nil => simp [mput, hv]
  | cons c m ih =>
    obtain ⟨k, w⟩ := c
    simp only [List.all_cons, Bool.and_eq_true] at hm
    unfold mput
    split
    · simp [hv, hm.1]; simpa using hm.2
    · split
      · simp [hv]; simpa using hm.2
      · simp only [List.all_cons, Bool.and_eq_true]; exact ⟨hm.1, ih hm.2⟩

theorem all_mdel {α : Type} (p : Nat × α → Bool) (m : Map α) (i : Nat) (hm : m.all p = true) :
    (mdel m i).all p = true := by
  induction m with
  | nil => rfl
  | cons c m ih =>
    obtain ⟨k, w⟩ := c
    simp only [List.all_cons, Bool.and_eq_true] at hm
    unfold mdel
    split
    · exact ih hm.2
    · simp only [List.all_cons, Bool.and_eq_true]; exact ⟨hm.1, ih hm.2⟩

theorem all_mset {α : Type} [DecidableEq α] (d : α) (p : Nat × α → Bool) (m : Map α) (i : Nat) (v : α)
    (hm : m.all p = true) (hv : v ≠ d → p (i, v) = true) : (mset d m i v).all p = true := by
  unfold mset
  split
  · exact all_mdel p m i hm
  · exact all_mput p m i v hm (hv ‹_›)

theorem all_mmap {α : Type} [DecidableEq α] (d : α) (p : α → Bool) (g : α → α) (m : Map α)
    (hm : m.all (fun e => p e.2) = true) (hg : ∀ x, p x = true → p (g x) = true) :
    (mmap d g m).all (fun e => p e.2) = true := by
  unfold mmap
  simp only [List.all_eq_true, List.mem_filter, List.mem_map] at *
  rintro ⟨k, v⟩ ⟨⟨⟨k', v'⟩, hmem, heq⟩, _⟩
  simp only [Prod.mk.injEq] at heq
  obtain ⟨rfl, rfl⟩ := heq
  exact hg v' (hm (k', v') hmem)

theorem mget_of_all {α : Type} (d : α) (p : α → Bool) (m : Map α) (i : Nat) (hd : p d = true)
    (hm : m.all (fun e => p e.2) = true) : p (mget d m i) = true := by
  induction m with
  | nil => exact hd
  | cons c m ih =>
    obtain ⟨k, w⟩ := c
    simp only [List.all_cons, Bool.and_eq_true] at hm
    unfold mget
    split
    · exact hm.1
    · exact ih hm.2

/-! ## States that differ elsewhere -/

/-- Parts of a state changed that hold none of what `Keep` speaks of otherwise. -/
theorem keep_mk {L T : List Part} (hT : Within L T) {s0 s : State}
    {regs sels latches fe reqs nh lc no graphs checking tables np xl dl ig pc fab}
    (h : Keep T s0 s) (hn : np.sessions = s.np.sessions)
    (hp : ∀ p, p ∉ L → p.same s (State.mk s.pending regs sels latches fe reqs nh lc no s.cores graphs checking tables
      s.folds np xl dl ig pc fab s.tx s.fresh)) :
    Keep T s0 (State.mk s.pending regs sels latches fe reqs nh lc no s.cores graphs checking tables s.folds np xl dl ig
      pc fab s.tx s.fresh) :=
  ⟨h.pending, h.sent, h.drawn, h.folds, h.cores, by
    have := h.owner
    unfold State.ownerOnly at *
    rw [hn]
    exact this, fun p hq => p.same_trans _ _ _ (h.frame p hq) (hp p (fun hl => hq (hT p hl)))⟩

/-- The record of the pins and clocks changed. -/
theorem keep_pc {T : List Part} (hT : Within [.pc] T) {s0 s : State} {pc} (h : Keep T s0 s) :
    Keep T s0 { s with pc := pc } :=
  keep_mk hT h rfl (by intro p hp; cases p <;> first | (exfalso; apply hp; decide) | rfl)

/-- The folds of a state changed one by one, its cores too. -/
theorem keep_mk_maps {L T : List Part} (hT : Within L T) {s0 s : State}
    {regs sels latches fe reqs nh lc no cores graphs checking tables folds np xl dl ig pc fab}
    (h : Keep T s0 s) (hn : np.sessions = s.np.sessions) (hf : folds.all (fun e => e.2.canonical) = true)
    (hc : cores.all (fun e => memWf e.2.scratch) = true)
    (hp : ∀ p, p ∉ L → p.same s (State.mk s.pending regs sels latches fe reqs nh lc no cores graphs checking tables
      folds np xl dl ig pc fab s.tx s.fresh)) :
    Keep T s0 (State.mk s.pending regs sels latches fe reqs nh lc no cores graphs checking tables folds np xl dl ig pc
      fab s.tx s.fresh) :=
  ⟨h.pending, h.sent, h.drawn, hf, hc, by
    have := h.owner
    unfold State.ownerOnly at *
    rw [hn]
    exact this, fun p hq => p.same_trans _ _ _ (h.frame p hq) (hp p (fun hl => hq (hT p hl)))⟩

/-- The state in a pair an operation answers. -/
theorem keep_fst {T : List Part} {α : Type} {s0 : State} {p : State × α} {s : State} {b : α} (h : p = (s, b)) (k : Keep T s0 p.1) :
    Keep T s0 s := by subst h; exact k

theorem keep_snd {T : List Part} {α : Type} {s0 : State} {p : α × State} {s : State} {b : α} (h : p = (b, s)) (k : Keep T s0 p.2) :
    Keep T s0 s := by subst h; exact k

/-- The state an operation answers where it answers one. -/
theorem keep_some {T : List Part} {s0 : State} {o : Option State} {s : State} (h : o = some s) (k : ∀ t, o = some t → Keep T s0 t) :
    Keep T s0 s := k s h

/-! ## Answers that may hold no state -/

theorem keep_none {T : List Part} {s0 : State} : ∀ t, (none : Option State) = some t → Keep T s0 t := fun _ h => nomatch h

theorem keep_pure {T : List Part} {s0 s : State} (h : Keep T s0 s) : ∀ t, some s = some t → Keep T s0 t :=
  fun _ k => Option.some.inj k ▸ h

theorem keep_if {T : List Part} {s0 : State} {c : Prop} [Decidable c] {o p : Option State} (h : ∀ t, o = some t → Keep T s0 t)
    (k : ∀ t, p = some t → Keep T s0 t) : ∀ t, (if c then o else p) = some t → Keep T s0 t := by
  split
  · exact h
  · exact k

theorem keep_none_pair {T : List Part} {α : Type} {s0 : State} : ∀ t, (none : Option (State × α)) = some t → Keep T s0 t.1 :=
  fun _ h => nomatch h

theorem keep_pure_pair {T : List Part} {α : Type} {s0 s : State} {a : α} (h : Keep T s0 s) : ∀ t, some (s, a) = some t → Keep T s0 t.1 :=
  fun _ k => Option.some.inj k ▸ h

theorem keep_getD {T : List Part} {s0 s : State} {o : Option State} (h : Keep T s0 s) (k : ∀ t, o = some t → Keep T s0 t) :
    Keep T s0 (o.getD s) := by
  cases o with
  | none => exact h
  | some t => exact k t rfl

theorem keep_next {T : List Part} {s0 s : State} (h : Keep T s0 s) :
    ∀ t, (.next s : Host.Outcome State Fault Refusal) = .next t → Keep T s0 t :=
  fun _ k => Host.Outcome.next.inj k ▸ h

theorem keep_fault {T : List Part} {s0 : State} {f : Fault} :
    ∀ t, (.fault f : Host.Outcome State Fault Refusal) = .next t → Keep T s0 t := fun _ h => nomatch h

theorem keep_refused {T : List Part} {s0 : State} {f : Refusal} :
    ∀ t, (.refused f : Host.Outcome State Fault Refusal) = .next t → Keep T s0 t := fun _ h => nomatch h

/-! ## Parts of a fold and of a core -/

theorem fold_pasture {x : Fold} (h : x.canonical = true) : memWf x.pasture = true := by
  unfold Fold.canonical at h; exact (Bool.and_eq_true _ _ ▸ h : _ ∧ _).1

theorem fold_pen {x : Fold} (h : x.canonical = true) : memWf x.pen = true := by
  unfold Fold.canonical at h; exact (Bool.and_eq_true _ _ ▸ h : _ ∧ _).2

theorem canonical_of {x : Fold} (h : memWf x.pasture = true) (k : memWf x.pen = true) : x.canonical = true := by
  unfold Fold.canonical; rw [h, k]; rfl

theorem keep_some_pair {T : List Part} {α : Type} {s0 : State} {o : Option (State × α)} {s : State} {a : α} (h : o = some (s, a))
    (k : ∀ t, o = some t → Keep T s0 t.1) : Keep T s0 s := k (s, a) h

theorem foldl_keep {α β : Type} (p : β → Prop) (l : List α) (g : β → α → β) (x : β) (h : p x)
    (hg : ∀ x y, p x → p (g x y)) : p (l.foldl g x) := by
  induction l generalizing x with
  | nil => exact h
  | cons a l ih => exact ih _ (hg x a h)

theorem keep_foldl {T : List Part} {α : Type} {s0 : State} (l : List α) (g : State → α → State) {s : State} (h : Keep T s0 s)
    (hg : ∀ s x, Keep T s0 s → Keep T s0 (g s x)) : Keep T s0 (l.foldl g s) := by
  induction l generalizing s with
  | nil => exact h
  | cons x l ih => exact ih (hg s x h)

theorem emit_keep {T : List Part} {s0 s : State} (h : Keep T s0 s) (t : Tx) : Keep T s0 (emit s t) := by
  obtain ⟨l, hl⟩ := h.sent
  exact ⟨h.pending, ⟨l ++ [t], by simp [emit, hl]⟩, h.drawn, h.folds, h.cores, h.owner,
    fun p hp => p.same_trans _ _ _ (h.frame p hp) (by cases p <;> rfl)⟩

theorem keep_fresh {T : List Part} {s0 s : State} (h : Keep T s0 s) (n : Nat) : Keep T s0 { s with fresh := s.fresh + n } :=
  ⟨h.pending, h.sent, le_trans h.drawn (Nat.le_add_right _ _), h.folds, h.cores, h.owner,
    fun p hp => p.same_trans _ _ _ (h.frame p hp) (by cases p <;> rfl)⟩

theorem draw_keep {T : List Part} {s0 s : State} (h : Keep T s0 s) : Keep T s0 (draw s).2 := keep_fresh h 1

theorem fold_canonical {T : List Part} {s0 s : State} (h : Keep T s0 s) (f : Nat) : (fold s f).canonical = true :=
  mget_of_all ({} : Fold) Fold.canonical s.folds f rfl h.folds

theorem core_canonical {T : List Part} {s0 s : State} (h : Keep T s0 s) (c : Nat) : memWf (core s c).scratch = true :=
  mget_of_all ({} : Core) (fun x => memWf x.scratch) s.cores c rfl h.cores

theorem setFold_keep {T : List Part} (hT : Within [.folds] T) {s0 s : State} (h : Keep T s0 s) (f : Nat) (x : Fold) (hx : x.canonical = true) :
    Keep T s0 (setFold s f x) :=
  ⟨h.pending, h.sent, h.drawn, all_mset ({} : Fold) (fun e => e.2.canonical) s.folds f x h.folds (fun _ => hx), h.cores, h.owner, fun p hp => p.same_trans _ _ _ (h.frame p hp)
    (by cases p <;> first | rfl | exact absurd (hT _ (by decide)) hp)⟩

theorem updFold_keep {T : List Part} (hT : Within [.folds] T) {s0 s : State} (h : Keep T s0 s) (f : Nat) (g : Fold → Fold)
    (hg : ∀ x : Fold, x.canonical = true → (g x).canonical = true) : Keep T s0 (updFold s f g) :=
  setFold_keep hT h f _ (hg _ (fold_canonical h f))

theorem setCore_keep {T : List Part} (hT : Within [.cores] T) {s0 s : State} (h : Keep T s0 s) (c : Nat) (x : Core) (hx : memWf x.scratch = true) :
    Keep T s0 (setCore s c x) :=
  ⟨h.pending, h.sent, h.drawn, h.folds, all_mset ({} : Core) (fun e => memWf e.2.scratch) s.cores c x h.cores (fun _ => hx), h.owner, fun p hp => p.same_trans _ _ _ (h.frame p hp)
    (by cases p <;> first | rfl | exact absurd (hT _ (by decide)) hp)⟩

theorem updCore_keep {T : List Part} (hT : Within [.cores] T) {s0 s : State} (h : Keep T s0 s) (c : Nat) (g : Core → Core)
    (hg : ∀ x : Core, memWf x.scratch = true → memWf (g x).scratch = true) : Keep T s0 (updCore s c g) :=
  setCore_keep hT h c _ (hg _ (core_canonical h c))

theorem setSession_keep {T : List Part} (hT : Within [.np] T) {s0 s : State} (h : Keep T s0 s) (i : Nat) (x : Session) (hx : i = 0 → x.live = false) :
    Keep T s0 (setSession s i x) :=
  ⟨h.pending, h.sent, h.drawn, h.folds, h.cores, by
    have := h.owner
    unfold State.ownerOnly at *
    refine all_mset ({} : Session) _ s.np.sessions i x this (fun _ => ?_)
    by_cases hi : i = 0
    · simp [hi, hx hi]
    · simp [hi], fun p hp => p.same_trans _ _ _ (h.frame p hp)
    (by cases p <;> first | rfl | exact absurd (hT _ (by decide)) hp)⟩

theorem session_owner {T : List Part} {s0 s : State} (h : Keep T s0 s) : (session s 0).live = false := by
  have := h.owner
  unfold State.ownerOnly at this
  unfold session
  generalize s.np.sessions = m at this
  induction m with
  | nil => rfl
  | cons c m ih =>
    obtain ⟨k, w⟩ := c
    simp only [List.all_cons, Bool.and_eq_true] at this
    unfold mget
    split
    · rename_i hk
      subst hk
      simpa using this.1
    · exact ih this.2

theorem updSession_keep {T : List Part} (hT : Within [.np] T) {s0 s : State} (h : Keep T s0 s) (i : Nat) (g : Session → Session)
    (hg : ∀ x : Session, i = 0 → x.live = false → (g x).live = false) : Keep T s0 (updSession s i g) :=
  setSession_keep hT h i _ (fun hi => hg _ hi (by subst hi; exact session_owner h))

end Sys2Proof.Machine
end

