-- ==== Sys2Proof/Laws/KeepOps.lean ====
section
/-! SUPPORT. `Keep` holds after each operation of the shared operations, the rings of Drove and the log, where it held before. -/

namespace Sys2Proof.Machine

theorem setQueue_keep {T : List Part} (hT : Within [.fe] T) {s0 : State} {s : State} (q : Nat) (x : Queue) (hs : Keep T s0 s) :
    Keep T s0 (setQueue s q x) := by
  unfold setQueue
  with_reducible refine keep_mk hT ?_ rfl ?_
  · assumption
  · (intro p hp; cases p <;> first | rfl | (exfalso; apply hp; decide))

theorem dropXfer_keep {T : List Part} (hT : Within [.fe] T) {s0 : State} {s : State} (x : Nat) (hs : Keep T s0 s) :
    Keep T s0 (dropXfer s x) := by
  unfold dropXfer
  with_reducible refine keep_mk hT ?_ rfl ?_
  · assumption
  · (intro p hp; cases p <;> first | rfl | (exfalso; apply hp; decide))

theorem setTable_keep {T : List Part} (hT : Within [.tables] T) {s0 : State} {s : State} (t : Nat) (x : Table) (hs : Keep T s0 s) :
    Keep T s0 (setTable s t x) := by
  unfold setTable
  with_reducible refine keep_mk hT ?_ rfl ?_
  · assumption
  · (intro p hp; cases p <;> first | rfl | (exfalso; apply hp; decide))

theorem updTable_keep {T : List Part} (hT : Within [.tables] T) {s0 : State} {s : State} (t : Nat) (g : Table → Table) (hs : Keep T s0 s) :
    Keep T s0 (updTable s t g) := by
  unfold updTable
  with_reducible apply setTable_keep (hT.sub (by decide))
  assumption

theorem setUnit_keep {T : List Part} (hT : Within [.ig] T) {s0 : State} {s : State} (u : Nat) (x : Unit_) (hs : Keep T s0 s) :
    Keep T s0 (setUnit s u x) := by
  unfold setUnit
  with_reducible refine keep_mk hT ?_ rfl ?_
  · assumption
  · (intro p hp; cases p <;> first | rfl | (exfalso; apply hp; decide))

theorem rset_keep {T : List Part} (hT : Within [.regs] T) {s0 : State} {s : State} (a : Nat) (i : Nat) (v : Nat) (hs : Keep T s0 s) :
    Keep T s0 (rset s a i v) := by
  unfold rset
  with_reducible refine keep_mk hT ?_ rfl ?_
  · assumption
  · (intro p hp; cases p <;> first | rfl | (exfalso; apply hp; decide))

theorem rsetBytes_keep {T : List Part} (hT : Within [.regs] T) {s0 : State} {s : State} (a : Nat) (i : Nat) (a3 : Bytes) (hs : Keep T s0 s) :
    Keep T s0 (rsetBytes s a i a3) := by
  fun_induction rsetBytes s a i a3
  · assumption
  · with_reducible apply_assumption -exfalso
    with_reducible apply rset_keep (hT.sub (by decide))
    assumption
  · with_reducible apply rset_keep (hT.sub (by decide))
    assumption

theorem rset64_keep {T : List Part} (hT : Within [.regs] T) {s0 : State} {s : State} (a : Nat) (i : Nat) (v : Nat) (hs : Keep T s0 s) :
    Keep T s0 (rset64 s a i v) := by
  unfold rset64
  with_reducible apply rset_keep (hT.sub (by decide))
  with_reducible apply rset_keep (hT.sub (by decide))
  assumption

theorem csetSlot_keep {x : Core} (k : Nat) (v : Slot) (hx : memWf (Core.scratch x) = true) :
    memWf (Core.scratch (csetSlot x k v)) = true := by
  unfold csetSlot
  dsimp -zeta only
  assumption

theorem cupdSlot_keep {x : Core} (k : Nat) (g : Slot → Slot) (hx : memWf (Core.scratch x) = true) :
    memWf (Core.scratch (cupdSlot x k g)) = true := by
  unfold cupdSlot
  with_reducible apply csetSlot_keep
  assumption

theorem setLink_keep {T : List Part} (hT : Within [.dl] T) {s0 : State} {s : State} (i : Nat) (x : Link) (hs : Keep T s0 s) :
    Keep T s0 (setLink s i x) := by
  unfold setLink
  with_reducible refine keep_mk hT ?_ rfl ?_
  · assumption
  · (intro p hp; cases p <;> first | rfl | (exfalso; apply hp; decide))

theorem updLink_keep {T : List Part} (hT : Within [.dl] T) {s0 : State} {s : State} (i : Nat) (g : Link → Link) (hs : Keep T s0 s) :
    Keep T s0 (updLink s i g) := by
  unfold updLink
  with_reducible apply setLink_keep (hT.sub (by decide))
  assumption

theorem updCmd_keep {T : List Part} (hT : Within [.fe] T) {s0 : State} {s : State} (q : Nat) (n : Word) (g : Cmd → Cmd) (hs : Keep T s0 s) :
    Keep T s0 (updCmd s q n g) := by
  unfold updCmd
  with_reducible refine keep_mk hT ?_ rfl ?_
  · assumption
  · (intro p hp; cases p <;> first | rfl | (exfalso; apply hp; decide))

theorem setQp_keep {T : List Part} (hT : Within [.np] T) {s0 : State} {s : State} (i : Nat) (x : Qp) (hs : Keep T s0 s) :
    Keep T s0 (setQp s i x) := by
  unfold setQp
  with_reducible refine keep_mk hT ?_ rfl ?_
  · assumption
  · (intro p hp; cases p <;> first | rfl | (exfalso; apply hp; decide))

theorem updQp_keep {T : List Part} (hT : Within [.np] T) {s0 : State} {s : State} (i : Nat) (g : Qp → Qp) (hs : Keep T s0 s) :
    Keep T s0 (updQp s i g) := by
  unfold updQp
  with_reducible apply setQp_keep (hT.sub (by decide))
  assumption

theorem updReq_keep {T : List Part} (hT : Within [.reqs] T) {s0 : State} {s : State} (h : Half) (g : Req → Req) (hs : Keep T s0 s) :
    Keep T s0 (updReq s h g) := by
  unfold updReq
  with_reducible refine keep_mk hT ?_ rfl ?_
  · assumption
  · (intro p hp; cases p <;> first | rfl | (exfalso; apply hp; decide))

theorem setRegion_keep {T : List Part} (hT : Within [.xl] T) {s0 : State} {s : State} (i : Nat) (x : Region) (hs : Keep T s0 s) :
    Keep T s0 (setRegion s i x) := by
  unfold setRegion
  with_reducible refine keep_mk hT ?_ rfl ?_
  · assumption
  · (intro p hp; cases p <;> first | rfl | (exfalso; apply hp; decide))

theorem updQueue_keep {T : List Part} (hT : Within [.fe] T) {s0 : State} {s : State} (q : Nat) (g : Queue → Queue) (hs : Keep T s0 s) :
    Keep T s0 (updQueue s q g) := by
  unfold updQueue
  with_reducible apply setQueue_keep (hT.sub (by decide))
  assumption

theorem cntN_keep {T : List Part} (hT : Within [.regs] T) {s0 : State} {s : State} (a : Nat) (i : Nat) (n : Nat) (hs : Keep T s0 s) :
    Keep T s0 (cntN s a i n) := by
  unfold cntN
  with_reducible apply rset_keep (hT.sub (by decide))
  assumption

theorem cnt_keep {T : List Part} (hT : Within [.regs] T) {s0 : State} {s : State} (a : Nat) (i : Nat) (hs : Keep T s0 s) :
    Keep T s0 (cnt s a i) := by
  unfold cnt
  with_reducible apply cntN_keep (hT.sub (by decide))
  assumption

theorem forAll_keep {T : List Part} (hT : Within [] T) {s0 : State} {α : Type} (l : List α) {s : State} (g : State → α → State) (hs : Keep T s0 s) (hg : ∀ y0 y1, Keep T s0 y0 → Keep T s0 (g y0 y1)) :
    Keep T s0 (forAll l s g) := by
  unfold forAll
  with_reducible apply keep_foldl
  · assumption
  · intro t0 x1 h2
    with_reducible apply_assumption -exfalso
    assumption

theorem updUnit_keep {T : List Part} (hT : Within [.ig] T) {s0 : State} {s : State} (u : Nat) (g : Unit_ → Unit_) (hs : Keep T s0 s) :
    Keep T s0 (updUnit s u g) := by
  unfold updUnit
  with_reducible apply setUnit_keep (hT.sub (by decide))
  assumption

theorem updXfer_keep {T : List Part} (hT : Within [.fe] T) {s0 : State} {s : State} (x : Nat) (g : Xfer → Xfer) (hs : Keep T s0 s) :
    Keep T s0 (updXfer s x g) := by
  unfold updXfer
  with_reducible refine keep_mk hT ?_ rfl ?_
  · assumption
  · (intro p hp; cases p <;> first | rfl | (exfalso; apply hp; decide))

theorem rsetF_keep {T : List Part} (hT : Within [.regs] T) {s0 : State} {s : State} (a : Nat) (i : Nat) (hi : Nat) (lo : Nat) (v : Nat) (hs : Keep T s0 s) :
    Keep T s0 (rsetF s a i hi lo v) := by
  unfold rsetF
  with_reducible apply rset_keep (hT.sub (by decide))
  assumption

theorem dropCmd_keep {T : List Part} (hT : Within [.fe] T) {s0 : State} {s : State} (q : Nat) (n : Word) (hs : Keep T s0 s) :
    Keep T s0 (dropCmd s q n) := by
  unfold dropCmd
  with_reducible refine keep_mk hT ?_ rfl ?_
  · assumption
  · (intro p hp; cases p <;> first | rfl | (exfalso; apply hp; decide))

theorem putFlit_keep {T : List Part} (hT : Within [.regs, .dl] T) {s0 : State} {s : State} (l : Nat) (fl : Flit) (hs : Keep T s0 s) :
    Keep T s0 (putFlit s l fl) := by
  unfold putFlit
  extract_lets +onlyGivenNames x0
  extract_lets +onlyGivenNames x1
  extract_lets +onlyGivenNames x2
  have hx2 : Keep T s0 x2 := by
    unfold x2
    with_reducible apply setLink_keep (hT.sub (by decide))
    assumption
  clear_value x2
  with_reducible apply emit_keep
  with_reducible apply cnt_keep (hT.sub (by decide))
  assumption

theorem loseFlit_keep {T : List Part} (hT : Within [.regs, .dl] T) {s0 : State} {s : State} (dst : BitVec 12) (hs : Keep T s0 s) :
    Keep T s0 (loseFlit s dst) := by
  unfold loseFlit
  split
  · assumption
  · with_reducible apply rsetF_keep (hT.sub (by decide))
    with_reducible refine keep_mk hT ?_ rfl ?_
    · assumption
    · (intro p hp; cases p <;> first | rfl | (exfalso; apply hp; decide))

theorem sendFlit_keep {T : List Part} (hT : Within [.regs, .dl] T) {s0 : State} {s : State} (fl : Flit) (hs : Keep T s0 s) :
    Keep T s0 (sendFlit s fl) := by
  unfold sendFlit
  extract_lets +onlyGivenNames x0
  split
  · unfold x0
    with_reducible refine keep_mk hT ?_ rfl ?_
    · assumption
    · (intro p hp; cases p <;> first | rfl | (exfalso; apply hp; decide))
  · split
    · with_reducible apply loseFlit_keep (hT.sub (by decide))
      assumption
    · split
      · with_reducible apply putFlit_keep (hT.sub (by decide))
        assumption
      · unfold x0
        with_reducible refine keep_mk hT ?_ rfl ?_
        · assumption
        · (intro p hp; cases p <;> first | rfl | (exfalso; apply hp; decide))

theorem drainFlits_keep {T : List Part} (hT : Within [.regs, .dl] T) {s0 : State} {s : State} (first : List Flit) (hs : Keep T s0 s) :
    Keep T s0 (drainFlits s first) := by
  unfold drainFlits
  with_reducible apply keep_foldl
  · with_reducible refine keep_mk hT ?_ rfl ?_
    · assumption
    · (intro p hp; cases p <;> first | rfl | (exfalso; apply hp; decide))
  · intro t0 x1 h2
    with_reducible apply sendFlit_keep (hT.sub (by decide))
    assumption

theorem droveSend_keep {T : List Part} (hT : Within [.regs, .dl] T) {s0 : State} {s : State} (d : Nat) (m : Instr) (hs : Keep T s0 s) :
    Keep T s0 (droveSend s d m) := by
  unfold droveSend
  extract_lets +onlyGivenNames x0
  split
  · assumption
  · split
    · with_reducible apply emit_keep
      assumption
    · split
      · with_reducible apply keep_foldl
        · with_reducible apply emit_keep
          assumption
        · intro t1 x2 h3
          with_reducible apply sendFlit_keep (hT.sub (by decide))
          assumption
      · with_reducible apply loseFlit_keep (hT.sub (by decide))
        assumption

theorem countAcked_keep {T : List Part} (hT : Within [.dl] T) {s0 : State} {s : State} (l : List Flit) (hs : Keep T s0 s) :
    Keep T s0 (countAcked s l) := by
  unfold countAcked
  extract_lets +onlyGivenNames x0
  with_reducible refine keep_mk hT ?_ rfl ?_
  · assumption
  · (intro p hp; cases p <;> first | rfl | (exfalso; apply hp; decide))

theorem toMembers_keep {T : List Part} (hT : Within [.regs, .dl] T) {s0 : State} {s : State} (m : Instr) (hs : Keep T s0 s) :
    Keep T s0 (toMembers s m) := by
  unfold toMembers
  with_reducible apply keep_foldl
  · assumption
  · intro t0 x1 h2
    with_reducible apply droveSend_keep (hT.sub (by decide))
    assumption

theorem closeRecs_keep {T : List Part} (hT : Within [.ig] T) {s0 : State} {s : State} (units : List Nat) (hs : Keep T s0 s) :
    Keep T s0 (closeRecs s units) := by
  unfold closeRecs
  with_reducible refine keep_mk hT ?_ rfl ?_
  · assumption
  · (intro p hp; cases p <;> first | rfl | (exfalso; apply hp; decide))

theorem meetReplan_keep {T : List Part} (hT : Within [.pc] T) {s0 : State} {s : State} (u : Nat) (hs : Keep T s0 s) :
    Keep T s0 (meetReplan s u) := by
  unfold meetReplan
  split
  · with_reducible refine keep_mk hT ?_ rfl ?_
    · assumption
    · (intro p hp; cases p <;> first | rfl | (exfalso; apply hp; decide))
  · assumption

theorem wantReset_keep {T : List Part} (hT : Within [.ig, .pc] T) {s0 : State} {s : State} (u : Nat) (sc : Scope) (cause : Word) (hs : Keep T s0 s) :
    Keep T s0 (wantReset s u sc cause) := by
  unfold wantReset
  split
  · assumption
  · extract_lets +onlyGivenNames x0
    have hx0 : Keep T s0 x0 := by
      unfold x0
      with_reducible apply updUnit_keep (hT.sub (by decide))
      assumption
    clear_value x0
    split
    · with_reducible apply meetReplan_keep (hT.sub (by decide))
      assumption
    · assumption

theorem setFlog_keep {T : List Part} (hT : Within [.ig] T) {s0 : State} {s : State} (i : Nat) (r : Frec) (hs : Keep T s0 s) :
    Keep T s0 (setFlog s i r) := by
  unfold setFlog
  with_reducible refine keep_mk hT ?_ rfl ?_
  · assumption
  · (intro p hp; cases p <;> first | rfl | (exfalso; apply hp; decide))

theorem logEv_keep {T : List Part} (hT : Within [.regs, .ig] T) {s0 : State} {s : State} (e : Ev) (hs : Keep T s0 s) :
    Keep T s0 (logEv s e) := by
  unfold logEv
  extract_lets +onlyGivenNames x0
  split
  · extract_lets +onlyGivenNames x1
    with_reducible apply setFlog_keep (hT.sub (by decide))
    assumption
  · extract_lets +onlyGivenNames x2
    split
    · extract_lets +onlyGivenNames x3
      extract_lets +onlyGivenNames x4
      have hx4 : Keep T s0 x4 := by
        unfold x4
        with_reducible apply setFlog_keep (hT.sub (by decide))
        assumption
      clear_value x4
      with_reducible apply rset_keep (hT.sub (by decide))
      assumption
    · with_reducible apply cnt_keep (hT.sub (by decide))
      with_reducible apply rsetF_keep (hT.sub (by decide))
      assumption

theorem worldViolation_keep {T : List Part} (hT : Within [.regs, .ig] T) {s0 : State} {s : State} (block : Nat) (a2 : Nat) (addr : Nat) (who : Requester) (hs : Keep T s0 s) :
    Keep T s0 (worldViolation s block a2 addr who) := by
  unfold worldViolation
  extract_lets +onlyGivenNames x0
  with_reducible apply cnt_keep (hT.sub (by decide))
  with_reducible apply logEv_keep (hT.sub (by decide))
  assumption

theorem thisSecond_keep {T : List Part} (hT : Within [.ig] T) {s0 : State} {s : State} (hs : Keep T s0 s) :
    Keep T s0 (thisSecond s) := by
  unfold thisSecond
  extract_lets +onlyGivenNames x0
  split
  · assumption
  · with_reducible refine keep_mk hT ?_ rfl ?_
    · assumption
    · (intro p hp; cases p <;> first | rfl | (exfalso; apply hp; decide))

theorem residueReport_keep {T : List Part} (hT : Within [.regs, .reqs, .cores, .ig, .pc] T) {s0 : State} {s : State} (c : Nat) (k : Nat) (h : Half) (set : Nat) (bundle : Nat) (hs : Keep T s0 s) :
    Keep T s0 (residueReport s c k h set bundle) := by
  unfold residueReport
  split
  · assumption
  · extract_lets +onlyGivenNames x0
    have hx0 : Keep T s0 x0 := by
      unfold x0
      with_reducible apply cnt_keep (hT.sub (by decide))
      assumption
    clear_value x0
    extract_lets +onlyGivenNames x1
    have hx1 : Keep T s0 x1 := by
      unfold x1
      with_reducible apply logEv_keep (hT.sub (by decide))
      assumption
    clear_value x1
    extract_lets +onlyGivenNames x2
    extract_lets +onlyGivenNames x3
    have hx3 : Keep T s0 x3 := by
      unfold x3
      with_reducible apply updReq_keep (hT.sub (by decide))
      assumption
    clear_value x3
    extract_lets +onlyGivenNames x4
    have hx4 : Keep T s0 x4 := by
      unfold x4
      split
      · split
        · with_reducible apply updCore_keep (hT.sub (by decide))
          · assumption
          · intro x5 h6
            with_reducible apply cupdSlot_keep
            assumption
        · assumption
      · assumption
    clear_value x4
    extract_lets +onlyGivenNames x7
    have hx7 : Keep T s0 x7 := by
      unfold x7
      with_reducible apply thisSecond_keep (hT.sub (by decide))
      assumption
    clear_value x7
    extract_lets +onlyGivenNames x8
    extract_lets +onlyGivenNames x9
    extract_lets +onlyGivenNames x10
    extract_lets +onlyGivenNames x11
    have hx11 : Keep T s0 x11 := by
      unfold x11
      with_reducible refine keep_mk hT ?_ rfl ?_
      · assumption
      · (intro p hp; cases p <;> first | rfl | (exfalso; apply hp; decide))
    clear_value x11
    split
    · with_reducible apply wantReset_keep (hT.sub (by decide))
      assumption
    · assumption

theorem markPoison_keep {T : List Part} (hT : Within [.reqs] T) {s0 : State} {s : State} (h : Half) (hs : Keep T s0 s) :
    Keep T s0 (markPoison s h) := by
  unfold markPoison
  with_reducible apply updReq_keep (hT.sub (by decide))
  assumption

theorem markSuspect_keep {T : List Part} (hT : Within [.reqs] T) {s0 : State} {s : State} (h : Half) (hs : Keep T s0 s) :
    Keep T s0 (markSuspect s h) := by
  unfold markSuspect
  with_reducible apply updReq_keep (hT.sub (by decide))
  assumption

theorem recExc_keep {x : Core} (k : Nat) (st : Status) (at_ : Nat) (ends : Bool) (hx : memWf (Core.scratch x) = true) :
    memWf (Core.scratch (recExc x k st at_ ends)) = true := by
  unfold recExc
  with_reducible apply cupdSlot_keep
  assumption

theorem illegalBundle_keep {T : List Part} (hT : Within [.regs, .ig] T) {s0 : State} {s : State} (c : Nat) (k : Nat) (pc : Nat) (hs : Keep T s0 s) :
    Keep T s0 (illegalBundle s c k pc) := by
  unfold illegalBundle
  with_reducible apply logEv_keep (hT.sub (by decide))
  assumption

theorem scrWrites_keep {x : Core} (ws : List (Nat × Span)) (hx : memWf (Core.scratch x) = true) :
    memWf (Core.scratch (scrWrites x ws)) = true := by
  unfold scrWrites
  dsimp -zeta only
  with_reducible refine foldl_keep (fun m => memWf m = true) _ _ _ ?_ ?_
  · assumption
  · intro x0 x1 h2
    with_reducible apply memWf_wrN
    with_reducible assumption

theorem extWrites_keep {x : Core} (ws : List (Nat × Span)) (hx : memWf (Core.scratch x) = true) :
    memWf (Core.scratch (extWrites x ws)) = true := by
  unfold extWrites
  extract_lets +onlyGivenNames x0
  have hx0 : memWf (Core.scratch x0) = true := by
    unfold x0
    with_reducible apply scrWrites_keep
    assumption
  clear_value x0
  split
  · dsimp -zeta only
    assumption
  · assumption

theorem extWrite_keep {x : Core} (a : Nat) (sp : Span) (hx : memWf (Core.scratch x) = true) :
    memWf (Core.scratch (extWrite x a sp)) = true := by
  unfold extWrite
  with_reducible apply extWrites_keep
  assumption

theorem scrWrite_keep {x : Core} (a : Nat) (sp : Span) (hx : memWf (Core.scratch x) = true) :
    memWf (Core.scratch (scrWrite x a sp)) = true := by
  unfold scrWrite
  with_reducible apply scrWrites_keep
  assumption

theorem scrZero_keep {x : Core} (a : Nat) (n : Nat) (hx : memWf (Core.scratch x) = true) :
    memWf (Core.scratch (scrZero x a n)) = true := by
  unfold scrZero
  dsimp -zeta only
  with_reducible apply memWf_clrN
  assumption

theorem extPut_keep {x : Core} (a : Nat) (m : Marked) (hx : memWf (Core.scratch x) = true) :
    memWf (Core.scratch (extPut x a m)) = true := by
  unfold extPut
  with_reducible apply extWrites_keep
  assumption

theorem doMaDone_keep {T : List Part} (hT : Within [.regs, .reqs, .cores, .ig, .pc] T) {s0 : State} {s : State} (c : Nat) (j : MaJob) (hs : Keep T s0 s) :
    Keep T s0 (doMaDone s c j) := by
  unfold doMaDone
  extract_lets +onlyGivenNames x0
  have hx0 : memWf (Core.scratch x0) = true := by
    unfold x0
    with_reducible exact core_canonical (by assumption) _
  clear_value x0
  extract_lets +onlyGivenNames x1
  extract_lets +onlyGivenNames x2
  extract_lets +onlyGivenNames x3
  extract_lets +onlyGivenNames x4
  extract_lets +onlyGivenNames x5
  extract_lets +onlyGivenNames x6
  extract_lets +onlyGivenNames x7
  have hx7 : memWf (Core.scratch x7) = true := by
    unfold x7
    split
    · assumption
    · with_reducible apply recExc_keep
      assumption
  clear_value x7
  extract_lets +onlyGivenNames x8
  have hx8 : Keep T s0 x8 := by
    unfold x8
    with_reducible apply cntN_keep (hT.sub (by decide))
    with_reducible apply setCore_keep (hT.sub (by decide))
    · assumption
    · assumption
  clear_value x8
  extract_lets +onlyGivenNames x9
  split
  · with_reducible apply setCore_keep (hT.sub (by decide))
    · assumption
    · with_reducible apply recExc_keep
      assumption
  · extract_lets +onlyGivenNames x10
    extract_lets +onlyGivenNames x11
    extract_lets +onlyGivenNames x12
    extract_lets +onlyGivenNames x13
    extract_lets +onlyGivenNames x14
    extract_lets +onlyGivenNames x15
    extract_lets +onlyGivenNames x16
    have hx16 : memWf (Core.scratch x16) = true := by
      unfold x16
      dsimp -zeta only
      assumption
    clear_value x16
    extract_lets +onlyGivenNames x17
    have hx17 : memWf (Core.scratch x17) = true := by
      unfold x17
      split
      · with_reducible apply recExc_keep
        assumption
      · assumption
    clear_value x17
    extract_lets +onlyGivenNames x18
    have hx18 : Keep T s0 x18 := by
      unfold x18
      with_reducible apply setCore_keep (hT.sub (by decide))
      · assumption
      · assumption
    clear_value x18
    extract_lets +onlyGivenNames x19
    have hx19 : Keep T s0 x19 := by
      unfold x19
      split
      · with_reducible apply cnt_keep (hT.sub (by decide))
        assumption
      · assumption
    clear_value x19
    extract_lets +onlyGivenNames x20
    have hx20 : Keep T s0 x20 := by
      unfold x20
      split
      · with_reducible apply markPoison_keep (hT.sub (by decide))
        assumption
      · assumption
    clear_value x20
    split
    · with_reducible apply residueReport_keep (hT.sub (by decide))
      with_reducible apply rsetF_keep (hT.sub (by decide))
      assumption
    · assumption

theorem doMaFetch_keep {T : List Part} (hT : Within [.cores] T) {s0 : State} {s : State} (c : Nat) (j : MaJob) (hs : Keep T s0 s) :
    Keep T s0 (doMaFetch s c j) := by
  unfold doMaFetch
  extract_lets +onlyGivenNames x0
  have hx0 : memWf (Core.scratch x0) = true := by
    unfold x0
    with_reducible exact core_canonical (by assumption) _
  clear_value x0
  extract_lets +onlyGivenNames x1
  extract_lets +onlyGivenNames x2
  extract_lets +onlyGivenNames x3
  extract_lets +onlyGivenNames x4
  extract_lets +onlyGivenNames x5
  extract_lets +onlyGivenNames x6
  have hx6 : memWf (Core.scratch x6) = true := by
    unfold x6
    split
    · with_reducible apply recExc_keep
      assumption
    · assumption
  clear_value x6
  extract_lets +onlyGivenNames x7
  extract_lets +onlyGivenNames x8
  with_reducible apply setCore_keep (hT.sub (by decide))
  · assumption
  · dsimp -zeta only
    assumption

theorem doAclr_keep {x : Core} (set : Nat) (hx : memWf (Core.scratch x) = true) :
    memWf (Core.scratch (doAclr x set)) = true := by
  unfold doAclr
  dsimp -zeta only
  assumption

theorem suspectOut_keep {x : Core} (k : Nat) (set : Nat) (bundle : Nat) (m : Nat) (n : Nat) (hx : memWf (Core.scratch x) = true) :
    memWf (Core.scratch (suspectOut x k set bundle m n)) = true := by
  unfold suspectOut
  extract_lets +onlyGivenNames x0
  extract_lets +onlyGivenNames x1
  split
  · dsimp -zeta only
    assumption
  · extract_lets +onlyGivenNames x2
    dsimp -zeta only
    assumption

theorem doPuts_keep {x : Core} (l : List Put) (hx : memWf (Core.scratch x) = true) :
    memWf (Core.scratch (doPuts x l)) = true := by
  unfold doPuts
  extract_lets +onlyGivenNames x0
  have hx0 : memWf (Core.scratch x0) = true := by
    unfold x0
    with_reducible apply scrWrites_keep
    assumption
  clear_value x0
  with_reducible refine foldl_keep (fun m => memWf (Core.scratch m) = true) _ _ _ ?_ ?_
  · assumption
  · intro x1 x2 h3
    split
    · dsimp -zeta only
      assumption
    · dsimp -zeta only
      assumption
    · assumption

theorem doVeSlab_keep {T : List Part} (hT : Within [.regs, .reqs, .cores] T) {s0 : State} {s : State} (c : Nat) (j : VeJob) (hs : Keep T s0 s) :
    Keep T s0 (doVeSlab s c j) := by
  unfold doVeSlab
  extract_lets +onlyGivenNames x0
  have hx0 : memWf (Core.scratch x0) = true := by
    unfold x0
    with_reducible exact core_canonical (by assumption) _
  clear_value x0
  extract_lets +onlyGivenNames x1
  split
  extract_lets +onlyGivenNames x2
  split
  extract_lets +onlyGivenNames x3
  extract_lets +onlyGivenNames x4
  have hx4 : memWf (Core.scratch x4) = true := by
    unfold x4
    split
    · with_reducible apply recExc_keep
      assumption
    · assumption
  clear_value x4
  extract_lets +onlyGivenNames x5
  have hx5 : memWf (Core.scratch x5) = true := by
    unfold x5
    split
    · assumption
    · with_reducible apply recExc_keep
      assumption
  clear_value x5
  extract_lets +onlyGivenNames x6
  extract_lets +onlyGivenNames x7
  extract_lets +onlyGivenNames x8
  extract_lets +onlyGivenNames x9
  have hx9 : Keep T s0 x9 := by
    unfold x9
    with_reducible apply setCore_keep (hT.sub (by decide))
    · assumption
    · dsimp -zeta only
      assumption
  clear_value x9
  extract_lets +onlyGivenNames x10
  have hx10 : Keep T s0 x10 := by
    unfold x10
    with_reducible apply cntN_keep (hT.sub (by decide))
    assumption
  clear_value x10
  split
  · with_reducible apply markPoison_keep (hT.sub (by decide))
    assumption
  · assumption

theorem addStats_keep {T : List Part} (hT : Within [.regs] T) {s0 : State} {s : State} (a : Nat) (q : QStats) (hs : Keep T s0 s) :
    Keep T s0 (addStats s a q) := by
  unfold addStats
  extract_lets +onlyGivenNames x0
  have hx0 : Keep T s0 x0 := by
    unfold x0
    with_reducible apply rset64_keep (hT.sub (by decide))
    assumption
  clear_value x0
  extract_lets +onlyGivenNames x1
  have hx1 : Keep T s0 x1 := by
    unfold x1
    with_reducible apply rset64_keep (hT.sub (by decide))
    assumption
  clear_value x1
  extract_lets +onlyGivenNames x2
  have hx2 : Keep T s0 x2 := by
    unfold x2
    with_reducible apply rset64_keep (hT.sub (by decide))
    assumption
  clear_value x2
  extract_lets +onlyGivenNames x3
  have hx3 : Keep T s0 x3 := by
    unfold x3
    with_reducible apply rset_keep (hT.sub (by decide))
    assumption
  clear_value x3
  extract_lets +onlyGivenNames x4
  have hx4 : Keep T s0 x4 := by
    unfold x4
    with_reducible apply rset_keep (hT.sub (by decide))
    assumption
  clear_value x4
  with_reducible apply cntN_keep (hT.sub (by decide))
  with_reducible apply cntN_keep (hT.sub (by decide))
  assumption

theorem doVeStats_keep {T : List Part} (hT : Within [.regs, .cores] T) {s0 : State} {s : State} (c : Nat) (j : VeJob) (hs : Keep T s0 s) :
    Keep T s0 (doVeStats s c j) := by
  unfold doVeStats
  extract_lets q t1 t2
  have h1 : Keep T s0 t1 := by
    unfold t1
    split
    · exact cnt_keep (hT.sub (by decide)) _ _ hs
    · exact hs
  have h2 : Keep T s0 t2 := cntN_keep (hT.sub (by decide)) _ _ _ h1
  clear_value t2 q
  split
  · rename_i u x v _
    have h3 : Keep T s0 u := by
      unfold u
      split
      · exact addStats_keep (hT.sub (by decide)) _ _ h2
      · exact h2
    clear_value u
    have h4 : memWf x.scratch = true := core_canonical h3 c
    clear_value v x
    split
    · exact h3
    · split
      · refine setCore_keep (hT.sub (by decide)) h3 c _ ?_
        generalize toLE 8 q.sse ++ toLE 8 q.ss ++ toLE 4 q.count ++ toLE 4 q.absmax ++ toLE 4 q.errmax ++ toLE 2 (sat16 q.sat) ++ toLE 2 (sat16 q.nonfin) = l
        exact scrWrite_keep _ _ h4
      · exact setCore_keep (hT.sub (by decide)) h3 c _ (recExc_keep _ _ _ _ h4)
  · exact h2

end Sys2Proof.Machine
end

