-- ==== Sys2Proof/Laws/KeepRc.lean ====
section
/-! SUPPORT. `Keep` holds after each operation of the core: issue, run and the engines, where it held before. -/

namespace Sys2Proof.Machine

theorem keepQ_keep {x : Core} (keep : IssueE → Bool) (hx : memWf (Core.scratch x) = true) :
    memWf (Core.scratch (keepQ x keep)) = true := by
  unfold keepQ
  extract_lets +onlyGivenNames x0
  dsimp -zeta only
  assumption

theorem addFlight_keep {T : List Part} (hT : Within [.cores] T) {s0 : State} {s : State} (c : Nat) (f : Flight) (hs : Keep T s0 s) :
    Keep T s0 (addFlight s c f) := by
  unfold addFlight
  with_reducible apply updCore_keep (hT.sub (by decide))
  · assumption
  · intro x0 h1
    dsimp -zeta only
    assumption

theorem doClear_keep {T : List Part} (hT : Within [.regs, .reqs, .cores, .ig, .pc] T) {s0 : State} {s : State} (c : Nat) (set : Nat) (due : Nat) (hs : Keep T s0 s) :
    Keep T s0 (doClear s c set due) := by
  unfold doClear
  extract_lets +onlyGivenNames x0
  extract_lets +onlyGivenNames x1
  extract_lets +onlyGivenNames x2
  have hx2 : Keep T s0 x2 := by
    unfold x2
    with_reducible apply updCore_keep (hT.sub (by decide))
    · assumption
    · intro x3 h4
      dsimp -zeta only
      assumption
  clear_value x2
  extract_lets +onlyGivenNames x5
  have hx5 : Keep T s0 x5 := by
    unfold x5
    with_reducible apply keep_foldl
    · assumption
    · intro t6 x7 h8
      split
      · with_reducible apply doMaDone_keep (hT.sub (by decide))
        assumption
      · assumption
  clear_value x5
  with_reducible apply updCore_keep (hT.sub (by decide))
  · assumption
  · intro x9 h10
    with_reducible apply doAclr_keep
    assumption

theorem doAct_keep {T : List Part} (hT : Within [.regs, .reqs, .cores, .ig, .pc] T) {s0 : State} {s : State} (c : Nat) (f : Flight) (hs : Keep T s0 s) :
    Keep T s0 (doAct s c f) := by
  unfold doAct
  split
  · with_reducible apply updCore_keep (hT.sub (by decide))
    · assumption
    · intro x0 h1
      with_reducible apply cupdSlot_keep
      assumption
  · with_reducible apply updCore_keep (hT.sub (by decide))
    · assumption
    · intro x2 h3
      with_reducible apply cupdSlot_keep
      assumption
  · split
    · extract_lets +onlyGivenNames x4
      with_reducible apply keep_foldl
      · assumption
      · intro t5 x6 h7
        split
        with_reducible apply addFlight_keep (hT.sub (by decide))
        assumption
    · assumption
  · with_reducible apply updCore_keep (hT.sub (by decide))
    · assumption
    · intro x8 h9
      with_reducible apply scrWrite_keep
      assumption
  · extract_lets +onlyGivenNames x10
    with_reducible apply addFlight_keep (hT.sub (by decide))
    assumption
  · with_reducible apply doMaFetch_keep (hT.sub (by decide))
    assumption
  · with_reducible apply doMaDone_keep (hT.sub (by decide))
    assumption
  · with_reducible apply doClear_keep (hT.sub (by decide))
    assumption
  · with_reducible apply doVeSlab_keep (hT.sub (by decide))
    assumption
  · with_reducible apply updCore_keep (hT.sub (by decide))
    · assumption
    · intro x11 h12
      with_reducible apply doPuts_keep
      assumption
  · with_reducible apply doVeStats_keep (hT.sub (by decide))
    assumption

theorem runFl_keep {T : List Part} (hT : Within [.regs, .reqs, .cores, .ig, .pc] T) {s0 : State} (c : Nat) (t : Nat) (a2 : Nat) {a3 : State} (ha3 : Keep T s0 a3) :
    Keep T s0 (runFl c t a2 a3) := by
  fun_induction runFl c t a2 a3
  · assumption
  · assumption
  · with_reducible apply_assumption -exfalso
    with_reducible apply doAct_keep (hT.sub (by decide))
    with_reducible apply updCore_keep (hT.sub (by decide))
    · assumption
    · intro x0 h1
      dsimp -zeta only
      assumption

theorem drainReq_keep {T : List Part} (hT : Within [.cores, .folds] T) {s0 : State} {s : State} (h : Half) (hs : Keep T s0 s) :
    Keep T s0 (drainReq s h) := by
  unfold drainReq
  refine keep_mk_maps hT ?_ rfl ?_ ?_ ?_
  · assumption
  · refine all_mmap ({} : Fold) Fold.canonical _ _ ?_ ?_
    · with_reducible exact Keep.folds (by assumption)
    · intro x0 h1
      exact canonical_of (fold_pasture (by assumption)) (fold_pen (by assumption))
  · refine all_mmap ({} : Core) (fun x => memWf x.scratch) _ _ ?_ ?_
    · with_reducible exact Keep.cores (by assumption)
    · intro x2 h3
      with_reducible apply keepQ_keep
      assumption
  · (intro p hp; cases p <;> first | rfl | (exfalso; apply hp; decide))

theorem endSlot_keep {T : List Part} (hT : Within [.reqs, .cores, .folds] T) {s0 : State} {s : State} (c : Nat) (k : Nat) (hs : Keep T s0 s) :
    Keep T s0 (endSlot s c k) := by
  unfold endSlot
  extract_lets +onlyGivenNames x0
  extract_lets +onlyGivenNames x1
  have hx1 : Keep T s0 x1 := by
    unfold x1
    with_reducible apply updCore_keep (hT.sub (by decide))
    · assumption
    · intro x2 h3
      extract_lets +onlyGivenNames x4
      have hx4 : memWf (Core.scratch x4) = true := by
        unfold x4
        with_reducible apply cupdSlot_keep
        assumption
      clear_value x4
      dsimp -zeta only
      assumption
  clear_value x1
  extract_lets +onlyGivenNames x5
  have hx5 : Keep T s0 x5 := by
    unfold x5
    with_reducible apply updReq_keep (hT.sub (by decide))
    assumption
  clear_value x5
  with_reducible apply drainReq_keep (hT.sub (by decide))
  assumption

theorem atGate_keep {T : List Part} (hT : Within [.reqs, .cores, .folds] T) {s0 : State} {s : State} (c : Nat) (k : Nat) (v : Slot) (hs : Keep T s0 s) :
    Keep T s0 (atGate s c k v) := by
  unfold atGate
  split
  · with_reducible apply endSlot_keep (hT.sub (by decide))
    assumption
  · with_reducible apply updCore_keep (hT.sub (by decide))
    · assumption
    · intro x0 h1
      with_reducible apply cupdSlot_keep
      assumption

theorem chooseRun_keep {T : List Part} (hT : Within [.regs, .cores] T) {s0 : State} {s : State} (c : Nat) (hs : Keep T s0 s) :
    Keep T s0 (chooseRun s c) := by
  unfold chooseRun
  extract_lets +onlyGivenNames x0
  have hx0 : memWf (Core.scratch x0) = true := by
    unfold x0
    with_reducible exact core_canonical (by assumption) _
  clear_value x0
  extract_lets +onlyGivenNames x1
  extract_lets +onlyGivenNames x2
  extract_lets +onlyGivenNames x3
  have hx3 : memWf (Core.scratch x3) = true := by
    unfold x3
    (clear_value *; split)
    · split
      · assumption
      · with_reducible apply cupdSlot_keep
        assumption
    · assumption
  clear_value x3
  split
  · (clear_value *; split)
    · with_reducible apply setCore_keep (hT.sub (by decide))
      · assumption
      · dsimp -zeta only
        assumption
    · extract_lets +onlyGivenNames x4
      extract_lets +onlyGivenNames x5
      extract_lets +onlyGivenNames x6
      have hx6 : memWf (Core.scratch x6) = true := by
        unfold x6
        with_reducible apply cupdSlot_keep
        assumption
      clear_value x6
      extract_lets +onlyGivenNames x7
      have hx7 : Keep T s0 x7 := by
        unfold x7
        with_reducible apply setCore_keep (hT.sub (by decide))
        · assumption
        · dsimp -zeta only
          assumption
      clear_value x7
      split
      · with_reducible apply cnt_keep (hT.sub (by decide))
        assumption
      · assumption
  · (clear_value *; split)
    · with_reducible apply setCore_keep (hT.sub (by decide))
      · assumption
      · dsimp -zeta only
        assumption
    · extract_lets +onlyGivenNames x8
      extract_lets +onlyGivenNames x9
      extract_lets +onlyGivenNames x10
      have hx10 : memWf (Core.scratch x10) = true := by
        unfold x10
        with_reducible apply cupdSlot_keep
        assumption
      clear_value x10
      extract_lets +onlyGivenNames x11
      have hx11 : Keep T s0 x11 := by
        unfold x11
        with_reducible apply setCore_keep (hT.sub (by decide))
        · assumption
        · dsimp -zeta only
          assumption
      clear_value x11
      split
      · with_reducible apply cnt_keep (hT.sub (by decide))
        assumption
      · assumption

theorem wakeCore_keep {T : List Part} (hT : Within [.regs, .cores] T) {s0 : State} {s : State} (c : Nat) (hs : Keep T s0 s) :
    Keep T s0 (wakeCore s c) := by
  unfold wakeCore
  split
  · with_reducible apply chooseRun_keep (hT.sub (by decide))
    assumption
  · assumption

theorem bumpCtr_keep {T : List Part} (hT : Within [.regs, .cores] T) {s0 : State} {s : State} (c : Nat) (k : Nat) (n : Nat) (hs : Keep T s0 s) :
    Keep T s0 (bumpCtr s c k n) := by
  unfold bumpCtr
  extract_lets +onlyGivenNames x0
  have hx0 : Keep T s0 x0 := by
    unfold x0
    with_reducible apply updCore_keep (hT.sub (by decide))
    · assumption
    · intro x1 h2
      with_reducible apply cupdSlot_keep
      assumption
  clear_value x0
  with_reducible apply wakeCore_keep (hT.sub (by decide))
  assumption

theorem runOwn_keep {T : List Part} (hT : Within [.regs, .reqs, .cores, .ig, .pc] T) {s0 : State} (c : Nat) (k : Nat) (a2 : Nat) {a3 : State} (ha3 : Keep T s0 a3) :
    Keep T s0 (runOwn c k a2 a3) := by
  fun_induction runOwn c k a2 a3
  · assumption
  · assumption
  · with_reducible apply_assumption -exfalso
    with_reducible apply doAct_keep (hT.sub (by decide))
    with_reducible apply updCore_keep (hT.sub (by decide))
    · assumption
    · intro x0 h1
      dsimp -zeta only
      assumption

theorem finishOwn_keep {T : List Part} (hT : Within [.regs, .reqs, .cores, .ig, .pc] T) {s0 : State} {s : State} (c : Nat) (k : Nat) (hs : Keep T s0 s) :
    Keep T s0 (finishOwn s c k) := by
  unfold finishOwn
  with_reducible apply runOwn_keep (hT.sub (by decide))
  assumption

theorem endHeld_keep {T : List Part} (hT : Within [.reqs, .cores, .folds] T) {s0 : State} {s : State} (c : Nat) (hs : Keep T s0 s) :
    Keep T s0 (endHeld s c) := by
  unfold endHeld
  split
  · extract_lets +onlyGivenNames x0
    split
    · with_reducible apply endSlot_keep (hT.sub (by decide))
      assumption
    · assumption
  · assumption

theorem clearMav_keep {x : Core} (hx : memWf (Core.scratch x) = true) :
    memWf (Core.scratch (clearMav x)) = true := by
  unfold clearMav
  dsimp -zeta only
  assumption

theorem endIdle_keep {T : List Part} (hT : Within [.reqs, .cores, .folds] T) {s0 : State} {s : State} (c : Nat) (k : Nat) (hs : Keep T s0 s) :
    Keep T s0 (endIdle s c k) := by
  unfold endIdle
  extract_lets +onlyGivenNames x0
  split
  · with_reducible apply endSlot_keep (hT.sub (by decide))
    assumption
  · assumption

theorem issueB_keep {T : List Part} (hT : Within [.regs, .reqs, .cores] T) {s0 : State} {s : State} (c : Nat) (k : Nat) (v : Slot) (h : Hdr) (taken : Bool) (nx : BitVec 17 × List LoopRec) (fl : List (Nat × Act)) (hs : Keep T s0 s) :
    Keep T s0 (issueB s c k v h taken nx fl) := by
  unfold issueB
  extract_lets +onlyGivenNames x0
  have hx0 : Keep T s0 x0 := by
    unfold x0
    with_reducible apply updReq_keep (hT.sub (by decide))
    assumption
  clear_value x0
  extract_lets +onlyGivenNames x1
  extract_lets +onlyGivenNames x2
  have hx2 : Keep T s0 x2 := by
    unfold x2
    with_reducible apply updCore_keep (hT.sub (by decide))
    · assumption
    · intro x3 h4
      extract_lets +onlyGivenNames x5
      have hx5 : memWf (Core.scratch x5) = true := by
        unfold x5
        with_reducible apply cupdSlot_keep
        assumption
      clear_value x5
      dsimp -zeta only
      assumption
  clear_value x2
  with_reducible apply cnt_keep (hT.sub (by decide))
  assumption

theorem closeB_keep {T : List Part} (hT : Within [.reqs, .cores, .folds] T) {s0 : State} {s : State} (c : Nat) (hs : Keep T s0 s) :
    Keep T s0 (closeB s c) := by
  unfold closeB
  split
  · assumption
  · extract_lets +onlyGivenNames x0
    have hx0 : Keep T s0 x0 := by
      unfold x0
      with_reducible apply updCore_keep (hT.sub (by decide))
      · assumption
      · intro x1 h2
        extract_lets +onlyGivenNames x3
        have hx3 : memWf (Core.scratch x3) = true := by
          unfold x3
          with_reducible apply cupdSlot_keep
          assumption
        clear_value x3
        dsimp -zeta only
        assumption
    clear_value x0
    split
    · with_reducible apply endSlot_keep (hT.sub (by decide))
      with_reducible apply updCore_keep (hT.sub (by decide))
      · assumption
      · intro x4 h5
        with_reducible apply recExc_keep
        assumption
    · assumption

theorem runCore_keep {T : List Part} (hT : Within [.regs, .reqs, .cores, .folds, .ig, .pc] T) {s0 : State} {s : State} (c : Nat) (t : Nat) (hs : Keep T s0 s) :
    Keep T s0 (runCore s c t) := by
  unfold runCore
  split
  · assumption
  · extract_lets +onlyGivenNames x0
    have hx0 : Keep T s0 x0 := by
      unfold x0
      with_reducible apply closeB_keep (hT.sub (by decide))
      assumption
    clear_value x0
    extract_lets +onlyGivenNames x1
    have hx1 : Keep T s0 x1 := by
      unfold x1
      with_reducible apply runFl_keep (hT.sub (by decide))
      assumption
    clear_value x1
    extract_lets +onlyGivenNames x2
    have hx2 : memWf (Core.scratch x2) = true := by
      unfold x2
      with_reducible exact core_canonical (by assumption) _
    clear_value x2
    extract_lets +onlyGivenNames x3
    extract_lets +onlyGivenNames x4
    extract_lets +onlyGivenNames x5
    have hx5 : Keep T s0 x5 := by
      unfold x5
      with_reducible apply setCore_keep (hT.sub (by decide))
      · assumption
      · dsimp -zeta only
        assumption
    clear_value x5
    extract_lets +onlyGivenNames x6
    have hx6 : Keep T s0 x6 := by
      unfold x6
      with_reducible apply cntN_keep (hT.sub (by decide))
      assumption
    clear_value x6
    extract_lets +onlyGivenNames x7
    have hx7 : Keep T s0 x7 := by
      unfold x7
      with_reducible apply cntN_keep (hT.sub (by decide))
      assumption
    clear_value x7
    extract_lets +onlyGivenNames x8
    have hx8 : Keep T s0 x8 := by
      unfold x8
      split
      · with_reducible apply cntN_keep (hT.sub (by decide))
        assumption
      · assumption
    clear_value x8
    with_reducible apply endHeld_keep (hT.sub (by decide))
    assumption

theorem readyB_keep {T : List Part} (hT : Within [.regs, .reqs, .cores, .folds, .ig, .pc] T) {s0 : State} {s : State} (c : Nat) (h : Hdr) (w : Bool) (hs : Keep T s0 s) :
    Keep T s0 (readyB s c h w).1 := by
  unfold readyB
  extract_lets +onlyGivenNames x0
  have hx0 : Keep T s0 x0 := by
    unfold x0
    with_reducible apply closeB_keep (hT.sub (by decide))
    assumption
  clear_value x0
  extract_lets +onlyGivenNames x1
  have hx1 : memWf (Core.scratch x1) = true := by
    unfold x1
    with_reducible exact core_canonical (by assumption) _
  clear_value x1
  split
  · dsimp -zeta only
    assumption
  · extract_lets +onlyGivenNames x2
    split
    · dsimp -zeta only
      assumption
    · extract_lets +onlyGivenNames x3
      have hx3 : Keep T s0 x3 := by
        unfold x3
        with_reducible apply runCore_keep (hT.sub (by decide))
        assumption
      clear_value x3
      extract_lets +onlyGivenNames x4
      split
      · dsimp -zeta only
        assumption
      · split
        · dsimp -zeta only
          with_reducible apply endSlot_keep (hT.sub (by decide))
          assumption
        · split
          · dsimp -zeta only
            with_reducible apply illegalBundle_keep (hT.sub (by decide))
            assumption
          · dsimp -zeta only
            assumption

theorem closeOwn_keep {T : List Part} (hT : Within [.reqs, .cores, .folds] T) {s0 : State} {s : State} (c : Nat) (k : Nat) (hs : Keep T s0 s) :
    Keep T s0 (closeOwn s c k) := by
  unfold closeOwn
  split
  · split
    · with_reducible apply closeB_keep (hT.sub (by decide))
      assumption
    · assumption
  · assumption

theorem bundleC_keep {T : List Part} (hT : Within [.regs, .reqs, .cores, .folds, .ig, .pc] T) {s0 : State} {s : State} (c : Nat) (h : Hdr) (f : Slot → List (Nat × Act)) (hs : Keep T s0 s) :
    Keep T s0 (bundleC s c h f) := by
  unfold bundleC
  split
  · with_reducible apply keep_fst (by assumption)
    with_reducible apply readyB_keep (hT.sub (by decide))
    assumption
  · split
    · with_reducible apply issueB_keep (hT.sub (by decide))
      with_reducible apply keep_fst (by assumption)
      with_reducible apply readyB_keep (hT.sub (by decide))
      assumption
    · with_reducible apply atGate_keep (hT.sub (by decide))
      with_reducible apply keep_fst (by assumption)
      with_reducible apply readyB_keep (hT.sub (by decide))
      assumption

theorem takeA_keep {T : List Part} (hT : Within [.cores] T) {s0 : State} {s : State} (c : Nat) (hs : Keep T s0 s) :
    Keep T s0 (takeA s c) := by
  unfold takeA
  with_reducible apply updCore_keep (hT.sub (by decide))
  · assumption
  · intro x0 h1
    dsimp -zeta only
    assumption

theorem takeV_keep {T : List Part} (hT : Within [.cores] T) {s0 : State} {s : State} (c : Nat) (hs : Keep T s0 s) :
    Keep T s0 (takeV s c) := by
  unfold takeV
  with_reducible apply updCore_keep (hT.sub (by decide))
  · assumption
  · intro x0 h1
    dsimp -zeta only
    assumption

theorem noteDesc_keep {T : List Part} (hT : Within [.reqs, .cores] T) {s0 : State} {s : State} (c : Nat) (o : OpenB) (v : Slot) (d : Span × Bool) (hs : Keep T s0 s) :
    Keep T s0 (noteDesc s c o v d) := by
  unfold noteDesc
  extract_lets +onlyGivenNames x0
  have hx0 : Keep T s0 x0 := by
    unfold x0
    split
    · with_reducible apply markPoison_keep (hT.sub (by decide))
      assumption
    · assumption
  clear_value x0
  split
  · with_reducible apply updCore_keep (hT.sub (by decide))
    · assumption
    · intro x1 h2
      with_reducible apply recExc_keep
      assumption
  · assumption

theorem addOpen_keep {T : List Part} (hT : Within [.cores] T) {s0 : State} {s : State} (c : Nat) (f : Flight) (hs : Keep T s0 s) :
    Keep T s0 (addOpen s c f) := by
  unfold addOpen
  with_reducible apply updCore_keep (hT.sub (by decide))
  · assumption
  · intro x0 h1
    dsimp -zeta only
    assumption

theorem startVe_keep {T : List Part} (hT : Within [.regs, .reqs, .cores, .ig] T) {s0 : State} (c : Nat) (sd : Scr) (xo : BitVec 5) (op : Nat) (fn : BitVec 4) (act : BitVec 4) (rule : Bool) (imm : Half) {s : State} (hs : Keep T s0 s) :
    Keep T s0 (startVe c sd xo op fn act rule imm s) := by
  unfold startVe
  split
  · assumption
  · split
    · assumption
    · extract_lets +onlyGivenNames x0
      extract_lets +onlyGivenNames x1
      have hx1 : Keep T s0 x1 := by
        unfold x1
        with_reducible apply noteDesc_keep (hT.sub (by decide))
        with_reducible apply takeV_keep (hT.sub (by decide))
        assumption
      clear_value x1
      extract_lets +onlyGivenNames x2
      split
      · assumption
      · split
        · with_reducible apply illegalBundle_keep (hT.sub (by decide))
          assumption
        · extract_lets +onlyGivenNames x3
          have hx3 : Keep T s0 x3 := by
            unfold x3
            with_reducible apply addOpen_keep (hT.sub (by decide))
            assumption
          clear_value x3
          extract_lets +onlyGivenNames x4
          have hx4 : Keep T s0 x4 := by
            unfold x4
            with_reducible apply updCore_keep (hT.sub (by decide))
            · assumption
            · intro x5 h6
              dsimp -zeta only
              assumption
          clear_value x4
          with_reducible apply cnt_keep (hT.sub (by decide))
          assumption

end Sys2Proof.Machine
end

