-- ==== Sys2Proof/Laws/KeepMem.lean ====
section
/-! SUPPORT. `Keep` holds after each operation of pasture, translation, directory and the image of a table, where it held before. -/

namespace Sys2Proof.Machine

theorem tokensOn_keep {T : List Part} (hT : Within [.regs, .folds] T) {s0 : State} {s : State} (f : Nat) (p : Nat) (k : Nat) (waits : Bool) (hs : Keep T s0 s) :
    Keep T s0 (tokensOn s f p k waits) := by
  unfold tokensOn
  extract_lets +onlyGivenNames x0
  extract_lets +onlyGivenNames x1
  extract_lets +onlyGivenNames x2
  with_reducible apply cntN_keep (hT.sub (by decide))
  with_reducible apply updFold_keep (hT.sub (by decide))
  · assumption
  · intro x3 h4
    exact canonical_of (fold_pasture (by assumption)) (fold_pen (by assumption))

theorem waitFm_keep {T : List Part} (hT : Within [.regs, .folds] T) {s0 : State} {s : State} (f : Nat) (p : Nat) (hs : Keep T s0 s) :
    Keep T s0 (waitFm s f p) := by
  unfold waitFm
  split
  · assumption
  · extract_lets +onlyGivenNames x0
    extract_lets +onlyGivenNames x1
    have hx1 : Keep T s0 x1 := by
      unfold x1
      with_reducible apply keep_foldl
      · assumption
      · intro t2 x3 h4
        with_reducible apply tokensOn_keep (hT.sub (by decide))
        assumption
    clear_value x1
    with_reducible apply updFold_keep (hT.sub (by decide))
    · assumption
    · intro x5 h6
      exact canonical_of (fold_pasture (by assumption)) (fold_pen (by assumption))

theorem updChan_keep {T : List Part} (hT : Within [.folds] T) {s0 : State} {s : State} (f : Nat) (ch : Nat) (g : Chan → Chan) (hs : Keep T s0 s) :
    Keep T s0 (updChan s f ch g) := by
  unfold updChan
  with_reducible apply updFold_keep (hT.sub (by decide))
  · assumption
  · intro x0 h1
    exact canonical_of (fold_pasture (by assumption)) (fold_pen (by assumption))

theorem openRow_keep {T : List Part} (hT : Within [.regs, .folds] T) {s0 : State} {s : State} (f : Nat) (ch : Nat) (i : Nat) (hs : Keep T s0 s) :
    Keep T s0 (openRow s f ch i) := by
  unfold openRow
  extract_lets +onlyGivenNames x0
  split
  · assumption
  · with_reducible apply cnt_keep (hT.sub (by decide))
    with_reducible apply updChan_keep (hT.sub (by decide))
    assumption

theorem startRun_keep {T : List Part} (hT : Within [.regs, .folds] T) {s0 : State} {s : State} (f : Nat) (p : Nat) (ch : Nat) (i : Nat) (hs : Keep T s0 s) :
    Keep T s0 (startRun s f p ch i) := by
  unfold startRun
  extract_lets +onlyGivenNames x0
  have hx0 : Keep T s0 x0 := by
    unfold x0
    with_reducible apply waitFm_keep (hT.sub (by decide))
    assumption
  clear_value x0
  with_reducible apply openRow_keep (hT.sub (by decide))
  split
  · assumption
  · with_reducible apply cnt_keep (hT.sub (by decide))
    assumption

theorem charge_keep {T : List Part} (hT : Within [.regs, .folds] T) {s0 : State} {s : State} (f : Nat) (p : Nat) (k : Nat) (hs : Keep T s0 s) :
    Keep T s0 (charge s f p k) := by
  unfold charge
  extract_lets +onlyGivenNames x0
  with_reducible apply cntN_keep (hT.sub (by decide))
  with_reducible apply updFold_keep (hT.sub (by decide))
  · assumption
  · intro x1 h2
    exact canonical_of (fold_pasture (by assumption)) (fold_pen (by assumption))

theorem spend_keep {T : List Part} (hT : Within [.regs, .folds] T) {s0 : State} {s : State} (f : Nat) (p : Nat) (ch : Nat) (rd : List Nat) (wr : List Nat) (hs : Keep T s0 s) :
    Keep T s0 (spend s f p ch rd wr) := by
  unfold spend
  extract_lets +onlyGivenNames x0
  extract_lets +onlyGivenNames x1
  with_reducible apply cntN_keep (hT.sub (by decide))
  with_reducible apply cntN_keep (hT.sub (by decide))
  with_reducible apply charge_keep (hT.sub (by decide))
  assumption

theorem putSector_keep {T : List Part} (hT : Within [.regs, .folds] T) {s0 : State} {s : State} (f : Nat) (a : Nat) (d : Bytes) (mark : Bool) (hs : Keep T s0 s) :
    Keep T s0 (putSector s f a d mark) := by
  unfold putSector
  extract_lets +onlyGivenNames x0
  extract_lets +onlyGivenNames x1
  extract_lets +onlyGivenNames x2
  extract_lets +onlyGivenNames x3
  extract_lets +onlyGivenNames x4
  extract_lets +onlyGivenNames x5
  extract_lets +onlyGivenNames x6
  have hx6 : Keep T s0 x6 := by
    unfold x6
    with_reducible apply updFold_keep (hT.sub (by decide))
    · assumption
    · intro x7 h8
      refine canonical_of ?_ ?_
      · dsimp -zeta only
        with_reducible apply memWf_wrN
        with_reducible exact fold_pasture (by assumption)
      · dsimp -zeta only
        with_reducible exact fold_pen (by assumption)
  clear_value x6
  split
  · with_reducible apply rsetF_keep (hT.sub (by decide))
    assumption
  · assumption

theorem reportUe_keep {T : List Part} (hT : Within [.regs, .ig] T) {s0 : State} {s : State} (f : Nat) (a : Nat) (row : Option RowRef) (h : Option Half) (hs : Keep T s0 s) :
    Keep T s0 (reportUe s f a row h) := by
  unfold reportUe
  extract_lets +onlyGivenNames x0
  with_reducible apply logEv_keep (hT.sub (by decide))
  assumption

theorem ceCount_keep {T : List Part} (hT : Within [.regs, .ig] T) {s0 : State} {s : State} (code : Nat) (block : Nat) (a3 : Nat) (hs : Keep T s0 s) :
    Keep T s0 (ceCount s code block a3) := by
  unfold ceCount
  extract_lets +onlyGivenNames x0
  have hx0 : Keep T s0 x0 := by
    unfold x0
    with_reducible apply thisSecond_keep (hT.sub (by decide))
    assumption
  clear_value x0
  extract_lets +onlyGivenNames x1
  extract_lets +onlyGivenNames x2
  extract_lets +onlyGivenNames x3
  extract_lets +onlyGivenNames x4
  have hx4 : Keep T s0 x4 := by
    unfold x4
    with_reducible refine keep_mk hT ?_ rfl ?_
    · assumption
    · (intro p hp; cases p <;> first | rfl | (exfalso; apply hp; decide))
  clear_value x4
  extract_lets +onlyGivenNames x5
  split
  · with_reducible apply logEv_keep (hT.sub (by decide))
    assumption
  · assumption

theorem writeBack_keep {T : List Part} (hT : Within [.regs, .folds] T) {s0 : State} {s : State} (f : Nat) (a : Nat) (hs : Keep T s0 s) :
    Keep T s0 (writeBack s f a) := by
  unfold writeBack
  extract_lets +onlyGivenNames x0
  extract_lets +onlyGivenNames x1
  have hx1 : Keep T s0 x1 := by
    unfold x1
    with_reducible apply putSector_keep (hT.sub (by decide))
    assumption
  clear_value x1
  with_reducible apply spend_keep (hT.sub (by decide))
  with_reducible apply startRun_keep (hT.sub (by decide))
  assumption

theorem noteSec_keep {T : List Part} (hT : Within [.regs, .folds, .ig] T) {s0 : State} {s : State} (f : Nat) (row : Option RowRef) (h : Option Half) (back : Bool) (a : Nat) (hs : Keep T s0 s) :
    Keep T s0 (noteSec s f row h back a) := by
  unfold noteSec
  extract_lets +onlyGivenNames x0
  split
  · assumption
  · extract_lets +onlyGivenNames x1
    have hx1 : Keep T s0 x1 := by
      unfold x1
      with_reducible apply cnt_keep (hT.sub (by decide))
      assumption
    clear_value x1
    extract_lets +onlyGivenNames x2
    have hx2 : Keep T s0 x2 := by
      unfold x2
      with_reducible apply updChan_keep (hT.sub (by decide))
      assumption
    clear_value x2
    with_reducible apply reportUe_keep (hT.sub (by decide))
    assumption
  · extract_lets +onlyGivenNames x3
    have hx3 : Keep T s0 x3 := by
      unfold x3
      with_reducible apply ceCount_keep (hT.sub (by decide))
      with_reducible apply cnt_keep (hT.sub (by decide))
      assumption
    clear_value x3
    split
    · with_reducible apply writeBack_keep (hT.sub (by decide))
      assumption
    · assumption

theorem storeRun_keep {T : List Part} (hT : Within [.regs, .folds, .ig] T) {s0 : State} {s : State} (f : Nat) (r : Run) (hs : Keep T s0 s) :
    Keep T s0 (storeRun s f r) := by
  unfold storeRun
  extract_lets +onlyGivenNames x0
  have hx0 : Fold.canonical x0 = true := by
    unfold x0
    with_reducible exact fold_canonical (by assumption) _
  clear_value x0
  extract_lets +onlyGivenNames x1
  extract_lets +onlyGivenNames x2
  have hx2 : Keep T s0 x2 := by
    unfold x2
    with_reducible apply spend_keep (hT.sub (by decide))
    assumption
  clear_value x2
  with_reducible apply keep_foldl
  · assumption
  · intro t3 x4 h5
    split
    extract_lets +onlyGivenNames x6
    split
    · with_reducible apply putSector_keep (hT.sub (by decide))
      assumption
    · extract_lets +onlyGivenNames x7
      extract_lets +onlyGivenNames x8
      have hx8 : Keep T s0 x8 := by
        unfold x8
        with_reducible apply noteSec_keep (hT.sub (by decide))
        assumption
      clear_value x8
      split
      · assumption
      · with_reducible apply putSector_keep (hT.sub (by decide))
        assumption

theorem issueRun_keep {T : List Part} (hT : Within [.regs, .folds, .ig] T) {s0 : State} {s : State} (f : Nat) (r : Run) (hs : Keep T s0 s) :
    Keep T s0 (issueRun s f r) := by
  unfold issueRun
  extract_lets +onlyGivenNames x0
  have hx0 : Keep T s0 x0 := by
    unfold x0
    with_reducible apply updFold_keep (hT.sub (by decide))
    · assumption
    · intro x1 h2
      exact canonical_of (fold_pasture (by assumption)) (fold_pen (by assumption))
  clear_value x0
  extract_lets +onlyGivenNames x3
  have hx3 : Keep T s0 x3 := by
    unfold x3
    with_reducible apply startRun_keep (hT.sub (by decide))
    assumption
  clear_value x3
  split
  · with_reducible apply storeRun_keep (hT.sub (by decide))
    assumption
  · extract_lets +onlyGivenNames x4
    have hx4 : Keep T s0 x4 := by
      unfold x4
      with_reducible apply spend_keep (hT.sub (by decide))
      assumption
    clear_value x4
    with_reducible apply updChan_keep (hT.sub (by decide))
    assumption

theorem returnRun_keep {T : List Part} (hT : Within [.regs, .folds, .ig] T) {s0 : State} {s : State} (f : Nat) (r : Run) (hs : Keep T s0 s) :
    Keep T s0 (returnRun s f r) := by
  unfold returnRun
  extract_lets +onlyGivenNames x0
  have hx0 : Keep T s0 x0 := by
    unfold x0
    with_reducible apply updChan_keep (hT.sub (by decide))
    assumption
  clear_value x0
  split
  · with_reducible apply storeRun_keep (hT.sub (by decide))
    assumption
  · extract_lets +onlyGivenNames x1
    extract_lets +onlyGivenNames x2
    extract_lets +onlyGivenNames x3
    have hx3 : Keep T s0 x3 := by
      unfold x3
      with_reducible apply keep_foldl
      · assumption
      · intro t4 x5 h6
        with_reducible apply noteSec_keep (hT.sub (by decide))
        assumption
    clear_value x3
    with_reducible apply emit_keep
    assumption

theorem serveRun_keep {T : List Part} (hT : Within [.regs, .folds, .ig] T) {s0 : State} {s : State} (f : Nat) (r : Run) (hs : Keep T s0 s) :
    Keep T s0 (serveRun s f r) := by
  unfold serveRun
  extract_lets +onlyGivenNames x0
  extract_lets +onlyGivenNames x1
  have hx1 : Keep T s0 x1 := by
    unfold x1
    split
    · with_reducible apply issueRun_keep (hT.sub (by decide))
      assumption
    · assumption
  clear_value x1
  split
  · assumption
  · with_reducible apply returnRun_keep (hT.sub (by decide))
    assumption

theorem serveTo_keep {T : List Part} (hT : Within [.regs, .folds, .ig] T) {s0 : State} {s : State} (f : Nat) (clash : Run → Bool) (hs : Keep T s0 s) :
    Keep T s0 (serveTo s f clash) := by
  unfold serveTo
  extract_lets +onlyGivenNames x0
  have hx0 : Fold.canonical x0 = true := by
    unfold x0
    with_reducible exact fold_canonical (by assumption) _
  clear_value x0
  extract_lets +onlyGivenNames x1
  with_reducible apply keep_foldl
  · assumption
  · intro t2 x3 h4
    with_reducible apply serveRun_keep (hT.sub (by decide))
    assumption

theorem fillInject_keep {T : List Part} (hT : Within [.regs, .folds] T) {s0 : State} {s : State} (f : Nat) (lo : Nat) (hi : Nat) (hs : Keep T s0 s) :
    Keep T s0 (fillInject s f lo hi) := by
  unfold fillInject
  extract_lets +onlyGivenNames x0
  split
  · split
    · with_reducible apply putSector_keep (hT.sub (by decide))
      assumption
    · assumption
  · assumption

theorem fillRun_keep {T : List Part} (hT : Within [.regs, .folds] T) {s0 : State} {s : State} (f : Nat) (ch : Nat) (a : Nat) (b : Nat) (hs : Keep T s0 s) :
    Keep T s0 (fillRun s f ch a b) := by
  unfold fillRun
  extract_lets +onlyGivenNames x0
  extract_lets +onlyGivenNames x1
  have hx1 : Keep T s0 x1 := by
    unfold x1
    with_reducible apply startRun_keep (hT.sub (by decide))
    assumption
  clear_value x1
  extract_lets +onlyGivenNames x2
  extract_lets +onlyGivenNames x3
  have hx3 : Keep T s0 x3 := by
    unfold x3
    with_reducible apply cntN_keep (hT.sub (by decide))
    with_reducible apply updFold_keep (hT.sub (by decide))
    · assumption
    · intro x4 h5
      exact canonical_of (fold_pasture (by assumption)) (fold_pen (by assumption))
  clear_value x3
  with_reducible apply cntN_keep (hT.sub (by decide))
  assumption

theorem fillRow_keep {T : List Part} (hT : Within [.regs, .folds] T) {s0 : State} {s : State} (f : Nat) (lo : Nat) (hi : Nat) (r : Nat) (hs : Keep T s0 s) :
    Keep T s0 (fillRow s f lo hi r) := by
  unfold fillRow
  with_reducible apply keep_foldl
  · assumption
  · intro t0 x1 h2
    with_reducible apply fillRun_keep (hT.sub (by decide))
    assumption

theorem fillRowsFrom_keep {T : List Part} (hT : Within [.regs, .folds] T) {s0 : State} {s : State} (f : Nat) (lo : Nat) (hi : Nat) (a4 : Nat) (a5 : Nat) (hs : Keep T s0 s) :
    Keep T s0 (fillRowsFrom s f lo hi a4 a5) := by
  fun_induction fillRowsFrom s f lo hi a4 a5
  · assumption
  · with_reducible apply_assumption -exfalso
    with_reducible apply fillRow_keep (hT.sub (by decide))
    assumption

theorem fmFill_keep {T : List Part} (hT : Within [.regs, .folds, .ig] T) {s0 : State} {s : State} (f : Nat) (lo : Nat) (hi : Nat) (hs : Keep T s0 s) :
    Keep T s0 (fmFill s f lo hi) := by
  unfold fmFill
  extract_lets +onlyGivenNames x0
  have hx0 : Fold.canonical x0 = true := by
    unfold x0
    with_reducible exact fold_canonical (by assumption) _
  clear_value x0
  extract_lets +onlyGivenNames x1
  extract_lets +onlyGivenNames x2
  extract_lets +onlyGivenNames x3
  have hx3 : Keep T s0 x3 := by
    unfold x3
    with_reducible apply serveTo_keep (hT.sub (by decide))
    assumption
  clear_value x3
  extract_lets +onlyGivenNames x4
  have hx4 : Keep T s0 x4 := by
    unfold x4
    with_reducible apply updFold_keep (hT.sub (by decide))
    · assumption
    · intro x5 h6
      refine canonical_of ?_ ?_
      · dsimp -zeta only
        with_reducible apply memWf_clrN
        with_reducible exact fold_pasture (by assumption)
      · dsimp -zeta only
        with_reducible exact fold_pen (by assumption)
  clear_value x4
  with_reducible apply fillInject_keep (hT.sub (by decide))
  split
  · with_reducible apply fillRowsFrom_keep (hT.sub (by decide))
    assumption
  · assumption

theorem writeSec_keep {T : List Part} (hT : Within [.regs, .folds, .ig] T) {s0 : State} {s : State} (f : Nat) (a : Nat) (bs : Bytes) (mark : Bool) (k : Nat) (hs : Keep T s0 s) :
    Keep T s0 (writeSec s f a bs mark k) := by
  unfold writeSec
  split
  · with_reducible apply putSector_keep (hT.sub (by decide))
    assumption
  · extract_lets +onlyGivenNames x0
    extract_lets +onlyGivenNames x1
    have hx1 : Keep T s0 x1 := by
      unfold x1
      with_reducible apply noteSec_keep (hT.sub (by decide))
      assumption
    clear_value x1
    split
    · assumption
    · with_reducible apply putSector_keep (hT.sub (by decide))
      assumption

theorem serveBefore_keep {T : List Part} (hT : Within [.regs, .folds, .ig] T) {s0 : State} {s : State} (f : Nat) (p : Nat) (as : List Nat) (hs : Keep T s0 s) :
    Keep T s0 (serveBefore s f p as) := by
  unfold serveBefore
  extract_lets +onlyGivenNames x0
  have hx0 : Fold.canonical x0 = true := by
    unfold x0
    with_reducible exact fold_canonical (by assumption) _
  clear_value x0
  with_reducible apply serveTo_keep (hT.sub (by decide))
  assumption

theorem makeRuns_keep {T : List Part} (hT : Within [.regs, .folds] T) {s0 : State} {s : State} (f : Nat) (p : Nat) (as : List Nat) (isRd : Nat → Bool) (isWr : Nat → Bool) (hs : Keep T s0 s) :
    Keep T s0 (makeRuns s f p as isRd isWr) := by
  unfold makeRuns
  with_reducible apply keep_foldl
  · assumption
  · intro t0 x1 h2
    extract_lets +onlyGivenNames x3
    with_reducible apply spend_keep (hT.sub (by decide))
    with_reducible apply startRun_keep (hT.sub (by decide))
    assumption

theorem fmRead_keep {T : List Part} (hT : Within [.regs, .folds, .ig] T) {s0 : State} {s : State} (p : Nat) (f : Nat) (a : Nat) (n : Nat) (row : (Option RowRef)) (h : (Option Half)) (hs : Keep T s0 s) :
    Keep T s0 (fmRead s p f a n row h).1 := by
  unfold fmRead
  extract_lets +onlyGivenNames x0
  extract_lets +onlyGivenNames x1
  have hx1 : Keep T s0 x1 := by
    unfold x1
    with_reducible apply serveBefore_keep (hT.sub (by decide))
    assumption
  clear_value x1
  extract_lets +onlyGivenNames x2
  extract_lets +onlyGivenNames x3
  have hx3 : Keep T s0 x3 := by
    unfold x3
    with_reducible apply makeRuns_keep (hT.sub (by decide))
    assumption
  clear_value x3
  dsimp -zeta only
  with_reducible apply keep_foldl
  · assumption
  · intro t4 x5 h6
    with_reducible apply noteSec_keep (hT.sub (by decide))
    assumption

theorem fmFillAll_keep {T : List Part} (hT : Within [.regs, .folds] T) {s0 : State} {s : State} (f : Nat) (hs : Keep T s0 s) :
    Keep T s0 (fmFillAll s f) := by
  unfold fmFillAll
  extract_lets +onlyGivenNames x0
  extract_lets +onlyGivenNames x1
  have hx1 : Keep T s0 x1 := by
    unfold x1
    with_reducible apply keep_foldl
    · assumption
    · intro t2 x3 h4
      extract_lets +onlyGivenNames x5
      extract_lets +onlyGivenNames x6
      extract_lets +onlyGivenNames x7
      have hx7 : Keep T s0 x7 := by
        unfold x7
        with_reducible apply cntN_keep (hT.sub (by decide))
        with_reducible apply cntN_keep (hT.sub (by decide))
        assumption
      clear_value x7
      with_reducible apply updChan_keep (hT.sub (by decide))
      assumption
  clear_value x1
  with_reducible apply fillInject_keep (hT.sub (by decide))
  assumption

theorem fmPutBy_keep {T : List Part} (hT : Within [.regs, .folds, .ig] T) {s0 : State} {s : State} (p : Nat) (f : Nat) (a : Nat) (bs : Bytes) (mark : Nat → Bool) (hs : Keep T s0 s) :
    Keep T s0 (fmPutBy s p f a bs mark) := by
  unfold fmPutBy
  extract_lets +onlyGivenNames x0
  extract_lets +onlyGivenNames x1
  have hx1 : Keep T s0 x1 := by
    unfold x1
    with_reducible apply serveBefore_keep (hT.sub (by decide))
    assumption
  clear_value x1
  extract_lets +onlyGivenNames x2
  have hx2 : Fold.canonical x2 = true := by
    unfold x2
    with_reducible exact fold_canonical (by assumption) _
  clear_value x2
  extract_lets +onlyGivenNames x3
  extract_lets +onlyGivenNames x4
  have hx4 : Keep T s0 x4 := by
    unfold x4
    with_reducible apply makeRuns_keep (hT.sub (by decide))
    assumption
  clear_value x4
  with_reducible apply keep_foldl
  · assumption
  · intro t5 x6 h7
    with_reducible apply writeSec_keep (hT.sub (by decide))
    assumption

theorem fmPut_keep {T : List Part} (hT : Within [.regs, .folds, .ig] T) {s0 : State} {s : State} (p : Nat) (f : Nat) (a : Nat) (bs : Bytes) (mark : Bool) (hs : Keep T s0 s) :
    Keep T s0 (fmPut s p f a bs mark) := by
  unfold fmPut
  with_reducible apply fmPutBy_keep (hT.sub (by decide))
  assumption

theorem fmPutMarked_keep {T : List Part} (hT : Within [.regs, .folds, .ig] T) {s0 : State} {s : State} (p : Nat) (f : Nat) (a : Nat) (m : Marked) (hs : Keep T s0 s) :
    Keep T s0 (fmPutMarked s p f a m) := by
  unfold fmPutMarked
  with_reducible apply fmPutBy_keep (hT.sub (by decide))
  assumption

theorem fmWrite_keep {T : List Part} (hT : Within [.regs, .folds, .ig] T) {s0 : State} {s : State} (p : Nat) (f : Nat) (a : Nat) (bs : Bytes) (hs : Keep T s0 s) :
    Keep T s0 (fmWrite s p f a bs) := by
  unfold fmWrite
  with_reducible apply fmPut_keep (hT.sub (by decide))
  assumption

theorem rxDrop_keep {T : List Part} (hT : Within [.regs] T) {s0 : State} {s : State} (hs : Keep T s0 s) :
    Keep T s0 (rxDrop s) := by
  unfold rxDrop
  with_reducible apply cnt_keep (hT.sub (by decide))
  assumption

theorem rxFrame_keep {T : List Part} (hT : Within [.regs] T) {s0 : State} {s : State} (fr : Frame) (g : State → State) (hs : Keep T s0 s) (hg : ∀ y0, Keep T s0 y0 → Keep T s0 (g y0)) :
    Keep T s0 (rxFrame s fr g) := by
  unfold rxFrame
  split
  · assumption
  · split
    · split
      · assumption
      · with_reducible apply rsetF_keep (hT.sub (by decide))
        assumption
    · split
      · with_reducible apply rxDrop_keep (hT.sub (by decide))
        assumption
      · with_reducible apply_assumption -exfalso
        assumption

theorem rxPkt_keep {T : List Part} (hT : Within [.regs] T) {s0 : State} {s : State} (i : Nat) (n : Nat) (k : Pkt) (g : State → State) (hs : Keep T s0 s) (hg : ∀ y0, Keep T s0 y0 → Keep T s0 (g y0)) :
    Keep T s0 (rxPkt s i n k g) := by
  unfold rxPkt
  with_reducible apply rxFrame_keep (hT.sub (by decide))
  · assumption
  · intro t0 h1
    extract_lets +onlyGivenNames x2
    have hx2 : Keep T s0 x2 := by
      unfold x2
      with_reducible apply cntN_keep (hT.sub (by decide))
      assumption
    clear_value x2
    split
    · with_reducible apply cntN_keep (hT.sub (by decide))
      assumption
    · with_reducible apply_assumption -exfalso
      assumption

theorem dropHeld_keep {T : List Part} (hT : Within [.np] T) {s0 : State} {s : State} (p : Nat) (hs : Keep T s0 s) :
    Keep T s0 (dropHeld s p) := by
  unfold dropHeld
  with_reducible refine keep_mk hT ?_ rfl ?_
  · assumption
  · (intro p hp; cases p <;> first | rfl | (exfalso; apply hp; decide))

theorem putTx_keep {T : List Part} (hT : Within [.regs] T) {s0 : State} {s : State} (i : Nat) (psn : BitVec 24) (t : Tx) (hs : Keep T s0 s) :
    Keep T s0 (putTx s i psn t) := by
  unfold putTx
  split
  · with_reducible apply emit_keep
    with_reducible apply cntN_keep (hT.sub (by decide))
    assumption
  · assumption

theorem sendQp_keep {T : List Part} (hT : Within [.regs, .np] T) {s0 : State} {s : State} (i : Nat) (psn : BitVec 24) (t : Tx) (hs : Keep T s0 s) :
    Keep T s0 (sendQp s i psn t) := by
  unfold sendQp
  split
  · with_reducible refine keep_mk hT ?_ rfl ?_
    · assumption
    · (intro p hp; cases p <;> first | rfl | (exfalso; apply hp; decide))
  · with_reducible apply putTx_keep (hT.sub (by decide))
    assumption

theorem nakAccess_keep {T : List Part} (hT : Within [.regs, .np] T) {s0 : State} {s : State} (i : Nat) (psn : BitVec 24) (hs : Keep T s0 s) :
    Keep T s0 (nakAccess s i psn) := by
  unfold nakAccess
  with_reducible apply sendQp_keep (hT.sub (by decide))
  assumption

theorem flushPort_keep {T : List Part} (hT : Within [.regs, .np] T) {s0 : State} {s : State} (p : Nat) (hs : Keep T s0 s) :
    Keep T s0 (flushPort s p) := by
  unfold flushPort
  extract_lets +onlyGivenNames x0
  extract_lets +onlyGivenNames x1
  extract_lets +onlyGivenNames x2
  have hx2 : Keep T s0 x2 := by
    unfold x2
    with_reducible refine keep_mk hT ?_ rfl ?_
    · assumption
    · (intro p hp; cases p <;> first | rfl | (exfalso; apply hp; decide))
  clear_value x2
  with_reducible apply keep_foldl
  · assumption
  · intro t3 x4 h5
    with_reducible apply putTx_keep (hT.sub (by decide))
    assumption

theorem unpause_keep {T : List Part} (hT : Within [.regs, .np] T) {s0 : State} {s : State} (p : Nat) (hs : Keep T s0 s) :
    Keep T s0 (unpause s p) := by
  unfold unpause
  with_reducible apply flushPort_keep (hT.sub (by decide))
  with_reducible refine keep_mk hT ?_ rfl ?_
  · assumption
  · (intro p hp; cases p <;> first | rfl | (exfalso; apply hp; decide))

theorem respTo_keep {T : List Part} (hT : Within [.regs, .np] T) {s0 : State} {s : State} (i : Nat) (psn : BitVec 24) (d : Bytes) (hs : Keep T s0 s) :
    Keep T s0 (respTo s i psn d) := by
  unfold respTo
  with_reducible apply sendQp_keep (hT.sub (by decide))
  assumption

theorem setMac_keep {T : List Part} (hT : Within [.np] T) {s0 : State} {s : State} (m : Nat) (up : Bool) (hs : Keep T s0 s) :
    Keep T s0 (setMac s m up) := by
  unfold setMac
  with_reducible refine keep_mk hT ?_ rfl ?_
  · assumption
  · (intro p hp; cases p <;> first | rfl | (exfalso; apply hp; decide))

theorem rxReq_keep {T : List Part} (hT : Within [.regs, .np] T) {s0 : State} {s : State} (i : Nat) (n : Nat) (m : Nat) (k : Pkt) (again : State → State) (g : State → State) (hs : Keep T s0 s) (hagain : ∀ y0, Keep T s0 y0 → Keep T s0 (again y0)) (hg : ∀ y0, Keep T s0 y0 → Keep T s0 (g y0)) :
    Keep T s0 (rxReq s i n m k again g) := by
  unfold rxReq
  with_reducible apply rxPkt_keep (hT.sub (by decide))
  · assumption
  · intro t0 h1
    extract_lets +onlyGivenNames x2
    extract_lets +onlyGivenNames x3
    split
    · with_reducible apply_assumption -exfalso
      with_reducible apply updQp_keep (hT.sub (by decide))
      assumption
    · split
      · split
        · assumption
        · with_reducible apply sendQp_keep (hT.sub (by decide))
          with_reducible apply updQp_keep (hT.sub (by decide))
          assumption
      · with_reducible apply_assumption -exfalso
        assumption

theorem sendReq_keep {T : List Part} (hT : Within [.regs, .np] T) {s0 : State} {s : State} (i : Nat) (k : Nat) (t : Tx) (hs : Keep T s0 s) :
    Keep T s0 (sendReq s i k t) := by
  unfold sendReq
  extract_lets +onlyGivenNames x0
  with_reducible apply sendQp_keep (hT.sub (by decide))
  with_reducible apply updQp_keep (hT.sub (by decide))
  assumption

theorem ackTo_keep {T : List Part} (hT : Within [.regs, .np] T) {s0 : State} {s : State} (i : Nat) (psn : BitVec 24) (hs : Keep T s0 s) :
    Keep T s0 (ackTo s i psn) := by
  unfold ackTo
  with_reducible apply sendQp_keep (hT.sub (by decide))
  assumption

theorem sendOn_keep {T : List Part} (hT : Within [.regs, .np] T) {s0 : State} {s : State} (i : Nat) (x : Nat) (fq : Bool) (t : Tx) (hs : Keep T s0 s) :
    Keep T s0 (sendOn s i x fq t) := by
  unfold sendOn
  extract_lets +onlyGivenNames x0
  with_reducible apply sendReq_keep (hT.sub (by decide))
  with_reducible apply updQp_keep (hT.sub (by decide))
  assumption

theorem bootMac_keep {T : List Part} (hT : Within [.np] T) {s0 : State} {s : State} (hs : Keep T s0 s) :
    Keep T s0 (bootMac s) := by
  unfold bootMac
  with_reducible refine keep_mk hT ?_ rfl ?_
  · assumption
  · (intro p hp; cases p <;> first | rfl | (exfalso; apply hp; decide))

theorem fqWrite_keep {T : List Part} (hT : Within [.regs, .fe, .np] T) {s0 : State} {s : State} (r : FqRec) (hs : Keep T s0 s) :
    Keep T s0 (fqWrite s r) := by
  unfold fqWrite
  extract_lets +onlyGivenNames x0
  split
  · with_reducible apply cnt_keep (hT.sub (by decide))
    assumption
  · split
    · with_reducible apply cnt_keep (hT.sub (by decide))
      with_reducible apply rsetF_keep (hT.sub (by decide))
      assumption
    · extract_lets +onlyGivenNames x1
      have hx1 : Keep T s0 x1 := by
        unfold x1
        with_reducible apply rset_keep (hT.sub (by decide))
        assumption
      clear_value x1
      extract_lets +onlyGivenNames x2
      extract_lets +onlyGivenNames x3
      split
      · extract_lets +onlyGivenNames x4
        with_reducible apply sendOn_keep (hT.sub (by decide))
        with_reducible refine keep_mk hT ?_ rfl ?_
        · assumption
        · (intro p hp; cases p <;> first | rfl | (exfalso; apply hp; decide))
      · with_reducible apply cnt_keep (hT.sub (by decide))
        assumption

theorem accCount_keep {T : List Part} (hT : Within [.regs, .fe, .np, .xl] T) {s0 : State} {s : State} (w : Who) (va : Nat) (c : Tlb) (source : Nat) (who : Nat) (entry : Nat) (hs : Keep T s0 s) :
    Keep T s0 (accCount s w va c source who entry) := by
  unfold accCount
  extract_lets +onlyGivenNames x0
  extract_lets +onlyGivenNames x1
  split
  · assumption
  · extract_lets +onlyGivenNames x2
    extract_lets +onlyGivenNames x3
    have hx3 : Keep T s0 x3 := by
      unfold x3
      with_reducible refine keep_mk hT ?_ rfl ?_
      · assumption
      · (intro p hp; cases p <;> first | rfl | (exfalso; apply hp; decide))
    clear_value x3
    extract_lets +onlyGivenNames x4
    split
    · with_reducible apply fqWrite_keep (hT.sub (by decide))
      with_reducible apply cnt_keep (hT.sub (by decide))
      assumption
    · assumption

theorem tlbPut_keep {T : List Part} (hT : Within [.xl] T) {s0 : State} {s : State} (k : Nat) (c : Tlb) (hs : Keep T s0 s) :
    Keep T s0 (tlbPut s k c) := by
  unfold tlbPut
  split
  · with_reducible refine keep_mk hT ?_ rfl ?_
    · assumption
    · (intro p hp; cases p <;> first | rfl | (exfalso; apply hp; decide))
  · split
    extract_lets +onlyGivenNames x0
    with_reducible refine keep_mk hT ?_ rfl ?_
    · with_reducible apply keep_snd (by assumption)
      with_reducible apply draw_keep
      assumption
    · (intro p hp; cases p <;> first | rfl | (exfalso; apply hp; decide))

theorem xlatNote_keep {T : List Part} (hT : Within [.regs, .xl] T) {s0 : State} {s : State} (w : Who) (va : Nat) (rewalk : Bool) (hs : Keep T s0 s) :
    Keep T s0 (xlatNote s w va rewalk) := by
  unfold xlatNote
  split
  · assumption
  · extract_lets +onlyGivenNames x0
    have hx0 : Keep T s0 x0 := by
      unfold x0
      with_reducible apply cnt_keep (hT.sub (by decide))
      assumption
    clear_value x0
    split
    · assumption
    · with_reducible apply tlbPut_keep (hT.sub (by decide))
      assumption

theorem xlatDone_keep {T : List Part} (hT : Within [.regs, .fe, .np, .xl] T) {s0 : State} {s : State} (w : Who) (va : Nat) (rewalk : Bool) (source : Nat) (who : Nat) (entry : Nat) (hs : Keep T s0 s) :
    Keep T s0 (xlatDone s w va rewalk source who entry) := by
  unfold xlatDone
  extract_lets +onlyGivenNames x0
  with_reducible apply accCount_keep (hT.sub (by decide))
  with_reducible apply cnt_keep (hT.sub (by decide))
  with_reducible apply xlatNote_keep (hT.sub (by decide))
  assumption

theorem rwinDeny_keep {T : List Part} (hT : Within [.regs, .fe, .np] T) {s0 : State} {s : State} (src : Nat) (off : Nat) (hs : Keep T s0 s) :
    Keep T s0 (rwinDeny s src off) := by
  unfold rwinDeny
  with_reducible apply fqWrite_keep (hT.sub (by decide))
  with_reducible apply cnt_keep (hT.sub (by decide))
  assumption

theorem setDir_keep {x : Fold} (k : Nat) (e : DirE) (hx : Fold.canonical x = true) :
    Fold.canonical (setDir x k e) = true := by
  unfold setDir
  exact canonical_of (fold_pasture (by assumption)) (fold_pen (by assumption))

theorem updDir_keep {x : Fold} (k : Nat) (g : DirE → DirE) (hx : Fold.canonical x = true) :
    Fold.canonical (updDir x k g) = true := by
  unfold updDir
  with_reducible apply setDir_keep
  with_reducible assumption

theorem startMig_keep {T : List Part} (hT : Within [.folds] T) {s0 : State} {s : State} (f : Nat) (k : Nat) (toPen : Bool) (hs : Keep T s0 s) :
    Keep T s0 (startMig s f k toPen) := by
  unfold startMig
  with_reducible apply updFold_keep (hT.sub (by decide))
  · assumption
  · intro x0 h1
    extract_lets +onlyGivenNames x2
    have hx2 : Fold.canonical x2 = true := by
      unfold x2
      with_reducible apply updDir_keep
      with_reducible assumption
    clear_value x2
    exact canonical_of (fold_pasture (by assumption)) (fold_pen (by assumption))

theorem startAt_keep {T : List Part} (hT : Within [] T) {s0 : State} {s : State} (lo : Nat) (hi : Nat) (hs : Keep T s0 s) :
    Keep T s0 (startAt s lo hi).2 := by
  unfold startAt
  dsimp -zeta only
  refine keep_fresh ?_ _
  assumption

theorem asideAlloc_keep {T : List Part} (hT : Within [] T) {s0 : State} {s : State} (f : Nat) (n : Nat) (pen : Bool) (hs : Keep T s0 s) :
    Keep T s0 (asideAlloc s f n pen).2 := by
  unfold asideAlloc
  extract_lets +onlyGivenNames x0
  have hx0 : Keep T s0 x0.2 := by
    unfold x0
    with_reducible apply startAt_keep (hT.sub (by decide))
    assumption
  clear_value x0
  extract_lets +onlyGivenNames x1
  (clear_value *; split)
  · dsimp -zeta only
    assumption
  · extract_lets +onlyGivenNames x2
    extract_lets +onlyGivenNames x3
    have hx3 : Keep T s0 x3.2 := by
      unfold x3
      with_reducible apply startAt_keep (hT.sub (by decide))
      assumption
    clear_value x3
    dsimp -zeta only
    assumption

theorem needDemote_keep {T : List Part} (hT : Within [.folds] T) {s0 : State} {s : State} (f : Nat) (k : Nat) (repair : Bool) (hs : Keep T s0 s) :
    Keep T s0 (needDemote s f k repair) := by
  unfold needDemote
  extract_lets +onlyGivenNames x0
  have hx0 : Fold.canonical x0 = true := by
    unfold x0
    with_reducible exact fold_canonical (by assumption) _
  split
  · assumption
  · extract_lets +onlyGivenNames x1
    have hx1 : Fold.canonical x1 = true := by
      unfold x1
      exact canonical_of (fold_pasture (by assumption)) (fold_pen (by assumption))
    split
    · with_reducible apply startMig_keep (hT.sub (by decide))
      with_reducible apply setFold_keep (hT.sub (by decide))
      · assumption
      · with_reducible assumption
    · split
      · with_reducible apply setFold_keep (hT.sub (by decide))
        · assumption
        · exact canonical_of (fold_pasture (by assumption)) (fold_pen (by assumption))
      · with_reducible apply setFold_keep (hT.sub (by decide))
        · assumption
        · exact canonical_of (fold_pasture (by assumption)) (fold_pen (by assumption))

theorem wcEntry_keep {T : List Part} (hT : Within [.folds] T) {s0 : State} {s : State} (im : Image) (w : WcW) (hs : Keep T s0 s) :
    Keep T s0 (wcEntry s im w).1 := by
  unfold wcEntry
  extract_lets +onlyGivenNames x0
  have hx0 : Fold.canonical x0 = true := by
    unfold x0
    with_reducible exact fold_canonical (by assumption) _
  clear_value x0
  split
  · dsimp -zeta only
    assumption
  · extract_lets +onlyGivenNames x1
    split
    · extract_lets +onlyGivenNames x2
      dsimp -zeta only
      with_reducible apply updFold_keep (hT.sub (by decide))
      · assumption
      · intro x3 h4
        extract_lets +onlyGivenNames x5
        have hx5 : Fold.canonical x5 = true := by
          unfold x5
          with_reducible apply setDir_keep
          with_reducible assumption
        clear_value x5
        exact canonical_of (fold_pasture (by assumption)) (fold_pen (by assumption))
    · split
      · dsimp -zeta only
        assumption
      · split
        · extract_lets +onlyGivenNames x6
          dsimp -zeta only
          with_reducible apply needDemote_keep (hT.sub (by decide))
          with_reducible apply updFold_keep (hT.sub (by decide))
          · assumption
          · intro x7 h8
            exact canonical_of (fold_pasture (by assumption)) (fold_pen (by assumption))
        · dsimp -zeta only
          assumption

theorem readLoc_keep {T : List Part} (hT : Within [.regs, .folds, .ig] T) {s0 : State} {s : State} (p : Nat) (f : Nat) (l : Loc) (n : Nat) (row : Option RowRef) (h : Option Half) (hs : Keep T s0 s) :
    Keep T s0 (readLoc s p f l n row h).1 := by
  unfold readLoc
  split
  · dsimp -zeta only
    assumption
  · with_reducible apply fmRead_keep (hT.sub (by decide))
    assumption

theorem penWrite_keep {x : Fold} (a : Nat) (bs : Bytes) (mark : Bool) (hx : Fold.canonical x = true) :
    Fold.canonical (penWrite x a bs mark) = true := by
  unfold penWrite
  extract_lets +onlyGivenNames x0
  refine canonical_of ?_ ?_
  · dsimp -zeta only
    with_reducible exact fold_pasture (by assumption)
  · dsimp -zeta only
    with_reducible apply memWf_wrN
    with_reducible exact fold_pen (by assumption)

theorem writeLoc_keep {T : List Part} (hT : Within [.regs, .folds, .ig] T) {s0 : State} {s : State} (p : Nat) (f : Nat) (l : Loc) (slot : Bytes) (keep : Bool) (mark : Bool) (hs : Keep T s0 s) :
    Keep T s0 (writeLoc s p f l slot keep mark) := by
  unfold writeLoc
  split
  · with_reducible apply updFold_keep (hT.sub (by decide))
    · assumption
    · intro x0 h1
      with_reducible apply penWrite_keep
      with_reducible assumption
  · extract_lets +onlyGivenNames x2
    have hx2 : Keep T s0 x2 := by
      unfold x2
      with_reducible apply serveBefore_keep (hT.sub (by decide))
      assumption
    clear_value x2
    extract_lets +onlyGivenNames x3
    extract_lets +onlyGivenNames x4
    with_reducible apply fmPut_keep (hT.sub (by decide))
    assumption

theorem repairPen_keep {T : List Part} (hT : Within [.folds] T) {s0 : State} {s : State} (f : Nat) (k : Nat) (bad : Bool) (hs : Keep T s0 s) :
    Keep T s0 (repairPen s f k bad) := by
  unfold repairPen
  extract_lets +onlyGivenNames x0
  split
  · with_reducible apply needDemote_keep (hT.sub (by decide))
    assumption
  · assumption

theorem polStat_keep {T : List Part} (hT : Within [.regs] T) {s0 : State} {s : State} (f : Nat) (b : Nat) (hs : Keep T s0 s) :
    Keep T s0 (polStat s f b) := by
  unfold polStat
  with_reducible apply rsetF_keep (hT.sub (by decide))
  assumption

theorem writePop_keep {T : List Part} (hT : Within [.regs, .folds, .ig] T) {s0 : State} {s : State} (p : Nat) (f : Nat) (home : Nat) (pop : Nat) (hs : Keep T s0 s) :
    Keep T s0 (writePop s p f home pop) := by
  unfold writePop
  with_reducible apply fmWrite_keep (hT.sub (by decide))
  assumption

theorem freeEntry_keep {T : List Part} (hT : Within [.regs, .folds, .ig] T) {s0 : State} {s : State} (f : Nat) (k : Nat) (hs : Keep T s0 s) :
    Keep T s0 (freeEntry s f k) := by
  unfold freeEntry
  extract_lets +onlyGivenNames x0
  extract_lets +onlyGivenNames x1
  have hx1 : Keep T s0 x1 := by
    unfold x1
    split
    · with_reducible apply writePop_keep (hT.sub (by decide))
      assumption
    · assumption
  clear_value x1
  with_reducible apply updFold_keep (hT.sub (by decide))
  · assumption
  · intro x2 h3
    with_reducible apply setDir_keep
    with_reducible assumption

theorem reapEntry_keep {T : List Part} (hT : Within [.regs, .folds, .ig] T) {s0 : State} {s : State} (f : Nat) (k : Nat) (hs : Keep T s0 s) :
    Keep T s0 (reapEntry s f k) := by
  unfold reapEntry
  split
  · with_reducible apply freeEntry_keep (hT.sub (by decide))
    assumption
  · assumption

theorem dropMig_keep {x : Fold} (k : Nat) (hx : Fold.canonical x = true) :
    Fold.canonical (dropMig x k) = true := by
  unfold dropMig
  exact canonical_of (fold_pasture (by assumption)) (fold_pen (by assumption))

theorem startWaiting_keep {T : List Part} (hT : Within [.folds] T) {s0 : State} (a0 : Nat) {a1 : State} (a2 : Nat) (ha1 : Keep T s0 a1) :
    Keep T s0 (startWaiting a0 a1 a2) := by
  fun_induction startWaiting a0 a1 a2
  · assumption
  · assumption
  · with_reducible apply_assumption -exfalso
    dsimp +zetaDelta only
    split
    · with_reducible apply startMig_keep (hT.sub (by decide))
      with_reducible apply setFold_keep (hT.sub (by decide))
      · assumption
      · refine canonical_of ?_ ?_
        · dsimp -zeta only
          with_reducible exact fold_pasture (fold_canonical (by assumption) _)
        · dsimp -zeta only
          with_reducible exact fold_pen (fold_canonical (by assumption) _)
    · with_reducible apply setFold_keep (hT.sub (by decide))
      · assumption
      · refine canonical_of ?_ ?_
        · dsimp -zeta only
          with_reducible exact fold_pasture (fold_canonical (by assumption) _)
        · dsimp -zeta only
          with_reducible exact fold_pen (fold_canonical (by assumption) _)
  · with_reducible apply_assumption -exfalso
    dsimp +zetaDelta only
    split
    · with_reducible apply startMig_keep (hT.sub (by decide))
      with_reducible apply setFold_keep (hT.sub (by decide))
      · assumption
      · refine canonical_of ?_ ?_
        · dsimp -zeta only
          with_reducible exact fold_pasture (fold_canonical (by assumption) _)
        · dsimp -zeta only
          with_reducible exact fold_pen (fold_canonical (by assumption) _)
    · with_reducible apply setFold_keep (hT.sub (by decide))
      · assumption
      · refine canonical_of ?_ ?_
        · dsimp -zeta only
          with_reducible exact fold_pasture (fold_canonical (by assumption) _)
        · dsimp -zeta only
          with_reducible exact fold_pen (fold_canonical (by assumption) _)
  · assumption

theorem nextWaiting_keep {T : List Part} (hT : Within [.folds] T) {s0 : State} {s : State} (f : Nat) (hs : Keep T s0 s) :
    Keep T s0 (nextWaiting s f) := by
  unfold nextWaiting
  with_reducible apply startWaiting_keep (hT.sub (by decide))
  assumption

theorem abandonMig_keep {T : List Part} (hT : Within [.regs, .folds, .ig] T) {s0 : State} {s : State} (f : Nat) (k : Nat) (hs : Keep T s0 s) :
    Keep T s0 (abandonMig s f k) := by
  unfold abandonMig
  extract_lets +onlyGivenNames x0
  have hx0 : Keep T s0 x0 := by
    unfold x0
    with_reducible apply updFold_keep (hT.sub (by decide))
    · assumption
    · intro x1 h2
      with_reducible apply dropMig_keep
      with_reducible apply updDir_keep
      with_reducible assumption
  clear_value x0
  extract_lets +onlyGivenNames x3
  have hx3 : Keep T s0 x3 := by
    unfold x3
    with_reducible apply cnt_keep (hT.sub (by decide))
    assumption
  clear_value x3
  with_reducible apply nextWaiting_keep (hT.sub (by decide))
  with_reducible apply reapEntry_keep (hT.sub (by decide))
  assumption

theorem logMigN_keep {T : List Part} (hT : Within [.regs, .folds, .ig] T) {s0 : State} (n : Nat) {s : State} (f k : Nat) (hs : Keep T s0 s) :
    Keep T s0 (logMigN n s f k) := by
  induction n generalizing s with
  | zero => exact hs
  | succ n ih =>
    have hx : (fold s f).canonical = true := fold_canonical hs f
    unfold logMigN
    extract_lets x
    split
    · exact hs
    · split
      · exact setFold_keep (hT.sub (by decide)) hs f _ (canonical_of (fold_pasture hx) (fold_pen hx))
      · split
        · exact ih (polStat_keep (hT.sub (by decide)) f 3 (abandonMig_keep (hT.sub (by decide)) f _ hs))
        · exact hs

theorem logMig_keep {T : List Part} (hT : Within [.regs, .folds, .ig] T) {s0 : State} {s : State} (f : Nat) (k : Nat) (hs : Keep T s0 s) :
    Keep T s0 (logMig s f k) := by
  unfold logMig
  with_reducible apply logMigN_keep (hT.sub (by decide))
  assumption

theorem wcWrite_keep {T : List Part} (hT : Within [.regs, .folds, .ig] T) {s0 : State} {s : State} (im : Image) (w : WcW) (hs : Keep T s0 s) :
    Keep T s0 (wcWrite s im w).1 := by
  unfold wcWrite
  split
  · dsimp -zeta only
    with_reducible apply keep_fst (by assumption)
    with_reducible apply wcEntry_keep (hT.sub (by decide))
    assumption
  · extract_lets +onlyGivenNames x0
    extract_lets +onlyGivenNames x1
    extract_lets +onlyGivenNames x2
    extract_lets +onlyGivenNames x3
    extract_lets +onlyGivenNames x4
    extract_lets +onlyGivenNames x5
    extract_lets +onlyGivenNames x6
    have hx6 : Keep T s0 x6.2 := by
      unfold x6
      split
      · dsimp -zeta only
        with_reducible apply keep_fst (by assumption)
        with_reducible apply wcEntry_keep (hT.sub (by decide))
        assumption
      · with_reducible apply asideAlloc_keep (hT.sub (by decide))
        with_reducible apply updFold_keep (hT.sub (by decide))
        · with_reducible apply keep_fst (by assumption)
          with_reducible apply wcEntry_keep (hT.sub (by decide))
          assumption
        · intro x7 h8
          with_reducible apply updDir_keep
          with_reducible assumption
    clear_value x6
    extract_lets +onlyGivenNames x9
    have hx9 : Keep T s0 x9.1 := by
      unfold x9
      split
      · dsimp -zeta only
        with_reducible apply keep_fst (by assumption)
        with_reducible apply wcEntry_keep (hT.sub (by decide))
        assumption
      · split
        · dsimp -zeta only
          with_reducible apply updFold_keep (hT.sub (by decide))
          · with_reducible apply keep_fst (by assumption)
            with_reducible apply wcEntry_keep (hT.sub (by decide))
            assumption
          · intro x10 h11
            with_reducible apply updDir_keep
            with_reducible assumption
        · split
          · extract_lets +onlyGivenNames x12
            extract_lets +onlyGivenNames x13
            have hx13 : Keep T s0 x13.1 := by
              unfold x13
              with_reducible apply readLoc_keep (hT.sub (by decide))
              assumption
            clear_value x13
            extract_lets +onlyGivenNames x14
            have hx14 : Keep T s0 x14 := by
              unfold x14
              with_reducible apply writeLoc_keep (hT.sub (by decide))
              with_reducible apply repairPen_keep (hT.sub (by decide))
              assumption
            clear_value x14
            dsimp -zeta only
            with_reducible apply updFold_keep (hT.sub (by decide))
            · assumption
            · intro x15 h16
              with_reducible apply updDir_keep
              with_reducible assumption
          · dsimp -zeta only
            with_reducible apply polStat_keep (hT.sub (by decide))
            with_reducible apply reapEntry_keep (hT.sub (by decide))
            assumption
    clear_value x9
    split
    · assumption
    · extract_lets +onlyGivenNames x17
      have hx17 : Keep T s0 x17 := by
        unfold x17
        split
        · with_reducible apply updFold_keep (hT.sub (by decide))
          · assumption
          · intro x18 h19
            with_reducible apply updDir_keep
            with_reducible assumption
        · assumption
      clear_value x17
      extract_lets +onlyGivenNames x20
      extract_lets +onlyGivenNames x21
      have hx21 : Keep T s0 x21 := by
        unfold x21
        with_reducible apply writeLoc_keep (hT.sub (by decide))
        assumption
      clear_value x21
      extract_lets +onlyGivenNames x22
      have hx22 : Keep T s0 x22 := by
        unfold x22
        with_reducible apply updFold_keep (hT.sub (by decide))
        · assumption
        · intro x23 h24
          with_reducible apply updDir_keep
          with_reducible assumption
      clear_value x22
      dsimp -zeta only
      with_reducible apply logMig_keep (hT.sub (by decide))
      assumption

theorem poolRuns_keep {T : List Part} (hT : Within [.regs, .folds, .ig] T) {s0 : State} {s : State} (f : Nat) (a : Nat) (n : Nat) (write : Bool) (hs : Keep T s0 s) :
    Keep T s0 (poolRuns s f a n write) := by
  unfold poolRuns
  extract_lets +onlyGivenNames x0
  with_reducible apply makeRuns_keep (hT.sub (by decide))
  with_reducible apply serveBefore_keep (hT.sub (by decide))
  assumption

theorem asideFree_keep {T : List Part} (hT : Within [.regs, .folds, .ig] T) {s0 : State} {s : State} (f : Nat) (tid : Nat) (hs : Keep T s0 s) :
    Keep T s0 (asideFree s f tid) := by
  unfold asideFree
  extract_lets +onlyGivenNames x0
  extract_lets +onlyGivenNames x1
  extract_lets +onlyGivenNames x2
  with_reducible apply keep_foldl
  · assumption
  · intro t3 x4 h5
    with_reducible apply reapEntry_keep (hT.sub (by decide))
    with_reducible apply updFold_keep (hT.sub (by decide))
    · assumption
    · intro x6 h7
      with_reducible apply updDir_keep
      with_reducible assumption

theorem wcRead_keep {T : List Part} (hT : Within [.regs, .folds, .ig] T) {s0 : State} {s : State} (im : Image) (f : Nat) (tid : Nat) (img : Bool) (r : Nat) (hs : Keep T s0 s) :
    Keep T s0 (wcRead s im f tid img r).1 := by
  unfold wcRead
  extract_lets +onlyGivenNames x0
  extract_lets +onlyGivenNames x1
  have hx1 : Fold.canonical x1 = true := by
    unfold x1
    with_reducible exact fold_canonical (by assumption) _
  clear_value x1
  extract_lets +onlyGivenNames x2
  split
  · extract_lets +onlyGivenNames x3
    extract_lets +onlyGivenNames x4
    have hx4 : Keep T s0 x4.1 := by
      unfold x4
      with_reducible apply readLoc_keep (hT.sub (by decide))
      assumption
    clear_value x4
    dsimp -zeta only
    with_reducible apply repairPen_keep (hT.sub (by decide))
    assumption
  · extract_lets +onlyGivenNames x5
    have hx5 : Keep T s0 x5.1 := by
      unfold x5
      with_reducible apply readLoc_keep (hT.sub (by decide))
      assumption
    clear_value x5
    dsimp -zeta only
    assumption

theorem penAlloc_keep {T : List Part} (hT : Within [] T) {s0 : State} {s : State} (f : Nat) (n : Nat) (hs : Keep T s0 s) :
    Keep T s0 (penAlloc s f n).2 := by
  unfold penAlloc
  extract_lets +onlyGivenNames x0
  extract_lets +onlyGivenNames x1
  have hx1 : Keep T s0 x1.2 := by
    unfold x1
    with_reducible apply startAt_keep (hT.sub (by decide))
    assumption
  clear_value x1
  dsimp -zeta only
  assumption

theorem tryPromote_keep {T : List Part} (hT : Within [.regs, .folds] T) {s0 : State} {s : State} (f : Nat) (im : Image) (tid : Nat) (img : Bool) (r : Nat) (count : Nat) (hs : Keep T s0 s) :
    Keep T s0 (tryPromote s f im tid img r count) := by
  unfold tryPromote
  extract_lets +onlyGivenNames x0
  have hx0 : Fold.canonical x0 = true := by
    unfold x0
    with_reducible exact fold_canonical (by assumption) _
  clear_value x0
  extract_lets +onlyGivenNames x1
  extract_lets +onlyGivenNames x2
  extract_lets +onlyGivenNames x3
  split
  · assumption
  · extract_lets +onlyGivenNames x4
    extract_lets +onlyGivenNames x5
    extract_lets +onlyGivenNames x6
    split
    (clear_value *; split)
    · split
      · assumption
      · extract_lets +onlyGivenNames x7
        have hx7 : Keep T s0 x7 := by
          unfold x7
          with_reducible apply updFold_keep (hT.sub (by decide))
          · with_reducible apply keep_snd (by assumption)
            split
            · with_reducible apply penAlloc_keep (hT.sub (by decide))
              assumption
            · dsimp -zeta only
              assumption
          · intro x8 h9
            with_reducible apply updDir_keep
            with_reducible assumption
        clear_value x7
        with_reducible apply startMig_keep (hT.sub (by decide))
        assumption
    · extract_lets +onlyGivenNames x10
      have hx10 : Keep T s0 x10 := by
        unfold x10
        with_reducible apply cnt_keep (hT.sub (by decide))
        assumption
      clear_value x10
      split
      · with_reducible apply polStat_keep (hT.sub (by decide))
        assumption
      · assumption

theorem copySlot_keep {T : List Part} (hT : Within [.regs, .folds, .ig] T) {s0 : State} (f : Nat) (n : Nat) (src : Loc)
    (dst : Loc) (keep : Bool) (row : RowRef) (a6 : Nat) {a7 : State} (ha7 : Keep T s0 a7) :
    Keep T s0 (copySlot f n src dst keep row a6 a7) := by
  induction a6 generalizing a7 with
  | zero => exact ha7
  | succ k ih =>
    unfold copySlot
    exact ih (writeLoc_keep (hT.sub (by decide)) _ _ _ _ _ _ (readLoc_keep (hT.sub (by decide)) _ _ _ _ _ _ ha7))

theorem flipMig_keep {T : List Part} (hT : Within [.regs, .folds, .ig] T) {s0 : State} {s : State} (f : Nat) (k : Nat) (hs : Keep T s0 s) :
    Keep T s0 (flipMig s f k) := by
  unfold flipMig
  extract_lets +onlyGivenNames x0
  have hx0 : Fold.canonical x0 = true := by
    unfold x0
    with_reducible exact fold_canonical (by assumption) _
  clear_value x0
  extract_lets +onlyGivenNames x1
  split
  · assumption
  · extract_lets +onlyGivenNames x2
    extract_lets +onlyGivenNames x3
    extract_lets +onlyGivenNames x4
    extract_lets +onlyGivenNames x5
    extract_lets +onlyGivenNames x6
    have hx6 : Keep T s0 x6 := by
      unfold x6
      split
      · with_reducible apply copySlot_keep (hT.sub (by decide))
        assumption
      · assumption
    clear_value x6
    extract_lets +onlyGivenNames x7
    have hx7 : Keep T s0 x7 := by
      unfold x7
      with_reducible apply updFold_keep (hT.sub (by decide))
      · assumption
      · intro x8 h9
        with_reducible apply dropMig_keep
        with_reducible apply updDir_keep
        with_reducible assumption
    clear_value x7
    extract_lets +onlyGivenNames x10
    have hx10 : Keep T s0 x10 := by
      unfold x10
      with_reducible apply copySlot_keep (hT.sub (by decide))
      assumption
    clear_value x10
    extract_lets +onlyGivenNames x11
    have hx11 : Keep T s0 x11 := by
      unfold x11
      with_reducible apply updFold_keep (hT.sub (by decide))
      · assumption
      · intro x12 h13
        with_reducible apply dropMig_keep
        with_reducible apply updDir_keep
        with_reducible assumption
    clear_value x11
    extract_lets +onlyGivenNames x14
    have hx14 : Keep T s0 x14 := by
      unfold x14
      split
      · with_reducible apply cnt_keep (hT.sub (by decide))
        assumption
      · with_reducible apply cnt_keep (hT.sub (by decide))
        assumption
    clear_value x14
    with_reducible apply nextWaiting_keep (hT.sub (by decide))
    with_reducible apply reapEntry_keep (hT.sub (by decide))
    assumption

theorem freeOnFold_keep {T : List Part} (hT : Within [.regs, .folds] T) {s0 : State} {s : State} (tid : Nat) (img : Bool) (f : Nat) (hs : Keep T s0 s) :
    Keep T s0 (freeOnFold s tid img f) := by
  unfold freeOnFold
  extract_lets +onlyGivenNames x0
  have hx0 : Fold.canonical x0 = true := by
    unfold x0
    with_reducible exact fold_canonical (by assumption) _
  clear_value x0
  extract_lets +onlyGivenNames x1
  extract_lets +onlyGivenNames x2
  extract_lets +onlyGivenNames x3
  extract_lets +onlyGivenNames x4
  have hx4 : Fold.canonical x4 = true := by
    unfold x4
    with_reducible refine foldl_keep (fun m => Fold.canonical m = true) _ _ _ ?_ ?_
    · with_reducible assumption
    · intro x5 x6 h7
      with_reducible apply dropMig_keep
      with_reducible assumption
  clear_value x4
  extract_lets +onlyGivenNames x8
  have hx8 : Keep T s0 x8 := by
    unfold x8
    with_reducible apply setFold_keep (hT.sub (by decide))
    · assumption
    · exact canonical_of (fold_pasture (by assumption)) (fold_pen (by assumption))
  clear_value x8
  with_reducible apply nextWaiting_keep (hT.sub (by decide))
  with_reducible apply cntN_keep (hT.sub (by decide))
  assumption

theorem freeImage_keep {T : List Part} (hT : Within [.regs, .tables, .folds] T) {s0 : State} {s : State} (tid : Nat) (img : Bool) (hs : Keep T s0 s) :
    Keep T s0 (freeImage s tid img) := by
  unfold freeImage
  split
  · assumption
  · extract_lets +onlyGivenNames x0
    have hx0 : Keep T s0 x0 := by
      unfold x0
      with_reducible apply keep_foldl
      · assumption
      · intro t1 x2 h3
        with_reducible apply freeOnFold_keep (hT.sub (by decide))
        assumption
    clear_value x0
    with_reducible apply updTable_keep (hT.sub (by decide))
    assumption

theorem prevGone_keep {T : List Part} (hT : Within [.regs, .tables, .folds] T) {s0 : State} {s : State} (tid : Nat) (hs : Keep T s0 s) :
    Keep T s0 (prevGone s tid) := by
  unfold prevGone
  extract_lets +onlyGivenNames x0
  split
  · assumption
  · extract_lets +onlyGivenNames x1
    have hx1 : Keep T s0 x1 := by
      unfold x1
      with_reducible apply updTable_keep (hT.sub (by decide))
      assumption
    clear_value x1
    extract_lets +onlyGivenNames x2
    extract_lets +onlyGivenNames x3
    have hx3 : Keep T s0 x3 := by
      unfold x3
      split
      · assumption
      · with_reducible apply freeImage_keep (hT.sub (by decide))
        assumption
    clear_value x3
    split
    · with_reducible apply setTable_keep (hT.sub (by decide))
      assumption
    · assumption

theorem pinNum_keep {T : List Part} (hT : Within [.tables] T) {s0 : State} {s : State} (tid : Nat) (n : Word) (hs : Keep T s0 s) :
    Keep T s0 (pinNum s tid n) := by
  unfold pinNum
  extract_lets +onlyGivenNames x0
  with_reducible apply updTable_keep (hT.sub (by decide))
  assumption

theorem hashRuns_keep {T : List Part} (hT : Within [.regs, .folds, .ig] T) {s0 : State} {s : State} (im : Image) (f : Nat) (ks : List Nat) (hs : Keep T s0 s) :
    Keep T s0 (hashRuns s im f ks) := by
  unfold hashRuns
  extract_lets +onlyGivenNames x0
  extract_lets +onlyGivenNames x1
  split
  · assumption
  · with_reducible apply keep_foldl
    · assumption
    · intro t2 x3 h4
      with_reducible apply keep_foldl
      · assumption
      · intro t5 x6 h7
        with_reducible apply poolRuns_keep (hT.sub (by decide))
        split
        · assumption
        · with_reducible apply poolRuns_keep (hT.sub (by decide))
          assumption

theorem rehashFold_keep {T : List Part} (hT : Within [.regs, .tables, .folds, .ig] T) {s0 : State} {s : State} (im : Image) (tid : Nat) (img : Bool) (ver : Nat) (f : Nat) (hs : Keep T s0 s) :
    Keep T s0 (rehashFold s im tid img ver f) := by
  unfold rehashFold
  extract_lets +onlyGivenNames x0
  extract_lets +onlyGivenNames x1
  have hx1 : Keep T s0 x1 := by
    unfold x1
    with_reducible apply keep_foldl
    · with_reducible apply hashRuns_keep (hT.sub (by decide))
      assumption
    · intro t2 x3 h4
      with_reducible apply wcRead_keep (hT.sub (by decide))
      assumption
  clear_value x1
  extract_lets +onlyGivenNames x5
  with_reducible apply updTable_keep (hT.sub (by decide))
  assumption

theorem drainCtx_keep {T : List Part} (hT : Within [.folds] T) {s0 : State} {s : State} (h : Half) (hs : Keep T s0 s) :
    Keep T s0 (drainCtx s h) := by
  unfold drainCtx
  refine keep_mk_maps hT ?_ rfl ?_ ?_ ?_
  · assumption
  · refine all_mmap ({} : Fold) Fold.canonical _ _ ?_ ?_
    · with_reducible exact Keep.folds (by assumption)
    · intro x0 h1
      exact canonical_of (fold_pasture (by assumption)) (fold_pen (by assumption))
  · with_reducible exact Keep.cores (by assumption)
  · (intro p hp; cases p <;> first | rfl | (exfalso; apply hp; decide))

theorem checkPrev_keep {T : List Part} (hT : Within [.regs, .tables, .folds] T) {s0 : State} {s : State} (tid : Nat) (hs : Keep T s0 s) :
    Keep T s0 (checkPrev s tid) := by
  unfold checkPrev
  split
  · split
    · with_reducible apply prevGone_keep (hT.sub (by decide))
      assumption
    · assumption
  · assumption

theorem rehash_keep {T : List Part} (hT : Within [.regs, .tables, .folds, .ig] T) {s0 : State} {s : State} (tid : Nat) (hs : Keep T s0 s) :
    Keep T s0 (rehash s tid) := by
  unfold rehash
  extract_lets +onlyGivenNames x0
  split
  · split
    · assumption
    · extract_lets +onlyGivenNames x1
      have hx1 : Keep T s0 x1 := by
        unfold x1
        with_reducible apply keep_foldl
        · assumption
        · intro t2 x3 h4
          with_reducible apply rehashFold_keep (hT.sub (by decide))
          assumption
      clear_value x1
      with_reducible apply updTable_keep (hT.sub (by decide))
      assumption
  · assumption

theorem unpin_keep {T : List Part} (hT : Within [.regs, .tables, .folds] T) {s0 : State} {s : State} (tid : Nat) (n : Word) (hs : Keep T s0 s) :
    Keep T s0 (unpin s tid n) := by
  unfold unpin
  extract_lets +onlyGivenNames x0
  with_reducible apply checkPrev_keep (hT.sub (by decide))
  with_reducible apply updTable_keep (hT.sub (by decide))
  assumption

theorem publish_keep {T : List Part} (hT : Within [.regs, .tables, .folds, .ig] T) {s0 : State} {s : State} (tid : Nat) (slices : List Bytes) (held : Bool) (hs : Keep T s0 s) :
    Keep T s0 (publish s tid slices held) := by
  unfold publish
  extract_lets +onlyGivenNames x0
  have hx0 : Keep T s0 x0 := by
    unfold x0
    split
    · assumption
    · with_reducible apply rehash_keep (hT.sub (by decide))
      assumption
  clear_value x0
  extract_lets +onlyGivenNames x1
  extract_lets +onlyGivenNames x2
  split
  · assumption
  · extract_lets +onlyGivenNames x3
    extract_lets +onlyGivenNames x4
    extract_lets +onlyGivenNames x5
    extract_lets +onlyGivenNames x6
    have hx6 : Keep T s0 x6 := by
      unfold x6
      with_reducible apply setTable_keep (hT.sub (by decide))
      assumption
    clear_value x6
    with_reducible apply checkPrev_keep (hT.sub (by decide))
    assumption

theorem dropStaged_keep {T : List Part} (hT : Within [.regs, .tables, .folds] T) {s0 : State} {s : State} (tid : Nat) (hs : Keep T s0 s) :
    Keep T s0 (dropStaged s tid) := by
  unfold dropStaged
  extract_lets +onlyGivenNames x0
  split
  · with_reducible apply updTable_keep (hT.sub (by decide))
    with_reducible apply freeImage_keep (hT.sub (by decide))
    assumption
  · assumption

theorem pinCur_keep {T : List Part} (hT : Within [.tables] T) {s0 : State} {s : State} (tid : Nat) (hs : Keep T s0 s) :
    Keep T s0 (pinCur s tid) := by
  unfold pinCur
  with_reducible apply updTable_keep (hT.sub (by decide))
  assumption

theorem sweepVersions_keep {T : List Part} (hT : Within [.regs, .graphs] T) {s0 : State} {s : State} (hs : Keep T s0 s) :
    Keep T s0 (sweepVersions s) := by
  unfold sweepVersions
  extract_lets +onlyGivenNames x0
  extract_lets +onlyGivenNames x1
  extract_lets +onlyGivenNames x2
  have hx2 : Keep T s0 x2 := by
    unfold x2
    with_reducible refine keep_mk hT ?_ rfl ?_
    · assumption
    · (intro p hp; cases p <;> first | rfl | (exfalso; apply hp; decide))
  clear_value x2
  with_reducible apply keep_foldl
  · assumption
  · intro t3 x4 h5
    with_reducible apply keep_foldl
    · assumption
    · intro t6 x7 h8
      with_reducible apply cnt_keep (hT.sub (by decide))
      assumption

theorem releaseReq_keep {T : List Part} (hT : Within [.regs, .reqs, .graphs, .tables, .folds] T) {s0 : State} {s : State} (h : Half) (hs : Keep T s0 s) :
    Keep T s0 (releaseReq s h) := by
  unfold releaseReq
  split
  · assumption
  · extract_lets +onlyGivenNames x0
    have hx0 : Keep T s0 x0 := by
      unfold x0
      with_reducible apply drainCtx_keep (hT.sub (by decide))
      assumption
    clear_value x0
    extract_lets +onlyGivenNames x1
    have hx1 : Keep T s0 x1 := by
      unfold x1
      with_reducible refine keep_mk hT ?_ rfl ?_
      · assumption
      · (intro p hp; cases p <;> first | rfl | (exfalso; apply hp; decide))
    clear_value x1
    extract_lets +onlyGivenNames x2
    have hx2 : Keep T s0 x2 := by
      unfold x2
      refine keep_mk_maps hT ?_ rfl ?_ ?_ ?_
      · assumption
      · refine all_mmap ({} : Fold) Fold.canonical _ _ ?_ ?_
        · with_reducible exact Keep.folds (by assumption)
        · intro x3 h4
          exact canonical_of (fold_pasture (by assumption)) (fold_pen (by assumption))
      · with_reducible exact Keep.cores (by assumption)
      · (intro p hp; cases p <;> first | rfl | (exfalso; apply hp; decide))
    clear_value x2
    with_reducible apply sweepVersions_keep (hT.sub (by decide))
    with_reducible apply keep_foldl
    · assumption
    · intro t5 x6 h7
      split
      with_reducible apply unpin_keep (hT.sub (by decide))
      assumption

theorem releasePins_keep {T : List Part} (hT : Within [.regs, .reqs, .tables, .folds] T) {s0 : State} {s : State} (h : Half) (hs : Keep T s0 s) :
    Keep T s0 (releasePins s h) := by
  unfold releasePins
  split
  · assumption
  · with_reducible apply keep_foldl
    · with_reducible apply updReq_keep (hT.sub (by decide))
      assumption
    · intro t0 x1 h2
      split
      with_reducible apply unpin_keep (hT.sub (by decide))
      assumption

theorem dropTable_keep {T : List Part} (hT : Within [.regs, .tables, .folds, .dl] T) {s0 : State} {s : State} (tid : Nat) (hs : Keep T s0 s) :
    Keep T s0 (dropTable s tid) := by
  unfold dropTable
  extract_lets +onlyGivenNames x0
  extract_lets +onlyGivenNames x1
  have hx1 : Keep T s0 x1 := by
    unfold x1
    split
    · split
      · split
        · with_reducible apply keep_foldl
          · assumption
          · intro t2 x3 h4
            with_reducible apply droveSend_keep (hT.sub (by decide))
            assumption
        · assumption
      · split
        · with_reducible apply keep_foldl
          · assumption
          · intro t5 x6 h7
            with_reducible apply droveSend_keep (hT.sub (by decide))
            assumption
        · assumption
    · assumption
  clear_value x1
  with_reducible apply checkPrev_keep (hT.sub (by decide))
  with_reducible apply setTable_keep (hT.sub (by decide))
  assumption

theorem setSel_keep {T : List Part} (hT : Within [.sels] T) {s0 : State} {s : State} (w : Requester) (a : Nat) (v : Nat) (hs : Keep T s0 s) :
    Keep T s0 (setSel s w a v) := by
  unfold setSel
  with_reducible refine keep_mk hT ?_ rfl ?_
  · assumption
  · (intro p hp; cases p <;> first | rfl | (exfalso; apply hp; decide))

theorem secureOnly_keep {T : List Part} (hT : Within [.regs, .ig] T) {s0 : State} {s : State} (a : Acc) (block : Nat) (a3 : Nat) (addr : Nat) (g : State → State) (hs : Keep T s0 s) (hg : ∀ y0, Keep T s0 y0 → Keep T s0 (g y0)) :
    Keep T s0 (secureOnly s a block a3 addr g) := by
  unfold secureOnly
  split
  · with_reducible apply_assumption -exfalso
    assumption
  · with_reducible apply worldViolation_keep (hT.sub (by decide))
    assumption

theorem setLatch_keep {T : List Part} (hT : Within [.latches] T) {s0 : State} {s : State} (w : Requester) (a : Nat) (v : Option Word) (hs : Keep T s0 s) :
    Keep T s0 (setLatch s w a v) := by
  unfold setLatch
  with_reducible refine keep_mk hT ?_ rfl ?_
  · assumption
  · (intro p hp; cases p <;> first | rfl | (exfalso; apply hp; decide))

theorem acc1_keep {T : List Part} (hT : Within [] T) {s0 : State} {s : State} (a : Acc) (g : State → State) (hs : Keep T s0 s) (hg : ∀ y0, Keep T s0 y0 → Keep T s0 (g y0)) :
    Keep T s0 (acc1 s a g) := by
  unfold acc1
  split
  · with_reducible apply_assumption -exfalso
    assumption
  · assumption

end Sys2Proof.Machine
end

