-- ==== Sys2Proof/Laws/KeepFe.lean ====
section
/-! SUPPORT. `Keep` holds after each operation of the rings and the admission of commands, where it held before. -/

namespace Sys2Proof.Machine

theorem dropWhere_keep {T : List Part} (hT : Within [.fe] T) {s0 : State} {s : State} (p : Xfer → Bool) (hs : Keep T s0 s) :
    Keep T s0 (dropWhere s p) := by
  unfold dropWhere
  with_reducible refine keep_mk hT ?_ rfl ?_
  · assumption
  · (intro p hp; cases p <;> first | rfl | (exfalso; apply hp; decide))

theorem stopFetch_keep {T : List Part} (hT : Within [.fe] T) {s0 : State} {s : State} (q : Nat) (hs : Keep T s0 s) :
    Keep T s0 (stopFetch s q) := by
  unfold stopFetch
  extract_lets +onlyGivenNames x0
  have hx0 : Keep T s0 x0 := by
    unfold x0
    with_reducible apply dropWhere_keep (hT.sub (by decide))
    assumption
  clear_value x0
  with_reducible apply updQueue_keep (hT.sub (by decide))
  assumption

theorem wantEnd_keep {T : List Part} (hT : Within [.reqs] T) {s0 : State} {s : State} (h : Half) (st : Status) (hs : Keep T s0 s) :
    Keep T s0 (wantEnd s h st) := by
  unfold wantEnd
  with_reducible apply updReq_keep (hT.sub (by decide))
  assumption

theorem haltQueue_keep {T : List Part} (hT : Within [.regs, .fe] T) {s0 : State} {s : State} (q : Nat) (st : Status) (hs : Keep T s0 s) :
    Keep T s0 (haltQueue s q st) := by
  unfold haltQueue
  extract_lets +onlyGivenNames x0
  split
  · assumption
  · extract_lets +onlyGivenNames x1
    have hx1 : Keep T s0 x1 := by
      unfold x1
      with_reducible apply updQueue_keep (hT.sub (by decide))
      with_reducible apply stopFetch_keep (hT.sub (by decide))
      assumption
    clear_value x1
    split
    · assumption
    · with_reducible apply cnt_keep (hT.sub (by decide))
      assumption

theorem postBare_keep {T : List Part} (hT : Within [.fe] T) {s0 : State} {s : State} (q : Nat) (n : Word) (st : Status) (hs : Keep T s0 s) :
    Keep T s0 (postBare s q n st) := by
  unfold postBare
  extract_lets +onlyGivenNames x0
  with_reducible refine keep_mk hT ?_ rfl ?_
  · assumption
  · (intro p hp; cases p <;> first | rfl | (exfalso; apply hp; decide))

theorem dropXfers_keep {T : List Part} (hT : Within [.fe] T) {s0 : State} {s : State} (q : Nat) (n : Word) (hs : Keep T s0 s) :
    Keep T s0 (dropXfers s q n) := by
  unfold dropXfers
  with_reducible apply dropWhere_keep (hT.sub (by decide))
  assumption

theorem finish_keep {T : List Part} (hT : Within [.regs, .fe, .reqs, .graphs, .tables, .folds, .dl] T) {s0 : State} {s : State} (q : Nat) (n : Word) (st : Status) (hs : Keep T s0 s) :
    Keep T s0 (finish s q n st) := by
  unfold finish
  split
  · assumption
  · extract_lets +onlyGivenNames x0
    have hx0 : Keep T s0 x0 := by
      unfold x0
      split
      · with_reducible apply keep_foldl
        · with_reducible apply toMembers_keep (hT.sub (by decide))
          assumption
        · intro t1 x2 h3
          split
          with_reducible apply unpin_keep (hT.sub (by decide))
          assumption
      · assumption
    clear_value x0
    split
    · with_reducible apply dropCmd_keep (hT.sub (by decide))
      split
      · assumption
      · with_reducible apply releaseReq_keep (hT.sub (by decide))
        assumption
    · extract_lets +onlyGivenNames x4
      have hx4 : Keep T s0 x4 := by
        unfold x4
        split
        · with_reducible apply releasePins_keep (hT.sub (by decide))
          assumption
        · assumption
      clear_value x4
      extract_lets +onlyGivenNames x5
      extract_lets +onlyGivenNames x6
      extract_lets +onlyGivenNames x7
      have hx7 : Keep T s0 x7 := by
        unfold x7
        with_reducible refine keep_mk hT ?_ rfl ?_
        · assumption
        · (intro p hp; cases p <;> first | rfl | (exfalso; apply hp; decide))
      clear_value x7
      with_reducible apply updCmd_keep (hT.sub (by decide))
      assumption

theorem discardUpd_keep {T : List Part} (hT : Within [.regs, .dl] T) {s0 : State} {s : State} (c : Cmd) (hs : Keep T s0 s) :
    Keep T s0 (discardUpd s c) := by
  unfold discardUpd
  split
  · extract_lets +onlyGivenNames x0
    extract_lets +onlyGivenNames x1
    have hx1 : Keep T s0 x1 := by
      unfold x1
      with_reducible refine keep_mk hT ?_ rfl ?_
      · assumption
      · (intro p hp; cases p <;> first | rfl | (exfalso; apply hp; decide))
    clear_value x1
    split
    · assumption
    · extract_lets +onlyGivenNames x2
      have hx2 : Keep T s0 x2 := by
        unfold x2
        with_reducible apply droveSend_keep (hT.sub (by decide))
        assumption
      clear_value x2
      extract_lets +onlyGivenNames x3
      with_reducible refine keep_mk hT ?_ rfl ?_
      · assumption
      · (intro p hp; cases p <;> first | rfl | (exfalso; apply hp; decide))
  · assumption

theorem dropUpdate_keep {T : List Part} (hT : Within [.folds] T) {s0 : State} {s : State} (h : Half) (hs : Keep T s0 s) :
    Keep T s0 (dropUpdate s h) := by
  unfold dropUpdate
  refine keep_mk_maps hT ?_ rfl ?_ ?_ ?_
  · assumption
  · refine all_mmap ({} : Fold) Fold.canonical _ _ ?_ ?_
    · with_reducible exact Keep.folds (by assumption)
    · intro x0 h1
      exact canonical_of (fold_pasture (by assumption)) (fold_pen (by assumption))
  · with_reducible exact Keep.cores (by assumption)
  · (intro p hp; cases p <;> first | rfl | (exfalso; apply hp; decide))

theorem abortCmd_keep {T : List Part} (hT : Within [.regs, .fe, .reqs, .graphs, .checking, .tables, .folds, .dl] T) {s0 : State} {s : State} (q : Nat) (n : Word) (st : Status) (hs : Keep T s0 s) :
    Keep T s0 (abortCmd s q n st) := by
  unfold abortCmd
  split
  · assumption
  · split
    · split
      · with_reducible apply updCmd_keep (hT.sub (by decide))
        with_reducible apply dropXfers_keep (hT.sub (by decide))
        assumption
      · assumption
    · split
      · extract_lets +onlyGivenNames x0
        have hx0 : Keep T s0 x0 := by
          unfold x0
          with_reducible apply wantEnd_keep (hT.sub (by decide))
          assumption
        clear_value x0
        split
        · split
          · with_reducible apply finish_keep (hT.sub (by decide))
            with_reducible apply dropXfers_keep (hT.sub (by decide))
            with_reducible apply updReq_keep (hT.sub (by decide))
            assumption
          · assumption
        · assumption
      · split
        · with_reducible apply finish_keep (hT.sub (by decide))
          with_reducible apply drainCtx_keep (hT.sub (by decide))
          with_reducible apply dropXfers_keep (hT.sub (by decide))
          assumption
        · split
          · assumption
          · extract_lets +onlyGivenNames x1
            have hx1 : Keep T s0 x1 := by
              unfold x1
              split
              · with_reducible apply discardUpd_keep (hT.sub (by decide))
                with_reducible apply dropUpdate_keep (hT.sub (by decide))
                assumption
              · assumption
            clear_value x1
            extract_lets +onlyGivenNames x2
            have hx2 : Keep T s0 x2 := by
              unfold x2
              split
              · with_reducible apply dropStaged_keep (hT.sub (by decide))
                assumption
              · assumption
            clear_value x2
            extract_lets +onlyGivenNames x3
            extract_lets +onlyGivenNames x4
            have hx4 : Keep T s0 x4 := by
              unfold x4
              with_reducible refine keep_mk hT ?_ rfl ?_
              · assumption
              · (intro p hp; cases p <;> first | rfl | (exfalso; apply hp; decide))
            clear_value x4
            with_reducible apply finish_keep (hT.sub (by decide))
            with_reducible apply dropXfers_keep (hT.sub (by decide))
            assumption

theorem failXfer_keep {T : List Part} (hT : Within [.regs, .fe, .reqs, .graphs, .checking, .tables, .folds, .dl] T) {s0 : State} {s : State} (t : Xfer) (st : Status) (hs : Keep T s0 s) :
    Keep T s0 (failXfer s t st) := by
  unfold failXfer
  split
  · extract_lets +onlyGivenNames x0
    extract_lets +onlyGivenNames x1
    have hx1 : Keep T s0 x1 := by
      unfold x1
      with_reducible apply haltQueue_keep (hT.sub (by decide))
      with_reducible apply dropWhere_keep (hT.sub (by decide))
      assumption
    clear_value x1
    split
    · with_reducible apply postBare_keep (hT.sub (by decide))
      assumption
    · assumption
  · extract_lets +onlyGivenNames x2
    have hx2 : Keep T s0 x2 := by
      unfold x2
      with_reducible apply haltQueue_keep (hT.sub (by decide))
      with_reducible apply dropXfer_keep (hT.sub (by decide))
      assumption
    clear_value x2
    split
    · with_reducible apply cnt_keep (hT.sub (by decide))
      assumption
    · assumption
  · with_reducible apply dropXfer_keep (hT.sub (by decide))
    assumption
  · with_reducible apply dropWhere_keep (hT.sub (by decide))
    with_reducible apply abortCmd_keep (hT.sub (by decide))
    assumption

theorem closeXfer_keep {T : List Part} (hT : Within [.fe] T) {s0 : State} {s : State} (x : Nat) (hs : Keep T s0 s) :
    Keep T s0 (closeXfer s x) := by
  unfold closeXfer
  split
  · split
    · with_reducible apply dropXfer_keep (hT.sub (by decide))
      assumption
    · assumption
  · assumption

theorem newXfer_keep {T : List Part} (hT : Within [.fe] T) {s0 : State} {s : State} (kind : XKind) (read : Bool) (q : BitVec 10) (n : Word) (addr : Nat) (left : Nat) (data : Bytes) (hs : Keep T s0 s) :
    Keep T s0 (newXfer s kind read q n addr left data).1 := by
  unfold newXfer
  extract_lets +onlyGivenNames x0
  extract_lets +onlyGivenNames x1
  dsimp -zeta only
  with_reducible refine keep_mk hT ?_ rfl ?_
  · assumption
  · (intro p hp; cases p <;> first | rfl | (exfalso; apply hp; decide))

theorem abortOne_keep {T : List Part} (hT : Within [.regs, .fe, .reqs, .graphs, .checking, .tables, .folds, .dl] T) {s0 : State} {s : State} (q : Nat) (n : Word) (st : Status) (hs : Keep T s0 s) :
    Keep T s0 (abortOne s q n st) := by
  unfold abortOne
  split
  · split
    · assumption
    · with_reducible apply abortCmd_keep (hT.sub (by decide))
      assumption
  · assumption

theorem qpDown_keep {T : List Part} (hT : Within [.regs, .fe, .reqs, .graphs, .checking, .tables, .folds, .np, .dl] T) {s0 : State} {s : State} (i : Nat) (hs : Keep T s0 s) :
    Keep T s0 (qpDown s i) := by
  unfold qpDown
  extract_lets +onlyGivenNames x0
  extract_lets +onlyGivenNames x1
  extract_lets +onlyGivenNames x2
  have hx2 : Keep T s0 x2 := by
    unfold x2
    with_reducible apply cntN_keep (hT.sub (by decide))
    assumption
  clear_value x2
  extract_lets +onlyGivenNames x3
  extract_lets +onlyGivenNames x4
  have hx4 : Keep T s0 x4 := by
    unfold x4
    with_reducible apply updQp_keep (hT.sub (by decide))
    with_reducible refine keep_mk hT ?_ rfl ?_
    · assumption
    · (intro p hp; cases p <;> first | rfl | (exfalso; apply hp; decide))
  clear_value x4
  extract_lets +onlyGivenNames x5
  have hx5 : Keep T s0 x5 := by
    unfold x5
    with_reducible apply keep_foldl
    · assumption
    · intro t6 x7 h8
      split
      · with_reducible apply failXfer_keep (hT.sub (by decide))
        assumption
      · assumption
  clear_value x5
  extract_lets +onlyGivenNames x9
  extract_lets +onlyGivenNames x10
  have hx10 : Keep T s0 x10 := by
    unfold x10
    with_reducible refine keep_mk hT ?_ rfl ?_
    · assumption
    · (intro p hp; cases p <;> first | rfl | (exfalso; apply hp; decide))
  clear_value x10
  with_reducible apply keep_foldl
  · assumption
  · intro t11 x12 h13
    with_reducible apply haltQueue_keep (hT.sub (by decide))
    assumption

theorem stepXfer_keep {T : List Part} (hT : Within [.fe] T) {s0 : State} {s : State} (t : Xfer) (n : Nat) (on : BitVec 13) (got : Bytes) (hs : Keep T s0 s) :
    Keep T s0 (stepXfer s t n on got) := by
  unfold stepXfer
  with_reducible apply updXfer_keep (hT.sub (by decide))
  assumption

theorem silence_keep {T : List Part} (hT : Within [.fe] T) {s0 : State} {s : State} (q : Nat) (n : Word) (hs : Keep T s0 s) :
    Keep T s0 (silence s q n) := by
  unfold silence
  with_reducible apply updCmd_keep (hT.sub (by decide))
  assumption

theorem sendDst_keep {T : List Part} (hT : Within [.fe] T) {s0 : State} {s : State} (c : Cmd) (kind : XKind) (a : Nat) (data : Bytes) (hs : Keep T s0 s) :
    Keep T s0 (sendDst s c kind a data) := by
  unfold sendDst
  with_reducible apply newXfer_keep (hT.sub (by decide))
  assumption

theorem xlatFault_keep {T : List Part} (hT : Within [.regs, .fe, .reqs, .graphs, .checking, .tables, .folds, .np, .dl] T) {s0 : State} {s : State} (t : Xfer) (cause : Nat) (level : Nat) (hs : Keep T s0 s) :
    Keep T s0 (xlatFault s t cause level) := by
  unfold xlatFault
  extract_lets +onlyGivenNames x0
  have hx0 : Keep T s0 x0 := by
    unfold x0
    with_reducible apply fqWrite_keep (hT.sub (by decide))
    with_reducible apply cnt_keep (hT.sub (by decide))
    assumption
  clear_value x0
  with_reducible apply failXfer_keep (hT.sub (by decide))
  assumption

theorem issuePiece_keep {T : List Part} (hT : Within [.regs, .fe, .reqs, .graphs, .checking, .tables, .folds, .np, .xl, .dl, .ig] T) {s0 : State} {s : State} (t : Xfer) (rewalk : Bool) (hs : Keep T s0 s) :
    Keep T s0 (issuePiece s t rewalk) := by
  unfold issuePiece
  extract_lets +onlyGivenNames x0
  extract_lets +onlyGivenNames x1
  extract_lets +onlyGivenNames x2
  split
  · extract_lets +onlyGivenNames x3
    have hx3 : Keep T s0 x3 := by
      unfold x3
      with_reducible apply xlatNote_keep (hT.sub (by decide))
      assumption
    clear_value x3
    split
    · with_reducible apply updXfer_keep (hT.sub (by decide))
      assumption
    · with_reducible apply xlatFault_keep (hT.sub (by decide))
      assumption
  · extract_lets +onlyGivenNames x4
    extract_lets +onlyGivenNames x5
    have hx5 : Keep T s0 x5 := by
      unfold x5
      with_reducible apply xlatDone_keep (hT.sub (by decide))
      assumption
    clear_value x5
    split
    · with_reducible apply failXfer_keep (hT.sub (by decide))
      assumption
    · extract_lets +onlyGivenNames x6
      split
      · with_reducible apply stepXfer_keep (hT.sub (by decide))
        with_reducible apply sendReq_keep (hT.sub (by decide))
        assumption
      · with_reducible apply stepXfer_keep (hT.sub (by decide))
        with_reducible apply sendOn_keep (hT.sub (by decide))
        assumption
  · extract_lets +onlyGivenNames x7
    have hx7 : Keep T s0 x7 := by
      unfold x7
      with_reducible apply xlatDone_keep (hT.sub (by decide))
      assumption
    clear_value x7
    split
    · extract_lets +onlyGivenNames x8
      have hx8 : Keep T s0 x8.1 := by
        unfold x8
        with_reducible apply fmRead_keep (hT.sub (by decide))
        assumption
      clear_value x8
      extract_lets +onlyGivenNames x9
      have hx9 : Keep T s0 x9 := by
        unfold x9
        split
        · with_reducible apply updXfer_keep (hT.sub (by decide))
          assumption
        · assumption
      clear_value x9
      with_reducible apply stepXfer_keep (hT.sub (by decide))
      assumption
    · with_reducible apply closeXfer_keep (hT.sub (by decide))
      with_reducible apply stepXfer_keep (hT.sub (by decide))
      with_reducible apply fmWrite_keep (hT.sub (by decide))
      assumption

theorem giveCmd_keep {T : List Part} (hT : Within [.fe] T) {s0 : State} {s : State} (q : BitVec 10) (n : Word) (kind : XKind) (data : Bytes) (hs : Keep T s0 s) :
    Keep T s0 (giveCmd s q n kind data) := by
  unfold giveCmd
  extract_lets +onlyGivenNames x0
  have hx0 : Keep T s0 x0 := by
    unfold x0
    with_reducible apply updCmd_keep (hT.sub (by decide))
    assumption
  clear_value x0
  split
  · assumption
  · with_reducible apply updCmd_keep (hT.sub (by decide))
    assumption

theorem fetchSrc_keep {T : List Part} (hT : Within [.fe] T) {s0 : State} {s : State} (c : Cmd) (kind : XKind) (a : Nat) (n : Nat) (hs : Keep T s0 s) :
    Keep T s0 (fetchSrc s c kind a n) := by
  unfold fetchSrc
  extract_lets +onlyGivenNames x0
  have hx0 : Keep T s0 x0 := by
    unfold x0
    with_reducible apply updCmd_keep (hT.sub (by decide))
    assumption
  clear_value x0
  split
  · with_reducible apply giveCmd_keep (hT.sub (by decide))
    assumption
  · with_reducible apply newXfer_keep (hT.sub (by decide))
    assumption

theorem readAnswered_keep {T : List Part} (hT : Within [.regs, .np, .xl] T) {s0 : State} {s : State} (t : Xfer) (hs : Keep T s0 s) :
    Keep T s0 (readAnswered s t) := by
  unfold readAnswered
  extract_lets +onlyGivenNames x0
  extract_lets +onlyGivenNames x1
  extract_lets +onlyGivenNames x2
  have hx2 : Keep T s0 x2 := by
    unfold x2
    with_reducible refine keep_mk hT ?_ rfl ?_
    · assumption
    · (intro p hp; cases p <;> first | rfl | (exfalso; apply hp; decide))
  clear_value x2
  with_reducible apply keep_foldl
  · split
    · assumption
    · with_reducible apply cntN_keep (hT.sub (by decide))
      assumption
  · intro t3 x4 h5
    with_reducible apply updQp_keep (hT.sub (by decide))
    assumption

theorem takeHandle_keep {T : List Part} (hT : Within [.nextHandle] T) {s0 : State} {s : State} (hs : Keep T s0 s) :
    Keep T s0 (takeHandle s).2 := by
  unfold takeHandle
  extract_lets +onlyGivenNames x0
  dsimp -zeta only
  with_reducible refine keep_mk hT ?_ rfl ?_
  · assumption
  · (intro p hp; cases p <;> first | rfl | (exfalso; apply hp; decide))

theorem qpError_keep {T : List Part} (hT : Within [.regs, .fe, .reqs, .graphs, .checking, .tables, .folds, .np, .dl] T) {s0 : State} {s : State} (i : Nat) (cause : Nat) (hs : Keep T s0 s) :
    Keep T s0 (qpError s i cause) := by
  unfold qpError
  extract_lets +onlyGivenNames x0
  have hx0 : Keep T s0 x0 := by
    unfold x0
    with_reducible apply cnt_keep (hT.sub (by decide))
    with_reducible apply updQp_keep (hT.sub (by decide))
    assumption
  clear_value x0
  with_reducible apply qpDown_keep (hT.sub (by decide))
  assumption

theorem readOne_keep {T : List Part} (hT : Within [.fe] T) {s0 : State} {s : State} (q : Nat) (hs : Keep T s0 s) :
    Keep T s0 (readOne s q) := by
  unfold readOne
  extract_lets +onlyGivenNames x0
  split
  · assumption
  · extract_lets +onlyGivenNames x1
    extract_lets +onlyGivenNames x2
    extract_lets +onlyGivenNames x3
    have hx3 : Keep T s0 x3.1 := by
      unfold x3
      with_reducible apply newXfer_keep (hT.sub (by decide))
      assumption
    clear_value x3
    with_reducible apply updQueue_keep (hT.sub (by decide))
    assumption

theorem staleTag_keep {T : List Part} (hT : Within [.regs, .fe] T) {s0 : State} {s : State} (q : Nat) (hs : Keep T s0 s) :
    Keep T s0 (staleTag s q) := by
  unfold staleTag
  extract_lets +onlyGivenNames x0
  extract_lets +onlyGivenNames x1
  have hx1 : Keep T s0 x1 := by
    unfold x1
    with_reducible apply updQueue_keep (hT.sub (by decide))
    with_reducible apply stopFetch_keep (hT.sub (by decide))
    assumption
  clear_value x1
  split
  · with_reducible apply haltQueue_keep (hT.sub (by decide))
    with_reducible apply postBare_keep (hT.sub (by decide))
    assumption
  · with_reducible apply updQueue_keep (hT.sub (by decide))
    assumption

theorem badFrame_keep {T : List Part} (hT : Within [.regs, .fe] T) {s0 : State} {s : State} (q : Nat) (b : Bytes) (hs : Keep T s0 s) :
    Keep T s0 (badFrame s q b) := by
  unfold badFrame
  extract_lets +onlyGivenNames x0
  extract_lets +onlyGivenNames x1
  extract_lets +onlyGivenNames x2
  extract_lets +onlyGivenNames x3
  have hx3 : Keep T s0 x3 := by
    unfold x3
    with_reducible refine keep_mk hT ?_ rfl ?_
    · assumption
    · (intro p hp; cases p <;> first | rfl | (exfalso; apply hp; decide))
  clear_value x3
  with_reducible apply haltQueue_keep (hT.sub (by decide))
  assumption

theorem syncPoint_keep {T : List Part} (hT : Within [.xl] T) {s0 : State} {s : State} (n : Word) (hs : Keep T s0 s) :
    Keep T s0 (syncPoint s n) := by
  unfold syncPoint
  split
  · assumption
  · with_reducible refine keep_mk hT ?_ rfl ?_
    · assumption
    · (intro p hp; cases p <;> first | rfl | (exfalso; apply hp; decide))

theorem takeEntry_keep {T : List Part} (hT : Within [.regs, .fe, .reqs, .graphs, .tables, .folds, .xl, .dl] T) {s0 : State} {s : State} (q : Nat) (c : Word) (sl : Nat) (bs : Bytes) (hs : Keep T s0 s) :
    Keep T s0 (takeEntry s q c sl bs) := by
  unfold takeEntry
  extract_lets +onlyGivenNames x0
  extract_lets +onlyGivenNames x1
  extract_lets +onlyGivenNames x2
  have hx2 : Keep T s0 x2 := by
    unfold x2
    with_reducible apply updQueue_keep (hT.sub (by decide))
    assumption
  clear_value x2
  extract_lets +onlyGivenNames x3
  extract_lets +onlyGivenNames x4
  have hx4 : Keep T s0 x4 := by
    unfold x4
    with_reducible refine keep_mk hT ?_ rfl ?_
    · assumption
    · (intro p hp; cases p <;> first | rfl | (exfalso; apply hp; decide))
  clear_value x4
  split
  · split
    · with_reducible apply syncPoint_keep (hT.sub (by decide))
      assumption
    · assumption
  · with_reducible apply finish_keep (hT.sub (by decide))
    with_reducible apply cnt_keep (hT.sub (by decide))
    assumption

theorem parse_keep {T : List Part} (hT : Within [.regs, .fe, .reqs, .graphs, .tables, .folds, .xl, .dl] T) {s0 : State} (a0 : Nat) {a1 : State} (a2 : Nat) (ha1 : Keep T s0 a1) :
    Keep T s0 (parse a0 a1 a2) := by
  fun_induction parse a0 a1 a2
  · assumption
  · assumption
  · assumption
  · with_reducible apply staleTag_keep (hT.sub (by decide))
    assumption
  · with_reducible apply badFrame_keep (hT.sub (by decide))
    assumption
  · with_reducible apply_assumption -exfalso
    with_reducible apply takeEntry_keep (hT.sub (by decide))
    assumption
  · with_reducible apply updQueue_keep (hT.sub (by decide))
    assumption
  · assumption

theorem fetchRing_keep {T : List Part} (hT : Within [.fe] T) {s0 : State} {s : State} (q : Nat) (hs : Keep T s0 s) :
    Keep T s0 (fetchRing s q) := by
  unfold fetchRing
  extract_lets +onlyGivenNames x0
  have hx0 : Keep T s0 x0 := by
    unfold x0
    with_reducible apply readOne_keep (hT.sub (by decide))
    with_reducible apply readOne_keep (hT.sub (by decide))
    with_reducible apply readOne_keep (hT.sub (by decide))
    with_reducible apply readOne_keep (hT.sub (by decide))
    assumption
  clear_value x0
  with_reducible apply updQueue_keep (hT.sub (by decide))
  assumption

theorem judgeDb_keep {T : List Part} (hT : Within [.regs, .fe] T) {s0 : State} {s : State} (q : Nat) (v : Nat) (hs : Keep T s0 s) :
    Keep T s0 (judgeDb s q v) := by
  unfold judgeDb
  extract_lets +onlyGivenNames x0
  split
  · with_reducible apply cnt_keep (hT.sub (by decide))
    assumption
  · extract_lets +onlyGivenNames x1
    split
    · with_reducible apply cnt_keep (hT.sub (by decide))
      with_reducible apply updQueue_keep (hT.sub (by decide))
      assumption
    · split
      · extract_lets +onlyGivenNames x2
        have hx2 : Keep T s0 x2 := by
          unfold x2
          with_reducible apply updQueue_keep (hT.sub (by decide))
          assumption
        clear_value x2
        with_reducible apply fetchRing_keep (hT.sub (by decide))
        with_reducible apply cnt_keep (hT.sub (by decide))
        assumption
      · with_reducible apply cnt_keep (hT.sub (by decide))
        assumption

theorem wrFeQ0DbHi_keep {T : List Part} (hT : Within [.regs, .fe] T) {s0 : State} {s : State} (a : Acc) (v : Word) (hs : Keep T s0 s) :
    Keep T s0 (wrFeQ0DbHi s a v) := by
  unfold wrFeQ0DbHi
  split
  · assumption
  · split
    · with_reducible apply cnt_keep (hT.sub (by decide))
      assumption
    · extract_lets +onlyGivenNames x0
      extract_lets +onlyGivenNames x1
      have hx1 : Keep T s0 x1 := by
        unfold x1
        with_reducible refine keep_mk hT ?_ rfl ?_
        · assumption
        · (intro p hp; cases p <;> first | rfl | (exfalso; apply hp; decide))
      extract_lets +onlyGivenNames x2
      split
      · with_reducible apply cnt_keep (hT.sub (by decide))
        assumption
      · with_reducible apply judgeDb_keep (hT.sub (by decide))
        assumption

theorem decide1_keep {T : List Part} (hT : Within [.fe] T) {s0 : State} {s : State} (q : Nat) (hs : Keep T s0 s) :
    Keep T s0 (decide1 s q) := by
  unfold decide1
  extract_lets +onlyGivenNames x0
  have hx0 : Keep T s0 x0 := by
    unfold x0
    with_reducible apply updQueue_keep (hT.sub (by decide))
    assumption
  clear_value x0
  with_reducible apply fetchRing_keep (hT.sub (by decide))
  assumption

theorem wrFeQ0DbLo_keep {T : List Part} (hT : Within [.fe] T) {s0 : State} {s : State} (a : Acc) (v : Word) (hs : Keep T s0 s) :
    Keep T s0 (wrFeQ0DbLo s a v) := by
  unfold wrFeQ0DbLo
  split
  · assumption
  · with_reducible refine keep_mk hT ?_ rfl ?_
    · assumption
    · (intro p hp; cases p <;> first | rfl | (exfalso; apply hp; decide))

theorem wrFeQKey0_keep {T : List Part} (hT : Within [.fe] T) {s0 : State} {s : State} (a : Acc) (v : Word) (hs : Keep T s0 s) :
    Keep T s0 (wrFeQKey0 s a v) := by
  unfold wrFeQKey0
  split
  · with_reducible apply updQueue_keep (hT.sub (by decide))
    assumption
  · assumption

theorem pump_keep {T : List Part} (hT : Within [.regs, .fe, .reqs, .graphs, .tables, .folds, .xl, .dl] T) {s0 : State} {s : State} (q : Nat) (hs : Keep T s0 s) :
    Keep T s0 (pump s q) := by
  unfold pump
  with_reducible apply decide1_keep (hT.sub (by decide))
  with_reducible apply parse_keep (hT.sub (by decide))
  assumption

theorem wrFeQEnable_keep {T : List Part} (hT : Within [.regs, .fe, .ig] T) {s0 : State} {s : State} (a : Acc) (v : Word) (hs : Keep T s0 s) :
    Keep T s0 (wrFeQEnable s a v) := by
  unfold wrFeQEnable
  with_reducible apply secureOnly_keep (hT.sub (by decide))
  · assumption
  · intro t0 h1
    split
    · assumption
    · extract_lets +onlyGivenNames x2
      with_reducible apply setQueue_keep (hT.sub (by decide))
      assumption

theorem resume_keep {T : List Part} (hT : Within [.regs, .fe, .reqs, .graphs, .tables, .folds, .xl, .dl] T) {s0 : State} {s : State} (hs : Keep T s0 s) :
    Keep T s0 (resume s) := by
  unfold resume
  with_reducible apply keep_foldl
  · assumption
  · intro t0 x1 h2
    with_reducible apply pump_keep (hT.sub (by decide))
    assumption

theorem writeSlice_keep {T : List Part} (hT : Within [.regs, .fe, .reqs, .cores, .graphs, .checking, .tables, .folds, .dl] T) {s0 : State} {s : State} (p : Prog) (b : Nat) (bytes : Bytes) (bad : Bool) (hs : Keep T s0 s) :
    Keep T s0 (writeSlice s p b bytes bad) := by
  unfold writeSlice
  extract_lets +onlyGivenNames x0
  split
  · with_reducible apply updCore_keep (hT.sub (by decide))
    · assumption
    · intro x1 h2
      with_reducible apply extWrite_keep
      assumption
  · split
    · assumption
    · split
      · assumption
      · split
        · with_reducible apply abortCmd_keep (hT.sub (by decide))
          assumption
        · extract_lets +onlyGivenNames x3
          extract_lets +onlyGivenNames x4
          have hx4 : Keep T s0 x4 := by
            unfold x4
            with_reducible apply updReq_keep (hT.sub (by decide))
            assumption
          clear_value x4
          with_reducible apply newXfer_keep (hT.sub (by decide))
          assumption

theorem updProg_keep {x : Fold} (id : Nat) (g : Prog → Prog) (hx : Fold.canonical x = true) :
    Fold.canonical (updProg x id g) = true := by
  unfold updProg
  exact canonical_of (fold_pasture (by assumption)) (fold_pen (by assumption))

theorem finishBag_keep {T : List Part} (hT : Within [.regs, .fe, .reqs, .cores, .graphs, .checking, .tables, .folds, .dl] T) {s0 : State} {s : State} (f : Nat) (p : Prog) (im : Image) (b : Nat) (hs : Keep T s0 s) :
    Keep T s0 (finishBag s f p im b) := by
  unfold finishBag
  extract_lets +onlyGivenNames x0
  extract_lets +onlyGivenNames x1
  split
  · assumption
  · extract_lets +onlyGivenNames x2
    extract_lets +onlyGivenNames x3
    extract_lets +onlyGivenNames x4
    extract_lets +onlyGivenNames x5
    extract_lets +onlyGivenNames x6
    extract_lets +onlyGivenNames x7
    have hx7 : Keep T s0 x7 := by
      unfold x7
      with_reducible apply writeSlice_keep (hT.sub (by decide))
      assumption
    clear_value x7
    with_reducible apply updFold_keep (hT.sub (by decide))
    · assumption
    · intro x8 h9
      with_reducible apply updProg_keep
      with_reducible assumption

theorem poolBag_keep {T : List Part} (hT : Within [.regs, .fe, .reqs, .cores, .graphs, .checking, .tables, .folds, .dl] T) {s0 : State} {s : State} (f : Nat) (p : Prog) (im : Image) (b : Nat) (hs : Keep T s0 s) :
    Keep T s0 (poolBag s f p im b) := by
  unfold poolBag
  extract_lets +onlyGivenNames x0
  extract_lets +onlyGivenNames x1
  extract_lets +onlyGivenNames x2
  extract_lets +onlyGivenNames x3
  extract_lets +onlyGivenNames x4
  split
  · extract_lets +onlyGivenNames x5
    have hx5 : Keep T s0 x5 := by
      unfold x5
      with_reducible apply updFold_keep (hT.sub (by decide))
      · assumption
      · intro x6 h7
        with_reducible apply updProg_keep
        with_reducible assumption
    clear_value x5
    split
    · with_reducible apply finishBag_keep (hT.sub (by decide))
      assumption
    · assumption
  · extract_lets +onlyGivenNames x8
    with_reducible apply updFold_keep (hT.sub (by decide))
    · with_reducible apply emit_keep
      assumption
    · intro x9 h10
      with_reducible apply updProg_keep
      with_reducible assumption

theorem setCtx_keep {x : Fold} (c : Nat) (y : Ctx) (hx : Fold.canonical x = true) :
    Fold.canonical (setCtx x c y) = true := by
  unfold setCtx
  exact canonical_of (fold_pasture (by assumption)) (fold_pen (by assumption))

theorem updRel_keep {x : Fold} (h : Half) (g : Rel → Rel) (hx : Fold.canonical x = true) :
    Fold.canonical (updRel x h g) = true := by
  unfold updRel
  split
  · exact canonical_of (fold_pasture (by assumption)) (fold_pen (by assumption))
  · exact canonical_of (fold_pasture (by assumption)) (fold_pen (by assumption))

theorem startProg_keep {x : Fold} (p : Prog) (hx : Fold.canonical x = true) :
    Fold.canonical (startProg x p) = true := by
  unfold startProg
  extract_lets +onlyGivenNames x0
  extract_lets +onlyGivenNames x1
  extract_lets +onlyGivenNames x2
  have hx2 : Fold.canonical x2 = true := by
    unfold x2
    split
    · with_reducible apply updProg_keep
      with_reducible apply updRel_keep
      with_reducible assumption
    · with_reducible assumption
  clear_value x2
  with_reducible apply setCtx_keep
  with_reducible assumption

theorem settleCtx_keep {x : Fold} (c : Nat) (hx : Fold.canonical x = true) :
    Fold.canonical (settleCtx x c) = true := by
  unfold settleCtx
  extract_lets +onlyGivenNames x0
  split
  · with_reducible assumption
  · split
    · with_reducible apply setCtx_keep
      with_reducible assumption
    · split
      · with_reducible assumption
      · with_reducible apply startProg_keep
        with_reducible assumption

theorem goOnce_keep {T : List Part} (hT : Within [.regs, .fe, .reqs, .cores, .graphs, .checking, .tables, .folds, .dl] T) {s0 : State} {s : State} (f : Nat) (id : Nat) (hs : Keep T s0 s) :
    Keep T s0 (goOnce s f id) := by
  unfold goOnce
  extract_lets +onlyGivenNames x0
  have hx0 : Fold.canonical x0 = true := by
    unfold x0
    with_reducible exact fold_canonical (by assumption) _
  clear_value x0
  split
  · assumption
  · split
    · assumption
    · split
      · assumption
      · extract_lets +onlyGivenNames x1
        have hx1 : Keep T s0 x1 := by
          unfold x1
          with_reducible apply keep_foldl
          · assumption
          · intro t2 x3 h4
            split
            · split
              · with_reducible apply poolBag_keep (hT.sub (by decide))
                assumption
              · assumption
            · assumption
        clear_value x1
        split
        · assumption
        · split
          · extract_lets +onlyGivenNames x5
            have hx5 : Keep T s0 x5 := by
              unfold x5
              split
              · with_reducible apply emit_keep
                assumption
              · assumption
            clear_value x5
            with_reducible apply updFold_keep (hT.sub (by decide))
            · assumption
            · intro x6 h7
              with_reducible apply settleCtx_keep
              exact canonical_of (fold_pasture (by assumption)) (fold_pen (by assumption))
          · assumption

theorem goOnN_keep {T : List Part} (hT : Within [.regs, .fe, .reqs, .cores, .graphs, .checking, .tables, .folds, .dl] T) {s0 : State} (a0 : Nat) {a1 : State} (a2 : Nat) (a3 : Nat) (ha1 : Keep T s0 a1) :
    Keep T s0 (goOnN a0 a1 a2 a3) := by
  fun_induction goOnN a0 a1 a2 a3
  · assumption
  · assumption
  · dsimp +zetaDelta only
    with_reducible apply goOnce_keep (hT.sub (by decide))
    assumption
  · with_reducible apply_assumption -exfalso
    dsimp +zetaDelta only
    with_reducible apply goOnce_keep (hT.sub (by decide))
    assumption
  · dsimp +zetaDelta only
    with_reducible apply goOnce_keep (hT.sub (by decide))
    assumption

theorem goOn_keep {T : List Part} (hT : Within [.regs, .fe, .reqs, .cores, .graphs, .checking, .tables, .folds, .dl] T) {s0 : State} {s : State} (f : Nat) (id : Nat) (hs : Keep T s0 s) :
    Keep T s0 (goOn s f id) := by
  unfold goOn
  with_reducible apply goOnN_keep (hT.sub (by decide))
  assumption

theorem goOnReq_keep {T : List Part} (hT : Within [.regs, .fe, .reqs, .cores, .graphs, .checking, .tables, .folds, .dl] T) {s0 : State} {s : State} (f : Nat) (h : Half) (hs : Keep T s0 s) :
    Keep T s0 (goOnReq s f h) := by
  unfold goOnReq
  with_reducible apply keep_foldl
  · assumption
  · intro t0 x1 h2
    with_reducible apply goOn_keep (hT.sub (by decide))
    assumption

theorem goOnPeers_keep {T : List Part} (hT : Within [.regs, .fe, .reqs, .cores, .graphs, .checking, .tables, .folds, .dl] T) {s0 : State} {s : State} (f : Nat) (im : Image) (h : Half) (hs : Keep T s0 s) :
    Keep T s0 (goOnPeers s f im h) := by
  unfold goOnPeers
  with_reducible apply keep_foldl
  · assumption
  · intro t0 x1 h2
    with_reducible apply goOnReq_keep (hT.sub (by decide))
    assumption

theorem sweepEntry_keep {T : List Part} (hT : Within [.folds] T) {s0 : State} {s : State} (f : Nat) (k : Nat) (hs : Keep T s0 s) :
    Keep T s0 (sweepEntry s f k) := by
  unfold sweepEntry
  extract_lets +onlyGivenNames x0
  have hx0 : Keep T s0 x0 := by
    unfold x0
    with_reducible apply updFold_keep (hT.sub (by decide))
    · assumption
    · intro x1 h2
      with_reducible apply updDir_keep
      with_reducible assumption
  clear_value x0
  extract_lets +onlyGivenNames x3
  extract_lets +onlyGivenNames x4
  split
  · with_reducible apply startMig_keep (hT.sub (by decide))
    assumption
  · assumption

theorem noteMisaligned_keep {T : List Part} (hT : Within [.reqs, .cores] T) {s0 : State} {s : State} (h : Half) (hs : Keep T s0 s) :
    Keep T s0 (noteMisaligned s h) := by
  unfold noteMisaligned
  split
  · assumption
  · split
    · with_reducible apply updCore_keep (hT.sub (by decide))
      · assumption
      · intro x0 h1
        with_reducible apply recExc_keep
        assumption
    · with_reducible apply updReq_keep (hT.sub (by decide))
      assumption

theorem foldEnds_keep {T : List Part} (hT : Within [.regs, .fe, .reqs, .graphs, .checking, .tables, .folds, .dl] T) {s0 : State} {s : State} (f : Nat) (h : Half) (st : Status) (hs : Keep T s0 s) :
    Keep T s0 (foldEnds s f h st) := by
  unfold foldEnds
  split
  · assumption
  · split
    · extract_lets +onlyGivenNames x0
      have hx0 : Keep T s0 x0 := by
        unfold x0
        with_reducible apply updFold_keep (hT.sub (by decide))
        · assumption
        · intro x1 h2
          exact canonical_of (fold_pasture (by assumption)) (fold_pen (by assumption))
      clear_value x0
      with_reducible apply wantEnd_keep (hT.sub (by decide))
      assumption
    · with_reducible apply abortCmd_keep (hT.sub (by decide))
      assumption

theorem noteIdx_keep {T : List Part} (hT : Within [.regs, .fe, .reqs, .graphs, .checking, .tables, .folds, .dl] T) {s0 : State} {s : State} (f : Nat) (p : Prog) (im : Image) (i : Nat) (hs : Keep T s0 s) :
    Keep T s0 (noteIdx s f p im i) := by
  unfold noteIdx
  extract_lets +onlyGivenNames x0
  split
  · assumption
  · split
    · with_reducible apply foldEnds_keep (hT.sub (by decide))
      assumption
    · with_reducible apply cnt_keep (hT.sub (by decide))
      assumption

theorem countLookup_keep {T : List Part} (hT : Within [.regs, .folds, .ig] T) {s0 : State} {s : State} (p : Nat) (f : Nat) (im : Image) (key : Option Nat) (r : Nat) (hs : Keep T s0 s) :
    Keep T s0 (countLookup s p f im key r).1 := by
  unfold countLookup
  extract_lets +onlyGivenNames x0
  have hx0 : Fold.canonical x0 = true := by
    unfold x0
    with_reducible exact fold_canonical (by assumption) _
  clear_value x0
  split
  · extract_lets +onlyGivenNames x1
    dsimp -zeta only
    with_reducible apply updFold_keep (hT.sub (by decide))
    · assumption
    · intro x2 h3
      with_reducible apply updDir_keep
      with_reducible assumption
  · extract_lets +onlyGivenNames x4
    extract_lets +onlyGivenNames x5
    extract_lets +onlyGivenNames x6
    split
    · extract_lets +onlyGivenNames x7
      dsimp -zeta only
      with_reducible apply writePop_keep (hT.sub (by decide))
      with_reducible apply setFold_keep (hT.sub (by decide))
      · assumption
      · exact canonical_of (fold_pasture (by assumption)) (fold_pen (by assumption))
    · dsimp -zeta only
      with_reducible apply setFold_keep (hT.sub (by decide))
      · assumption
      · exact canonical_of (fold_pasture (by assumption)) (fold_pen (by assumption))

theorem readRow_keep {T : List Part} (hT : Within [.regs, .reqs, .cores, .folds, .ig] T) {s0 : State} {s : State} (f : Nat) (p : Prog) (im : Image) (img : Bool) (ep : Nat) (pos : Nat) (hs : Keep T s0 s) :
    Keep T s0 (readRow s f p im img ep pos) := by
  unfold readRow
  extract_lets +onlyGivenNames x0
  extract_lets +onlyGivenNames x1
  extract_lets +onlyGivenNames x2
  have hx2 : Fold.canonical x2 = true := by
    unfold x2
    with_reducible exact fold_canonical (by assumption) _
  clear_value x2
  extract_lets +onlyGivenNames x3
  extract_lets +onlyGivenNames x4
  extract_lets +onlyGivenNames x5
  have hx5 : Keep T s0 x5.1 := by
    unfold x5
    with_reducible apply readLoc_keep (hT.sub (by decide))
    assumption
  clear_value x5
  extract_lets +onlyGivenNames x6
  have hx6 : Keep T s0 x6 := by
    unfold x6
    with_reducible apply cnt_keep (hT.sub (by decide))
    assumption
  clear_value x6
  extract_lets +onlyGivenNames x7
  extract_lets +onlyGivenNames x8
  extract_lets +onlyGivenNames x9
  have hx9 : Keep T s0 x9 := by
    unfold x9
    split
    · with_reducible apply markPoison_keep (hT.sub (by decide))
      assumption
    · assumption
  clear_value x9
  extract_lets +onlyGivenNames x10
  have hx10 : Keep T s0 x10 := by
    unfold x10
    split
    · with_reducible apply noteMisaligned_keep (hT.sub (by decide))
      with_reducible apply cnt_keep (hT.sub (by decide))
      assumption
    · assumption
  clear_value x10
  extract_lets +onlyGivenNames x11
  have hx11 : Keep T s0 x11 := by
    unfold x11
    split
    · with_reducible apply repairPen_keep (hT.sub (by decide))
      assumption
    · assumption
  clear_value x11
  extract_lets +onlyGivenNames x12
  have hx12 : Keep T s0 x12.1 := by
    unfold x12
    with_reducible apply countLookup_keep (hT.sub (by decide))
    assumption
  clear_value x12
  extract_lets +onlyGivenNames x13
  have hx13 : Keep T s0 x13 := by
    unfold x13
    with_reducible apply tryPromote_keep (hT.sub (by decide))
    assumption
  clear_value x13
  extract_lets +onlyGivenNames x14
  extract_lets +onlyGivenNames x15
  extract_lets +onlyGivenNames x16
  with_reducible apply updFold_keep (hT.sub (by decide))
  · assumption
  · intro x17 h18
    with_reducible apply updProg_keep
    with_reducible assumption

theorem takeRead_keep {T : List Part} (hT : Within [.regs, .fe, .reqs, .cores, .graphs, .checking, .tables, .folds, .dl, .ig] T) {s0 : State} {s : State} (f : Nat) (p : Prog) (pos : Nat) (bub : Bool) (hs : Keep T s0 s) :
    Keep T s0 (takeRead s f p pos bub) := by
  unfold takeRead
  split
  · extract_lets +onlyGivenNames x0
    have hx0 : Keep T s0 x0 := by
      unfold x0
      split
      · with_reducible apply cnt_keep (hT.sub (by decide))
        assumption
      · assumption
    clear_value x0
    split
    · with_reducible apply foldEnds_keep (hT.sub (by decide))
      assumption
    · with_reducible apply goOn_keep (hT.sub (by decide))
      with_reducible apply readRow_keep (hT.sub (by decide))
      assumption
  · assumption

theorem readsTo_keep {T : List Part} (hT : Within [.regs, .fe, .reqs, .cores, .graphs, .checking, .tables, .folds, .dl, .ig] T) {s0 : State} (a0 : Nat) {a1 : State} (a2 : Nat) (a3 : Nat) (a4 : Nat) (ha1 : Keep T s0 a1) :
    Keep T s0 (readsTo a0 a1 a2 a3 a4) := by
  fun_induction readsTo a0 a1 a2 a3 a4
  · assumption
  · assumption
  · assumption
  · with_reducible apply_assumption -exfalso
    with_reducible apply takeRead_keep (hT.sub (by decide))
    assumption

theorem settleReq_keep {x : Fold} (h : Half) (hx : Fold.canonical x = true) :
    Fold.canonical (settleReq x h) = true := by
  unfold settleReq
  extract_lets +onlyGivenNames x0
  with_reducible refine foldl_keep (fun m => Fold.canonical m = true) _ _ _ ?_ ?_
  · with_reducible assumption
  · intro x1 x2 h3
    with_reducible apply settleCtx_keep
    with_reducible assumption

theorem reject_keep {T : List Part} (hT : Within [.regs, .fe, .reqs, .graphs, .tables, .folds, .dl] T) {s0 : State} {s : State} (c : Cmd) (st : Status) (hs : Keep T s0 s) :
    Keep T s0 (reject s c st) := by
  unfold reject
  with_reducible apply finish_keep (hT.sub (by decide))
  with_reducible apply cnt_keep (hT.sub (by decide))
  assumption

theorem ownOr_keep {T : List Part} (hT : Within [.regs] T) {s0 : State} (no : State → Cmd → State) (op : Nat) (q : Nat) (n : Word) (first : State → Cmd → State) (landed : State → Cmd → State) {s : State} (hno : ∀ y0 y1, Keep T s0 y0 → Keep T s0 (no y0 y1)) (hfirst : ∀ y0 y1, Keep T s0 y0 → Keep T s0 (first y0 y1)) (hlanded : ∀ y0 y1, Keep T s0 y0 → Keep T s0 (landed y0 y1)) (hs : Keep T s0 s) :
    Keep T s0 (ownOr no op q n first landed s) := by
  unfold ownOr
  split
  · assumption
  · split
    · assumption
    · split
      · split
        · assumption
        · extract_lets +onlyGivenNames x0
          have hx0 : Keep T s0 x0 := by
            unfold x0
            with_reducible apply cnt_keep (hT.sub (by decide))
            assumption
          clear_value x0
          split
          · with_reducible apply_assumption -exfalso
            assumption
          · with_reducible apply_assumption -exfalso
            assumption
      · with_reducible apply_assumption -exfalso
        assumption
      · assumption

theorem own_keep {T : List Part} (hT : Within [.regs, .fe, .reqs, .graphs, .tables, .folds, .dl] T) {s0 : State} (op : Nat) (q : Nat) (n : Word) (first : State → Cmd → State) (landed : State → Cmd → State) {s : State} (hfirst : ∀ y0 y1, Keep T s0 y0 → Keep T s0 (first y0 y1)) (hlanded : ∀ y0 y1, Keep T s0 y0 → Keep T s0 (landed y0 y1)) (hs : Keep T s0 s) :
    Keep T s0 (own op q n first landed s) := by
  unfold own
  with_reducible apply ownOr_keep (hT.sub (by decide))
  · intro t0 x1 h2
    with_reducible apply reject_keep (hT.sub (by decide))
    assumption
  · intro t3 x4 h5
    with_reducible apply_assumption -exfalso
    assumption
  · intro t6 x7 h8
    with_reducible apply_assumption -exfalso
    assumption
  · assumption

theorem dropQueue_keep {T : List Part} (hT : Within [.regs, .fe, .reqs, .graphs, .checking, .tables, .folds, .dl] T) {s0 : State} {s : State} (q : Nat) (st : Status) (hs : Keep T s0 s) :
    Keep T s0 (dropQueue s q st) := by
  unfold dropQueue
  extract_lets +onlyGivenNames x0
  have hx0 : Keep T s0 x0 := by
    unfold x0
    with_reducible apply stopFetch_keep (hT.sub (by decide))
    assumption
  clear_value x0
  extract_lets +onlyGivenNames x1
  extract_lets +onlyGivenNames x2
  have hx2 : Keep T s0 x2 := by
    unfold x2
    with_reducible refine keep_mk hT ?_ rfl ?_
    · assumption
    · (intro p hp; cases p <;> first | rfl | (exfalso; apply hp; decide))
  clear_value x2
  extract_lets +onlyGivenNames x3
  extract_lets +onlyGivenNames x4
  have hx4 : Keep T s0 x4 := by
    unfold x4
    with_reducible apply keep_foldl
    · assumption
    · intro t5 x6 h7
      with_reducible apply silence_keep (hT.sub (by decide))
      assumption
  clear_value x4
  extract_lets +onlyGivenNames x8
  have hx8 : Keep T s0 x8 := by
    unfold x8
    with_reducible apply keep_foldl
    · assumption
    · intro t9 x10 h11
      split
      · with_reducible apply finish_keep (hT.sub (by decide))
        with_reducible apply dropXfers_keep (hT.sub (by decide))
        assumption
      · with_reducible apply abortOne_keep (hT.sub (by decide))
        assumption
  clear_value x8
  with_reducible apply updQueue_keep (hT.sub (by decide))
  assumption

theorem endAbort_keep {T : List Part} (hT : Within [.regs, .fe, .reqs, .graphs, .tables, .folds, .dl] T) {s0 : State} {s : State} (c : Cmd) (hs : Keep T s0 s) :
    Keep T s0 (endAbort s c) := by
  unfold endAbort
  extract_lets +onlyGivenNames x0
  split
  · split
    · extract_lets +onlyGivenNames x1
      extract_lets +onlyGivenNames x2
      have hx2 : Keep T s0 x2 := by
        unfold x2
        with_reducible apply updQueue_keep (hT.sub (by decide))
        assumption
      clear_value x2
      with_reducible apply finish_keep (hT.sub (by decide))
      assumption
    · with_reducible apply finish_keep (hT.sub (by decide))
      assumption
  · with_reducible apply finish_keep (hT.sub (by decide))
    assumption

theorem noLanded_keep {T : List Part} (hT : Within [] T) {s0 : State} {s : State} (a1 : Cmd) (hs : Keep T s0 s) :
    Keep T s0 (noLanded s a1) := by
  unfold noLanded
  assumption

theorem settle_keep {T : List Part} (hT : Within [.regs, .fe, .reqs, .graphs, .tables, .folds, .dl] T) {s0 : State} {s : State} (hs : Keep T s0 s) :
    Keep T s0 (settle s) := by
  unfold settle
  with_reducible apply keep_foldl
  · assumption
  · intro t0 x1 h2
    split
    · with_reducible apply endAbort_keep (hT.sub (by decide))
      assumption
    · with_reducible apply finish_keep (hT.sub (by decide))
      assumption

theorem abortInto_keep {T : List Part} (hT : Within [.regs, .fe, .reqs, .graphs, .checking, .tables, .folds, .dl] T) {s0 : State} {s : State} (who : Cmd) (d : Cmd) (hs : Keep T s0 s) :
    Keep T s0 (abortInto s who d) := by
  unfold abortInto
  split
  · assumption
  · extract_lets +onlyGivenNames x0
    have hx0 : Keep T s0 x0 := by
      unfold x0
      split
      · assumption
      · with_reducible apply cnt_keep (hT.sub (by decide))
        with_reducible apply abortOne_keep (hT.sub (by decide))
        assumption
    clear_value x0
    with_reducible apply updCmd_keep (hT.sub (by decide))
    assumption

theorem abortWhole_keep {T : List Part} (hT : Within [.regs, .fe, .reqs, .graphs, .checking, .tables, .folds, .dl] T) {s0 : State} {s : State} (who : Cmd) (q : Nat) (hs : Keep T s0 s) :
    Keep T s0 (abortWhole s who q) := by
  unfold abortWhole
  extract_lets +onlyGivenNames x0
  have hx0 : Keep T s0 x0 := by
    unfold x0
    with_reducible apply keep_foldl
    · assumption
    · intro t1 x2 h3
      with_reducible apply abortInto_keep (hT.sub (by decide))
      assumption
  clear_value x0
  split
  · assumption
  · with_reducible apply haltQueue_keep (hT.sub (by decide))
    assumption

theorem setPhase_keep {T : List Part} (hT : Within [.fe] T) {s0 : State} {s : State} (c : Cmd) (p : Phase) (hs : Keep T s0 s) :
    Keep T s0 (setPhase s c p) := by
  unfold setPhase
  with_reducible apply updCmd_keep (hT.sub (by decide))
  assumption

theorem arrive_keep {T : List Part} (hT : Within [.fe] T) {s0 : State} {s : State} (c : Cmd) (hs : Keep T s0 s) :
    Keep T s0 (arrive s c) := by
  unfold arrive
  extract_lets +onlyGivenNames x0
  with_reducible apply updCmd_keep (hT.sub (by decide))
  with_reducible refine keep_mk hT ?_ rfl ?_
  · assumption
  · (intro p hp; cases p <;> first | rfl | (exfalso; apply hp; decide))

theorem abortRow_keep {T : List Part} (hT : Within [.regs, .fe, .reqs, .graphs, .tables, .folds, .dl] T) {s0 : State} (n : Word) (mine : Cmd → Bool) (act : State → Cmd → State) {s : State} (hact : ∀ y0 y1, Keep T s0 y0 → Keep T s0 (act y0 y1)) (hs : Keep T s0 s) :
    Keep T s0 (abortRow n mine act s) := by
  unfold abortRow
  split
  · assumption
  · split
    · assumption
    · extract_lets +onlyGivenNames x0
      have hx0 : Keep T s0 x0 := by
        unfold x0
        with_reducible apply cnt_keep (hT.sub (by decide))
        assumption
      clear_value x0
      split
      · with_reducible apply reject_keep (hT.sub (by decide))
        assumption
      · split
        · with_reducible apply reject_keep (hT.sub (by decide))
          assumption
        · with_reducible apply settle_keep (hT.sub (by decide))
          with_reducible apply_assumption -exfalso
          with_reducible apply setPhase_keep (hT.sub (by decide))
          with_reducible apply arrive_keep (hT.sub (by decide))
          assumption

end Sys2Proof.Machine
end

