-- ==== Sys2Proof/Laws/KeepTab.lean ====
section
/-! SUPPORT. `Keep` holds after each operation of tables, roll-over and transfers, where it held before. -/

namespace Sys2Proof.Machine

theorem updMaster_keep {T : List Part} (hT : Within [.folds] T) {s0 : State} {s : State} (f : Nat) (tid : Nat) (img : Bool) (r : Nat) (g : Master → Master) (hs : Keep T s0 s) :
    Keep T s0 (updMaster s f tid img r g) := by
  unfold updMaster
  with_reducible apply updFold_keep (hT.sub (by decide))
  · assumption
  · intro x0 h1
    exact canonical_of (fold_pasture (by assumption)) (fold_pen (by assumption))

theorem ruStats_keep {T : List Part} (hT : Within [.regs] T) {s0 : State} {s : State} (f : Nat) (q : QStats) (hs : Keep T s0 s) :
    Keep T s0 (ruStats s f q) := by
  unfold ruStats
  split
  · with_reducible apply addStats_keep (hT.sub (by decide))
    assumption
  · assumption

theorem masterRuns_keep {T : List Part} (hT : Within [.regs, .folds, .ig] T) {s0 : State} {s : State} (f : Nat) (tid : Nat) (img : Bool) (r : Nat) (off : Nat) (n : Nat) (write : Bool) (hs : Keep T s0 s) :
    Keep T s0 (masterRuns s f tid img r off n write) := by
  unfold masterRuns
  with_reducible apply poolRuns_keep (hT.sub (by decide))
  assumption

theorem changeClass_keep {T : List Part} (hT : Within [.regs, .folds, .ig] T) {s0 : State} {s : State} (im : Image) (f : Nat) (tid : Nat) (img : Bool) (o : Nat) (r : Nat) (cls : Nat) (a : Nat) (hs : Keep T s0 s) :
    Keep T s0 (changeClass s im f tid img o r cls a).1 := by
  unfold changeClass
  split
  · dsimp -zeta only
    assumption
  · extract_lets +onlyGivenNames x0
    extract_lets +onlyGivenNames x1
    extract_lets +onlyGivenNames x2
    extract_lets +onlyGivenNames x3
    have hx3 : Keep T s0 x3.1 := by
      unfold x3
      with_reducible apply wcWrite_keep (hT.sub (by decide))
      assumption
    clear_value x3
    split
    · dsimp -zeta only
      with_reducible apply cnt_keep (hT.sub (by decide))
      with_reducible apply ruStats_keep (hT.sub (by decide))
      with_reducible apply masterRuns_keep (hT.sub (by decide))
      assumption
    · dsimp -zeta only
      assumption

theorem jRuns_keep {T : List Part} (hT : Within [.regs, .folds, .ig] T) {s0 : State} {s : State} (f : Nat) (j : Jrec) (write : Bool) (hs : Keep T s0 s) :
    Keep T s0 (jRuns s f j write) := by
  unfold jRuns
  with_reducible apply poolRuns_keep (hT.sub (by decide))
  assumption

theorem putJ_keep {T : List Part} (hT : Within [.regs, .folds, .ig] T) {s0 : State} {s : State} (f : Nat) (j : Jrec) (hs : Keep T s0 s) :
    Keep T s0 (putJ s f j) := by
  unfold putJ
  with_reducible apply updFold_keep (hT.sub (by decide))
  · with_reducible apply jRuns_keep (hT.sub (by decide))
    assumption
  · intro x0 h1
    exact canonical_of (fold_pasture (by assumption)) (fold_pen (by assumption))

theorem makeChange_keep {T : List Part} (hT : Within [.regs, .folds, .ig] T) {s0 : State} {s : State} (slot : Option Nat) (u : Up) (im : Image) (f : Nat) (tid : Nat) (img : Bool) (o : Nat) (r : Nat) (c : Nat) (hs : Keep T s0 s) :
    Keep T s0 (makeChange s slot u im f tid img o r c).1 := by
  unfold makeChange
  split
  · dsimp -zeta only
    assumption
  · extract_lets +onlyGivenNames x0
    with_reducible apply changeClass_keep (hT.sub (by decide))
    with_reducible apply putJ_keep (hT.sub (by decide))
    assumption

theorem changeRoom_keep {T : List Part} (hT : Within [] T) {s0 : State} {s : State} (im : Image) (f : Nat) (tid : Nat) (img : Bool) (r : Nat) (cls : Nat) (hs : Keep T s0 s) :
    Keep T s0 (changeRoom s im f tid img r cls).2 := by
  unfold changeRoom
  extract_lets +onlyGivenNames x0
  have hx0 : Fold.canonical x0 = true := by
    unfold x0
    with_reducible exact fold_canonical (by assumption) _
  clear_value x0
  extract_lets +onlyGivenNames x1
  extract_lets +onlyGivenNames x2
  split
  · dsimp -zeta only
    assumption
  · with_reducible apply penAlloc_keep (hT.sub (by decide))
    assumption

theorem ownChange_keep {T : List Part} (hT : Within [.regs, .folds, .ig] T) {s0 : State} {s : State} (u : Up) (im : Image) (f : Nat) (tid : Nat) (img : Bool) (o : Nat) (r : Nat) (c : Nat) (hs : Keep T s0 s) :
    Keep T s0 (ownChange s u im f tid img o r c).1 := by
  unfold ownChange
  extract_lets +onlyGivenNames x0
  have hx0 : Keep T s0 x0.2 := by
    unfold x0
    with_reducible apply changeRoom_keep (hT.sub (by decide))
    assumption
  clear_value x0
  with_reducible apply makeChange_keep (hT.sub (by decide))
  assumption

theorem ownChanges_keep {T : List Part} (hT : Within [.regs, .folds, .ig] T) {s0 : State} {s : State} (u : Up) (im : Image) (f : Nat) (tid : Nat) (img : Bool) (o : Nat) (hs : Keep T s0 s) :
    Keep T s0 (ownChanges s u im f tid img o) := by
  unfold ownChanges
  with_reducible apply keep_foldl
  · assumption
  · intro t0 x1 h2
    with_reducible apply ownChange_keep (hT.sub (by decide))
    assumption

theorem delMaster_keep {T : List Part} (hT : Within [.folds] T) {s0 : State} {s : State} (f : Nat) (tid : Nat) (img : Bool) (r : Nat) (hs : Keep T s0 s) :
    Keep T s0 (delMaster s f tid img r) := by
  unfold delMaster
  with_reducible apply updFold_keep (hT.sub (by decide))
  · assumption
  · intro x0 h1
    exact canonical_of (fold_pasture (by assumption)) (fold_pen (by assumption))

theorem seedMaster_keep {T : List Part} (hT : Within [.regs, .folds, .ig] T) {s0 : State} {s : State} (im : Image) (f : Nat) (tid : Nat) (img : Bool) (r : Nat) (hs : Keep T s0 s) :
    Keep T s0 (seedMaster s im f tid img r).1 := by
  unfold seedMaster
  extract_lets +onlyGivenNames x0
  have hx0 : Keep T s0 x0.1 := by
    unfold x0
    with_reducible apply wcRead_keep (hT.sub (by decide))
    assumption
  clear_value x0
  split
  · dsimp -zeta only
    assumption
  · extract_lets +onlyGivenNames x1
    extract_lets +onlyGivenNames x2
    extract_lets +onlyGivenNames x3
    extract_lets +onlyGivenNames x4
    extract_lets +onlyGivenNames x5
    have hx5 : Keep T s0 x5 := by
      unfold x5
      with_reducible apply masterRuns_keep (hT.sub (by decide))
      with_reducible apply delMaster_keep (hT.sub (by decide))
      assumption
    clear_value x5
    dsimp -zeta only
    with_reducible apply updFold_keep (hT.sub (by decide))
    · assumption
    · intro x6 h7
      exact canonical_of (fold_pasture (by assumption)) (fold_pen (by assumption))

theorem dropGrad_keep {T : List Part} (hT : Within [.folds] T) {s0 : State} {s : State} (f : Nat) (j : Jrec) (hs : Keep T s0 s) :
    Keep T s0 (dropGrad s f j) := by
  unfold dropGrad
  with_reducible apply updFold_keep (hT.sub (by decide))
  · assumption
  · intro x0 h1
    exact canonical_of (fold_pasture (by assumption)) (fold_pen (by assumption))

theorem reseed_keep {T : List Part} (hT : Within [.regs, .folds, .ig] T) {s0 : State} {s : State} (im : Image) (f : Nat) (tid : Nat) (img : Bool) (j : Jrec) (hs : Keep T s0 s) :
    Keep T s0 (reseed s im f tid img j) := by
  unfold reseed
  extract_lets +onlyGivenNames x0
  have hx0 : Keep T s0 x0.1 := by
    unfold x0
    with_reducible apply seedMaster_keep (hT.sub (by decide))
    assumption
  clear_value x0
  split
  · assumption
  · with_reducible apply dropGrad_keep (hT.sub (by decide))
    with_reducible apply delMaster_keep (hT.sub (by decide))
    assumption

theorem readyMaster_keep {T : List Part} (hT : Within [.regs, .folds, .ig] T) {s0 : State} {s : State} (u : Up) (im : Image) (f : Nat) (tid : Nat) (img : Bool) (o : Nat) (j : Jrec) (hs : Keep T s0 s) :
    Keep T s0 (readyMaster s u im f tid img o j) := by
  unfold readyMaster
  extract_lets +onlyGivenNames x0
  split
  · split
    · extract_lets +onlyGivenNames x1
      have hx1 : Keep T s0 x1 := by
        unfold x1
        with_reducible apply reseed_keep (hT.sub (by decide))
        assumption
      clear_value x1
      split
      · with_reducible apply putJ_keep (hT.sub (by decide))
        assumption
      · assumption
    · assumption
  · split
    · extract_lets +onlyGivenNames x2
      have hx2 : Keep T s0 x2 := by
        unfold x2
        with_reducible apply reseed_keep (hT.sub (by decide))
        assumption
      clear_value x2
      split
      · with_reducible apply cnt_keep (hT.sub (by decide))
        assumption
      · assumption
    · with_reducible apply dropGrad_keep (hT.sub (by decide))
      assumption

theorem carryChange_keep {T : List Part} (hT : Within [.regs, .folds, .ig] T) {s0 : State} {s : State} (im : Image) (f : Nat) (tid : Nat) (img : Bool) (o : Nat) (r : Nat) (cls : Nat) (hs : Keep T s0 s) :
    Keep T s0 (carryChange s im f tid img o r cls).1 := by
  unfold carryChange
  extract_lets +onlyGivenNames x0
  have hx0 : Keep T s0 x0 := by
    unfold x0
    split
    · split
      · with_reducible apply flipMig_keep (hT.sub (by decide))
        assumption
      · assumption
    · assumption
  clear_value x0
  extract_lets +onlyGivenNames x1
  split
  · dsimp -zeta only
    assumption
  · split
    · dsimp -zeta only
      with_reducible apply keep_snd (by assumption)
      with_reducible apply changeRoom_keep (hT.sub (by decide))
      assumption
    · with_reducible apply changeClass_keep (hT.sub (by decide))
      with_reducible apply keep_snd (by assumption)
      with_reducible apply changeRoom_keep (hT.sub (by decide))
      assumption

theorem dRuns_keep {T : List Part} (hT : Within [.regs, .folds, .ig] T) {s0 : State} {s : State} (f : Nat) (d : Delta) (write : Bool) (hs : Keep T s0 s) :
    Keep T s0 (dRuns s f d write) := by
  unfold dRuns
  with_reducible apply poolRuns_keep (hT.sub (by decide))
  assumption

theorem lateRow_keep {T : List Part} (hT : Within [.regs, .folds, .ig] T) {s0 : State} {s : State} (im : Image) (f : Nat) (tid : Nat) (img : Bool) (o : Nat) (flush : Bool) (r : Nat) (hs : Keep T s0 s) :
    Keep T s0 (lateRow s im f tid img o flush r).1 := by
  unfold lateRow
  extract_lets +onlyGivenNames x0
  extract_lets +onlyGivenNames x1
  extract_lets +onlyGivenNames x2
  have hx2 : Keep T s0 x2.1 := by
    unfold x2
    with_reducible apply wcRead_keep (hT.sub (by decide))
    assumption
  clear_value x2
  split
  · dsimp -zeta only
    assumption
  · split
    · dsimp -zeta only
      with_reducible apply cntN_keep (hT.sub (by decide))
      with_reducible apply updFold_keep (hT.sub (by decide))
      · assumption
      · intro x3 h4
        exact canonical_of (fold_pasture (by assumption)) (fold_pen (by assumption))
    · extract_lets +onlyGivenNames x5
      extract_lets +onlyGivenNames x6
      extract_lets +onlyGivenNames x7
      extract_lets +onlyGivenNames x8
      extract_lets +onlyGivenNames x9
      extract_lets +onlyGivenNames x10
      have hx10 : Keep T s0 x10.1 := by
        unfold x10
        with_reducible apply wcWrite_keep (hT.sub (by decide))
        with_reducible apply keep_foldl
        · assumption
        · intro t11 x12 h13
          with_reducible apply dRuns_keep (hT.sub (by decide))
          assumption
      clear_value x10
      split
      · dsimp -zeta only
        with_reducible apply cnt_keep (hT.sub (by decide))
        with_reducible apply updFold_keep (hT.sub (by decide))
        · with_reducible apply ruStats_keep (hT.sub (by decide))
          assumption
        · intro x14 h15
          exact canonical_of (fold_pasture (by assumption)) (fold_pen (by assumption))
      · with_reducible apply wcWrite_keep (hT.sub (by decide))
        assumption

theorem lostGrad_keep {T : List Part} (hT : Within [.folds] T) {s0 : State} {s : State} (f : Nat) (tid : Nat) (img : Bool) (j : Jrec) (hs : Keep T s0 s) :
    Keep T s0 (lostGrad s f tid img j) := by
  unfold lostGrad
  extract_lets +onlyGivenNames x0
  have hx0 : Keep T s0 x0 := by
    unfold x0
    with_reducible apply dropGrad_keep (hT.sub (by decide))
    assumption
  clear_value x0
  split
  · split
    · assumption
    · with_reducible apply delMaster_keep (hT.sub (by decide))
      assumption
  · assumption

theorem phaseRuns_keep {T : List Part} (hT : Within [.regs, .folds, .ig] T) {s0 : State} {s : State} (im : Image) (f : Nat) (tid : Nat) (img : Bool) (j : Jrec) (off : Nat) (n : Nat) (hs : Keep T s0 s) :
    Keep T s0 (phaseRuns s im f tid img j off n) := by
  unfold phaseRuns
  extract_lets +onlyGivenNames x0
  extract_lets +onlyGivenNames x1
  have hx1 : Keep T s0 x1 := by
    unfold x1
    with_reducible apply masterRuns_keep (hT.sub (by decide))
    with_reducible apply jRuns_keep (hT.sub (by decide))
    assumption
  clear_value x1
  with_reducible apply masterRuns_keep (hT.sub (by decide))
  with_reducible apply masterRuns_keep (hT.sub (by decide))
  assumption

theorem phase2_keep {T : List Part} (hT : Within [.regs, .folds, .ig] T) {s0 : State} {s : State} (u : Up) (im : Image) (f : Nat) (tid : Nat) (img : Bool) (o : Nat) (j : Jrec) (hs : Keep T s0 s) :
    Keep T s0 (phase2 s u im f tid img o j) := by
  unfold phase2
  split
  · with_reducible apply lostGrad_keep (hT.sub (by decide))
    assumption
  · extract_lets +onlyGivenNames x0
    have hx0 : Keep T s0 x0 := by
      unfold x0
      with_reducible apply readyMaster_keep (hT.sub (by decide))
      assumption
    clear_value x0
    extract_lets +onlyGivenNames x1
    split
    · assumption
    · with_reducible apply updMaster_keep (hT.sub (by decide))
      with_reducible apply phaseRuns_keep (hT.sub (by decide))
      assumption

theorem phase3_keep {T : List Part} (hT : Within [.regs, .folds, .ig] T) {s0 : State} {s : State} (im : Image) (f : Nat) (tid : Nat) (img : Bool) (o : Nat) (j : Jrec) (hs : Keep T s0 s) :
    Keep T s0 (phase3 s im f tid img o j).1 := by
  unfold phase3
  extract_lets +onlyGivenNames x0
  extract_lets +onlyGivenNames x1
  have hx1 : Keep T s0 x1 := by
    unfold x1
    split
    · assumption
    · with_reducible apply updMaster_keep (hT.sub (by decide))
      with_reducible apply phaseRuns_keep (hT.sub (by decide))
      assumption
  clear_value x1
  split
  · dsimp -zeta only
    assumption
  · extract_lets +onlyGivenNames x2
    have hx2 : Keep T s0 x2.1 := by
      unfold x2
      with_reducible apply wcRead_keep (hT.sub (by decide))
      assumption
    clear_value x2
    split
    · dsimp -zeta only
      assumption
    · extract_lets +onlyGivenNames x3
      extract_lets +onlyGivenNames x4
      extract_lets +onlyGivenNames x5
      have hx5 : Keep T s0 x5.1 := by
        unfold x5
        with_reducible apply wcWrite_keep (hT.sub (by decide))
        assumption
      clear_value x5
      split
      · dsimp -zeta only
        with_reducible apply cnt_keep (hT.sub (by decide))
        with_reducible apply ruStats_keep (hT.sub (by decide))
        assumption
      · with_reducible apply wcWrite_keep (hT.sub (by decide))
        assumption

theorem dropRow_keep {T : List Part} (hT : Within [.regs, .folds] T) {s0 : State} {s : State} (f : Nat) (tid : Nat) (img : Bool) (r : Nat) (hs : Keep T s0 s) :
    Keep T s0 (dropRow s f tid img r) := by
  unfold dropRow
  with_reducible apply cnt_keep (hT.sub (by decide))
  with_reducible apply delMaster_keep (hT.sub (by decide))
  assumption

theorem ownDrops_keep {T : List Part} (hT : Within [.regs, .folds, .ig] T) {s0 : State} {s : State} (u : Up) (im : Image) (f : Nat) (tid : Nat) (img : Bool) (o : Nat) (hs : Keep T s0 s) :
    Keep T s0 (ownDrops s u im f tid img o) := by
  unfold ownDrops
  with_reducible apply keep_foldl
  · assumption
  · intro t0 x1 h2
    with_reducible apply dropRow_keep (hT.sub (by decide))
    with_reducible apply putJ_keep (hT.sub (by decide))
    assumption

theorem putD_keep {T : List Part} (hT : Within [.regs, .folds, .ig] T) {s0 : State} {s : State} (f : Nat) (d : Delta) (hs : Keep T s0 s) :
    Keep T s0 (putD s f d) := by
  unfold putD
  with_reducible apply updFold_keep (hT.sub (by decide))
  · with_reducible apply dRuns_keep (hT.sub (by decide))
    assumption
  · intro x0 h1
    exact canonical_of (fold_pasture (by assumption)) (fold_pen (by assumption))

theorem carryDrops_keep {T : List Part} (hT : Within [.regs, .folds] T) {s0 : State} {s : State} (u : Up) (f : Nat) (tid : Nat) (img : Bool) (hs : Keep T s0 s) :
    Keep T s0 (carryDrops s u f tid img) := by
  unfold carryDrops
  with_reducible apply keep_foldl
  · assumption
  · intro t0 x1 h2
    split
    · with_reducible apply dropRow_keep (hT.sub (by decide))
      assumption
    · assumption

theorem carryChanges_keep {T : List Part} (hT : Within [.regs, .folds, .ig] T) {s0 : State} {s : State} (u : Up) (im : Image) (f : Nat) (tid : Nat) (img : Bool) (o : Nat) (hs : Keep T s0 s) :
    Keep T s0 (carryChanges s u im f tid img o).1 := by
  unfold carryChanges
  with_reducible refine foldl_keep (fun p => Keep T s0 (Prod.fst p)) _ _ _ ?_ ?_
  · dsimp -zeta only
    assumption
  · intro x0 x1 h2
    extract_lets +onlyGivenNames x3
    have hx3 : Keep T s0 x3.1 := by
      unfold x3
      with_reducible apply carryChange_keep (hT.sub (by decide))
      assumption
    clear_value x3
    dsimp -zeta only
    assumption

theorem loadEnds_keep {T : List Part} (hT : Within [.regs, .fe, .reqs, .graphs, .tables, .folds, .dl] T) {s0 : State} {s : State} (c : Cmd) (st : Status) (hs : Keep T s0 s) :
    Keep T s0 (loadEnds s c st) := by
  unfold loadEnds
  extract_lets +onlyGivenNames x0
  have hx0 : Keep T s0 x0 := by
    unfold x0
    split
    · with_reducible apply dropStaged_keep (hT.sub (by decide))
      assumption
    · assumption
  clear_value x0
  with_reducible apply finish_keep (hT.sub (by decide))
  assumption

theorem loadRow_keep {T : List Part} (hT : Within [.regs, .folds, .ig] T) {s0 : State} {s : State} (im : Image) (tid : Nat) (img : Bool) (r : Nat) (slot : Bytes) (hs : Keep T s0 s) :
    Keep T s0 (loadRow s im tid img r slot) := by
  unfold loadRow
  extract_lets +onlyGivenNames x0
  extract_lets +onlyGivenNames x1
  have hx1 : Keep T s0 x1 := by
    unfold x1
    with_reducible apply fmWrite_keep (hT.sub (by decide))
    assumption
  clear_value x1
  split
  · with_reducible apply seedMaster_keep (hT.sub (by decide))
    assumption
  · assumption

theorem fullRows_keep {T : List Part} (hT : Within [.regs, .fe, .reqs, .graphs, .tables, .folds, .dl, .ig] T) {s0 : State} {s : State} (c : Cmd) (hs : Keep T s0 s) :
    Keep T s0 (fullRows s c) := by
  unfold fullRows
  extract_lets +onlyGivenNames x0
  extract_lets +onlyGivenNames x1
  split
  · extract_lets +onlyGivenNames x2
    extract_lets +onlyGivenNames x3
    extract_lets +onlyGivenNames x4
    split
    · with_reducible apply loadEnds_keep (hT.sub (by decide))
      assumption
    · split
      · with_reducible apply loadEnds_keep (hT.sub (by decide))
        assumption
      · extract_lets +onlyGivenNames x5
        have hx5 : Keep T s0 x5 := by
          unfold x5
          with_reducible apply keep_foldl
          · assumption
          · intro t6 x7 h8
            with_reducible apply loadRow_keep (hT.sub (by decide))
            assumption
        clear_value x5
        extract_lets +onlyGivenNames x9
        extract_lets +onlyGivenNames x10
        extract_lets +onlyGivenNames x11
        have hx11 : Keep T s0 x11 := by
          unfold x11
          with_reducible apply keep_foldl
          · assumption
          · intro t12 x13 h14
            with_reducible apply hashRuns_keep (hT.sub (by decide))
            assumption
        clear_value x11
        with_reducible apply finish_keep (hT.sub (by decide))
        with_reducible apply updTable_keep (hT.sub (by decide))
        assumption
  · with_reducible apply loadEnds_keep (hT.sub (by decide))
    assumption

theorem warmRow_keep {T : List Part} (hT : Within [.regs, .folds, .ig] T) {s0 : State} {s : State} (im : Image) (tid : Nat) (img : Bool) (f : Nat) (e : DirE) (hs : Keep T s0 s) :
    Keep T s0 (warmRow s im tid img f e).1 := by
  unfold warmRow
  extract_lets +onlyGivenNames x0
  extract_lets +onlyGivenNames x1
  split
  · dsimp -zeta only
    assumption
  · split
    · dsimp -zeta only
      assumption
    · split
      · dsimp -zeta only
        with_reducible apply keep_snd (by assumption)
        with_reducible apply penAlloc_keep (hT.sub (by decide))
        assumption
      · extract_lets +onlyGivenNames x2
        extract_lets +onlyGivenNames x3
        have hx3 : Keep T s0 x3.1 := by
          unfold x3
          with_reducible apply readLoc_keep (hT.sub (by decide))
          with_reducible apply keep_snd (by assumption)
          with_reducible apply penAlloc_keep (hT.sub (by decide))
          assumption
        clear_value x3
        extract_lets +onlyGivenNames x4
        have hx4 : Keep T s0 x4 := by
          unfold x4
          with_reducible apply writeLoc_keep (hT.sub (by decide))
          assumption
        clear_value x4
        dsimp -zeta only
        with_reducible apply updFold_keep (hT.sub (by decide))
        · assumption
        · intro x5 h6
          with_reducible apply setDir_keep
          with_reducible assumption

theorem warmTable_keep {T : List Part} (hT : Within [.regs, .folds, .ig] T) {s0 : State} {s : State} (tid : Nat) (hs : Keep T s0 s) :
    Keep T s0 (warmTable s tid) := by
  unfold warmTable
  extract_lets +onlyGivenNames x0
  split
  · split
    · assumption
    · extract_lets +onlyGivenNames x1
      extract_lets +onlyGivenNames x2
      with_reducible apply keep_foldl
      · assumption
      · intro t3 x4 h5
        with_reducible refine foldl_keep (fun p => Keep T s0 (Prod.fst p)) _ _ _ ?_ ?_
        · dsimp -zeta only
          assumption
        · intro x6 x7 h8
          split
          · with_reducible apply warmRow_keep (hT.sub (by decide))
            assumption
          · assumption
  · assumption

theorem sayHeld_keep {T : List Part} (hT : Within [.regs, .dl] T) {s0 : State} {s : State} (tid : Nat) (hs : Keep T s0 s) :
    Keep T s0 (sayHeld s tid) := by
  unfold sayHeld
  split
  · split
    · with_reducible apply droveSend_keep (hT.sub (by decide))
      assumption
    · assumption
  · assumption

theorem diverge_keep {T : List Part} (hT : Within [.regs, .tables] T) {s0 : State} {s : State} (tid : Nat) (hs : Keep T s0 s) :
    Keep T s0 (diverge s tid) := by
  unfold diverge
  split
  · assumption
  · with_reducible apply cnt_keep (hT.sub (by decide))
    with_reducible apply rset_keep (hT.sub (by decide))
    with_reducible apply rsetF_keep (hT.sub (by decide))
    with_reducible apply updTable_keep (hT.sub (by decide))
    assumption

theorem rootCheck_keep {T : List Part} (hT : Within [.regs, .tables, .dl] T) {s0 : State} {s : State} (tid : BitVec 12) (n : Word) (r : Bytes) (hs : Keep T s0 s) :
    Keep T s0 (rootCheck s tid n r) := by
  unfold rootCheck
  split
  · split
    · assumption
    · with_reducible apply diverge_keep (hT.sub (by decide))
      assumption
  · with_reducible refine keep_mk hT ?_ rfl ?_
    · assumption
    · (intro p hp; cases p <;> first | rfl | (exfalso; apply hp; decide))

theorem rootsKept_keep {T : List Part} (hT : Within [.regs, .tables, .dl] T) {s0 : State} {s : State} (tid : BitVec 12) (n : Word) (hs : Keep T s0 s) :
    Keep T s0 (rootsKept s tid n) := by
  unfold rootsKept
  extract_lets +onlyGivenNames x0
  with_reducible apply keep_foldl
  · with_reducible refine keep_mk hT ?_ rfl ?_
    · assumption
    · (intro p hp; cases p <;> first | rfl | (exfalso; apply hp; decide))
  · intro t1 x2 h3
    split
    with_reducible apply rootCheck_keep (hT.sub (by decide))
    assumption

theorem publishTable_keep {T : List Part} (hT : Within [.regs, .tables, .folds, .dl, .ig] T) {s0 : State} {s : State} (tid : Nat) (slices : List Bytes) (hs : Keep T s0 s) :
    Keep T s0 (publishTable s tid slices) := by
  unfold publishTable
  extract_lets +onlyGivenNames x0
  have hx0 : Keep T s0 x0 := by
    unfold x0
    with_reducible apply publish_keep (hT.sub (by decide))
    assumption
  clear_value x0
  split
  · extract_lets +onlyGivenNames x1
    extract_lets +onlyGivenNames x2
    have hx2 : Keep T s0 x2 := by
      unfold x2
      split
      · with_reducible apply sayHeld_keep (hT.sub (by decide))
        assumption
      · assumption
    clear_value x2
    split
    · with_reducible apply rootsKept_keep (hT.sub (by decide))
      with_reducible apply droveSend_keep (hT.sub (by decide))
      assumption
    · assumption
  · assumption

theorem commitNow_keep {T : List Part} (hT : Within [.regs, .fe, .reqs, .graphs, .tables, .folds, .dl, .ig] T) {s0 : State} {s : State} (c : Cmd) (roots : Nat → List Bytes) (hs : Keep T s0 s) :
    Keep T s0 (commitNow s c roots) := by
  unfold commitNow
  extract_lets +onlyGivenNames x0
  extract_lets +onlyGivenNames x1
  have hx1 : Keep T s0 x1 := by
    unfold x1
    split
    · with_reducible apply keep_foldl
      · assumption
      · intro t2 x3 h4
        with_reducible apply warmTable_keep (hT.sub (by decide))
        assumption
    · assumption
  clear_value x1
  extract_lets +onlyGivenNames x5
  have hx5 : Keep T s0 x5 := by
    unfold x5
    with_reducible apply keep_foldl
    · assumption
    · intro t6 x7 h8
      with_reducible apply publishTable_keep (hT.sub (by decide))
      assumption
  clear_value x5
  extract_lets +onlyGivenNames x9
  extract_lets +onlyGivenNames x10
  have hx10 : Keep T s0 x10 := by
    unfold x10
    with_reducible refine keep_mk hT ?_ rfl ?_
    · assumption
    · (intro p hp; cases p <;> first | rfl | (exfalso; apply hp; decide))
  clear_value x10
  with_reducible apply finish_keep (hT.sub (by decide))
  assumption

theorem readyOut_keep {T : List Part} (hT : Within [.regs, .dl] T) {s0 : State} {s : State} (upd : Bool) (set : List (BitVec 12 × Word)) (hs : Keep T s0 s) :
    Keep T s0 (readyOut s upd set) := by
  unfold readyOut
  split
  · assumption
  · extract_lets +onlyGivenNames x0
    with_reducible apply droveSend_keep (hT.sub (by decide))
    assumption

theorem sendReady_keep {T : List Part} (hT : Within [.regs, .tables, .folds, .dl, .ig] T) {s0 : State} {s : State} (q : BitVec 10) (n : Word) (upd : Bool) (set : List (BitVec 12 × Word)) (str : Option Half) (hs : Keep T s0 s) :
    Keep T s0 (sendReady s q n upd set str) := by
  unfold sendReady
  extract_lets +onlyGivenNames x0
  have hx0 : Keep T s0 x0 := by
    unfold x0
    with_reducible apply keep_foldl
    · assumption
    · intro t1 x2 h3
      split
      split
      · assumption
      · with_reducible apply rehash_keep (hT.sub (by decide))
        assumption
  clear_value x0
  extract_lets +onlyGivenNames x4
  extract_lets +onlyGivenNames x5
  have hx5 : Keep T s0 x5 := by
    unfold x5
    with_reducible refine keep_mk hT ?_ rfl ?_
    · assumption
    · (intro p hp; cases p <;> first | rfl | (exfalso; apply hp; decide))
  clear_value x5
  with_reducible apply readyOut_keep (hT.sub (by decide))
  assumption

theorem commitJudge_keep {T : List Part} (hT : Within [.regs, .fe, .reqs, .graphs, .tables, .folds, .dl, .ig] T) {s0 : State} {s : State} (c : Cmd) (hs : Keep T s0 s) :
    Keep T s0 (commitJudge s c) := by
  unfold commitJudge
  extract_lets +onlyGivenNames x0
  extract_lets +onlyGivenNames x1
  split
  · with_reducible apply reject_keep (hT.sub (by decide))
    assumption
  · split
    · assumption
    · split
      · split
        · assumption
        · extract_lets +onlyGivenNames x2
          split
          · with_reducible apply commitNow_keep (hT.sub (by decide))
            assumption
          · split
            · with_reducible apply finish_keep (hT.sub (by decide))
              assumption
            · split
              · assumption
              · with_reducible apply sendReady_keep (hT.sub (by decide))
                assumption
      · split
        · assumption
        · extract_lets +onlyGivenNames x3
          split
          · with_reducible apply commitNow_keep (hT.sub (by decide))
            assumption
          · split
            · with_reducible apply finish_keep (hT.sub (by decide))
              assumption
            · split
              · assumption
              · with_reducible apply sendReady_keep (hT.sub (by decide))
                assumption

theorem loadSrc_keep {T : List Part} (hT : Within [.regs, .fe, .reqs, .graphs, .tables, .folds, .dl] T) {s0 : State} {s : State} (c : Cmd) (d : Bytes) (hs : Keep T s0 s) :
    Keep T s0 (loadSrc s c d) := by
  unfold loadSrc
  extract_lets +onlyGivenNames x0
  split
  · with_reducible apply reject_keep (hT.sub (by decide))
    assumption
  · with_reducible apply fetchSrc_keep (hT.sub (by decide))
    assumption

theorem startImage_keep {T : List Part} (hT : Within [.regs, .fe, .tables, .folds] T) {s0 : State} {s : State} (c : Cmd) (tid : Nat) (d : Bytes) (hs : Keep T s0 s) :
    Keep T s0 (startImage s c tid d) := by
  unfold startImage
  split
  · assumption
  · extract_lets +onlyGivenNames x0
    have hx0 : Keep T s0 x0 := by
      unfold x0
      with_reducible apply dropStaged_keep (hT.sub (by decide))
      assumption
    clear_value x0
    extract_lets +onlyGivenNames x1
    extract_lets +onlyGivenNames x2
    extract_lets +onlyGivenNames x3
    with_reducible apply updCmd_keep (hT.sub (by decide))
    with_reducible apply setTable_keep (hT.sub (by decide))
    assumption

theorem fullGo_keep {T : List Part} (hT : Within [.regs, .fe, .reqs, .graphs, .tables, .folds, .dl, .ig] T) {s0 : State} {s : State} (c : Cmd) (hs : Keep T s0 s) :
    Keep T s0 (fullGo s c) := by
  unfold fullGo
  extract_lets +onlyGivenNames x0
  split
  · with_reducible apply fullRows_keep (hT.sub (by decide))
    assumption
  · split
    · assumption
    · split
      · extract_lets +onlyGivenNames x1
        extract_lets +onlyGivenNames x2
        split
        · with_reducible apply reject_keep (hT.sub (by decide))
          assumption
        · split
          · with_reducible apply reject_keep (hT.sub (by decide))
            assumption
          · split
            · assumption
            · with_reducible apply loadSrc_keep (hT.sub (by decide))
              with_reducible apply startImage_keep (hT.sub (by decide))
              assumption
      · extract_lets +onlyGivenNames x3
        split
        · split
          · with_reducible apply reject_keep (hT.sub (by decide))
            assumption
          · split
            · assumption
            · with_reducible apply loadSrc_keep (hT.sub (by decide))
              assumption
        · with_reducible apply reject_keep (hT.sub (by decide))
          assumption

theorem exportRow_keep {T : List Part} (hT : Within [.regs, .folds, .ig] T) {s0 : State} {s : State} (im : Image) (e : Epoch) (tid : Nat) (r : Nat) (atP : Bool) (hs : Keep T s0 s) :
    Keep T s0 (exportRow s im e tid r atP).1 := by
  unfold exportRow
  extract_lets +onlyGivenNames x0
  extract_lets +onlyGivenNames x1
  extract_lets +onlyGivenNames x2
  extract_lets +onlyGivenNames x3
  extract_lets +onlyGivenNames x4
  have hx4 : Keep T s0 x4.1 := by
    unfold x4
    with_reducible apply readLoc_keep (hT.sub (by decide))
    assumption
  clear_value x4
  extract_lets +onlyGivenNames x5
  have hx5 : Keep T s0 x5.1 := by
    unfold x5
    split
    · dsimp -zeta only
      with_reducible apply repairPen_keep (hT.sub (by decide))
      assumption
    · assumption
  clear_value x5
  extract_lets +onlyGivenNames x6
  extract_lets +onlyGivenNames x7
  split
  · dsimp -zeta only
    assumption
  · split
    · split
      · extract_lets +onlyGivenNames x8
        extract_lets +onlyGivenNames x9
        dsimp -zeta only
        with_reducible apply ruStats_keep (hT.sub (by decide))
        with_reducible apply masterRuns_keep (hT.sub (by decide))
        assumption
      · dsimp -zeta only
        assumption
    · dsimp -zeta only
      assumption

theorem exportStream_keep {T : List Part} (hT : Within [.regs, .folds, .ig] T) {s0 : State} {s : State} (im : Image) (e : Epoch) (tid : Nat) (first : Nat) (count : Nat) (atP : Bool) (hs : Keep T s0 s) :
    Keep T s0 (exportStream s im e tid first count atP).1 := by
  unfold exportStream
  extract_lets +onlyGivenNames x0
  have hx0 : Keep T s0 x0.1 := by
    unfold x0
    with_reducible refine foldl_keep (fun p => Keep T s0 (Prod.fst p)) _ _ _ ?_ ?_
    · dsimp -zeta only
      assumption
    · intro x1 x2 h3
      extract_lets +onlyGivenNames x4
      have hx4 : Keep T s0 x4.1 := by
        unfold x4
        with_reducible apply exportRow_keep (hT.sub (by decide))
        assumption
      clear_value x4
      dsimp -zeta only
      assumption
  clear_value x0
  dsimp -zeta only
  assumption

theorem exportJudge_keep {T : List Part} (hT : Within [.regs, .fe, .reqs, .nextHandle, .graphs, .tables, .folds, .dl, .ig] T) {s0 : State} {s : State} (c : Cmd) (hs : Keep T s0 s) :
    Keep T s0 (exportJudge s c) := by
  unfold exportJudge
  extract_lets +onlyGivenNames x0
  extract_lets +onlyGivenNames x1
  split
  · with_reducible apply reject_keep (hT.sub (by decide))
    assumption
  · extract_lets +onlyGivenNames x2
    extract_lets +onlyGivenNames x3
    extract_lets +onlyGivenNames x4
    extract_lets +onlyGivenNames x5
    split
    · with_reducible apply reject_keep (hT.sub (by decide))
      assumption
    · split
      · with_reducible apply reject_keep (hT.sub (by decide))
        assumption
      · split
        · split
          · with_reducible apply reject_keep (hT.sub (by decide))
            assumption
          · split
            · with_reducible apply reject_keep (hT.sub (by decide))
              assumption
            · split
              · assumption
              · extract_lets +onlyGivenNames x6
                extract_lets +onlyGivenNames x7
                have hx7 : Keep T s0 x7.2 := by
                  unfold x7
                  with_reducible apply takeHandle_keep (hT.sub (by decide))
                  assumption
                clear_value x7
                extract_lets +onlyGivenNames x8
                have hx8 : Keep T s0 x8 := by
                  unfold x8
                  with_reducible apply pinCur_keep (hT.sub (by decide))
                  assumption
                clear_value x8
                extract_lets +onlyGivenNames x9
                have hx9 : Keep T s0 x9.1 := by
                  unfold x9
                  with_reducible apply exportStream_keep (hT.sub (by decide))
                  assumption
                clear_value x9
                extract_lets +onlyGivenNames x10
                extract_lets +onlyGivenNames x11
                have hx11 : Keep T s0 x11 := by
                  unfold x11
                  assumption
                clear_value x11
                extract_lets +onlyGivenNames x12
                have hx12 : Keep T s0 x12 := by
                  unfold x12
                  with_reducible refine keep_mk hT ?_ rfl ?_
                  · assumption
                  · (intro p hp; cases p <;> first | rfl | (exfalso; apply hp; decide))
                clear_value x12
                extract_lets +onlyGivenNames x13
                have hx13 : Keep T s0 x13 := by
                  unfold x13
                  with_reducible apply updCmd_keep (hT.sub (by decide))
                  assumption
                clear_value x13
                with_reducible apply sendDst_keep (hT.sub (by decide))
                assumption
        · split
          · with_reducible apply reject_keep (hT.sub (by decide))
            assumption
          · split
            · with_reducible apply reject_keep (hT.sub (by decide))
              assumption
            · split
              · assumption
              · extract_lets +onlyGivenNames x14
                extract_lets +onlyGivenNames x15
                have hx15 : Keep T s0 x15.2 := by
                  unfold x15
                  with_reducible apply takeHandle_keep (hT.sub (by decide))
                  assumption
                clear_value x15
                extract_lets +onlyGivenNames x16
                have hx16 : Keep T s0 x16 := by
                  unfold x16
                  with_reducible apply pinCur_keep (hT.sub (by decide))
                  assumption
                clear_value x16
                extract_lets +onlyGivenNames x17
                have hx17 : Keep T s0 x17.1 := by
                  unfold x17
                  with_reducible apply exportStream_keep (hT.sub (by decide))
                  assumption
                clear_value x17
                extract_lets +onlyGivenNames x18
                extract_lets +onlyGivenNames x19
                have hx19 : Keep T s0 x19 := by
                  unfold x19
                  assumption
                clear_value x19
                extract_lets +onlyGivenNames x20
                have hx20 : Keep T s0 x20 := by
                  unfold x20
                  with_reducible refine keep_mk hT ?_ rfl ?_
                  · assumption
                  · (intro p hp; cases p <;> first | rfl | (exfalso; apply hp; decide))
                clear_value x20
                extract_lets +onlyGivenNames x21
                have hx21 : Keep T s0 x21 := by
                  unfold x21
                  with_reducible apply updCmd_keep (hT.sub (by decide))
                  assumption
                clear_value x21
                with_reducible apply sendDst_keep (hT.sub (by decide))
                assumption

theorem dropJudge_keep {T : List Part} (hT : Within [.regs, .fe, .reqs, .graphs, .tables, .folds, .dl] T) {s0 : State} {s : State} (c : Cmd) (hs : Keep T s0 s) :
    Keep T s0 (dropJudge s c) := by
  unfold dropJudge
  extract_lets +onlyGivenNames x0
  extract_lets +onlyGivenNames x1
  split
  · with_reducible apply reject_keep (hT.sub (by decide))
    assumption
  · split
    · with_reducible apply reject_keep (hT.sub (by decide))
      assumption
    · split
      · assumption
      · with_reducible apply finish_keep (hT.sub (by decide))
        with_reducible apply keep_foldl
        · assumption
        · intro t2 x3 h4
          with_reducible apply dropTable_keep (hT.sub (by decide))
          assumption

theorem commitFirst_keep {T : List Part} (hT : Within [.regs, .fe, .reqs, .graphs, .tables, .folds, .dl] T) {s0 : State} {s : State} (c : Cmd) (hs : Keep T s0 s) :
    Keep T s0 (commitFirst s c) := by
  unfold commitFirst
  split
  · with_reducible apply reject_keep (hT.sub (by decide))
    assumption
  · with_reducible apply setPhase_keep (hT.sub (by decide))
    with_reducible apply arrive_keep (hT.sub (by decide))
    assumption

theorem openEpoch_keep {T : List Part} (hT : Within [.tables] T) {s0 : State} {s : State} (tid : Nat) (d : Bytes) (rows : Bool) (hs : Keep T s0 s) :
    Keep T s0 (openEpoch s tid d rows) := by
  unfold openEpoch
  with_reducible apply updTable_keep (hT.sub (by decide))
  assumption

theorem rowsWrite_keep {T : List Part} (hT : Within [.regs, .fe, .reqs, .graphs, .tables, .folds, .dl, .ig] T) {s0 : State} {s : State} (c : Cmd) (im : Image) (tid : Nat) (img : Bool) (hs : Keep T s0 s) :
    Keep T s0 (rowsWrite s c im tid img) := by
  unfold rowsWrite
  extract_lets +onlyGivenNames x0
  extract_lets +onlyGivenNames x1
  extract_lets +onlyGivenNames x2
  extract_lets +onlyGivenNames x3
  have hx3 : Keep T s0 x3.1 := by
    unfold x3
    with_reducible refine foldl_keep (fun p => Keep T s0 (Prod.fst p)) _ _ _ ?_ ?_
    · dsimp -zeta only
      assumption
    · intro x4 x5 h6
      extract_lets +onlyGivenNames x7
      extract_lets +onlyGivenNames x8
      split
      · dsimp -zeta only
        assumption
      · extract_lets +onlyGivenNames x9
        have hx9 : Keep T s0 x9.1 := by
          unfold x9
          with_reducible apply wcWrite_keep (hT.sub (by decide))
          assumption
        clear_value x9
        dsimp -zeta only
        split
        · with_reducible apply openEpoch_keep (hT.sub (by decide))
          assumption
        · assumption
  clear_value x3
  split
  · with_reducible apply setPhase_keep (hT.sub (by decide))
    assumption
  · with_reducible apply finish_keep (hT.sub (by decide))
    assumption

theorem rowsGo_keep {T : List Part} (hT : Within [.regs, .fe, .reqs, .graphs, .tables, .folds, .dl, .ig] T) {s0 : State} {s : State} (c : Cmd) (hs : Keep T s0 s) :
    Keep T s0 (rowsGo s c) := by
  unfold rowsGo
  extract_lets +onlyGivenNames x0
  extract_lets +onlyGivenNames x1
  split
  · split
    · with_reducible apply reject_keep (hT.sub (by decide))
      assumption
    · assumption
  · extract_lets +onlyGivenNames x2
    extract_lets +onlyGivenNames x3
    extract_lets +onlyGivenNames x4
    split
    · split
      · assumption
      · split
        · with_reducible apply finish_keep (hT.sub (by decide))
          assumption
        · with_reducible apply rowsWrite_keep (hT.sub (by decide))
          assumption
    · split
      · assumption
      · split
        · with_reducible apply reject_keep (hT.sub (by decide))
          assumption
        · split
          · with_reducible apply reject_keep (hT.sub (by decide))
            assumption
          · split
            · with_reducible apply reject_keep (hT.sub (by decide))
              assumption
            · split
              · with_reducible apply reject_keep (hT.sub (by decide))
                assumption
              · split
                · with_reducible apply reject_keep (hT.sub (by decide))
                  assumption
                · split
                  · assumption
                  · with_reducible apply loadSrc_keep (hT.sub (by decide))
                    assumption

theorem retireReq_keep {T : List Part} (hT : Within [.regs, .fe, .reqs, .graphs, .checking, .tables, .folds, .dl] T) {s0 : State} {s : State} (r : Req) (hs : Keep T s0 s) :
    Keep T s0 (retireReq s r) := by
  unfold retireReq
  extract_lets +onlyGivenNames x0
  extract_lets +onlyGivenNames x1
  extract_lets +onlyGivenNames x2
  extract_lets +onlyGivenNames x3
  have hx3 : Keep T s0 x3 := by
    unfold x3
    with_reducible apply updReq_keep (hT.sub (by decide))
    with_reducible refine keep_mk hT ?_ rfl ?_
    · assumption
    · (intro p hp; cases p <;> first | rfl | (exfalso; apply hp; decide))
  clear_value x3
  split
  · split
    · with_reducible apply updCmd_keep (hT.sub (by decide))
      assumption
    · with_reducible apply abortCmd_keep (hT.sub (by decide))
      assumption
  · assumption

theorem loadFirst_keep {T : List Part} (hT : Within [.regs, .fe, .reqs, .graphs, .tables, .folds, .dl] T) {s0 : State} {s : State} (c : Cmd) (hs : Keep T s0 s) :
    Keep T s0 (loadFirst s c) := by
  unfold loadFirst
  split
  · with_reducible apply reject_keep (hT.sub (by decide))
    assumption
  · extract_lets +onlyGivenNames x0
    have hx0 : Keep T s0 x0 := by
      unfold x0
      with_reducible apply arrive_keep (hT.sub (by decide))
      assumption
    clear_value x0
    split
    · with_reducible apply fetchSrc_keep (hT.sub (by decide))
      assumption
    · with_reducible apply setPhase_keep (hT.sub (by decide))
      assumption

theorem exportGo_keep {T : List Part} (hT : Within [.regs, .fe, .reqs, .nextHandle, .graphs, .tables, .folds, .dl, .ig] T) {s0 : State} {s : State} (c : Cmd) (hs : Keep T s0 s) :
    Keep T s0 (exportGo s c) := by
  unfold exportGo
  split
  · split
    · assumption
    · with_reducible apply finish_keep (hT.sub (by decide))
      assumption
  · split
    · assumption
    · with_reducible apply exportJudge_keep (hT.sub (by decide))
      assumption

theorem commitStay_keep {T : List Part} (hT : Within [] T) {s0 : State} {s : State} (a1 : Cmd) (hs : Keep T s0 s) :
    Keep T s0 (commitStay s a1) := by
  unfold commitStay
  assumption

theorem ownGo_keep {T : List Part} (hT : Within [.regs, .fe, .reqs, .graphs, .tables, .folds, .dl] T) {s0 : State} (op : Nat) (q : Nat) (n : Word) (mine : Cmd → Bool) (first : State → Cmd → State) (go : State → Cmd → State) {s : State} (hfirst : ∀ y0 y1, Keep T s0 y0 → Keep T s0 (first y0 y1)) (hgo : ∀ y0 y1, Keep T s0 y0 → Keep T s0 (go y0 y1)) (hs : Keep T s0 s) :
    Keep T s0 (ownGo op q n mine first go s) := by
  unfold ownGo
  split
  · assumption
  · split
    · assumption
    · split
      · split
        · assumption
        · extract_lets +onlyGivenNames x0
          have hx0 : Keep T s0 x0 := by
            unfold x0
            with_reducible apply cnt_keep (hT.sub (by decide))
            assumption
          clear_value x0
          split
          · with_reducible apply reject_keep (hT.sub (by decide))
            assumption
          · with_reducible apply_assumption -exfalso
            assumption
      · with_reducible apply_assumption -exfalso
        assumption
      · with_reducible apply_assumption -exfalso
        assumption
      · with_reducible apply_assumption -exfalso
        assumption
      · assumption

theorem phase1_keep {T : List Part} (hT : Within [.regs, .folds, .ig] T) {s0 : State} {s : State} (u : Up) (r : RowUp) (hs : Keep T s0 s) :
    Keep T s0 (phase1 s u r) := by
  unfold phase1
  extract_lets +onlyGivenNames x0
  extract_lets +onlyGivenNames x1
  extract_lets +onlyGivenNames x2
  have hx2 : Keep T s0 x2 := by
    unfold x2
    split
    · with_reducible apply rsetF_keep (hT.sub (by decide))
      with_reducible apply cnt_keep (hT.sub (by decide))
      assumption
    · assumption
  clear_value x2
  split
  · extract_lets +onlyGivenNames x3
    have hx3 : Keep T s0 x3 := by
      unfold x3
      split
      · with_reducible apply putJ_keep (hT.sub (by decide))
        assumption
      · assumption
    clear_value x3
    with_reducible apply putJ_keep (hT.sub (by decide))
    assumption
  · extract_lets +onlyGivenNames x4
    extract_lets +onlyGivenNames x5
    with_reducible apply cnt_keep (hT.sub (by decide))
    with_reducible apply putD_keep (hT.sub (by decide))
    assumption

theorem sendRecs_keep {T : List Part} (hT : Within [.regs, .dl] T) {s0 : State} {s : State} (h : Half) (tag : Nat) (es : List (BitVec 12 × Word)) (recs : List Bytes) (ds : List Bytes) (hs : Keep T s0 s) :
    Keep T s0 (sendRecs s h tag es recs ds) := by
  unfold sendRecs
  extract_lets +onlyGivenNames x0
  extract_lets +onlyGivenNames x1
  with_reducible apply keep_foldl
  · assumption
  · intro t2 x3 h4
    extract_lets +onlyGivenNames x5
    with_reducible apply droveSend_keep (hT.sub (by decide))
    assumption

theorem sendStream_keep {T : List Part} (hT : Within [.regs, .dl] T) {s0 : State} {s : State} (u : Up) (tag : Nat) (op : List (BitVec 12 × Word)) (tids : List Nat) (flush : Bool) (hs : Keep T s0 s) :
    Keep T s0 (sendStream s u tag op tids flush) := by
  unfold sendStream
  split
  · extract_lets +onlyGivenNames x0
    extract_lets +onlyGivenNames x1
    extract_lets +onlyGivenNames x2
    extract_lets +onlyGivenNames x3
    extract_lets +onlyGivenNames x4
    have hx4 : Keep T s0 x4 := by
      unfold x4
      with_reducible refine keep_mk hT ?_ rfl ?_
      · assumption
      · (intro p hp; cases p <;> first | rfl | (exfalso; apply hp; decide))
    clear_value x4
    with_reducible apply sendRecs_keep (hT.sub (by decide))
    assumption
  · assumption

theorem updateJudge_keep {T : List Part} (hT : Within [.regs, .fe, .reqs, .nextHandle, .graphs, .tables, .folds, .dl, .ig] T) {s0 : State} {s : State} (c : Cmd) (hs : Keep T s0 s) :
    Keep T s0 (updateJudge s c) := by
  unfold updateJudge
  split
  · with_reducible apply reject_keep (hT.sub (by decide))
    assumption
  · extract_lets +onlyGivenNames x0
    extract_lets +onlyGivenNames x1
    extract_lets +onlyGivenNames x2
    extract_lets +onlyGivenNames x3
    extract_lets +onlyGivenNames x4
    split
    · with_reducible apply reject_keep (hT.sub (by decide))
      assumption
    · split
      · with_reducible apply reject_keep (hT.sub (by decide))
        assumption
      · split
        · assumption
        · extract_lets +onlyGivenNames x5
          extract_lets +onlyGivenNames x6
          split
          · extract_lets +onlyGivenNames x7
            have hx7 : Keep T s0 x7 := by
              unfold x7
              with_reducible apply keep_foldl
              · assumption
              · intro t8 x9 h10
                with_reducible apply rsetF_keep (hT.sub (by decide))
                assumption
            clear_value x7
            with_reducible apply keep_foldl
            · assumption
            · intro t11 x12 h13
              with_reducible apply rsetF_keep (hT.sub (by decide))
              assumption
          · extract_lets +onlyGivenNames x14
            have hx14 : Keep T s0 x14.2 := by
              unfold x14
              with_reducible apply takeHandle_keep (hT.sub (by decide))
              assumption
            clear_value x14
            extract_lets +onlyGivenNames x15
            extract_lets +onlyGivenNames x16
            have hx16 : Keep T s0 x16 := by
              unfold x16
              with_reducible apply keep_foldl
              · assumption
              · intro t17 x18 h19
                with_reducible apply phase1_keep (hT.sub (by decide))
                assumption
            clear_value x16
            extract_lets +onlyGivenNames x20
            have hx20 : Keep T s0 x20 := by
              unfold x20
              with_reducible apply keep_foldl
              · assumption
              · intro t21 x22 h23
                with_reducible apply cnt_keep (hT.sub (by decide))
                assumption
            clear_value x20
            extract_lets +onlyGivenNames x24
            have hx24 : Keep T s0 x24 := by
              unfold x24
              with_reducible apply updCmd_keep (hT.sub (by decide))
              assumption
            clear_value x24
            with_reducible apply sendStream_keep (hT.sub (by decide))
            assumption

theorem freeLogs_keep {T : List Part} (hT : Within [.folds] T) {s0 : State} {s : State} (u : Up) (op : List (BitVec 12 × Word)) (hs : Keep T s0 s) :
    Keep T s0 (freeLogs s u op) := by
  unfold freeLogs
  refine keep_mk_maps hT ?_ rfl ?_ ?_ ?_
  · assumption
  · refine all_mmap ({} : Fold) Fold.canonical _ _ ?_ ?_
    · with_reducible exact Keep.folds (by assumption)
    · intro x0 h1
      exact canonical_of (fold_pasture (by assumption)) (fold_pen (by assumption))
  · with_reducible exact Keep.cores (by assumption)
  · (intro p hp; cases p <;> first | rfl | (exfalso; apply hp; decide))

theorem openFold_keep {T : List Part} (hT : Within [.regs, .folds, .ig] T) {s0 : State} {s : State} (u : Up) (ts : List UpTab) (f : Nat) (hs : Keep T s0 s) :
    Keep T s0 (openFold s u ts f) := by
  unfold openFold
  extract_lets +onlyGivenNames x0
  extract_lets +onlyGivenNames x1
  have hx1 : Keep T s0 x1 := by
    unfold x1
    with_reducible apply keep_foldl
    · assumption
    · intro t2 x3 h4
      with_reducible apply ownDrops_keep (hT.sub (by decide))
      assumption
  clear_value x1
  with_reducible apply keep_foldl
  · assumption
  · intro t5 x6 h7
    with_reducible apply ownChanges_keep (hT.sub (by decide))
    assumption

theorem openBy_keep {T : List Part} (hT : Within [.regs, .tables, .folds, .ig] T) {s0 : State} {s : State} (u : Up) (ts : List UpTab) (hs : Keep T s0 s) :
    Keep T s0 (openBy s u ts) := by
  unfold openBy
  extract_lets +onlyGivenNames x0
  have hx0 : Keep T s0 x0 := by
    unfold x0
    with_reducible apply keep_foldl
    · assumption
    · intro t1 x2 h3
      with_reducible apply openEpoch_keep (hT.sub (by decide))
      assumption
  clear_value x0
  split
  · assumption
  · with_reducible apply keep_foldl
    · assumption
    · intro t4 x5 h6
      with_reducible apply openFold_keep (hT.sub (by decide))
      assumption

theorem carryOut_keep {T : List Part} (hT : Within [.regs, .folds, .ig] T) {s0 : State} {s : State} (u : Up) (ts : List UpTab) (f : Nat) (hs : Keep T s0 s) :
    Keep T s0 (carryOut s u ts f).1 := by
  unfold carryOut
  extract_lets +onlyGivenNames x0
  extract_lets +onlyGivenNames x1
  have hx1 : Keep T s0 x1 := by
    unfold x1
    with_reducible apply keep_foldl
    · assumption
    · intro t2 x3 h4
      with_reducible apply carryDrops_keep (hT.sub (by decide))
      assumption
  clear_value x1
  with_reducible refine foldl_keep (fun p => Keep T s0 (Prod.fst p)) _ _ _ ?_ ?_
  · dsimp -zeta only
    assumption
  · intro x5 x6 h7
    extract_lets +onlyGivenNames x8
    have hx8 : Keep T s0 x8.1 := by
      unfold x8
      with_reducible apply carryChanges_keep (hT.sub (by decide))
      assumption
    clear_value x8
    dsimp -zeta only
    assumption

theorem rollFold_keep {T : List Part} (hT : Within [.regs, .folds, .ig] T) {s0 : State} {s : State} (u : Up) (ts : List UpTab) (flush : Bool) (f : Nat) (hs : Keep T s0 s) :
    Keep T s0 (rollFold s u ts flush f).1 := by
  unfold rollFold
  extract_lets +onlyGivenNames x0
  extract_lets +onlyGivenNames x1
  have hx1 : Keep T s0 x1 := by
    unfold x1
    with_reducible apply keep_foldl
    · assumption
    · intro t2 x3 h4
      with_reducible apply keep_foldl
      · assumption
      · intro t5 x6 h7
        with_reducible apply phase2_keep (hT.sub (by decide))
        assumption
  clear_value x1
  extract_lets +onlyGivenNames x8
  have hx8 : Keep T s0 x8.1 := by
    unfold x8
    with_reducible refine foldl_keep (fun p => Keep T s0 (Prod.fst p)) _ _ _ ?_ ?_
    · dsimp -zeta only
      assumption
    · intro x9 x10 h11
      with_reducible refine foldl_keep (fun p => Keep T s0 (Prod.fst p)) _ _ _ ?_ ?_
      · assumption
      · intro x12 x13 h14
        extract_lets +onlyGivenNames x15
        have hx15 : Keep T s0 x15.1 := by
          unfold x15
          with_reducible apply phase3_keep (hT.sub (by decide))
          assumption
        clear_value x15
        dsimp -zeta only
        assumption
  clear_value x8
  split
  · assumption
  · with_reducible refine foldl_keep (fun p => Keep T s0 (Prod.fst p)) _ _ _ ?_ ?_
    · assumption
    · intro x16 x17 h18
      with_reducible refine foldl_keep (fun p => Keep T s0 (Prod.fst p)) _ _ _ ?_ ?_
      · assumption
      · intro x19 x20 h21
        extract_lets +onlyGivenNames x22
        have hx22 : Keep T s0 x22.1 := by
          unfold x22
          with_reducible apply lateRow_keep (hT.sub (by decide))
          assumption
        clear_value x22
        dsimp -zeta only
        assumption

theorem moveFold_keep {T : List Part} (hT : Within [.regs, .folds, .ig] T) {s0 : State} {s : State} (u : Up) (ts : List UpTab) (flush : Bool) (f : Nat) (hs : Keep T s0 s) :
    Keep T s0 (moveFold s u ts flush f).1 := by
  unfold moveFold
  split
  · dsimp -zeta only
    assumption
  · split
    · dsimp -zeta only
      assumption
    · extract_lets +onlyGivenNames x0
      have hx0 : Keep T s0 x0.1 := by
        unfold x0
        split
        · with_reducible apply carryOut_keep (hT.sub (by decide))
          assumption
        · dsimp -zeta only
          assumption
      clear_value x0
      split
      · with_reducible apply rollFold_keep (hT.sub (by decide))
        assumption
      · assumption

theorem rollAll_keep {T : List Part} (hT : Within [.regs, .tables, .folds, .ig] T) {s0 : State} {s : State} (u : Up) (flush : Bool) (op : List (BitVec 12 × Word)) (hs : Keep T s0 s) :
    Keep T s0 (rollAll s u flush op).1 := by
  unfold rollAll
  extract_lets +onlyGivenNames x0
  extract_lets +onlyGivenNames x1
  extract_lets +onlyGivenNames x2
  split
  · dsimp -zeta only
    assumption
  · extract_lets +onlyGivenNames x3
    have hx3 : Keep T s0 x3 := by
      unfold x3
      split
      · assumption
      · with_reducible apply openBy_keep (hT.sub (by decide))
        assumption
    clear_value x3
    with_reducible refine foldl_keep (fun p => Keep T s0 (Prod.fst p)) _ _ _ ?_ ?_
    · dsimp -zeta only
      assumption
    · intro x4 x5 h6
      extract_lets +onlyGivenNames x7
      have hx7 : Keep T s0 x7.1 := by
        unfold x7
        with_reducible apply moveFold_keep (hT.sub (by decide))
        assumption
      clear_value x7
      dsimp -zeta only
      assumption

theorem updateRoll_keep {T : List Part} (hT : Within [.regs, .fe, .tables, .folds, .dl, .ig] T) {s0 : State} {s : State} (c : Cmd) (hs : Keep T s0 s) :
    Keep T s0 (updateRoll s c) := by
  unfold updateRoll
  extract_lets +onlyGivenNames x0
  extract_lets +onlyGivenNames x1
  extract_lets +onlyGivenNames x2
  have hx2 : Keep T s0 x2.1 := by
    unfold x2
    with_reducible apply rollAll_keep (hT.sub (by decide))
    assumption
  clear_value x2
  extract_lets +onlyGivenNames x3
  have hx3 : Keep T s0 x3 := by
    unfold x3
    assumption
  clear_value x3
  extract_lets +onlyGivenNames x4
  have hx4 : Keep T s0 x4 := by
    unfold x4
    split
    · with_reducible apply sendRecs_keep (hT.sub (by decide))
      assumption
    · assumption
  clear_value x4
  split
  · with_reducible apply setPhase_keep (hT.sub (by decide))
    with_reducible apply keep_foldl
    · assumption
    · intro t5 x6 h7
      split
      with_reducible apply rehash_keep (hT.sub (by decide))
      assumption
  · assumption

theorem updateGo_keep {T : List Part} (hT : Within [.regs, .fe, .reqs, .nextHandle, .graphs, .tables, .folds, .dl, .ig] T) {s0 : State} {s : State} (c : Cmd) (hs : Keep T s0 s) :
    Keep T s0 (updateGo s c) := by
  unfold updateGo
  split
  · extract_lets +onlyGivenNames x0
    extract_lets +onlyGivenNames x1
    split
    · assumption
    · with_reducible apply updateJudge_keep (hT.sub (by decide))
      assumption
  · split
    · with_reducible apply updateRoll_keep (hT.sub (by decide))
      assumption
    · assumption
  · assumption

theorem publishUpd_keep {T : List Part} (hT : Within [.regs, .fe, .reqs, .graphs, .tables, .folds, .dl, .ig] T) {s0 : State} {s : State} (c : Cmd) (roots : Nat → List Bytes) (hs : Keep T s0 s) :
    Keep T s0 (publishUpd s c roots) := by
  unfold publishUpd
  extract_lets +onlyGivenNames x0
  extract_lets +onlyGivenNames x1
  have hx1 : Keep T s0 x1 := by
    unfold x1
    with_reducible apply freeLogs_keep (hT.sub (by decide))
    assumption
  clear_value x1
  extract_lets +onlyGivenNames x2
  have hx2 : Keep T s0 x2 := by
    unfold x2
    with_reducible apply keep_foldl
    · assumption
    · intro t3 x4 h5
      split
      with_reducible apply publishTable_keep (hT.sub (by decide))
      assumption
  clear_value x2
  extract_lets +onlyGivenNames x6
  extract_lets +onlyGivenNames x7
  have hx7 : Keep T s0 x7 := by
    unfold x7
    with_reducible refine keep_mk hT ?_ rfl ?_
    · assumption
    · (intro p hp; cases p <;> first | rfl | (exfalso; apply hp; decide))
  clear_value x7
  with_reducible apply finish_keep (hT.sub (by decide))
  assumption

theorem recoverUp_keep {T : List Part} (hT : Within [.regs, .folds, .ig] T) {s0 : State} {s : State} (u : Up) (flush : Bool) (op : List (BitVec 12 × Word)) (f : Nat) (hs : Keep T s0 s) :
    Keep T s0 (recoverUp s u flush op f).1 := by
  unfold recoverUp
  extract_lets +onlyGivenNames x0
  extract_lets +onlyGivenNames x1
  extract_lets +onlyGivenNames x2
  have hx2 : Keep T s0 x2.1 := by
    unfold x2
    with_reducible apply carryOut_keep (hT.sub (by decide))
    assumption
  clear_value x2
  extract_lets +onlyGivenNames x3
  have hx3 : Keep T s0 x3.1 := by
    unfold x3
    split
    · with_reducible apply rollFold_keep (hT.sub (by decide))
      assumption
    · assumption
  clear_value x3
  dsimp -zeta only
  with_reducible apply cntN_keep (hT.sub (by decide))
  assumption

theorem sendBody_keep {T : List Part} (hT : Within [] T) {s0 : State} {s : State} (h : Half) (i : Nat) (data : Bytes) (hs : Keep T s0 s) :
    Keep T s0 (sendBody s h i data) := by
  unfold sendBody
  split
  · assumption
  · split
    · assumption
    · extract_lets +onlyGivenNames x0
      extract_lets +onlyGivenNames x1
      with_reducible apply keep_foldl
      · assumption
      · intro t2 x3 h4
        extract_lets +onlyGivenNames x5
        with_reducible apply emit_keep
        assumption

theorem peerRun_keep {T : List Part} (hT : Within [.regs, .fe, .folds, .np, .xl, .ig] T) {s0 : State} (a0 : Nat) {a1 : State} (a2 : Xfer) (a3 : Bool) (ha1 : Keep T s0 a1) :
    Keep T s0 (peerRun a0 a1 a2 a3) := by
  fun_induction peerRun a0 a1 a2 a3
  · assumption
  · with_reducible apply respTo_keep (hT.sub (by decide))
    dsimp +zetaDelta only
    with_reducible apply dropXfer_keep (hT.sub (by decide))
    assumption
  · with_reducible apply ackTo_keep (hT.sub (by decide))
    dsimp +zetaDelta only
    with_reducible apply dropXfer_keep (hT.sub (by decide))
    assumption
  · assumption
  · dsimp +zetaDelta only
    with_reducible apply_assumption -exfalso
    with_reducible apply updXfer_keep (hT.sub (by decide))
    with_reducible apply fmRead_keep (hT.sub (by decide))
    with_reducible apply xlatDone_keep (hT.sub (by decide))
    assumption
  · dsimp +zetaDelta only
    with_reducible apply_assumption -exfalso
    with_reducible apply updXfer_keep (hT.sub (by decide))
    with_reducible apply fmWrite_keep (hT.sub (by decide))
    with_reducible apply xlatDone_keep (hT.sub (by decide))
    assumption
  · assumption
  · with_reducible apply updXfer_keep (hT.sub (by decide))
    dsimp +zetaDelta only
    with_reducible apply xlatNote_keep (hT.sub (by decide))
    assumption
  · with_reducible apply nakAccess_keep (hT.sub (by decide))
    with_reducible apply dropXfer_keep (hT.sub (by decide))
    dsimp +zetaDelta only
    with_reducible apply fqWrite_keep (hT.sub (by decide))
    with_reducible apply cnt_keep (hT.sub (by decide))
    with_reducible apply xlatNote_keep (hT.sub (by decide))
    assumption

theorem noteStatus_keep {T : List Part} (hT : Within [.ig] T) {s0 : State} {s : State} (q : Nat) (n : Word) (st : Status) (since : Dword) (hs : Keep T s0 s) :
    Keep T s0 (noteStatus s q n st since) := by
  unfold noteStatus
  with_reducible refine keep_mk hT ?_ rfl ?_
  · assumption
  · (intro p hp; cases p <;> first | rfl | (exfalso; apply hp; decide))

theorem nextPiece_keep {T : List Part} (hT : Within [.regs, .fe, .reqs, .graphs, .checking, .tables, .folds, .np, .xl, .dl, .ig] T) {s0 : State} {s : State} (t : Xfer) (rewalk : Bool) (hs : Keep T s0 s) :
    Keep T s0 (nextPiece s t rewalk) := by
  unfold nextPiece
  split
  · with_reducible apply peerRun_keep (hT.sub (by decide))
    assumption
  · with_reducible apply issuePiece_keep (hT.sub (by decide))
    assumption

theorem lostLands_keep {T : List Part} (hT : Within [.regs, .fe, .np] T) {s0 : State} {s : State} (x : Nat) (hs : Keep T s0 s) :
    Keep T s0 (lostLands s x) := by
  unfold lostLands
  extract_lets +onlyGivenNames x0
  split
  · assumption
  · extract_lets +onlyGivenNames x1
    extract_lets +onlyGivenNames x2
    have hx2 : Keep T s0 x2 := by
      unfold x2
      with_reducible refine keep_mk hT ?_ rfl ?_
      · assumption
      · (intro p hp; cases p <;> first | rfl | (exfalso; apply hp; decide))
    clear_value x2
    with_reducible apply keep_foldl
    · with_reducible apply cntN_keep (hT.sub (by decide))
      assumption
    · intro t3 x4 h5
      with_reducible apply updQp_keep (hT.sub (by decide))
      assumption

end Sys2Proof.Machine
end

