-- ==== Sys2Proof/Laws/KeepRun.lean ====
section
/-! SUPPORT. `Keep` holds after each operation of messages between parts, launches and graphs, where it held before. -/

namespace Sys2Proof.Machine

theorem cutWaits_keep {T : List Part} (hT : Within [.regs, .fe, .reqs, .graphs, .tables, .folds, .dl] T) {s0 : State} {s : State} (hs : Keep T s0 s) :
    Keep T s0 (cutWaits s) := by
  unfold cutWaits
  split
  · assumption
  · extract_lets +onlyGivenNames x0
    have hx0 : Keep T s0 x0 := by
      unfold x0
      with_reducible apply keep_foldl
      · assumption
      · intro t1 x2 h3
        with_reducible apply finish_keep (hT.sub (by decide))
        assumption
    clear_value x0
    with_reducible apply keep_foldl
    · assumption
    · intro t4 x5 h6
      with_reducible apply finish_keep (hT.sub (by decide))
      with_reducible refine keep_mk hT ?_ rfl ?_
      · assumption
      · (intro p hp; cases p <;> first | rfl | (exfalso; apply hp; decide))

theorem excOf_keep {T : List Part} (hT : Within [.reqs, .cores, .folds] T) {s0 : State} {s : State} (h : Half) (st : Status) (hs : Keep T s0 s) :
    Keep T s0 (excOf s h st) := by
  unfold excOf
  split
  · split
    · assumption
    · with_reducible apply endIdle_keep (hT.sub (by decide))
      with_reducible apply updCore_keep (hT.sub (by decide))
      · assumption
      · intro x0 h1
        with_reducible apply recExc_keep
        assumption
  · assumption

theorem failColl_keep {T : List Part} (hT : Within [.regs, .reqs, .cores, .folds, .dl] T) {s0 : State} {s : State} (c : Coll) (hs : Keep T s0 s) :
    Keep T s0 (failColl s c) := by
  unfold failColl
  extract_lets +onlyGivenNames x0
  extract_lets +onlyGivenNames x1
  have hx1 : Keep T s0 x1 := by
    unfold x1
    with_reducible refine keep_mk hT ?_ rfl ?_
    · assumption
    · (intro p hp; cases p <;> first | rfl | (exfalso; apply hp; decide))
  clear_value x1
  with_reducible apply wantEnd_keep (hT.sub (by decide))
  with_reducible apply excOf_keep (hT.sub (by decide))
  with_reducible apply cnt_keep (hT.sub (by decide))
  assumption

theorem cutColls_keep {T : List Part} (hT : Within [.regs, .reqs, .cores, .folds, .dl] T) {s0 : State} {s : State} (hs : Keep T s0 s) :
    Keep T s0 (cutColls s) := by
  unfold cutColls
  with_reducible apply keep_foldl
  · assumption
  · intro t0 x1 h2
    with_reducible apply failColl_keep (hT.sub (by decide))
    assumption

theorem cutRoutes_keep {T : List Part} (hT : Within [.regs, .fe, .reqs, .cores, .graphs, .tables, .folds, .dl] T) {s0 : State} {s : State} (hs : Keep T s0 s) :
    Keep T s0 (cutRoutes s) := by
  unfold cutRoutes
  with_reducible apply cutWaits_keep (hT.sub (by decide))
  with_reducible apply cutColls_keep (hT.sub (by decide))
  assumption

theorem updColl_keep {T : List Part} (hT : Within [.dl] T) {s0 : State} {s : State} (h : Half) (idx : Half) (g : Coll → Coll) (hs : Keep T s0 s) :
    Keep T s0 (updColl s h idx g) := by
  unfold updColl
  with_reducible refine keep_mk hT ?_ rfl ?_
  · assumption
  · (intro p hp; cases p <;> first | rfl | (exfalso; apply hp; decide))

theorem sendBlock_keep {T : List Part} (hT : Within [.regs, .dl] T) {s0 : State} {s : State} (c : Coll) (q : BitVec 12) (hs : Keep T s0 s) :
    Keep T s0 (sendBlock s c q) := by
  unfold sendBlock
  extract_lets +onlyGivenNames x0
  extract_lets +onlyGivenNames x1
  have hx1 : Keep T s0 x1 := by
    unfold x1
    with_reducible apply keep_foldl
    · assumption
    · intro t2 x3 h4
      with_reducible apply droveSend_keep (hT.sub (by decide))
      assumption
  clear_value x1
  with_reducible apply updColl_keep (hT.sub (by decide))
  assumption

theorem startColl_keep {T : List Part} (hT : Within [.regs, .reqs, .cores, .folds, .dl] T) {s0 : State} {s : State} (h : Half) (idx : Half) (hs : Keep T s0 s) :
    Keep T s0 (startColl s h idx) := by
  unfold startColl
  split
  · assumption
  · extract_lets +onlyGivenNames x0
    have hx0 : Keep T s0 x0 := by
      unfold x0
      with_reducible apply updColl_keep (hT.sub (by decide))
      assumption
    clear_value x0
    extract_lets +onlyGivenNames x1
    split
    · extract_lets +onlyGivenNames x2
      split
      · with_reducible apply failColl_keep (hT.sub (by decide))
        assumption
      · split
        · extract_lets +onlyGivenNames x3
          with_reducible apply keep_foldl
          · assumption
          · intro t4 x5 h6
            with_reducible apply droveSend_keep (hT.sub (by decide))
            assumption
        · with_reducible apply keep_foldl
          · assumption
          · intro t7 x8 h9
            split
            with_reducible apply droveSend_keep (hT.sub (by decide))
            assumption
    · split
      · with_reducible apply failColl_keep (hT.sub (by decide))
        assumption
      · extract_lets +onlyGivenNames x10
        have hx10 : Keep T s0 x10 := by
          unfold x10
          with_reducible apply toMembers_keep (hT.sub (by decide))
          assumption
        clear_value x10
        extract_lets +onlyGivenNames x11
        extract_lets +onlyGivenNames x12
        have hx12 : Keep T s0 x12 := by
          unfold x12
          split
          · assumption
          · with_reducible apply updCore_keep (hT.sub (by decide))
            · assumption
            · intro x13 h14
              with_reducible apply extPut_keep
              assumption
        clear_value x12
        with_reducible apply keep_foldl
        · assumption
        · intro t15 x16 h17
          with_reducible apply sendBlock_keep (hT.sub (by decide))
          assumption

theorem endColls_keep {T : List Part} (hT : Within [.regs, .dl] T) {s0 : State} {s : State} (r : Req) (byEnd : Bool) (hs : Keep T s0 s) :
    Keep T s0 (endColls s r byEnd) := by
  unfold endColls
  extract_lets +onlyGivenNames x0
  extract_lets +onlyGivenNames x1
  have hx1 : Keep T s0 x1 := by
    unfold x1
    with_reducible refine keep_mk hT ?_ rfl ?_
    · assumption
    · (intro p hp; cases p <;> first | rfl | (exfalso; apply hp; decide))
  clear_value x1
  split
  · split
    · assumption
    · with_reducible apply toMembers_keep (hT.sub (by decide))
      assumption
  · assumption

theorem neverReplayed_keep {T : List Part} (hT : Within [.reqs, .cores] T) {s0 : State} {s : State} (h : Half) (hs : Keep T s0 s) :
    Keep T s0 (neverReplayed s h) := by
  unfold neverReplayed
  split
  · assumption
  · extract_lets +onlyGivenNames x0
    extract_lets +onlyGivenNames x1
    have hx1 : Keep T s0 x1 := by
      unfold x1
      with_reducible apply updReq_keep (hT.sub (by decide))
      assumption
    clear_value x1
    split
    · with_reducible apply updCore_keep (hT.sub (by decide))
      · assumption
      · intro x2 h3
        with_reducible apply cupdSlot_keep
        assumption
    · assumption

theorem holdB_keep {T : List Part} (hT : Within [.regs, .cores] T) {s0 : State} {s : State} (c : Nat) (o : OpenB) (hs : Keep T s0 s) :
    Keep T s0 (holdB s c o) := by
  unfold holdB
  extract_lets +onlyGivenNames x0
  extract_lets +onlyGivenNames x1
  extract_lets +onlyGivenNames x2
  extract_lets +onlyGivenNames x3
  have hx3 : Keep T s0 x3 := by
    unfold x3
    with_reducible apply updCore_keep (hT.sub (by decide))
    · assumption
    · intro x4 h5
      extract_lets +onlyGivenNames x6
      have hx6 : memWf (Core.scratch x6) = true := by
        unfold x6
        with_reducible apply cupdSlot_keep
        assumption
      clear_value x6
      dsimp -zeta only
      assumption
  clear_value x3
  extract_lets +onlyGivenNames x7
  have hx7 : Keep T s0 x7 := by
    unfold x7
    with_reducible apply cntN_keep (hT.sub (by decide))
    assumption
  clear_value x7
  extract_lets +onlyGivenNames x8
  have hx8 : Keep T s0 x8 := by
    unfold x8
    split
    · with_reducible apply cntN_keep (hT.sub (by decide))
      assumption
    · assumption
  clear_value x8
  extract_lets +onlyGivenNames x9
  have hx9 : Keep T s0 x9 := by
    unfold x9
    split
    · with_reducible apply cntN_keep (hT.sub (by decide))
      assumption
    · assumption
  clear_value x9
  with_reducible apply cnt_keep (hT.sub (by decide))
  assumption

theorem takeM_keep {T : List Part} (hT : Within [.cores] T) {s0 : State} {s : State} (c : Nat) (hs : Keep T s0 s) :
    Keep T s0 (takeM s c) := by
  unfold takeM
  with_reducible apply updCore_keep (hT.sub (by decide))
  · assumption
  · intro x0 h1
    dsimp -zeta only
    assumption

theorem withQ_keep {T : List Part} (hT : Within [.regs, .reqs, .cores, .folds] T) {s0 : State} {s : State} (c : Nat) (g : State → OpenB → Slot → State) (hs : Keep T s0 s) (hg : ∀ y0 y1 y2, Keep T s0 y0 → Keep T s0 (g y0 y1 y2)) :
    Keep T s0 (withQ s c g) := by
  unfold withQ
  split
  · assumption
  · split
    · assumption
    · split
      · with_reducible apply endHeld_keep (hT.sub (by decide))
        with_reducible apply holdB_keep (hT.sub (by decide))
        assumption
      · with_reducible apply_assumption -exfalso
        with_reducible apply takeM_keep (hT.sub (by decide))
        assumption

theorem mExc_keep {T : List Part} (hT : Within [.cores] T) {s0 : State} {s : State} (c : Nat) (o : OpenB) (st : Status) (hs : Keep T s0 s) :
    Keep T s0 (mExc s c o st) := by
  unfold mExc
  with_reducible apply updCore_keep (hT.sub (by decide))
  · assumption
  · intro x0 h1
    with_reducible apply recExc_keep
    assumption

theorem putQ_keep {T : List Part} (hT : Within [.cores] T) {s0 : State} {s : State} (c : Nat) (e : IssueE) (hs : Keep T s0 s) :
    Keep T s0 (putQ s c e) := by
  unfold putQ
  with_reducible apply updCore_keep (hT.sub (by decide))
  · assumption
  · intro x0 h1
    dsimp -zeta only
    assumption

theorem dcoll_keep {T : List Part} (hT : Within [.regs, .reqs, .cores, .folds, .dl, .ig] T) {s0 : State} (c : Nat) (kind : Nat) (sa : Scr) (ctr : BitVec 5) {s : State} (hs : Keep T s0 s) :
    Keep T s0 (dcoll c kind sa ctr s) := by
  unfold dcoll
  extract_lets +onlyGivenNames x0
  split
  · assumption
  · split
    · assumption
    · with_reducible apply withQ_keep (hT.sub (by decide))
      · assumption
      · intro t1 x2 x3 h4
        split
        · assumption
        · with_reducible apply mExc_keep (hT.sub (by decide))
          assumption
        · extract_lets +onlyGivenNames x5
          extract_lets +onlyGivenNames x6
          extract_lets +onlyGivenNames x7
          extract_lets +onlyGivenNames x8
          split
          · with_reducible apply illegalBundle_keep (hT.sub (by decide))
            assumption
          · extract_lets +onlyGivenNames x9
            extract_lets +onlyGivenNames x10
            extract_lets +onlyGivenNames x11
            (clear_value *; split)
            · extract_lets +onlyGivenNames x12
              extract_lets +onlyGivenNames x13
              extract_lets +onlyGivenNames x14
              extract_lets +onlyGivenNames x15
              have hx15 : Keep T s0 x15 := by
                unfold x15
                with_reducible refine keep_mk hT ?_ rfl ?_
                · assumption
                · (intro p hp; cases p <;> first | rfl | (exfalso; apply hp; decide))
              clear_value x15
              with_reducible apply putQ_keep (hT.sub (by decide))
              with_reducible apply neverReplayed_keep (hT.sub (by decide))
              assumption
            · with_reducible apply mExc_keep (hT.sub (by decide))
              assumption

theorem withM_keep {T : List Part} (hT : Within [.cores] T) {s0 : State} {s : State} (c : Nat) (g : State → OpenB → Slot → State) (hs : Keep T s0 s) (hg : ∀ y0 y1 y2, Keep T s0 y0 → Keep T s0 (g y0 y1 y2)) :
    Keep T s0 (withM s c g) := by
  unfold withM
  split
  · assumption
  · split
    · assumption
    · with_reducible apply_assumption -exfalso
      with_reducible apply takeM_keep (hT.sub (by decide))
      assumption

theorem setChain_keep {T : List Part} (hT : Within [.cores] T) {s0 : State} {s : State} (c : Nat) (k : Nat) (bw : Nat) (e : Nat) (hs : Keep T s0 s) :
    Keep T s0 (setChain s c k bw e) := by
  unfold setChain
  with_reducible apply updCore_keep (hT.sub (by decide))
  · assumption
  · intro x0 h1
    with_reducible apply cupdSlot_keep
    assumption

theorem noteDenied_keep {T : List Part} (hT : Within [.cores] T) {s0 : State} {s : State} (c : Nat) (o : OpenB) (bad : Bool) (hs : Keep T s0 s) :
    Keep T s0 (noteDenied s c o bad) := by
  unfold noteDenied
  split
  · with_reducible apply mExc_keep (hT.sub (by decide))
    assumption
  · assumption

theorem underCheck_keep {T : List Part} (hT : Within [.fe, .checking] T) {s0 : State} {s : State} (c : Cmd) (d : Bytes) (hs : Keep T s0 s) :
    Keep T s0 (underCheck s c d) := by
  unfold underCheck
  extract_lets +onlyGivenNames x0
  have hx0 : Keep T s0 x0 := by
    unfold x0
    with_reducible apply updCmd_keep (hT.sub (by decide))
    assumption
  clear_value x0
  with_reducible refine keep_mk hT ?_ rfl ?_
  · assumption
  · (intro p hp; cases p <;> first | rfl | (exfalso; apply hp; decide))

theorem refuseGraph_keep {T : List Part} (hT : Within [.regs, .fe, .reqs, .graphs, .checking, .tables, .folds, .dl] T) {s0 : State} {s : State} (c : Cmd) (cores : List Nat) (code : Nat) (bundle : Nat) (st : Status) (hs : Keep T s0 s) :
    Keep T s0 (refuseGraph s c cores code bundle st) := by
  unfold refuseGraph
  extract_lets +onlyGivenNames x0
  have hx0 : Keep T s0 x0 := by
    unfold x0
    with_reducible refine keep_mk hT ?_ rfl ?_
    · assumption
    · (intro p hp; cases p <;> first | rfl | (exfalso; apply hp; decide))
  clear_value x0
  extract_lets +onlyGivenNames x1
  have hx1 : Keep T s0 x1 := by
    unfold x1
    with_reducible apply keep_foldl
    · assumption
    · intro t2 x3 h4
      with_reducible apply rset_keep (hT.sub (by decide))
      assumption
  clear_value x1
  extract_lets +onlyGivenNames x5
  have hx5 : Keep T s0 x5 := by
    unfold x5
    with_reducible apply keep_foldl
    · assumption
    · intro t6 x7 h8
      with_reducible apply cnt_keep (hT.sub (by decide))
      assumption
  clear_value x5
  with_reducible apply reject_keep (hT.sub (by decide))
  assumption

theorem installVer_keep {T : List Part} (hT : Within [.regs, .cores, .graphs] T) {s0 : State} {s : State} (d : Bytes) (num : Word) (ps : List Place) (hs : Keep T s0 s) :
    Keep T s0 (installVer s d num ps) := by
  unfold installVer
  extract_lets +onlyGivenNames x0
  extract_lets +onlyGivenNames x1
  extract_lets +onlyGivenNames x2
  have hx2 : Keep T s0 x2 := by
    unfold x2
    with_reducible refine keep_mk hT ?_ rfl ?_
    · assumption
    · (intro p hp; cases p <;> first | rfl | (exfalso; apply hp; decide))
  clear_value x2
  extract_lets +onlyGivenNames x3
  have hx3 : Keep T s0 x3 := by
    unfold x3
    with_reducible apply keep_foldl
    · assumption
    · intro t4 x5 h6
      with_reducible apply updCore_keep (hT.sub (by decide))
      · assumption
      · intro x7 h8
        with_reducible apply scrWrite_keep
        assumption
  clear_value x3
  with_reducible apply sweepVersions_keep (hT.sub (by decide))
  assumption

theorem dropIssue_keep {T : List Part} (hT : Within [.cores] T) {s0 : State} {s : State} (h : Half) (hs : Keep T s0 s) :
    Keep T s0 (dropIssue s h) := by
  unfold dropIssue
  refine keep_mk_maps hT ?_ rfl ?_ ?_ ?_
  · assumption
  · with_reducible exact Keep.folds (by assumption)
  · refine all_mmap ({} : Core) (fun x => memWf x.scratch) _ _ ?_ ?_
    · with_reducible exact Keep.cores (by assumption)
    · intro x0 h1
      with_reducible apply keepQ_keep
      assumption
  · (intro p hp; cases p <;> first | rfl | (exfalso; apply hp; decide))

theorem dropSegs_keep {T : List Part} (hT : Within [.fe] T) {s0 : State} {s : State} (h : Half) (hs : Keep T s0 s) :
    Keep T s0 (dropSegs s h) := by
  unfold dropSegs
  with_reducible refine keep_mk hT ?_ rfl ?_
  · assumption
  · (intro p hp; cases p <;> first | rfl | (exfalso; apply hp; decide))

theorem freeSlot_keep {T : List Part} (hT : Within [.regs, .cores, .xl] T) {s0 : State} {s : State} (c : Nat) (k : Nat) (hs : Keep T s0 s) :
    Keep T s0 (freeSlot s c k) := by
  unfold freeSlot
  extract_lets +onlyGivenNames x0
  have hx0 : Keep T s0 x0 := by
    unfold x0
    with_reducible apply keep_foldl
    · assumption
    · intro t1 x2 h3
      with_reducible apply setRegion_keep (hT.sub (by decide))
      assumption
  clear_value x0
  extract_lets +onlyGivenNames x4
  have hx4 : Keep T s0 x4 := by
    unfold x4
    with_reducible apply updCore_keep (hT.sub (by decide))
    · assumption
    · intro x5 h6
      extract_lets +onlyGivenNames x7
      have hx7 : memWf (Core.scratch x7) = true := by
        unfold x7
        with_reducible apply csetSlot_keep
        assumption
      clear_value x7
      dsimp -zeta only
      assumption
  clear_value x4
  split
  · with_reducible apply chooseRun_keep (hT.sub (by decide))
    with_reducible apply updCore_keep (hT.sub (by decide))
    · assumption
    · intro x8 h9
      with_reducible apply clearMav_keep
      assumption
  · assumption

theorem toReplay_keep {T : List Part} (hT : Within [.regs, .fe, .reqs, .cores, .folds, .xl] T) {s0 : State} {s : State} (r : Req) (hs : Keep T s0 s) :
    Keep T s0 (toReplay s r) := by
  unfold toReplay
  extract_lets +onlyGivenNames x0
  have hx0 : Keep T s0 x0 := by
    unfold x0
    with_reducible apply dropIssue_keep (hT.sub (by decide))
    with_reducible apply dropSegs_keep (hT.sub (by decide))
    with_reducible apply drainReq_keep (hT.sub (by decide))
    assumption
  clear_value x0
  extract_lets +onlyGivenNames x1
  have hx1 : Keep T s0 x1 := by
    unfold x1
    with_reducible apply updReq_keep (hT.sub (by decide))
    assumption
  clear_value x1
  with_reducible apply freeSlot_keep (hT.sub (by decide))
  assumption

theorem writeTally_keep {T : List Part} (hT : Within [.fe] T) {s0 : State} {s : State} (r : Req) (off : Nat) (st : Status) (hs : Keep T s0 s) :
    Keep T s0 (writeTally s r off st).1 := by
  unfold writeTally
  split
  · dsimp -zeta only
    assumption
  · split
    · dsimp -zeta only
      assumption
    · split
      · dsimp -zeta only
        assumption
      · extract_lets +onlyGivenNames x0
        extract_lets +onlyGivenNames x1
        have hx1 : Keep T s0 x1 := by
          unfold x1
          with_reducible apply newXfer_keep (hT.sub (by decide))
          assumption
        clear_value x1
        dsimp -zeta only
        with_reducible apply updCmd_keep (hT.sub (by decide))
        assumption

theorem noteReplay_keep {T : List Part} (hT : Within [.regs, .ig] T) {s0 : State} {s : State} (r : Req) (st : Status) (hs : Keep T s0 s) :
    Keep T s0 (noteReplay s r st) := by
  unfold noteReplay
  split
  · assumption
  · extract_lets +onlyGivenNames x0
    extract_lets +onlyGivenNames x1
    have hx1 : Keep T s0 x1 := by
      unfold x1
      with_reducible apply logEv_keep (hT.sub (by decide))
      assumption
    clear_value x1
    split
    · with_reducible apply cnt_keep (hT.sub (by decide))
      assumption
    · assumption

theorem endNow_keep {T : List Part} (hT : Within [.regs, .fe, .reqs, .cores, .graphs, .tables, .folds, .xl, .dl, .ig] T) {s0 : State} {s : State} (h : Half) (byEnd : Bool) (hs : Keep T s0 s) :
    Keep T s0 (endNow s h byEnd) := by
  unfold endNow
  split
  · assumption
  · extract_lets +onlyGivenNames x0
    split
    · with_reducible apply toReplay_keep (hT.sub (by decide))
      assumption
    · extract_lets +onlyGivenNames x1
      extract_lets +onlyGivenNames x2
      extract_lets +onlyGivenNames x3
      have hx3 : Keep T s0 x3.1 := by
        unfold x3
        with_reducible apply writeTally_keep (hT.sub (by decide))
        assumption
      clear_value x3
      extract_lets +onlyGivenNames x4
      have hx4 : Keep T s0 x4 := by
        unfold x4
        with_reducible apply noteReplay_keep (hT.sub (by decide))
        assumption
      clear_value x4
      extract_lets +onlyGivenNames x5
      have hx5 : Keep T s0 x5 := by
        unfold x5
        with_reducible apply endColls_keep (hT.sub (by decide))
        with_reducible apply dropIssue_keep (hT.sub (by decide))
        with_reducible apply dropSegs_keep (hT.sub (by decide))
        with_reducible apply drainReq_keep (hT.sub (by decide))
        assumption
      clear_value x5
      extract_lets +onlyGivenNames x6
      have hx6 : Keep T s0 x6 := by
        unfold x6
        split
        · assumption
        · with_reducible apply cnt_keep (hT.sub (by decide))
          assumption
      clear_value x6
      extract_lets +onlyGivenNames x7
      have hx7 : Keep T s0 x7 := by
        unfold x7
        with_reducible apply freeSlot_keep (hT.sub (by decide))
        assumption
      clear_value x7
      extract_lets +onlyGivenNames x8
      have hx8 : Keep T s0 x8 := by
        unfold x8
        with_reducible apply updReq_keep (hT.sub (by decide))
        assumption
      clear_value x8
      with_reducible apply settle_keep (hT.sub (by decide))
      with_reducible apply sweepVersions_keep (hT.sub (by decide))
      with_reducible apply finish_keep (hT.sub (by decide))
      assumption

theorem launchEnds_keep {T : List Part} (hT : Within [.regs, .fe, .reqs, .cores, .graphs, .tables, .folds, .xl, .dl, .ig, .pc] T) {s0 : State} {s : State} (h : Half) (hs : Keep T s0 s) :
    Keep T s0 (launchEnds s h) := by
  unfold launchEnds
  split
  · assumption
  · split
    · assumption
    · extract_lets +onlyGivenNames x0
      extract_lets +onlyGivenNames x1
      have hx1 : Keep T s0 x1 := by
        unfold x1
        split
        · with_reducible apply closeB_keep (hT.sub (by decide))
          assumption
        · assumption
      clear_value x1
      split
      · assumption
      · extract_lets +onlyGivenNames x2
        extract_lets +onlyGivenNames x3
        with_reducible apply endNow_keep (hT.sub (by decide))
        with_reducible apply finishOwn_keep (hT.sub (by decide))
        with_reducible apply closeOwn_keep (hT.sub (by decide))
        assumption

theorem bindCtxs_keep {T : List Part} (hT : Within [.folds] T) {s0 : State} {s : State} (h : Half) (folds : List Nat) (n : Nat) (hs : Keep T s0 s) :
    ∀ t, bindCtxs s h folds n = some t → Keep T s0 t.1 := by
  unfold bindCtxs
  split
  · with_reducible exact keep_none_pair
  · with_reducible apply keep_pure_pair
    with_reducible apply keep_foldl
    · assumption
    · intro t0 x1 h2
      with_reducible apply updFold_keep (hT.sub (by decide))
      · assumption
      · intro x3 h4
        with_reducible refine foldl_keep (fun m => Fold.canonical m = true) _ _ _ ?_ ?_
        · with_reducible assumption
        · intro x5 x6 h7
          with_reducible apply setCtx_keep
          with_reducible assumption

theorem bindEach_keep {T : List Part} (hT : Within [.folds] T) {s0 : State} {s : State} (c : Cmd) (h : Half) (l : List Nat) (hs : Keep T s0 s) :
    ∀ t, bindEach s c h l = some t → Keep T s0 t.1 := by
  induction l generalizing s with
  | nil => unfold bindEach; exact keep_pure_pair hs
  | cons x l ih =>
    unfold bindEach
    split
    · exact keep_none_pair
    · intro t ht
      rw [Option.map_eq_some_iff] at ht
      obtain ⟨u, hu, rfl⟩ := ht
      exact ih (bindCtxs_keep (hT.sub (by decide)) h _ 1 hs _ ‹_›) u hu

theorem endLookup_keep {T : List Part} (hT : Within [.regs, .fe, .reqs, .graphs, .tables, .folds, .dl] T) {s0 : State} {s : State} (r : Req) (hs : Keep T s0 s) :
    Keep T s0 (endLookup s r) := by
  unfold endLookup
  split
  · assumption
  · extract_lets +onlyGivenNames x0
    extract_lets +onlyGivenNames x1
    have hx1 : Keep T s0 x1 := by
      unfold x1
      with_reducible apply updReq_keep (hT.sub (by decide))
      assumption
    clear_value x1
    extract_lets +onlyGivenNames x2
    have hx2 : Keep T s0 x2.1 := by
      unfold x2
      with_reducible apply writeTally_keep (hT.sub (by decide))
      assumption
    clear_value x2
    with_reducible apply finish_keep (hT.sub (by decide))
    with_reducible apply drainCtx_keep (hT.sub (by decide))
    assumption

theorem fillSlot_keep {T : List Part} (hT : Within [.fe, .nextOrder, .cores, .xl] T) {s0 : State} {s : State} (c : Cmd) (v : Version) (r : Req) (hs : Keep T s0 s) :
    Keep T s0 (fillSlot s c v r) := by
  unfold fillSlot
  extract_lets +onlyGivenNames x0
  extract_lets +onlyGivenNames x1
  extract_lets +onlyGivenNames x2
  extract_lets +onlyGivenNames x3
  extract_lets +onlyGivenNames x4
  extract_lets +onlyGivenNames x5
  have hx5 : Keep T s0 x5 := by
    unfold x5
    with_reducible apply updCore_keep (hT.sub (by decide))
    · assumption
    · intro x6 h7
      with_reducible apply csetSlot_keep
      assumption
  clear_value x5
  extract_lets +onlyGivenNames x8
  have hx8 : Keep T s0 x8 := by
    unfold x8
    with_reducible refine keep_mk hT ?_ rfl ?_
    · assumption
    · (intro p hp; cases p <;> first | rfl | (exfalso; apply hp; decide))
  clear_value x8
  extract_lets +onlyGivenNames x9
  have hx9 : Keep T s0 x9 := by
    unfold x9
    with_reducible apply keep_foldl
    · assumption
    · intro t10 x11 h12
      split
      with_reducible apply setRegion_keep (hT.sub (by decide))
      assumption
  clear_value x9
  with_reducible apply keep_foldl
  · assumption
  · intro t13 x14 h15
    extract_lets +onlyGivenNames x16
    extract_lets +onlyGivenNames x17
    split
    · with_reducible apply newXfer_keep (hT.sub (by decide))
      assumption
    · with_reducible apply newXfer_keep (hT.sub (by decide))
      assumption

theorem admitLaunch_keep {T : List Part} (hT : Within [.regs, .fe, .reqs, .nextHandle, .lastCore, .nextOrder, .cores, .tables, .folds, .xl] T) {s0 : State} {s : State} (c : Cmd) (v : Version) (pins : List (BitVec 12 × Word)) (k : Nat) (slot : Nat) (base : Nat) (hs : Keep T s0 s) :
    ∀ t, admitLaunch s c v pins k slot base = some t → Keep T s0 t := by
  unfold admitLaunch
  extract_lets +onlyGivenNames x0
  extract_lets +onlyGivenNames x1
  have hx1 : Keep T s0 x1.2 := by
    unfold x1
    with_reducible apply takeHandle_keep (hT.sub (by decide))
    assumption
  clear_value x1
  extract_lets +onlyGivenNames x2
  extract_lets +onlyGivenNames x3
  have hx3 : Keep T s0 x3 := by
    unfold x3
    assumption
  clear_value x3
  extract_lets +onlyGivenNames x4
  split
  · with_reducible exact keep_none
  · extract_lets +onlyGivenNames x5
    extract_lets +onlyGivenNames x6
    have hx6 : Keep T s0 x6 := by
      unfold x6
      with_reducible apply keep_foldl
      · with_reducible refine keep_some_pair (by assumption) ?_
        with_reducible apply bindCtxs_keep (hT.sub (by decide))
        assumption
      · intro t7 x8 h9
        split
        with_reducible apply pinNum_keep (hT.sub (by decide))
        assumption
    clear_value x6
    extract_lets +onlyGivenNames x10
    extract_lets +onlyGivenNames x11
    have hx11 : Keep T s0 x11 := by
      unfold x11
      with_reducible refine keep_mk hT ?_ rfl ?_
      · assumption
      · (intro p hp; cases p <;> first | rfl | (exfalso; apply hp; decide))
    clear_value x11
    extract_lets +onlyGivenNames x12
    have hx12 : Keep T s0 x12 := by
      unfold x12
      with_reducible apply keep_foldl
      · assumption
      · intro t13 x14 h15
        split
        with_reducible apply unpin_keep (hT.sub (by decide))
        assumption
    clear_value x12
    extract_lets +onlyGivenNames x16
    have hx16 : Keep T s0 x16 := by
      unfold x16
      with_reducible apply updCmd_keep (hT.sub (by decide))
      assumption
    clear_value x16
    extract_lets +onlyGivenNames x17
    have hx17 : Keep T s0 x17 := by
      unfold x17
      with_reducible apply updCore_keep (hT.sub (by decide))
      · assumption
      · intro x18 h19
        with_reducible apply cupdSlot_keep
        assumption
    clear_value x17
    extract_lets +onlyGivenNames x20
    have hx20 : Keep T s0 x20 := by
      unfold x20
      with_reducible apply fillSlot_keep (hT.sub (by decide))
      assumption
    clear_value x20
    extract_lets +onlyGivenNames x21
    have hx21 : Keep T s0 x21 := by
      unfold x21
      with_reducible apply cnt_keep (hT.sub (by decide))
      assumption
    clear_value x21
    with_reducible apply keep_pure
    split
    · with_reducible apply cnt_keep (hT.sub (by decide))
      assumption
    · assumption

theorem askPins_keep {T : List Part} (hT : Within [.regs, .fe, .reqs, .graphs, .tables, .folds, .dl] T) {s0 : State} {s : State} (c : Cmd) (tids : List Nat) (hs : Keep T s0 s) :
    Keep T s0 (askPins s c tids) := by
  unfold askPins
  extract_lets +onlyGivenNames x0
  split
  · with_reducible apply finish_keep (hT.sub (by decide))
    assumption
  · split
    · with_reducible apply reject_keep (hT.sub (by decide))
      assumption
    · split
      · with_reducible apply finish_keep (hT.sub (by decide))
        assumption
      · extract_lets +onlyGivenNames x1
        have hx1 : Keep T s0 x1 := by
          unfold x1
          with_reducible apply updCmd_keep (hT.sub (by decide))
          assumption
        clear_value x1
        with_reducible apply droveSend_keep (hT.sub (by decide))
        assumption

theorem bumpOf_keep {T : List Part} (hT : Within [.regs, .cores] T) {s0 : State} {s : State} (h : Half) (n : Nat) (hs : Keep T s0 s) :
    Keep T s0 (bumpOf s h n) := by
  unfold bumpOf
  split
  · split
    · assumption
    · with_reducible apply bumpCtr_keep (hT.sub (by decide))
      assumption
  · assumption

theorem sendPrograms_keep {T : List Part} (hT : Within [.fe] T) {s0 : State} {s : State} (c : Cmd) (r : Req) (ctxs : List (Nat × Map (List Nat))) (hs : Keep T s0 s) :
    Keep T s0 (sendPrograms s c r ctxs) := by
  unfold sendPrograms
  with_reducible refine foldl_keep (fun p => Keep T s0 (Prod.fst p)) _ _ _ ?_ ?_
  · dsimp -zeta only
    assumption
  · intro x0 x1 h2
    extract_lets +onlyGivenNames x3
    extract_lets +onlyGivenNames x4
    extract_lets +onlyGivenNames x5
    extract_lets +onlyGivenNames x6
    extract_lets +onlyGivenNames x7
    have hx7 : Keep T s0 x7.1 := by
      unfold x7
      with_reducible refine foldl_keep (fun p => Keep T s0 (Prod.fst p)) _ _ _ ?_ ?_
      · assumption
      · intro x8 x9 h10
        extract_lets +onlyGivenNames x11
        have hx11 : Keep T s0 x11 := by
          unfold x11
          split
          · assumption
          · with_reducible apply emit_keep
            assumption
        clear_value x11
        extract_lets +onlyGivenNames x12
        extract_lets +onlyGivenNames x13
        dsimp -zeta only
        with_reducible apply emit_keep
        assumption
    clear_value x7
    split
    · assumption
    · dsimp -zeta only
      with_reducible apply newXfer_keep (hT.sub (by decide))
      assumption

end Sys2Proof.Machine
end

