-- ==== Sys2Proof/Laws/KeepLink.lean ====
section
/-! SUPPORT. `Keep` holds after each operation of links, groups and pairs, where it held before. -/

namespace Sys2Proof.Machine

theorem sendNak_keep {T : List Part} (hT : Within [.regs] T) {s0 : State} {s : State} (l : Nat) (hs : Keep T s0 s) :
    Keep T s0 (sendNak s l) := by
  unfold sendNak
  extract_lets +onlyGivenNames x0
  with_reducible apply emit_keep
  with_reducible apply cnt_keep (hT.sub (by decide))
  assumption

theorem comeUp_keep {T : List Part} (hT : Within [.regs, .dl] T) {s0 : State} {s : State} (l : Nat) (hs : Keep T s0 s) :
    Keep T s0 (comeUp s l) := by
  unfold comeUp
  extract_lets +onlyGivenNames x0
  extract_lets +onlyGivenNames x1
  split
  · assumption
  · split
    · with_reducible apply rsetF_keep (hT.sub (by decide))
      assumption
    · with_reducible apply drainFlits_keep (hT.sub (by decide))
      with_reducible apply setLink_keep (hT.sub (by decide))
      assumption

theorem wrRetrain_keep {T : List Part} (hT : Within [.dl] T) {s0 : State} {s : State} (a : Acc) (v : Word) (hs : Keep T s0 s) :
    Keep T s0 (wrRetrain s a v) := by
  unfold wrRetrain
  extract_lets +onlyGivenNames x0
  split
  · assumption
  · extract_lets +onlyGivenNames x1
    split
    · with_reducible apply setLink_keep (hT.sub (by decide))
      assumption
    · assumption

theorem leaveUp_keep {T : List Part} (hT : Within [.regs, .fe, .reqs, .cores, .graphs, .tables, .folds, .dl] T) {s0 : State} {s : State} (l : Nat) (st : LinkSt) (hs : Keep T s0 s) :
    Keep T s0 (leaveUp s l st) := by
  unfold leaveUp
  extract_lets +onlyGivenNames x0
  split
  · with_reducible apply setLink_keep (hT.sub (by decide))
    assumption
  · extract_lets +onlyGivenNames x1
    have hx1 : Keep T s0 x1 := by
      unfold x1
      with_reducible apply setLink_keep (hT.sub (by decide))
      assumption
    clear_value x1
    with_reducible apply cutRoutes_keep (hT.sub (by decide))
    with_reducible apply drainFlits_keep (hT.sub (by decide))
    with_reducible apply cnt_keep (hT.sub (by decide))
    assumption

theorem wrLinkEnable_keep {T : List Part} (hT : Within [.regs, .fe, .reqs, .cores, .graphs, .tables, .folds, .dl, .ig] T) {s0 : State} {s : State} (a : Acc) (v : Word) (hs : Keep T s0 s) :
    Keep T s0 (wrLinkEnable s a v) := by
  unfold wrLinkEnable
  with_reducible apply secureOnly_keep (hT.sub (by decide))
  · assumption
  · intro t0 h1
    extract_lets +onlyGivenNames x2
    extract_lets +onlyGivenNames x3
    extract_lets +onlyGivenNames x4
    have hx4 : Keep T s0 x4 := by
      unfold x4
      with_reducible apply rsetF_keep (hT.sub (by decide))
      assumption
    clear_value x4
    extract_lets +onlyGivenNames x5
    split
    · split
      · assumption
      · with_reducible apply leaveUp_keep (hT.sub (by decide))
        assumption
    · split
      · with_reducible apply setLink_keep (hT.sub (by decide))
        assumption
      · assumption

theorem wrPartId_keep {T : List Part} (hT : Within [.regs, .dl, .ig] T) {s0 : State} {s : State} (a : Acc) (v : Word) (hs : Keep T s0 s) :
    Keep T s0 (wrPartId s a v) := by
  unfold wrPartId
  with_reducible apply secureOnly_keep (hT.sub (by decide))
  · assumption
  · intro t0 h1
    split
    · assumption
    · extract_lets +onlyGivenNames x2
      have hx2 : Keep T s0 x2 := by
        unfold x2
        with_reducible apply rsetF_keep (hT.sub (by decide))
        assumption
      clear_value x2
      with_reducible apply keep_foldl
      · assumption
      · intro t3 x4 h5
        with_reducible apply comeUp_keep (hT.sub (by decide))
        assumption

theorem resend_keep {T : List Part} (hT : Within [.regs, .fe, .reqs, .cores, .graphs, .tables, .folds, .dl] T) {s0 : State} {s : State} (l : Nat) (hs : Keep T s0 s) :
    Keep T s0 (resend s l) := by
  unfold resend
  extract_lets +onlyGivenNames x0
  split
  · assumption
  · split
    · with_reducible apply leaveUp_keep (hT.sub (by decide))
      with_reducible apply cnt_keep (hT.sub (by decide))
      assumption
    · extract_lets +onlyGivenNames x1
      have hx1 : Keep T s0 x1 := by
        unfold x1
        with_reducible apply setLink_keep (hT.sub (by decide))
        with_reducible apply cnt_keep (hT.sub (by decide))
        assumption
      clear_value x1
      with_reducible apply keep_foldl
      · assumption
      · intro t2 x3 h4
        with_reducible apply emit_keep
        with_reducible apply cnt_keep (hT.sub (by decide))
        assumption

theorem wrLinkCtl_keep {T : List Part} (hT : Within [.regs, .fe, .reqs, .cores, .graphs, .tables, .folds, .dl, .ig] T) {s0 : State} {s : State} (a : Acc) (v : Word) (hs : Keep T s0 s) :
    Keep T s0 (wrLinkCtl s a v) := by
  unfold wrLinkCtl
  with_reducible apply wrRetrain_keep (hT.sub (by decide))
  with_reducible apply wrLinkEnable_keep (hT.sub (by decide))
  assumption

theorem sendIdle_keep {T : List Part} (hT : Within [.regs] T) {s0 : State} {s : State} (l : Nat) (hs : Keep T s0 s) :
    Keep T s0 (sendIdle s l) := by
  unfold sendIdle
  extract_lets +onlyGivenNames x0
  with_reducible apply emit_keep
  with_reducible apply cnt_keep (hT.sub (by decide))
  assumption

theorem ackFlits_keep {T : List Part} (hT : Within [.regs, .dl] T) {s0 : State} {s : State} (l : Nat) (ack : BitVec 12) (hs : Keep T s0 s) :
    Keep T s0 (ackFlits s l ack) := by
  unfold ackFlits
  split
  · extract_lets +onlyGivenNames x0
    with_reducible apply drainFlits_keep (hT.sub (by decide))
    with_reducible apply countAcked_keep (hT.sub (by decide))
    with_reducible apply updLink_keep (hT.sub (by decide))
    assumption
  · assumption

theorem toLeadMirror_keep {T : List Part} (hT : Within [.regs, .dl] T) {s0 : State} {s : State} (m : Instr) (hs : Keep T s0 s) :
    Keep T s0 (toLeadMirror s m) := by
  unfold toLeadMirror
  split
  · with_reducible apply droveSend_keep (hT.sub (by decide))
    assumption
  · assumption

theorem cancelSteps_keep {T : List Part} (hT : Within [.regs, .fe, .reqs, .graphs, .tables, .folds, .dl] T) {s0 : State} {s : State} (set : List (BitVec 12 × Word)) (mismatch : Bool) (hs : Keep T s0 s) :
    Keep T s0 (cancelSteps s set mismatch) := by
  unfold cancelSteps
  extract_lets +onlyGivenNames x0
  with_reducible apply keep_foldl
  · assumption
  · intro t1 x2 h3
    extract_lets +onlyGivenNames x4
    extract_lets +onlyGivenNames x5
    have hx5 : Keep T s0 x5 := by
      unfold x5
      with_reducible refine keep_mk hT ?_ rfl ?_
      · assumption
      · (intro p hp; cases p <;> first | rfl | (exfalso; apply hp; decide))
    clear_value x5
    with_reducible apply finish_keep (hT.sub (by decide))
    assumption

theorem sendCancel_keep {T : List Part} (hT : Within [.regs, .fe, .reqs, .graphs, .tables, .folds, .dl] T) {s0 : State} {s : State} (l : List ReadyRec) (mismatch : Bool) (hs : Keep T s0 s) :
    Keep T s0 (sendCancel s l mismatch) := by
  unfold sendCancel
  extract_lets +onlyGivenNames x0
  extract_lets +onlyGivenNames x1
  extract_lets +onlyGivenNames x2
  extract_lets +onlyGivenNames x3
  have hx3 : Keep T s0 x3 := by
    unfold x3
    with_reducible refine keep_mk hT ?_ rfl ?_
    · assumption
    · (intro p hp; cases p <;> first | rfl | (exfalso; apply hp; decide))
  clear_value x3
  extract_lets +onlyGivenNames x4
  have hx4 : Keep T s0 x4 := by
    unfold x4
    with_reducible apply keep_foldl
    · assumption
    · intro t5 x6 h7
      with_reducible apply droveSend_keep (hT.sub (by decide))
      assumption
  clear_value x4
  extract_lets +onlyGivenNames x8
  have hx8 : Keep T s0 x8 := by
    unfold x8
    split
    · assumption
    · with_reducible apply toLeadMirror_keep (hT.sub (by decide))
      assumption
  clear_value x8
  split
  · with_reducible apply cnt_keep (hT.sub (by decide))
    with_reducible apply cancelSteps_keep (hT.sub (by decide))
    assumption
  · assumption

theorem dropHold_keep {T : List Part} (hT : Within [.regs, .tables, .folds] T) {s0 : State} {s : State} (tid : Nat) (n : Word) (hs : Keep T s0 s) :
    Keep T s0 (dropHold s tid n) := by
  unfold dropHold
  with_reducible apply checkPrev_keep (hT.sub (by decide))
  with_reducible apply updTable_keep (hT.sub (by decide))
  assumption

theorem waitMsg_keep {T : List Part} (hT : Within [.dl] T) {s0 : State} {s : State} (m : Instr) (hs : Keep T s0 s) :
    Keep T s0 (waitMsg s m) := by
  unfold waitMsg
  with_reducible refine keep_mk hT ?_ rfl ?_
  · assumption
  · (intro p hp; cases p <;> first | rfl | (exfalso; apply hp; decide))

theorem putGo_keep {T : List Part} (hT : Within [.regs, .fe, .cores, .folds, .np, .dl, .ig] T) {s0 : State} {s : State} (src : BitVec 12) (tag : Word) (win : BitVec 6) (off : Dword) (data : Marked) (hs : Keep T s0 s) :
    Keep T s0 (putGo s src tag win off data) := by
  unfold putGo
  split
  · split
    · with_reducible apply fmPutMarked_keep (hT.sub (by decide))
      assumption
    · with_reducible apply waitMsg_keep (hT.sub (by decide))
      assumption
  · with_reducible apply updCore_keep (hT.sub (by decide))
    · assumption
    · intro x0 h1
      with_reducible apply extPut_keep
      assumption
  · with_reducible apply droveSend_keep (hT.sub (by decide))
    with_reducible apply rwinDeny_keep (hT.sub (by decide))
    assumption

theorem resendLeader_keep {T : List Part} (hT : Within [.regs, .dl] T) {s0 : State} {s : State} (hs : Keep T s0 s) :
    Keep T s0 (resendLeader s) := by
  unfold resendLeader
  extract_lets +onlyGivenNames x0
  extract_lets +onlyGivenNames x1
  have hx1 : Keep T s0 x1 := by
    unfold x1
    with_reducible apply keep_foldl
    · assumption
    · intro t2 x3 h4
      split
      · extract_lets +onlyGivenNames x5
        with_reducible apply droveSend_keep (hT.sub (by decide))
        assumption
      · assumption
  clear_value x1
  with_reducible apply keep_foldl
  · assumption
  · intro t6 x7 h8
    with_reducible apply readyOut_keep (hT.sub (by decide))
    assumption

theorem wrGrpMember_keep {T : List Part} (hT : Within [.regs, .dl, .ig] T) {s0 : State} {s : State} (a : Acc) (v : Word) (hs : Keep T s0 s) :
    Keep T s0 (wrGrpMember s a v) := by
  unfold wrGrpMember
  with_reducible apply secureOnly_keep (hT.sub (by decide))
  · assumption
  · intro t0 h1
    extract_lets +onlyGivenNames x2
    extract_lets +onlyGivenNames x3
    extract_lets +onlyGivenNames x4
    have hx4 : Keep T s0 x4 := by
      unfold x4
      split
      · assumption
      · with_reducible apply rset_keep (hT.sub (by decide))
        assumption
    clear_value x4
    split
    · with_reducible apply resendLeader_keep (hT.sub (by decide))
      assumption
    · assumption

theorem sendRelease_keep {T : List Part} (hT : Within [.regs, .tables, .folds, .dl] T) {s0 : State} {s : State} (t : BitVec 12 × Word) (hs : Keep T s0 s) :
    Keep T s0 (sendRelease s t) := by
  unfold sendRelease
  extract_lets +onlyGivenNames x0
  have hx0 : Keep T s0 x0 := by
    unfold x0
    with_reducible apply keep_foldl
    · assumption
    · intro t1 x2 h3
      with_reducible apply droveSend_keep (hT.sub (by decide))
      assumption
  clear_value x0
  with_reducible apply dropHold_keep (hT.sub (by decide))
  assumption

theorem answerPin_keep {T : List Part} (hT : Within [.regs, .tables, .folds, .dl] T) {s0 : State} {s : State} (src : BitVec 12) (key : Word) (tids : List (BitVec 12)) (hs : Keep T s0 s) :
    Keep T s0 (answerPin s src key tids) := by
  unfold answerPin
  extract_lets +onlyGivenNames x0
  extract_lets +onlyGivenNames x1
  extract_lets +onlyGivenNames x2
  have hx2 : Keep T s0 x2 := by
    unfold x2
    with_reducible apply toLeadMirror_keep (hT.sub (by decide))
    assumption
  clear_value x2
  extract_lets +onlyGivenNames x3
  extract_lets +onlyGivenNames x4
  extract_lets +onlyGivenNames x5
  extract_lets +onlyGivenNames x6
  have hx6 : Keep T s0 x6 := by
    unfold x6
    with_reducible refine keep_mk hT ?_ rfl ?_
    · assumption
    · (intro p hp; cases p <;> first | rfl | (exfalso; apply hp; decide))
  clear_value x6
  extract_lets +onlyGivenNames x7
  have hx7 : Keep T s0 x7 := by
    unfold x7
    split
    · with_reducible apply emit_keep
      assumption
    · with_reducible apply droveSend_keep (hT.sub (by decide))
      assumption
  clear_value x7
  split
  · with_reducible apply keep_foldl
    · assumption
    · intro t8 x9 h10
      with_reducible apply sendRelease_keep (hT.sub (by decide))
      assumption
  · assumption

theorem serveWaiting_keep {T : List Part} (hT : Within [.regs, .tables, .folds, .dl] T) {s0 : State} (a0 : Nat) {a1 : State} (ha1 : Keep T s0 a1) :
    Keep T s0 (serveWaiting a0 a1) := by
  fun_induction serveWaiting a0 a1
  · assumption
  · assumption
  · with_reducible apply_assumption -exfalso
    with_reducible apply answerPin_keep (hT.sub (by decide))
    with_reducible refine keep_mk hT ?_ rfl ?_
    · assumption
    · (intro p hp; cases p <;> first | rfl | (exfalso; apply hp; decide))

theorem servePins_keep {T : List Part} (hT : Within [.regs, .tables, .folds, .dl] T) {s0 : State} {s : State} (hs : Keep T s0 s) :
    Keep T s0 (servePins s) := by
  unfold servePins
  with_reducible apply serveWaiting_keep (hT.sub (by decide))
  assumption

theorem getGo_keep {T : List Part} (hT : Within [.regs, .fe, .folds, .np, .dl, .ig] T) {s0 : State} {s : State} (src : BitVec 12) (tag : Word) (win : BitVec 6) (off : Dword) (len : Nat) (hs : Keep T s0 s) :
    Keep T s0 (getGo s src tag win off len) := by
  unfold getGo
  extract_lets +onlyGivenNames x0
  split
  · split
    · with_reducible apply waitMsg_keep (hT.sub (by decide))
      assumption
    · extract_lets +onlyGivenNames x1
      have hx1 : Keep T s0 x1.1 := by
        unfold x1
        with_reducible apply fmRead_keep (hT.sub (by decide))
        assumption
      clear_value x1
      with_reducible apply droveSend_keep (hT.sub (by decide))
      assumption
  · with_reducible apply droveSend_keep (hT.sub (by decide))
    assumption
  · with_reducible apply droveSend_keep (hT.sub (by decide))
    with_reducible apply rwinDeny_keep (hT.sub (by decide))
    assumption

theorem serveMsgs_keep {T : List Part} (hT : Within [.regs, .fe, .cores, .folds, .np, .dl, .ig] T) {s0 : State} {s : State} (hs : Keep T s0 s) :
    Keep T s0 (serveMsgs s) := by
  unfold serveMsgs
  with_reducible apply keep_foldl
  · with_reducible refine keep_mk hT ?_ rfl ?_
    · assumption
    · (intro p hp; cases p <;> first | rfl | (exfalso; apply hp; decide))
  · intro t0 x1 h2
    split
    · with_reducible apply putGo_keep (hT.sub (by decide))
      assumption
    · with_reducible apply getGo_keep (hT.sub (by decide))
      assumption
    · assumption

theorem publishStream_keep {T : List Part} (hT : Within [.regs, .tables, .folds, .dl, .ig] T) {s0 : State} {s : State} (h : Half) (roots : Nat → List Bytes) (hs : Keep T s0 s) :
    Keep T s0 (publishStream s h roots) := by
  unfold publishStream
  split
  · assumption
  · extract_lets +onlyGivenNames x0
    have hx0 : Keep T s0 x0 := by
      unfold x0
      with_reducible apply freeLogs_keep (hT.sub (by decide))
      assumption
    clear_value x0
    extract_lets +onlyGivenNames x1
    have hx1 : Keep T s0 x1 := by
      unfold x1
      with_reducible apply keep_foldl
      · assumption
      · intro t2 x3 h4
        split
        with_reducible apply publishTable_keep (hT.sub (by decide))
        assumption
    clear_value x1
    extract_lets +onlyGivenNames x5
    extract_lets +onlyGivenNames x6
    have hx6 : Keep T s0 x6 := by
      unfold x6
      with_reducible refine keep_mk hT ?_ rfl ?_
      · assumption
      · (intro p hp; cases p <;> first | rfl | (exfalso; apply hp; decide))
    clear_value x6
    with_reducible apply rset64_keep (hT.sub (by decide))
    assumption

theorem dissolveGroup_keep {T : List Part} (hT : Within [.regs, .fe, .reqs, .graphs, .tables, .folds, .dl, .ig] T) {s0 : State} {s : State} (hs : Keep T s0 s) :
    Keep T s0 (dissolveGroup s) := by
  unfold dissolveGroup
  extract_lets +onlyGivenNames x0
  extract_lets +onlyGivenNames x1
  have hx1 : Keep T s0 x1 := by
    unfold x1
    with_reducible apply rsetF_keep (hT.sub (by decide))
    with_reducible refine keep_mk hT ?_ rfl ?_
    · assumption
    · (intro p hp; cases p <;> first | rfl | (exfalso; apply hp; decide))
  clear_value x1
  extract_lets +onlyGivenNames x2
  have hx2 : Keep T s0 x2 := by
    unfold x2
    with_reducible apply keep_foldl
    · assumption
    · intro t3 x4 h5
      split
      with_reducible apply dropHold_keep (hT.sub (by decide))
      assumption
  clear_value x2
  extract_lets +onlyGivenNames x6
  have hx6 : Keep T s0 x6 := by
    unfold x6
    with_reducible apply keep_foldl
    · assumption
    · intro t7 x8 h9
      split
      · with_reducible apply publishStream_keep (hT.sub (by decide))
        assumption
      · split
        · split
          · with_reducible apply publishUpd_keep (hT.sub (by decide))
            assumption
          · with_reducible apply finish_keep (hT.sub (by decide))
            assumption
        · assumption
  clear_value x6
  extract_lets +onlyGivenNames x10
  extract_lets +onlyGivenNames x11
  have hx11 : Keep T s0 x11 := by
    unfold x11
    with_reducible refine keep_mk hT ?_ rfl ?_
    · assumption
    · (intro p hp; cases p <;> first | rfl | (exfalso; apply hp; decide))
  clear_value x11
  extract_lets +onlyGivenNames x12
  have hx12 : Keep T s0 x12 := by
    unfold x12
    with_reducible apply keep_foldl
    · assumption
    · intro t13 x14 h15
      with_reducible apply finish_keep (hT.sub (by decide))
      assumption
  clear_value x12
  with_reducible apply keep_foldl
  · assumption
  · intro t16 x17 h18
    with_reducible apply wantEnd_keep (hT.sub (by decide))
    assumption

theorem applyGo_keep {T : List Part} (hT : Within [.regs, .fe, .reqs, .graphs, .tables, .folds, .dl, .ig] T) {s0 : State} {s : State} (set : List (BitVec 12 × Word)) (roots : List (BitVec 12 × List Bytes)) (hs : Keep T s0 s) :
    Keep T s0 (applyGo s set roots) := by
  unfold applyGo
  extract_lets +onlyGivenNames x0
  extract_lets +onlyGivenNames x1
  extract_lets +onlyGivenNames x2
  have hx2 : Keep T s0 x2 := by
    unfold x2
    with_reducible apply cnt_keep (hT.sub (by decide))
    assumption
  clear_value x2
  extract_lets +onlyGivenNames x3
  extract_lets +onlyGivenNames x4
  have hx4 : Keep T s0 x4 := by
    unfold x4
    with_reducible refine keep_mk hT ?_ rfl ?_
    · assumption
    · (intro p hp; cases p <;> first | rfl | (exfalso; apply hp; decide))
  clear_value x4
  with_reducible apply keep_foldl
  · assumption
  · intro t5 x6 h7
    split
    · with_reducible apply publishStream_keep (hT.sub (by decide))
      assumption
    · split
      · split
        · with_reducible apply publishUpd_keep (hT.sub (by decide))
          assumption
        · with_reducible apply commitNow_keep (hT.sub (by decide))
          assumption
      · assumption

theorem sendGo_keep {T : List Part} (hT : Within [.regs, .fe, .reqs, .graphs, .tables, .folds, .dl, .ig] T) {s0 : State} {s : State} (l : List ReadyRec) (hs : Keep T s0 s) :
    Keep T s0 (sendGo s l) := by
  unfold sendGo
  extract_lets +onlyGivenNames x0
  extract_lets +onlyGivenNames x1
  extract_lets +onlyGivenNames x2
  have hx2 : Keep T s0 x2 := by
    unfold x2
    with_reducible apply keep_foldl
    · assumption
    · intro t3 x4 h5
      with_reducible apply droveSend_keep (hT.sub (by decide))
      assumption
  clear_value x2
  extract_lets +onlyGivenNames x6
  have hx6 : Keep T s0 x6 := by
    unfold x6
    with_reducible apply applyGo_keep (hT.sub (by decide))
    assumption
  clear_value x6
  with_reducible apply keep_foldl
  · assumption
  · intro t7 x8 h9
    with_reducible apply sendRelease_keep (hT.sub (by decide))
    assumption

theorem wrGrpCtl_keep {T : List Part} (hT : Within [.regs, .fe, .reqs, .graphs, .tables, .folds, .dl, .ig] T) {s0 : State} {s : State} (a : Acc) (v : Word) (hs : Keep T s0 s) :
    Keep T s0 (wrGrpCtl s a v) := by
  unfold wrGrpCtl
  with_reducible apply secureOnly_keep (hT.sub (by decide))
  · assumption
  · intro t0 h1
    extract_lets +onlyGivenNames x2
    have hx2 : Keep T s0 x2 := by
      unfold x2
      split
      · with_reducible apply dissolveGroup_keep (hT.sub (by decide))
        assumption
      · assumption
    clear_value x2
    split
    · assumption
    · extract_lets +onlyGivenNames x3
      have hx3 : Keep T s0 x3 := by
        unfold x3
        with_reducible apply rsetF_keep (hT.sub (by decide))
        assumption
      clear_value x3
      split
      · with_reducible refine keep_mk hT ?_ rfl ?_
        · assumption
        · (intro p hp; cases p <;> first | rfl | (exfalso; apply hp; decide))
      · assumption

theorem pairRow_keep {T : List Part} (hT : Within [.regs, .fe, .reqs, .graphs, .tables, .folds, .dl] T) {s0 : State} (n : Word) (act : Nat) (go : State → Cmd → State) {s : State} (hgo : ∀ y0 y1, Keep T s0 y0 → Keep T s0 (go y0 y1)) (hs : Keep T s0 s) :
    Keep T s0 (pairRow n act go s) := by
  unfold pairRow
  split
  · assumption
  · split
    · split
      · with_reducible apply own_keep (hT.sub (by decide))
        · intro t0 x1 h2
          with_reducible apply_assumption -exfalso
          with_reducible apply arrive_keep (hT.sub (by decide))
          assumption
        · intro t3 x4 h5
          with_reducible apply noLanded_keep (hT.sub (by decide))
          assumption
        · assumption
      · assumption
    · split
      · with_reducible apply own_keep (hT.sub (by decide))
        · intro t6 x7 h8
          with_reducible apply reject_keep (hT.sub (by decide))
          assumption
        · intro t9 x10 h11
          with_reducible apply noLanded_keep (hT.sub (by decide))
          assumption
        · assumption
      · assumption

theorem hbTick_keep {T : List Part} (hT : Within [.regs, .dl] T) {s0 : State} {s : State} (hs : Keep T s0 s) :
    Keep T s0 (hbTick s) := by
  unfold hbTick
  split
  · assumption
  · split
    · with_reducible refine keep_mk hT ?_ rfl ?_
      · assumption
      · (intro p hp; cases p <;> first | rfl | (exfalso; apply hp; decide))
    · with_reducible apply cnt_keep (hT.sub (by decide))
      with_reducible refine keep_mk hT ?_ rfl ?_
      · assumption
      · (intro p hp; cases p <;> first | rfl | (exfalso; apply hp; decide))

theorem rollStream_keep {T : List Part} (hT : Within [.regs, .tables, .folds, .dl, .ig] T) {s0 : State} {s : State} (t : StreamRec) (hs : Keep T s0 s) :
    Keep T s0 (rollStream s t) := by
  unfold rollStream
  split
  · assumption
  · extract_lets +onlyGivenNames x0
    have hx0 : Keep T s0 x0.1 := by
      unfold x0
      with_reducible apply rollAll_keep (hT.sub (by decide))
      assumption
    clear_value x0
    split
    · assumption
    · extract_lets +onlyGivenNames x1
      have hx1 : Keep T s0 x1 := by
        unfold x1
        with_reducible apply keep_foldl
        · assumption
        · intro t2 x3 h4
          split
          with_reducible apply rehash_keep (hT.sub (by decide))
          assumption
      clear_value x1
      extract_lets +onlyGivenNames x5
      split
      · with_reducible apply publishStream_keep (hT.sub (by decide))
        assumption
      · split
        · assumption
        · with_reducible apply sendReady_keep (hT.sub (by decide))
          assumption

theorem rollStreams_keep {T : List Part} (hT : Within [.regs, .tables, .folds, .dl, .ig] T) {s0 : State} {s : State} (hs : Keep T s0 s) :
    Keep T s0 (rollStreams s) := by
  unfold rollStreams
  with_reducible apply keep_foldl
  · assumption
  · intro t0 x1 h2
    with_reducible apply rollStream_keep (hT.sub (by decide))
    assumption

theorem toPartner_keep {T : List Part} (hT : Within [.regs, .dl] T) {s0 : State} {s : State} (m : Instr) (hs : Keep T s0 s) :
    Keep T s0 (toPartner s m) := by
  unfold toPartner
  with_reducible apply droveSend_keep (hT.sub (by decide))
  assumption

theorem pairEnd_keep {T : List Part} (hT : Within [.regs, .fe, .reqs, .graphs, .tables, .folds, .dl] T) {s0 : State} {s : State} (st : Status) (hs : Keep T s0 s) :
    Keep T s0 (pairEnd s st) := by
  unfold pairEnd
  extract_lets +onlyGivenNames x0
  extract_lets +onlyGivenNames x1
  have hx1 : Keep T s0 x1 := by
    unfold x1
    with_reducible refine keep_mk hT ?_ rfl ?_
    · assumption
    · (intro p hp; cases p <;> first | rfl | (exfalso; apply hp; decide))
  clear_value x1
  split
  · with_reducible apply finish_keep (hT.sub (by decide))
    assumption
  · assumption

theorem formDone_keep {T : List Part} (hT : Within [.regs, .fe, .reqs, .graphs, .tables, .folds, .dl] T) {s0 : State} {s : State} (tid : BitVec 12) (hs : Keep T s0 s) :
    Keep T s0 (formDone s tid) := by
  unfold formDone
  extract_lets +onlyGivenNames x0
  have hx0 : Keep T s0 x0 := by
    unfold x0
    with_reducible apply updTable_keep (hT.sub (by decide))
    assumption
  clear_value x0
  extract_lets +onlyGivenNames x1
  extract_lets +onlyGivenNames x2
  have hx2 : Keep T s0 x2 := by
    unfold x2
    with_reducible refine keep_mk hT ?_ rfl ?_
    · assumption
    · (intro p hp; cases p <;> first | rfl | (exfalso; apply hp; decide))
  clear_value x2
  split
  · extract_lets +onlyGivenNames x3
    extract_lets +onlyGivenNames x4
    have hx4 : Keep T s0 x4 := by
      unfold x4
      with_reducible refine keep_mk hT ?_ rfl ?_
      · assumption
      · (intro p hp; cases p <;> first | rfl | (exfalso; apply hp; decide))
    clear_value x4
    with_reducible apply pairEnd_keep (hT.sub (by decide))
    split
    · with_reducible apply keep_foldl
      · assumption
      · intro t5 x6 h7
        with_reducible apply readyOut_keep (hT.sub (by decide))
        assumption
    · assumption
  · assumption

theorem dropStream_keep {T : List Part} (hT : Within [.folds, .dl] T) {s0 : State} {s : State} (h : Half) (hs : Keep T s0 s) :
    Keep T s0 (dropStream s h) := by
  unfold dropStream
  refine keep_mk_maps hT ?_ rfl ?_ ?_ ?_
  · assumption
  · refine all_mmap ({} : Fold) Fold.canonical _ _ ?_ ?_
    · with_reducible exact Keep.folds (by assumption)
    · intro x0 h1
      exact canonical_of (fold_pasture (by assumption)) (fold_pen (by assumption))
  · with_reducible exact Keep.cores (by assumption)
  · (intro p hp; cases p <;> first | rfl | (exfalso; apply hp; decide))

theorem dropStreams_keep {T : List Part} (hT : Within [.folds, .dl] T) {s0 : State} {s : State} (hs : Keep T s0 s) :
    Keep T s0 (dropStreams s) := by
  unfold dropStreams
  with_reducible apply keep_foldl
  · assumption
  · intro t0 x1 h2
    with_reducible apply dropStream_keep (hT.sub (by decide))
    assumption

theorem leavePair_keep {T : List Part} (hT : Within [.regs, .fe, .reqs, .graphs, .tables, .folds, .dl] T) {s0 : State} {s : State} (hs : Keep T s0 s) :
    Keep T s0 (leavePair s) := by
  unfold leavePair
  extract_lets +onlyGivenNames x0
  have hx0 : Keep T s0 x0 := by
    unfold x0
    with_reducible apply pairEnd_keep (hT.sub (by decide))
    with_reducible apply dropStreams_keep (hT.sub (by decide))
    assumption
  clear_value x0
  with_reducible refine keep_mk hT ?_ rfl ?_
  · assumption
  · (intro p hp; cases p <;> first | rfl | (exfalso; apply hp; decide))

theorem formFail_keep {T : List Part} (hT : Within [.regs, .fe, .reqs, .graphs, .tables, .folds, .dl] T) {s0 : State} {s : State} (tid : BitVec 12) (hs : Keep T s0 s) :
    Keep T s0 (formFail s tid) := by
  unfold formFail
  extract_lets +onlyGivenNames x0
  have hx0 : Keep T s0 x0 := by
    unfold x0
    with_reducible apply diverge_keep (hT.sub (by decide))
    assumption
  clear_value x0
  extract_lets +onlyGivenNames x1
  extract_lets +onlyGivenNames x2
  extract_lets +onlyGivenNames x3
  have hx3 : Keep T s0 x3 := by
    unfold x3
    with_reducible refine keep_mk hT ?_ rfl ?_
    · assumption
    · (intro p hp; cases p <;> first | rfl | (exfalso; apply hp; decide))
  clear_value x3
  extract_lets +onlyGivenNames x4
  have hx4 : Keep T s0 x4 := by
    unfold x4
    with_reducible apply pairEnd_keep (hT.sub (by decide))
    assumption
  clear_value x4
  split
  · with_reducible apply leavePair_keep (hT.sub (by decide))
    assumption
  · assumption

theorem formPublish_keep {T : List Part} (hT : Within [.regs, .fe, .reqs, .graphs, .tables, .folds, .dl, .ig] T) {s0 : State} {s : State} (tid : BitVec 12) (hs : Keep T s0 s) :
    Keep T s0 (formPublish s tid) := by
  unfold formPublish
  extract_lets +onlyGivenNames x0
  split
  · split
    · assumption
    · split
      · assumption
      · extract_lets +onlyGivenNames x1
        extract_lets +onlyGivenNames x2
        have hx2 : Keep T s0 x2 := by
          unfold x2
          with_reducible apply publish_keep (hT.sub (by decide))
          assumption
        clear_value x2
        extract_lets +onlyGivenNames x3
        have hx3 : Keep T s0 x3 := by
          unfold x3
          with_reducible apply updTable_keep (hT.sub (by decide))
          assumption
        clear_value x3
        split
        · assumption
        · extract_lets +onlyGivenNames x4
          have hx4 : Keep T s0 x4 := by
            unfold x4
            with_reducible apply toPartner_keep (hT.sub (by decide))
            assumption
          clear_value x4
          split
          · with_reducible apply formDone_keep (hT.sub (by decide))
            assumption
          · with_reducible apply formFail_keep (hT.sub (by decide))
            assumption
  · assumption

theorem updForm_keep {T : List Part} (hT : Within [.dl] T) {s0 : State} {s : State} (tid : BitVec 12) (g : FormRec → FormRec) (hs : Keep T s0 s) :
    Keep T s0 (updForm s tid g) := by
  unfold updForm
  with_reducible refine keep_mk hT ?_ rfl ?_
  · assumption
  · (intro p hp; cases p <;> first | rfl | (exfalso; apply hp; decide))

theorem formFold_keep {T : List Part} (hT : Within [.regs, .folds, .ig] T) {s0 : State} {s : State} (im : Image) (tid : Nat) (img : Bool) (o : Nat) (f : Nat) (hs : Keep T s0 s) :
    Keep T s0 (formFold s im tid img o f).1 := by
  unfold formFold
  split
  · dsimp -zeta only
    assumption
  · extract_lets +onlyGivenNames x0
    have hx0 : Keep T s0 x0.1 := by
      unfold x0
      with_reducible refine foldl_keep (fun p => Keep T s0 (Prod.fst p)) _ _ _ ?_ ?_
      · dsimp -zeta only
        assumption
      · intro x1 x2 h3
        extract_lets +onlyGivenNames x4
        have hx4 : Keep T s0 x4.1 := by
          unfold x4
          with_reducible apply lateRow_keep (hT.sub (by decide))
          assumption
        clear_value x4
        dsimp -zeta only
        assumption
    clear_value x0
    extract_lets +onlyGivenNames x5
    have hx5 : Keep T s0 x5 := by
      unfold x5
      with_reducible apply keep_foldl
      · assumption
      · intro t6 x7 h8
        with_reducible apply carryChange_keep (hT.sub (by decide))
        assumption
    clear_value x5
    split
    · dsimp -zeta only
      assumption
    · extract_lets +onlyGivenNames x9
      dsimp -zeta only
      with_reducible apply keep_foldl
      · assumption
      · intro t10 x11 h12
        with_reducible apply dropRow_keep (hT.sub (by decide))
        assumption

theorem publishOpen_keep {T : List Part} (hT : Within [.regs, .tables, .folds, .ig] T) {s0 : State} {s : State} (tid : Nat) (hs : Keep T s0 s) :
    Keep T s0 (publishOpen s tid) := by
  unfold publishOpen
  extract_lets +onlyGivenNames x0
  extract_lets +onlyGivenNames x1
  extract_lets +onlyGivenNames x2
  have hx2 : Keep T s0 x2 := by
    unfold x2
    with_reducible apply publish_keep (hT.sub (by decide))
    with_reducible apply updTable_keep (hT.sub (by decide))
    assumption
  clear_value x2
  with_reducible apply updTable_keep (hT.sub (by decide))
  assumption

theorem sendBulk_keep {T : List Part} (hT : Within [.regs, .folds, .dl, .ig] T) {s0 : State} {s : State} (im : Image) (tid : Nat) (img : Bool) (e : Epoch) (hs : Keep T s0 s) :
    Keep T s0 (sendBulk s im tid img e) := by
  unfold sendBulk
  extract_lets +onlyGivenNames x0
  extract_lets +onlyGivenNames x1
  extract_lets +onlyGivenNames x2
  have hx2 : Keep T s0 x2 := by
    unfold x2
    with_reducible apply keep_foldl
    · assumption
    · intro t3 x4 h5
      with_reducible apply toPartner_keep (hT.sub (by decide))
      assumption
  clear_value x2
  with_reducible apply toPartner_keep (hT.sub (by decide))
  assumption

theorem formStep_keep {T : List Part} (hT : Within [.regs, .tables, .folds, .dl, .ig] T) {s0 : State} {s : State} (x : FormRec) (hs : Keep T s0 s) :
    Keep T s0 (formStep s x) := by
  unfold formStep
  extract_lets +onlyGivenNames x0
  extract_lets +onlyGivenNames x1
  split
  · assumption
  · split
    · assumption
    · split
      · assumption
      · extract_lets +onlyGivenNames x2
        have hx2 : Keep T s0 x2 := by
          unfold x2
          split
          · assumption
          · with_reducible apply openEpoch_keep (hT.sub (by decide))
            with_reducible apply updForm_keep (hT.sub (by decide))
            assumption
        clear_value x2
        extract_lets +onlyGivenNames x3
        extract_lets +onlyGivenNames x4
        have hx4 : Keep T s0 x4.1 := by
          unfold x4
          with_reducible refine foldl_keep (fun p => Keep T s0 (Prod.fst p)) _ _ _ ?_ ?_
          · dsimp -zeta only
            assumption
          · intro x5 x6 h7
            extract_lets +onlyGivenNames x8
            have hx8 : Keep T s0 x8.1 := by
              unfold x8
              with_reducible apply formFold_keep (hT.sub (by decide))
              assumption
            clear_value x8
            dsimp -zeta only
            assumption
        clear_value x4
        split
        · assumption
        · extract_lets +onlyGivenNames x9
          have hx9 : Keep T s0 x9 := by
            unfold x9
            assumption
          clear_value x9
          extract_lets +onlyGivenNames x10
          have hx10 : Keep T s0 x10 := by
            unfold x10
            refine keep_mk_maps hT ?_ rfl ?_ ?_ ?_
            · assumption
            · refine all_mmap ({} : Fold) Fold.canonical _ _ ?_ ?_
              · with_reducible exact Keep.folds (by assumption)
              · intro x11 h12
                exact canonical_of (fold_pasture (by assumption)) (fold_pen (by assumption))
            · with_reducible exact Keep.cores (by assumption)
            · (intro p hp; cases p <;> first | rfl | (exfalso; apply hp; decide))
          clear_value x10
          extract_lets +onlyGivenNames x13
          have hx13 : Keep T s0 x13 := by
            unfold x13
            with_reducible apply updForm_keep (hT.sub (by decide))
            with_reducible apply publishOpen_keep (hT.sub (by decide))
            assumption
          clear_value x13
          split
          · with_reducible apply sendBulk_keep (hT.sub (by decide))
            assumption
          · assumption

theorem swapStep_keep {T : List Part} (hT : Within [.regs, .fe, .reqs, .graphs, .tables, .folds, .dl] T) {s0 : State} {s : State} (hs : Keep T s0 s) :
    Keep T s0 (swapStep s) := by
  unfold swapStep
  split
  · assumption
  · split
    · assumption
    · with_reducible apply pairEnd_keep (hT.sub (by decide))
      with_reducible apply toPartner_keep (hT.sub (by decide))
      with_reducible refine keep_mk hT ?_ rfl ?_
      · assumption
      · (intro p hp; cases p <;> first | rfl | (exfalso; apply hp; decide))
  · split
    · with_reducible apply pairEnd_keep (hT.sub (by decide))
      with_reducible refine keep_mk hT ?_ rfl ?_
      · assumption
      · (intro p hp; cases p <;> first | rfl | (exfalso; apply hp; decide))
    · assumption

theorem pairTick_keep {T : List Part} (hT : Within [.regs, .fe, .reqs, .graphs, .tables, .folds, .dl, .ig] T) {s0 : State} {s : State} (hs : Keep T s0 s) :
    Keep T s0 (pairTick s) := by
  unfold pairTick
  extract_lets +onlyGivenNames x0
  have hx0 : Keep T s0 x0 := by
    unfold x0
    with_reducible apply hbTick_keep (hT.sub (by decide))
    assumption
  clear_value x0
  extract_lets +onlyGivenNames x1
  have hx1 : Keep T s0 x1 := by
    unfold x1
    with_reducible apply rollStreams_keep (hT.sub (by decide))
    assumption
  clear_value x1
  extract_lets +onlyGivenNames x2
  have hx2 : Keep T s0 x2 := by
    unfold x2
    with_reducible apply keep_foldl
    · assumption
    · intro t3 x4 h5
      split
      · with_reducible apply formPublish_keep (hT.sub (by decide))
        assumption
      · with_reducible apply formStep_keep (hT.sub (by decide))
        assumption
  clear_value x2
  with_reducible apply swapStep_keep (hT.sub (by decide))
  assumption

theorem askPartner_keep {T : List Part} (hT : Within [.regs, .fe, .dl] T) {s0 : State} {s : State} (c : Cmd) (p : Nat) (m : PairMsg) (hs : Keep T s0 s) :
    Keep T s0 (askPartner s c p m) := by
  unfold askPartner
  extract_lets +onlyGivenNames x0
  extract_lets +onlyGivenNames x1
  have hx1 : Keep T s0 x1 := by
    unfold x1
    with_reducible apply setPhase_keep (hT.sub (by decide))
    with_reducible refine keep_mk hT ?_ rfl ?_
    · assumption
    · (intro p hp; cases p <;> first | rfl | (exfalso; apply hp; decide))
  clear_value x1
  with_reducible apply droveSend_keep (hT.sub (by decide))
  assumption

theorem beginResync_keep {T : List Part} (hT : Within [.regs, .fe, .reqs, .graphs, .tables, .folds, .dl] T) {s0 : State} {s : State} (tids : List (BitVec 12)) (hs : Keep T s0 s) :
    Keep T s0 (beginResync s tids) := by
  unfold beginResync
  extract_lets +onlyGivenNames x0
  extract_lets +onlyGivenNames x1
  have hx1 : Keep T s0 x1 := by
    unfold x1
    with_reducible apply dropStreams_keep (hT.sub (by decide))
    assumption
  clear_value x1
  extract_lets +onlyGivenNames x2
  extract_lets +onlyGivenNames x3
  have hx3 : Keep T s0 x3 := by
    unfold x3
    split
    · with_reducible refine keep_mk hT ?_ rfl ?_
      · assumption
      · (intro p hp; cases p <;> first | rfl | (exfalso; apply hp; decide))
    · assumption
  clear_value x3
  extract_lets +onlyGivenNames x4
  extract_lets +onlyGivenNames x5
  have hx5 : Keep T s0 x5 := by
    unfold x5
    with_reducible refine keep_mk hT ?_ rfl ?_
    · assumption
    · (intro p hp; cases p <;> first | rfl | (exfalso; apply hp; decide))
  clear_value x5
  split
  · with_reducible apply pairEnd_keep (hT.sub (by decide))
    with_reducible refine keep_mk hT ?_ rfl ?_
    · assumption
    · (intro p hp; cases p <;> first | rfl | (exfalso; apply hp; decide))
  · assumption

theorem putStreamed_keep {T : List Part} (hT : Within [.regs, .folds, .ig] T) {s0 : State} {s : State} (b : Bytes) (hs : Keep T s0 s) :
    Keep T s0 (putStreamed s b) := by
  unfold putStreamed
  extract_lets +onlyGivenNames x0
  split
  · with_reducible apply putJ_keep (hT.sub (by decide))
    assumption
  · assumption

theorem putDelta_keep {T : List Part} (hT : Within [.regs, .folds, .ig] T) {s0 : State} {s : State} (t : StreamRec) (d : Delta) (hs : Keep T s0 s) :
    Keep T s0 (putDelta s t d) := by
  unfold putDelta
  split
  · with_reducible apply putD_keep (hT.sub (by decide))
    assumption
  · assumption

theorem takeStream_keep {T : List Part} (hT : Within [.regs, .folds, .dl, .ig] T) {s0 : State} {s : State} (t : StreamRec) (hs : Keep T s0 s) :
    Keep T s0 (takeStream s t) := by
  unfold takeStream
  extract_lets +onlyGivenNames x0
  have hx0 : Keep T s0 x0 := by
    unfold x0
    with_reducible apply keep_foldl
    · assumption
    · intro t1 x2 h3
      with_reducible apply putStreamed_keep (hT.sub (by decide))
      assumption
  clear_value x0
  extract_lets +onlyGivenNames x4
  have hx4 : Keep T s0 x4 := by
    unfold x4
    with_reducible apply keep_foldl
    · assumption
    · intro t5 x6 h7
      with_reducible apply putDelta_keep (hT.sub (by decide))
      assumption
  clear_value x4
  with_reducible apply toPartner_keep (hT.sub (by decide))
  assumption

theorem updStream_keep {T : List Part} (hT : Within [.dl] T) {s0 : State} {s : State} (h : Half) (g : StreamRec → StreamRec) (hs : Keep T s0 s) :
    Keep T s0 (updStream s h g) := by
  unfold updStream
  with_reducible refine keep_mk hT ?_ rfl ?_
  · assumption
  · (intro p hp; cases p <;> first | rfl | (exfalso; apply hp; decide))

theorem commitStream_keep {T : List Part} (hT : Within [.regs, .folds, .dl] T) {s0 : State} {s : State} (t : StreamRec) (hs : Keep T s0 s) :
    Keep T s0 (commitStream s t) := by
  unfold commitStream
  extract_lets +onlyGivenNames x0
  extract_lets +onlyGivenNames x1
  have hx1 : Keep T s0 x1 := by
    unfold x1
    with_reducible apply keep_foldl
    · assumption
    · intro t2 x3 h4
      refine keep_mk_maps hT ?_ rfl ?_ ?_ ?_
      · assumption
      · refine all_mmap ({} : Fold) Fold.canonical _ _ ?_ ?_
        · with_reducible exact Keep.folds (by assumption)
        · intro x5 h6
          exact canonical_of (fold_pasture (by assumption)) (fold_pen (by assumption))
      · with_reducible exact Keep.cores (by assumption)
      · (intro p hp; cases p <;> first | rfl | (exfalso; apply hp; decide))
  clear_value x1
  with_reducible apply cnt_keep (hT.sub (by decide))
  with_reducible apply updStream_keep (hT.sub (by decide))
  assumption

theorem goBarriers_keep {T : List Part} (hT : Within [.regs, .fe, .reqs, .graphs, .tables, .folds, .dl, .ig] T) {s0 : State} {s : State} (hs : Keep T s0 s) :
    Keep T s0 (goBarriers s) := by
  unfold goBarriers
  with_reducible apply keep_foldl
  · assumption
  · intro t0 x1 h2
    extract_lets +onlyGivenNames x3
    split
    · with_reducible apply sendGo_keep (hT.sub (by decide))
      assumption
    · assumption

theorem takeOver_keep {T : List Part} (hT : Within [.regs, .fe, .reqs, .graphs, .tables, .folds, .dl, .ig] T) {s0 : State} {s : State} (hs : Keep T s0 s) :
    Keep T s0 (takeOver s) := by
  unfold takeOver
  extract_lets +onlyGivenNames x0
  extract_lets +onlyGivenNames x1
  have hx1 : Keep T s0 x1 := by
    unfold x1
    with_reducible apply keep_foldl
    · assumption
    · intro t2 x3 h4
      with_reducible apply commitStream_keep (hT.sub (by decide))
      assumption
  clear_value x1
  extract_lets +onlyGivenNames x5
  have hx5 : Keep T s0 x5 := by
    unfold x5
    with_reducible apply dropStreams_keep (hT.sub (by decide))
    assumption
  clear_value x5
  extract_lets +onlyGivenNames x6
  extract_lets +onlyGivenNames x7
  have hx7 : Keep T s0 x7 := by
    unfold x7
    with_reducible refine keep_mk hT ?_ rfl ?_
    · assumption
    · (intro p hp; cases p <;> first | rfl | (exfalso; apply hp; decide))
  clear_value x7
  extract_lets +onlyGivenNames x8
  have hx8 : Keep T s0 x8 := by
    unfold x8
    with_reducible apply cnt_keep (hT.sub (by decide))
    assumption
  clear_value x8
  extract_lets +onlyGivenNames x9
  extract_lets +onlyGivenNames x10
  have hx10 : Keep T s0 x10 := by
    unfold x10
    split
    · with_reducible apply keep_foldl
      · assumption
      · intro t11 x12 h13
        split
        · with_reducible apply rset_keep (hT.sub (by decide))
          assumption
        · assumption
    · assumption
  clear_value x10
  extract_lets +onlyGivenNames x14
  have hx14 : Keep T s0 x14 := by
    unfold x14
    split
    · with_reducible apply keep_foldl
      · assumption
      · intro t15 x16 h17
        with_reducible apply droveSend_keep (hT.sub (by decide))
        assumption
    · assumption
  clear_value x14
  extract_lets +onlyGivenNames x18
  have hx18 : Keep T s0 x18 := by
    unfold x18
    with_reducible apply rollStreams_keep (hT.sub (by decide))
    assumption
  clear_value x18
  split
  · with_reducible apply goBarriers_keep (hT.sub (by decide))
    assumption
  · assumption

theorem tableHeld_keep {T : List Part} (hT : Within [.regs, .tables, .dl] T) {s0 : State} {s : State} (tid : BitVec 12) (d : Bytes) (epoch : Word) (root : Bytes) (hs : Keep T s0 s) :
    Keep T s0 (tableHeld s tid d epoch root) := by
  unfold tableHeld
  split
  · split
    · assumption
    · extract_lets +onlyGivenNames x0
      extract_lets +onlyGivenNames x1
      have hx1 : Keep T s0 x1 := by
        unfold x1
        with_reducible apply sayHeld_keep (hT.sub (by decide))
        with_reducible refine keep_mk hT ?_ rfl ?_
        · assumption
        · (intro p hp; cases p <;> first | rfl | (exfalso; apply hp; decide))
      clear_value x1
      split
      · assumption
      · with_reducible apply diverge_keep (hT.sub (by decide))
        assumption
  · assumption

theorem memberTaken_keep {T : List Part} (hT : Within [.regs, .fe, .reqs, .graphs, .tables, .folds, .dl, .ig] T) {s0 : State} {s : State} (src : BitVec 12) (idx : BitVec 12) (hs : Keep T s0 s) :
    Keep T s0 (memberTaken s src idx) := by
  unfold memberTaken
  split
  · assumption
  · extract_lets +onlyGivenNames x0
    have hx0 : Keep T s0 x0 := by
      unfold x0
      with_reducible apply rset_keep (hT.sub (by decide))
      assumption
    clear_value x0
    extract_lets +onlyGivenNames x1
    have hx1 : Keep T s0 x1 := by
      unfold x1
      split
      · with_reducible apply resendLeader_keep (hT.sub (by decide))
        assumption
      · assumption
    clear_value x1
    split
    · with_reducible apply goBarriers_keep (hT.sub (by decide))
      assumption
    · assumption

theorem startBulk_keep {T : List Part} (hT : Within [.regs, .fe, .reqs, .graphs, .tables, .folds, .dl] T) {s0 : State} {s : State} (tid : BitVec 12) (hs : Keep T s0 s) :
    Keep T s0 (startBulk s tid) := by
  unfold startBulk
  extract_lets +onlyGivenNames x0
  split
  · assumption
  · extract_lets +onlyGivenNames x1
    have hx1 : Keep T s0 x1 := by
      unfold x1
      with_reducible apply dropStaged_keep (hT.sub (by decide))
      assumption
    clear_value x1
    extract_lets +onlyGivenNames x2
    extract_lets +onlyGivenNames x3
    (clear_value *; split)
    · with_reducible apply pairEnd_keep (hT.sub (by decide))
      assumption
    · extract_lets +onlyGivenNames x4
      with_reducible apply updForm_keep (hT.sub (by decide))
      with_reducible apply updTable_keep (hT.sub (by decide))
      assumption

theorem beginForm_keep {T : List Part} (hT : Within [.regs, .fe, .reqs, .graphs, .tables, .folds, .dl] T) {s0 : State} {s : State} (p : BitVec 12) (mirror : Bool) (syncEn : Bool) (tids : List (BitVec 12)) (hs : Keep T s0 s) :
    Keep T s0 (beginForm s p mirror syncEn tids) := by
  unfold beginForm
  extract_lets +onlyGivenNames x0
  extract_lets +onlyGivenNames x1
  have hx1 : Keep T s0 x1 := by
    unfold x1
    with_reducible refine keep_mk hT ?_ rfl ?_
    · assumption
    · (intro p hp; cases p <;> first | rfl | (exfalso; apply hp; decide))
  clear_value x1
  split
  · with_reducible apply pairEnd_keep (hT.sub (by decide))
    with_reducible refine keep_mk hT ?_ rfl ?_
    · assumption
    · (intro p hp; cases p <;> first | rfl | (exfalso; apply hp; decide))
  · assumption

end Sys2Proof.Machine
end

