-- ==== Sys2Proof/Laws/KeepPart.lean ====
section
/-! SUPPORT. `Keep` holds after each operation of resets, ports, fold memory, log, margins and boot, where it held before. -/

namespace Sys2Proof.Machine

theorem postEnd_keep {T : List Part} (hT : Within [.regs, .fe, .folds, .np, .ig] T) {s0 : State} {s : State} (c : Cmd) (st : Status) (hs : Keep T s0 s) :
    Keep T s0 (postEnd s c st) := by
  unfold postEnd
  extract_lets +onlyGivenNames x0
  extract_lets +onlyGivenNames x1
  extract_lets +onlyGivenNames x2
  split
  · assumption
  · extract_lets +onlyGivenNames x3
    extract_lets +onlyGivenNames x4
    split
    · split
      · extract_lets +onlyGivenNames x5
        unfold x4
        with_reducible apply noteStatus_keep (hT.sub (by decide))
        with_reducible apply updQueue_keep (hT.sub (by decide))
        with_reducible apply cnt_keep (hT.sub (by decide))
        with_reducible apply sendOn_keep (hT.sub (by decide))
        with_reducible refine keep_mk hT ?_ rfl ?_
        · assumption
        · (intro p hp; cases p <;> first | rfl | (exfalso; apply hp; decide))
      · assumption
    · unfold x4
      with_reducible apply noteStatus_keep (hT.sub (by decide))
      with_reducible apply updQueue_keep (hT.sub (by decide))
      with_reducible apply cnt_keep (hT.sub (by decide))
      with_reducible apply fmWrite_keep (hT.sub (by decide))
      assumption
    · assumption

theorem clearRegs_keep {T : List Part} (hT : Within [.regs] T) {s0 : State} {s : State} (lo : Nat) (hi : Nat) (hs : Keep T s0 s) :
    Keep T s0 (clearRegs s lo hi) := by
  unfold clearRegs
  with_reducible refine keep_mk hT ?_ rfl ?_
  · assumption
  · (intro p hp; cases p <;> first | rfl | (exfalso; apply hp; decide))

theorem startReplan_keep {T : List Part} (hT : Within [.regs, .pc] T) {s0 : State} {s : State} (reason : Nat) (hs : Keep T s0 s) :
    Keep T s0 (startReplan s reason) := by
  unfold startReplan
  split
  · assumption
  · with_reducible apply rsetF_keep (hT.sub (by decide))
    with_reducible refine keep_pc (hT.sub (by decide)) ?_
    assumption

theorem keepOutside_keep {T : List Part} (hT : Within [.regs, .sels, .latches, .fe, .reqs, .nextHandle, .lastCore, .nextOrder, .cores, .graphs, .checking, .tables, .folds, .np, .xl, .dl, .ig, .pc, .fab] T) {s0 : State} {s t : State} (hs : Keep T s0 s) (ht : Keep T State.reset t) :
    Keep T s0 (keepOutside s t) := by
  unfold keepOutside
  exact rsetF_keep (hT.sub (by decide)) _ _ _ _ _ ⟨hs.pending, hs.sent, hs.drawn, ht.folds, ht.cores, ht.owner,
    fun p hp => absurd (hT p (by cases p <;> decide)) hp⟩

theorem powerReset_keep {T : List Part} (hT : Within [.regs, .sels, .latches, .fe, .reqs, .nextHandle, .lastCore, .nextOrder, .cores, .graphs, .checking, .tables, .folds, .np, .xl, .dl, .ig, .pc, .fab] T) {s0 : State} {s : State} (hs : Keep T s0 s) : Keep T s0 (powerReset s) := by
  exact keepOutside_keep (hT.sub (by decide)) hs (keep_self _ State.reset rfl rfl)

theorem setStage_keep {T : List Part} (hT : Within [.regs] T) {s0 : State} {s : State} (n : Nat) (hs : Keep T s0 s) :
    Keep T s0 (setStage s n) := by
  unfold setStage
  with_reducible apply rsetF_keep (hT.sub (by decide))
  assumption

theorem zeroise_keep {T : List Part} (hT : Within [.regs, .sels, .latches, .np, .dl, .pc] T) {s0 : State} {s : State} (hs : Keep T s0 s) :
    Keep T s0 (zeroise s) := by
  unfold zeroise
  extract_lets +onlyGivenNames x0
  have hx0 : Keep T s0 x0 := by
    unfold x0
    with_reducible apply clearRegs_keep (hT.sub (by decide))
    assumption
  clear_value x0
  extract_lets +onlyGivenNames x1
  have hx1 : Keep T s0 x1 := by
    unfold x1
    with_reducible apply clearRegs_keep (hT.sub (by decide))
    assumption
  clear_value x1
  extract_lets +onlyGivenNames x2
  have hx2 : Keep T s0 x2 := by
    unfold x2
    with_reducible apply clearRegs_keep (hT.sub (by decide))
    assumption
  clear_value x2
  extract_lets +onlyGivenNames x3
  have hx3 : Keep T s0 x3 := by
    unfold x3
    with_reducible apply clearRegs_keep (hT.sub (by decide))
    assumption
  clear_value x3
  extract_lets +onlyGivenNames x4
  have hx4 : Keep T s0 x4 := by
    unfold x4
    with_reducible apply clearRegs_keep (hT.sub (by decide))
    assumption
  clear_value x4
  extract_lets +onlyGivenNames x5
  have hx5 : Keep T s0 x5 := by
    unfold x5
    with_reducible apply rsetF_keep (hT.sub (by decide))
    assumption
  clear_value x5
  with_reducible refine keep_mk hT ?_ rfl ?_
  · assumption
  · (intro p hp; cases p <;> first | rfl | (exfalso; apply hp; decide))

theorem sampleStraps_keep {T : List Part} (hT : Within [.regs] T) {s0 : State} {s : State} (hs : Keep T s0 s) :
    Keep T s0 (sampleStraps s) := by
  unfold sampleStraps
  extract_lets +onlyGivenNames x0
  have hx0 : Keep T s0 x0.2 := by
    unfold x0
    with_reducible apply draw_keep
    assumption
  clear_value x0
  with_reducible apply rsetF_keep (hT.sub (by decide))
  assumption

theorem retain_keep {T : List Part} (hT : Within [.regs, .sels, .latches, .fe, .reqs, .nextHandle, .lastCore, .nextOrder, .cores, .graphs, .checking, .tables, .folds, .np, .xl, .dl, .ig, .pc, .fab] T) (s : State) : Keep T State.reset (retain s) := by
  unfold retain
  refine rsetF_keep (hT.sub (by decide)) _ _ _ _ _ (keep_foldl _ _ (keep_mk hT (keep_self _ State.reset rfl rfl) rfl
    (by intro p hp; cases p <;> first | exact rfl | exact absurd (by decide) hp)) (fun t x h => ?_))
  exact rset_keep (hT.sub (by decide)) _ _ _ h

theorem setCode_keep {T : List Part} (hT : Within [.regs] T) {s0 : State} {s : State} (n : Nat) (hs : Keep T s0 s) :
    Keep T s0 (setCode s n) := by
  unfold setCode
  with_reducible apply rsetF_keep (hT.sub (by decide))
  assumption

theorem unmapDone_keep {T : List Part} (hT : Within [.regs, .fe, .reqs, .graphs, .tables, .folds, .xl, .dl, .ig] T) {s0 : State} {s : State} (i : Nat) (hs : Keep T s0 s) :
    Keep T s0 (unmapDone s i) := by
  unfold unmapDone
  extract_lets +onlyGivenNames x0
  split
  · assumption
  · extract_lets +onlyGivenNames x1
    extract_lets +onlyGivenNames x2
    have hx2 : Keep T s0 x2 := by
      unfold x2
      with_reducible apply setRegion_keep (hT.sub (by decide))
      split
      · with_reducible apply fmFill_keep (hT.sub (by decide))
        assumption
      · assumption
    clear_value x2
    split
    · with_reducible apply finish_keep (hT.sub (by decide))
      assumption
    · assumption

theorem endAll_keep {T : List Part} (hT : Within [.regs, .fe, .reqs, .cores, .checking, .folds, .np, .xl, .dl, .ig] T) {s0 : State} {s : State} (st : Status) (hs : Keep T s0 s) : Keep T s0 (endAll s st) := by
  unfold endAll
  extract_lets t n u
  have hu : Keep T s0 u := cntN_keep (hT.sub (by decide)) _ _ _ (keep_foldl _ _ hs (fun s c h => postEnd_keep (hT.sub (by decide)) c st h))
  clear_value u
  exact ⟨hu.pending, hu.sent, hu.drawn, all_mmap ({} : Fold) Fold.canonical (fun x => { x with ctxs := [], progs := [], rels := [], runs := [] }) _ hu.folds (fun x h => h),
    all_mmap ({} : Core) (fun x => memWf x.scratch) (fun x => { x with slots := [], run := none, lastRun := none, flight := [], issueQ := [], opened := none, heldFull := false }) _ hu.cores (fun x h => h), rfl,
    fun p hq => p.same_trans _ _ _ (hu.frame p hq) (by cases p <;> first | exact rfl | exact absurd (hT _ (by decide)) hq)⟩

theorem startOrderly_keep {T : List Part} (hT : Within [.regs, .sels, .latches, .fe, .reqs, .cores, .checking, .folds, .np, .xl, .dl, .ig, .pc] T) {s0 : State} {s : State} (cause : BitVec 4) (st : Status) (hs : Keep T s0 s) :
    Keep T s0 (startOrderly s cause st) := by
  unfold startOrderly
  split
  · assumption
  · extract_lets +onlyGivenNames x0
    have hx0 : Keep T s0 x0 := by
      unfold x0
      with_reducible apply zeroise_keep (hT.sub (by decide))
      with_reducible apply endAll_keep (hT.sub (by decide))
      assumption
    clear_value x0
    with_reducible refine keep_mk hT ?_ rfl ?_
    · assumption
    · (intro p hp; cases p <;> first | rfl | (exfalso; apply hp; decide))

theorem wholeReset_keep {T : List Part} (hT : Within [.regs, .sels, .latches, .fe, .reqs, .nextHandle, .lastCore, .nextOrder, .cores, .graphs, .checking, .tables, .folds, .np, .xl, .dl, .ig, .pc, .fab] T) {s0 : State} {s : State} (cause : Nat) (hs : Keep T s0 s) :
    Keep T s0 (wholeReset s cause) := by
  unfold wholeReset
  extract_lets +onlyGivenNames x0
  have hx0 : Keep T s0 x0 := by
    unfold x0
    with_reducible apply keepOutside_keep (hT.sub (by decide))
    · assumption
    · with_reducible apply retain_keep (hT.sub (by decide))
  clear_value x0
  extract_lets +onlyGivenNames x1
  extract_lets +onlyGivenNames x2
  have hx2 : Keep T s0 x2 := by
    unfold x2
    with_reducible apply sampleStraps_keep (hT.sub (by decide))
    with_reducible refine keep_pc (hT.sub (by decide)) ?_
    assumption
  clear_value x2
  extract_lets +onlyGivenNames x3
  have hx3 : Keep T s0 x3 := by
    unfold x3
    with_reducible apply rset_keep (hT.sub (by decide))
    assumption
  clear_value x3
  with_reducible apply rset_keep (hT.sub (by decide))
  assumption

theorem enterReady_keep {T : List Part} (hT : Within [.regs, .pc] T) {s0 : State} {s : State} (ms : Nat) (hs : Keep T s0 s) :
    Keep T s0 (enterReady s ms) := by
  unfold enterReady
  extract_lets +onlyGivenNames x0
  extract_lets +onlyGivenNames x1
  have hx1 : Keep T s0 x1 := by
    unfold x1
    with_reducible apply rset_keep (hT.sub (by decide))
    with_reducible refine keep_pc (hT.sub (by decide)) ?_
    assumption
  clear_value x1
  with_reducible apply setStage_keep (hT.sub (by decide))
  with_reducible apply rset_keep (hT.sub (by decide))
  assumption

theorem goBack_keep {T : List Part} (hT : Within [.regs, .np] T) {s0 : State} {s : State} (i : Nat) (hs : Keep T s0 s) :
    Keep T s0 (goBack s i) := by
  unfold goBack
  with_reducible apply sendQp_keep (hT.sub (by decide))
  with_reducible apply cnt_keep (hT.sub (by decide))
  assumption

theorem nakInvalid_keep {T : List Part} (hT : Within [.regs, .fe, .reqs, .graphs, .checking, .tables, .folds, .np, .dl] T) {s0 : State} {s : State} (i : Nat) (psn : BitVec 24) (hs : Keep T s0 s) :
    Keep T s0 (nakInvalid s i psn) := by
  unfold nakInvalid
  with_reducible apply settle_keep (hT.sub (by decide))
  with_reducible apply qpError_keep (hT.sub (by decide))
  with_reducible apply sendQp_keep (hT.sub (by decide))
  assumption

theorem wrPtpCtl_keep {T : List Part} (hT : Within [.regs, .np, .ig] T) {s0 : State} {s : State} (a : Acc) (v : Word) (hs : Keep T s0 s) :
    Keep T s0 (wrPtpCtl s a v) := by
  unfold wrPtpCtl
  with_reducible apply secureOnly_keep (hT.sub (by decide))
  · assumption
  · intro t0 h1
    extract_lets +onlyGivenNames x2
    have hx2 : Keep T s0 x2 := by
      unfold x2
      with_reducible apply rset_keep (hT.sub (by decide))
      assumption
    clear_value x2
    split
    · assumption
    · split
      · with_reducible apply rsetF_keep (hT.sub (by decide))
        assumption
      · split
        · with_reducible refine keep_mk hT ?_ rfl ?_
          · assumption
          · (intro p hp; cases p <;> first | rfl | (exfalso; apply hp; decide))
        · assumption

theorem wrLeaseRenew_keep {T : List Part} (hT : Within [.np] T) {s0 : State} {s : State} (a : Acc) (v : Word) (hs : Keep T s0 s) :
    Keep T s0 (wrLeaseRenew s a v) := by
  unfold wrLeaseRenew
  split
  · assumption
  · with_reducible refine keep_mk hT ?_ rfl ?_
    · assumption
    · (intro p hp; cases p <;> first | rfl | (exfalso; apply hp; decide))

theorem renewSession_keep {T : List Part} (hT : Within [.np] T) {s0 : State} {s : State} (i : Nat) (hs : Keep T s0 s) :
    Keep T s0 (renewSession s i) := by
  unfold renewSession
  split
  · assumption
  · with_reducible apply updSession_keep (hT.sub (by decide))
    · assumption
    · intro x0 h1 h2
      assumption

theorem keepWrite_keep {T : List Part} (hT : Within [.regs, .np] T) {s0 : State} {s : State} (i : Nat) (data : Bytes) (hs : Keep T s0 s) :
    Keep T s0 (keepWrite s i data) := by
  unfold keepWrite
  split
  · with_reducible apply renewSession_keep (hT.sub (by decide))
    assumption
  · with_reducible apply cnt_keep (hT.sub (by decide))
    assumption

theorem rxRead_keep {T : List Part} (hT : Within [.regs, .fe, .reqs, .graphs, .checking, .tables, .folds, .np, .dl] T) {s0 : State} {s : State} (i : Nat) (n : Nat) (k : Pkt) (g : State → State) (hs : Keep T s0 s) (hg : ∀ y0, Keep T s0 y0 → Keep T s0 (g y0)) :
    Keep T s0 (rxRead s i n k g) := by
  unfold rxRead
  extract_lets +onlyGivenNames x0
  with_reducible apply rxReq_keep (hT.sub (by decide))
  · assumption
  · intro t1 h2
    unfold x0
    split
    · with_reducible apply nakInvalid_keep (hT.sub (by decide))
      assumption
    · with_reducible apply_assumption -exfalso
      assumption
  · intro t3 h4
    unfold x0
    split
    · with_reducible apply nakInvalid_keep (hT.sub (by decide))
      assumption
    · with_reducible apply_assumption -exfalso
      assumption

theorem forgetWho_keep {T : List Part} (hT : Within [.sels, .latches, .fe] T) {s0 : State} {s : State} (i : Nat) (hs : Keep T s0 s) :
    Keep T s0 (forgetWho s i) := by
  unfold forgetWho
  extract_lets +onlyGivenNames x0
  with_reducible refine keep_mk hT ?_ rfl ?_
  · assumption
  · (intro p hp; cases p <;> first | rfl | (exfalso; apply hp; decide))

theorem qpReset_keep {T : List Part} (hT : Within [.regs, .sels, .latches, .fe, .reqs, .graphs, .checking, .tables, .folds, .np, .dl] T) {s0 : State} {s : State} (i : Nat) (hs : Keep T s0 s) :
    Keep T s0 (qpReset s i) := by
  unfold qpReset
  extract_lets +onlyGivenNames x0
  extract_lets +onlyGivenNames x1
  have hx1 : Keep T s0 x1 := by
    unfold x1
    with_reducible apply updQp_keep (hT.sub (by decide))
    assumption
  clear_value x1
  extract_lets +onlyGivenNames x2
  have hx2 : Keep T s0 x2 := by
    unfold x2
    split
    · with_reducible apply qpDown_keep (hT.sub (by decide))
      assumption
    · assumption
  clear_value x2
  with_reducible apply forgetWho_keep (hT.sub (by decide))
  with_reducible apply updQp_keep (hT.sub (by decide))
  assumption

theorem doorWrite_keep {T : List Part} (hT : Within [.regs, .fe, .np] T) {s0 : State} {s : State} (i : Nat) (va : Nat) (data : Bytes) (imm : Bool) (hs : Keep T s0 s) :
    Keep T s0 (doorWrite s i va data imm) := by
  unfold doorWrite
  extract_lets +onlyGivenNames x0
  extract_lets +onlyGivenNames x1
  split
  · with_reducible apply cnt_keep (hT.sub (by decide))
    assumption
  · with_reducible apply renewSession_keep (hT.sub (by decide))
    with_reducible apply judgeDb_keep (hT.sub (by decide))
    assumption

theorem ackPiece_keep {T : List Part} (hT : Within [.fe, .xl] T) {s0 : State} {s : State} (i : Nat) (x : Nat) (hs : Keep T s0 s) :
    Keep T s0 (ackPiece s i x) := by
  unfold ackPiece
  extract_lets +onlyGivenNames x0
  extract_lets +onlyGivenNames x1
  have hx1 : Keep T s0 x1 := by
    unfold x1
    with_reducible refine keep_mk hT ?_ rfl ?_
    · assumption
    · (intro p hp; cases p <;> first | rfl | (exfalso; apply hp; decide))
  clear_value x1
  extract_lets +onlyGivenNames x2
  have hx2 : Keep T s0 x2 := by
    unfold x2
    with_reducible apply updXfer_keep (hT.sub (by decide))
    assumption
  clear_value x2
  with_reducible apply closeXfer_keep (hT.sub (by decide))
  assumption

theorem dropImm_keep {T : List Part} (hT : Within [.regs] T) {s0 : State} {s : State} (k : Pkt) (hs : Keep T s0 s) :
    Keep T s0 (dropImm s k) := by
  unfold dropImm
  split
  · with_reducible apply cnt_keep (hT.sub (by decide))
    assumption
  · assumption

theorem wrPortCfg_keep {T : List Part} (hT : Within [.regs, .np, .ig] T) {s0 : State} {s : State} (a : Acc) (p : Nat) (v : Word) (hs : Keep T s0 s) :
    Keep T s0 (wrPortCfg s a p v) := by
  unfold wrPortCfg
  with_reducible apply secureOnly_keep (hT.sub (by decide))
  · assumption
  · intro t0 h1
    extract_lets +onlyGivenNames x2
    extract_lets +onlyGivenNames x3
    extract_lets +onlyGivenNames x4
    have hx4 : Keep T s0 x4 := by
      unfold x4
      with_reducible apply rset_keep (hT.sub (by decide))
      assumption
    clear_value x4
    extract_lets +onlyGivenNames x5
    have hx5 : Keep T s0 x5 := by
      unfold x5
      split
      · with_reducible apply dropHeld_keep (hT.sub (by decide))
        with_reducible apply setMac_keep (hT.sub (by decide))
        with_reducible apply setMac_keep (hT.sub (by decide))
        assumption
      · assumption
    clear_value x5
    split
    · with_reducible apply unpause_keep (hT.sub (by decide))
      assumption
    · assumption

theorem closeSession_keep {T : List Part} (hT : Within [.regs, .sels, .latches, .fe, .reqs, .graphs, .checking, .tables, .folds, .np, .xl, .dl] T) {s0 : State} {s : State} (i : Nat) (hs : Keep T s0 s) :
    Keep T s0 (closeSession s i) := by
  unfold closeSession
  split
  · assumption
  · extract_lets +onlyGivenNames x0
    extract_lets +onlyGivenNames x1
    have hx1 : Keep T s0 x1 := by
      unfold x1
      with_reducible apply keep_foldl
      · assumption
      · intro t2 x3 h4
        with_reducible apply dropQueue_keep (hT.sub (by decide))
        assumption
    clear_value x1
    extract_lets +onlyGivenNames x5
    extract_lets +onlyGivenNames x6
    have hx6 : Keep T s0 x6 := by
      unfold x6
      with_reducible apply keep_foldl
      · assumption
      · intro t7 x8 h9
        with_reducible apply qpReset_keep (hT.sub (by decide))
        assumption
    clear_value x6
    extract_lets +onlyGivenNames x10
    have hx10 : Keep T s0 x10 := by
      unfold x10
      with_reducible apply setSession_keep (hT.sub (by decide))
      · assumption
      · intro h11
        rfl
    clear_value x10
    with_reducible apply resume_keep (hT.sub (by decide))
    with_reducible apply settle_keep (hT.sub (by decide))
    with_reducible apply cnt_keep (hT.sub (by decide))
    assumption

theorem qpEnable_keep {T : List Part} (hT : Within [.np] T) {s0 : State} {s : State} (i : Nat) (hs : Keep T s0 s) :
    Keep T s0 (qpEnable s i) := by
  unfold qpEnable
  split
  · assumption
  · with_reducible apply setQp_keep (hT.sub (by decide))
    assumption

theorem peerDeny_keep {T : List Part} (hT : Within [.regs, .fe, .np] T) {s0 : State} {s : State} (i : Nat) (w : Nat) (va : Nat) (write : Bool) (psn : BitVec 24) (hs : Keep T s0 s) :
    Keep T s0 (peerDeny s i w va write psn) := by
  unfold peerDeny
  with_reducible apply nakAccess_keep (hT.sub (by decide))
  with_reducible apply fqWrite_keep (hT.sub (by decide))
  with_reducible apply cnt_keep (hT.sub (by decide))
  assumption

theorem rxWrite_keep {T : List Part} (hT : Within [.regs, .np] T) {s0 : State} {s : State} (i : Nat) (n : Nat) (k : Pkt) (g : State → State) (hs : Keep T s0 s) (hg : ∀ y0, Keep T s0 y0 → Keep T s0 (g y0)) :
    Keep T s0 (rxWrite s i n k g) := by
  unfold rxWrite
  with_reducible apply rxReq_keep (hT.sub (by decide))
  · assumption
  · intro t0 h1
    with_reducible apply ackTo_keep (hT.sub (by decide))
    assumption
  · intro t2 h3
    with_reducible apply_assumption -exfalso
    with_reducible apply dropImm_keep (hT.sub (by decide))
    assumption

theorem openSession_keep {T : List Part} (hT : Within [.np] T) {s0 : State} {s : State} (i : Nat) (hs : Keep T s0 s) :
    Keep T s0 (openSession s i) := by
  unfold openSession
  split
  · assumption
  · split
    · with_reducible apply updSession_keep (hT.sub (by decide))
      · assumption
      · intro x0 h1 h2
        simp_all
    · with_reducible apply updSession_keep (hT.sub (by decide))
      · assumption
      · intro x3 h4 h5
        assumption

theorem wrQpCtl_keep {T : List Part} (hT : Within [.regs, .sels, .latches, .fe, .reqs, .graphs, .checking, .tables, .folds, .np, .dl] T) {s0 : State} {s : State} (a : Acc) (v : Word) (hs : Keep T s0 s) :
    Keep T s0 (wrQpCtl s a v) := by
  unfold wrQpCtl
  extract_lets +onlyGivenNames x0
  split
  · assumption
  · split
    · with_reducible apply settle_keep (hT.sub (by decide))
      with_reducible apply qpReset_keep (hT.sub (by decide))
      assumption
    · split
      · with_reducible apply qpEnable_keep (hT.sub (by decide))
        assumption
      · assumption

theorem wrSesCtl_keep {T : List Part} (hT : Within [.regs, .sels, .latches, .fe, .reqs, .graphs, .checking, .tables, .folds, .np, .xl, .dl] T) {s0 : State} {s : State} (a : Acc) (v : Word) (hs : Keep T s0 s) :
    Keep T s0 (wrSesCtl s a v) := by
  unfold wrSesCtl
  extract_lets +onlyGivenNames x0
  split
  · assumption
  · split
    · split
      · with_reducible apply closeSession_keep (hT.sub (by decide))
        assumption
      · assumption
    · split
      · with_reducible apply openSession_keep (hT.sub (by decide))
        assumption
      · assumption

theorem retryQp_keep {T : List Part} (hT : Within [.regs, .fe, .reqs, .graphs, .checking, .tables, .folds, .np, .dl] T) {s0 : State} {s : State} (i : Nat) (hs : Keep T s0 s) :
    Keep T s0 (retryQp s i) := by
  unfold retryQp
  split
  · with_reducible apply settle_keep (hT.sub (by decide))
    with_reducible apply qpError_keep (hT.sub (by decide))
    assumption
  · with_reducible apply goBack_keep (hT.sub (by decide))
    with_reducible apply updQp_keep (hT.sub (by decide))
    assumption

theorem wrPartRate_keep {T : List Part} (hT : Within [.regs, .ig] T) {s0 : State} {s : State} (a : Acc) (f : Nat) (v : Word) (hs : Keep T s0 s) :
    Keep T s0 (wrPartRate s a f v) := by
  unfold wrPartRate
  with_reducible apply secureOnly_keep (hT.sub (by decide))
  · assumption
  · intro t0 h1
    with_reducible apply rset_keep (hT.sub (by decide))
    assumption

theorem wrEccInj_keep {T : List Part} (hT : Within [.regs, .ig] T) {s0 : State} {s : State} (a : Acc) (f : Nat) (v : Word) (hs : Keep T s0 s) :
    Keep T s0 (wrEccInj s a f v) := by
  unfold wrEccInj
  with_reducible apply secureOnly_keep (hT.sub (by decide))
  · assumption
  · intro t0 h1
    extract_lets +onlyGivenNames x2
    extract_lets +onlyGivenNames x3
    with_reducible apply rset_keep (hT.sub (by decide))
    assumption

theorem flipSector_keep {T : List Part} (hT : Within [.folds] T) {s0 : State} {s : State} (f : Nat) (a : Nat) (fd : BitVec 256) (fc : BitVec 16) (hs : Keep T s0 s) :
    Keep T s0 (flipSector s f a fd fc) := by
  unfold flipSector
  split
  · assumption
  · with_reducible apply updFold_keep (hT.sub (by decide))
    · assumption
    · intro x0 h1
      extract_lets +onlyGivenNames x2
      extract_lets +onlyGivenNames x3
      extract_lets +onlyGivenNames x4
      refine canonical_of ?_ ?_
      · dsimp -zeta only
        with_reducible apply memWf_wrN
        with_reducible exact fold_pasture (by assumption)
      · dsimp -zeta only
        with_reducible exact fold_pen (by assumption)

theorem tickFold_keep {T : List Part} (hT : Within [.regs, .folds] T) {s0 : State} {s : State} (f : Nat) (hs : Keep T s0 s) :
    Keep T s0 (tickFold s f) := by
  unfold tickFold
  with_reducible apply keep_foldl
  · assumption
  · intro t0 x1 h2
    extract_lets +onlyGivenNames x3
    have hx3 : Keep T s0 x3 := by
      unfold x3
      split
      · with_reducible apply cnt_keep (hT.sub (by decide))
        assumption
      · assumption
    clear_value x3
    extract_lets +onlyGivenNames x4
    with_reducible apply updFold_keep (hT.sub (by decide))
    · assumption
    · intro x5 h6
      exact canonical_of (fold_pasture (by assumption)) (fold_pen (by assumption))

theorem gxEnds_keep {T : List Part} (hT : Within [.regs, .fe, .reqs, .graphs, .checking, .tables, .folds, .dl, .ig] T) {s0 : State} {s : State} (f : Nat) (hs : Keep T s0 s) :
    Keep T s0 (gxEnds s f) := by
  unfold gxEnds
  extract_lets +onlyGivenNames x0
  extract_lets +onlyGivenNames x1
  have hx1 : Keep T s0 x1 := by
    unfold x1
    with_reducible apply keep_foldl
    · assumption
    · intro t2 x3 h4
      with_reducible apply foldEnds_keep (hT.sub (by decide))
      assumption
  clear_value x1
  extract_lets +onlyGivenNames x5
  have hx5 : Fold.canonical x5 = true := by
    unfold x5
    with_reducible exact fold_canonical (by assumption) _
  clear_value x5
  extract_lets +onlyGivenNames x6
  have hx6 : Keep T s0 x6 := by
    unfold x6
    with_reducible apply setFold_keep (hT.sub (by decide))
    · assumption
    · exact canonical_of (fold_pasture (by assumption)) (fold_pen (by assumption))
  clear_value x6
  extract_lets +onlyGivenNames x7
  have hx7 : Keep T s0 x7 := by
    unfold x7
    with_reducible apply keep_foldl
    · assumption
    · intro t8 x9 h10
      with_reducible apply abandonMig_keep (hT.sub (by decide))
      assumption
  clear_value x7
  with_reducible apply updFold_keep (hT.sub (by decide))
  · assumption
  · intro x11 h12
    exact canonical_of (fold_pasture (by assumption)) (fold_pen (by assumption))

theorem badPenLine_keep {T : List Part} (hT : Within [.folds] T) {s0 : State} {s : State} (f : Nat) (e : ErrRep) (hs : Keep T s0 s) :
    Keep T s0 (badPenLine s f e) := by
  unfold badPenLine
  extract_lets +onlyGivenNames x0
  extract_lets +onlyGivenNames x1
  have hx1 : Keep T s0 x1 := by
    unfold x1
    with_reducible apply updFold_keep (hT.sub (by decide))
    · assumption
    · intro x2 h3
      exact canonical_of (fold_pasture (by assumption)) (fold_pen (by assumption))
  clear_value x1
  extract_lets +onlyGivenNames x4
  with_reducible apply keep_foldl
  · assumption
  · intro t5 x6 h7
    split
    with_reducible apply repairPen_keep (hT.sub (by decide))
    assumption

theorem moduleDown_keep {T : List Part} (hT : Within [.regs, .folds, .ig, .pc] T) {s0 : State} {s : State} (f : Nat) (m : Nat) (retrained : Bool) (tries : Nat) (hs : Keep T s0 s) :
    Keep T s0 (moduleDown s f m retrained tries) := by
  unfold moduleDown
  extract_lets +onlyGivenNames x0
  have hx0 : Keep T s0 x0 := by
    unfold x0
    with_reducible apply logEv_keep (hT.sub (by decide))
    assumption
  clear_value x0
  split
  · assumption
  · extract_lets +onlyGivenNames x1
    have hx1 : Keep T s0 x1 := by
      unfold x1
      with_reducible apply updFold_keep (hT.sub (by decide))
      · assumption
      · intro x2 h3
        exact canonical_of (fold_pasture (by assumption)) (fold_pen (by assumption))
    clear_value x1
    split
    · with_reducible apply wantReset_keep (hT.sub (by decide))
      assumption
    · assumption

theorem logUe_keep {T : List Part} (hT : Within [.regs, .ig] T) {s0 : State} {s : State} (i : Nat) (esc : Bool) (hs : Keep T s0 s) :
    Keep T s0 (logUe s i esc) := by
  unfold logUe
  extract_lets +onlyGivenNames x0
  with_reducible apply rsetF_keep (hT.sub (by decide))
  with_reducible apply setFlog_keep (hT.sub (by decide))
  assumption

theorem poisonReq_keep {T : List Part} (hT : Within [.reqs] T) {s0 : State} {s : State} (e : ErrRep) (hs : Keep T s0 s) :
    Keep T s0 (poisonReq s e) := by
  unfold poisonReq
  split
  · with_reducible apply markPoison_keep (hT.sub (by decide))
    assumption
  · assumption

theorem poolPoison_keep {T : List Part} (hT : Within [.folds] T) {s0 : State} {s : State} (f : Nat) (a : Nat) (hs : Keep T s0 s) :
    Keep T s0 (poolPoison s f a) := by
  unfold poolPoison
  extract_lets +onlyGivenNames x0
  with_reducible apply updFold_keep (hT.sub (by decide))
  · assumption
  · intro x1 h2
    exact canonical_of (fold_pasture (by assumption)) (fold_pen (by assumption))

theorem badSector_keep {T : List Part} (hT : Within [.regs, .folds] T) {s0 : State} {s : State} (f : Nat) (e : ErrRep) (hs : Keep T s0 s) :
    Keep T s0 (badSector s f e) := by
  unfold badSector
  extract_lets +onlyGivenNames x0
  extract_lets +onlyGivenNames x1
  extract_lets +onlyGivenNames x2
  extract_lets +onlyGivenNames x3
  have hx3 : Keep T s0 x3 := by
    unfold x3
    with_reducible apply poolPoison_keep (hT.sub (by decide))
    assumption
  clear_value x3
  extract_lets +onlyGivenNames x4
  have hx4 : Keep T s0 x4 := by
    unfold x4
    split
    · with_reducible apply updFold_keep (hT.sub (by decide))
      · assumption
      · intro x5 h6
        exact canonical_of (fold_pasture (by assumption)) (fold_pen (by assumption))
    · assumption
  clear_value x4
  with_reducible apply updFold_keep (hT.sub (by decide))
  · with_reducible apply cnt_keep (hT.sub (by decide))
    assumption
  · intro x7 h8
    exact canonical_of (fold_pasture (by assumption)) (fold_pen (by assumption))

theorem holderReset_keep {T : List Part} (hT : Within [.ig, .pc] T) {s0 : State} {s : State} (e : ErrRep) (hs : Keep T s0 s) :
    Keep T s0 (holderReset s e) := by
  unfold holderReset
  extract_lets +onlyGivenNames x0
  extract_lets +onlyGivenNames x1
  extract_lets +onlyGivenNames x2
  split
  · with_reducible apply wantReset_keep (hT.sub (by decide))
    assumption
  · split
    · with_reducible apply wantReset_keep (hT.sub (by decide))
      assumption
    · split
      · with_reducible apply wantReset_keep (hT.sub (by decide))
        assumption
      · split
        · with_reducible apply wantReset_keep (hT.sub (by decide))
          assumption
        · assumption

theorem logUeRep_keep {T : List Part} (hT : Within [.regs, .ig] T) {s0 : State} {s : State} (e : ErrRep) (hs : Keep T s0 s) :
    Keep T s0 (logUeRep s e) := by
  unfold logUeRep
  with_reducible apply logEv_keep (hT.sub (by decide))
  assumption

theorem badIndex_keep {T : List Part} (hT : Within [.regs, .fe, .reqs, .cores, .graphs, .checking, .tables, .folds, .dl] T) {s0 : State} {s : State} (f : Nat) (id : Nat) (hs : Keep T s0 s) :
    Keep T s0 (badIndex s f id) := by
  unfold badIndex
  split
  · assumption
  · with_reducible apply goOn_keep (hT.sub (by decide))
    with_reducible apply markPoison_keep (hT.sub (by decide))
    with_reducible apply updFold_keep (hT.sub (by decide))
    · assumption
    · intro x0 h1
      with_reducible apply updProg_keep
      with_reducible assumption

theorem badImage_keep {T : List Part} (hT : Within [.regs, .reqs, .cores, .graphs, .folds, .ig] T) {s0 : State} {s : State} (c : Nat) (e : ErrRep) (hs : Keep T s0 s) :
    Keep T s0 (badImage s c e) := by
  unfold badImage
  extract_lets +onlyGivenNames x0
  extract_lets +onlyGivenNames x1
  extract_lets +onlyGivenNames x2
  extract_lets +onlyGivenNames x3
  have hx3 : Keep T s0 x3 := by
    unfold x3
    split
    · assumption
    · with_reducible apply updCore_keep (hT.sub (by decide))
      · assumption
      · intro x4 h5
        dsimp -zeta only
        assumption
  clear_value x3
  split
  · assumption
  · extract_lets +onlyGivenNames x6
    have hx6 : Keep T s0 x6 := by
      unfold x6
      with_reducible refine keep_mk hT ?_ rfl ?_
      · assumption
      · (intro p hp; cases p <;> first | rfl | (exfalso; apply hp; decide))
    clear_value x6
    extract_lets +onlyGivenNames x7
    have hx7 : Keep T s0 x7 := by
      unfold x7
      with_reducible apply logEv_keep (hT.sub (by decide))
      assumption
    clear_value x7
    split
    · split
      · with_reducible apply endSlot_keep (hT.sub (by decide))
        with_reducible apply markPoison_keep (hT.sub (by decide))
        assumption
      · assumption
    · assumption

theorem structError_keep {T : List Part} (hT : Within [.regs, .fe, .reqs, .cores, .graphs, .checking, .tables, .folds, .xl, .dl, .ig, .pc] T) {s0 : State} {s : State} (e : ErrRep) (hs : Keep T s0 s) :
    Keep T s0 (structError s e) := by
  unfold structError
  extract_lets +onlyGivenNames x0
  split
  · with_reducible apply badSector_keep (hT.sub (by decide))
    with_reducible apply poisonReq_keep (hT.sub (by decide))
    with_reducible apply logUeRep_keep (hT.sub (by decide))
    assumption
  · with_reducible apply badPenLine_keep (hT.sub (by decide))
    with_reducible apply poisonReq_keep (hT.sub (by decide))
    with_reducible apply logUeRep_keep (hT.sub (by decide))
    assumption
  · extract_lets +onlyGivenNames x1
    have hx1 : Keep T s0 x1 := by
      unfold x1
      with_reducible apply logUeRep_keep (hT.sub (by decide))
      assumption
    clear_value x1
    with_reducible apply updFold_keep (hT.sub (by decide))
    · assumption
    · intro x2 h3
      exact canonical_of (fold_pasture (by assumption)) (fold_pen (by assumption))
  · with_reducible apply badIndex_keep (hT.sub (by decide))
    with_reducible apply poisonReq_keep (hT.sub (by decide))
    with_reducible apply logUeRep_keep (hT.sub (by decide))
    assumption
  · with_reducible apply holderReset_keep (hT.sub (by decide))
    with_reducible apply logEv_keep (hT.sub (by decide))
    assumption
  · extract_lets +onlyGivenNames x4
    with_reducible apply updCore_keep (hT.sub (by decide))
    · with_reducible apply logUeRep_keep (hT.sub (by decide))
      assumption
    · intro x5 h6
      dsimp -zeta only
      assumption
  · with_reducible apply badImage_keep (hT.sub (by decide))
    with_reducible apply logUeRep_keep (hT.sub (by decide))
    assumption
  · with_reducible apply updCore_keep (hT.sub (by decide))
    · with_reducible apply logUeRep_keep (hT.sub (by decide))
      assumption
    · intro x7 h8
      dsimp -zeta only
      assumption
  · with_reducible apply updCore_keep (hT.sub (by decide))
    · with_reducible apply logUeRep_keep (hT.sub (by decide))
      assumption
    · intro x9 h10
      dsimp -zeta only
      assumption
  · split
    · extract_lets +onlyGivenNames x11
      extract_lets +onlyGivenNames x12
      extract_lets +onlyGivenNames x13
      have hx13 : Keep T s0 x13 := by
        unfold x13
        with_reducible apply updCore_keep (hT.sub (by decide))
        · assumption
        · intro x14 h15
          with_reducible apply suspectOut_keep
          assumption
      clear_value x13
      with_reducible apply residueReport_keep (hT.sub (by decide))
      assumption
    · assumption
  · with_reducible apply moduleDown_keep (hT.sub (by decide))
    assumption
  · with_reducible apply logEv_keep (hT.sub (by decide))
    assumption
  · with_reducible apply rxDrop_keep (hT.sub (by decide))
    assumption
  · extract_lets +onlyGivenNames x16
    have hx16 : Keep T s0 x16 := by
      unfold x16
      with_reducible apply logUeRep_keep (hT.sub (by decide))
      assumption
    clear_value x16
    with_reducible refine keep_mk hT ?_ rfl ?_
    · assumption
    · (intro p hp; cases p <;> first | rfl | (exfalso; apply hp; decide))
  · with_reducible apply poisonReq_keep (hT.sub (by decide))
    with_reducible apply logUeRep_keep (hT.sub (by decide))
    assumption
  · assumption

theorem wrResInj_keep {T : List Part} (hT : Within [.regs, .ig] T) {s0 : State} {s : State} (a : Acc) (c : Nat) (v : Word) (hs : Keep T s0 s) :
    Keep T s0 (wrResInj s a c v) := by
  unfold wrResInj
  with_reducible apply secureOnly_keep (hT.sub (by decide))
  · assumption
  · intro t0 h1
    with_reducible apply rset_keep (hT.sub (by decide))
    assumption

theorem escalate_keep {T : List Part} (hT : Within [.regs, .sels, .latches, .fe, .reqs, .nextHandle, .lastCore, .nextOrder, .cores, .graphs, .checking, .tables, .folds, .np, .xl, .dl, .ig, .pc, .fab] T) {s0 : State} {s : State} (cls : Nat) (block : Nat) (a3 : Nat) (n : Nat) (hs : Keep T s0 s) :
    Keep T s0 (escalate s cls block a3 n) := by
  unfold escalate
  split
  · assumption
  · split
    · with_reducible apply wholeReset_keep (hT.sub (by decide))
      assumption
    · extract_lets +onlyGivenNames x0
      have hx0 : Keep T s0 x0 := by
        unfold x0
        with_reducible apply logEv_keep (hT.sub (by decide))
        assumption
      clear_value x0
      extract_lets +onlyGivenNames x1
      have hx1 : Keep T s0 x1 := by
        unfold x1
        with_reducible apply rset_keep (hT.sub (by decide))
        assumption
      clear_value x1
      extract_lets +onlyGivenNames x2
      have hx2 : Keep T s0 x2 := by
        unfold x2
        with_reducible apply rset_keep (hT.sub (by decide))
        assumption
      clear_value x2
      with_reducible apply startOrderly_keep (hT.sub (by decide))
      with_reducible apply rsetF_keep (hT.sub (by decide))
      assumption

theorem contain_keep {T : List Part} (hT : Within [.regs, .sels, .latches, .fe, .reqs, .graphs, .checking, .tables, .folds, .np, .xl, .dl] T) {s0 : State} {s : State} (code : Nat) (index : Nat) (hs : Keep T s0 s) :
    Keep T s0 (contain s code index) := by
  unfold contain
  split
  · with_reducible refine keep_mk hT ?_ rfl ?_
    · assumption
    · (intro p hp; cases p <;> first | rfl | (exfalso; apply hp; decide))
  · extract_lets +onlyGivenNames x0
    split
    · with_reducible apply rsetF_keep (hT.sub (by decide))
      assumption
    · with_reducible apply rsetF_keep (hT.sub (by decide))
      assumption
    · with_reducible apply rsetF_keep (hT.sub (by decide))
      assumption
    · with_reducible apply rsetF_keep (hT.sub (by decide))
      assumption
  · with_reducible apply haltQueue_keep (hT.sub (by decide))
    assumption
  · with_reducible apply closeSession_keep (hT.sub (by decide))
    assumption
  · assumption

theorem privError_keep {T : List Part} (hT : Within [.regs, .sels, .latches, .fe, .reqs, .nextHandle, .lastCore, .nextOrder, .cores, .graphs, .checking, .tables, .folds, .np, .xl, .dl, .ig, .pc, .fab] T) {s0 : State} {s : State} (e : ErrRep) (hs : Keep T s0 s) :
    Keep T s0 (privError s e) := by
  unfold privError
  extract_lets +onlyGivenNames x0
  extract_lets +onlyGivenNames x1
  extract_lets +onlyGivenNames x2
  extract_lets +onlyGivenNames x3
  extract_lets +onlyGivenNames x4
  have hx4 : Keep T s0 x4 := by
    unfold x4
    split
    · with_reducible apply logUe_keep (hT.sub (by decide))
      assumption
    · with_reducible apply logEv_keep (hT.sub (by decide))
      assumption
  clear_value x4
  split
  · extract_lets +onlyGivenNames x5
    have hx5 : Keep T s0 x5 := by
      unfold x5
      split
      · with_reducible apply keep_foldl
        · assumption
        · intro t6 x7 h8
          with_reducible apply silence_keep (hT.sub (by decide))
          assumption
      · assumption
    clear_value x5
    split
    · with_reducible apply escalate_keep (hT.sub (by decide))
      assumption
    · with_reducible apply escalate_keep (hT.sub (by decide))
      assumption
  · with_reducible apply contain_keep (hT.sub (by decide))
    with_reducible apply cnt_keep (hT.sub (by decide))
    with_reducible apply rsetF_keep (hT.sub (by decide))
    assumption

theorem coreEnds_keep {T : List Part} (hT : Within [.regs, .fe, .reqs, .cores, .graphs, .checking, .tables, .folds, .dl] T) {s0 : State} {s : State} (c : Nat) (hs : Keep T s0 s) :
    Keep T s0 (coreEnds s c) := by
  unfold coreEnds
  extract_lets +onlyGivenNames x0
  have hx0 : Keep T s0 x0 := by
    unfold x0
    with_reducible apply keep_foldl
    · assumption
    · intro t1 x2 h3
      extract_lets +onlyGivenNames x4
      have hx4 : Keep T s0 x4 := by
        unfold x4
        with_reducible apply wantEnd_keep (hT.sub (by decide))
        assumption
      clear_value x4
      split
      · assumption
      · with_reducible apply endSlot_keep (hT.sub (by decide))
        with_reducible apply updCore_keep (hT.sub (by decide))
        · assumption
        · intro x5 h6
          with_reducible apply cupdSlot_keep
          assumption
  clear_value x0
  extract_lets +onlyGivenNames x7
  with_reducible apply keep_foldl
  · assumption
  · intro t8 x9 h10
    with_reducible apply abortCmd_keep (hT.sub (by decide))
    assumption

theorem ruEnds_keep {T : List Part} (hT : Within [.regs, .fe, .reqs, .graphs, .checking, .tables, .folds, .dl] T) {s0 : State} {s : State} (f : Nat) (hs : Keep T s0 s) :
    Keep T s0 (ruEnds s f) := by
  unfold ruEnds
  with_reducible apply keep_foldl
  · assumption
  · intro t0 x1 h2
    with_reducible apply abortCmd_keep (hT.sub (by decide))
    assumption

theorem unitEnds_keep {T : List Part} (hT : Within [.regs, .fe, .reqs, .cores, .graphs, .checking, .tables, .folds, .dl, .ig] T) {s0 : State} {s : State} (u : Nat) (sc : Scope) (hs : Keep T s0 s) :
    Keep T s0 (unitEnds s u sc) := by
  unfold unitEnds
  split
  · with_reducible apply coreEnds_keep (hT.sub (by decide))
    assumption
  · extract_lets +onlyGivenNames x0
    split
    · with_reducible apply gxEnds_keep (hT.sub (by decide))
      assumption
    · with_reducible apply ruEnds_keep (hT.sub (by decide))
      assumption
    · with_reducible apply updFold_keep (hT.sub (by decide))
      · with_reducible apply ruEnds_keep (hT.sub (by decide))
        with_reducible apply gxEnds_keep (hT.sub (by decide))
        assumption
      · intro x1 h2
        exact canonical_of (fold_pasture (by assumption)) (fold_pen (by assumption))

theorem unitQuiet_keep {T : List Part} (hT : Within [.regs, .fe, .reqs, .cores, .graphs, .checking, .tables, .folds, .dl, .ig] T) {s0 : State} {s : State} (u : Nat) (late : Option Word) (hs : Keep T s0 s) :
    Keep T s0 (unitQuiet s u late) := by
  unfold unitQuiet
  extract_lets +onlyGivenNames x0
  split
  · assumption
  · extract_lets +onlyGivenNames x1
    extract_lets +onlyGivenNames x2
    have hx2 : Keep T s0 x2 := by
      unfold x2
      split
      · with_reducible apply logEv_keep (hT.sub (by decide))
        assumption
      · assumption
    clear_value x2
    extract_lets +onlyGivenNames x3
    extract_lets +onlyGivenNames x4
    have hx4 : Keep T s0 x4 := by
      unfold x4
      with_reducible apply closeRecs_keep (hT.sub (by decide))
      assumption
    clear_value x4
    extract_lets +onlyGivenNames x5
    have hx5 : Keep T s0 x5 := by
      unfold x5
      with_reducible apply updUnit_keep (hT.sub (by decide))
      assumption
    clear_value x5
    extract_lets +onlyGivenNames x6
    have hx6 : Keep T s0 x6 := by
      unfold x6
      split
      · assumption
      · with_reducible apply updFold_keep (hT.sub (by decide))
        · assumption
        · intro x7 h8
          exact canonical_of (fold_pasture (by assumption)) (fold_pen (by assumption))
    clear_value x6
    extract_lets +onlyGivenNames x9
    have hx9 : Keep T s0 x9 := by
      unfold x9
      with_reducible apply logEv_keep (hT.sub (by decide))
      with_reducible apply cnt_keep (hT.sub (by decide))
      assumption
    clear_value x9
    with_reducible apply settle_keep (hT.sub (by decide))
    with_reducible apply unitEnds_keep (hT.sub (by decide))
    assumption

theorem coreFresh_keep {T : List Part} (hT : Within [.regs, .fe, .reqs, .cores, .graphs, .tables, .folds, .xl, .dl, .ig, .pc] T) {s0 : State} {s : State} (c : Nat) (hs : Keep T s0 s) :
    Keep T s0 (coreFresh s c) := by
  unfold coreFresh
  extract_lets +onlyGivenNames x0
  have hx0 : Keep T s0 x0 := by
    unfold x0
    with_reducible apply keep_foldl
    · assumption
    · intro t1 x2 h3
      with_reducible apply launchEnds_keep (hT.sub (by decide))
      assumption
  clear_value x0
  with_reducible apply updCore_keep (hT.sub (by decide))
  · assumption
  · intro x4 h5
    with_reducible apply scrZero_keep
    dsimp -zeta only
    assumption

theorem unitBack_keep {T : List Part} (hT : Within [.regs, .fe, .reqs, .cores, .graphs, .tables, .folds, .xl, .dl, .ig, .pc] T) {s0 : State} {s : State} (u : Nat) (hs : Keep T s0 s) :
    Keep T s0 (unitBack s u) := by
  unfold unitBack
  extract_lets +onlyGivenNames x0
  split
  · assumption
  · split
    · with_reducible apply updUnit_keep (hT.sub (by decide))
      with_reducible apply coreFresh_keep (hT.sub (by decide))
      assumption
    · extract_lets +onlyGivenNames x1
      extract_lets +onlyGivenNames x2
      have hx2 : Keep T s0 x2 := by
        unfold x2
        split
        · assumption
        · with_reducible apply rsetF_keep (hT.sub (by decide))
          assumption
      clear_value x2
      extract_lets +onlyGivenNames x3
      have hx3 : Keep T s0 x3 := by
        unfold x3
        split
        · with_reducible apply rsetF_keep (hT.sub (by decide))
          with_reducible apply updFold_keep (hT.sub (by decide))
          · assumption
          · intro x4 h5
            exact canonical_of (fold_pasture (by assumption)) (fold_pen (by assumption))
        · assumption
      clear_value x3
      extract_lets +onlyGivenNames x6
      have hx6 : Keep T s0 x6 := by
        unfold x6
        with_reducible apply updUnit_keep (hT.sub (by decide))
        assumption
      clear_value x6
      split
      · assumption
      · with_reducible apply keep_foldl
        · assumption
        · intro t7 x8 h9
          with_reducible apply nextWaiting_keep (hT.sub (by decide))
          assumption

theorem wrIgUrst_keep {T : List Part} (hT : Within [.ig, .pc] T) {s0 : State} {s : State} (a : Acc) (v : Word) (hs : Keep T s0 s) :
    Keep T s0 (wrIgUrst s a v) := by
  unfold wrIgUrst
  extract_lets +onlyGivenNames x0
  extract_lets +onlyGivenNames x1
  split
  · with_reducible apply wantReset_keep (hT.sub (by decide))
    assumption
  · assumption

theorem wrFlogCons_keep {T : List Part} (hT : Within [.regs, .ig] T) {s0 : State} {s : State} (a : Acc) (v : Word) (hs : Keep T s0 s) :
    Keep T s0 (wrFlogCons s a v) := by
  unfold wrFlogCons
  with_reducible apply secureOnly_keep (hT.sub (by decide))
  · assumption
  · intro t0 h1
    with_reducible apply rset_keep (hT.sub (by decide))
    assumption

theorem startAgain_keep {T : List Part} (hT : Within [.ig, .pc] T) {s0 : State} {s : State} (u : Nat) (hs : Keep T s0 s) :
    Keep T s0 (startAgain s u) := by
  unfold startAgain
  extract_lets +onlyGivenNames x0
  split
  · extract_lets +onlyGivenNames x1
    split
    · with_reducible apply setUnit_keep (hT.sub (by decide))
      with_reducible apply meetReplan_keep (hT.sub (by decide))
      assumption
    · assumption
  · assumption

theorem takeSites_keep {T : List Part} (hT : Within [.regs, .pc] T) {s0 : State} {s : State} (l : List Site) (hs : Keep T s0 s) :
    Keep T s0 (takeSites s l) := by
  unfold takeSites
  extract_lets +onlyGivenNames x0
  extract_lets +onlyGivenNames x1
  extract_lets +onlyGivenNames x2
  have hx2 : Keep T s0 x2 := by
    unfold x2
    with_reducible refine keep_pc (hT.sub (by decide)) ?_
    assumption
  clear_value x2
  extract_lets +onlyGivenNames x3
  have hx3 : Keep T s0 x3 := by
    unfold x3
    with_reducible apply rsetF_keep (hT.sub (by decide))
    with_reducible apply rsetF_keep (hT.sub (by decide))
    assumption
  clear_value x3
  with_reducible apply rset_keep (hT.sub (by decide))
  assumption

theorem failRail_keep {T : List Part} (hT : Within [.regs, .pc] T) {s0 : State} {s : State} (dom : Nat) (mv : Nat) (hs : Keep T s0 s) :
    Keep T s0 (failRail s dom mv) := by
  unfold failRail
  extract_lets +onlyGivenNames x0
  have hx0 : Keep T s0 x0 := by
    unfold x0
    with_reducible apply cntN_keep (hT.sub (by decide))
    with_reducible apply rsetF_keep (hT.sub (by decide))
    with_reducible apply keep_foldl
    · assumption
    · intro t1 x2 h3
      with_reducible apply emit_keep
      assumption
  clear_value x0
  with_reducible refine keep_pc (hT.sub (by decide)) ?_
  assumption

theorem setRail_keep {T : List Part} (hT : Within [.regs, .pc] T) {s0 : State} {s : State} (dom : Nat) (mv : Nat) (hs : Keep T s0 s) :
    Keep T s0 (setRail s dom mv) := by
  unfold setRail
  extract_lets +onlyGivenNames x0
  have hx0 : Keep T s0 x0 := by
    unfold x0
    with_reducible apply emit_keep
    assumption
  clear_value x0
  extract_lets +onlyGivenNames x1
  extract_lets +onlyGivenNames x2
  have hx2 : Keep T s0 x2 := by
    unfold x2
    with_reducible refine keep_pc (hT.sub (by decide)) ?_
    assumption
  clear_value x2
  split
  · with_reducible apply rsetF_keep (hT.sub (by decide))
    assumption
  · with_reducible apply rsetF_keep (hT.sub (by decide))
    assumption

theorem voltWrite_keep {T : List Part} (hT : Within [.regs, .pc] T) {s0 : State} {s : State} (a : Acks) (dom : Nat) (mv : Nat) (hs : Keep T s0 s) :
    Keep T s0 (voltWrite s a dom mv).1 := by
  unfold voltWrite
  extract_lets +onlyGivenNames x0
  extract_lets +onlyGivenNames x1
  extract_lets +onlyGivenNames x2
  split
  · dsimp -zeta only
    with_reducible apply failRail_keep (hT.sub (by decide))
    assumption
  · dsimp -zeta only
    with_reducible apply setRail_keep (hT.sub (by decide))
    with_reducible apply cntN_keep (hT.sub (by decide))
    with_reducible apply keep_foldl
    · assumption
    · intro t3 x4 h5
      with_reducible apply emit_keep
      assumption

theorem retrainLink_keep {T : List Part} (hT : Within [.regs, .fe, .reqs, .cores, .graphs, .tables, .folds, .dl] T) {s0 : State} {s : State} (l : Nat) (failed : Bool) (hs : Keep T s0 s) :
    Keep T s0 (retrainLink s l failed) := by
  unfold retrainLink
  extract_lets +onlyGivenNames x0
  have hx0 : Keep T s0 x0 := by
    unfold x0
    with_reducible apply leaveUp_keep (hT.sub (by decide))
    assumption
  clear_value x0
  split
  · with_reducible apply updLink_keep (hT.sub (by decide))
    assumption
  · with_reducible apply comeUp_keep (hT.sub (by decide))
    with_reducible apply updLink_keep (hT.sub (by decide))
    assumption

theorem retrainLinks_keep {T : List Part} (hT : Within [.regs, .fe, .reqs, .cores, .graphs, .tables, .folds, .dl] T) {s0 : State} {s : State} (failed : List (Fin 32)) (hs : Keep T s0 s) :
    Keep T s0 (retrainLinks s failed).1 := by
  unfold retrainLinks
  with_reducible refine foldl_keep (fun p => Keep T s0 (Prod.fst p)) _ _ _ ?_ ?_
  · dsimp -zeta only
    assumption
  · intro x0 x1 h2
    split
    · assumption
    · split
      · dsimp -zeta only
        assumption
      · extract_lets +onlyGivenNames x3
        dsimp -zeta only
        with_reducible apply retrainLink_keep (hT.sub (by decide))
        assumption

theorem wrMarginCtl_keep {T : List Part} (hT : Within [.regs, .ig, .pc] T) {s0 : State} {s : State} (a : Acc) (v : Word) (hs : Keep T s0 s) :
    Keep T s0 (wrMarginCtl s a v) := by
  unfold wrMarginCtl
  with_reducible apply secureOnly_keep (hT.sub (by decide))
  · assumption
  · intro t0 h1
    extract_lets +onlyGivenNames x2
    have hx2 : Keep T s0 x2 := by
      unfold x2
      with_reducible apply rset_keep (hT.sub (by decide))
      assumption
    clear_value x2
    split
    · with_reducible apply startReplan_keep (hT.sub (by decide))
      assumption
    · assumption

theorem emergency_keep {T : List Part} (hT : Within [.regs, .pc] T) {s0 : State} {s : State} (a : Acks) (dom : Nat) (hs : Keep T s0 s) :
    Keep T s0 (emergency s a dom).1 := by
  unfold emergency
  split
  · extract_lets +onlyGivenNames x0
    have hx0 : Keep T s0 x0.1 := by
      unfold x0
      with_reducible apply voltWrite_keep (hT.sub (by decide))
      assumption
    clear_value x0
    dsimp -zeta only
    with_reducible apply startReplan_keep (hT.sub (by decide))
    with_reducible apply cnt_keep (hT.sub (by decide))
    with_reducible apply rsetF_keep (hT.sub (by decide))
    assumption
  · dsimp -zeta only
    assumption

theorem reading_keep {T : List Part} (hT : Within [.regs, .pc] T) {s0 : State} {s : State} (l : List Site) (a : Acks) (hs : Keep T s0 s) :
    Keep T s0 (reading s l a).1 := by
  unfold reading
  extract_lets +onlyGivenNames x0
  have hx0 : Keep T s0 x0.1 := by
    unfold x0
    with_reducible apply emergency_keep (hT.sub (by decide))
    with_reducible apply takeSites_keep (hT.sub (by decide))
    assumption
  clear_value x0
  with_reducible apply emergency_keep (hT.sub (by decide))
  assumption

theorem planVolt_keep {T : List Part} (hT : Within [.regs, .pc] T) {s0 : State} {s : State} (a : Acks) (first : Bool) (l1 : List Site) (dom : Nat) (hs : Keep T s0 s) :
    Keep T s0 (planVolt s a first l1 dom).1 := by
  unfold planVolt
  extract_lets +onlyGivenNames x0
  split
  · dsimp -zeta only
    assumption
  · with_reducible apply voltWrite_keep (hT.sub (by decide))
    assumption

theorem planVolts_keep {T : List Part} (hT : Within [.regs, .pc] T) {s0 : State} {s : State} (first : Bool) (l1 : List Site) (l2 : List Site) (a1 : Acks) (a2 : Acks) (hs : Keep T s0 s) :
    Keep T s0 (planVolts s first l1 l2 a1 a2) := by
  unfold planVolts
  extract_lets +onlyGivenNames x0
  have hx0 : Keep T s0 x0.1 := by
    unfold x0
    with_reducible apply reading_keep (hT.sub (by decide))
    assumption
  clear_value x0
  extract_lets +onlyGivenNames x1
  have hx1 : Keep T s0 x1.1 := by
    unfold x1
    with_reducible apply planVolt_keep (hT.sub (by decide))
    assumption
  clear_value x1
  extract_lets +onlyGivenNames x2
  have hx2 : Keep T s0 x2.1 := by
    unfold x2
    with_reducible apply planVolt_keep (hT.sub (by decide))
    assumption
  clear_value x2
  with_reducible apply reading_keep (hT.sub (by decide))
  assumption

theorem makePlan_keep {T : List Part} (hT : Within [.regs, .pc] T) {s0 : State} {s : State} (first : Bool) (reason : Nat) (l1 : List Site) (l : List Site) (e : PlanEyes) (a1 : Acks) (a2 : Acks) (hs : Keep T s0 s) :
    Keep T s0 (makePlan s first reason l1 l e a1 a2) := by
  unfold makePlan
  extract_lets +onlyGivenNames x0
  have hx0 : Keep T s0 x0 := by
    unfold x0
    with_reducible apply planVolts_keep (hT.sub (by decide))
    assumption
  clear_value x0
  extract_lets +onlyGivenNames x1
  extract_lets +onlyGivenNames x2
  extract_lets +onlyGivenNames x3
  extract_lets +onlyGivenNames x4
  extract_lets +onlyGivenNames x5
  extract_lets +onlyGivenNames x6
  extract_lets +onlyGivenNames x7
  have hx7 : Keep T s0 x7 := by
    unfold x7
    exact keep_pc (hT.sub (by decide)) hx0
  clear_value x7
  extract_lets +onlyGivenNames x8
  have hx8 : Keep T s0 x8 := by
    unfold x8
    with_reducible apply rsetF_keep (hT.sub (by decide))
    with_reducible apply rsetF_keep (hT.sub (by decide))
    assumption
  clear_value x8
  extract_lets +onlyGivenNames x9
  have hx9 : Keep T s0 x9 := by
    unfold x9
    split
    · with_reducible apply rsetF_keep (hT.sub (by decide))
      assumption
    · assumption
  clear_value x9
  split
  · assumption
  · with_reducible apply cnt_keep (hT.sub (by decide))
    assumption

theorem halt_keep {T : List Part} (hT : Within [.regs, .np] T) {s0 : State} {s : State} (code : Nat) (hs : Keep T s0 s) :
    Keep T s0 (halt s code) := by
  unfold halt
  with_reducible apply setStage_keep (hT.sub (by decide))
  with_reducible apply setCode_keep (hT.sub (by decide))
  with_reducible refine keep_mk hT ?_ rfl ?_
  · assumption
  · (intro p hp; cases p <;> first | rfl | (exfalso; apply hp; decide))

theorem sign_keep {T : List Part} (hT : Within [.pc] T) {s0 : State} {s : State} (sk : Bytes) (ctx : Byte) (signed : Bytes) (hs : Keep T s0 s) :
    Keep T s0 (sign s sk ctx signed).2 := by
  unfold sign
  dsimp -zeta only
  with_reducible refine keep_pc (hT.sub (by decide)) ?_
  assumption

theorem makeKeys_keep {T : List Part} (hT : Within [.regs, .pc] T) {s0 : State} {s : State} (hs : Keep T s0 s) :
    Keep T s0 (makeKeys s) := by
  unfold makeKeys
  extract_lets +onlyGivenNames x0
  extract_lets +onlyGivenNames x1
  extract_lets +onlyGivenNames x2
  extract_lets +onlyGivenNames x3
  extract_lets +onlyGivenNames x4
  have hx4 : Keep T s0 x4 := by
    unfold x4
    with_reducible refine keep_pc (hT.sub (by decide)) ?_
    assumption
  clear_value x4
  extract_lets +onlyGivenNames x5
  have hx5 : Keep T s0 x5 := by
    unfold x5
    with_reducible apply rset_keep (hT.sub (by decide))
    assumption
  clear_value x5
  extract_lets +onlyGivenNames x6
  have hx6 : Keep T s0 x6 := by
    unfold x6
    split
    · with_reducible apply rsetBytes_keep (hT.sub (by decide))
      assumption
    · assumption
  clear_value x6
  extract_lets +onlyGivenNames x7
  extract_lets +onlyGivenNames x8
  have hx8 : Keep T s0 x8 := by
    unfold x8
    with_reducible refine keep_pc (hT.sub (by decide)) ?_
    assumption
  clear_value x8
  extract_lets +onlyGivenNames x9
  have hx9 : Keep T s0 x9.2 := by
    unfold x9
    with_reducible apply sign_keep (hT.sub (by decide))
    assumption
  clear_value x9
  extract_lets +onlyGivenNames x10
  have hx10 : Keep T s0 x10 := by
    unfold x10
    assumption
  clear_value x10
  extract_lets +onlyGivenNames x11
  extract_lets +onlyGivenNames x12
  have hx12 : Keep T s0 x12 := by
    unfold x12
    split
    · assumption
    · with_reducible apply rsetF_keep (hT.sub (by decide))
      with_reducible refine keep_pc (hT.sub (by decide)) ?_
      assumption
  clear_value x12
  with_reducible refine keep_pc (hT.sub (by decide)) ?_
  assumption

theorem inStage_keep {T : List Part} (hT : Within [] T) {s0 : State} {s : State} (n : Nat) (g : State → State) (hs : Keep T s0 s) (hg : ∀ y0, Keep T s0 y0 → Keep T s0 (g y0)) :
    Keep T s0 (inStage s n g) := by
  unfold inStage
  split
  · assumption
  · with_reducible apply_assumption -exfalso
    assumption

theorem coreFailed_keep {T : List Part} (hT : Within [.regs, .ig] T) {s0 : State} {s : State} (c : Nat) (hs : Keep T s0 s) :
    Keep T s0 (coreFailed s c) := by
  unfold coreFailed
  extract_lets +onlyGivenNames x0
  have hx0 : Keep T s0 x0.2 := by
    unfold x0
    with_reducible apply draw_keep
    assumption
  clear_value x0
  extract_lets +onlyGivenNames x1
  have hx1 : Keep T s0 x1.2 := by
    unfold x1
    with_reducible apply draw_keep
    assumption
  clear_value x1
  with_reducible apply logEv_keep (hT.sub (by decide))
  with_reducible apply setCode_keep (hT.sub (by decide))
  with_reducible apply rsetF_keep (hT.sub (by decide))
  assumption

theorem pufCycle_keep {T : List Part} (hT : Within [.pc] T) {s0 : State} {s : State} (block : Bytes) (hs : Keep T s0 s) :
    Keep T s0 (pufCycle s block).2 := by
  unfold pufCycle
  extract_lets +onlyGivenNames x0
  extract_lets +onlyGivenNames x1
  have hx1 : Keep T s0 x1 := by
    unfold x1
    with_reducible refine keep_pc (hT.sub (by decide)) ?_
    assumption
  clear_value x1
  dsimp -zeta only
  with_reducible refine keep_pc (hT.sub (by decide)) ?_
  assumption

theorem strap_keep {T : List Part} (hT : Within [.regs] T) {s0 : State} {s : State} (l : List (BitVec 3)) (hs : Keep T s0 s) :
    Keep T s0 (strap s l) := by
  unfold strap
  split
  · assumption
  · extract_lets +onlyGivenNames x0
    with_reducible apply cntN_keep (hT.sub (by decide))
    with_reducible apply rsetF_keep (hT.sub (by decide))
    assumption

theorem flashGo_keep {T : List Part} (hT : Within [.regs, .pc] T) {s0 : State} {s : State} (a : Nat) (op : FlashOp) (hs : Keep T s0 s) :
    Keep T s0 (flashGo s a op) := by
  unfold flashGo
  split
  · with_reducible apply rsetF_keep (hT.sub (by decide))
    assumption
  · with_reducible apply rsetF_keep (hT.sub (by decide))
    with_reducible refine keep_pc (hT.sub (by decide)) ?_
    assumption

theorem runImage_keep {T : List Part} (hT : Within [.regs, .pc] T) {s0 : State} {s : State} (b : Bytes) (src : Nat) (hs : Keep T s0 s) :
    Keep T s0 (runImage s b src) := by
  unfold runImage
  extract_lets +onlyGivenNames x0
  extract_lets +onlyGivenNames x1
  have hx1 : Keep T s0 x1 := by
    unfold x1
    with_reducible refine keep_pc (hT.sub (by decide)) ?_
    assumption
  clear_value x1
  with_reducible apply setStage_keep (hT.sub (by decide))
  with_reducible apply rsetF_keep (hT.sub (by decide))
  assumption

theorem wrRstCtl_keep {T : List Part} (hT : Within [.regs, .sels, .latches, .fe, .reqs, .cores, .checking, .folds, .np, .xl, .dl, .ig, .pc] T) {s0 : State} {s : State} (a : Acc) (v : Word) (hs : Keep T s0 s) :
    Keep T s0 (wrRstCtl s a v) := by
  unfold wrRstCtl
  split
  · with_reducible apply startOrderly_keep (hT.sub (by decide))
    assumption
  · assumption

theorem trainFold_keep {T : List Part} (hT : Within [.folds] T) {s0 : State} (fail : BitVec 128) (eyes : List (Byte × Byte × Byte)) {s : State} (f : Nat) (hs : Keep T s0 s) :
    Keep T s0 (trainFold fail eyes s f) := by
  unfold trainFold
  with_reducible apply keep_foldl
  · assumption
  · intro t0 x1 h2
    extract_lets +onlyGivenNames x3
    extract_lets +onlyGivenNames x4
    have hx4 : Keep T s0 x4.2 := by
      unfold x4
      with_reducible apply draw_keep
      assumption
    clear_value x4
    with_reducible apply updFold_keep (hT.sub (by decide))
    · assumption
    · intro x5 h6
      exact canonical_of (fold_pasture (by assumption)) (fold_pen (by assumption))

theorem rereadPuf_keep {T : List Part} (hT : Within [.pc] T) {s0 : State} {s : State} (block : Bytes) (hs : Keep T s0 s) :
    Keep T s0 (rereadPuf s block) := by
  unfold rereadPuf
  extract_lets +onlyGivenNames x0
  have hx0 : Keep T s0 x0.2 := by
    unfold x0
    with_reducible apply pufCycle_keep (hT.sub (by decide))
    assumption
  clear_value x0
  extract_lets +onlyGivenNames x1
  have hx1 : Keep T s0 x1 := by
    unfold x1
    assumption
  clear_value x1
  with_reducible refine keep_pc (hT.sub (by decide)) ?_
  assumption

theorem toFallback_keep {T : List Part} (hT : Within [.regs, .np, .pc] T) {s0 : State} {s : State} (hs : Keep T s0 s) :
    Keep T s0 (toFallback s) := by
  unfold toFallback
  with_reducible apply setStage_keep (hT.sub (by decide))
  with_reducible apply bootMac_keep (hT.sub (by decide))
  with_reducible refine keep_pc (hT.sub (by decide)) ?_
  assumption

theorem entropy32_keep {T : List Part} (hT : Within [.pc] T) {s0 : State} {s : State} (hs : Keep T s0 s) :
    Keep T s0 (entropy32 s).2 := by
  unfold entropy32
  dsimp -zeta only
  with_reducible refine keep_pc (hT.sub (by decide)) ?_
  assumption

theorem newNonce_keep {T : List Part} (hT : Within [.regs, .pc] T) {s0 : State} {s : State} (hs : Keep T s0 s) :
    Keep T s0 (newNonce s) := by
  unfold newNonce
  extract_lets +onlyGivenNames x0
  have hx0 : Keep T s0 x0.2 := by
    unfold x0
    with_reducible apply entropy32_keep (hT.sub (by decide))
    assumption
  clear_value x0
  with_reducible apply rsetBytes_keep (hT.sub (by decide))
  assumption

theorem foldFailed_keep {T : List Part} (hT : Within [.regs, .folds, .ig] T) {s0 : State} (n : Nat) {s : State} (f : Nat) (hs : Keep T s0 s) :
    Keep T s0 (foldFailed n s f) := by
  unfold foldFailed
  extract_lets +onlyGivenNames x0
  have hx0 : Keep T s0 x0 := by
    unfold x0
    with_reducible apply updFold_keep (hT.sub (by decide))
    · assumption
    · intro x1 h2
      exact canonical_of (fold_pasture (by assumption)) (fold_pen (by assumption))
  clear_value x0
  with_reducible apply logEv_keep (hT.sub (by decide))
  with_reducible apply setCode_keep (hT.sub (by decide))
  with_reducible apply rsetF_keep (hT.sub (by decide))
  assumption

theorem sramFailed_keep {T : List Part} (hT : Within [.regs, .ig] T) {s0 : State} {s : State} (hs : Keep T s0 s) :
    Keep T s0 (sramFailed s) := by
  unfold sramFailed
  extract_lets +onlyGivenNames x0
  have hx0 : Keep T s0 x0.2 := by
    unfold x0
    with_reducible apply draw_keep
    assumption
  clear_value x0
  extract_lets +onlyGivenNames x1
  have hx1 : Keep T s0 x1.2 := by
    unfold x1
    with_reducible apply draw_keep
    assumption
  clear_value x1
  with_reducible apply logEv_keep (hT.sub (by decide))
  assumption

theorem wrFlashCtl_keep {T : List Part} (hT : Within [.regs, .pc] T) {s0 : State} {s : State} (a : Acc) (v : Word) (hs : Keep T s0 s) :
    Keep T s0 (wrFlashCtl s a v) := by
  unfold wrFlashCtl
  extract_lets +onlyGivenNames x0
  extract_lets +onlyGivenNames x1
  have hx1 : Keep T s0 x1 := by
    unfold x1
    split
    · with_reducible apply rsetF_keep (hT.sub (by decide))
      assumption
    · assumption
  clear_value x1
  split
  · assumption
  · split
    · with_reducible apply flashGo_keep (hT.sub (by decide))
      assumption
    · split
      · with_reducible apply flashGo_keep (hT.sub (by decide))
        assumption
      · split
        · with_reducible apply flashGo_keep (hT.sub (by decide))
          assumption
        · assumption

theorem trainLinks_keep {T : List Part} (hT : Within [.dl] T) {s0 : State} {s : State} (hs : Keep T s0 s) :
    Keep T s0 (trainLinks s) := by
  unfold trainLinks
  with_reducible apply keep_foldl
  · assumption
  · intro t0 x1 h2
    split
    · with_reducible apply setLink_keep (hT.sub (by decide))
      assumption
    · assumption

end Sys2Proof.Machine
end

