-- ==== Sys2Proof/Laws/KeepReg.lean ====
section
/-! SUPPORT. `Keep` holds after each operation of pins, security and registers, where it held before. -/

namespace Sys2Proof.Machine

theorem setCond_keep {T : List Part} (hT : Within [.pc] T) {s0 : State} {s : State} (p : Pin) (c : Cond) (hs : Keep T s0 s) :
    Keep T s0 (setCond s p c) := by
  unfold setCond
  split
  · with_reducible refine keep_pc (hT.sub (by decide)) ?_
    assumption
  · with_reducible refine keep_pc (hT.sub (by decide)) ?_
    assumption
  · with_reducible refine keep_pc (hT.sub (by decide)) ?_
    assumption
  · assumption

theorem syncEdge_keep {T : List Part} (hT : Within [.dl] T) {s0 : State} {s : State} (hs : Keep T s0 s) :
    Keep T s0 (syncEdge s) := by
  unfold syncEdge
  split
  · assumption
  · with_reducible refine keep_mk hT ?_ rfl ?_
    · assumption
    · (intro p hp; cases p <;> first | rfl | (exfalso; apply hp; decide))

theorem sbByte_keep {T : List Part} (hT : Within [.pc] T) {s0 : State} {s : State} (hs : Keep T s0 s) :
    Keep T s0 (sbByte s).2 := by
  unfold sbByte
  extract_lets +onlyGivenNames x0
  extract_lets +onlyGivenNames x1
  extract_lets +onlyGivenNames x2
  extract_lets +onlyGivenNames x3
  have hx3 : Keep T s0 x3 := by
    unfold x3
    with_reducible refine keep_pc (hT.sub (by decide)) ?_
    assumption
  clear_value x3
  split
  · dsimp -zeta only
    with_reducible refine keep_pc (hT.sub (by decide)) ?_
    assumption
  · split
    · split
      · dsimp -zeta only
        assumption
      · dsimp -zeta only
        assumption
    · dsimp -zeta only
      assumption

theorem sbBytes_keep {T : List Part} (hT : Within [.pc] T) {s0 : State} (n : Nat) {s : State} (hs : Keep T s0 s) : Keep T s0 (sbBytes n s).2 := by
  induction n generalizing s with
  | zero => exact hs
  | succ n ih => exact ih (sbByte_keep (hT.sub (by decide)) hs)

theorem filterTo_keep {T : List Part} (hT : Within [.regs, .pc] T) {s0 : State} {s : State} (p : Pin) (lvl : Bool) (hs : Keep T s0 s) :
    Keep T s0 (filterTo s p lvl) := by
  unfold filterTo
  extract_lets +onlyGivenNames x0
  split
  · assumption
  · split
    · with_reducible apply cnt_keep (hT.sub (by decide))
      with_reducible apply setCond_keep (hT.sub (by decide))
      assumption
    · with_reducible apply setCond_keep (hT.sub (by decide))
      assumption

theorem declare__keep {T : List Part} (hT : Within [.regs, .pc] T) {s0 : State} {s : State} (p : Pin) (hs : Keep T s0 s) :
    Keep T s0 (declare_ s p) := by
  unfold declare_
  with_reducible apply cnt_keep (hT.sub (by decide))
  with_reducible apply rsetF_keep (hT.sub (by decide))
  with_reducible apply setCond_keep (hT.sub (by decide))
  assumption

theorem driveTdo_keep {T : List Part} (hT : Within [] T) {s0 : State} {s : State} (b : Bytes) (hs : Keep T s0 s) :
    Keep T s0 (driveTdo s b) := by
  unfold driveTdo
  split
  · assumption
  · with_reducible apply emit_keep
    assumption

theorem raiseLevel_keep {T : List Part} (hT : Within [.regs, .pc] T) {s0 : State} {s : State} (l : Nat) (hs : Keep T s0 s) :
    Keep T s0 (raiseLevel s l) := by
  unfold raiseLevel
  split
  · assumption
  · extract_lets +onlyGivenNames x0
    extract_lets +onlyGivenNames x1
    have hx1 : Keep T s0 x1 := by
      unfold x1
      split
      · with_reducible apply rsetF_keep (hT.sub (by decide))
        with_reducible refine keep_pc (hT.sub (by decide)) ?_
        assumption
      · assumption
    clear_value x1
    with_reducible apply rsetF_keep (hT.sub (by decide))
    with_reducible refine keep_pc (hT.sub (by decide)) ?_
    assumption

theorem submitToken_keep {T : List Part} (hT : Within [.regs, .pc] T) {s0 : State} {s : State} (hs : Keep T s0 s) :
    Keep T s0 (submitToken s) := by
  unfold submitToken
  extract_lets +onlyGivenNames x0
  extract_lets +onlyGivenNames x1
  extract_lets +onlyGivenNames x2
  have hx2 : Keep T s0 x2 := by
    unfold x2
    with_reducible apply rset_keep (hT.sub (by decide))
    assumption
  clear_value x2
  with_reducible apply newNonce_keep (hT.sub (by decide))
  split
  · with_reducible apply raiseLevel_keep (hT.sub (by decide))
    assumption
  · with_reducible apply cnt_keep (hT.sub (by decide))
    assumption

theorem wrDbgCtl_keep {T : List Part} (hT : Within [.regs, .pc] T) {s0 : State} {s : State} (a : Acc) (v : Word) (hs : Keep T s0 s) :
    Keep T s0 (wrDbgCtl s a v) := by
  unfold wrDbgCtl
  split
  · with_reducible apply submitToken_keep (hT.sub (by decide))
    assumption
  · assumption

theorem tapGo_keep {T : List Part} (hT : Within [.pc] T) {s0 : State} {s : State} (level : Nat) (ir : TapIr) (g : State → State) (hs : Keep T s0 s) (hg : ∀ y0, Keep T s0 y0 → Keep T s0 (g y0)) :
    Keep T s0 (tapGo s level ir g) := by
  unfold tapGo
  split
  · assumption
  · split
    · with_reducible apply driveTdo_keep (hT.sub (by decide))
      with_reducible refine keep_pc (hT.sub (by decide)) ?_
      assumption
    · with_reducible apply_assumption -exfalso
      with_reducible refine keep_pc (hT.sub (by decide)) ?_
      assumption

theorem wrOwnerKey_keep {T : List Part} (hT : Within [.regs, .ig] T) {s0 : State} {s : State} (a : Acc) (k : Nat) (v : Word) (hs : Keep T s0 s) :
    Keep T s0 (wrOwnerKey s a k v) := by
  unfold wrOwnerKey
  with_reducible apply secureOnly_keep (hT.sub (by decide))
  · assumption
  · intro t0 h1
    split
    · with_reducible apply rset_keep (hT.sub (by decide))
      assumption
    · assumption

theorem wrWorldMap_keep {T : List Part} (hT : Within [.regs, .ig] T) {s0 : State} {s : State} (a : Acc) (v : Word) (hs : Keep T s0 s) :
    Keep T s0 (wrWorldMap s a v) := by
  unfold wrWorldMap
  with_reducible apply secureOnly_keep (hT.sub (by decide))
  · assumption
  · intro t0 h1
    extract_lets +onlyGivenNames x2
    split
    · with_reducible apply rset_keep (hT.sub (by decide))
      assumption
    · with_reducible apply rsetF_keep (hT.sub (by decide))
      assumption

theorem viewWrite_keep {T : List Part} (hT : Within [.regs, .cores, .ig] T) {s0 : State} {s : State} (a : Acc) (c : Nat) (k : Nat) (v : Word) (hs : Keep T s0 s) :
    Keep T s0 (viewWrite s a c k v) := by
  unfold viewWrite
  split
  · with_reducible apply worldViolation_keep (hT.sub (by decide))
    assumption
  · split
    · assumption
    · with_reducible apply updCore_keep (hT.sub (by decide))
      · assumption
      · intro x0 h1
        with_reducible apply extWrite_keep
        assumption

theorem viewRead_keep {T : List Part} (hT : Within [.regs, .ig] T) {s0 : State} {s : State} (a : Acc) (c : Nat) (k : Nat) (hs : Keep T s0 s) :
    Keep T s0 (viewRead s a c k).2 := by
  unfold viewRead
  split
  · dsimp -zeta only
    with_reducible apply worldViolation_keep (hT.sub (by decide))
    assumption
  · split
    · dsimp -zeta only
      assumption
    · dsimp -zeta only
      assumption

theorem readDef_keep {T : List Part} (hT : Within [.latches] T) {s0 : State} {s : State} (a : Acc) (addr : Nat) (d : RegDef) (hs : Keep T s0 s) :
    Keep T s0 (readDef s a addr d).2 := by
  unfold readDef
  extract_lets +onlyGivenNames x0
  split
  · dsimp -zeta only
    with_reducible apply setLatch_keep (hT.sub (by decide))
    assumption
  · split
    · split
      · dsimp -zeta only
        with_reducible apply setLatch_keep (hT.sub (by decide))
        assumption
      · dsimp -zeta only
        assumption
    · dsimp -zeta only
      assumption

theorem regRead_keep {T : List Part} (hT : Within [.regs, .latches, .ig] T) {s0 : State} {s : State} (a : Acc) (addr : Nat) (hs : Keep T s0 s) :
    Keep T s0 (regRead s a addr).2 := by
  unfold regRead
  extract_lets +onlyGivenNames x0
  have hx0 : Keep T s0 x0.2 := by
    unfold x0
    split
    · with_reducible apply viewRead_keep (hT.sub (by decide))
      assumption
    · split
      · dsimp -zeta only
        assumption
      · with_reducible apply readDef_keep (hT.sub (by decide))
        assumption
  clear_value x0
  dsimp -zeta only
  assumption

theorem wrPolicyCtl_keep {T : List Part} (hT : Within [.regs] T) {s0 : State} {s : State} (f : Nat) (v : Word) (hs : Keep T s0 s) :
    Keep T s0 (wrPolicyCtl s f v) := by
  unfold wrPolicyCtl
  with_reducible apply rset_keep (hT.sub (by decide))
  assumption

theorem wrFeQCfg_keep {T : List Part} (hT : Within [.regs] T) {s0 : State} {s : State} (q : Nat) (o : Nat) (v : Nat) (hs : Keep T s0 s) :
    Keep T s0 (wrFeQCfg s q o v) := by
  unfold wrFeQCfg
  split
  · with_reducible apply rset_keep (hT.sub (by decide))
    assumption
  · assumption

theorem plainWrite_keep {T : List Part} (hT : Within [.regs] T) {s0 : State} {s : State} (a : Acc) (addr : Nat) (d : RegDef) (v : Word) (hs : Keep T s0 s) :
    Keep T s0 (plainWrite s a addr d v) := by
  unfold plainWrite
  extract_lets +onlyGivenNames x0
  extract_lets +onlyGivenNames x1
  extract_lets +onlyGivenNames x2
  split
  · extract_lets +onlyGivenNames x3
    extract_lets +onlyGivenNames x4
    split
    · with_reducible apply rset_keep (hT.sub (by decide))
      assumption
    · with_reducible apply rset_keep (hT.sub (by decide))
      assumption
  · assumption

theorem wrConvCtl_keep {T : List Part} (hT : Within [.regs] T) {s0 : State} {s : State} (f : Nat) (v : Word) (hs : Keep T s0 s) :
    Keep T s0 (wrConvCtl s f v) := by
  unfold wrConvCtl
  extract_lets +onlyGivenNames x0
  extract_lets +onlyGivenNames x1
  extract_lets +onlyGivenNames x2
  have hx2 : Keep T s0 x2 := by
    unfold x2
    with_reducible apply rset_keep (hT.sub (by decide))
    assumption
  clear_value x2
  split
  · with_reducible apply clearRegs_keep (hT.sub (by decide))
    assumption
  · assumption

theorem wrTblWin_keep {T : List Part} (hT : Within [.regs, .xl, .ig] T) {s0 : State} {s : State} (a : Acc) (word : Nat) (v : Word) (hs : Keep T s0 s) :
    Keep T s0 (wrTblWin s a word v) := by
  unfold wrTblWin
  with_reducible apply secureOnly_keep (hT.sub (by decide))
  · assumption
  · intro t0 h1
    extract_lets +onlyGivenNames x2
    extract_lets +onlyGivenNames x3
    split
    · with_reducible refine keep_mk hT ?_ rfl ?_
      · assumption
      · (intro p hp; cases p <;> first | rfl | (exfalso; apply hp; decide))
    · extract_lets +onlyGivenNames x4
      with_reducible refine keep_mk hT ?_ rfl ?_
      · assumption
      · (intro p hp; cases p <;> first | rfl | (exfalso; apply hp; decide))

theorem wrPopThresh_keep {T : List Part} (hT : Within [.regs] T) {s0 : State} {s : State} (f : Nat) (v : Word) (hs : Keep T s0 s) :
    Keep T s0 (wrPopThresh s f v) := by
  unfold wrPopThresh
  with_reducible apply rset_keep (hT.sub (by decide))
  assumption

theorem foldWrite_keep {T : List Part} (hT : Within [.regs, .folds, .ig] T) {s0 : State} {s : State} (a : Acc) (f : Nat) (o : Nat) (i : Nat) (v : Word) (hs : Keep T s0 s) :
    ∀ t, foldWrite s a f o i v = some t → Keep T s0 t := by
  unfold foldWrite
  split
  · with_reducible apply keep_pure
    with_reducible apply wrPolicyCtl_keep (hT.sub (by decide))
    assumption
  · split
    · with_reducible apply keep_pure
      with_reducible apply wrPopThresh_keep (hT.sub (by decide))
      assumption
    · split
      · with_reducible apply keep_pure
        with_reducible apply wrConvCtl_keep (hT.sub (by decide))
        assumption
      · split
        · with_reducible apply keep_pure
          with_reducible apply wrPartRate_keep (hT.sub (by decide))
          assumption
        · split
          · with_reducible apply keep_pure
            with_reducible apply wrEccInj_keep (hT.sub (by decide))
            assumption
          · split
            · with_reducible apply keep_pure
              with_reducible apply updChan_keep (hT.sub (by decide))
              assumption
            · with_reducible exact keep_none

theorem wrFqCons_keep {T : List Part} (hT : Within [.regs, .ig] T) {s0 : State} {s : State} (a : Acc) (v : Word) (hs : Keep T s0 s) :
    Keep T s0 (wrFqCons s a v) := by
  unfold wrFqCons
  with_reducible apply secureOnly_keep (hT.sub (by decide))
  · assumption
  · intro t0 h1
    with_reducible apply rset_keep (hT.sub (by decide))
    assumption

theorem wrFeTimeout_keep {T : List Part} (hT : Within [.fe] T) {s0 : State} {s : State} (q : Nat) (v : Word) (hs : Keep T s0 s) :
    Keep T s0 (wrFeTimeout s q v) := by
  unfold wrFeTimeout
  split
  · assumption
  · with_reducible apply updQueue_keep (hT.sub (by decide))
    assumption

theorem wrSesKeyw_keep {T : List Part} (hT : Within [.np] T) {s0 : State} {s : State} (a : Acc) (v : Word) (hs : Keep T s0 s) :
    Keep T s0 (wrSesKeyw s a v) := by
  unfold wrSesKeyw
  extract_lets +onlyGivenNames x0
  split
  · with_reducible apply updSession_keep (hT.sub (by decide))
    · assumption
    · intro x1 h2 h3
      assumption
  · assumption

theorem wrFqCfg_keep {T : List Part} (hT : Within [.regs] T) {s0 : State} {s : State} (v : Word) (hs : Keep T s0 s) :
    Keep T s0 (wrFqCfg s v) := by
  unfold wrFqCfg
  extract_lets +onlyGivenNames x0
  extract_lets +onlyGivenNames x1
  extract_lets +onlyGivenNames x2
  have hx2 : Keep T s0 x2 := by
    unfold x2
    with_reducible apply rset_keep (hT.sub (by decide))
    assumption
  clear_value x2
  split
  · with_reducible apply rset_keep (hT.sub (by decide))
    assumption
  · assumption

theorem wrRwinCfg_keep {T : List Part} (hT : Within [.regs] T) {s0 : State} {s : State} (i : Nat) (v : Word) (hs : Keep T s0 s) :
    Keep T s0 (wrRwinCfg s i v) := by
  unfold wrRwinCfg
  extract_lets +onlyGivenNames x0
  extract_lets +onlyGivenNames x1
  split
  · with_reducible apply rsetF_keep (hT.sub (by decide))
    with_reducible apply rset_keep (hT.sub (by decide))
    assumption
  · with_reducible apply rset_keep (hT.sub (by decide))
    assumption

theorem globWrite_keep {T : List Part} (hT : Within [.regs, .sels, .latches, .fe, .reqs, .cores, .graphs, .checking, .tables, .folds, .np, .xl, .dl, .ig, .pc] T) {s0 : State} {s : State} (a : Acc) (o i : Nat) (v : Word) (hs : Keep T s0 s) :
    ∀ t, globWrite s a o i v = some t → Keep T s0 t := by
  unfold globWrite
  extract_lets q sec k
  have hsec : ∀ t, Keep T s0 t → Keep T s0 (sec t) := fun t h => secureOnly_keep (hT.sub (by decide)) a _ _ _ _ hs (fun _ _ => h)
  clear_value sec q
  repeat' (first
    | refine keep_if (keep_pure ?_) ?_
    | exact keep_none
    | with_reducible exact hsec _ hs
    | with_reducible exact wrFeQ0DbLo_keep (hT.sub (by decide)) a v hs
    | with_reducible exact wrFeQ0DbHi_keep (hT.sub (by decide)) a v hs
    | with_reducible exact wrFeQEnable_keep (hT.sub (by decide)) a v hs
    | with_reducible exact wrFeQKey0_keep (hT.sub (by decide)) a v hs
    | with_reducible exact hsec _ (wrFeTimeout_keep (hT.sub (by decide)) q v hs)
    | with_reducible exact hsec _ (wrFeQCfg_keep (hT.sub (by decide)) q _ _ hs)
    | with_reducible exact wrPortCfg_keep (hT.sub (by decide)) a _ v hs
    | with_reducible exact wrPtpCtl_keep (hT.sub (by decide)) a v hs
    | with_reducible exact wrLeaseRenew_keep (hT.sub (by decide)) a v hs
    | with_reducible exact wrSesCtl_keep (hT.sub (by decide)) a v hs
    | with_reducible exact wrSesKeyw_keep (hT.sub (by decide)) a v hs
    | with_reducible exact wrQpCtl_keep (hT.sub (by decide)) a v hs
    | with_reducible exact wrPartId_keep (hT.sub (by decide)) a v hs
    | with_reducible exact secureOnly_keep (hT.sub (by decide)) a _ _ _ _ hs (fun _ h => cutColls_keep (hT.sub (by decide)) (drainFlits_keep (hT.sub (by decide)) [] (rset_keep (hT.sub (by decide)) _ _ _ h)))
    | with_reducible exact wrLinkCtl_keep (hT.sub (by decide)) a v hs
    | with_reducible exact wrGrpCtl_keep (hT.sub (by decide)) a v hs
    | with_reducible exact wrGrpMember_keep (hT.sub (by decide)) a v hs
    | with_reducible exact wrTblWin_keep (hT.sub (by decide)) a _ v hs
    | with_reducible exact wrFqCons_keep (hT.sub (by decide)) a v hs
    | with_reducible exact hsec _ (wrFqCfg_keep (hT.sub (by decide)) v hs)
    | with_reducible exact hsec _ (wrRwinCfg_keep (hT.sub (by decide)) _ v hs)
    | with_reducible exact wrFlogCons_keep (hT.sub (by decide)) a v hs
    | with_reducible exact wrIgUrst_keep (hT.sub (by decide)) a v hs
    | with_reducible exact wrRstCtl_keep (hT.sub (by decide)) a v hs
    | with_reducible exact wrFlashCtl_keep (hT.sub (by decide)) a v hs
    | with_reducible exact wrWorldMap_keep (hT.sub (by decide)) a v hs
    | with_reducible exact wrOwnerKey_keep (hT.sub (by decide)) a _ v hs
    | with_reducible exact wrDbgCtl_keep (hT.sub (by decide)) a v hs
    | with_reducible exact wrMarginCtl_keep (hT.sub (by decide)) a v hs)
  · split
    · exact updQueue_keep (hT.sub (by decide)) _ _ hs
    · exact hs
  · split
    · exact updSession_keep (hT.sub (by decide)) hs _ _ (fun x _ hx => hx)
    · exact hs

theorem wrQsCtl_keep {T : List Part} (hT : Within [.regs] T) {s0 : State} {s : State} (c : Nat) (v : Word) (hs : Keep T s0 s) :
    Keep T s0 (wrQsCtl s c v) := by
  unfold wrQsCtl
  split
  · assumption
  · extract_lets +onlyGivenNames x0
    have hx0 : Keep T s0 x0 := by
      unfold x0
      with_reducible apply rset_keep (hT.sub (by decide))
      assumption
    clear_value x0
    split
    · with_reducible apply clearRegs_keep (hT.sub (by decide))
      assumption
    · assumption

theorem coreWrite_keep {T : List Part} (hT : Within [.regs, .ig] T) {s0 : State} {s : State} (a : Acc) (c : Nat) (o : Nat) (v : Word) (hs : Keep T s0 s) :
    ∀ t, coreWrite s a c o v = some t → Keep T s0 t := by
  unfold coreWrite
  split
  · with_reducible apply keep_pure
    assumption
  · split
    · with_reducible apply keep_pure
      with_reducible apply wrQsCtl_keep (hT.sub (by decide))
      assumption
    · split
      · with_reducible apply keep_pure
        with_reducible apply wrResInj_keep (hT.sub (by decide))
        assumption
      · with_reducible exact keep_none

theorem writeDef_keep {T : List Part} (hT : Within [.regs, .sels, .latches, .fe, .reqs, .cores, .graphs, .checking, .tables, .folds, .np, .xl, .dl, .ig, .pc] T) {s0 : State} {s : State} (a : Acc) (addr : Nat) (d : RegDef) (v : Word) (hs : Keep T s0 s) :
    Keep T s0 (writeDef s a addr d v) := by
  unfold writeDef
  extract_lets r own
  have hown : ∀ t, own = some t → Keep T s0 t := by
    unfold own
    clear_value r
    split
    · exact globWrite_keep (hT.sub (by decide)) a _ _ v hs
    · exact coreWrite_keep (hT.sub (by decide)) a _ _ v hs
    · exact foldWrite_keep (hT.sub (by decide)) a _ _ _ v hs
    · exact keep_none
  clear_value own
  split
  · split
    · exact hs
    · exact setSel_keep (hT.sub (by decide)) _ _ _ hs
  · split
    · exact hown _ rfl
    · have h := plainWrite_keep (hT.sub (by decide)) a addr d v hs
      by_cases hw : (!a.secure) = true ∧ d.rws ≠ 0
      · rw [if_pos hw]; exact worldViolation_keep (hT.sub (by decide)) _ _ _ _ h
      · rw [if_neg hw]; exact h

theorem rdmaRead_keep {T : List Part} (hT : Within [.regs, .latches, .ig] T) {s0 : State} (a : Acc) (n va : Nat) {s : State} (hs : Keep T s0 s) : Keep T s0 (rdmaRead a n va s).2 := by
  induction n generalizing s va with
  | zero => exact hs
  | succ n ih =>
    unfold rdmaRead
    split
    · exact ih _ (regRead_keep (hT.sub (by decide)) a va hs)
    · exact hs

theorem regWrite_keep {T : List Part} (hT : Within [.regs, .sels, .latches, .fe, .reqs, .cores, .graphs, .checking, .tables, .folds, .np, .xl, .dl, .ig, .pc] T) {s0 : State} {s : State} (a : Acc) (addr : Nat) (v : Word) (hs : Keep T s0 s) :
    Keep T s0 (regWrite s a addr v) := by
  unfold regWrite
  split
  · with_reducible apply viewWrite_keep (hT.sub (by decide))
    assumption
  · split
    · assumption
    · with_reducible apply writeDef_keep (hT.sub (by decide))
      assumption

theorem rdmaWrite_keep {T : List Part} (hT : Within [.regs, .sels, .latches, .fe, .reqs, .cores, .graphs, .checking, .tables, .folds, .np, .xl, .dl, .ig, .pc] T) {s0 : State} (a : Acc) (a1 : Nat) (a2 : Nat) (a3 : Bytes) {a4 : State} (ha4 : Keep T s0 a4) :
    Keep T s0 (rdmaWrite a a1 a2 a3 a4) := by
  fun_induction rdmaWrite a a1 a2 a3 a4
  · assumption
  · with_reducible apply_assumption -exfalso
    with_reducible apply acc1_keep (hT.sub (by decide))
    · assumption
    · intro t0 h1
      with_reducible apply regWrite_keep (hT.sub (by decide))
      assumption

theorem tickCore_keep {T : List Part} (hT : Within [.regs, .reqs, .cores, .folds, .ig, .pc] T) {s0 : State} (n : Nat) {s : State} (c : Nat) (hs : Keep T s0 s) :
    Keep T s0 (tickCore n s c) := by
  unfold tickCore
  split
  · assumption
  · extract_lets +onlyGivenNames x0
    with_reducible apply runCore_keep (hT.sub (by decide))
    assumption

theorem tickDuty_keep {T : List Part} (hT : Within [.pc] T) {s0 : State} {s : State} (hs : Keep T s0 s) :
    Keep T s0 (tickDuty s) := by
  unfold tickDuty
  split
  · with_reducible refine keep_pc (hT.sub (by decide)) ?_
    assumption
  · assumption

theorem tickRegs_keep {T : List Part} (hT : Within [.regs, .folds] T) {s0 : State} {s : State} (f : Nat) (hs : Keep T s0 s) :
    Keep T s0 (tickRegs s f) := by
  unfold tickRegs
  split
  · with_reducible apply tickFold_keep (hT.sub (by decide))
    assumption
  · with_reducible apply updFold_keep (hT.sub (by decide))
    · assumption
    · intro x0 h1
      exact canonical_of (fold_pasture (by assumption)) (fold_pen (by assumption))

theorem tickFab_keep {T : List Part} (hT : Within [.regs, .fe, .reqs, .cores, .graphs, .tables, .folds, .np, .dl, .ig, .pc, .fab] T) {s0 : State} {s : State} (hs : Keep T s0 s) :
    Keep T s0 (tickFab s) := by
  unfold tickFab
  split
  · assumption
  · extract_lets +onlyGivenNames x0
    have hx0 : Keep T s0 x0 := by
      unfold x0
      with_reducible apply tickDuty_keep (hT.sub (by decide))
      assumption
    clear_value x0
    extract_lets +onlyGivenNames x1
    extract_lets +onlyGivenNames x2
    have hx2 : Keep T s0 x2 := by
      unfold x2
      with_reducible refine keep_mk hT ?_ rfl ?_
      · assumption
      · (intro p hp; cases p <;> first | rfl | (exfalso; apply hp; decide))
    clear_value x2
    extract_lets +onlyGivenNames x3
    have hx3 : Keep T s0 x3 := by
      unfold x3
      with_reducible apply keep_foldl
      · assumption
      · intro t4 x5 h6
        with_reducible apply startAgain_keep (hT.sub (by decide))
        assumption
    clear_value x3
    extract_lets +onlyGivenNames x7
    have hx7 : Keep T s0 x7 := by
      unfold x7
      with_reducible apply keep_foldl
      · assumption
      · intro t8 x9 h10
        with_reducible apply tickRegs_keep (hT.sub (by decide))
        assumption
    clear_value x7
    extract_lets +onlyGivenNames x11
    have hx11 : Keep T s0 x11 := by
      unfold x11
      with_reducible apply serveMsgs_keep (hT.sub (by decide))
      with_reducible apply pairTick_keep (hT.sub (by decide))
      assumption
    clear_value x11
    with_reducible apply keep_foldl
    · assumption
    · intro t12 x13 h14
      with_reducible apply tickCore_keep (hT.sub (by decide))
      assumption

end Sys2Proof.Machine
end

