-- ==== Sys2Proof/Laws/KeepCore.lean ====
section
/-! SUPPORT. `Keep` holds after each command of a core, its bundles and its launches, where it held before. -/

namespace Sys2Proof.Machine

theorem execLdx_keep {T : List Part} (hT : Within [.regs, .reqs, .cores, .folds, .ig, .pc] T) {s0 : State} (c : Core2) (h : Hdr) (xd : BitVec 5) (xa : BitVec 5) (imm : BitVec 27) {s : State} (hs : Keep T s0 s) :
    ∀ t, execLdx c h xd xa imm s = .next t → Keep T s0 t := by
  unfold execLdx
  with_reducible apply keep_next
  with_reducible apply bundleC_keep (hT.sub (by decide))
  assumption

theorem execCnop_keep {T : List Part} (hT : Within [.regs, .reqs, .cores, .folds, .ig, .pc] T) {s0 : State} (c : Core2) (h : Hdr) {s : State} (hs : Keep T s0 s) :
    ∀ t, execCnop c h s = .next t → Keep T s0 t := by
  unfold execCnop
  with_reducible apply keep_next
  with_reducible apply bundleC_keep (hT.sub (by decide))
  assumption

theorem execWait_keep {T : List Part} (hT : Within [.regs, .reqs, .cores, .folds, .ig, .pc] T) {s0 : State} (c : Core2) (h : Hdr) (ctr : BitVec 5) (xa : BitVec 5) (tgt : Half) {s : State} (hs : Keep T s0 s) :
    ∀ t, execWait c h ctr xa tgt s = .next t → Keep T s0 t := by
  unfold execWait
  with_reducible apply keep_next
  split
  · with_reducible apply keep_fst (by assumption)
    with_reducible apply readyB_keep (hT.sub (by decide))
    assumption
  · extract_lets +onlyGivenNames x0
    extract_lets +onlyGivenNames x1
    split
    · with_reducible apply keep_fst (by assumption)
      with_reducible apply readyB_keep (hT.sub (by decide))
      assumption
    · split
      · split
        · with_reducible apply issueB_keep (hT.sub (by decide))
          with_reducible apply keep_fst (by assumption)
          with_reducible apply readyB_keep (hT.sub (by decide))
          assumption
        · with_reducible apply atGate_keep (hT.sub (by decide))
          with_reducible apply keep_fst (by assumption)
          with_reducible apply readyB_keep (hT.sub (by decide))
          assumption
      · split
        · with_reducible apply endSlot_keep (hT.sub (by decide))
          with_reducible apply keep_fst (by assumption)
          with_reducible apply readyB_keep (hT.sub (by decide))
          assumption
        · with_reducible apply updCore_keep (hT.sub (by decide))
          · with_reducible apply keep_fst (by assumption)
            with_reducible apply readyB_keep (hT.sub (by decide))
            assumption
          · intro x2 h3
            with_reducible apply cupdSlot_keep
            assumption

theorem execEndLaunch_keep {T : List Part} (hT : Within [.regs, .reqs, .cores, .folds, .ig, .pc] T) {s0 : State} (c : Core2) (h : Hdr) {s : State} (hs : Keep T s0 s) :
    ∀ t, execEndLaunch c h s = .next t → Keep T s0 t := by
  unfold execEndLaunch
  with_reducible apply keep_next
  split
  · with_reducible apply keep_fst (by assumption)
    with_reducible apply readyB_keep (hT.sub (by decide))
    assumption
  · split
    · with_reducible apply atGate_keep (hT.sub (by decide))
      with_reducible apply keep_fst (by assumption)
      with_reducible apply readyB_keep (hT.sub (by decide))
      assumption
    · extract_lets +onlyGivenNames x0
      have hx0 : Keep T s0 x0 := by
        unfold x0
        with_reducible apply issueB_keep (hT.sub (by decide))
        with_reducible apply keep_fst (by assumption)
        with_reducible apply readyB_keep (hT.sub (by decide))
        assumption
      clear_value x0
      with_reducible apply updCore_keep (hT.sub (by decide))
      · assumption
      · intro x1 h2
        with_reducible apply cupdSlot_keep
        assumption

theorem execLoop_keep {T : List Part} (hT : Within [.regs, .reqs, .cores, .folds, .ig, .pc] T) {s0 : State} (c : Core2) (h : Hdr) (xa : BitVec 5) (body : BitVec 13) (cntv : BitVec 14) {s : State} (hs : Keep T s0 s) :
    ∀ t, execLoop c h xa body cntv s = .next t → Keep T s0 t := by
  unfold execLoop
  with_reducible apply keep_next
  split
  · with_reducible apply keep_fst (by assumption)
    with_reducible apply readyB_keep (hT.sub (by decide))
    assumption
  · split
    · with_reducible apply atGate_keep (hT.sub (by decide))
      with_reducible apply keep_fst (by assumption)
      with_reducible apply readyB_keep (hT.sub (by decide))
      assumption
    · extract_lets +onlyGivenNames x0
      extract_lets +onlyGivenNames x1
      split
      · with_reducible apply issueB_keep (hT.sub (by decide))
        with_reducible apply illegalBundle_keep (hT.sub (by decide))
        with_reducible apply keep_fst (by assumption)
        with_reducible apply readyB_keep (hT.sub (by decide))
        assumption
      · split
        · with_reducible apply issueB_keep (hT.sub (by decide))
          with_reducible apply keep_fst (by assumption)
          with_reducible apply readyB_keep (hT.sub (by decide))
          assumption
        · with_reducible apply issueB_keep (hT.sub (by decide))
          with_reducible apply keep_fst (by assumption)
          with_reducible apply readyB_keep (hT.sub (by decide))
          assumption

theorem execBr_keep {T : List Part} (hT : Within [.regs, .reqs, .cores, .folds, .ig, .pc] T) {s0 : State} (c : Core2) (h : Hdr) (off : BitVec 18) {s : State} (hs : Keep T s0 s) :
    ∀ t, execBr c h off s = .next t → Keep T s0 t := by
  unfold execBr
  with_reducible apply keep_next
  split
  · with_reducible apply keep_fst (by assumption)
    with_reducible apply readyB_keep (hT.sub (by decide))
    assumption
  · split
    · with_reducible apply issueB_keep (hT.sub (by decide))
      with_reducible apply keep_fst (by assumption)
      with_reducible apply readyB_keep (hT.sub (by decide))
      assumption
    · with_reducible apply atGate_keep (hT.sub (by decide))
      with_reducible apply keep_fst (by assumption)
      with_reducible apply readyB_keep (hT.sub (by decide))
      assumption

theorem execAddi_keep {T : List Part} (hT : Within [.regs, .reqs, .cores, .folds, .ig, .pc] T) {s0 : State} (c : Core2) (h : Hdr) (xd : BitVec 5) (xa : BitVec 5) (imm : BitVec 27) {s : State} (hs : Keep T s0 s) :
    ∀ t, execAddi c h xd xa imm s = .next t → Keep T s0 t := by
  unfold execAddi
  with_reducible apply keep_next
  with_reducible apply bundleC_keep (hT.sub (by decide))
  assumption

theorem execStx_keep {T : List Part} (hT : Within [.regs, .reqs, .cores, .folds, .ig, .pc] T) {s0 : State} (c : Core2) (h : Hdr) (xa : BitVec 5) (xb : BitVec 5) (imm : BitVec 27) {s : State} (hs : Keep T s0 s) :
    ∀ t, execStx c h xa xb imm s = .next t → Keep T s0 t := by
  unfold execStx
  with_reducible apply keep_next
  with_reducible apply bundleC_keep (hT.sub (by decide))
  assumption

theorem execTrap_keep {T : List Part} (hT : Within [.regs, .reqs, .cores, .folds, .ig, .pc] T) {s0 : State} (c : Core2) (h : Hdr) (code : BitVec 2) {s : State} (hs : Keep T s0 s) :
    ∀ t, execTrap c h code s = .next t → Keep T s0 t := by
  unfold execTrap
  with_reducible apply keep_next
  split
  · with_reducible apply keep_fst (by assumption)
    with_reducible apply readyB_keep (hT.sub (by decide))
    assumption
  · split
    · with_reducible apply atGate_keep (hT.sub (by decide))
      with_reducible apply keep_fst (by assumption)
      with_reducible apply readyB_keep (hT.sub (by decide))
      assumption
    · split
      · with_reducible apply issueB_keep (hT.sub (by decide))
        with_reducible apply illegalBundle_keep (hT.sub (by decide))
        with_reducible apply keep_fst (by assumption)
        with_reducible apply readyB_keep (hT.sub (by decide))
        assumption
      · with_reducible apply updCore_keep (hT.sub (by decide))
        · with_reducible apply issueB_keep (hT.sub (by decide))
          with_reducible apply keep_fst (by assumption)
          with_reducible apply readyB_keep (hT.sub (by decide))
          assumption
        · intro x0 h1
          dsimp -zeta only
          assumption

theorem execAlu_keep {T : List Part} (hT : Within [.regs, .reqs, .cores, .folds, .ig, .pc] T) {s0 : State} (c : Core2) (h : Hdr) (xd : BitVec 5) (xa : BitVec 5) (xb : BitVec 5) (fn : BitVec 4) {s : State} (hs : Keep T s0 s) :
    ∀ t, execAlu c h xd xa xb fn s = .next t → Keep T s0 t := by
  unfold execAlu
  with_reducible apply keep_next
  split
  · with_reducible apply keep_fst (by assumption)
    with_reducible apply readyB_keep (hT.sub (by decide))
    assumption
  · split
    · with_reducible apply atGate_keep (hT.sub (by decide))
      with_reducible apply keep_fst (by assumption)
      with_reducible apply readyB_keep (hT.sub (by decide))
      assumption
    · split
      · with_reducible apply issueB_keep (hT.sub (by decide))
        with_reducible apply keep_fst (by assumption)
        with_reducible apply readyB_keep (hT.sub (by decide))
        assumption
      · with_reducible apply issueB_keep (hT.sub (by decide))
        with_reducible apply illegalBundle_keep (hT.sub (by decide))
        with_reducible apply keep_fst (by assumption)
        with_reducible apply readyB_keep (hT.sub (by decide))
        assumption

theorem execBrc_keep {T : List Part} (hT : Within [.regs, .reqs, .cores, .folds, .ig, .pc] T) {s0 : State} (c : Core2) (h : Hdr) (cond : BitVec 3) (xa : BitVec 5) (xb : BitVec 5) (off : BitVec 18) {s : State} (hs : Keep T s0 s) :
    ∀ t, execBrc c h cond xa xb off s = .next t → Keep T s0 t := by
  unfold execBrc
  with_reducible apply keep_next
  split
  · with_reducible apply keep_fst (by assumption)
    with_reducible apply readyB_keep (hT.sub (by decide))
    assumption
  · split
    · with_reducible apply atGate_keep (hT.sub (by decide))
      with_reducible apply keep_fst (by assumption)
      with_reducible apply readyB_keep (hT.sub (by decide))
      assumption
    · extract_lets +onlyGivenNames x0
      have hx0 : Keep T s0 x0 := by
        unfold x0
        split
        · with_reducible apply illegalBundle_keep (hT.sub (by decide))
          with_reducible apply keep_fst (by assumption)
          with_reducible apply readyB_keep (hT.sub (by decide))
          assumption
        · with_reducible apply keep_fst (by assumption)
          with_reducible apply readyB_keep (hT.sub (by decide))
          assumption
      clear_value x0
      split
      · with_reducible apply issueB_keep (hT.sub (by decide))
        assumption
      · with_reducible apply issueB_keep (hT.sub (by decide))
        assumption

theorem execLui_keep {T : List Part} (hT : Within [.regs, .reqs, .cores, .folds, .ig, .pc] T) {s0 : State} (c : Core2) (h : Hdr) (xd : BitVec 5) (imm : Half) {s : State} (hs : Keep T s0 s) :
    ∀ t, execLui c h xd imm s = .next t → Keep T s0 t := by
  unfold execLui
  with_reducible apply keep_next
  with_reducible apply bundleC_keep (hT.sub (by decide))
  assumption

theorem execAnop_keep {T : List Part} (hT : Within [.cores] T) {s0 : State} (c : Core2) {s : State} (hs : Keep T s0 s) :
    ∀ t, execAnop c s = .next t → Keep T s0 t := by
  unfold execAnop
  with_reducible apply keep_next
  with_reducible apply takeA_keep (hT.sub (by decide))
  assumption

theorem execVred_keep {T : List Part} (hT : Within [.regs, .reqs, .cores, .ig] T) {s0 : State} (c : Core2) (sd : Scr) (xo : BitVec 5) (fn : BitVec 4) (act : BitVec 4) (rule : Bool) (imm : Half) {s : State} (hs : Keep T s0 s) :
    ∀ t, execVred c sd xo fn act rule imm s = .next t → Keep T s0 t := by
  unfold execVred
  with_reducible apply keep_next
  with_reducible apply startVe_keep (hT.sub (by decide))
  assumption

theorem execAclr_keep {T : List Part} (hT : Within [.regs, .cores] T) {s0 : State} (c : Core2) (set : BitVec 2) {s : State} (hs : Keep T s0 s) :
    ∀ t, execAclr c set s = .next t → Keep T s0 t := by
  unfold execAclr
  with_reducible apply keep_next
  split
  · assumption
  · split
    · assumption
    · extract_lets +onlyGivenNames x0
      have hx0 : Keep T s0 x0 := by
        unfold x0
        with_reducible apply addOpen_keep (hT.sub (by decide))
        with_reducible apply takeA_keep (hT.sub (by decide))
        assumption
      clear_value x0
      extract_lets +onlyGivenNames x1
      have hx1 : Keep T s0 x1 := by
        unfold x1
        with_reducible apply updCore_keep (hT.sub (by decide))
        · assumption
        · intro x2 h3
          dsimp -zeta only
          assumption
      clear_value x1
      with_reducible apply cnt_keep (hT.sub (by decide))
      assumption

theorem execMma_keep {T : List Part} (hT : Within [.regs, .reqs, .cores, .ig] T) {s0 : State} (c : Core2) (sd : Scr) (xw : BitVec 5) (xx : BitVec 5) (set : BitVec 2) (zero : Bool) {s : State} (hs : Keep T s0 s) :
    ∀ t, execMma c sd xw xx set zero s = .next t → Keep T s0 t := by
  unfold execMma
  with_reducible apply keep_next
  split
  · assumption
  · split
    · assumption
    · extract_lets +onlyGivenNames x0
      extract_lets +onlyGivenNames x1
      have hx1 : Keep T s0 x1 := by
        unfold x1
        with_reducible apply noteDesc_keep (hT.sub (by decide))
        with_reducible apply takeA_keep (hT.sub (by decide))
        assumption
      clear_value x1
      extract_lets +onlyGivenNames x2
      split
      · assumption
      · split
        · with_reducible apply illegalBundle_keep (hT.sub (by decide))
          assumption
        · extract_lets +onlyGivenNames x3
          have hx3 : Keep T s0 x3 := by
            unfold x3
            with_reducible apply addOpen_keep (hT.sub (by decide))
            assumption
          clear_value x3
          extract_lets +onlyGivenNames x4
          have hx4 : Keep T s0 x4 := by
            unfold x4
            with_reducible apply updCore_keep (hT.sub (by decide))
            · assumption
            · intro x5 h6
              dsimp -zeta only
              assumption
          clear_value x4
          with_reducible apply cnt_keep (hT.sub (by decide))
          assumption

theorem execVew_keep {T : List Part} (hT : Within [.regs, .reqs, .cores, .ig] T) {s0 : State} (c : Core2) (sd : Scr) (xo : BitVec 5) (fn : BitVec 4) (act : BitVec 4) (rule : Bool) (imm : Half) {s : State} (hs : Keep T s0 s) :
    ∀ t, execVew c sd xo fn act rule imm s = .next t → Keep T s0 t := by
  unfold execVew
  with_reducible apply keep_next
  with_reducible apply startVe_keep (hT.sub (by decide))
  assumption

theorem execVscan_keep {T : List Part} (hT : Within [.regs, .reqs, .cores, .ig] T) {s0 : State} (c : Core2) (sd : Scr) (xo : BitVec 5) (fn : BitVec 4) (act : BitVec 4) (rule : Bool) (imm : Half) {s : State} (hs : Keep T s0 s) :
    ∀ t, execVscan c sd xo fn act rule imm s = .next t → Keep T s0 t := by
  unfold execVscan
  with_reducible apply keep_next
  with_reducible apply startVe_keep (hT.sub (by decide))
  assumption

theorem execVnop_keep {T : List Part} (hT : Within [.cores] T) {s0 : State} (c : Core2) {s : State} (hs : Keep T s0 s) :
    ∀ t, execVnop c s = .next t → Keep T s0 t := by
  unfold execVnop
  with_reducible apply keep_next
  with_reducible apply takeV_keep (hT.sub (by decide))
  assumption

theorem execDcollGet_keep {T : List Part} (hT : Within [.regs, .reqs, .cores, .folds, .dl, .ig] T) {s0 : State} (c : Core2) (sa : Scr) (ctr : BitVec 5) {s : State} (hs : Keep T s0 s) :
    ∀ t, execDcollGet c sa ctr s = .next t → Keep T s0 t := by
  unfold execDcollGet
  with_reducible apply keep_next
  with_reducible apply dcoll_keep (hT.sub (by decide))
  assumption

theorem execGrel_keep {T : List Part} (hT : Within [.regs, .reqs, .cores, .folds] T) {s0 : State} (c : Core2) (fmask : Byte) (dep : Bool) (xt : BitVec 5) {s : State} (hs : Keep T s0 s) :
    ∀ t, execGrel c fmask dep xt s = .next t → Keep T s0 t := by
  unfold execGrel
  with_reducible apply keep_next
  with_reducible apply withQ_keep (hT.sub (by decide))
  · assumption
  · intro t0 x1 x2 h3
    with_reducible apply putQ_keep (hT.sub (by decide))
    assumption

theorem execAllgather_keep {T : List Part} (hT : Within [.regs, .reqs, .cores, .folds, .dl, .ig] T) {s0 : State} (c : Core2) (sa : Scr) (ctr : BitVec 5) {s : State} (hs : Keep T s0 s) :
    ∀ t, execAllgather c sa ctr s = .next t → Keep T s0 t := by
  unfold execAllgather
  with_reducible apply keep_next
  with_reducible apply dcoll_keep (hT.sub (by decide))
  assumption

theorem execBarrier_keep {T : List Part} (hT : Within [.regs, .reqs, .cores, .folds, .dl, .ig] T) {s0 : State} (c : Core2) (sa : Scr) (ctr : BitVec 5) {s : State} (hs : Keep T s0 s) :
    ∀ t, execBarrier c sa ctr s = .next t → Keep T s0 t := by
  unfold execBarrier
  with_reducible apply keep_next
  with_reducible apply dcoll_keep (hT.sub (by decide))
  assumption

theorem execMnop_keep {T : List Part} (hT : Within [.cores] T) {s0 : State} (c : Core2) {s : State} (hs : Keep T s0 s) :
    ∀ t, execMnop c s = .next t → Keep T s0 t := by
  unfold execMnop
  with_reducible apply keep_next
  with_reducible apply withM_keep (hT.sub (by decide))
  · assumption
  · intro t0 x1 x2 h3
    assumption

theorem execOutput_keep {T : List Part} (hT : Within [.regs, .reqs, .cores, .folds] T) {s0 : State} (c : Core2) (sa : Scr) (ctr : BitVec 5) (lines : BitVec 12) (seg : BitVec 4) {s : State} (hs : Keep T s0 s) :
    ∀ t, execOutput c sa ctr lines seg s = .next t → Keep T s0 t := by
  unfold execOutput
  with_reducible apply keep_next
  with_reducible apply withQ_keep (hT.sub (by decide))
  · assumption
  · intro t0 x1 x2 h3
    split
    · with_reducible apply putQ_keep (hT.sub (by decide))
      assumption
    · with_reducible apply mExc_keep (hT.sub (by decide))
      assumption

theorem execDcollPut_keep {T : List Part} (hT : Within [.regs, .reqs, .cores, .folds, .dl, .ig] T) {s0 : State} (c : Core2) (sa : Scr) (ctr : BitVec 5) {s : State} (hs : Keep T s0 s) :
    ∀ t, execDcollPut c sa ctr s = .next t → Keep T s0 t := by
  unfold execDcollPut
  with_reducible apply keep_next
  with_reducible apply dcoll_keep (hT.sub (by decide))
  assumption

theorem execCopy_keep {T : List Part} (hT : Within [.cores] T) {s0 : State} (c : Core2) (sa : Scr) (sb : Scr) (lines : BitVec 12) {s : State} (hs : Keep T s0 s) :
    ∀ t, execCopy c sa sb lines s = .next t → Keep T s0 t := by
  unfold execCopy
  with_reducible apply keep_next
  with_reducible apply withM_keep (hT.sub (by decide))
  · assumption
  · intro t0 x1 x2 h3
    with_reducible apply keep_foldl
    · assumption
    · intro t4 x5 h6
      extract_lets +onlyGivenNames x7
      extract_lets +onlyGivenNames x8
      with_reducible apply addFlight_keep (hT.sub (by decide))
      with_reducible apply noteDenied_keep (hT.sub (by decide))
      assumption

theorem execFill_keep {T : List Part} (hT : Within [.cores] T) {s0 : State} (c : Core2) (sb : Scr) (lines : BitVec 12) {s : State} (hs : Keep T s0 s) :
    ∀ t, execFill c sb lines s = .next t → Keep T s0 t := by
  unfold execFill
  with_reducible apply keep_next
  with_reducible apply withM_keep (hT.sub (by decide))
  · assumption
  · intro t0 x1 x2 h3
    with_reducible apply keep_foldl
    · assumption
    · intro t4 x5 h6
      split
      · with_reducible apply addFlight_keep (hT.sub (by decide))
        assumption
      · with_reducible apply noteDenied_keep (hT.sub (by decide))
        assumption

theorem execStw_keep {T : List Part} (hT : Within [.cores] T) {s0 : State} (c : Core2) (sb : Scr) (xs : BitVec 5) {s : State} (hs : Keep T s0 s) :
    ∀ t, execStw c sb xs s = .next t → Keep T s0 t := by
  unfold execStw
  with_reducible apply keep_next
  with_reducible apply withM_keep (hT.sub (by decide))
  · assumption
  · intro t0 x1 x2 h3
    split
    · with_reducible apply addFlight_keep (hT.sub (by decide))
      assumption
    · with_reducible apply noteDenied_keep (hT.sub (by decide))
      assumption

theorem execGissue_keep {T : List Part} (hT : Within [.regs, .reqs, .cores, .folds, .ig] T) {s0 : State} (c : Core2) (sa : Scr) (sb : Scr) (ctr : BitVec 5) (nfb : Bool) (chain : Bool) {s : State} (hs : Keep T s0 s) :
    ∀ t, execGissue c sa sb ctr nfb chain s = .next t → Keep T s0 t := by
  unfold execGissue
  with_reducible apply keep_next
  with_reducible apply withQ_keep (hT.sub (by decide))
  · assumption
  · intro t0 x1 x2 h3
    split
    · assumption
    · with_reducible apply illegalBundle_keep (hT.sub (by decide))
      assumption
    · split
      · with_reducible apply mExc_keep (hT.sub (by decide))
        with_reducible apply setChain_keep (hT.sub (by decide))
        assumption
      · extract_lets +onlyGivenNames x4
        extract_lets +onlyGivenNames x5
        extract_lets +onlyGivenNames x6
        extract_lets +onlyGivenNames x7
        split
        · with_reducible apply mExc_keep (hT.sub (by decide))
          unfold x7
          with_reducible apply setChain_keep (hT.sub (by decide))
          assumption
        · split
          · with_reducible apply mExc_keep (hT.sub (by decide))
            unfold x7
            with_reducible apply setChain_keep (hT.sub (by decide))
            assumption
          · extract_lets +onlyGivenNames x8
            extract_lets +onlyGivenNames x9
            extract_lets +onlyGivenNames x10
            have hx10 : Keep T s0 x10 := by
              unfold x10
              unfold x7
              with_reducible apply setChain_keep (hT.sub (by decide))
              assumption
            clear_value x10
            split
            · with_reducible apply mExc_keep (hT.sub (by decide))
              assumption
            · extract_lets +onlyGivenNames x11
              extract_lets +onlyGivenNames x12
              extract_lets +onlyGivenNames x13
              extract_lets +onlyGivenNames x14
              extract_lets +onlyGivenNames x15
              split
              · with_reducible apply mExc_keep (hT.sub (by decide))
                assumption
              · split
                · extract_lets +onlyGivenNames x16
                  extract_lets +onlyGivenNames x17
                  have hx17 : Keep T s0 x17 := by
                    unfold x17
                    split
                    · with_reducible apply markPoison_keep (hT.sub (by decide))
                      assumption
                    · assumption
                  clear_value x17
                  with_reducible apply putQ_keep (hT.sub (by decide))
                  assumption
                · with_reducible apply mExc_keep (hT.sub (by decide))
                  assumption

theorem execLdw_keep {T : List Part} (hT : Within [.cores] T) {s0 : State} (c : Core2) (sa : Scr) (xd : BitVec 5) {s : State} (hs : Keep T s0 s) :
    ∀ t, execLdw c sa xd s = .next t → Keep T s0 t := by
  unfold execLdw
  with_reducible apply keep_next
  with_reducible apply withM_keep (hT.sub (by decide))
  · assumption
  · intro t0 x1 x2 h3
    extract_lets +onlyGivenNames x4
    with_reducible apply addFlight_keep (hT.sub (by decide))
    with_reducible apply noteDenied_keep (hT.sub (by decide))
    assumption

theorem execGraphRetire_keep {T : List Part} (hT : Within [.regs, .fe, .reqs, .graphs, .tables, .folds, .dl] T) {s0 : State} (q : BitVec 10) (n : Word) {s : State} (hs : Keep T s0 s) :
    ∀ t, execGraphRetire q n s = .next t → Keep T s0 t := by
  unfold execGraphRetire
  with_reducible apply keep_next
  with_reducible apply own_keep (hT.sub (by decide))
  · intro t0 x1 h2
    extract_lets +onlyGivenNames x3
    split
    · with_reducible apply reject_keep (hT.sub (by decide))
      assumption
    · split
      · with_reducible apply reject_keep (hT.sub (by decide))
        assumption
      · extract_lets +onlyGivenNames x4
        have hx4 : Keep T s0 x4 := by
          unfold x4
          with_reducible apply arrive_keep (hT.sub (by decide))
          assumption
        clear_value x4
        extract_lets +onlyGivenNames x5
        have hx5 : Keep T s0 x5 := by
          unfold x5
          with_reducible refine keep_mk hT ?_ rfl ?_
          · assumption
          · (intro p hp; cases p <;> first | rfl | (exfalso; apply hp; decide))
        clear_value x5
        with_reducible apply finish_keep (hT.sub (by decide))
        with_reducible apply sweepVersions_keep (hT.sub (by decide))
        assumption
  · intro t6 x7 h8
    with_reducible apply noLanded_keep (hT.sub (by decide))
    assumption
  · assumption

theorem execGraphPatch_keep {T : List Part} (hT : Within [.regs, .fe, .reqs, .graphs, .checking, .tables, .folds, .dl] T) {s0 : State} (q : BitVec 10) (n : Word) {s : State} (hs : Keep T s0 s) :
    ∀ t, execGraphPatch q n s = .next t → Keep T s0 t := by
  unfold execGraphPatch
  with_reducible apply keep_next
  with_reducible apply ownOr_keep (hT.sub (by decide))
  · intro t0 x1 h2
    with_reducible apply refuseGraph_keep (hT.sub (by decide))
    assumption
  · intro t3 x4 h5
    split
    · with_reducible apply refuseGraph_keep (hT.sub (by decide))
      assumption
    · split
      · with_reducible apply refuseGraph_keep (hT.sub (by decide))
        assumption
      · with_reducible apply fetchSrc_keep (hT.sub (by decide))
        with_reducible apply arrive_keep (hT.sub (by decide))
        assumption
  · intro t6 x7 h8
    extract_lets +onlyGivenNames x9
    extract_lets +onlyGivenNames x10
    extract_lets +onlyGivenNames x11
    extract_lets +onlyGivenNames x12
    split
    · with_reducible apply refuseGraph_keep (hT.sub (by decide))
      assumption
    · split
      · with_reducible apply refuseGraph_keep (hT.sub (by decide))
        assumption
      · split
        · with_reducible apply refuseGraph_keep (hT.sub (by decide))
          assumption
        · split
          · with_reducible apply refuseGraph_keep (hT.sub (by decide))
            assumption
          · split
            · with_reducible apply refuseGraph_keep (hT.sub (by decide))
              assumption
            · extract_lets +onlyGivenNames x13
              split
              · with_reducible apply refuseGraph_keep (hT.sub (by decide))
                assumption
              · split
                · with_reducible apply refuseGraph_keep (hT.sub (by decide))
                  assumption
                · with_reducible apply underCheck_keep (hT.sub (by decide))
                  assumption
  · assumption

theorem execGraphCheckDone_keep {T : List Part} (hT : Within [.regs, .fe, .reqs, .cores, .graphs, .checking, .tables, .folds, .dl] T) {s0 : State} (q : BitVec 10) (n : Word) (code : Byte) (bundle : BitVec 17) {s : State} (hs : Keep T s0 s) :
    ∀ t, execGraphCheckDone q n code bundle s = .next t → Keep T s0 t := by
  unfold execGraphCheckDone
  with_reducible apply keep_next
  split
  · assumption
  · extract_lets +onlyGivenNames x0
    split
    · assumption
    · extract_lets +onlyGivenNames x1
      extract_lets +onlyGivenNames x2
      split
      · with_reducible apply refuseGraph_keep (hT.sub (by decide))
        assumption
      · split
        · with_reducible apply refuseGraph_keep (hT.sub (by decide))
          assumption
        · with_reducible apply refuseGraph_keep (hT.sub (by decide))
          assumption
        · extract_lets +onlyGivenNames x3
          extract_lets +onlyGivenNames x4
          have hx4 : Keep T s0 x4 := by
            unfold x4
            with_reducible refine keep_mk hT ?_ rfl ?_
            · assumption
            · (intro p hp; cases p <;> first | rfl | (exfalso; apply hp; decide))
          clear_value x4
          extract_lets +onlyGivenNames x5
          have hx5 : Keep T s0 x5 := by
            unfold x5
            with_reducible apply installVer_keep (hT.sub (by decide))
            assumption
          clear_value x5
          extract_lets +onlyGivenNames x6
          have hx6 : Keep T s0 x6 := by
            unfold x6
            split
            · assumption
            · with_reducible apply keep_foldl
              · assumption
              · intro t7 x8 h9
                with_reducible apply cnt_keep (hT.sub (by decide))
                assumption
          clear_value x6
          with_reducible apply finish_keep (hT.sub (by decide))
          assumption

theorem execGraphStore_keep {T : List Part} (hT : Within [.regs, .fe, .reqs, .graphs, .checking, .tables, .folds, .dl] T) {s0 : State} (q : BitVec 10) (n : Word) {s : State} (hs : Keep T s0 s) :
    ∀ t, execGraphStore q n s = .next t → Keep T s0 t := by
  unfold execGraphStore
  with_reducible apply keep_next
  with_reducible apply ownOr_keep (hT.sub (by decide))
  · intro t0 x1 h2
    with_reducible apply refuseGraph_keep (hT.sub (by decide))
    assumption
  · intro t3 x4 h5
    split
    · with_reducible apply refuseGraph_keep (hT.sub (by decide))
      assumption
    · split
      · with_reducible apply refuseGraph_keep (hT.sub (by decide))
        assumption
      · with_reducible apply fetchSrc_keep (hT.sub (by decide))
        with_reducible apply arrive_keep (hT.sub (by decide))
        assumption
  · intro t6 x7 h8
    split
    · with_reducible apply refuseGraph_keep (hT.sub (by decide))
      assumption
    · with_reducible apply underCheck_keep (hT.sub (by decide))
      assumption
  · assumption

theorem execLookupAdmission_keep {T : List Part} (hT : Within [.regs, .fe, .reqs, .nextHandle, .graphs, .tables, .folds, .dl] T) {s0 : State} {s : State} (hs : Keep T s0 s) :
    ∀ t, execLookupAdmission s = .next t → Keep T s0 t := by
  unfold execLookupAdmission
  with_reducible apply keep_next
  split
  · assumption
  · split
    · assumption
    · extract_lets +onlyGivenNames x0
      split
      · with_reducible apply reject_keep (hT.sub (by decide))
        assumption
      · split
        · with_reducible apply reject_keep (hT.sub (by decide))
          assumption
        · split
          · with_reducible apply reject_keep (hT.sub (by decide))
            assumption
          · extract_lets +onlyGivenNames x1
            have hx1 : Keep T s0 x1.2 := by
              unfold x1
              with_reducible apply takeHandle_keep (hT.sub (by decide))
              assumption
            clear_value x1
            extract_lets +onlyGivenNames x2
            extract_lets +onlyGivenNames x3
            split
            · assumption
            · extract_lets +onlyGivenNames x4
              extract_lets +onlyGivenNames x5
              extract_lets +onlyGivenNames x6
              have hx6 : Keep T s0 x6 := by
                unfold x6
                with_reducible apply keep_foldl
                · with_reducible refine keep_some_pair (by assumption) ?_
                  with_reducible apply bindEach_keep (hT.sub (by decide))
                  assumption
                · intro t7 x8 h9
                  split
                  with_reducible apply pinNum_keep (hT.sub (by decide))
                  assumption
              clear_value x6
              extract_lets +onlyGivenNames x10
              extract_lets +onlyGivenNames x11
              have hx11 : Keep T s0 x11 := by
                unfold x11
                with_reducible refine keep_mk hT ?_ rfl ?_
                · assumption
                · (intro p hp; cases p <;> first | rfl | (exfalso; apply hp; decide))
              clear_value x11
              extract_lets +onlyGivenNames x12
              have hx12 : Keep T s0 x12 := by
                unfold x12
                with_reducible apply updCmd_keep (hT.sub (by decide))
                assumption
              clear_value x12
              with_reducible apply sendPrograms_keep (hT.sub (by decide))
              assumption

theorem execLaunchAdmission_keep {T : List Part} (hT : Within [.regs, .fe, .reqs, .nextHandle, .lastCore, .nextOrder, .cores, .graphs, .tables, .folds, .xl, .dl] T) {s0 : State} {s : State} (hs : Keep T s0 s) :
    ∀ t, execLaunchAdmission s = .next t → Keep T s0 t := by
  unfold execLaunchAdmission
  with_reducible apply keep_next
  split
  · assumption
  · split
    · assumption
    · split
      · with_reducible apply reject_keep (hT.sub (by decide))
        assumption
      · split
        · split
          · with_reducible apply finish_keep (hT.sub (by decide))
            assumption
          · with_reducible apply reject_keep (hT.sub (by decide))
            assumption
        · extract_lets +onlyGivenNames x0
          extract_lets +onlyGivenNames x1
          split
          · with_reducible apply askPins_keep (hT.sub (by decide))
            assumption
          · split
            · unfold x1
              with_reducible apply updCmd_keep (hT.sub (by decide))
              assumption
            · split
              · with_reducible apply finish_keep (hT.sub (by decide))
                assumption
              · extract_lets +onlyGivenNames x2
                extract_lets +onlyGivenNames x3
                split
                · unfold x1
                  with_reducible apply updCmd_keep (hT.sub (by decide))
                  assumption
                · split
                  · unfold x1
                    with_reducible apply updCmd_keep (hT.sub (by decide))
                    assumption
                  · with_reducible refine keep_getD ?_ ?_
                    · unfold x1
                      with_reducible apply updCmd_keep (hT.sub (by decide))
                      assumption
                    · with_reducible apply admitLaunch_keep (hT.sub (by decide))
                      assumption

theorem execSliceDone_keep {T : List Part} (hT : Within [.regs, .fe, .reqs, .cores, .graphs, .tables, .folds, .dl] T) {s0 : State} (f : Fin 8) (gen : Byte) (h : Half) (ctr : BitVec 5) {s : State} (hs : Keep T s0 s) :
    ∀ t, execSliceDone f gen h ctr s = .next t → Keep T s0 t := by
  unfold execSliceDone
  with_reducible apply keep_next
  split
  · with_reducible apply cnt_keep (hT.sub (by decide))
    assumption
  · split
    · assumption
    · split
      · split
        · split
          · assumption
          · extract_lets +onlyGivenNames x0
            extract_lets +onlyGivenNames x1
            have hx1 : Keep T s0 x1 := by
              unfold x1
              with_reducible apply updReq_keep (hT.sub (by decide))
              assumption
            clear_value x1
            split
            · with_reducible apply endLookup_keep (hT.sub (by decide))
              assumption
            · assumption
        · assumption
      · split
        · assumption
        · with_reducible apply bumpOf_keep (hT.sub (by decide))
          with_reducible apply updReq_keep (hT.sub (by decide))
          assumption

theorem execEndRequest_keep {T : List Part} (hT : Within [.reqs, .cores, .folds] T) {s0 : State} (h : Half) {s : State} (hs : Keep T s0 s) :
    ∀ t, execEndRequest h s = .next t → Keep T s0 t := by
  unfold execEndRequest
  with_reducible apply keep_next
  split
  · assumption
  · extract_lets +onlyGivenNames x0
    split
    · assumption
    · extract_lets +onlyGivenNames x1
      have hx1 : Keep T s0 x1 := by
        unfold x1
        with_reducible apply updCore_keep (hT.sub (by decide))
        · assumption
        · intro x2 h3
          with_reducible apply cupdSlot_keep
          assumption
      clear_value x1
      split
      · with_reducible apply endSlot_keep (hT.sub (by decide))
        assumption
      · assumption

theorem execLookup_keep {T : List Part} (hT : Within [.regs, .fe, .reqs, .graphs, .tables, .folds, .dl] T) {s0 : State} (q : BitVec 10) (n : Word) {s : State} (hs : Keep T s0 s) :
    ∀ t, execLookup q n s = .next t → Keep T s0 t := by
  unfold execLookup
  with_reducible apply keep_next
  with_reducible apply own_keep (hT.sub (by decide))
  · intro t0 x1 h2
    extract_lets +onlyGivenNames x3
    extract_lets +onlyGivenNames x4
    split
    · with_reducible apply reject_keep (hT.sub (by decide))
      assumption
    · split
      · with_reducible apply reject_keep (hT.sub (by decide))
        assumption
      · split
        · with_reducible apply reject_keep (hT.sub (by decide))
          assumption
        · with_reducible apply fetchSrc_keep (hT.sub (by decide))
          assumption
  · intro t5 x6 h7
    extract_lets +onlyGivenNames x8
    split
    · with_reducible apply reject_keep (hT.sub (by decide))
      assumption
    · split
      · with_reducible apply reject_keep (hT.sub (by decide))
        assumption
      · with_reducible apply setPhase_keep (hT.sub (by decide))
        with_reducible apply arrive_keep (hT.sub (by decide))
        assumption
  · assumption

theorem execYieldPoint_keep {T : List Part} (hT : Within [.regs, .reqs, .cores, .folds, .ig, .pc] T) {s0 : State} (c : Core2) {s : State} (hs : Keep T s0 s) :
    ∀ t, execYieldPoint c s = .next t → Keep T s0 t := by
  unfold execYieldPoint
  with_reducible apply keep_next
  extract_lets +onlyGivenNames x0
  have hx0 : Keep T s0 x0 := by
    unfold x0
    with_reducible apply closeB_keep (hT.sub (by decide))
    assumption
  clear_value x0
  split
  · with_reducible apply chooseRun_keep (hT.sub (by decide))
    assumption
  · extract_lets +onlyGivenNames x1
    split
    · assumption
    · extract_lets +onlyGivenNames x2
      have hx2 : Keep T s0 x2 := by
        unfold x2
        split
        · assumption
        · with_reducible apply runCore_keep (hT.sub (by decide))
          assumption
      clear_value x2
      split
      · assumption
      · split
        · with_reducible apply endSlot_keep (hT.sub (by decide))
          assumption
        · extract_lets +onlyGivenNames x3
          have hx3 : Keep T s0 x3 := by
            unfold x3
            with_reducible apply updCore_keep (hT.sub (by decide))
            · assumption
            · intro x4 h5
              with_reducible apply cupdSlot_keep
              with_reducible apply clearMav_keep
              assumption
          clear_value x3
          with_reducible apply chooseRun_keep (hT.sub (by decide))
          assumption

theorem execLaunchEnd_keep {T : List Part} (hT : Within [.regs, .fe, .reqs, .cores, .graphs, .tables, .folds, .xl, .dl, .ig, .pc] T) {s0 : State} (h : Half) {s : State} (hs : Keep T s0 s) :
    ∀ t, execLaunchEnd h s = .next t → Keep T s0 t := by
  unfold execLaunchEnd
  with_reducible apply keep_next
  with_reducible apply launchEnds_keep (hT.sub (by decide))
  assumption

theorem execWindow1Zeroed_keep {T : List Part} (hT : Within [.regs, .cores] T) {s0 : State} (c : Core2) (slot : Fin 4) {s : State} (hs : Keep T s0 s) :
    ∀ t, execWindow1Zeroed c slot s = .next t → Keep T s0 t := by
  unfold execWindow1Zeroed
  with_reducible apply keep_next
  extract_lets +onlyGivenNames x0
  split
  · assumption
  · extract_lets +onlyGivenNames x1
    have hx1 : Keep T s0 x1 := by
      unfold x1
      with_reducible apply updCore_keep (hT.sub (by decide))
      · assumption
      · intro x2 h3
        extract_lets +onlyGivenNames x4
        have hx4 : memWf (Core.scratch x4) = true := by
          unfold x4
          split
          · with_reducible apply scrZero_keep
            assumption
          · assumption
        clear_value x4
        with_reducible apply cupdSlot_keep
        assumption
    clear_value x1
    with_reducible apply wakeCore_keep (hT.sub (by decide))
    assumption

theorem execInputSegmentLands_keep {T : List Part} (hT : Within [.regs, .fe, .reqs, .cores] T) {s0 : State} (h : Half) (seg : Fin 16) {s : State} (hs : Keep T s0 s) :
    ∀ t, execInputSegmentLands h seg s = .next t → Keep T s0 t := by
  unfold execInputSegmentLands
  with_reducible apply keep_next
  split
  · extract_lets +onlyGivenNames x0
    extract_lets +onlyGivenNames x1
    extract_lets +onlyGivenNames x2
    split
    · assumption
    · split
      · assumption
      · split
        · extract_lets +onlyGivenNames x3
          extract_lets +onlyGivenNames x4
          have hx4 : Keep T s0 x4 := by
            unfold x4
            with_reducible apply updCore_keep (hT.sub (by decide))
            · assumption
            · intro x5 h6
              with_reducible apply extPut_keep
              assumption
          clear_value x4
          extract_lets +onlyGivenNames x7
          extract_lets +onlyGivenNames x8
          extract_lets +onlyGivenNames x9
          extract_lets +onlyGivenNames x10
          extract_lets +onlyGivenNames x11
          have hx11 : Keep T s0 x11 := by
            unfold x11
            with_reducible apply updReq_keep (hT.sub (by decide))
            with_reducible apply dropXfer_keep (hT.sub (by decide))
            assumption
          clear_value x11
          with_reducible apply keep_foldl
          · assumption
          · intro t12 x13 h14
            with_reducible apply bumpCtr_keep (hT.sub (by decide))
            assumption
        · assumption
  · assumption

theorem execLaunch_keep {T : List Part} (hT : Within [.regs, .fe, .reqs, .graphs, .tables, .folds, .dl] T) {s0 : State} (q : BitVec 10) (n : Word) {s : State} (hs : Keep T s0 s) :
    ∀ t, execLaunch q n s = .next t → Keep T s0 t := by
  unfold execLaunch
  with_reducible apply keep_next
  with_reducible apply own_keep (hT.sub (by decide))
  · intro t0 x1 h2
    extract_lets +onlyGivenNames x3
    split
    · with_reducible apply reject_keep (hT.sub (by decide))
      assumption
    · split
      · with_reducible apply reject_keep (hT.sub (by decide))
        assumption
      · split
        · with_reducible apply reject_keep (hT.sub (by decide))
          assumption
        · with_reducible apply fetchSrc_keep (hT.sub (by decide))
          assumption
  · intro t4 x5 h6
    split
    · with_reducible apply reject_keep (hT.sub (by decide))
      assumption
    · extract_lets +onlyGivenNames x7
      have hx7 : Keep T s0 x7 := by
        unfold x7
        with_reducible apply setPhase_keep (hT.sub (by decide))
        with_reducible apply arrive_keep (hT.sub (by decide))
        assumption
      clear_value x7
      split
      · extract_lets +onlyGivenNames x8
        split
        · assumption
        · with_reducible apply askPins_keep (hT.sub (by decide))
          assumption
      · assumption
  · assumption

theorem execIssueQueueFree_keep {T : List Part} (hT : Within [.regs, .reqs, .cores, .folds, .dl] T) {s0 : State} (c : Core2) {s : State} (hs : Keep T s0 s) :
    ∀ t, execIssueQueueFree c s = .next t → Keep T s0 t := by
  unfold execIssueQueueFree
  with_reducible apply keep_next
  split
  · assumption
  · split
    · split
      · assumption
      · extract_lets +onlyGivenNames x0
        have hx0 : Keep T s0 x0 := by
          unfold x0
          with_reducible apply updCore_keep (hT.sub (by decide))
          · assumption
          · intro x1 h2
            dsimp -zeta only
            assumption
        clear_value x0
        split
        · split
          · split
            · assumption
            · extract_lets +onlyGivenNames x3
              have hx3 : Keep T s0 x3 := by
                unfold x3
                with_reducible apply updReq_keep (hT.sub (by decide))
                assumption
              clear_value x3
              with_reducible apply keep_foldl
              · assumption
              · intro t4 x5 h6
                split
                with_reducible apply emit_keep
                assumption
          · split
            · assumption
            · extract_lets +onlyGivenNames x7
              have hx7 : Keep T s0 x7 := by
                unfold x7
                with_reducible apply updReq_keep (hT.sub (by decide))
                assumption
              clear_value x7
              with_reducible apply keep_foldl
              · assumption
              · intro t8 x9 h10
                split
                with_reducible apply emit_keep
                assumption
        · with_reducible apply keep_foldl
          · assumption
          · intro t11 x12 h13
            extract_lets +onlyGivenNames x14
            with_reducible apply emit_keep
            assumption
        · with_reducible apply startColl_keep (hT.sub (by decide))
          assumption
        · with_reducible apply updReq_keep (hT.sub (by decide))
          assumption
    · split
      · assumption
      · extract_lets +onlyGivenNames x15
        have hx15 : Keep T s0 x15 := by
          unfold x15
          with_reducible apply updCore_keep (hT.sub (by decide))
          · assumption
          · intro x16 h17
            dsimp -zeta only
            assumption
        clear_value x15
        split
        · split
          · split
            · assumption
            · extract_lets +onlyGivenNames x18
              have hx18 : Keep T s0 x18 := by
                unfold x18
                with_reducible apply updReq_keep (hT.sub (by decide))
                assumption
              clear_value x18
              with_reducible apply keep_foldl
              · assumption
              · intro t19 x20 h21
                split
                with_reducible apply emit_keep
                assumption
          · split
            · assumption
            · extract_lets +onlyGivenNames x22
              have hx22 : Keep T s0 x22 := by
                unfold x22
                with_reducible apply updReq_keep (hT.sub (by decide))
                assumption
              clear_value x22
              with_reducible apply keep_foldl
              · assumption
              · intro t23 x24 h25
                split
                with_reducible apply emit_keep
                assumption
        · with_reducible apply keep_foldl
          · assumption
          · intro t26 x27 h28
            extract_lets +onlyGivenNames x29
            with_reducible apply emit_keep
            assumption
        · with_reducible apply startColl_keep (hT.sub (by decide))
          assumption
        · with_reducible apply updReq_keep (hT.sub (by decide))
          assumption

theorem execCollectiveDone_keep {T : List Part} (hT : Within [.regs, .cores, .dl] T) {s0 : State} (h : Half) (idx : Half) {s : State} (hs : Keep T s0 s) :
    ∀ t, execCollectiveDone h idx s = .next t → Keep T s0 t := by
  unfold execCollectiveDone
  with_reducible apply keep_next
  split
  · assumption
  · split
    · assumption
    · extract_lets +onlyGivenNames x0
      have hx0 : Keep T s0 x0 := by
        unfold x0
        with_reducible apply cnt_keep (hT.sub (by decide))
        with_reducible apply updColl_keep (hT.sub (by decide))
        assumption
      clear_value x0
      extract_lets +onlyGivenNames x1
      extract_lets +onlyGivenNames x2
      have hx2 : Keep T s0 x2 := by
        unfold x2
        split
        · assumption
        · with_reducible refine keep_mk hT ?_ rfl ?_
          · assumption
          · (intro p hp; cases p <;> first | rfl | (exfalso; apply hp; decide))
      clear_value x2
      with_reducible apply bumpOf_keep (hT.sub (by decide))
      assumption

theorem execReplay_keep {T : List Part} (hT : Within [.regs, .fe, .reqs, .nextOrder, .cores, .graphs, .checking, .tables, .folds, .xl, .dl] T) {s0 : State} (h : Half) {s : State} (hs : Keep T s0 s) :
    ∀ t, execReplay h s = .next t → Keep T s0 t := by
  unfold execReplay
  with_reducible apply keep_next
  split
  · assumption
  · split
    · extract_lets +onlyGivenNames x0
      extract_lets +onlyGivenNames x1
      extract_lets +onlyGivenNames x2
      split
      · with_reducible apply abortCmd_keep (hT.sub (by decide))
        assumption
      · split
        · assumption
        · split
          · assumption
          · extract_lets +onlyGivenNames x3
            split
            · assumption
            · extract_lets +onlyGivenNames x4
              extract_lets +onlyGivenNames x5
              have hx5 : Keep T s0 x5 := by
                unfold x5
                with_reducible apply updReq_keep (hT.sub (by decide))
                with_reducible refine keep_some_pair (by assumption) ?_
                with_reducible apply bindCtxs_keep (hT.sub (by decide))
                assumption
              clear_value x5
              extract_lets +onlyGivenNames x6
              have hx6 : Keep T s0 x6 := by
                unfold x6
                with_reducible apply updCore_keep (hT.sub (by decide))
                · assumption
                · intro x7 h8
                  with_reducible apply cupdSlot_keep
                  assumption
              clear_value x6
              with_reducible apply cnt_keep (hT.sub (by decide))
              with_reducible apply fillSlot_keep (hT.sub (by decide))
              assumption
    · assumption

theorem execOutputRangeRead_keep {T : List Part} (hT : Within [.regs, .fe, .reqs, .cores, .folds] T) {s0 : State} (h : Half) {s : State} (hs : Keep T s0 s) :
    ∀ t, execOutputRangeRead h s = .next t → Keep T s0 t := by
  unfold execOutputRangeRead
  with_reducible apply keep_next
  split
  · assumption
  · split
    · assumption
    · extract_lets +onlyGivenNames x0
      have hx0 : memWf (Core.scratch x0) = true := by
        unfold x0
        with_reducible exact core_canonical (by assumption) _
      clear_value x0
      extract_lets +onlyGivenNames x1
      extract_lets +onlyGivenNames x2
      have hx2 : Keep T s0 x2 := by
        unfold x2
        split
        · with_reducible apply markPoison_keep (hT.sub (by decide))
          assumption
        · assumption
      clear_value x2
      extract_lets +onlyGivenNames x3
      extract_lets +onlyGivenNames x4
      have hx4 : Keep T s0 x4 := by
        unfold x4
        with_reducible apply updReq_keep (hT.sub (by decide))
        assumption
      clear_value x4
      extract_lets +onlyGivenNames x5
      have hx5 : Keep T s0 x5 := by
        unfold x5
        split
        · with_reducible apply excOf_keep (hT.sub (by decide))
          assumption
        · split
          · assumption
          · with_reducible apply newXfer_keep (hT.sub (by decide))
            assumption
      clear_value x5
      with_reducible apply bumpOf_keep (hT.sub (by decide))
      assumption

end Sys2Proof.Machine
end

