-- ==== Sys2Proof/Laws/KeepCmd.lean ====
section
/-! SUPPORT. `Keep` holds after each command of the rings, the gathers, the tables and the roll-overs, where it held before. -/

namespace Sys2Proof.Machine

theorem execFeQ0DbLo_keep {T : List Part} (hT : Within [.fe] T) {s0 : State} (a : Acc) (v : Word) {s : State} (hs : Keep T s0 s) :
    ∀ t, execFeQ0DbLo a v s = .next t → Keep T s0 t := by
  unfold execFeQ0DbLo
  with_reducible apply keep_next
  with_reducible apply acc1_keep (hT.sub (by decide))
  · assumption
  · intro t0 h1
    with_reducible apply wrFeQ0DbLo_keep (hT.sub (by decide))
    assumption

theorem execStaleBackoffExpire_keep {T : List Part} (hT : Within [.regs, .fe] T) {s0 : State} (q : BitVec 10) {s : State} (hs : Keep T s0 s) :
    ∀ t, execStaleBackoffExpire q s = .next t → Keep T s0 t := by
  unfold execStaleBackoffExpire
  with_reducible apply keep_next
  extract_lets +onlyGivenNames x0
  split
  · assumption
  · with_reducible apply fetchRing_keep (hT.sub (by decide))
    with_reducible apply cnt_keep (hT.sub (by decide))
    with_reducible apply updQueue_keep (hT.sub (by decide))
    assumption

theorem execRingReadLands_keep {T : List Part} (hT : Within [.regs, .fe, .reqs, .graphs, .tables, .folds, .np, .xl, .dl] T) {s0 : State} (q : BitVec 10) (slots : List Bytes) {s : State} (hs : Keep T s0 s) :
    ∀ t, execRingReadLands q slots s = .next t → Keep T s0 t := by
  unfold execRingReadLands
  with_reducible apply keep_next
  extract_lets +onlyGivenNames x0
  split
  · assumption
  · split
    · assumption
    · split
      · assumption
      · extract_lets +onlyGivenNames x1
        extract_lets +onlyGivenNames x2
        have hx2 : Keep T s0 x2 := by
          unfold x2
          with_reducible apply dropXfer_keep (hT.sub (by decide))
          assumption
        clear_value x2
        extract_lets +onlyGivenNames x3
        have hx3 : Keep T s0 x3 := by
          unfold x3
          with_reducible apply updQueue_keep (hT.sub (by decide))
          assumption
        clear_value x3
        with_reducible apply pump_keep (hT.sub (by decide))
        with_reducible apply readAnswered_keep (hT.sub (by decide))
        assumption

theorem execFeQEnable_keep {T : List Part} (hT : Within [.regs, .fe, .ig] T) {s0 : State} (a : Acc) (v : Word) {s : State} (hs : Keep T s0 s) :
    ∀ t, execFeQEnable a v s = .next t → Keep T s0 t := by
  unfold execFeQEnable
  with_reducible apply keep_next
  with_reducible apply acc1_keep (hT.sub (by decide))
  · assumption
  · intro t0 h1
    with_reducible apply wrFeQEnable_keep (hT.sub (by decide))
    assumption

theorem execFeQKey0_keep {T : List Part} (hT : Within [.fe] T) {s0 : State} (a : Acc) (v : Word) {s : State} (hs : Keep T s0 s) :
    ∀ t, execFeQKey0 a v s = .next t → Keep T s0 t := by
  unfold execFeQKey0
  with_reducible apply keep_next
  with_reducible apply acc1_keep (hT.sub (by decide))
  · assumption
  · intro t0 h1
    with_reducible apply wrFeQKey0_keep (hT.sub (by decide))
    assumption

theorem execFeQ0DbHi_keep {T : List Part} (hT : Within [.regs, .fe] T) {s0 : State} (a : Acc) (v : Word) {s : State} (hs : Keep T s0 s) :
    ∀ t, execFeQ0DbHi a v s = .next t → Keep T s0 t := by
  unfold execFeQ0DbHi
  with_reducible apply keep_next
  with_reducible apply acc1_keep (hT.sub (by decide))
  · assumption
  · intro t0 h1
    with_reducible apply wrFeQ0DbHi_keep (hT.sub (by decide))
    assumption

theorem execDecayPeriodEnd_keep {T : List Part} (hT : Within [.folds] T) {s0 : State} (f : Fin 8) {s : State} (hs : Keep T s0 s) :
    ∀ t, execDecayPeriodEnd f s = .next t → Keep T s0 t := by
  unfold execDecayPeriodEnd
  with_reducible apply keep_next
  split
  · assumption
  · extract_lets +onlyGivenNames x0
    have hx0 : Keep T s0 x0 := by
      unfold x0
      with_reducible apply updFold_keep (hT.sub (by decide))
      · assumption
      · intro x1 h2
        exact canonical_of (fold_pasture (by assumption)) (fold_pen (by assumption))
    clear_value x0
    with_reducible apply keep_foldl
    · assumption
    · intro t3 x4 h5
      with_reducible apply sweepEntry_keep (hT.sub (by decide))
      assumption

theorem execContextDrained_keep {T : List Part} (hT : Within [.regs, .folds] T) {s0 : State} (f : Fin 8) (ctx : Byte) {s : State} (hs : Keep T s0 s) :
    ∀ t, execContextDrained f ctx s = .next t → Keep T s0 t := by
  unfold execContextDrained
  with_reducible apply keep_next
  extract_lets +onlyGivenNames x0
  have hx0 : Fold.canonical x0 = true := by
    unfold x0
    with_reducible exact fold_canonical (by assumption) _
  clear_value x0
  split
  · assumption
  · extract_lets +onlyGivenNames x1
    have hx1 : Fold.canonical x1 = true := by
      unfold x1
      with_reducible apply setCtx_keep
      with_reducible assumption
    clear_value x1
    extract_lets +onlyGivenNames x2
    have hx2 : Keep T s0 x2 := by
      unfold x2
      with_reducible apply setFold_keep (hT.sub (by decide))
      · assumption
      · exact canonical_of (fold_pasture (by assumption)) (fold_pen (by assumption))
    clear_value x2
    with_reducible apply cnt_keep (hT.sub (by decide))
    assumption

theorem execProgramBody_keep {T : List Part} (hT : Within [.regs, .fe, .reqs, .cores, .graphs, .checking, .tables, .folds, .dl] T) {s0 : State} (f : Fin 8) (p : Nat) (body : List Word) {s : State} (hs : Keep T s0 s) :
    ∀ t, execProgramBody f p body s = .next t → Keep T s0 t := by
  unfold execProgramBody
  with_reducible apply keep_next
  split
  · split
    · with_reducible apply cnt_keep (hT.sub (by decide))
      assumption
    · assumption
  · split
    · assumption
    · extract_lets +onlyGivenNames x0
      extract_lets +onlyGivenNames x1
      extract_lets +onlyGivenNames x2
      extract_lets +onlyGivenNames x3
      have hx3 : Keep T s0 x3 := by
        unfold x3
        with_reducible apply updFold_keep (hT.sub (by decide))
        · assumption
        · intro x4 h5
          with_reducible apply updProg_keep
          with_reducible assumption
      clear_value x3
      split
      · with_reducible apply foldEnds_keep (hT.sub (by decide))
        with_reducible apply rsetF_keep (hT.sub (by decide))
        assumption
      · split
        · assumption
        · extract_lets +onlyGivenNames x6
          extract_lets +onlyGivenNames x7
          extract_lets +onlyGivenNames x8
          have hx8 : Keep T s0 x8 := by
            unfold x8
            with_reducible apply keep_foldl
            · assumption
            · intro t9 x10 h11
              with_reducible apply noteIdx_keep (hT.sub (by decide))
              assumption
          clear_value x8
          with_reducible apply goOn_keep (hT.sub (by decide))
          assumption

theorem execDependenceRelease_keep {T : List Part} (hT : Within [.regs, .fe, .reqs, .cores, .graphs, .checking, .tables, .folds, .dl] T) {s0 : State} (f : Fin 8) (h : Half) {s : State} (hs : Keep T s0 s) :
    ∀ t, execDependenceRelease f h s = .next t → Keep T s0 t := by
  unfold execDependenceRelease
  with_reducible apply keep_next
  split
  · assumption
  · extract_lets +onlyGivenNames x0
    have hx0 : Keep T s0 x0 := by
      unfold x0
      with_reducible apply updFold_keep (hT.sub (by decide))
      · assumption
      · intro x1 h2
        with_reducible apply settleReq_keep
        with_reducible apply updRel_keep
        with_reducible assumption
    clear_value x0
    with_reducible apply goOnReq_keep (hT.sub (by decide))
    assumption

theorem execPartialSlice_keep {T : List Part} (hT : Within [.regs, .fe, .reqs, .cores, .graphs, .checking, .tables, .folds, .dl] T) {s0 : State} (f : Fin 8) (p : Nat) (bag : Nat) (src : Fin 8) (gen : Byte) (terms : Nat) (vals : List Word) (bad : Bool) {s : State} (hs : Keep T s0 s) :
    ∀ t, execPartialSlice f p bag src gen terms vals bad s = .next t → Keep T s0 t := by
  unfold execPartialSlice
  with_reducible apply keep_next
  split
  · with_reducible apply cnt_keep (hT.sub (by decide))
    assumption
  · split
    · assumption
    · split
      · assumption
      · split
        · assumption
        · extract_lets +onlyGivenNames x0
          extract_lets +onlyGivenNames x1
          have hx1 : Keep T s0 x1 := by
            unfold x1
            with_reducible apply updFold_keep (hT.sub (by decide))
            · assumption
            · intro x2 h3
              with_reducible apply updProg_keep
              with_reducible assumption
          clear_value x1
          with_reducible apply goOn_keep (hT.sub (by decide))
          split
          · assumption
          · with_reducible apply finishBag_keep (hT.sub (by decide))
            assumption

theorem execRowReadReturn_keep {T : List Part} (hT : Within [.regs, .fe, .reqs, .cores, .graphs, .checking, .tables, .folds, .dl, .ig] T) {s0 : State} (f : Fin 8) (p : Nat) (pos : Nat) {s : State} (hs : Keep T s0 s) :
    ∀ t, execRowReadReturn f p pos s = .next t → Keep T s0 t := by
  unfold execRowReadReturn
  with_reducible apply keep_next
  with_reducible apply readsTo_keep (hT.sub (by decide))
  assumption

theorem execAsideFree_keep {T : List Part} (hT : Within [.regs, .folds, .ig] T) {s0 : State} (f : Fin 8) (tid : BitVec 12) {s : State} (hs : Keep T s0 s) :
    ∀ t, execAsideFree f tid s = .next t → Keep T s0 t := by
  unfold execAsideFree
  with_reducible apply keep_next
  split
  · with_reducible apply asideFree_keep (hT.sub (by decide))
    assumption
  · assumption

theorem execProgramAccept_keep {T : List Part} (hT : Within [.regs, .fe, .reqs, .cores, .graphs, .checking, .tables, .folds, .dl] T) {s0 : State} (f : Fin 8) (desc : Bytes) {s : State} (hs : Keep T s0 s) :
    ∀ t, execProgramAccept f desc s = .next t → Keep T s0 t := by
  unfold execProgramAccept
  with_reducible apply keep_next
  extract_lets +onlyGivenNames x0
  extract_lets +onlyGivenNames x1
  have hx1 : Fold.canonical x1 = true := by
    unfold x1
    with_reducible exact fold_canonical (by assumption) _
  clear_value x1
  extract_lets +onlyGivenNames x2
  split
  · with_reducible apply cnt_keep (hT.sub (by decide))
    assumption
  · split
    · assumption
    · split
      · assumption
      · split
        · with_reducible apply foldEnds_keep (hT.sub (by decide))
          with_reducible apply rsetF_keep (hT.sub (by decide))
          assumption
        · split
          · with_reducible apply foldEnds_keep (hT.sub (by decide))
            with_reducible apply rsetF_keep (hT.sub (by decide))
            assumption
          · extract_lets +onlyGivenNames x3
            extract_lets +onlyGivenNames x4
            extract_lets +onlyGivenNames x5
            have hx5 : Fold.canonical x5 = true := by
              unfold x5
              with_reducible apply updRel_keep
              with_reducible assumption
            clear_value x5
            extract_lets +onlyGivenNames x6
            have hx6 : Keep T s0 x6 := by
              unfold x6
              with_reducible apply setFold_keep (hT.sub (by decide))
              · assumption
              · with_reducible apply settleCtx_keep
                exact canonical_of (fold_pasture (by assumption)) (fold_pen (by assumption))
            clear_value x6
            with_reducible apply goOnPeers_keep (hT.sub (by decide))
            with_reducible apply cnt_keep (hT.sub (by decide))
            assumption

theorem execMigrationFlip_keep {T : List Part} (hT : Within [.regs, .folds, .ig] T) {s0 : State} (f : Fin 8) (way : Nat) {s : State} (hs : Keep T s0 s) :
    ∀ t, execMigrationFlip f way s = .next t → Keep T s0 t := by
  unfold execMigrationFlip
  with_reducible apply keep_next
  split
  · with_reducible apply flipMig_keep (hT.sub (by decide))
    assumption
  · assumption

theorem execTileRelease_keep {T : List Part} (hT : Within [.regs, .fe, .reqs, .cores, .graphs, .checking, .tables, .folds, .dl] T) {s0 : State} (f : Fin 8) (h : Half) (tile : Word) {s : State} (hs : Keep T s0 s) :
    ∀ t, execTileRelease f h tile s = .next t → Keep T s0 t := by
  unfold execTileRelease
  with_reducible apply keep_next
  split
  · assumption
  · extract_lets +onlyGivenNames x0
    have hx0 : Keep T s0 x0 := by
      unfold x0
      with_reducible apply updFold_keep (hT.sub (by decide))
      · assumption
      · intro x1 h2
        with_reducible apply settleReq_keep
        with_reducible apply updRel_keep
        with_reducible assumption
    clear_value x0
    with_reducible apply goOnReq_keep (hT.sub (by decide))
    assumption

theorem execQueueDestroy_keep {T : List Part} (hT : Within [.regs, .fe, .reqs, .graphs, .checking, .tables, .folds, .xl, .dl] T) {s0 : State} (n : Word) {s : State} (hs : Keep T s0 s) :
    ∀ t, execQueueDestroy n s = .next t → Keep T s0 t := by
  unfold execQueueDestroy
  with_reducible apply keep_next
  with_reducible apply own_keep (hT.sub (by decide))
  · intro t0 x1 h2
    extract_lets +onlyGivenNames x3
    split
    · with_reducible apply reject_keep (hT.sub (by decide))
      assumption
    · split
      · with_reducible apply reject_keep (hT.sub (by decide))
        assumption
      · with_reducible apply resume_keep (hT.sub (by decide))
        with_reducible apply settle_keep (hT.sub (by decide))
        with_reducible apply finish_keep (hT.sub (by decide))
        with_reducible apply dropQueue_keep (hT.sub (by decide))
        with_reducible apply arrive_keep (hT.sub (by decide))
        assumption
  · intro t4 x5 h6
    with_reducible apply noLanded_keep (hT.sub (by decide))
    assumption
  · assumption

theorem execStatsRead_keep {T : List Part} (hT : Within [.regs, .fe, .reqs, .graphs, .tables, .folds, .dl] T) {s0 : State} (n : Word) {s : State} (hs : Keep T s0 s) :
    ∀ t, execStatsRead n s = .next t → Keep T s0 t := by
  unfold execStatsRead
  with_reducible apply keep_next
  with_reducible apply own_keep (hT.sub (by decide))
  · intro t0 x1 h2
    extract_lets +onlyGivenNames x3
    split
    · with_reducible apply reject_keep (hT.sub (by decide))
      assumption
    · extract_lets +onlyGivenNames x4
      extract_lets +onlyGivenNames x5
      split
      · with_reducible apply reject_keep (hT.sub (by decide))
        assumption
      · extract_lets +onlyGivenNames x6
        with_reducible apply finish_keep (hT.sub (by decide))
        with_reducible apply sendDst_keep (hT.sub (by decide))
        with_reducible apply arrive_keep (hT.sub (by decide))
        assumption
  · intro t7 x8 h9
    with_reducible apply noLanded_keep (hT.sub (by decide))
    assumption
  · assumption

theorem execRegionUnmap_keep {T : List Part} (hT : Within [.regs, .fe, .reqs, .graphs, .tables, .folds, .xl, .dl] T) {s0 : State} (n : Word) {s : State} (hs : Keep T s0 s) :
    ∀ t, execRegionUnmap n s = .next t → Keep T s0 t := by
  unfold execRegionUnmap
  with_reducible apply keep_next
  with_reducible apply own_keep (hT.sub (by decide))
  · intro t0 x1 h2
    extract_lets +onlyGivenNames x3
    extract_lets +onlyGivenNames x4
    split
    · with_reducible apply reject_keep (hT.sub (by decide))
      assumption
    · split
      · with_reducible apply reject_keep (hT.sub (by decide))
        assumption
      · with_reducible apply setRegion_keep (hT.sub (by decide))
        with_reducible apply setPhase_keep (hT.sub (by decide))
        with_reducible apply arrive_keep (hT.sub (by decide))
        assumption
  · intro t5 x6 h7
    with_reducible apply noLanded_keep (hT.sub (by decide))
    assumption
  · assumption

theorem execQueueCreate_keep {T : List Part} (hT : Within [.regs, .fe, .reqs, .graphs, .tables, .folds, .dl] T) {s0 : State} (n : Word) {s : State} (hs : Keep T s0 s) :
    ∀ t, execQueueCreate n s = .next t → Keep T s0 t := by
  unfold execQueueCreate
  with_reducible apply keep_next
  split
  · assumption
  · with_reducible apply own_keep (hT.sub (by decide))
    · intro t0 x1 h2
      extract_lets +onlyGivenNames x3
      extract_lets +onlyGivenNames x4
      extract_lets +onlyGivenNames x5
      split
      · with_reducible apply reject_keep (hT.sub (by decide))
        assumption
      · split
        · with_reducible apply reject_keep (hT.sub (by decide))
          assumption
        · split
          · with_reducible apply reject_keep (hT.sub (by decide))
            assumption
          · extract_lets +onlyGivenNames x6
            have hx6 : Keep T s0 x6 := by
              unfold x6
              with_reducible apply setQueue_keep (hT.sub (by decide))
              with_reducible apply arrive_keep (hT.sub (by decide))
              assumption
            clear_value x6
            with_reducible apply finish_keep (hT.sub (by decide))
            assumption
    · intro t7 x8 h9
      with_reducible apply noLanded_keep (hT.sub (by decide))
      assumption
    · assumption

theorem execLeaseRenewSession_keep {T : List Part} (hT : Within [.regs, .fe, .reqs, .graphs, .tables, .folds, .np, .dl] T) {s0 : State} (n : Word) {s : State} (hs : Keep T s0 s) :
    ∀ t, execLeaseRenewSession n s = .next t → Keep T s0 t := by
  unfold execLeaseRenewSession
  with_reducible apply keep_next
  split
  · with_reducible apply own_keep (hT.sub (by decide))
    · intro t0 x1 h2
      extract_lets +onlyGivenNames x3
      extract_lets +onlyGivenNames x4
      split
      · with_reducible apply reject_keep (hT.sub (by decide))
        assumption
      · split
        · with_reducible apply reject_keep (hT.sub (by decide))
          assumption
        · extract_lets +onlyGivenNames x5
          have hx5 : Keep T s0 x5 := by
            unfold x5
            split
            · assumption
            · with_reducible apply rset_keep (hT.sub (by decide))
              assumption
          clear_value x5
          extract_lets +onlyGivenNames x6
          have hx6 : Keep T s0 x6 := by
            unfold x6
            with_reducible apply updSession_keep (hT.sub (by decide))
            · assumption
            · intro x7 h8 h9
              assumption
          clear_value x6
          with_reducible apply finish_keep (hT.sub (by decide))
          with_reducible apply arrive_keep (hT.sub (by decide))
          assumption
    · intro t10 x11 h12
      with_reducible apply noLanded_keep (hT.sub (by decide))
      assumption
    · assumption
  · assumption

theorem execFence_keep {T : List Part} (hT : Within [.regs, .fe, .reqs, .graphs, .tables, .folds, .xl, .dl] T) {s0 : State} (q : BitVec 10) (n : Word) {s : State} (hs : Keep T s0 s) :
    ∀ t, execFence q n s = .next t → Keep T s0 t := by
  unfold execFence
  with_reducible apply keep_next
  with_reducible apply own_keep (hT.sub (by decide))
  · intro t0 x1 h2
    extract_lets +onlyGivenNames x3
    split
    · with_reducible apply reject_keep (hT.sub (by decide))
      split
      · with_reducible refine keep_mk hT ?_ rfl ?_
        · assumption
        · (intro p hp; cases p <;> first | rfl | (exfalso; apply hp; decide))
      · assumption
    · extract_lets +onlyGivenNames x4
      have hx4 : Keep T s0 x4 := by
        unfold x4
        with_reducible apply setPhase_keep (hT.sub (by decide))
        with_reducible apply arrive_keep (hT.sub (by decide))
        assumption
      clear_value x4
      with_reducible apply settle_keep (hT.sub (by decide))
      split
      · with_reducible apply syncPoint_keep (hT.sub (by decide))
        assumption
      · assumption
  · intro t5 x6 h7
    with_reducible apply noLanded_keep (hT.sub (by decide))
    assumption
  · assumption

theorem execAbortQueue_keep {T : List Part} (hT : Within [.regs, .fe, .reqs, .graphs, .checking, .tables, .folds, .dl] T) {s0 : State} (n : Word) {s : State} (hs : Keep T s0 s) :
    ∀ t, execAbortQueue n s = .next t → Keep T s0 t := by
  unfold execAbortQueue
  with_reducible apply keep_next
  with_reducible apply abortRow_keep (hT.sub (by decide))
  · intro t0 x1 h2
    split
    · with_reducible apply reject_keep (hT.sub (by decide))
      assumption
    · with_reducible apply abortWhole_keep (hT.sub (by decide))
      assumption
  · assumption

theorem execQueueTimeout_keep {T : List Part} (hT : Within [.regs, .fe, .reqs, .graphs, .checking, .tables, .folds, .dl] T) {s0 : State} (q : BitVec 10) (n : Word) {s : State} (hs : Keep T s0 s) :
    ∀ t, execQueueTimeout q n s = .next t → Keep T s0 t := by
  unfold execQueueTimeout
  with_reducible apply keep_next
  split
  · assumption
  · split
    · assumption
    · with_reducible apply settle_keep (hT.sub (by decide))
      with_reducible apply cnt_keep (hT.sub (by decide))
      with_reducible apply abortOne_keep (hT.sub (by decide))
      assumption

theorem execXlSyncDone_keep {T : List Part} (hT : Within [.regs, .fe, .reqs, .graphs, .tables, .folds, .xl, .dl] T) {s0 : State} (n : Word) {s : State} (hs : Keep T s0 s) :
    ∀ t, execXlSyncDone n s = .next t → Keep T s0 t := by
  unfold execXlSyncDone
  with_reducible apply keep_next
  split
  · assumption
  · split
    · assumption
    · with_reducible apply settle_keep (hT.sub (by decide))
      with_reducible apply cnt_keep (hT.sub (by decide))
      with_reducible refine keep_mk hT ?_ rfl ?_
      · assumption
      · (intro p hp; cases p <;> first | rfl | (exfalso; apply hp; decide))

theorem execLeaseRenewOwner_keep {T : List Part} (hT : Within [.regs, .fe, .reqs, .graphs, .tables, .folds, .np, .dl] T) {s0 : State} (n : Word) {s : State} (hs : Keep T s0 s) :
    ∀ t, execLeaseRenewOwner n s = .next t → Keep T s0 t := by
  unfold execLeaseRenewOwner
  with_reducible apply keep_next
  split
  · with_reducible apply own_keep (hT.sub (by decide))
    · intro t0 x1 h2
      extract_lets +onlyGivenNames x3
      split
      · with_reducible apply reject_keep (hT.sub (by decide))
        assumption
      · split
        · with_reducible apply reject_keep (hT.sub (by decide))
          assumption
        · extract_lets +onlyGivenNames x4
          have hx4 : Keep T s0 x4 := by
            unfold x4
            split
            · assumption
            · with_reducible apply rset_keep (hT.sub (by decide))
              assumption
          clear_value x4
          extract_lets +onlyGivenNames x5
          extract_lets +onlyGivenNames x6
          have hx6 : Keep T s0 x6 := by
            unfold x6
            with_reducible refine keep_mk hT ?_ rfl ?_
            · assumption
            · (intro p hp; cases p <;> first | rfl | (exfalso; apply hp; decide))
          clear_value x6
          with_reducible apply finish_keep (hT.sub (by decide))
          with_reducible apply arrive_keep (hT.sub (by decide))
          assumption
    · intro t7 x8 h9
      with_reducible apply noLanded_keep (hT.sub (by decide))
      assumption
    · assumption
  · assumption

theorem execNop_keep {T : List Part} (hT : Within [.regs, .fe, .reqs, .graphs, .tables, .folds, .dl] T) {s0 : State} (q : BitVec 10) (n : Word) {s : State} (hs : Keep T s0 s) :
    ∀ t, execNop q n s = .next t → Keep T s0 t := by
  unfold execNop
  with_reducible apply keep_next
  with_reducible apply own_keep (hT.sub (by decide))
  · intro t0 x1 h2
    split
    · with_reducible apply finish_keep (hT.sub (by decide))
      with_reducible apply arrive_keep (hT.sub (by decide))
      assumption
    · with_reducible apply reject_keep (hT.sub (by decide))
      assumption
  · intro t3 x4 h5
    with_reducible apply noLanded_keep (hT.sub (by decide))
    assumption
  · assumption

theorem execAbortCid_keep {T : List Part} (hT : Within [.regs, .fe, .reqs, .graphs, .checking, .tables, .folds, .dl] T) {s0 : State} (n : Word) {s : State} (hs : Keep T s0 s) :
    ∀ t, execAbortCid n s = .next t → Keep T s0 t := by
  unfold execAbortCid
  with_reducible apply keep_next
  with_reducible apply abortRow_keep (hT.sub (by decide))
  · intro t0 x1 h2
    with_reducible apply keep_foldl
    · assumption
    · intro t3 x4 h5
      with_reducible apply abortWhole_keep (hT.sub (by decide))
      assumption
  · assumption

theorem execRegionMap_keep {T : List Part} (hT : Within [.regs, .fe, .reqs, .graphs, .tables, .folds, .xl, .dl] T) {s0 : State} (n : Word) {s : State} (hs : Keep T s0 s) :
    ∀ t, execRegionMap n s = .next t → Keep T s0 t := by
  unfold execRegionMap
  with_reducible apply keep_next
  with_reducible apply own_keep (hT.sub (by decide))
  · intro t0 x1 h2
    split
    · with_reducible apply reject_keep (hT.sub (by decide))
      assumption
    · with_reducible apply fetchSrc_keep (hT.sub (by decide))
      with_reducible apply arrive_keep (hT.sub (by decide))
      assumption
  · intro t3 x4 h5
    extract_lets +onlyGivenNames x6
    extract_lets +onlyGivenNames x7
    split
    · with_reducible apply reject_keep (hT.sub (by decide))
      assumption
    · with_reducible apply finish_keep (hT.sub (by decide))
      with_reducible apply setRegion_keep (hT.sub (by decide))
      assumption
  · assumption

theorem execAbortAllQueues_keep {T : List Part} (hT : Within [.regs, .fe, .reqs, .graphs, .checking, .tables, .folds, .dl] T) {s0 : State} (n : Word) {s : State} (hs : Keep T s0 s) :
    ∀ t, execAbortAllQueues n s = .next t → Keep T s0 t := by
  unfold execAbortAllQueues
  with_reducible apply keep_next
  with_reducible apply abortRow_keep (hT.sub (by decide))
  · intro t0 x1 h2
    with_reducible apply keep_foldl
    · assumption
    · intro t3 x4 h5
      with_reducible apply abortWhole_keep (hT.sub (by decide))
      assumption
  · assumption

theorem execAbortCommand_keep {T : List Part} (hT : Within [.regs, .fe, .reqs, .graphs, .checking, .tables, .folds, .dl] T) {s0 : State} (n : Word) {s : State} (hs : Keep T s0 s) :
    ∀ t, execAbortCommand n s = .next t → Keep T s0 t := by
  unfold execAbortCommand
  with_reducible apply keep_next
  with_reducible apply abortRow_keep (hT.sub (by decide))
  · intro t0 x1 h2
    split
    · with_reducible apply abortInto_keep (hT.sub (by decide))
      assumption
    · assumption
  · assumption

theorem execTableLoadFull_keep {T : List Part} (hT : Within [.regs, .fe, .reqs, .graphs, .tables, .folds, .dl, .ig] T) {s0 : State} (q : BitVec 10) (n : Word) {s : State} (hs : Keep T s0 s) :
    ∀ t, execTableLoadFull q n s = .next t → Keep T s0 t := by
  unfold execTableLoadFull
  with_reducible apply keep_next
  with_reducible apply ownGo_keep (hT.sub (by decide))
  · intro t0 x1 h2
    with_reducible apply loadFirst_keep (hT.sub (by decide))
    assumption
  · intro t3 x4 h5
    with_reducible apply fullGo_keep (hT.sub (by decide))
    assumption
  · assumption

theorem execTableCommitDrop_keep {T : List Part} (hT : Within [.regs, .fe, .reqs, .graphs, .tables, .folds, .dl] T) {s0 : State} (q : BitVec 10) (n : Word) {s : State} (hs : Keep T s0 s) :
    ∀ t, execTableCommitDrop q n s = .next t → Keep T s0 t := by
  unfold execTableCommitDrop
  with_reducible apply keep_next
  with_reducible apply ownGo_keep (hT.sub (by decide))
  · intro t0 x1 h2
    with_reducible apply commitFirst_keep (hT.sub (by decide))
    assumption
  · intro t3 x4 h5
    with_reducible apply commitStay_keep (hT.sub (by decide))
    assumption
  · assumption

theorem execTableExport_keep {T : List Part} (hT : Within [.regs, .fe, .reqs, .nextHandle, .graphs, .tables, .folds, .dl, .ig] T) {s0 : State} (q : BitVec 10) (n : Word) {s : State} (hs : Keep T s0 s) :
    ∀ t, execTableExport q n s = .next t → Keep T s0 t := by
  unfold execTableExport
  with_reducible apply keep_next
  with_reducible apply ownGo_keep (hT.sub (by decide))
  · intro t0 x1 h2
    split
    · with_reducible apply reject_keep (hT.sub (by decide))
      assumption
    · with_reducible apply setPhase_keep (hT.sub (by decide))
      with_reducible apply arrive_keep (hT.sub (by decide))
      assumption
  · intro t3 x4 h5
    with_reducible apply exportGo_keep (hT.sub (by decide))
    assumption
  · assumption

theorem execTableLoadRows_keep {T : List Part} (hT : Within [.regs, .fe, .reqs, .graphs, .tables, .folds, .dl, .ig] T) {s0 : State} (q : BitVec 10) (n : Word) {s : State} (hs : Keep T s0 s) :
    ∀ t, execTableLoadRows q n s = .next t → Keep T s0 t := by
  unfold execTableLoadRows
  with_reducible apply keep_next
  with_reducible apply ownGo_keep (hT.sub (by decide))
  · intro t0 x1 h2
    with_reducible apply loadFirst_keep (hT.sub (by decide))
    assumption
  · intro t3 x4 h5
    with_reducible apply rowsGo_keep (hT.sub (by decide))
    assumption
  · assumption

theorem execTableCommit_keep {T : List Part} (hT : Within [.regs, .fe, .reqs, .graphs, .tables, .folds, .dl] T) {s0 : State} (q : BitVec 10) (n : Word) {s : State} (hs : Keep T s0 s) :
    ∀ t, execTableCommit q n s = .next t → Keep T s0 t := by
  unfold execTableCommit
  with_reducible apply keep_next
  with_reducible apply ownGo_keep (hT.sub (by decide))
  · intro t0 x1 h2
    with_reducible apply commitFirst_keep (hT.sub (by decide))
    assumption
  · intro t3 x4 h5
    with_reducible apply commitStay_keep (hT.sub (by decide))
    assumption
  · assumption

theorem execTableCommitStep_keep {T : List Part} (hT : Within [.regs, .fe, .reqs, .graphs, .tables, .folds, .dl, .ig] T) {s0 : State} (q : BitVec 10) (n : Word) {s : State} (hs : Keep T s0 s) :
    ∀ t, execTableCommitStep q n s = .next t → Keep T s0 t := by
  unfold execTableCommitStep
  with_reducible apply keep_next
  split
  · assumption
  · split
    · assumption
    · split
      · with_reducible apply dropJudge_keep (hT.sub (by decide))
        assumption
      · with_reducible apply commitJudge_keep (hT.sub (by decide))
        assumption

theorem execEpochGraceExpire_keep {T : List Part} (hT : Within [.regs, .fe, .reqs, .graphs, .checking, .tables, .folds, .dl] T) {s0 : State} (tid : BitVec 12) {s : State} (hs : Keep T s0 s) :
    ∀ t, execEpochGraceExpire tid s = .next t → Keep T s0 t := by
  unfold execEpochGraceExpire
  with_reducible apply keep_next
  extract_lets +onlyGivenNames x0
  split
  · assumption
  · extract_lets +onlyGivenNames x1
    extract_lets +onlyGivenNames x2
    extract_lets +onlyGivenNames x3
    have hx3 : Keep T s0 x3 := by
      unfold x3
      with_reducible apply keep_foldl
      · assumption
      · intro t4 x5 h6
        with_reducible apply retireReq_keep (hT.sub (by decide))
        assumption
    clear_value x3
    extract_lets +onlyGivenNames x7
    extract_lets +onlyGivenNames x8
    have hx8 : Keep T s0 x8 := by
      unfold x8
      with_reducible apply keep_foldl
      · assumption
      · intro t9 x10 h11
        with_reducible apply finish_keep (hT.sub (by decide))
        assumption
    clear_value x8
    extract_lets +onlyGivenNames x12
    have hx12 : Keep T s0 x12 := by
      unfold x12
      with_reducible apply cntN_keep (hT.sub (by decide))
      assumption
    clear_value x12
    extract_lets +onlyGivenNames x13
    have hx13 : Keep T s0 x13 := by
      unfold x13
      with_reducible refine keep_mk hT ?_ rfl ?_
      · assumption
      · (intro p hp; cases p <;> first | rfl | (exfalso; apply hp; decide))
    clear_value x13
    with_reducible apply prevGone_keep (hT.sub (by decide))
    assumption

theorem execRecoveringClear_keep {T : List Part} (hT : Within [.regs, .folds, .ig] T) {s0 : State} (f : Fin 8) {s : State} (hs : Keep T s0 s) :
    ∀ t, execRecoveringClear f s = .next t → Keep T s0 t := by
  unfold execRecoveringClear
  with_reducible apply keep_next
  split
  · assumption
  · extract_lets +onlyGivenNames x0
    extract_lets +onlyGivenNames x1
    have hx1 : Keep T s0 x1.1 := by
      unfold x1
      with_reducible refine foldl_keep (fun p => Keep T s0 (Prod.fst p)) _ _ _ ?_ ?_
      · dsimp -zeta only
        assumption
      · intro x2 x3 h4
        extract_lets +onlyGivenNames x5
        have hx5 : Keep T s0 x5.1 := by
          unfold x5
          with_reducible apply recoverUp_keep (hT.sub (by decide))
          assumption
        clear_value x5
        dsimp -zeta only
        assumption
    clear_value x1
    extract_lets +onlyGivenNames x6
    have hx6 : Keep T s0 x6.1 := by
      unfold x6
      with_reducible refine foldl_keep (fun p => Keep T s0 (Prod.fst p)) _ _ _ ?_ ?_
      · assumption
      · intro x7 x8 h9
        extract_lets +onlyGivenNames x10
        have hx10 : Keep T s0 x10.1 := by
          unfold x10
          with_reducible apply recoverUp_keep (hT.sub (by decide))
          assumption
        clear_value x10
        dsimp -zeta only
        assumption
    clear_value x6
    split
    · with_reducible apply rsetF_keep (hT.sub (by decide))
      with_reducible apply updUnit_keep (hT.sub (by decide))
      assumption
    · assumption

theorem execUpdate_keep {T : List Part} (hT : Within [.regs, .fe, .reqs, .nextHandle, .graphs, .tables, .folds, .dl, .ig] T) {s0 : State} (q : BitVec 10) (n : Word) {s : State} (hs : Keep T s0 s) :
    ∀ t, execUpdate q n s = .next t → Keep T s0 t := by
  unfold execUpdate
  with_reducible apply keep_next
  with_reducible apply ownGo_keep (hT.sub (by decide))
  · intro t0 x1 h2
    split
    · with_reducible apply reject_keep (hT.sub (by decide))
      assumption
    · split
      · with_reducible apply reject_keep (hT.sub (by decide))
        assumption
      · split
        · with_reducible apply reject_keep (hT.sub (by decide))
          assumption
        · with_reducible apply fetchSrc_keep (hT.sub (by decide))
          with_reducible apply arrive_keep (hT.sub (by decide))
          assumption
  · intro t3 x4 h5
    split
    · with_reducible apply reject_keep (hT.sub (by decide))
      assumption
    · with_reducible apply updateGo_keep (hT.sub (by decide))
      assumption
  · assumption

theorem execUpdateCommitPoint_keep {T : List Part} (hT : Within [.regs, .fe, .dl] T) {s0 : State} (q : BitVec 10) (n : Word) {s : State} (hs : Keep T s0 s) :
    ∀ t, execUpdateCommitPoint q n s = .next t → Keep T s0 t := by
  unfold execUpdateCommitPoint
  with_reducible apply keep_next
  split
  · assumption
  · split
    · assumption
    · extract_lets +onlyGivenNames x0
      extract_lets +onlyGivenNames x1
      (clear_value *; split)
      · split
        · assumption
        · extract_lets +onlyGivenNames x2
          have hx2 : Keep T s0 x2 := by
            unfold x2
            with_reducible apply updCmd_keep (hT.sub (by decide))
            assumption
          clear_value x2
          split
          · with_reducible apply cnt_keep (hT.sub (by decide))
            with_reducible apply droveSend_keep (hT.sub (by decide))
            assumption
          · assumption
      · split
        · assumption
        · extract_lets +onlyGivenNames x3
          have hx3 : Keep T s0 x3 := by
            unfold x3
            with_reducible apply updCmd_keep (hT.sub (by decide))
            assumption
          clear_value x3
          split
          · with_reducible apply cnt_keep (hT.sub (by decide))
            with_reducible apply droveSend_keep (hT.sub (by decide))
            assumption
          · assumption

theorem execUpdatePublish_keep {T : List Part} (hT : Within [.regs, .fe, .reqs, .graphs, .tables, .folds, .dl, .ig] T) {s0 : State} (q : BitVec 10) (n : Word) {s : State} (hs : Keep T s0 s) :
    ∀ t, execUpdatePublish q n s = .next t → Keep T s0 t := by
  unfold execUpdatePublish
  with_reducible apply keep_next
  split
  · assumption
  · split
    · assumption
    · extract_lets +onlyGivenNames x0
      split
      · with_reducible apply publishUpd_keep (hT.sub (by decide))
        assumption
      · split
        · assumption
        · with_reducible apply sendReady_keep (hT.sub (by decide))
          assumption

theorem execCompletionPost_keep {T : List Part} (hT : Within [.regs, .fe, .reqs, .graphs, .checking, .tables, .folds, .np, .xl, .dl, .ig] T) {s0 : State} (q : BitVec 10) (n : Word) {s : State} (hs : Keep T s0 s) :
    ∀ t, execCompletionPost q n s = .next t → Keep T s0 t := by
  unfold execCompletionPost
  with_reducible apply keep_next
  split
  · assumption
  · split
    · assumption
    · extract_lets +onlyGivenNames x0
      extract_lets +onlyGivenNames x1
      extract_lets +onlyGivenNames x2
      have hx2 : Keep T s0 x2.1 := by
        unfold x2
        with_reducible apply newXfer_keep (hT.sub (by decide))
        assumption
      clear_value x2
      extract_lets +onlyGivenNames x3
      have hx3 : Keep T s0 x3 := by
        unfold x3
        with_reducible apply updQueue_keep (hT.sub (by decide))
        with_reducible apply cnt_keep (hT.sub (by decide))
        assumption
      clear_value x3
      extract_lets +onlyGivenNames x4
      have hx4 : Keep T s0 x4 := by
        unfold x4
        with_reducible apply noteStatus_keep (hT.sub (by decide))
        assumption
      clear_value x4
      extract_lets +onlyGivenNames x5
      have hx5 : Keep T s0 x5 := by
        unfold x5
        split
        · with_reducible apply cnt_keep (hT.sub (by decide))
          assumption
        · split
          · with_reducible apply cnt_keep (hT.sub (by decide))
            assumption
          · assumption
      clear_value x5
      extract_lets +onlyGivenNames x6
      have hx6 : Keep T s0 x6 := by
        unfold x6
        with_reducible apply dropCmd_keep (hT.sub (by decide))
        split
        · assumption
        · with_reducible apply releaseReq_keep (hT.sub (by decide))
          assumption
      clear_value x6
      extract_lets +onlyGivenNames x7
      have hx7 : Keep T s0 x7 := by
        unfold x7
        split
        · split
          · with_reducible apply issuePiece_keep (hT.sub (by decide))
            assumption
          · assumption
        · assumption
      clear_value x7
      with_reducible apply resume_keep (hT.sub (by decide))
      with_reducible apply settle_keep (hT.sub (by decide))
      assumption

theorem execDmaPieceIssue_keep {T : List Part} (hT : Within [.regs, .fe, .reqs, .graphs, .checking, .tables, .folds, .np, .xl, .dl, .ig] T) {s0 : State} (x : Nat) {s : State} (hs : Keep T s0 s) :
    ∀ t, execDmaPieceIssue x s = .next t → Keep T s0 t := by
  unfold execDmaPieceIssue
  with_reducible apply keep_next
  split
  · assumption
  · split
    · with_reducible apply nextPiece_keep (hT.sub (by decide))
      assumption
    · assumption

theorem execDmaReadLands_keep {T : List Part} (hT : Within [.regs, .fe, .reqs, .graphs, .checking, .tables, .folds, .np, .xl, .dl] T) {s0 : State} (x : Nat) (data : Bytes) {s : State} (hs : Keep T s0 s) :
    ∀ t, execDmaReadLands x data s = .next t → Keep T s0 t := by
  unfold execDmaReadLands
  with_reducible apply keep_next
  split
  · with_reducible apply lostLands_keep (hT.sub (by decide))
    assumption
  · split
    · assumption
    · extract_lets +onlyGivenNames x0
      extract_lets +onlyGivenNames x1
      have hx1 : Keep T s0 x1 := by
        unfold x1
        with_reducible apply readAnswered_keep (hT.sub (by decide))
        assumption
      clear_value x1
      split
      · with_reducible apply updXfer_keep (hT.sub (by decide))
        assumption
      · split
        · with_reducible apply updXfer_keep (hT.sub (by decide))
          assumption
        · extract_lets +onlyGivenNames x2
          have hx2 : Keep T s0 x2 := by
            unfold x2
            with_reducible apply dropXfer_keep (hT.sub (by decide))
            assumption
          clear_value x2
          split
          · with_reducible apply abortCmd_keep (hT.sub (by decide))
            assumption
          · extract_lets +onlyGivenNames x3
            have hx3 : Keep T s0 x3 := by
              unfold x3
              with_reducible apply giveCmd_keep (hT.sub (by decide))
              assumption
            clear_value x3
            split
            · split
              · assumption
              · with_reducible apply sendBody_keep (hT.sub (by decide))
                assumption
            · assumption

theorem execFaultWaitRewalk_keep {T : List Part} (hT : Within [.regs, .fe, .reqs, .graphs, .checking, .tables, .folds, .np, .xl, .dl, .ig] T) {s0 : State} (x : Nat) {s : State} (hs : Keep T s0 s) :
    ∀ t, execFaultWaitRewalk x s = .next t → Keep T s0 t := by
  unfold execFaultWaitRewalk
  with_reducible apply keep_next
  split
  · assumption
  · split
    · with_reducible apply nextPiece_keep (hT.sub (by decide))
      assumption
    · assumption

theorem execFaultWaitExpire_keep {T : List Part} (hT : Within [.regs, .fe, .reqs, .graphs, .checking, .tables, .folds, .np, .dl] T) {s0 : State} (x : Nat) {s : State} (hs : Keep T s0 s) :
    ∀ t, execFaultWaitExpire x s = .next t → Keep T s0 t := by
  unfold execFaultWaitExpire
  with_reducible apply keep_next
  split
  · assumption
  · split
    · assumption
    · extract_lets +onlyGivenNames x0
      extract_lets +onlyGivenNames x1
      split
      · extract_lets +onlyGivenNames x2
        extract_lets +onlyGivenNames x3
        have hx3 : Keep T s0 x3 := by
          unfold x3
          with_reducible apply fqWrite_keep (hT.sub (by decide))
          with_reducible apply cnt_keep (hT.sub (by decide))
          assumption
        clear_value x3
        with_reducible apply nakAccess_keep (hT.sub (by decide))
        with_reducible apply dropXfer_keep (hT.sub (by decide))
        assumption
      · with_reducible apply xlatFault_keep (hT.sub (by decide))
        assumption

end Sys2Proof.Machine
end

