-- ==== Sys2Proof/Laws/KeepFar.lean ====
section
/-! SUPPORT. `Keep` holds after each command of the links, the groups, the pairs and the ports, where it held before. -/

namespace Sys2Proof.Machine

theorem execFlitReceive_keep {T : List Part} (hT : Within [.regs, .fe, .reqs, .cores, .graphs, .tables, .folds, .dl] T) {s0 : State} (l : Fin 32) (b : Bytes) (crc : Word) (fecOk : Bool) (corrected : Bool) {s : State} (hs : Keep T s0 s) :
    ∀ t, execFlitReceive l b crc fecOk corrected s = .next t → Keep T s0 t := by
  unfold execFlitReceive
  with_reducible apply keep_next
  extract_lets +onlyGivenNames x0
  extract_lets +onlyGivenNames x1
  split
  · assumption
  · extract_lets +onlyGivenNames x2
    have hx2 : Keep T s0 x2 := by
      unfold x2
      split
      · with_reducible apply cnt_keep (hT.sub (by decide))
        assumption
      · assumption
    clear_value x2
    extract_lets +onlyGivenNames x3
    have hx3 : Keep T s0 x3 := by
      unfold x3
      split
      · assumption
      · with_reducible apply cnt_keep (hT.sub (by decide))
        assumption
    clear_value x3
    split
    · with_reducible apply sendNak_keep (hT.sub (by decide))
      assumption
    · split
      · extract_lets +onlyGivenNames x4
        have hx4 : Keep T s0 x4 := by
          unfold x4
          with_reducible apply cnt_keep (hT.sub (by decide))
          assumption
        clear_value x4
        split
        · with_reducible apply ackFlits_keep (hT.sub (by decide))
          assumption
        · assumption
      · split
        · with_reducible apply resend_keep (hT.sub (by decide))
          with_reducible apply ackFlits_keep (hT.sub (by decide))
          with_reducible apply cnt_keep (hT.sub (by decide))
          assumption
        · split
          · with_reducible apply sendNak_keep (hT.sub (by decide))
            assumption
          · extract_lets +onlyGivenNames x5
            have hx5 : Keep T s0 x5 := by
              unfold x5
              with_reducible apply cnt_keep (hT.sub (by decide))
              with_reducible apply updLink_keep (hT.sub (by decide))
              assumption
            clear_value x5
            extract_lets +onlyGivenNames x6
            have hx6 : Keep T s0 x6 := by
              unfold x6
              split
              · with_reducible apply ackFlits_keep (hT.sub (by decide))
                assumption
              · assumption
            clear_value x6
            with_reducible apply sendIdle_keep (hT.sub (by decide))
            split
            · assumption
            · with_reducible apply sendFlit_keep (hT.sub (by decide))
              split
              · with_reducible apply cnt_keep (hT.sub (by decide))
                assumption
              · assumption

theorem execLinkEnable_keep {T : List Part} (hT : Within [.regs, .fe, .reqs, .cores, .graphs, .tables, .folds, .dl, .ig] T) {s0 : State} (a : Acc) (v : Word) {s : State} (hs : Keep T s0 s) :
    ∀ t, execLinkEnable a v s = .next t → Keep T s0 t := by
  unfold execLinkEnable
  with_reducible apply keep_next
  with_reducible apply acc1_keep (hT.sub (by decide))
  · assumption
  · intro t0 h1
    with_reducible apply wrLinkCtl_keep (hT.sub (by decide))
    assumption

theorem execDlPartId_keep {T : List Part} (hT : Within [.regs, .dl, .ig] T) {s0 : State} (a : Acc) (v : Word) {s : State} (hs : Keep T s0 s) :
    ∀ t, execDlPartId a v s = .next t → Keep T s0 t := by
  unfold execDlPartId
  with_reducible apply keep_next
  with_reducible apply acc1_keep (hT.sub (by decide))
  · assumption
  · intro t0 h1
    with_reducible apply wrPartId_keep (hT.sub (by decide))
    assumption

theorem execDroveNak_keep {T : List Part} (hT : Within [.regs, .fe, .reqs, .cores, .graphs, .tables, .folds, .dl] T) {s0 : State} (l : Fin 32) (seq : BitVec 12) {s : State} (hs : Keep T s0 s) :
    ∀ t, execDroveNak l seq s = .next t → Keep T s0 t := by
  unfold execDroveNak
  with_reducible apply keep_next
  with_reducible apply resend_keep (hT.sub (by decide))
  with_reducible apply ackFlits_keep (hT.sub (by decide))
  assumption

theorem execLinkTrainingDone_keep {T : List Part} (hT : Within [.regs, .dl] T) {s0 : State} (l : Fin 32) (nbr : BitVec 12) (nlink : BitVec 5) {s : State} (hs : Keep T s0 s) :
    ∀ t, execLinkTrainingDone l nbr nlink s = .next t → Keep T s0 t := by
  unfold execLinkTrainingDone
  with_reducible apply keep_next
  split
  · assumption
  · with_reducible apply comeUp_keep (hT.sub (by decide))
    with_reducible apply updLink_keep (hT.sub (by decide))
    assumption

theorem execFlitAckTimeout_keep {T : List Part} (hT : Within [.regs, .fe, .reqs, .cores, .graphs, .tables, .folds, .dl] T) {s0 : State} (l : Fin 32) {s : State} (hs : Keep T s0 s) :
    ∀ t, execFlitAckTimeout l s = .next t → Keep T s0 t := by
  unfold execFlitAckTimeout
  with_reducible apply keep_next
  with_reducible apply resend_keep (hT.sub (by decide))
  assumption

theorem execLinkTrainingFail_keep {T : List Part} (hT : Within [.dl] T) {s0 : State} (l : Fin 32) {s : State} (hs : Keep T s0 s) :
    ∀ t, execLinkTrainingFail l s = .next t → Keep T s0 t := by
  unfold execLinkTrainingFail
  with_reducible apply keep_next
  extract_lets +onlyGivenNames x0
  split
  · assumption
  · with_reducible apply setLink_keep (hT.sub (by decide))
    assumption

theorem execLinkLossOfLock_keep {T : List Part} (hT : Within [.regs, .fe, .reqs, .cores, .graphs, .tables, .folds, .dl] T) {s0 : State} (l : Fin 32) {s : State} (hs : Keep T s0 s) :
    ∀ t, execLinkLossOfLock l s = .next t → Keep T s0 t := by
  unfold execLinkLossOfLock
  with_reducible apply keep_next
  split
  · with_reducible apply leaveUp_keep (hT.sub (by decide))
    assumption
  · assumption

theorem execDlLinkRetrain_keep {T : List Part} (hT : Within [.regs, .fe, .reqs, .cores, .graphs, .tables, .folds, .dl, .ig] T) {s0 : State} (a : Acc) (v : Word) {s : State} (hs : Keep T s0 s) :
    ∀ t, execDlLinkRetrain a v s = .next t → Keep T s0 t := by
  unfold execDlLinkRetrain
  with_reducible apply keep_next
  with_reducible apply acc1_keep (hT.sub (by decide))
  · assumption
  · intro t0 h1
    with_reducible apply wrLinkCtl_keep (hT.sub (by decide))
    assumption

theorem execBarrierTimeout_keep {T : List Part} (hT : Within [.regs, .fe, .reqs, .graphs, .tables, .folds, .dl] T) {s0 : State} (set : List (BitVec 12 × Word)) {s : State} (hs : Keep T s0 s) :
    ∀ t, execBarrierTimeout set s = .next t → Keep T s0 t := by
  unfold execBarrierTimeout
  with_reducible apply keep_next
  split
  · assumption
  · extract_lets +onlyGivenNames x0
    extract_lets +onlyGivenNames x1
    extract_lets +onlyGivenNames x2
    have hx2 : Keep T s0 x2 := by
      unfold x2
      split
      · with_reducible apply rsetF_keep (hT.sub (by decide))
        assumption
      · assumption
    clear_value x2
    extract_lets +onlyGivenNames x3
    have hx3 : Keep T s0 x3 := by
      unfold x3
      split
      · with_reducible apply rsetF_keep (hT.sub (by decide))
        assumption
      · assumption
    clear_value x3
    split
    · with_reducible apply sendCancel_keep (hT.sub (by decide))
      assumption
    · assumption

theorem execSlice_keep {T : List Part} (hT : Within [.cores, .dl] T) {s0 : State} (member : BitVec 12) (key : Word) (idx : Half) (off : Nat) (data : Marked) (last : Bool) {s : State} (hs : Keep T s0 s) :
    ∀ t, execSlice member key idx off data last s = .next t → Keep T s0 t := by
  unfold execSlice
  with_reducible apply keep_next
  split
  · assumption
  · extract_lets +onlyGivenNames x0
    extract_lets +onlyGivenNames x1
    have hx1 : Keep T s0 x1 := by
      unfold x1
      split
      · assumption
      · with_reducible apply updCore_keep (hT.sub (by decide))
        · assumption
        · intro x2 h3
          with_reducible apply extPut_keep
          assumption
    clear_value x1
    split
    · with_reducible apply updColl_keep (hT.sub (by decide))
      assumption
    · assumption

theorem execPut_keep {T : List Part} (hT : Within [.regs, .fe, .cores, .folds, .np, .dl, .ig] T) {s0 : State} (src : BitVec 12) (tag : Word) (win : BitVec 6) (off : Dword) (data : Marked) {s : State} (hs : Keep T s0 s) :
    ∀ t, execPut src tag win off data s = .next t → Keep T s0 t := by
  unfold execPut
  with_reducible apply keep_next
  with_reducible apply putGo_keep (hT.sub (by decide))
  assumption

theorem execGo_keep {T : List Part} (hT : Within [.regs, .fe, .reqs, .graphs, .tables, .folds, .dl, .ig] T) {s0 : State} (set : List (BitVec 12 × Word)) (roots : List (BitVec 12 × List Bytes)) {s : State} (hs : Keep T s0 s) :
    ∀ t, execGo set roots s = .next t → Keep T s0 t := by
  unfold execGo
  with_reducible apply keep_next
  with_reducible apply applyGo_keep (hT.sub (by decide))
  assumption

theorem execGetReq_keep {T : List Part} (hT : Within [.regs, .fe, .folds, .np, .dl, .ig] T) {s0 : State} (src : BitVec 12) (tag : Word) (win : BitVec 6) (off : Dword) (len : Nat) {s : State} (hs : Keep T s0 s) :
    ∀ t, execGetReq src tag win off len s = .next t → Keep T s0 t := by
  unfold execGetReq
  with_reducible apply keep_next
  with_reducible apply getGo_keep (hT.sub (by decide))
  assumption

theorem execCancel_keep {T : List Part} (hT : Within [.regs, .fe, .reqs, .graphs, .tables, .folds, .dl] T) {s0 : State} (set : List (BitVec 12 × Word)) (mismatch : Bool) {s : State} (hs : Keep T s0 s) :
    ∀ t, execCancel set mismatch s = .next t → Keep T s0 t := by
  unfold execCancel
  with_reducible apply keep_next
  extract_lets +onlyGivenNames x0
  extract_lets +onlyGivenNames x1
  have hx1 : Keep T s0 x1 := by
    unfold x1
    with_reducible refine keep_mk hT ?_ rfl ?_
    · assumption
    · (intro p hp; cases p <;> first | rfl | (exfalso; apply hp; decide))
  clear_value x1
  with_reducible apply cancelSteps_keep (hT.sub (by decide))
  with_reducible apply cnt_keep (hT.sub (by decide))
  assumption

theorem execRecord_keep {T : List Part} (hT : Within [.dl] T) {s0 : State} (key : Word) (epochs : List (BitVec 12 × Word)) (arrivals : List (BitVec 12)) {s : State} (hs : Keep T s0 s) :
    ∀ t, execRecord key epochs arrivals s = .next t → Keep T s0 t := by
  unfold execRecord
  with_reducible apply keep_next
  extract_lets +onlyGivenNames x0
  extract_lets +onlyGivenNames x1
  with_reducible refine keep_mk hT ?_ rfl ?_
  · assumption
  · (intro p hp; cases p <;> first | rfl | (exfalso; apply hp; decide))

theorem execReady_keep {T : List Part} (hT : Within [.regs, .fe, .reqs, .graphs, .tables, .folds, .dl, .ig] T) {s0 : State} (src : BitVec 12) (upd : Bool) (tabs : List StepTab) {s : State} (hs : Keep T s0 s) :
    ∀ t, execReady src upd tabs s = .next t → Keep T s0 t := by
  unfold execReady
  with_reducible apply keep_next
  split
  · assumption
  · extract_lets +onlyGivenNames x0
    have hx0 : Keep T s0 x0 := by
      unfold x0
      with_reducible apply toLeadMirror_keep (hT.sub (by decide))
      assumption
    clear_value x0
    extract_lets +onlyGivenNames x1
    extract_lets +onlyGivenNames x2
    extract_lets +onlyGivenNames x3
    have hx3 : Keep T s0 x3 := by
      unfold x3
      with_reducible refine keep_mk hT ?_ rfl ?_
      · assumption
      · (intro p hp; cases p <;> first | rfl | (exfalso; apply hp; decide))
    clear_value x3
    split
    · assumption
    · extract_lets +onlyGivenNames x4
      split
      · extract_lets +onlyGivenNames x5
        have hx5 : Keep T s0 x5 := by
          unfold x5
          with_reducible apply rsetF_keep (hT.sub (by decide))
          assumption
        clear_value x5
        with_reducible apply sendCancel_keep (hT.sub (by decide))
        assumption
      · split
        · with_reducible apply sendGo_keep (hT.sub (by decide))
          assumption
        · assumption

theorem execDeny_keep {T : List Part} (hT : Within [.reqs, .cores, .folds, .dl] T) {s0 : State} (src : BitVec 12) (tag : Word) {s : State} (hs : Keep T s0 s) :
    ∀ t, execDeny src tag s = .next t → Keep T s0 t := by
  unfold execDeny
  with_reducible apply keep_next
  split
  · assumption
  · with_reducible apply updColl_keep (hT.sub (by decide))
    with_reducible apply excOf_keep (hT.sub (by decide))
    assumption

theorem execGetData_keep {T : List Part} (hT : Within [.cores, .dl] T) {s0 : State} (src : BitVec 12) (tag : Word) (data : Marked) {s : State} (hs : Keep T s0 s) :
    ∀ t, execGetData src tag data s = .next t → Keep T s0 t := by
  unfold execGetData
  with_reducible apply keep_next
  split
  · assumption
  · extract_lets +onlyGivenNames x0
    extract_lets +onlyGivenNames x1
    have hx1 : Keep T s0 x1 := by
      unfold x1
      with_reducible apply updCore_keep (hT.sub (by decide))
      · assumption
      · intro x2 h3
        with_reducible apply extPut_keep
        assumption
    clear_value x1
    with_reducible apply updColl_keep (hT.sub (by decide))
    assumption

theorem execAbandon_keep {T : List Part} (hT : Within [.regs, .fe, .reqs, .cores, .graphs, .tables, .folds, .dl] T) {s0 : State} (key : Word) {s : State} (hs : Keep T s0 s) :
    ∀ t, execAbandon key s = .next t → Keep T s0 t := by
  unfold execAbandon
  with_reducible apply keep_next
  split
  · with_reducible apply finish_keep (hT.sub (by decide))
    assumption
  · split
    · assumption
    · extract_lets +onlyGivenNames x0
      extract_lets +onlyGivenNames x1
      extract_lets +onlyGivenNames x2
      have hx2 : Keep T s0 x2 := by
        unfold x2
        with_reducible refine keep_mk hT ?_ rfl ?_
        · assumption
        · (intro p hp; cases p <;> first | rfl | (exfalso; apply hp; decide))
      clear_value x2
      with_reducible apply wantEnd_keep (hT.sub (by decide))
      with_reducible apply excOf_keep (hT.sub (by decide))
      with_reducible apply cntN_keep (hT.sub (by decide))
      assumption

theorem execPin_keep {T : List Part} (hT : Within [.regs, .fe, .reqs, .graphs, .tables, .folds, .dl] T) {s0 : State} (key : Word) (epochs : List (BitVec 12 × Word)) {s : State} (hs : Keep T s0 s) :
    ∀ t, execPin key epochs s = .next t → Keep T s0 t := by
  unfold execPin
  with_reducible apply keep_next
  extract_lets +onlyGivenNames x0
  have hx0 : Keep T s0 x0 := by
    unfold x0
    with_reducible apply cnt_keep (hT.sub (by decide))
    assumption
  clear_value x0
  split
  · assumption
  · split
    · with_reducible apply finish_keep (hT.sub (by decide))
      assumption
    · extract_lets +onlyGivenNames x1
      have hx1 : Keep T s0 x1 := by
        unfold x1
        with_reducible apply keep_foldl
        · assumption
        · intro t2 x3 h4
          split
          with_reducible apply pinNum_keep (hT.sub (by decide))
          assumption
      clear_value x1
      with_reducible apply updCmd_keep (hT.sub (by decide))
      assumption

theorem execDissolve_keep {T : List Part} (hT : Within [.regs, .fe, .reqs, .graphs, .tables, .folds, .dl, .ig] T) {s0 : State} (a : Acc) (v : Word) {s : State} (hs : Keep T s0 s) :
    ∀ t, execDissolve a v s = .next t → Keep T s0 t := by
  unfold execDissolve
  with_reducible apply keep_next
  with_reducible apply acc1_keep (hT.sub (by decide))
  · assumption
  · intro t0 h1
    with_reducible apply wrGrpCtl_keep (hT.sub (by decide))
    assumption

theorem execClear_keep {T : List Part} (hT : Within [.regs, .dl] T) {s0 : State} (member : BitVec 12) (key : Word) (idx : Half) {s : State} (hs : Keep T s0 s) :
    ∀ t, execClear member key idx s = .next t → Keep T s0 t := by
  unfold execClear
  with_reducible apply keep_next
  split
  · with_reducible refine keep_mk hT ?_ rfl ?_
    · assumption
    · (intro p hp; cases p <;> first | rfl | (exfalso; apply hp; decide))
  · extract_lets +onlyGivenNames x0
    have hx0 : Keep T s0 x0 := by
      unfold x0
      with_reducible apply updColl_keep (hT.sub (by decide))
      assumption
    clear_value x0
    split
    · with_reducible apply sendBlock_keep (hT.sub (by decide))
      assumption
    · assumption

theorem execCollectiveTimeout_keep {T : List Part} (hT : Within [.regs, .reqs, .cores, .folds, .dl] T) {s0 : State} (h : Half) (idx : Half) {s : State} (hs : Keep T s0 s) :
    ∀ t, execCollectiveTimeout h idx s = .next t → Keep T s0 t := by
  unfold execCollectiveTimeout
  with_reducible apply keep_next
  split
  · assumption
  · split
    · assumption
    · with_reducible apply failColl_keep (hT.sub (by decide))
      assumption

theorem execPinReq_keep {T : List Part} (hT : Within [.regs, .tables, .folds, .dl] T) {s0 : State} (src : BitVec 12) (key : Word) (tids : List (BitVec 12)) {s : State} (hs : Keep T s0 s) :
    ∀ t, execPinReq src key tids s = .next t → Keep T s0 t := by
  unfold execPinReq
  with_reducible apply keep_next
  split
  · with_reducible apply droveSend_keep (hT.sub (by decide))
    assumption
  · split
    · assumption
    · split
      · with_reducible refine keep_mk hT ?_ rfl ?_
        · assumption
        · (intro p hp; cases p <;> first | rfl | (exfalso; apply hp; decide))
      · with_reducible apply servePins_keep (hT.sub (by decide))
        with_reducible apply answerPin_keep (hT.sub (by decide))
        assumption

theorem execKeyRecordTimeout_keep {T : List Part} (hT : Within [.regs, .tables, .folds, .dl] T) {s0 : State} (key : Word) {s : State} (hs : Keep T s0 s) :
    ∀ t, execKeyRecordTimeout key s = .next t → Keep T s0 t := by
  unfold execKeyRecordTimeout
  with_reducible apply keep_next
  split
  · assumption
  · extract_lets +onlyGivenNames x0
    extract_lets +onlyGivenNames x1
    have hx1 : Keep T s0 x1 := by
      unfold x1
      with_reducible refine keep_mk hT ?_ rfl ?_
      · assumption
      · (intro p hp; cases p <;> first | rfl | (exfalso; apply hp; decide))
    clear_value x1
    extract_lets +onlyGivenNames x2
    have hx2 : Keep T s0 x2 := by
      unfold x2
      split
      · with_reducible apply keep_foldl
        · assumption
        · intro t3 x4 h5
          with_reducible apply sendRelease_keep (hT.sub (by decide))
          assumption
      · assumption
    clear_value x2
    with_reducible apply servePins_keep (hT.sub (by decide))
    assumption

theorem execRelease_keep {T : List Part} (hT : Within [.regs, .tables, .folds] T) {s0 : State} (tid : BitVec 12) (epoch : Word) {s : State} (hs : Keep T s0 s) :
    ∀ t, execRelease tid epoch s = .next t → Keep T s0 t := by
  unfold execRelease
  with_reducible apply keep_next
  with_reducible apply dropHold_keep (hT.sub (by decide))
  assumption

theorem execHbSend_keep {T : List Part} (hT : Within [.regs, .dl] T) {s0 : State} {s : State} (hs : Keep T s0 s) :
    ∀ t, execHbSend s = .next t → Keep T s0 t := by
  unfold execHbSend
  with_reducible apply keep_next
  split
  · assumption
  · with_reducible apply toPartner_keep (hT.sub (by decide))
    assumption

theorem execPairTakeover_keep {T : List Part} (hT : Within [.regs, .fe, .reqs, .graphs, .tables, .folds, .dl, .ig] T) {s0 : State} (n : Word) {s : State} (hs : Keep T s0 s) :
    ∀ t, execPairTakeover n s = .next t → Keep T s0 t := by
  unfold execPairTakeover
  with_reducible apply keep_next
  with_reducible apply pairRow_keep (hT.sub (by decide))
  · intro t0 x1 h2
    split
    · with_reducible apply reject_keep (hT.sub (by decide))
      assumption
    · with_reducible apply finish_keep (hT.sub (by decide))
      with_reducible apply takeOver_keep (hT.sub (by decide))
      assumption
  · assumption

theorem execPairSwitch_keep {T : List Part} (hT : Within [.regs, .fe, .reqs, .graphs, .tables, .folds, .dl] T) {s0 : State} (n : Word) {s : State} (hs : Keep T s0 s) :
    ∀ t, execPairSwitch n s = .next t → Keep T s0 t := by
  unfold execPairSwitch
  with_reducible apply keep_next
  with_reducible apply pairRow_keep (hT.sub (by decide))
  · intro t0 x1 h2
    split
    · with_reducible apply reject_keep (hT.sub (by decide))
      assumption
    · with_reducible apply askPartner_keep (hT.sub (by decide))
      assumption
  · assumption

theorem execHb_keep {T : List Part} (hT : Within [.dl] T) {s0 : State} (src : BitVec 12) (mirror : Bool) (st : BitVec 3) (count : Word) {s : State} (hs : Keep T s0 s) :
    ∀ t, execHb src mirror st count s = .next t → Keep T s0 t := by
  unfold execHb
  with_reducible apply keep_next
  split
  · assumption
  · with_reducible refine keep_mk hT ?_ rfl ?_
    · assumption
    · (intro p hp; cases p <;> first | rfl | (exfalso; apply hp; decide))

theorem execRoot_keep {T : List Part} (hT : Within [.regs, .fe, .reqs, .graphs, .tables, .folds, .dl, .ig] T) {s0 : State} (tid : BitVec 12) (epoch : Word) (r : Bytes) {s : State} (hs : Keep T s0 s) :
    ∀ t, execRoot tid epoch r s = .next t → Keep T s0 t := by
  unfold execRoot
  with_reducible apply keep_next
  split
  · split
    · with_reducible apply formPublish_keep (hT.sub (by decide))
      with_reducible apply updForm_keep (hT.sub (by decide))
      assumption
    · split
      · assumption
      · split
        · split
          · with_reducible apply formDone_keep (hT.sub (by decide))
            assumption
          · with_reducible apply formFail_keep (hT.sub (by decide))
            assumption
        · assumption
  · split
    · with_reducible apply rootCheck_keep (hT.sub (by decide))
      assumption
    · assumption

theorem execPairBreak_keep {T : List Part} (hT : Within [.regs, .fe, .reqs, .graphs, .tables, .folds, .dl] T) {s0 : State} (n : Word) {s : State} (hs : Keep T s0 s) :
    ∀ t, execPairBreak n s = .next t → Keep T s0 t := by
  unfold execPairBreak
  with_reducible apply keep_next
  with_reducible apply pairRow_keep (hT.sub (by decide))
  · intro t0 x1 h2
    extract_lets +onlyGivenNames x3
    have hx3 : Keep T s0 x3 := by
      unfold x3
      split
      · assumption
      · with_reducible apply toPartner_keep (hT.sub (by decide))
        assumption
    clear_value x3
    with_reducible apply finish_keep (hT.sub (by decide))
    with_reducible apply leavePair_keep (hT.sub (by decide))
    assumption
  · assumption

theorem execCommit_keep {T : List Part} (hT : Within [.regs, .tables, .folds, .dl, .ig] T) {s0 : State} (upd : Half) {s : State} (hs : Keep T s0 s) :
    ∀ t, execCommit upd s = .next t → Keep T s0 t := by
  unfold execCommit
  with_reducible apply keep_next
  split
  · with_reducible apply rollStreams_keep (hT.sub (by decide))
    with_reducible apply commitStream_keep (hT.sub (by decide))
    assumption
  · assumption

theorem execBulk_keep {T : List Part} (hT : Within [.regs, .fe, .reqs, .graphs, .tables, .folds, .dl, .ig] T) {s0 : State} (tid : BitVec 12) (first : Word) (rows : List Marked) {s : State} (hs : Keep T s0 s) :
    ∀ t, execBulk tid first rows s = .next t → Keep T s0 t := by
  unfold execBulk
  with_reducible apply keep_next
  split
  · assumption
  · split
    · assumption
    · extract_lets +onlyGivenNames x0
      have hx0 : Keep T s0 x0 := by
        unfold x0
        split
        · assumption
        · with_reducible apply startBulk_keep (hT.sub (by decide))
          assumption
      clear_value x0
      extract_lets +onlyGivenNames x1
      split
      · extract_lets +onlyGivenNames x2
        extract_lets +onlyGivenNames x3
        have hx3 : Keep T s0 x3 := by
          unfold x3
          with_reducible apply keep_foldl
          · assumption
          · intro t4 x5 h6
            split
            extract_lets +onlyGivenNames x7
            with_reducible apply fmPut_keep (hT.sub (by decide))
            assumption
        clear_value x3
        extract_lets +onlyGivenNames x8
        extract_lets +onlyGivenNames x9
        have hx9 : Keep T s0 x9 := by
          unfold x9
          split
          · assumption
          · with_reducible apply updTable_keep (hT.sub (by decide))
            assumption
        clear_value x9
        with_reducible apply formPublish_keep (hT.sub (by decide))
        with_reducible apply updForm_keep (hT.sub (by decide))
        assumption
      · assumption

theorem execDiscard_keep {T : List Part} (hT : Within [.folds, .dl] T) {s0 : State} (upd : Half) {s : State} (hs : Keep T s0 s) :
    ∀ t, execDiscard upd s = .next t → Keep T s0 t := by
  unfold execDiscard
  with_reducible apply keep_next
  with_reducible apply dropStream_keep (hT.sub (by decide))
  assumption

theorem execStream_keep {T : List Part} (hT : Within [.regs, .tables, .folds, .dl, .ig] T) {s0 : State} (upd : Half) (tag : Dword) (epochs : List (BitVec 12 × Word)) (recs : List Bytes) (deltas : List Bytes) (whole : Bool) {s : State} (hs : Keep T s0 s) :
    ∀ t, execStream upd tag epochs recs deltas whole s = .next t → Keep T s0 t := by
  unfold execStream
  with_reducible apply keep_next
  split
  · assumption
  · split
    · extract_lets +onlyGivenNames x0
      extract_lets +onlyGivenNames x1
      extract_lets +onlyGivenNames x2
      have hx2 : Keep T s0 x2 := by
        unfold x2
        with_reducible refine keep_mk hT ?_ rfl ?_
        · assumption
        · (intro p hp; cases p <;> first | rfl | (exfalso; apply hp; decide))
      clear_value x2
      split
      · with_reducible apply takeStream_keep (hT.sub (by decide))
        assumption
      · assumption
    · split
      · extract_lets +onlyGivenNames x3
        have hx3 : Keep T s0 x3 := by
          unfold x3
          with_reducible apply keep_foldl
          · assumption
          · intro t4 x5 h6
            with_reducible apply putStreamed_keep (hT.sub (by decide))
            assumption
        clear_value x3
        split
        · with_reducible apply rollStreams_keep (hT.sub (by decide))
          with_reducible apply updStream_keep (hT.sub (by decide))
          assumption
        · assumption
      · extract_lets +onlyGivenNames x7
        extract_lets +onlyGivenNames x8
        have hx8 : Keep T s0 x8 := by
          unfold x8
          with_reducible apply updStream_keep (hT.sub (by decide))
          assumption
        clear_value x8
        split
        · with_reducible apply takeStream_keep (hT.sub (by decide))
          assumption
        · assumption

theorem execPartnerSilent_keep {T : List Part} (hT : Within [.regs, .fe, .reqs, .graphs, .tables, .folds, .dl, .ig] T) {s0 : State} (pinSilent : Bool) {s : State} (hs : Keep T s0 s) :
    ∀ t, execPartnerSilent pinSilent s = .next t → Keep T s0 t := by
  unfold execPartnerSilent
  with_reducible apply keep_next
  split
  · assumption
  · extract_lets +onlyGivenNames x0
    extract_lets +onlyGivenNames x1
    have hx1 : Keep T s0 x1 := by
      unfold x1
      with_reducible apply cntN_keep (hT.sub (by decide))
      assumption
    clear_value x1
    extract_lets +onlyGivenNames x2
    extract_lets +onlyGivenNames x3
    have hx3 : Keep T s0 x3 := by
      unfold x3
      with_reducible refine keep_mk hT ?_ rfl ?_
      · assumption
      · (intro p hp; cases p <;> first | rfl | (exfalso; apply hp; decide))
    clear_value x3
    extract_lets +onlyGivenNames x4
    have hx4 : Keep T s0 x4 := by
      unfold x4
      with_reducible apply pairEnd_keep (hT.sub (by decide))
      assumption
    clear_value x4
    split
    · assumption
    · split
      · with_reducible refine keep_mk hT ?_ rfl ?_
        · assumption
        · (intro p hp; cases p <;> first | rfl | (exfalso; apply hp; decide))
      · split
        · with_reducible apply takeOver_keep (hT.sub (by decide))
          assumption
        · with_reducible refine keep_mk hT ?_ rfl ?_
          · assumption
          · (intro p hp; cases p <;> first | rfl | (exfalso; apply hp; decide))

theorem execPairAnswerTimeout_keep {T : List Part} (hT : Within [.regs, .fe, .reqs, .graphs, .tables, .folds, .dl] T) {s0 : State} {s : State} (hs : Keep T s0 s) :
    ∀ t, execPairAnswerTimeout s = .next t → Keep T s0 t := by
  unfold execPairAnswerTimeout
  with_reducible apply keep_next
  split
  · with_reducible apply pairEnd_keep (hT.sub (by decide))
    assumption
  · assumption

theorem execPairMsg_keep {T : List Part} (hT : Within [.regs, .fe, .reqs, .graphs, .tables, .folds, .dl, .ig] T) {s0 : State} (m : PairMsg) {s : State} (hs : Keep T s0 s) :
    ∀ t, execPairMsg m s = .next t → Keep T s0 t := by
  unfold execPairMsg
  with_reducible apply keep_next
  split
  · split
    · assumption
    · split
      · assumption
      · extract_lets +onlyGivenNames x0
        have hx0 : Keep T s0 x0 := by
          unfold x0
          with_reducible apply droveSend_keep (hT.sub (by decide))
          assumption
        clear_value x0
        split
        · with_reducible apply pairEnd_keep (hT.sub (by decide))
          assumption
        · with_reducible apply beginForm_keep (hT.sub (by decide))
          assumption
  · split
    · with_reducible apply toPartner_keep (hT.sub (by decide))
      with_reducible refine keep_mk hT ?_ rfl ?_
      · assumption
      · (intro p hp; cases p <;> first | rfl | (exfalso; apply hp; decide))
    · with_reducible apply droveSend_keep (hT.sub (by decide))
      assumption
  · split
    · with_reducible apply beginResync_keep (hT.sub (by decide))
      with_reducible apply toPartner_keep (hT.sub (by decide))
      assumption
    · with_reducible apply droveSend_keep (hT.sub (by decide))
      assumption
  · split
    · with_reducible apply leavePair_keep (hT.sub (by decide))
      assumption
    · assumption
  · split
    · assumption
    · split
      · with_reducible refine keep_mk hT ?_ rfl ?_
        · assumption
        · (intro p hp; cases p <;> first | rfl | (exfalso; apply hp; decide))
      · with_reducible apply beginResync_keep (hT.sub (by decide))
        assumption
      · split
        · with_reducible refine keep_mk hT ?_ rfl ?_
          · assumption
          · (intro p hp; cases p <;> first | rfl | (exfalso; apply hp; decide))
        · assumption
  · split
    · with_reducible apply pairEnd_keep (hT.sub (by decide))
      assumption
    · assumption
  · split
    · with_reducible apply tableHeld_keep (hT.sub (by decide))
      assumption
    · assumption
  · with_reducible apply memberTaken_keep (hT.sub (by decide))
    assumption

theorem execPairSyncToggle_keep {T : List Part} (hT : Within [.dl] T) {s0 : State} {s : State} (hs : Keep T s0 s) :
    ∀ t, execPairSyncToggle s = .next t → Keep T s0 t := by
  unfold execPairSyncToggle
  with_reducible apply keep_next
  split
  · with_reducible refine keep_mk hT ?_ rfl ?_
    · assumption
    · (intro p hp; cases p <;> first | rfl | (exfalso; apply hp; decide))
  · assumption

theorem execPrepared_keep {T : List Part} (hT : Within [.dl] T) {s0 : State} (upd : Half) {s : State} (hs : Keep T s0 s) :
    ∀ t, execPrepared upd s = .next t → Keep T s0 t := by
  unfold execPrepared
  with_reducible apply keep_next
  with_reducible refine keep_mk hT ?_ rfl ?_
  · assumption
  · (intro p hp; cases p <;> first | rfl | (exfalso; apply hp; decide))

theorem execPairResync_keep {T : List Part} (hT : Within [.regs, .fe, .reqs, .graphs, .tables, .folds, .dl] T) {s0 : State} (n : Word) {s : State} (hs : Keep T s0 s) :
    ∀ t, execPairResync n s = .next t → Keep T s0 t := by
  unfold execPairResync
  with_reducible apply keep_next
  with_reducible apply pairRow_keep (hT.sub (by decide))
  · intro t0 x1 h2
    split
    · with_reducible apply reject_keep (hT.sub (by decide))
      assumption
    · split
      · with_reducible apply reject_keep (hT.sub (by decide))
        assumption
      · with_reducible apply askPartner_keep (hT.sub (by decide))
        assumption
  · assumption

theorem execPairForm_keep {T : List Part} (hT : Within [.regs, .fe, .reqs, .graphs, .tables, .folds, .dl] T) {s0 : State} (n : Word) {s : State} (hs : Keep T s0 s) :
    ∀ t, execPairForm n s = .next t → Keep T s0 t := by
  unfold execPairForm
  with_reducible apply keep_next
  with_reducible apply pairRow_keep (hT.sub (by decide))
  · intro t0 x1 h2
    split
    · with_reducible apply reject_keep (hT.sub (by decide))
      assumption
    · with_reducible apply askPartner_keep (hT.sub (by decide))
      assumption
  · assumption

theorem execAckReceived_keep {T : List Part} (hT : Within [.regs, .fe, .np, .xl] T) {s0 : State} (rx : QpPkt 13) (count : Nat) {s : State} (hs : Keep T s0 s) :
    ∀ t, execAckReceived rx count s = .next t → Keep T s0 t := by
  unfold execAckReceived
  with_reducible apply keep_next
  extract_lets +onlyGivenNames x0
  with_reducible apply rxPkt_keep (hT.sub (by decide))
  · assumption
  · intro t1 h2
    extract_lets +onlyGivenNames x3
    extract_lets +onlyGivenNames x4
    have hx4 : Keep T s0 x4 := by
      unfold x4
      with_reducible apply updQp_keep (hT.sub (by decide))
      assumption
    clear_value x4
    with_reducible apply keep_foldl
    · assumption
    · intro t5 x6 h7
      with_reducible apply ackPiece_keep (hT.sub (by decide))
      assumption

theorem execPtpMessage_keep {T : List Part} (hT : Within [.regs, .np] T) {s0 : State} (h : PtpHdr) (offset : ℤ) (time : Dword) (rate : ℤ) {s : State} (hs : Keep T s0 s) :
    ∀ t, execPtpMessage h offset time rate s = .next t → Keep T s0 t := by
  unfold execPtpMessage
  with_reducible apply keep_next
  with_reducible apply rxFrame_keep (hT.sub (by decide))
  · assumption
  · intro t0 h1
    split
    · with_reducible apply rxDrop_keep (hT.sub (by decide))
      assumption
    · extract_lets +onlyGivenNames x2
      have hx2 : Keep T s0 x2 := by
        unfold x2
        split
        · with_reducible apply emit_keep
          assumption
        · assumption
      clear_value x2
      extract_lets +onlyGivenNames x3
      extract_lets +onlyGivenNames x4
      extract_lets +onlyGivenNames x5
      have hx5 : Keep T s0 x5 := by
        unfold x5
        with_reducible refine keep_mk hT ?_ rfl ?_
        · assumption
        · (intro p hp; cases p <;> first | rfl | (exfalso; apply hp; decide))
      clear_value x5
      split
      · extract_lets +onlyGivenNames x6
        have hx6 : Keep T s0 x6 := by
          unfold x6
          split
          · with_reducible apply rsetF_keep (hT.sub (by decide))
            assumption
          · assumption
        clear_value x6
        with_reducible apply rsetF_keep (hT.sub (by decide))
        assumption
      · split
        · extract_lets +onlyGivenNames x7
          extract_lets +onlyGivenNames x8
          have hx8 : Keep T s0 x8 := by
            unfold x8
            split
            · assumption
            · with_reducible refine keep_mk hT ?_ rfl ?_
              · assumption
              · (intro p hp; cases p <;> first | rfl | (exfalso; apply hp; decide))
          clear_value x8
          with_reducible apply rsetF_keep (hT.sub (by decide))
          assumption
        · assumption

theorem execMacLinkChange_keep {T : List Part} (hT : Within [.np] T) {s0 : State} (mac : Fin 9) (up : Bool) {s : State} (hs : Keep T s0 s) :
    ∀ t, execMacLinkChange mac up s = .next t → Keep T s0 t := by
  unfold execMacLinkChange
  with_reducible apply keep_next
  split
  · assumption
  · split
    · with_reducible apply bootMac_keep (hT.sub (by decide))
      assumption
    · with_reducible apply setMac_keep (hT.sub (by decide))
      assumption

theorem execSessionLeaseExpire_keep {T : List Part} (hT : Within [.regs, .sels, .latches, .fe, .reqs, .graphs, .checking, .tables, .folds, .np, .xl, .dl] T) {s0 : State} (ses : BitVec 10) {s : State} (hs : Keep T s0 s) :
    ∀ t, execSessionLeaseExpire ses s = .next t → Keep T s0 t := by
  unfold execSessionLeaseExpire
  with_reducible apply keep_next
  split
  · assumption
  · with_reducible apply closeSession_keep (hT.sub (by decide))
    assumption

theorem execNpSesOpen_keep {T : List Part} (hT : Within [.regs, .sels, .latches, .fe, .reqs, .graphs, .checking, .tables, .folds, .np, .xl, .dl] T) {s0 : State} (a : Acc) (v : Word) {s : State} (hs : Keep T s0 s) :
    ∀ t, execNpSesOpen a v s = .next t → Keep T s0 t := by
  unfold execNpSesOpen
  with_reducible apply keep_next
  with_reducible apply acc1_keep (hT.sub (by decide))
  · assumption
  · intro t0 h1
    with_reducible apply wrSesCtl_keep (hT.sub (by decide))
    assumption

theorem execNpLeaseRenew_keep {T : List Part} (hT : Within [.np] T) {s0 : State} (a : Acc) (v : Word) {s : State} (hs : Keep T s0 s) :
    ∀ t, execNpLeaseRenew a v s = .next t → Keep T s0 t := by
  unfold execNpLeaseRenew
  with_reducible apply keep_next
  with_reducible apply acc1_keep (hT.sub (by decide))
  · assumption
  · intro t0 h1
    with_reducible apply wrLeaseRenew_keep (hT.sub (by decide))
    assumption

theorem execAckTimeout_keep {T : List Part} (hT : Within [.regs, .fe, .reqs, .graphs, .checking, .tables, .folds, .np, .dl] T) {s0 : State} (q : BitVec 13) (rnr : Bool) {s : State} (hs : Keep T s0 s) :
    ∀ t, execAckTimeout q rnr s = .next t → Keep T s0 t := by
  unfold execAckTimeout
  with_reducible apply keep_next
  extract_lets +onlyGivenNames x0
  extract_lets +onlyGivenNames x1
  split
  · assumption
  · split
    · extract_lets +onlyGivenNames x2
      split
      · with_reducible apply settle_keep (hT.sub (by decide))
        with_reducible apply qpError_keep (hT.sub (by decide))
        assumption
      · with_reducible apply goBack_keep (hT.sub (by decide))
        with_reducible apply updQp_keep (hT.sub (by decide))
        assumption
    · with_reducible apply retryQp_keep (hT.sub (by decide))
      assumption

theorem execKeepalive_keep {T : List Part} (hT : Within [.regs, .np] T) {s0 : State} (rx : QpPkt 12) (rkey : Word) (data : Bytes) {s : State} (hs : Keep T s0 s) :
    ∀ t, execKeepalive rx rkey data s = .next t → Keep T s0 t := by
  unfold execKeepalive
  with_reducible apply keep_next
  extract_lets +onlyGivenNames x0
  split
  · assumption
  · with_reducible apply rxWrite_keep (hT.sub (by decide))
    · assumption
    · intro t1 h2
      split
      · with_reducible apply nakAccess_keep (hT.sub (by decide))
        assumption
      · with_reducible apply ackTo_keep (hT.sub (by decide))
        with_reducible apply keepWrite_keep (hT.sub (by decide))
        assumption

theorem execPfcStuck_keep {T : List Part} (hT : Within [.regs, .np] T) {s0 : State} (port : Fin 4) {s : State} (hs : Keep T s0 s) :
    ∀ t, execPfcStuck port s = .next t → Keep T s0 t := by
  unfold execPfcStuck
  with_reducible apply keep_next
  split
  · assumption
  · extract_lets +onlyGivenNames x0
    extract_lets +onlyGivenNames x1
    have hx1 : Keep T s0 x1 := by
      unfold x1
      with_reducible apply unpause_keep (hT.sub (by decide))
      with_reducible refine keep_mk hT ?_ rfl ?_
      · assumption
      · (intro p hp; cases p <;> first | rfl | (exfalso; apply hp; decide))
    clear_value x1
    with_reducible apply rsetF_keep (hT.sub (by decide))
    assumption

theorem execPauseFrame_keep {T : List Part} (hT : Within [.regs] T) {s0 : State} (mac : Fin 9) {s : State} (hs : Keep T s0 s) :
    ∀ t, execPauseFrame mac s = .next t → Keep T s0 t := by
  unfold execPauseFrame
  with_reducible apply keep_next
  split
  · with_reducible apply rxDrop_keep (hT.sub (by decide))
    assumption
  · assumption

theorem execSessionWindowRead_keep {T : List Part} (hT : Within [.regs, .fe, .reqs, .graphs, .checking, .tables, .folds, .np, .dl] T) {s0 : State} (rx : QpPkt 12) (_rkey : Word) (_va : Dword) (len : Nat) {s : State} (hs : Keep T s0 s) :
    ∀ t, execSessionWindowRead rx _rkey _va len s = .next t → Keep T s0 t := by
  unfold execSessionWindowRead
  with_reducible apply keep_next
  split
  · assumption
  · with_reducible apply rxRead_keep (hT.sub (by decide))
    · assumption
    · intro t0 h1
      with_reducible apply nakAccess_keep (hT.sub (by decide))
      assumption

theorem execOwnerLeaseExpire_keep {T : List Part} (hT : Within [.regs, .sels, .latches, .fe, .reqs, .cores, .checking, .folds, .np, .xl, .dl, .ig, .pc] T) {s0 : State} {s : State} (hs : Keep T s0 s) :
    ∀ t, execOwnerLeaseExpire s = .next t → Keep T s0 t := by
  unfold execOwnerLeaseExpire
  with_reducible apply keep_next
  split
  · assumption
  · with_reducible apply startOrderly_keep (hT.sub (by decide))
    assumption

theorem execPfcXoff_keep {T : List Part} (hT : Within [.regs, .np] T) {s0 : State} (port : Fin 4) (prio : BitVec 3) {s : State} (hs : Keep T s0 s) :
    ∀ t, execPfcXoff port prio s = .next t → Keep T s0 t := by
  unfold execPfcXoff
  with_reducible apply keep_next
  split
  · assumption
  · split
    · with_reducible apply rxDrop_keep (hT.sub (by decide))
      assumption
    · split
      · assumption
      · with_reducible refine keep_mk hT ?_ rfl ?_
        · assumption
        · (intro p hp; cases p <;> first | rfl | (exfalso; apply hp; decide))

theorem execPtpSyncLoss_keep {T : List Part} (hT : Within [.regs, .np] T) {s0 : State} {s : State} (hs : Keep T s0 s) :
    ∀ t, execPtpSyncLoss s = .next t → Keep T s0 t := by
  unfold execPtpSyncLoss
  with_reducible apply keep_next
  extract_lets +onlyGivenNames x0
  extract_lets +onlyGivenNames x1
  have hx1 : Keep T s0 x1 := by
    unfold x1
    with_reducible refine keep_mk hT ?_ rfl ?_
    · assumption
    · (intro p hp; cases p <;> first | rfl | (exfalso; apply hp; decide))
  clear_value x1
  split
  · with_reducible apply rsetF_keep (hT.sub (by decide))
    with_reducible apply rsetF_keep (hT.sub (by decide))
    assumption
  · assumption

theorem execClaim_keep {T : List Part} (hT : Within [.regs, .np] T) {s0 : State} (m : ClaimMsg) {s : State} (hs : Keep T s0 s) :
    ∀ t, execClaim m s = .next t → Keep T s0 t := by
  unfold execClaim
  with_reducible apply keep_next
  with_reducible apply rxFrame_keep (hT.sub (by decide))
  · assumption
  · intro t0 h1
    split
    · with_reducible apply rxDrop_keep (hT.sub (by decide))
      assumption
    · split
      · with_reducible apply cnt_keep (hT.sub (by decide))
        assumption
      · extract_lets +onlyGivenNames x2
        extract_lets +onlyGivenNames x3
        have hx3 : Keep T s0 x3 := by
          unfold x3
          with_reducible apply rset_keep (hT.sub (by decide))
          assumption
        clear_value x3
        extract_lets +onlyGivenNames x4
        have hx4 : Keep T s0 x4 := by
          unfold x4
          with_reducible apply rset_keep (hT.sub (by decide))
          assumption
        clear_value x4
        extract_lets +onlyGivenNames x5
        have hx5 : Keep T s0 x5 := by
          unfold x5
          with_reducible apply rset_keep (hT.sub (by decide))
          assumption
        clear_value x5
        extract_lets +onlyGivenNames x6
        have hx6 : Keep T s0 x6 := by
          unfold x6
          with_reducible apply rset_keep (hT.sub (by decide))
          assumption
        clear_value x6
        extract_lets +onlyGivenNames x7
        have hx7 : Keep T s0 x7 := by
          unfold x7
          with_reducible apply rsetBytes_keep (hT.sub (by decide))
          assumption
        clear_value x7
        extract_lets +onlyGivenNames x8
        have hx8 : Keep T s0 x8 := by
          unfold x8
          with_reducible apply setQp_keep (hT.sub (by decide))
          assumption
        clear_value x8
        extract_lets +onlyGivenNames x9
        have hx9 : Keep T s0 x9 := by
          unfold x9
          with_reducible apply rset_keep (hT.sub (by decide))
          assumption
        clear_value x9
        with_reducible apply setStage_keep (hT.sub (by decide))
        with_reducible refine keep_mk hT ?_ rfl ?_
        · assumption
        · (intro p hp; cases p <;> first | rfl | (exfalso; apply hp; decide))

theorem execCeMarkedPacket_keep {T : List Part} (hT : Within [.regs, .np] T) {s0 : State} (rx : QpPkt 13) {s : State} (hs : Keep T s0 s) :
    ∀ t, execCeMarkedPacket rx s = .next t → Keep T s0 t := by
  unfold execCeMarkedPacket
  with_reducible apply keep_next
  extract_lets +onlyGivenNames x0
  extract_lets +onlyGivenNames x1
  extract_lets +onlyGivenNames x2
  split
  · assumption
  · with_reducible apply sendQp_keep (hT.sub (by decide))
    with_reducible apply cnt_keep (hT.sub (by decide))
    with_reducible apply updQp_keep (hT.sub (by decide))
    assumption

theorem execDoorbell_keep {T : List Part} (hT : Within [.regs, .fe, .np] T) {s0 : State} (q : BitVec 12) (k : Pkt) (rkey : Word) (va : Dword) (data : Bytes) {s : State} (hs : Keep T s0 s) :
    ∀ t, execDoorbell q k rkey va data s = .next t → Keep T s0 t := by
  unfold execDoorbell
  with_reducible apply keep_next
  extract_lets +onlyGivenNames x0
  split
  · assumption
  · with_reducible apply rxWrite_keep (hT.sub (by decide))
    · assumption
    · intro t1 h2
      split
      · with_reducible apply nakAccess_keep (hT.sub (by decide))
        assumption
      · extract_lets +onlyGivenNames x3
        have hx3 : Keep T s0 x3 := by
          unfold x3
          split
          · with_reducible apply keepWrite_keep (hT.sub (by decide))
            assumption
          · with_reducible apply doorWrite_keep (hT.sub (by decide))
            assumption
        clear_value x3
        with_reducible apply ackTo_keep (hT.sub (by decide))
        assumption

theorem execRateIncrease_keep {T : List Part} (hT : Within [.np] T) {s0 : State} (q : BitVec 12) {s : State} (hs : Keep T s0 s) :
    ∀ t, execRateIncrease q s = .next t → Keep T s0 t := by
  unfold execRateIncrease
  with_reducible apply keep_next
  extract_lets +onlyGivenNames x0
  split
  · assumption
  · with_reducible apply updQp_keep (hT.sub (by decide))
    assumption

theorem execAtomicReceived_keep {T : List Part} (hT : Within [.regs, .fe, .reqs, .graphs, .checking, .tables, .folds, .np, .dl] T) {s0 : State} (rx : QpPkt 13) {s : State} (hs : Keep T s0 s) :
    ∀ t, execAtomicReceived rx s = .next t → Keep T s0 t := by
  unfold execAtomicReceived
  with_reducible apply keep_next
  with_reducible apply rxReq_keep (hT.sub (by decide))
  · assumption
  · intro t0 h1
    with_reducible apply nakInvalid_keep (hT.sub (by decide))
    assumption
  · intro t2 h3
    with_reducible apply nakInvalid_keep (hT.sub (by decide))
    assumption

theorem execStepBack_keep {T : List Part} (hT : Within [.regs, .np, .ig] T) {s0 : State} (a : Acc) (v : Word) {s : State} (hs : Keep T s0 s) :
    ∀ t, execStepBack a v s = .next t → Keep T s0 t := by
  unfold execStepBack
  with_reducible apply keep_next
  with_reducible apply acc1_keep (hT.sub (by decide))
  · assumption
  · intro t0 h1
    with_reducible apply wrPtpCtl_keep (hT.sub (by decide))
    assumption

theorem execNpPortMode_keep {T : List Part} (hT : Within [.regs, .np, .ig] T) {s0 : State} (a : Acc) (port : Fin 4) (v : Word) {s : State} (hs : Keep T s0 s) :
    ∀ t, execNpPortMode a port v s = .next t → Keep T s0 t := by
  unfold execNpPortMode
  with_reducible apply keep_next
  with_reducible apply acc1_keep (hT.sub (by decide))
  · assumption
  · intro t0 h1
    with_reducible apply wrPortCfg_keep (hT.sub (by decide))
    assumption

theorem execNpSesClose_keep {T : List Part} (hT : Within [.regs, .sels, .latches, .fe, .reqs, .graphs, .checking, .tables, .folds, .np, .xl, .dl] T) {s0 : State} (a : Acc) (v : Word) {s : State} (hs : Keep T s0 s) :
    ∀ t, execNpSesClose a v s = .next t → Keep T s0 t := by
  unfold execNpSesClose
  with_reducible apply keep_next
  with_reducible apply acc1_keep (hT.sub (by decide))
  · assumption
  · intro t0 h1
    with_reducible apply wrSesCtl_keep (hT.sub (by decide))
    assumption

theorem execPeerWindowAccess_keep {T : List Part} (hT : Within [.regs, .fe, .reqs, .graphs, .checking, .tables, .folds, .np, .xl, .dl, .ig] T) {s0 : State} (rx : QpPkt 12) (write : Bool) (rkey : Word) (va : Dword) (len : Nat) (data : Bytes) {s : State} (hs : Keep T s0 s) :
    ∀ t, execPeerWindowAccess rx write rkey va len data s = .next t → Keep T s0 t := by
  unfold execPeerWindowAccess
  with_reducible apply keep_next
  extract_lets +onlyGivenNames x0
  extract_lets +onlyGivenNames x1
  split
  · assumption
  · split
    · with_reducible apply rxWrite_keep (hT.sub (by decide))
      · assumption
      · intro t2 h3
        extract_lets +onlyGivenNames x4
        extract_lets +onlyGivenNames x5
        split
        · with_reducible apply peerDeny_keep (hT.sub (by decide))
          assumption
        · extract_lets +onlyGivenNames x6
          extract_lets +onlyGivenNames x7
          extract_lets +onlyGivenNames x8
          extract_lets +onlyGivenNames x9
          have hx9 : Keep T s0 x9 := by
            unfold x9
            with_reducible refine keep_mk hT ?_ rfl ?_
            · assumption
            · (intro p hp; cases p <;> first | rfl | (exfalso; apply hp; decide))
          clear_value x9
          split
          · with_reducible apply peerRun_keep (hT.sub (by decide))
            assumption
          · assumption
    · with_reducible apply rxRead_keep (hT.sub (by decide))
      · assumption
      · intro t10 h11
        extract_lets +onlyGivenNames x12
        extract_lets +onlyGivenNames x13
        split
        · with_reducible apply peerDeny_keep (hT.sub (by decide))
          assumption
        · extract_lets +onlyGivenNames x14
          extract_lets +onlyGivenNames x15
          extract_lets +onlyGivenNames x16
          extract_lets +onlyGivenNames x17
          have hx17 : Keep T s0 x17 := by
            unfold x17
            with_reducible refine keep_mk hT ?_ rfl ?_
            · assumption
            · (intro p hp; cases p <;> first | rfl | (exfalso; apply hp; decide))
          clear_value x17
          split
          · with_reducible apply peerRun_keep (hT.sub (by decide))
            assumption
          · assumption

theorem execSendReceived_keep {T : List Part} (hT : Within [.regs, .np] T) {s0 : State} (m : SendMsg) {s : State} (hs : Keep T s0 s) :
    ∀ t, execSendReceived m s = .next t → Keep T s0 t := by
  unfold execSendReceived
  with_reducible apply keep_next
  with_reducible apply rxWrite_keep (hT.sub (by decide))
  · assumption
  · intro t0 h1
    with_reducible apply ackTo_keep (hT.sub (by decide))
    with_reducible apply cnt_keep (hT.sub (by decide))
    assumption

theorem execPfcXon_keep {T : List Part} (hT : Within [.regs, .np] T) {s0 : State} (port : Fin 4) (prio : BitVec 3) {s : State} (hs : Keep T s0 s) :
    ∀ t, execPfcXon port prio s = .next t → Keep T s0 t := by
  unfold execPfcXon
  with_reducible apply keep_next
  split
  · assumption
  · split
    · with_reducible apply rxDrop_keep (hT.sub (by decide))
      assumption
    · with_reducible apply unpause_keep (hT.sub (by decide))
      with_reducible refine keep_mk hT ?_ rfl ?_
      · assumption
      · (intro p hp; cases p <;> first | rfl | (exfalso; apply hp; decide))

theorem execCnpReceived_keep {T : List Part} (hT : Within [.regs, .np] T) {s0 : State} (rx : QpPkt 13) {s : State} (hs : Keep T s0 s) :
    ∀ t, execCnpReceived rx s = .next t → Keep T s0 t := by
  unfold execCnpReceived
  with_reducible apply keep_next
  extract_lets +onlyGivenNames x0
  with_reducible apply rxPkt_keep (hT.sub (by decide))
  · assumption
  · intro t1 h2
    extract_lets +onlyGivenNames x3
    have hx3 : Keep T s0 x3 := by
      unfold x3
      with_reducible apply cnt_keep (hT.sub (by decide))
      assumption
    clear_value x3
    split
    · assumption
    · with_reducible apply updQp_keep (hT.sub (by decide))
      assumption

theorem execNakReceived_keep {T : List Part} (hT : Within [.regs, .fe, .reqs, .graphs, .checking, .tables, .folds, .np, .dl] T) {s0 : State} (rx : QpPkt 13) (e : Nak) {s : State} (hs : Keep T s0 s) :
    ∀ t, execNakReceived rx e s = .next t → Keep T s0 t := by
  unfold execNakReceived
  with_reducible apply keep_next
  with_reducible apply rxPkt_keep (hT.sub (by decide))
  · assumption
  · intro t0 h1
    split
    · split
      · with_reducible apply retryQp_keep (hT.sub (by decide))
        assumption
      · assumption
    · with_reducible apply settle_keep (hT.sub (by decide))
      with_reducible apply qpError_keep (hT.sub (by decide))
      assumption
    · with_reducible apply settle_keep (hT.sub (by decide))
      with_reducible apply qpError_keep (hT.sub (by decide))
      assumption

theorem execNeighbourDiscovery_keep {T : List Part} (hT : Within [.regs] T) {s0 : State} (fr : Frame) (ipv6 : Bool) (addr : Bytes) {s : State} (hs : Keep T s0 s) :
    ∀ t, execNeighbourDiscovery fr ipv6 addr s = .next t → Keep T s0 t := by
  unfold execNeighbourDiscovery
  with_reducible apply keep_next
  with_reducible apply rxFrame_keep (hT.sub (by decide))
  · assumption
  · intro t0 h1
    extract_lets +onlyGivenNames x2
    extract_lets +onlyGivenNames x3
    split
    · with_reducible apply emit_keep
      assumption
    · with_reducible apply rxDrop_keep (hT.sub (by decide))
      assumption

theorem execNpQpEnable_keep {T : List Part} (hT : Within [.regs, .sels, .latches, .fe, .reqs, .graphs, .checking, .tables, .folds, .np, .dl] T) {s0 : State} (a : Acc) (v : Word) {s : State} (hs : Keep T s0 s) :
    ∀ t, execNpQpEnable a v s = .next t → Keep T s0 t := by
  unfold execNpQpEnable
  with_reducible apply keep_next
  with_reducible apply acc1_keep (hT.sub (by decide))
  · assumption
  · intro t0 h1
    with_reducible apply wrQpCtl_keep (hT.sub (by decide))
    assumption

theorem execNpQpReset_keep {T : List Part} (hT : Within [.regs, .sels, .latches, .fe, .reqs, .graphs, .checking, .tables, .folds, .np, .dl] T) {s0 : State} (a : Acc) (v : Word) {s : State} (hs : Keep T s0 s) :
    ∀ t, execNpQpReset a v s = .next t → Keep T s0 t := by
  unfold execNpQpReset
  with_reducible apply keep_next
  with_reducible apply acc1_keep (hT.sub (by decide))
  · assumption
  · intro t0 h1
    with_reducible apply wrQpCtl_keep (hT.sub (by decide))
    assumption

end Sys2Proof.Machine
end

