-- ==== Sys2Proof/Laws/KeepOwn.lean ====
section
/-! SUPPORT. `Keep` holds after each command of the part itself: memory, log, margins, boot, pins, security and registers, where it held before. -/

namespace Sys2Proof.Machine

theorem execFillDone_keep {T : List Part} (hT : Within [.regs, .sels, .latches, .fe, .reqs, .nextHandle, .lastCore, .nextOrder, .cores, .graphs, .checking, .tables, .folds, .np, .xl, .dl, .ig, .pc, .fab] T) {s0 : State} (w : FillFor) {s : State} (hs : Keep T s0 s) :
    ∀ t, execFillDone w s = .next t → Keep T s0 t := by
  unfold execFillDone
  with_reducible apply keep_next
  split
  · split
    · with_reducible apply unmapDone_keep (hT.sub (by decide))
      assumption
    · assumption
  · split
    · with_reducible apply wholeReset_keep (hT.sub (by decide))
      assumption
    · assumption
  · split
    · assumption
    · extract_lets +onlyGivenNames x0
      have hx0 : Keep T s0 x0 := by
        unfold x0
        with_reducible apply updFold_keep (hT.sub (by decide))
        · assumption
        · intro x1 h2
          exact canonical_of rfl rfl
      clear_value x0
      extract_lets +onlyGivenNames x3
      have hx3 : Keep T s0 x3 := by
        unfold x3
        with_reducible apply fmFillAll_keep (hT.sub (by decide))
        assumption
      clear_value x3
      split
      · with_reducible apply enterReady_keep (hT.sub (by decide))
        assumption
      · assumption

theorem execRefresh_keep {T : List Part} (hT : Within [.regs, .folds] T) {s0 : State} (f : Fin 8) (ch : Fin 16) {s : State} (hs : Keep T s0 s) :
    ∀ t, execRefresh f ch s = .next t → Keep T s0 t := by
  unfold execRefresh
  with_reducible apply keep_next
  extract_lets +onlyGivenNames x0
  have hx0 : Fold.canonical x0 = true := by
    unfold x0
    with_reducible exact fold_canonical (by assumption) _
  clear_value x0
  extract_lets +onlyGivenNames x1
  split
  · assumption
  · extract_lets +onlyGivenNames x2
    extract_lets +onlyGivenNames x3
    extract_lets +onlyGivenNames x4
    extract_lets +onlyGivenNames x5
    have hx5 : Keep T s0 x5 := by
      unfold x5
      with_reducible apply cntN_keep (hT.sub (by decide))
      assumption
    clear_value x5
    with_reducible apply updChan_keep (hT.sub (by decide))
    assumption

theorem execScrub_keep {T : List Part} (hT : Within [.regs, .folds, .ig] T) {s0 : State} (f : Fin 8) (ch : Fin 16) (fd : BitVec 256) (fc : BitVec 16) {s : State} (hs : Keep T s0 s) :
    ∀ t, execScrub f ch fd fc s = .next t → Keep T s0 t := by
  unfold execScrub
  with_reducible apply keep_next
  split
  · assumption
  · extract_lets +onlyGivenNames x0
    extract_lets +onlyGivenNames x1
    extract_lets +onlyGivenNames x2
    have hx2 : Keep T s0 x2 := by
      unfold x2
      with_reducible apply flipSector_keep (hT.sub (by decide))
      with_reducible apply serveBefore_keep (hT.sub (by decide))
      assumption
    clear_value x2
    extract_lets +onlyGivenNames x3
    have hx3 : Keep T s0 x3 := by
      unfold x3
      with_reducible apply makeRuns_keep (hT.sub (by decide))
      assumption
    clear_value x3
    extract_lets +onlyGivenNames x4
    have hx4 : Keep T s0 x4 := by
      unfold x4
      with_reducible apply keep_foldl
      · assumption
      · intro t5 x6 h7
        with_reducible apply noteSec_keep (hT.sub (by decide))
        assumption
    clear_value x4
    with_reducible apply updChan_keep (hT.sub (by decide))
    assumption

theorem execReadDataReturn_keep {T : List Part} (hT : Within [.regs, .folds, .ig] T) {s0 : State} (f : Fin 8) (ch : Fin 16) (fd : BitVec 256) (fc : BitVec 16) {s : State} (hs : Keep T s0 s) :
    ∀ t, execReadDataReturn f ch fd fc s = .next t → Keep T s0 t := by
  unfold execReadDataReturn
  with_reducible apply keep_next
  split
  · assumption
  · with_reducible apply returnRun_keep (hT.sub (by decide))
    with_reducible apply flipSector_keep (hT.sub (by decide))
    assumption

theorem execFmPartRate_keep {T : List Part} (hT : Within [.regs, .ig] T) {s0 : State} (a : Acc) (f : Fin 8) (v : Word) {s : State} (hs : Keep T s0 s) :
    ∀ t, execFmPartRate a f v s = .next t → Keep T s0 t := by
  unfold execFmPartRate
  with_reducible apply keep_next
  with_reducible apply acc1_keep (hT.sub (by decide))
  · assumption
  · intro t0 h1
    with_reducible apply wrPartRate_keep (hT.sub (by decide))
    assumption

theorem execRunIssue_keep {T : List Part} (hT : Within [.regs, .folds, .ig] T) {s0 : State} (f : Fin 8) (ch : Fin 16) {s : State} (hs : Keep T s0 s) :
    ∀ t, execRunIssue f ch s = .next t → Keep T s0 t := by
  unfold execRunIssue
  with_reducible apply keep_next
  extract_lets +onlyGivenNames x0
  have hx0 : Fold.canonical x0 = true := by
    unfold x0
    with_reducible exact fold_canonical (by assumption) _
  clear_value x0
  extract_lets +onlyGivenNames x1
  split
  · assumption
  · split
    · with_reducible apply issueRun_keep (hT.sub (by decide))
      assumption
    · split
      · assumption
      · split
        · with_reducible apply issueRun_keep (hT.sub (by decide))
          assumption
        · assumption

theorem execRetrainStep_keep {T : List Part} (hT : Within [.folds, .pc] T) {s0 : State} (f : Fin 8) (ch : Fin 16) (rdEye : Byte) (wrEye : Byte) (vref : Byte) (last : Bool) {s : State} (hs : Keep T s0 s) :
    ∀ t, execRetrainStep f ch rdEye wrEye vref last s = .next t → Keep T s0 t := by
  unfold execRetrainStep
  with_reducible apply keep_next
  extract_lets +onlyGivenNames x0
  have hx0 : Fold.canonical x0 = true := by
    unfold x0
    with_reducible exact fold_canonical (by assumption) _
  clear_value x0
  extract_lets +onlyGivenNames x1
  split
  · assumption
  · extract_lets +onlyGivenNames x2
    extract_lets +onlyGivenNames x3
    have hx3 : Keep T s0 x3.2 := by
      unfold x3
      with_reducible apply draw_keep
      assumption
    clear_value x3
    extract_lets +onlyGivenNames x4
    have hx4 : Keep T s0 x4 := by
      unfold x4
      assumption
    clear_value x4
    extract_lets +onlyGivenNames x5
    extract_lets +onlyGivenNames x6
    have hx6 : Keep T s0 x6 := by
      unfold x6
      split
      · with_reducible refine keep_pc (hT.sub (by decide)) ?_
        assumption
      · assumption
    clear_value x6
    extract_lets +onlyGivenNames x7
    with_reducible apply updChan_keep (hT.sub (by decide))
    assumption

theorem execFmEccInj_keep {T : List Part} (hT : Within [.regs, .ig] T) {s0 : State} (a : Acc) (f : Fin 8) (v : Word) {s : State} (hs : Keep T s0 s) :
    ∀ t, execFmEccInj a f v s = .next t → Keep T s0 t := by
  unfold execFmEccInj
  with_reducible apply keep_next
  with_reducible apply acc1_keep (hT.sub (by decide))
  · assumption
  · intro t0 h1
    with_reducible apply wrEccInj_keep (hT.sub (by decide))
    assumption

theorem execMaintenanceSlot_keep {T : List Part} (hT : Within [.regs, .folds, .pc] T) {s0 : State} (f : Fin 8) (ch : Fin 16) (osc : ℤ) {s : State} (hs : Keep T s0 s) :
    ∀ t, execMaintenanceSlot f ch osc s = .next t → Keep T s0 t := by
  unfold execMaintenanceSlot
  with_reducible apply keep_next
  extract_lets +onlyGivenNames x0
  split
  · assumption
  · extract_lets +onlyGivenNames x1
    have hx1 : Keep T s0 x1 := by
      unfold x1
      with_reducible apply cntN_keep (hT.sub (by decide))
      assumption
    clear_value x1
    extract_lets +onlyGivenNames x2
    have hx2 : Keep T s0 x2 := by
      unfold x2
      split
      · with_reducible apply cnt_keep (hT.sub (by decide))
        assumption
      · assumption
    clear_value x2
    extract_lets +onlyGivenNames x3
    extract_lets +onlyGivenNames x4
    extract_lets +onlyGivenNames x5
    extract_lets +onlyGivenNames x6
    have hx6 : Keep T s0 x6 := by
      unfold x6
      with_reducible apply updChan_keep (hT.sub (by decide))
      assumption
    clear_value x6
    split
    · with_reducible apply startReplan_keep (hT.sub (by decide))
      assumption
    · assumption

theorem execFmRequest_keep {T : List Part} (hT : Within [.folds] T) {s0 : State} (f : Fin 8) (part : Fin 16) (_wide : Bool) (write : Bool) (addr : Nat) (data : Bytes) (len : Nat) {s : State} (hs : Keep T s0 s) :
    ∀ t, execFmRequest f part _wide write addr data len s = .next t → Keep T s0 t := by
  unfold execFmRequest
  extract_lets +onlyGivenNames x0
  have hx0 : Fold.canonical x0 = true := by
    unfold x0
    with_reducible exact fold_canonical (by assumption) _
  clear_value x0
  extract_lets +onlyGivenNames x1
  split
  · with_reducible apply keep_next
    assumption
  · split
    · with_reducible exact keep_fault
    · extract_lets +onlyGivenNames x2
      split
      · with_reducible apply keep_next
        assumption
      · extract_lets +onlyGivenNames x3
        with_reducible apply keep_next
        with_reducible apply setFold_keep (hT.sub (by decide))
        · assumption
        · exact canonical_of (fold_pasture (by assumption)) (fold_pen (by assumption))

theorem execRefreshRateRead_keep {T : List Part} (hT : Within [.folds] T) {s0 : State} (f : Fin 8) (rates : List (Fin 3)) {s : State} (hs : Keep T s0 s) :
    ∀ t, execRefreshRateRead f rates s = .next t → Keep T s0 t := by
  unfold execRefreshRateRead
  with_reducible apply keep_next
  with_reducible apply keep_foldl
  · assumption
  · intro t0 x1 h2
    split
    split
    · with_reducible apply updChan_keep (hT.sub (by decide))
      assumption
    · assumption

theorem execQuiet_keep {T : List Part} (hT : Within [.regs, .fe, .reqs, .cores, .graphs, .checking, .tables, .folds, .dl, .ig] T) {s0 : State} (u : UnitId) (late : Option Word) {s : State} (hs : Keep T s0 s) :
    ∀ t, execQuiet u late s = .next t → Keep T s0 t := by
  unfold execQuiet
  with_reducible apply keep_next
  with_reducible apply unitQuiet_keep (hT.sub (by decide))
  assumption

theorem execUnitResetRequest_keep {T : List Part} (hT : Within [.ig, .pc] T) {s0 : State} (u : UnitId) (sc : Scope) (cause : Word) {s : State} (hs : Keep T s0 s) :
    ∀ t, execUnitResetRequest u sc cause s = .next t → Keep T s0 t := by
  unfold execUnitResetRequest
  with_reducible apply keep_next
  split
  · assumption
  · with_reducible apply wantReset_keep (hT.sub (by decide))
    assumption

theorem execErrorReport_keep {T : List Part} (hT : Within [.regs, .sels, .latches, .fe, .reqs, .nextHandle, .lastCore, .nextOrder, .cores, .graphs, .checking, .tables, .folds, .np, .xl, .dl, .ig, .pc, .fab] T) {s0 : State} (e : ErrRep) {s : State} (hs : Keep T s0 s) :
    ∀ t, execErrorReport e s = .next t → Keep T s0 t := by
  unfold execErrorReport
  with_reducible apply keep_next
  split
  · assumption
  · split
    · extract_lets +onlyGivenNames x0
      have hx0 : Keep T s0 x0 := by
        unfold x0
        with_reducible apply ceCount_keep (hT.sub (by decide))
        assumption
      clear_value x0
      split
      · with_reducible apply cnt_keep (hT.sub (by decide))
        assumption
      · split
        · with_reducible apply cnt_keep (hT.sub (by decide))
          assumption
        · assumption
    · split
      · with_reducible apply logEv_keep (hT.sub (by decide))
        assumption
      · split
        · with_reducible apply privError_keep (hT.sub (by decide))
          assumption
        · with_reducible apply structError_keep (hT.sub (by decide))
          assumption

theorem execResidueMismatch_keep {T : List Part} (hT : Within [.regs, .reqs, .cores, .ig, .pc] T) {s0 : State} (c : Core2) (e : AccAt) (bundle : BitVec 17) {s : State} (hs : Keep T s0 s) :
    ∀ t, execResidueMismatch c e bundle s = .next t → Keep T s0 t := by
  unfold execResidueMismatch
  with_reducible apply keep_next
  split
  · assumption
  · split
    · assumption
    · extract_lets +onlyGivenNames x0
      have hx0 : Keep T s0 x0 := by
        unfold x0
        with_reducible apply updCore_keep (hT.sub (by decide))
        · assumption
        · intro x1 h2
          with_reducible apply suspectOut_keep
          assumption
      clear_value x0
      with_reducible apply residueReport_keep (hT.sub (by decide))
      assumption

theorem execIgFlogCons_keep {T : List Part} (hT : Within [.regs, .ig] T) {s0 : State} (a : Acc) (v : Word) {s : State} (hs : Keep T s0 s) :
    ∀ t, execIgFlogCons a v s = .next t → Keep T s0 t := by
  unfold execIgFlogCons
  with_reducible apply keep_next
  with_reducible apply acc1_keep (hT.sub (by decide))
  · assumption
  · intro t0 h1
    with_reducible apply wrFlogCons_keep (hT.sub (by decide))
    assumption

theorem execUnitResetDone_keep {T : List Part} (hT : Within [.regs, .fe, .reqs, .cores, .graphs, .tables, .folds, .xl, .dl, .ig, .pc] T) {s0 : State} (u : UnitId) {s : State} (hs : Keep T s0 s) :
    ∀ t, execUnitResetDone u s = .next t → Keep T s0 t := by
  unfold execUnitResetDone
  with_reducible apply keep_next
  with_reducible apply unitBack_keep (hT.sub (by decide))
  assumption

theorem execIgUrst_keep {T : List Part} (hT : Within [.ig, .pc] T) {s0 : State} (a : Acc) (v : Word) {s : State} (hs : Keep T s0 s) :
    ∀ t, execIgUrst a v s = .next t → Keep T s0 t := by
  unfold execIgUrst
  with_reducible apply keep_next
  with_reducible apply acc1_keep (hT.sub (by decide))
  · assumption
  · intro t0 h1
    with_reducible apply wrIgUrst_keep (hT.sub (by decide))
    assumption

theorem execUcieModuleDown_keep {T : List Part} (hT : Within [.regs, .folds, .ig, .pc] T) {s0 : State} (f : Fin 8) (m : Fin 2) (retrained : Bool) {s : State} (hs : Keep T s0 s) :
    ∀ t, execUcieModuleDown f m retrained s = .next t → Keep T s0 t := by
  unfold execUcieModuleDown
  with_reducible apply keep_next
  split
  · assumption
  · with_reducible apply moduleDown_keep (hT.sub (by decide))
    with_reducible apply draw_keep
    assumption

theorem execContainmentDone_keep {T : List Part} (hT : Within [.regs] T) {s0 : State} {s : State} (hs : Keep T s0 s) :
    ∀ t, execContainmentDone s = .next t → Keep T s0 t := by
  unfold execContainmentDone
  with_reducible apply keep_next
  with_reducible apply rsetF_keep (hT.sub (by decide))
  assumption

theorem execFaultRecordClose_keep {T : List Part} (hT : Within [.ig] T) {s0 : State} (recno : Word) {s : State} (hs : Keep T s0 s) :
    ∀ t, execFaultRecordClose recno s = .next t → Keep T s0 t := by
  unfold execFaultRecordClose
  with_reducible apply keep_next
  extract_lets +onlyGivenNames x0
  extract_lets +onlyGivenNames x1
  split
  · with_reducible apply setFlog_keep (hT.sub (by decide))
    assumption
  · assumption

theorem execMaResInj_keep {T : List Part} (hT : Within [.regs, .ig] T) {s0 : State} (a : Acc) (c : Core2) (v : Word) {s : State} (hs : Keep T s0 s) :
    ∀ t, execMaResInj a c v s = .next t → Keep T s0 t := by
  unfold execMaResInj
  with_reducible apply keep_next
  with_reducible apply acc1_keep (hT.sub (by decide))
  · assumption
  · intro t0 h1
    with_reducible apply wrResInj_keep (hT.sub (by decide))
    assumption

theorem execReplanPeriod_keep {T : List Part} (hT : Within [.regs, .pc] T) {s0 : State} {s : State} (hs : Keep T s0 s) :
    ∀ t, execReplanPeriod s = .next t → Keep T s0 t := by
  unfold execReplanPeriod
  with_reducible apply keep_next
  split
  · assumption
  · with_reducible apply startReplan_keep (hT.sub (by decide))
    assumption

theorem execReplan_keep {T : List Part} (hT : Within [.regs, .fe, .reqs, .cores, .graphs, .tables, .folds, .dl, .ig, .pc] T) {s0 : State} (sites1 : List Site) (sites2 : List Site) (links : List Half) (eth : List Byte) (ucie : List Byte) (failed : List (Fin 32)) (acks1 : Acks) (acks2 : Acks) {s : State} (hs : Keep T s0 s) :
    ∀ t, execReplan sites1 sites2 links eth ucie failed acks1 acks2 s = .next t → Keep T s0 t := by
  unfold execReplan
  with_reducible apply keep_next
  split
  · assumption
  · extract_lets +onlyGivenNames x0
    have hx0 : Keep T s0 x0.1 := by
      unfold x0
      with_reducible apply retrainLinks_keep (hT.sub (by decide))
      assumption
    clear_value x0
    extract_lets +onlyGivenNames x1
    have hx1 : Keep T s0 x1 := by
      unfold x1
      assumption
    clear_value x1
    extract_lets +onlyGivenNames x2
    extract_lets +onlyGivenNames x3
    have hx3 : Keep T s0 x3 := by
      unfold x3
      with_reducible apply makePlan_keep (hT.sub (by decide))
      assumption
    clear_value x3
    split
    · with_reducible apply keep_foldl
      · assumption
      · intro t4 x5 h6
        split
        · with_reducible apply wantReset_keep (hT.sub (by decide))
          assumption
        · assumption
    · assumption

theorem execThermalLoop_keep {T : List Part} (hT : Within [.regs, .pc] T) {s0 : State} (elapsed10 : Bool) {s : State} (hs : Keep T s0 s) :
    ∀ t, execThermalLoop elapsed10 s = .next t → Keep T s0 t := by
  unfold execThermalLoop
  with_reducible apply keep_next
  split
  · assumption
  · extract_lets +onlyGivenNames x0
    extract_lets +onlyGivenNames x1
    have hx1 : Keep T s0 x1 := by
      unfold x1
      split
      · with_reducible apply cnt_keep (hT.sub (by decide))
        assumption
      · assumption
    clear_value x1
    extract_lets +onlyGivenNames x2
    extract_lets +onlyGivenNames x3
    extract_lets +onlyGivenNames x4
    with_reducible refine keep_pc (hT.sub (by decide)) ?_
    assumption

theorem execReplanRequest_keep {T : List Part} (hT : Within [.regs, .ig, .pc] T) {s0 : State} (a : Acc) (v : Word) {s : State} (hs : Keep T s0 s) :
    ∀ t, execReplanRequest a v s = .next t → Keep T s0 t := by
  unfold execReplanRequest
  with_reducible apply keep_next
  with_reducible apply acc1_keep (hT.sub (by decide))
  · assumption
  · intro t0 h1
    with_reducible apply wrMarginCtl_keep (hT.sub (by decide))
    assumption

theorem execTelemetryRefresh_keep {T : List Part} (hT : Within [.pc] T) {s0 : State} (rails : List Word) (hours : Word) {s : State} (hs : Keep T s0 s) :
    ∀ t, execTelemetryRefresh rails hours s = .next t → Keep T s0 t := by
  unfold execTelemetryRefresh
  with_reducible apply keep_next
  split
  · assumption
  · extract_lets +onlyGivenNames x0
    extract_lets +onlyGivenNames x1
    extract_lets +onlyGivenNames x2
    extract_lets +onlyGivenNames x3
    with_reducible refine keep_pc (hT.sub (by decide)) ?_
    assumption

theorem execMonitorRead_keep {T : List Part} (hT : Within [.regs, .pc] T) {s0 : State} (m : Reading) {s : State} (hs : Keep T s0 s) :
    ∀ t, execMonitorRead m s = .next t → Keep T s0 t := by
  unfold execMonitorRead
  with_reducible apply keep_next
  split
  · assumption
  · extract_lets +onlyGivenNames x0
    have hx0 : Keep T s0 x0 := by
      unfold x0
      with_reducible apply reading_keep (hT.sub (by decide))
      assumption
    clear_value x0
    extract_lets +onlyGivenNames x1
    extract_lets +onlyGivenNames x2
    extract_lets +onlyGivenNames x3
    extract_lets +onlyGivenNames x4
    have hx4 : Keep T s0 x4 := by
      unfold x4
      with_reducible refine keep_pc (hT.sub (by decide)) ?_
      assumption
    clear_value x4
    split
    · with_reducible apply startReplan_keep (hT.sub (by decide))
      with_reducible refine keep_pc (hT.sub (by decide)) ?_
      assumption
    · assumption

theorem execAvsRetry_keep {T : List Part} (hT : Within [.regs, .pc] T) {s0 : State} (acks : Acks) {s : State} (hs : Keep T s0 s) :
    ∀ t, execAvsRetry acks s = .next t → Keep T s0 t := by
  unfold execAvsRetry
  with_reducible apply keep_next
  split
  · assumption
  · with_reducible apply keep_foldl
    · assumption
    · intro t0 x1 h2
      split
      · with_reducible apply setRail_keep (hT.sub (by decide))
        with_reducible refine keep_pc (hT.sub (by decide)) ?_
        assumption
      · with_reducible apply cnt_keep (hT.sub (by decide))
        with_reducible apply emit_keep
        assumption

theorem execPowerLoop_keep {T : List Part} (hT : Within [.regs, .pc] T) {s0 : State} (mw : Word) (mean : Word) (energy : Dword) {s : State} (hs : Keep T s0 s) :
    ∀ t, execPowerLoop mw mean energy s = .next t → Keep T s0 t := by
  unfold execPowerLoop
  with_reducible apply keep_next
  split
  · assumption
  · extract_lets +onlyGivenNames x0
    have hx0 : Keep T s0 x0 := by
      unfold x0
      with_reducible apply rset_keep (hT.sub (by decide))
      assumption
    clear_value x0
    extract_lets +onlyGivenNames x1
    have hx1 : Keep T s0 x1 := by
      unfold x1
      with_reducible apply rset64_keep (hT.sub (by decide))
      assumption
    clear_value x1
    extract_lets +onlyGivenNames x2
    extract_lets +onlyGivenNames x3
    extract_lets +onlyGivenNames x4
    extract_lets +onlyGivenNames x5
    split
    · with_reducible refine keep_pc (hT.sub (by decide)) ?_
      assumption
    · with_reducible refine keep_pc (hT.sub (by decide)) ?_
      assumption

theorem execPcFlashErase_keep {T : List Part} (hT : Within [.regs, .pc] T) {s0 : State} (a : Acc) (v : Word) {s : State} (hs : Keep T s0 s) :
    ∀ t, execPcFlashErase a v s = .next t → Keep T s0 t := by
  unfold execPcFlashErase
  with_reducible apply keep_next
  with_reducible apply acc1_keep (hT.sub (by decide))
  · assumption
  · intro t0 h1
    with_reducible apply wrFlashCtl_keep (hT.sub (by decide))
    assumption

theorem execRootPllLock_keep {T : List Part} (hT : Within [.regs, .pc] T) {s0 : State} {s : State} (hs : Keep T s0 s) :
    ∀ t, execRootPllLock s = .next t → Keep T s0 t := by
  unfold execRootPllLock
  with_reducible apply keep_next
  split
  · assumption
  · with_reducible apply setStage_keep (hT.sub (by decide))
    with_reducible apply rset_keep (hT.sub (by decide))
    with_reducible refine keep_pc (hT.sub (by decide)) ?_
    assumption

theorem execFwStart_keep {T : List Part} (hT : Within [.regs, .np, .dl, .ig, .pc] T) {s0 : State} (sramOk : Bool) (coreFail : BitVec 2) (up : StartUp) {s : State} (hs : Keep T s0 s) :
    ∀ t, execFwStart sramOk coreFail up s = .next t → Keep T s0 t := by
  unfold execFwStart
  with_reducible apply keep_next
  with_reducible apply inStage_keep (hT.sub (by decide))
  · assumption
  · intro t0 h1
    extract_lets +onlyGivenNames x2
    have hx2 : Keep T s0 x2 := by
      unfold x2
      with_reducible apply newNonce_keep (hT.sub (by decide))
      with_reducible apply makeKeys_keep (hT.sub (by decide))
      assumption
    clear_value x2
    split
    · with_reducible apply halt_keep (hT.sub (by decide))
      with_reducible apply sramFailed_keep (hT.sub (by decide))
      assumption
    · extract_lets +onlyGivenNames x3
      have hx3 : Keep T s0 x3 := by
        unfold x3
        with_reducible apply keep_foldl
        · assumption
        · intro t4 x5 h6
          with_reducible apply coreFailed_keep (hT.sub (by decide))
          assumption
      clear_value x3
      extract_lets +onlyGivenNames x7
      have hx7 : Keep T s0 x7 := by
        unfold x7
        split
        · with_reducible apply bootMac_keep (hT.sub (by decide))
          assumption
        · with_reducible apply setCode_keep (hT.sub (by decide))
          with_reducible apply setMac_keep (hT.sub (by decide))
          assumption
      clear_value x7
      split
      · with_reducible apply trainLinks_keep (hT.sub (by decide))
        with_reducible apply setStage_keep (hT.sub (by decide))
        assumption
      · with_reducible apply enterReady_keep (hT.sub (by decide))
        assumption

theorem execPwrgoodFall_keep {T : List Part} (hT : Within [.regs, .sels, .latches, .fe, .reqs, .nextHandle, .lastCore, .nextOrder, .cores, .graphs, .checking, .tables, .folds, .np, .xl, .dl, .ig, .pc, .fab] T) {s0 : State} (ns : Nat) (accepted : Bool) (straps : List (BitVec 3)) {s : State} (hs : Keep T s0 s) :
    ∀ t, execPwrgoodFall ns accepted straps s = .next t → Keep T s0 t := by
  unfold execPwrgoodFall
  with_reducible apply keep_next
  split
  · assumption
  · extract_lets +onlyGivenNames x0
    have hx0 : Keep T s0 x0 := by
      unfold x0
      with_reducible apply powerReset_keep (hT.sub (by decide))
      assumption
    clear_value x0
    with_reducible apply strap_keep (hT.sub (by decide))
    with_reducible refine keep_pc (hT.sub (by decide)) ?_
    assumption

theorem execRootPllLoss_keep {T : List Part} (hT : Within [.regs, .sels, .latches, .fe, .reqs, .nextHandle, .lastCore, .nextOrder, .cores, .graphs, .checking, .tables, .folds, .np, .xl, .dl, .ig, .pc, .fab] T) {s0 : State} {s : State} (hs : Keep T s0 s) :
    ∀ t, execRootPllLoss s = .next t → Keep T s0 t := by
  unfold execRootPllLoss
  with_reducible apply keep_next
  split
  · assumption
  · with_reducible apply rsetF_keep (hT.sub (by decide))
    with_reducible apply wholeReset_keep (hT.sub (by decide))
    assumption

theorem execEthReferenceLoss_keep {T : List Part} (hT : Within [.np] T) {s0 : State} (macs : List (Fin 9)) {s : State} (hs : Keep T s0 s) :
    ∀ t, execEthReferenceLoss macs s = .next t → Keep T s0 t := by
  unfold execEthReferenceLoss
  with_reducible apply keep_next
  with_reducible apply keep_foldl
  · assumption
  · intro t0 x1 h2
    with_reducible apply setMac_keep (hT.sub (by decide))
    assumption

theorem execImageSpi_keep {T : List Part} (hT : Within [.regs, .np, .pc] T) {s0 : State} (img : Bytes) {s : State} (hs : Keep T s0 s) :
    ∀ t, execImageSpi img s = .next t → Keep T s0 t := by
  unfold execImageSpi
  with_reducible apply keep_next
  with_reducible apply inStage_keep (hT.sub (by decide))
  · assumption
  · intro t0 h1
    split
    · with_reducible apply runImage_keep (hT.sub (by decide))
      assumption
    · with_reducible apply toFallback_keep (hT.sub (by decide))
      with_reducible apply setCode_keep (hT.sub (by decide))
      assumption

theorem execIdentity_keep {T : List Part} (hT : Within [.regs, .folds, .np, .pc] T) {s0 : State} (record : Bytes) (helper : Bytes) (blocks : List Bytes) {s : State} (hs : Keep T s0 s) :
    ∀ t, execIdentity record helper blocks s = .next t → Keep T s0 t := by
  unfold execIdentity
  with_reducible apply keep_next
  with_reducible apply inStage_keep (hT.sub (by decide))
  · assumption
  · intro t0 h1
    extract_lets +onlyGivenNames x2
    extract_lets +onlyGivenNames x3
    extract_lets +onlyGivenNames x4
    extract_lets +onlyGivenNames x5
    extract_lets +onlyGivenNames x6
    have hx6 : Keep T s0 x6 := by
      unfold x6
      with_reducible refine keep_pc (hT.sub (by decide)) ?_
      assumption
    clear_value x6
    extract_lets +onlyGivenNames x7
    extract_lets +onlyGivenNames x8
    extract_lets +onlyGivenNames x9
    extract_lets +onlyGivenNames x10
    have hx10 : Keep T s0 x10 := by
      unfold x10
      with_reducible apply keep_foldl
      · assumption
      · intro t11 x12 h13
        with_reducible apply pufCycle_keep (hT.sub (by decide))
        assumption
    clear_value x10
    extract_lets +onlyGivenNames x14
    extract_lets +onlyGivenNames x15
    have hx15 : Keep T s0 x15 := by
      unfold x15
      with_reducible refine keep_pc (hT.sub (by decide)) ?_
      assumption
    clear_value x15
    extract_lets +onlyGivenNames x16
    have hx16 : Keep T s0 x16 := by
      unfold x16
      with_reducible apply rsetF_keep (hT.sub (by decide))
      assumption
    clear_value x16
    extract_lets +onlyGivenNames x17
    have hx17 : Keep T s0 x17 := by
      unfold x17
      split
      · with_reducible apply setCode_keep (hT.sub (by decide))
        assumption
      · split
        · with_reducible apply setCode_keep (hT.sub (by decide))
          assumption
        · assumption
    clear_value x17
    extract_lets +onlyGivenNames x18
    have hx18 : Keep T s0 x18 := by
      unfold x18
      split
      · assumption
      · with_reducible apply rsetF_keep (hT.sub (by decide))
        with_reducible apply rsetF_keep (hT.sub (by decide))
        with_reducible apply keep_foldl
        · assumption
        · intro t19 x20 h21
          with_reducible apply updFold_keep (hT.sub (by decide))
          · assumption
          · intro x22 h23
            exact canonical_of (fold_pasture (by assumption)) (fold_pen (by assumption))
    clear_value x18
    split
    · with_reducible apply toFallback_keep (hT.sub (by decide))
      assumption
    · with_reducible apply setStage_keep (hT.sub (by decide))
      assumption

theorem execDroveReferenceLoss_keep {T : List Part} (hT : Within [.regs, .fe, .reqs, .cores, .graphs, .tables, .folds, .dl] T) {s0 : State} {s : State} (hs : Keep T s0 s) :
    ∀ t, execDroveReferenceLoss s = .next t → Keep T s0 t := by
  unfold execDroveReferenceLoss
  with_reducible apply keep_next
  with_reducible apply keep_foldl
  · assumption
  · intro t0 x1 h2
    split
    · with_reducible apply leaveUp_keep (hT.sub (by decide))
      assumption
    · assumption

theorem execRootPllLockTimeout_keep {T : List Part} (hT : Within [.regs, .np, .pc] T) {s0 : State} {s : State} (hs : Keep T s0 s) :
    ∀ t, execRootPllLockTimeout s = .next t → Keep T s0 t := by
  unfold execRootPllLockTimeout
  with_reducible apply keep_next
  split
  · assumption
  · extract_lets +onlyGivenNames x0
    extract_lets +onlyGivenNames x1
    extract_lets +onlyGivenNames x2
    have hx2 : Keep T s0 x2 := by
      unfold x2
      with_reducible refine keep_pc (hT.sub (by decide)) ?_
      assumption
    clear_value x2
    split
    · assumption
    · with_reducible apply halt_keep (hT.sub (by decide))
      with_reducible apply rsetF_keep (hT.sub (by decide))
      assumption

theorem execRomSelf_keep {T : List Part} (hT : Within [.regs, .pc] T) {s0 : State} (rom : Bytes) {s : State} (hs : Keep T s0 s) :
    ∀ t, execRomSelf rom s = .next t → Keep T s0 t := by
  unfold execRomSelf
  with_reducible apply keep_next
  with_reducible apply inStage_keep (hT.sub (by decide))
  · assumption
  · intro t0 h1
    with_reducible apply setStage_keep (hT.sub (by decide))
    with_reducible refine keep_pc (hT.sub (by decide)) ?_
    assumption

theorem execFallbackDatagram_keep {T : List Part} (hT : Within [.regs, .pc] T) {s0 : State} (m : FbMsg) {s : State} (hs : Keep T s0 s) :
    ∀ t, execFallbackDatagram m s = .next t → Keep T s0 t := by
  unfold execFallbackDatagram
  with_reducible apply keep_next
  with_reducible apply rxFrame_keep (hT.sub (by decide))
  · assumption
  · intro t0 h1
    split
    · with_reducible apply rxDrop_keep (hT.sub (by decide))
      assumption
    · extract_lets +onlyGivenNames x2
      extract_lets +onlyGivenNames x3
      extract_lets +onlyGivenNames x4
      extract_lets +onlyGivenNames x5
      extract_lets +onlyGivenNames x6
      extract_lets +onlyGivenNames x7
      have hx7 : Keep T s0 x7 := by
        unfold x7
        with_reducible apply emit_keep
        with_reducible refine keep_pc (hT.sub (by decide)) ?_
        assumption
      clear_value x7
      split
      · assumption
      · extract_lets +onlyGivenNames x8
        split
        · with_reducible apply runImage_keep (hT.sub (by decide))
          with_reducible apply rereadPuf_keep (hT.sub (by decide))
          assumption
        · with_reducible apply setCode_keep (hT.sub (by decide))
          with_reducible refine keep_pc (hT.sub (by decide)) ?_
          assumption

theorem execMemory_keep {T : List Part} (hT : Within [.regs, .folds, .ig, .pc] T) {s0 : State} (fail : BitVec 128) (eyes : List (Byte × Byte × Byte)) (m : BootMeas) (ms : Nat) {s : State} (hs : Keep T s0 s) :
    ∀ t, execMemory fail eyes m ms s = .next t → Keep T s0 t := by
  unfold execMemory
  with_reducible apply keep_next
  with_reducible apply inStage_keep (hT.sub (by decide))
  · assumption
  · intro t0 h1
    split
    · assumption
    · extract_lets +onlyGivenNames x2
      extract_lets +onlyGivenNames x3
      have hx3 : Keep T s0 x3 := by
        unfold x3
        with_reducible apply keep_foldl
        · assumption
        · intro t4 x5 h6
          with_reducible apply trainFold_keep (hT.sub (by decide))
          assumption
      clear_value x3
      extract_lets +onlyGivenNames x7
      have hx7 : Keep T s0 x7 := by
        unfold x7
        with_reducible apply keep_foldl
        · assumption
        · intro t8 x9 h10
          with_reducible apply foldFailed_keep (hT.sub (by decide))
          assumption
      clear_value x7
      extract_lets +onlyGivenNames x11
      extract_lets +onlyGivenNames x12
      have hx12 : Keep T s0 x12 := by
        unfold x12
        with_reducible refine keep_pc (hT.sub (by decide)) ?_
        assumption
      clear_value x12
      extract_lets +onlyGivenNames x13
      extract_lets +onlyGivenNames x14
      have hx14 : Keep T s0 x14 := by
        unfold x14
        with_reducible apply makePlan_keep (hT.sub (by decide))
        assumption
      clear_value x14
      split
      · with_reducible apply enterReady_keep (hT.sub (by decide))
        assumption
      · assumption

theorem execFoldPllLoss_keep {T : List Part} (hT : Within [.regs, .folds, .ig, .pc] T) {s0 : State} (f : Fin 8) {s : State} (hs : Keep T s0 s) :
    ∀ t, execFoldPllLoss f s = .next t → Keep T s0 t := by
  unfold execFoldPllLoss
  with_reducible apply keep_next
  split
  · assumption
  · extract_lets +onlyGivenNames x0
    have hx0 : Keep T s0 x0.2 := by
      unfold x0
      with_reducible apply draw_keep
      with_reducible apply rsetF_keep (hT.sub (by decide))
      assumption
    clear_value x0
    extract_lets +onlyGivenNames x1
    have hx1 : Keep T s0 x1.2 := by
      unfold x1
      with_reducible apply draw_keep
      assumption
    clear_value x1
    with_reducible apply moduleDown_keep (hT.sub (by decide))
    with_reducible apply moduleDown_keep (hT.sub (by decide))
    assumption

theorem execPwrgoodRise_keep {T : List Part} (hT : Within [.pc] T) {s0 : State} {s : State} (hs : Keep T s0 s) :
    ∀ t, execPwrgoodRise s = .next t → Keep T s0 t := by
  unfold execPwrgoodRise
  with_reducible apply keep_next
  with_reducible refine keep_pc (hT.sub (by decide)) ?_
  assumption

theorem execPcFlashProgram_keep {T : List Part} (hT : Within [.regs, .pc] T) {s0 : State} (a : Acc) (v : Word) {s : State} (hs : Keep T s0 s) :
    ∀ t, execPcFlashProgram a v s = .next t → Keep T s0 t := by
  unfold execPcFlashProgram
  with_reducible apply keep_next
  with_reducible apply acc1_keep (hT.sub (by decide))
  · assumption
  · intro t0 h1
    with_reducible apply wrFlashCtl_keep (hT.sub (by decide))
    assumption

theorem execFlashOpDone_keep {T : List Part} (hT : Within [.regs, .pc] T) {s0 : State} (failed : Bool) (data : Bytes) {s : State} (hs : Keep T s0 s) :
    ∀ t, execFlashOpDone failed data s = .next t → Keep T s0 t := by
  unfold execFlashOpDone
  with_reducible apply keep_next
  split
  · assumption
  · extract_lets +onlyGivenNames x0
    extract_lets +onlyGivenNames x1
    have hx1 : Keep T s0 x1 := by
      unfold x1
      with_reducible apply rsetF_keep (hT.sub (by decide))
      with_reducible refine keep_pc (hT.sub (by decide)) ?_
      assumption
    clear_value x1
    split
    · with_reducible apply rsetF_keep (hT.sub (by decide))
      assumption
    · split
      · with_reducible apply rsetBytes_keep (hT.sub (by decide))
        assumption
      · assumption

theorem execResetNRelease_keep {T : List Part} (hT : Within [.pc] T) {s0 : State} {s : State} (hs : Keep T s0 s) :
    ∀ t, execResetNRelease s = .next t → Keep T s0 t := by
  unfold execResetNRelease
  with_reducible apply keep_next
  with_reducible refine keep_pc (hT.sub (by decide)) ?_
  assumption

theorem execThermtrip_keep {T : List Part} (hT : Within [.regs, .sels, .latches, .fe, .reqs, .nextHandle, .lastCore, .nextOrder, .cores, .graphs, .checking, .tables, .folds, .np, .xl, .dl, .ig, .pc, .fab] T) {s0 : State} {s : State} (hs : Keep T s0 s) :
    ∀ t, execThermtrip s = .next t → Keep T s0 t := by
  unfold execThermtrip
  with_reducible apply keep_next
  split
  · assumption
  · extract_lets +onlyGivenNames x0
    have hx0 : Keep T s0 x0 := by
      unfold x0
      with_reducible apply wholeReset_keep (hT.sub (by decide))
      assumption
    clear_value x0
    with_reducible refine keep_pc (hT.sub (by decide)) ?_
    assumption

theorem execBootWatchdog_keep {T : List Part} (hT : Within [.regs, .sels, .latches, .fe, .reqs, .nextHandle, .lastCore, .nextOrder, .cores, .graphs, .checking, .tables, .folds, .np, .xl, .dl, .ig, .pc, .fab] T) {s0 : State} {s : State} (hs : Keep T s0 s) :
    ∀ t, execBootWatchdog s = .next t → Keep T s0 t := by
  unfold execBootWatchdog
  with_reducible apply keep_next
  split
  · assumption
  · with_reducible apply wholeReset_keep (hT.sub (by decide))
    assumption

theorem execPcFlashRead_keep {T : List Part} (hT : Within [.regs, .pc] T) {s0 : State} (a : Acc) (v : Word) {s : State} (hs : Keep T s0 s) :
    ∀ t, execPcFlashRead a v s = .next t → Keep T s0 t := by
  unfold execPcFlashRead
  with_reducible apply keep_next
  with_reducible apply acc1_keep (hT.sub (by decide))
  · assumption
  · intro t0 h1
    with_reducible apply wrFlashCtl_keep (hT.sub (by decide))
    assumption

theorem execPcRstCtlWhole_keep {T : List Part} (hT : Within [.regs, .sels, .latches, .fe, .reqs, .cores, .checking, .folds, .np, .xl, .dl, .ig, .pc] T) {s0 : State} (a : Acc) (v : Word) {s : State} (hs : Keep T s0 s) :
    ∀ t, execPcRstCtlWhole a v s = .next t → Keep T s0 t := by
  unfold execPcRstCtlWhole
  with_reducible apply keep_next
  with_reducible apply acc1_keep (hT.sub (by decide))
  · assumption
  · intro t0 h1
    with_reducible apply wrRstCtl_keep (hT.sub (by decide))
    assumption

theorem execFolds_keep {T : List Part} (hT : Within [.regs, .folds, .ig] T) {s0 : State} (fail : FoldFail) (attempts : Nat) {s : State} (hs : Keep T s0 s) :
    ∀ t, execFolds fail attempts s = .next t → Keep T s0 t := by
  unfold execFolds
  with_reducible apply keep_next
  with_reducible apply inStage_keep (hT.sub (by decide))
  · assumption
  · intro t0 h1
    extract_lets +onlyGivenNames x2
    have hx2 : Keep T s0 x2 := by
      unfold x2
      with_reducible apply keep_foldl
      · assumption
      · intro t3 x4 h5
        with_reducible apply foldFailed_keep (hT.sub (by decide))
        assumption
    clear_value x2
    with_reducible apply setStage_keep (hT.sub (by decide))
    with_reducible apply rsetF_keep (hT.sub (by decide))
    assumption

theorem execResetNAssert_keep {T : List Part} (hT : Within [.regs, .sels, .latches, .fe, .reqs, .nextHandle, .lastCore, .nextOrder, .cores, .graphs, .checking, .tables, .folds, .np, .xl, .dl, .ig, .pc, .fab] T) {s0 : State} (ns : Nat) (accepted : Bool) (straps : List (BitVec 3)) {s : State} (hs : Keep T s0 s) :
    ∀ t, execResetNAssert ns accepted straps s = .next t → Keep T s0 t := by
  unfold execResetNAssert
  with_reducible apply keep_next
  split
  · assumption
  · split
    · with_reducible refine keep_pc (hT.sub (by decide)) ?_
      assumption
    · extract_lets +onlyGivenNames x0
      have hx0 : Keep T s0 x0 := by
        unfold x0
        split
        · with_reducible apply wholeReset_keep (hT.sub (by decide))
          assumption
        · assumption
      clear_value x0
      with_reducible apply strap_keep (hT.sub (by decide))
      with_reducible refine keep_pc (hT.sub (by decide)) ?_
      assumption

theorem execFallbackSpiRetry_keep {T : List Part} (hT : Within [.regs, .pc] T) {s0 : State} (m : SpiMsg) {s : State} (hs : Keep T s0 s) :
    ∀ t, execFallbackSpiRetry m s = .next t → Keep T s0 t := by
  unfold execFallbackSpiRetry
  with_reducible apply keep_next
  with_reducible apply inStage_keep (hT.sub (by decide))
  · assumption
  · intro t0 h1
    split
    · with_reducible apply runImage_keep (hT.sub (by decide))
      with_reducible apply rereadPuf_keep (hT.sub (by decide))
      assumption
    · with_reducible apply setCode_keep (hT.sub (by decide))
      assumption

theorem execPairSyncIn_keep {T : List Part} (hT : Within [.regs, .dl, .pc] T) {s0 : State} (high : Bool) {s : State} (hs : Keep T s0 s) :
    ∀ t, execPairSyncIn high s = .next t → Keep T s0 t := by
  unfold execPairSyncIn
  with_reducible apply keep_next
  extract_lets +onlyGivenNames x0
  split
  · assumption
  · split
    · with_reducible apply syncEdge_keep (hT.sub (by decide))
      with_reducible apply filterTo_keep (hT.sub (by decide))
      assumption
    · extract_lets +onlyGivenNames x1
      have hx1 : Keep T s0 x1 := by
        unfold x1
        with_reducible apply filterTo_keep (hT.sub (by decide))
        assumption
      clear_value x1
      extract_lets +onlyGivenNames x2
      extract_lets +onlyGivenNames x3
      extract_lets +onlyGivenNames x4
      have hx4 : Keep T s0 x4 := by
        unfold x4
        with_reducible apply setCond_keep (hT.sub (by decide))
        assumption
      clear_value x4
      split
      · extract_lets +onlyGivenNames x5
        have hx5 : Keep T s0 x5 := by
          unfold x5
          with_reducible apply declare__keep (hT.sub (by decide))
          assumption
        clear_value x5
        with_reducible refine keep_mk hT ?_ rfl ?_
        · assumption
        · (intro p hp; cases p <;> first | rfl | (exfalso; apply hp; decide))
      · assumption

theorem execStuckTimeout_keep {T : List Part} (hT : Within [.regs, .pc] T) {s0 : State} (p : Pin) {s : State} (hs : Keep T s0 s) :
    ∀ t, execStuckTimeout p s = .next t → Keep T s0 t := by
  unfold execStuckTimeout
  with_reducible apply keep_next
  extract_lets +onlyGivenNames x0
  split
  · with_reducible apply declare__keep (hT.sub (by decide))
    assumption
  · assumption

theorem execSidebandWrite_keep {T : List Part} (hT : Within [.pc] T) {s0 : State} (m : SbWrite) {s : State} (hs : Keep T s0 s) :
    ∀ t, execSidebandWrite m s = .next t → Keep T s0 t := by
  unfold execSidebandWrite
  with_reducible apply keep_next
  split
  · split
    · with_reducible refine keep_pc (hT.sub (by decide)) ?_
      assumption
    · assumption
  · assumption

theorem execEntdaa_keep {T : List Part} (hT : Within [.pc] T) {s0 : State} (m : DaaMsg) {s : State} (hs : Keep T s0 s) :
    ∀ t, execEntdaa m s = .next t → Keep T s0 t := by
  unfold execEntdaa
  with_reducible apply keep_next
  split
  · assumption
  · extract_lets +onlyGivenNames x0
    have hx0 : Keep T s0 x0 := by
      unfold x0
      split
      · assumption
      · with_reducible apply emit_keep
        assumption
    clear_value x0
    with_reducible refine keep_pc (hT.sub (by decide)) ?_
    assumption

theorem execForceThrottleN_keep {T : List Part} (hT : Within [.regs, .pc] T) {s0 : State} (low : Bool) {s : State} (hs : Keep T s0 s) :
    ∀ t, execForceThrottleN low s = .next t → Keep T s0 t := by
  unfold execForceThrottleN
  with_reducible apply keep_next
  with_reducible apply filterTo_keep (hT.sub (by decide))
  assumption

theorem execReArm_keep {T : List Part} (hT : Within [.pc] T) {s0 : State} (p : Pin) {s : State} (hs : Keep T s0 s) :
    ∀ t, execReArm p s = .next t → Keep T s0 t := by
  unfold execReArm
  with_reducible apply keep_next
  extract_lets +onlyGivenNames x0
  split
  · assumption
  · split
    · with_reducible apply setCond_keep (hT.sub (by decide))
      assumption
    · split
      · assumption
      · with_reducible apply setCond_keep (hT.sub (by decide))
        assumption

theorem execMinimumGapEnd_keep {T : List Part} (hT : Within [.dl, .pc] T) {s0 : State} (p : Pin) {s : State} (hs : Keep T s0 s) :
    ∀ t, execMinimumGapEnd p s = .next t → Keep T s0 t := by
  unfold execMinimumGapEnd
  with_reducible apply keep_next
  split
  · with_reducible refine keep_pc (hT.sub (by decide)) ?_
    assumption
  · extract_lets +onlyGivenNames x0
    split
    · assumption
    · split
      · with_reducible apply setCond_keep (hT.sub (by decide))
        assumption
      · extract_lets +onlyGivenNames x1
        have hx1 : Keep T s0 x1 := by
          unfold x1
          with_reducible apply setCond_keep (hT.sub (by decide))
          assumption
        clear_value x1
        split
        · with_reducible apply syncEdge_keep (hT.sub (by decide))
          assumption
        · assumption

theorem execThermAlertN_keep {T : List Part} (hT : Within [.regs, .pc] T) {s0 : State} (low : Bool) {s : State} (hs : Keep T s0 s) :
    ∀ t, execThermAlertN low s = .next t → Keep T s0 t := by
  unfold execThermAlertN
  with_reducible apply keep_next
  with_reducible apply filterTo_keep (hT.sub (by decide))
  assumption

theorem execSbSclStuck_keep {T : List Part} (hT : Within [.regs, .pc] T) {s0 : State} {s : State} (hs : Keep T s0 s) :
    ∀ t, execSbSclStuck s = .next t → Keep T s0 t := by
  unfold execSbSclStuck
  with_reducible apply keep_next
  with_reducible apply cnt_keep (hT.sub (by decide))
  with_reducible refine keep_pc (hT.sub (by decide)) ?_
  assumption

theorem execSidebandRead_keep {T : List Part} (hT : Within [.pc] T) {s0 : State} (m : SbRead) {s : State} (hs : Keep T s0 s) :
    ∀ t, execSidebandRead m s = .next t → Keep T s0 t := by
  unfold execSidebandRead
  with_reducible apply keep_next
  split
  · extract_lets +onlyGivenNames x0
    have hx0 : Keep T s0 x0.2 := by
      unfold x0
      with_reducible apply sbBytes_keep (hT.sub (by decide))
      assumption
    clear_value x0
    with_reducible apply emit_keep
    assumption
  · assumption

theorem execBypass_keep {T : List Part} (hT : Within [.pc] T) {s0 : State} {s : State} (hs : Keep T s0 s) :
    ∀ t, execBypass s = .next t → Keep T s0 t := by
  unfold execBypass
  with_reducible apply keep_next
  with_reducible apply tapGo_keep (hT.sub (by decide))
  · assumption
  · intro t0 h1
    with_reducible apply driveTdo_keep (hT.sub (by decide))
    assumption

theorem execPcWorldMap_keep {T : List Part} (hT : Within [.regs, .ig] T) {s0 : State} (a : Acc) (v : Word) {s : State} (hs : Keep T s0 s) :
    ∀ t, execPcWorldMap a v s = .next t → Keep T s0 t := by
  unfold execPcWorldMap
  with_reducible apply keep_next
  with_reducible apply acc1_keep (hT.sub (by decide))
  · assumption
  · intro t0 h1
    with_reducible apply wrWorldMap_keep (hT.sub (by decide))
    assumption

theorem execSamplePreload_keep {T : List Part} (hT : Within [.pc] T) {s0 : State} (m : ScanMsg) {s : State} (hs : Keep T s0 s) :
    ∀ t, execSamplePreload m s = .next t → Keep T s0 t := by
  unfold execSamplePreload
  with_reducible apply keep_next
  with_reducible apply tapGo_keep (hT.sub (by decide))
  · assumption
  · intro t0 h1
    with_reducible apply driveTdo_keep (hT.sub (by decide))
    with_reducible refine keep_pc (hT.sub (by decide)) ?_
    assumption

theorem execAttest_keep {T : List Part} (hT : Within [.regs, .fe, .reqs, .graphs, .tables, .folds, .dl, .pc] T) {s0 : State} (n : Word) {s : State} (hs : Keep T s0 s) :
    ∀ t, execAttest n s = .next t → Keep T s0 t := by
  unfold execAttest
  with_reducible apply keep_next
  with_reducible apply own_keep (hT.sub (by decide))
  · intro t0 x1 h2
    extract_lets +onlyGivenNames x3
    split
    · with_reducible apply reject_keep (hT.sub (by decide))
      assumption
    · split
      · with_reducible apply reject_keep (hT.sub (by decide))
        assumption
      · split
        · with_reducible apply reject_keep (hT.sub (by decide))
          assumption
        · with_reducible apply fetchSrc_keep (hT.sub (by decide))
          with_reducible apply arrive_keep (hT.sub (by decide))
          assumption
  · intro t4 x5 h6
    split
    · assumption
    · split
      · with_reducible apply reject_keep (hT.sub (by decide))
        assumption
      · extract_lets +onlyGivenNames x7
        extract_lets +onlyGivenNames x8
        have hx8 : Keep T s0 x8.2 := by
          unfold x8
          with_reducible apply sign_keep (hT.sub (by decide))
          assumption
        clear_value x8
        with_reducible apply finish_keep (hT.sub (by decide))
        with_reducible apply sendDst_keep (hT.sub (by decide))
        assumption
  · assumption

theorem execTrstN_keep {T : List Part} (hT : Within [.pc] T) {s0 : State} (low : Bool) {s : State} (hs : Keep T s0 s) :
    ∀ t, execTrstN low s = .next t → Keep T s0 t := by
  unfold execTrstN
  with_reducible apply keep_next
  with_reducible refine keep_pc (hT.sub (by decide)) ?_
  assumption

theorem execPcDbgSubmit_keep {T : List Part} (hT : Within [.regs, .pc] T) {s0 : State} (a : Acc) (v : Word) {s : State} (hs : Keep T s0 s) :
    ∀ t, execPcDbgSubmit a v s = .next t → Keep T s0 t := by
  unfold execPcDbgSubmit
  with_reducible apply keep_next
  with_reducible apply acc1_keep (hT.sub (by decide))
  · assumption
  · intro t0 h1
    with_reducible apply wrDbgCtl_keep (hT.sub (by decide))
    assumption

theorem execIdcode_keep {T : List Part} (hT : Within [.pc] T) {s0 : State} {s : State} (hs : Keep T s0 s) :
    ∀ t, execIdcode s = .next t → Keep T s0 t := by
  unfold execIdcode
  with_reducible apply keep_next
  with_reducible apply tapGo_keep (hT.sub (by decide))
  · assumption
  · intro t0 h1
    with_reducible apply driveTdo_keep (hT.sub (by decide))
    assumption

theorem execPcOwnerKey_keep {T : List Part} (hT : Within [.regs, .ig] T) {s0 : State} (a : Acc) (k : Fin 8) (v : Word) {s : State} (hs : Keep T s0 s) :
    ∀ t, execPcOwnerKey a k v s = .next t → Keep T s0 t := by
  unfold execPcOwnerKey
  with_reducible apply keep_next
  with_reducible apply acc1_keep (hT.sub (by decide))
  · assumption
  · intro t0 h1
    with_reducible apply wrOwnerKey_keep (hT.sub (by decide))
    assumption

theorem execExtest_keep {T : List Part} (hT : Within [.pc] T) {s0 : State} {s : State} (hs : Keep T s0 s) :
    ∀ t, execExtest s = .next t → Keep T s0 t := by
  unfold execExtest
  with_reducible apply keep_next
  with_reducible apply tapGo_keep (hT.sub (by decide))
  · assumption
  · intro t0 h1
    extract_lets +onlyGivenNames x2
    have hx2 : Keep T s0 x2.2 := by
      unfold x2
      with_reducible apply draw_keep
      assumption
    clear_value x2
    with_reducible apply driveTdo_keep (hT.sub (by decide))
    assumption

theorem execTokenLoad_keep {T : List Part} (hT : Within [.regs, .pc] T) {s0 : State} (token : Bytes) {s : State} (hs : Keep T s0 s) :
    ∀ t, execTokenLoad token s = .next t → Keep T s0 t := by
  unfold execTokenLoad
  with_reducible apply keep_next
  with_reducible apply tapGo_keep (hT.sub (by decide))
  · assumption
  · intro t0 h1
    split
    · assumption
    · with_reducible apply submitToken_keep (hT.sub (by decide))
      with_reducible apply rsetBytes_keep (hT.sub (by decide))
      assumption

theorem execXlTblWin_keep {T : List Part} (hT : Within [.regs, .xl, .ig] T) {s0 : State} (a : Acc) (word : BitVec 10) (v : Word) {s : State} (hs : Keep T s0 s) :
    ∀ t, execXlTblWin a word v s = .next t → Keep T s0 t := by
  unfold execXlTblWin
  with_reducible apply keep_next
  with_reducible apply acc1_keep (hT.sub (by decide))
  · assumption
  · intro t0 h1
    with_reducible apply wrTblWin_keep (hT.sub (by decide))
    assumption

theorem execVeQsClear_keep {T : List Part} (hT : Within [.regs] T) {s0 : State} (a : Acc) (c : Core2) (v : Word) {s : State} (hs : Keep T s0 s) :
    ∀ t, execVeQsClear a c v s = .next t → Keep T s0 t := by
  unfold execVeQsClear
  with_reducible apply keep_next
  with_reducible apply acc1_keep (hT.sub (by decide))
  · assumption
  · intro t0 h1
    with_reducible apply wrQsCtl_keep (hT.sub (by decide))
    assumption

theorem execGxPolicyCtl_keep {T : List Part} (hT : Within [.regs] T) {s0 : State} (a : Acc) (f : Fin 8) (v : Word) {s : State} (hs : Keep T s0 s) :
    ∀ t, execGxPolicyCtl a f v s = .next t → Keep T s0 t := by
  unfold execGxPolicyCtl
  with_reducible apply keep_next
  with_reducible apply acc1_keep (hT.sub (by decide))
  · assumption
  · intro t0 h1
    with_reducible apply wrPolicyCtl_keep (hT.sub (by decide))
    assumption

theorem execGxPopThresh_keep {T : List Part} (hT : Within [.regs] T) {s0 : State} (a : Acc) (f : Fin 8) (v : Word) {s : State} (hs : Keep T s0 s) :
    ∀ t, execGxPopThresh a f v s = .next t → Keep T s0 t := by
  unfold execGxPopThresh
  with_reducible apply keep_next
  with_reducible apply acc1_keep (hT.sub (by decide))
  · assumption
  · intro t0 h1
    with_reducible apply wrPopThresh_keep (hT.sub (by decide))
    assumption

theorem execLowHalfRead_keep {T : List Part} (hT : Within [.regs, .latches, .ig] T) {s0 : State} (a : Acc) (addr : Word) {s : State} (hs : Keep T s0 s) :
    ∀ t, execLowHalfRead a addr s = .next t → Keep T s0 t := by
  unfold execLowHalfRead
  with_reducible apply keep_next
  with_reducible apply acc1_keep (hT.sub (by decide))
  · assumption
  · intro t0 h1
    extract_lets +onlyGivenNames x2
    have hx2 : Keep T s0 x2.2 := by
      unfold x2
      with_reducible apply regRead_keep (hT.sub (by decide))
      assumption
    clear_value x2
    with_reducible apply emit_keep
    assumption

theorem execXlFqCons_keep {T : List Part} (hT : Within [.regs, .ig] T) {s0 : State} (a : Acc) (v : Word) {s : State} (hs : Keep T s0 s) :
    ∀ t, execXlFqCons a v s = .next t → Keep T s0 t := by
  unfold execXlFqCons
  with_reducible apply keep_next
  with_reducible apply acc1_keep (hT.sub (by decide))
  · assumption
  · intro t0 h1
    with_reducible apply wrFqCons_keep (hT.sub (by decide))
    assumption

theorem execRuConvClear_keep {T : List Part} (hT : Within [.regs] T) {s0 : State} (a : Acc) (f : Fin 8) (v : Word) {s : State} (hs : Keep T s0 s) :
    ∀ t, execRuConvClear a f v s = .next t → Keep T s0 t := by
  unfold execRuConvClear
  with_reducible apply keep_next
  with_reducible apply acc1_keep (hT.sub (by decide))
  · assumption
  · intro t0 h1
    with_reducible apply wrConvCtl_keep (hT.sub (by decide))
    assumption

theorem execRegisterWrite_keep {T : List Part} (hT : Within [.regs, .sels, .latches, .fe, .reqs, .cores, .graphs, .checking, .tables, .folds, .np, .xl, .dl, .ig, .pc] T) {s0 : State} (a : Acc) (addr : Word) (v : Word) {s : State} (hs : Keep T s0 s) :
    ∀ t, execRegisterWrite a addr v s = .next t → Keep T s0 t := by
  unfold execRegisterWrite
  with_reducible apply keep_next
  with_reducible apply acc1_keep (hT.sub (by decide))
  · assumption
  · intro t0 h1
    with_reducible apply regWrite_keep (hT.sub (by decide))
    assumption

theorem execScratchWindowAccess_keep {T : List Part} (hT : Within [.regs, .cores, .ig] T) {s0 : State} (a : Acc) (c : Core2) (write : Bool) (off : BitVec 24) (v : Word) {s : State} (hs : Keep T s0 s) :
    ∀ t, execScratchWindowAccess a c write off v s = .next t → Keep T s0 t := by
  unfold execScratchWindowAccess
  with_reducible apply keep_next
  with_reducible apply acc1_keep (hT.sub (by decide))
  · assumption
  · intro t0 h1
    split
    · with_reducible apply viewWrite_keep (hT.sub (by decide))
      assumption
    · extract_lets +onlyGivenNames x2
      have hx2 : Keep T s0 x2.2 := by
        unfold x2
        with_reducible apply viewRead_keep (hT.sub (by decide))
        assumption
      clear_value x2
      with_reducible apply emit_keep
      assumption

theorem execConfigRdmaAccess_keep {T : List Part} (hT : Within [.regs, .sels, .latches, .fe, .reqs, .cores, .graphs, .checking, .tables, .folds, .np, .xl, .dl, .ig, .pc] T) {s0 : State} (mgmt : Bool) (rx : QpPkt 12) (write : Bool) (rkey : Word) (va : Dword) (len : Nat) (data : Bytes) {s : State} (hs : Keep T s0 s) :
    ∀ t, execConfigRdmaAccess mgmt rx write rkey va len data s = .next t → Keep T s0 t := by
  unfold execConfigRdmaAccess
  with_reducible apply keep_next
  extract_lets +onlyGivenNames x0
  extract_lets +onlyGivenNames x1
  split
  · assumption
  · split
    · with_reducible apply rxWrite_keep (hT.sub (by decide))
      · assumption
      · intro t2 h3
        extract_lets +onlyGivenNames x4
        split
        · with_reducible apply nakAccess_keep (hT.sub (by decide))
          assumption
        · extract_lets +onlyGivenNames x5
          have hx5 : Keep T s0 x5 := by
            unfold x5
            with_reducible apply rdmaWrite_keep (hT.sub (by decide))
            assumption
          clear_value x5
          split
          · with_reducible apply ackTo_keep (hT.sub (by decide))
            assumption
          · assumption
    · with_reducible apply rxRead_keep (hT.sub (by decide))
      · assumption
      · intro t6 h7
        extract_lets +onlyGivenNames x8
        split
        · with_reducible apply nakAccess_keep (hT.sub (by decide))
          assumption
        · extract_lets +onlyGivenNames x9
          have hx9 : Keep T s0 x9.2 := by
            unfold x9
            with_reducible apply rdmaRead_keep (hT.sub (by decide))
            assumption
          clear_value x9
          split
          · with_reducible apply respTo_keep (hT.sub (by decide))
            assumption
          · assumption

theorem execDebugAccess_keep {T : List Part} (hT : Within [.regs, .sels, .latches, .fe, .reqs, .cores, .graphs, .checking, .tables, .folds, .np, .xl, .dl, .ig, .pc] T) {s0 : State} (write : Bool) (addr : Word) (v : Word) {s : State} (hs : Keep T s0 s) :
    ∀ t, execDebugAccess write addr v s = .next t → Keep T s0 t := by
  unfold execDebugAccess
  with_reducible apply keep_next
  with_reducible apply tapGo_keep (hT.sub (by decide))
  · assumption
  · intro t0 h1
    extract_lets +onlyGivenNames x2
    with_reducible apply acc1_keep (hT.sub (by decide))
    · assumption
    · intro t3 h4
      split
      · with_reducible apply regWrite_keep (hT.sub (by decide))
        assumption
      · extract_lets +onlyGivenNames x5
        have hx5 : Keep T s0 x5.2 := by
          unfold x5
          with_reducible apply regRead_keep (hT.sub (by decide))
          assumption
        clear_value x5
        with_reducible apply driveTdo_keep (hT.sub (by decide))
        assumption

end Sys2Proof.Machine
end

