-- ==== Sys2Proof/Laws/State.lean ====
section
/-! SUPPORT. What each update of the state does to each of its fields, and what each reader of the state sees after
each update. All are true by the definitions; no later proof unfolds a record update. -/

namespace Sys2Proof.Machine

/-! ## Fields after an update -/

@[simp] theorem rset_pending (s : State) (a i v : Nat) : (rset s a i v).pending = s.pending := rfl
@[simp] theorem rset_regs (s : State) (a i v : Nat) :
    (rset s a i v).regs = mset (regReset a) s.regs (regKey a i) (BitVec.ofNat 32 v) := rfl
@[simp] theorem rset_sels (s : State) (a i v : Nat) : (rset s a i v).sels = s.sels := rfl
@[simp] theorem rset_latches (s : State) (a i v : Nat) : (rset s a i v).latches = s.latches := rfl
@[simp] theorem rset_fe (s : State) (a i v : Nat) : (rset s a i v).fe = s.fe := rfl
@[simp] theorem rset_reqs (s : State) (a i v : Nat) : (rset s a i v).reqs = s.reqs := rfl
@[simp] theorem rset_nextHandle (s : State) (a i v : Nat) : (rset s a i v).nextHandle = s.nextHandle := rfl
@[simp] theorem rset_lastCore (s : State) (a i v : Nat) : (rset s a i v).lastCore = s.lastCore := rfl
@[simp] theorem rset_nextOrder (s : State) (a i v : Nat) : (rset s a i v).nextOrder = s.nextOrder := rfl
@[simp] theorem rset_cores (s : State) (a i v : Nat) : (rset s a i v).cores = s.cores := rfl
@[simp] theorem rset_graphs (s : State) (a i v : Nat) : (rset s a i v).graphs = s.graphs := rfl
@[simp] theorem rset_checking (s : State) (a i v : Nat) : (rset s a i v).checking = s.checking := rfl
@[simp] theorem rset_tables (s : State) (a i v : Nat) : (rset s a i v).tables = s.tables := rfl
@[simp] theorem rset_folds (s : State) (a i v : Nat) : (rset s a i v).folds = s.folds := rfl
@[simp] theorem rset_np (s : State) (a i v : Nat) : (rset s a i v).np = s.np := rfl
@[simp] theorem rset_xl (s : State) (a i v : Nat) : (rset s a i v).xl = s.xl := rfl
@[simp] theorem rset_dl (s : State) (a i v : Nat) : (rset s a i v).dl = s.dl := rfl
@[simp] theorem rset_ig (s : State) (a i v : Nat) : (rset s a i v).ig = s.ig := rfl
@[simp] theorem rset_pc (s : State) (a i v : Nat) : (rset s a i v).pc = s.pc := rfl
@[simp] theorem rset_fab (s : State) (a i v : Nat) : (rset s a i v).fab = s.fab := rfl
@[simp] theorem rset_tx (s : State) (a i v : Nat) : (rset s a i v).tx = s.tx := rfl
@[simp] theorem rset_fresh (s : State) (a i v : Nat) : (rset s a i v).fresh = s.fresh := rfl

@[simp] theorem emit_pending (s : State) (t : Tx) : (emit s t).pending = s.pending := rfl
@[simp] theorem emit_regs (s : State) (t : Tx) : (emit s t).regs = s.regs := rfl
@[simp] theorem emit_sels (s : State) (t : Tx) : (emit s t).sels = s.sels := rfl
@[simp] theorem emit_latches (s : State) (t : Tx) : (emit s t).latches = s.latches := rfl
@[simp] theorem emit_fe (s : State) (t : Tx) : (emit s t).fe = s.fe := rfl
@[simp] theorem emit_reqs (s : State) (t : Tx) : (emit s t).reqs = s.reqs := rfl
@[simp] theorem emit_nextHandle (s : State) (t : Tx) : (emit s t).nextHandle = s.nextHandle := rfl
@[simp] theorem emit_lastCore (s : State) (t : Tx) : (emit s t).lastCore = s.lastCore := rfl
@[simp] theorem emit_nextOrder (s : State) (t : Tx) : (emit s t).nextOrder = s.nextOrder := rfl
@[simp] theorem emit_cores (s : State) (t : Tx) : (emit s t).cores = s.cores := rfl
@[simp] theorem emit_graphs (s : State) (t : Tx) : (emit s t).graphs = s.graphs := rfl
@[simp] theorem emit_checking (s : State) (t : Tx) : (emit s t).checking = s.checking := rfl
@[simp] theorem emit_tables (s : State) (t : Tx) : (emit s t).tables = s.tables := rfl
@[simp] theorem emit_folds (s : State) (t : Tx) : (emit s t).folds = s.folds := rfl
@[simp] theorem emit_np (s : State) (t : Tx) : (emit s t).np = s.np := rfl
@[simp] theorem emit_xl (s : State) (t : Tx) : (emit s t).xl = s.xl := rfl
@[simp] theorem emit_dl (s : State) (t : Tx) : (emit s t).dl = s.dl := rfl
@[simp] theorem emit_ig (s : State) (t : Tx) : (emit s t).ig = s.ig := rfl
@[simp] theorem emit_pc (s : State) (t : Tx) : (emit s t).pc = s.pc := rfl
@[simp] theorem emit_fab (s : State) (t : Tx) : (emit s t).fab = s.fab := rfl
@[simp] theorem emit_tx (s : State) (t : Tx) : (emit s t).tx = s.tx ++ [t] := rfl
@[simp] theorem emit_fresh (s : State) (t : Tx) : (emit s t).fresh = s.fresh := rfl

@[simp] theorem setFold_pending (s : State) (f : Nat) (x : Fold) : (setFold s f x).pending = s.pending := rfl
@[simp] theorem setFold_regs (s : State) (f : Nat) (x : Fold) : (setFold s f x).regs = s.regs := rfl
@[simp] theorem setFold_sels (s : State) (f : Nat) (x : Fold) : (setFold s f x).sels = s.sels := rfl
@[simp] theorem setFold_latches (s : State) (f : Nat) (x : Fold) : (setFold s f x).latches = s.latches := rfl
@[simp] theorem setFold_fe (s : State) (f : Nat) (x : Fold) : (setFold s f x).fe = s.fe := rfl
@[simp] theorem setFold_reqs (s : State) (f : Nat) (x : Fold) : (setFold s f x).reqs = s.reqs := rfl
@[simp] theorem setFold_nextHandle (s : State) (f : Nat) (x : Fold) : (setFold s f x).nextHandle = s.nextHandle := rfl
@[simp] theorem setFold_lastCore (s : State) (f : Nat) (x : Fold) : (setFold s f x).lastCore = s.lastCore := rfl
@[simp] theorem setFold_nextOrder (s : State) (f : Nat) (x : Fold) : (setFold s f x).nextOrder = s.nextOrder := rfl
@[simp] theorem setFold_cores (s : State) (f : Nat) (x : Fold) : (setFold s f x).cores = s.cores := rfl
@[simp] theorem setFold_graphs (s : State) (f : Nat) (x : Fold) : (setFold s f x).graphs = s.graphs := rfl
@[simp] theorem setFold_checking (s : State) (f : Nat) (x : Fold) : (setFold s f x).checking = s.checking := rfl
@[simp] theorem setFold_tables (s : State) (f : Nat) (x : Fold) : (setFold s f x).tables = s.tables := rfl
@[simp] theorem setFold_folds (s : State) (f : Nat) (x : Fold) : (setFold s f x).folds = mset {} s.folds f x := rfl
@[simp] theorem setFold_np (s : State) (f : Nat) (x : Fold) : (setFold s f x).np = s.np := rfl
@[simp] theorem setFold_xl (s : State) (f : Nat) (x : Fold) : (setFold s f x).xl = s.xl := rfl
@[simp] theorem setFold_dl (s : State) (f : Nat) (x : Fold) : (setFold s f x).dl = s.dl := rfl
@[simp] theorem setFold_ig (s : State) (f : Nat) (x : Fold) : (setFold s f x).ig = s.ig := rfl
@[simp] theorem setFold_pc (s : State) (f : Nat) (x : Fold) : (setFold s f x).pc = s.pc := rfl
@[simp] theorem setFold_fab (s : State) (f : Nat) (x : Fold) : (setFold s f x).fab = s.fab := rfl
@[simp] theorem setFold_tx (s : State) (f : Nat) (x : Fold) : (setFold s f x).tx = s.tx := rfl
@[simp] theorem setFold_fresh (s : State) (f : Nat) (x : Fold) : (setFold s f x).fresh = s.fresh := rfl

@[simp] theorem setCore_pending (s : State) (c : Nat) (x : Core) : (setCore s c x).pending = s.pending := rfl
@[simp] theorem setCore_regs (s : State) (c : Nat) (x : Core) : (setCore s c x).regs = s.regs := rfl
@[simp] theorem setCore_sels (s : State) (c : Nat) (x : Core) : (setCore s c x).sels = s.sels := rfl
@[simp] theorem setCore_latches (s : State) (c : Nat) (x : Core) : (setCore s c x).latches = s.latches := rfl
@[simp] theorem setCore_fe (s : State) (c : Nat) (x : Core) : (setCore s c x).fe = s.fe := rfl
@[simp] theorem setCore_reqs (s : State) (c : Nat) (x : Core) : (setCore s c x).reqs = s.reqs := rfl
@[simp] theorem setCore_nextHandle (s : State) (c : Nat) (x : Core) : (setCore s c x).nextHandle = s.nextHandle := rfl
@[simp] theorem setCore_lastCore (s : State) (c : Nat) (x : Core) : (setCore s c x).lastCore = s.lastCore := rfl
@[simp] theorem setCore_nextOrder (s : State) (c : Nat) (x : Core) : (setCore s c x).nextOrder = s.nextOrder := rfl
@[simp] theorem setCore_cores (s : State) (c : Nat) (x : Core) : (setCore s c x).cores = mset {} s.cores c x := rfl
@[simp] theorem setCore_graphs (s : State) (c : Nat) (x : Core) : (setCore s c x).graphs = s.graphs := rfl
@[simp] theorem setCore_checking (s : State) (c : Nat) (x : Core) : (setCore s c x).checking = s.checking := rfl
@[simp] theorem setCore_tables (s : State) (c : Nat) (x : Core) : (setCore s c x).tables = s.tables := rfl
@[simp] theorem setCore_folds (s : State) (c : Nat) (x : Core) : (setCore s c x).folds = s.folds := rfl
@[simp] theorem setCore_np (s : State) (c : Nat) (x : Core) : (setCore s c x).np = s.np := rfl
@[simp] theorem setCore_xl (s : State) (c : Nat) (x : Core) : (setCore s c x).xl = s.xl := rfl
@[simp] theorem setCore_dl (s : State) (c : Nat) (x : Core) : (setCore s c x).dl = s.dl := rfl
@[simp] theorem setCore_ig (s : State) (c : Nat) (x : Core) : (setCore s c x).ig = s.ig := rfl
@[simp] theorem setCore_pc (s : State) (c : Nat) (x : Core) : (setCore s c x).pc = s.pc := rfl
@[simp] theorem setCore_fab (s : State) (c : Nat) (x : Core) : (setCore s c x).fab = s.fab := rfl
@[simp] theorem setCore_tx (s : State) (c : Nat) (x : Core) : (setCore s c x).tx = s.tx := rfl
@[simp] theorem setCore_fresh (s : State) (c : Nat) (x : Core) : (setCore s c x).fresh = s.fresh := rfl

@[simp] theorem setQueue_pending (s : State) (q : Nat) (x : Queue) : (setQueue s q x).pending = s.pending := rfl
@[simp] theorem setQueue_regs (s : State) (q : Nat) (x : Queue) : (setQueue s q x).regs = s.regs := rfl
@[simp] theorem setQueue_sels (s : State) (q : Nat) (x : Queue) : (setQueue s q x).sels = s.sels := rfl
@[simp] theorem setQueue_latches (s : State) (q : Nat) (x : Queue) : (setQueue s q x).latches = s.latches := rfl
@[simp] theorem setQueue_fe (s : State) (q : Nat) (x : Queue) :
    (setQueue s q x).fe = { s.fe with queues := mset {} s.fe.queues q x } := rfl
@[simp] theorem setQueue_reqs (s : State) (q : Nat) (x : Queue) : (setQueue s q x).reqs = s.reqs := rfl
@[simp] theorem setQueue_nextHandle (s : State) (q : Nat) (x : Queue) : (setQueue s q x).nextHandle = s.nextHandle := rfl
@[simp] theorem setQueue_lastCore (s : State) (q : Nat) (x : Queue) : (setQueue s q x).lastCore = s.lastCore := rfl
@[simp] theorem setQueue_nextOrder (s : State) (q : Nat) (x : Queue) : (setQueue s q x).nextOrder = s.nextOrder := rfl
@[simp] theorem setQueue_cores (s : State) (q : Nat) (x : Queue) : (setQueue s q x).cores = s.cores := rfl
@[simp] theorem setQueue_graphs (s : State) (q : Nat) (x : Queue) : (setQueue s q x).graphs = s.graphs := rfl
@[simp] theorem setQueue_checking (s : State) (q : Nat) (x : Queue) : (setQueue s q x).checking = s.checking := rfl
@[simp] theorem setQueue_tables (s : State) (q : Nat) (x : Queue) : (setQueue s q x).tables = s.tables := rfl
@[simp] theorem setQueue_folds (s : State) (q : Nat) (x : Queue) : (setQueue s q x).folds = s.folds := rfl
@[simp] theorem setQueue_np (s : State) (q : Nat) (x : Queue) : (setQueue s q x).np = s.np := rfl
@[simp] theorem setQueue_xl (s : State) (q : Nat) (x : Queue) : (setQueue s q x).xl = s.xl := rfl
@[simp] theorem setQueue_dl (s : State) (q : Nat) (x : Queue) : (setQueue s q x).dl = s.dl := rfl
@[simp] theorem setQueue_ig (s : State) (q : Nat) (x : Queue) : (setQueue s q x).ig = s.ig := rfl
@[simp] theorem setQueue_pc (s : State) (q : Nat) (x : Queue) : (setQueue s q x).pc = s.pc := rfl
@[simp] theorem setQueue_fab (s : State) (q : Nat) (x : Queue) : (setQueue s q x).fab = s.fab := rfl
@[simp] theorem setQueue_tx (s : State) (q : Nat) (x : Queue) : (setQueue s q x).tx = s.tx := rfl
@[simp] theorem setQueue_fresh (s : State) (q : Nat) (x : Queue) : (setQueue s q x).fresh = s.fresh := rfl

@[simp] theorem setTable_pending (s : State) (i : Nat) (x : Table) : (setTable s i x).pending = s.pending := rfl
@[simp] theorem setTable_regs (s : State) (i : Nat) (x : Table) : (setTable s i x).regs = s.regs := rfl
@[simp] theorem setTable_sels (s : State) (i : Nat) (x : Table) : (setTable s i x).sels = s.sels := rfl
@[simp] theorem setTable_latches (s : State) (i : Nat) (x : Table) : (setTable s i x).latches = s.latches := rfl
@[simp] theorem setTable_fe (s : State) (i : Nat) (x : Table) : (setTable s i x).fe = s.fe := rfl
@[simp] theorem setTable_reqs (s : State) (i : Nat) (x : Table) : (setTable s i x).reqs = s.reqs := rfl
@[simp] theorem setTable_nextHandle (s : State) (i : Nat) (x : Table) : (setTable s i x).nextHandle = s.nextHandle := rfl
@[simp] theorem setTable_lastCore (s : State) (i : Nat) (x : Table) : (setTable s i x).lastCore = s.lastCore := rfl
@[simp] theorem setTable_nextOrder (s : State) (i : Nat) (x : Table) : (setTable s i x).nextOrder = s.nextOrder := rfl
@[simp] theorem setTable_cores (s : State) (i : Nat) (x : Table) : (setTable s i x).cores = s.cores := rfl
@[simp] theorem setTable_graphs (s : State) (i : Nat) (x : Table) : (setTable s i x).graphs = s.graphs := rfl
@[simp] theorem setTable_checking (s : State) (i : Nat) (x : Table) : (setTable s i x).checking = s.checking := rfl
@[simp] theorem setTable_tables (s : State) (i : Nat) (x : Table) : (setTable s i x).tables = mset {} s.tables i x := rfl
@[simp] theorem setTable_folds (s : State) (i : Nat) (x : Table) : (setTable s i x).folds = s.folds := rfl
@[simp] theorem setTable_np (s : State) (i : Nat) (x : Table) : (setTable s i x).np = s.np := rfl
@[simp] theorem setTable_xl (s : State) (i : Nat) (x : Table) : (setTable s i x).xl = s.xl := rfl
@[simp] theorem setTable_dl (s : State) (i : Nat) (x : Table) : (setTable s i x).dl = s.dl := rfl
@[simp] theorem setTable_ig (s : State) (i : Nat) (x : Table) : (setTable s i x).ig = s.ig := rfl
@[simp] theorem setTable_pc (s : State) (i : Nat) (x : Table) : (setTable s i x).pc = s.pc := rfl
@[simp] theorem setTable_fab (s : State) (i : Nat) (x : Table) : (setTable s i x).fab = s.fab := rfl
@[simp] theorem setTable_tx (s : State) (i : Nat) (x : Table) : (setTable s i x).tx = s.tx := rfl
@[simp] theorem setTable_fresh (s : State) (i : Nat) (x : Table) : (setTable s i x).fresh = s.fresh := rfl

@[simp] theorem setQp_pending (s : State) (i : Nat) (x : Qp) : (setQp s i x).pending = s.pending := rfl
@[simp] theorem setQp_regs (s : State) (i : Nat) (x : Qp) : (setQp s i x).regs = s.regs := rfl
@[simp] theorem setQp_sels (s : State) (i : Nat) (x : Qp) : (setQp s i x).sels = s.sels := rfl
@[simp] theorem setQp_latches (s : State) (i : Nat) (x : Qp) : (setQp s i x).latches = s.latches := rfl
@[simp] theorem setQp_fe (s : State) (i : Nat) (x : Qp) : (setQp s i x).fe = s.fe := rfl
@[simp] theorem setQp_reqs (s : State) (i : Nat) (x : Qp) : (setQp s i x).reqs = s.reqs := rfl
@[simp] theorem setQp_nextHandle (s : State) (i : Nat) (x : Qp) : (setQp s i x).nextHandle = s.nextHandle := rfl
@[simp] theorem setQp_lastCore (s : State) (i : Nat) (x : Qp) : (setQp s i x).lastCore = s.lastCore := rfl
@[simp] theorem setQp_nextOrder (s : State) (i : Nat) (x : Qp) : (setQp s i x).nextOrder = s.nextOrder := rfl
@[simp] theorem setQp_cores (s : State) (i : Nat) (x : Qp) : (setQp s i x).cores = s.cores := rfl
@[simp] theorem setQp_graphs (s : State) (i : Nat) (x : Qp) : (setQp s i x).graphs = s.graphs := rfl
@[simp] theorem setQp_checking (s : State) (i : Nat) (x : Qp) : (setQp s i x).checking = s.checking := rfl
@[simp] theorem setQp_tables (s : State) (i : Nat) (x : Qp) : (setQp s i x).tables = s.tables := rfl
@[simp] theorem setQp_folds (s : State) (i : Nat) (x : Qp) : (setQp s i x).folds = s.folds := rfl
@[simp] theorem setQp_np (s : State) (i : Nat) (x : Qp) :
    (setQp s i x).np = { s.np with qps := mset {} s.np.qps i x } := rfl
@[simp] theorem setQp_xl (s : State) (i : Nat) (x : Qp) : (setQp s i x).xl = s.xl := rfl
@[simp] theorem setQp_dl (s : State) (i : Nat) (x : Qp) : (setQp s i x).dl = s.dl := rfl
@[simp] theorem setQp_ig (s : State) (i : Nat) (x : Qp) : (setQp s i x).ig = s.ig := rfl
@[simp] theorem setQp_pc (s : State) (i : Nat) (x : Qp) : (setQp s i x).pc = s.pc := rfl
@[simp] theorem setQp_fab (s : State) (i : Nat) (x : Qp) : (setQp s i x).fab = s.fab := rfl
@[simp] theorem setQp_tx (s : State) (i : Nat) (x : Qp) : (setQp s i x).tx = s.tx := rfl
@[simp] theorem setQp_fresh (s : State) (i : Nat) (x : Qp) : (setQp s i x).fresh = s.fresh := rfl

@[simp] theorem setSession_pending (s : State) (i : Nat) (x : Session) : (setSession s i x).pending = s.pending := rfl
@[simp] theorem setSession_regs (s : State) (i : Nat) (x : Session) : (setSession s i x).regs = s.regs := rfl
@[simp] theorem setSession_sels (s : State) (i : Nat) (x : Session) : (setSession s i x).sels = s.sels := rfl
@[simp] theorem setSession_latches (s : State) (i : Nat) (x : Session) : (setSession s i x).latches = s.latches := rfl
@[simp] theorem setSession_fe (s : State) (i : Nat) (x : Session) : (setSession s i x).fe = s.fe := rfl
@[simp] theorem setSession_reqs (s : State) (i : Nat) (x : Session) : (setSession s i x).reqs = s.reqs := rfl
@[simp] theorem setSession_nextHandle (s : State) (i : Nat) (x : Session) :
    (setSession s i x).nextHandle = s.nextHandle := rfl
@[simp] theorem setSession_lastCore (s : State) (i : Nat) (x : Session) : (setSession s i x).lastCore = s.lastCore := rfl
@[simp] theorem setSession_nextOrder (s : State) (i : Nat) (x : Session) : (setSession s i x).nextOrder = s.nextOrder := rfl
@[simp] theorem setSession_cores (s : State) (i : Nat) (x : Session) : (setSession s i x).cores = s.cores := rfl
@[simp] theorem setSession_graphs (s : State) (i : Nat) (x : Session) : (setSession s i x).graphs = s.graphs := rfl
@[simp] theorem setSession_checking (s : State) (i : Nat) (x : Session) : (setSession s i x).checking = s.checking := rfl
@[simp] theorem setSession_tables (s : State) (i : Nat) (x : Session) : (setSession s i x).tables = s.tables := rfl
@[simp] theorem setSession_folds (s : State) (i : Nat) (x : Session) : (setSession s i x).folds = s.folds := rfl
@[simp] theorem setSession_np (s : State) (i : Nat) (x : Session) :
    (setSession s i x).np = { s.np with sessions := mset {} s.np.sessions i x } := rfl
@[simp] theorem setSession_xl (s : State) (i : Nat) (x : Session) : (setSession s i x).xl = s.xl := rfl
@[simp] theorem setSession_dl (s : State) (i : Nat) (x : Session) : (setSession s i x).dl = s.dl := rfl
@[simp] theorem setSession_ig (s : State) (i : Nat) (x : Session) : (setSession s i x).ig = s.ig := rfl
@[simp] theorem setSession_pc (s : State) (i : Nat) (x : Session) : (setSession s i x).pc = s.pc := rfl
@[simp] theorem setSession_fab (s : State) (i : Nat) (x : Session) : (setSession s i x).fab = s.fab := rfl
@[simp] theorem setSession_tx (s : State) (i : Nat) (x : Session) : (setSession s i x).tx = s.tx := rfl
@[simp] theorem setSession_fresh (s : State) (i : Nat) (x : Session) : (setSession s i x).fresh = s.fresh := rfl

@[simp] theorem setRegion_pending (s : State) (i : Nat) (x : Region) : (setRegion s i x).pending = s.pending := rfl
@[simp] theorem setRegion_regs (s : State) (i : Nat) (x : Region) : (setRegion s i x).regs = s.regs := rfl
@[simp] theorem setRegion_sels (s : State) (i : Nat) (x : Region) : (setRegion s i x).sels = s.sels := rfl
@[simp] theorem setRegion_latches (s : State) (i : Nat) (x : Region) : (setRegion s i x).latches = s.latches := rfl
@[simp] theorem setRegion_fe (s : State) (i : Nat) (x : Region) : (setRegion s i x).fe = s.fe := rfl
@[simp] theorem setRegion_reqs (s : State) (i : Nat) (x : Region) : (setRegion s i x).reqs = s.reqs := rfl
@[simp] theorem setRegion_nextHandle (s : State) (i : Nat) (x : Region) : (setRegion s i x).nextHandle = s.nextHandle := rfl
@[simp] theorem setRegion_lastCore (s : State) (i : Nat) (x : Region) : (setRegion s i x).lastCore = s.lastCore := rfl
@[simp] theorem setRegion_nextOrder (s : State) (i : Nat) (x : Region) : (setRegion s i x).nextOrder = s.nextOrder := rfl
@[simp] theorem setRegion_cores (s : State) (i : Nat) (x : Region) : (setRegion s i x).cores = s.cores := rfl
@[simp] theorem setRegion_graphs (s : State) (i : Nat) (x : Region) : (setRegion s i x).graphs = s.graphs := rfl
@[simp] theorem setRegion_checking (s : State) (i : Nat) (x : Region) : (setRegion s i x).checking = s.checking := rfl
@[simp] theorem setRegion_tables (s : State) (i : Nat) (x : Region) : (setRegion s i x).tables = s.tables := rfl
@[simp] theorem setRegion_folds (s : State) (i : Nat) (x : Region) : (setRegion s i x).folds = s.folds := rfl
@[simp] theorem setRegion_np (s : State) (i : Nat) (x : Region) : (setRegion s i x).np = s.np := rfl
@[simp] theorem setRegion_xl (s : State) (i : Nat) (x : Region) :
    (setRegion s i x).xl = { s.xl with regions := mset {} s.xl.regions i x } := rfl
@[simp] theorem setRegion_dl (s : State) (i : Nat) (x : Region) : (setRegion s i x).dl = s.dl := rfl
@[simp] theorem setRegion_ig (s : State) (i : Nat) (x : Region) : (setRegion s i x).ig = s.ig := rfl
@[simp] theorem setRegion_pc (s : State) (i : Nat) (x : Region) : (setRegion s i x).pc = s.pc := rfl
@[simp] theorem setRegion_fab (s : State) (i : Nat) (x : Region) : (setRegion s i x).fab = s.fab := rfl
@[simp] theorem setRegion_tx (s : State) (i : Nat) (x : Region) : (setRegion s i x).tx = s.tx := rfl
@[simp] theorem setRegion_fresh (s : State) (i : Nat) (x : Region) : (setRegion s i x).fresh = s.fresh := rfl

@[simp] theorem setLink_pending (s : State) (i : Nat) (x : Link) : (setLink s i x).pending = s.pending := rfl
@[simp] theorem setLink_regs (s : State) (i : Nat) (x : Link) : (setLink s i x).regs = s.regs := rfl
@[simp] theorem setLink_sels (s : State) (i : Nat) (x : Link) : (setLink s i x).sels = s.sels := rfl
@[simp] theorem setLink_latches (s : State) (i : Nat) (x : Link) : (setLink s i x).latches = s.latches := rfl
@[simp] theorem setLink_fe (s : State) (i : Nat) (x : Link) : (setLink s i x).fe = s.fe := rfl
@[simp] theorem setLink_reqs (s : State) (i : Nat) (x : Link) : (setLink s i x).reqs = s.reqs := rfl
@[simp] theorem setLink_nextHandle (s : State) (i : Nat) (x : Link) : (setLink s i x).nextHandle = s.nextHandle := rfl
@[simp] theorem setLink_lastCore (s : State) (i : Nat) (x : Link) : (setLink s i x).lastCore = s.lastCore := rfl
@[simp] theorem setLink_nextOrder (s : State) (i : Nat) (x : Link) : (setLink s i x).nextOrder = s.nextOrder := rfl
@[simp] theorem setLink_cores (s : State) (i : Nat) (x : Link) : (setLink s i x).cores = s.cores := rfl
@[simp] theorem setLink_graphs (s : State) (i : Nat) (x : Link) : (setLink s i x).graphs = s.graphs := rfl
@[simp] theorem setLink_checking (s : State) (i : Nat) (x : Link) : (setLink s i x).checking = s.checking := rfl
@[simp] theorem setLink_tables (s : State) (i : Nat) (x : Link) : (setLink s i x).tables = s.tables := rfl
@[simp] theorem setLink_folds (s : State) (i : Nat) (x : Link) : (setLink s i x).folds = s.folds := rfl
@[simp] theorem setLink_np (s : State) (i : Nat) (x : Link) : (setLink s i x).np = s.np := rfl
@[simp] theorem setLink_xl (s : State) (i : Nat) (x : Link) : (setLink s i x).xl = s.xl := rfl
@[simp] theorem setLink_dl (s : State) (i : Nat) (x : Link) :
    (setLink s i x).dl = { s.dl with links := mset {} s.dl.links i x } := rfl
@[simp] theorem setLink_ig (s : State) (i : Nat) (x : Link) : (setLink s i x).ig = s.ig := rfl
@[simp] theorem setLink_pc (s : State) (i : Nat) (x : Link) : (setLink s i x).pc = s.pc := rfl
@[simp] theorem setLink_fab (s : State) (i : Nat) (x : Link) : (setLink s i x).fab = s.fab := rfl
@[simp] theorem setLink_tx (s : State) (i : Nat) (x : Link) : (setLink s i x).tx = s.tx := rfl
@[simp] theorem setLink_fresh (s : State) (i : Nat) (x : Link) : (setLink s i x).fresh = s.fresh := rfl

@[simp] theorem setUnit_pending (s : State) (i : Nat) (x : Unit_) : (setUnit s i x).pending = s.pending := rfl
@[simp] theorem setUnit_regs (s : State) (i : Nat) (x : Unit_) : (setUnit s i x).regs = s.regs := rfl
@[simp] theorem setUnit_sels (s : State) (i : Nat) (x : Unit_) : (setUnit s i x).sels = s.sels := rfl
@[simp] theorem setUnit_latches (s : State) (i : Nat) (x : Unit_) : (setUnit s i x).latches = s.latches := rfl
@[simp] theorem setUnit_fe (s : State) (i : Nat) (x : Unit_) : (setUnit s i x).fe = s.fe := rfl
@[simp] theorem setUnit_reqs (s : State) (i : Nat) (x : Unit_) : (setUnit s i x).reqs = s.reqs := rfl
@[simp] theorem setUnit_nextHandle (s : State) (i : Nat) (x : Unit_) : (setUnit s i x).nextHandle = s.nextHandle := rfl
@[simp] theorem setUnit_lastCore (s : State) (i : Nat) (x : Unit_) : (setUnit s i x).lastCore = s.lastCore := rfl
@[simp] theorem setUnit_nextOrder (s : State) (i : Nat) (x : Unit_) : (setUnit s i x).nextOrder = s.nextOrder := rfl
@[simp] theorem setUnit_cores (s : State) (i : Nat) (x : Unit_) : (setUnit s i x).cores = s.cores := rfl
@[simp] theorem setUnit_graphs (s : State) (i : Nat) (x : Unit_) : (setUnit s i x).graphs = s.graphs := rfl
@[simp] theorem setUnit_checking (s : State) (i : Nat) (x : Unit_) : (setUnit s i x).checking = s.checking := rfl
@[simp] theorem setUnit_tables (s : State) (i : Nat) (x : Unit_) : (setUnit s i x).tables = s.tables := rfl
@[simp] theorem setUnit_folds (s : State) (i : Nat) (x : Unit_) : (setUnit s i x).folds = s.folds := rfl
@[simp] theorem setUnit_np (s : State) (i : Nat) (x : Unit_) : (setUnit s i x).np = s.np := rfl
@[simp] theorem setUnit_xl (s : State) (i : Nat) (x : Unit_) : (setUnit s i x).xl = s.xl := rfl
@[simp] theorem setUnit_dl (s : State) (i : Nat) (x : Unit_) : (setUnit s i x).dl = s.dl := rfl
@[simp] theorem setUnit_ig (s : State) (i : Nat) (x : Unit_) :
    (setUnit s i x).ig = { s.ig with units := mset {} s.ig.units i x } := rfl
@[simp] theorem setUnit_pc (s : State) (i : Nat) (x : Unit_) : (setUnit s i x).pc = s.pc := rfl
@[simp] theorem setUnit_fab (s : State) (i : Nat) (x : Unit_) : (setUnit s i x).fab = s.fab := rfl
@[simp] theorem setUnit_tx (s : State) (i : Nat) (x : Unit_) : (setUnit s i x).tx = s.tx := rfl
@[simp] theorem setUnit_fresh (s : State) (i : Nat) (x : Unit_) : (setUnit s i x).fresh = s.fresh := rfl

@[simp] theorem updCmd_pending (s : State) (q : Nat) (n : Word) (g : Cmd → Cmd) :
    (updCmd s q n g).pending = s.pending := rfl
@[simp] theorem updCmd_regs (s : State) (q : Nat) (n : Word) (g : Cmd → Cmd) : (updCmd s q n g).regs = s.regs := rfl
@[simp] theorem updCmd_sels (s : State) (q : Nat) (n : Word) (g : Cmd → Cmd) : (updCmd s q n g).sels = s.sels := rfl
@[simp] theorem updCmd_latches (s : State) (q : Nat) (n : Word) (g : Cmd → Cmd) :
    (updCmd s q n g).latches = s.latches := rfl
@[simp] theorem updCmd_fe (s : State) (q : Nat) (n : Word) (g : Cmd → Cmd) :
    (updCmd s q n g).fe = { s.fe with cmds := updFirst (fun c => c.q.toNat == q && c.n == n) g s.fe.cmds } := rfl
@[simp] theorem updCmd_reqs (s : State) (q : Nat) (n : Word) (g : Cmd → Cmd) : (updCmd s q n g).reqs = s.reqs := rfl
@[simp] theorem updCmd_nextHandle (s : State) (q : Nat) (n : Word) (g : Cmd → Cmd) :
    (updCmd s q n g).nextHandle = s.nextHandle := rfl
@[simp] theorem updCmd_lastCore (s : State) (q : Nat) (n : Word) (g : Cmd → Cmd) :
    (updCmd s q n g).lastCore = s.lastCore := rfl
@[simp] theorem updCmd_nextOrder (s : State) (q : Nat) (n : Word) (g : Cmd → Cmd) :
    (updCmd s q n g).nextOrder = s.nextOrder := rfl
@[simp] theorem updCmd_cores (s : State) (q : Nat) (n : Word) (g : Cmd → Cmd) : (updCmd s q n g).cores = s.cores := rfl
@[simp] theorem updCmd_graphs (s : State) (q : Nat) (n : Word) (g : Cmd → Cmd) : (updCmd s q n g).graphs = s.graphs := rfl
@[simp] theorem updCmd_checking (s : State) (q : Nat) (n : Word) (g : Cmd → Cmd) :
    (updCmd s q n g).checking = s.checking := rfl
@[simp] theorem updCmd_tables (s : State) (q : Nat) (n : Word) (g : Cmd → Cmd) : (updCmd s q n g).tables = s.tables := rfl
@[simp] theorem updCmd_folds (s : State) (q : Nat) (n : Word) (g : Cmd → Cmd) : (updCmd s q n g).folds = s.folds := rfl
@[simp] theorem updCmd_np (s : State) (q : Nat) (n : Word) (g : Cmd → Cmd) : (updCmd s q n g).np = s.np := rfl
@[simp] theorem updCmd_xl (s : State) (q : Nat) (n : Word) (g : Cmd → Cmd) : (updCmd s q n g).xl = s.xl := rfl
@[simp] theorem updCmd_dl (s : State) (q : Nat) (n : Word) (g : Cmd → Cmd) : (updCmd s q n g).dl = s.dl := rfl
@[simp] theorem updCmd_ig (s : State) (q : Nat) (n : Word) (g : Cmd → Cmd) : (updCmd s q n g).ig = s.ig := rfl
@[simp] theorem updCmd_pc (s : State) (q : Nat) (n : Word) (g : Cmd → Cmd) : (updCmd s q n g).pc = s.pc := rfl
@[simp] theorem updCmd_fab (s : State) (q : Nat) (n : Word) (g : Cmd → Cmd) : (updCmd s q n g).fab = s.fab := rfl
@[simp] theorem updCmd_tx (s : State) (q : Nat) (n : Word) (g : Cmd → Cmd) : (updCmd s q n g).tx = s.tx := rfl
@[simp] theorem updCmd_fresh (s : State) (q : Nat) (n : Word) (g : Cmd → Cmd) : (updCmd s q n g).fresh = s.fresh := rfl

@[simp] theorem dropCmd_pending (s : State) (q : Nat) (n : Word) : (dropCmd s q n).pending = s.pending := rfl
@[simp] theorem dropCmd_regs (s : State) (q : Nat) (n : Word) : (dropCmd s q n).regs = s.regs := rfl
@[simp] theorem dropCmd_sels (s : State) (q : Nat) (n : Word) : (dropCmd s q n).sels = s.sels := rfl
@[simp] theorem dropCmd_latches (s : State) (q : Nat) (n : Word) : (dropCmd s q n).latches = s.latches := rfl
@[simp] theorem dropCmd_fe (s : State) (q : Nat) (n : Word) :
    (dropCmd s q n).fe = { s.fe with cmds := s.fe.cmds.filter (fun c => !(c.q.toNat == q && c.n == n)) } := rfl
@[simp] theorem dropCmd_reqs (s : State) (q : Nat) (n : Word) : (dropCmd s q n).reqs = s.reqs := rfl
@[simp] theorem dropCmd_nextHandle (s : State) (q : Nat) (n : Word) : (dropCmd s q n).nextHandle = s.nextHandle := rfl
@[simp] theorem dropCmd_lastCore (s : State) (q : Nat) (n : Word) : (dropCmd s q n).lastCore = s.lastCore := rfl
@[simp] theorem dropCmd_nextOrder (s : State) (q : Nat) (n : Word) : (dropCmd s q n).nextOrder = s.nextOrder := rfl
@[simp] theorem dropCmd_cores (s : State) (q : Nat) (n : Word) : (dropCmd s q n).cores = s.cores := rfl
@[simp] theorem dropCmd_graphs (s : State) (q : Nat) (n : Word) : (dropCmd s q n).graphs = s.graphs := rfl
@[simp] theorem dropCmd_checking (s : State) (q : Nat) (n : Word) : (dropCmd s q n).checking = s.checking := rfl
@[simp] theorem dropCmd_tables (s : State) (q : Nat) (n : Word) : (dropCmd s q n).tables = s.tables := rfl
@[simp] theorem dropCmd_folds (s : State) (q : Nat) (n : Word) : (dropCmd s q n).folds = s.folds := rfl
@[simp] theorem dropCmd_np (s : State) (q : Nat) (n : Word) : (dropCmd s q n).np = s.np := rfl
@[simp] theorem dropCmd_xl (s : State) (q : Nat) (n : Word) : (dropCmd s q n).xl = s.xl := rfl
@[simp] theorem dropCmd_dl (s : State) (q : Nat) (n : Word) : (dropCmd s q n).dl = s.dl := rfl
@[simp] theorem dropCmd_ig (s : State) (q : Nat) (n : Word) : (dropCmd s q n).ig = s.ig := rfl
@[simp] theorem dropCmd_pc (s : State) (q : Nat) (n : Word) : (dropCmd s q n).pc = s.pc := rfl
@[simp] theorem dropCmd_fab (s : State) (q : Nat) (n : Word) : (dropCmd s q n).fab = s.fab := rfl
@[simp] theorem dropCmd_tx (s : State) (q : Nat) (n : Word) : (dropCmd s q n).tx = s.tx := rfl
@[simp] theorem dropCmd_fresh (s : State) (q : Nat) (n : Word) : (dropCmd s q n).fresh = s.fresh := rfl

@[simp] theorem updReq_pending (s : State) (h : Half) (g : Req → Req) : (updReq s h g).pending = s.pending := rfl
@[simp] theorem updReq_regs (s : State) (h : Half) (g : Req → Req) : (updReq s h g).regs = s.regs := rfl
@[simp] theorem updReq_sels (s : State) (h : Half) (g : Req → Req) : (updReq s h g).sels = s.sels := rfl
@[simp] theorem updReq_latches (s : State) (h : Half) (g : Req → Req) : (updReq s h g).latches = s.latches := rfl
@[simp] theorem updReq_fe (s : State) (h : Half) (g : Req → Req) : (updReq s h g).fe = s.fe := rfl
@[simp] theorem updReq_reqs (s : State) (h : Half) (g : Req → Req) :
    (updReq s h g).reqs = updFirst (fun r => r.handle == h) g s.reqs := rfl
@[simp] theorem updReq_nextHandle (s : State) (h : Half) (g : Req → Req) : (updReq s h g).nextHandle = s.nextHandle := rfl
@[simp] theorem updReq_lastCore (s : State) (h : Half) (g : Req → Req) : (updReq s h g).lastCore = s.lastCore := rfl
@[simp] theorem updReq_nextOrder (s : State) (h : Half) (g : Req → Req) : (updReq s h g).nextOrder = s.nextOrder := rfl
@[simp] theorem updReq_cores (s : State) (h : Half) (g : Req → Req) : (updReq s h g).cores = s.cores := rfl
@[simp] theorem updReq_graphs (s : State) (h : Half) (g : Req → Req) : (updReq s h g).graphs = s.graphs := rfl
@[simp] theorem updReq_checking (s : State) (h : Half) (g : Req → Req) : (updReq s h g).checking = s.checking := rfl
@[simp] theorem updReq_tables (s : State) (h : Half) (g : Req → Req) : (updReq s h g).tables = s.tables := rfl
@[simp] theorem updReq_folds (s : State) (h : Half) (g : Req → Req) : (updReq s h g).folds = s.folds := rfl
@[simp] theorem updReq_np (s : State) (h : Half) (g : Req → Req) : (updReq s h g).np = s.np := rfl
@[simp] theorem updReq_xl (s : State) (h : Half) (g : Req → Req) : (updReq s h g).xl = s.xl := rfl
@[simp] theorem updReq_dl (s : State) (h : Half) (g : Req → Req) : (updReq s h g).dl = s.dl := rfl
@[simp] theorem updReq_ig (s : State) (h : Half) (g : Req → Req) : (updReq s h g).ig = s.ig := rfl
@[simp] theorem updReq_pc (s : State) (h : Half) (g : Req → Req) : (updReq s h g).pc = s.pc := rfl
@[simp] theorem updReq_fab (s : State) (h : Half) (g : Req → Req) : (updReq s h g).fab = s.fab := rfl
@[simp] theorem updReq_tx (s : State) (h : Half) (g : Req → Req) : (updReq s h g).tx = s.tx := rfl
@[simp] theorem updReq_fresh (s : State) (h : Half) (g : Req → Req) : (updReq s h g).fresh = s.fresh := rfl

@[simp] theorem updXfer_pending (s : State) (x : Nat) (g : Xfer → Xfer) : (updXfer s x g).pending = s.pending := rfl
@[simp] theorem updXfer_regs (s : State) (x : Nat) (g : Xfer → Xfer) : (updXfer s x g).regs = s.regs := rfl
@[simp] theorem updXfer_sels (s : State) (x : Nat) (g : Xfer → Xfer) : (updXfer s x g).sels = s.sels := rfl
@[simp] theorem updXfer_latches (s : State) (x : Nat) (g : Xfer → Xfer) : (updXfer s x g).latches = s.latches := rfl
@[simp] theorem updXfer_fe (s : State) (x : Nat) (g : Xfer → Xfer) :
    (updXfer s x g).fe = { s.fe with xfers := updFirst (fun t => t.id == x) g s.fe.xfers } := rfl
@[simp] theorem updXfer_reqs (s : State) (x : Nat) (g : Xfer → Xfer) : (updXfer s x g).reqs = s.reqs := rfl
@[simp] theorem updXfer_nextHandle (s : State) (x : Nat) (g : Xfer → Xfer) :
    (updXfer s x g).nextHandle = s.nextHandle := rfl
@[simp] theorem updXfer_lastCore (s : State) (x : Nat) (g : Xfer → Xfer) : (updXfer s x g).lastCore = s.lastCore := rfl
@[simp] theorem updXfer_nextOrder (s : State) (x : Nat) (g : Xfer → Xfer) : (updXfer s x g).nextOrder = s.nextOrder := rfl
@[simp] theorem updXfer_cores (s : State) (x : Nat) (g : Xfer → Xfer) : (updXfer s x g).cores = s.cores := rfl
@[simp] theorem updXfer_graphs (s : State) (x : Nat) (g : Xfer → Xfer) : (updXfer s x g).graphs = s.graphs := rfl
@[simp] theorem updXfer_checking (s : State) (x : Nat) (g : Xfer → Xfer) : (updXfer s x g).checking = s.checking := rfl
@[simp] theorem updXfer_tables (s : State) (x : Nat) (g : Xfer → Xfer) : (updXfer s x g).tables = s.tables := rfl
@[simp] theorem updXfer_folds (s : State) (x : Nat) (g : Xfer → Xfer) : (updXfer s x g).folds = s.folds := rfl
@[simp] theorem updXfer_np (s : State) (x : Nat) (g : Xfer → Xfer) : (updXfer s x g).np = s.np := rfl
@[simp] theorem updXfer_xl (s : State) (x : Nat) (g : Xfer → Xfer) : (updXfer s x g).xl = s.xl := rfl
@[simp] theorem updXfer_dl (s : State) (x : Nat) (g : Xfer → Xfer) : (updXfer s x g).dl = s.dl := rfl
@[simp] theorem updXfer_ig (s : State) (x : Nat) (g : Xfer → Xfer) : (updXfer s x g).ig = s.ig := rfl
@[simp] theorem updXfer_pc (s : State) (x : Nat) (g : Xfer → Xfer) : (updXfer s x g).pc = s.pc := rfl
@[simp] theorem updXfer_fab (s : State) (x : Nat) (g : Xfer → Xfer) : (updXfer s x g).fab = s.fab := rfl
@[simp] theorem updXfer_tx (s : State) (x : Nat) (g : Xfer → Xfer) : (updXfer s x g).tx = s.tx := rfl
@[simp] theorem updXfer_fresh (s : State) (x : Nat) (g : Xfer → Xfer) : (updXfer s x g).fresh = s.fresh := rfl

@[simp] theorem dropXfer_pending (s : State) (x : Nat) : (dropXfer s x).pending = s.pending := rfl
@[simp] theorem dropXfer_regs (s : State) (x : Nat) : (dropXfer s x).regs = s.regs := rfl
@[simp] theorem dropXfer_sels (s : State) (x : Nat) : (dropXfer s x).sels = s.sels := rfl
@[simp] theorem dropXfer_latches (s : State) (x : Nat) : (dropXfer s x).latches = s.latches := rfl
@[simp] theorem dropXfer_fe (s : State) (x : Nat) :
    (dropXfer s x).fe = { s.fe with xfers := s.fe.xfers.filter (fun t => !(t.id == x)) } := rfl
@[simp] theorem dropXfer_reqs (s : State) (x : Nat) : (dropXfer s x).reqs = s.reqs := rfl
@[simp] theorem dropXfer_nextHandle (s : State) (x : Nat) : (dropXfer s x).nextHandle = s.nextHandle := rfl
@[simp] theorem dropXfer_lastCore (s : State) (x : Nat) : (dropXfer s x).lastCore = s.lastCore := rfl
@[simp] theorem dropXfer_nextOrder (s : State) (x : Nat) : (dropXfer s x).nextOrder = s.nextOrder := rfl
@[simp] theorem dropXfer_cores (s : State) (x : Nat) : (dropXfer s x).cores = s.cores := rfl
@[simp] theorem dropXfer_graphs (s : State) (x : Nat) : (dropXfer s x).graphs = s.graphs := rfl
@[simp] theorem dropXfer_checking (s : State) (x : Nat) : (dropXfer s x).checking = s.checking := rfl
@[simp] theorem dropXfer_tables (s : State) (x : Nat) : (dropXfer s x).tables = s.tables := rfl
@[simp] theorem dropXfer_folds (s : State) (x : Nat) : (dropXfer s x).folds = s.folds := rfl
@[simp] theorem dropXfer_np (s : State) (x : Nat) : (dropXfer s x).np = s.np := rfl
@[simp] theorem dropXfer_xl (s : State) (x : Nat) : (dropXfer s x).xl = s.xl := rfl
@[simp] theorem dropXfer_dl (s : State) (x : Nat) : (dropXfer s x).dl = s.dl := rfl
@[simp] theorem dropXfer_ig (s : State) (x : Nat) : (dropXfer s x).ig = s.ig := rfl
@[simp] theorem dropXfer_pc (s : State) (x : Nat) : (dropXfer s x).pc = s.pc := rfl
@[simp] theorem dropXfer_fab (s : State) (x : Nat) : (dropXfer s x).fab = s.fab := rfl
@[simp] theorem dropXfer_tx (s : State) (x : Nat) : (dropXfer s x).tx = s.tx := rfl
@[simp] theorem dropXfer_fresh (s : State) (x : Nat) : (dropXfer s x).fresh = s.fresh := rfl

@[simp] theorem setSel_pending (s : State) (w : Requester) (a v : Nat) : (setSel s w a v).pending = s.pending := rfl
@[simp] theorem setSel_regs (s : State) (w : Requester) (a v : Nat) : (setSel s w a v).regs = s.regs := rfl
@[simp] theorem setSel_sels (s : State) (w : Requester) (a v : Nat) :
    (setSel s w a v).sels = mset (regReset a) s.sels (whoKey w a) (BitVec.ofNat 32 v) := rfl
@[simp] theorem setSel_latches (s : State) (w : Requester) (a v : Nat) : (setSel s w a v).latches = s.latches := rfl
@[simp] theorem setSel_fe (s : State) (w : Requester) (a v : Nat) : (setSel s w a v).fe = s.fe := rfl
@[simp] theorem setSel_reqs (s : State) (w : Requester) (a v : Nat) : (setSel s w a v).reqs = s.reqs := rfl
@[simp] theorem setSel_nextHandle (s : State) (w : Requester) (a v : Nat) :
    (setSel s w a v).nextHandle = s.nextHandle := rfl
@[simp] theorem setSel_lastCore (s : State) (w : Requester) (a v : Nat) : (setSel s w a v).lastCore = s.lastCore := rfl
@[simp] theorem setSel_nextOrder (s : State) (w : Requester) (a v : Nat) : (setSel s w a v).nextOrder = s.nextOrder := rfl
@[simp] theorem setSel_cores (s : State) (w : Requester) (a v : Nat) : (setSel s w a v).cores = s.cores := rfl
@[simp] theorem setSel_graphs (s : State) (w : Requester) (a v : Nat) : (setSel s w a v).graphs = s.graphs := rfl
@[simp] theorem setSel_checking (s : State) (w : Requester) (a v : Nat) : (setSel s w a v).checking = s.checking := rfl
@[simp] theorem setSel_tables (s : State) (w : Requester) (a v : Nat) : (setSel s w a v).tables = s.tables := rfl
@[simp] theorem setSel_folds (s : State) (w : Requester) (a v : Nat) : (setSel s w a v).folds = s.folds := rfl
@[simp] theorem setSel_np (s : State) (w : Requester) (a v : Nat) : (setSel s w a v).np = s.np := rfl
@[simp] theorem setSel_xl (s : State) (w : Requester) (a v : Nat) : (setSel s w a v).xl = s.xl := rfl
@[simp] theorem setSel_dl (s : State) (w : Requester) (a v : Nat) : (setSel s w a v).dl = s.dl := rfl
@[simp] theorem setSel_ig (s : State) (w : Requester) (a v : Nat) : (setSel s w a v).ig = s.ig := rfl
@[simp] theorem setSel_pc (s : State) (w : Requester) (a v : Nat) : (setSel s w a v).pc = s.pc := rfl
@[simp] theorem setSel_fab (s : State) (w : Requester) (a v : Nat) : (setSel s w a v).fab = s.fab := rfl
@[simp] theorem setSel_tx (s : State) (w : Requester) (a v : Nat) : (setSel s w a v).tx = s.tx := rfl
@[simp] theorem setSel_fresh (s : State) (w : Requester) (a v : Nat) : (setSel s w a v).fresh = s.fresh := rfl

@[simp] theorem setLatch_pending (s : State) (w : Requester) (a : Nat) (v : Option Word) :
    (setLatch s w a v).pending = s.pending := rfl
@[simp] theorem setLatch_regs (s : State) (w : Requester) (a : Nat) (v : Option Word) :
    (setLatch s w a v).regs = s.regs := rfl
@[simp] theorem setLatch_sels (s : State) (w : Requester) (a : Nat) (v : Option Word) :
    (setLatch s w a v).sels = s.sels := rfl
@[simp] theorem setLatch_latches (s : State) (w : Requester) (a : Nat) (v : Option Word) :
    (setLatch s w a v).latches = mset none s.latches (whoKey w a) v := rfl
@[simp] theorem setLatch_fe (s : State) (w : Requester) (a : Nat) (v : Option Word) : (setLatch s w a v).fe = s.fe := rfl
@[simp] theorem setLatch_reqs (s : State) (w : Requester) (a : Nat) (v : Option Word) :
    (setLatch s w a v).reqs = s.reqs := rfl
@[simp] theorem setLatch_nextHandle (s : State) (w : Requester) (a : Nat) (v : Option Word) :
    (setLatch s w a v).nextHandle = s.nextHandle := rfl
@[simp] theorem setLatch_lastCore (s : State) (w : Requester) (a : Nat) (v : Option Word) :
    (setLatch s w a v).lastCore = s.lastCore := rfl
@[simp] theorem setLatch_nextOrder (s : State) (w : Requester) (a : Nat) (v : Option Word) :
    (setLatch s w a v).nextOrder = s.nextOrder := rfl
@[simp] theorem setLatch_cores (s : State) (w : Requester) (a : Nat) (v : Option Word) :
    (setLatch s w a v).cores = s.cores := rfl
@[simp] theorem setLatch_graphs (s : State) (w : Requester) (a : Nat) (v : Option Word) :
    (setLatch s w a v).graphs = s.graphs := rfl
@[simp] theorem setLatch_checking (s : State) (w : Requester) (a : Nat) (v : Option Word) :
    (setLatch s w a v).checking = s.checking := rfl
@[simp] theorem setLatch_tables (s : State) (w : Requester) (a : Nat) (v : Option Word) :
    (setLatch s w a v).tables = s.tables := rfl
@[simp] theorem setLatch_folds (s : State) (w : Requester) (a : Nat) (v : Option Word) :
    (setLatch s w a v).folds = s.folds := rfl
@[simp] theorem setLatch_np (s : State) (w : Requester) (a : Nat) (v : Option Word) : (setLatch s w a v).np = s.np := rfl
@[simp] theorem setLatch_xl (s : State) (w : Requester) (a : Nat) (v : Option Word) : (setLatch s w a v).xl = s.xl := rfl
@[simp] theorem setLatch_dl (s : State) (w : Requester) (a : Nat) (v : Option Word) : (setLatch s w a v).dl = s.dl := rfl
@[simp] theorem setLatch_ig (s : State) (w : Requester) (a : Nat) (v : Option Word) : (setLatch s w a v).ig = s.ig := rfl
@[simp] theorem setLatch_pc (s : State) (w : Requester) (a : Nat) (v : Option Word) : (setLatch s w a v).pc = s.pc := rfl
@[simp] theorem setLatch_fab (s : State) (w : Requester) (a : Nat) (v : Option Word) : (setLatch s w a v).fab = s.fab := rfl
@[simp] theorem setLatch_tx (s : State) (w : Requester) (a : Nat) (v : Option Word) : (setLatch s w a v).tx = s.tx := rfl
@[simp] theorem setLatch_fresh (s : State) (w : Requester) (a : Nat) (v : Option Word) :
    (setLatch s w a v).fresh = s.fresh := rfl

@[simp] theorem rsetF_pending (s : State) (a i hi lo v : Nat) : (rsetF s a i hi lo v).pending = s.pending := rfl
@[simp] theorem rsetF_sels (s : State) (a i hi lo v : Nat) : (rsetF s a i hi lo v).sels = s.sels := rfl
@[simp] theorem rsetF_latches (s : State) (a i hi lo v : Nat) : (rsetF s a i hi lo v).latches = s.latches := rfl
@[simp] theorem rsetF_fe (s : State) (a i hi lo v : Nat) : (rsetF s a i hi lo v).fe = s.fe := rfl
@[simp] theorem rsetF_reqs (s : State) (a i hi lo v : Nat) : (rsetF s a i hi lo v).reqs = s.reqs := rfl
@[simp] theorem rsetF_nextHandle (s : State) (a i hi lo v : Nat) : (rsetF s a i hi lo v).nextHandle = s.nextHandle := rfl
@[simp] theorem rsetF_lastCore (s : State) (a i hi lo v : Nat) : (rsetF s a i hi lo v).lastCore = s.lastCore := rfl
@[simp] theorem rsetF_nextOrder (s : State) (a i hi lo v : Nat) : (rsetF s a i hi lo v).nextOrder = s.nextOrder := rfl
@[simp] theorem rsetF_cores (s : State) (a i hi lo v : Nat) : (rsetF s a i hi lo v).cores = s.cores := rfl
@[simp] theorem rsetF_graphs (s : State) (a i hi lo v : Nat) : (rsetF s a i hi lo v).graphs = s.graphs := rfl
@[simp] theorem rsetF_checking (s : State) (a i hi lo v : Nat) : (rsetF s a i hi lo v).checking = s.checking := rfl
@[simp] theorem rsetF_tables (s : State) (a i hi lo v : Nat) : (rsetF s a i hi lo v).tables = s.tables := rfl
@[simp] theorem rsetF_folds (s : State) (a i hi lo v : Nat) : (rsetF s a i hi lo v).folds = s.folds := rfl
@[simp] theorem rsetF_np (s : State) (a i hi lo v : Nat) : (rsetF s a i hi lo v).np = s.np := rfl
@[simp] theorem rsetF_xl (s : State) (a i hi lo v : Nat) : (rsetF s a i hi lo v).xl = s.xl := rfl
@[simp] theorem rsetF_dl (s : State) (a i hi lo v : Nat) : (rsetF s a i hi lo v).dl = s.dl := rfl
@[simp] theorem rsetF_ig (s : State) (a i hi lo v : Nat) : (rsetF s a i hi lo v).ig = s.ig := rfl
@[simp] theorem rsetF_pc (s : State) (a i hi lo v : Nat) : (rsetF s a i hi lo v).pc = s.pc := rfl
@[simp] theorem rsetF_fab (s : State) (a i hi lo v : Nat) : (rsetF s a i hi lo v).fab = s.fab := rfl
@[simp] theorem rsetF_tx (s : State) (a i hi lo v : Nat) : (rsetF s a i hi lo v).tx = s.tx := rfl
@[simp] theorem rsetF_fresh (s : State) (a i hi lo v : Nat) : (rsetF s a i hi lo v).fresh = s.fresh := rfl

@[simp] theorem cntN_pending (s : State) (a i n : Nat) : (cntN s a i n).pending = s.pending := rfl
@[simp] theorem cntN_sels (s : State) (a i n : Nat) : (cntN s a i n).sels = s.sels := rfl
@[simp] theorem cntN_latches (s : State) (a i n : Nat) : (cntN s a i n).latches = s.latches := rfl
@[simp] theorem cntN_fe (s : State) (a i n : Nat) : (cntN s a i n).fe = s.fe := rfl
@[simp] theorem cntN_reqs (s : State) (a i n : Nat) : (cntN s a i n).reqs = s.reqs := rfl
@[simp] theorem cntN_nextHandle (s : State) (a i n : Nat) : (cntN s a i n).nextHandle = s.nextHandle := rfl
@[simp] theorem cntN_lastCore (s : State) (a i n : Nat) : (cntN s a i n).lastCore = s.lastCore := rfl
@[simp] theorem cntN_nextOrder (s : State) (a i n : Nat) : (cntN s a i n).nextOrder = s.nextOrder := rfl
@[simp] theorem cntN_cores (s : State) (a i n : Nat) : (cntN s a i n).cores = s.cores := rfl
@[simp] theorem cntN_graphs (s : State) (a i n : Nat) : (cntN s a i n).graphs = s.graphs := rfl
@[simp] theorem cntN_checking (s : State) (a i n : Nat) : (cntN s a i n).checking = s.checking := rfl
@[simp] theorem cntN_tables (s : State) (a i n : Nat) : (cntN s a i n).tables = s.tables := rfl
@[simp] theorem cntN_folds (s : State) (a i n : Nat) : (cntN s a i n).folds = s.folds := rfl
@[simp] theorem cntN_np (s : State) (a i n : Nat) : (cntN s a i n).np = s.np := rfl
@[simp] theorem cntN_xl (s : State) (a i n : Nat) : (cntN s a i n).xl = s.xl := rfl
@[simp] theorem cntN_dl (s : State) (a i n : Nat) : (cntN s a i n).dl = s.dl := rfl
@[simp] theorem cntN_ig (s : State) (a i n : Nat) : (cntN s a i n).ig = s.ig := rfl
@[simp] theorem cntN_pc (s : State) (a i n : Nat) : (cntN s a i n).pc = s.pc := rfl
@[simp] theorem cntN_fab (s : State) (a i n : Nat) : (cntN s a i n).fab = s.fab := rfl
@[simp] theorem cntN_tx (s : State) (a i n : Nat) : (cntN s a i n).tx = s.tx := rfl
@[simp] theorem cntN_fresh (s : State) (a i n : Nat) : (cntN s a i n).fresh = s.fresh := rfl

@[simp] theorem cnt_pending (s : State) (a i : Nat) : (cnt s a i).pending = s.pending := rfl
@[simp] theorem cnt_sels (s : State) (a i : Nat) : (cnt s a i).sels = s.sels := rfl
@[simp] theorem cnt_latches (s : State) (a i : Nat) : (cnt s a i).latches = s.latches := rfl
@[simp] theorem cnt_fe (s : State) (a i : Nat) : (cnt s a i).fe = s.fe := rfl
@[simp] theorem cnt_reqs (s : State) (a i : Nat) : (cnt s a i).reqs = s.reqs := rfl
@[simp] theorem cnt_nextHandle (s : State) (a i : Nat) : (cnt s a i).nextHandle = s.nextHandle := rfl
@[simp] theorem cnt_lastCore (s : State) (a i : Nat) : (cnt s a i).lastCore = s.lastCore := rfl
@[simp] theorem cnt_nextOrder (s : State) (a i : Nat) : (cnt s a i).nextOrder = s.nextOrder := rfl
@[simp] theorem cnt_cores (s : State) (a i : Nat) : (cnt s a i).cores = s.cores := rfl
@[simp] theorem cnt_graphs (s : State) (a i : Nat) : (cnt s a i).graphs = s.graphs := rfl
@[simp] theorem cnt_checking (s : State) (a i : Nat) : (cnt s a i).checking = s.checking := rfl
@[simp] theorem cnt_tables (s : State) (a i : Nat) : (cnt s a i).tables = s.tables := rfl
@[simp] theorem cnt_folds (s : State) (a i : Nat) : (cnt s a i).folds = s.folds := rfl
@[simp] theorem cnt_np (s : State) (a i : Nat) : (cnt s a i).np = s.np := rfl
@[simp] theorem cnt_xl (s : State) (a i : Nat) : (cnt s a i).xl = s.xl := rfl
@[simp] theorem cnt_dl (s : State) (a i : Nat) : (cnt s a i).dl = s.dl := rfl
@[simp] theorem cnt_ig (s : State) (a i : Nat) : (cnt s a i).ig = s.ig := rfl
@[simp] theorem cnt_pc (s : State) (a i : Nat) : (cnt s a i).pc = s.pc := rfl
@[simp] theorem cnt_fab (s : State) (a i : Nat) : (cnt s a i).fab = s.fab := rfl
@[simp] theorem cnt_tx (s : State) (a i : Nat) : (cnt s a i).tx = s.tx := rfl
@[simp] theorem cnt_fresh (s : State) (a i : Nat) : (cnt s a i).fresh = s.fresh := rfl

@[simp] theorem rset64_pending (s : State) (a i v : Nat) : (rset64 s a i v).pending = s.pending := rfl
@[simp] theorem rset64_sels (s : State) (a i v : Nat) : (rset64 s a i v).sels = s.sels := rfl
@[simp] theorem rset64_latches (s : State) (a i v : Nat) : (rset64 s a i v).latches = s.latches := rfl
@[simp] theorem rset64_fe (s : State) (a i v : Nat) : (rset64 s a i v).fe = s.fe := rfl
@[simp] theorem rset64_reqs (s : State) (a i v : Nat) : (rset64 s a i v).reqs = s.reqs := rfl
@[simp] theorem rset64_nextHandle (s : State) (a i v : Nat) : (rset64 s a i v).nextHandle = s.nextHandle := rfl
@[simp] theorem rset64_lastCore (s : State) (a i v : Nat) : (rset64 s a i v).lastCore = s.lastCore := rfl
@[simp] theorem rset64_nextOrder (s : State) (a i v : Nat) : (rset64 s a i v).nextOrder = s.nextOrder := rfl
@[simp] theorem rset64_cores (s : State) (a i v : Nat) : (rset64 s a i v).cores = s.cores := rfl
@[simp] theorem rset64_graphs (s : State) (a i v : Nat) : (rset64 s a i v).graphs = s.graphs := rfl
@[simp] theorem rset64_checking (s : State) (a i v : Nat) : (rset64 s a i v).checking = s.checking := rfl
@[simp] theorem rset64_tables (s : State) (a i v : Nat) : (rset64 s a i v).tables = s.tables := rfl
@[simp] theorem rset64_folds (s : State) (a i v : Nat) : (rset64 s a i v).folds = s.folds := rfl
@[simp] theorem rset64_np (s : State) (a i v : Nat) : (rset64 s a i v).np = s.np := rfl
@[simp] theorem rset64_xl (s : State) (a i v : Nat) : (rset64 s a i v).xl = s.xl := rfl
@[simp] theorem rset64_dl (s : State) (a i v : Nat) : (rset64 s a i v).dl = s.dl := rfl
@[simp] theorem rset64_ig (s : State) (a i v : Nat) : (rset64 s a i v).ig = s.ig := rfl
@[simp] theorem rset64_pc (s : State) (a i v : Nat) : (rset64 s a i v).pc = s.pc := rfl
@[simp] theorem rset64_fab (s : State) (a i v : Nat) : (rset64 s a i v).fab = s.fab := rfl
@[simp] theorem rset64_tx (s : State) (a i v : Nat) : (rset64 s a i v).tx = s.tx := rfl
@[simp] theorem rset64_fresh (s : State) (a i v : Nat) : (rset64 s a i v).fresh = s.fresh := rfl

@[simp] theorem draw_pending (s : State) : (draw s).2.pending = s.pending := rfl
@[simp] theorem draw_regs (s : State) : (draw s).2.regs = s.regs := rfl
@[simp] theorem draw_sels (s : State) : (draw s).2.sels = s.sels := rfl
@[simp] theorem draw_latches (s : State) : (draw s).2.latches = s.latches := rfl
@[simp] theorem draw_fe (s : State) : (draw s).2.fe = s.fe := rfl
@[simp] theorem draw_reqs (s : State) : (draw s).2.reqs = s.reqs := rfl
@[simp] theorem draw_nextHandle (s : State) : (draw s).2.nextHandle = s.nextHandle := rfl
@[simp] theorem draw_lastCore (s : State) : (draw s).2.lastCore = s.lastCore := rfl
@[simp] theorem draw_nextOrder (s : State) : (draw s).2.nextOrder = s.nextOrder := rfl
@[simp] theorem draw_cores (s : State) : (draw s).2.cores = s.cores := rfl
@[simp] theorem draw_graphs (s : State) : (draw s).2.graphs = s.graphs := rfl
@[simp] theorem draw_checking (s : State) : (draw s).2.checking = s.checking := rfl
@[simp] theorem draw_tables (s : State) : (draw s).2.tables = s.tables := rfl
@[simp] theorem draw_folds (s : State) : (draw s).2.folds = s.folds := rfl
@[simp] theorem draw_np (s : State) : (draw s).2.np = s.np := rfl
@[simp] theorem draw_xl (s : State) : (draw s).2.xl = s.xl := rfl
@[simp] theorem draw_dl (s : State) : (draw s).2.dl = s.dl := rfl
@[simp] theorem draw_ig (s : State) : (draw s).2.ig = s.ig := rfl
@[simp] theorem draw_pc (s : State) : (draw s).2.pc = s.pc := rfl
@[simp] theorem draw_fab (s : State) : (draw s).2.fab = s.fab := rfl
@[simp] theorem draw_tx (s : State) : (draw s).2.tx = s.tx := rfl

@[simp] theorem updFold_pending (s : State) (f : Nat) (g : Fold → Fold) : (updFold s f g).pending = s.pending := rfl
@[simp] theorem updFold_regs (s : State) (f : Nat) (g : Fold → Fold) : (updFold s f g).regs = s.regs := rfl
@[simp] theorem updFold_sels (s : State) (f : Nat) (g : Fold → Fold) : (updFold s f g).sels = s.sels := rfl
@[simp] theorem updFold_latches (s : State) (f : Nat) (g : Fold → Fold) : (updFold s f g).latches = s.latches := rfl
@[simp] theorem updFold_fe (s : State) (f : Nat) (g : Fold → Fold) : (updFold s f g).fe = s.fe := rfl
@[simp] theorem updFold_reqs (s : State) (f : Nat) (g : Fold → Fold) : (updFold s f g).reqs = s.reqs := rfl
@[simp] theorem updFold_nextHandle (s : State) (f : Nat) (g : Fold → Fold) :
    (updFold s f g).nextHandle = s.nextHandle := rfl
@[simp] theorem updFold_lastCore (s : State) (f : Nat) (g : Fold → Fold) : (updFold s f g).lastCore = s.lastCore := rfl
@[simp] theorem updFold_nextOrder (s : State) (f : Nat) (g : Fold → Fold) : (updFold s f g).nextOrder = s.nextOrder := rfl
@[simp] theorem updFold_cores (s : State) (f : Nat) (g : Fold → Fold) : (updFold s f g).cores = s.cores := rfl
@[simp] theorem updFold_graphs (s : State) (f : Nat) (g : Fold → Fold) : (updFold s f g).graphs = s.graphs := rfl
@[simp] theorem updFold_checking (s : State) (f : Nat) (g : Fold → Fold) : (updFold s f g).checking = s.checking := rfl
@[simp] theorem updFold_tables (s : State) (f : Nat) (g : Fold → Fold) : (updFold s f g).tables = s.tables := rfl
@[simp] theorem updFold_np (s : State) (f : Nat) (g : Fold → Fold) : (updFold s f g).np = s.np := rfl
@[simp] theorem updFold_xl (s : State) (f : Nat) (g : Fold → Fold) : (updFold s f g).xl = s.xl := rfl
@[simp] theorem updFold_dl (s : State) (f : Nat) (g : Fold → Fold) : (updFold s f g).dl = s.dl := rfl
@[simp] theorem updFold_ig (s : State) (f : Nat) (g : Fold → Fold) : (updFold s f g).ig = s.ig := rfl
@[simp] theorem updFold_pc (s : State) (f : Nat) (g : Fold → Fold) : (updFold s f g).pc = s.pc := rfl
@[simp] theorem updFold_fab (s : State) (f : Nat) (g : Fold → Fold) : (updFold s f g).fab = s.fab := rfl
@[simp] theorem updFold_tx (s : State) (f : Nat) (g : Fold → Fold) : (updFold s f g).tx = s.tx := rfl
@[simp] theorem updFold_fresh (s : State) (f : Nat) (g : Fold → Fold) : (updFold s f g).fresh = s.fresh := rfl

@[simp] theorem updCore_pending (s : State) (c : Nat) (g : Core → Core) : (updCore s c g).pending = s.pending := rfl
@[simp] theorem updCore_regs (s : State) (c : Nat) (g : Core → Core) : (updCore s c g).regs = s.regs := rfl
@[simp] theorem updCore_sels (s : State) (c : Nat) (g : Core → Core) : (updCore s c g).sels = s.sels := rfl
@[simp] theorem updCore_latches (s : State) (c : Nat) (g : Core → Core) : (updCore s c g).latches = s.latches := rfl
@[simp] theorem updCore_fe (s : State) (c : Nat) (g : Core → Core) : (updCore s c g).fe = s.fe := rfl
@[simp] theorem updCore_reqs (s : State) (c : Nat) (g : Core → Core) : (updCore s c g).reqs = s.reqs := rfl
@[simp] theorem updCore_nextHandle (s : State) (c : Nat) (g : Core → Core) :
    (updCore s c g).nextHandle = s.nextHandle := rfl
@[simp] theorem updCore_lastCore (s : State) (c : Nat) (g : Core → Core) : (updCore s c g).lastCore = s.lastCore := rfl
@[simp] theorem updCore_nextOrder (s : State) (c : Nat) (g : Core → Core) : (updCore s c g).nextOrder = s.nextOrder := rfl
@[simp] theorem updCore_graphs (s : State) (c : Nat) (g : Core → Core) : (updCore s c g).graphs = s.graphs := rfl
@[simp] theorem updCore_checking (s : State) (c : Nat) (g : Core → Core) : (updCore s c g).checking = s.checking := rfl
@[simp] theorem updCore_tables (s : State) (c : Nat) (g : Core → Core) : (updCore s c g).tables = s.tables := rfl
@[simp] theorem updCore_folds (s : State) (c : Nat) (g : Core → Core) : (updCore s c g).folds = s.folds := rfl
@[simp] theorem updCore_np (s : State) (c : Nat) (g : Core → Core) : (updCore s c g).np = s.np := rfl
@[simp] theorem updCore_xl (s : State) (c : Nat) (g : Core → Core) : (updCore s c g).xl = s.xl := rfl
@[simp] theorem updCore_dl (s : State) (c : Nat) (g : Core → Core) : (updCore s c g).dl = s.dl := rfl
@[simp] theorem updCore_ig (s : State) (c : Nat) (g : Core → Core) : (updCore s c g).ig = s.ig := rfl
@[simp] theorem updCore_pc (s : State) (c : Nat) (g : Core → Core) : (updCore s c g).pc = s.pc := rfl
@[simp] theorem updCore_fab (s : State) (c : Nat) (g : Core → Core) : (updCore s c g).fab = s.fab := rfl
@[simp] theorem updCore_tx (s : State) (c : Nat) (g : Core → Core) : (updCore s c g).tx = s.tx := rfl
@[simp] theorem updCore_fresh (s : State) (c : Nat) (g : Core → Core) : (updCore s c g).fresh = s.fresh := rfl

@[simp] theorem updQueue_pending (s : State) (q : Nat) (g : Queue → Queue) : (updQueue s q g).pending = s.pending := rfl
@[simp] theorem updQueue_regs (s : State) (q : Nat) (g : Queue → Queue) : (updQueue s q g).regs = s.regs := rfl
@[simp] theorem updQueue_sels (s : State) (q : Nat) (g : Queue → Queue) : (updQueue s q g).sels = s.sels := rfl
@[simp] theorem updQueue_latches (s : State) (q : Nat) (g : Queue → Queue) : (updQueue s q g).latches = s.latches := rfl
@[simp] theorem updQueue_reqs (s : State) (q : Nat) (g : Queue → Queue) : (updQueue s q g).reqs = s.reqs := rfl
@[simp] theorem updQueue_nextHandle (s : State) (q : Nat) (g : Queue → Queue) :
    (updQueue s q g).nextHandle = s.nextHandle := rfl
@[simp] theorem updQueue_lastCore (s : State) (q : Nat) (g : Queue → Queue) : (updQueue s q g).lastCore = s.lastCore := rfl
@[simp] theorem updQueue_nextOrder (s : State) (q : Nat) (g : Queue → Queue) :
    (updQueue s q g).nextOrder = s.nextOrder := rfl
@[simp] theorem updQueue_cores (s : State) (q : Nat) (g : Queue → Queue) : (updQueue s q g).cores = s.cores := rfl
@[simp] theorem updQueue_graphs (s : State) (q : Nat) (g : Queue → Queue) : (updQueue s q g).graphs = s.graphs := rfl
@[simp] theorem updQueue_checking (s : State) (q : Nat) (g : Queue → Queue) : (updQueue s q g).checking = s.checking := rfl
@[simp] theorem updQueue_tables (s : State) (q : Nat) (g : Queue → Queue) : (updQueue s q g).tables = s.tables := rfl
@[simp] theorem updQueue_folds (s : State) (q : Nat) (g : Queue → Queue) : (updQueue s q g).folds = s.folds := rfl
@[simp] theorem updQueue_np (s : State) (q : Nat) (g : Queue → Queue) : (updQueue s q g).np = s.np := rfl
@[simp] theorem updQueue_xl (s : State) (q : Nat) (g : Queue → Queue) : (updQueue s q g).xl = s.xl := rfl
@[simp] theorem updQueue_dl (s : State) (q : Nat) (g : Queue → Queue) : (updQueue s q g).dl = s.dl := rfl
@[simp] theorem updQueue_ig (s : State) (q : Nat) (g : Queue → Queue) : (updQueue s q g).ig = s.ig := rfl
@[simp] theorem updQueue_pc (s : State) (q : Nat) (g : Queue → Queue) : (updQueue s q g).pc = s.pc := rfl
@[simp] theorem updQueue_fab (s : State) (q : Nat) (g : Queue → Queue) : (updQueue s q g).fab = s.fab := rfl
@[simp] theorem updQueue_tx (s : State) (q : Nat) (g : Queue → Queue) : (updQueue s q g).tx = s.tx := rfl
@[simp] theorem updQueue_fresh (s : State) (q : Nat) (g : Queue → Queue) : (updQueue s q g).fresh = s.fresh := rfl

@[simp] theorem updTable_pending (s : State) (i : Nat) (g : Table → Table) : (updTable s i g).pending = s.pending := rfl
@[simp] theorem updTable_regs (s : State) (i : Nat) (g : Table → Table) : (updTable s i g).regs = s.regs := rfl
@[simp] theorem updTable_sels (s : State) (i : Nat) (g : Table → Table) : (updTable s i g).sels = s.sels := rfl
@[simp] theorem updTable_latches (s : State) (i : Nat) (g : Table → Table) : (updTable s i g).latches = s.latches := rfl
@[simp] theorem updTable_fe (s : State) (i : Nat) (g : Table → Table) : (updTable s i g).fe = s.fe := rfl
@[simp] theorem updTable_reqs (s : State) (i : Nat) (g : Table → Table) : (updTable s i g).reqs = s.reqs := rfl
@[simp] theorem updTable_nextHandle (s : State) (i : Nat) (g : Table → Table) :
    (updTable s i g).nextHandle = s.nextHandle := rfl
@[simp] theorem updTable_lastCore (s : State) (i : Nat) (g : Table → Table) : (updTable s i g).lastCore = s.lastCore := rfl
@[simp] theorem updTable_nextOrder (s : State) (i : Nat) (g : Table → Table) :
    (updTable s i g).nextOrder = s.nextOrder := rfl
@[simp] theorem updTable_cores (s : State) (i : Nat) (g : Table → Table) : (updTable s i g).cores = s.cores := rfl
@[simp] theorem updTable_graphs (s : State) (i : Nat) (g : Table → Table) : (updTable s i g).graphs = s.graphs := rfl
@[simp] theorem updTable_checking (s : State) (i : Nat) (g : Table → Table) : (updTable s i g).checking = s.checking := rfl
@[simp] theorem updTable_folds (s : State) (i : Nat) (g : Table → Table) : (updTable s i g).folds = s.folds := rfl
@[simp] theorem updTable_np (s : State) (i : Nat) (g : Table → Table) : (updTable s i g).np = s.np := rfl
@[simp] theorem updTable_xl (s : State) (i : Nat) (g : Table → Table) : (updTable s i g).xl = s.xl := rfl
@[simp] theorem updTable_dl (s : State) (i : Nat) (g : Table → Table) : (updTable s i g).dl = s.dl := rfl
@[simp] theorem updTable_ig (s : State) (i : Nat) (g : Table → Table) : (updTable s i g).ig = s.ig := rfl
@[simp] theorem updTable_pc (s : State) (i : Nat) (g : Table → Table) : (updTable s i g).pc = s.pc := rfl
@[simp] theorem updTable_fab (s : State) (i : Nat) (g : Table → Table) : (updTable s i g).fab = s.fab := rfl
@[simp] theorem updTable_tx (s : State) (i : Nat) (g : Table → Table) : (updTable s i g).tx = s.tx := rfl
@[simp] theorem updTable_fresh (s : State) (i : Nat) (g : Table → Table) : (updTable s i g).fresh = s.fresh := rfl

@[simp] theorem updQp_pending (s : State) (i : Nat) (g : Qp → Qp) : (updQp s i g).pending = s.pending := rfl
@[simp] theorem updQp_regs (s : State) (i : Nat) (g : Qp → Qp) : (updQp s i g).regs = s.regs := rfl
@[simp] theorem updQp_sels (s : State) (i : Nat) (g : Qp → Qp) : (updQp s i g).sels = s.sels := rfl
@[simp] theorem updQp_latches (s : State) (i : Nat) (g : Qp → Qp) : (updQp s i g).latches = s.latches := rfl
@[simp] theorem updQp_fe (s : State) (i : Nat) (g : Qp → Qp) : (updQp s i g).fe = s.fe := rfl
@[simp] theorem updQp_reqs (s : State) (i : Nat) (g : Qp → Qp) : (updQp s i g).reqs = s.reqs := rfl
@[simp] theorem updQp_nextHandle (s : State) (i : Nat) (g : Qp → Qp) : (updQp s i g).nextHandle = s.nextHandle := rfl
@[simp] theorem updQp_lastCore (s : State) (i : Nat) (g : Qp → Qp) : (updQp s i g).lastCore = s.lastCore := rfl
@[simp] theorem updQp_nextOrder (s : State) (i : Nat) (g : Qp → Qp) : (updQp s i g).nextOrder = s.nextOrder := rfl
@[simp] theorem updQp_cores (s : State) (i : Nat) (g : Qp → Qp) : (updQp s i g).cores = s.cores := rfl
@[simp] theorem updQp_graphs (s : State) (i : Nat) (g : Qp → Qp) : (updQp s i g).graphs = s.graphs := rfl
@[simp] theorem updQp_checking (s : State) (i : Nat) (g : Qp → Qp) : (updQp s i g).checking = s.checking := rfl
@[simp] theorem updQp_tables (s : State) (i : Nat) (g : Qp → Qp) : (updQp s i g).tables = s.tables := rfl
@[simp] theorem updQp_folds (s : State) (i : Nat) (g : Qp → Qp) : (updQp s i g).folds = s.folds := rfl
@[simp] theorem updQp_xl (s : State) (i : Nat) (g : Qp → Qp) : (updQp s i g).xl = s.xl := rfl
@[simp] theorem updQp_dl (s : State) (i : Nat) (g : Qp → Qp) : (updQp s i g).dl = s.dl := rfl
@[simp] theorem updQp_ig (s : State) (i : Nat) (g : Qp → Qp) : (updQp s i g).ig = s.ig := rfl
@[simp] theorem updQp_pc (s : State) (i : Nat) (g : Qp → Qp) : (updQp s i g).pc = s.pc := rfl
@[simp] theorem updQp_fab (s : State) (i : Nat) (g : Qp → Qp) : (updQp s i g).fab = s.fab := rfl
@[simp] theorem updQp_tx (s : State) (i : Nat) (g : Qp → Qp) : (updQp s i g).tx = s.tx := rfl
@[simp] theorem updQp_fresh (s : State) (i : Nat) (g : Qp → Qp) : (updQp s i g).fresh = s.fresh := rfl

@[simp] theorem updSession_pending (s : State) (i : Nat) (g : Session → Session) :
    (updSession s i g).pending = s.pending := rfl
@[simp] theorem updSession_regs (s : State) (i : Nat) (g : Session → Session) : (updSession s i g).regs = s.regs := rfl
@[simp] theorem updSession_sels (s : State) (i : Nat) (g : Session → Session) : (updSession s i g).sels = s.sels := rfl
@[simp] theorem updSession_latches (s : State) (i : Nat) (g : Session → Session) :
    (updSession s i g).latches = s.latches := rfl
@[simp] theorem updSession_fe (s : State) (i : Nat) (g : Session → Session) : (updSession s i g).fe = s.fe := rfl
@[simp] theorem updSession_reqs (s : State) (i : Nat) (g : Session → Session) : (updSession s i g).reqs = s.reqs := rfl
@[simp] theorem updSession_nextHandle (s : State) (i : Nat) (g : Session → Session) :
    (updSession s i g).nextHandle = s.nextHandle := rfl
@[simp] theorem updSession_lastCore (s : State) (i : Nat) (g : Session → Session) :
    (updSession s i g).lastCore = s.lastCore := rfl
@[simp] theorem updSession_nextOrder (s : State) (i : Nat) (g : Session → Session) :
    (updSession s i g).nextOrder = s.nextOrder := rfl
@[simp] theorem updSession_cores (s : State) (i : Nat) (g : Session → Session) : (updSession s i g).cores = s.cores := rfl
@[simp] theorem updSession_graphs (s : State) (i : Nat) (g : Session → Session) :
    (updSession s i g).graphs = s.graphs := rfl
@[simp] theorem updSession_checking (s : State) (i : Nat) (g : Session → Session) :
    (updSession s i g).checking = s.checking := rfl
@[simp] theorem updSession_tables (s : State) (i : Nat) (g : Session → Session) :
    (updSession s i g).tables = s.tables := rfl
@[simp] theorem updSession_folds (s : State) (i : Nat) (g : Session → Session) : (updSession s i g).folds = s.folds := rfl
@[simp] theorem updSession_xl (s : State) (i : Nat) (g : Session → Session) : (updSession s i g).xl = s.xl := rfl
@[simp] theorem updSession_dl (s : State) (i : Nat) (g : Session → Session) : (updSession s i g).dl = s.dl := rfl
@[simp] theorem updSession_ig (s : State) (i : Nat) (g : Session → Session) : (updSession s i g).ig = s.ig := rfl
@[simp] theorem updSession_pc (s : State) (i : Nat) (g : Session → Session) : (updSession s i g).pc = s.pc := rfl
@[simp] theorem updSession_fab (s : State) (i : Nat) (g : Session → Session) : (updSession s i g).fab = s.fab := rfl
@[simp] theorem updSession_tx (s : State) (i : Nat) (g : Session → Session) : (updSession s i g).tx = s.tx := rfl
@[simp] theorem updSession_fresh (s : State) (i : Nat) (g : Session → Session) : (updSession s i g).fresh = s.fresh := rfl

@[simp] theorem updLink_pending (s : State) (i : Nat) (g : Link → Link) : (updLink s i g).pending = s.pending := rfl
@[simp] theorem updLink_regs (s : State) (i : Nat) (g : Link → Link) : (updLink s i g).regs = s.regs := rfl
@[simp] theorem updLink_sels (s : State) (i : Nat) (g : Link → Link) : (updLink s i g).sels = s.sels := rfl
@[simp] theorem updLink_latches (s : State) (i : Nat) (g : Link → Link) : (updLink s i g).latches = s.latches := rfl
@[simp] theorem updLink_fe (s : State) (i : Nat) (g : Link → Link) : (updLink s i g).fe = s.fe := rfl
@[simp] theorem updLink_reqs (s : State) (i : Nat) (g : Link → Link) : (updLink s i g).reqs = s.reqs := rfl
@[simp] theorem updLink_nextHandle (s : State) (i : Nat) (g : Link → Link) :
    (updLink s i g).nextHandle = s.nextHandle := rfl
@[simp] theorem updLink_lastCore (s : State) (i : Nat) (g : Link → Link) : (updLink s i g).lastCore = s.lastCore := rfl
@[simp] theorem updLink_nextOrder (s : State) (i : Nat) (g : Link → Link) : (updLink s i g).nextOrder = s.nextOrder := rfl
@[simp] theorem updLink_cores (s : State) (i : Nat) (g : Link → Link) : (updLink s i g).cores = s.cores := rfl
@[simp] theorem updLink_graphs (s : State) (i : Nat) (g : Link → Link) : (updLink s i g).graphs = s.graphs := rfl
@[simp] theorem updLink_checking (s : State) (i : Nat) (g : Link → Link) : (updLink s i g).checking = s.checking := rfl
@[simp] theorem updLink_tables (s : State) (i : Nat) (g : Link → Link) : (updLink s i g).tables = s.tables := rfl
@[simp] theorem updLink_folds (s : State) (i : Nat) (g : Link → Link) : (updLink s i g).folds = s.folds := rfl
@[simp] theorem updLink_np (s : State) (i : Nat) (g : Link → Link) : (updLink s i g).np = s.np := rfl
@[simp] theorem updLink_xl (s : State) (i : Nat) (g : Link → Link) : (updLink s i g).xl = s.xl := rfl
@[simp] theorem updLink_ig (s : State) (i : Nat) (g : Link → Link) : (updLink s i g).ig = s.ig := rfl
@[simp] theorem updLink_pc (s : State) (i : Nat) (g : Link → Link) : (updLink s i g).pc = s.pc := rfl
@[simp] theorem updLink_fab (s : State) (i : Nat) (g : Link → Link) : (updLink s i g).fab = s.fab := rfl
@[simp] theorem updLink_tx (s : State) (i : Nat) (g : Link → Link) : (updLink s i g).tx = s.tx := rfl
@[simp] theorem updLink_fresh (s : State) (i : Nat) (g : Link → Link) : (updLink s i g).fresh = s.fresh := rfl

@[simp] theorem updUnit_pending (s : State) (i : Nat) (g : Unit_ → Unit_) : (updUnit s i g).pending = s.pending := rfl
@[simp] theorem updUnit_regs (s : State) (i : Nat) (g : Unit_ → Unit_) : (updUnit s i g).regs = s.regs := rfl
@[simp] theorem updUnit_sels (s : State) (i : Nat) (g : Unit_ → Unit_) : (updUnit s i g).sels = s.sels := rfl
@[simp] theorem updUnit_latches (s : State) (i : Nat) (g : Unit_ → Unit_) : (updUnit s i g).latches = s.latches := rfl
@[simp] theorem updUnit_fe (s : State) (i : Nat) (g : Unit_ → Unit_) : (updUnit s i g).fe = s.fe := rfl
@[simp] theorem updUnit_reqs (s : State) (i : Nat) (g : Unit_ → Unit_) : (updUnit s i g).reqs = s.reqs := rfl
@[simp] theorem updUnit_nextHandle (s : State) (i : Nat) (g : Unit_ → Unit_) :
    (updUnit s i g).nextHandle = s.nextHandle := rfl
@[simp] theorem updUnit_lastCore (s : State) (i : Nat) (g : Unit_ → Unit_) : (updUnit s i g).lastCore = s.lastCore := rfl
@[simp] theorem updUnit_nextOrder (s : State) (i : Nat) (g : Unit_ → Unit_) : (updUnit s i g).nextOrder = s.nextOrder := rfl
@[simp] theorem updUnit_cores (s : State) (i : Nat) (g : Unit_ → Unit_) : (updUnit s i g).cores = s.cores := rfl
@[simp] theorem updUnit_graphs (s : State) (i : Nat) (g : Unit_ → Unit_) : (updUnit s i g).graphs = s.graphs := rfl
@[simp] theorem updUnit_checking (s : State) (i : Nat) (g : Unit_ → Unit_) : (updUnit s i g).checking = s.checking := rfl
@[simp] theorem updUnit_tables (s : State) (i : Nat) (g : Unit_ → Unit_) : (updUnit s i g).tables = s.tables := rfl
@[simp] theorem updUnit_folds (s : State) (i : Nat) (g : Unit_ → Unit_) : (updUnit s i g).folds = s.folds := rfl
@[simp] theorem updUnit_np (s : State) (i : Nat) (g : Unit_ → Unit_) : (updUnit s i g).np = s.np := rfl
@[simp] theorem updUnit_xl (s : State) (i : Nat) (g : Unit_ → Unit_) : (updUnit s i g).xl = s.xl := rfl
@[simp] theorem updUnit_dl (s : State) (i : Nat) (g : Unit_ → Unit_) : (updUnit s i g).dl = s.dl := rfl
@[simp] theorem updUnit_pc (s : State) (i : Nat) (g : Unit_ → Unit_) : (updUnit s i g).pc = s.pc := rfl
@[simp] theorem updUnit_fab (s : State) (i : Nat) (g : Unit_ → Unit_) : (updUnit s i g).fab = s.fab := rfl
@[simp] theorem updUnit_tx (s : State) (i : Nat) (g : Unit_ → Unit_) : (updUnit s i g).tx = s.tx := rfl
@[simp] theorem updUnit_fresh (s : State) (i : Nat) (g : Unit_ → Unit_) : (updUnit s i g).fresh = s.fresh := rfl

@[simp] theorem draw_fresh (s : State) : (draw s).2.fresh = s.fresh + 1 := rfl
@[simp] theorem draw_value (s : State) : (draw s).1 = Config.freeNat s.fresh := rfl

/-! ## Readers after an update of something else -/

@[simp] theorem fold_rset (s : State) (a i v : Nat) (k : Nat) : fold (rset s a i v) k = fold s k := rfl
@[simp] theorem fold_emit (s : State) (t : Tx) (k : Nat) : fold (emit s t) k = fold s k := rfl
@[simp] theorem fold_setCore (s : State) (c : Nat) (x : Core) (k : Nat) : fold (setCore s c x) k = fold s k := rfl
@[simp] theorem fold_setQueue (s : State) (q : Nat) (x : Queue) (k : Nat) : fold (setQueue s q x) k = fold s k := rfl
@[simp] theorem fold_setTable (s : State) (i : Nat) (x : Table) (k : Nat) : fold (setTable s i x) k = fold s k := rfl
@[simp] theorem fold_setQp (s : State) (i : Nat) (x : Qp) (k : Nat) : fold (setQp s i x) k = fold s k := rfl
@[simp] theorem fold_setSession (s : State) (i : Nat) (x : Session) (k : Nat) : fold (setSession s i x) k = fold s k := rfl
@[simp] theorem fold_setRegion (s : State) (i : Nat) (x : Region) (k : Nat) : fold (setRegion s i x) k = fold s k := rfl
@[simp] theorem fold_setLink (s : State) (i : Nat) (x : Link) (k : Nat) : fold (setLink s i x) k = fold s k := rfl
@[simp] theorem fold_setUnit (s : State) (i : Nat) (x : Unit_) (k : Nat) : fold (setUnit s i x) k = fold s k := rfl
@[simp] theorem fold_updCmd (s : State) (q : Nat) (n : Word) (g : Cmd → Cmd) (k : Nat) :
    fold (updCmd s q n g) k = fold s k := rfl
@[simp] theorem fold_dropCmd (s : State) (q : Nat) (n : Word) (k : Nat) : fold (dropCmd s q n) k = fold s k := rfl
@[simp] theorem fold_updReq (s : State) (h : Half) (g : Req → Req) (k : Nat) : fold (updReq s h g) k = fold s k := rfl
@[simp] theorem fold_updXfer (s : State) (x : Nat) (g : Xfer → Xfer) (k : Nat) : fold (updXfer s x g) k = fold s k := rfl
@[simp] theorem fold_dropXfer (s : State) (x : Nat) (k : Nat) : fold (dropXfer s x) k = fold s k := rfl
@[simp] theorem fold_setSel (s : State) (w : Requester) (a v : Nat) (k : Nat) : fold (setSel s w a v) k = fold s k := rfl
@[simp] theorem fold_setLatch (s : State) (w : Requester) (a : Nat) (v : Option Word) (k : Nat) :
    fold (setLatch s w a v) k = fold s k := rfl
@[simp] theorem fold_rsetF (s : State) (a i hi lo v : Nat) (k : Nat) : fold (rsetF s a i hi lo v) k = fold s k := rfl
@[simp] theorem fold_cntN (s : State) (a i n : Nat) (k : Nat) : fold (cntN s a i n) k = fold s k := rfl
@[simp] theorem fold_cnt (s : State) (a i : Nat) (k : Nat) : fold (cnt s a i) k = fold s k := rfl
@[simp] theorem fold_rset64 (s : State) (a i v : Nat) (k : Nat) : fold (rset64 s a i v) k = fold s k := rfl
@[simp] theorem fold_draw (s : State) (k : Nat) : fold (draw s).2 k = fold s k := rfl
@[simp] theorem fold_updCore (s : State) (c : Nat) (g : Core → Core) (k : Nat) : fold (updCore s c g) k = fold s k := rfl
@[simp] theorem fold_updQueue (s : State) (q : Nat) (g : Queue → Queue) (k : Nat) :
    fold (updQueue s q g) k = fold s k := rfl
@[simp] theorem fold_updTable (s : State) (i : Nat) (g : Table → Table) (k : Nat) :
    fold (updTable s i g) k = fold s k := rfl
@[simp] theorem fold_updQp (s : State) (i : Nat) (g : Qp → Qp) (k : Nat) : fold (updQp s i g) k = fold s k := rfl
@[simp] theorem fold_updSession (s : State) (i : Nat) (g : Session → Session) (k : Nat) :
    fold (updSession s i g) k = fold s k := rfl
@[simp] theorem fold_updLink (s : State) (i : Nat) (g : Link → Link) (k : Nat) : fold (updLink s i g) k = fold s k := rfl
@[simp] theorem fold_updUnit (s : State) (i : Nat) (g : Unit_ → Unit_) (k : Nat) : fold (updUnit s i g) k = fold s k := rfl

@[simp] theorem core_rset (s : State) (a i v : Nat) (k : Nat) : core (rset s a i v) k = core s k := rfl
@[simp] theorem core_emit (s : State) (t : Tx) (k : Nat) : core (emit s t) k = core s k := rfl
@[simp] theorem core_setFold (s : State) (f : Nat) (x : Fold) (k : Nat) : core (setFold s f x) k = core s k := rfl
@[simp] theorem core_setQueue (s : State) (q : Nat) (x : Queue) (k : Nat) : core (setQueue s q x) k = core s k := rfl
@[simp] theorem core_setTable (s : State) (i : Nat) (x : Table) (k : Nat) : core (setTable s i x) k = core s k := rfl
@[simp] theorem core_setQp (s : State) (i : Nat) (x : Qp) (k : Nat) : core (setQp s i x) k = core s k := rfl
@[simp] theorem core_setSession (s : State) (i : Nat) (x : Session) (k : Nat) : core (setSession s i x) k = core s k := rfl
@[simp] theorem core_setRegion (s : State) (i : Nat) (x : Region) (k : Nat) : core (setRegion s i x) k = core s k := rfl
@[simp] theorem core_setLink (s : State) (i : Nat) (x : Link) (k : Nat) : core (setLink s i x) k = core s k := rfl
@[simp] theorem core_setUnit (s : State) (i : Nat) (x : Unit_) (k : Nat) : core (setUnit s i x) k = core s k := rfl
@[simp] theorem core_updCmd (s : State) (q : Nat) (n : Word) (g : Cmd → Cmd) (k : Nat) :
    core (updCmd s q n g) k = core s k := rfl
@[simp] theorem core_dropCmd (s : State) (q : Nat) (n : Word) (k : Nat) : core (dropCmd s q n) k = core s k := rfl
@[simp] theorem core_updReq (s : State) (h : Half) (g : Req → Req) (k : Nat) : core (updReq s h g) k = core s k := rfl
@[simp] theorem core_updXfer (s : State) (x : Nat) (g : Xfer → Xfer) (k : Nat) : core (updXfer s x g) k = core s k := rfl
@[simp] theorem core_dropXfer (s : State) (x : Nat) (k : Nat) : core (dropXfer s x) k = core s k := rfl
@[simp] theorem core_setSel (s : State) (w : Requester) (a v : Nat) (k : Nat) : core (setSel s w a v) k = core s k := rfl
@[simp] theorem core_setLatch (s : State) (w : Requester) (a : Nat) (v : Option Word) (k : Nat) :
    core (setLatch s w a v) k = core s k := rfl
@[simp] theorem core_rsetF (s : State) (a i hi lo v : Nat) (k : Nat) : core (rsetF s a i hi lo v) k = core s k := rfl
@[simp] theorem core_cntN (s : State) (a i n : Nat) (k : Nat) : core (cntN s a i n) k = core s k := rfl
@[simp] theorem core_cnt (s : State) (a i : Nat) (k : Nat) : core (cnt s a i) k = core s k := rfl
@[simp] theorem core_rset64 (s : State) (a i v : Nat) (k : Nat) : core (rset64 s a i v) k = core s k := rfl
@[simp] theorem core_draw (s : State) (k : Nat) : core (draw s).2 k = core s k := rfl
@[simp] theorem core_updFold (s : State) (f : Nat) (g : Fold → Fold) (k : Nat) : core (updFold s f g) k = core s k := rfl
@[simp] theorem core_updQueue (s : State) (q : Nat) (g : Queue → Queue) (k : Nat) :
    core (updQueue s q g) k = core s k := rfl
@[simp] theorem core_updTable (s : State) (i : Nat) (g : Table → Table) (k : Nat) :
    core (updTable s i g) k = core s k := rfl
@[simp] theorem core_updQp (s : State) (i : Nat) (g : Qp → Qp) (k : Nat) : core (updQp s i g) k = core s k := rfl
@[simp] theorem core_updSession (s : State) (i : Nat) (g : Session → Session) (k : Nat) :
    core (updSession s i g) k = core s k := rfl
@[simp] theorem core_updLink (s : State) (i : Nat) (g : Link → Link) (k : Nat) : core (updLink s i g) k = core s k := rfl
@[simp] theorem core_updUnit (s : State) (i : Nat) (g : Unit_ → Unit_) (k : Nat) : core (updUnit s i g) k = core s k := rfl

@[simp] theorem queue_rset (s : State) (a i v : Nat) (k : Nat) : queue (rset s a i v) k = queue s k := rfl
@[simp] theorem queue_emit (s : State) (t : Tx) (k : Nat) : queue (emit s t) k = queue s k := rfl
@[simp] theorem queue_setFold (s : State) (f : Nat) (x : Fold) (k : Nat) : queue (setFold s f x) k = queue s k := rfl
@[simp] theorem queue_setCore (s : State) (c : Nat) (x : Core) (k : Nat) : queue (setCore s c x) k = queue s k := rfl
@[simp] theorem queue_setTable (s : State) (i : Nat) (x : Table) (k : Nat) : queue (setTable s i x) k = queue s k := rfl
@[simp] theorem queue_setQp (s : State) (i : Nat) (x : Qp) (k : Nat) : queue (setQp s i x) k = queue s k := rfl
@[simp] theorem queue_setSession (s : State) (i : Nat) (x : Session) (k : Nat) :
    queue (setSession s i x) k = queue s k := rfl
@[simp] theorem queue_setRegion (s : State) (i : Nat) (x : Region) (k : Nat) : queue (setRegion s i x) k = queue s k := rfl
@[simp] theorem queue_setLink (s : State) (i : Nat) (x : Link) (k : Nat) : queue (setLink s i x) k = queue s k := rfl
@[simp] theorem queue_setUnit (s : State) (i : Nat) (x : Unit_) (k : Nat) : queue (setUnit s i x) k = queue s k := rfl
@[simp] theorem queue_updCmd (s : State) (q : Nat) (n : Word) (g : Cmd → Cmd) (k : Nat) :
    queue (updCmd s q n g) k = queue s k := rfl
@[simp] theorem queue_dropCmd (s : State) (q : Nat) (n : Word) (k : Nat) : queue (dropCmd s q n) k = queue s k := rfl
@[simp] theorem queue_updReq (s : State) (h : Half) (g : Req → Req) (k : Nat) : queue (updReq s h g) k = queue s k := rfl
@[simp] theorem queue_updXfer (s : State) (x : Nat) (g : Xfer → Xfer) (k : Nat) : queue (updXfer s x g) k = queue s k := rfl
@[simp] theorem queue_dropXfer (s : State) (x : Nat) (k : Nat) : queue (dropXfer s x) k = queue s k := rfl
@[simp] theorem queue_setSel (s : State) (w : Requester) (a v : Nat) (k : Nat) : queue (setSel s w a v) k = queue s k := rfl
@[simp] theorem queue_setLatch (s : State) (w : Requester) (a : Nat) (v : Option Word) (k : Nat) :
    queue (setLatch s w a v) k = queue s k := rfl
@[simp] theorem queue_rsetF (s : State) (a i hi lo v : Nat) (k : Nat) : queue (rsetF s a i hi lo v) k = queue s k := rfl
@[simp] theorem queue_cntN (s : State) (a i n : Nat) (k : Nat) : queue (cntN s a i n) k = queue s k := rfl
@[simp] theorem queue_cnt (s : State) (a i : Nat) (k : Nat) : queue (cnt s a i) k = queue s k := rfl
@[simp] theorem queue_rset64 (s : State) (a i v : Nat) (k : Nat) : queue (rset64 s a i v) k = queue s k := rfl
@[simp] theorem queue_draw (s : State) (k : Nat) : queue (draw s).2 k = queue s k := rfl
@[simp] theorem queue_updFold (s : State) (f : Nat) (g : Fold → Fold) (k : Nat) : queue (updFold s f g) k = queue s k := rfl
@[simp] theorem queue_updCore (s : State) (c : Nat) (g : Core → Core) (k : Nat) : queue (updCore s c g) k = queue s k := rfl
@[simp] theorem queue_updTable (s : State) (i : Nat) (g : Table → Table) (k : Nat) :
    queue (updTable s i g) k = queue s k := rfl
@[simp] theorem queue_updQp (s : State) (i : Nat) (g : Qp → Qp) (k : Nat) : queue (updQp s i g) k = queue s k := rfl
@[simp] theorem queue_updSession (s : State) (i : Nat) (g : Session → Session) (k : Nat) :
    queue (updSession s i g) k = queue s k := rfl
@[simp] theorem queue_updLink (s : State) (i : Nat) (g : Link → Link) (k : Nat) : queue (updLink s i g) k = queue s k := rfl
@[simp] theorem queue_updUnit (s : State) (i : Nat) (g : Unit_ → Unit_) (k : Nat) :
    queue (updUnit s i g) k = queue s k := rfl

@[simp] theorem table_rset (s : State) (a i v : Nat) (k : Nat) : table (rset s a i v) k = table s k := rfl
@[simp] theorem table_emit (s : State) (t : Tx) (k : Nat) : table (emit s t) k = table s k := rfl
@[simp] theorem table_setFold (s : State) (f : Nat) (x : Fold) (k : Nat) : table (setFold s f x) k = table s k := rfl
@[simp] theorem table_setCore (s : State) (c : Nat) (x : Core) (k : Nat) : table (setCore s c x) k = table s k := rfl
@[simp] theorem table_setQueue (s : State) (q : Nat) (x : Queue) (k : Nat) : table (setQueue s q x) k = table s k := rfl
@[simp] theorem table_setQp (s : State) (i : Nat) (x : Qp) (k : Nat) : table (setQp s i x) k = table s k := rfl
@[simp] theorem table_setSession (s : State) (i : Nat) (x : Session) (k : Nat) :
    table (setSession s i x) k = table s k := rfl
@[simp] theorem table_setRegion (s : State) (i : Nat) (x : Region) (k : Nat) : table (setRegion s i x) k = table s k := rfl
@[simp] theorem table_setLink (s : State) (i : Nat) (x : Link) (k : Nat) : table (setLink s i x) k = table s k := rfl
@[simp] theorem table_setUnit (s : State) (i : Nat) (x : Unit_) (k : Nat) : table (setUnit s i x) k = table s k := rfl
@[simp] theorem table_updCmd (s : State) (q : Nat) (n : Word) (g : Cmd → Cmd) (k : Nat) :
    table (updCmd s q n g) k = table s k := rfl
@[simp] theorem table_dropCmd (s : State) (q : Nat) (n : Word) (k : Nat) : table (dropCmd s q n) k = table s k := rfl
@[simp] theorem table_updReq (s : State) (h : Half) (g : Req → Req) (k : Nat) : table (updReq s h g) k = table s k := rfl
@[simp] theorem table_updXfer (s : State) (x : Nat) (g : Xfer → Xfer) (k : Nat) : table (updXfer s x g) k = table s k := rfl
@[simp] theorem table_dropXfer (s : State) (x : Nat) (k : Nat) : table (dropXfer s x) k = table s k := rfl
@[simp] theorem table_setSel (s : State) (w : Requester) (a v : Nat) (k : Nat) : table (setSel s w a v) k = table s k := rfl
@[simp] theorem table_setLatch (s : State) (w : Requester) (a : Nat) (v : Option Word) (k : Nat) :
    table (setLatch s w a v) k = table s k := rfl
@[simp] theorem table_rsetF (s : State) (a i hi lo v : Nat) (k : Nat) : table (rsetF s a i hi lo v) k = table s k := rfl
@[simp] theorem table_cntN (s : State) (a i n : Nat) (k : Nat) : table (cntN s a i n) k = table s k := rfl
@[simp] theorem table_cnt (s : State) (a i : Nat) (k : Nat) : table (cnt s a i) k = table s k := rfl
@[simp] theorem table_rset64 (s : State) (a i v : Nat) (k : Nat) : table (rset64 s a i v) k = table s k := rfl
@[simp] theorem table_draw (s : State) (k : Nat) : table (draw s).2 k = table s k := rfl
@[simp] theorem table_updFold (s : State) (f : Nat) (g : Fold → Fold) (k : Nat) : table (updFold s f g) k = table s k := rfl
@[simp] theorem table_updCore (s : State) (c : Nat) (g : Core → Core) (k : Nat) : table (updCore s c g) k = table s k := rfl
@[simp] theorem table_updQueue (s : State) (q : Nat) (g : Queue → Queue) (k : Nat) :
    table (updQueue s q g) k = table s k := rfl
@[simp] theorem table_updQp (s : State) (i : Nat) (g : Qp → Qp) (k : Nat) : table (updQp s i g) k = table s k := rfl
@[simp] theorem table_updSession (s : State) (i : Nat) (g : Session → Session) (k : Nat) :
    table (updSession s i g) k = table s k := rfl
@[simp] theorem table_updLink (s : State) (i : Nat) (g : Link → Link) (k : Nat) : table (updLink s i g) k = table s k := rfl
@[simp] theorem table_updUnit (s : State) (i : Nat) (g : Unit_ → Unit_) (k : Nat) :
    table (updUnit s i g) k = table s k := rfl

@[simp] theorem qp_rset (s : State) (a i v : Nat) (k : Nat) : qp (rset s a i v) k = qp s k := rfl
@[simp] theorem qp_emit (s : State) (t : Tx) (k : Nat) : qp (emit s t) k = qp s k := rfl
@[simp] theorem qp_setFold (s : State) (f : Nat) (x : Fold) (k : Nat) : qp (setFold s f x) k = qp s k := rfl
@[simp] theorem qp_setCore (s : State) (c : Nat) (x : Core) (k : Nat) : qp (setCore s c x) k = qp s k := rfl
@[simp] theorem qp_setQueue (s : State) (q : Nat) (x : Queue) (k : Nat) : qp (setQueue s q x) k = qp s k := rfl
@[simp] theorem qp_setTable (s : State) (i : Nat) (x : Table) (k : Nat) : qp (setTable s i x) k = qp s k := rfl
@[simp] theorem qp_setSession (s : State) (i : Nat) (x : Session) (k : Nat) : qp (setSession s i x) k = qp s k := rfl
@[simp] theorem qp_setRegion (s : State) (i : Nat) (x : Region) (k : Nat) : qp (setRegion s i x) k = qp s k := rfl
@[simp] theorem qp_setLink (s : State) (i : Nat) (x : Link) (k : Nat) : qp (setLink s i x) k = qp s k := rfl
@[simp] theorem qp_setUnit (s : State) (i : Nat) (x : Unit_) (k : Nat) : qp (setUnit s i x) k = qp s k := rfl
@[simp] theorem qp_updCmd (s : State) (q : Nat) (n : Word) (g : Cmd → Cmd) (k : Nat) : qp (updCmd s q n g) k = qp s k := rfl
@[simp] theorem qp_dropCmd (s : State) (q : Nat) (n : Word) (k : Nat) : qp (dropCmd s q n) k = qp s k := rfl
@[simp] theorem qp_updReq (s : State) (h : Half) (g : Req → Req) (k : Nat) : qp (updReq s h g) k = qp s k := rfl
@[simp] theorem qp_updXfer (s : State) (x : Nat) (g : Xfer → Xfer) (k : Nat) : qp (updXfer s x g) k = qp s k := rfl
@[simp] theorem qp_dropXfer (s : State) (x : Nat) (k : Nat) : qp (dropXfer s x) k = qp s k := rfl
@[simp] theorem qp_setSel (s : State) (w : Requester) (a v : Nat) (k : Nat) : qp (setSel s w a v) k = qp s k := rfl
@[simp] theorem qp_setLatch (s : State) (w : Requester) (a : Nat) (v : Option Word) (k : Nat) :
    qp (setLatch s w a v) k = qp s k := rfl
@[simp] theorem qp_rsetF (s : State) (a i hi lo v : Nat) (k : Nat) : qp (rsetF s a i hi lo v) k = qp s k := rfl
@[simp] theorem qp_cntN (s : State) (a i n : Nat) (k : Nat) : qp (cntN s a i n) k = qp s k := rfl
@[simp] theorem qp_cnt (s : State) (a i : Nat) (k : Nat) : qp (cnt s a i) k = qp s k := rfl
@[simp] theorem qp_rset64 (s : State) (a i v : Nat) (k : Nat) : qp (rset64 s a i v) k = qp s k := rfl
@[simp] theorem qp_draw (s : State) (k : Nat) : qp (draw s).2 k = qp s k := rfl
@[simp] theorem qp_updFold (s : State) (f : Nat) (g : Fold → Fold) (k : Nat) : qp (updFold s f g) k = qp s k := rfl
@[simp] theorem qp_updCore (s : State) (c : Nat) (g : Core → Core) (k : Nat) : qp (updCore s c g) k = qp s k := rfl
@[simp] theorem qp_updQueue (s : State) (q : Nat) (g : Queue → Queue) (k : Nat) : qp (updQueue s q g) k = qp s k := rfl
@[simp] theorem qp_updTable (s : State) (i : Nat) (g : Table → Table) (k : Nat) : qp (updTable s i g) k = qp s k := rfl
@[simp] theorem qp_updSession (s : State) (i : Nat) (g : Session → Session) (k : Nat) :
    qp (updSession s i g) k = qp s k := rfl
@[simp] theorem qp_updLink (s : State) (i : Nat) (g : Link → Link) (k : Nat) : qp (updLink s i g) k = qp s k := rfl
@[simp] theorem qp_updUnit (s : State) (i : Nat) (g : Unit_ → Unit_) (k : Nat) : qp (updUnit s i g) k = qp s k := rfl

@[simp] theorem session_rset (s : State) (a i v : Nat) (k : Nat) : session (rset s a i v) k = session s k := rfl
@[simp] theorem session_emit (s : State) (t : Tx) (k : Nat) : session (emit s t) k = session s k := rfl
@[simp] theorem session_setFold (s : State) (f : Nat) (x : Fold) (k : Nat) : session (setFold s f x) k = session s k := rfl
@[simp] theorem session_setCore (s : State) (c : Nat) (x : Core) (k : Nat) : session (setCore s c x) k = session s k := rfl
@[simp] theorem session_setQueue (s : State) (q : Nat) (x : Queue) (k : Nat) :
    session (setQueue s q x) k = session s k := rfl
@[simp] theorem session_setTable (s : State) (i : Nat) (x : Table) (k : Nat) :
    session (setTable s i x) k = session s k := rfl
@[simp] theorem session_setQp (s : State) (i : Nat) (x : Qp) (k : Nat) : session (setQp s i x) k = session s k := rfl
@[simp] theorem session_setRegion (s : State) (i : Nat) (x : Region) (k : Nat) :
    session (setRegion s i x) k = session s k := rfl
@[simp] theorem session_setLink (s : State) (i : Nat) (x : Link) (k : Nat) : session (setLink s i x) k = session s k := rfl
@[simp] theorem session_setUnit (s : State) (i : Nat) (x : Unit_) (k : Nat) : session (setUnit s i x) k = session s k := rfl
@[simp] theorem session_updCmd (s : State) (q : Nat) (n : Word) (g : Cmd → Cmd) (k : Nat) :
    session (updCmd s q n g) k = session s k := rfl
@[simp] theorem session_dropCmd (s : State) (q : Nat) (n : Word) (k : Nat) : session (dropCmd s q n) k = session s k := rfl
@[simp] theorem session_updReq (s : State) (h : Half) (g : Req → Req) (k : Nat) :
    session (updReq s h g) k = session s k := rfl
@[simp] theorem session_updXfer (s : State) (x : Nat) (g : Xfer → Xfer) (k : Nat) :
    session (updXfer s x g) k = session s k := rfl
@[simp] theorem session_dropXfer (s : State) (x : Nat) (k : Nat) : session (dropXfer s x) k = session s k := rfl
@[simp] theorem session_setSel (s : State) (w : Requester) (a v : Nat) (k : Nat) :
    session (setSel s w a v) k = session s k := rfl
@[simp] theorem session_setLatch (s : State) (w : Requester) (a : Nat) (v : Option Word) (k : Nat) :
    session (setLatch s w a v) k = session s k := rfl
@[simp] theorem session_rsetF (s : State) (a i hi lo v : Nat) (k : Nat) :
    session (rsetF s a i hi lo v) k = session s k := rfl
@[simp] theorem session_cntN (s : State) (a i n : Nat) (k : Nat) : session (cntN s a i n) k = session s k := rfl
@[simp] theorem session_cnt (s : State) (a i : Nat) (k : Nat) : session (cnt s a i) k = session s k := rfl
@[simp] theorem session_rset64 (s : State) (a i v : Nat) (k : Nat) : session (rset64 s a i v) k = session s k := rfl
@[simp] theorem session_draw (s : State) (k : Nat) : session (draw s).2 k = session s k := rfl
@[simp] theorem session_updFold (s : State) (f : Nat) (g : Fold → Fold) (k : Nat) :
    session (updFold s f g) k = session s k := rfl
@[simp] theorem session_updCore (s : State) (c : Nat) (g : Core → Core) (k : Nat) :
    session (updCore s c g) k = session s k := rfl
@[simp] theorem session_updQueue (s : State) (q : Nat) (g : Queue → Queue) (k : Nat) :
    session (updQueue s q g) k = session s k := rfl
@[simp] theorem session_updTable (s : State) (i : Nat) (g : Table → Table) (k : Nat) :
    session (updTable s i g) k = session s k := rfl
@[simp] theorem session_updQp (s : State) (i : Nat) (g : Qp → Qp) (k : Nat) : session (updQp s i g) k = session s k := rfl
@[simp] theorem session_updLink (s : State) (i : Nat) (g : Link → Link) (k : Nat) :
    session (updLink s i g) k = session s k := rfl
@[simp] theorem session_updUnit (s : State) (i : Nat) (g : Unit_ → Unit_) (k : Nat) :
    session (updUnit s i g) k = session s k := rfl

@[simp] theorem region_rset (s : State) (a i v : Nat) (k : Nat) : region (rset s a i v) k = region s k := rfl
@[simp] theorem region_emit (s : State) (t : Tx) (k : Nat) : region (emit s t) k = region s k := rfl
@[simp] theorem region_setFold (s : State) (f : Nat) (x : Fold) (k : Nat) : region (setFold s f x) k = region s k := rfl
@[simp] theorem region_setCore (s : State) (c : Nat) (x : Core) (k : Nat) : region (setCore s c x) k = region s k := rfl
@[simp] theorem region_setQueue (s : State) (q : Nat) (x : Queue) (k : Nat) : region (setQueue s q x) k = region s k := rfl
@[simp] theorem region_setTable (s : State) (i : Nat) (x : Table) (k : Nat) : region (setTable s i x) k = region s k := rfl
@[simp] theorem region_setQp (s : State) (i : Nat) (x : Qp) (k : Nat) : region (setQp s i x) k = region s k := rfl
@[simp] theorem region_setSession (s : State) (i : Nat) (x : Session) (k : Nat) :
    region (setSession s i x) k = region s k := rfl
@[simp] theorem region_setLink (s : State) (i : Nat) (x : Link) (k : Nat) : region (setLink s i x) k = region s k := rfl
@[simp] theorem region_setUnit (s : State) (i : Nat) (x : Unit_) (k : Nat) : region (setUnit s i x) k = region s k := rfl
@[simp] theorem region_updCmd (s : State) (q : Nat) (n : Word) (g : Cmd → Cmd) (k : Nat) :
    region (updCmd s q n g) k = region s k := rfl
@[simp] theorem region_dropCmd (s : State) (q : Nat) (n : Word) (k : Nat) : region (dropCmd s q n) k = region s k := rfl
@[simp] theorem region_updReq (s : State) (h : Half) (g : Req → Req) (k : Nat) : region (updReq s h g) k = region s k := rfl
@[simp] theorem region_updXfer (s : State) (x : Nat) (g : Xfer → Xfer) (k : Nat) :
    region (updXfer s x g) k = region s k := rfl
@[simp] theorem region_dropXfer (s : State) (x : Nat) (k : Nat) : region (dropXfer s x) k = region s k := rfl
@[simp] theorem region_setSel (s : State) (w : Requester) (a v : Nat) (k : Nat) :
    region (setSel s w a v) k = region s k := rfl
@[simp] theorem region_setLatch (s : State) (w : Requester) (a : Nat) (v : Option Word) (k : Nat) :
    region (setLatch s w a v) k = region s k := rfl
@[simp] theorem region_rsetF (s : State) (a i hi lo v : Nat) (k : Nat) : region (rsetF s a i hi lo v) k = region s k := rfl
@[simp] theorem region_cntN (s : State) (a i n : Nat) (k : Nat) : region (cntN s a i n) k = region s k := rfl
@[simp] theorem region_cnt (s : State) (a i : Nat) (k : Nat) : region (cnt s a i) k = region s k := rfl
@[simp] theorem region_rset64 (s : State) (a i v : Nat) (k : Nat) : region (rset64 s a i v) k = region s k := rfl
@[simp] theorem region_draw (s : State) (k : Nat) : region (draw s).2 k = region s k := rfl
@[simp] theorem region_updFold (s : State) (f : Nat) (g : Fold → Fold) (k : Nat) :
    region (updFold s f g) k = region s k := rfl
@[simp] theorem region_updCore (s : State) (c : Nat) (g : Core → Core) (k : Nat) :
    region (updCore s c g) k = region s k := rfl
@[simp] theorem region_updQueue (s : State) (q : Nat) (g : Queue → Queue) (k : Nat) :
    region (updQueue s q g) k = region s k := rfl
@[simp] theorem region_updTable (s : State) (i : Nat) (g : Table → Table) (k : Nat) :
    region (updTable s i g) k = region s k := rfl
@[simp] theorem region_updQp (s : State) (i : Nat) (g : Qp → Qp) (k : Nat) : region (updQp s i g) k = region s k := rfl
@[simp] theorem region_updSession (s : State) (i : Nat) (g : Session → Session) (k : Nat) :
    region (updSession s i g) k = region s k := rfl
@[simp] theorem region_updLink (s : State) (i : Nat) (g : Link → Link) (k : Nat) :
    region (updLink s i g) k = region s k := rfl
@[simp] theorem region_updUnit (s : State) (i : Nat) (g : Unit_ → Unit_) (k : Nat) :
    region (updUnit s i g) k = region s k := rfl

@[simp] theorem link_rset (s : State) (a i v : Nat) (k : Nat) : link (rset s a i v) k = link s k := rfl
@[simp] theorem link_emit (s : State) (t : Tx) (k : Nat) : link (emit s t) k = link s k := rfl
@[simp] theorem link_setFold (s : State) (f : Nat) (x : Fold) (k : Nat) : link (setFold s f x) k = link s k := rfl
@[simp] theorem link_setCore (s : State) (c : Nat) (x : Core) (k : Nat) : link (setCore s c x) k = link s k := rfl
@[simp] theorem link_setQueue (s : State) (q : Nat) (x : Queue) (k : Nat) : link (setQueue s q x) k = link s k := rfl
@[simp] theorem link_setTable (s : State) (i : Nat) (x : Table) (k : Nat) : link (setTable s i x) k = link s k := rfl
@[simp] theorem link_setQp (s : State) (i : Nat) (x : Qp) (k : Nat) : link (setQp s i x) k = link s k := rfl
@[simp] theorem link_setSession (s : State) (i : Nat) (x : Session) (k : Nat) : link (setSession s i x) k = link s k := rfl
@[simp] theorem link_setRegion (s : State) (i : Nat) (x : Region) (k : Nat) : link (setRegion s i x) k = link s k := rfl
@[simp] theorem link_setUnit (s : State) (i : Nat) (x : Unit_) (k : Nat) : link (setUnit s i x) k = link s k := rfl
@[simp] theorem link_updCmd (s : State) (q : Nat) (n : Word) (g : Cmd → Cmd) (k : Nat) :
    link (updCmd s q n g) k = link s k := rfl
@[simp] theorem link_dropCmd (s : State) (q : Nat) (n : Word) (k : Nat) : link (dropCmd s q n) k = link s k := rfl
@[simp] theorem link_updReq (s : State) (h : Half) (g : Req → Req) (k : Nat) : link (updReq s h g) k = link s k := rfl
@[simp] theorem link_updXfer (s : State) (x : Nat) (g : Xfer → Xfer) (k : Nat) : link (updXfer s x g) k = link s k := rfl
@[simp] theorem link_dropXfer (s : State) (x : Nat) (k : Nat) : link (dropXfer s x) k = link s k := rfl
@[simp] theorem link_setSel (s : State) (w : Requester) (a v : Nat) (k : Nat) : link (setSel s w a v) k = link s k := rfl
@[simp] theorem link_setLatch (s : State) (w : Requester) (a : Nat) (v : Option Word) (k : Nat) :
    link (setLatch s w a v) k = link s k := rfl
@[simp] theorem link_rsetF (s : State) (a i hi lo v : Nat) (k : Nat) : link (rsetF s a i hi lo v) k = link s k := rfl
@[simp] theorem link_cntN (s : State) (a i n : Nat) (k : Nat) : link (cntN s a i n) k = link s k := rfl
@[simp] theorem link_cnt (s : State) (a i : Nat) (k : Nat) : link (cnt s a i) k = link s k := rfl
@[simp] theorem link_rset64 (s : State) (a i v : Nat) (k : Nat) : link (rset64 s a i v) k = link s k := rfl
@[simp] theorem link_draw (s : State) (k : Nat) : link (draw s).2 k = link s k := rfl
@[simp] theorem link_updFold (s : State) (f : Nat) (g : Fold → Fold) (k : Nat) : link (updFold s f g) k = link s k := rfl
@[simp] theorem link_updCore (s : State) (c : Nat) (g : Core → Core) (k : Nat) : link (updCore s c g) k = link s k := rfl
@[simp] theorem link_updQueue (s : State) (q : Nat) (g : Queue → Queue) (k : Nat) :
    link (updQueue s q g) k = link s k := rfl
@[simp] theorem link_updTable (s : State) (i : Nat) (g : Table → Table) (k : Nat) :
    link (updTable s i g) k = link s k := rfl
@[simp] theorem link_updQp (s : State) (i : Nat) (g : Qp → Qp) (k : Nat) : link (updQp s i g) k = link s k := rfl
@[simp] theorem link_updSession (s : State) (i : Nat) (g : Session → Session) (k : Nat) :
    link (updSession s i g) k = link s k := rfl
@[simp] theorem link_updUnit (s : State) (i : Nat) (g : Unit_ → Unit_) (k : Nat) : link (updUnit s i g) k = link s k := rfl

@[simp] theorem unit_rset (s : State) (a i v : Nat) (k : Nat) : unit (rset s a i v) k = unit s k := rfl
@[simp] theorem unit_emit (s : State) (t : Tx) (k : Nat) : unit (emit s t) k = unit s k := rfl
@[simp] theorem unit_setFold (s : State) (f : Nat) (x : Fold) (k : Nat) : unit (setFold s f x) k = unit s k := rfl
@[simp] theorem unit_setCore (s : State) (c : Nat) (x : Core) (k : Nat) : unit (setCore s c x) k = unit s k := rfl
@[simp] theorem unit_setQueue (s : State) (q : Nat) (x : Queue) (k : Nat) : unit (setQueue s q x) k = unit s k := rfl
@[simp] theorem unit_setTable (s : State) (i : Nat) (x : Table) (k : Nat) : unit (setTable s i x) k = unit s k := rfl
@[simp] theorem unit_setQp (s : State) (i : Nat) (x : Qp) (k : Nat) : unit (setQp s i x) k = unit s k := rfl
@[simp] theorem unit_setSession (s : State) (i : Nat) (x : Session) (k : Nat) : unit (setSession s i x) k = unit s k := rfl
@[simp] theorem unit_setRegion (s : State) (i : Nat) (x : Region) (k : Nat) : unit (setRegion s i x) k = unit s k := rfl
@[simp] theorem unit_setLink (s : State) (i : Nat) (x : Link) (k : Nat) : unit (setLink s i x) k = unit s k := rfl
@[simp] theorem unit_updCmd (s : State) (q : Nat) (n : Word) (g : Cmd → Cmd) (k : Nat) :
    unit (updCmd s q n g) k = unit s k := rfl
@[simp] theorem unit_dropCmd (s : State) (q : Nat) (n : Word) (k : Nat) : unit (dropCmd s q n) k = unit s k := rfl
@[simp] theorem unit_updReq (s : State) (h : Half) (g : Req → Req) (k : Nat) : unit (updReq s h g) k = unit s k := rfl
@[simp] theorem unit_updXfer (s : State) (x : Nat) (g : Xfer → Xfer) (k : Nat) : unit (updXfer s x g) k = unit s k := rfl
@[simp] theorem unit_dropXfer (s : State) (x : Nat) (k : Nat) : unit (dropXfer s x) k = unit s k := rfl
@[simp] theorem unit_setSel (s : State) (w : Requester) (a v : Nat) (k : Nat) : unit (setSel s w a v) k = unit s k := rfl
@[simp] theorem unit_setLatch (s : State) (w : Requester) (a : Nat) (v : Option Word) (k : Nat) :
    unit (setLatch s w a v) k = unit s k := rfl
@[simp] theorem unit_rsetF (s : State) (a i hi lo v : Nat) (k : Nat) : unit (rsetF s a i hi lo v) k = unit s k := rfl
@[simp] theorem unit_cntN (s : State) (a i n : Nat) (k : Nat) : unit (cntN s a i n) k = unit s k := rfl
@[simp] theorem unit_cnt (s : State) (a i : Nat) (k : Nat) : unit (cnt s a i) k = unit s k := rfl
@[simp] theorem unit_rset64 (s : State) (a i v : Nat) (k : Nat) : unit (rset64 s a i v) k = unit s k := rfl
@[simp] theorem unit_draw (s : State) (k : Nat) : unit (draw s).2 k = unit s k := rfl
@[simp] theorem unit_updFold (s : State) (f : Nat) (g : Fold → Fold) (k : Nat) : unit (updFold s f g) k = unit s k := rfl
@[simp] theorem unit_updCore (s : State) (c : Nat) (g : Core → Core) (k : Nat) : unit (updCore s c g) k = unit s k := rfl
@[simp] theorem unit_updQueue (s : State) (q : Nat) (g : Queue → Queue) (k : Nat) :
    unit (updQueue s q g) k = unit s k := rfl
@[simp] theorem unit_updTable (s : State) (i : Nat) (g : Table → Table) (k : Nat) :
    unit (updTable s i g) k = unit s k := rfl
@[simp] theorem unit_updQp (s : State) (i : Nat) (g : Qp → Qp) (k : Nat) : unit (updQp s i g) k = unit s k := rfl
@[simp] theorem unit_updSession (s : State) (i : Nat) (g : Session → Session) (k : Nat) :
    unit (updSession s i g) k = unit s k := rfl
@[simp] theorem unit_updLink (s : State) (i : Nat) (g : Link → Link) (k : Nat) : unit (updLink s i g) k = unit s k := rfl

@[simp] theorem cmd_rset (s : State) (a i v : Nat) (k : Nat) (m : Word) : cmd (rset s a i v) k m = cmd s k m := rfl
@[simp] theorem cmd_emit (s : State) (t : Tx) (k : Nat) (m : Word) : cmd (emit s t) k m = cmd s k m := rfl
@[simp] theorem cmd_setFold (s : State) (f : Nat) (x : Fold) (k : Nat) (m : Word) :
    cmd (setFold s f x) k m = cmd s k m := rfl
@[simp] theorem cmd_setCore (s : State) (c : Nat) (x : Core) (k : Nat) (m : Word) :
    cmd (setCore s c x) k m = cmd s k m := rfl
@[simp] theorem cmd_setQueue (s : State) (q : Nat) (x : Queue) (k : Nat) (m : Word) :
    cmd (setQueue s q x) k m = cmd s k m := rfl
@[simp] theorem cmd_setTable (s : State) (i : Nat) (x : Table) (k : Nat) (m : Word) :
    cmd (setTable s i x) k m = cmd s k m := rfl
@[simp] theorem cmd_setQp (s : State) (i : Nat) (x : Qp) (k : Nat) (m : Word) : cmd (setQp s i x) k m = cmd s k m := rfl
@[simp] theorem cmd_setSession (s : State) (i : Nat) (x : Session) (k : Nat) (m : Word) :
    cmd (setSession s i x) k m = cmd s k m := rfl
@[simp] theorem cmd_setRegion (s : State) (i : Nat) (x : Region) (k : Nat) (m : Word) :
    cmd (setRegion s i x) k m = cmd s k m := rfl
@[simp] theorem cmd_setLink (s : State) (i : Nat) (x : Link) (k : Nat) (m : Word) :
    cmd (setLink s i x) k m = cmd s k m := rfl
@[simp] theorem cmd_setUnit (s : State) (i : Nat) (x : Unit_) (k : Nat) (m : Word) :
    cmd (setUnit s i x) k m = cmd s k m := rfl
@[simp] theorem cmd_updReq (s : State) (h : Half) (g : Req → Req) (k : Nat) (m : Word) :
    cmd (updReq s h g) k m = cmd s k m := rfl
@[simp] theorem cmd_updXfer (s : State) (x : Nat) (g : Xfer → Xfer) (k : Nat) (m : Word) :
    cmd (updXfer s x g) k m = cmd s k m := rfl
@[simp] theorem cmd_dropXfer (s : State) (x : Nat) (k : Nat) (m : Word) : cmd (dropXfer s x) k m = cmd s k m := rfl
@[simp] theorem cmd_setSel (s : State) (w : Requester) (a v : Nat) (k : Nat) (m : Word) :
    cmd (setSel s w a v) k m = cmd s k m := rfl
@[simp] theorem cmd_setLatch (s : State) (w : Requester) (a : Nat) (v : Option Word) (k : Nat) (m : Word) :
    cmd (setLatch s w a v) k m = cmd s k m := rfl
@[simp] theorem cmd_rsetF (s : State) (a i hi lo v : Nat) (k : Nat) (m : Word) :
    cmd (rsetF s a i hi lo v) k m = cmd s k m := rfl
@[simp] theorem cmd_cntN (s : State) (a i n : Nat) (k : Nat) (m : Word) : cmd (cntN s a i n) k m = cmd s k m := rfl
@[simp] theorem cmd_cnt (s : State) (a i : Nat) (k : Nat) (m : Word) : cmd (cnt s a i) k m = cmd s k m := rfl
@[simp] theorem cmd_rset64 (s : State) (a i v : Nat) (k : Nat) (m : Word) : cmd (rset64 s a i v) k m = cmd s k m := rfl
@[simp] theorem cmd_draw (s : State) (k : Nat) (m : Word) : cmd (draw s).2 k m = cmd s k m := rfl
@[simp] theorem cmd_updFold (s : State) (f : Nat) (g : Fold → Fold) (k : Nat) (m : Word) :
    cmd (updFold s f g) k m = cmd s k m := rfl
@[simp] theorem cmd_updCore (s : State) (c : Nat) (g : Core → Core) (k : Nat) (m : Word) :
    cmd (updCore s c g) k m = cmd s k m := rfl
@[simp] theorem cmd_updQueue (s : State) (q : Nat) (g : Queue → Queue) (k : Nat) (m : Word) :
    cmd (updQueue s q g) k m = cmd s k m := rfl
@[simp] theorem cmd_updTable (s : State) (i : Nat) (g : Table → Table) (k : Nat) (m : Word) :
    cmd (updTable s i g) k m = cmd s k m := rfl
@[simp] theorem cmd_updQp (s : State) (i : Nat) (g : Qp → Qp) (k : Nat) (m : Word) :
    cmd (updQp s i g) k m = cmd s k m := rfl
@[simp] theorem cmd_updSession (s : State) (i : Nat) (g : Session → Session) (k : Nat) (m : Word) :
    cmd (updSession s i g) k m = cmd s k m := rfl
@[simp] theorem cmd_updLink (s : State) (i : Nat) (g : Link → Link) (k : Nat) (m : Word) :
    cmd (updLink s i g) k m = cmd s k m := rfl
@[simp] theorem cmd_updUnit (s : State) (i : Nat) (g : Unit_ → Unit_) (k : Nat) (m : Word) :
    cmd (updUnit s i g) k m = cmd s k m := rfl

@[simp] theorem req_rset (s : State) (a i v : Nat) (k : Half) : req (rset s a i v) k = req s k := rfl
@[simp] theorem req_emit (s : State) (t : Tx) (k : Half) : req (emit s t) k = req s k := rfl
@[simp] theorem req_setFold (s : State) (f : Nat) (x : Fold) (k : Half) : req (setFold s f x) k = req s k := rfl
@[simp] theorem req_setCore (s : State) (c : Nat) (x : Core) (k : Half) : req (setCore s c x) k = req s k := rfl
@[simp] theorem req_setQueue (s : State) (q : Nat) (x : Queue) (k : Half) : req (setQueue s q x) k = req s k := rfl
@[simp] theorem req_setTable (s : State) (i : Nat) (x : Table) (k : Half) : req (setTable s i x) k = req s k := rfl
@[simp] theorem req_setQp (s : State) (i : Nat) (x : Qp) (k : Half) : req (setQp s i x) k = req s k := rfl
@[simp] theorem req_setSession (s : State) (i : Nat) (x : Session) (k : Half) : req (setSession s i x) k = req s k := rfl
@[simp] theorem req_setRegion (s : State) (i : Nat) (x : Region) (k : Half) : req (setRegion s i x) k = req s k := rfl
@[simp] theorem req_setLink (s : State) (i : Nat) (x : Link) (k : Half) : req (setLink s i x) k = req s k := rfl
@[simp] theorem req_setUnit (s : State) (i : Nat) (x : Unit_) (k : Half) : req (setUnit s i x) k = req s k := rfl
@[simp] theorem req_updCmd (s : State) (q : Nat) (n : Word) (g : Cmd → Cmd) (k : Half) :
    req (updCmd s q n g) k = req s k := rfl
@[simp] theorem req_dropCmd (s : State) (q : Nat) (n : Word) (k : Half) : req (dropCmd s q n) k = req s k := rfl
@[simp] theorem req_updXfer (s : State) (x : Nat) (g : Xfer → Xfer) (k : Half) : req (updXfer s x g) k = req s k := rfl
@[simp] theorem req_dropXfer (s : State) (x : Nat) (k : Half) : req (dropXfer s x) k = req s k := rfl
@[simp] theorem req_setSel (s : State) (w : Requester) (a v : Nat) (k : Half) : req (setSel s w a v) k = req s k := rfl
@[simp] theorem req_setLatch (s : State) (w : Requester) (a : Nat) (v : Option Word) (k : Half) :
    req (setLatch s w a v) k = req s k := rfl
@[simp] theorem req_rsetF (s : State) (a i hi lo v : Nat) (k : Half) : req (rsetF s a i hi lo v) k = req s k := rfl
@[simp] theorem req_cntN (s : State) (a i n : Nat) (k : Half) : req (cntN s a i n) k = req s k := rfl
@[simp] theorem req_cnt (s : State) (a i : Nat) (k : Half) : req (cnt s a i) k = req s k := rfl
@[simp] theorem req_rset64 (s : State) (a i v : Nat) (k : Half) : req (rset64 s a i v) k = req s k := rfl
@[simp] theorem req_draw (s : State) (k : Half) : req (draw s).2 k = req s k := rfl
@[simp] theorem req_updFold (s : State) (f : Nat) (g : Fold → Fold) (k : Half) : req (updFold s f g) k = req s k := rfl
@[simp] theorem req_updCore (s : State) (c : Nat) (g : Core → Core) (k : Half) : req (updCore s c g) k = req s k := rfl
@[simp] theorem req_updQueue (s : State) (q : Nat) (g : Queue → Queue) (k : Half) : req (updQueue s q g) k = req s k := rfl
@[simp] theorem req_updTable (s : State) (i : Nat) (g : Table → Table) (k : Half) : req (updTable s i g) k = req s k := rfl
@[simp] theorem req_updQp (s : State) (i : Nat) (g : Qp → Qp) (k : Half) : req (updQp s i g) k = req s k := rfl
@[simp] theorem req_updSession (s : State) (i : Nat) (g : Session → Session) (k : Half) :
    req (updSession s i g) k = req s k := rfl
@[simp] theorem req_updLink (s : State) (i : Nat) (g : Link → Link) (k : Half) : req (updLink s i g) k = req s k := rfl
@[simp] theorem req_updUnit (s : State) (i : Nat) (g : Unit_ → Unit_) (k : Half) : req (updUnit s i g) k = req s k := rfl

@[simp] theorem xfer_rset (s : State) (a i v : Nat) (k : Nat) : xfer (rset s a i v) k = xfer s k := rfl
@[simp] theorem xfer_emit (s : State) (t : Tx) (k : Nat) : xfer (emit s t) k = xfer s k := rfl
@[simp] theorem xfer_setFold (s : State) (f : Nat) (x : Fold) (k : Nat) : xfer (setFold s f x) k = xfer s k := rfl
@[simp] theorem xfer_setCore (s : State) (c : Nat) (x : Core) (k : Nat) : xfer (setCore s c x) k = xfer s k := rfl
@[simp] theorem xfer_setQueue (s : State) (q : Nat) (x : Queue) (k : Nat) : xfer (setQueue s q x) k = xfer s k := rfl
@[simp] theorem xfer_setTable (s : State) (i : Nat) (x : Table) (k : Nat) : xfer (setTable s i x) k = xfer s k := rfl
@[simp] theorem xfer_setQp (s : State) (i : Nat) (x : Qp) (k : Nat) : xfer (setQp s i x) k = xfer s k := rfl
@[simp] theorem xfer_setSession (s : State) (i : Nat) (x : Session) (k : Nat) : xfer (setSession s i x) k = xfer s k := rfl
@[simp] theorem xfer_setRegion (s : State) (i : Nat) (x : Region) (k : Nat) : xfer (setRegion s i x) k = xfer s k := rfl
@[simp] theorem xfer_setLink (s : State) (i : Nat) (x : Link) (k : Nat) : xfer (setLink s i x) k = xfer s k := rfl
@[simp] theorem xfer_setUnit (s : State) (i : Nat) (x : Unit_) (k : Nat) : xfer (setUnit s i x) k = xfer s k := rfl
@[simp] theorem xfer_updCmd (s : State) (q : Nat) (n : Word) (g : Cmd → Cmd) (k : Nat) :
    xfer (updCmd s q n g) k = xfer s k := rfl
@[simp] theorem xfer_dropCmd (s : State) (q : Nat) (n : Word) (k : Nat) : xfer (dropCmd s q n) k = xfer s k := rfl
@[simp] theorem xfer_updReq (s : State) (h : Half) (g : Req → Req) (k : Nat) : xfer (updReq s h g) k = xfer s k := rfl
@[simp] theorem xfer_setSel (s : State) (w : Requester) (a v : Nat) (k : Nat) : xfer (setSel s w a v) k = xfer s k := rfl
@[simp] theorem xfer_setLatch (s : State) (w : Requester) (a : Nat) (v : Option Word) (k : Nat) :
    xfer (setLatch s w a v) k = xfer s k := rfl
@[simp] theorem xfer_rsetF (s : State) (a i hi lo v : Nat) (k : Nat) : xfer (rsetF s a i hi lo v) k = xfer s k := rfl
@[simp] theorem xfer_cntN (s : State) (a i n : Nat) (k : Nat) : xfer (cntN s a i n) k = xfer s k := rfl
@[simp] theorem xfer_cnt (s : State) (a i : Nat) (k : Nat) : xfer (cnt s a i) k = xfer s k := rfl
@[simp] theorem xfer_rset64 (s : State) (a i v : Nat) (k : Nat) : xfer (rset64 s a i v) k = xfer s k := rfl
@[simp] theorem xfer_draw (s : State) (k : Nat) : xfer (draw s).2 k = xfer s k := rfl
@[simp] theorem xfer_updFold (s : State) (f : Nat) (g : Fold → Fold) (k : Nat) : xfer (updFold s f g) k = xfer s k := rfl
@[simp] theorem xfer_updCore (s : State) (c : Nat) (g : Core → Core) (k : Nat) : xfer (updCore s c g) k = xfer s k := rfl
@[simp] theorem xfer_updQueue (s : State) (q : Nat) (g : Queue → Queue) (k : Nat) :
    xfer (updQueue s q g) k = xfer s k := rfl
@[simp] theorem xfer_updTable (s : State) (i : Nat) (g : Table → Table) (k : Nat) :
    xfer (updTable s i g) k = xfer s k := rfl
@[simp] theorem xfer_updQp (s : State) (i : Nat) (g : Qp → Qp) (k : Nat) : xfer (updQp s i g) k = xfer s k := rfl
@[simp] theorem xfer_updSession (s : State) (i : Nat) (g : Session → Session) (k : Nat) :
    xfer (updSession s i g) k = xfer s k := rfl
@[simp] theorem xfer_updLink (s : State) (i : Nat) (g : Link → Link) (k : Nat) : xfer (updLink s i g) k = xfer s k := rfl
@[simp] theorem xfer_updUnit (s : State) (i : Nat) (g : Unit_ → Unit_) (k : Nat) : xfer (updUnit s i g) k = xfer s k := rfl

@[simp] theorem rv_emit (s : State) (t : Tx) (k j : Nat) : rv (emit s t) k j = rv s k j := rfl
@[simp] theorem rv_setFold (s : State) (f : Nat) (x : Fold) (k j : Nat) : rv (setFold s f x) k j = rv s k j := rfl
@[simp] theorem rv_setCore (s : State) (c : Nat) (x : Core) (k j : Nat) : rv (setCore s c x) k j = rv s k j := rfl
@[simp] theorem rv_setQueue (s : State) (q : Nat) (x : Queue) (k j : Nat) : rv (setQueue s q x) k j = rv s k j := rfl
@[simp] theorem rv_setTable (s : State) (i : Nat) (x : Table) (k j : Nat) : rv (setTable s i x) k j = rv s k j := rfl
@[simp] theorem rv_setQp (s : State) (i : Nat) (x : Qp) (k j : Nat) : rv (setQp s i x) k j = rv s k j := rfl
@[simp] theorem rv_setSession (s : State) (i : Nat) (x : Session) (k j : Nat) : rv (setSession s i x) k j = rv s k j := rfl
@[simp] theorem rv_setRegion (s : State) (i : Nat) (x : Region) (k j : Nat) : rv (setRegion s i x) k j = rv s k j := rfl
@[simp] theorem rv_setLink (s : State) (i : Nat) (x : Link) (k j : Nat) : rv (setLink s i x) k j = rv s k j := rfl
@[simp] theorem rv_setUnit (s : State) (i : Nat) (x : Unit_) (k j : Nat) : rv (setUnit s i x) k j = rv s k j := rfl
@[simp] theorem rv_updCmd (s : State) (q : Nat) (n : Word) (g : Cmd → Cmd) (k j : Nat) :
    rv (updCmd s q n g) k j = rv s k j := rfl
@[simp] theorem rv_dropCmd (s : State) (q : Nat) (n : Word) (k j : Nat) : rv (dropCmd s q n) k j = rv s k j := rfl
@[simp] theorem rv_updReq (s : State) (h : Half) (g : Req → Req) (k j : Nat) : rv (updReq s h g) k j = rv s k j := rfl
@[simp] theorem rv_updXfer (s : State) (x : Nat) (g : Xfer → Xfer) (k j : Nat) : rv (updXfer s x g) k j = rv s k j := rfl
@[simp] theorem rv_dropXfer (s : State) (x : Nat) (k j : Nat) : rv (dropXfer s x) k j = rv s k j := rfl
@[simp] theorem rv_setSel (s : State) (w : Requester) (a v : Nat) (k j : Nat) : rv (setSel s w a v) k j = rv s k j := rfl
@[simp] theorem rv_setLatch (s : State) (w : Requester) (a : Nat) (v : Option Word) (k j : Nat) :
    rv (setLatch s w a v) k j = rv s k j := rfl
@[simp] theorem rv_draw (s : State) (k j : Nat) : rv (draw s).2 k j = rv s k j := rfl
@[simp] theorem rv_updFold (s : State) (f : Nat) (g : Fold → Fold) (k j : Nat) : rv (updFold s f g) k j = rv s k j := rfl
@[simp] theorem rv_updCore (s : State) (c : Nat) (g : Core → Core) (k j : Nat) : rv (updCore s c g) k j = rv s k j := rfl
@[simp] theorem rv_updQueue (s : State) (q : Nat) (g : Queue → Queue) (k j : Nat) :
    rv (updQueue s q g) k j = rv s k j := rfl
@[simp] theorem rv_updTable (s : State) (i : Nat) (g : Table → Table) (k j : Nat) :
    rv (updTable s i g) k j = rv s k j := rfl
@[simp] theorem rv_updQp (s : State) (i : Nat) (g : Qp → Qp) (k j : Nat) : rv (updQp s i g) k j = rv s k j := rfl
@[simp] theorem rv_updSession (s : State) (i : Nat) (g : Session → Session) (k j : Nat) :
    rv (updSession s i g) k j = rv s k j := rfl
@[simp] theorem rv_updLink (s : State) (i : Nat) (g : Link → Link) (k j : Nat) : rv (updLink s i g) k j = rv s k j := rfl
@[simp] theorem rv_updUnit (s : State) (i : Nat) (g : Unit_ → Unit_) (k j : Nat) : rv (updUnit s i g) k j = rv s k j := rfl

@[simp] theorem now_rset (s : State) (a i v : Nat) : now (rset s a i v) = now s := rfl
@[simp] theorem now_emit (s : State) (t : Tx) : now (emit s t) = now s := rfl
@[simp] theorem now_setFold (s : State) (f : Nat) (x : Fold) : now (setFold s f x) = now s := rfl
@[simp] theorem now_setCore (s : State) (c : Nat) (x : Core) : now (setCore s c x) = now s := rfl
@[simp] theorem now_setQueue (s : State) (q : Nat) (x : Queue) : now (setQueue s q x) = now s := rfl
@[simp] theorem now_setTable (s : State) (i : Nat) (x : Table) : now (setTable s i x) = now s := rfl
@[simp] theorem now_setQp (s : State) (i : Nat) (x : Qp) : now (setQp s i x) = now s := rfl
@[simp] theorem now_setSession (s : State) (i : Nat) (x : Session) : now (setSession s i x) = now s := rfl
@[simp] theorem now_setRegion (s : State) (i : Nat) (x : Region) : now (setRegion s i x) = now s := rfl
@[simp] theorem now_setLink (s : State) (i : Nat) (x : Link) : now (setLink s i x) = now s := rfl
@[simp] theorem now_setUnit (s : State) (i : Nat) (x : Unit_) : now (setUnit s i x) = now s := rfl
@[simp] theorem now_updCmd (s : State) (q : Nat) (n : Word) (g : Cmd → Cmd) : now (updCmd s q n g) = now s := rfl
@[simp] theorem now_dropCmd (s : State) (q : Nat) (n : Word) : now (dropCmd s q n) = now s := rfl
@[simp] theorem now_updReq (s : State) (h : Half) (g : Req → Req) : now (updReq s h g) = now s := rfl
@[simp] theorem now_updXfer (s : State) (x : Nat) (g : Xfer → Xfer) : now (updXfer s x g) = now s := rfl
@[simp] theorem now_dropXfer (s : State) (x : Nat) : now (dropXfer s x) = now s := rfl
@[simp] theorem now_setSel (s : State) (w : Requester) (a v : Nat) : now (setSel s w a v) = now s := rfl
@[simp] theorem now_setLatch (s : State) (w : Requester) (a : Nat) (v : Option Word) : now (setLatch s w a v) = now s := rfl
@[simp] theorem now_rsetF (s : State) (a i hi lo v : Nat) : now (rsetF s a i hi lo v) = now s := rfl
@[simp] theorem now_cntN (s : State) (a i n : Nat) : now (cntN s a i n) = now s := rfl
@[simp] theorem now_cnt (s : State) (a i : Nat) : now (cnt s a i) = now s := rfl
@[simp] theorem now_rset64 (s : State) (a i v : Nat) : now (rset64 s a i v) = now s := rfl
@[simp] theorem now_draw (s : State) : now (draw s).2 = now s := rfl
@[simp] theorem now_updFold (s : State) (f : Nat) (g : Fold → Fold) : now (updFold s f g) = now s := rfl
@[simp] theorem now_updCore (s : State) (c : Nat) (g : Core → Core) : now (updCore s c g) = now s := rfl
@[simp] theorem now_updQueue (s : State) (q : Nat) (g : Queue → Queue) : now (updQueue s q g) = now s := rfl
@[simp] theorem now_updTable (s : State) (i : Nat) (g : Table → Table) : now (updTable s i g) = now s := rfl
@[simp] theorem now_updQp (s : State) (i : Nat) (g : Qp → Qp) : now (updQp s i g) = now s := rfl
@[simp] theorem now_updSession (s : State) (i : Nat) (g : Session → Session) : now (updSession s i g) = now s := rfl
@[simp] theorem now_updLink (s : State) (i : Nat) (g : Link → Link) : now (updLink s i g) = now s := rfl
@[simp] theorem now_updUnit (s : State) (i : Nat) (g : Unit_ → Unit_) : now (updUnit s i g) = now s := rfl

@[simp] theorem slow_rset (s : State) (a i v : Nat) : slow (rset s a i v) = slow s := rfl
@[simp] theorem slow_emit (s : State) (t : Tx) : slow (emit s t) = slow s := rfl
@[simp] theorem slow_setFold (s : State) (f : Nat) (x : Fold) : slow (setFold s f x) = slow s := rfl
@[simp] theorem slow_setCore (s : State) (c : Nat) (x : Core) : slow (setCore s c x) = slow s := rfl
@[simp] theorem slow_setQueue (s : State) (q : Nat) (x : Queue) : slow (setQueue s q x) = slow s := rfl
@[simp] theorem slow_setTable (s : State) (i : Nat) (x : Table) : slow (setTable s i x) = slow s := rfl
@[simp] theorem slow_setQp (s : State) (i : Nat) (x : Qp) : slow (setQp s i x) = slow s := rfl
@[simp] theorem slow_setSession (s : State) (i : Nat) (x : Session) : slow (setSession s i x) = slow s := rfl
@[simp] theorem slow_setRegion (s : State) (i : Nat) (x : Region) : slow (setRegion s i x) = slow s := rfl
@[simp] theorem slow_setLink (s : State) (i : Nat) (x : Link) : slow (setLink s i x) = slow s := rfl
@[simp] theorem slow_setUnit (s : State) (i : Nat) (x : Unit_) : slow (setUnit s i x) = slow s := rfl
@[simp] theorem slow_updCmd (s : State) (q : Nat) (n : Word) (g : Cmd → Cmd) : slow (updCmd s q n g) = slow s := rfl
@[simp] theorem slow_dropCmd (s : State) (q : Nat) (n : Word) : slow (dropCmd s q n) = slow s := rfl
@[simp] theorem slow_updReq (s : State) (h : Half) (g : Req → Req) : slow (updReq s h g) = slow s := rfl
@[simp] theorem slow_updXfer (s : State) (x : Nat) (g : Xfer → Xfer) : slow (updXfer s x g) = slow s := rfl
@[simp] theorem slow_dropXfer (s : State) (x : Nat) : slow (dropXfer s x) = slow s := rfl
@[simp] theorem slow_setSel (s : State) (w : Requester) (a v : Nat) : slow (setSel s w a v) = slow s := rfl
@[simp] theorem slow_setLatch (s : State) (w : Requester) (a : Nat) (v : Option Word) :
    slow (setLatch s w a v) = slow s := rfl
@[simp] theorem slow_rsetF (s : State) (a i hi lo v : Nat) : slow (rsetF s a i hi lo v) = slow s := rfl
@[simp] theorem slow_cntN (s : State) (a i n : Nat) : slow (cntN s a i n) = slow s := rfl
@[simp] theorem slow_cnt (s : State) (a i : Nat) : slow (cnt s a i) = slow s := rfl
@[simp] theorem slow_rset64 (s : State) (a i v : Nat) : slow (rset64 s a i v) = slow s := rfl
@[simp] theorem slow_draw (s : State) : slow (draw s).2 = slow s := rfl
@[simp] theorem slow_updFold (s : State) (f : Nat) (g : Fold → Fold) : slow (updFold s f g) = slow s := rfl
@[simp] theorem slow_updCore (s : State) (c : Nat) (g : Core → Core) : slow (updCore s c g) = slow s := rfl
@[simp] theorem slow_updQueue (s : State) (q : Nat) (g : Queue → Queue) : slow (updQueue s q g) = slow s := rfl
@[simp] theorem slow_updTable (s : State) (i : Nat) (g : Table → Table) : slow (updTable s i g) = slow s := rfl
@[simp] theorem slow_updQp (s : State) (i : Nat) (g : Qp → Qp) : slow (updQp s i g) = slow s := rfl
@[simp] theorem slow_updSession (s : State) (i : Nat) (g : Session → Session) : slow (updSession s i g) = slow s := rfl
@[simp] theorem slow_updLink (s : State) (i : Nat) (g : Link → Link) : slow (updLink s i g) = slow s := rfl
@[simp] theorem slow_updUnit (s : State) (i : Nat) (g : Unit_ → Unit_) : slow (updUnit s i g) = slow s := rfl

/-! ## Readers after an update of what they read -/

@[simp] theorem fold_setFold_same (s : State) (k : Nat) (x : Fold) : fold (setFold s k x) k = x := mget_mset_same _ _ _ _
theorem fold_setFold_other (s : State) (k j : Nat) (x : Fold) (h : j ≠ k) : fold (setFold s k x) j = fold s j :=
  mget_mset_other _ _ _ _ _ h
@[simp] theorem fold_updFold_same (s : State) (k : Nat) (g : Fold → Fold) : fold (updFold s k g) k = g (fold s k) :=
  mget_mset_same _ _ _ _
theorem fold_updFold_other (s : State) (k j : Nat) (g : Fold → Fold) (h : j ≠ k) : fold (updFold s k g) j = fold s j :=
  mget_mset_other _ _ _ _ _ h
@[simp] theorem core_setCore_same (s : State) (k : Nat) (x : Core) : core (setCore s k x) k = x := mget_mset_same _ _ _ _
theorem core_setCore_other (s : State) (k j : Nat) (x : Core) (h : j ≠ k) : core (setCore s k x) j = core s j :=
  mget_mset_other _ _ _ _ _ h
@[simp] theorem core_updCore_same (s : State) (k : Nat) (g : Core → Core) : core (updCore s k g) k = g (core s k) :=
  mget_mset_same _ _ _ _
theorem core_updCore_other (s : State) (k j : Nat) (g : Core → Core) (h : j ≠ k) : core (updCore s k g) j = core s j :=
  mget_mset_other _ _ _ _ _ h
@[simp] theorem queue_setQueue_same (s : State) (k : Nat) (x : Queue) :
    queue (setQueue s k x) k = x := mget_mset_same _ _ _ _
theorem queue_setQueue_other (s : State) (k j : Nat) (x : Queue) (h : j ≠ k) : queue (setQueue s k x) j = queue s j :=
  mget_mset_other _ _ _ _ _ h
@[simp] theorem queue_updQueue_same (s : State) (k : Nat) (g : Queue → Queue) : queue (updQueue s k g) k = g (queue s k) :=
  mget_mset_same _ _ _ _
theorem queue_updQueue_other (s : State) (k j : Nat) (g : Queue → Queue) (h : j ≠ k) : queue (updQueue s k g) j = queue s j :=
  mget_mset_other _ _ _ _ _ h
@[simp] theorem table_setTable_same (s : State) (k : Nat) (x : Table) :
    table (setTable s k x) k = x := mget_mset_same _ _ _ _
theorem table_setTable_other (s : State) (k j : Nat) (x : Table) (h : j ≠ k) : table (setTable s k x) j = table s j :=
  mget_mset_other _ _ _ _ _ h
@[simp] theorem table_updTable_same (s : State) (k : Nat) (g : Table → Table) : table (updTable s k g) k = g (table s k) :=
  mget_mset_same _ _ _ _
theorem table_updTable_other (s : State) (k j : Nat) (g : Table → Table) (h : j ≠ k) : table (updTable s k g) j = table s j :=
  mget_mset_other _ _ _ _ _ h
@[simp] theorem qp_setQp_same (s : State) (k : Nat) (x : Qp) : qp (setQp s k x) k = x := mget_mset_same _ _ _ _
theorem qp_setQp_other (s : State) (k j : Nat) (x : Qp) (h : j ≠ k) : qp (setQp s k x) j = qp s j :=
  mget_mset_other _ _ _ _ _ h
@[simp] theorem qp_updQp_same (s : State) (k : Nat) (g : Qp → Qp) : qp (updQp s k g) k = g (qp s k) :=
  mget_mset_same _ _ _ _
theorem qp_updQp_other (s : State) (k j : Nat) (g : Qp → Qp) (h : j ≠ k) : qp (updQp s k g) j = qp s j :=
  mget_mset_other _ _ _ _ _ h
@[simp] theorem session_setSession_same (s : State) (k : Nat) (x : Session) :
    session (setSession s k x) k = x := mget_mset_same _ _ _ _
theorem session_setSession_other (s : State) (k j : Nat) (x : Session) (h : j ≠ k) : session (setSession s k x) j = session s j :=
  mget_mset_other _ _ _ _ _ h
@[simp] theorem session_updSession_same (s : State) (k : Nat) (g : Session → Session) :
    session (updSession s k g) k = g (session s k) :=
  mget_mset_same _ _ _ _
theorem session_updSession_other (s : State) (k j : Nat) (g : Session → Session) (h : j ≠ k) : session (updSession s k g) j = session s j :=
  mget_mset_other _ _ _ _ _ h
@[simp] theorem region_setRegion_same (s : State) (k : Nat) (x : Region) :
    region (setRegion s k x) k = x := mget_mset_same _ _ _ _
theorem region_setRegion_other (s : State) (k j : Nat) (x : Region) (h : j ≠ k) : region (setRegion s k x) j = region s j :=
  mget_mset_other _ _ _ _ _ h
@[simp] theorem link_setLink_same (s : State) (k : Nat) (x : Link) : link (setLink s k x) k = x := mget_mset_same _ _ _ _
theorem link_setLink_other (s : State) (k j : Nat) (x : Link) (h : j ≠ k) : link (setLink s k x) j = link s j :=
  mget_mset_other _ _ _ _ _ h
@[simp] theorem link_updLink_same (s : State) (k : Nat) (g : Link → Link) : link (updLink s k g) k = g (link s k) :=
  mget_mset_same _ _ _ _
theorem link_updLink_other (s : State) (k j : Nat) (g : Link → Link) (h : j ≠ k) : link (updLink s k g) j = link s j :=
  mget_mset_other _ _ _ _ _ h
@[simp] theorem unit_setUnit_same (s : State) (k : Nat) (x : Unit_) : unit (setUnit s k x) k = x := mget_mset_same _ _ _ _
theorem unit_setUnit_other (s : State) (k j : Nat) (x : Unit_) (h : j ≠ k) : unit (setUnit s k x) j = unit s j :=
  mget_mset_other _ _ _ _ _ h
@[simp] theorem unit_updUnit_same (s : State) (k : Nat) (g : Unit_ → Unit_) : unit (updUnit s k g) k = g (unit s k) :=
  mget_mset_same _ _ _ _
theorem unit_updUnit_other (s : State) (k j : Nat) (g : Unit_ → Unit_) (h : j ≠ k) : unit (updUnit s k g) j = unit s j :=
  mget_mset_other _ _ _ _ _ h

theorem rv_rset_same (s : State) (a i v : Nat) : rv (rset s a i v) a i = v % 2 ^ 32 := by
  unfold rv; simp
theorem mget_default {α : Type} (d e : α) (m : Map α) (i : Nat) (x : α) (h : mget d m i = x) (k : x ≠ d) :
    mget e m i = x := by
  induction m with
  | nil => exact absurd h.symm k
  | cons c m ih =>
    obtain ⟨j, w⟩ := c
    unfold mget at h ⊢
    split
    · rw [if_pos ‹_›] at h; exact h
    · rw [if_neg ‹_›] at h; exact ih h
/-- A register of another key reads as before. -/
theorem rv_rset_other (s : State) (a i v b j : Nat) (h : regKey b j ≠ regKey a i) : rv (rset s a i v) b j = rv s b j := by
  unfold rv rset
  simp only
  have key : ∀ d : Word, mget d (mset (regReset a) s.regs (regKey a i) (BitVec.ofNat 32 v)) (regKey b j) =
      mget d s.regs (regKey b j) := by
    intro d
    unfold mset
    split
    · exact mget_mdel_other _ _ _ _ h
    · exact mget_mput_other _ _ _ _ _ h
  rw [key]
theorem rv_cnt_other (s : State) (a i b j : Nat) (h : regKey b j ≠ regKey a i) : rv (cnt s a i) b j = rv s b j :=
  rv_rset_other _ _ _ _ _ _ h
theorem rv_cnt_same (s : State) (a i : Nat) : rv (cnt s a i) a i = (rv s a i + 1) % 2 ^ 32 := rv_rset_same _ _ _ _
theorem rv_rsetF_other (s : State) (a i hi lo v b j : Nat) (h : regKey b j ≠ regKey a i) :
    rv (rsetF s a i hi lo v) b j = rv s b j := rv_rset_other _ _ _ _ _ _ h

end Sys2Proof.Machine
end

