-- ==== Sys2Proof/WellFormed.lean ====
section
/-! DEFINITION. Which commands are well formed: the sizes that the operands of a command must have to be
the event the row names. -/

namespace Sys2Proof

/-- A command whose operands can be the event of its row. -/
def Instr.wellFormed : Instr → Bool
  | .ringReadLands _ slots => slots.all (fun b => b.length == 64) && slots.length ≤ 16
  | .claim m => m.data.length ≤ 9216
  | .programAccept _ desc => desc.length == 64
  | .bulk _ _ rows => rows.length ≤ 65536
  | .ready _ _ tabs => tabs.all (fun x => x.root.length == 32)
  | .go _ roots => roots.all (fun e => e.2.all (fun r => r.length == 32))
  | .root _ _ r => r.length == 32
  | .identity rec helper blocks => rec.length == 5396 && helper.length == 8192 && blocks.all (fun x => x.length == 16384)
  | .pwrgoodFall _ _ straps => 3 ≤ straps.length || straps.isEmpty
  | .resetNAssert _ _ straps => 3 ≤ straps.length || straps.isEmpty
  | .flashOpDone failed data => failed || data.length ≤ 4096
  | .tokenLoad token => token.length == 3804
  | .monitorRead m => m.sites.length == 64
  | .replan sites1 sites2 links eth ucie _ _ _ =>
    sites1.length == 64 && sites2.length == 64 && links.length == 32 && eth.length == 32 && ucie.length == 16
  | .memory _ eyes m _ =>
    eyes.length == 128 && m.sites1.length == 64 && m.sites2.length == 64 && m.eth.length == 32 && m.ucie.length == 16
  | .refreshRateRead _ rates => rates.length ≤ 2
  | .neighbourDiscovery _ ipv6 addr => addr.length == if ipv6 then 16 else 4
  | .telemetryRefresh rails _ => rails.length == 5
  | .flitReceive _ flit _ _ _ => flit.length == 252
  | .doorbell _ k _ _ _ | .sendReceived ⟨⟨_, k⟩, _⟩ => k.gid.length == 16
  | .keepalive rx _ _ | .configRdmaAccess _ rx _ _ _ _ _ | .peerWindowAccess rx _ _ _ _ _ | .sessionWindowRead rx _ _ _ =>
    rx.pkt.gid.length == 16
  | .atomicReceived rx | .ceMarkedPacket rx | .cnpReceived rx | .ackReceived rx _ | .nakReceived rx _ =>
    rx.pkt.gid.length == 16
  | .launch .. | .lookup .. | .update .. | .tableLoadFull .. | .tableLoadRows .. | .tableCommit ..
  | .tableCommitDrop .. | .tableExport .. | .graphStore .. | .graphPatch .. | .graphRetire .. | .fence .. | .nop ..
  | .abortCommand .. | .abortQueue .. | .abortCid .. | .abortAllQueues .. | .queueCreate .. | .queueDestroy ..
  | .regionMap .. | .regionUnmap .. | .statsRead .. | .attest .. | .pairForm .. | .pairBreak .. | .pairSwitch ..
  | .pairTakeover .. | .pairResync .. | .leaseRenewOwner .. | .leaseRenewSession ..
  | .feQ0DbLo .. | .feQ0DbHi .. | .staleBackoffExpire .. | .queueTimeout .. | .dmaReadLands .. | .dmaPieceIssue ..
  | .faultWaitRewalk .. | .faultWaitExpire .. | .xlSyncDone .. | .window1Zeroed .. | .inputSegmentLands ..
  | .cnop .. | .loop .. | .br .. | .brc .. | .wait .. | .addi .. | .lui .. | .alu .. | .ldx .. | .stx .. | .trap ..
  | .endLaunch .. | .mnop .. | .copy .. | .fill .. | .ldw .. | .stw .. | .gissue .. | .grel .. | .allgather ..
  | .dcollPut .. | .dcollGet .. | .barrier .. | .output .. | .anop .. | .mma .. | .aclr .. | .vnop .. | .vew ..
  | .vscan .. | .vred .. | .sliceDone .. | .collectiveDone .. | .outputRangeRead .. | .issueQueueFree ..
  | .yieldPoint .. | .endRequest .. | .launchEnd .. | .completionPost .. | .programBody .. | .rowReadReturn ..
  | .partialSlice .. | .tileRelease .. | .dependenceRelease .. | .contextDrained .. | .decayPeriodEnd ..
  | .migrationFlip .. | .epochGraceExpire .. | .asideFree .. | .tableCommitStep .. | .updateCommitPoint ..
  | .updatePublish .. | .recoveringClear .. | .fmRequest .. | .runIssue .. | .readDataReturn .. | .refresh ..
  | .maintenanceSlot .. | .scrub .. | .fillDone .. | .retrainStep .. | .unitResetRequest .. | .quiet ..
  | .unitResetDone .. | .errorReport .. | .residueMismatch .. | .replay .. | .faultRecordClose ..
  | .pauseFrame .. | .ptpMessage .. | .rateIncrease .. | .pfcXoff .. | .pfcXon ..
  | .pfcStuck .. | .ackTimeout .. | .macLinkChange .. | .sessionLeaseExpire ..
  | .npLeaseRenew .. | .npSesOpen .. | .npSesClose .. | .npQpEnable .. | .npQpReset .. | .stepBack ..
  | .npPortMode .. | .feQEnable .. | .feQKey0 .. | .xlTblWin .. | .xlFqCons .. | .igFlogCons .. | .igUrst ..
  | .pcRstCtlWhole .. | .pcWorldMap .. | .pcOwnerKey .. | .pcDbgSubmit .. | .pcFlashErase .. | .pcFlashProgram ..
  | .pcFlashRead .. | .replanRequest .. | .dlPartId .. | .dlLinkRetrain .. | .dissolve .. | .gxPolicyCtl ..
  | .gxPopThresh .. | .fmPartRate .. | .fmEccInj .. | .maResInj .. | .veQsClear .. | .ruConvClear ..
  | .scratchWindowAccess .. | .lowHalfRead .. | .registerWrite .. | .droveNak ..
  | .flitAckTimeout .. | .linkTrainingDone .. | .linkTrainingFail .. | .linkLossOfLock .. | .pinReq .. | .pin ..
  | .record .. | .keyRecordTimeout .. | .release .. | .cancel .. | .barrierTimeout .. | .clear .. | .slice ..
  | .put .. | .getReq .. | .getData .. | .deny .. | .abandon .. | .collectiveTimeout .. | .hb ..
  | .partnerSilent .. | .stream .. | .prepared .. | .commit .. | .discard .. | .foldPllLoss ..
  | .ethReferenceLoss .. | .romSelf .. | .imageSpi .. | .fallbackDatagram .. | .fallbackSpiRetry .. | .fwStart ..
  | .folds .. | .thermAlertN .. | .forceThrottleN .. | .pairSyncIn .. | .minimumGapEnd .. | .stuckTimeout ..
  | .reArm .. | .trstN .. | .sidebandWrite .. | .sidebandRead .. | .entdaa .. | .samplePreload .. | .debugAccess ..
  | .thermalLoop .. | .powerLoop .. | .avsRetry .. | .graphCheckDone .. | .pairMsg .. | .ucieModuleDown ..
  | .linkEnable .. | .launchAdmission .. | .lookupAdmission .. | .ptpSyncLoss ..
  | .ownerLeaseExpire .. | .hbSend .. | .pairSyncToggle .. | .pwrgoodRise .. | .resetNRelease .. | .rootPllLock ..
  | .rootPllLoss .. | .droveReferenceLoss .. | .bootWatchdog .. | .thermtrip .. | .sbSclStuck .. | .idcode ..
  | .bypass .. | .extest .. | .replanPeriod .. | .pairAnswerTimeout .. | .containmentDone ..
  | .rootPllLockTimeout .. => true

end Sys2Proof
end

