-- ==== Sys2Proof/Tests/Slice0.lean ====
section
/-! SUPPORT. Tests of the model on small states, the ill-formed terms that WellFormed refuses, and for every statement with
hypotheses one theorem that shows, clause by clause, a state and operands that meet them together. -/

namespace Sys2Proof.Machine.Tests

set_option Elab.async false
set_option linter.unusedVariables false

open Sys2Proof

/-! ## Builders -/

/-- `n` bytes that hold the fields given (offset, length, value), little-endian, and 0 elsewhere. -/
def bytesOf (n : Nat) (fs : List (Nat × Nat × Nat)) : Bytes :=
  (List.range n).map (fun i => match fs.find? (fun e => e.1 ≤ i && i < e.1 + e.2.1) with
    | some e => BitVec.ofNat 8 (e.2.2 / 256 ^ (i - e.1))
    | none => 0)

/-- A command of opcode `op` with operand fields. -/
def cm (q : BitVec 10) (n : Word) (op : Nat) (fs : List (Nat × Nat × Nat)) : Cmd :=
  { q := q, n := n, entry := bytesOf 64 ((0, 1, op) :: fs), payload := [] }

/-- A part in the OWNED stage with a good record and identity. -/
def live : State :=
  let s := setStage (rset State.reset aPcSecStat 0 7) 9
  { s with np := { s.np with owned := true }, pc := { s.pc with record := bytesOf 64 [(28, 1, 32)] } }

/-- A part in a boot stage. -/
def at_ (n : Nat) : State := setStage State.reset n

/-- A state with the commands given. -/
def having (s : State) (l : List Cmd) : State := { s with fe := { s.fe with cmds := l } }

/-- The PC firmware's access. -/
def fw : Acc := { who := .pcFw, secure := true }

/-! ## Values that the manual works out -/

/-- Row 1,000 of the trained B4 table under rule MSE: group codes, super-scale, codes and statistics (worked conversion of
05_quantisation.md). -/
def workedRow : Conv :=
  convert .b4 false 32 {} ([0x40700000, 0xBF800000] ++ List.replicate 30 0 ++ [0x3F000000, 0x3E500000, 0xBDE00000] ++
    List.replicate 29 0)

theorem test_b4_scales : workedRow.super = 0x40000000 ∧ workedRow.gcodes = [0xFF, 0xE8] := by decide +kernel
theorem test_b4_codes : workedRow.codes.take 2 = [0x7, 0xB] ∧ (workedRow.codes.drop 32).take 4 = [0x7, 0x4, 0xB, 0x0] := by
  decide +kernel
theorem test_b4_statistics : workedRow.stats.count = 64 ∧ workedRow.stats.sse = 0x3F90140000000000 ∧
    workedRow.stats.ss = 0x402EBB4000000000 ∧ workedRow.stats.absmax = 0x40700000 ∧
    workedRow.stats.errmax = 0x3DF80000 := by decide +kernel
/-- The header of that row: TAG 0xE8, B4 with group 32, and the packed elements 0 and 1. -/
theorem test_b4_slot : slice (rowSlot 0 0 64 1000 0 0 0 workedRow.super workedRow.gcodes (packCodes .b4 workedRow.codes)) 0 64 =
    [0xFF, 0xE8] ++ List.replicate 14 0 ++ [0, 0, 0, 0x40, 0xE8, 0] ++ List.replicate 10 0 ++ [0xB7] ++ List.replicate 15 0 ++
      [0x47, 0x0B] ++ List.replicate 14 0 := by decide +kernel
/-- A B4 row of dimension 128 takes 96 B (worked example of 02_embedding_tables.md). -/
theorem test_slot_bytes : slotSize 0 128 = 96 := by decide
/-- Dense features from −2.0 to 1.984375, with 0.7 between, in INT8A (worked conversion of 05_quantisation.md). -/
theorem test_int8a : (convertA {} [0xC0000000, 0x3FFE0000, 0x3F333333]).1 = 0x3C800000 ∧
    (convertA {} [0xC0000000, 0x3FFE0000, 0x3F333333]).2.1 = 0 ∧
    (convertA {} [0xC0000000, 0x3FFE0000, 0x3F333333]).2.2.1 = [128, 127, 45] := by decide +kernel
/-- A block of one value: S = 0x00800000, ZP the value, every q = 0. -/
theorem test_int8a_constant : (convertA {} (List.replicate 256 0x3E99999A)).1 = 0x00800000 ∧
    (convertA {} (List.replicate 256 0x3E99999A)).2.1 = 0x3E99999A ∧
    (convertA {} (List.replicate 256 0x3E99999A)).2.2.1 = List.replicate 256 0 := by decide +kernel
/-- Fold address 0x4B3A2960: channel 5, sector 2,465,043, row index 41,084, bank 11, DRAM row 2,567, check sector 60 (worked
example of 12_fold_memory.md). -/
theorem test_header_located : chanOf 0x4B3A2960 = 5 ∧ secOf 0x4B3A2960 = 2465043 ∧ rowIdx 2465043 = 41084 ∧
    bankOf 2465043 = 11 ∧ dramRow 2465043 = 2567 ∧ chkSec 2465043 = 60 ∧ addrOf 5 2465043 = 0x4B3A2960 := by decide
/-- Descriptor of the MMA of layer 1, outputs 0 to 255: B4 with group 32 against E4M3 with group 32, 256, 32, 34 (worked
example of 07_matrix_and_vector_engines.md). -/
def layer1 : Bytes := bytesOf 64 [(14, 1, 4), (30, 1, 4), (31, 1, 1), (32, 2, 256), (34, 1, 32), (36, 2, 34)]
theorem test_mma_occupies : (maJob 0 { pace := 16 } 1 0 0 true 0 0 { data := layer1 }).period = 64 ∧
    (maJob 0 { pace := 16 } 1 0 0 true 0 0 { data := layer1 }).occ = 2214 := by decide +kernel
/-- The table pages of the worked example of 11_translation_and_protection.md: context 9 with root page 12. -/
def paged : State :=
  rset { live with xl := { live.xl with store := [(6292, 0x12D001), (154290, 0x755001), (961130, 0xFFA001),
    (2094103, 0x0250_00C3_5E21_0037)] } } aXlCtxCfg 9 0xC001
theorem test_walk_finds_leaf : walkCtx paged 9 0x4A2C8D417A80 = .inr 2094103 := by decide +kernel
theorem test_walk_misses_level : walkCtx { paged with xl := { paged.xl with store := [(6292, 0x12D001), (154290, 0x755001)] } } 9
    0x4A2C8D417A80 = .inl 2 := by decide +kernel
/-- Target 37 and remote address 0x0000_00C3_5E21_0A80. -/
theorem test_leaf_translates : leafXlat (rset (rset (setQp (rset live aNpQpCfg 5 2) 5 { st := .rts }) aXlTgtCfg 37 0x50001)
    aXlTgtRkey 37 77) { q := some 7, cid := 9, secure := false } 0x4A2C8D417A80 { leaf := 0x025000C35E210037 } true =
      .remote 5 77 0xC35E210A80 := by decide +kernel
/-- Signed and unsigned branch conditions, and a shift by more than 31 (R167). -/
theorem test_branch_signs : condHolds 2 0xFFFFFFFF 1 = true ∧ condHolds 4 0xFFFFFFFF 1 = false := by decide
theorem test_shift_count : aluFn 5 1 33 = some 2 := by decide

/-! ## Ill-formed commands are refused -/

theorem test_wf_slot_short : Instr.wellFormed (.ringReadLands 0 [[]]) = false := by decide
theorem test_wf_slots_many : Instr.wellFormed (.ringReadLands 0 (List.replicate 17 (List.replicate 64 0))) = false := by
  decide +kernel
theorem test_wf_claim_long : Instr.wellFormed (.claim ⟨⟨0, 64, none, false⟩, List.replicate 9217 0⟩) = false := by decide +kernel
theorem test_wf_program_short : Instr.wellFormed (.programAccept 0 []) = false := by decide
theorem test_wf_bulk_long : Instr.wellFormed (.bulk 0 0 (List.replicate 65537 ⟨[], []⟩)) = false := by decide +kernel
theorem test_wf_ready_root : Instr.wellFormed (.ready 0 true [⟨5, 1, [], true⟩]) = false := by decide
theorem test_wf_go_root : Instr.wellFormed (.go [] [(5, [[]])]) = false := by decide
theorem test_wf_root : Instr.wellFormed (.root 5 1 []) = false := by decide
theorem test_wf_record : Instr.wellFormed (.identity [] (List.replicate 8192 0) []) = false := by decide +kernel
theorem test_wf_helper : Instr.wellFormed (.identity (List.replicate 5396 0) [] []) = false := by decide +kernel
theorem test_wf_seed : Instr.wellFormed (.identity (List.replicate 5396 0) (List.replicate 8192 0) [[]]) = false := by
  decide +kernel
theorem test_wf_straps : Instr.wellFormed (.pwrgoodFall 1000 true [1, 2]) = false := by decide
theorem test_wf_straps_reset : Instr.wellFormed (.resetNAssert 1000 true [1, 2]) = false := by decide
theorem test_wf_flash_long : Instr.wellFormed (.flashOpDone false (List.replicate 4097 0)) = false := by decide +kernel
theorem test_wf_token_short : Instr.wellFormed (.tokenLoad []) = false := by decide
theorem test_wf_sites : Instr.wellFormed (.monitorRead ⟨[], {}⟩) = false := by decide
theorem test_wf_replan : Instr.wellFormed (.replan [] [] [] [] [] [] {} {}) = false := by decide
theorem test_wf_memory : Instr.wellFormed (.memory 0 [] ⟨[], [], {}, [], []⟩ 0) = false := by decide
theorem test_wf_rates : Instr.wellFormed (.refreshRateRead 0 [0, 1, 2]) = false := by decide
theorem test_wf_address : Instr.wellFormed (.neighbourDiscovery ⟨0, 64, none, false⟩ true [1, 2, 3, 4]) = false := by decide
theorem test_wf_rails : Instr.wellFormed (.telemetryRefresh [] 0) = false := by decide
theorem test_wf_gid : Instr.wellFormed (.sendReceived ⟨⟨0, ⟨0, 64, none, false⟩, true, [], 0, 0, false⟩, 0⟩) = false := by decide
theorem test_wf_flit : Instr.wellFormed (.flitReceive 0 [] 0 true false) = false := by decide

/-! ## The words of a bundle, written out by the bit positions of the spec -/

/-- Slot C: ADDI is OP 5, XD 3 at [10:6], XA 1 at [15:11], IMM −1 at [47:21] (R167). -/
theorem test_decode_addi : decodeC 1 ⟨false, false, 0⟩ (5 + 3 * 2 ^ 6 + 1 * 2 ^ 11 + (2 ^ 27 - 1) * 2 ^ 21) =
    some (.addi 1 ⟨false, false, 0⟩ 3 1 (-1)) := by decide +kernel
/-- Slot C: LOOP is OP 1, XA 2, IMM[12:0] BODY 8,191, IMM[26:13] CNT 16,383 (R167). -/
theorem test_decode_loop : decodeC 0 ⟨true, false, 0⟩ (1 + 2 * 2 ^ 11 + 8191 * 2 ^ 21 + 16383 * 2 ^ 34) =
    some (.loop 0 ⟨true, false, 0⟩ 2 8191 16383) := by decide +kernel
/-- Slot C: ALU with the reserved function 11 (R167, R166). -/
theorem test_decode_alu_reserved : decodeC 0 ⟨false, false, 0⟩ (7 + 11 * 2 ^ 21) = none := by decide +kernel
/-- Slot M: GISSUE is OP 5, SA at [26:6] with WIN 1 at [20:18], SB at [47:27] with OFF 64, CTR 31, NFB, CHAIN (R162, R168). -/
theorem test_decode_gissue : decodeM 0 0 (5 + (1 * 2 ^ 18) * 2 ^ 6 + 64 * 2 ^ 27 + (31 + 2 ^ 5 + 2 ^ 6) * 2 ^ 48) =
    some (.gissue 0 ⟨1, 0, 0⟩ ⟨0, 0, 64⟩ 31 true true) := by decide +kernel
/-- Slot A: MMA is OP 1, XW 4 at [31:27], XX 5 at [36:32], SET 3 at [38:37], ZERO at [39] (R190). -/
theorem test_decode_mma : decodeA 1 (1 + (7 * 2 ^ 13 + 64) * 2 ^ 6 + 4 * 2 ^ 27 + 5 * 2 ^ 32 + 3 * 2 ^ 37 + 2 ^ 39) =
    some (.mma 1 ⟨0, 7, 64⟩ 4 5 3 true) := by decide +kernel
/-- Slot V: VEW is OP 1, XO 6, FN 8, ACT 10, RULE at [40], IMM 0x3F80 at [57:42] (R207). -/
theorem test_decode_vew : decodeV 0 (1 + 6 * 2 ^ 27 + 8 * 2 ^ 32 + 10 * 2 ^ 36 + 2 ^ 40 + 0x3F80 * 2 ^ 42) =
    some (.vew 0 ⟨0, 0, 0⟩ 6 8 10 true 0x3F80) := by decide +kernel
/-- The header: PP at [0], YLD at [1], IDLE at [15:2] (R157). -/
theorem test_decode_header : decodeHdr (1 + 16383 * 2 ^ 2) = ⟨true, false, 16383⟩ := by decide +kernel
/-- The four slots lie at [63:16], [127:64], [191:128] and [255:192] (R156). -/
theorem test_decode_bundle : (decodeBundle 0 1 (2 + 5 * 2 ^ 16 + 2 * 2 ^ 64 + 2 * 2 ^ 128 + 3 * 2 ^ 192)).map (fun b => (b.c, b.m, b.a, b.v)) =
    some (.addi 0 ⟨false, true, 0⟩ 0 0 0, .fill 0 ⟨0, 0, 0⟩ 0, .aclr 0 0, .vred 0 ⟨0, 0, 0⟩ 0 0 0 false 0) := by decide +kernel
/-- The CRC-32C of the nine bytes "123456789" is 0xE3069283 (the check value of that code); a flit's field holds it (R365). -/
theorem test_crc32c : crc32c [0x31, 0x32, 0x33, 0x34, 0x35, 0x36, 0x37, 0x38, 0x39] = 0xE3069283 := by decide +kernel

/-! ## Commands and states that the theorems name -/

def gimg : Bytes := bytesOf 1056 [(0, 2, 1023), (2, 1, 15), (3, 1, 2), (4, 4, 1), (12, 4, 8192), (17, 1, 1), (18, 1,
  1), (388, 4, 64)]

def ver : Version := { gid := 1023, num := 1, image := gimg, digest := [], places := [⟨0, 0, 0⟩], current := true }

def plain : State := setQueue { live with graphs := [ver] } 7 { st := .active, world := false }

def launchAt : Cmd :=
  { cm 7 2 1 [(16, 2, 1023), (18, 1, 1), (19, 1, 1)] with phase := .admission, arrival := 1, data := bytesOf 96 [(64, 4, 64)] }

def launchBad : Cmd :=
  { cm 7 2 1 [(16, 2, 1023), (18, 1, 2), (19, 1, 1)] with phase := .admission, arrival := 1, data := bytesOf 112 [(64, 4, 64)] }

def tdesc : Bytes := bytesOf 64 [(0, 2, 5), (4, 1, 1), (6, 2, 32), (8, 4, 1)]

def timage : Image := { desc := tdesc, owner := [(0, 9)] }

def tabled : State := setRegion (setTable live 5 { img0 := some timage, cur := some { num := 1, img := false } }) 9
  { limit := 4096, kind := 1, rd := true, wr := true, tables := true, world := true }

def lookupAt : Cmd :=
  { cm 7 2 2 [(16, 1, 1)] with phase := .admission, arrival := 1, data := bytesOf 96 [(18, 2, 5), (24, 2, 1), (36, 4, 64), (80, 4, 8)] }

def lq : Req :=
  { handle := 1, q := 7, n := 2, kind := .launch, cid := 0, world := true, part := 0, gid := 1023, ver := 1, pins := [(5, 1)] }

def again : Req := { lq with world := false, replay := 1, pins := [] }

def admitted : State := (admitLaunch (having plain [launchAt]) launchAt ver [] 0 0 0).getD live

theorem admitted_is : admitLaunch (having plain [launchAt]) launchAt ver [] 0 0 0 = some admitted := by
  have h : (admitLaunch (having plain [launchAt]) launchAt ver [] 0 0 0).isSome = true := by decide +kernel
  unfold admitted; revert h
  cases admitLaunch (having plain [launchAt]) launchAt ver [] 0 0 0 <;> simp

def fullAt : Cmd := { cm 1023 2 4 [(18, 2, 5), (24, 4, 1)] with phase := .landed, bodies := [tdesc] }

def commitAt : Cmd := { cm 1023 2 5 [(16, 1, 1), (20, 2, 4095)] with phase := .unit }

def dropAt : Cmd := { cm 1023 2 5 [(16, 1, 1), (17, 1, 2), (20, 2, 4095)] with phase := .unit }

def exportAt : Cmd := { cm 1023 2 6 [(16, 2, 4095), (24, 4, 1)] with phase := .landed }

def updateAt : Cmd := { cm 1023 2 3 [(20, 4, 32)] with phase := .landed, data := bytesOf 32 [(4, 4, 32)] }

def updateOn : Cmd := { cm 1023 2 3 [(20, 4, 32)] with phase := .unit }

def storeAt : Cmd := { cm 7 2 7 [] with phase := .landed, data := gimg }

def bare : State := setQueue live 7 { st := .active, world := false }

def checked : Cmd := { storeAt with phase := .unit }

def pdesc : Bytes := bytesOf 64 [(2, 2, 5), (8, 2, 1), (12, 4, 1), (20, 4, 64), (26, 2, 1)]

def prog : Prog := { id := 3, ctx := 0, req := 1, desc := pdesc, body := [0, 1, 0] }

def gathering : State := setFold { tabled with reqs := [lq] } 0
  { ctxs := [(0, { st := .running, req := 1 })], progs := [prog] }

def lookupOn : Cmd := { cm 7 2 2 [(16, 1, 2)] with phase := .running, handle := 1 }

def win0 : Map (Option Win) := [(0, some ⟨0, 65536, true⟩), (1, some ⟨65536, 65536, true⟩)]

def sl : Slot :=
  { st := .running, req := 1, zeroed := true, win := win0, x := [(1, 1)], ctr := [(31, 2)], codeLen := 131072 }

def lreq : Req := { lq with core := 1, slot := 3, ctxs := [(0, [7])] }

def running : State := { tabled with reqs := [lreq], cores := [(1, { slots := [(3, sl)], run := some 3 })] }

def hd : Hdr := ⟨false, true, 16383⟩

def hn : Hdr := ⟨true, false, 0⟩

def after : State := (readyB running 1 hn).1

def slot3 : Slot := cslot (core after 1) 3

def looping : State :=
  { running with cores := [(1, { slots := [(3, { sl with yielded := true, loops := [⟨0, 0, 1⟩, ⟨0, 0, 1⟩, ⟨0, 0, 1⟩] })], run := some 3 })] }

def ob : OpenB := { slot := 3, at_ := 5, cost := 1, pc := 0, before := sl, fl := [] }

def opened (d : Bytes) : State :=
  { running with cores := [(1, { slots := [(3, sl)], run := some 3, opened := some ob, scratch := cellsOf 0 d })] }

def o0 : Scr := ⟨0, 0, 0⟩

def o1 : Scr := ⟨1, 0, 8191⟩

def gd (k : Nat) : Bytes := bytesOf 64 [(0, 1, k), (2, 2, 7), (8, 4, 8192), (12, 4, 64), (16, 4, if k = 1 then 64
  else 0)]

def gdp : Bytes := bytesOf 64 [(0, 1, 4), (2, 2, 65535)]

def mdesc : Bytes := bytesOf 64 [(14, 1, 3), (30, 1, 3), (32, 2, 1), (34, 1, 1), (36, 2, 1)]

def vdesc : Bytes := bytesOf 64 [(48, 2, 1), (50, 2, 1)]

def unzeroed (s : Slot) : State := { running with cores := [(1, { slots := [(3, { s with zeroed := false })] })] }

def segX : Xfer :=
  { id := 0, kind := .segment 1 15, read := true, q := 7, n := 2, cid := 0, secure := true, addr := 0x8000000000000000, left := 0 }

def outReq : Req := { lreq with ranges := [(0, 64, 0, 5)], outs := [⟨64, 0, 0⟩] }

def endReq : Req := { lreq with endSt := some stAborted }

def ready3 (t : SlotSt) (r : Req) : State :=
  { running with reqs := [r], cores := [(1, { slots := [(3, { sl with st := t })], run := if t = .running then some 3 else none })] }

def coll2 : Coll :=
  { req := 1, core := 1, slot := 3, kind := 2, key := 0, index := 7, ctr := 31, src := 0, dst := 0, bytes := 64, stride := 0, started := true }

def colled (l : List Coll) : State := { running with dl := { running.dl with colls := l } }

def dmaX : Xfer :=
  { id := 5, kind := .args, read := true, q := 7, n := 2, cid := 0, secure := true, addr := 4096, left := 32 }

def xfers (l : List Xfer) : State := { plain with fe := { plain.fe with xfers := l } }

def endedAt : Cmd := { cm 7 2 11 [] with phase := .ended }

def fl0 : Flit := ⟨1, true, 5, 6, 4095, 0, false, 0, []⟩

def crcOf (f : Flit) : Word := BitVec.ofNat 32 (crc32c (flitHead f))

def linked (k : LinkSt) : State := setLink (rsetF live aDlPartId 0 11 0 5) 31 { st := k, rxSeq := 4095 }

def grouped : State := rset (rset live aDlGrpCtl 0 1) aDlGrpMember 0 0xFFF0FFF

def ungrouped : State := rset live aDlGrpCtl 0 0

def asked : Cmd := { cm 7 2 1 [] with phase := .admission, asked := some 9 }

theorem asked_ok : ∀ e ∈ [((5 : BitVec 12), (1 : Word))], (epochOf (table (having tabled [asked]) e.1.toNat) e.2).isSome = true := by
  simp only [List.mem_singleton, forall_eq]; decide +kernel

def member : State := rset grouped aDlGrpMember 0 0xFFF0007

def st5 : StepTab := ⟨5, 1, [], true⟩

def shared : State := setRegion (rset (rset live aXlRwinCfg 0 0) aXlRwinCfg 0 7) 0
  { limit := 4096, kind := 1, rd := true, wr := true }

def coll3 : Coll := { coll2 with kind := 3, tag := 8 }

def collG (l : List Coll) : State :=
  { rset running aDlGrpMember 0 0xFFF0007 with dl := { running.dl with colls := l } }

def ctlAt (a : Nat) : Cmd := cm 0 2 23 [(16, 1, a), (18, 2, 6)]

def pairSt (p : PairSt) (m : Bool) (c : Cmd) : State :=
  { having live [c] with dl := { live.dl with pair := p, partner := if p = .none then 0xFFF else 6, mirror := m } }

def paired (p : PairSt) : State :=
  { live with dl := { live.dl with pair := p, partner := 6, pairCmd := some 2, syncEn := true } }

def mirrorOf (f : List FormRec) (l : List StreamRec) : State :=
  { live with dl := { live.dl with pair := .sync, partner := 6, mirror := true, mtids := [5], forming := f, streams := l } }

def strm : StreamRec := { upd := 7, tag := 0, epochs := [(5, 2)], recs := [], deltas := [], whole := true }

def formS : State := setTable (mirrorOf [{ tid := 5, began := true }] []) 5
  { img0 := some timage, staged := true, stagedIn := false }

def qpOn (i cfg : Nat) : State := setQp (rset live aNpQpCfg i cfg) i { st := .rts }

def sesOn (i : Nat) : State := setSession (qpOn i 0x3FF01) 1023 { live := true, key := 5, expiry := 100 }

def busyQp (r : Nat) : State := setQp live 4096 { st := .rts, out := [⟨5, 1, false⟩], retries := r }

def portP : State := rset live (aNpPortCfg0 + 12) 0 0x3E

def macUp : State := { live with np := { live.np with linkUp := [(8, true)], macLive := [(8, [1, 2, 3, 4])] } }

def selS (a v : Nat) : State := setSel live .pcFw a v

def peerOn : State := qpOn 4095 2

def mwOn : State := rset (rset (rset (rset peerOn aXlMwCfg 4095 0xFFF0003) aXlMwTag 4095 0xFFFFF) aXlMwBaseLo 4095
  0x1000) aXlMwPages 4095 1

def foldF (x : Fold) : State := setFold live 7 { x with filled := true }

def run1 : Run :=
  { order := 0, part := 15, ch := 15, write := true, secs := [3], data := [(List.replicate 32 9, List.replicate 32 true)] }

def waitsS (k : Int) : State := foldF { chans := [(15, { trained := true })], tokens := [(15, k)], runs := [run1] }

def trainedF (ch : Nat) (c : Chan) : State := setFold live 7 { chans := [(ch, { c with trained := true })] }

def replanning : State := { trainedF 15 {} with pc := { live.pc with replanning := true } }

def unmapAt : Cmd := { cm 0 2 20 [(16, 2, 9)] with phase := .unit }

def debugged (n : BitVec 2) : State := { live with pc := { live.pc with dbgLevel := n, tapReset := false } }

def jt (b : Bool) : Acc := { who := .jtag, secure := b }

def erep (code : Byte) (ce ill : Bool) : ErrRep := ⟨code, 8, 15, ce, false, ill, 0, 0, 0, none⟩

def piece : Bytes := bytesOf 1040 [(0, 1, 1), (4, 4, 4194304), (12, 2, 1024)]

def flashAt (n : Nat) : State := rset live aPcFlashAddr 0 n

def flashing : State := { live with pc := { live.pc with flash := some (.read 0x10000) } }

def hot : List Site := List.replicate 64 ⟨100, 2000, 7⟩

def retryS : State := { live with pc := { live.pc with avsRetry := [0, 1] } }

def pinsS (c : Cond) : State := { live with pc := { live.pc with alert := c, throttle := c, sync := c } }

def attestC : Cmd := cm 0 2 22 [(16, 4, 64), (20, 4, 11836), (24, 8, 4096), (32, 8, 8192)]

def createAt : Cmd := cm 0 2 17 [(16, 2, 1023), (18, 1, 15), (24, 8, 4096), (32, 8, 8192), (40, 2, 4095), (42, 2,
  1023), (44, 4, 4000000), (48, 1, 15)]

def ringX : Xfer :=
  { id := 4, kind := .ring, read := true, q := 1023, n := 0, cid := 0, secure := true, addr := 0, left := 0 }

def patched : Cmd := { cm 7 2 8 [] with phase := .unit, data := gimg }

def patchAt : List Place := (findPlaces (having plain [patched]) patched.data (ver.places.map (·.core))).getD []

theorem patch_at : findPlaces (having plain [patched]) patched.data (ver.places.map (·.core)) = some patchAt := by
  have h : (findPlaces (having plain [patched]) patched.data (ver.places.map (·.core))).isSome = true := by decide +kernel
  unfold patchAt; revert h
  cases findPlaces (having plain [patched]) patched.data (ver.places.map (·.core)) <;> simp

def denied : State := setRegion gathering 9
  { limit := 4096, kind := 1, rd := false, wr := true, tables := true, world := true }

def afterW : State := (readyB running 1 hn true).1

def slotW : Slot := cslot (core afterW 1) 3

def hp : Hdr := ⟨false, false, 0⟩

def ending : State := { running with cores := [(1, { slots := [(3, { sl with mustEnd := true })], run := some 3 })] }

def afterE : State := (readyB ending 1 hp true).1

def segged : State := { running with graphs := [ver], fe := { running.fe with xfers := [segX] } }

def issuing (l : List IssueE) : State := { running with cores := [(1, { issueQ := l })] }

def proge : IssueE := .program 1 [(0, pdesc)] [0, 1, 0] 31

theorem not_retired : ∀ r, req (issuing [proge]) 1 = some r → r.retired = false := by
  intro r h
  rw [show req (issuing [proge]) 1 = some lreq from by decide +kernel] at h
  cases h; rfl

def holding (v : Slot) (b : Bool) : State :=
  { running with cores := [(1, { slots := [(3, v)], run := some 3, heldFull := b })] }

def againReq : Req := { lreq with reported := true, rmode := 1 }

def coll4 : Coll := { coll2 with kind := 4, cleared := [0, 1], sent := [0, 1], landed := [0, 1] }

def peerX : Xfer := { dmaX with kind := .peer, held := some 255, pieces := [4095] }

def doneX : Xfer := { dmaX with left := 0, pieces := [localPiece] }

def sharedC : State := setRegion shared 0 { limit := 4096, kind := 2, unit := 1, rd := true, wr := true }

def ctl5 : Cmd := cm 0 2 23 [(16, 1, 5), (18, 2, 6), (20, 1, 1), (24, 2, 4095)]

def pairT (b : Bool) : State :=
  { having live [ctl5] with dl := { live.dl with pair := .sync, partner := 6, mirror := true, mtids := if b then [4095] else [] } }

def sentF : FormRec := { tid := 5, began := true, sent := true }

def rooted : State := setTable
  { live with dl := { live.dl with pair := .forming, partner := 6, forming := [sentF] } } 5
  { lastRoots := [(1, [1])] }

def netOn (s : State) : State := { s with np := { s.np with linkUp := [(0, true), (8, true)] } }

def pk (m : Fin 9) (n : BitVec 24) : Pkt := ⟨⟨m, 64, none, false⟩, true, List.replicate 16 0, 0, n, true⟩

def got (s : State) (n : Nat) : State := cntN s aNpCntRxPkt 0 n

def mgN : State := netOn (qpOn 4096 0)

def sesN : State := netOn (sesOn 4095)

def peerN : State := netOn peerOn

def busyN : State := netOn (busyQp 0)

def cnpN : State := rset (netOn (qpOn 4095 1)) aNpCcCfg 0 0x8000000

def portN : State := { portP with np := { portP.np with linkUp := [(7, true)] } }

theorem mac_zero : ∀ w ∈ (macWords live 8).take 7, w = 0 := fun w hw =>
  eq_of_beq (List.all_eq_true.mp (show ((macWords live 8).take 7).all (· == 0) = true from by decide +kernel) w hw)

def claimer : State := netOn (at_ 8)

def mwN : State := netOn mwOn

def crowded : State := foldF { runs := List.replicate 32 run1 }

def unmapped : State := setFold (having (setRegion live 9 { limit := 4096, kind := 1, unmapping := true }) [unmapAt])
  0 { tokens := [(15, 1)] }

def wholeBoot : State :=
  { at_ 4 with pc := { (at_ 4).pc with fbTotal := 3796, fbPieces := [(0, List.replicate 1024 0), (1024, List.replicate 1024 0), (2048, List.replicate 1024 0)] } }

def lastPiece : Bytes := bytesOf 740 [(0, 1, 1), (4, 4, 3796), (8, 4, 3072), (12, 2, 724)]

def cool : List Site := List.replicate 64 ⟨-100, 320, 7⟩

def sitesS (l : List Site) : State := { live with pc := { live.pc with sites := l } }

def lowS : State := rset { live with pc := { live.pc with lowCore := 59, lowFold := 59 } } aPcMarginCtl 0 0x1419018

def powS (n : Nat) : State := { live with pc := { live.pc with powMs := n } }

def ownN : State := netOn (qpOn 4095 3)

theorem pair_eta : ∀ x : State × List Nat × Bool, x = (x.1, x.2.1, x.2.2) := fun _ => rfl

def retr0 : State × List Nat × Bool := retrainLinks (replanning) []

def retr1 : State × List Nat × Bool := retrainLinks (rset replanning aPcMarginCtl 0 0x2000000) []

theorem retr0_eq : retrainLinks (replanning) [] = (retr0.1, retr0.2.1, retr0.2.2) := pair_eta retr0

theorem retr1_eq : retrainLinks (rset replanning aPcMarginCtl 0 0x2000000) [] = (retr1.1, retr1.2.1, retr1.2.2) := pair_eta retr1

def gimg2 : Bytes := bytesOf 1088 [(0, 2, 1023), (2, 1, 15), (3, 1, 2), (4, 4, 2), (12, 4, 8192), (17, 1, 1), (18, 1,
  1), (388, 4, 64), (1024, 2, 32), (1032, 8, 3 + (2 ^ 18 + 4096) * 2 ^ 6 + 2 ^ 48), (1064, 8, 2 + 2 ^ 40)]

def checked2 : Cmd := { storeAt with phase := .unit, data := gimg2 }

theorem segs_in_order : ∀ u ∈ segged.fe.xfers, (∃ k, u.kind = .segment 1 k) → if isInline segX.addr.toNat = true then isInline u.addr.toNat = true → segX.id ≤ u.id else isInline u.addr.toNat = false ∧ segX.id ≤ u.id := by
  intro u hu _
  cases List.mem_singleton.mp (show u ∈ [segX] from hu)
  decide +kernel

def fr8 : Frame := ⟨8, 64, none, false⟩

def launchL : Cmd := { launchAt with phase := .landed, arrival := 0 }

def launchT : State := setPhase (arrive (having plain [launchL]) launchL) launchL .admission

def launchU : State := (admitLaunch launchT launchAt ver [] 0 0 0).getD live

theorem launch_admitted : admitLaunch launchT launchAt ver [] 0 0 0 = some launchU := by
  have h : (admitLaunch launchT launchAt ver [] 0 0 0).isSome = true := by decide +kernel
  unfold launchU; revert h
  cases admitLaunch launchT launchAt ver [] 0 0 0 <;> simp

def lookupL : Cmd := { lookupAt with phase := .landed, arrival := 0 }

def lookupT : State := setPhase (arrive (having tabled [lookupL]) lookupL) lookupL .admission

def boundL : Option (State × List (Nat × Map (List Nat))) := bindEach (takeHandle lookupT).2 lookupAt (takeHandle
  lookupT).1 (((List.range (cF lookupAt 16 1)).map (fun p => fld (kDesc lookupAt p) 0 1)).eraseDups)

theorem lookup_bound : boundL = some (boundL.getD (live, [])) := by
  have h : boundL.isSome = true := by decide +kernel
  revert h
  cases boundL <;> simp

def gdesc : Bytes := bytesOf 64 [(0, 2, 5), (4, 1, 1), (6, 2, 32), (8, 4, 1), (14, 2, 1)]

def gver : Version :=
  { ver with image := bytesOf 1056 [(0, 2, 1023), (2, 1, 15), (3, 1, 2), (4, 4, 1), (12, 4, 8192), (16, 1, 1), (17, 1, 1), (18, 1, 1), (128, 4, 5), (388, 4, 64)] }

def grouping : State := setTable (having
  { rset (rset live aDlPartId 0 0xFFF) aDlGrpCtl 0 1 with graphs := [gver], fe := plain.fe } [launchL]) 5
  { img0 := some { desc := gdesc }, cur := some { num := 1, img := false } }

theorem done7 : LaunchDone (ready3 .ending lreq) 1 (finishOwn (closeOwn (ready3 .ending lreq) 1 3) 1 3) lreq { sl with st := .ending } false :=
  ⟨lreq, ready3 .ending lreq, { sl with st := .ending }, by decide +kernel, by decide +kernel, by decide +kernel, by decide +kernel,
    Or.inl ⟨fun o h => (by rw [show (core (ready3 .ending lreq) lreq.core).opened = none from by decide +kernel] at h; cases h), rfl⟩,
    by decide +kernel, Or.inl (by decide +kernel), rfl, by decide +kernel, by decide +kernel⟩

theorem done8 : LaunchDone (ready3 .ending againReq) 1 (finishOwn (closeOwn (ready3 .ending againReq) 1 3) 1 3) againReq { sl with st := .ending } false :=
  ⟨againReq, ready3 .ending againReq, { sl with st := .ending }, by decide +kernel, by decide +kernel, by decide +kernel,
    by decide +kernel,
    Or.inl ⟨fun o h => (by rw [show (core (ready3 .ending againReq) againReq.core).opened = none from by decide +kernel] at h; cases h), rfl⟩,
    by decide +kernel, Or.inl (by decide +kernel), rfl, by decide +kernel, by decide +kernel⟩

/-! ## Every statement has states that meet its hypotheses -/

theorem witness_NopAndFenceComplete :
    (∃ (s : State) (q : BitVec 10) (n : Word) (c : Cmd), Dispatched s q.toNat n 11 c ∧ zero c 16 48 = true) ∧
    (∃ (s : State) (q : BitVec 10) (n : Word) (c : Cmd), Dispatched s q.toNat n 10 c ∧ cF c 16 1 = 0 ∧ zero c 17 47 =
      true) ∧
    (∃ (s : State) (n : Word) (c : Cmd), Dispatched s 0 n 10 c ∧ cF c 16 1 = 1 ∧ zero c 17 47 = true) ∧
    (∃ (s : State) (n : Word), (∀ e ∈ s.xl.syncs, e.1 ≠ n)) ∧
    (∃ (s : State) (q : Nat) (c : Word) (sl : Nat) (bs : Bytes) (u : State), headerCheck q (bs.take 64) = 0 ∧ u =
      updQueue s q (fun u =>
      { u with c := u.c + BitVec.ofNat 32 sl, retry := 0, got := u.got.filter (fun e => !((e.1 - c).toNat < sl)) }) ∧
      isSync q (bs.take 64) = true) ∧
    (∃ (s : State) (n : Word) (xs : List (Nat × List (BitVec 13))), s.xl.syncs.find? (fun e => e.1 == n) = some (n,
      xs) ∧ (∀ e ∈ xs, e.2 ≠ [] → xfer s e.1 = none ∧ (∀ r ∈ s.fe.lost, r.1 ≠ e.1) ∧ ∀ i ∈ e.2, ∀ o ∈ (qp s
      i.toNat).out, o.x ≠ e.1)) :=
  ⟨⟨having live [cm 1023 7 11 []], 1023, 7, cm 1023 7 11 [], (by unfold Dispatched; decide +kernel),
     (by decide +kernel)⟩,
   ⟨having live [cm 1023 7 10 []], 1023, 7, cm 1023 7 10 [], (by unfold Dispatched; decide +kernel),
     (by decide +kernel), (by decide +kernel)⟩,
   ⟨having live [cm 0 7 10 [(16, 1, 1)]], 7, cm 0 7 10 [(16, 1, 1)], (by unfold Dispatched; decide +kernel),
     (by decide +kernel), (by decide +kernel)⟩,
   ⟨live, 5, (by decide +kernel)⟩,
   ⟨live, 0, 7, 1, bytesOf 64 [(0, 1, 10), (2, 2, 1), (16, 1, 1)], _, (by decide +kernel), rfl, (by decide +kernel)⟩,
   ⟨{ live with xl := { live.xl with syncs := [(5, [(9, [4096])])] } }, 5, [(9, [4096])], (by decide +kernel),
     (by decide +kernel)⟩⟩

theorem witness_AbortsComplete :
    (∃ (s : State) (n : Word) (c d : Cmd), AbortNow s n c 0 ∧ cmd (atUnit s c) (cF c 18 2) (BitVec.ofNat 32 (cF c 20
      4)) = some d) ∧
    (∃ (s : State) (n : Word) (c : Cmd), AbortNow s n c 0 ∧ cmd (atUnit s c) (cF c 18 2) (BitVec.ofNat 32 (cF c 20
      4)) = none) ∧
    (∃ (s : State) (n : Word) (c : Cmd), AbortNow s n c 1 ∧ (queue (atUnit s c) (cF c 18 2)).st ≠ .disabled) ∧
    (∃ (s : State) (n : Word) (c : Cmd), AbortNow s n c 2) ∧
    (∃ (s : State) (n : Word) (c : Cmd), AbortNow s n c 3) ∧
    (∃ (s : State) (q : BitVec 10) (n : Word) (c : Cmd), cmd s q.toNat n = some c ∧ (c.phase ≠ .ended ∨ stillAborts c
      = true) ∧ unaborted c = false ∧ c.committed = false ∧ isEnding s c = false) :=
  ⟨⟨having live [cm 0 9 16 [(18, 2, 5), (20, 4, 3)], cm 5 3 11 []], 9, cm 0 9 16 [(18, 2, 5), (20, 4, 3)], cm 5 3 11
     [], (by unfold AbortNow; decide +kernel), (by decide +kernel)⟩,
   ⟨having live [cm 0 9 16 [(18, 2, 5), (20, 4, 3)]], 9, cm 0 9 16 [(18, 2, 5), (20, 4, 3)],
     (by unfold AbortNow; decide +kernel), (by decide +kernel)⟩,
   ⟨setQueue (having live [cm 0 9 16 [(16, 1, 1), (18, 2, 1023)]]) 1023 { st := .idle }, 9, cm 0 9 16 [(16, 1, 1),
     (18, 2, 1023)], (by unfold AbortNow; decide +kernel), (by decide +kernel)⟩,
   ⟨having live [cm 0 9 16 [(16, 1, 2), (24, 2, 4095)]], 9, cm 0 9 16 [(16, 1, 2), (24, 2, 4095)],
     (by unfold AbortNow; decide +kernel)⟩,
   ⟨having live [cm 0 9 16 [(16, 1, 3)]], 9, cm 0 9 16 [(16, 1, 3)], (by unfold AbortNow; decide +kernel)⟩,
   ⟨having live [cm 1023 9 1 []], 1023, 9, cm 1023 9 1 [], (by decide +kernel), (by decide +kernel),
     (by decide +kernel), (by decide +kernel), (by decide +kernel)⟩⟩

theorem witness_QueueCommandsComplete :
    (∃ (s : State) (n : Word) (c : Cmd), Dispatched s 0 n 17 c ∧ 1 ≤ cF c 16 2 ∧ cF c 16 2 ≤ 1023 ∧ 6 ≤ cF c 18 1 ∧
      cF c 18 1 ≤ 15 ∧ zero c 19 1 = true ∧ cF c 24 8 % 4096 = 0 ∧ plainAddr (cF c 24 8) = true ∧ cF c 32 8 % 4096 =
      0 ∧ plainAddr (cF c 32 8) = true ∧ bits (cF c 40 2) 14 12 = 0 ∧ 1 ≤ cF c 42 2 ∧ cF c 42 2 ≤ 1023 ∧ 1 ≤ cF c 44
      4 ∧ cF c 44 4 ≤ 4000000 ∧ cF c 48 1 ≤ 15 ∧ zero c 49 15 = true ∧ bit (cF c 40 2) 15 = rb s aXlCtxCfg (cF c 40 2
      % 4096) 1 ∧ (queue s (cF c 16 2)).st = .disabled ∧ (session s (cF c 42 2)).live = true ∧ stillSilent s (cF c 16
      2) = false) ∧
    (∃ (s : State) (n : Word) (c : Cmd), Dispatched s 0 n 18 c ∧ 1 ≤ cF c 16 2 ∧ cF c 16 2 ≤ 1023 ∧ zero c 18 46 =
      true ∧ (queue s (cF c 16 2)).st ≠ .disabled) :=
  ⟨⟨setSession (having live [createAt]) 1023 { live := true }, 2, createAt, (by unfold Dispatched; decide +kernel),
     (by decide +kernel), (by decide +kernel), (by decide +kernel), (by decide +kernel), (by decide +kernel),
     (by decide +kernel), (by decide +kernel), (by decide +kernel), (by decide +kernel), (by decide +kernel),
     (by decide +kernel), (by decide +kernel), (by decide +kernel), (by decide +kernel), (by decide +kernel),
     (by decide +kernel), (by decide +kernel), (by decide +kernel), (by decide +kernel), (by decide +kernel)⟩,
   ⟨setQueue (having live [cm 0 2 18 [(16, 2, 1023)]]) 1023 { st := .idle }, 2, cm 0 2 18 [(16, 2, 1023)],
     (by unfold Dispatched; decide +kernel), (by decide +kernel), (by decide +kernel), (by decide +kernel),
     (by decide +kernel)⟩⟩

theorem witness_RegionAndStatsComplete :
    (∃ (s : State) (n : Word) (c : Cmd), Dispatched s 0 n 19 c ∧ bits (cF c 16 2) 15 14 = 0 ∧ zero c 18 6 = true ∧
      zero c 32 32 = true ∧ srcOk c (cF c 24 8) 32 = true) ∧
    (∃ (s : State) (n : Word) (c : Cmd), cmd s 0 n = some c ∧ cOp c = 19 ∧ c.phase = .landed ∧ regionCheck s (cF c 16
      2) c.data = 0) ∧
    (∃ (s : State) (n : Word) (c : Cmd), Dispatched s 0 n 20 c ∧ cF c 16 2 < 16320 ∧ zero c 18 46 = true ∧ (region s
      (cF c 16 2)).kind ≠ 0 ∧ (region s (cF c 16 2)).unmapping = false ∧ regionHolds (cnt s aFeCntEntries) (cF c 16
      2) = false) ∧
    (∃ (s : State) (n : Word) (c : Cmd) (d : Bytes), Dispatched s 0 n 21 c ∧ 1 ≤ cF c 16 1 ∧ cF c 16 1 ≤ 63 ∧ zero c
      17 3 = true ∧ zero c 32 32 = true ∧ plainAddr (cF c 24 8) = true ∧ 32 + ((statRecs (cnt s aFeCntEntries) (cF c
      16 1)).map List.length).sum ≤ cF c 20 4 ∧ d = toLE 8 (now s) ++ toLE 4 (32 + ((statRecs (cnt s aFeCntEntries)
      (cF c 16 1)).map List.length).sum) ++ toLE 2 (statRecs (cnt s aFeCntEntries) (cF c 16 1)).length ++
      List.replicate 18 0 ++ (statRecs (cnt s aFeCntEntries) (cF c 16 1)).flatten) :=
  ⟨⟨having live [cm 0 2 19 [(16, 2, 16383), (24, 8, 281474976710655)]], 2, cm 0 2 19 [(16, 2, 16383), (24, 8,
     281474976710655)], (by unfold Dispatched; decide +kernel), (by decide +kernel), (by decide +kernel),
     (by decide +kernel), (by decide +kernel)⟩,
   ⟨having live
     [{ cm 0 2 19 [(16, 2, 16319)] with phase := .landed, data := bytesOf 32 [(8, 8, 4096), (20, 1, 1)] }], 2,
     { cm 0 2 19 [(16, 2, 16319)] with phase := .landed, data := bytesOf 32 [(8, 8, 4096), (20, 1, 1)] },
     (by decide +kernel), (by decide +kernel), (by decide +kernel), (by decide +kernel)⟩,
   ⟨setRegion (having live [cm 0 2 20 [(16, 2, 16319)]]) 16319 { kind := 1 }, 2, cm 0 2 20 [(16, 2, 16319)],
     (by unfold Dispatched; decide +kernel), (by decide +kernel), (by decide +kernel), (by decide +kernel),
     (by decide +kernel), (by decide +kernel)⟩,
   ⟨having live [cm 0 2 21 [(16, 1, 1), (20, 4, 1048576)]], 2, cm 0 2 21 [(16, 1, 1), (20, 4, 1048576)], _,
     (by unfold Dispatched; decide +kernel), (by decide +kernel), (by decide +kernel), (by decide +kernel),
     (by decide +kernel), (by decide +kernel), (by decide +kernel), rfl⟩⟩

theorem witness_LeaseRenewalsComplete :
    (∃ (s : State) (n : Word) (c : Cmd), Dispatched s 0 n 24 c ∧ cF c 16 1 = 0 ∧ leaseOk c = true ∧ cF c 18 2 = 0 ∧
      100 ≤ cF c 20 4 ∧ cF c 20 4 ≤ 60000 ∧ s.np.owned = true ∧ s.np.lapsed = false ∧ slow s ≤ s.np.expiry) ∧
    (∃ (s : State) (n : Word) (c : Cmd), Dispatched s 0 n 24 c ∧ cF c 16 1 = 0 ∧ leaseOk c = true ∧ cF c 18 2 = 0 ∧
      cF c 20 4 = 0 ∧ s.np.owned = true ∧ s.np.lapsed = false ∧ slow s ≤ s.np.expiry) ∧
    (∃ (s : State) (n : Word) (c : Cmd), Dispatched s 0 n 24 c ∧ cF c 16 1 = 1 ∧ leaseOk c = true ∧ 1 ≤ cF c 18 2 ∧
      cF c 18 2 ≤ 1023 ∧ cF c 20 4 = 0 ∧ (session s (cF c 18 2)).live = true ∧ slow s ≤ (session s (cF c 18
      2)).expiry) ∧
    (∃ (s : State) (n : Word) (c : Cmd), Dispatched s 0 n 24 c ∧ cF c 16 1 = 1 ∧ leaseOk c = true ∧ 1 ≤ cF c 18 2 ∧
      cF c 18 2 ≤ 1023 ∧ 10 ≤ cF c 20 4 ∧ cF c 20 4 ≤ 60000 ∧ (session s (cF c 18 2)).live = true ∧ slow s ≤ (session
      s (cF c 18 2)).expiry) :=
  ⟨⟨having live [cm 0 2 24 [(20, 4, 60000)]], 2, cm 0 2 24 [(20, 4, 60000)], (by unfold Dispatched; decide +kernel),
     (by decide +kernel), (by decide +kernel), (by decide +kernel), (by decide +kernel), (by decide +kernel),
     (by decide +kernel), (by decide +kernel), (by decide +kernel)⟩,
   ⟨having live [cm 0 2 24 []], 2, cm 0 2 24 [], (by unfold Dispatched; decide +kernel), (by decide +kernel),
     (by decide +kernel), (by decide +kernel), (by decide +kernel), (by decide +kernel), (by decide +kernel),
     (by decide +kernel)⟩,
   ⟨setSession (having live [cm 0 2 24 [(16, 1, 1), (18, 2, 1023)]]) 1023 { live := true }, 2, cm 0 2 24 [(16, 1, 1),
     (18, 2, 1023)], (by unfold Dispatched; decide +kernel), (by decide +kernel), (by decide +kernel),
     (by decide +kernel), (by decide +kernel), (by decide +kernel), (by decide +kernel), (by decide +kernel)⟩,
   ⟨setSession (having live [cm 0 2 24 [(16, 1, 1), (18, 2, 1), (20, 4, 10)]]) 1 { live := true }, 2, cm 0 2 24 [(16,
     1, 1), (18, 2, 1), (20, 4, 10)], (by unfold Dispatched; decide +kernel), (by decide +kernel),
     (by decide +kernel), (by decide +kernel), (by decide +kernel), (by decide +kernel), (by decide +kernel),
     (by decide +kernel), (by decide +kernel)⟩⟩

theorem witness_RingEventsComplete :
    (∃ (s : State) (q : BitVec 10) (slots : List Bytes) (r : RingRead) (rs : List RingRead) (t : Xfer), (queue s
      q.toNat).reads = r :: rs ∧ xfer s r.xfer = some t ∧ t.left = 0 ∧ piecesUp s t = true ∧ slots.length = r.slots ∧
      ((queue s q.toNat).st = .active ∨ (queue s q.toNat).st = .draining)) ∧
    (∃ (s : State) (q : BitVec 10), (queue s q.toNat).st = .backoff) ∧
    (∃ (s : State) (a : Acc) (v : Word), mayAccess s a = true ∧ a.secure = true ∧ a.who ≠ .jtag) ∧
    (∃ (s : State) (a : Acc) (v lo : Word), mayAccess s a = true ∧ a.secure = true ∧ a.who ≠ .jtag ∧ mget none
      s.fe.dbLo (whoCode a.who) = some lo ∧ lo.toNat % 1024 = 0 ∧ dbOk
      { s with fe := { s.fe with dbLo := mset none s.fe.dbLo (whoCode a.who) none } } (lo.toNat + 2 ^ 32 * v.toNat) =
      true) ∧
    (∃ (s : State) (a : Acc) (v : Word), mayAccess s a = true ∧ a.secure = true ∧ bit v.toNat 0 = true ∧ selOf s
      a.who aFeQSel = 0 ∧ (queue s 0).st = .disabled) ∧
    (∃ (s : State) (a : Acc) (v : Word), mayAccess s a = true ∧ a.secure = true ∧ (queue s 0).st = .disabled) :=
  ⟨⟨setQueue { live with fe := { live.fe with xfers := [ringX] } } 1023 { st := .active, reads := [⟨0, 1, 4⟩] },
     1023, [[]], ⟨0, 1, 4⟩, [], ringX, (by decide +kernel), (by decide +kernel), (by decide +kernel),
     (by decide +kernel), (by decide +kernel), (by decide +kernel)⟩,
   ⟨setQueue live 1023 { st := .backoff }, 1023, (by decide +kernel)⟩,
   ⟨live, fw, 0, (by decide +kernel), (by decide +kernel), (by decide +kernel)⟩,
   ⟨setQueue { live with fe := { live.fe with dbLo := [(4098, some 1024)] } } 0 { st := .idle }, fw, 0, 1024,
     (by decide +kernel), (by decide +kernel), (by decide +kernel), (by decide +kernel), (by decide +kernel),
     (by decide +kernel)⟩,
   ⟨live, fw, 1, (by decide +kernel), (by decide +kernel), (by decide +kernel), (by decide +kernel),
     (by decide +kernel)⟩,
   ⟨live, fw, 0xFFFFFFFF, (by decide +kernel), (by decide +kernel), (by decide +kernel)⟩⟩

theorem witness_LaunchAndLookupComplete :
    (∃ (s : State) (q : BitVec 10) (n : Word) (c : Cmd), Dispatched s q.toNat n 1 c ∧ cF c 16 2 < 1024 ∧ 1 ≤ lNseg c
      ∧ lNseg c ≤ 16 ∧ 1 ≤ lNoseg c ∧ lNoseg c ≤ 16 ∧ zero c 32 32 = true ∧ cF c 20 4 = 64 + 16 * (lNseg c + lNoseg
      c) ∧ srcOk c (cF c 24 8) (cF c 20 4) = true) ∧
    (∃ (s : State) (q : BitVec 10) (n : Word) (c : Cmd), LandedNow s q.toNat n 1 c ∧ launchArgs c = true ∧ (∀ v,
      curVer (setPhase (arrive s c) c .admission) (cF c 16 2) = some v → groupTids (setPhase (arrive s c) c
      .admission) v.image = [])) ∧
    (∃ (s t : State) (q : BitVec 10) (n : Word) (c d : Cmd) (v : Version) (key : Word), LandedNow s q.toNat n 1 c ∧
      launchArgs c = true ∧ t = setPhase (arrive s c) c .admission ∧ curVer t (cF c 16 2) = some v ∧ groupTids t
      v.image ≠ [] ∧ cmd t q.toNat n = some d ∧ t.dl.dissolved = false ∧ grpOn t = true ∧ isGrpMirror t = false ∧
      reaches t (leader t) = true ∧ key = BitVec.ofNat 32 (fld d.data 60 4)) ∧
    (∃ (s : State) (q : BitVec 10) (n : Word) (c : Cmd), Dispatched s q.toNat n 2 c ∧ 1 ≤ cF c 16 1 ∧ cF c 16 1 ≤ 64
      ∧ zero c 17 3 = true ∧ zero c 32 32 = true ∧ cF c 20 4 = 16 + 80 * cF c 16 1 ∧ srcOk c (cF c 24 8) (cF c 20 4)
      = true) ∧
    (∃ (s : State) (q : BitVec 10) (n : Word) (c : Cmd), LandedNow s q.toNat n 2 c ∧ fld c.data 4 4 = 0 ∧ plainAddr
      (fld c.data 8 8) = true ∧ (∀ p < cF c 16 1, lookupField c p = true ∧ (kBody c p).1 = 4 * bodyLen (kDesc c p))) ∧
    (∃ (s t u : State) (q : BitVec 10) (n : Word) (c d : Cmd) (v : Version) (pins : List (BitVec 12 × Word))
      (k slot base : Nat), LandedNow s q.toNat n 1 c ∧ launchArgs c = true ∧ (∀ x ∈ s.fe.cmds, x.phase ≠ .admission)
      ∧ (∀ r ∈ s.reqs, r.replay ≠ 1) ∧ t = setPhase (arrive s c) c .admission ∧ d =
      { c with arrival := s.fe.nextArrival + 1, phase := .admission } ∧ curVer t (cF c 16 2) = some v ∧ groupTids t
      v.image = [] ∧ launchFail t d v = none ∧ launchPins t d v.image = some pins ∧ (∀ p ∈ pins, (epochOf (table t
      p.1.toNat) p.2).isSome = true) ∧ chooseCore t ((mayRunOn t v (queue t c.q.toNat).world true).filter (fun k =>
      (coreRoom t k (gBuf v.image)).isSome)) = some k ∧ coreRoom t k (gBuf v.image) = some (slot, base) ∧ admitLaunch
      t d v pins k slot base = some u) ∧
    (∃ (s t u : State) (q : BitVec 10) (n : Word) (c d : Cmd) (ctxs : List (Nat × Map (List Nat))), LandedNow s
      q.toNat n 2 c ∧ fld c.data 4 4 = 0 ∧ plainAddr (fld c.data 8 8) = true ∧ (∀ p < cF c 16 1, lookupField c p =
      true ∧ (kBody c p).1 = 4 * bodyLen (kDesc c p)) ∧ (∀ x ∈ s.fe.cmds, x.phase ≠ .admission) ∧ (∀ r ∈ s.reqs,
      r.replay ≠ 1) ∧ t = setPhase (arrive s c) c .admission ∧ d =
      { c with arrival := s.fe.nextArrival + 1, phase := .admission } ∧ (∀ x ∈ lookupTids d, (table t x).cur.isSome =
      true) ∧ t.dl.pair = .none ∧ (∀ p < cF c 16 1, lookupProgOk t d p = true) ∧ bindEach (takeHandle t).2 d
      (takeHandle t).1 (((List.range (cF d 16 1)).map (fun p => fld (kDesc d p) 0 1)).eraseDups) = some (u, ctxs)) :=
  ⟨⟨having live [cm 1023 2 1 [(16, 2, 1023), (18, 1, 16), (19, 1, 16), (20, 4, 576)]], 1023, 2, cm 1023 2 1 [(16, 2,
     1023), (18, 1, 16), (19, 1, 16), (20, 4, 576)], (by unfold Dispatched; decide +kernel), (by decide +kernel),
     (by decide +kernel), (by decide +kernel), (by decide +kernel), (by decide +kernel), (by decide +kernel),
     (by decide +kernel), (by decide +kernel)⟩,
   ⟨having live
     [{ cm 1023 2 1 [(18, 1, 1), (19, 1, 1)] with phase := .landed, data := bytesOf 96 [(64, 4, 4), (80, 4, 4)] }],
     1023, 2,
     { cm 1023 2 1 [(18, 1, 1), (19, 1, 1)] with phase := .landed, data := bytesOf 96 [(64, 4, 4), (80, 4, 4)] },
     (by unfold LandedNow; decide +kernel), (by decide +kernel), (by decide +kernel)⟩,
   ⟨grouping, _, 7, 2, launchL, launchAt, gver, _, (by unfold LandedNow; decide +kernel), (by decide +kernel), rfl,
     (by decide +kernel), (by decide +kernel), (by decide +kernel), (by decide +kernel), (by decide +kernel),
     (by decide +kernel), (by decide +kernel), rfl⟩,
   ⟨having live [cm 1023 2 2 [(16, 1, 64), (20, 4, 5136)]], 1023, 2, cm 1023 2 2 [(16, 1, 64), (20, 4, 5136)],
     (by unfold Dispatched; decide +kernel), (by decide +kernel), (by decide +kernel), (by decide +kernel),
     (by decide +kernel), (by decide +kernel), (by decide +kernel)⟩,
   ⟨having live
     [{ cm 1023 2 2 [(16, 1, 1)] with phase := .landed, data := bytesOf 96 [(24, 2, 1), (36, 4, 64), (80, 4, 8)] }],
     1023, 2,
     { cm 1023 2 2 [(16, 1, 1)] with phase := .landed, data := bytesOf 96 [(24, 2, 1), (36, 4, 64), (80, 4, 8)] },
     (by unfold LandedNow; decide +kernel), (by decide +kernel), (by decide +kernel), (by decide +kernel)⟩,
   ⟨having plain [launchL], launchT, launchU, 7, 2, launchL, launchAt, ver, [], 0, 0, 0,
     (by unfold LandedNow; decide +kernel), (by decide +kernel), (by decide +kernel), (by decide +kernel), rfl,
     (by decide +kernel), (by decide +kernel), (by decide +kernel), (by decide +kernel), (by decide +kernel), (fun _
     h => nomatch h), (by decide +kernel), (by decide +kernel), launch_admitted⟩,
   ⟨having tabled [lookupL], lookupT, (boundL.getD (live, [])).1, 7, 2, lookupL, lookupAt, (boundL.getD (live,
     [])).2, (by unfold LandedNow; decide +kernel), (by decide +kernel), (by decide +kernel), (by decide +kernel),
     (by decide +kernel), (by decide +kernel), rfl, (by decide +kernel), (by decide +kernel), (by decide +kernel),
     (by decide +kernel), lookup_bound⟩⟩

theorem witness_AdmissionsComplete :
    (∃ (s t : State) (c : Cmd) (v : Version) (pins : List (BitVec 12 × Word)) (k slot base : Nat), admHead s = some c
      ∧ cOp c = 1 ∧ curVer s (cF c 16 2) = some v ∧ launchFail s c v = none ∧ groupTids s v.image = [] ∧ launchPins s
      c v.image = some pins ∧ (∀ p ∈ pins, (epochOf (table s p.1.toNat) p.2).isSome = true) ∧ chooseCore s ((mayRunOn
      s v (queue s c.q.toNat).world true).filter (fun k => (coreRoom s k (gBuf v.image)).isSome)) = some k ∧ coreRoom
      s k (gBuf v.image) = some (slot, base) ∧ admitLaunch s c v pins k slot base = some t) ∧
    (∃ (s : State) (c : Cmd) (v : Version) (st : Status), admHead s = some c ∧ cOp c = 1 ∧ curVer s (cF c 16 2) =
      some v ∧ launchFail s c v = some st ∧ st ≠ stPoison) ∧
    (∃ (s u : State) (c : Cmd) (ctxs : List (Nat × Map (List Nat))), admHead s = some c ∧ cOp c = 2 ∧ (∀ t ∈
      lookupTids c, (table s t).cur.isSome = true) ∧ s.dl.pair = .none ∧ (∀ p < cF c 16 1, lookupProgOk s c p = true)
      ∧ bindEach (takeHandle s).2 c (takeHandle s).1 (((List.range (cF c 16 1)).map (fun p => fld (kDesc c p) 0
      1)).eraseDups) = some (u, ctxs)) ∧
    (∃ (s u : State) (h : Half) (r : Req) (c : Cmd) (v : Version) (k slot base : Nat) (ctxs : Map (List Nat)), req s
      h = some r ∧ r.replay = 1 ∧ cmd s r.q.toNat r.n = some c ∧ verOf s r.gid r.ver = some v ∧ (replayCores s r
      v).contains k = true ∧ k = (if (replayCores s r v).contains (1 - r.firstCore) && rb s (coreReg (1 -
      r.firstCore) aSqCtl) 0 0 then 1 - r.firstCore else r.firstCore) ∧ coreRoom s k (gBuf v.image) = some (slot,
      base) ∧ bindCtxs s h (r.ctxs.map (·.1)) (gCtxN v.image) = some (u, ctxs)) ∧
    (∃ (s : State) (h : Half) (r : Req) (c : Cmd) (v : Version), req s h = some r ∧ r.replay = 1 ∧ cmd s r.q.toNat
      r.n = some c ∧ verOf s r.gid r.ver = some v ∧ replayCores s r v = []) :=
  ⟨⟨having plain [launchAt], admitted, launchAt, ver, [], 0, 0, 0, (by decide +kernel), (by decide +kernel),
     (by decide +kernel), (by decide +kernel), (by decide +kernel), (by decide +kernel), (fun _ h => nomatch h),
     (by decide +kernel), (by decide +kernel), admitted_is⟩,
   ⟨having plain [launchBad], launchBad, ver, stBadField, (by decide +kernel), (by decide +kernel),
     (by decide +kernel), (by decide +kernel), (by decide +kernel)⟩,
   ⟨having tabled [lookupAt], ((bindEach (takeHandle (having tabled [lookupAt])).2 lookupAt (takeHandle (having
     tabled [lookupAt])).1 (((List.range (cF lookupAt 16 1)).map (fun p => fld (kDesc lookupAt p) 0
     1)).eraseDups)).get (by decide +kernel)).1, lookupAt, ((bindEach (takeHandle (having tabled [lookupAt])).2
     lookupAt (takeHandle (having tabled [lookupAt])).1 (((List.range (cF lookupAt 16 1)).map (fun p => fld (kDesc
     lookupAt p) 0 1)).eraseDups)).get (by decide +kernel)).2, (by decide +kernel), (by decide +kernel),
     (by decide +kernel), (by decide +kernel), (by decide +kernel), (Option.some_get (x := bindEach (takeHandle
     (having tabled [lookupAt])).2 lookupAt (takeHandle (having tabled [lookupAt])).1 (((List.range (cF lookupAt 16
     1)).map (fun p => fld (kDesc lookupAt p) 0 1)).eraseDups)) (by decide +kernel)).symm⟩,
   ⟨{ having plain [launchAt] with reqs := [again] }, { having plain [launchAt] with reqs := [again] }, 1, again,
     launchAt, ver, 0, 0, 0, [], (by decide +kernel), (by decide +kernel), (by decide +kernel), (by decide +kernel),
     (by decide +kernel), (by decide +kernel), (by decide +kernel), (by decide +kernel)⟩,
   ⟨{ having plain [launchAt] with reqs := [again], graphs := [{ ver with damaged := [0] }] }, 1, again, launchAt,
     { ver with damaged := [0] }, (by decide +kernel), (by decide +kernel), (by decide +kernel), (by decide +kernel),
     (by decide +kernel)⟩⟩

theorem witness_TableCommandsComplete :
    (∃ (s : State) (q : BitVec 10) (n : Word) (c : Cmd), Dispatched s q.toNat n 4 c ∧ cF c 16 1 = 0 ∧ loadOk c = true
      ∧ cF c 20 4 = 0) ∧
    (∃ (s : State) (q : BitVec 10) (n : Word) (c : Cmd), LandedNow s q.toNat n 4 c ∧ cF c 16 1 = 0 ∧ c.data = [] ∧
      blockedBy s c = false ∧ cF c 20 4 = 0 ∧ fullFail s c (cF c 18 2 % 4096) (c.bodies.headD []) = 0 ∧ srcOk c (cF c
      32 8) (cF c 24 4 * dPslot (c.bodies.headD [])) = true ∧ (∀ f ∈ dFolds (c.bodies.headD []), ruHeld s f = false)) ∧
    (∃ (s : State) (q : BitVec 10) (n : Word) (c : Cmd), Dispatched s q.toNat n 4 c ∧ cF c 16 1 = 1 ∧ loadOk c =
      true) ∧
    (∃ (s : State) (q : BitVec 10) (n : Word) (c : Cmd), Dispatched s q.toNat n 5 c ∧ cDrop c = false ∧ commitOk c =
      true) ∧
    (∃ (s : State) (q : BitVec 10) (n : Word) (c : Cmd), Dispatched s q.toNat n 5 c ∧ cDrop c = true ∧ commitOk c =
      true) ∧
    (∃ (s : State) (q : BitVec 10) (n : Word) (c : Cmd), cmd s q.toNat n = some c ∧ cOp c = 5 ∧ c.phase = .unit ∧
      blockedBy s c = false ∧ cDrop c = false) ∧
    (∃ (s : State) (q : BitVec 10) (n : Word) (c : Cmd), cmd s q.toNat n = some c ∧ cOp c = 5 ∧ c.phase = .unit ∧
      blockedBy s c = false ∧ cDrop c = true) ∧
    (∃ (s : State) (q : BitVec 10) (n : Word) (c : Cmd), Dispatched s q.toNat n 6 c ∧ exportOk c = true) ∧
    (∃ (s : State) (q : BitVec 10) (n : Word) (c : Cmd), LandedNow s q.toNat n 6 c ∧ blockedBy s c = false) :=
  ⟨⟨having live [cm 1023 2 4 [(18, 2, 4095), (24, 4, 1)]], 1023, 2, cm 1023 2 4 [(18, 2, 4095), (24, 4, 1)],
     (by unfold Dispatched; decide +kernel), (by decide +kernel), (by decide +kernel), (by decide +kernel)⟩,
   ⟨having tabled [fullAt], 1023, 2, fullAt, (by unfold LandedNow; decide +kernel), (by decide +kernel),
     (by decide +kernel), (by decide +kernel), (by decide +kernel), (by decide +kernel), (by decide +kernel),
     (by decide +kernel)⟩,
   ⟨having live [cm 1023 2 4 [(16, 1, 1), (18, 2, 4095), (24, 4, 1)]], 1023, 2, cm 1023 2 4 [(16, 1, 1), (18, 2,
     4095), (24, 4, 1)], (by unfold Dispatched; decide +kernel), (by decide +kernel), (by decide +kernel)⟩,
   ⟨having live [cm 1023 2 5 [(16, 1, 1), (20, 2, 4095)]], 1023, 2, cm 1023 2 5 [(16, 1, 1), (20, 2, 4095)],
     (by unfold Dispatched; decide +kernel), (by decide +kernel), (by decide +kernel)⟩,
   ⟨having live [cm 1023 2 5 [(16, 1, 1), (17, 1, 2), (20, 2, 4095)]], 1023, 2, cm 1023 2 5 [(16, 1, 1), (17, 1, 2),
     (20, 2, 4095)], (by unfold Dispatched; decide +kernel), (by decide +kernel), (by decide +kernel)⟩,
   ⟨having live [commitAt], 1023, 2, commitAt, (by decide +kernel), (by decide +kernel), (by decide +kernel),
     (by decide +kernel), (by decide +kernel)⟩,
   ⟨having live [dropAt], 1023, 2, dropAt, (by decide +kernel), (by decide +kernel), (by decide +kernel),
     (by decide +kernel), (by decide +kernel)⟩,
   ⟨having live [cm 1023 2 6 [(16, 2, 4095), (24, 4, 1)]], 1023, 2, cm 1023 2 6 [(16, 2, 4095), (24, 4, 1)],
     (by unfold Dispatched; decide +kernel), (by decide +kernel)⟩,
   ⟨having live [exportAt], 1023, 2, exportAt, (by unfold LandedNow; decide +kernel), (by decide +kernel)⟩⟩

theorem witness_UpdatesComplete :
    (∃ (s : State) (q : BitVec 10) (n : Word) (c : Cmd), Dispatched s q.toNat n 3 c ∧ zero c 16 4 = true ∧ zero c 32
      32 = true ∧ 32 ≤ cF c 20 4 ∧ srcOk c (cF c 24 8) (cF c 20 4) = true) ∧
    (∃ (s : State) (q : BitVec 10) (n : Word) (c : Cmd), LandedNow s q.toNat n 3 c ∧ fld c.data 4 4 = cF c 20 4) ∧
    (∃ (s : State) (q : BitVec 10) (n : Word) (c : Cmd), cmd s q.toNat n = some c ∧ cOp c = 3 ∧ c.phase = .unit ∧
      c.committed = false ∧ s.dl.pair ≠ .sync) ∧
    (∃ (s : State) (q : BitVec 10) (n : Word) (c : Cmd) (m : MirrorRec), cmd s q.toNat n = some c ∧ cOp c = 3 ∧
      c.phase = .unit ∧ c.committed = false ∧ s.dl.pair = .sync ∧ s.dl.silent = false ∧ s.dl.mirrored.find? (fun m =>
      m.upd == c.handle) = some m ∧ m.prepared = true) ∧
    (∃ (s : State) (q : BitVec 10) (n : Word) (c : Cmd), cmd s q.toNat n = some c ∧ cOp c = 3 ∧ c.phase = .running ∧
      groupSet s (c.opens.map (fun e => e.1.toNat)) = []) ∧
    (∃ (s : State) (f : Fin 8), recovering s f = true ∧ (∀ c ∈ s.fe.cmds, cOp c = 3 → c.committed = false) ∧ (∀ t ∈
      s.dl.streams, t.committed = false)) ∧
    (∃ (s : State) (tid : BitVec 12) (p : Epoch), (table s tid.toNat).prev = some p) :=
  ⟨⟨having live [cm 1023 2 3 [(20, 4, 32)]], 1023, 2, cm 1023 2 3 [(20, 4, 32)],
     (by unfold Dispatched; decide +kernel), (by decide +kernel), (by decide +kernel), (by decide +kernel),
     (by decide +kernel)⟩,
   ⟨having live [updateAt], 1023, 2, updateAt, (by unfold LandedNow; decide +kernel), (by decide +kernel)⟩,
   ⟨having live [updateOn], 1023, 2, updateOn, (by decide +kernel), (by decide +kernel), (by decide +kernel),
     (by decide +kernel), (by decide +kernel)⟩,
   ⟨having { live with dl := { live.dl with pair := .sync, mirrored := [{ upd := 0, prepared := true }] } }
     [updateOn], 1023, 2, updateOn, { upd := 0, prepared := true }, (by decide +kernel), (by decide +kernel),
     (by decide +kernel), (by decide +kernel), (by decide +kernel), (by decide +kernel), (by decide +kernel),
     (by decide +kernel)⟩,
   ⟨having live [{ updateOn with phase := .running }], 1023, 2, { updateOn with phase := .running },
     (by decide +kernel), (by decide +kernel), (by decide +kernel), (by decide +kernel)⟩,
   ⟨setUnit live 9 { st := .recovering }, 7, (by decide +kernel), (by decide +kernel), (by decide +kernel)⟩,
   ⟨setTable live 4095 { prev := some { num := 1, img := false } }, 4095, { num := 1, img := false },
     (by decide +kernel)⟩⟩

theorem witness_GraphCommandsComplete :
    (∃ (s : State) (q : BitVec 10) (n : Word) (c : Cmd), Dispatched s q.toNat n 7 c ∧ zero c 16 4 = true ∧ zero c 32
      32 = true ∧ plainAddr (cF c 24 8) = true ∧ 1024 ≤ cF c 20 4) ∧
    (∃ (s : State) (q : BitVec 10) (n : Word) (c : Cmd), LandedNow s q.toNat n 7 c ∧ imageFail s (queue s
      c.q.toNat).world c.data true (gCores c.data) = none) ∧
    (∃ (s : State) (q : BitVec 10) (n : Word) (c : Cmd), Dispatched s q.toNat n 8 c ∧ zero c 16 4 = true ∧ zero c 32
      32 = true ∧ srcOk c (cF c 24 8) (cF c 20 4) = true ∧ 32 ≤ cF c 20 4) ∧
    (∃ (s : State) (q : BitVec 10) (n : Word) (c : Cmd), Dispatched s q.toNat n 9 c ∧ cF c 16 2 < 1024 ∧ zero c 18 46
      = true ∧ (curVer s (cF c 16 2)).isSome = true ∧ (∀ e ∈ s.checking, e.1 ≠ cF c 16 2) ∧ (∀ v ∈ s.graphs,
      v.current = true → v.gid ≠ cF c 16 2 → ∀ e ∈ gShared v.image, wSgid e ≠ cF c 16 2)) ∧
    (∃ (s : State) (q : BitVec 10) (n : Word) (bundle : BitVec 17) (c : Cmd) (ps : List Place), cmd s q.toNat n =
      some c ∧ c.phase = .unit ∧ cOp c = 7 ∧ pathFail c.data 0 bundle.toNat = none ∧ imageFail s (queue s
      q.toNat).world c.data true (gCores c.data) = none ∧ findPlaces s c.data (gCores c.data) = some ps ∧ curVer s
      (gGid c.data) = none) ∧
    (∃ (s : State) (q : BitVec 10) (n : Word) (bundle : BitVec 17) (c : Cmd) (v : Version) (ps : List Place), cmd s
      q.toNat n = some c ∧ c.phase = .unit ∧ cOp c = 8 ∧ pathFail c.data 0 bundle.toNat = none ∧ curVer s (gGid
      c.data) = some v ∧ imageFail s (queue s q.toNat).world c.data false (v.places.map (·.core)) = none ∧ findPlaces
      s c.data (v.places.map (·.core)) = some ps) ∧
    (∃ (s : State) (q : BitVec 10) (n : Word) (code : Byte) (bundle : BitVec 17) (c : Cmd) (k b : Nat), cmd s q.toNat
      n = some c ∧ c.phase = .unit ∧ cOp c = 7 ∧ pathFail c.data code.toNat bundle.toNat = some (k, b)) :=
  ⟨⟨having live [cm 1023 2 7 [(20, 4, 1024)]], 1023, 2, cm 1023 2 7 [(20, 4, 1024)],
     (by unfold Dispatched; decide +kernel), (by decide +kernel), (by decide +kernel), (by decide +kernel),
     (by decide +kernel)⟩,
   ⟨having bare [storeAt], 7, 2, storeAt, (by unfold LandedNow; decide +kernel), (by decide +kernel)⟩,
   ⟨having live [cm 1023 2 8 [(20, 4, 32)]], 1023, 2, cm 1023 2 8 [(20, 4, 32)],
     (by unfold Dispatched; decide +kernel), (by decide +kernel), (by decide +kernel), (by decide +kernel),
     (by decide +kernel)⟩,
   ⟨having plain [cm 1023 2 9 [(16, 2, 1023)]], 1023, 2, cm 1023 2 9 [(16, 2, 1023)],
     (by unfold Dispatched; decide +kernel), (by decide +kernel), (by decide +kernel), (by decide +kernel),
     (by decide +kernel), (by decide +kernel)⟩,
   ⟨having bare [checked], 7, 2, 131071, checked, (findPlaces (having bare [checked]) checked.data (gCores
     checked.data)).get (by decide +kernel), (by decide +kernel), (by decide +kernel), (by decide +kernel),
     (by decide +kernel), (by decide +kernel), (Option.some_get (x := findPlaces (having bare [checked]) checked.data
     (gCores checked.data)) (by decide +kernel)).symm, (by decide +kernel)⟩,
   ⟨having plain [patched], 7, 2, 131071, patched, ver, patchAt, (by decide +kernel), (by decide +kernel),
     (by decide +kernel), (by decide +kernel), (by decide +kernel), (by decide +kernel), patch_at⟩,
   ⟨having bare [checked2], 7, 2, 4, 131071, checked2, 4, 131071, (by decide +kernel), (by decide +kernel),
     (by decide +kernel), (by decide +kernel)⟩⟩

theorem witness_ProgramsComplete :
    (∃ (s : State) (f : Fin 8) (desc : Bytes) (im : Image) (img : Bool) (ep : Nat), gxHeld s f = false ∧ pGen (slice
      desc 0 64) = (unit s (2 + f.val)).gen.toNat ∧ (req s (pReq (slice desc 0 64))).isSome = true ∧ (ctxAt (fold s
      f) (fld (slice desc 0 64) 0 1)).req = pReq (slice desc 0 64) ∧ (ctxAt (fold s f) (fld (slice desc 0 64) 0
      1)).st ≠ .free ∧ (ctxAt (fold s f) (fld (slice desc 0 64) 0 1)).st ≠ .draining ∧ pinnedIm s (pReq (slice desc 0
      64)) (pTid (slice desc 0 64)) = some (im, img, ep) ∧ bit (dMask im.desc) f = true ∧ progOk (slice desc 0 64)
      (dDim im.desc) = true) ∧
    (∃ (s : State) (f : Fin 8) (desc : Bytes) (im : Image) (img : Bool) (ep : Nat), gxHeld s f = false ∧ pGen (slice
      desc 0 64) = (unit s (2 + f.val)).gen.toNat ∧ (req s (pReq (slice desc 0 64))).isSome = true ∧ (ctxAt (fold s
      f) (fld (slice desc 0 64) 0 1)).req = pReq (slice desc 0 64) ∧ (ctxAt (fold s f) (fld (slice desc 0 64) 0
      1)).st ≠ .free ∧ (ctxAt (fold s f) (fld (slice desc 0 64) 0 1)).st ≠ .draining ∧ (pinnedIm s (pReq (slice desc
      0 64)) (pTid (slice desc 0 64)) = none ∨ pinnedIm s (pReq (slice desc 0 64)) (pTid (slice desc 0 64)) = some
      (im, img, ep) ∧ (progOk (slice desc 0 64) (dDim im.desc) = false ∨ bit (dMask im.desc) f = false))) ∧
    (∃ (s : State) (f : Fin 8) (desc : Bytes), gxHeld s f = false ∧ pGen (slice desc 0 64) = (unit s (2 +
      f.val)).gen.toNat ∧ ((req s (pReq (slice desc 0 64))).isNone = true ∨ (ctxAt (fold s f) (fld (slice desc 0 64)
      0 1)).req ≠ pReq (slice desc 0 64) ∨ (ctxAt (fold s f) (fld (slice desc 0 64) 0 1)).st = .free ∨ (ctxAt (fold s
      f) (fld (slice desc 0 64) 0 1)).st = .draining)) ∧
    (∃ (s : State) (f : Fin 8) (desc : Bytes), pGen (slice desc 0 64) ≠ (unit s (2 + f.val)).gen.toNat) ∧
    (∃ (s : State) (f : Fin 8) (desc : Bytes), pGen (slice desc 0 64) = (unit s (2 + f.val)).gen.toNat ∧ gxHeld s f =
      true) ∧
    (∃ (s : State) (f : Fin 8) (p : Nat) (body : List Word), (∀ q ∈ (fold s f).progs, q.id ≠ p) ∧ p < (fold s
      f).bornAt) ∧
    (∃ (s : State) (f : Fin 8) (p : Nat) (body : List Word) (q : Prog) (im : Image) (img : Bool) (ep : Nat), (fold s
      f).progs.find? (fun x => x.id == p) = some q ∧ (ctxAt (fold s f) q.ctx).st ≠ .draining ∧ offsOk q.desc ((q.body
      ++ body).take (bodyLen q.desc)) = true ∧ pinnedIm s q.req (pTid q.desc) = some (im, img, ep)) ∧
    (∃ (s : State) (f : Fin 8) (p : Nat) (body : List Word) (q : Prog), (fold s f).progs.find? (fun x => x.id == p) =
      some q ∧ (ctxAt (fold s f) q.ctx).st ≠ .draining ∧ offsOk q.desc ((q.body ++ body).take (bodyLen q.desc)) =
      false) :=
  ⟨⟨gathering, 0, pdesc, timage, false, 1, (by decide +kernel), (by decide +kernel), (by decide +kernel),
     (by decide +kernel), (by decide +kernel), (by decide +kernel), (by decide +kernel), (by decide +kernel),
     (by decide +kernel)⟩,
   ⟨gathering, 0, bytesOf 64 [(2, 2, 4095), (8, 2, 1), (12, 4, 1), (20, 4, 64), (26, 2, 1)], timage, false, 1,
     (by decide +kernel), (by decide +kernel), (by decide +kernel), (by decide +kernel), (by decide +kernel),
     (by decide +kernel), (by decide +kernel)⟩,
   ⟨live, 7, bytesOf 64 [], (by decide +kernel), (by decide +kernel), (by decide +kernel)⟩,
   ⟨live, 7, bytesOf 64 [(7, 1, 255)], (by decide +kernel)⟩,
   ⟨setUnit live 9 { st := .resetting }, 7, pdesc, (by decide +kernel), (by decide +kernel)⟩,
   ⟨setFold live 7 { bornAt := 1 }, 7, 0, [], (by decide +kernel), (by decide +kernel)⟩,
   ⟨setFold gathering 0 { fold gathering 0 with progs := [{ prog with body := [0, 1] }] }, 0, 3, [0],
     { prog with body := [0, 1] }, timage, false, 1, (by decide +kernel), (by decide +kernel), (by decide +kernel),
     (by decide +kernel)⟩,
   ⟨setFold live 7 { ctxs := [(0, { st := .running, req := 1 })], progs := [{ prog with body := [] }] }, 7, 3, [1],
     { prog with body := [] }, (by decide +kernel), (by decide +kernel), (by decide +kernel)⟩⟩

theorem witness_GatherResultsComplete :
    (∃ (s : State) (f : Fin 8) (p pos i n : Nat) (q : Prog) (bub : Bool), isUnread s f p pos = true ∧ nextRead s f
      (fold s f).progs false = some (q, i, bub) ∧ readBound (fold s f) = n + 1) ∧
    (∃ (s : State) (f : Fin 8) (p pos i : Nat) (q : Prog) (im : Image) (img : Bool) (ep : Nat) (r : Req), isUnread s
      f p pos = true ∧ nextRead s f (fold s f).progs false = some (q, i, false) ∧ pinnedIm s q.req (pTid q.desc) =
      some (im, img, ep) ∧ req s q.req = some r ∧ ownerOk s im f r.cid r.world false = true ∧ isUnread (goOn (readRow
      s f q im img ep i) f q.id) f p pos = false) ∧
    (∃ (s : State) (f : Fin 8) (p pos i : Nat) (q : Prog) (im : Image) (img : Bool) (ep : Nat) (r : Req), isUnread s
      f p pos = true ∧ nextRead s f (fold s f).progs false = some (q, i, false) ∧ pinnedIm s q.req (pTid q.desc) =
      some (im, img, ep) ∧ req s q.req = some r ∧ ownerOk s im f r.cid r.world false = false ∧ isUnread (foldEnds s f
      q.req stRegionDenied) f p pos = false) ∧
    (∃ (s : State) (f src : Fin 8) (p bag terms : Nat) (gen : Byte) (vals : List Word) (bad : Bool) (q : Prog)
      (im : Image) (img : Bool) (ep : Nat) (pt : Partial), gen = (unit s (2 + src.val)).gen ∧ (fold s f).progs.find?
      (fun x => x.id == p) = some q ∧ (ctxAt (fold s f) q.ctx).st ≠ .draining ∧ (∀ t ∈ q.parts, ¬(t.bag = bag ∧ t.src
      = src.val)) ∧ src ≠ f ∧ pinnedIm s q.req (pTid q.desc) = some (im, img, ep) ∧ pt =
      { bag := bag, src := src.val, terms := terms, vals := if terms = 0 then none else some vals, bad := bad }) ∧
    (∃ (s : State) (f src : Fin 8) (p bag terms : Nat) (gen : Byte) (vals : List Word) (bad : Bool), gen ≠ (unit s (2
      + src.val)).gen) ∧
    (∃ (s : State) (f : Fin 8) (gen : Byte) (h : Half) (ctr : BitVec 5) (r : Req), gen = (unit s (2 + f.val)).gen ∧
      req s h = some r ∧ r.kind ≠ .lookup ∧ r.dueCtrs.contains ctr = true ∧ r.done = false ∧ (cslot (core s r.core)
      r.slot).req = h) ∧
    (∃ (s : State) (f : Fin 8) (gen : Byte) (h : Half) (ctr : BitVec 5) (r : Req) (c : Cmd), gen = (unit s (2 +
      f.val)).gen ∧ req s h = some r ∧ r.kind = .lookup ∧ cmd s r.q.toNat r.n = some c ∧ c.phase = .running ∧
      r.finished + 1 < r.progs.length) ∧
    (∃ (s : State) (f : Fin 8) (gen : Byte) (h : Half) (ctr : BitVec 5) (r : Req) (c : Cmd), gen = (unit s (2 +
      f.val)).gen ∧ req s h = some r ∧ r.kind = .lookup ∧ cmd s r.q.toNat r.n = some c ∧ c.phase = .running ∧
      r.finished + 1 = r.progs.length) ∧
    (∃ (s : State) (f : Fin 8) (gen : Byte) (h : Half) (ctr : BitVec 5), gen ≠ (unit s (2 + f.val)).gen) :=
  ⟨⟨gathering, 0, 3, 0, 0, 2, prog, false, (by decide +kernel), (by decide +kernel), (by decide +kernel)⟩,
   ⟨gathering, 0, 3, 0, 0, prog, timage, false, 1, lq, (by decide +kernel), (by decide +kernel), (by decide +kernel),
     (by decide +kernel), (by decide +kernel), (by decide +kernel)⟩,
   ⟨denied, 0, 3, 0, 0, prog, timage, false, 1, lq, (by decide +kernel), (by decide +kernel), (by decide +kernel),
     (by decide +kernel), (by decide +kernel), (by decide +kernel)⟩,
   ⟨gathering, 0, 7, 3, 0, 1, 0, [], true, prog, timage, false, 1, _, (by decide +kernel), (by decide +kernel),
     (by decide +kernel), (by decide +kernel), (by decide +kernel), (by decide +kernel), rfl⟩,
   ⟨live, 0, 7, 3, 0, 1, 255, [], false, (by decide +kernel)⟩,
   ⟨{ running with reqs := [{ lreq with dueCtrs := [31] }] }, 7, 0, 1, 31, { lreq with dueCtrs := [31] },
     (by decide +kernel), (by decide +kernel), (by decide +kernel), (by decide +kernel), (by decide +kernel),
     (by decide +kernel)⟩,
   ⟨{ having live [lookupOn] with reqs := [{ lq with kind := .lookup, progs := [[], []] }] }, 7, 0, 1, 0,
     { lq with kind := .lookup, progs := [[], []] }, lookupOn, (by decide +kernel), (by decide +kernel),
     (by decide +kernel), (by decide +kernel), (by decide +kernel), (by decide +kernel)⟩,
   ⟨{ having live [lookupOn] with reqs := [{ lq with kind := .lookup, progs := [[], []], finished := 1 }] }, 7, 0, 1,
     0, { lq with kind := .lookup, progs := [[], []], finished := 1 }, lookupOn, (by decide +kernel),
     (by decide +kernel), (by decide +kernel), (by decide +kernel), (by decide +kernel), (by decide +kernel)⟩,
   ⟨live, 7, 255, 1, 0, (by decide +kernel)⟩⟩

theorem witness_GatherEventsComplete :
    (∃ (s : State) (f : Fin 8) (h : Half) (tile : Word), (req s h).isSome = true) ∧
    (∃ (s : State) (f : Fin 8) (h : Half), (req s h).isSome = true) ∧
    (∃ (s : State) (f : Fin 8) (ctx : Byte), (ctxAt (fold s f) ctx.toNat).st = .draining) ∧
    (∃ (s : State) (f : Fin 8), rf s (foldReg f aGxPolicyCtl) 0 15 8 ≠ 0) ∧
    (∃ (s : State) (f : Fin 8) (way : Nat), (dirAt (fold s f) way).m = true ∧ mayFm s f 15 = true) ∧
    (∃ (s : State) (f : Fin 8) (tid : BitVec 12), mayFm s f 15 = true) :=
  ⟨⟨gathering, 0, 1, 0xFFFFFFFF, (by decide +kernel)⟩,
   ⟨gathering, 0, 1, (by decide +kernel)⟩,
   ⟨setFold live 7 { ctxs := [(255, { st := .draining })] }, 7, 255, (by decide +kernel)⟩,
   ⟨live, 7, (by decide +kernel)⟩,
   ⟨setFold live 7 { dir := [(0, { m := true })], tokens := [(15, 1)] }, 7, 0, (by decide +kernel),
     (by decide +kernel)⟩,
   ⟨setFold live 7 { tokens := [(15, 1)] }, 7, 4095, (by decide +kernel)⟩⟩

theorem witness_SequencingComplete :
    (∃ (s u : State) (c : Core2) (h : Hdr) (k : Nat) (v : Slot), Issues s c h u k v) ∧
    (∃ (s u : State) (c : Core2) (h : Hdr) (k : Nat) (v : Slot) (xa : BitVec 5) (body : BitVec 13)
      (cntv : BitVec 14), Issues s c h u k v ∧ body ≠ 0 ∧ v.loops.length < 4 ∧ (if xa = 0 then cntv.toNat else xreg v
      xa.toNat) = 0) ∧
    (∃ (s u : State) (c : Core2) (h : Hdr) (k : Nat) (v : Slot) (xa : BitVec 5) (body : BitVec 13) (cntv : BitVec 14)
      (n : Nat), Issues s c h u k v ∧ body ≠ 0 ∧ v.loops.length < 4 ∧ n = (if xa = 0 then cntv.toNat else xreg v
      xa.toNat) ∧ n ≠ 0) ∧
    (∃ (s u : State) (c : Core2) (h : Hdr) (k : Nat) (v : Slot) (off : BitVec 18), Issues s c h u k v) ∧
    (∃ (s u : State) (c : Core2) (h : Hdr) (k : Nat) (v : Slot) (cond : BitVec 3) (xa xb : BitVec 5)
      (off : BitVec 18), Issues s c h u k v ∧ cond.toNat < 6 ∧ condHolds cond (BitVec.ofNat 32 (xreg v xa.toNat))
      (BitVec.ofNat 32 (xreg v xb.toNat)) = true) ∧
    (∃ (s u : State) (c : Core2) (h : Hdr) (k : Nat) (v : Slot) (cond : BitVec 3) (xa xb : BitVec 5)
      (off : BitVec 18), Issues s c h u k v ∧ cond.toNat < 6 ∧ condHolds cond (BitVec.ofNat 32 (xreg v xa.toNat))
      (BitVec.ofNat 32 (xreg v xb.toNat)) = false) ∧
    (∃ (s u : State) (c : Core2) (h : Hdr) (k : Nat) (v : Slot), Issues s c h u k v) :=
  ⟨⟨looping, (readyB looping 1 hd).1, 1, hd, 3, cslot (core (readyB looping 1 hd).1 1) 3,
     (by unfold Issues; decide +kernel)⟩,
   ⟨looping, (readyB looping 1 hd).1, 1, hd, 3, cslot (core (readyB looping 1 hd).1 1) 3, 31, 8191, 5,
     (by unfold Issues; decide +kernel), (by decide +kernel), (by decide +kernel), (by decide +kernel)⟩,
   ⟨looping, (readyB looping 1 hd).1, 1, hd, 3, cslot (core (readyB looping 1 hd).1 1) 3, 0, 8191, 16383, 16383,
     (by unfold Issues; decide +kernel), (by decide +kernel), (by decide +kernel), (by decide +kernel),
     (by decide +kernel)⟩,
   ⟨running, after, 1, hn, 3, slot3, 262143, (by unfold Issues; decide +kernel)⟩,
   ⟨running, after, 1, hn, 3, slot3, 5, 1, 0, 262143, (by unfold Issues; decide +kernel), (by decide +kernel),
     (by decide +kernel)⟩,
   ⟨running, after, 1, hn, 3, slot3, 5, 0, 1, 131072, (by unfold Issues; decide +kernel), (by decide +kernel),
     (by decide +kernel)⟩,
   ⟨running, after, 1, hn, 3, slot3, (by unfold Issues; decide +kernel)⟩⟩

theorem witness_RegisterBundlesComplete :
    (∃ (s u : State) (c : Core2) (h : Hdr) (k : Nat) (v : Slot) (xd xa : BitVec 5) (imm : BitVec 27), Issues s c h u
      k v) ∧
    (∃ (s u : State) (c : Core2) (h : Hdr) (k : Nat) (v : Slot) (xd : BitVec 5) (imm : Half), Issues s c h u k v) ∧
    (∃ (s u : State) (c : Core2) (h : Hdr) (k : Nat) (v : Slot) (xd xa xb : BitVec 5) (fn : BitVec 4) (r : Word),
      Issues s c h u k v ∧ aluFn fn (BitVec.ofNat 32 (xreg v xa.toNat)) (BitVec.ofNat 32 (xreg v xb.toNat)) = some r) ∧
    (∃ (s u : State) (c : Core2) (h : Hdr) (k : Nat) (v : Slot) (xd xa : BitVec 5) (imm : BitVec 27), Issues s c h u
      k v) ∧
    (∃ (s u : State) (c : Core2) (h : Hdr) (k : Nat) (v : Slot) (xa xb : BitVec 5) (imm : BitVec 27), Issues s c h u
      k v ∧ 256 ≤ parOff v xa imm / 4) ∧
    (∃ (s u : State) (c : Core2) (h : Hdr) (k : Nat) (v : Slot) (xa xb : BitVec 5) (imm : BitVec 27), Issues s c h u
      k v ∧ parOff v xa imm / 4 < 256) :=
  ⟨⟨running, after, 1, hn, 3, slot3, 0, 31, 134217727, (by unfold Issues; decide +kernel)⟩,
   ⟨running, after, 1, hn, 3, slot3, 31, 65535, (by unfold Issues; decide +kernel)⟩,
   ⟨running, after, 1, hn, 3, slot3, 31, 1, 1, 0, 2, (by unfold Issues; decide +kernel), (by decide +kernel)⟩,
   ⟨running, after, 1, hn, 3, slot3, 31, 0, 4092, (by unfold Issues; decide +kernel)⟩,
   ⟨running, after, 1, hn, 3, slot3, 0, 1, 1024, (by unfold Issues; decide +kernel), (by decide +kernel)⟩,
   ⟨running, after, 1, hn, 3, slot3, 0, 1, 1020, (by unfold Issues; decide +kernel), (by decide +kernel)⟩⟩

theorem witness_WaitAndTrapComplete :
    (∃ (s u : State) (c : Core2) (h : Hdr) (k : Nat) (v : Slot) (ctr xa : BitVec 5) (tgt : Half), readyB s c h true =
      (u, some (k, v)) ∧ yieldGate h v = true ∧ SameWait v ctr xa tgt ∧ ctrReached (ctrOf v ctr.toNat) (if xa = 0
      then tgt else BitVec.ofNat 16 (xreg v xa.toNat)) = true) ∧
    (∃ (s u : State) (c : Core2) (h : Hdr) (k : Nat) (v : Slot) (ctr xa : BitVec 5) (tgt t : Half), readyB s c h true
      = (u, some (k, v)) ∧ SameWait v ctr xa tgt ∧ t = (if xa = 0 then tgt else BitVec.ofNat 16 (xreg v xa.toNat)) ∧
      ctrReached (ctrOf v ctr.toNat) t = false ∧ v.mustEnd = false) ∧
    (∃ (s u : State) (c : Core2) (h : Hdr) (k : Nat) (v : Slot) (ctr xa : BitVec 5) (tgt : Half), readyB s c h true =
      (u, some (k, v)) ∧ SameWait v ctr xa tgt ∧ ctrReached (ctrOf v ctr.toNat) (if xa = 0 then tgt else BitVec.ofNat
      16 (xreg v xa.toNat)) = false ∧ v.mustEnd = true) ∧
    (∃ (s u : State) (c : Core2) (h : Hdr) (k : Nat) (v : Slot) (code : BitVec 2), Issues s c h u k v ∧ code.toNat <
      2) ∧
    (∃ (s : State) (c : Core2) (o : OpenB) (st : Status), (core s c).opened = some o ∧ o.ends = some st) :=
  ⟨⟨running, afterW, 1, hn, 3, slotW, 31, 0, 2, (by decide +kernel), (by decide +kernel),
     (by unfold SameWait; decide +kernel), (by decide +kernel)⟩,
   ⟨running, afterW, 1, hn, 3, slotW, 31, 0, 3, 3, (by decide +kernel), (by unfold SameWait; decide +kernel),
     (by decide +kernel), (by decide +kernel), (by decide +kernel)⟩,
   ⟨ending, afterE, 1, hp, 3, cslot (core afterE 1) 3, 31, 0, 3, (by decide +kernel),
     (by unfold SameWait; decide +kernel), (by decide +kernel), (by decide +kernel)⟩,
   ⟨running, after, 1, hn, 3, slot3, 1, (by unfold Issues; decide +kernel), (by decide +kernel)⟩,
   ⟨{ running with cores := [(1, { slots := [(3, sl)], run := some 3, opened := some { ob with ends := some stAborted } })] },
     1, { ob with ends := some stAborted }, stAborted, (by decide +kernel), (by decide +kernel)⟩⟩

theorem witness_CorePortComplete :
    (∃ (s : State) (c : Core2) (o : OpenB) (v : Slot), openSlots s c = some (o, v) ∧ o.m = false) ∧
    (∃ (s : State) (c : Core2) (o : OpenB) (v : Slot) (sa sb : Scr) (lines : BitVec 12), openSlots s c = some (o, v)
      ∧ o.m = false ∧ (∀ i ≤ lines.toNat, (lineAddr v sa i false).isSome = true ∧ (lineAddr v sb i true).isSome =
      true)) ∧
    (∃ (s : State) (c : Core2) (o : OpenB) (v : Slot) (sb : Scr) (lines : BitVec 12) (a : Nat → Nat), openSlots s c =
      some (o, v) ∧ o.m = false ∧ (∀ i ≤ lines.toNat, lineAddr v sb i true = some (a i))) ∧
    (∃ (s : State) (c : Core2) (o : OpenB) (v : Slot) (sa : Scr) (xd : BitVec 5) (a : Nat), openSlots s c = some (o,
      v) ∧ o.m = false ∧ wordAddr v sa false = some a) ∧
    (∃ (s : State) (c : Core2) (o : OpenB) (v : Slot) (sb : Scr) (xs : BitVec 5) (a : Nat), openSlots s c = some (o,
      v) ∧ o.m = false ∧ wordAddr v sb true = some a) :=
  ⟨⟨opened [], 1, ob, sl, (by decide +kernel), (by decide +kernel)⟩,
   ⟨opened [], 1, ob, sl, o0, o1, 3, (by decide +kernel), (by decide +kernel), (by decide +kernel)⟩,
   ⟨opened [], 1, ob, sl, o1, 3, fun i => 65536 + 8064 + 128 * i, (by decide +kernel), (by decide +kernel),
     (by decide +kernel)⟩,
   ⟨opened [], 1, ob, sl, o1, 31, 65536 + 8188, (by decide +kernel), (by decide +kernel), (by decide +kernel)⟩,
   ⟨opened [], 1, ob, sl, o1, 0, 65536 + 8188, (by decide +kernel), (by decide +kernel), (by decide +kernel)⟩⟩

theorem witness_IssueQueueComplete :
    (∃ (s : State) (c : Core2) (o : OpenB) (v : Slot) (sa sb : Scr) (ctr : BitVec 5) (nfb chain : Bool) (r : Req)
      (da bw bo na a b n : Nat) (d0 d : Bytes) (im : Image) (img : Bool) (ep : Nat), QueuesM s c o v ∧ req s v.req =
      some r ∧ winAddr v sa.win.toNat (extOff v sa) 64 false = some da ∧ d0 = (scrRead (core s c) da 64).data ∧
      bodyAt v sb chain = some (bw, bo) ∧ (nfb = true → pLayout d0 = false ∧ winAddr v bw (bo + 4 * pBags d0) 4 false
      = some na) ∧ d = (if nfb then d0.take 12 ++ (scrRead (core s c) na 4).data ++ d0.drop 16 else d0) ∧ n = 4 *
      bodyLen d ∧ pinnedIm s v.req (pTid d) = some (im, img, ep) ∧ progOk (sentDesc s r d 0 0 (pDest d) c) (dDim
      im.desc) = true ∧ (∀ f ∈ dFolds im.desc, (physCtx r f (fld d 0 1)).isSome = true) ∧ sAddr v (pDest d) ((pBags d
      - 1) * pStride d + sliceLen d (dDim im.desc)) true = some a ∧ winAddr v bw bo n false = some b ∧ (scrRead (core
      s c) da 64).hard = false ∧ (scrRead (core s c) b n).hard = false) ∧
    (∃ (s : State) (c : Core2) (o : OpenB) (v : Slot) (fmask : Byte) (dep : Bool) (xt : BitVec 5), QueuesM s c o v) ∧
    (∃ (s : State) (c : Core2) (o : OpenB) (v : Slot) (sa : Scr) (ctr : BitVec 5) (lines : BitVec 12)
      (seg : BitVec 4) (a : Nat), QueuesM s c o v ∧ winAddr v sa.win.toNat (extOff v sa) (128 * (lines.toNat + 1))
      false = some a) ∧
    (∃ (s : State) (c : Core2) (o : OpenB) (v : Slot) (sa : Scr) (ctr : BitVec 5) (d : Bytes) (r : Req)
      (sr ds : Nat), CollReady s c o v sa 1 d r sr ds) ∧
    (∃ (s : State) (c : Core2) (o : OpenB) (v : Slot) (sa : Scr) (ctr : BitVec 5) (d : Bytes) (r : Req)
      (sr ds : Nat), CollReady s c o v sa 2 d r sr ds) ∧
    (∃ (s : State) (c : Core2) (o : OpenB) (v : Slot) (sa : Scr) (ctr : BitVec 5) (d : Bytes) (r : Req)
      (sr ds : Nat), CollReady s c o v sa 3 d r sr ds) ∧
    (∃ (s : State) (c : Core2) (o : OpenB) (v : Slot) (sa : Scr) (ctr : BitVec 5) (d : Bytes) (r : Req)
      (sr ds : Nat), CollReady s c o v sa 4 d r sr ds) :=
  ⟨⟨opened (pdesc ++ bytesOf 12 [(4, 4, 1)]), 1, ob, sl, o0, ⟨0, 0, 64⟩, 31, true, false, lreq, 0, 0, 64, 68, 0, 64,
     12, pdesc, pdesc, timage, false, 1, (by unfold QueuesM; decide +kernel), (by decide +kernel),
     (by decide +kernel), (by decide +kernel), (by decide +kernel), (by decide +kernel), (by decide +kernel),
     (by decide +kernel), (by decide +kernel), (by decide +kernel), (by decide +kernel), (by decide +kernel),
     (by decide +kernel), (by decide +kernel), (by decide +kernel)⟩,
   ⟨opened [], 1, ob, sl, 255, true, 1, (by unfold QueuesM; decide +kernel)⟩,
   ⟨opened [], 1, ob, sl, o1, 31, 447, 15, 65536 + 8191, (by unfold QueuesM; decide +kernel), (by decide +kernel)⟩,
   ⟨opened (gd 1), 1, ob, sl, o0, 31, gd 1, lreq, 0, 8192, ⟨by unfold QueuesM; decide +kernel, by decide +kernel,
     by decide +kernel, ⟨0, by decide +kernel⟩, by decide +kernel, by decide +kernel, by decide +kernel,
     by decide +kernel⟩⟩,
   ⟨opened (gd 2), 1, ob, sl, o0, 31, gd 2, lreq, 0, 0, ⟨by unfold QueuesM; decide +kernel, by decide +kernel,
     by decide +kernel, ⟨0, by decide +kernel⟩, by decide +kernel, by decide +kernel, by decide +kernel,
     by decide +kernel⟩⟩,
   ⟨opened (gd 3), 1, ob, sl, o0, 31, gd 3, lreq, 0, 8192, ⟨by unfold QueuesM; decide +kernel, by decide +kernel,
     by decide +kernel, ⟨0, by decide +kernel⟩, by decide +kernel, by decide +kernel, by decide +kernel,
     by decide +kernel⟩⟩,
   ⟨opened gdp, 1, ob, sl, o0, 31, gdp, lreq, 0, 0, ⟨by unfold QueuesM; decide +kernel, by decide +kernel,
     by decide +kernel, ⟨0, by decide +kernel⟩, by decide +kernel, by decide +kernel, by decide +kernel,
     by decide +kernel⟩⟩⟩

theorem witness_EnginesComplete :
    (∃ (s : State) (c : Core2) (o : OpenB) (v : Slot) (set : BitVec 2), openSlots s c = some (o, v) ∧ o.a = false) ∧
    (∃ (s : State) (c : Core2) (o : OpenB) (v : Slot) (sd : Scr) (xw xx : BitVec 5) (set : BitVec 2) (zero : Bool)
      (j : MaJob), openSlots s c = some (o, v) ∧ o.a = false ∧ (readDesc s c v sd).2 = false ∧ j = maJob o.slot v
      o.at_ o.pc set.toNat zero (xreg v xw.toNat) (xreg v xx.toNat) (readDesc s c v sd).1 ∧ maComb j.w j.x = true ∧
      maN j ≠ 0 ∧ j.kb ≠ 0) ∧
    (∃ (s : State) (c : Core2) (o : OpenB) (v : Slot) (sd : Scr) (xo : BitVec 5) (fn act : BitVec 4) (rule : Bool)
      (imm : Half) (j : VeJob), StartsV s c o v sd xo 1 fn act rule imm j) ∧
    (∃ (s : State) (c : Core2) (o : OpenB) (v : Slot) (sd : Scr) (xo : BitVec 5) (fn act : BitVec 4) (rule : Bool)
      (imm : Half) (j : VeJob), StartsV s c o v sd xo 2 fn act rule imm j) ∧
    (∃ (s : State) (c : Core2) (o : OpenB) (v : Slot) (sd : Scr) (xo : BitVec 5) (fn act : BitVec 4) (rule : Bool)
      (imm : Half) (j : VeJob), StartsV s c o v sd xo 3 fn act rule imm j) :=
  ⟨⟨opened [], 1, ob, sl, 3, (by decide +kernel), (by decide +kernel)⟩,
   ⟨opened mdesc, 1, ob, sl, o0, 1, 0, 3, true, _, (by decide +kernel), (by decide +kernel), (by decide +kernel),
     rfl, (by decide +kernel), (by decide +kernel), (by decide +kernel)⟩,
   ⟨opened vdesc, 1, ob, sl, o0, 1, 8, 10, true, 65535, veJob 3 sl 5 1 8 10 true 65535 1 (readDesc (opened vdesc) 1
     sl o0).1, (by unfold StartsV; decide +kernel)⟩,
   ⟨opened vdesc, 1, ob, sl, o0, 1, 3, 0, false, 0, veJob 3 sl 5 2 3 0 false 0 1 (readDesc (opened vdesc) 1 sl o0).1,
     (by unfold StartsV; decide +kernel)⟩,
   ⟨opened vdesc, 1, ob, sl, o0, 1, 3, 0, false, 0, veJob 3 sl 5 3 3 0 false 0 1 (readDesc (opened vdesc) 1 sl o0).1,
     (by unfold StartsV; decide +kernel)⟩⟩

theorem witness_LaunchEventsComplete :
    (∃ (s : State) (c : Core2) (slot : Fin 4), (cslot (core s c) slot).st ≠ .free ∧ (cslot (core s c) slot).zeroed =
      false ∧ slotWin (cslot (core s c) slot) 1 = none) ∧
    (∃ (s : State) (c : Core2) (slot : Fin 4) (w : Win), (cslot (core s c) slot).st ≠ .free ∧ (cslot (core s c)
      slot).zeroed = false ∧ slotWin (cslot (core s c) slot) 1 = some w) ∧
    (∃ (s : State) (h : Half) (seg : Fin 16) (r : Req) (t : Xfer) (ver : Version) (w : Win) (old new : Nat), req s h
      = some r ∧ s.fe.xfers.find? (fun t => t.kind == .segment h seg.val) = some t ∧ t.left = 0 ∧ t.pieces = [] ∧ (∀
      u ∈ s.fe.xfers, (∃ k, u.kind = .segment h k) → if isInline t.addr.toNat = true then isInline u.addr.toNat =
      true → t.id ≤ u.id else isInline u.addr.toNat = false ∧ t.id ≤ u.id) ∧ (cslot (core s r.core) r.slot).req = h ∧
      (cslot (core s r.core) r.slot).zeroed = true ∧ (cslot (core s r.core) r.slot).st ≠ .free ∧ (cslot (core s
      r.core) r.slot).st ≠ .ending ∧ verOf s r.gid r.ver = some ver ∧ slotWin (cslot (core s r.core) r.slot) 1 = some
      w ∧ old = prefixOf r.landed r.segs.length ∧ new = prefixOf (seg.val :: r.landed) r.segs.length) ∧
    (∃ (s : State) (c : Core2) (h : Half) (copies : List (Nat × Bytes)) (body : List Word) (ctr : BitVec 5)
      (es : List IssueE), (core s c).issueQ = .program h copies body ctr :: es ∧ (∀ e ∈ copies, gxHeld s e.1 = false)
      ∧ (∀ r, req s h = some r → r.retired = false)) ∧
    (∃ (s : State) (c : Core2) (h : Half) (copies : List (Nat × Bytes)) (body : List Word) (ctr : BitVec 5)
      (es : List IssueE) (r : Req), (core s c).issueQ = .program h copies body ctr :: es ∧ (∀ e ∈ copies, gxHeld s
      e.1 = false) ∧ req s h = some r ∧ r.retired = true) ∧
    (∃ (s : State) (c : Core2) (h : Half) (folds : Byte) (dep : Bool) (v : Word) (es : List IssueE), (core s
      c).issueQ = .rel h folds dep v :: es) ∧
    (∃ (s : State) (c : Core2) (h idx : Half) (es : List IssueE), (core s c).issueQ = .coll h idx :: es) ∧
    (∃ (s : State) (c : Core2) (h : Half) (a lines seg : Nat) (ctr : BitVec 5) (es : List IssueE), (core s c).issueQ
      = .out h a lines seg ctr :: es) ∧
    (∃ (s : State) (h : Half) (r : Req) (a n seg : Nat) (ctr : BitVec 5) (rest : List (Nat × Nat × Nat × BitVec 5))
      (o : OutSeg), req s h = some r ∧ r.ranges = (a, n, seg, ctr) :: rest ∧ r.outs[seg]? = some o ∧ o.off + n ≤
      o.cap.toNat ∧ r.reported = false ∧ r.retired = false ∧ r.done = false ∧ (cslot (core s r.core) r.slot).req = h) :=
  ⟨⟨unzeroed { sl with win := [] }, 1, 3, (by decide +kernel), (by decide +kernel), (by decide +kernel)⟩,
   ⟨unzeroed sl, 1, 3, ⟨65536, 65536, true⟩, (by decide +kernel), (by decide +kernel), (by decide +kernel)⟩,
   ⟨segged, 1, 15, lreq, segX, ver, ⟨65536, 65536, true⟩, _, _, (by decide +kernel), (by decide +kernel),
     (by decide +kernel), (by decide +kernel), segs_in_order, (by decide +kernel), (by decide +kernel),
     (by decide +kernel), (by decide +kernel), (by decide +kernel), (by decide +kernel), rfl, rfl⟩,
   ⟨issuing [proge], 1, 1, [(0, pdesc)], [0, 1, 0], 31, [], (by decide +kernel), (by decide +kernel), not_retired⟩,
   ⟨{ issuing [proge] with reqs := [{ lreq with retired := true }] }, 1, 1, [(0, pdesc)], [0, 1, 0], 31, [],
     { lreq with retired := true }, (by decide +kernel), (by decide +kernel), (by decide +kernel),
     (by decide +kernel)⟩,
   ⟨issuing [.rel 1 0xFF true 5], 1, 1, 0xFF, true, 5, [], (by decide +kernel)⟩,
   ⟨issuing [.coll 1 7], 1, 1, 7, [], (by decide +kernel)⟩,
   ⟨issuing [.out 1 0 1 15 31], 1, 1, 0, 1, 15, 31, [], (by decide +kernel)⟩,
   ⟨{ running with reqs := [outReq] }, 1, outReq, 0, 64, 0, 5, [], ⟨64, 0, 0⟩, (by decide +kernel),
     (by decide +kernel), (by decide +kernel), (by decide +kernel), (by decide +kernel), (by decide +kernel),
     (by decide +kernel), (by decide +kernel)⟩⟩

theorem witness_EndEventsComplete :
    (∃ (s : State) (c : Core2), (core (closeB s c) c).run = none) ∧
    (∃ (s u : State) (c : Core2) (k : Nat), u = closeB s c ∧ (core u c).run = some k ∧ ((core u c).heldFull = true ∨
      InHold (cslot (core u c) k))) ∧
    (∃ (s u : State) (c : Core2) (k : Nat), u = closeB s c ∧ (core u c).run = some k ∧ (core u c).heldFull = false ∧
      ¬InHold (cslot (core u c) k) ∧ (cslot (core u c) k).mustEnd = true ∧ (cslot (core u c) k).st ≠ .ending) ∧
    (∃ (s u w : State) (c : Core2) (k : Nat), u = closeB s c ∧ (core u c).run = some k ∧ (core u c).heldFull = false
      ∧ ¬InHold (cslot (core u c) k) ∧ (cslot (core u c) k).mustEnd = false ∧ w = runCore u c (mavDone (core u c) k)
      ∧ (cslot (core w c) k).st ≠ .ending ∧ (cslot (core w c) k).mustEnd = false) ∧
    (∃ (s : State) (h : Half) (r : Req), req s h = some r ∧ r.kind = .launch ∧ r.endSt.isSome = true ∧ (cslot (core s
      r.core) r.slot).req = h ∧ (cslot (core s r.core) r.slot).st = .running ∧ (cslot (core s r.core) r.slot).atEnd =
      false ∧ atHold (core s r.core) r.slot = false) ∧
    (∃ (s : State) (h : Half) (r : Req), req s h = some r ∧ r.kind = .launch ∧ r.endSt.isSome = true ∧ (cslot (core s
      r.core) r.slot).req = h ∧ (cslot (core s r.core) r.slot).st ≠ .free ∧ (cslot (core s r.core) r.slot).st ≠
      .ending ∧ ((cslot (core s r.core) r.slot).st ≠ .running ∨ (cslot (core s r.core) r.slot).atEnd = true ∨ atHold
      (core s r.core) r.slot = true)) ∧
    (∃ (s t : State) (h : Half) (r : Req) (v : Slot) (byEnd : Bool) (w : State × Status), LaunchDone s h t r v byEnd
      ∧ ¬(r.endSt.isNone = true ∧ v.endExc = 0 ∧ r.reported = true ∧ r.replay = 0 ∧ r.rmode ≠ 0) ∧ w = writeTally t r
      (match r.outs.head? with | some o => o.off | none => 0) (launchStatus r v)) ∧
    (∃ (s t : State) (h : Half) (r : Req) (v : Slot) (byEnd : Bool), LaunchDone s h t r v byEnd ∧ r.endSt = none ∧
      v.endExc = 0 ∧ r.reported = true ∧ r.replay = 0 ∧ r.rmode ≠ 0) ∧
    (∃ (s : State) (h idx : Half) (c : Coll), collOf s h idx = some c ∧ collDone s c = true ∧ c.risen = false ∧
      c.kind = 2 ∧ (∃ r, req s h = some r ∧ r.done = false ∧ r.core = c.core ∧ r.slot = c.slot ∧ (cslot (core s
      c.core) c.slot).req = h)) ∧
    (∃ (s : State) (h idx : Half) (c : Coll), collOf s h idx = some c ∧ collDone s c = true ∧ c.risen = false ∧
      c.kind ≠ 2 ∧ (∃ r, req s h = some r ∧ r.done = false ∧ r.core = c.core ∧ r.slot = c.slot ∧ (cslot (core s
      c.core) c.slot).req = h)) :=
  ⟨⟨live, 1, (by decide +kernel)⟩,
   ⟨holding sl true, _, 1, 3, rfl, (by decide +kernel), (by unfold InHold; decide +kernel)⟩,
   ⟨holding { sl with mustEnd := true } false, _, 1, 3, rfl, (by decide +kernel), (by decide +kernel),
     (by unfold InHold; decide +kernel), (by decide +kernel), (by decide +kernel)⟩,
   ⟨running, _, _, 1, 3, rfl, (by decide +kernel), (by decide +kernel), (by unfold InHold; decide +kernel),
     (by decide +kernel), rfl, (by decide +kernel), (by decide +kernel)⟩,
   ⟨ready3 .running endReq, 1, endReq, (by decide +kernel), (by decide +kernel), (by decide +kernel),
     (by decide +kernel), (by decide +kernel), (by decide +kernel), (by decide +kernel)⟩,
   ⟨ready3 .ready endReq, 1, endReq, (by decide +kernel), (by decide +kernel), (by decide +kernel),
     (by decide +kernel), (by decide +kernel), (by decide +kernel), (by decide +kernel)⟩,
   ⟨ready3 .ending lreq, finishOwn (closeOwn (ready3 .ending lreq) 1 3) 1 3, 1, lreq, { sl with st := .ending },
     false, _, done7, (by decide +kernel), rfl⟩,
   ⟨ready3 .ending againReq, finishOwn (closeOwn (ready3 .ending againReq) 1 3) 1 3, 1, againReq,
     { sl with st := .ending }, false, done8, (by decide +kernel), (by decide +kernel), (by decide +kernel),
     (by decide +kernel), (by decide +kernel)⟩,
   ⟨colled [coll2], 1, 7, coll2, (by decide +kernel), (by decide +kernel), (by decide +kernel), (by decide +kernel),
     (by decide +kernel)⟩,
   ⟨colled [coll4], 1, 7, coll4, (by decide +kernel), (by decide +kernel), (by decide +kernel), (by decide +kernel),
     (by decide +kernel)⟩⟩

theorem witness_TransfersComplete :
    (∃ (s : State) (x : Nat) (t : Xfer), xfer s x = some t ∧ mayIssue s t = true) ∧
    (∃ (s : State) (x : Nat) (t : Xfer), xfer s x = some t ∧ t.held.isSome = true ∧ (t.kind = .peer ∨ wayFree s t
      true = true)) ∧
    (∃ (s : State) (x : Nat) (t : Xfer) (h : Byte), xfer s x = some t ∧ t.held = some h ∧ t.kind ≠ .peer) ∧
    (∃ (s : State) (x i : Nat) (t : Xfer) (h : Byte), xfer s x = some t ∧ t.held = some h ∧ t.kind = .peer ∧ i =
      (t.pieces.head?.map (·.toNat)).getD 0) ∧
    (∃ (s : State) (x : Nat) (t : Xfer) (data : Bytes), xfer s x = some t ∧ t.read = true ∧ t.left = 0 ∧ t.pieces ≠
      [] ∧ piecesUp s t = true ∧ t.kind ≠ .ring ∧ t.kind ≠ .peer ∧ (∀ h k, t.kind ≠ .segment h k) ∧ (∀ i, t.kind ≠
      .body i) ∧ t.marks = []) ∧
    (∃ (s : State) (x : Nat) (t : Xfer) (data : Bytes), xfer s x = some t ∧ t.read = true ∧ t.left = 0 ∧ t.pieces ≠
      [] ∧ piecesUp s t = true ∧ t.kind ≠ .ring ∧ t.kind ≠ .peer ∧ (∀ h k, t.kind ≠ .segment h k) ∧ t.marks ≠ []) ∧
    (∃ (s : State) (x k : Nat) (h : Half) (t : Xfer) (data : Bytes), xfer s x = some t ∧ t.read = true ∧ t.left = 0 ∧
      t.pieces ≠ [] ∧ piecesUp s t = true ∧ t.kind = .segment h k) ∧
    (∃ (s : State) (x : Nat) (t : Xfer) (data : Bytes), xfer s x = some t ∧ t.read = true ∧ t.left ≠ 0 ∧ t.pieces ≠
      [] ∧ piecesUp s t = true ∧ t.kind ≠ .ring ∧ t.kind ≠ .peer) ∧
    (∃ (s : State) (q : BitVec 10) (n : Word) (c : Cmd), firstEnded s q.toNat = some c ∧ c.n = n ∧ resultsDone s c =
      true ∧ (queue s q.toNat).st ≠ .disabled) :=
  ⟨⟨xfers [dmaX], 5, dmaX, (by decide +kernel), (by decide +kernel)⟩,
   ⟨xfers [{ dmaX with held := some 0 }], 5, { dmaX with held := some 0 }, (by decide +kernel), (by decide +kernel),
     (by decide +kernel)⟩,
   ⟨xfers [{ dmaX with held := some 255 }], 5, { dmaX with held := some 255 }, 255, (by decide +kernel),
     (by decide +kernel), (by decide +kernel)⟩,
   ⟨xfers [peerX], 5, 4095, peerX, 255, (by decide +kernel), (by decide +kernel), (by decide +kernel),
     (by decide +kernel)⟩,
   ⟨xfers [doneX], 5, doneX, [1], (by decide +kernel), (by decide +kernel), (by decide +kernel), (by decide +kernel),
     (by decide +kernel), (by decide +kernel), (by decide +kernel), (fun _ _ h => nomatch h), (fun _ h => nomatch h),
     (by decide +kernel)⟩,
   ⟨xfers [{ doneX with marks := [⟨0, 1, true, false, true⟩] }], 5,
     { doneX with marks := [⟨0, 1, true, false, true⟩] }, [1], (by decide +kernel), (by decide +kernel),
     (by decide +kernel), (by decide +kernel), (by decide +kernel), (by decide +kernel), (by decide +kernel), (fun _
     _ h => nomatch h), (by decide +kernel)⟩,
   ⟨xfers [{ segX with pieces := [localPiece] }], 0, 15, 1, { segX with pieces := [localPiece] }, [1],
     (by decide +kernel), (by decide +kernel), (by decide +kernel), (by decide +kernel), (by decide +kernel),
     (by decide +kernel)⟩,
   ⟨xfers [{ dmaX with pieces := [localPiece] }], 5, { dmaX with pieces := [localPiece] }, [1], (by decide +kernel),
     (by decide +kernel), (by decide +kernel), (by decide +kernel), (by decide +kernel), (by decide +kernel),
     (by decide +kernel)⟩,
   ⟨having plain [endedAt], 7, 2, endedAt, (by decide +kernel), (by decide +kernel), (by decide +kernel),
     (by decide +kernel)⟩⟩

theorem witness_LinksComplete :
    (∃ (s u w : State) (l : Fin 32) (b : Bytes) (crc : Word) (corrected : Bool), (link s l).st = .up ∧ flitCrcOk b
      crc = true ∧ ((flitOf b).kind = 1 ∨ (flitOf b).kind = 2) ∧ (flitOf b).seq = (link s l).rxSeq ∧ u = cnt (updLink
      (if corrected then cnt s aDlLinkCntFec l else s) l (fun k => { k with rxSeq := k.rxSeq + 1 })) aDlLinkCntRx l ∧
      w = (if (flitOf b).ackv then ackFlits u l (flitOf b).ack else u)) ∧
    (∃ (s : State) (l : Fin 32) (b : Bytes) (crc : Word), (link s l).st = .up ∧ flitCrcOk b crc = true ∧ ((flitOf
      b).kind = 1 ∨ (flitOf b).kind = 2) ∧ (flitOf b).seq ≠ (link s l).rxSeq) ∧
    (∃ (s : State) (l : Fin 32) (b : Bytes) (crc : Word) (fec : Bool), (link s l).st = .up ∧ flitCrcOk b crc = false) ∧
    (∃ (s : State) (l : Fin 32) (b : Bytes) (crc : Word), (link s l).st = .up ∧ flitCrcOk b crc = true ∧ (flitOf
      b).kind = 0) ∧
    (∃ (s : State) (l : Fin 32) (b : Bytes) (crc : Word), (link s l).st = .up ∧ flitCrcOk b crc = true ∧ (flitOf
      b).kind = 3) ∧
    (∃ (s : State) (l : Fin 32) (nbr : BitVec 12) (nlink : BitVec 5), (link s l).st = .training) ∧
    (∃ (s : State) (l : Fin 32), (link s l).st = .training) ∧
    (∃ (s : State) (l : Fin 32), (link s l).st = .up) ∧
    (∃ (s : State) (a : Acc) (v : Word) (l : Nat), mayAccess s a = true ∧ a.secure = true ∧ bit v.toNat 0 = true ∧
      bit v.toNat 1 = true ∧ l = selIx s a.who aDlLinkSel ∧ (link s l).st = .failed) ∧
    (∃ (s : State) (a : Acc) (v : Word) (l : Nat), mayAccess s a = true ∧ a.secure = true ∧ bit v.toNat 0 = true ∧
      bit v.toNat 1 = false ∧ l = selIx s a.who aDlLinkSel ∧ (link s l).st = .down ∧ dlRuns (rsetF s aDlLinkCtl l 0 0
      1) = true) ∧
    (∃ (s : State) (a : Acc) (v : Word) (l : Nat), mayAccess s a = true ∧ a.secure = true ∧ bit v.toNat 0 = false ∧
      bit v.toNat 1 = false ∧ l = selIx s a.who aDlLinkSel ∧ (link s l).st ≠ .down) ∧
    (∃ (s : State) (a : Acc) (v : Word), mayAccess s a = true ∧ a.secure = true ∧ (∀ e ∈ s.dl.links, e.2.st ≠ .up)) :=
  ⟨⟨linked .up, _, _, 31, flitHead fl0, crcOf fl0, true, (by decide +kernel), (by decide +kernel),
     (by decide +kernel), (by decide +kernel), rfl, rfl⟩,
   ⟨linked .up, 31, flitHead { fl0 with seq := 0 }, crcOf { fl0 with seq := 0 }, (by decide +kernel),
     (by decide +kernel), (by decide +kernel), (by decide +kernel)⟩,
   ⟨linked .up, 31, List.replicate 252 0, 0, true, (by decide +kernel), (by decide +kernel)⟩,
   ⟨linked .up, 31, flitHead { fl0 with kind := 0, ackv := true }, crcOf { fl0 with kind := 0, ackv := true },
     (by decide +kernel), (by decide +kernel), (by decide +kernel)⟩,
   ⟨linked .up, 31, flitHead { fl0 with kind := 3 }, crcOf { fl0 with kind := 3 }, (by decide +kernel),
     (by decide +kernel), (by decide +kernel)⟩,
   ⟨linked .training, 31, 4094, 31, (by decide +kernel)⟩,
   ⟨linked .training, 31, (by decide +kernel)⟩,
   ⟨linked .up, 31, (by decide +kernel)⟩,
   ⟨setLink live 0 { st := .failed }, fw, 3, 0, (by decide +kernel), (by decide +kernel), (by decide +kernel),
     (by decide +kernel), (by decide +kernel), (by decide +kernel)⟩,
   ⟨live, fw, 1, 0, (by decide +kernel), (by decide +kernel), (by decide +kernel), (by decide +kernel),
     (by decide +kernel), (by decide +kernel), (by decide +kernel)⟩,
   ⟨setLink live 0 { st := .up }, fw, 0, 0, (by decide +kernel), (by decide +kernel), (by decide +kernel),
     (by decide +kernel), (by decide +kernel), (by decide +kernel)⟩,
   ⟨live, fw, 4094, (by decide +kernel), (by decide +kernel), (by decide +kernel)⟩⟩

theorem witness_GroupRequestsComplete :
    (∃ (s : State) (src : BitVec 12) (key : Word) (tids : List (BitVec 12)), s.dl.dissolved = false ∧ grpOn s = true
      ∧ leader s = myId s ∧ pinRoom s key = true) ∧
    (∃ (s : State) (src : BitVec 12) (key : Word) (tids : List (BitVec 12)), s.dl.dissolved = false ∧ grpOn s = true
      ∧ leader s = myId s ∧ pinRoom s key = false) ∧
    (∃ (s : State) (src : BitVec 12) (key : Word) (tids : List (BitVec 12)), (s.dl.dissolved = true ∨ grpOn s =
      false)) ∧
    (∃ (s : State) (key : Word) (epochs : List (BitVec 12 × Word)) (c : Cmd), s.fe.cmds.find? (fun c => c.asked ==
      some key && c.phase == .admission && c.gotPin.isNone) = some c ∧ (∀ e ∈ epochs, (epochOf (table s e.1.toNat)
      e.2).isSome = true)) ∧
    (∃ (s : State) (key : Word) (epochs : List (BitVec 12 × Word)) (c : Cmd), s.fe.cmds.find? (fun c => c.asked ==
      some key && c.phase == .admission && c.gotPin.isNone) = some c ∧ (∃ e ∈ epochs, epochOf (table s e.1.toNat) e.2
      = none)) ∧
    (∃ (s : State) (key : Word) (epochs : List (BitVec 12 × Word)) (arrivals : List (BitVec 12)), (∃ i < grpN s, ∀ p
      ∈ arrivals, p.toNat ≠ memPrim s i ∧ p.toNat ≠ memMirr s i)) ∧
    (∃ (s : State) (key : Word) (epochs : List (BitVec 12 × Word)) (arrivals : List (BitVec 12)), (∀ i < grpN s, ∃ p
      ∈ arrivals, p.toNat = memPrim s i ∨ p.toNat = memMirr s i)) ∧
    (∃ (s u : State) (key : Word) (r : KeyRec), s.dl.records.find? (fun r => r.key == key) = some r ∧ u =
      { s with dl := { s.dl with records := s.dl.records.filter (fun x => x.key ≠ key) } }) ∧
    (∃ (s : State) (key : Word) (c : Cmd), s.fe.cmds.find? (fun c => c.asked == some key && c.phase == .admission) =
      some c) ∧
    (∃ (s u : State) (key : Word) (r : Req), s.fe.cmds.find? (fun c => c.asked == some key && c.phase == .admission)
      = none ∧ s.reqs.find? (fun r => r.key == some key && !r.done) = some r ∧ u =
      { s with dl := { s.dl with colls := s.dl.colls.filter (fun c => c.req ≠ r.handle) } }) :=
  ⟨⟨grouped, 6, 4294967295, [5], (by decide +kernel), (by decide +kernel), (by decide +kernel), (by decide +kernel)⟩,
   ⟨{ grouped with dl := { grouped.dl with records := List.replicate 4096 ⟨1, [], []⟩ } }, 6, 0, [5],
     (by decide +kernel), (by decide +kernel), (by decide +kernel), (by decide +kernel)⟩,
   ⟨ungrouped, 6, 0, [5], (by decide +kernel)⟩,
   ⟨having tabled [asked], 9, [(5, 1)], asked, (by decide +kernel), asked_ok⟩,
   ⟨having live [asked], 9, [(5, 1)], asked, (by decide +kernel), (by decide +kernel)⟩,
   ⟨grouped, 9, [(5, 1)], [0], (by decide +kernel)⟩,
   ⟨grouped, 9, [(5, 1)], [0xFFF], (by decide +kernel)⟩,
   ⟨{ grouped with dl := { grouped.dl with records := [⟨9, [(5, 1)], []⟩] } }, _, 9, ⟨9, [(5, 1)], []⟩,
     (by decide +kernel), rfl⟩,
   ⟨having live [asked], 9, asked, (by decide +kernel)⟩,
   ⟨{ live with reqs := [{ lq with key := some 9 }] }, _, 9, { lq with key := some 9 }, (by decide +kernel),
     (by decide +kernel), rfl⟩⟩

theorem witness_BarrierComplete :
    (∃ (s u w : State) (src : BitVec 12) (upd : Bool) (tabs : List StepTab), s.dl.dissolved = false ∧ grpOn s = true
      ∧ u = toLeadMirror s (.ready src upd tabs) ∧ w =
      { u with dl := { u.dl with readys := (u.dl.readys.filter (fun x => !(x.src == src && x.tabs == tabs))) ++ [{ src := src, upd := upd, tabs := tabs }] } }
      ∧ leader w ≠ myId w) ∧
    (∃ (s u w : State) (src : BitVec 12) (upd : Bool) (x : StepTab) (tabs : List StepTab), s.dl.dissolved = false ∧
      grpOn s = true ∧ u = toLeadMirror s (.ready src upd (x :: tabs)) ∧ w =
      { u with dl := { u.dl with readys := (u.dl.readys.filter (fun y => !(y.src == src && y.tabs == x :: tabs))) ++ [{ src := src, upd := upd, tabs := x :: tabs }] } }
      ∧ leader w = myId w) ∧
    (∃ (s u w : State) (set : List (BitVec 12 × Word)) (l : List ReadyRec), isLeader s = true ∧ l =
      s.dl.readys.filter (fun r => r.tabs.any (fun x => set.any (fun e => e.1 == x.tid))) ∧ u = (if l.any (·.upd)
      then rsetF s aDlGrpStat 0 0 0 1 else s) ∧ w = (if mismatched l then rsetF u aDlGrpStat 0 1 1 1 else u)) ∧
    (∃ (s : State) (a : Acc) (v : Word), mayAccess s a = true ∧ a.secure = true ∧ bit v.toNat 1 = true) :=
  ⟨⟨member, _, _, 6, true, [], (by decide +kernel), (by decide +kernel), rfl, rfl, (by decide +kernel)⟩,
   ⟨grouped, _, _, 0xFFF, false, st5, [], (by decide +kernel), (by decide +kernel), rfl, rfl, (by decide +kernel)⟩,
   ⟨{ grouped with dl := { grouped.dl with readys := [⟨0xFFF, false, [st5]⟩] } }, _, _, [(5, 1)], _,
     (by decide +kernel), rfl, rfl, rfl⟩,
   ⟨live, fw, 2, (by decide +kernel), (by decide +kernel), (by decide +kernel)⟩⟩

theorem witness_CollectivesComplete :
    (∃ (s : State) (m : BitVec 12) (key : Word) (idx : Half), collBy s key idx = none) ∧
    (∃ (s : State) (m : BitVec 12) (key : Word) (idx : Half) (c : Coll), collBy s key idx = some c) ∧
    (∃ (s u : State) (m : BitVec 12) (key : Word) (idx : Half) (off : Nat) (data : Marked) (last : Bool) (c : Coll),
      collBy s key idx = some c ∧ (cutMarked data (min data.data.length (c.bytes - off))).data ≠ [] ∧ u = updCore s
      c.core (fun x => extPut x (c.dst + m.toNat * c.stride + off) (farMarked (cutMarked data (min data.data.length
      (c.bytes - off)))))) ∧
    (∃ (s : State) (src : BitVec 12) (tag : Word) (win : BitVec 6) (off : Dword) (data : Marked) (f a : Nat),
      rwinAddr s src.toNat win.toNat off.toNat data.data.length true = some (.fold f a)) ∧
    (∃ (s : State) (src : BitVec 12) (tag : Word) (win : BitVec 6) (off : Dword) (data : Marked) (c a : Nat),
      rwinAddr s src.toNat win.toNat off.toNat data.data.length true = some (.core c a)) ∧
    (∃ (s : State) (src : BitVec 12) (tag : Word) (win : BitVec 6) (off : Dword) (data : Marked), rwinAddr s
      src.toNat win.toNat off.toNat data.data.length true = none) ∧
    (∃ (s : State) (src : BitVec 12) (tag : Word) (win : BitVec 6) (off : Dword) (len f a : Nat), rwinAddr s
      src.toNat win.toNat off.toNat len false = some (.fold f a) ∧ mayFm s f 15 = true) ∧
    (∃ (s : State) (src : BitVec 12) (tag : Word) (win : BitVec 6) (off : Dword) (len f a : Nat), rwinAddr s
      src.toNat win.toNat off.toNat len false = some (.fold f a) ∧ mayFm s f 15 = false) ∧
    (∃ (s : State) (src : BitVec 12) (tag : Word) (win : BitVec 6) (off : Dword) (len c a : Nat), rwinAddr s
      src.toNat win.toNat off.toNat len false = some (.core c a)) ∧
    (∃ (s : State) (src : BitVec 12) (tag : Word) (win : BitVec 6) (off : Dword) (len : Nat), rwinAddr s src.toNat
      win.toNat off.toNat len false = none) ∧
    (∃ (s : State) (src : BitVec 12) (tag : Word) (data : Marked) (c : Coll), s.dl.colls.find? (fun c => c.kind == 3
      && c.tag.toNat % 2 ^ 31 == tag.toNat % 2 ^ 31 && memPrim s c.stride == src.toNat) = some c) ∧
    (∃ (s : State) (src : BitVec 12) (tag : Word) (c : Coll), s.dl.colls.find? (fun c => (c.kind == 2 || c.kind == 3)
      && c.tag.toNat % 2 ^ 31 == tag.toNat % 2 ^ 31 && memPrim s c.stride == src.toNat) = some c) ∧
    (∃ (s : State) (h idx : Half) (c : Coll), collOf s h idx = some c ∧ c.risen = false ∧ collDone s c = false) :=
  ⟨⟨live, 6, 0, 65535, (by decide +kernel)⟩,
   ⟨colled [{ coll2 with started := false }], 6, 0, 7, { coll2 with started := false }, (by decide +kernel)⟩,
   ⟨colled [coll2], _, 6, 0, 7, 63, ⟨[1], []⟩, true, coll2, (by decide +kernel), (by decide +kernel), rfl⟩,
   ⟨shared, 0, 0, 0, 4095, ⟨[1], []⟩, 0, 4095, (by decide +kernel)⟩,
   ⟨sharedC, 0, 0, 0, 4095, ⟨[1], []⟩, 1, 4095, (by decide +kernel)⟩,
   ⟨live, 0, 0, 63, 0, ⟨[1], []⟩, (by decide +kernel)⟩,
   ⟨shared, 0, 0, 0, 4032, 64, 0, 4032, (by decide +kernel), (by decide +kernel)⟩,
   ⟨rset (setFold shared 0 { fold shared 0 with tokens := [(15, 0)] }) (foldReg 0 aFmCtl) 0 0, 0, 0, 0, 4032, 64, 0,
     4032, (by decide +kernel), (by decide +kernel)⟩,
   ⟨sharedC, 0, 0, 0, 4032, 64, 1, 4032, (by decide +kernel)⟩,
   ⟨live, 0, 0, 63, 0, 64, (by decide +kernel)⟩,
   ⟨collG [coll3], 7, 8, ⟨[1], []⟩, coll3, (by decide +kernel)⟩,
   ⟨collG [coll3], 7, 8, coll3, (by decide +kernel)⟩,
   ⟨collG [coll3], 1, 7, coll3, (by decide +kernel), (by decide +kernel), (by decide +kernel)⟩⟩

theorem witness_PairCommandsComplete :
    (∃ (s : State) (n : Word) (c : Cmd), Dispatched s 0 n 23 c ∧ pairOk s c = true ∧ cF c 16 1 = 1 ∧ s.dl.pair =
      .none ∧ s.dl.pairCmd = none) ∧
    (∃ (s : State) (n : Word) (c : Cmd), Dispatched s 0 n 23 c ∧ pairOk s c = true ∧ cF c 16 1 = 1 ∧ (s.dl.pair ≠
      .none ∨ s.dl.pairCmd.isSome = true)) ∧
    (∃ (s : State) (n : Word) (c : Cmd), Dispatched s 0 n 23 c ∧ pairOk s c = false) ∧
    (∃ (s : State) (n : Word) (c : Cmd), Dispatched s 0 n 23 c ∧ pairOk s c = true ∧ cF c 16 1 = 2) ∧
    (∃ (s : State) (n : Word) (c : Cmd), Dispatched s 0 n 23 c ∧ pairOk s c = true ∧ cF c 16 1 = 3 ∧ s.dl.pair =
      .sync ∧ s.dl.swap = .no ∧ s.dl.pairCmd = none) ∧
    (∃ (s : State) (n : Word) (c : Cmd), Dispatched s 0 n 23 c ∧ pairOk s c = true ∧ cF c 16 1 = 3 ∧ (s.dl.pair ≠
      .sync ∨ s.dl.swap ≠ .no ∨ s.dl.pairCmd.isSome = true)) ∧
    (∃ (s : State) (n : Word) (c : Cmd), Dispatched s 0 n 23 c ∧ pairOk s c = true ∧ cF c 16 1 = 4 ∧ s.dl.mirror =
      true ∧ s.dl.hbAlive = false ∧ (s.dl.pair = .stale ∨ s.dl.pair = .solo)) ∧
    (∃ (s : State) (n : Word) (c : Cmd), Dispatched s 0 n 23 c ∧ pairOk s c = true ∧ cF c 16 1 = 4 ∧ (s.dl.mirror =
      false ∨ s.dl.hbAlive = true ∨ (s.dl.pair ≠ .stale ∧ s.dl.pair ≠ .solo))) ∧
    (∃ (s : State) (n : Word) (c : Cmd), Dispatched s 0 n 23 c ∧ pairOk s c = true ∧ cF c 16 1 = 5 ∧ s.dl.pair ≠
      .none ∧ s.dl.pair ≠ .forming ∧ s.dl.mirror = true ∧ s.dl.pairCmd = none ∧ (∀ t ∈ resyncTids c, t ∈ s.dl.mtids)) ∧
    (∃ (s : State) (n : Word) (c : Cmd), Dispatched s 0 n 23 c ∧ pairOk s c = true ∧ cF c 16 1 = 5 ∧ s.dl.pair ≠
      .none ∧ s.dl.pair ≠ .forming ∧ s.dl.mirror = true ∧ s.dl.pairCmd = none ∧ (∃ t ∈ resyncTids c, t ∉ s.dl.mtids)) ∧
    (∃ (s : State) (n : Word) (c : Cmd), Dispatched s 0 n 23 c ∧ pairOk s c = true ∧ cF c 16 1 = 5 ∧ (s.dl.pair =
      .none ∨ s.dl.pair = .forming ∨ s.dl.mirror = false ∨ s.dl.pairCmd.isSome = true)) :=
  ⟨⟨pairSt .none false (ctlAt 1), 2, ctlAt 1, (by unfold Dispatched; decide +kernel), (by decide +kernel),
     (by decide +kernel), (by decide +kernel), (by decide +kernel)⟩,
   ⟨pairSt .solo false (ctlAt 1), 2, ctlAt 1, (by unfold Dispatched; decide +kernel), (by decide +kernel),
     (by decide +kernel), (by decide +kernel)⟩,
   ⟨pairSt .none false (ctlAt 0), 2, ctlAt 0, (by unfold Dispatched; decide +kernel), (by decide +kernel)⟩,
   ⟨pairSt .solo false (ctlAt 2), 2, ctlAt 2, (by unfold Dispatched; decide +kernel), (by decide +kernel),
     (by decide +kernel)⟩,
   ⟨pairSt .sync false (ctlAt 3), 2, ctlAt 3, (by unfold Dispatched; decide +kernel), (by decide +kernel),
     (by decide +kernel), (by decide +kernel), (by decide +kernel), (by decide +kernel)⟩,
   ⟨pairSt .solo false (ctlAt 3), 2, ctlAt 3, (by unfold Dispatched; decide +kernel), (by decide +kernel),
     (by decide +kernel), (by decide +kernel)⟩,
   ⟨pairSt .stale true (ctlAt 4), 2, ctlAt 4, (by unfold Dispatched; decide +kernel), (by decide +kernel),
     (by decide +kernel), (by decide +kernel), (by decide +kernel), (by decide +kernel)⟩,
   ⟨pairSt .sync true (ctlAt 4), 2, ctlAt 4, (by unfold Dispatched; decide +kernel), (by decide +kernel),
     (by decide +kernel), (by decide +kernel)⟩,
   ⟨pairT true, 2, ctl5, (by unfold Dispatched; decide +kernel), (by decide +kernel), (by decide +kernel),
     (by decide +kernel), (by decide +kernel), (by decide +kernel), (by decide +kernel), (by decide +kernel)⟩,
   ⟨pairT false, 2, ctl5, (by unfold Dispatched; decide +kernel), (by decide +kernel), (by decide +kernel),
     (by decide +kernel), (by decide +kernel), (by decide +kernel), (by decide +kernel), (by decide +kernel)⟩,
   ⟨pairSt .none true (ctlAt 5), 2, ctlAt 5, (by unfold Dispatched; decide +kernel), (by decide +kernel),
     (by decide +kernel), (by decide +kernel)⟩⟩

theorem witness_PairMessagesComplete :
    (∃ (s u : State) (src : BitVec 12) (mirror syncEn : Bool) (rule : Byte) (tabs : List (BitVec 12 × Bytes))
      (c : Cmd), waitingFor s 1 = some c ∧ cF c 18 2 = src.toNat ∧ u = droveSend s src.toNat (.pairMsg (formMsg s
      c))) ∧
    (∃ (s : State) (src : BitVec 12), s.dl.pair ≠ .none ∧ src = s.dl.partner) ∧
    (∃ (s : State) (src : BitVec 12), s.dl.pair = .sync ∧ src = s.dl.partner ∧ s.dl.swap = .no) ∧
    (∃ (s : State) (src : BitVec 12), ¬(s.dl.pair = .sync ∧ src = s.dl.partner ∧ s.dl.swap = .no)) ∧
    (∃ (s : State) (src : BitVec 12) (tids : List (BitVec 12)), s.dl.pair ≠ .none ∧ s.dl.pair ≠ .forming ∧ src =
      s.dl.partner ∧ s.dl.mirror = false) ∧
    (∃ (s : State) (src : BitVec 12) (tids : List (BitVec 12)), (s.dl.pair = .none ∨ s.dl.pair = .forming ∨ src ≠
      s.dl.partner ∨ s.dl.mirror = true)) ∧
    (∃ (s : State) (src : BitVec 12), src = s.dl.partner ∧ (waitingFor s 3).isSome = true) ∧
    (∃ (s : State) (src : BitVec 12) (c : Cmd), src = s.dl.partner ∧ waitingFor s 3 = none ∧ waitingFor s 5 = some c) ∧
    (∃ (s : State) (src : BitVec 12), src = s.dl.partner ∧ waitingFor s 3 = none ∧ waitingFor s 5 = none ∧ s.dl.swap
      = .drain ∧ s.dl.mirror = true) ∧
    (∃ (s : State) (src tid : BitVec 12) (d : Bytes) (epoch : Word) (root : Bytes), s.dl.pair ≠ .none ∧ src =
      s.dl.partner) ∧
    (∃ (s : State) (src : BitVec 12) (st : Status), s.dl.pairCmd.isSome = true) ∧
    (∃ (s : State), s.dl.pairCmd.isSome = true) ∧
    (∃ (s : State) (src : BitVec 12) (mirror : Bool) (st : BitVec 3) (count : Word), s.dl.pair ≠ .none ∧ src =
      s.dl.partner) ∧
    (∃ (s : State), s.dl.pair ≠ .none) ∧
    (∃ (s : State), s.dl.pair ≠ .none ∧ s.dl.syncEn = true) ∧
    (∃ (s u : State) (pin pinSilent : Bool), s.dl.pair = .sync ∧ pin = (pinSilent && s.dl.syncEn &&
      !s.pc.sync.faulty) ∧ u = pairEnd
      { cntN s aDlCntHbMiss 0 (pairMiss s - s.dl.hbMissed) with dl := { s.dl with hbAlive := false, silent := true, hbMissed := max s.dl.hbMissed (pairMiss s), pinAlive := if s.dl.syncEn then !pin else s.dl.pinAlive } }
      stPeer) :=
  ⟨⟨{ having live [ctlAt 1] with dl := { live.dl with pairCmd := some 2 } }, _, 6, false, true, 0, [], ctlAt 1,
     (by decide +kernel), (by decide +kernel), rfl⟩,
   ⟨paired .sync, 6, (by decide +kernel), (by decide +kernel)⟩,
   ⟨paired .sync, 6, (by decide +kernel), (by decide +kernel), (by decide +kernel)⟩,
   ⟨paired .sync, 7, (by decide +kernel)⟩,
   ⟨paired .sync, 6, [5], (by decide +kernel), (by decide +kernel), (by decide +kernel), (by decide +kernel)⟩,
   ⟨paired .forming, 6, [], (by decide +kernel)⟩,
   ⟨having (paired .sync) [ctlAt 3], 6, (by decide +kernel), (by decide +kernel)⟩,
   ⟨having (paired .sync) [ctlAt 5], 6, ctlAt 5, (by decide +kernel), (by decide +kernel), (by decide +kernel)⟩,
   ⟨{ paired .sync with dl := { (paired .sync).dl with swap := .drain, mirror := true } }, 6, (by decide +kernel),
     (by decide +kernel), (by decide +kernel), (by decide +kernel), (by decide +kernel)⟩,
   ⟨paired .sync, 6, 5, [], 1, [], (by decide +kernel), (by decide +kernel)⟩,
   ⟨paired .forming, 6, 255, (by decide +kernel)⟩,
   ⟨paired .forming, (by decide +kernel)⟩,
   ⟨paired .solo, 6, true, 7, 4294967295, (by decide +kernel), (by decide +kernel)⟩,
   ⟨paired .stale, (by decide +kernel)⟩,
   ⟨paired .sync, (by decide +kernel), (by decide +kernel)⟩,
   ⟨paired .sync, _, _, true, (by decide +kernel), rfl, rfl⟩⟩

theorem witness_MirrorComplete :
    (∃ (s : State) (upd : Half) (tag : Dword) (epochs : List (BitVec 12 × Word)) (recs deltas : List Bytes)
      (whole : Bool) (t : StreamRec), s.dl.pair = .sync ∧ s.dl.mirror = true ∧ s.dl.streams.find? (fun t => t.upd ==
      upd) = none ∧ t = { upd := upd, tag := tag, epochs := epochs, recs := recs, deltas := deltas, whole := whole }) ∧
    (∃ (s : State) (upd : Half) (tag : Dword) (epochs : List (BitVec 12 × Word)) (recs deltas : List Bytes)
      (whole : Bool) (t : StreamRec), s.dl.pair = .sync ∧ s.dl.mirror = true ∧ s.dl.streams.find? (fun t => t.upd ==
      upd) = some t ∧ t.whole = true) ∧
    (∃ (s : State) (upd : Half) (tag : Dword) (epochs : List (BitVec 12 × Word)) (recs deltas : List Bytes)
      (whole : Bool) (t u : StreamRec), s.dl.pair = .sync ∧ s.dl.mirror = true ∧ s.dl.streams.find? (fun t => t.upd
      == upd) = some t ∧ t.whole = false ∧ u =
      { t with epochs := t.epochs ++ epochs, recs := t.recs ++ recs, deltas := t.deltas ++ deltas, whole := whole }) ∧
    (∃ (s : State) (upd : Half) (t : StreamRec), s.dl.streams.find? (fun t => t.upd == upd && t.whole &&
      !t.committed) = some t) ∧
    (∃ (s : State) (tid : BitVec 12) (epoch : Word) (r : Bytes), s.dl.forming.find? (fun x => x.tid == tid) = none ∧
      s.dl.pair = .sync ∧ tid ∈ s.dl.mtids) ∧
    (∃ (s : State) (tid : BitVec 12) (epoch : Word) (r : Bytes) (x : FormRec), s.dl.forming.find? (fun x => x.tid ==
      tid) = some x ∧ s.dl.mirror = true) ∧
    (∃ (s : State) (tid : BitVec 12) (epoch : Word) (r mine : Bytes) (x : FormRec), s.dl.forming.find? (fun x =>
      x.tid == tid) = some x ∧ s.dl.mirror = false ∧ x.sent = true ∧ (table s tid.toNat).lastRoots.find? (fun e =>
      e.1 == epoch) = some (epoch, mine)) ∧
    (∃ (s u w : State) (tid : BitVec 12) (first : Word) (rows : List Marked) (x : FormRec) (im : Image),
      s.dl.forming.find? (fun x => x.tid == tid) = some x ∧ s.dl.mirror = true ∧ first ∉ x.firsts ∧ u = (if x.began
      then s else startBulk s tid) ∧ (table u tid.toNat).staged = true ∧ imgOf (table u tid.toNat) (table u
      tid.toNat).stagedIn = some im ∧ first.toNat + rows.length ≤ dRows im.desc ∧ w = (rows.zipIdx).foldl (fun s e =>
      fmPut s (ruPart s (rowFold im.desc (first.toNat + e.2)).1) (rowFold im.desc (first.toNat + e.2)).1 (homeA im
      (rowFold im.desc (first.toNat + e.2)).1 (rowFold im.desc (first.toNat + e.2)).2) (withPop (slice e.1.data 0
      (dPslot im.desc)) (fld e.1.data 22 1) (fold s (rowFold im.desc (first.toNat + e.2)).1).period.toNat)
      (!e.1.marks.isEmpty)) u) :=
  ⟨⟨mirrorOf [] [], 7, 1, [(5, 2)], [[1]], [[2]], true, _, (by decide +kernel), (by decide +kernel),
     (by decide +kernel), rfl⟩,
   ⟨mirrorOf [] [strm], 7, 0, [], [[1]], [], false, strm, (by decide +kernel), (by decide +kernel),
     (by decide +kernel), (by decide +kernel)⟩,
   ⟨mirrorOf [] [{ strm with whole := false }], 7, 0, [], [[1]], [], false, { strm with whole := false }, _,
     (by decide +kernel), (by decide +kernel), (by decide +kernel), (by decide +kernel), rfl⟩,
   ⟨mirrorOf [] [strm], 7, strm, (by decide +kernel)⟩,
   ⟨mirrorOf [] [], 5, 1, [1], (by decide +kernel), (by decide +kernel), (by decide +kernel)⟩,
   ⟨mirrorOf [{ tid := 5, began := true }] [], 5, 1, [1], { tid := 5, began := true }, (by decide +kernel),
     (by decide +kernel)⟩,
   ⟨rooted, 5, 1, [1], [1], sentF, (by decide +kernel), (by decide +kernel), (by decide +kernel),
     (by decide +kernel)⟩,
   ⟨formS, _, _, 5, 0, [⟨[1], []⟩], { tid := 5, began := true }, timage, (by decide +kernel), (by decide +kernel),
     (by decide +kernel), rfl, (by decide +kernel), (by decide +kernel), (by decide +kernel), rfl⟩⟩

theorem witness_PacketsComplete :
    (∃ (s u w : State) (q : BitVec 13) (k : Pkt) (len : Nat), Arrives s u q.toNat (pkts s q.toNat len) k ∧ k.psn =
      (qp u q.toNat).epsn ∧ w = dropImm (tookPsn u q.toNat (pkts s q.toNat len)) k) ∧
    (∃ (s u : State) (q : BitVec 13) (k : Pkt) (len : Nat), Arrives s u q.toNat (pkts s q.toNat len) k ∧ k.psn ≠ (qp
      u q.toNat).epsn ∧ (k.psn - (qp u q.toNat).epsn).toNat < 2 ^ 23 ∧ (qp u q.toNat).nakSent = false) ∧
    (∃ (s u : State) (q : BitVec 13) (k : Pkt) (len : Nat), Arrives s u q.toNat (pkts s q.toNat len) k ∧ 2 ^ 23 ≤
      (k.psn - (qp u q.toNat).epsn).toNat) ∧
    (∃ (s : State) (q : BitVec 13) (k : Pkt) (len : Nat), linkOn s k.frame.mac = true ∧ k.frame.fec = false ∧ frameOk
      s k.frame = true ∧ qpRts s q.toNat = false) ∧
    (∃ (s u : State) (q : BitVec 13) (k : Pkt), Arrives s u q.toNat 1 k ∧ k.psn = (qp u q.toNat).epsn) ∧
    (∃ (s u w : State) (q : BitVec 12) (k : Pkt) (rkey : Word) (va : Dword) (data : Bytes), Arrives s u q.toNat (pkts
      s q.toNat data.length) k ∧ k.psn = (qp u q.toNat).epsn ∧ qpRole s q.toNat = 1 ∧ w = dropImm (tookPsn u q.toNat
      (pkts s q.toNat data.length)) k ∧ inWindow w q.toNat rkey va.toNat data.length = true) ∧
    (∃ (s u w : State) (q : BitVec 12) (k : Pkt) (rkey : Word) (va : Dword) (data : Bytes), Arrives s u q.toNat (pkts
      s q.toNat data.length) k ∧ k.psn = (qp u q.toNat).epsn ∧ qpRole s q.toNat = 1 ∧ w = dropImm (tookPsn u q.toNat
      (pkts s q.toNat data.length)) k ∧ inWindow w q.toNat rkey va.toNat data.length = false) ∧
    (∃ (s u w : State) (q : BitVec 12) (k : Pkt) (rkey : Word) (data : Bytes), Arrives s u q.toNat (pkts s q.toNat
      data.length) k ∧ k.psn = (qp u q.toNat).epsn ∧ qpRole s q.toNat = 1 ∧ w = dropImm (tookPsn u q.toNat (pkts s
      q.toNat data.length)) k ∧ inWindow w q.toNat rkey 0x2000 data.length = true) ∧
    (∃ (s u w : State) (q : BitVec 12) (k : Pkt) (rkey : Word) (va : Dword) (len : Nat), Arrives s u q.toNat 1 k ∧
      k.psn = (qp u q.toNat).epsn ∧ qpRole s q.toNat = 1 ∧ w = tookPsn u q.toNat (pkts s q.toNat len) ∧ peerReads w
      q.toNat < 16) :=
  ⟨⟨mgN, got mgN 3, _, 4096, pk 8 0, 8193, (by unfold Arrives; decide +kernel), (by decide +kernel), rfl⟩,
   ⟨mgN, got mgN 1, 4096, pk 8 1, 4096, (by unfold Arrives; decide +kernel), (by decide +kernel),
     (by decide +kernel), (by decide +kernel)⟩,
   ⟨mgN, got mgN 1, 4096, pk 8 0x800000, 0, (by unfold Arrives; decide +kernel), (by decide +kernel)⟩,
   ⟨netOn live, 4095, pk 0 0, 0, (by decide +kernel), (by decide +kernel), (by decide +kernel), (by decide +kernel)⟩,
   ⟨mgN, got mgN 1, 4096, pk 8 0, (by unfold Arrives; decide +kernel), (by decide +kernel)⟩,
   ⟨sesN, got sesN 1, _, 4095, pk 0 0, 5, 0x1FFF, [1], (by unfold Arrives; decide +kernel), (by decide +kernel),
     (by decide +kernel), rfl, (by decide +kernel)⟩,
   ⟨sesN, got sesN 1, _, 4095, pk 0 0, 4, 0x1FFF, [1], (by unfold Arrives; decide +kernel), (by decide +kernel),
     (by decide +kernel), rfl, (by decide +kernel)⟩,
   ⟨sesN, got sesN 1, _, 4095, pk 0 0, 5, List.replicate 8 0, (by unfold Arrives; decide +kernel),
     (by decide +kernel), (by decide +kernel), rfl, (by decide +kernel)⟩,
   ⟨sesN, got sesN 1, _, 4095, pk 0 0, 5, 0x2000, 8, (by unfold Arrives; decide +kernel), (by decide +kernel),
     (by decide +kernel), rfl, (by decide +kernel)⟩⟩

theorem witness_TransportComplete :
    (∃ (s u : State) (q : BitVec 13) (k : Pkt) (count : Nat), Arrives s u q.toNat 1 k) ∧
    (∃ (s : State) (q : BitVec 13), qpRts s q.toNat = true ∧ waitsOn s q.toNat = true ∧ (qp s q.toNat).retries < rf s
      aNpQpTmo q.toNat 7 5) ∧
    (∃ (s : State) (q : BitVec 13), qpRts s q.toNat = true ∧ waitsOn s q.toNat = true ∧ rf s aNpQpTmo q.toNat 7 5 ≤
      (qp s q.toNat).retries) ∧
    (∃ (s : State) (q : BitVec 13), qpRts s q.toNat = true ∧ waitsOn s q.toNat = true ∧ (rf s aNpQpTmo q.toNat 10 8 =
      7 ∨ (qp s q.toNat).rnr < rf s aNpQpTmo q.toNat 10 8)) ∧
    (∃ (s : State) (q : BitVec 13), qpRts s q.toNat = true ∧ waitsOn s q.toNat = true ∧ rf s aNpQpTmo q.toNat 10 8 ≠
      7 ∧ rf s aNpQpTmo q.toNat 10 8 ≤ (qp s q.toNat).rnr) ∧
    (∃ (s u : State) (q : BitVec 13) (k : Pkt), Arrives s u q.toNat 1 k ∧ waitsOn u q.toNat = true) ∧
    (∃ (s u : State) (q : BitVec 13) (k : Pkt), Arrives s u q.toNat 1 k) ∧
    (∃ (s u : State) (q : BitVec 13) (k : Pkt), Arrives s u q.toNat 1 k) :=
  ⟨⟨busyN, got busyN 1, 4096, pk 8 0, 1, (by unfold Arrives; decide +kernel)⟩,
   ⟨rset (busyQp 6) aNpQpTmo 4096 0xE0, 4096, (by decide +kernel), (by decide +kernel), (by decide +kernel)⟩,
   ⟨rset (busyQp 7) aNpQpTmo 4096 0xE0, 4096, (by decide +kernel), (by decide +kernel), (by decide +kernel)⟩,
   ⟨rset (busyQp 0) aNpQpTmo 4096 0x700, 4096, (by decide +kernel), (by decide +kernel), (by decide +kernel)⟩,
   ⟨rset (busyQp 0) aNpQpTmo 4096 0, 4096, (by decide +kernel), (by decide +kernel), (by decide +kernel),
     (by decide +kernel)⟩,
   ⟨busyN, got busyN 1, 4096, pk 8 0, (by unfold Arrives; decide +kernel), (by decide +kernel)⟩,
   ⟨busyN, got busyN 1, 4096, pk 8 0, (by unfold Arrives; decide +kernel)⟩,
   ⟨busyN, got busyN 1, 4096, pk 8 0, (by unfold Arrives; decide +kernel)⟩⟩

theorem witness_CongestionComplete :
    (∃ (s : State) (q : BitVec 13) (k : Pkt), closed s = false ∧ linkOn s k.frame.mac = true ∧ k.frame.fec = false ∧
      frameOk s k.frame = true ∧ k.rc = true ∧ qpRts s q.toNat = true ∧ pktFrom s q.toNat k = true ∧ (∀ t, (qp s
      q.toNat).cnpAt = some t → t.toNat + rf s aNpCcCfg 0 10 3 * 1000 ≤ now s)) ∧
    (∃ (s u : State) (q : BitVec 13) (k : Pkt), Arrives s u q.toNat 1 k ∧ rb (cnt u aNpCntCnpRx) aNpCcCfg 0 27 = true
      ∧ q.toNat ≠ 4096) ∧
    (∃ (s u : State) (q : BitVec 13) (k : Pkt), Arrives s u q.toNat 1 k ∧ (rb (cnt u aNpCntCnpRx) aNpCcCfg 0 27 =
      false ∨ q.toNat = 4096)) ∧
    (∃ (s : State) (q : BitVec 12), qpRts s q.toNat = true ∧ rb s aNpCcCfg 0 27 = true) ∧
    (∃ (s : State) (port : Fin 4) (prio : BitVec 3), portUp s port = true ∧ pfcFor s port prio = true ∧ mget false
      s.np.pfcIgnore port = false) ∧
    (∃ (s : State) (port : Fin 4) (prio : BitVec 3), portUp s port = true ∧ pfcFor s port prio = true) ∧
    (∃ (s : State) (port : Fin 4), mget false s.np.paused port = true) :=
  ⟨⟨netOn (qpOn 4095 1), 4095, pk 0 0, (by decide +kernel), (by decide +kernel), (by decide +kernel),
     (by decide +kernel), (by decide +kernel), (by decide +kernel), (by decide +kernel), (fun _ h => nomatch h)⟩,
   ⟨cnpN, got cnpN 1, 4095, pk 0 0, (by unfold Arrives; decide +kernel), (by decide +kernel), (by decide +kernel)⟩,
   ⟨mgN, got mgN 1, 4096, pk 8 0, (by unfold Arrives; decide +kernel), (by decide +kernel)⟩,
   ⟨rset (qpOn 4095 1) aNpCcCfg 0 0x8000000, 4095, (by decide +kernel), (by decide +kernel)⟩,
   ⟨portN, 3, 7, (by decide +kernel), (by decide +kernel), (by decide +kernel)⟩,
   ⟨portN, 3, 7, (by decide +kernel), (by decide +kernel)⟩,
   ⟨{ live with np := { live.np with paused := [(3, true)] } }, 3, (by decide +kernel)⟩⟩

theorem witness_MacsAndClockComplete :
    (∃ (s : State) (mac : Fin 9), (mac.val ≠ 8 ∨ ∃ w ∈ (macWords s 8).take 7, w ≠ 0) ∧ macOn s mac = true ∧ stage s ≠
      15) ∧
    (∃ (s : State), (∀ w ∈ (macWords s 8).take 7, w = 0) ∧ macOn s 8 = true ∧ stage s ≠ 15) ∧
    (∃ (s u : State) (a : Acc) (port : Fin 4) (v : Word), mayAccess s a = true ∧ a.secure = true ∧ u = rset s
      (aNpPortCfg0 + 4 * port) 0 (v.toNat % 128) ∧ portMode u port ≠ portMode s port ∧ rf s (aNpPortCfg0 + 4 * port)
      0 5 2 % 2 = 0) ∧
    (∃ (s : State) (fr : Frame) (ipv6 : Bool) (addr : Bytes), linkOn s fr.mac = true ∧ fr.fec = false ∧ frameOk s fr
      = true ∧ addr = (if ipv6 then macBytes (macLive s fr.mac) 3 4 else macBytes (macLive s fr.mac) 2 1) ∧ (∃ b ∈
      addr, b ≠ 0)) ∧
    (∃ (s : State) (fr : Frame) (ipv6 : Bool) (addr : Bytes), linkOn s fr.mac = true ∧ fr.fec = false ∧ frameOk s fr
      = true ∧ addr ≠ (if ipv6 then macBytes (macLive s fr.mac) 3 4 else macBytes (macLive s fr.mac) 2 1)) ∧
    (∃ (s : State) (mac : Fin 9), linkOn s mac = true) ∧
    (∃ (s u w : State) (fr : Frame) (domain : Byte) (ieee sync : Bool) (offset : Int) (time : Dword) (rate : Int),
      linkOn s fr.mac = true ∧ fr.fec = false ∧ frameOk s fr = true ∧ ptpMine s fr domain ieee = true ∧ u = (if sync
      then emit s (.ptpDelayReq fr.mac domain.toNat ieee) else s) ∧ w =
      { u with np := { u.np with ptpOffset := max (-2147483648) (min 2147483647 offset), ptpRun := if 1000 < offset.natAbs then 0 else if !sync then s.np.ptpRun else if offset.natAbs < 1000 then s.np.ptpRun + 1 else 0, ptpRate := if 1000 < offset.natAbs then s.np.ptpRate else max (-200000) (min 200000 rate) } }) ∧
    (∃ (s : State) (fr : Frame) (domain : Byte) (ieee sync : Bool) (offset : Int) (time : Dword) (rate : Int), linkOn
      s fr.mac = true ∧ fr.fec = false ∧ frameOk s fr = true ∧ ptpMine s fr domain ieee = false) ∧
    (∃ (s u : State), u = { s with np := { s.np with ptpRun := 0 } }) ∧
    (∃ (s u : State) (a : Acc) (v : Word), mayAccess s a = true ∧ a.secure = true ∧ bit v.toNat 14 = true ∧ s.fe.cmds
      = [] ∧ 0 < s.np.ptpOffset ∧ u = rset s aNpPtpCtl 0 (v.toNat % 2 ^ 14)) :=
  ⟨⟨portP, 7, (by decide +kernel), (by decide +kernel), (by decide +kernel)⟩,
   ⟨live, mac_zero, (by decide +kernel), (by decide +kernel)⟩,
   ⟨live, _, fw, 3, 0x5A, (by decide +kernel), (by decide +kernel), rfl, (by decide +kernel), (by decide +kernel)⟩,
   ⟨macUp, ⟨8, 64, none, false⟩, false, macBytes [1, 2, 3, 4] 2 1, (by decide +kernel), (by decide +kernel),
     (by decide +kernel), (by decide +kernel), (by decide +kernel)⟩,
   ⟨macUp, ⟨8, 9216, none, false⟩, false, [], (by decide +kernel), (by decide +kernel), (by decide +kernel),
     (by decide +kernel)⟩,
   ⟨macUp, 8, (by decide +kernel)⟩,
   ⟨rset macUp aNpPtpCtl 0 0x3FF1, _, _, ⟨8, 64, none, false⟩, 255, true, true, -5, 7, -1, (by decide +kernel),
     (by decide +kernel), (by decide +kernel), (by decide +kernel), rfl, rfl⟩,
   ⟨rset macUp aNpPtpCtl 0 0x3FF1, ⟨8, 64, none, false⟩, 254, true, true, -5, 7, -1, (by decide +kernel),
     (by decide +kernel), (by decide +kernel), (by decide +kernel)⟩,
   ⟨live, _, rfl⟩,
   ⟨{ live with np := { live.np with ptpOffset := 5 } }, _, fw, 0x4000, (by decide +kernel), (by decide +kernel),
     (by decide +kernel), (by decide +kernel), (by decide +kernel), rfl⟩⟩

theorem witness_OwnershipComplete :
    (∃ (s : State) (fr : Frame) (d : Bytes), linkOn s fr.mac = true ∧ fr.fec = false ∧ frameOk s fr = true ∧ fr.mac =
      8 ∧ closed s = false ∧ stage s = 8 ∧ s.np.owned = false ∧ claimOk d = true) ∧
    (∃ (s : State) (fr : Frame) (d : Bytes), linkOn s fr.mac = true ∧ fr.fec = false ∧ frameOk s fr = true ∧ fr.mac =
      8 ∧ (closed s = true ∨ stage s ≠ 8 ∨ s.np.owned = true ∨ claimOk d = false)) ∧
    (∃ (s : State) (a : Acc) (v : Word), mayAccess s a = true ∧ a.secure = true ∧ bit v.toNat 0 = true ∧ s.np.owned =
      true ∧ s.np.lapsed = false ∧ slow s ≤ s.np.expiry) ∧
    (∃ (s : State), s.np.owned = true ∧ s.np.lapsed = false ∧ s.np.expiry < slow s) ∧
    (∃ (s : State) (a : Acc) (v : Word) (i p : Nat), mayAccess s a = true ∧ a.secure = true ∧ bit v.toNat 0 = true ∧
      i = selOf s a.who aNpSesSel % 1024 ∧ i ≠ 0 ∧ (session s i).live = false ∧ p < 4096 ∧ qpRole s p = 1 ∧ qpSession
      s p = i ∧ qpRts s p = true) ∧
    (∃ (s : State) (a : Acc) (v : Word) (i : Nat), mayAccess s a = true ∧ a.secure = true ∧ bit v.toNat 1 = true ∧ i
      = selOf s a.who aNpSesSel % 1024 ∧ (session s i).live = true) ∧
    (∃ (s : State) (ses : BitVec 10), closed s = false ∧ (session s ses.toNat).expiry < slow s) ∧
    (∃ (s : State) (a : Acc) (v : Word) (i : Nat), mayAccess s a = true ∧ a.secure = true ∧ bit v.toNat 1 = false ∧
      bit v.toNat 0 = true ∧ i = selIx s a.who aNpQpSel ∧ (qp s i).st = .reset ∧ qpRole s i ≠ 0) ∧
    (∃ (s : State) (a : Acc) (v : Word), mayAccess s a = true ∧ a.secure = true ∧ bit v.toNat 1 = true) ∧
    (∃ (s u u' : State) (q : BitVec 12) (k : Pkt) (write : Bool) (rkey : Word) (va : Dword) (len n w base : Nat)
      (data : Bytes), n = (if write then data.length else len) ∧ Arrives s u q.toNat (if write then pkts s q.toNat n
      else 1) k ∧ k.psn = (qp u q.toNat).epsn ∧ qpRole s q.toNat = 2 ∧ u' = (if write then dropImm (tookPsn u q.toNat
      (pkts s q.toNat n)) k else tookPsn u q.toNat (pkts s q.toNat n)) ∧ (write = false → peerReads u' q.toNat < 16)
      ∧ w = rkey.toNat % 4096 ∧ base = rv64 u' aXlMwBaseLo w / 4096 * 4096 ∧ (rb u' aXlMwCfg w 0 = false ∨ rkey.toNat
      / 4096 ≠ rf u' aXlMwTag w 19 0 ∨ rf u' aXlMwCfg w 27 16 ≠ q.toNat ∨ va.toNat < base ∨ base + 4096 * rv u'
      aXlMwPages w < va.toNat + n ∨ rb u' aXlMwCfg w (if write then 2 else 1) = false)) ∧
    (∃ (s u u' v : State) (q : BitVec 12) (k : Pkt) (write : Bool) (rkey : Word) (va : Dword) (len n w base : Nat)
      (data : Bytes) (x : Xfer), n = (if write then data.length else len) ∧ Arrives s u q.toNat (if write then pkts s
      q.toNat n else 1) k ∧ k.psn = (qp u q.toNat).epsn ∧ qpRole s q.toNat = 2 ∧ u' = (if write then dropImm (tookPsn
      u q.toNat (pkts s q.toNat n)) k else tookPsn u q.toNat (pkts s q.toNat n)) ∧ (write = false → peerReads u'
      q.toNat < 16) ∧ w = rkey.toNat % 4096 ∧ base = rv64 u' aXlMwBaseLo w / 4096 * 4096 ∧ rb u' aXlMwCfg w 0 = true
      ∧ rkey.toNat / 4096 = rf u' aXlMwTag w 19 0 ∧ rf u' aXlMwCfg w 27 16 = q.toNat ∧ base ≤ va.toNat ∧ va.toNat + n
      ≤ base + 4096 * rv u' aXlMwPages w ∧ rb u' aXlMwCfg w (if write then 2 else 1) = true ∧ x =
      { id := u'.fe.nextXfer, kind := .peer, read := !write, q := 0, n := 0, cid := BitVec.ofNat 12 (rf u' aXlMwCfg w 15 4), secure := false, addr := va, left := n, data := data, pieces := [BitVec.ofNat 13 q.toNat], psn := k.psn }
      ∧ v = { u' with fe := { u'.fe with nextXfer := u'.fe.nextXfer + 1, xfers := u'.fe.xfers ++ [x] } }) :=
  ⟨⟨claimer, ⟨8, 64, none, false⟩, bytesOf 64 [(0, 1, 1), (23, 1, 3), (32, 4, 60000)], (by decide +kernel),
     (by decide +kernel), (by decide +kernel), (by decide +kernel), (by decide +kernel), (by decide +kernel),
     (by decide +kernel), (by decide +kernel)⟩,
   ⟨netOn live, ⟨8, 64, none, false⟩, [], (by decide +kernel), (by decide +kernel), (by decide +kernel),
     (by decide +kernel), (by decide +kernel)⟩,
   ⟨live, fw, 1, (by decide +kernel), (by decide +kernel), (by decide +kernel), (by decide +kernel),
     (by decide +kernel), (by decide +kernel)⟩,
   ⟨{ live with fab := 48 }, (by decide +kernel), (by decide +kernel), (by decide +kernel)⟩,
   ⟨setQp (rset (selS aNpSesSel 1023) aNpQpCfg 4095 0x3FF01) 4095 { st := .rts }, fw, 1, 1023, 4095,
     (by decide +kernel), (by decide +kernel), (by decide +kernel), (by decide +kernel), (by decide +kernel),
     (by decide +kernel), (by decide +kernel), (by decide +kernel), (by decide +kernel), (by decide +kernel)⟩,
   ⟨setSession (selS aNpSesSel 1) 1 { live := true }, fw, 2, 1, (by decide +kernel), (by decide +kernel),
     (by decide +kernel), (by decide +kernel), (by decide +kernel)⟩,
   ⟨{ live with fab := 48 }, 1023, (by decide +kernel), (by decide +kernel)⟩,
   ⟨rset (selS aNpQpSel 4095) aNpQpCfg 4095 3, fw, 1, 4095, (by decide +kernel), (by decide +kernel),
     (by decide +kernel), (by decide +kernel), (by decide +kernel), (by decide +kernel), (by decide +kernel)⟩,
   ⟨selS aNpQpSel 4096, fw, 2, (by decide +kernel), (by decide +kernel), (by decide +kernel)⟩,
   ⟨peerN, got peerN 1, _, 4095, pk 0 0, true, 4095, 0, 0, _, _, _, [1], rfl, (by unfold Arrives; decide +kernel),
     (by decide +kernel), (by decide +kernel), rfl, (by decide +kernel), rfl, rfl, (by decide +kernel)⟩,
   ⟨mwN, got mwN 1, _, _, 4095, pk 0 0, false, 0xFFFFFFFF, 0x1FC0, 64, _, _, _, [], _, rfl,
     (by unfold Arrives; decide +kernel), (by decide +kernel), (by decide +kernel), rfl, (by decide +kernel), rfl,
     rfl, (by decide +kernel), (by decide +kernel), (by decide +kernel), (by decide +kernel), (by decide +kernel),
     (by decide +kernel), rfl, rfl⟩⟩

theorem witness_FoldMemoryComplete :
    (∃ (s : State) (f : Fin 8) (part : Fin 16) (wide write : Bool) (addr len n : Nat) (data : Bytes) (rs : List Run),
      (fold s f).filled = true ∧ fmHeld s f = false ∧ n = (if write then data.length else len) ∧ addr + n ≤ usable s
      ∧ rs = reqRuns part write addr n data ∧ runsOut (fold s f) + rs.length ≤ 1024 ∧ (∀ r ∈ rs, queued (fold s f)
      r.part r.ch + (rs.filter (fun q => q.ch == r.ch)).length ≤ 32)) ∧
    (∃ (s : State) (f : Fin 8) (part : Fin 16) (wide write : Bool) (addr len n : Nat) (data : Bytes) (rs : List Run),
      (fold s f).filled = true ∧ fmHeld s f = false ∧ n = (if write then data.length else len) ∧ addr + n ≤ usable s
      ∧ rs = reqRuns part write addr n data ∧ (1024 < runsOut (fold s f) + rs.length ∨ ∃ r ∈ rs, 32 < queued (fold s
      f) r.part r.ch + (rs.filter (fun q => q.ch == r.ch)).length)) ∧
    (∃ (s : State) (f : Fin 8) (part : Fin 16) (wide write : Bool) (addr len n : Nat) (data : Bytes), (fold s
      f).filled = true ∧ fmHeld s f = false ∧ n = (if write then data.length else len) ∧ usable s < addr + n) ∧
    (∃ (s : State) (f : Fin 8) (ch : Fin 16) (r : Run), (mget {} (fold s f).chans ch).trained = true ∧ ((unit s (2 +
      f.val)).st ≠ .resetting ∨ fmHeld s f = false) ∧ earliest ((heads (fold s f) ch).filter (fun r => eligible s f
      r.part)) = some r) ∧
    (∃ (s : State) (f : Fin 8) (ch : Fin 16) (r : Run), (mget {} (fold s f).chans ch).trained = true ∧ ((unit s (2 +
      f.val)).st ≠ .resetting ∨ fmHeld s f = false) ∧ earliest ((heads (fold s f) ch).filter (fun r => eligible s f
      r.part)) = none ∧ borrows s f = true ∧ earliest (heads (fold s f) ch) = some r) ∧
    (∃ (s u : State) (f : Fin 8) (ch : Fin 16) (fd : BitVec 256) (fc : BitVec 16) (r : Run) (rs : List Run), (mget {}
      (fold s f).chans ch).issued = r :: rs ∧ r.write = true ∧ u = flipSector s f (addrOf ch (r.secs.headD 0)) fd fc) ∧
    (∃ (s u : State) (f : Fin 8) (ch : Fin 16) (fd : BitVec 256) (fc : BitVec 16) (r : Run) (rs : List Run), (mget {}
      (fold s f).chans ch).issued = r :: rs ∧ r.write = false ∧ u = updChan (flipSector s f (addrOf ch (r.secs.headD
      0)) fd fc) f r.ch (fun c => { c with issued := c.issued.filter (fun q => q.order ≠ r.order) })) :=
  ⟨⟨foldF {}, 7, 15, false, true, 60 * 2 ^ 30 - 1, 0, _, [1], _, (by decide +kernel), (by decide +kernel), rfl,
     (by decide +kernel), rfl, (by decide +kernel), (by decide +kernel)⟩,
   ⟨crowded, 7, 15, false, true, addrOf 15 3, 0, _, [1], _, (by decide +kernel), (by decide +kernel), rfl,
     (by decide +kernel), rfl, (Or.inr (by decide +kernel))⟩,
   ⟨foldF {}, 7, 15, true, false, 60 * 2 ^ 30, 1, _, [], (by decide +kernel), (by decide +kernel), rfl,
     (by decide +kernel)⟩,
   ⟨waitsS 1, 7, 15, run1, (by decide +kernel), (by decide +kernel), (by decide +kernel)⟩,
   ⟨waitsS 0, 7, 15, run1, (by decide +kernel), (by decide +kernel), (by decide +kernel), (by decide +kernel),
     (by decide +kernel)⟩,
   ⟨foldF { chans := [(15, { trained := true, issued := [run1] })] }, _, 7, 15, 0, 0, run1, [], (by decide +kernel),
     (by decide +kernel), rfl⟩,
   ⟨foldF { chans := [(15, { trained := true, issued := [{ run1 with write := false }] })] }, _, 7, 15, 1, 1,
     { run1 with write := false }, [], (by decide +kernel), (by decide +kernel), rfl⟩⟩

theorem witness_ChannelUpkeepComplete :
    (∃ (s u : State) (f : Fin 8) (ch : Fin 16) (fd : BitVec 256) (fc : BitVec 16) (i : Nat) (as : List Nat), rb s
      (foldReg f aFmCtl) 0 1 = true ∧ (fold s f).filled = true ∧ chanSecs s ≠ 0 ∧ mayFm s f 15 = true ∧ i = (mget {}
      (fold s f).chans ch).scrubAt ∧ as = (List.range (8 - i % 8)).map (fun k => addrOf ch (i + k)) ∧ u = makeRuns
      (flipSector (serveBefore s f 15 as) f (addrOf ch i) fd fc) f 15 as (fun _ => true) (fun _ => false)) ∧
    (∃ (s : State) (f : Fin 8) (ch : Fin 16) (c : Chan), c = mget {} (fold s f).chans ch ∧ c.trained = true) ∧
    (∃ (s u : State) (f : Fin 8) (ch : Fin 16) (osc : Int) (c d : Chan), c = mget {} (fold s f).chans ch ∧ c.trained
      = true ∧ u = cntN s (foldReg f aFmChRefWait) ch (delayed (fold s f) ch (fun _ => true)) ∧ c.pendingStep = none
      ∧ d = (if c.oscStarted then
      { c with oscStarted := false, intervals := 0, pendingStep := if driftLim u f < (osc - c.oscBase).natAbs then some (decide (c.oscBase < osc)) else none }
      else { c with oscStarted := true, intervals := 0 })) ∧
    (∃ (s u : State) (f : Fin 8) (ch : Fin 16) (osc : Int) (c d : Chan) (up : Bool), c = mget {} (fold s f).chans ch
      ∧ c.trained = true ∧ c.pendingStep = some up ∧ c.oscStarted = false ∧ u = cnt (cntN s (foldReg f aFmChRefWait)
      ch (delayed (fold s f) ch (fun _ => true))) (foldReg f aFmChDriftStep) ch ∧ d =
      { c with pendingStep := none, delay := if up then c.delay + 1 else c.delay - 1, driftSteps := c.driftSteps + 1, driftFlag := c.driftFlag || c.driftSteps + 1 == 8, oscStarted := true, intervals := 0 }
      ∧ d.driftFlag = c.driftFlag) ∧
    (∃ (s : State) (f : Fin 8) (ch : Fin 16) (rdEye wrEye vref : Byte) (c : Chan), c = mget {} (fold s f).chans ch ∧
      s.pc.replanning = true ∧ c.trained = true ∧ foldSkipped s f = false ∧ (∀ e ∈ (fold s f).chans, e.1 ≠ ch.val →
      e.2.retraining = false)) ∧
    (∃ (s : State) (f : Fin 8) (ch : Fin 16) (rdEye wrEye vref : Byte) (c : Chan), c = mget {} (fold s f).chans ch ∧
      s.pc.replanning = true ∧ c.trained = true ∧ foldSkipped s f = false ∧ (∀ e ∈ (fold s f).chans, e.1 ≠ ch.val →
      e.2.retraining = false)) ∧
    (∃ (s w : State) (f : Fin 8) (ms : Nat), heldInReset s = false ∧ stage s = 7 ∧ (fold s f).disabled = false ∧
      (fold s f).filled = false ∧ foldTrained s f = true ∧ w = fmFillAll (updFold s f (fun x =>
      { x with pasture := [], check := [], pen := [], penPoison := [], dir := [], masters := [], filled := true }))
      f) ∧
    (∃ (s : State) (i : Nat) (c : Cmd), (region s i).unmapping = true ∧ mayFm s (region s i).unit.toNat 15 = true ∧
      (region s i).base < regionTop s (region s i) ∧ s.fe.cmds.find? (fun c => cOp c == 20 && c.q == 0 && c.phase ==
      .unit && cF c 16 2 == i) = some c) ∧
    (∃ (s : State) (c : BitVec 4), s.pc.orderly = some c) :=
  ⟨⟨rset (foldF { tokens := [(15, 1)] }) (foldReg 7 aFmCtl) 0 2, _, 7, 15, 1, 1, _, _, (by decide +kernel),
     (by decide +kernel), (by decide +kernel), (by decide +kernel), rfl, rfl, rfl⟩,
   ⟨trainedF 15 {}, 7, 15, _, rfl, (by decide +kernel)⟩,
   ⟨trainedF 15 { oscStarted := true }, _, 7, 15, -7, _, _, rfl, (by decide +kernel), rfl, (by decide +kernel), rfl⟩,
   ⟨trainedF 15 { pendingStep := some true }, _, 7, 15, -7, _, _, true, rfl, (by decide +kernel),
     (by decide +kernel), (by decide +kernel), rfl, rfl, (by decide +kernel)⟩,
   ⟨replanning, 7, 15, 1, 2, 3, _, rfl, (by decide +kernel), (by decide +kernel), (by decide +kernel),
     (by decide +kernel)⟩,
   ⟨replanning, 7, 15, 1, 2, 3, _, rfl, (by decide +kernel), (by decide +kernel), (by decide +kernel),
     (by decide +kernel)⟩,
   ⟨setFold (at_ 7) 7 { fold (at_ 7) 7 with chans := (List.range 16).map (fun k => (k, { trained := true })) }, _, 7,
     5, (by decide +kernel), (by decide +kernel), (by decide +kernel), (by decide +kernel), (by decide +kernel), rfl⟩,
   ⟨unmapped, 9, unmapAt, (by decide +kernel), (by decide +kernel), (by decide +kernel), (by decide +kernel)⟩,
   ⟨{ live with pc := { live.pc with orderly := some 15 } }, 15, (by decide +kernel)⟩⟩

theorem witness_InjectionRegistersComplete :
    (∃ (s : State) (a : Acc) (f : Fin 8) (v : Word), mayAccess s a = true ∧ a.secure = true) ∧
    (∃ (s : State) (a : Acc) (f : Fin 8) (v : Word), mayAccess s a = true ∧ a.secure = true) ∧
    (∃ (s : State) (a : Acc) (c : Core2) (v : Word), mayAccess s a = true ∧ a.secure = true) ∧
    (∃ (s : State) (a : Acc) (f : Fin 8) (v : Word), mayAccess s a = true ∧ a.secure = false) :=
  ⟨⟨live, fw, 7, 4294967295, (by decide +kernel), (by decide +kernel)⟩,
   ⟨live, fw, 7, 4294967295, (by decide +kernel), (by decide +kernel)⟩,
   ⟨live, fw, 1, 4294967295, (by decide +kernel), (by decide +kernel)⟩,
   ⟨debugged 2, jt false, 7, 1, (by decide +kernel), (by decide +kernel)⟩⟩

theorem witness_ErrorEventsComplete :
    (∃ (s u : State) (e : ErrRep), s.pc.orderly ≠ some 3 ∧ heldInReset s = false ∧ e.corrected = true ∧ u = ceCount s
      e.code.toNat e.block.toNat e.inst.toNat) ∧
    (∃ (s : State) (e : ErrRep), s.pc.orderly ≠ some 3 ∧ heldInReset s = false ∧ e.corrected = false ∧ e.illegal =
      true) ∧
    (∃ (s : State) (e : ErrRep), s.pc.orderly ≠ some 3 ∧ heldInReset s = false ∧ e.corrected = false ∧ e.illegal =
      false ∧ privCode e.code.toNat = true) ∧
    (∃ (s : State) (e : ErrRep), s.pc.orderly ≠ some 3 ∧ heldInReset s = false ∧ e.corrected = false ∧ e.illegal =
      false ∧ privCode e.code.toNat = false) ∧
    (∃ (s : State) (e : ErrRep), s.pc.orderly = some 3) ∧
    (∃ (s : State) (c : Core2) (set : BitVec 2) (bundle : BitVec 17) (m : BitVec 5) (n : Byte) (k : Nat), closed s =
      false ∧ (core s c).run = some k) ∧
    (∃ (s : State) (recno : Word), (flogAt s (recno.toNat % 256)).recno = recno ∧ (flogAt s (recno.toNat %
      256)).open_ = true) ∧
    (∃ (s : State) (a : Acc) (v : Word), mayAccess s a = true ∧ a.secure = true) ∧
    (∃ (s : State) (f : Fin 8) (m : Fin 2) (retrained : Bool), closed s = false ∧ heldInReset s = false) :=
  ⟨⟨live, _, erep 2 true false, (by decide +kernel), (by decide +kernel), (by decide +kernel), rfl⟩,
   ⟨live, erep 2 false true, (by decide +kernel), (by decide +kernel), (by decide +kernel), (by decide +kernel)⟩,
   ⟨live, erep 23 false false, (by decide +kernel), (by decide +kernel), (by decide +kernel), (by decide +kernel),
     (by decide +kernel)⟩,
   ⟨live, erep 24 false false, (by decide +kernel), (by decide +kernel), (by decide +kernel), (by decide +kernel),
     (by decide +kernel)⟩,
   ⟨{ live with pc := { live.pc with orderly := some 3 } }, erep 2 true false, (by decide +kernel)⟩,
   ⟨running, 1, 3, 131071, 31, 255, 3, (by decide +kernel), (by decide +kernel)⟩,
   ⟨setFlog live 255 { recno := 511, open_ := true }, 511, (by decide +kernel), (by decide +kernel)⟩,
   ⟨live, fw, 4294967295, (by decide +kernel), (by decide +kernel)⟩,
   ⟨live, 7, 1, false, (by decide +kernel), (by decide +kernel)⟩⟩

theorem witness_UnitResetComplete :
    (∃ (s : State) (k : Core2) (sc : Scope) (cause : Word), closed s = false ∧ heldInReset s = false) ∧
    (∃ (s : State) (f : Fin 8) (sc : Scope) (cause : Word), closed s = false ∧ heldInReset s = false) ∧
    (∃ (s : State) (a : Acc) (v : Word) (u : Nat), mayAccess s a = true ∧ a.secure = true ∧ bit v.toNat 0 = true ∧ u
      = min 9 (selOf s a.who aIgUnitSel % 16)) ∧
    (∃ (s : State) (u : UnitId) (late : Option Word), closed s = true) ∧
    (∃ (s v w y : State) (u : UnitId) (late : Option Word) (x : Unit_) (b : Nat), closed s = false ∧ x = unit s
      (unitNo u) ∧ x.st = .quiescing ∧ b = scopeBlk (unitNo u) x.scope ∧ v =
      (match late with | some n => logEv s { cls := 7, block := b, inst := unitInst (unitNo u), detail := n.toNat, gen := x.gen.toNat } | none => s)
      ∧ w = updUnit (closeRecs v (scopeUnits (unitNo u) x.scope)) (unitNo u) (fun y =>
      { y with st := .resetting, gen := x.gen + 1, last := some v.np.ns }) ∧ y =
      (match u with | .core _ => w | .fold f => updFold w f (fun z => { z with bornAt := z.nextProg }))) ∧
    (∃ (s : State) (c : Fin 2), (unit s (unitNo (.core c))).st = .resetting) ∧
    (∃ (s u w : State) (f : Fin 8) (x : Unit_), x = unit s (unitNo (.fold f)) ∧ x.st = .resetting ∧ u = (if x.scope =
      .gx then s else rsetF s (foldReg f aRuStat) 0 0 0 1) ∧ w = (if x.scope = .whole ∧ (fold u f).disabled = false
      then rsetF (updFold u f (fun y => { y with mods := 0 })) aPcClkStat 0 (1 + f) (1 + f) 1 else u)) :=
  ⟨⟨live, 1, .whole, 4294967295, (by decide +kernel), (by decide +kernel)⟩,
   ⟨live, 7, .gx, 0, (by decide +kernel), (by decide +kernel)⟩,
   ⟨selS aIgUnitSel 15, fw, 1, 9, (by decide +kernel), (by decide +kernel), (by decide +kernel), (by decide +kernel)⟩,
   ⟨{ live with pc := { live.pc with orderly := some 0 } }, .fold 7, some 5, (by decide +kernel)⟩,
   ⟨setUnit live 9 { st := .quiescing }, _, _, _, .fold 7, some 5, _, _, (by decide +kernel), rfl,
     (by decide +kernel), rfl, rfl, rfl, rfl⟩,
   ⟨setUnit live 1 { st := .resetting }, 1, (by decide +kernel)⟩,
   ⟨setUnit live 9 { st := .resetting }, _, _, 7, _, rfl, (by decide +kernel), rfl, rfl⟩⟩

theorem witness_WholeResetsComplete :
    (∃ (s : State) (ns : Nat) (acc : Bool) (straps : List (BitVec 3)), pulseOk ns acc = true) ∧
    (∃ (s : State) (ns : Nat) (acc : Bool) (straps : List (BitVec 3)), pulseOk ns acc = true ∧ s.pc.tripped = false ∧
      s.pc.pwrgood = true) ∧
    (∃ (s : State) (ns : Nat) (acc : Bool) (straps : List (BitVec 3)), pulseOk ns acc = false) ∧
    (∃ (s : State) (ns : Nat) (acc : Bool) (straps : List (BitVec 3)), pulseOk ns acc = true ∧ s.pc.tripped = true) ∧
    (∃ (s : State) (ns : Nat) (acc : Bool) (straps : List (BitVec 3)), pulseOk ns acc = false) ∧
    (∃ (s : State), s.pc.pwrgood = true ∧ s.pc.tripped = false) ∧
    (∃ (s : State), heldInReset s = false ∧ rb s aPcClkStat 0 0 = true) ∧
    (∃ (s : State), heldInReset s = false ∧ 5 ≤ stage s ∧ stage s < 8) ∧
    (∃ (s : State) (a : Acc) (v : Word), mayAccess s a = true ∧ a.secure = true ∧ bit v.toNat 0 = true) :=
  ⟨⟨live, 100, true, [1, 3, 7], (by decide +kernel)⟩,
   ⟨live, 1000, false, [], (by decide +kernel), (by decide +kernel), (by decide +kernel)⟩,
   ⟨live, 99, true, [], (by decide +kernel)⟩,
   ⟨{ live with pc := { live.pc with tripped := true } }, 1000, true, [], (by decide +kernel), (by decide +kernel)⟩,
   ⟨live, 999, false, [], (by decide +kernel)⟩,
   ⟨live, (by decide +kernel), (by decide +kernel)⟩,
   ⟨rset live aPcClkStat 0 1, (by decide +kernel), (by decide +kernel)⟩,
   ⟨at_ 7, (by decide +kernel), (by decide +kernel), (by decide +kernel)⟩,
   ⟨live, fw, 1, (by decide +kernel), (by decide +kernel), (by decide +kernel)⟩⟩

theorem witness_ClocksComplete :
    (∃ (s : State), heldInReset s = false ∧ stage s = 0) ∧
    (∃ (s : State), heldInReset s = false ∧ stage s = 0 ∧ s.pc.pllTries + 1 < 3) ∧
    (∃ (s : State), heldInReset s = false ∧ stage s = 0 ∧ 3 ≤ s.pc.pllTries + 1) ∧
    (∃ (s : State) (f : Fin 8), closed s = false ∧ heldInReset s = false ∧ rb s aPcClkStat 0 (1 + f) = true) :=
  ⟨⟨State.reset, (by decide +kernel), (by decide +kernel)⟩,
   ⟨{ State.reset with pc := { State.reset.pc with pllTries := 1 } }, (by decide +kernel), (by decide +kernel),
     (by decide +kernel)⟩,
   ⟨{ State.reset with pc := { State.reset.pc with pllTries := 2 } }, (by decide +kernel), (by decide +kernel),
     (by decide +kernel)⟩,
   ⟨rset live aPcClkStat 0 0x1FF, 7, (by decide +kernel), (by decide +kernel), (by decide +kernel)⟩⟩

theorem witness_BootComplete :
    (∃ (s : State) (rom : Bytes), heldInReset s = false ∧ stage s = 1) ∧
    (∃ (s v w : State) (rec helper r x : Bytes) (blocks seeds : List Bytes) (good : Option Bytes) (idOk : Bool),
      heldInReset s = false ∧ stage s = 2 ∧ s.pc.puf = none ∧ r = slice rec 0 5396 ∧ seeds = (blocks.take 3).map (fun
      b => slice (Config.pufSeed (slice b 0 16384) helper) 0 32) ∧ good = seeds.find? (fun x => Config.mldsaPublic
      (idSeed x) == slice r 64 1312) ∧ x = (if recordOk r then good.getD [] else seeds.headD []) ∧ idOk = (recordOk r
      && sha3 helper == slice r 32 32 && good.isSome) ∧ v = rsetF
      { s with pc := { s.pc with record := r, helper := helper, seed := x, puf := none } } aPcSecStat 0 1 0 (if idOk
      then 3 else if recordOk r then 1 else 0) ∧ w = (if idOk then v else rsetF (rsetF ((List.range 8).foldl (fun s f
      => updFold s f (fun x => { x with disabled := true })) (setCode v (if recordOk r then 6 else 5))) aPcBootStat 0
      12 5 255) aPcBootStat 0 14 13 3)) ∧
    (∃ (s : State) (img : Bytes), heldInReset s = false ∧ stage s = 3) ∧
    (∃ (s : State) (fr : Frame) (d puf : Bytes) (m : Map Bytes), heldInReset s = false ∧ stage s = 4 ∧ fbOk d = true
      ∧ FrameIn s fr ∧ fr.mac = 8 ∧ m = mput (if s.pc.fbTotal = fld d 4 4 then s.pc.fbPieces else []) (fld d 8 4)
      (d.drop 16) ∧ fbHeld m < fld d 4 4) ∧
    (∃ (s u : State) (fr : Frame) (d img puf : Bytes) (m : Map Bytes), heldInReset s = false ∧ stage s = 4 ∧ fbOk d =
      true ∧ FrameIn s fr ∧ fr.mac = 8 ∧ m = mput (if s.pc.fbTotal = fld d 4 4 then s.pc.fbPieces else []) (fld d 8
      4) (d.drop 16) ∧ fld d 4 4 ≤ fbHeld m ∧ img = m.flatMap (·.2) ∧ u = emit
      { s with pc := { s.pc with fbTotal := fld d 4 4, fbPieces := m } } (.fallback ([1, 0, 0, 0] ++ toLE 4 (fld d 4
      4) ++ toLE 4 (fbHeld m) ++ toLE 4 0))) ∧
    (∃ (s : State) (fr : Frame) (d puf : Bytes), FrameIn s fr ∧ stage s = 4 ∧ fbOk d = false) ∧
    (∃ (s : State) (img puf : Bytes), heldInReset s = false ∧ stage s = 4) ∧
    (∃ (s : State) (coreFail : BitVec 2) (up : StartUp), heldInReset s = false ∧ stage s = 5) ∧
    (∃ (s u w : State) (coreFail : BitVec 2) (mgmtUp : Bool) (ms : Nat), heldInReset s = false ∧ stage s = 5 ∧ u =
      (bitsSet 2 coreFail.toNat).foldl coreFailed (newNonce (makeKeys s)) ∧ w = (if mgmtUp then bootMac u else
      setCode (setMac u 8 false) 12)) ∧
    (∃ (s : State) (pll ucie : Byte) (attempts : Nat), heldInReset s = false ∧ stage s = 6) ∧
    (∃ (s w v : State) (fail : BitVec 128) (up : List Nat) (eyes : List (Byte × Byte × Byte)) (m : BootMeas)
      (ms : Nat), heldInReset s = false ∧ stage s = 7 ∧ s.pc.plan = [] ∧ up = (List.range 8).filter (fun f => !(fold
      s f).disabled) ∧ w = up.foldl (trainFold fail eyes) s ∧ v = (up.filter (fun f => bits fail.toNat (16 * f + 15)
      (16 * f) ≠ 0)).foldl (foldFailed 3) w) :=
  ⟨⟨at_ 1, [1], (by decide +kernel), (by decide +kernel)⟩,
   ⟨rset (at_ 2) aPcBootTries 0 2, _, _, [1], [2], _, _, [[3]], _, _, _, (by decide +kernel), (by decide +kernel),
     (by decide +kernel), rfl, rfl, rfl, rfl, rfl, rfl, rfl⟩,
   ⟨at_ 3, [1], (by decide +kernel), (by decide +kernel)⟩,
   ⟨netOn (at_ 4), fr8, piece, [], _, (by decide +kernel), (by decide +kernel), (by decide +kernel),
     (by unfold FrameIn; decide +kernel), (by decide +kernel), rfl, (by decide +kernel)⟩,
   ⟨netOn wholeBoot, _, fr8, lastPiece, _, [], _, (by decide +kernel), (by decide +kernel), (by decide +kernel),
     (by unfold FrameIn; decide +kernel), (by decide +kernel), rfl, (by decide +kernel), rfl, rfl⟩,
   ⟨netOn (at_ 4), fr8, [1], [], (by unfold FrameIn; decide +kernel), (by decide +kernel), (by decide +kernel)⟩,
   ⟨at_ 4, [1], [], (by decide +kernel), (by decide +kernel)⟩,
   ⟨at_ 5, 3, ⟨false, 0⟩, (by decide +kernel), (by decide +kernel)⟩,
   ⟨setStage live 5, _, _, 3, true, 7, (by decide +kernel), (by decide +kernel), rfl, rfl⟩,
   ⟨at_ 6, 0x81, 1, 3, (by decide +kernel), (by decide +kernel)⟩,
   ⟨at_ 7, _, _, 1, _, [], ⟨List.replicate 64 ⟨100, 320, 7⟩, List.replicate 64 ⟨100, 320, 7⟩, {}, [], []⟩, 65536,
     (by decide +kernel), (by decide +kernel), (by decide +kernel), rfl, rfl, rfl⟩⟩

theorem witness_FlashComplete :
    (∃ (s : State) (a : Acc) (v : Word), mayAccess s a = true ∧ a.secure = true ∧ s.pc.flash = none ∧ v.toNat % 32 =
      1 ∧ 0x10000 ≤ flashAddr s 65536) ∧
    (∃ (s : State) (a : Acc) (v : Word), mayAccess s a = true ∧ a.secure = true ∧ s.pc.flash = none ∧ v.toNat % 32 =
      2 ∧ 0x10000 ≤ flashAddr s 4096) ∧
    (∃ (s : State) (a : Acc) (v : Word), mayAccess s a = true ∧ a.secure = true ∧ s.pc.flash = none ∧ v.toNat % 32 =
      4 ∧ 0x10000 ≤ flashAddr s 4096) ∧
    (∃ (s : State) (a : Acc) (v : Word), mayAccess s a = true ∧ a.secure = true ∧ s.pc.flash = none ∧ v.toNat % 32 =
      1 ∧ flashAddr s 65536 < 0x10000) ∧
    (∃ (s : State) (a : Acc) (v : Word), mayAccess s a = true ∧ a.secure = true ∧ s.pc.flash = none ∧ v.toNat % 32 =
      2 ∧ flashAddr s 4096 < 0x10000) ∧
    (∃ (s : State) (a : Acc) (v : Word), mayAccess s a = true ∧ a.secure = true ∧ s.pc.flash = none ∧ v.toNat % 32 =
      4 ∧ flashAddr s 4096 < 0x10000) ∧
    (∃ (s : State) (a : Acc) (v : Word), mayAccess s a = true ∧ v.toNat % 32 < 8 ∧ (a.secure = false ∨
      s.pc.flash.isSome = true)) ∧
    (∃ (s : State) (data : Bytes) (op : FlashOp), s.pc.flash = some op) ∧
    (∃ (s : State) (data : Bytes) (op : FlashOp), s.pc.flash = some op) :=
  ⟨⟨flashAt 0x1FFFF, fw, 1, (by decide +kernel), (by decide +kernel), (by decide +kernel), (by decide +kernel),
     (by decide +kernel)⟩,
   ⟨flashAt 0x10FFF, fw, 2, (by decide +kernel), (by decide +kernel), (by decide +kernel), (by decide +kernel),
     (by decide +kernel)⟩,
   ⟨flashAt 0x10000, fw, 4, (by decide +kernel), (by decide +kernel), (by decide +kernel), (by decide +kernel),
     (by decide +kernel)⟩,
   ⟨flashAt 0xFFFF, fw, 1, (by decide +kernel), (by decide +kernel), (by decide +kernel), (by decide +kernel),
     (by decide +kernel)⟩,
   ⟨flashAt 0xFFFF, fw, 2, (by decide +kernel), (by decide +kernel), (by decide +kernel), (by decide +kernel),
     (by decide +kernel)⟩,
   ⟨flashAt 0xFFFF, fw, 4, (by decide +kernel), (by decide +kernel), (by decide +kernel), (by decide +kernel),
     (by decide +kernel)⟩,
   ⟨flashing, fw, 7, (by decide +kernel), (by decide +kernel), (by decide +kernel)⟩,
   ⟨flashing, [], .read 0x10000, (by decide +kernel)⟩,
   ⟨flashing, [], .read 0x10000, (by decide +kernel)⟩⟩

theorem witness_LoopsComplete :
    (∃ (s u w : State) (m : Reading), fwRuns s = true ∧ m.sites.length = 64 ∧ u = (emergency (emergency (takeSites s
      m.sites) m.acks 0).1 (emergency (takeSites s m.sites) m.acks 0).2 1).1 ∧ w =
      { u with pc := { u.pc with lowCore := lowRun u 0 u.pc.lowCore, lowFold := lowRun u 1 u.pc.lowFold } } ∧ (rb u
      aPcMarginCtl 0 24 = false ∨ (w.pc.lowCore < 60 ∧ w.pc.lowFold < 60))) ∧
    (∃ (s u w : State) (m : Reading), fwRuns s = true ∧ m.sites.length = 64 ∧ u = (emergency (emergency (takeSites s
      m.sites) m.acks 0).1 (emergency (takeSites s m.sites) m.acks 0).2 1).1 ∧ w =
      { u with pc := { u.pc with lowCore := lowRun u 0 u.pc.lowCore, lowFold := lowRun u 1 u.pc.lowFold } } ∧ rb u
      aPcMarginCtl 0 24 = true ∧ (60 ≤ w.pc.lowCore ∨ 60 ≤ w.pc.lowFold)) ∧
    (∃ (s u : State) (elapsed10 : Bool), fwRuns s = true ∧ u = (if s.pc.duty < 16 then cnt s aPcCntThrMs else s) ∧
      ((∃ x ∈ s.pc.sites, (16 * rf s aPcThrCtl 0 7 0 : Int) ≤ x.temp) ∨ anyHot s = true)) ∧
    (∃ (s u : State) (elapsed10 : Bool), fwRuns s = true ∧ u = (if s.pc.duty < 16 then cnt s aPcCntThrMs else s) ∧ (∀
      x ∈ s.pc.sites, x.temp < (16 * rf s aPcThrCtl 0 7 0 : Int) - 80) ∧ anyHot s = false) ∧
    (∃ (s u : State) (elapsed10 : Bool), fwRuns s = true ∧ u = (if s.pc.duty < 16 then cnt s aPcCntThrMs else s) ∧ (∀
      x ∈ s.pc.sites, x.temp < (16 * rf s aPcThrCtl 0 7 0 : Int)) ∧ anyHot s = false) ∧
    (∃ (s u : State) (mw mean : Word) (energy : Dword), fwRuns s = true ∧ u = rset64 (rset s aPcPwrTotal 0 mw.toNat)
      aPcEnergyLo 0 ((rv64 (rset s aPcPwrTotal 0 mw.toNat) aPcEnergyLo 0 + energy.toNat) % 2 ^ 64) ∧ s.pc.powMs + 1 <
      10) ∧
    (∃ (s u : State) (mw mean : Word) (energy : Dword), fwRuns s = true ∧ u = rset64 (rset s aPcPwrTotal 0 mw.toNat)
      aPcEnergyLo 0 ((rv64 (rset s aPcPwrTotal 0 mw.toNat) aPcEnergyLo 0 + energy.toNat) % 2 ^ 64) ∧ 9 ≤ s.pc.powMs ∧
      1000 * rf u aPcThrCtl 0 19 8 < mean.toNat) ∧
    (∃ (s u : State) (mw mean : Word) (energy : Dword), fwRuns s = true ∧ u = rset64 (rset s aPcPwrTotal 0 mw.toNat)
      aPcEnergyLo 0 ((rv64 (rset s aPcPwrTotal 0 mw.toNat) aPcEnergyLo 0 + energy.toNat) % 2 ^ 64) ∧ 9 ≤ s.pc.powMs ∧
      100 * mean.toNat < 95 * (1000 * rf u aPcThrCtl 0 19 8)) ∧
    (∃ (s u : State) (mw mean : Word) (energy : Dword), fwRuns s = true ∧ u = rset64 (rset s aPcPwrTotal 0 mw.toNat)
      aPcEnergyLo 0 ((rv64 (rset s aPcPwrTotal 0 mw.toNat) aPcEnergyLo 0 + energy.toNat) % 2 ^ 64) ∧ 9 ≤ s.pc.powMs ∧
      mean.toNat ≤ 1000 * rf u aPcThrCtl 0 19 8 ∧ 95 * (1000 * rf u aPcThrCtl 0 19 8) ≤ 100 * mean.toNat) ∧
    (∃ (s u v : State) (sites1 sites2 : List Site) (links : List Half) (eth ucie : List Byte)
      (failed : List (Fin 32)) (acks1 acks2 : Acks) (done : List Nat) (skip : Bool), s.pc.replanning = true ∧ closed
      s = false ∧ heldInReset s = false ∧ sites1.length = 64 ∧ sites2.length = 64 ∧ retrainLinks s failed = (v, done,
      skip) ∧ u = makePlan v false v.pc.replanReason.toNat sites1 sites2
      { links := (List.range 32).map (fun l => if done.contains l then (links[l]?).getD 0 else 0), eth := eth, ucie := ucie, skipLink := skip, skipFold := (List.range 8).any (fun f => !(fold v f).disabled && foldSkipped v f) }
      acks1 acks2 ∧ rb u aPcMarginCtl 0 25 = false) ∧
    (∃ (s u v : State) (sites1 sites2 : List Site) (links : List Half) (eth ucie : List Byte)
      (failed : List (Fin 32)) (acks1 acks2 : Acks) (done : List Nat) (skip : Bool), s.pc.replanning = true ∧ closed
      s = false ∧ heldInReset s = false ∧ sites1.length = 64 ∧ sites2.length = 64 ∧ retrainLinks s failed = (v, done,
      skip) ∧ u = makePlan v false v.pc.replanReason.toNat sites1 sites2
      { links := (List.range 32).map (fun l => if done.contains l then (links[l]?).getD 0 else 0), eth := eth, ucie := ucie, skipLink := skip, skipFold := (List.range 8).any (fun f => !(fold v f).disabled && foldSkipped v f) }
      acks1 acks2 ∧ rb u aPcMarginCtl 0 25 = true) ∧
    (∃ (s : State), rf s aPcMarginCtl 0 7 0 ≠ 0) ∧
    (∃ (s : State) (a : Acc) (v : Word), mayAccess s a = true ∧ a.secure = true ∧ bit v.toNat 26 = true) ∧
    (∃ (s : State), closed s = false ∧ heldInReset s = false ∧ s.pc.replanning = false ∧ (stage s = 8 ∨ stage s = 9)) ∧
    (∃ (s : State) (acks : Acks), fwRuns s = true ∧ s.pc.avsRetry ≠ []) ∧
    (∃ (s : State) (rails : List Word) (hours : Word), fwRuns s = true) :=
  ⟨⟨rset live aPcMarginCtl 0 0, _, _, ⟨hot, {}⟩, (by decide +kernel), (by decide +kernel), rfl, rfl,
     (by decide +kernel)⟩,
   ⟨lowS, _, _, ⟨cool, {}⟩, (by decide +kernel), (by decide +kernel), rfl, rfl, (by decide +kernel),
     (by decide +kernel)⟩,
   ⟨sitesS hot, _, true, (by decide +kernel), rfl, (by decide +kernel)⟩,
   ⟨sitesS cool, _, true, (by decide +kernel), rfl, (by decide +kernel), (by decide +kernel)⟩,
   ⟨sitesS cool, _, false, (by decide +kernel), rfl, (by decide +kernel), (by decide +kernel)⟩,
   ⟨powS 8, _, 1, 2, 3, (by decide +kernel), rfl, (by decide +kernel)⟩,
   ⟨powS 9, _, 1, 0xFFFFFFFF, 3, (by decide +kernel), rfl, (by decide +kernel), (by decide +kernel)⟩,
   ⟨powS 9, _, 1, 0, 3, (by decide +kernel), rfl, (by decide +kernel), (by decide +kernel)⟩,
   ⟨powS 9, _, 1, BitVec.ofNat 32 (1000 * rf live aPcThrCtl 0 19 8), 3, (by decide +kernel), rfl,
     (by decide +kernel), (by decide +kernel), (by decide +kernel)⟩,
   ⟨replanning, _, retr0.1, hot, hot, [], [], [], [], {}, {}, retr0.2.1, retr0.2.2, (by decide +kernel),
     (by decide +kernel), (by decide +kernel), (by decide +kernel), (by decide +kernel), retr0_eq, rfl,
     (by decide +kernel)⟩,
   ⟨rset replanning aPcMarginCtl 0 0x2000000, _, retr1.1, hot, hot, [], [], [3], [], {}, {}, retr1.2.1, retr1.2.2,
     (by decide +kernel), (by decide +kernel), (by decide +kernel), (by decide +kernel), (by decide +kernel),
     retr1_eq, rfl, (by decide +kernel)⟩,
   ⟨rset live aPcMarginCtl 0 1, (by decide +kernel)⟩,
   ⟨live, fw, 0x4000000, (by decide +kernel), (by decide +kernel), (by decide +kernel)⟩,
   ⟨live, (by decide +kernel), (by decide +kernel), (by decide +kernel), (by decide +kernel)⟩,
   ⟨retryS, {}, (by decide +kernel), (by decide +kernel)⟩,
   ⟨live, [1, 2], 4294967295, (by decide +kernel)⟩⟩

theorem witness_PinsComplete :
    (∃ (s : State) (low : Bool), s.pc.alert.filtered ≠ low ∧ s.pc.alert.inGap = false) ∧
    (∃ (s : State) (low : Bool), s.pc.alert.filtered ≠ low ∧ s.pc.alert.inGap = true) ∧
    (∃ (s : State) (low : Bool), s.pc.throttle.filtered ≠ low ∧ s.pc.throttle.inGap = false) ∧
    (∃ (s : State) (low : Bool), s.pc.throttle.filtered ≠ low ∧ s.pc.throttle.inGap = true) ∧
    (∃ (s : State) (high : Bool), s.pc.sync.filtered ≠ high ∧ s.pc.sync.inGap = false) ∧
    (∃ (s u w : State) (high : Bool) (es : List Nat), s.pc.sync.filtered ≠ high ∧ s.pc.sync.inGap = true ∧ u = cnt
      { s with pc := { s.pc with sync := { s.pc.sync with filtered := high } } } aPcCntSyncIgn ∧ es = (s.fab ::
      s.pc.sync.edges).take 64 ∧ w = { u with pc := { u.pc with sync := { u.pc.sync with edges := es } } } ∧
      (s.pc.sync.faulty = true ∨ es.length < 64)) ∧
    (∃ (s u w : State) (high : Bool) (es : List Nat), s.pc.sync.filtered ≠ high ∧ s.pc.sync.inGap = true ∧ u = cnt
      { s with pc := { s.pc with sync := { s.pc.sync with filtered := high } } } aPcCntSyncIgn ∧ es = (s.fab ::
      s.pc.sync.edges).take 64 ∧ w = { u with pc := { u.pc with sync := { u.pc.sync with edges := es } } } ∧
      s.pc.sync.faulty = false ∧ es.length = 64 ∧ s.fab - es.getLast?.getD 0 ≤ 960000) ∧
    (∃ (s u w : State) (high : Bool) (es : List Nat), s.pc.sync.filtered ≠ high ∧ s.pc.sync.inGap = true ∧ u = cnt
      { s with pc := { s.pc with sync := { s.pc.sync with filtered := high } } } aPcCntSyncIgn ∧ es = (s.fab ::
      s.pc.sync.edges).take 64 ∧ w = { u with pc := { u.pc with sync := { u.pc.sync with edges := es } } } ∧ 960000 <
      s.fab - es.getLast?.getD 0) ∧
    (∃ (s : State) (p : Pin), p ≠ .pwrgood ∧ (condOf s p).inGap = true ∧ (condOf s p).filtered = (condOf s
      p).accepted) ∧
    (∃ (s : State) (p : Pin), (p = .alert ∨ p = .throttle) ∧ (condOf s p).inGap = true ∧ (condOf s p).filtered ≠
      (condOf s p).accepted) ∧
    (∃ (s : State), s.pc.sync.inGap = true ∧ s.pc.sync.filtered ≠ s.pc.sync.accepted) ∧
    (∃ (s : State) (p : Pin), (p = .alert ∨ p = .throttle) ∧ (condOf s p).accepted = true ∧ (condOf s p).faulty =
      false) ∧
    (∃ (s : State) (p : Pin), (p = .alert ∨ p = .throttle) ∧ (condOf s p).faulty = true ∧ (condOf s p).accepted =
      false) ∧
    (∃ (s : State), s.pc.sync.faulty = true) :=
  ⟨⟨live, true, (by decide +kernel), (by decide +kernel)⟩,
   ⟨pinsS { filtered := true, inGap := true }, false, (by decide +kernel), (by decide +kernel)⟩,
   ⟨pinsS { filtered := true }, false, (by decide +kernel), (by decide +kernel)⟩,
   ⟨pinsS { filtered := true, inGap := true }, false, (by decide +kernel), (by decide +kernel)⟩,
   ⟨live, true, (by decide +kernel), (by decide +kernel)⟩,
   ⟨pinsS { inGap := true }, _, _, true, _, (by decide +kernel), (by decide +kernel), rfl, rfl, rfl,
     (by decide +kernel)⟩,
   ⟨pinsS { inGap := true, edges := List.replicate 63 0 }, _, _, true, _, (by decide +kernel), (by decide +kernel),
     rfl, rfl, rfl, (by decide +kernel), (by decide +kernel), (by decide +kernel)⟩,
   ⟨{ pinsS { inGap := true, edges := List.replicate 63 0 } with fab := 960001 }, _, _, true, _, (by decide +kernel),
     (by decide +kernel), rfl, rfl, rfl, (by decide +kernel)⟩,
   ⟨pinsS { inGap := true }, .alert, (by decide +kernel), (by decide +kernel), (by decide +kernel)⟩,
   ⟨pinsS { filtered := true, inGap := true }, .throttle, (by decide +kernel), (by decide +kernel),
     (by decide +kernel)⟩,
   ⟨pinsS { filtered := true, inGap := true }, (by decide +kernel), (by decide +kernel)⟩,
   ⟨pinsS { accepted := true }, .throttle, (by decide +kernel), (by decide +kernel), (by decide +kernel)⟩,
   ⟨pinsS { faulty := true }, .alert, (by decide +kernel), (by decide +kernel), (by decide +kernel)⟩,
   ⟨pinsS { faulty := true }, (by decide +kernel)⟩⟩

theorem witness_SidebandComplete :
    (∃ (s : State) (a : BitVec 7) (b : Byte) (rest : Bytes), sbAnswers s = true ∧ a = sbAddr s) ∧
    (∃ (s : State) (a : BitVec 7) (data : Bytes) (n : Nat), sbAnswers s = true ∧ a ≠ sbAddr s) ∧
    (∃ (s : State), s.pc.sbDyn = none) ∧
    (∃ (s : State) (a : BitVec 7), s.pc.sbDyn = some a) ∧
    (∃ (s : State) (n : Nat), sbAnswers s = true) ∧
    (∃ (s : State), sbAnswers s = true ∧ sbFields.contains s.pc.sbPtr.toNat = true) ∧
    (∃ (s : State) (b : Nat) (l : Bytes), sbAnswers s = true ∧ s.pc.sbLatch = some (b, l) ∧ b < s.pc.sbPtr.toNat ∧
      s.pc.sbPtr.toNat < b + 4 ∧ sbFields.contains s.pc.sbPtr.toNat = false) ∧
    (∃ (s u : State) (m : DaaMsg), sbAnswers s = true ∧ s.pc.sbDyn = none ∧ (m.direct = true → m.static_ =
      BitVec.ofNat 7 (0x58 + rf s aPcPinStat 0 10 8)) ∧ u = (if m.direct then s else emit s (.sideband (toLE 6 (2 ^
      33 * Config.mipiId.toNat + 2 ^ 16 * 0x7107 + 2 ^ 12 * rf s aPcPinStat 0 10 8)).reverse))) :=
  ⟨⟨live, _, 255, [1], (by decide +kernel), rfl⟩,
   ⟨live, 0, [1], 2, (by decide +kernel), (by decide +kernel)⟩,
   ⟨live, (by decide +kernel)⟩,
   ⟨{ live with pc := { live.pc with sbDyn := some 127 } }, 127, (by decide +kernel)⟩,
   ⟨live, 256, (by decide +kernel)⟩,
   ⟨{ live with pc := { live.pc with sbPtr := 0x84 } }, (by decide +kernel), (by decide +kernel)⟩,
   ⟨{ live with pc := { live.pc with sbPtr := 0x87, sbLatch := some (0x84, [1, 2, 3, 4]) } }, 0x84, [1, 2, 3, 4],
     (by decide +kernel), (by decide +kernel), (by decide +kernel), (by decide +kernel), (by decide +kernel)⟩,
   ⟨live, _, ⟨127, 0, false⟩, (by decide +kernel), (by decide +kernel), (by decide +kernel), rfl⟩⟩

theorem witness_SecurityComplete :
    (∃ (s : State) (n : Word) (c : Cmd), Dispatched s 0 n 22 c ∧ 1 ≤ cF c 16 4 ∧ cF c 16 4 ≤ 64 ∧ zero c 40 24 = true
      ∧ srcOk c (cF c 24 8) (cF c 16 4) = true ∧ plainAddr (cF c 32 8) = true ∧ 11836 ≤ cF c 20 4 ∧ aliasHeld (cnt s
      aFeCntEntries) = true) ∧
    (∃ (s : State) (n : Word) (c : Cmd), LandedNow s 0 n 22 c ∧ (∀ d ∈ s.fe.cmds, cOp d = 22 → d.phase ≠ .ended →
      d.arrival ≠ 0 → c.arrival ≤ d.arrival) ∧ aliasHeld s = true) ∧
    (∃ (s : State) (a : Acc) (v : Word), mayAccess s a = true ∧ a.secure = true ∧ (∀ u < 10, bit (v.toNat % 1024) u =
      unitWorld s u ∨ unitEmpty s u = true)) ∧
    (∃ (s : State) (a : Acc) (v : Word) (u : Nat), mayAccess s a = true ∧ a.secure = true ∧ u < 10 ∧ bit (v.toNat %
      1024) u ≠ unitWorld s u ∧ unitEmpty s u = false) ∧
    (∃ (s : State) (a : Acc) (k : Fin 8) (v : Word), mayAccess s a = true ∧ a.secure = true ∧ allZero (rbytes s
      aPcOwnerKey0 0 8) = true) ∧
    (∃ (s : State) (a : Acc) (k : Fin 8) (v : Word), mayAccess s a = true ∧ a.secure = true ∧ allZero (rbytes s
      aPcOwnerKey0 0 8) = false) ∧
    (∃ (s : State) (a : Acc) (v : Word), mayAccess s a = true ∧ a.secure = true ∧ bit v.toNat 0 = true) :=
  ⟨⟨having live [attestC], 2, attestC, (by unfold Dispatched; decide +kernel), (by decide +kernel),
     (by decide +kernel), (by decide +kernel), (by decide +kernel), (by decide +kernel), (by decide +kernel),
     (by decide +kernel)⟩,
   ⟨having live [{ attestC with phase := .landed, arrival := 3 }], 2,
     { attestC with phase := .landed, arrival := 3 }, (by unfold LandedNow; decide +kernel), (by decide +kernel),
     (by decide +kernel)⟩,
   ⟨live, fw, 1023, (by decide +kernel), (by decide +kernel), (by decide +kernel)⟩,
   ⟨setRegion live 9 { limit := 4096, kind := 1, unit := 7 }, fw, 512, 9, (by decide +kernel), (by decide +kernel),
     (by decide +kernel), (by decide +kernel), (by decide +kernel)⟩,
   ⟨live, fw, 7, 5, (by decide +kernel), (by decide +kernel), (by decide +kernel)⟩,
   ⟨rset live (aPcOwnerKey0 + 28) 0 5, fw, 7, 6, (by decide +kernel), (by decide +kernel), (by decide +kernel)⟩,
   ⟨live, fw, 1, (by decide +kernel), (by decide +kernel), (by decide +kernel)⟩⟩

theorem witness_TapComplete :
    (∃ (s : State), s.pc.tapReset = false ∧ heldInReset s = false ∧ 5 ≤ stage s) ∧
    (∃ (s : State), s.pc.tapReset = false ∧ (heldInReset s = true ∨ stage s < 5)) ∧
    (∃ (s : State), s.pc.tapReset = false ∧ heldInReset s = false ∧ 5 ≤ stage s) ∧
    (∃ (s : State) (pins tdi : Bytes), s.pc.tapReset = false ∧ heldInReset s = false ∧ 5 ≤ stage s ∧ 1 ≤
      s.pc.dbgLevel.toNat) ∧
    (∃ (s : State) (m : ScanMsg), s.pc.tapReset = false ∧ heldInReset s = false ∧ 5 ≤ stage s ∧ s.pc.dbgLevel = 0) ∧
    (∃ (s : State), s.pc.tapReset = false ∧ heldInReset s = false ∧ 5 ≤ stage s ∧ 1 ≤ s.pc.dbgLevel.toNat) ∧
    (∃ (s : State) (token : Bytes), s.pc.tapReset = false ∧ closed s = false ∧ fwRuns s = true) ∧
    (∃ (s : State) (addr v : Word), s.pc.tapReset = false ∧ s.pc.dbgLevel = 3 ∧ closed s = false ∧ heldInReset s =
      false) ∧
    (∃ (s u : State) (addr v : Word), s.pc.tapReset = false ∧ s.pc.dbgLevel = 2 ∧ closed s = false ∧ heldInReset s =
      false ∧ u = { s with pc := { s.pc with tap := .access } }) :=
  ⟨⟨debugged 0, (by decide +kernel), (by decide +kernel), (by decide +kernel)⟩,
   ⟨{ at_ 4 with pc := { (at_ 4).pc with tapReset := false } }, (by decide +kernel), (by decide +kernel)⟩,
   ⟨debugged 0, (by decide +kernel), (by decide +kernel), (by decide +kernel)⟩,
   ⟨debugged 1, [1], [2], (by decide +kernel), (by decide +kernel), (by decide +kernel), (by decide +kernel)⟩,
   ⟨debugged 0, ⟨[1], [2]⟩, (by decide +kernel), (by decide +kernel), (by decide +kernel), (by decide +kernel)⟩,
   ⟨debugged 1, (by decide +kernel), (by decide +kernel), (by decide +kernel), (by decide +kernel)⟩,
   ⟨debugged 0, [1], (by decide +kernel), (by decide +kernel), (by decide +kernel)⟩,
   ⟨debugged 3, 0x100000, 5, (by decide +kernel), (by decide +kernel), (by decide +kernel), (by decide +kernel)⟩,
   ⟨debugged 2, _, 0x100000, 5, (by decide +kernel), (by decide +kernel), (by decide +kernel), (by decide +kernel),
     rfl⟩⟩

theorem witness_ActionRegistersComplete :
    (∃ (s : State) (a : Acc) (f : Fin 8) (v : Word), mayAccess s a = true) ∧
    (∃ (s : State) (a : Acc) (f : Fin 8) (v : Word), mayAccess s a = true) ∧
    (∃ (s : State) (a : Acc) (c : Core2) (v : Word), mayAccess s a = true ∧ coreHeld s c = false ∧ bit v.toNat 1 =
      true) ∧
    (∃ (s : State) (a : Acc) (f : Fin 8) (v : Word), mayAccess s a = true ∧ holdsTrained s f = false ∧ bit v.toNat 2
      = true) ∧
    (∃ (s : State) (a : Acc) (word : BitVec 10) (v : Word), mayAccess s a = true ∧ a.secure = true ∧ word.toNat % 2 =
      0) ∧
    (∃ (s : State) (a : Acc) (word : BitVec 10) (v low : Word) (e : Nat), mayAccess s a = true ∧ a.secure = true ∧
      word.toNat % 2 = 1 ∧ e = 512 * selIx s a.who aXlTblSel + word.toNat / 2 ∧ mget none s.xl.lowHalf (whoKey a.who
      e) = some low) ∧
    (∃ (s : State) (a : Acc) (v : Word), mayAccess s a = true ∧ a.secure = true) :=
  ⟨⟨live, fw, 7, 4294967295, (by decide +kernel)⟩,
   ⟨live, fw, 7, 4294967295, (by decide +kernel)⟩,
   ⟨live, fw, 1, 2, (by decide +kernel), (by decide +kernel), (by decide +kernel)⟩,
   ⟨live, fw, 7, 4, (by decide +kernel), (by decide +kernel), (by decide +kernel)⟩,
   ⟨live, fw, 1022, 5, (by decide +kernel), (by decide +kernel), (by decide +kernel)⟩,
   ⟨{ live with xl := { live.xl with lowHalf := [(whoKey .pcFw 511, some 5)] } }, fw, 1023, 6, 5, 511,
     (by decide +kernel), (by decide +kernel), (by decide +kernel), (by decide +kernel), (by decide +kernel)⟩,
   ⟨live, fw, 4294967295, (by decide +kernel), (by decide +kernel)⟩⟩

theorem witness_AccessesComplete :
    (∃ (s : State) (a : Acc) (addr v : Word), mayAccess s a = true) ∧
    (∃ (s : State) (a : Acc) (addr : Word), mayAccess s a = true) ∧
    (∃ (s : State) (a : Acc) (c : Core2) (off : BitVec 24) (v : Word), mayAccess s a = true) ∧
    (∃ (s : State) (a : Acc) (c : Core2) (off : BitVec 24) (v : Word), mayAccess s a = true) ∧
    (∃ (s u w z : State) (mgmt : Bool) (q : BitVec 12) (k : Pkt) (va : Dword) (len i : Nat) (data : Bytes) (a : Acc),
      i = (if mgmt then 4096 else q.toNat) ∧ Arrives s u i (pkts s i data.length) k ∧ k.psn = (qp u i).epsn ∧ qpRole
      s i = 3 ∧ va.toNat % 4 = 0 ∧ data.length % 4 = 0 ∧ a =
      { who := if mgmt then .mgmt else .ownerQp q, secure := true } ∧ w = dropImm (tookPsn u i (pkts s i
      data.length)) k ∧ z = rdmaWrite a (data.length / 4) va.toNat data w) ∧
    (∃ (s u w : State) (mgmt : Bool) (q : BitVec 12) (k : Pkt) (va : Dword) (len i : Nat) (data : Bytes) (a : Acc)
      (r : Bytes × State), i = (if mgmt then 4096 else q.toNat) ∧ Arrives s u i 1 k ∧ k.psn = (qp u i).epsn ∧ qpRole
      s i = 3 ∧ va.toNat % 4 = 0 ∧ len % 4 = 0 ∧ a = { who := if mgmt then .mgmt else .ownerQp q, secure := true } ∧
      w = tookPsn u i (pkts s i len) ∧ peerReads w i < 16 ∧ r = rdmaRead a (len / 4) va.toNat w) ∧
    (∃ (s u : State) (mgmt : Bool) (q : BitVec 12) (k : Pkt) (rkey : Word) (va : Dword) (len i : Nat) (data : Bytes),
      i = (if mgmt then 4096 else q.toNat) ∧ Arrives s u i (pkts s i data.length) k ∧ k.psn = (qp u i).epsn ∧ qpRole
      s i = 3 ∧ (rkey ≠ 0 ∨ va.toNat % 4 ≠ 0 ∨ data.length % 4 ≠ 0)) :=
  ⟨⟨live, fw, 4294967295, 1, (by decide +kernel)⟩,
   ⟨live, fw, 4294967292, (by decide +kernel)⟩,
   ⟨live, fw, 1, 16777215, 1, (by decide +kernel)⟩,
   ⟨live, fw, 1, 16777212, 1, (by decide +kernel)⟩,
   ⟨mgN, got mgN 1, _, _, true, 0, pk 8 0, 0x110000, 0, _, [1, 2, 3, 4], _, rfl, (by unfold Arrives; decide +kernel),
     (by decide +kernel), (by decide +kernel), (by decide +kernel), (by decide +kernel), rfl, rfl, rfl⟩,
   ⟨ownN, got ownN 1, _, false, 4095, pk 0 0, 0x110000, 4, _, [], _, _, rfl, (by unfold Arrives; decide +kernel),
     (by decide +kernel), (by decide +kernel), (by decide +kernel), (by decide +kernel), rfl, rfl,
     (by decide +kernel), rfl⟩,
   ⟨ownN, got ownN 1, false, 4095, pk 0 0, 0, 0x110001, 0, _, [1, 2, 3, 4], rfl, (by unfold Arrives; decide +kernel),
     (by decide +kernel), (by decide +kernel), (by decide +kernel)⟩⟩

theorem witness_StepTakesTheFront :
    (∃ (s : State), s.pending = []) ∧
    (∃ (s : State), s.pending = [] ∧ heldInReset s = true) :=
  ⟨⟨State.reset, (by decide +kernel)⟩,
   ⟨{ State.reset with pc := { State.reset.pc with resetN := false } }, (by decide +kernel), (by decide +kernel)⟩⟩

theorem witness_InvariantKept :
    (∃ (s t : State), s.canonical = true ∧ s.ownerOnly = true ∧ step s = .next t) ∧
    (∃ (s t : State) (c : Instr), s.canonical = true ∧ s.ownerOnly = true ∧ exec c s = .next t) :=
  ⟨⟨State.reset, _, (by decide +kernel), (by decide +kernel), rfl⟩,
   ⟨State.reset, _, .trstN true, (by decide +kernel), (by decide +kernel), rfl⟩⟩

theorem witness_FramesKept :
    (∃ (s t : State) (c : Instr) (p : Part), s.canonical = true ∧ s.ownerOnly = true ∧ exec c s = .next t ∧ p ∉
      touches c) :=
  ⟨State.reset, _, .trstN true, .fe, (by decide +kernel), (by decide +kernel), rfl, (by decide +kernel)⟩

theorem witness_InterleaveOneToOne :
    (∃ (a b : Nat), chanOf a = chanOf b ∧ secOf a / 8 = secOf b / 8) ∧
    (∃ (a b : Nat), chanOf a = chanOf b ∧ secOf a = secOf b) ∧
    (∃ (x c : Nat), c < 16) ∧
    (∃ (s : State) (n : Nat), ((dieGb s = 32 ∧ n = 15728640) ∨ (dieGb s = 24 ∧ n = 11796480))) :=
  ⟨⟨3840, 4095, (by decide +kernel), (by decide +kernel)⟩,
   ⟨0x4B3A2960, 0x4B3A297F, (by decide +kernel), (by decide +kernel)⟩,
   ⟨2567, 15, (by decide +kernel)⟩,
   ⟨live, 15728640, (by decide +kernel)⟩⟩

theorem witness_MaximumAndSum :
    (∃ (a b : Nat), a < 2 ^ 32 ∧ b < 2 ^ 32 ∧ below32 (fdec F32 a) (fdec F32 b)) ∧
    (∃ (a b : Nat), a < 2 ^ 32 ∧ b < 2 ^ 32 ∧ fdec F32 a ≠ .nan ∧ fdec F32 b ≠ .nan ∧ a ≠ b) ∧
    (∃ (a : Nat), a < 2 ^ 32 ∧ fdec F32 a ≠ .nan) ∧
    (∃ (a b : Nat), (fdec F32 a = .nan ∨ fdec F32 b = .nan)) :=
  ⟨⟨0xBF800000, 0x3F800000, (by decide +kernel), (by decide +kernel), (by show (_ : Int) < _; decide +kernel)⟩,
   ⟨0x7F800000, 0xFF800000, (by decide +kernel), (by decide +kernel), (by decide +kernel), (by decide +kernel),
     (by decide +kernel)⟩,
   ⟨0x80000000, (by decide +kernel), (by decide +kernel)⟩,
   ⟨0x7FC00001, 0, (by decide +kernel)⟩⟩

theorem witness_TokensRegulate :
    (∃ (s : State) (f p : Nat), p < 16) ∧
    (∃ (s t : State) (f : Fin 8) (ch : Fin 16) (r : Run), runTaken s f ch = some r ∧ r.part < 16 ∧ r.ch < 16 ∧
      (r.write = true → r.rmw = false → partSecs r = []) ∧ exec (.runIssue f ch) s = .next t) ∧
    (∃ (s : State) (f : Fin 8) (ch : Fin 16), rb s (foldReg f aFmCtl) 0 0 = false ∧ (∀ r ∈ heads (fold s f) ch,
      tokens s f r.part ≤ 0 ∨ partRate s f r.part = 0)) ∧
    (∃ (s : State) (f : Fin 8) (ch : Fin 16) (r : Run), runTaken s f ch = some r) :=
  ⟨⟨foldF {}, 7, 15, (by decide +kernel)⟩,
   ⟨waitsS 1, _, 7, 15, run1, (by decide +kernel), (by decide +kernel), (by decide +kernel), (by decide +kernel),
     rfl⟩,
   ⟨rset (waitsS 0) (foldReg 7 aFmCtl) 0 0, 7, 15, (by decide +kernel), (by decide +kernel)⟩,
   ⟨waitsS 1, 7, 15, run1, (by decide +kernel)⟩⟩

theorem witness_StoresFramed :
    (∃ (s : State) (f : Fin 8) (ch : Fin 16), runTaken s f ch = none) ∧
    (∃ (s t : State) (f : Fin 8) (ch : Fin 16) (r : Run), runTaken s f ch = some r ∧ exec (.runIssue f ch) s = .next
      t) ∧
    (∃ (s t : State) (f : Fin 8) (ch : Fin 16) (r : Run) (i : Nat) (d : Bytes) (m : List Bool), runTaken s f ch =
      some r ∧ r.write = true ∧ r.rmw = false ∧ r.secs = [i] ∧ r.data = [(d, m)] ∧ d.length = 32 ∧ (∀ b ∈ m, b =
      true) ∧ rb s (foldReg f aFmEccInj) 0 0 = false ∧ r.part < 16 ∧ r.ch < 16 ∧ exec (.runIssue f ch) s = .next t) :=
  ⟨⟨live, 7, 15, (by decide +kernel)⟩,
   ⟨waitsS 1, _, 7, 15, run1, (by decide +kernel), rfl⟩,
   ⟨waitsS 1, _, 7, 15, run1, 3, List.replicate 32 9, List.replicate 32 true, (by decide +kernel),
     (by decide +kernel), (by decide +kernel), (by decide +kernel), (by decide +kernel), (by decide +kernel),
     (by decide +kernel), (by decide +kernel), (by decide +kernel), (by decide +kernel), rfl⟩⟩

theorem witness_HighHalfLatched :
    (∃ (s : State) (a : Acc) (x : Nat), x ∈ lowHalves ∧ mayAccess s a = true) ∧
    (∃ (s : State) (a : Acc) (x : Nat) (v : Word), x ∈ lowHalves ∧ mayAccess s a = true ∧ latchOf s a.who (x + 4) =
      some v) ∧
    (∃ (s : State) (a : Acc) (x : Nat), x ∈ lowHalves ∧ mayAccess s a = true ∧ latchOf s a.who (x + 4) = none) ∧
    (∃ (s : State) (w w' : Requester) (x y : Nat) (v : Option Word), x < 2 ^ 32 ∧ y < 2 ^ 32 ∧ (w', y) ≠ (w, x)) :=
  ⟨⟨live, fw, aPcEnergyLo, (by decide +kernel), (by decide +kernel)⟩,
   ⟨setLatch live .pcFw (aPcEnergyLo + 4) (some 9), fw, aPcEnergyLo, 9, (by decide +kernel), (by decide +kernel),
     (by decide +kernel)⟩,
   ⟨live, fw, aPcEnergyLo, (by decide +kernel), (by decide +kernel), (by decide +kernel)⟩,
   ⟨live, .mgmt, .jtag, 4294967295, 4294967295, some 1, (by decide +kernel), (by decide +kernel),
     (by decide +kernel)⟩⟩

end Sys2Proof.Machine.Tests
end

namespace Sys2Proof.Machine

/-! ## A requester's latches (R13) -/

/-- An Owner queue pair's number is its index, below 4096; the other requesters' are 4096 and above. -/
theorem whoCode_inj {w w' : Requester} (h : whoCode w' = whoCode w) : w' = w := by
  cases w <;> cases w' <;> simp [whoCode] at h ⊢ <;> bv_omega

/-- A configuration address is one word, so a latch's key tells both its requester and its address. -/
theorem whoKey_inj {w w' : Requester} {x y : Nat} (hx : x < 2 ^ 32) (hy : y < 2 ^ 32)
    (h : whoKey w' y = whoKey w x) : w' = w ∧ y = x := by
  unfold whoKey at h
  have hcode : whoCode w' = whoCode w := by omega
  exact ⟨whoCode_inj hcode, by omega⟩

theorem latchOf_setLatch_other (s : State) {w w' : Requester} {x y : Nat} (v : Option Word)
    (hx : x < 2 ^ 32) (hy : y < 2 ^ 32) (hne : (w', y) ≠ (w, x)) :
    latchOf (setLatch s w x v) w' y = latchOf s w' y := by
  refine mget_mset_other _ _ _ _ _ fun hkey => hne ?_
  obtain ⟨hw, hyx⟩ := whoKey_inj hx hy hkey
  rw [hw, hyx]

/-! ## What a read of a register answers (R13, R14) -/

theorem acc1_of_mayAccess {s : State} {a : Acc} (g : State → State) (h : mayAccess s a = true) :
    acc1 s a g = g s := if_pos h

theorem exec_lowHalfRead {s : State} {a : Acc} {x : Nat} (h : mayAccess s a = true) (hx : x < 2 ^ 32) :
    exec (.lowHalfRead a (BitVec.ofNat 32 x)) s =
      .next (emit (regRead s a x).2 (.regData a.who (regRead s a x).1)) := by
  have hword : (BitVec.ofNat 32 x).toNat = x := Nat.mod_eq_of_lt hx
  calc exec (.lowHalfRead a (BitVec.ofNat 32 x)) s
      = execLowHalfRead a (BitVec.ofNat 32 x) s := rfl
    _ = _ := by simp only [execLowHalfRead, acc1_of_mayAccess _ h, hword]

/-- A register without ROS bits stands at address `a`: both worlds read the same there. -/
abbrev NoRos (a : Nat) : Prop := (regDef a).map (·.ros) = some 0

theorem hideRos_of_ros_zero {d : RegDef} (h : d.ros = 0) (secure : Bool) (v : Nat) : hideRos d secure v = v := by
  simp [hideRos, h]

/-- An address with a register is read through the register, not through a scratch window. -/
theorem regRead_of_regDef (s : State) (a : Acc) {x : Nat} {d : RegDef} (h : regDef x = some d) :
    regRead s a x = (BitVec.ofNat 32 (readDef s a x d).1, (readDef s a x d).2) := by
  cases hr : rangeOf x with
  | win c k => simp [regDef, hr, regsOfRange] at h
  | _ => simp only [regRead, hr, h]

theorem regRead_lowHalf (s : State) (a : Acc) {x : Nat} (hlow : lowHalf (rangeOf x) = true) (hreg : NoRos x) :
    regRead s a x = (BitVec.ofNat 32 (regLive s a.who x),
      setLatch s a.who (x + 4) (some (BitVec.ofNat 32 (regLive s a.who (x + 4))))) := by
  obtain ⟨d, hd, hros⟩ := Option.map_eq_some_iff.1 hreg
  simp [regRead_of_regDef s a hd, readDef, hlow, hideRos_of_ros_zero hros]

/-- The read of a high half: the latched value, which is used up, or with no latch the live one. -/
theorem regRead_highHalf (s : State) (a : Acc) {x : Nat} (hlow : lowHalf (rangeOf x) = true)
    (hhigh : lowHalf (rangeOf (x + 4)) = false) (hreg : NoRos (x + 4)) :
    regRead s a (x + 4) =
      ((latchOf s a.who (x + 4)).getD (BitVec.ofNat 32 (regLive s a.who (x + 4))),
        if (latchOf s a.who (x + 4)).isSome then setLatch s a.who (x + 4) none else s) := by
  obtain ⟨d, hd, hros⟩ := Option.map_eq_some_iff.1 hreg
  cases hlatch : latchOf s a.who (x + 4) <;>
    simp [regRead_of_regDef s a hd, readDef, hlow, hhigh, hlatch, hideRos_of_ros_zero hros]

/-! ## The addresses of the 64-bit quantities -/

/-- What R13 asks of the address `x` of a low half and of `x + 4`: addresses of registers that hide nothing from the
non-secure world, of which the first is a low half and the second is not. -/
structure HalvesAt (x : Nat) : Prop where
  addr : x + 4 < 2 ^ 32
  low : lowHalf (rangeOf x) = true
  high : lowHalf (rangeOf (x + 4)) = false
  lowReg : NoRos x
  highReg : NoRos (x + 4)

/-- Inside a span of offsets that one entry of the field map covers, where no entry that reaches into the span has ROS
bits, every word is a register without ROS bits. -/
theorem noRos_of_span {l : List RegDef} {x lo hi : Nat} (hl : regsOfRange (rangeOf x) = l) (hword : x % 4 = 0)
    (hx : lo ≤ offOf (rangeOf x) ∧ offOf (rangeOf x) ≤ hi) (hcover : ∃ d ∈ l, d.off ≤ lo ∧ hi ≤ d.last)
    (hros : ∀ d ∈ l, d.off ≤ hi → lo ≤ d.last → d.ros = 0) : NoRos x := by
  obtain ⟨hlo, hhi⟩ := hx
  obtain ⟨e, he, hoff, hlast⟩ := hcover
  have hfound : (l.find? (fun d => d.off ≤ offOf (rangeOf x) && offOf (rangeOf x) ≤ d.last)).isSome :=
    List.find?_isSome.2 ⟨e, he, by simp; omega⟩
  obtain ⟨d, hd⟩ := Option.isSome_iff_exists.1 hfound
  have hin := List.find?_some hd
  simp only [Bool.and_eq_true, decide_eq_true_eq] at hin
  have hzero : d.ros = 0 := hros d (List.mem_of_find?_eq_some hd) (by omega) (by omega)
  simp [NoRos, regDef, hl, hword, hd, hzero]

theorem noRos_tableWindow {x : Nat} (hword : x % 4 = 0) (hx : aXlTblWin ≤ x ∧ x < aXlTblWin + 4096) : NoRos x := by
  unfold aXlTblWin at hx
  have hr : rangeOf x = .glob x := if_pos (by omega)
  have hl : regsOfRange (rangeOf x) = regsXl := by
    simp only [hr, regsOfRange]
    repeat rw [if_neg (by omega)]
    rw [if_pos (by omega)]
  refine noRos_of_span (lo := aXlTblWin) (hi := 0x431FFC) hl hword ?_ (by decide) (by decide)
  simp only [hr, offOf, aXlTblWin]
  omega

theorem noRos_faultLog {x : Nat} (hword : x % 4 = 0) (hx : aIgFlog ≤ x ∧ x < aIgFlog + 0x4000) : NoRos x := by
  unfold aIgFlog at hx
  have hr : rangeOf x = .glob x := if_pos (by omega)
  have hl : regsOfRange (rangeOf x) = regsIg := by
    simp only [hr, regsOfRange]
    repeat rw [if_neg (by omega)]
  refine noRos_of_span (lo := aIgFlog) (hi := 0x813FFC) hl hword ?_ (by decide) (by decide)
  simp only [hr, offOf, aIgFlog]
  omega

/-- The low halves of the global blocks by number: the table window and the fault log lie apart from every register that
is a low half by itself. -/
theorem lowHalf_glob_iff {o : Nat} : lowHalf (.glob o) = true ↔
    (0x431000 ≤ o ∧ o < 0x432000 ∧ o % 8 = 0) ∨ o = 0x410064 ∨ o = 0x41006C ∨
      (0x810000 ≤ o ∧ o < 0x814000 ∧ o % 64 ∈ [24, 32, 40, 48]) ∨
      o ∈ [0x110020, 0x110028, 0x200024, 0x210008, 0x410028, 0x430008, 0x33000C, 0x40020, 0x41008] := by
  simp only [lowHalf, Bool.or_eq_true, Bool.and_eq_true, decide_eq_true_eq, beq_iff_eq, List.contains_iff_mem,
    and_assoc, or_assoc]
  rfl

/-- A word of the table window is a low half only at a multiple of 8. -/
theorem lowHalf_tableWindow {x : Nat} (hx : aXlTblWin ≤ x ∧ x < aXlTblWin + 4096) :
    lowHalf (rangeOf x) = true ↔ x % 8 = 0 := by
  unfold aXlTblWin at hx
  rw [show rangeOf x = .glob x from if_pos (by omega), lowHalf_glob_iff]
  simp only [List.mem_cons, List.not_mem_nil, or_false]
  omega

/-- A word of the fault log is a low half only where a 64-bit field of a record starts (R425). -/
theorem lowHalf_faultLog {x : Nat} (hx : aIgFlog ≤ x ∧ x < aIgFlog + 0x4000) :
    lowHalf (rangeOf x) = true ↔ x % 64 ∈ [24, 32, 40, 48] := by
  unfold aIgFlog at hx
  rw [show rangeOf x = .glob x from if_pos (by omega), lowHalf_glob_iff]
  simp only [List.mem_cons, List.not_mem_nil, or_false]
  omega

theorem halvesAt_tableWindow {k : Nat} (hk : k < 512) : HalvesAt (aXlTblWin + 8 * k) where
  addr := by unfold aXlTblWin; omega
  low := (lowHalf_tableWindow (by omega)).2 (by unfold aXlTblWin; omega)
  high := by
    rw [← Bool.not_eq_true, lowHalf_tableWindow (by omega)]
    unfold aXlTblWin
    omega
  lowReg := noRos_tableWindow (by unfold aXlTblWin; omega) (by omega)
  highReg := noRos_tableWindow (by unfold aXlTblWin; omega) (by omega)

theorem halvesAt_faultLog {k o : Nat} (hk : k < 256) (ho : o ∈ [24, 32, 40, 48]) :
    HalvesAt (aIgFlog + 64 * k + o) := by
  have hspan : o % 8 = 0 ∧ 24 ≤ o ∧ o ≤ 48 := by
    revert o
    decide
  have hlow : (aIgFlog + 64 * k + o) % 64 = o := by unfold aIgFlog; omega
  have hhigh : (aIgFlog + 64 * k + o + 4) % 64 = o + 4 := by unfold aIgFlog; omega
  have hword : aIgFlog % 4 = 0 := rfl
  exact {
    addr := by unfold aIgFlog; omega
    low := (lowHalf_faultLog (by omega)).2 (hlow.symm ▸ ho)
    high := by
      rw [← Bool.not_eq_true, lowHalf_faultLog (by omega), hhigh]
      simp only [List.mem_cons, List.not_mem_nil, or_false] at ho ⊢
      omega
    lowReg := noRos_faultLog (by omega) (by omega)
    highReg := noRos_faultLog (by omega) (by omega) }

/-- The low halves that have registers of their own. -/
def ownLowHalves : List Nat :=
  [aFeQRingLo, aFeQCqLo, aNpMacAddrLo, aNpPtpTimeLo, aXlMwBaseLo, aXlFqAddrLo, aDlPairLastTagLo, aPcEnergyLo, aPcPlan + 8] ++
    (List.range 2).flatMap (fun c => [coreReg c aVeQsSseLo, coreReg c aVeQsSsLo, coreReg c aVeQsCountLo]) ++
    (List.range 8).flatMap (fun f => [foldReg f aRuConvSseLo, foldReg f aRuConvSsLo, foldReg f aRuConvCountLo]) ++
    [aXlRegWord0, aXlRegWord2]

theorem mem_lowHalves {x : Nat} (h : x ∈ lowHalves) :
    x ∈ ownLowHalves ∨ (∃ k < 512, x = aXlTblWin + 8 * k) ∨
      ∃ k < 256, ∃ o ∈ [24, 32, 40, 48], x = aIgFlog + 64 * k + o := by
  unfold lowHalves at h
  rcases List.mem_append.1 h with h | h
  · rcases List.mem_append.1 h with h | h
    · exact .inl h
    · obtain ⟨k, hk, rfl⟩ := List.mem_map.1 h
      exact .inr (.inl ⟨k, List.mem_range.1 hk, rfl⟩)
  · obtain ⟨k, hk, h⟩ := List.mem_flatMap.1 h
    obtain ⟨o, ho, rfl⟩ := List.mem_map.1 h
    exact .inr (.inr ⟨k, List.mem_range.1 hk, o, ho, rfl⟩)

theorem halvesAt_own {x : Nat} (h : x ∈ ownLowHalves) : HalvesAt x := by
  have hall : ∀ y ∈ ownLowHalves, y + 4 < 2 ^ 32 ∧ lowHalf (rangeOf y) = true ∧ lowHalf (rangeOf (y + 4)) = false ∧
      NoRos y ∧ NoRos (y + 4) := by decide +kernel
  obtain ⟨haddr, hlow, hhigh, hlowReg, hhighReg⟩ := hall x h
  exact ⟨haddr, hlow, hhigh, hlowReg, hhighReg⟩

theorem halvesAt_of_mem {x : Nat} (h : x ∈ lowHalves) : HalvesAt x := by
  rcases mem_lowHalves h with hown | ⟨k, hk, rfl⟩ | ⟨k, hk, o, ho, rfl⟩
  · exact halvesAt_own hown
  · exact halvesAt_tableWindow hk
  · exact halvesAt_faultLog hk ho

/-- Settles O60: a low half's address is that of two plain registers, so its read latches and the next read of the high
half takes the latch; a latch's key tells its requester and its address apart from every other. -/
theorem highHalfLatched : Obligations.HighHalfLatched := by
  refine ⟨?latches, ?usesUp, ?live, ?others⟩
  case latches =>
    intro s a x hx hacc
    have hh := halvesAt_of_mem hx
    rw [exec_lowHalfRead hacc (Nat.lt_of_add_right_lt hh.addr), regRead_lowHalf s a hh.low hh.lowReg]
  case usesUp =>
    intro s a x v hx hacc hlatch
    have hh := halvesAt_of_mem hx
    rw [exec_lowHalfRead hacc hh.addr, regRead_highHalf s a hh.low hh.high hh.highReg, hlatch]
    rfl
  case live =>
    intro s a x hx hacc hlatch
    have hh := halvesAt_of_mem hx
    rw [exec_lowHalfRead hacc hh.addr, regRead_highHalf s a hh.low hh.high hh.highReg, hlatch]
    rfl
  case others =>
    intro s w w' x y v hx hy hne
    exact latchOf_setLatch_other s v hx hy hne

end Sys2Proof.Machine

namespace Sys2Proof.Machine

/-! ## The frame of every command -/

/-- A command keeps the waiting commands, what was sent, the memories and the sessions, and every part of the state but
those that `touches` lists for it: each arm of `exec` has its own lemma under `Laws/`. -/
theorem exec_keep {T : List Part} {s0 s : State} (c : Instr) (hT : Within (touches c) T) (hs : Keep T s0 s) :
    ∀ t, exec c s = .next t → Keep T s0 t := by
  cases c with
  | launch _ _ => exact execLaunch_keep hT _ _ hs
  | lookup _ _ => exact execLookup_keep hT _ _ hs
  | update _ _ => exact execUpdate_keep hT _ _ hs
  | tableLoadFull _ _ => exact execTableLoadFull_keep hT _ _ hs
  | tableLoadRows _ _ => exact execTableLoadRows_keep hT _ _ hs
  | tableCommit _ _ => exact execTableCommit_keep hT _ _ hs
  | tableCommitDrop _ _ => exact execTableCommitDrop_keep hT _ _ hs
  | tableExport _ _ => exact execTableExport_keep hT _ _ hs
  | graphStore _ _ => exact execGraphStore_keep hT _ _ hs
  | graphPatch _ _ => exact execGraphPatch_keep hT _ _ hs
  | graphRetire _ _ => exact execGraphRetire_keep hT _ _ hs
  | fence _ _ => exact execFence_keep hT _ _ hs
  | nop _ _ => exact execNop_keep hT _ _ hs
  | abortCommand _ => exact execAbortCommand_keep hT _ hs
  | abortQueue _ => exact execAbortQueue_keep hT _ hs
  | abortCid _ => exact execAbortCid_keep hT _ hs
  | abortAllQueues _ => exact execAbortAllQueues_keep hT _ hs
  | queueCreate _ => exact execQueueCreate_keep hT _ hs
  | queueDestroy _ => exact execQueueDestroy_keep hT _ hs
  | regionMap _ => exact execRegionMap_keep hT _ hs
  | regionUnmap _ => exact execRegionUnmap_keep hT _ hs
  | statsRead _ => exact execStatsRead_keep hT _ hs
  | attest _ => exact execAttest_keep hT _ hs
  | pairForm _ => exact execPairForm_keep hT _ hs
  | pairBreak _ => exact execPairBreak_keep hT _ hs
  | pairSwitch _ => exact execPairSwitch_keep hT _ hs
  | pairTakeover _ => exact execPairTakeover_keep hT _ hs
  | pairResync _ => exact execPairResync_keep hT _ hs
  | leaseRenewOwner _ => exact execLeaseRenewOwner_keep hT _ hs
  | leaseRenewSession _ => exact execLeaseRenewSession_keep hT _ hs
  | doorbell _ _ _ _ _ => exact execDoorbell_keep hT _ _ _ _ _ hs
  | keepalive _ _ _ => exact execKeepalive_keep hT _ _ _ hs
  | feQ0DbLo _ _ => exact execFeQ0DbLo_keep hT _ _ hs
  | feQ0DbHi _ _ => exact execFeQ0DbHi_keep hT _ _ hs
  | ringReadLands _ _ => exact execRingReadLands_keep hT _ _ hs
  | staleBackoffExpire _ => exact execStaleBackoffExpire_keep hT _ hs
  | queueTimeout _ _ => exact execQueueTimeout_keep hT _ _ hs
  | dmaReadLands _ _ => exact execDmaReadLands_keep hT _ _ hs
  | dmaPieceIssue _ => exact execDmaPieceIssue_keep hT _ hs
  | faultWaitRewalk _ => exact execFaultWaitRewalk_keep hT _ hs
  | faultWaitExpire _ => exact execFaultWaitExpire_keep hT _ hs
  | xlSyncDone _ => exact execXlSyncDone_keep hT _ hs
  | window1Zeroed _ _ => exact execWindow1Zeroed_keep hT _ _ hs
  | inputSegmentLands _ _ => exact execInputSegmentLands_keep hT _ _ hs
  | cnop _ _ => exact execCnop_keep hT _ _ hs
  | loop _ _ _ _ _ => exact execLoop_keep hT _ _ _ _ _ hs
  | br _ _ _ => exact execBr_keep hT _ _ _ hs
  | brc _ _ _ _ _ _ => exact execBrc_keep hT _ _ _ _ _ _ hs
  | wait _ _ _ _ _ => exact execWait_keep hT _ _ _ _ _ hs
  | addi _ _ _ _ _ => exact execAddi_keep hT _ _ _ _ _ hs
  | lui _ _ _ _ => exact execLui_keep hT _ _ _ _ hs
  | alu _ _ _ _ _ _ => exact execAlu_keep hT _ _ _ _ _ _ hs
  | ldx _ _ _ _ _ => exact execLdx_keep hT _ _ _ _ _ hs
  | stx _ _ _ _ _ => exact execStx_keep hT _ _ _ _ _ hs
  | trap _ _ _ => exact execTrap_keep hT _ _ _ hs
  | endLaunch _ _ => exact execEndLaunch_keep hT _ _ hs
  | mnop _ => exact execMnop_keep hT _ hs
  | copy _ _ _ _ => exact execCopy_keep hT _ _ _ _ hs
  | fill _ _ _ => exact execFill_keep hT _ _ _ hs
  | ldw _ _ _ => exact execLdw_keep hT _ _ _ hs
  | stw _ _ _ => exact execStw_keep hT _ _ _ hs
  | gissue _ _ _ _ _ _ => exact execGissue_keep hT _ _ _ _ _ _ hs
  | grel _ _ _ _ => exact execGrel_keep hT _ _ _ _ hs
  | allgather _ _ _ => exact execAllgather_keep hT _ _ _ hs
  | dcollPut _ _ _ => exact execDcollPut_keep hT _ _ _ hs
  | dcollGet _ _ _ => exact execDcollGet_keep hT _ _ _ hs
  | barrier _ _ _ => exact execBarrier_keep hT _ _ _ hs
  | output _ _ _ _ _ => exact execOutput_keep hT _ _ _ _ _ hs
  | anop _ => exact execAnop_keep hT _ hs
  | mma _ _ _ _ _ _ => exact execMma_keep hT _ _ _ _ _ _ hs
  | aclr _ _ => exact execAclr_keep hT _ _ hs
  | vnop _ => exact execVnop_keep hT _ hs
  | vew _ _ _ _ _ _ _ => exact execVew_keep hT _ _ _ _ _ _ _ hs
  | vscan _ _ _ _ _ _ _ => exact execVscan_keep hT _ _ _ _ _ _ _ hs
  | vred _ _ _ _ _ _ _ => exact execVred_keep hT _ _ _ _ _ _ _ hs
  | sliceDone _ _ _ _ => exact execSliceDone_keep hT _ _ _ _ hs
  | collectiveDone _ _ => exact execCollectiveDone_keep hT _ _ hs
  | outputRangeRead _ => exact execOutputRangeRead_keep hT _ hs
  | issueQueueFree _ => exact execIssueQueueFree_keep hT _ hs
  | yieldPoint _ => exact execYieldPoint_keep hT _ hs
  | endRequest _ => exact execEndRequest_keep hT _ hs
  | launchEnd _ => exact execLaunchEnd_keep hT _ hs
  | completionPost _ _ => exact execCompletionPost_keep hT _ _ hs
  | programAccept _ _ => exact execProgramAccept_keep hT _ _ hs
  | programBody _ _ _ => exact execProgramBody_keep hT _ _ _ hs
  | rowReadReturn _ _ _ => exact execRowReadReturn_keep hT _ _ _ hs
  | partialSlice _ _ _ _ _ _ _ _ => exact execPartialSlice_keep hT _ _ _ _ _ _ _ _ hs
  | tileRelease _ _ _ => exact execTileRelease_keep hT _ _ _ hs
  | dependenceRelease _ _ => exact execDependenceRelease_keep hT _ _ hs
  | contextDrained _ _ => exact execContextDrained_keep hT _ _ hs
  | decayPeriodEnd _ => exact execDecayPeriodEnd_keep hT _ hs
  | migrationFlip _ _ => exact execMigrationFlip_keep hT _ _ hs
  | epochGraceExpire _ => exact execEpochGraceExpire_keep hT _ hs
  | asideFree _ _ => exact execAsideFree_keep hT _ _ hs
  | tableCommitStep _ _ => exact execTableCommitStep_keep hT _ _ hs
  | updateCommitPoint _ _ => exact execUpdateCommitPoint_keep hT _ _ hs
  | updatePublish _ _ => exact execUpdatePublish_keep hT _ _ hs
  | recoveringClear _ => exact execRecoveringClear_keep hT _ hs
  | fmRequest _ _ wide _ _ _ _ => exact execFmRequest_keep hT _ _ wide _ _ _ _ hs
  | runIssue _ _ => exact execRunIssue_keep hT _ _ hs
  | readDataReturn _ _ _ _ => exact execReadDataReturn_keep hT _ _ _ _ hs
  | refresh _ _ => exact execRefresh_keep hT _ _ hs
  | refreshRateRead _ _ => exact execRefreshRateRead_keep hT _ _ hs
  | maintenanceSlot _ _ _ => exact execMaintenanceSlot_keep hT _ _ _ hs
  | scrub _ _ _ _ => exact execScrub_keep hT _ _ _ _ hs
  | fillDone _ => exact execFillDone_keep hT _ hs
  | retrainStep _ _ _ _ _ _ => exact execRetrainStep_keep hT _ _ _ _ _ _ hs
  | unitResetRequest _ _ _ => exact execUnitResetRequest_keep hT _ _ _ hs
  | quiet _ _ => exact execQuiet_keep hT _ _ hs
  | unitResetDone _ => exact execUnitResetDone_keep hT _ hs
  | errorReport _ => exact execErrorReport_keep hT _ hs
  | residueMismatch _ _ _ => exact execResidueMismatch_keep hT _ _ _ hs
  | replay _ => exact execReplay_keep hT _ hs
  | faultRecordClose _ => exact execFaultRecordClose_keep hT _ hs
  | configRdmaAccess _ _ _ _ _ _ _ => exact execConfigRdmaAccess_keep hT _ _ _ _ _ _ _ hs
  | peerWindowAccess _ _ _ _ _ _ => exact execPeerWindowAccess_keep hT _ _ _ _ _ _ hs
  | sendReceived _ => exact execSendReceived_keep hT _ hs
  | atomicReceived _ => exact execAtomicReceived_keep hT _ hs
  | claim _ => exact execClaim_keep hT _ hs
  | neighbourDiscovery _ _ _ => exact execNeighbourDiscovery_keep hT _ _ _ hs
  | pauseFrame _ => exact execPauseFrame_keep hT _ hs
  | ptpMessage _ _ _ _ => exact execPtpMessage_keep hT _ _ _ _ hs
  | ceMarkedPacket _ => exact execCeMarkedPacket_keep hT _ hs
  | cnpReceived _ => exact execCnpReceived_keep hT _ hs
  | rateIncrease _ => exact execRateIncrease_keep hT _ hs
  | pfcXoff _ _ => exact execPfcXoff_keep hT _ _ hs
  | pfcXon _ _ => exact execPfcXon_keep hT _ _ hs
  | pfcStuck _ => exact execPfcStuck_keep hT _ hs
  | ackReceived _ _ => exact execAckReceived_keep hT _ _ hs
  | ackTimeout _ _ => exact execAckTimeout_keep hT _ _ hs
  | nakReceived _ _ => exact execNakReceived_keep hT _ _ hs
  | macLinkChange _ _ => exact execMacLinkChange_keep hT _ _ hs
  | sessionLeaseExpire _ => exact execSessionLeaseExpire_keep hT _ hs
  | npLeaseRenew _ _ => exact execNpLeaseRenew_keep hT _ _ hs
  | npSesOpen _ _ => exact execNpSesOpen_keep hT _ _ hs
  | npSesClose _ _ => exact execNpSesClose_keep hT _ _ hs
  | npQpEnable _ _ => exact execNpQpEnable_keep hT _ _ hs
  | npQpReset _ _ => exact execNpQpReset_keep hT _ _ hs
  | stepBack _ _ => exact execStepBack_keep hT _ _ hs
  | npPortMode _ _ _ => exact execNpPortMode_keep hT _ _ _ hs
  | feQEnable _ _ => exact execFeQEnable_keep hT _ _ hs
  | feQKey0 _ _ => exact execFeQKey0_keep hT _ _ hs
  | xlTblWin _ _ _ => exact execXlTblWin_keep hT _ _ _ hs
  | xlFqCons _ _ => exact execXlFqCons_keep hT _ _ hs
  | igFlogCons _ _ => exact execIgFlogCons_keep hT _ _ hs
  | igUrst _ _ => exact execIgUrst_keep hT _ _ hs
  | pcRstCtlWhole _ _ => exact execPcRstCtlWhole_keep hT _ _ hs
  | pcWorldMap _ _ => exact execPcWorldMap_keep hT _ _ hs
  | pcOwnerKey _ _ _ => exact execPcOwnerKey_keep hT _ _ _ hs
  | pcDbgSubmit _ _ => exact execPcDbgSubmit_keep hT _ _ hs
  | pcFlashErase _ _ => exact execPcFlashErase_keep hT _ _ hs
  | pcFlashProgram _ _ => exact execPcFlashProgram_keep hT _ _ hs
  | pcFlashRead _ _ => exact execPcFlashRead_keep hT _ _ hs
  | flashOpDone _ _ => exact execFlashOpDone_keep hT _ _ hs
  | replanRequest _ _ => exact execReplanRequest_keep hT _ _ hs
  | dlPartId _ _ => exact execDlPartId_keep hT _ _ hs
  | dlLinkRetrain _ _ => exact execDlLinkRetrain_keep hT _ _ hs
  | dissolve _ _ => exact execDissolve_keep hT _ _ hs
  | gxPolicyCtl _ _ _ => exact execGxPolicyCtl_keep hT _ _ _ hs
  | gxPopThresh _ _ _ => exact execGxPopThresh_keep hT _ _ _ hs
  | fmPartRate _ _ _ => exact execFmPartRate_keep hT _ _ _ hs
  | fmEccInj _ _ _ => exact execFmEccInj_keep hT _ _ _ hs
  | maResInj _ _ _ => exact execMaResInj_keep hT _ _ _ hs
  | veQsClear _ _ _ => exact execVeQsClear_keep hT _ _ _ hs
  | ruConvClear _ _ _ => exact execRuConvClear_keep hT _ _ _ hs
  | scratchWindowAccess _ _ _ _ _ => exact execScratchWindowAccess_keep hT _ _ _ _ _ hs
  | lowHalfRead _ _ => exact execLowHalfRead_keep hT _ _ hs
  | registerWrite _ _ _ => exact execRegisterWrite_keep hT _ _ _ hs
  | flitReceive _ _ _ _ _ => exact execFlitReceive_keep hT _ _ _ _ _ hs
  | droveNak _ _ => exact execDroveNak_keep hT _ _ hs
  | flitAckTimeout _ => exact execFlitAckTimeout_keep hT _ hs
  | linkTrainingDone _ _ _ => exact execLinkTrainingDone_keep hT _ _ _ hs
  | linkTrainingFail _ => exact execLinkTrainingFail_keep hT _ hs
  | linkLossOfLock _ => exact execLinkLossOfLock_keep hT _ hs
  | pinReq _ _ _ => exact execPinReq_keep hT _ _ _ hs
  | pin _ _ => exact execPin_keep hT _ _ hs
  | record _ _ _ => exact execRecord_keep hT _ _ _ hs
  | keyRecordTimeout _ => exact execKeyRecordTimeout_keep hT _ hs
  | release _ _ => exact execRelease_keep hT _ _ hs
  | ready _ _ _ => exact execReady_keep hT _ _ _ hs
  | go _ _ => exact execGo_keep hT _ _ hs
  | cancel _ _ => exact execCancel_keep hT _ _ hs
  | barrierTimeout _ => exact execBarrierTimeout_keep hT _ hs
  | clear _ _ _ => exact execClear_keep hT _ _ _ hs
  | slice _ _ _ _ _ _ => exact execSlice_keep hT _ _ _ _ _ _ hs
  | put _ _ _ _ _ => exact execPut_keep hT _ _ _ _ _ hs
  | getReq _ _ _ _ _ => exact execGetReq_keep hT _ _ _ _ _ hs
  | getData _ _ _ => exact execGetData_keep hT _ _ _ hs
  | deny _ _ => exact execDeny_keep hT _ _ hs
  | abandon _ => exact execAbandon_keep hT _ hs
  | collectiveTimeout _ _ => exact execCollectiveTimeout_keep hT _ _ hs
  | hb _ _ _ _ => exact execHb_keep hT _ _ _ _ hs
  | partnerSilent _ => exact execPartnerSilent_keep hT _ hs
  | stream _ _ _ _ _ _ => exact execStream_keep hT _ _ _ _ _ _ hs
  | prepared _ => exact execPrepared_keep hT _ hs
  | commit _ => exact execCommit_keep hT _ hs
  | discard _ => exact execDiscard_keep hT _ hs
  | root _ _ _ => exact execRoot_keep hT _ _ _ hs
  | bulk _ _ _ => exact execBulk_keep hT _ _ _ hs
  | pwrgoodFall _ _ _ => exact execPwrgoodFall_keep hT _ _ _ hs
  | resetNAssert _ _ _ => exact execResetNAssert_keep hT _ _ _ hs
  | foldPllLoss _ => exact execFoldPllLoss_keep hT _ hs
  | ethReferenceLoss _ => exact execEthReferenceLoss_keep hT _ hs
  | romSelf _ => exact execRomSelf_keep hT _ hs
  | identity _ _ _ => exact execIdentity_keep hT _ _ _ hs
  | imageSpi _ => exact execImageSpi_keep hT _ hs
  | fallbackDatagram _ => exact execFallbackDatagram_keep hT _ hs
  | fallbackSpiRetry _ => exact execFallbackSpiRetry_keep hT _ hs
  | fwStart _ _ _ => exact execFwStart_keep hT _ _ _ hs
  | folds _ _ => exact execFolds_keep hT _ _ hs
  | memory _ _ _ _ => exact execMemory_keep hT _ _ _ _ hs
  | thermAlertN _ => exact execThermAlertN_keep hT _ hs
  | forceThrottleN _ => exact execForceThrottleN_keep hT _ hs
  | pairSyncIn _ => exact execPairSyncIn_keep hT _ hs
  | minimumGapEnd _ => exact execMinimumGapEnd_keep hT _ hs
  | stuckTimeout _ => exact execStuckTimeout_keep hT _ hs
  | reArm _ => exact execReArm_keep hT _ hs
  | trstN _ => exact execTrstN_keep hT _ hs
  | sidebandWrite _ => exact execSidebandWrite_keep hT _ hs
  | sidebandRead _ => exact execSidebandRead_keep hT _ hs
  | entdaa _ => exact execEntdaa_keep hT _ hs
  | tokenLoad _ => exact execTokenLoad_keep hT _ hs
  | samplePreload _ => exact execSamplePreload_keep hT _ hs
  | debugAccess _ _ _ => exact execDebugAccess_keep hT _ _ _ hs
  | monitorRead _ => exact execMonitorRead_keep hT _ hs
  | replan _ _ _ _ _ _ _ _ => exact execReplan_keep hT _ _ _ _ _ _ _ _ hs
  | thermalLoop _ => exact execThermalLoop_keep hT _ hs
  | powerLoop _ _ _ => exact execPowerLoop_keep hT _ _ _ hs
  | avsRetry _ => exact execAvsRetry_keep hT _ hs
  | telemetryRefresh _ _ => exact execTelemetryRefresh_keep hT _ _ hs
  | graphCheckDone _ _ _ _ => exact execGraphCheckDone_keep hT _ _ _ _ hs
  | pairMsg _ => exact execPairMsg_keep hT _ hs
  | ucieModuleDown _ _ _ => exact execUcieModuleDown_keep hT _ _ _ hs
  | linkEnable _ _ => exact execLinkEnable_keep hT _ _ hs
  | sessionWindowRead _ rkey va _ => exact execSessionWindowRead_keep hT _ rkey va _ hs
  | launchAdmission => exact execLaunchAdmission_keep hT hs
  | lookupAdmission => exact execLookupAdmission_keep hT hs
  | ptpSyncLoss => exact execPtpSyncLoss_keep hT hs
  | ownerLeaseExpire => exact execOwnerLeaseExpire_keep hT hs
  | hbSend => exact execHbSend_keep hT hs
  | pairSyncToggle => exact execPairSyncToggle_keep hT hs
  | pwrgoodRise => exact execPwrgoodRise_keep hT hs
  | resetNRelease => exact execResetNRelease_keep hT hs
  | rootPllLock => exact execRootPllLock_keep hT hs
  | rootPllLoss => exact execRootPllLoss_keep hT hs
  | droveReferenceLoss => exact execDroveReferenceLoss_keep hT hs
  | bootWatchdog => exact execBootWatchdog_keep hT hs
  | thermtrip => exact execThermtrip_keep hT hs
  | sbSclStuck => exact execSbSclStuck_keep hT hs
  | idcode => exact execIdcode_keep hT hs
  | bypass => exact execBypass_keep hT hs
  | extest => exact execExtest_keep hT hs
  | replanPeriod => exact execReplanPeriod_keep hT hs
  | pairAnswerTimeout => exact execPairAnswerTimeout_keep hT hs
  | containmentDone => exact execContainmentDone_keep hT hs
  | rootPllLockTimeout => exact execRootPllLockTimeout_keep hT hs

/-- Settles O55: from a sound state `Keep (touches c)` holds after command `c`, and its frame is the statement. -/
theorem framesKept : Obligations.FramesKept := by
  intro s t c p hcanon howner hexec hp
  have hkeep : Keep (touches c) s t :=
    exec_keep c (within_self _) (keep_self _ s hcanon howner) t hexec
  exact hkeep.frame p hp

end Sys2Proof.Machine

namespace Sys2Proof.Machine

/-! ## Pieces that issue, are walked again and fault (R322, R329, R330) -/

theorem exec_dmaPieceIssue {s : State} {x : Nat} {t : Xfer} (hfound : xfer s x = some t)
    (hturn : mayIssue s t = true) : exec (.dmaPieceIssue x) s = .next (nextPiece s t false) := by
  show execDmaPieceIssue x s = _
  simp only [execDmaPieceIssue, hfound, if_pos hturn]

theorem exec_faultWaitRewalk {s : State} {x : Nat} {t : Xfer} (hfound : xfer s x = some t)
    (hheld : t.held.isSome = true) (hway : t.kind = .peer ∨ wayFree s t true = true) :
    exec (.faultWaitRewalk x) s = .next (nextPiece s t true) := by
  show execFaultWaitRewalk x s = _
  simp only [execFaultWaitRewalk, hfound]
  rw [if_pos ⟨hheld, hway⟩]

theorem exec_faultWaitExpire_command {s : State} {x : Nat} {t : Xfer} {h : Byte} (hfound : xfer s x = some t)
    (hheld : t.held = some h) (hkind : t.kind ≠ .peer) :
    exec (.faultWaitExpire x) s = .next (xlatFault s t (h.toNat % 16) (h.toNat / 16)) := by
  show execFaultWaitExpire x s = _
  simp only [execFaultWaitExpire, hfound, hheld, if_neg hkind]

theorem exec_faultWaitExpire_peer {s : State} {x : Nat} {t : Xfer} {h : Byte} (hfound : xfer s x = some t)
    (hheld : t.held = some h) (hkind : t.kind = .peer) :
    exec (.faultWaitExpire x) s = .next (nakAccess (dropXfer (fqWrite (cnt s aXlCntFault)
      { status := stXlatFault.toNat, kind := 1, cause := h.toNat % 16, level := h.toNat / 16, source := xSource t
        cid := t.cid.toNat, secure := false, addr := t.addr.toNat, who := (t.pieces.head?.map (·.toNat)).getD 0 }) x)
      ((t.pieces.head?.map (·.toNat)).getD 0) t.psn) := by
  show execFaultWaitExpire x s = _
  simp only [execFaultWaitExpire, hfound, hheld, if_pos hkind]

/-! ## READs that land (R268, R322, R407) -/

/-- The data of transfer `x` may land now: it is a READ of a command or of its input segments with pieces out, and the
MACs that carry them are up. -/
structure ReadLands (s : State) (x : Nat) (t : Xfer) : Prop where
  found : xfer s x = some t
  read : t.read = true
  out : t.pieces ≠ []
  up : piecesUp s t = true
  notRing : t.kind ≠ .ring
  notPeer : t.kind ≠ .peer

theorem ReadLands.notKept {s : State} {x : Nat} {t : Xfer} (h : ReadLands s x t) :
    ¬(!t.read ∨ t.pieces.isEmpty ∨ t.kind = .ring ∨ t.kind = .peer ∨ !piecesUp s t) := by
  simp [h.read, h.out, h.up, h.notRing, h.notPeer]

theorem exec_dmaReadLands_partial {s : State} {x : Nat} {t : Xfer} (h : ReadLands s x t) (data : Bytes)
    (hleft : t.left ≠ 0) :
    exec (.dmaReadLands x data) s = .next (updXfer (readAnswered s t) x (fun t' => { t' with
      data := mergeData (t.addr.toNat - t.data.length) t.pieces t.data data
      pieces := t'.pieces.map (fun _ => localPiece) })) := by
  show execDmaReadLands x data s = _
  simp only [execDmaReadLands, h.found]
  rw [if_neg h.notKept, if_pos hleft]

theorem exec_dmaReadLands_segment {s : State} {x k : Nat} {t : Xfer} {r : Half} (h : ReadLands s x t)
    (data : Bytes) (hleft : t.left = 0) (hkind : t.kind = .segment r k) :
    exec (.dmaReadLands x data) s = .next (updXfer (readAnswered s t) x (fun t' => { t' with
      data := mergeData (t.addr.toNat - t.data.length) t.pieces t.data data, pieces := [] })) := by
  show execDmaReadLands x data s = _
  simp only [execDmaReadLands, h.found]
  rw [if_neg h.notKept, if_neg (not_not_intro hleft), hkind]

theorem exec_dmaReadLands_poisoned {s : State} {x : Nat} {t : Xfer} (h : ReadLands s x t) (data : Bytes)
    (hleft : t.left = 0) (hseg : ∀ r k, t.kind ≠ .segment r k) (hmarks : t.marks ≠ []) :
    exec (.dmaReadLands x data) s = .next (abortCmd (dropXfer (readAnswered s t) x) t.q.toNat t.n stPoison) := by
  show execDmaReadLands x data s = _
  simp only [execDmaReadLands, h.found]
  rw [if_neg h.notKept, if_neg (not_not_intro hleft), if_pos (by simpa using hmarks)]

theorem exec_dmaReadLands_command {s : State} {x : Nat} {t : Xfer} (h : ReadLands s x t) (data : Bytes)
    (hleft : t.left = 0) (hseg : ∀ r k, t.kind ≠ .segment r k) (hbody : ∀ i, t.kind ≠ .body i) (hmarks : t.marks = []) :
    exec (.dmaReadLands x data) s = .next (giveCmd (dropXfer (readAnswered s t) x) t.q t.n t.kind
      (mergeData (t.addr.toNat - t.data.length) t.pieces t.data data)) := by
  show execDmaReadLands x data s = _
  simp only [execDmaReadLands, h.found]
  rw [if_neg h.notKept, if_neg (not_not_intro hleft), if_neg (by simp [hmarks])]
  split
  · next hkind _ => exact absurd hkind (hbody _)
  · rfl

/-- Settles O23: each row finds its transfer or its command as its clause says, and takes the branch of that case. -/
theorem transfersComplete : Obligations.TransfersComplete := by
  refine ⟨?issued, ?rewalked, ?expired, ?peerExpired, ?landed, ?poisoned, ?segmentLanded, ?partLanded, ?posted⟩
  case issued => exact fun s x t hfound hturn => exec_dmaPieceIssue hfound hturn
  case rewalked => exact fun s x t hfound hheld hway => exec_faultWaitRewalk hfound hheld hway
  case expired => exact fun s x t h hfound hheld hkind => exec_faultWaitExpire_command hfound hheld hkind
  case peerExpired =>
    intro s x i t h hfound hheld hkind hi
    rw [hi]
    exact exec_faultWaitExpire_peer hfound hheld hkind
  case landed =>
    intro s x t data hfound hread hleft hout hup hring hpeer hseg hbody hmarks
    exact exec_dmaReadLands_command ⟨hfound, hread, hout, hup, hring, hpeer⟩ data hleft hseg hbody hmarks
  case poisoned =>
    intro s x t data hfound hread hleft hout hup hring hpeer hseg hmarks
    exact exec_dmaReadLands_poisoned ⟨hfound, hread, hout, hup, hring, hpeer⟩ data hleft hseg hmarks
  case segmentLanded =>
    intro s x k h t data hfound hread hleft hout hup hkind
    exact exec_dmaReadLands_segment ⟨hfound, hread, hout, hup, by simp [hkind], by simp [hkind]⟩ data hleft hkind
  case partLanded =>
    intro s x t data hfound hread hleft hout hup hring hpeer
    exact exec_dmaReadLands_partial ⟨hfound, hread, hout, hup, hring, hpeer⟩ data hleft
  case posted =>
    intro s q n c hfirst hentry hresults hqueue
    have hpost : ¬(c.n ≠ n ∨ !resultsDone s c ∨ (queue s q.toNat).st = .disabled) := by
      simp [hentry, hresults, hqueue]
    refine ⟨_, _, _, _, rfl, rfl, rfl, rfl, ?_⟩
    show execCompletionPost q n s = _
    simp only [execCompletionPost, hfirst]
    exact congrArg _ (if_neg hpost)

end Sys2Proof.Machine

namespace Sys2Proof.Machine

/-! ## Registers with an effect of their own (R43, R47, R152, R323, R332, R336) -/

theorem secureOnly_of_secure (s : State) {a : Acc} (block inst addr : Nat) (g : State → State) (h : a.secure = true) :
    secureOnly s a block inst addr g = g s := if_pos h

theorem wrQsCtl_clear {s : State} {c : Nat} {v : Word} (hfree : coreHeld s c = false) (hclear : bit v.toNat 1 = true) :
    wrQsCtl s c v =
      clearRegs (rset s (coreReg c aVeQsCtl) 0 (v.toNat % 2)) (coreReg c aVeQsSseLo) (coreReg c aVeCntMisalign) := by
  simp [wrQsCtl, hfree, hclear]

/-- RULE is taken only while the fold holds no trained image. -/
theorem wrConvCtl_clear {s : State} {f : Nat} {v : Word} (huntrained : holdsTrained s f = false)
    (hclear : bit v.toNat 2 = true) :
    wrConvCtl s f v = clearRegs (rset s (foldReg f aRuConvCtl) 0 (v.toNat % 2 + 2 * bits v.toNat 1 1))
      (foldReg f aRuConvSseLo) (foldReg f aRuConvNonfinite) := by
  simp [wrConvCtl, huntrained, hclear]

/-- An even word of the table window is an entry's low half: it is held for its requester. -/
theorem wrTblWin_low {s : State} {a : Acc} {word : Nat} (v : Word) (hsec : a.secure = true) (hlow : word % 2 = 0) :
    wrTblWin s a word v = { s with xl := { s.xl with
      lowHalf := mset none s.xl.lowHalf (whoKey a.who (512 * selIx s a.who aXlTblSel + word / 2)) (some v) } } :=
  (secureOnly_of_secure s _ _ _ _ hsec).trans (if_pos hlow)

/-- An odd word of the table window is an entry's high half: with the low half held it is committed. -/
theorem wrTblWin_high {s : State} {a : Acc} {word e : Nat} {low : Word} (v : Word) (hsec : a.secure = true)
    (hhigh : word % 2 = 1) (he : e = 512 * selIx s a.who aXlTblSel + word / 2)
    (hheld : mget none s.xl.lowHalf (whoKey a.who e) = some low) :
    wrTblWin s a word v = { s with xl := { s.xl with
      lowHalf := mset none s.xl.lowHalf (whoKey a.who e) none
      store := mset 0 s.xl.store e (BitVec.ofNat 64 (low.toNat + 2 ^ 32 * v.toNat)) } } := by
  subst he
  have hodd : ¬word % 2 = 0 := by omega
  simp only [wrTblWin, secureOnly_of_secure s _ _ _ _ hsec, if_neg hodd, hheld]

theorem next_acc1 {s t : State} {a : Acc} {g : State → State} (hacc : mayAccess s a = true) (hg : g s = t) :
    (.next (acc1 s a g) : Out) = .next t := by
  rw [acc1_of_mayAccess g hacc, hg]

/-- Settles O50: each register's write is made, since the access may come, and takes the branch that its clause names. -/
theorem actionRegistersComplete : Obligations.ActionRegistersComplete := by
  refine ⟨?policy, ?threshold, ?vector, ?convert, ?lowHalf, ?highHalf, ?consumed⟩
  case policy => exact fun s a f v hacc => next_acc1 hacc rfl
  case threshold => exact fun s a f v hacc => next_acc1 hacc rfl
  case vector => exact fun s a c v hacc hfree hclear => next_acc1 hacc (wrQsCtl_clear hfree hclear)
  case convert => exact fun s a f v hacc huntrained hclear => next_acc1 hacc (wrConvCtl_clear huntrained hclear)
  case lowHalf => exact fun s a word v hacc hsec hlow => next_acc1 hacc (wrTblWin_low v hsec hlow)
  case highHalf =>
    exact fun s a word v low e hacc hsec hhigh he hheld => next_acc1 hacc (wrTblWin_high v hsec hhigh he hheld)
  case consumed => exact fun s a v hacc hsec => next_acc1 hacc (secureOnly_of_secure s _ _ _ _ hsec)

end Sys2Proof.Machine

namespace Sys2Proof.Machine

/-! ## Events of a gather unit that its conditions let through (R43, R45, R55, R65, R90 to R92) -/

theorem exec_tileRelease {s : State} {f : Fin 8} {h : Half} {tile : Word} (hlive : (req s h).isSome = true) :
    exec (.tileRelease f h tile) s = .next (goOnReq (updFold s f (fun x =>
      settleReq (updRel x h (fun r => { r with tile := max r.tile tile.toNat })) h)) f h) :=
  congrArg Host.Outcome.next (if_neg (by simp [← Option.isSome_iff_ne_none, hlive]))

theorem exec_dependenceRelease {s : State} {f : Fin 8} {h : Half} (hlive : (req s h).isSome = true) :
    exec (.dependenceRelease f h) s = .next (goOnReq (updFold s f (fun x =>
      settleReq (updRel x h (fun r => { r with deps := r.deps + 1 })) h)) f h) :=
  congrArg Host.Outcome.next (if_neg (by simp [← Option.isSome_iff_ne_none, hlive]))

theorem exec_contextDrained {s : State} {f : Fin 8} {ctx : Byte} (hdraining : (ctxAt (fold s f) ctx.toNat).st = .draining) :
    exec (.contextDrained f ctx) s = .next (cnt (setFold s f { setCtx (fold s f) ctx.toNat {} with
      progs := (fold s f).progs.filter (fun p => p.ctx ≠ ctx.toNat) }) (foldReg f aGxCntDrained)) :=
  congrArg Host.Outcome.next (if_neg (not_not_intro hdraining))

theorem exec_migrationFlip {s : State} {f : Fin 8} {way : Nat} (hmig : (dirAt (fold s f) way).m = true)
    (hmay : mayFm s f 15 = true) : exec (.migrationFlip f way) s = .next (flipMig s f way) :=
  congrArg Host.Outcome.next (if_pos (by rw [hmig, hmay]; rfl))

/-- Settles O14: each event's condition holds, so it takes the branch in which it happens. -/
theorem gatherEventsComplete : Obligations.GatherEventsComplete := by
  refine ⟨?tile, ?dependence, ?drained, ?decay, ?flip, ?aside⟩
  case tile => exact fun s f h tile hlive => exec_tileRelease hlive
  case dependence => exact fun s f h hlive => exec_dependenceRelease hlive
  case drained => exact fun s f ctx hdraining => exec_contextDrained hdraining
  case decay => exact fun s f hperiod => congrArg Host.Outcome.next (if_neg hperiod)
  case flip => exact fun s f way hmig hmay => exec_migrationFlip hmig hmay
  case aside => exact fun s f tid hmay => congrArg Host.Outcome.next (if_pos hmay)

end Sys2Proof.Machine

namespace Sys2Proof.Machine

/-! ## The row of a ring command that goes on (R252, R253, R263, R271) -/

/-- A command that is dispatched now takes the first part of its row, its entry counted. -/
theorem ownGo_dispatched {s : State} {op q : Nat} {n : Word} {c : Cmd} {mine : Cmd → Bool}
    {first go : State → Cmd → State} (h : Dispatched s q n op c) (hmine : mine c = true) :
    ownGo op q n mine first go s = first (cnt s aFeCntEntries) c := by
  obtain ⟨hcmd, hop, hphase, hgo, hblock⟩ := h
  simp only [ownGo, hcmd, hphase]
  rw [if_neg (by simp [hop, hmine]), if_neg (by simp [hgo]), if_neg (by simp [hblock])]

theorem ownGo_landed {s : State} {op q : Nat} {n : Word} {c : Cmd} {mine : Cmd → Bool}
    {first go : State → Cmd → State} (h : LandedNow s q n op c) (hmine : mine c = true) :
    ownGo op q n mine first go s = go s c := by
  obtain ⟨hcmd, hop, hphase⟩ := h
  simp only [ownGo, hcmd, hphase]
  exact if_neg (by simp [hop, hmine])

/-! ## TABLE_LOAD, TABLE_COMMIT and TABLE_EXPORT (R31, R60, R62, R63) -/

theorem loadFirst_full {s : State} {c : Cmd} (hok : loadOk c = true) (hfull : cF c 16 1 = 0) (hfirst : cF c 20 4 = 0) :
    loadFirst s c = fetchSrc (arrive s c) c .desc (cF c 40 8) 64 := by
  simp [loadFirst, hok, hfull, hfirst]

theorem loadFirst_rows {s : State} {c : Cmd} (hok : loadOk c = true) (hrows : cF c 16 1 = 1) :
    loadFirst s c = setPhase (arrive s c) c .landed := by
  simp [loadFirst, hok, hrows]

/-- A first FULL load whose checks pass and whose folds' roll-over units run starts its image and reads its rows. -/
theorem fullGo_first {s : State} {c : Cmd} (hdata : c.data = []) (hturn : blockedBy s c = false)
    (hfirst : cF c 20 4 = 0) (hpass : fullFail s c (cF c 18 2 % 4096) (c.bodies.headD []) = 0)
    (hsrc : srcOk c (cF c 32 8) (cF c 24 4 * dPslot (c.bodies.headD [])) = true)
    (hrun : ∀ f ∈ dFolds (c.bodies.headD []), ruHeld s f = false) :
    fullGo s c = loadSrc (startImage s c (cF c 18 2 % 4096) (c.bodies.headD [])) c (c.bodies.headD []) := by
  have hnone : (dFolds (c.bodies.headD [])).any (ruHeld s) = false := by simpa using hrun
  simp only [fullGo, hdata, hturn, hpass, hsrc, hnone]
  simp [hfirst]

theorem commitFirst_of_ok {s : State} {c : Cmd} (hok : commitOk c = true) :
    commitFirst s c = setPhase (arrive s c) c .unit := by
  simp [commitFirst, hok]

/-- A waiting TABLE_COMMIT whose turn has come is judged as its kind is (R62, R63). -/
theorem exec_tableCommitStep {s : State} {q : BitVec 10} {n : Word} {c : Cmd} (hcmd : cmd s q.toNat n = some c)
    (hop : cOp c = 5) (hphase : c.phase = .unit) (hturn : blockedBy s c = false) :
    exec (.tableCommitStep q n) s = .next (if cDrop c then dropJudge s c else commitJudge s c) := by
  show execTableCommitStep q n s = _
  simp only [execTableCommitStep, hcmd]
  rw [if_neg (by simp [hop, hphase, hturn])]

theorem exportGo_judged {s : State} {c : Cmd} (hphase : c.phase = .landed) (hturn : blockedBy s c = false) :
    exportGo s c = exportJudge s c := by
  simp [exportGo, hphase, hturn]

/-- Settles O9: the commands take the first part of their row when dispatched and the part that goes on when landed, and
the checks that the clause names choose the branch. -/
theorem tableCommandsComplete : Obligations.TableCommandsComplete := by
  refine ⟨?fullArrives, ?fullLoads, ?rowsArrive, ?commitArrives, ?dropArrives, ?committed, ?dropped, ?exportArrives,
    ?exported⟩
  case fullArrives =>
    intro s q n c h hfull hok hfirst
    exact congrArg Host.Outcome.next
      ((ownGo_dispatched h (by simp [hfull])).trans (loadFirst_full hok hfull hfirst))
  case fullLoads =>
    intro s q n c h hfull hdata hturn hfirst hpass hsrc hrun
    exact congrArg Host.Outcome.next
      ((ownGo_landed h (by simp [hfull])).trans (fullGo_first hdata hturn hfirst hpass hsrc hrun))
  case rowsArrive =>
    intro s q n c h hrows hok
    exact congrArg Host.Outcome.next ((ownGo_dispatched h (by simp [hrows])).trans (loadFirst_rows hok hrows))
  case commitArrives =>
    intro s q n c h hkind hok
    exact congrArg Host.Outcome.next ((ownGo_dispatched h (by simp [hkind])).trans (commitFirst_of_ok hok))
  case dropArrives =>
    intro s q n c h hkind hok
    exact congrArg Host.Outcome.next ((ownGo_dispatched h hkind).trans (commitFirst_of_ok hok))
  case committed =>
    intro s q n c hcmd hop hphase hturn hkind
    rw [exec_tableCommitStep hcmd hop hphase hturn, hkind]
    rfl
  case dropped =>
    intro s q n c hcmd hop hphase hturn hkind
    rw [exec_tableCommitStep hcmd hop hphase hturn, hkind]
    rfl
  case exportArrives =>
    intro s q n c h hok
    exact congrArg Host.Outcome.next ((ownGo_dispatched h rfl).trans (by simp [hok, arrived]))
  case exported =>
    intro s q n c h hturn
    exact congrArg Host.Outcome.next ((ownGo_landed h rfl).trans (exportGo_judged h.2.2 hturn))

end Sys2Proof.Machine

namespace Sys2Proof.Machine

/-! ## UPDATE from its batch to its publication (R108, R122, R123) -/

theorem exec_update_dispatched {s : State} {q : BitVec 10} {n : Word} {c : Cmd} (h : Dispatched s q.toNat n 3 c)
    (hres : zero c 16 4 = true) (hres' : zero c 32 32 = true) (hlen : 32 ≤ cF c 20 4)
    (hsrc : srcOk c (cF c 24 8) (cF c 20 4) = true) :
    exec (.update q n) s = .next (fetchSrc (arrived s c) c .batch (cF c 24 8) (cF c 20 4)) := by
  have hlong : ¬cF c 20 4 < 32 := by omega
  refine congrArg Host.Outcome.next ((ownGo_dispatched h rfl).trans ?_)
  simp [hres, hres', hlong, hsrc, arrived]

theorem exec_update_landed {s : State} {q : BitVec 10} {n : Word} {c : Cmd} (h : LandedNow s q.toNat n 3 c)
    (hlen : fld c.data 4 4 = cF c 20 4) : exec (.update q n) s = .next (updateGo s c) :=
  congrArg Host.Outcome.next ((ownGo_landed h rfl).trans (if_neg (by simp [hlen])))

/-- An UPDATE is at its unit and has not reached its commit point. -/
structure Uncommitted (s : State) (q : Nat) (n : Word) (c : Cmd) : Prop where
  found : cmd s q n = some c
  op : cOp c = 3
  phase : c.phase = .unit
  before : c.committed = false

theorem Uncommitted.notKept {s : State} {q : Nat} {n : Word} {c : Cmd} (h : Uncommitted s q n c) :
    ¬(cOp c ≠ 3 ∨ c.phase ≠ .unit ∨ c.committed = true) := by
  simp [h.op, h.phase, h.before]

/-- Without a pair in SYNC the commit point waits for no mirror. -/
theorem exec_updateCommitPoint_alone {s : State} {q : BitVec 10} {n : Word} {c : Cmd}
    (h : Uncommitted s q.toNat n c) (hpair : s.dl.pair ≠ .sync) :
    exec (.updateCommitPoint q n) s = .next (updCmd s q.toNat n (fun c => { c with committed := true })) := by
  have hlone : (s.dl.pair == .sync && !s.dl.silent) = false := by simp [hpair]
  show execUpdateCommitPoint q n s = _
  simp only [execUpdateCommitPoint, h.found, hlone]
  rw [if_neg h.notKept]
  rfl

/-- On a live pair whose mirror has prepared the UPDATE the commit point is told to it. -/
theorem exec_updateCommitPoint_mirrored {s : State} {q : BitVec 10} {n : Word} {c : Cmd} {m : MirrorRec}
    (h : Uncommitted s q.toNat n c) (hpair : s.dl.pair = .sync) (hheard : s.dl.silent = false)
    (hmirror : s.dl.mirrored.find? (fun m => m.upd == c.handle) = some m) (hprepared : m.prepared = true) :
    exec (.updateCommitPoint q n) s =
      .next (cnt (droveSend (updCmd s q.toNat n (fun c => { c with committed := true })) s.dl.partner.toNat
        (.commit c.handle)) aDlCntStream) := by
  have hlive : (s.dl.pair == .sync && !s.dl.silent) = true := by simp [hpair, hheard]
  show execUpdateCommitPoint q n s = _
  simp only [execUpdateCommitPoint, h.found, hlive, hmirror, hprepared]
  rw [if_neg h.notKept]
  rfl

/-- An UPDATE of no group's table is published without a barrier. -/
theorem exec_updatePublish_ungrouped {s : State} {q : BitVec 10} {n : Word} {c : Cmd}
    (hcmd : cmd s q.toNat n = some c) (hop : cOp c = 3) (hphase : c.phase = .running)
    (hgroup : groupSet s (c.opens.map (fun e => e.1.toNat)) = []) :
    exec (.updatePublish q n) s = .next (publishUpd s c (fun _ => [])) := by
  show execUpdatePublish q n s = _
  simp only [execUpdatePublish, hcmd]
  rw [if_neg (by simp [hop, hphase]), if_pos (.inl (by rw [hgroup]; rfl))]

/-! ## A roll-over unit that left reset (R124, R125) -/

/-- With nothing past its commit point the unit has nothing to finish and serves again. -/
theorem exec_recoveringClear_idle {s : State} {f : Fin 8} (hrec : recovering s f = true)
    (hcmds : ∀ c ∈ s.fe.cmds, cOp c = 3 → c.committed = false) (hstreams : ∀ t ∈ s.dl.streams, t.committed = false) :
    exec (.recoveringClear f) s =
      .next (rsetF (updUnit s (2 + f) (fun u => { u with st := .service })) (foldReg f aRuStat) 0 0 0 0) := by
  have hnoCmd : s.fe.cmds.filter (fun c => cOp c == 3 && c.committed && c.phase == .unit) = [] := by
    refine List.filter_eq_nil_iff.2 fun c hc => ?_
    by_cases hop : cOp c = 3
    · simp [hcmds c hc hop]
    · simp [hop]
  have hnoStream : s.dl.streams.filter (·.committed) = [] :=
    List.filter_eq_nil_iff.2 fun t ht => by simp [hstreams t ht]
  show execRecoveringClear f s = _
  simp only [execRecoveringClear, hnoCmd, List.foldl_nil, hnoStream]
  rw [if_neg (by simp [hrec])]
  rfl

/-! ## The end of an epoch's grace (R57) -/

/-- The state with no request pinned to epoch `num` of table `tid`, as the end of the epoch's grace leaves the requests. -/
def withoutPins (s : State) (tid : BitVec 12) (num : Word) : State :=
  { s with reqs := s.reqs.map (fun r => { r with pins := r.pins.filter (fun (i, n) => !(i == tid && n == num)) }) }

theorem not_mem_pins_withoutPins {s : State} {tid : BitVec 12} {num : Word} :
    ∀ r ∈ (withoutPins s tid num).reqs, (tid, num) ∉ r.pins := by
  intro r hr
  obtain ⟨r', -, rfl⟩ := List.mem_map.1 hr
  simp

/-- A retired epoch is gone from a state in which no request pins it. -/
theorem exec_epochGraceExpire_gone {s : State} {tid : BitVec 12} {p : Epoch} (hprev : (table s tid.toNat).prev = some p) :
    ∃ u, exec (.epochGraceExpire tid) s = .next (prevGone (withoutPins u tid p.num) tid.toNat) := by
  show ∃ u, execEpochGraceExpire tid s = .next (prevGone (withoutPins u tid p.num) tid.toNat)
  simp only [execEpochGraceExpire, hprev]
  exact ⟨_, rfl⟩

/-- Settles O10: each row finds its command, unit or epoch as its clause says and takes the branch of that case. -/
theorem updatesComplete : Obligations.UpdatesComplete := by
  refine ⟨?dispatched, ?landed, ?alone, ?mirrored, ?published, ?recovered, ?retired⟩
  case dispatched => exact fun s q n c h hres hres' hlen hsrc => exec_update_dispatched h hres hres' hlen hsrc
  case landed => exact fun s q n c h hlen => exec_update_landed h hlen
  case alone =>
    exact fun s q n c hcmd hop hphase hbefore hpair => exec_updateCommitPoint_alone ⟨hcmd, hop, hphase, hbefore⟩ hpair
  case mirrored =>
    intro s q n c m hcmd hop hphase hbefore hpair hheard hmirror hprepared
    exact exec_updateCommitPoint_mirrored ⟨hcmd, hop, hphase, hbefore⟩ hpair hheard hmirror hprepared
  case published => exact fun s q n c hcmd hop hphase hgroup => exec_updatePublish_ungrouped hcmd hop hphase hgroup
  case recovered => exact fun s f hrec hcmds hstreams => exec_recoveringClear_idle hrec hcmds hstreams
  case retired =>
    intro s tid p hprev
    obtain ⟨u, hu⟩ := exec_epochGraceExpire_gone hprev
    exact ⟨_, _, hu, rfl, not_mem_pins_withoutPins⟩

end Sys2Proof.Machine

namespace Sys2Proof.Machine

/-! ## Pins of a group's requests (R377, R387) -/

/-- The form in which the model asks whether an epoch or a table is missing: none is where each is there. -/
theorem not_any_isNone {α β : Type} {l : List α} {g : α → Option β} (h : ∀ x ∈ l, (g x).isSome = true) :
    ¬l.any (fun x => (g x).isNone) = true := by
  rw [List.any_eq_true]
  rintro ⟨x, hx, hgone⟩
  rw [← Option.not_isSome, h x hx] at hgone
  exact Bool.false_ne_true hgone

theorem exec_pinReq_led {s : State} (src : BitVec 12) (key : Word) (tids : List (BitVec 12))
    (hgroup : s.dl.dissolved = false) (hon : grpOn s = true) (hlead : leader s = myId s) :
    exec (.pinReq src key tids) s = .next (if pinRoom s key then servePins (answerPin s src key tids)
      else { s with dl := { s.dl with waitingPins := s.dl.waitingPins ++ [(src, key, tids)] } }) := by
  show execPinReq src key tids s = _
  simp only [execPinReq]
  rw [if_neg (by simp [hgroup, hon]), if_neg (not_not_intro hlead)]
  cases pinRoom s key <;> rfl

theorem exec_pinReq_noGroup {s : State} (src : BitVec 12) (key : Word) (tids : List (BitVec 12))
    (h : s.dl.dissolved = true ∨ grpOn s = false) :
    exec (.pinReq src key tids) s = .next (droveSend s src.toNat (.abandon key)) :=
  congrArg Host.Outcome.next (if_pos (by simpa using h))

/-- The command that asked for the pins of a key waits for them at admission. -/
def AsksPin (s : State) (key : Word) (c : Cmd) : Prop :=
  s.fe.cmds.find? (fun c => c.asked == some key && c.phase == .admission && c.gotPin.isNone) = some c

theorem exec_pin_asked {s : State} {key : Word} {c : Cmd} (h : AsksPin s key c) (epochs : List (BitVec 12 × Word)) :
    exec (.pin key epochs) s = .next (if epochs.any (fun e => (epochOf (table s e.1.toNat) e.2).isNone) then
        finish (cnt s aDlCntPin) c.q.toNat c.n stRetired
      else updCmd (epochs.foldl (fun s e => pinNum s e.1.toNat e.2) (cnt s aDlCntPin)) c.q.toNat c.n
        (fun c => { c with gotPin := some epochs })) := by
  have hfound : (cnt s aDlCntPin).fe.cmds.find?
      (fun c => c.asked == some key && c.phase == .admission && c.gotPin.isNone) = some c := h
  show execPin key epochs s = _
  simp only [execPin, hfound]
  rfl

/-! ## Key records (R377, R378, R388) -/

/-- The leader's mirror keeps a record just while a member has not arrived. -/
theorem exec_record (s : State) (key : Word) (epochs : List (BitVec 12 × Word)) (arrivals : List (BitVec 12)) :
    exec (.record key epochs arrivals) s = .next { s with dl := { s.dl with
      records := if (List.range (grpN s)).all (fun i =>
          arrivals.any (fun p => p.toNat == memPrim s i || p.toNat == memMirr s i)) then
        s.dl.records.filter (fun x => x.key ≠ key)
      else s.dl.records.filter (fun x => x.key ≠ key) ++ [{ key := key, epochs := epochs, arrivals := arrivals }] } } :=
  rfl

theorem exec_keyRecordTimeout_open {s u : State} {key : Word} {r : KeyRec}
    (hfound : s.dl.records.find? (fun r => r.key == key) = some r)
    (hu : u = { s with dl := { s.dl with records := s.dl.records.filter (fun x => x.key ≠ key) } }) :
    exec (.keyRecordTimeout key) s = .next (servePins
      (if isLeader s then (r.epochs.filter (fun t => !named u t)).foldl sendRelease u else u)) := by
  subst hu
  show execKeyRecordTimeout key s = _
  simp only [execKeyRecordTimeout, hfound]
  rfl

/-! ## ABANDON (R383) -/

theorem exec_abandon_waiting {s : State} {key : Word} {c : Cmd}
    (hfound : s.fe.cmds.find? (fun c => c.asked == some key && c.phase == .admission) = some c) :
    exec (.abandon key) s = .next (finish s c.q.toNat c.n stPeer) := by
  show execAbandon key s = _
  simp only [execAbandon, hfound]

theorem exec_abandon_running {s u : State} {key : Word} {r : Req}
    (hwaits : s.fe.cmds.find? (fun c => c.asked == some key && c.phase == .admission) = none)
    (hruns : s.reqs.find? (fun r => r.key == some key && !r.done) = some r)
    (hu : u = { s with dl := { s.dl with colls := s.dl.colls.filter (fun c => c.req ≠ r.handle) } }) :
    exec (.abandon key) s = .next (wantEnd (excOf (cntN u aDlCntCollFail 0
      (s.dl.colls.filter (fun c => c.req == r.handle && !c.risen)).length) r.handle stPeer) r.handle stPeer) := by
  subst hu
  show execAbandon key s = _
  simp only [execAbandon, hwaits, hruns]

/-- Settles O25: a PIN_REQ by the leader's room for its record, a PIN by its epochs, a RECORD by the members that have
arrived, and the others by the record, command or launch that they find. -/
theorem groupRequestsComplete : Obligations.GroupRequestsComplete := by
  refine ⟨?answered, ?waits, ?turnedAway, ?pinned, ?retired, ?kept, ?full, ?timedOut, ?released, ?ended, ?wanted⟩
  case answered =>
    intro s src key tids hgroup hon hlead hroom
    rw [exec_pinReq_led src key tids hgroup hon hlead, if_pos hroom]
  case waits =>
    intro s src key tids hgroup hon hlead hroom
    rw [exec_pinReq_led src key tids hgroup hon hlead, if_neg (by simp [hroom])]
  case turnedAway => exact fun s src key tids h => exec_pinReq_noGroup src key tids h
  case pinned =>
    intro s key epochs c hasks hreadable
    rw [exec_pin_asked hasks, if_neg (not_any_isNone hreadable)]
  case retired =>
    intro s key epochs c hasks hretired
    obtain ⟨e, he, hgone⟩ := hretired
    rw [exec_pin_asked hasks, if_pos (List.any_eq_true.2 ⟨e, he, by rw [hgone]; rfl⟩)]
  case kept =>
    intro s key epochs arrivals hmissing
    rw [exec_record, if_neg (by simpa using hmissing)]
  case full =>
    intro s key epochs arrivals hall
    rw [exec_record, if_pos (by simpa using hall)]
  case timedOut => exact fun s u key r hfound hu => exec_keyRecordTimeout_open hfound hu
  case released => exact fun s tid epoch => rfl
  case ended => exact fun s key c hfound => exec_abandon_waiting hfound
  case wanted => exact fun s u key r hwaits hruns hu => exec_abandon_running hwaits hruns hu

end Sys2Proof.Machine

namespace Sys2Proof.Machine

/-! ## A request that was changed -/

theorem find?_updFirst {α : Type} {p : α → Bool} {g : α → α} (hg : ∀ x, p x = true → p (g x) = true) (l : List α) :
    (updFirst p g l).find? p = (l.find? p).map g := by
  induction l with
  | nil => rfl
  | cons x l ih =>
    by_cases hx : p x = true
    · simp [updFirst, hx, hg x hx]
    · simp [updFirst, hx, ih]

/-- A change that keeps the handle is seen where the request is found again. -/
theorem req_updReq_same {s : State} {h : Half} {r : Req} {g : Req → Req} (hr : req s h = some r)
    (hg : ∀ x, (g x).handle = x.handle) : req (updReq s h g) h = some (g r) := by
  have hfind := find?_updFirst (p := fun x : Req => x.handle == h) (g := g) (fun x hx => by simpa [hg x] using hx) s.reqs
  exact hfind.trans (by rw [show s.reqs.find? (fun x => x.handle == h) = some r from hr]; rfl)

/-- The counter of a launch that holds its slot rises (R176). -/
theorem bumpOf_holds {s : State} {h : Half} {r : Req} (hr : req s h = some r) (hlive : r.done = false)
    (hslot : (cslot (core s r.core) r.slot).req = h) (n : Nat) : bumpOf s h n = bumpCtr s r.core r.slot n := by
  simp only [bumpOf, hr]
  exact if_neg (by simp [hlive, hslot])

/-! ## Window 1 (R231, R268) -/

theorem exec_window1Zeroed {s : State} {c : Core2} {slot : Fin 4} (hused : (cslot (core s c) slot).st ≠ .free)
    (hfirst : (cslot (core s c) slot).zeroed = false) :
    exec (.window1Zeroed c slot) s = .next (wakeCore (updCore s c (fun x =>
      cupdSlot (match slotWin (cslot (core s c) slot) 1 with | some w => scrZero x w.base w.size | none => x) slot
        (fun v => { v with zeroed := true }))) c) :=
  congrArg Host.Outcome.next (if_neg (by simp [hused, hfirst]))

/-- Segment `seg` of launch `h`, with its data in transfer `t`, is the next to land in window `w`: the launch holds its
zeroed slot, and no segment that goes first is still on its way (R231, R268). -/
structure SegmentTurn (s : State) (h : Half) (seg : Fin 16) (r : Req) (t : Xfer) (ver : Version) (w : Win) : Prop where
  launch : req s h = some r
  found : s.fe.xfers.find? (fun t => t.kind == .segment h seg.val) = some t
  whole : t.left = 0
  answered : t.pieces = []
  first : ∀ u ∈ s.fe.xfers, (∃ k, u.kind = .segment h k) → if isInline t.addr.toNat = true then
    isInline u.addr.toNat = true → t.id ≤ u.id else isInline u.addr.toNat = false ∧ t.id ≤ u.id
  slot : (cslot (core s r.core) r.slot).req = h
  zeroed : (cslot (core s r.core) r.slot).zeroed = true
  used : (cslot (core s r.core) r.slot).st ≠ .free
  going : (cslot (core s r.core) r.slot).st ≠ .ending
  version : verOf s r.gid r.ver = some ver
  window : slotWin (cslot (core s r.core) r.slot) 1 = some w

theorem exec_inputSegmentLands {s u : State} {h : Half} {seg : Fin 16} {r : Req} {t : Xfer} {ver : Version} {w : Win}
    {old new : Nat} (hturn : SegmentTurn s h seg r t ver w) (hold : old = prefixOf r.landed r.segs.length)
    (hnew : new = prefixOf (seg.val :: r.landed) r.segs.length)
    (hu : u = updCore s r.core (fun x => extPut x (w.base + gSegOff ver.image seg) { data := t.data, marks := t.marks })) :
    exec (.inputSegmentLands h seg) s = .next ((List.range (new - old)).foldl (fun s _ => bumpCtr s r.core r.slot 0)
      (updReq (dropXfer u t.id) h (fun x => { x with
        landed := seg.val :: r.landed
        inMsg := x.inMsg ++ ((List.range new).filter (fun i => old ≤ i)).flatMap (fun i =>
          toLE 4 (segBytes u r i (seg.val, t.data)).length ++ segBytes u r i (seg.val, t.data)) }))) := by
  subst hu hold hnew
  show execInputSegmentLands h seg s = _
  simp only [execInputSegmentLands, hturn.launch, hturn.found]
  refine congrArg Host.Outcome.next ((if_neg ?here).trans ((if_neg ?first).trans ?lands))
  case here => simp [hturn.whole, hturn.answered, hturn.slot, hturn.zeroed, hturn.used, hturn.going]
  case first =>
    rw [Bool.not_eq_true, List.any_eq_false]
    intro u hu
    cases hkind : u.kind with
    | segment g k =>
      by_cases hg : g = h
      · have hfirst := hturn.first u hu ⟨k, hg ▸ hkind⟩
        by_cases hinl : isInline t.addr.toNat = true
        · simpa [hinl, hg] using hfirst
        · simpa [hinl, hg] using hfirst
      · simp [hg]
    | _ => simp
  case lands => simp only [hturn.version, hturn.window]

/-! ## The issue queue (R57, R171 to R175, R424) -/

/-- The entry at the head of core `c`'s issue queue taken; `es` are those behind it. -/
def headTaken (s : State) (c : Core2) (es : List IssueE) : State :=
  updCore s c (fun x => { x with issueQ := es, heldFull := false })

/-- A program at the head is sent to its folds where no gather engine in reset holds it and its request's epochs are not
retired (R57, R424). -/
theorem exec_issueQueueFree_program {s : State} {c : Core2} {h : Half} {copies : List (Nat × Bytes)} {body : List Word}
    {ctr : BitVec 5} {es : List IssueE} (hq : (core s c).issueQ = .program h copies body ctr :: es)
    (hfree : ∀ e ∈ copies, gxHeld s e.1 = false) (hkept : ∀ r, req s h = some r → r.retired = false) :
    exec (.issueQueueFree c) s = .next (copies.foldl (fun s e => emit s (.program e.1 e.2 body))
      (updReq (headTaken s c es) h (fun r => { r with dueCtrs := r.dueCtrs ++ [ctr] }))) := by
  have hnone : ¬copies.any (fun e => gxHeld s e.1) = true := by simpa using hfree
  show execIssueQueueFree c s = _
  simp only [execIssueQueueFree, hq]
  refine congrArg Host.Outcome.next ((if_neg hnone).trans (if_neg ?_))
  rw [req_updCore]
  cases hr : req s h with
  | none => exact Bool.false_ne_true
  | some r => simp [hkept r hr]

theorem exec_issueQueueFree_retired {s : State} {c : Core2} {h : Half} {copies : List (Nat × Bytes)} {body : List Word}
    {ctr : BitVec 5} {es : List IssueE} {r : Req} (hq : (core s c).issueQ = .program h copies body ctr :: es)
    (hfree : ∀ e ∈ copies, gxHeld s e.1 = false) (hr : req s h = some r) (hretired : r.retired = true) :
    exec (.issueQueueFree c) s = .next (headTaken s c es) := by
  have hnone : ¬copies.any (fun e => gxHeld s e.1) = true := by simpa using hfree
  show execIssueQueueFree c s = _
  simp only [execIssueQueueFree, hq]
  refine congrArg Host.Outcome.next ((if_neg hnone).trans (if_pos ?_))
  rw [req_updCore, hr]
  exact hretired

theorem exec_issueQueueFree_rel {s : State} {c : Core2} {h : Half} {folds : Byte} {dep : Bool} {v : Word}
    {es : List IssueE} (hq : (core s c).issueQ = .rel h folds dep v :: es) :
    exec (.issueQueueFree c) s = .next ((bitsSet 8 folds.toNat).foldl (fun s f => emit s (.fold f
      (if dep then .dependenceRelease (BitVec.ofNat 3 f).toFin h else .tileRelease (BitVec.ofNat 3 f).toFin h v)))
      (headTaken s c es)) := by
  show execIssueQueueFree c s = _
  simp only [execIssueQueueFree, hq]
  rfl

theorem exec_issueQueueFree_coll {s : State} {c : Core2} {h idx : Half} {es : List IssueE}
    (hq : (core s c).issueQ = .coll h idx :: es) :
    exec (.issueQueueFree c) s = .next (startColl (headTaken s c es) h idx) := by
  show execIssueQueueFree c s = _
  simp only [execIssueQueueFree, hq]
  rfl

theorem exec_issueQueueFree_out {s : State} {c : Core2} {h : Half} {a lines seg : Nat} {ctr : BitVec 5}
    {es : List IssueE} (hq : (core s c).issueQ = .out h a lines seg ctr :: es) :
    exec (.issueQueueFree c) s = .next (updReq (headTaken s c es) h
      (fun r => { r with ranges := r.ranges ++ [(a, 128 * lines, seg, ctr)] })) := by
  show execIssueQueueFree c s = _
  simp only [execIssueQueueFree, hq]
  rfl

/-! ## Output ranges (R174, R269, R407) -/

/-- The oldest range of launch `h` lies in its segment `o`, and nothing keeps its results from being written. -/
structure RangeReads (s : State) (h : Half) (r : Req) (a n seg : Nat) (ctr : BitVec 5)
    (rest : List (Nat × Nat × Nat × BitVec 5)) (o : OutSeg) : Prop where
  launch : req s h = some r
  oldest : r.ranges = (a, n, seg, ctr) :: rest
  segment : r.outs[seg]? = some o
  fits : o.off + n ≤ o.cap.toNat
  unreported : r.reported = false
  unretired : r.retired = false
  live : r.done = false
  slot : (cslot (core s r.core) r.slot).req = h

/-- POISONED is noted on a launch whose range reads hard poison. -/
def poisonNoted (s : State) (h : Half) (r : Req) (a n : Nat) : State :=
  if (scrRead (core s r.core) a n).hard then markPoison s h else s

theorem req_poisonNoted {s : State} {h : Half} {r : Req} (hr : req s h = some r) (a n : Nat) :
    ∃ b, req (poisonNoted s h r a n) h = some { r with poisoned := b } := by
  unfold poisonNoted
  split
  · exact ⟨true, req_updReq_same hr fun _ => rfl⟩
  · exact ⟨r.poisoned, hr⟩

theorem core_poisonNoted (s : State) (h : Half) (r : Req) (a n k : Nat) :
    core (poisonNoted s h r a n) k = core s k := by
  unfold poisonNoted
  split <;> rfl

/-- A range read: its bytes join the output digest and its segment has moved on. -/
def rangeTaken (x : Core) (a n seg : Nat) (rest : List (Nat × Nat × Nat × BitVec 5)) (y : Req) : Req :=
  { y with
    ranges := rest, outMsg := y.outMsg ++ toLE 1 seg ++ toLE 4 n ++ rdN x.scratch a n
    outs := y.outs.zipIdx.map (fun e => if e.2 = seg then { e.1 with off := e.1.off + n } else e.1) }

/-- The oldest range of launch `r` read and its bytes on their way to segment `o`. -/
def rangeWritten (s : State) (h : Half) (r : Req) (a n seg : Nat) (rest : List (Nat × Nat × Nat × BitVec 5))
    (o : OutSeg) : State :=
  (newXfer (updReq (poisonNoted s h r a n) h (rangeTaken (core s r.core) a n seg rest)) (.result h seg) false r.q r.n
    (o.addr.toNat + o.off) n (rangeBytes (core s r.core) a n)).1

theorem req_rangeWritten {s : State} {h : Half} {r : Req} (hr : req s h = some r) (a n seg : Nat)
    (rest : List (Nat × Nat × Nat × BitVec 5)) (o : OutSeg) :
    ∃ b, req (rangeWritten s h r a n seg rest o) h =
      some (rangeTaken (core s r.core) a n seg rest { r with poisoned := b }) := by
  obtain ⟨b, hb⟩ := req_poisonNoted hr a n
  exact ⟨b, req_updReq_same hb fun _ => rfl⟩

theorem core_rangeWritten (s : State) (h : Half) (r : Req) (a n seg : Nat) (rest : List (Nat × Nat × Nat × BitVec 5))
    (o : OutSeg) (k : Nat) : core (rangeWritten s h r a n seg rest o) k = core s k :=
  core_poisonNoted s h r a n k

theorem exec_outputRangeRead {s : State} {h : Half} {r : Req} {a n seg : Nat} {ctr : BitVec 5}
    {rest : List (Nat × Nat × Nat × BitVec 5)} {o : OutSeg} (hread : RangeReads s h r a n seg ctr rest o) :
    exec (.outputRangeRead h) s = .next (bumpCtr (rangeWritten s h r a n seg rest o) r.core r.slot ctr.toNat) := by
  have hopen : ¬r.done = true := by simp [hread.live]
  have hroom : ¬o.cap.toNat < o.off + n := Nat.not_lt.2 hread.fits
  have hwrites : ¬(r.reported || r.retired) = true := by simp [hread.unreported, hread.unretired]
  have hmade : exec (.outputRangeRead h) s = .next (bumpOf (rangeWritten s h r a n seg rest o) h ctr.toNat) := by
    show execOutputRangeRead h s = _
    simp only [execOutputRangeRead, hread.launch, if_neg hopen, hread.oldest, hread.segment, Option.getD_some,
      if_neg hroom, if_neg hwrites]
    rfl
  obtain ⟨b, hreq⟩ := req_rangeWritten hread.launch a n seg rest o
  have hslot : (cslot (core (rangeWritten s h r a n seg rest o) r.core) r.slot).req = h := by
    rw [core_rangeWritten]
    exact hread.slot
  rw [hmade, bumpOf_holds hreq hread.live hslot]
  rfl

/-- Settles O21: a segment lands in its turn, the head of an issue queue is sent as its kind is, and a range is read for
the launch that holds its slot. -/
theorem launchEventsComplete : Obligations.LaunchEventsComplete := by
  refine ⟨?noWindow, ?window, ?landed, ?sent, ?dropped, ?released, ?collective, ?output, ?read⟩
  case noWindow =>
    intro s c slot hused hfirst hwin
    rw [exec_window1Zeroed hused hfirst, hwin]
  case window =>
    intro s c slot w hused hfirst hwin
    rw [exec_window1Zeroed hused hfirst, hwin]
  case landed =>
    intro s h seg r t ver w old new hr hfound hwhole hanswered hfirst hslot hzeroed hused hgoing hver hwin hold hnew
    exact ⟨_, rfl, exec_inputSegmentLands
      ⟨hr, hfound, hwhole, hanswered, hfirst, hslot, hzeroed, hused, hgoing, hver, hwin⟩ hold hnew rfl⟩
  case sent => exact fun s c h copies body ctr es hq hfree hkept => exec_issueQueueFree_program hq hfree hkept
  case dropped =>
    exact fun s c h copies body ctr es r hq hfree hr hretired => exec_issueQueueFree_retired hq hfree hr hretired
  case released => exact fun s c h folds dep v es hq => exec_issueQueueFree_rel hq
  case collective => exact fun s c h idx es hq => exec_issueQueueFree_coll hq
  case output => exact fun s c h a lines seg ctr es hq => exec_issueQueueFree_out hq
  case read =>
    intro s h r a n seg ctr rest o hr holdest hseg hfits hreported hretired hlive hslot
    exact ⟨_, exec_outputRangeRead ⟨hr, holdest, hseg, hfits, hreported, hretired, hlive, hslot⟩, rfl⟩

end Sys2Proof.Machine

namespace Sys2Proof.Machine

/-! ## Admission of a LAUNCH (R228 to R232) -/

/-- A LAUNCH of a current version stands at the admission head. -/
structure LaunchAtHead (s : State) (c : Cmd) (v : Version) : Prop where
  head : admHead s = some c
  op : cOp c = 1
  version : curVer s (cF c 16 2) = some v

/-- With its epochs readable and room on core `k` the LAUNCH is admitted there, if its contexts are free. -/
theorem exec_launchAdmission_room {s : State} {c : Cmd} {v : Version} {pins : List (BitVec 12 × Word)} {k slot base : Nat}
    (h : LaunchAtHead s c v) (hpass : launchFail s c v = none) (hgroup : groupTids s v.image = [])
    (hpins : launchPins s c v.image = some pins)
    (hreadable : ∀ p ∈ pins, (epochOf (table s p.1.toNat) p.2).isSome = true)
    (hchosen : chooseCore s ((mayRunOn s v (queue s c.q.toNat).world true).filter
      (fun k => (coreRoom s k (gBuf v.image)).isSome)) = some k)
    (hroom : coreRoom s k (gBuf v.image) = some (slot, base)) :
    exec .launchAdmission s = .next ((admitLaunch s c v pins k slot base).getD
      (updCmd s c.q.toNat c.n (fun c => { c with waited := true }))) := by
  have hlocal : ¬((!(groupTids s v.image).isEmpty) = true ∧ c.asked.isNone = true) := by simp [hgroup]
  show execLaunchAdmission s = _
  simp only [execLaunchAdmission, h.head, h.version, hpass, hpins]
  refine congrArg Host.Outcome.next ((if_neg (not_not_intro h.op)).trans ((if_neg hlocal).trans
    ((if_neg (not_any_isNone hreadable)).trans ?_)))
  simp only [hchosen, hroom]

theorem exec_launchAdmission_refused {s : State} {c : Cmd} {v : Version} {st : Status} (h : LaunchAtHead s c v)
    (hfail : launchFail s c v = some st) (hst : st ≠ stPoison) :
    exec .launchAdmission s = .next (reject s c st) := by
  show execLaunchAdmission s = _
  simp only [execLaunchAdmission, h.head, h.version, hfail]
  exact congrArg Host.Outcome.next ((if_neg (not_not_intro h.op)).trans (if_neg hst))

/-! ## Admission of a LOOKUP (R51, R230, R270) -/

/-- The epochs that a LOOKUP pins: the current ones of its tables. -/
def lookupPins (u : State) (c : Cmd) : List (BitVec 12 × Word) :=
  (lookupTids c).filterMap (fun t => (table u t).cur.map (fun e => (BitVec.ofNat 12 t, e.num)))

/-- The state in which a LOOKUP's epochs are pinned. -/
def lookupPinned (u : State) (c : Cmd) : State := (lookupPins u c).foldl (fun s p => pinNum s p.1.toNat p.2) u

/-- The request that the admission of a LOOKUP makes, under handle `h`, once its contexts are bound, which gives `u`. -/
def lookupReq (u : State) (c : Cmd) (h : Half) : Req :=
  { handle := h, q := c.q, n := c.n, kind := .lookup, cid := (queue u c.q.toNat).cid, world := (queue u c.q.toNat).world
    part := (queue u c.q.toNat).part, wantTally := cTally c, pins := lookupPins u c
    outs := [{ cap := BitVec.ofNat 32 (fld c.data 0 4), addr := BitVec.ofNat 64 (fld c.data 8 8) }]
    progs := (List.range (cF c 16 1)).map (kDesc c), admitAt := (lookupPinned u c).np.ns
    firstAt := some (lookupPinned u c).np.ns }

theorem exec_lookupAdmission_admitted {s u : State} {c : Cmd} {ctxs : List (Nat × Map (List Nat))}
    (hhead : admHead s = some c) (hop : cOp c = 2) (htables : ∀ t ∈ lookupTids c, (table s t).cur.isSome = true)
    (hpair : s.dl.pair = .none) (hprogs : ∀ p < cF c 16 1, lookupProgOk s c p = true)
    (hbound : bindEach (takeHandle s).2 c (takeHandle s).1
      (((List.range (cF c 16 1)).map (fun p => fld (kDesc c p) 0 1)).eraseDups) = some (u, ctxs)) :
    exec .lookupAdmission s = .next (sendPrograms
      (updCmd { lookupPinned u c with reqs := (lookupPinned u c).reqs ++ [lookupReq u c (takeHandle s).1] } c.q.toNat c.n
        (fun c => { c with phase := .running, handle := (takeHandle s).1 }))
      c (lookupReq u c (takeHandle s).1) ctxs) := by
  have hall : ¬(!((List.range (cF c 16 1)).all (lookupProgOk s c))) = true := by simpa using hprogs
  show execLookupAdmission s = _
  simp only [execLookupAdmission, hhead, hbound]
  exact congrArg Host.Outcome.next ((if_neg (not_not_intro hop)).trans
    ((if_neg (not_any_isNone htables)).trans ((if_neg fun h => h.1 hpair).trans (if_neg hall))))

/-! ## Replay (R405, R410) -/

/-- A launch waits for its replay: its command and its version are still there. -/
structure AwaitsReplay (s : State) (h : Half) (r : Req) (c : Cmd) (v : Version) : Prop where
  request : req s h = some r
  waits : r.replay = 1
  command : cmd s r.q.toNat r.n = some c
  version : verOf s r.gid r.ver = some v

/-- The core that a replay is to run on: the other one, where it may run and is enabled (R410). -/
def replayCore (s : State) (r : Req) (v : Version) : Nat :=
  if (replayCores s r v).contains (1 - r.firstCore) && rb s (coreReg (1 - r.firstCore) aSqCtl) 0 0 then 1 - r.firstCore
  else r.firstCore

/-- The request of a launch that is admitted again: its segments are still to land and its results to be made. -/
def replayReq (r : Req) (c : Cmd) (k slot : Nat) (ctxs : Map (List Nat)) : Req :=
  { r with
    core := k, slot := slot, ctxs := ctxs, replay := 2, reported := false, suspect := false, poisoned := false
    landed := [], inMsg := inStart r.scalars (lNseg c), outMsg := []
    outs := r.outs.map (fun o => { o with off := 0 }) }

theorem exec_replay_admitted {s u : State} {h : Half} {r : Req} {c : Cmd} {v : Version} {slot base : Nat}
    {ctxs : Map (List Nat)} (hwait : AwaitsReplay s h r c v)
    (hmay : (replayCores s r v).contains (replayCore s r v) = true)
    (hroom : coreRoom s (replayCore s r v) (gBuf v.image) = some (slot, base))
    (hbound : bindCtxs s h (r.ctxs.map (·.1)) (gCtxN v.image) = some (u, ctxs)) :
    exec (.replay h) s = .next (cnt (fillSlot
      (updCore (updReq u h (fun _ => replayReq r c (replayCore s r v) slot ctxs)) (replayCore s r v)
        (fun x => cupdSlot x slot (fun w => { w with
          win := mset none w.win 1 (some { base := base, size := gBuf v.image, wr := true }) })))
      c v (replayReq r c (replayCore s r v) slot ctxs)) aIgCntReplay) := by
  have hsome : ¬(replayCores s r v).isEmpty = true := by
    intro hnil
    rw [List.isEmpty_iff.1 hnil] at hmay
    exact Bool.false_ne_true hmay
  have hhere : ¬(!(replayCores s r v).contains (replayCore s r v)) = true := by
    rw [hmay]
    exact Bool.false_ne_true
  show execReplay h s = _
  simp only [execReplay, hwait.request, hwait.waits, hwait.command, hwait.version]
  refine congrArg Host.Outcome.next ((if_neg hsome).trans ((if_neg hhere).trans ?_))
  rw [← replayCore, hroom]
  simp only [hbound]
  rfl

theorem exec_replay_damaged {s : State} {h : Half} {r : Req} {c : Cmd} {v : Version} (hwait : AwaitsReplay s h r c v)
    (hnone : replayCores s r v = []) : exec (.replay h) s = .next (abortCmd s r.q.toNat r.n stPoison) := by
  show execReplay h s = _
  simp only [execReplay, hwait.request, hwait.waits, hwait.command, hwait.version, hnone]
  rfl

/-- Settles O8: what stands at the admission head, or waits for its replay, takes the branch of its clause; the admitted
LOOKUP's request and the replayed launch's are those that `lookupReq` and `replayReq` name. -/
theorem admissionsComplete : Obligations.AdmissionsComplete := by
  refine ⟨?launched, ?refused, ?lookup, ?replayed, ?damaged⟩
  case launched =>
    intro s t c v pins k slot base hhead hop hver hpass hgroup hpins hreadable hchosen hroom hadmitted
    rw [exec_launchAdmission_room ⟨hhead, hop, hver⟩ hpass hgroup hpins hreadable hchosen hroom, hadmitted]
    rfl
  case refused =>
    exact fun s c v st hhead hop hver hfail hst => exec_launchAdmission_refused ⟨hhead, hop, hver⟩ hfail hst
  case lookup =>
    intro s u c ctxs hhead hop htables hpair hprogs hbound
    exact ⟨_, lookupReq u c (takeHandle s).1, exec_lookupAdmission_admitted hhead hop htables hpair hprogs hbound,
      rfl, rfl, rfl, rfl, rfl, rfl, rfl⟩
  case replayed =>
    intro s u h r c v k slot base ctxs hr hwaits hcmd hver hmay hk hroom hbound
    change k = replayCore s r v at hk
    subst hk
    exact ⟨_, replayReq r c (replayCore s r v) slot ctxs,
      exec_replay_admitted ⟨hr, hwaits, hcmd, hver⟩ hmay hroom hbound, rfl, rfl, rfl, rfl, rfl, rfl, rfl, rfl, rfl⟩
  case damaged => exact fun s h r c v hr hwaits hcmd hver hnone => exec_replay_damaged ⟨hr, hwaits, hcmd, hver⟩ hnone

end Sys2Proof.Machine

namespace Sys2Proof.Machine

/-! ## Reads in service order (R93, R94) -/

theorem readsTo_step {s : State} {f p pos i n : Nat} {q : Prog} {bub : Bool} (hleft : isUnread s f p pos = true)
    (hnext : nextRead s f (fold s f).progs false = some (q, i, bub)) :
    readsTo (n + 1) s f p pos = readsTo n (takeRead s f q i bub) f p pos := by
  simp only [readsTo, hnext]
  exact if_neg (by simp [hleft])

theorem readsTo_made {s : State} {f p pos : Nat} (n : Nat) (hmade : isUnread s f p pos = false) :
    readsTo n s f p pos = s := by
  cases n with
  | zero => rfl
  | succ n => exact if_pos (by simp [hmade])

/-- The read that stands first is made; where it is the position's own, no other is. -/
theorem exec_rowReadReturn_own {s : State} {f : Fin 8} {p pos i : Nat} {q : Prog} {bub : Bool}
    (hleft : isUnread s f p pos = true) (hnext : nextRead s f (fold s f).progs false = some (q, i, bub))
    (hmade : isUnread (takeRead s f q i bub) f p pos = false) :
    exec (.rowReadReturn f p pos) s = .next (takeRead s f q i bub) :=
  congrArg Host.Outcome.next ((readsTo_step hleft hnext).trans (readsTo_made _ hmade))

/-- A read that goes before no older program's, of a live request on an image that it has pinned (R40, R319). -/
theorem takeRead_first {s : State} {f pos ep : Nat} {q : Prog} {im : Image} {img : Bool} {r : Req}
    (hpinned : pinnedIm s q.req (pTid q.desc) = some (im, img, ep)) (hr : req s q.req = some r) :
    takeRead s f q pos false = if ownerOk s im f r.cid r.world false then goOn (readRow s f q im img ep pos) f q.id
      else foldEnds s f q.req stRegionDenied := by
  simp only [takeRead, hpinned, hr, if_neg Bool.false_ne_true]
  cases ownerOk s im f r.cid r.world false <;> rfl

/-! ## Partial slices (R87, R426) -/

/-- Program `q` of the lead fold `f` may take the partial slice of a bag from fold `src`: its context lives and the slice
has not come before. -/
structure TakesPartial (s : State) (f src : Fin 8) (p bag : Nat) (gen : Byte) (q : Prog) : Prop where
  present : gen = (unit s (2 + src.val)).gen
  found : (fold s f).progs.find? (fun x => x.id == p) = some q
  live : (ctxAt (fold s f) q.ctx).st ≠ .draining
  first : ∀ t ∈ q.parts, ¬(t.bag = bag ∧ t.src = src.val)
  other : src ≠ f

theorem exec_partialSlice_taken {s : State} {f src : Fin 8} {p bag terms ep : Nat} {gen : Byte} {vals : List Word}
    {bad img : Bool} {q : Prog} {im : Image} {pt : Partial} (h : TakesPartial s f src p bag gen q)
    (hpinned : pinnedIm s q.req (pTid q.desc) = some (im, img, ep))
    (hpt : pt = { bag := bag, src := src.val, terms := terms, vals := if terms = 0 then none else some vals, bad := bad }) :
    exec (.partialSlice f p bag src gen terms vals bad) s = .next (goOn
      (if q.written.contains bag then updFold s f (fun x => updProg x p (fun _ => { q with parts := pt :: q.parts }))
       else finishBag (updFold s f (fun x => updProg x p (fun _ => { q with parts := pt :: q.parts }))) f
        { q with parts := pt :: q.parts } im bag) f p) := by
  subst hpt
  have htakes : ¬((ctxAt (fold s f) q.ctx).st = .draining ∨
      q.parts.any (fun t => t.bag == bag && t.src == src.val) = true ∨ src = f) := by
    simpa [h.live, h.other] using h.first
  show execPartialSlice f p bag src gen terms vals bad s = _
  simp only [execPartialSlice, h.found]
  refine congrArg Host.Outcome.next ((if_neg (not_not_intro h.present)).trans ((if_neg htakes).trans ?_))
  simp only [hpinned]

/-! ## Programs that are done (R96, R171, R270, R426) -/

theorem exec_sliceDone_launch {s : State} {f : Fin 8} {gen : Byte} {h : Half} {ctr : BitVec 5} {r : Req}
    (hgen : gen = (unit s (2 + f.val)).gen) (hr : req s h = some r) (hkind : r.kind ≠ .lookup)
    (hdue : r.dueCtrs.contains ctr = true) (hlive : r.done = false) (hslot : (cslot (core s r.core) r.slot).req = h) :
    exec (.sliceDone f gen h ctr) s =
      .next (bumpCtr (updReq s h (fun r => { r with dueCtrs := r.dueCtrs.erase ctr })) r.core r.slot ctr.toNat) := by
  have hnamed : ¬(!r.dueCtrs.contains ctr) = true := by
    rw [hdue]
    exact Bool.false_ne_true
  have hraised : req (updReq s h (fun r => { r with dueCtrs := r.dueCtrs.erase ctr })) h =
      some { r with dueCtrs := r.dueCtrs.erase ctr } := req_updReq_same hr fun _ => rfl
  show execSliceDone f gen h ctr s = _
  simp only [execSliceDone, hr]
  exact congrArg Host.Outcome.next ((if_neg (not_not_intro hgen)).trans ((if_neg hkind).trans ((if_neg hnamed).trans
    (bumpOf_holds hraised hlive hslot _))))

/-- A program of a running LOOKUP is done: the last one ends it. -/
theorem exec_sliceDone_lookup {s : State} {f : Fin 8} {gen : Byte} {h : Half} {ctr : BitVec 5} {r : Req} {c : Cmd}
    (hgen : gen = (unit s (2 + f.val)).gen) (hr : req s h = some r) (hkind : r.kind = .lookup)
    (hcmd : cmd s r.q.toNat r.n = some c) (hphase : c.phase = .running) (hleft : r.finished < r.progs.length) :
    exec (.sliceDone f gen h ctr) s = .next (if r.finished + 1 = r.progs.length then
        endLookup (updReq s h (fun _ => { r with finished := r.finished + 1 })) { r with finished := r.finished + 1 }
      else updReq s h (fun _ => { r with finished := r.finished + 1 })) := by
  have hruns : ¬(c.phase ≠ .running ∨ r.progs.length ≤ r.finished) := by
    rw [not_or]
    exact ⟨not_not_intro hphase, Nat.not_le.2 hleft⟩
  show execSliceDone f gen h ctr s = _
  simp only [execSliceDone, hr, hcmd]
  exact congrArg Host.Outcome.next ((if_neg (not_not_intro hgen)).trans ((if_pos hkind).trans (if_neg hruns)))

/-- Settles O13: the first read is taken as the owner's check says, a partial slice and a slice-done signal of the present
generation go to the program or request they name, and a stale one is counted. -/
theorem gatherResultsComplete : Obligations.GatherResultsComplete := by
  refine ⟨?goesFirst, ?read, ?denied, ?kept, ?staleSlice, ?launch, ?lookupGoesOn, ?lookupEnds, ?staleDone⟩
  case goesFirst =>
    intro s f p pos i n q bub hleft hnext hbound
    refine congrArg Host.Outcome.next ?_
    rw [hbound, readsTo_step hleft hnext]
  case read =>
    intro s f p pos i q im img ep r hleft hnext hpinned hr howner hmade
    have htake := (takeRead_first (f := f) (pos := i) hpinned hr).trans (if_pos howner)
    rw [← htake] at hmade ⊢
    exact exec_rowReadReturn_own hleft hnext hmade
  case denied =>
    intro s f p pos i q im img ep r hleft hnext hpinned hr howner hmade
    have htake := (takeRead_first (f := f) (pos := i) hpinned hr).trans (if_neg (by simp [howner]))
    rw [← htake] at hmade ⊢
    exact exec_rowReadReturn_own hleft hnext hmade
  case kept =>
    intro s f src p bag terms gen vals bad q im img ep pt hgen hfound hlive hfirst hother hpinned hpt
    exact exec_partialSlice_taken ⟨hgen, hfound, hlive, hfirst, hother⟩ hpinned hpt
  case staleSlice => exact fun s f src p bag terms gen vals bad hgen => congrArg Host.Outcome.next (if_pos hgen)
  case launch =>
    intro s f gen h ctr r hgen hr hkind hdue hlive hslot
    exact exec_sliceDone_launch hgen hr hkind hdue hlive hslot
  case lookupGoesOn =>
    intro s f gen h ctr r c hgen hr hkind hcmd hphase hmore
    rw [exec_sliceDone_lookup hgen hr hkind hcmd hphase (by omega), if_neg (by omega)]
  case lookupEnds =>
    intro s f gen h ctr r c hgen hr hkind hcmd hphase hlast
    rw [exec_sliceDone_lookup hgen hr hkind hcmd hphase (by omega), if_pos hlast]
  case staleDone => exact fun s f gen h ctr hgen => congrArg Host.Outcome.next (if_pos hgen)

end Sys2Proof.Machine

namespace Sys2Proof.Machine

/-! ## The order of FP32 values (R84) -/

/-- The pattern of +∞: the patterns of magnitudes below it are finite, those above it NaNs. -/
def infMag32 : Nat := 0x7F800000

/-- The magnitude with bit pattern `k`, in units of 2^-149; at `infMag32` a number above every finite magnitude. -/
def magUnits (k : Nat) : Nat :=
  if k / 2 ^ 23 = 0 then k % 2 ^ 23 else (2 ^ 23 + k % 2 ^ 23) * 2 ^ (k / 2 ^ 23 - 1)

/-- The value at place `o` of the order `ord32`, in units of 2^-149. -/
def ordUnits : Int → Int
  | .ofNat k => magUnits k
  | .negSucc k => -magUnits k

theorem fdec_of_finite {a : Nat} (h : a % 2 ^ 31 < infMag32) :
    ∃ m e, fdec F32 a = .fin (bit a 31) m e ∧ m * 2 ^ (e + 149).toNat = magUnits (a % 2 ^ 31) := by
  have hexp : bits a 30 23 = a % 2 ^ 31 / 2 ^ 23 := by unfold bits; omega
  have hfrac : a % 2 ^ 31 % 2 ^ 23 = a % 2 ^ 23 := by omega
  have hfinite : bits a 30 23 ≠ 2 ^ 8 - 1 := by unfold infMag32 at h; omega
  unfold magUnits
  rw [← hexp, hfrac]
  by_cases hsub : bits a 30 23 = 0
  · refine ⟨_, _, (if_neg hfinite).trans (if_pos hsub), ?_⟩
    rw [if_pos hsub]
    exact Nat.mul_one _
  · refine ⟨_, _, (if_neg hfinite).trans (if_neg hsub), ?_⟩
    have hpower : (-149 + (bits a 30 23 - 1 : Nat) + 149 : Int).toNat = bits a 30 23 - 1 := by omega
    rw [if_neg hsub, ← hpower]
    rfl

theorem fdec_of_infinite {a : Nat} (h : a % 2 ^ 31 = infMag32) : fdec F32 a = .inf (bit a 31) := by
  unfold infMag32 at h
  have hexp : bits a 30 23 = 2 ^ 8 - 1 := by unfold bits; omega
  have hfrac : a % 2 ^ 23 = 0 := by omega
  exact (if_pos hexp).trans (if_pos hfrac)

theorem fdec_of_aboveInfinite {a : Nat} (h : infMag32 < a % 2 ^ 31) : fdec F32 a = .nan := by
  unfold infMag32 at h
  have hexp : bits a 30 23 = 2 ^ 8 - 1 := by unfold bits; omega
  have hfrac : a % 2 ^ 23 ≠ 0 := by omega
  exact (if_pos hexp).trans (if_neg hfrac)

/-- A larger pattern is a larger magnitude: the next one is one unit in the last place above, within a binade and from
its last magnitude to the first of the next. -/
theorem magUnits_strictMono : StrictMono magUnits := by
  refine strictMono_nat_of_lt_succ fun k => ?_
  unfold magUnits
  by_cases hlast : k % 2 ^ 23 = 2 ^ 23 - 1
  · have hexp : (k + 1) / 2 ^ 23 = k / 2 ^ 23 + 1 := by omega
    have hfrac : (k + 1) % 2 ^ 23 = 0 := by omega
    rw [hexp, hfrac, hlast, if_neg (Nat.succ_ne_zero _)]
    split
    · next hsub => rw [hsub]; decide
    · next hnormal =>
      obtain ⟨n, hn⟩ := Nat.exists_eq_succ_of_ne_zero hnormal
      have hpos : 0 < 2 ^ n := Nat.two_pow_pos n
      simp only [hn, Nat.succ_eq_add_one, Nat.add_sub_cancel, pow_succ 2 n]
      omega
  · have hexp : (k + 1) / 2 ^ 23 = k / 2 ^ 23 := by omega
    have hfrac : (k + 1) % 2 ^ 23 = k % 2 ^ 23 + 1 := by omega
    rw [hexp, hfrac]
    split
    · exact Nat.lt_succ_self _
    · exact Nat.mul_lt_mul_of_pos_right (Nat.lt_succ_self _) (Nat.two_pow_pos _)

theorem magUnits_zero : magUnits 0 = 0 := rfl

/-- The order of the patterns is that of the values, but that the two zeros have one value. -/
theorem ordUnits_mono : Monotone ordUnits := by
  intro x y hxy
  cases x with
  | ofNat k =>
    cases y with
    | ofNat l => exact Int.ofNat_le.2 (magUnits_strictMono.monotone (Int.ofNat_le.1 hxy))
    | negSucc l => exact absurd hxy ((Int.negSucc_lt_zero l).trans_le (Int.natCast_nonneg k)).not_ge
  | negSucc k =>
    cases y with
    | ofNat l => exact (Int.neg_nonpos_of_nonneg (Int.natCast_nonneg _)).trans (Int.natCast_nonneg _)
    | negSucc l => exact Int.neg_le_neg (Int.ofNat_le.2 (magUnits_strictMono.monotone (by omega)))

/-- Two places of the order that have one value are one place or those of the two zeros. -/
theorem eq_or_zeros_of_ordUnits_eq {x y : Int} (h : ordUnits x = ordUnits y) :
    x = y ∨ (x = 0 ∨ x = -1) ∧ (y = 0 ∨ y = -1) := by
  have hzero : ∀ {k : Nat}, magUnits k = 0 → k = 0 := fun hk =>
    magUnits_strictMono.injective (hk.trans magUnits_zero.symm)
  cases x with
  | ofNat k =>
    cases y with
    | ofNat l => exact .inl (congrArg Int.ofNat (magUnits_strictMono.injective (Int.ofNat_inj.1 h)))
    | negSucc l =>
      change (magUnits k : Int) = -magUnits l at h
      have hk : k = 0 := hzero (by omega)
      have hl : l = 0 := hzero (by omega)
      exact .inr ⟨.inl (by rw [hk]; rfl), .inr (by rw [hl]; rfl)⟩
  | negSucc k =>
    cases y with
    | ofNat l =>
      change -(magUnits k : Int) = magUnits l at h
      have hk : k = 0 := hzero (by omega)
      have hl : l = 0 := hzero (by omega)
      exact .inr ⟨.inr (by rw [hk]; rfl), .inl (by rw [hl]; rfl)⟩
    | negSucc l =>
      exact .inl (congrArg Int.negSucc (magUnits_strictMono.injective (Int.ofNat_inj.1 (Int.neg_inj.1 h))))

theorem ordUnits_ord32 {a : Nat} (ha : a < 2 ^ 32) : ordUnits (ord32 a) = sint (bit a 31) (magUnits (a % 2 ^ 31)) := by
  by_cases hneg : 2 ^ 31 ≤ a
  · have hsign : bit a 31 = true := decide_eq_true (by omega)
    have hplace : ord32 a = .negSucc (a % 2 ^ 31) := by rw [ord32, if_pos hneg]; omega
    rw [hsign, hplace]
    rfl
  · have hsign : bit a 31 = false := decide_eq_false (by omega)
    have hplace : ord32 a = ((a % 2 ^ 31 : Nat) : Int) := by rw [ord32, if_neg hneg]; omega
    rw [hsign, hplace]
    rfl

theorem ord32_injective {a b : Nat} (ha : a < 2 ^ 32) (hb : b < 2 ^ 32) (h : ord32 a = ord32 b) : a = b := by
  unfold ord32 at h
  omega

/-- The two places of the zeros: 0 is that of +0, −1 that of −0. -/
theorem mag_zero_of_ord32 {a : Nat} (h : ord32 a = 0 ∨ ord32 a = -1) : a % 2 ^ 31 = 0 := by
  unfold ord32 at h
  omega

theorem finite_or_infinite_of_not_nan {a : Nat} (h : fdec F32 a ≠ .nan) :
    a % 2 ^ 31 < infMag32 ∨ a % 2 ^ 31 = infMag32 :=
  Nat.lt_or_eq_of_le (Nat.not_lt.1 fun habove => h (fdec_of_aboveInfinite habove))

theorem sint_between {m k : Nat} (h : m < k) (n : Bool) : sint true k < sint n m ∧ sint n m < sint false k := by
  cases n <;> simp only [sint, if_true, Bool.false_eq_true, if_false] <;> omega

/-! An infinity lies to the finite values, and to the other infinity, as a number `k` of units above them all does. -/

theorem below32_fin_inf {m k : Nat} {e : Int} (h : m * 2 ^ (e + 149).toNat < k) (n i : Bool) :
    below32 (.fin n m e) (.inf i) ↔ sint n (m * 2 ^ (e + 149).toNat) < sint i k := by
  cases i with
  | false => exact iff_of_true trivial (sint_between h n).2
  | true => exact iff_of_false id (sint_between h n).1.not_gt

theorem below32_inf_fin {m k : Nat} {e : Int} (h : m * 2 ^ (e + 149).toNat < k) (n i : Bool) :
    below32 (.inf i) (.fin n m e) ↔ sint i k < sint n (m * 2 ^ (e + 149).toNat) := by
  cases i with
  | false => exact iff_of_false id (sint_between h n).2.not_gt
  | true => exact iff_of_true trivial (sint_between h n).1

theorem below32_inf_inf {k : Nat} (h : 0 < k) (i j : Bool) :
    below32 (.inf i) (.inf j) ↔ sint i k < sint j k := by
  have hsign : sint true k < sint false k := (sint_between h false).1.trans (sint_between h false).2
  cases i <;> cases j
  · exact iff_of_false id (lt_irrefl _)
  · exact iff_of_false id hsign.not_gt
  · exact iff_of_true trivial hsign
  · exact iff_of_false id (lt_irrefl _)

/-- One value lies below another where its number of units does, an infinity counted as its pattern is. -/
theorem below32_iff {a b : Nat} (ha : a < 2 ^ 32) (hb : b < 2 ^ 32) (hna : fdec F32 a ≠ .nan) (hnb : fdec F32 b ≠ .nan) :
    below32 (fdec F32 a) (fdec F32 b) ↔ ordUnits (ord32 a) < ordUnits (ord32 b) := by
  rw [ordUnits_ord32 ha, ordUnits_ord32 hb]
  rcases finite_or_infinite_of_not_nan hna with hfa | hia
  · obtain ⟨m, e, hdeca, hma⟩ := fdec_of_finite hfa
    rcases finite_or_infinite_of_not_nan hnb with hfb | hib
    · obtain ⟨l, g, hdecb, hmb⟩ := fdec_of_finite hfb
      rw [hdeca, hdecb, ← hma, ← hmb]
      exact Iff.rfl
    · rw [hdeca, fdec_of_infinite hib, hib, ← hma]
      exact below32_fin_inf (hma.trans_lt (magUnits_strictMono hfa)) _ _
  · rcases finite_or_infinite_of_not_nan hnb with hfb | hib
    · obtain ⟨l, g, hdecb, hmb⟩ := fdec_of_finite hfb
      rw [fdec_of_infinite hia, hia, hdecb, ← hmb]
      exact below32_inf_fin (hmb.trans_lt (magUnits_strictMono hfb)) _ _
    · rw [fdec_of_infinite hia, hia, fdec_of_infinite hib, hib]
      exact below32_inf_inf (magUnits_strictMono (by decide : 0 < infMag32)) _ _

theorem not_nan_of_below32 {v w : Fv} (h : below32 v w) : v ≠ .nan ∧ w ≠ .nan := by
  constructor <;> rintro rfl
  · exact h
  · rcases v with _ | (_ | _) | _ <;> exact h

/-! ## Maximum and sum (R84) -/

theorem poolOp_max_of_nan {a b : Nat} (h : fdec F32 a = .nan ∨ fdec F32 b = .nan) : poolOp true a b = 0x7FC00000 := by
  have hnan : (isNan32 a || isNan32 b) = true := by simpa [isNan32] using h
  rw [poolOp, if_pos rfl, max32, if_pos hnan]
  rfl

/-- Of two operands that are no NaNs the maximum is the one later in the order of the patterns. -/
theorem poolOp_max_of_not_nan {a b : Nat} (hna : fdec F32 a ≠ .nan) (hnb : fdec F32 b ≠ .nan) :
    poolOp true a b = if ord32 a < ord32 b then b else a := by
  have hnum : ¬(isNan32 a || isNan32 b) = true := by simp [isNan32, hna, hnb]
  rw [poolOp, if_pos rfl, max32, if_neg hnum]

/-- Settles O57: the values lie as their numbers of units, whose order is that of the patterns by which the maximum is
chosen, but that the two zeros have one value. -/
theorem maximumAndSum : Obligations.MaximumAndSum := by
  refine ⟨?larger, ?comparable, ?same, ?zeros, ?nan, ?opposite⟩
  case larger =>
    intro a b ha hb hbelow
    obtain ⟨hna, hnb⟩ := not_nan_of_below32 hbelow
    have hord : ord32 a < ord32 b := ordUnits_mono.reflect_lt ((below32_iff ha hb hna hnb).1 hbelow)
    rw [poolOp_max_of_not_nan hna hnb, poolOp_max_of_not_nan hnb hna, if_pos hord, if_neg hord.not_gt]
    exact ⟨rfl, rfl⟩
  case comparable =>
    intro a b ha hb hna hnb hne
    rw [below32_iff ha hb hna hnb, below32_iff hb ha hnb hna]
    rcases lt_trichotomy (ordUnits (ord32 a)) (ordUnits (ord32 b)) with hlt | heq | hgt
    · exact .inl hlt
    · obtain hplace | ⟨hza, hzb⟩ := eq_or_zeros_of_ordUnits_eq heq
      · exact absurd (ord32_injective ha hb hplace) hne
      · exact .inr (.inr ⟨mag_zero_of_ord32 hza, mag_zero_of_ord32 hzb⟩)
    · exact .inr (.inl hgt)
  case same =>
    intro a _ hna
    rw [poolOp_max_of_not_nan hna hna, ite_self]
  case zeros => decide
  case nan => exact fun a b hnan => poolOp_max_of_nan hnan
  case opposite => decide

end Sys2Proof.Machine

namespace Sys2Proof.Machine

/-! ## A program that reaches its fold (R70, R72, R89, R91, R424, R426) -/

/-- The program of descriptor `d` is of the generation of fold `f`, which serves. -/
structure ProgramPresent (s : State) (f : Fin 8) (d : Bytes) : Prop where
  serves : gxHeld s f = false
  present : pGen d = (unit s (2 + f.val)).gen.toNat

/-- The program of descriptor `d` is discarded: its request is gone, or the context it names is not its request's, is free
or drains (log entry 131). -/
def ProgramDiscarded (s : State) (f : Fin 8) (d : Bytes) : Prop :=
  (req s (pReq d)).isNone = true ∨ (ctxAt (fold s f) (fld d 0 1)).req ≠ pReq d ∨
    (ctxAt (fold s f) (fld d 0 1)).st = .free ∨ (ctxAt (fold s f) (fld d 0 1)).st = .draining

theorem not_programDiscarded {s : State} {f : Fin 8} {d : Bytes} (hrequest : (req s (pReq d)).isSome = true)
    (hown : (ctxAt (fold s f) (fld d 0 1)).req = pReq d) (hused : (ctxAt (fold s f) (fld d 0 1)).st ≠ .free)
    (hlive : (ctxAt (fold s f) (fld d 0 1)).st ≠ .draining) : ¬ProgramDiscarded s f d := by
  rintro (hgone | hother | hfree | hdrains)
  · simp [Option.isNone_iff_eq_none.1 hgone] at hrequest
  · exact hother hown
  · exact hused hfree
  · exact hlive hdrains

/-- Neither the generation nor a reset keeps the fold from the rest of the row, `y`. -/
theorem ProgramPresent.reaches {s : State} {f : Fin 8} {d : Bytes} (h : ProgramPresent s f d) {a b y : State} :
    (if pGen d ≠ (unit s (2 + f.val)).gen.toNat then a else if gxHeld s f then b else y) = y :=
  (if_neg (not_not_intro h.present)).trans (if_neg (by simp [h.serves]))

theorem exec_programAccept_discarded {s : State} {f : Fin 8} {desc d : Bytes} (hd : slice desc 0 64 = d)
    (h : ProgramPresent s f d) (hdiscard : ProgramDiscarded s f d) : exec (.programAccept f desc) s = .next s := by
  subst hd
  exact congrArg Host.Outcome.next (h.reaches.trans (if_pos hdiscard))

theorem progs_updRel (x : Fold) (h : Half) (g : Rel → Rel) : (updRel x h g).progs = x.progs := by
  unfold updRel
  split <;> rfl

theorem nextProg_updRel (x : Fold) (h : Half) (g : Rel → Rel) : (updRel x h g).nextProg = x.nextProg := by
  unfold updRel
  split <;> rfl

/-- Fold `f` with the program of descriptor `d` behind its others, and its key noted for its request. -/
def foldWithProgram (s : State) (f : Nat) (d : Bytes) : Fold :=
  { updRel (fold s f) (pReq d) (fun r => { r with keys := r.keys ++ [progKey d] }) with
    progs := (fold s f).progs ++ [accepted s f d], nextProg := (fold s f).nextProg + 1 }

theorem exec_programAccept_taken {s : State} {f : Fin 8} {desc d : Bytes} {im : Image} {img : Bool} {ep : Nat}
    (hd : slice desc 0 64 = d) (h : ProgramPresent s f d) (hkeep : ¬ProgramDiscarded s f d)
    (hpinned : pinnedIm s (pReq d) (pTid d) = some (im, img, ep)) (hholds : bit (dMask im.desc) f = true)
    (hok : progOk d (dDim im.desc) = true) :
    exec (.programAccept f desc) s = .next (goOnPeers (cnt (setFold s f (settleCtx (foldWithProgram s f d) (fld d 0 1)))
      (foldReg f aGxCntPrograms)) f im (pReq d)) := by
  have hgood : ¬((!progOk d (dDim im.desc)) = true ∨ (!bit (dMask im.desc) f) = true) := by simp [hok, hholds]
  show execProgramAccept f desc s = _
  simp only [execProgramAccept, hd, hpinned, progs_updRel, nextProg_updRel]
  exact congrArg Host.Outcome.next (h.reaches.trans ((if_neg hkeep).trans (if_neg hgood)))

/-- A program whose table is not pinned or not on the fold, or whose descriptor breaks R70, ends its request (log entry
130). -/
theorem exec_programAccept_refused {s : State} {f : Fin 8} {desc d : Bytes} {im : Image} {img : Bool} {ep : Nat}
    (hd : slice desc 0 64 = d) (h : ProgramPresent s f d) (hkeep : ¬ProgramDiscarded s f d)
    (hbad : pinnedIm s (pReq d) (pTid d) = none ∨ pinnedIm s (pReq d) (pTid d) = some (im, img, ep) ∧
      (progOk d (dDim im.desc) = false ∨ bit (dMask im.desc) f = false)) :
    exec (.programAccept f desc) s =
      .next (foldEnds (rsetF s (foldReg f aGxGatherStat) 0 0 0 1) f (pReq d) stBadField) := by
  show execProgramAccept f desc s = _
  obtain hunpinned | ⟨hpinned, hbreaks⟩ := hbad
  · simp only [execProgramAccept, hd, hunpinned]
    exact congrArg Host.Outcome.next (h.reaches.trans (if_neg hkeep))
  · simp only [execProgramAccept, hd, hpinned]
    exact congrArg Host.Outcome.next (h.reaches.trans ((if_neg hkeep).trans (if_pos (by simpa using hbreaks))))

/-! ## Words of a program's body (R71, R73, R75, R426) -/

/-- Program `q` with the words `body` landed, as many as its body has room for. -/
def withBody (q : Prog) (body : List Word) : Prog := { q with body := (q.body ++ body).take (bodyLen q.desc) }

/-- The state in which program `p` of fold `f` is `q`. -/
def withProg (s : State) (f p : Nat) (q : Prog) : State := updFold s f (fun x => updProg x p (fun _ => q))

theorem pinnedIm_withProg (s : State) (f p : Nat) (q : Prog) (h : Half) (tid : Nat) :
    pinnedIm (withProg s f p q) h tid = pinnedIm s h tid := rfl

/-- The words are for a program that fold `f` holds in a context that lives. -/
structure TakesBody (s : State) (f : Fin 8) (p : Nat) (q : Prog) : Prop where
  found : (fold s f).progs.find? (fun x => x.id == p) = some q
  live : (ctxAt (fold s f) q.ctx).st ≠ .draining

/-- Words of a program that a reset of the fold has ended count with the stale ones, the model's choice (log entry
164). -/
theorem exec_programBody_stale {s : State} {f : Fin 8} {p : Nat} (body : List Word)
    (hgone : ∀ q ∈ (fold s f).progs, q.id ≠ p) (hborn : p < (fold s f).bornAt) :
    exec (.programBody f p body) s = .next (cnt s aIgCntStale) := by
  have hnone : (fold s f).progs.find? (fun x => x.id == p) = none := by simpa using hgone
  show execProgramBody f p body s = _
  simp only [execProgramBody, hnone]
  exact congrArg Host.Outcome.next (if_pos hborn)

theorem exec_programBody_landed {s : State} {f : Fin 8} {p : Nat} {body : List Word} {q : Prog} {im : Image} {img : Bool}
    {ep : Nat} (h : TakesBody s f p q) (hsound : offsOk q.desc (withBody q body).body = true)
    (hpinned : pinnedIm s q.req (pTid q.desc) = some (im, img, ep)) :
    exec (.programBody f p body) s = .next (goOn (((List.range
        (min (pNidx q.desc) ((withBody q body).body.length - nOffs q.desc) - (q.body.length - nOffs q.desc))).map
          (· + (q.body.length - nOffs q.desc))).foldl (fun s i => noteIdx s f (withBody q body) im i)
        (withProg s f p (withBody q body))) f p) := by
  have hpinned' := (pinnedIm_withProg s f p (withBody q body) q.req (pTid q.desc)).trans hpinned
  simp only [withProg, withBody] at hpinned' hsound
  show execProgramBody f p body s = _
  simp only [execProgramBody, h.found, hpinned']
  exact congrArg Host.Outcome.next ((if_neg h.live).trans (if_neg (by simp [hsound])))

theorem exec_programBody_unsound {s : State} {f : Fin 8} {p : Nat} {body : List Word} {q : Prog} (h : TakesBody s f p q)
    (hbad : offsOk q.desc (withBody q body).body = false) :
    exec (.programBody f p body) s = .next (foldEnds
      (rsetF (withProg s f p (withBody q body)) (foldReg f aGxGatherStat) 0 1 1 1) f q.req stBadLength) := by
  simp only [withBody] at hbad
  show execProgramBody f p body s = _
  simp only [execProgramBody, h.found]
  exact congrArg Host.Outcome.next ((if_neg h.live).trans (if_pos (by simp [hbad])))

/-- Settles O12: a program is judged by its generation, its fold, its context and its table in turn, and the words of a
body by the program that they are for and by the offsets that have then landed. -/
theorem programsComplete : Obligations.ProgramsComplete := by
  refine ⟨?taken, ?refused, ?discarded, ?stale, ?held, ?staleBody, ?landed, ?unsound⟩
  case taken =>
    intro s f desc im img ep hserves hgen hrequest hown hused hlive hpinned hholds hok
    exact exec_programAccept_taken rfl ⟨hserves, hgen⟩ (not_programDiscarded hrequest hown hused hlive) hpinned hholds hok
  case refused =>
    intro s f desc im img ep hserves hgen hrequest hown hused hlive hbad
    exact exec_programAccept_refused rfl ⟨hserves, hgen⟩ (not_programDiscarded hrequest hown hused hlive) hbad
  case discarded =>
    intro s f desc hserves hgen hdiscard
    exact exec_programAccept_discarded rfl ⟨hserves, hgen⟩ hdiscard
  case stale => exact fun s f desc hgen => congrArg Host.Outcome.next (if_pos hgen)
  case held =>
    intro s f desc hgen hheld
    exact congrArg Host.Outcome.next ((if_neg (not_not_intro hgen)).trans (if_pos hheld))
  case staleBody => exact fun s f p body hgone hborn => exec_programBody_stale body hgone hborn
  case landed =>
    intro s f p body q im img ep hfound hlive hsound hpinned
    exact exec_programBody_landed ⟨hfound, hlive⟩ hsound hpinned
  case unsound =>
    intro s f p body q hfound hlive hbad
    exact exec_programBody_unsound ⟨hfound, hlive⟩ hbad

end Sys2Proof.Machine

namespace Sys2Proof.Machine

/-! ## The slot that issues (R158, R181, R183) -/

theorem mget_mmap_of_ne {α : Type} [DecidableEq α] {d : α} {g : α → α} {m : Map α} {i : Nat} (hd : g d = d)
    (hne : g (mget d m i) ≠ d) : mget d (mmap d g m) i = g (mget d m i) := by
  induction m with
  | nil => exact absurd hd hne
  | cons e m ih =>
    obtain ⟨j, v⟩ := e
    have hcons : mmap d g ((j, v) :: m) = if g v ≠ d then (j, g v) :: mmap d g m else mmap d g m := by
      by_cases hv : g v = d <;> simp [mmap, hv]
    rw [hcons]
    by_cases hj : j = i
    · have hv : g v ≠ d := by simpa [mget, hj] using hne
      simp [hv, mget, hj]
    · have hrest : mget d (mmap d g m) i = g (mget d m i) := ih (by simpa [mget, hj] using hne)
      by_cases hv : g v = d <;> simp [hv, mget, hj, hrest]

@[simp] theorem cslot_cupdSlot_same (x : Core) (k : Nat) (g : Slot → Slot) : cslot (cupdSlot x k g) k = g (cslot x k) :=
  mget_mset_same _ _ _ _

/-- The entry of an issue queue stays when request `h` is drained: it is no program and no release of it. -/
def staysQueued (h : Half) (e : IssueE) : Bool :=
  match e with
  | .program r _ _ _ => r != h
  | .rel r _ _ _ => r != h
  | _ => true

theorem core_drainReq {s : State} {c k : Nat} (h : Half) (hused : (cslot (core s c) k).st ≠ .free) :
    core (drainReq s h) c = keepQ (core s c) (staysQueued h) := by
  have hkept : keepQ (core s c) (staysQueued h) ≠ {} := fun hempty =>
    hused (congrArg (fun x => (cslot x k).st) hempty)
  exact mget_mmap_of_ne (g := fun x => keepQ x (staysQueued h)) rfl hkept

/-- A launch that ends stays the chosen one until another is chosen (R183). -/
theorem run_endSlot (s : State) (c k : Nat) : (core (endSlot s c k) c).run = (core s c).run := by
  unfold endSlot
  rw [core_drainReq (k := k), core_updReq, core_updCore_same]
  · rfl
  · rw [core_updReq, core_updCore_same]
    simp [cslot, cupdSlot, csetSlot]

theorem run_closeB (s : State) (c : Nat) : (core (closeB s c) c).run = (core s c).run := by
  unfold closeB
  split
  · rfl
  · split
    · rw [run_endSlot, core_updCore_same, core_updCore_same]
      rfl
    · rw [core_updCore_same]
      rfl

/-- The bundle that may issue is the chosen launch's. -/
theorem run_of_readyB {s u : State} {c k : Nat} {h : Hdr} {w : Bool} {v : Slot}
    (hready : readyB s c h w = (u, some (k, v))) : (core s c).run = some k := by
  rw [← run_closeB]
  cases hrun : (core (closeB s c) c).run with
  | none => simp [readyB, hrun] at hready
  | some j =>
    simp only [readyB, hrun] at hready
    split_ifs at hready <;> simp_all

theorem runSlot_of_readyB {s u : State} {c k : Nat} {h : Hdr} {w : Bool} {v : Slot}
    (hready : readyB s c h w = (u, some (k, v))) : runSlot s c = k := by
  rw [runSlot, run_of_readyB hready]
  rfl

/-! ## Bundles that name their successor (R158, R167, R179) -/

section
variable {s u : State} {c : Core2} {h : Hdr} {k : Nat} {v : Slot}

theorem bundleC_issues (hissues : Issues s c h u k v) (f : Slot → List (Nat × Act)) :
    bundleC s c h f = issueB u c k v h false (seqNext v.loops v.pc) (f v) := by
  obtain ⟨hready, hgate⟩ := hissues
  simp only [bundleC, hready, if_pos hgate]

/-- The count of a LOOP: its register, or its own field where it names none (R167). -/
def loopCount (v : Slot) (xa : BitVec 5) (cntv : BitVec 14) : Nat := if xa = 0 then cntv.toNat else xreg v xa.toNat

/-- A LOOP with a body, inside fewer than four loops, enters its body, or with a count of 0 goes behind it (R167). -/
theorem exec_loop (hissues : Issues s c h u k v) {xa : BitVec 5} {body : BitVec 13} {cntv : BitVec 14} (hbody : body ≠ 0)
    (hdepth : v.loops.length < 4) : exec (.loop c h xa body cntv) s = .next (
      if loopCount v xa cntv = 0 then issueB u c k v h false (seqNext v.loops (v.pc + BitVec.ofNat 17 body.toNat)) []
      else issueB u c k v h false (v.pc + 1,
        { first := v.pc + 1, last := v.pc + BitVec.ofNat 17 body.toNat
          left := BitVec.ofNat 32 (loopCount v xa cntv) } :: v.loops) []) := by
  obtain ⟨hready, hgate⟩ := hissues
  have hsound : ¬(body = 0 ∨ 4 ≤ v.loops.length) := not_or.2 ⟨hbody, Nat.not_le.2 hdepth⟩
  show execLoop c h xa body cntv s = _
  simp only [execLoop, hready, hgate]
  exact congrArg Host.Outcome.next (if_neg hsound)

theorem exec_br (hissues : Issues s c h u k v) (off : BitVec 18) :
    exec (.br c h off) s = .next (issueB u c k v h true (brNext v.loops (v.pc + off.truncate 17)) []) := by
  obtain ⟨hready, hgate⟩ := hissues
  show execBr c h off s = _
  simp only [execBr, hready, if_pos hgate]

theorem exec_brc (hissues : Issues s c h u k v) {cond : BitVec 3} (xa xb : BitVec 5) (off : BitVec 18)
    (hcond : cond.toNat < 6) : exec (.brc c h cond xa xb off) s = .next (
      if condHolds cond (BitVec.ofNat 32 (xreg v xa.toNat)) (BitVec.ofNat 32 (xreg v xb.toNat)) then
        issueB u c k v h true (brNext v.loops (v.pc + off.truncate 17)) []
      else issueB u c k v h false (seqNext v.loops v.pc) []) := by
  obtain ⟨hready, hgate⟩ := hissues
  show execBrc c h cond xa xb off s = _
  simp only [execBrc, hready, hgate, if_neg (Nat.not_le.2 hcond)]
  rfl

theorem exec_endLaunch (hissues : Issues s c h u k v) :
    exec (.endLaunch c h) s = .next (updCore (issueB u c k v h false (v.pc + 1, v.loops) []) c
      (fun x => cupdSlot x k (fun v => { v with atEnd := true }))) := by
  obtain ⟨hready, hgate⟩ := hissues
  show execEndLaunch c h s = _
  simp only [execEndLaunch, hready, hgate]
  rfl

/-! ## Bundles that write a register or a parameter word (R159, R160, R167) -/

theorem exec_addi (hissues : Issues s c h u k v) (xd xa : BitVec 5) (imm : BitVec 27) :
    exec (.addi c h xd xa imm) s = .next (issueB u c k v h false (seqNext v.loops v.pc)
      [(1, .setReg k xd (BitVec.ofNat 32 (xreg v xa.toNat + (imm.signExtend 32).toNat)))]) := by
  show execAddi c h xd xa imm s = _
  rw [execAddi, bundleC_issues hissues, runSlot_of_readyB hissues.1, regFl]

theorem exec_lui (hissues : Issues s c h u k v) (xd : BitVec 5) (imm : Half) :
    exec (.lui c h xd imm) s = .next (issueB u c k v h false (seqNext v.loops v.pc)
      [(1, .setReg k xd (BitVec.ofNat 32 (imm.toNat * 65536)))]) := by
  show execLui c h xd imm s = _
  rw [execLui, bundleC_issues hissues, runSlot_of_readyB hissues.1, regFl]

theorem exec_alu (hissues : Issues s c h u k v) (xd : BitVec 5) {xa xb : BitVec 5} {fn : BitVec 4} {r : Word}
    (hfn : aluFn fn (BitVec.ofNat 32 (xreg v xa.toNat)) (BitVec.ofNat 32 (xreg v xb.toNat)) = some r) :
    exec (.alu c h xd xa xb fn) s = .next (issueB u c k v h false (seqNext v.loops v.pc)
      [(if fn = 8 then 3 else 1, .setReg k xd r)]) := by
  obtain ⟨hready, hgate⟩ := hissues
  show execAlu c h xd xa xb fn s = _
  simp only [execAlu, hready, hgate, hfn]
  rfl

theorem exec_ldx (hissues : Issues s c h u k v) (xd xa : BitVec 5) (imm : BitVec 27) :
    exec (.ldx c h xd xa imm) s = .next (issueB u c k v h false (seqNext v.loops v.pc)
      [(4, .setReg k xd (BitVec.ofNat 32 (parWord v (parOff v xa imm / 4))))]) := by
  show execLdx c h xd xa imm s = _
  rw [execLdx, bundleC_issues hissues, runSlot_of_readyB hissues.1, regFl]

theorem exec_stx (hissues : Issues s c h u k v) (xa xb : BitVec 5) (imm : BitVec 27) :
    exec (.stx c h xa xb imm) s = .next (issueB u c k v h false (seqNext v.loops v.pc)
      (if parOff v xa imm / 4 < 256 then []
       else [(1, .setPar k (parOff v xa imm / 4) (BitVec.ofNat 32 (xreg v xb.toNat)))])) := by
  show execStx c h xa xb imm s = _
  rw [execStx, bundleC_issues hissues, runSlot_of_readyB hissues.1]

/-! ## WAIT and TRAP (R167, R177, R178, R181, R184) -/

/-- The target of a WAIT: its register, or its own field where it names none (R177). -/
def waitTarget (v : Slot) (xa : BitVec 5) (tgt : Half) : Half :=
  if xa = 0 then tgt else BitVec.ofNat 16 (xreg v xa.toNat)

/-- The launch held by a WAIT, which with YLD set leaves the core to others (R178). -/
def waitHolds (u : State) (c : Core2) (h : Hdr) (k : Nat) (ctr xa : BitVec 5) (t : Half) : State :=
  updCore u c (fun x => cupdSlot x k (fun v => { v with
    waitHeld := true, waitCtr := ctr, waitXa := xa, waitTgt := t, st := if h.yld then .held else .running }))

/-- A WAIT that may come goes on where its counter has reached its target, and holds or ends its launch elsewhere. -/
theorem exec_wait {ctr xa : BitVec 5} {tgt : Half} (hready : readyB s c h true = (u, some (k, v)))
    (hsame : SameWait v ctr xa tgt) : exec (.wait c h ctr xa tgt) s = .next (
      if ctrReached (ctrOf v ctr.toNat) (waitTarget v xa tgt) then
        if yieldGate h v then issueB u c k v h false (seqNext v.loops v.pc) [] else atGate u c k v
      else if v.mustEnd then endSlot u c k else waitHolds u c h k ctr xa (waitTarget v xa tgt)) := by
  have hits : ¬(v.waitHeld && !(ctr == v.waitCtr && xa == v.waitXa && (xa != 0 || tgt == v.waitTgt))) = true := by
    simpa [SameWait, and_assoc, or_iff_not_imp_left] using hsame
  show execWait c h ctr xa tgt s = _
  simp only [execWait, hready]
  exact congrArg Host.Outcome.next (if_neg hits)

/-- The status with which a TRAP ends its launch (R184). -/
def trapStatus (code : BitVec 2) : Status := if code = 0 then stBadField else stBadLength

theorem exec_trap (hissues : Issues s c h u k v) {code : BitVec 2} (hcode : code.toNat < 2) :
    exec (.trap c h code) s = .next (updCore (issueB u c k v h false (v.pc + 1, v.loops) []) c (fun x => { x with
      opened := x.opened.map (fun o => { o with ends := some (trapStatus code) }) })) := by
  obtain ⟨hready, hgate⟩ := hissues
  show execTrap c h code s = _
  simp only [execTrap, hready, hgate]
  exact congrArg Host.Outcome.next (if_neg (Nat.not_le.2 hcode))

theorem closeB_trap {o : OpenB} {st : Status} (hopened : (core s c).opened = some o) (hends : o.ends = some st) :
    closeB s c = endSlot (updCore (updCore s c (fun x => { cupdSlot x o.slot (fun v => { v with next := o.at_ + o.cost }) with
      opened := none, flight := x.flight ++ o.fl })) c (fun x => recExc x o.slot st o.at_ true)) c o.slot := by
  simp only [closeB, hopened, hends]

end

/-- Settles O15: each bundle issues in its cycle, so it takes the place that its loop or branch rule names. -/
theorem sequencingComplete : Obligations.SequencingComplete := by
  refine ⟨?cnop, ?skipped, ?entered, ?br, ?taken, ?untaken, ?ended⟩
  case cnop => exact fun s u c h k v hissues => congrArg Host.Outcome.next (bundleC_issues hissues _)
  case skipped =>
    intro s u c h k v xa body cntv hissues hbody hdepth hzero
    exact (exec_loop hissues hbody hdepth).trans (congrArg Host.Outcome.next (if_pos hzero))
  case entered =>
    intro s u c h k v xa body cntv n hissues hbody hdepth hn hnz
    subst hn
    exact (exec_loop hissues hbody hdepth).trans (congrArg Host.Outcome.next (if_neg hnz))
  case br => exact fun s u c h k v off hissues => exec_br hissues off
  case taken =>
    intro s u c h k v cond xa xb off hissues hcond hholds
    rw [exec_brc hissues xa xb off hcond, if_pos hholds]
  case untaken =>
    intro s u c h k v cond xa xb off hissues hcond hfails
    rw [exec_brc hissues xa xb off hcond, hfails, if_neg Bool.false_ne_true]
  case ended => exact fun s u c h k v hissues => exec_endLaunch hissues

/-- Settles O16: the slot whose register is written is the chosen one, which closing the open bundle leaves chosen. -/
theorem registerBundlesComplete : Obligations.RegisterBundlesComplete := by
  refine ⟨?addi, ?lui, ?alu, ?ldx, ?stored, ?readOnly⟩
  case addi => exact fun s u c h k v xd xa imm hissues => exec_addi hissues xd xa imm
  case lui => exact fun s u c h k v xd imm hissues => exec_lui hissues xd imm
  case alu => exact fun s u c h k v xd xa xb fn r hissues hfn => exec_alu hissues xd hfn
  case ldx => exact fun s u c h k v xd xa imm hissues => exec_ldx hissues xd xa imm
  case stored =>
    intro s u c h k v xa xb imm hissues hword
    rw [exec_stx hissues, if_neg (Nat.not_lt.2 hword)]
  case readOnly =>
    intro s u c h k v xa xb imm hissues hword
    rw [exec_stx hissues, if_pos hword]

/-- Settles O17: a WAIT that may come looks at its counter, then at a pending end, and a TRAP's status stands in the open
bundle until it closes. -/
theorem waitAndTrapComplete : Obligations.WaitAndTrapComplete := by
  refine ⟨?reached, ?held, ?ended, ?trap, ?closed⟩
  case reached =>
    intro s u c h k v ctr xa tgt hready hgate hsame hreached
    exact (exec_wait hready hsame).trans (congrArg Host.Outcome.next ((if_pos hreached).trans (if_pos hgate)))
  case held =>
    intro s u c h k v ctr xa tgt t hready hsame ht hleft hgoing
    subst ht
    exact (exec_wait hready hsame).trans (congrArg Host.Outcome.next
      ((if_neg (Bool.eq_false_iff.1 hleft)).trans (if_neg (Bool.eq_false_iff.1 hgoing))))
  case ended =>
    intro s u c h k v ctr xa tgt hready hsame hleft hend
    exact (exec_wait hready hsame).trans (congrArg Host.Outcome.next
      ((if_neg (Bool.eq_false_iff.1 hleft)).trans (if_pos hend)))
  case trap => exact fun s u c h k v code hissues hcode => exec_trap hissues hcode
  case closed => exact fun s c o st hopened hends => closeB_trap hopened hends

end Sys2Proof.Machine

namespace Sys2Proof.Machine

/-! ## The core port (R164, R168, R170) -/

theorem withM_open {s : State} {c : Nat} {o : OpenB} {v : Slot} (hopen : openSlots s c = some (o, v)) (hfree : o.m = false)
    (g : State → OpenB → Slot → State) : withM s c g = g (takeM s c) o v := by
  simp only [withM, hopen]
  exact if_neg (Bool.eq_false_iff.1 hfree)

/-- A COPY whose lines all lie in their windows notes no suppressed access (R164). -/
theorem exec_copy {s : State} {c : Core2} {o : OpenB} {v : Slot} {sa sb : Scr} {lines : BitVec 12}
    (hopen : openSlots s c = some (o, v)) (hfree : o.m = false)
    (hlines : ∀ i ≤ lines.toNat, (lineAddr v sa i false).isSome = true ∧ (lineAddr v sb i true).isSome = true) :
    exec (.copy c sa sb lines) s = .next ((List.range (lines.toNat + 1)).foldl (fun s i => addFlight s c
      { due := o.at_ + 2 + i, reads := true, mav := none
        act := .copyLine o.slot (lineAddr v sa i false) (lineAddr v sb i true) }) (takeM s c)) := by
  refine congrArg Host.Outcome.next ((withM_open hopen hfree _).trans (List.foldl_ext _ _ _ fun t i hi => ?_))
  obtain ⟨hsrc, hdst⟩ := hlines i (Nat.lt_succ_iff.1 (List.mem_range.1 hi))
  simp [noteDenied, Option.isSome_iff_ne_none.1 hsrc, Option.isSome_iff_ne_none.1 hdst]

theorem exec_fill {s : State} {c : Core2} {o : OpenB} {v : Slot} {sb : Scr} {lines : BitVec 12} {a : Nat → Nat}
    (hopen : openSlots s c = some (o, v)) (hfree : o.m = false)
    (hlines : ∀ i ≤ lines.toNat, lineAddr v sb i true = some (a i)) :
    exec (.fill c sb lines) s = .next ((List.range (lines.toNat + 1)).foldl (fun s i => addFlight s c
      { due := o.at_ + 3 + i, reads := false, mav := none
        act := .putSpan (some o.slot) (a i) { data := List.replicate 128 0 } }) (takeM s c)) := by
  refine congrArg Host.Outcome.next ((withM_open hopen hfree _).trans (List.foldl_ext _ _ _ fun t i hi => ?_))
  simp only [hlines i (Nat.lt_succ_iff.1 (List.mem_range.1 hi))]

theorem exec_ldw {s : State} {c : Core2} {o : OpenB} {v : Slot} {sa : Scr} {a : Nat} (xd : BitVec 5)
    (hopen : openSlots s c = some (o, v)) (hfree : o.m = false) (hword : wordAddr v sa false = some a) :
    exec (.ldw c sa xd) s = .next (addFlight (takeM s c) c
      { due := o.at_ + 2, reads := true, mav := none, act := .loadWord o.slot xd (some a) }) := by
  refine congrArg Host.Outcome.next ((withM_open hopen hfree _).trans ?_)
  simp only [hword]
  rfl

theorem exec_stw {s : State} {c : Core2} {o : OpenB} {v : Slot} {sb : Scr} {a : Nat} (xs : BitVec 5)
    (hopen : openSlots s c = some (o, v)) (hfree : o.m = false) (hword : wordAddr v sb true = some a) :
    exec (.stw c sb xs) s = .next (addFlight (takeM s c) c
      { due := o.at_ + 3, reads := false, mav := none
        act := .putSpan (some o.slot) a { data := toLE 4 (xreg v xs.toNat) } }) := by
  refine congrArg Host.Outcome.next ((withM_open hopen hfree _).trans ?_)
  simp only [hword]

/-! ## Entries of the issue queue (R171, R172, R174, R175) -/

theorem withQ_open {s : State} {c : Core2} {o : OpenB} {v : Slot} (h : QueuesM s c o v)
    (g : State → OpenB → Slot → State) : withQ s c g = g (takeM s c) o v := by
  obtain ⟨hopen, hfree, hroom⟩ := h
  simp only [withQ, hopen]
  exact (if_neg (Bool.eq_false_iff.1 hfree)).trans (if_neg (Nat.not_le.2 hroom))

theorem exec_grel {s : State} {c : Core2} {o : OpenB} {v : Slot} (h : QueuesM s c o v) (fmask : Byte) (dep : Bool)
    (xt : BitVec 5) : exec (.grel c fmask dep xt) s =
      .next (putQ (takeM s c) c (.rel v.req fmask dep (BitVec.ofNat 32 (xreg v xt.toNat)))) :=
  congrArg Host.Outcome.next (withQ_open h _)

theorem exec_output {s : State} {c : Core2} {o : OpenB} {v : Slot} {sa : Scr} {lines : BitVec 12} {a : Nat}
    (h : QueuesM s c o v) (ctr : BitVec 5) (seg : BitVec 4)
    (haddr : winAddr v sa.win.toNat (extOff v sa) (128 * (lines.toNat + 1)) false = some a) :
    exec (.output c sa ctr lines seg) s = .next (putQ (takeM s c) c (.out v.req a (lines.toNat + 1) seg.toNat ctr)) := by
  refine congrArg Host.Outcome.next ((withQ_open h _).trans ?_)
  simp only [haddr]

/-! ## GISSUE (R171) -/

/-- Taking slot M of a bundle and noting where the next CHAIN body starts leave the scratchpad as it was. -/
theorem scrRead_takeM (s : State) (c : Nat) : scrRead (core (takeM s c) c) = scrRead (core s c) := by
  rw [takeM, core_updCore_same]
  rfl

theorem scrRead_setChain (s : State) (c k bw e : Nat) : scrRead (core (setChain s c k bw e) c) = scrRead (core s c) := by
  rw [setChain, core_updCore_same]
  rfl

theorem pinnedIm_chained (s : State) (c k bw e : Nat) (h : Half) (tid : Nat) :
    pinnedIm (setChain (takeM s c) c k bw e) h tid = pinnedIm s h tid := rfl

theorem sentDesc_chained (s : State) (c k bw e : Nat) (r : Req) (d : Bytes) (f ctx dest dsel : Nat) :
    sentDesc (setChain (takeM s c) c k bw e) r d f ctx dest dsel = sentDesc s r d f ctx dest dsel := rfl

/-- The descriptor of a program with NIDX read at `na` from behind the offsets, under NIDX_FROM_BODY (R171). -/
def withNidx (s : State) (c : Core2) (nfb : Bool) (na : Nat) (d : Bytes) : Bytes :=
  if nfb then d.take 12 ++ (scrRead (core s c) na 4).data ++ d.drop 16 else d

/-- The descriptor `d0` at `da` that a GISSUE reads for request `r`, with NIDX from `na`: its body starts at offset `bo`
of window `bw`. -/
structure DescRead (s : State) (v : Slot) (c : Core2) (sa sb : Scr) (nfb chain : Bool) (r : Req) (d0 : Bytes)
    (da bw bo na : Nat) : Prop where
  request : req s v.req = some r
  place : winAddr v sa.win.toNat (extOff v sa) 64 false = some da
  read : d0 = (scrRead (core s c) da 64).data
  body : bodyAt v sb chain = some (bw, bo)
  nidx : nfb = true → pLayout d0 = false ∧ winAddr v bw (bo + 4 * pBags d0) 4 false = some na
  clean : (scrRead (core s c) da 64).hard = false

/-- The program of descriptor `d` for the folds of its table `im`: it is sound, its contexts are the launch's, its bags go
to `a` and its body lies at `b`, unmarked. -/
structure ProgramSound (s : State) (v : Slot) (c : Core2) (r : Req) (d : Bytes) (im : Image) (bw bo a b : Nat) : Prop where
  ok : progOk (sentDesc s r d 0 0 (pDest d) c) (dDim im.desc) = true
  ctxs : ∀ f ∈ dFolds im.desc, (physCtx r f (fld d 0 1)).isSome = true
  dest : sAddr v (pDest d) ((pBags d - 1) * pStride d + sliceLen d (dDim im.desc)) true = some a
  body : winAddr v bw bo (4 * bodyLen d) false = some b
  clean : (scrRead (core s c) b (4 * bodyLen d)).hard = false

theorem exec_gissue {s : State} {c : Core2} {o : OpenB} {v : Slot} {sa sb : Scr} {nfb chain : Bool} {r : Req}
    {da bw bo na a b ep : Nat} {d0 d : Bytes} {im : Image} {img : Bool} (hq : QueuesM s c o v) (ctr : BitVec 5)
    (hread : DescRead s v c sa sb nfb chain r d0 da bw bo na) (hd : d = withNidx s c nfb na d0)
    (hpinned : pinnedIm s v.req (pTid d) = some (im, img, ep)) (hsound : ProgramSound s v c r d im bw bo a b) :
    exec (.gissue c sa sb ctr nfb chain) s = .next (putQ (setChain (takeM s c) c o.slot bw (bo + 4 * bodyLen d)) c
      (.program v.req ((dFolds im.desc).map (fun f => (f, sentDesc s r d f ((physCtx r f (fld d 0 1)).getD 0) a c)))
        (wordsOf (4 * bodyLen d / 4) (scrRead (core s c) b (4 * bodyLen d)).data) ctr)) := by
  have hreq : req (takeM s c) v.req = some r := hread.request
  have hwords : ¬(nfb && pLayout d0) = true := by
    rw [Bool.and_eq_true]
    exact fun ⟨hnfb, hlayout⟩ => Bool.false_ne_true ((hread.nidx hnfb).1.symm.trans hlayout)
  have hinside : ¬(nfb && (winAddr v bw (bo + 4 * pBags d0) 4 false).isNone) = true := by
    rw [Bool.and_eq_true]
    exact fun ⟨hnfb, hnone⟩ => by simp [(hread.nidx hnfb).2] at hnone
  have hdesc : (if nfb then d0.take 12 ++ (scrRead (core s c) ((winAddr v bw (bo + 4 * pBags d0) 4 false).getD 0) 4).data ++
      d0.drop 16 else d0) = d := by
    rw [hd, withNidx]
    split
    next hnfb => rw [(hread.nidx hnfb).2, Option.getD_some]
    next => rfl
  have hallowed : ¬((!progOk (sentDesc s r d 0 0 (pDest d) c) (dDim im.desc)) = true ∨
      (!(dFolds im.desc).all (fun f => (physCtx r f (fld d 0 1)).isSome)) = true) := by
    simpa [hsound.ok, Option.isSome_iff_ne_none] using hsound.ctxs
  have hclean : ¬((scrRead (core s c) da 64).hard || (scrRead (core s c) b (4 * bodyLen d)).hard) = true := by
    simp [hread.clean, hsound.clean]
  refine congrArg Host.Outcome.next ((withQ_open hq _).trans ?_)
  simp only [hreq, hread.body, hread.place, scrRead_takeM, ← hread.read]
  refine (if_neg hwords).trans ((if_neg hinside).trans ?_)
  simp only [hdesc, scrRead_setChain, scrRead_takeM, pinnedIm_chained, sentDesc_chained, hpinned]
  refine (if_neg hallowed).trans ?_
  simp only [hsound.dest, hsound.body, if_neg hclean, sentDesc_chained]

/-! ## DCOLL (R173, R380 to R382) -/

theorem grpN_takeM (s : State) (c : Nat) : grpN (takeM s c) = grpN s := rfl

/-- A sound DCOLL of one of the four kinds queues its collective (R380). -/
theorem dcoll_ready {s : State} {c : Core2} {o : OpenB} {v : Slot} {sa : Scr} {kind : Nat} {d : Bytes} {r : Req}
    {sr ds : Nat} (hkind : 1 ≤ kind ∧ kind ≤ 4) (ctr : BitVec 5) (h : CollReady s c o v sa kind d r sr ds) :
    dcoll c kind sa ctr s = collQueued s c v (newColl s c o v ctr kind d r sr ds) := by
  obtain ⟨hq, hwin, hreq, ⟨a, haddr, hd⟩, hok, hk, hsrc, hdst⟩ := h
  have hmine : gKind (scrRead (core s c) a 64).data = kind := hd ▸ hk
  have hreq' : req (takeM s c) v.req = some r := hreq
  have hok' : collOk (takeM s c) d = true := hok
  have hsound : ¬(sa.win ≠ 0 ∨ kind = 0 ∨ 4 < kind ∨ (!collOk (takeM s c) d) = true) := by
    simp [hwin, hok']
    omega
  simp only [dcoll, hq.1, haddr, hmine]
  refine (if_neg (by simp)).trans ((withQ_open hq _).trans ?_)
  simp only [hreq', haddr, scrRead_takeM, ← hd, hk]
  refine (if_neg hsound).trans ?_
  simp only [grpN_takeM, hsrc, hdst]
  rfl

/-- Settles O18: slot M is untaken and its operands lie in their windows, so nothing is suppressed. -/
theorem corePortComplete : Obligations.CorePortComplete := by
  refine ⟨?mnop, ?copy, ?fill, ?ldw, ?stw⟩
  case mnop => exact fun s c o v hopen hfree => congrArg Host.Outcome.next (withM_open hopen hfree _)
  case copy => exact fun s c o v sa sb lines hopen hfree hlines => exec_copy hopen hfree hlines
  case fill => exact fun s c o v sb lines a hopen hfree hlines => exec_fill hopen hfree hlines
  case ldw => exact fun s c o v sa xd a hopen hfree hword => exec_ldw xd hopen hfree hword
  case stw => exact fun s c o v sb xs a hopen hfree hword => exec_stw xs hopen hfree hword

/-- Settles O19: the issue queue has room, so a program, a release, a collective or a range whose checks hold is put at
its end. -/
theorem issueQueueComplete : Obligations.IssueQueueComplete := by
  refine ⟨?program, ?release, ?range, ?allgather, ?put, ?get, ?barrier⟩
  case program =>
    intro s c o v sa sb ctr nfb chain r da bw bo na a b n d0 d im img ep hq hreq hdesc hd0 hbody hnidx hd hn hpinned hok
      hctxs hdest hbytes hclean hbodyClean
    subst hn
    rw [exec_gissue hq ctr ⟨hreq, hdesc, hd0, hbody, hnidx, hclean⟩ hd hpinned ⟨hok, hctxs, hdest, hbytes, hbodyClean⟩,
      setChain, ← Nat.add_assoc]
  case release => exact fun s c o v fmask dep xt hq => exec_grel hq fmask dep xt
  case range => exact fun s c o v sa ctr lines seg a hq haddr => exec_output hq ctr seg haddr
  case allgather => exact fun s c o v sa ctr d r sr ds h => congrArg Host.Outcome.next (dcoll_ready (by decide) ctr h)
  case put => exact fun s c o v sa ctr d r sr ds h => congrArg Host.Outcome.next (dcoll_ready (by decide) ctr h)
  case get => exact fun s c o v sa ctr d r sr ds h => congrArg Host.Outcome.next (dcoll_ready (by decide) ctr h)
  case barrier => exact fun s c o v sa ctr d r sr ds h => congrArg Host.Outcome.next (dcoll_ready (by decide) ctr h)

end Sys2Proof.Machine

namespace Sys2Proof.Machine

/-! ## Yield points (R175, R178, R181 to R183) -/

/-- What the launch in slot `k` of core `c` does at its yield point: with an end pending it ends, else its state is cleared
and a launch is chosen (R181 to R183). -/
def yields (s : State) (c : Core2) (k : Nat) : State :=
  if (cslot (core s c) k).mustEnd then endSlot s c k
  else chooseRun (updCore s c (fun x => cupdSlot (clearMav x) k (fun v => { v with yielded := true, atYield := false }))) c

theorem exec_yieldPoint_none {s : State} {c : Core2} (hrun : (core (closeB s c) c).run = none) :
    exec (.yieldPoint c) s = .next (chooseRun (closeB s c) c) := by
  show execYieldPoint c s = _
  simp only [execYieldPoint, hrun]

/-- A bundle held for a full issue queue, or at a WAIT without YLD, is at no yield point (R175, R178). -/
theorem exec_yieldPoint_held {s : State} {c : Core2} {k : Nat} (hrun : (core (closeB s c) c).run = some k)
    (hheld : (core (closeB s c) c).heldFull = true ∨ InHold (cslot (core (closeB s c) c) k)) :
    exec (.yieldPoint c) s = .next (closeB s c) := by
  show execYieldPoint c s = _
  simp only [execYieldPoint, hrun]
  exact congrArg Host.Outcome.next (if_pos (by simpa [InHold] using hheld))

/-- At a yield point the engine work of a launch is written first, unless an end is pending (R181, R182). -/
theorem exec_yieldPoint {s u w : State} {c : Core2} {k : Nat} (hu : u = closeB s c) (hrun : (core u c).run = some k)
    (hroom : (core u c).heldFull = false) (hhold : ¬InHold (cslot (core u c) k))
    (hw : w = if (cslot (core u c) k).mustEnd then u else runCore u c (mavDone (core u c) k))
    (hgoing : (cslot (core w c) k).st ≠ .ending) : exec (.yieldPoint c) s = .next (yields w c k) := by
  subst hu hw
  have hpoint : ¬((core (closeB s c) c).heldFull = true ∨ (cslot (core (closeB s c) c) k).waitHeld = true ∧
      (cslot (core (closeB s c) c) k).st = .running ∧ (!(cslot (core (closeB s c) c) k).atYield) = true) := by
    simpa [InHold, hroom] using hhold
  show execYieldPoint c s = _
  simp only [execYieldPoint, hrun]
  exact congrArg Host.Outcome.next ((if_neg hpoint).trans (if_neg hgoing))

/-! ## End requests (R181) -/

/-- An end is marked on the launch in slot `k` of a core. -/
def endMarked (s : State) (c k : Nat) : State := updCore s c (fun x => cupdSlot x k (fun v => { v with mustEnd := true }))

theorem atHold_endMarked (s : State) (c k : Nat) : atHold (core (endMarked s c k) c) k = atHold (core s c) k := by
  rw [endMarked, core_updCore_same]
  simp only [atHold, cslot_cupdSlot_same]
  rfl

/-- An end request of launch `h` finds it in its slot, used and not ending. -/
structure EndReaches (s : State) (h : Half) (r : Req) : Prop where
  launch : req s h = some r
  kind : r.kind = .launch
  asked : r.endSt.isSome = true
  slot : (cslot (core s r.core) r.slot).req = h
  used : (cslot (core s r.core) r.slot).st ≠ .free
  going : (cslot (core s r.core) r.slot).st ≠ .ending

theorem exec_endRequest {s : State} {h : Half} {r : Req} (hend : EndReaches s h r) :
    exec (.endRequest h) s = .next (
      if (cslot (core s r.core) r.slot).st ≠ .running ∨ (cslot (core s r.core) r.slot).atEnd = true ∨
        atHold (core s r.core) r.slot = true then endSlot (endMarked s r.core r.slot) r.core r.slot
      else endMarked s r.core r.slot) := by
  have hreaches : ¬(r.kind ≠ .launch ∨ r.endSt.isNone = true ∨ (cslot (core s r.core) r.slot).req ≠ h ∨
      (cslot (core s r.core) r.slot).st = .free ∨ (cslot (core s r.core) r.slot).st = .ending) := by
    simp [hend.kind, hend.slot, hend.used, hend.going, Option.ne_none_iff_isSome.2 hend.asked]
  rw [← atHold_endMarked]
  show execEndRequest h s = _
  simp only [execEndRequest, hend.launch]
  exact congrArg Host.Outcome.next (if_neg hreaches)

/-! ## The end of a launch (R179, R226, R233, R238 to R243, R408 to R411) -/

/-- A TRAP stands in the open bundle of the launch (R184). -/
def trapOpen (s : State) (r : Req) : Bool :=
  match (core s r.core).opened with
  | some o => o.slot == r.slot && o.ends.isSome
  | none => false

/-- The bundle of a launch is closed first where a TRAP stands in it. -/
def trapClosed (s : State) (r : Req) : State := if trapOpen s r then closeB s r.core else s

theorem trapClosed_of_none {s : State} {r : Req}
    (hnone : ∀ o, (core s r.core).opened = some o → o.slot = r.slot → o.ends = none) : trapClosed s r = s := by
  refine if_neg ?_
  unfold trapOpen
  cases hopened : (core s r.core).opened with
  | none => exact Bool.false_ne_true
  | some o => simpa using hnone o hopened

theorem trapClosed_of_trap {s : State} {r : Req} {o : OpenB} (hopened : (core s r.core).opened = some o)
    (hown : o.slot = r.slot) (hends : o.ends.isSome = true) : trapClosed s r = closeB s r.core :=
  if_pos (by simp [trapOpen, hopened, hown, hends])

/-- The launch that holds its slot ends where it may, by its END or because it is ending (R179, R233). -/
theorem launchEnds_here {s : State} {h : Half} {r : Req} (hreq : req s h = some r) (hkind : r.kind = .launch)
    (hlive : r.done = false) (hslot : (cslot (core s r.core) r.slot).req = h)
    (hmay : mayFinish (trapClosed s r) r = true) :
    launchEnds s h = endNow (finishOwn (closeOwn (trapClosed s r) r.core r.slot) r.core r.slot) h
      ((cslot (core (trapClosed s r) r.core) r.slot).atEnd &&
        (cslot (core (trapClosed s r) r.core) r.slot).st != .ending) := by
  have hhere : ¬(r.kind ≠ .launch ∨ r.done = true ∨ (cslot (core s r.core) r.slot).req ≠ h) := by
    simp [hkind, hlive, hslot]
  have hends : ¬(!mayFinish (trapClosed s r) r) = true := by simp [hmay]
  simp only [launchEnds, hreq]
  exact (if_neg hhere).trans (if_neg hends)

theorem mayFinish_of_ending {u : State} {r : Req} (hending : (cslot (core u r.core) r.slot).st = .ending) :
    mayFinish u r = true := by simp [mayFinish, hending]

/-- END has stopped the launch, and nothing of it is queued or still to be read or to land (R179). -/
theorem mayFinish_of_end {u : State} {r : Req} (hstopped : (cslot (core u r.core) r.slot).atEnd = true)
    (hranges : r.ranges = []) (hlanded : allLanded r = true)
    (hqueued : ∀ a n g c, IssueE.out r.handle a n g c ∉ (core u r.core).issueQ) : mayFinish u r = true := by
  have hnone : ∀ e ∈ (core u r.core).issueQ, ∀ g a n seg c, e = IssueE.out g a n seg c → g ≠ r.handle := by
    rintro _ he g a n seg c rfl rfl
    exact hqueued a n seg c he
  simp only [mayFinish, hstopped, hranges, hlanded, List.isEmpty_nil, Bool.true_and, Bool.and_true, Bool.or_eq_true,
    Bool.not_eq_true', List.any_eq_false]
  refine .inr fun e he => ?_
  cases e with
  | out g a n seg c => simpa using hnone _ he g a n seg c rfl
  | _ => exact Bool.false_ne_true

/-- A launch that may end goes on to its status and tally, or to its replay, with its bundle closed and what it has under
way done. -/
theorem exec_launchEnd {s t : State} {h : Half} {r : Req} {v : Slot} {byEnd : Bool} (hdone : LaunchDone s h t r v byEnd) :
    exec (.launchEnd h) s = .next (endNow t h byEnd) := by
  obtain ⟨b, u, w, hreq, hkind, hlive, hslot, htrap, hw, hmay, ht, -, -⟩ := hdone
  have hclosed : trapClosed s b = u := by
    rcases htrap with ⟨hnone, rfl⟩ | ⟨⟨o, hopened, hown, hends⟩, rfl⟩
    · exact trapClosed_of_none hnone
    · exact trapClosed_of_trap hopened hown hends
  subst hw ht hclosed
  have hends : mayFinish (trapClosed s b) b = true ∧ ((cslot (core (trapClosed s b) b.core) b.slot).atEnd &&
      (cslot (core (trapClosed s b) b.core) b.slot).st != .ending) = byEnd := by
    rcases hmay with ⟨hending, rfl⟩ | ⟨hgoing, hstopped, hranges, hlanded, rfl, hqueued⟩
    · exact ⟨mayFinish_of_ending hending, by simp [hending]⟩
    · exact ⟨mayFinish_of_end hstopped hranges hlanded hqueued, by simp [hgoing, hstopped]⟩
  obtain ⟨hfinish, hby⟩ := hends
  show Host.Outcome.next (launchEnds s h) = _
  rw [launchEnds_here hreq hkind hlive hslot hfinish, hby]

/-- A launch whose first run reported a residue mismatch, and that nothing else ends, waits for its replay (R409, R410). -/
def awaitsReplay (r : Req) (v : Slot) : Prop :=
  r.endSt.isNone = true ∧ v.endExc = 0 ∧ r.reported = true ∧ r.replay = 0 ∧ r.rmode ≠ 0

theorem endNow_replay {t : State} {h : Half} {r : Req} (byEnd : Bool) (hreq : req t h = some r)
    (hreplay : awaitsReplay r (cslot (core t r.core) r.slot)) : endNow t h byEnd = toReplay t r := by
  simp only [endNow, hreq]
  exact if_pos hreplay

/-- Launch `r` has ended with status `st`: its slot is free and its command finished (R226, R233). -/
def launchEnded (h : Half) (r : Req) (byEnd : Bool) (u : State) (st : Status) : State :=
  settle (sweepVersions (finish (updReq (freeSlot (if byEnd then u else cnt u (coreReg r.core aSqCntEnded)) r.core r.slot) h
    (fun r' => { r' with
      done := true, ranges := [], dueCtrs := [], replay := if r'.replay = 2 then 3 else r'.replay })) r.q.toNat r.n st))

theorem endNow_ends {t : State} {h : Half} {r : Req} (byEnd : Bool) {w : State × Status} (hreq : req t h = some r)
    (hlast : ¬awaitsReplay r (cslot (core t r.core) r.slot))
    (hw : w = writeTally t r (match r.outs.head? with | some o => o.off | none => 0)
      (launchStatus r (cslot (core t r.core) r.slot))) :
    endNow t h byEnd = launchEnded h r byEnd
      (endColls (dropIssue (dropSegs (drainReq (noteReplay w.1 r w.2) h) h) h) r byEnd) w.2 := by
  subst hw
  simp only [endNow, hreq]
  exact if_neg hlast

/-! ## Collectives (R381, R382) -/

/-- Collective `c` of launch `h`, which holds its slot, is complete, and its counter has not risen. -/
structure CollEnds (s : State) (h idx : Half) (c : Coll) (r : Req) : Prop where
  found : collOf s h idx = some c
  complete : collDone s c = true
  unrisen : c.risen = false
  launch : req s h = some r
  live : r.done = false
  core : r.core = c.core
  slot : r.slot = c.slot
  holds : (cslot (Machine.core s c.core) c.slot).req = h

/-- The counter of a complete collective has risen, which is counted. -/
def collRisen (s : State) (h idx : Half) : State :=
  cnt (updColl s h idx (fun c => { c with risen := true })) aDlCntColl

/-- A PUT stays, for its target may still refuse it; a collective of another kind leaves (R382; log entry 88). -/
def collLeft (s : State) (h idx : Half) (c : Coll) : State :=
  if c.kind = 2 then s
  else { s with dl := { s.dl with colls := s.dl.colls.filter (fun d => !(d.req == h && d.index == idx)) } }

theorem exec_collectiveDone {s : State} {h idx : Half} {c : Coll} {r : Req} (hends : CollEnds s h idx c r) :
    exec (.collectiveDone h idx) s =
      .next (bumpCtr (collLeft (collRisen s h idx) h idx c) c.core c.slot c.ctr.toNat) := by
  have hrises : ¬((!collDone s c) = true ∨ c.risen = true) := by simp [hends.complete, hends.unrisen]
  have hcore (k : Nat) : core (collLeft (collRisen s h idx) h idx c) k = core s k := by
    unfold collLeft
    split <;> rfl
  have hreq : req (collLeft (collRisen s h idx) h idx c) h = some r := by
    rw [← hends.launch]
    unfold collLeft
    split <;> rfl
  have hslot : (cslot (core (collLeft (collRisen s h idx) h idx c) r.core) r.slot).req = h := by
    rw [hcore, hends.core, hends.slot]
    exact hends.holds
  rw [← hends.core, ← hends.slot, ← bumpOf_holds hreq hends.live hslot]
  show execCollectiveDone h idx s = _
  simp only [execCollectiveDone, hends.found]
  exact congrArg Host.Outcome.next (if_neg hrises)

/-- Settles O22: a yield point, an end request and a complete collective take the branch of their clause, and a launch that
may end does so in the state that `LaunchDone` names. -/
theorem endEventsComplete : Obligations.EndEventsComplete := by
  refine ⟨?idle, ?held, ?endsAtYield, ?yielded, ?marked, ?endedByRequest, ?ended, ?replayed, ?put, ?collective⟩
  case idle => exact fun s c hrun => exec_yieldPoint_none hrun
  case held =>
    intro s u c k hu hrun hheld
    subst hu
    exact exec_yieldPoint_held hrun hheld
  case endsAtYield =>
    intro s u c k hu hrun hroom hhold hend hgoing
    rw [exec_yieldPoint hu hrun hroom hhold (if_pos hend).symm hgoing, yields, if_pos hend]
  case yielded =>
    intro s u w c k hu hrun hroom hhold hopen hw hgoing hopen'
    rw [exec_yieldPoint hu hrun hroom hhold (hw.trans (if_neg (Bool.eq_false_iff.1 hopen)).symm) hgoing, yields,
      if_neg (Bool.eq_false_iff.1 hopen')]
  case marked =>
    intro s h r hreq hkind hasked hslot hruns hstopped hhold
    have hreaches : EndReaches s h r := ⟨hreq, hkind, hasked, hslot, by simp [hruns], by simp [hruns]⟩
    rw [exec_endRequest hreaches, if_neg (by simp [hruns, hstopped, hhold])]
    rfl
  case endedByRequest =>
    intro s h r hreq hkind hasked hslot hused hgoing hidle
    rw [exec_endRequest ⟨hreq, hkind, hasked, hslot, hused, hgoing⟩, if_pos hidle]
    rfl
  case ended =>
    intro s t h r v byEnd w hdone hlast hw
    have hfound := hdone
    obtain ⟨-, -, -, -, -, -, -, -, -, -, -, hreq, rfl⟩ := hfound
    exact ⟨_, rfl, (exec_launchEnd hdone).trans (congrArg Host.Outcome.next (endNow_ends byEnd hreq hlast hw))⟩
  case replayed =>
    intro s t h r v byEnd hdone hopen hexc hreported hfirst hmode
    have hfound := hdone
    obtain ⟨-, -, -, -, -, -, -, -, -, -, -, hreq, rfl⟩ := hfound
    rw [exec_launchEnd hdone, endNow_replay byEnd hreq ⟨by simp [hopen], hexc, hreported, hfirst, hmode⟩]
  case put =>
    rintro s h idx c hfound hdone hfresh hkind ⟨r, hreq, hlive, hcore, hslot, hholds⟩
    rw [exec_collectiveDone ⟨hfound, hdone, hfresh, hreq, hlive, hcore, hslot, hholds⟩, collLeft, if_pos hkind, collRisen]
  case collective =>
    rintro s h idx c hfound hdone hfresh hkind ⟨r, hreq, hlive, hcore, hslot, hholds⟩
    refine ⟨_, rfl, ?_⟩
    rw [exec_collectiveDone ⟨hfound, hdone, hfresh, hreq, hlive, hcore, hslot, hholds⟩, collLeft, if_neg hkind, collRisen]

end Sys2Proof.Machine

namespace Sys2Proof.Machine

/-! ## Messages that arrive in turn (R283, R285, R286, R289, R291) -/

theorem rxPkt_arrives {s u : State} {i n : Nat} {k : Pkt} (h : Arrives s u i n k) (g : State → State) :
    rxPkt s i n k g = g u := by
  obtain ⟨hup, hfec, hframe, rfl, hopen, hrc, hrts, hfrom⟩ := h
  have hlink : ¬(!linkOn s k.frame.mac) = true := by simp [hup]
  have hwhole : ¬k.frame.fec = true := by simp [hfec]
  have htaken : ¬(!frameOk s k.frame) = true := by simp [hframe]
  have hits : ¬(closed (cntN s aNpCntRxPkt 0 n) || !k.rc || !qpRts (cntN s aNpCntRxPkt 0 n) i ||
      !pktFrom (cntN s aNpCntRxPkt 0 n) i k) = true := by simp [hopen, hrc, hrts, hfrom]
  exact (if_neg hlink).trans ((if_neg hwhole).trans ((if_neg htaken).trans (if_neg hits)))

/-- The request with the PSN expected next acts, its PSNs taken (R289). -/
theorem rxReq_inTurn {s u : State} {i n m : Nat} {k : Pkt} (h : Arrives s u i n k) (hturn : k.psn = (qp u i).epsn)
    (again g : State → State) : rxReq s i n m k again g = g (tookPsn u i m) := by
  rw [rxReq, rxPkt_arrives h]
  exact if_pos (by simp [hturn])

theorem rxWrite_inTurn {s u : State} {i n : Nat} {k : Pkt} (h : Arrives s u i (pkts s i n) k)
    (hturn : k.psn = (qp u i).epsn) (g : State → State) :
    rxWrite s i n k g = g (dropImm (tookPsn u i (pkts s i n)) k) := rxReq_inTurn h hturn _ _

/-- A READ in turn is served where fewer than 16 of its queue pair are unanswered (R289). -/
theorem rxRead_inTurn {s u : State} {i n : Nat} {k : Pkt} (h : Arrives s u i 1 k) (hturn : k.psn = (qp u i).epsn)
    (hfew : peerReads (tookPsn u i (pkts s i n)) i < 16) (g : State → State) :
    rxRead s i n k g = g (tookPsn u i (pkts s i n)) := by
  rw [rxRead, rxReq_inTurn h hturn]
  exact if_neg (Nat.not_le.2 hfew)

/-! ## Accesses to configuration space (R185, R286, R289, R292, R505) -/

theorem not_otherRole {s : State} {i r : Nat} (hrole : qpRole s i = r) : ¬otherRole s i r = true := by
  simp [otherRole, hrole]

/-- The queue pair of an RDMA access to configuration space: the management one or an Owner's (R287). -/
def rdmaQp (mgmt : Bool) (q : BitVec 12) : Nat := if mgmt then 4096 else q.toNat

/-- An RDMA access to configuration space is a secure one of its queue pair (R292). -/
def rdmaAcc (mgmt : Bool) (q : BitVec 12) : Acc := { who := if mgmt then .mgmt else .ownerQp q, secure := true }

/-- What a WRITE of `data` does once its PSNs are taken: a wrong R_Key or alignment is answered with a NAK; else its words
act in ascending order, and it is acknowledged while its queue pair may still access (R286, R292). -/
def rdmaWriteTaken (mgmt : Bool) (q : BitVec 12) (k : Pkt) (rkey : Word) (va : Dword) (data : Bytes) (s : State) : State :=
  if rkey ≠ 0 ∨ va.toNat % 4 ≠ 0 ∨ data.length % 4 ≠ 0 then nakAccess s (rdmaQp mgmt q) k.psn
  else if mayAccess (rdmaWrite (rdmaAcc mgmt q) (data.length / 4) va.toNat data s) (rdmaAcc mgmt q) then
    ackTo (rdmaWrite (rdmaAcc mgmt q) (data.length / 4) va.toNat data s) (rdmaQp mgmt q) k.psn
  else rdmaWrite (rdmaAcc mgmt q) (data.length / 4) va.toNat data s

/-- What a READ of `n` bytes does once its PSNs are taken: its words are read in ascending order, and it is answered while
its queue pair may still access (R286, R292). -/
def rdmaReadTaken (mgmt : Bool) (q : BitVec 12) (k : Pkt) (rkey : Word) (va : Dword) (n : Nat) (s : State) : State :=
  if rkey ≠ 0 ∨ va.toNat % 4 ≠ 0 ∨ n % 4 ≠ 0 then nakAccess s (rdmaQp mgmt q) k.psn
  else if mayAccess (rdmaRead (rdmaAcc mgmt q) (n / 4) va.toNat s).2 (rdmaAcc mgmt q) then
    respTo (rdmaRead (rdmaAcc mgmt q) (n / 4) va.toNat s).2 (rdmaQp mgmt q) k.psn
      (rdmaRead (rdmaAcc mgmt q) (n / 4) va.toNat s).1
  else (rdmaRead (rdmaAcc mgmt q) (n / 4) va.toNat s).2

/-- A WRITE in turn of a queue pair that serves configuration space. -/
theorem exec_configRdmaAccess_write {s u : State} {mgmt : Bool} {q : BitVec 12} {k : Pkt} (rkey : Word) (va : Dword)
    (len : Nat) {data : Bytes} (harrives : Arrives s u (rdmaQp mgmt q) (pkts s (rdmaQp mgmt q) data.length) k)
    (hturn : k.psn = (qp u (rdmaQp mgmt q)).epsn) (hrole : qpRole s (rdmaQp mgmt q) = 3) :
    exec (.configRdmaAccess mgmt ⟨q, k⟩ true rkey va len data) s = .next (rdmaWriteTaken mgmt q k rkey va data
      (dropImm (tookPsn u (rdmaQp mgmt q) (pkts s (rdmaQp mgmt q) data.length)) k)) :=
  congrArg Host.Outcome.next ((if_neg (not_otherRole hrole)).trans
    (rxWrite_inTurn harrives hturn (rdmaWriteTaken mgmt q k rkey va data)))

/-- A READ in turn of a queue pair that serves configuration space. -/
theorem exec_configRdmaAccess_read {s u : State} {mgmt : Bool} {q : BitVec 12} {k : Pkt} (rkey : Word) (va : Dword)
    {len : Nat} (data : Bytes) (harrives : Arrives s u (rdmaQp mgmt q) 1 k)
    (hturn : k.psn = (qp u (rdmaQp mgmt q)).epsn) (hrole : qpRole s (rdmaQp mgmt q) = 3)
    (hfew : peerReads (tookPsn u (rdmaQp mgmt q) (pkts s (rdmaQp mgmt q) len)) (rdmaQp mgmt q) < 16) :
    exec (.configRdmaAccess mgmt ⟨q, k⟩ false rkey va len data) s = .next (rdmaReadTaken mgmt q k rkey va len
      (tookPsn u (rdmaQp mgmt q) (pkts s (rdmaQp mgmt q) len))) :=
  congrArg Host.Outcome.next ((if_neg (not_otherRole hrole)).trans
    (rxRead_inTurn harrives hturn hfew (rdmaReadTaken mgmt q k rkey va len)))

/-- Settles O51: the requester may access, so its access is made; an RDMA access in turn is taken word by word. -/
theorem accessesComplete : Obligations.AccessesComplete := by
  refine ⟨?write, ?read, ?windowWrite, ?windowRead, ?rdmaWrite, ?rdmaRead, ?refused⟩
  case write => exact fun s a addr v hacc => congrArg Host.Outcome.next (acc1_of_mayAccess _ hacc)
  case read => exact fun s a addr hacc => congrArg Host.Outcome.next (acc1_of_mayAccess _ hacc)
  case windowWrite => exact fun s a c off v hacc => congrArg Host.Outcome.next (acc1_of_mayAccess _ hacc)
  case windowRead => exact fun s a c off v hacc => congrArg Host.Outcome.next (acc1_of_mayAccess _ hacc)
  case rdmaWrite =>
    intro s u w z mgmt q k va len i data a hi harrives hturn hrole hva hlen ha hw hz
    subst hi ha hw hz
    exact (exec_configRdmaAccess_write 0 va len harrives hturn hrole).trans
      (congrArg Host.Outcome.next (if_neg (by simp [hva, hlen])))
  case rdmaRead =>
    intro s u w mgmt q k va len i data a r hi harrives hturn hrole hva hlen ha hw hfew hr
    subst hi ha hw hr
    exact (exec_configRdmaAccess_read 0 va data harrives hturn hrole hfew).trans
      (congrArg Host.Outcome.next (if_neg (by simp [hva, hlen])))
  case refused =>
    intro s u mgmt q k rkey va len i data hi harrives hturn hrole hbad
    subst hi
    exact (exec_configRdmaAccess_write rkey va len harrives hturn hrole).trans
      (congrArg Host.Outcome.next (if_pos hbad))

end Sys2Proof.Machine

namespace Sys2Proof.Machine

/-! ## Slot A (R190, R191, R198) -/

theorem exec_aclr {s : State} {c : Core2} {o : OpenB} {v : Slot} (set : BitVec 2) (hopen : openSlots s c = some (o, v))
    (hfree : o.a = false) :
    exec (.aclr c set) s = .next (cnt (updCore (addOpen (takeA s c) c
      { due := o.at_ + 10, reads := false, mav := some o.slot, act := .clearAcc set.toNat }) c (fun x => { x with
        maRun := x.maRun ++ [(set.toNat, v.pace, o.at_ + 2, o.at_ + 10)] })) (coreReg c aMaCntInstr)) := by
  refine congrArg Host.Outcome.next ?_
  simp only [hopen]
  exact if_neg (Bool.eq_false_iff.1 hfree)

/-- Job `j` is what an MMA makes of its readable descriptor, in a combination of formats that the array has and with
blocks to multiply (R187, R198). -/
structure MmaSound (s : State) (c : Core2) (o : OpenB) (v : Slot) (sd : Scr) (xw xx : BitVec 5) (set : BitVec 2)
    (zero : Bool) (j : MaJob) : Prop where
  readable : (readDesc s c v sd).2 = false
  job : j = maJob o.slot v o.at_ o.pc set.toNat zero (xreg v xw.toNat) (xreg v xx.toNat) (readDesc s c v sd).1
  formats : maComb j.w j.x = true
  lines : maN j ≠ 0
  blocks : j.kb ≠ 0

theorem exec_mma {s : State} {c : Core2} {o : OpenB} {v : Slot} {sd : Scr} {xw xx : BitVec 5} {set : BitVec 2}
    {zero : Bool} {j : MaJob} (hopen : openSlots s c = some (o, v)) (hfree : o.a = false)
    (h : MmaSound s c o v sd xw xx set zero j) :
    exec (.mma c sd xw xx set zero) s = .next (cnt (updCore (addOpen
      (noteDesc (takeA s c) c o v (readDesc s c v sd)) c
      { due := o.at_ + 2, reads := true, mav := some o.slot, act := .maFetch j }) c (fun x => { x with
        maRun := x.maRun ++ [(set.toNat, v.pace, o.at_ + 2, o.at_ + 2 + j.occ)] })) (coreReg c aMaCntInstr)) := by
  obtain ⟨hread, hjob, hformats, hlines, hblocks⟩ := h
  have hlegal : ¬((!maComb j.w j.x) = true ∨ maN j = 0 ∨ j.kb = 0) := by simp [hformats, hlines, hblocks]
  refine congrArg Host.Outcome.next ?_
  simp only [hopen, ← hjob]
  exact (if_neg (Bool.eq_false_iff.1 hfree)).trans ((if_neg (Bool.eq_false_iff.1 hread)).trans (if_neg hlegal))

/-! ## Slot V (R207, R210, R212, R213) -/

/-- A vector operation that may start does, whichever its opcode. -/
theorem startVe_started {s : State} {c : Core2} {o : OpenB} {v : Slot} {sd : Scr} {xo : BitVec 5} {op : Nat}
    {fn act : BitVec 4} {rule : Bool} {imm : Half} {j : VeJob} (h : StartsV s c o v sd xo op fn act rule imm j) :
    startVe c sd xo op fn act rule imm s = startedV s c o v sd op j := by
  obtain ⟨hopen, hfree, hread, hjob, hfn, hact, helems⟩ := h
  have hlegal : ¬((!veFnOk j) = true ∨ 10 < j.act ∨ j.rows * j.cols = 0) := by
    simpa [hfn, hact] using helems
  simp only [startVe, hopen, ← hjob]
  exact (if_neg (Bool.eq_false_iff.1 hfree)).trans ((if_neg (Bool.eq_false_iff.1 hread)).trans (if_neg hlegal))

/-- Settles O20: slots A and V are untaken and the operands sound, so each instruction starts in its cycle. -/
theorem enginesComplete : Obligations.EnginesComplete := by
  refine ⟨?anop, ?aclr, ?mma, ?vnop, ?vew, ?vscan, ?vred⟩
  case anop => exact fun s c => rfl
  case aclr => exact fun s c o v set hopen hfree => exec_aclr set hopen hfree
  case mma =>
    exact fun s c o v sd xw xx set zero j hopen hfree hread hjob hformats hlines hblocks =>
      exec_mma hopen hfree ⟨hread, hjob, hformats, hlines, hblocks⟩
  case vnop => exact fun s c => rfl
  case vew => exact fun s c o v sd xo fn act rule imm j h => congrArg Host.Outcome.next (startVe_started h)
  case vscan => exact fun s c o v sd xo fn act rule imm j h => congrArg Host.Outcome.next (startVe_started h)
  case vred => exact fun s c o v sd xo fn act rule imm j h => congrArg Host.Outcome.next (startVe_started h)

end Sys2Proof.Machine

namespace Sys2Proof.Machine

/-! ## Registers that only the secure world writes (R14, R205, R344, R352) -/

theorem secureOnly_of_nonsecure (s : State) {a : Acc} (block inst addr : Nat) (g : State → State) (h : a.secure = false) :
    secureOnly s a block inst addr g = worldViolation s block inst addr a.who := if_neg (Bool.eq_false_iff.1 h)

/-- Settles O38: the access may come, so the secure world's write is made and the other world's is a violation. -/
theorem injectionRegistersComplete : Obligations.InjectionRegistersComplete := by
  refine ⟨?share, ?eccInjection, ?residueInjection, ?violation⟩
  case share => exact fun s a f v hacc hsec => next_acc1 hacc (secureOnly_of_secure s _ _ _ _ hsec)
  case eccInjection => exact fun s a f v hacc hsec => next_acc1 hacc (secureOnly_of_secure s _ _ _ _ hsec)
  case residueInjection => exact fun s a c v hacc hsec => next_acc1 hacc (secureOnly_of_secure s _ _ _ _ hsec)
  case violation => exact fun s a f v hacc hnonsecure => next_acc1 hacc (secureOnly_of_nonsecure s _ _ _ _ hnonsecure)

end Sys2Proof.Machine

namespace Sys2Proof.Machine

/-! ## Reports of errors (R400, R401, R421) -/

/-- An event that neither a containment reset nor a held reset silences is heard. -/
theorem not_silenced {s : State} (hcontain : s.pc.orderly ≠ some 3) (hheld : heldInReset s = false) :
    ¬(decide (s.pc.orderly = some 3) || heldInReset s) = true := by
  simpa [hheld] using hcontain

theorem exec_errorReport_corrected {s : State} {e : ErrRep} (hcontain : s.pc.orderly ≠ some 3)
    (hheld : heldInReset s = false) (hcorrected : e.corrected = true) :
    exec (.errorReport e) s = .next (if e.code = 1 then
        cnt (ceCount s e.code.toNat e.block.toNat e.inst.toNat) (foldReg (e.inst.toNat % 8) aFmChCe)
          (bits e.location.toNat 51 48)
      else if e.code = 9 then
        cnt (ceCount s e.code.toNat e.block.toNat e.inst.toNat) (coreReg (e.inst.toNat % 2) aMaCntEcc)
      else ceCount s e.code.toNat e.block.toNat e.inst.toNat) :=
  congrArg Host.Outcome.next ((if_neg (not_silenced hcontain hheld)).trans (if_pos hcorrected))

theorem exec_errorReport_uncorrected {s : State} {e : ErrRep} (hcontain : s.pc.orderly ≠ some 3)
    (hheld : heldInReset s = false) (huncorrected : e.corrected = false) :
    exec (.errorReport e) s = .next (if e.illegal then logEv s (ueEv s e 8 e.location.toNat e.detail.toNat 0)
      else if privCode e.code.toNat then privError s e else structError s e) :=
  congrArg Host.Outcome.next
    ((if_neg (not_silenced hcontain hheld)).trans (if_neg (Bool.eq_false_iff.1 huncorrected)))

theorem exec_errorReport_uncorrectable {s : State} {e : ErrRep} (hcontain : s.pc.orderly ≠ some 3)
    (hheld : heldInReset s = false) (huncorrected : e.corrected = false) (hlegal : e.illegal = false) :
    exec (.errorReport e) s = .next (if privCode e.code.toNat then privError s e else structError s e) :=
  (exec_errorReport_uncorrected hcontain hheld huncorrected).trans
    (congrArg Host.Outcome.next (if_neg (Bool.eq_false_iff.1 hlegal)))

theorem exec_errorReport_containmentReset {s : State} (e : ErrRep) (hcontain : s.pc.orderly = some 3) :
    exec (.errorReport e) s = .next s :=
  congrArg Host.Outcome.next (if_pos (by simp [hcontain]))

/-! ## Residue mismatches, records and modules (R205, R400, R409, R413, R416) -/

/-- Marking an output SUSPECT leaves the launch slots as they are. -/
@[simp] theorem cslot_suspectOut (x : Core) (k set bundle m n i : Nat) :
    cslot (suspectOut x k set bundle m n) i = cslot x i := by
  simp only [suspectOut]
  split
  · rfl
  · rfl

theorem exec_residueMismatch {s : State} {c : Core2} {k : Nat} (e : AccAt) (bundle : BitVec 17) (hopen : closed s = false)
    (hrun : (core s c).run = some k) :
    exec (.residueMismatch c e bundle) s = .next (residueReport
      (updCore s c (fun x => suspectOut x k e.set.toNat bundle.toNat e.m.toNat e.n.toNat)) c k (cslot (core s c) k).req
      e.set.toNat bundle.toNat) := by
  refine congrArg Host.Outcome.next ?_
  simp only [hrun, core_updCore_same, cslot_suspectOut]
  exact if_neg (Bool.eq_false_iff.1 hopen)

theorem exec_faultRecordClose {s : State} {recno : Word} (hrec : (flogAt s (recno.toNat % 256)).recno = recno)
    (hrecOpen : (flogAt s (recno.toNat % 256)).open_ = true) :
    exec (.faultRecordClose recno) s =
      .next (setFlog s (recno.toNat % 256) { flogAt s (recno.toNat % 256) with open_ := false }) :=
  congrArg Host.Outcome.next (if_pos ⟨hrec, hrecOpen⟩)

theorem exec_ucieModuleDown {s : State} (f : Fin 8) (m : Fin 2) (retrained : Bool) (hopen : closed s = false)
    (hheld : heldInReset s = false) :
    exec (.ucieModuleDown f m retrained) s = .next (moduleDown (draw s).2 f m retrained (draw s).1) :=
  congrArg Host.Outcome.next (if_neg (by simp [hopen, hheld]))

/-- Settles O39: a report that is heard is sorted by whether it is corrected, illegal or privileged, and each other event
meets the condition in which it happens. -/
theorem errorEventsComplete : Obligations.ErrorEventsComplete := by
  refine ⟨?corrected, ?illegal, ?privileged, ?structural, ?ignored, ?residue, ?closes, ?consumed, ?module, ?done⟩
  case corrected =>
    intro s u e hcontain hheld hcorrected hu
    subst hu
    exact exec_errorReport_corrected hcontain hheld hcorrected
  case illegal =>
    intro s e hcontain hheld huncorrected hillegal
    exact (exec_errorReport_uncorrected hcontain hheld huncorrected).trans
      (congrArg Host.Outcome.next (if_pos hillegal))
  case privileged =>
    intro s e hcontain hheld huncorrected hlegal hpriv
    exact (exec_errorReport_uncorrectable hcontain hheld huncorrected hlegal).trans
      (congrArg Host.Outcome.next (if_pos hpriv))
  case structural =>
    intro s e hcontain hheld huncorrected hlegal hpriv
    exact (exec_errorReport_uncorrectable hcontain hheld huncorrected hlegal).trans
      (congrArg Host.Outcome.next (if_neg (Bool.eq_false_iff.1 hpriv)))
  case ignored => exact fun s e hcontain => exec_errorReport_containmentReset e hcontain
  case residue => exact fun s c set bundle m n k hopen hrun => exec_residueMismatch ⟨set, m, n⟩ bundle hopen hrun
  case closes => exact fun s recno hrec hrecOpen => exec_faultRecordClose hrec hrecOpen
  case consumed => exact fun s a v hacc hsec => next_acc1 hacc (secureOnly_of_secure s _ _ _ _ hsec)
  case module => exact fun s f m retrained hopen hheld => exec_ucieModuleDown f m retrained hopen hheld
  case done => exact fun s => rfl

end Sys2Proof.Machine

namespace Sys2Proof.Machine

/-! ## The row of a ring command with its dispatch and its landing (R252, R253, R271) -/

/-- A command that is dispatched now takes the first part of its row, its entry counted. -/
theorem ownOr_dispatched {s : State} {op q : Nat} {n : Word} {c : Cmd} {no first landed : State → Cmd → State}
    (h : Dispatched s q n op c) : ownOr no op q n first landed s = first (cnt s aFeCntEntries) c := by
  obtain ⟨hcmd, hop, hphase, hgo, hblock⟩ := h
  simp only [ownOr, hcmd, hphase]
  rw [if_neg (not_not_intro hop), if_neg (by simp [hgo]), if_neg (by simp [hblock])]

theorem ownOr_landed {s : State} {op q : Nat} {n : Word} {c : Cmd} {no first landed : State → Cmd → State}
    (h : LandedNow s q n op c) : ownOr no op q n first landed s = landed s c := by
  obtain ⟨hcmd, hop, hphase⟩ := h
  simp only [ownOr, hcmd, hphase]
  exact if_neg (not_not_intro hop)

theorem own_dispatched {s : State} {op q : Nat} {n : Word} {c : Cmd} {first landed : State → Cmd → State}
    (h : Dispatched s q n op c) : own op q n first landed s = first (cnt s aFeCntEntries) c := ownOr_dispatched h

theorem own_landed {s : State} {op q : Nat} {n : Word} {c : Cmd} {first landed : State → Cmd → State}
    (h : LandedNow s q n op c) : own op q n first landed s = landed s c := ownOr_landed h

/-! ## A command goes to the admission (R228, R264) -/

theorem updFirst_updFirst {α : Type} {p : α → Bool} {f g : α → α} (hf : ∀ x, p x = true → p (f x) = true) (l : List α) :
    updFirst p g (updFirst p f l) = updFirst p (fun x => g (f x)) l := by
  induction l with
  | nil => rfl
  | cons x l ih =>
    by_cases hx : p x = true
    · simp [updFirst, hx, hf x hx]
    · simp [updFirst, hx, ih]

/-- Where nothing passed a test, the first match of a change that makes it pass is the only one that does. -/
theorem filter_updFirst_of_none {α : Type} {p r : α → Bool} {g : α → α} {c : α} (hg : r (g c) = true) (l : List α)
    (hnone : ∀ x ∈ l, r x = false) (hfound : l.find? p = some c) : (updFirst p g l).filter r = [g c] := by
  induction l with
  | nil => simp at hfound
  | cons x l ih =>
    obtain ⟨hx, hl⟩ := List.forall_mem_cons.1 hnone
    by_cases hp : p x = true
    · obtain rfl : x = c := by simpa [hp] using hfound
      have hrest : l.filter r = [] := List.filter_eq_nil_iff.2 fun y hy => by simp [hl y hy]
      simp [updFirst, hp, hg, hrest]
    · have hfound' : l.find? p = some c := by simpa [hp] using hfound
      simpa [updFirst, hp, hx] using ih hl hfound'

theorem key_of_cmd {s : State} {q : Nat} {n : Word} {c : Cmd} (h : cmd s q n = some c) : c.q.toNat = q ∧ c.n = n := by
  simpa using List.find?_some h

/-- The command as it stands at the admission: it has its place in the order of arrival (R264). -/
def atAdmission (s : State) (c : Cmd) : Cmd := { c with arrival := s.fe.nextArrival + 1, phase := .admission }

/-- Nothing waits at the admission, no command and no replay. -/
structure AdmissionEmpty (s : State) : Prop where
  noCmd : ∀ x ∈ s.fe.cmds, x.phase ≠ .admission
  noReplay : ∀ r ∈ s.reqs, r.replay ≠ 1

/-- The command that goes to an empty admission stands at its head. -/
theorem admHead_setPhase_arrive {s : State} {q : Nat} {n : Word} {c : Cmd} (hcmd : cmd s q n = some c)
    (hempty : AdmissionEmpty s) : admHead (setPhase (arrive s c) c .admission) = some (atAdmission s c) := by
  have hreplay : ¬s.reqs.any (fun r => r.replay == 1) = true := by simpa using hempty.noReplay
  have hfound : s.fe.cmds.find? (fun x => x.q.toNat == c.q.toNat && x.n == c.n) = some c := by
    obtain ⟨hq, hn⟩ := key_of_cmd hcmd
    rw [hq, hn]
    exact hcmd
  have hcmds : (setPhase (arrive s c) c .admission).fe.cmds =
      updFirst (fun x => x.q.toNat == c.q.toNat && x.n == c.n) (atAdmission s) s.fe.cmds :=
    updFirst_updFirst (p := fun x : Cmd => x.q.toNat == c.q.toNat && x.n == c.n)
      (f := fun x => { x with arrival := s.fe.nextArrival + 1 }) (g := fun x => { x with phase := .admission })
      (fun _ hx => hx) s.fe.cmds
  have hwaits : (setPhase (arrive s c) c .admission).fe.cmds.filter (fun x => x.phase == .admission) =
      [atAdmission s c] := by
    rw [hcmds]
    exact filter_updFirst_of_none rfl _ (fun x hx => by simp [hempty.noCmd x hx]) hfound
  calc admHead (setPhase (arrive s c) c .admission)
      = ((setPhase (arrive s c) c .admission).fe.cmds.filter (fun x => x.phase == .admission)).foldl (fun b x =>
          match b with | none => some x | some d => if x.arrival < d.arrival then some x else some d) none :=
        if_neg hreplay
    _ = some (atAdmission s c) := by rw [hwaits]; rfl

/-! ## LAUNCH from its dispatch to the admission (R266, R377) -/

theorem exec_launch_dispatched {s : State} {q : BitVec 10} {n : Word} {c : Cmd} (h : Dispatched s q.toNat n 1 c)
    (hgid : cF c 16 2 < 1024) (hin : 1 ≤ lNseg c ∧ lNseg c ≤ 16) (hout : 1 ≤ lNoseg c ∧ lNoseg c ≤ 16)
    (hres : zero c 32 32 = true) (hlen : cF c 20 4 = 64 + 16 * (lNseg c + lNoseg c))
    (hsrc : srcOk c (cF c 24 8) (cF c 20 4) = true) :
    exec (.launch q n) s = .next (fetchSrc (cnt s aFeCntEntries) c .args (cF c 24 8) (cF c 20 4)) := by
  have hoperands : ¬(1024 ≤ cF c 16 2 ∨ lNseg c = 0 ∨ 16 < lNseg c ∨ lNoseg c = 0 ∨ 16 < lNoseg c ∨
      (!zero c 32 32) = true) := by
    simp only [hres, Bool.not_true, Bool.false_eq_true, or_false]
    omega
  rw [hlen] at hsrc ⊢
  exact congrArg Host.Outcome.next ((own_dispatched h).trans ((if_neg hoperands).trans
    ((if_neg (not_not_intro hlen)).trans (if_neg (by simp [hsrc])))))

/-- A landed LAUNCH of no group's tables, or of no version, goes to the admission. -/
theorem exec_launch_ungrouped {s : State} {q : BitVec 10} {n : Word} {c : Cmd} (h : LandedNow s q.toNat n 1 c)
    (hargs : launchArgs c = true)
    (hgroup : ∀ v, curVer (setPhase (arrive s c) c .admission) (cF c 16 2) = some v →
      groupTids (setPhase (arrive s c) c .admission) v.image = []) :
    exec (.launch q n) s = .next (setPhase (arrive s c) c .admission) := by
  refine congrArg Host.Outcome.next ((own_landed h).trans ((if_neg (by simp [hargs])).trans ?_))
  dsimp only
  split
  next v d hver _ => exact if_pos (by rw [hgroup v hver]; rfl)
  next => rfl

/-- A landed LAUNCH of a group's tables asks for their epochs at the admission. -/
theorem exec_launch_grouped {s t : State} {q : BitVec 10} {n : Word} {c d : Cmd} {v : Version}
    (h : LandedNow s q.toNat n 1 c) (hargs : launchArgs c = true) (ht : t = setPhase (arrive s c) c .admission)
    (hver : curVer t (cF c 16 2) = some v) (hcmd : cmd t q.toNat n = some d) (hgroup : groupTids t v.image ≠ []) :
    exec (.launch q n) s = .next (askPins t d (groupTids t v.image)) := by
  subst ht
  refine congrArg Host.Outcome.next ((own_landed h).trans ((if_neg (by simp [hargs])).trans ?_))
  simp only [hver, hcmd]
  exact if_neg (by simpa using hgroup)

/-- A member that may ask sends its leader the request's key and tables. -/
theorem askPins_sent {s u : State} {c : Cmd} {key : Word} (tids : List Nat)
    (hmember : s.dl.dissolved = false ∧ grpOn s = true) (hprimary : isGrpMirror s = false)
    (hroute : reaches s (leader s) = true) (hkey : key = BitVec.ofNat 32 (fld c.data 60 4))
    (hu : u = updCmd s c.q.toNat c.n (fun c => { c with asked := some key })) :
    askPins s c tids =
      droveSend u (leader u) (.pinReq (BitVec.ofNat 12 (myId u)) key (tids.map (BitVec.ofNat 12))) := by
  obtain ⟨hgroup, hon⟩ := hmember
  subst hkey hu
  simp only [askPins]
  rw [if_neg (by simp [hgroup, hon]), if_neg (by simp [hprimary]), if_neg (by simp [hroute])]

/-! ## LOOKUP from its dispatch to the admission (R270) -/

theorem exec_lookup_dispatched {s : State} {q : BitVec 10} {n : Word} {c : Cmd} (h : Dispatched s q.toNat n 2 c)
    (hprogs : 1 ≤ cF c 16 1 ∧ cF c 16 1 ≤ 64) (hres : zero c 17 3 = true) (hres' : zero c 32 32 = true)
    (hlen : cF c 20 4 = 16 + 80 * cF c 16 1) (hsrc : srcOk c (cF c 24 8) (cF c 20 4) = true) :
    exec (.lookup q n) s = .next (fetchSrc (cnt s aFeCntEntries) c .args (cF c 24 8) (cF c 20 4)) := by
  have hoperands : ¬(cF c 16 1 = 0 ∨ 64 < cF c 16 1 ∨ (!zero c 17 3) = true ∨ (!zero c 32 32) = true) := by
    simp only [hres, hres', Bool.not_true, Bool.false_eq_true, or_false]
    omega
  rw [hlen] at hsrc ⊢
  exact congrArg Host.Outcome.next ((own_dispatched h).trans ((if_neg hoperands).trans
    ((if_neg (not_not_intro hlen)).trans (if_neg (by simp [hsrc])))))

theorem exec_lookup_landed {s : State} {q : BitVec 10} {n : Word} {c : Cmd} (h : LandedNow s q.toNat n 2 c)
    (hres : fld c.data 4 4 = 0) (hdst : plainAddr (fld c.data 8 8) = true)
    (hprogs : ∀ p < cF c 16 1, lookupField c p = true ∧ (kBody c p).1 = 4 * bodyLen (kDesc c p)) :
    exec (.lookup q n) s = .next (setPhase (arrive s c) c .admission) := by
  have hfields : (List.range (cF c 16 1)).all (lookupField c) = true :=
    List.all_eq_true.2 fun p hp => (hprogs p (List.mem_range.1 hp)).1
  have hbodies : (List.range (cF c 16 1)).all (fun p => (kBody c p).1 == 4 * bodyLen (kDesc c p)) = true :=
    List.all_eq_true.2 fun p hp => beq_iff_eq.2 (hprogs p (List.mem_range.1 hp)).2
  exact congrArg Host.Outcome.next ((own_landed h).trans ((if_neg (by simp [hres, hdst, hfields])).trans
    (if_neg (by simp [hbodies]))))

/-- Settles O7: a dispatched command reads its argument block, a landed one goes to the admission, and from an empty
admission, where it stands at the head, it is admitted as the admission's own rules say. -/
theorem launchAndLookupComplete : Obligations.LaunchAndLookupComplete := by
  refine ⟨?launchReads, ?launchArrives, ?launchAsks, ?lookupReads, ?lookupArrives, ?launchRuns, ?lookupRuns⟩
  case launchReads =>
    exact fun s q n c h hgid hin hin' hout hout' hres hlen hsrc =>
      exec_launch_dispatched h hgid ⟨hin, hin'⟩ ⟨hout, hout'⟩ hres hlen hsrc
  case launchArrives => exact fun s q n c h hargs hgroup => exec_launch_ungrouped h hargs hgroup
  case launchAsks =>
    intro s t q n c d v key h hargs ht hver hgroup hcmd hdis hon hprimary hroute hkey
    refine ⟨_, rfl, ?_⟩
    rw [exec_launch_grouped h hargs ht hver hcmd hgroup, askPins_sent _ ⟨hdis, hon⟩ hprimary hroute hkey rfl]
  case lookupReads =>
    exact fun s q n c h hprogs hprogs' hres hres' hlen hsrc =>
      exec_lookup_dispatched h ⟨hprogs, hprogs'⟩ hres hres' hlen hsrc
  case lookupArrives => exact fun s q n c h hres hdst hprogs => exec_lookup_landed h hres hdst hprogs
  case launchRuns =>
    intro s t u q n c d v pins k slot base h hargs hnoCmd hnoReplay ht hd hver hgroup hpass hpins hreadable hchosen hroom
      hadmitted
    subst ht
    obtain rfl : d = atAdmission s c := hd
    obtain ⟨hcmd, hop, -⟩ := id h
    have hhead : LaunchAtHead (setPhase (arrive s c) c .admission) (atAdmission s c) v :=
      ⟨admHead_setPhase_arrive hcmd ⟨hnoCmd, hnoReplay⟩, hop, hver⟩
    refine ⟨exec_launch_ungrouped h hargs fun w hw => by rw [← Option.some.inj (hver.symm.trans hw), hgroup], ?_⟩
    rw [exec_launchAdmission_room hhead hpass hgroup hpins hreadable hchosen hroom, hadmitted]
    rfl
  case lookupRuns =>
    intro s t u q n c d ctxs h hres hdst hprogs hnoCmd hnoReplay ht hd htables hpair hprogOk hbound
    subst ht hd
    obtain ⟨hcmd, hop, -⟩ := id h
    exact ⟨_, lookupReq u _ _, exec_lookup_landed h hres hdst hprogs,
      exec_lookupAdmission_admitted (admHead_setPhase_arrive hcmd ⟨hnoCmd, hnoReplay⟩) hop htables hpair hprogOk hbound,
      rfl, rfl, rfl, (key_of_cmd hcmd).2, rfl, rfl, rfl⟩

end Sys2Proof.Machine

namespace Sys2Proof.Machine

/-! ## GRAPH_STORE and GRAPH_PATCH from their dispatch to the check (R219, R222 to R224) -/

theorem exec_graphStore_dispatched {s : State} {q : BitVec 10} {n : Word} {c : Cmd} (h : Dispatched s q.toNat n 7 c)
    (hres : zero c 16 4 = true) (hres' : zero c 32 32 = true) (haddr : plainAddr (cF c 24 8) = true)
    (hlen : 1024 ≤ cF c 20 4) :
    exec (.graphStore q n) s = .next (fetchSrc (arrived s c) c .image (cF c 24 8) (cF c 20 4)) :=
  congrArg Host.Outcome.next ((ownOr_dispatched h).trans ((if_neg (by simp [hres, hres', haddr])).trans
    (if_neg (Nat.not_lt.2 hlen))))

/-- A landed image that fails no check goes under the check of its code. -/
theorem exec_graphStore_landed {s : State} {q : BitVec 10} {n : Word} {c : Cmd} (h : LandedNow s q.toNat n 7 c)
    (hpass : imageFail s (queue s c.q.toNat).world c.data true (gCores c.data) = none) :
    exec (.graphStore q n) s = .next (underCheck s c c.data) := by
  refine congrArg Host.Outcome.next ((ownOr_landed h).trans ?_)
  simp only [hpass]

theorem exec_graphPatch_dispatched {s : State} {q : BitVec 10} {n : Word} {c : Cmd} (h : Dispatched s q.toNat n 8 c)
    (hres : zero c 16 4 = true) (hres' : zero c 32 32 = true) (hsrc : srcOk c (cF c 24 8) (cF c 20 4) = true)
    (hlen : 32 ≤ cF c 20 4) :
    exec (.graphPatch q n) s = .next (fetchSrc (arrived s c) c .patch (cF c 24 8) (cF c 20 4)) :=
  congrArg Host.Outcome.next ((ownOr_dispatched h).trans ((if_neg (by simp [hres, hres', hsrc])).trans
    (if_neg (Nat.not_lt.2 hlen))))

/-! ## GRAPH_RETIRE (R226, R227) -/

/-- Graph `g` may be retired: it has a current version, no image of it is under check, and no other graph's current
version shows its constants. -/
structure Retirable (s : State) (g : Nat) : Prop where
  current : (curVer s g).isSome = true
  unchecked : ∀ e ∈ s.checking, e.1 ≠ g
  unshown : ∀ v ∈ s.graphs, v.current = true → v.gid ≠ g → ∀ e ∈ gShared v.image, wSgid e ≠ g

/-- The form in which the model asks what keeps a graph from being retired. -/
theorem Retirable.not_kept {s : State} {g : Nat} (h : Retirable s g) :
    ¬((curVer s g).isNone = true ∨ s.checking.any (fun e => e.1 == g) = true ∨
      s.graphs.any (fun v => v.current && v.gid ≠ g && (gShared v.image).any (fun e => wSgid e == g)) = true) := by
  rintro (hnone | hchecked | hshown)
  · rw [← Option.not_isSome, h.current] at hnone
    exact Bool.false_ne_true hnone
  · obtain ⟨e, he, hg⟩ := List.any_eq_true.1 hchecked
    exact h.unchecked e he (beq_iff_eq.1 hg)
  · obtain ⟨v, hv, hshows⟩ := List.any_eq_true.1 hshown
    simp only [Bool.and_eq_true, decide_eq_true_eq, List.any_eq_true, beq_iff_eq] at hshows
    obtain ⟨⟨hcur, hother⟩, e, he, hg⟩ := hshows
    exact h.unshown v hv hcur hother e he hg

theorem exec_graphRetire {s : State} {q : BitVec 10} {n : Word} {c : Cmd} (h : Dispatched s q.toNat n 9 c)
    (hgid : cF c 16 2 < 1024) (hres : zero c 18 46 = true) (hmay : Retirable s (cF c 16 2)) :
    exec (.graphRetire q n) s = .next (finish (sweepVersions { arrived s c with
      graphs := s.graphs.map (fun v => if v.gid = cF c 16 2 then { v with current := false } else v) }) c.q.toNat c.n 0) :=
  congrArg Host.Outcome.next ((own_dispatched h).trans ((if_neg (by simp [hres, hgid])).trans (if_neg hmay.not_kept)))

/-! ## The end of a check (R222 to R225) -/

/-- A store (opcode 7) or a patch (opcode 8), entry `n` of queue `q`, is under check. -/
structure UnderCheck (s : State) (q : Nat) (n : Word) (op : Nat) (c : Cmd) : Prop where
  found : cmd s q n = some c
  phase : c.phase = .unit
  op : cOp c = op

theorem UnderCheck.not_kept {s : State} {q : Nat} {n : Word} {op : Nat} {c : Cmd} (h : UnderCheck s q n op c)
    (hop : op = 7 ∨ op = 8) : ¬(c.phase ≠ .unit ∨ cOp c ≠ 7 ∧ cOp c ≠ 8) := by
  rintro (hphase | ⟨hstore, hpatch⟩)
  · exact hphase h.phase
  · rw [h.op] at hstore hpatch
    exact hop.elim hstore hpatch

/-- The state in which the check of a command has ended. -/
def unchecked (s : State) (q : BitVec 10) (n : Word) : State :=
  { s with checking := s.checking.filter (fun e => !(e.2.1 == q && e.2.2 == n)) }

/-- A stored image whose code and operands pass is the first version of its graph. -/
theorem exec_graphCheckDone_stored {s : State} {q : BitVec 10} {n : Word} {bundle : BitVec 17} {c : Cmd} {ps : List Place}
    (h : UnderCheck s q.toNat n 7 c) (hpath : pathFail c.data 0 bundle.toNat = none)
    (hpass : imageFail s (queue s q.toNat).world c.data true (gCores c.data) = none)
    (hroom : findPlaces s c.data (gCores c.data) = some ps) (hnew : curVer s (gGid c.data) = none) :
    exec (.graphCheckDone q n 0 bundle) s = .next (finish (installVer (unchecked s q n) c.data 1 ps) q.toNat n 0) := by
  show execGraphCheckDone q n 0 bundle s = _
  simp only [execGraphCheckDone, h.found]
  rw [if_neg (h.not_kept (.inl rfl))]
  simp [h.op, hpath, hpass, hroom, hnew, unchecked]

/-- A patched image whose code and operands pass follows the current version of its graph. -/
theorem exec_graphCheckDone_patched {s : State} {q : BitVec 10} {n : Word} {bundle : BitVec 17} {c : Cmd} {v : Version}
    {ps : List Place} (h : UnderCheck s q.toNat n 8 c) (hpath : pathFail c.data 0 bundle.toNat = none)
    (hver : curVer s (gGid c.data) = some v)
    (hpass : imageFail s (queue s q.toNat).world c.data false (v.places.map (·.core)) = none)
    (hroom : findPlaces s c.data (v.places.map (·.core)) = some ps) :
    exec (.graphCheckDone q n 0 bundle) s = .next (finish ((v.places.map (·.core)).foldl
      (fun s k => cnt s (coreReg k aSqCntPatch)) (installVer (unchecked s q n) c.data (nextEpoch v.num) ps)) q.toNat n 0) := by
  show execGraphCheckDone q n 0 bundle s = _
  simp only [execGraphCheckDone, h.found]
  rw [if_neg (h.not_kept (.inr rfl))]
  simp [h.op, hpath, hpass, hroom, hver, unchecked]

theorem exec_graphCheckDone_refused {s : State} {q : BitVec 10} {n : Word} {code : Byte} {bundle : BitVec 17} {c : Cmd}
    {k b : Nat} (h : UnderCheck s q.toNat n 7 c) (hpath : pathFail c.data code.toNat bundle.toNat = some (k, b)) :
    exec (.graphCheckDone q n code bundle) s = .next (refuseGraph s c (gCores c.data) k b (gsStatus k)) := by
  show execGraphCheckDone q n code bundle s = _
  simp only [execGraphCheckDone, h.found]
  rw [if_neg (h.not_kept (.inl rfl))]
  simp [h.op, hpath]

/-- Settles O11: a dispatched command reads its image or stream, a landed image goes under check, a graph that nothing
keeps is retired, and a check ends as the code of its image and its operands pass. -/
theorem graphCommandsComplete : Obligations.GraphCommandsComplete := by
  refine ⟨?storeReads, ?storeChecked, ?patchReads, ?retired, ?stored, ?patched, ?refused⟩
  case storeReads => exact fun s q n c h hres hres' haddr hlen => exec_graphStore_dispatched h hres hres' haddr hlen
  case storeChecked => exact fun s q n c h hpass => exec_graphStore_landed h hpass
  case patchReads => exact fun s q n c h hres hres' hsrc hlen => exec_graphPatch_dispatched h hres hres' hsrc hlen
  case retired =>
    exact fun s q n c h hgid hres hcur hcheck hshown => ⟨_, rfl, exec_graphRetire h hgid hres ⟨hcur, hcheck, hshown⟩⟩
  case stored =>
    exact fun s q n bundle c ps hcmd hphase hop hpath hpass hroom hnew =>
      exec_graphCheckDone_stored ⟨hcmd, hphase, hop⟩ hpath hpass hroom hnew
  case patched =>
    exact fun s q n bundle c v ps hcmd hphase hop hpath hver hpass hroom =>
      exec_graphCheckDone_patched ⟨hcmd, hphase, hop⟩ hpath hver hpass hroom
  case refused =>
    exact fun s q n code bundle c k b hcmd hphase hop hpath =>
      exec_graphCheckDone_refused ⟨hcmd, hphase, hop⟩ hpath

end Sys2Proof.Machine

namespace Sys2Proof.Machine

/-! ## QUEUE_CREATE and QUEUE_DESTROY (R273, R275) -/

theorem rowMine_of_cmd {s : State} {q : Nat} {n : Word} {c : Cmd} {mine : Cmd → Bool} (hcmd : cmd s q n = some c) :
    rowMine s q n mine = mine c := by
  simp only [rowMine, hcmd]

/-- The count of entries is no context register: a context's world is read the same after it. -/
theorem rb_ctxCfg_cntEntries (s : State) (w b : Nat) :
    rb (cnt s aFeCntEntries) aXlCtxCfg (w % 4096) b = rb s aXlCtxCfg (w % 4096) b := by
  have hkey : regKey aXlCtxCfg (w % 4096) ≠ regKey aFeCntEntries 0 := by
    unfold regKey aXlCtxCfg aFeCntEntries
    omega
  rw [rb, rb, rv_cnt_other _ _ _ _ _ hkey]

/-- The operands of a QUEUE_CREATE lie within the bounds that R273 gives them. -/
structure CreateSound (c : Cmd) : Prop where
  queue : 1 ≤ cF c 16 2 ∧ cF c 16 2 ≤ 1023
  size : 6 ≤ cF c 18 1 ∧ cF c 18 1 ≤ 15
  ring : cF c 24 8 % 4096 = 0 ∧ plainAddr (cF c 24 8) = true
  posts : cF c 32 8 % 4096 = 0 ∧ plainAddr (cF c 32 8) = true
  session : 1 ≤ cF c 42 2 ∧ cF c 42 2 ≤ 1023
  timeout : 1 ≤ cF c 44 4 ∧ cF c 44 4 ≤ 4000000
  part : cF c 48 1 ≤ 15
  reserved : zero c 19 1 = true ∧ bits (cF c 40 2) 14 12 = 0 ∧ zero c 49 15 = true

/-- The IDLE queue that a QUEUE_CREATE makes of its operands; its DB_RANGE mark stays (R273, R282). -/
def createdQueue (s : State) (c : Cmd) : Queue :=
  { st := .idle, ring := BitVec.ofNat 64 (cF c 24 8), cq := BitVec.ofNat 64 (cF c 32 8), log2 := cF c 18 1
    session := BitVec.ofNat 16 (cF c 42 2), cid := BitVec.ofNat 12 (cF c 40 2 % 4096), world := bit (cF c 40 2) 15
    part := BitVec.ofNat 4 (cF c 48 1), key := BitVec.ofNat 32 (cF c 20 4)
    timeout := BitVec.ofNat 22 (cF c 44 4), dbRange := (queue s (cF c 16 2)).dbRange }

theorem exec_queueCreate {s : State} {n : Word} {c : Cmd} (h : Dispatched s 0 n 17 c) (hsound : CreateSound c)
    (hworld : bit (cF c 40 2) 15 = rb s aXlCtxCfg (cF c 40 2 % 4096) 1) (hfree : (queue s (cF c 16 2)).st = .disabled)
    (hlive : (session s (cF c 42 2)).live = true) (hquiet : stillSilent s (cF c 16 2) = false) :
    exec (.queueCreate n) s =
      .next (finish (setQueue (arrived s c) (cF c 16 2) (createdQueue s c)) 0 n 0) := by
  have hturn : ¬rowMine s 0 n (fun c => cOp c == 17 && stillSilent s (cF c 16 2)) = true := by
    rw [rowMine_of_cmd h.1]
    simp [hquiet]
  refine congrArg Host.Outcome.next ((if_neg hturn).trans ((own_dispatched h).trans
    ((if_neg ?operands).trans ((if_neg ?world).trans (if_neg ?state)))))
  case operands =>
    obtain ⟨hq, hsize, hring, hposts, hses, htime, hpart, hres⟩ := hsound
    simp only [hring, hposts, hres]
    simp
    omega
  case world => exact not_not_intro (hworld.trans (rb_ctxCfg_cntEntries s _ _).symm)
  case state => simp [hfree, hlive]

theorem exec_queueDestroy {s : State} {n : Word} {c : Cmd} (h : Dispatched s 0 n 18 c)
    (hq : 1 ≤ cF c 16 2 ∧ cF c 16 2 ≤ 1023) (hres : zero c 18 46 = true) (hused : (queue s (cF c 16 2)).st ≠ .disabled) :
    exec (.queueDestroy n) s =
      .next (resume (settle (finish (dropQueue (arrived s c) (cF c 16 2) stAborted) 0 n 0))) := by
  refine congrArg Host.Outcome.next ((own_dispatched h).trans ((if_neg ?operands).trans (if_neg hused)))
  case operands =>
    simp [hres]
    omega

/-- Settles O3: the operands pass their bounds, the queue's number is free or taken as the clause says, and no earlier
queue's command holds the entry. -/
theorem queueCommandsComplete : Obligations.QueueCommandsComplete := by
  refine ⟨?create, ?destroy⟩
  case create =>
    intro s n c h hq hq' hsize hsize' hres hring hring' hposts hposts' hres' hses hses' htime htime' hpart hres'' hworld
      hfree hlive hquiet
    exact exec_queueCreate h ⟨⟨hq, hq'⟩, ⟨hsize, hsize'⟩, ⟨hring, hring'⟩, ⟨hposts, hposts'⟩, ⟨hses, hses'⟩,
      ⟨htime, htime'⟩, hpart, hres, hres', hres''⟩ hworld hfree hlive hquiet
  case destroy => exact fun s n c h hq hq' hres hused => exec_queueDestroy h ⟨hq, hq'⟩ hres hused

end Sys2Proof.Machine

namespace Sys2Proof.Machine

/-! ## REGION_MAP, REGION_UNMAP and STATS_READ (R274, R314 to R316) -/

theorem exec_regionMap_dispatched {s : State} {n : Word} {c : Cmd} (h : Dispatched s 0 n 19 c)
    (hres : bits (cF c 16 2) 15 14 = 0 ∧ zero c 18 6 = true ∧ zero c 32 32 = true)
    (hsrc : srcOk c (cF c 24 8) 32 = true) :
    exec (.regionMap n) s = .next (fetchSrc (arrived s c) c .args (cF c 24 8) 32) :=
  congrArg Host.Outcome.next ((own_dispatched h).trans (if_neg (by simp [hres, hsrc])))

theorem exec_regionMap_landed {s : State} {n : Word} {c : Cmd} (h : LandedNow s 0 n 19 c)
    (hpass : regionCheck s (cF c 16 2) c.data = 0) :
    exec (.regionMap n) s = .next (finish (setRegion s (cF c 16 2) (regionOf c.data)) 0 n 0) :=
  congrArg Host.Outcome.next ((own_landed h).trans (if_neg (not_not_intro hpass)))

/-- A mapped region that nothing holds and no REGION_UNMAP is taking away is invalidated; the command waits at its unit
for the fill of its range (R316). -/
theorem exec_regionUnmap {s : State} {n : Word} {c : Cmd} (h : Dispatched s 0 n 20 c) (hreg : cF c 16 2 < 16320)
    (hres : zero c 18 46 = true) (hmapped : (region s (cF c 16 2)).kind ≠ 0)
    (hfirst : (region s (cF c 16 2)).unmapping = false)
    (hfree : regionHolds (cnt s aFeCntEntries) (cF c 16 2) = false) :
    exec (.regionUnmap n) s =
      .next (setRegion (atUnit s c) (cF c 16 2) { region s (cF c 16 2) with unmapping := true }) := by
  refine congrArg Host.Outcome.next ((own_dispatched h).trans ((if_neg ?operands).trans (if_neg ?state)))
  case operands => simp [hres, hreg]
  case state =>
    rintro (hkind | hgoing | hheld)
    · exact hmapped hkind
    · simp [hfirst] at hgoing
    · simp [hfree] at hheld

/-- The bytes of a sample: the time, its own length, the number of records and the records (R274). -/
def statSample (s : State) (sel : Nat) : Bytes :=
  toLE 8 (now s) ++ toLE 4 (32 + ((statRecs s sel).map List.length).sum) ++ toLE 2 (statRecs s sel).length ++
    List.replicate 18 0 ++ (statRecs s sel).flatten

theorem exec_statsRead {s : State} {n : Word} {c : Cmd} (h : Dispatched s 0 n 21 c)
    (hsel : 1 ≤ cF c 16 1 ∧ cF c 16 1 ≤ 63) (hres : zero c 17 3 = true ∧ zero c 32 32 = true)
    (hdst : plainAddr (cF c 24 8) = true)
    (hroom : 32 + ((statRecs (cnt s aFeCntEntries) (cF c 16 1)).map List.length).sum ≤ cF c 20 4) :
    exec (.statsRead n) s = .next (finish (sendDst (arrived s c) c .stats (cF c 24 8)
      (statSample (cnt s aFeCntEntries) (cF c 16 1))) 0 n 0) := by
  refine congrArg Host.Outcome.next ((own_dispatched h).trans ((if_neg ?operands).trans (if_neg (Nat.not_lt.2 hroom))))
  case operands =>
    simp [hres, hdst]
    omega

/-- Settles O4: each command's operands pass their checks when it is dispatched, and a landed descriptor passes its own. -/
theorem regionAndStatsComplete : Obligations.RegionAndStatsComplete := by
  refine ⟨?mapReads, ?mapped, ?unmaps, ?samples⟩
  case mapReads =>
    exact fun s n c h hres hres' hres'' hsrc => exec_regionMap_dispatched h ⟨hres, hres', hres''⟩ hsrc
  case mapped => exact fun s n c hcmd hop hphase hpass => exec_regionMap_landed ⟨hcmd, hop, hphase⟩ hpass
  case unmaps => exact fun s n c h hreg hres hmapped hfirst hfree => exec_regionUnmap h hreg hres hmapped hfirst hfree
  case samples =>
    intro s n c d h hsel hsel' hres hres' hdst hroom hd
    subst hd
    exact exec_statsRead h ⟨hsel, hsel'⟩ ⟨hres, hres'⟩ hdst hroom

end Sys2Proof.Machine

namespace Sys2Proof.Machine

/-! ## Ring READs and stale waits (R259, R262) -/

/-- The slots that a landed ring READ gives its queue: 64 bytes each, at the indices the READ asked for (R259). -/
def landedSlots (r : RingRead) (t : Xfer) (slots : List Bytes) : List (Word × Bytes) :=
  (List.range r.slots).map (fun i => (r.first + BitVec.ofNat 32 i,
    slice (mergeData (t.addr.toNat - t.data.length) t.pieces t.data (slots.flatMap (fun b => slice b 0 64))) (64 * i) 64))

theorem exec_ringReadLands {s : State} {q : BitVec 10} {slots : List Bytes} {r : RingRead} {rs : List RingRead} {t : Xfer}
    (hreads : (queue s q.toNat).reads = r :: rs) (hxfer : xfer s r.xfer = some t) (hwhole : t.left = 0)
    (hup : piecesUp s t = true) (hslots : slots.length = r.slots)
    (hst : (queue s q.toNat).st = .active ∨ (queue s q.toNat).st = .draining) :
    exec (.ringReadLands q slots) s = .next (pump (readAnswered (updQueue (dropXfer s t.id) q.toNat
      (fun u => { u with reads := rs, got := u.got ++ landedSlots r t slots })) t) q.toNat) := by
  show execRingReadLands q slots s = _
  simp only [execRingReadLands, hreads, hxfer]
  refine congrArg Host.Outcome.next (if_neg ?lands)
  simp only [hwhole, hup, hslots]
  simpa using Or.resolve_left hst

/-! ## The doorbell registers and queue 0 (R246, R255 to R257, R282) -/

/-- A requester of the secure world other than the test port rings queue 0 (R255). -/
def RingsQ0 (a : Acc) : Prop := a.secure = true ∧ a.who ≠ .jtag

theorem RingsQ0.not_kept {a : Acc} (h : RingsQ0 a) : ¬((!a.secure) = true ∨ a.who = .jtag) := by
  obtain ⟨hsec, hwho⟩ := h
  simp [hsec, hwho]

theorem wrFeQ0DbLo_held {s : State} {a : Acc} (v : Word) (h : RingsQ0 a) :
    wrFeQ0DbLo s a v = { s with fe := { s.fe with dbLo := mset none s.fe.dbLo (whoCode a.who) (some v) } } :=
  if_neg h.not_kept

/-- The state in which the low half that requester `a` wrote is taken. -/
def dbLoTaken (s : State) (a : Acc) : State :=
  { s with fe := { s.fe with dbLo := mset none s.fe.dbLo (whoCode a.who) none } }

/-- The write of the high half submits the doorbell of the two halves, which is judged where it names queue 0 and passes
the checks (R255 to R257). -/
theorem wrFeQ0DbHi_judged {s : State} {a : Acc} {v lo : Word} (h : RingsQ0 a)
    (hheld : mget none s.fe.dbLo (whoCode a.who) = some lo) (hq0 : lo.toNat % 1024 = 0)
    (hok : dbOk (dbLoTaken s a) (lo.toNat + 2 ^ 32 * v.toNat) = true) :
    wrFeQ0DbHi s a v = judgeDb (dbLoTaken s a) 0 (bits (lo.toNat + 2 ^ 32 * v.toNat) 25 10) := by
  have hnamed : (lo.toNat + 2 ^ 32 * v.toNat) % 1024 = 0 := by omega
  simp only [wrFeQ0DbHi, hheld]
  refine (if_neg h.not_kept).trans (if_neg ?sound)
  rintro (hother | hbad)
  · exact hother hnamed
  · rw [Bool.not_eq_true'] at hbad
    exact Bool.false_ne_true (hbad.symm.trans hok)

/-- Queue 0 as FE_Q_CTL enables it: IDLE and empty, with what its registers give it; its key stays (R246, R282). -/
def enabledQ0 (s : State) : Queue :=
  { st := .idle, ring := BitVec.ofNat 64 (rv64 s aFeQRingLo 0), cq := BitVec.ofNat 64 (rv64 s aFeQCqLo 0)
    log2 := log2Of (bits (rv s aFeQCfg 0) 3 0), cid := BitVec.ofNat 12 (bits (rv s aFeQCfg 0) 19 8)
    world := bit (rv s aFeQCfg 0) 20, part := BitVec.ofNat 4 (bits (rv s aFeQCfg 0) 7 4), key := (queue s 0).key
    session := 0, timeout := (queue s 0).timeout, dbRange := (queue s 0).dbRange }

theorem wrFeQEnable_enables {s : State} {a : Acc} {v : Word} (hsec : a.secure = true) (hset : bit v.toNat 0 = true)
    (hsel : selOf s a.who aFeQSel = 0) (hfree : (queue s 0).st = .disabled) :
    wrFeQEnable s a v = setQueue s 0 (enabledQ0 s) :=
  (secureOnly_of_secure s _ _ _ _ hsec).trans (if_neg (by simp [hset, hsel, hfree]))

/-- Settles O6: the READ that lands is the first that its queue waits for, and each register's write is one that its
requester may make. -/
theorem ringEventsComplete : Obligations.RingEventsComplete := by
  refine ⟨?lands, ?refetches, ?lowHalf, ?highHalf, ?enables, ?key⟩
  case lands =>
    exact fun s q slots r rs t hreads hxfer hwhole hup hslots hst =>
      exec_ringReadLands hreads hxfer hwhole hup hslots hst
  case refetches => exact fun s q hwaits => congrArg Host.Outcome.next (if_neg (not_not_intro hwaits))
  case lowHalf => exact fun s a v hacc hsec hwho => next_acc1 hacc (wrFeQ0DbLo_held v ⟨hsec, hwho⟩)
  case highHalf =>
    exact fun s a v lo hacc hsec hwho hheld hq0 hok => next_acc1 hacc (wrFeQ0DbHi_judged ⟨hsec, hwho⟩ hheld hq0 hok)
  case enables =>
    intro s a v hacc hsec hset hsel hfree
    refine ⟨_, next_acc1 hacc (wrFeQEnable_enables hsec hset hsel hfree), ?_⟩
    simp [enabledQ0]
  case key => exact fun s a v hacc hsec hfree => next_acc1 hacc (if_pos ⟨hsec, hfree⟩)

end Sys2Proof.Machine

namespace Sys2Proof.Machine

/-! ## Messages out of turn, and for a queue pair that takes none (R286, R289) -/

/-- A request ahead of its turn is answered with a sequence NAK, once (R289, log entry 148). -/
theorem rxReq_ahead {s u : State} {i n : Nat} {k : Pkt} (h : Arrives s u i n k) (hturn : k.psn ≠ (qp u i).epsn)
    (hahead : (k.psn - (qp u i).epsn).toNat < 2 ^ 23) (hfirst : (qp u i).nakSent = false) (m : Nat)
    (again g : State → State) : rxReq s i n m k again g =
      sendQp (updQp u i (fun p => { p with nakSent := true })) i (qp u i).epsn (.nak (BitVec.ofNat 13 i) .sequence) := by
  have hdist : (k.psn - (qp u i).epsn).toNat ≠ 0 := by bv_omega
  rw [rxReq, rxPkt_arrives h]
  exact (if_neg hdist).trans ((if_pos hahead).trans (if_neg (Bool.eq_false_iff.1 hfirst)))

/-- A request whose PSN lies behind the expected one is a repeated one (R289, log entry 148). -/
theorem rxReq_repeated {s u : State} {i n : Nat} {k : Pkt} (h : Arrives s u i n k)
    (hbehind : 2 ^ 23 ≤ (k.psn - (qp u i).epsn).toNat) (m : Nat) (again g : State → State) :
    rxReq s i n m k again g = again u := by
  have hdist : (k.psn - (qp u i).epsn).toNat ≠ 0 := by omega
  rw [rxReq, rxPkt_arrives h]
  exact (if_neg hdist).trans (if_neg (Nat.not_lt.2 hbehind))

theorem rxFrame_in {s : State} {fr : Frame} (h : FrameIn s fr) (g : State → State) : rxFrame s fr g = g s := by
  obtain ⟨hup, hfec, hframe⟩ := h
  exact (if_neg (by simp [hup])).trans ((if_neg (by simp [hfec])).trans (if_neg (by simp [hframe])))

/-- A request for a queue pair that is not in RTS is counted and dropped (R286). -/
theorem rxReq_notRts {s : State} {i : Nat} {k : Pkt} (h : FrameIn s k.frame) (hrts : qpRts s i = false) (n m : Nat)
    (again g : State → State) : rxReq s i n m k again g = cntN (cntN s aNpCntRxPkt 0 n) aNpCntRxDrop 0 n := by
  have hrts' : qpRts (cntN s aNpCntRxPkt 0 n) i = false := hrts
  rw [rxReq, rxPkt, rxFrame_in h]
  exact if_pos (by simp [hrts'])

/-! ## Doorbells and keepalives in the session's window (R254 to R257, R305, R306) -/

/-- What a doorbell does once its PSNs are taken: in the session's window it is judged and acknowledged, outside it is
answered with a NAK (R254, R305). -/
def doorbellTaken (q : BitVec 12) (k : Pkt) (rkey : Word) (va : Dword) (data : Bytes) (s : State) : State :=
  if !inWindow s q.toNat rkey va.toNat data.length then nakAccess s q.toNat k.psn
  else ackTo (if 0x2000 ≤ va.toNat then keepWrite s q.toNat data else doorWrite s q.toNat va.toNat data k.imm) q.toNat k.psn

theorem exec_doorbell_inTurn {s u : State} {q : BitVec 12} {k : Pkt} (rkey : Word) (va : Dword) {data : Bytes}
    (harrives : Arrives s u q.toNat (pkts s q.toNat data.length) k) (hturn : k.psn = (qp u q.toNat).epsn)
    (hrole : qpRole s q.toNat = 1) : exec (.doorbell q k rkey va data) s =
      .next (doorbellTaken q k rkey va data (dropImm (tookPsn u q.toNat (pkts s q.toNat data.length)) k)) :=
  congrArg Host.Outcome.next ((if_neg (not_otherRole hrole)).trans
    (rxWrite_inTurn harrives hturn (doorbellTaken q k rkey va data)))

theorem exec_keepalive_inWindow {s u w : State} {q : BitVec 12} {k : Pkt} {rkey : Word} {data : Bytes}
    (harrives : Arrives s u q.toNat (pkts s q.toNat data.length) k) (hturn : k.psn = (qp u q.toNat).epsn)
    (hrole : qpRole s q.toNat = 1) (hw : w = dropImm (tookPsn u q.toNat (pkts s q.toNat data.length)) k)
    (hwindow : inWindow w q.toNat rkey 0x2000 data.length = true) :
    exec (.keepalive ⟨q, k⟩ rkey data) s = .next (ackTo (keepWrite w q.toNat data) q.toNat k.psn) := by
  subst hw
  exact congrArg Host.Outcome.next ((if_neg (not_otherRole hrole)).trans
    ((rxWrite_inTurn harrives hturn _).trans (if_neg (by simp [hwindow]))))

/-- Settles O31: a request in turn acts once its PSNs are taken, one ahead and a repeated one are told apart by the
distance of their PSN, and the session's window decides between the two answers to a doorbell. -/
theorem packetsComplete : Obligations.PacketsComplete := by
  refine ⟨?discarded, ?ahead, ?repeated, ?notRts, ?atomic, ?judged, ?outside, ?keepalive, ?windowRead⟩
  case discarded =>
    intro s u w q k len harrives hturn hw
    subst hw
    exact congrArg Host.Outcome.next (rxWrite_inTurn harrives hturn _)
  case ahead =>
    exact fun s u q k len harrives hturn hahead hfirst =>
      congrArg Host.Outcome.next (rxReq_ahead harrives hturn hahead hfirst _ _ _)
  case repeated =>
    exact fun s u q k len harrives hbehind => congrArg Host.Outcome.next (rxReq_repeated harrives hbehind _ _ _)
  case notRts =>
    exact fun s q k len hup hfec hframe hrts =>
      congrArg Host.Outcome.next (rxReq_notRts ⟨hup, hfec, hframe⟩ hrts _ _ _ _)
  case atomic => exact fun s u q k harrives hturn => congrArg Host.Outcome.next (rxReq_inTurn harrives hturn _ _)
  case judged =>
    intro s u w q k rkey va data harrives hturn hrole hw hwindow
    subst hw
    exact (exec_doorbell_inTurn rkey va harrives hturn hrole).trans
      (congrArg Host.Outcome.next (if_neg (by simp [hwindow])))
  case outside =>
    intro s u w q k rkey va data harrives hturn hrole hw hwindow
    subst hw
    exact (exec_doorbell_inTurn rkey va harrives hturn hrole).trans
      (congrArg Host.Outcome.next (if_pos (by simp [hwindow])))
  case keepalive =>
    exact fun s u w q k rkey data harrives hturn hrole hw hwindow =>
      exec_keepalive_inWindow harrives hturn hrole hw hwindow
  case windowRead =>
    intro s u w q k rkey va len harrives hturn hrole hw hfew
    subst hw
    exact congrArg Host.Outcome.next ((if_neg (not_otherRole hrole)).trans (rxRead_inTurn harrives hturn hfew _))

end Sys2Proof.Machine

namespace Sys2Proof.Machine

/-! ## NOP and FENCE (R271, R272) -/

theorem exec_nop {s : State} {q : BitVec 10} {n : Word} {c : Cmd} (h : Dispatched s q.toNat n 11 c)
    (hres : zero c 16 48 = true) : exec (.nop q n) s = .next (finish (arrived s c) c.q.toNat c.n 0) :=
  congrArg Host.Outcome.next ((own_dispatched h).trans (if_pos hres))

/-- A FENCE goes to its unit, where it ends once what it waits for has completed; XL_SYNC is for queue 0 (R272, R328). -/
theorem exec_fence {s : State} {q : BitVec 10} {n : Word} {c : Cmd} (h : Dispatched s q.toNat n 10 c)
    (hres : bits (cF c 16 1) 7 1 = 0 ∧ zero c 17 47 = true) (hq0 : bit (cF c 16 1) 0 = true → q = 0) :
    exec (.fence q n) s =
      .next (settle (if bit (cF c 16 1) 0 then syncPoint (atUnit s c) n else atUnit s c)) := by
  refine congrArg Host.Outcome.next ((own_dispatched h).trans (if_neg ?sound))
  simpa [hres] using hq0

/-! ## The synchronisation of the translation cache (R328) -/

/-- A sync point that was not taken yet empties the cache and notes the pieces under way. -/
theorem syncPoint_first {s : State} {n : Word} (hnew : ∀ e ∈ s.xl.syncs, e.1 ≠ n) :
    syncPoint s n = { s with xl := { s.xl with cache := [], syncs := s.xl.syncs ++ [(n, piecesOut s)] } } :=
  if_neg (by simpa [List.any_eq_true] using fun xs he => hnew (n, xs) he rfl)

/-- None of the pieces noted of transfer `x` on queue pairs `l` is under way: the transfer has ended, whether it went on or
was dropped, and none of the queue pairs waits for an acknowledgement of it. -/
theorem not_underWay {s : State} {x : Nat} {l : List (BitVec 13)} (hdone : l ≠ [] → xfer s x = none ∧
    (∀ r ∈ s.fe.lost, r.1 ≠ x) ∧ ∀ i ∈ l, ∀ o ∈ (qp s i.toNat).out, o.x ≠ x) : underWay s x l = false := by
  by_cases hl : l = []
  · simp [underWay, hl]
  · obtain ⟨hxfer, hlost, hout⟩ := hdone hl
    have hkept : s.fe.lost.any (fun r => r.1 == x) = false :=
      List.any_eq_false.2 fun r hr => by simpa using hlost r hr
    have hwaits : l.any (fun i => (qp s i.toNat).out.any (fun o => o.x == x)) = false :=
      List.any_eq_false.2 fun i hi => by simpa using hout i hi
    rw [underWay, hxfer, hkept, hwaits]
    exact Bool.and_false _

theorem exec_xlSyncDone {s : State} {n : Word} {xs : List (Nat × List (BitVec 13))}
    (hsync : s.xl.syncs.find? (fun e => e.1 == n) = some (n, xs)) (hdone : ∀ e ∈ xs, underWay s e.1 e.2 = false) :
    exec (.xlSyncDone n) s =
      .next (settle (cnt { s with xl := { s.xl with syncs := s.xl.syncs.filter (fun e => e.1 ≠ n) } } aXlCntSync)) := by
  have hnone : ¬xs.any (fun e => underWay s e.1 e.2) = true := by simpa using hdone
  show execXlSyncDone n s = _
  simp only [execXlSyncDone, hsync]
  exact congrArg Host.Outcome.next (if_neg hnone)

/-- Settles O1: each command's operands are sound when it is dispatched, a sync point is taken once for its entry, and no
piece that it noted is under way when it ends. -/
theorem nopAndFenceComplete : Obligations.NopAndFenceComplete := by
  refine ⟨?nop, ?plainFence, ?syncFence, ?firstPoint, ?tagMatched, ?syncDone⟩
  case nop => exact fun s q n c h hres => exec_nop h hres
  case plainFence =>
    intro s q n c h hflags hres
    rw [exec_fence h ⟨by rw [hflags]; rfl, hres⟩ (by simp [hflags, bit]), hflags]
    rfl
  case syncFence =>
    intro s n c h hflags hres
    rw [exec_fence h ⟨by rw [hflags]; rfl, hres⟩ fun _ => rfl, hflags]
    rfl
  case firstPoint => exact fun s n hnew => syncPoint_first hnew
  case tagMatched =>
    intro s q c sl bs u hheader hu hsync
    subst hu
    exact (if_pos hheader).trans (if_pos hsync)
  case syncDone => exact fun s n xs hsync hdone => exec_xlSyncDone hsync fun e he => not_underWay (hdone e he)

end Sys2Proof.Machine

namespace Sys2Proof.Machine

/-! ## A step (R263, log entry 1) -/

theorem step_cons (s : State) (c : Instr) (rest : List Instr) :
    step { s with pending := c :: rest } = exec c { s with pending := rest } := rfl

theorem step_nil {s : State} (h : s.pending = []) : step s = .next (tickFab s) := by
  simp only [step, h]

theorem tickFab_heldInReset {s : State} (h : heldInReset s = true) : tickFab s = s := if_pos (.inl h)

/-- Settles O52: the queue is empty or has a front, and no cycle passes in a part held in reset. -/
theorem stepTakesTheFront : Obligations.StepTakesTheFront := by
  refine ⟨step_cons, fun s h => step_nil h, ?held⟩
  case held =>
    intro s hempty hheld
    rw [step_nil hempty, tickFab_heldInReset hheld]

end Sys2Proof.Machine

namespace Sys2Proof.Machine

/-! ## What every step keeps (R304) -/

theorem Keep.canonical {T : List Part} {s0 s : State} (h : Keep T s0 s) : s.canonical = true := by
  rw [State.canonical, h.folds, h.cores]
  rfl

/-- A step takes the front of the queue, which is a command's effect, or lets a cycle pass. -/
theorem step_sound {s t : State} (hcanon : s.canonical = true) (howner : s.ownerOnly = true) (hstep : step s = .next t) :
    t.canonical = true ∧ t.ownerOnly = true := by
  cases hpending : s.pending with
  | nil =>
    rw [step_nil hpending, Host.Outcome.next.injEq] at hstep
    subst hstep
    have hkeep := tickFab_keep (within_self _) (keep_self _ s hcanon howner)
    exact ⟨hkeep.canonical, hkeep.owner⟩
  | cons c rest =>
    simp only [step, hpending] at hstep
    have hkeep := exec_keep c (within_self _) (keep_self _ { s with pending := rest } hcanon howner) t hstep
    exact ⟨hkeep.canonical, hkeep.owner⟩

/-- Settles O54: `Keep` holds after every command and after a cycle, and says all of it. -/
theorem invariantKept : Obligations.InvariantKept := by
  refine ⟨fun s t hcanon howner hstep => step_sound hcanon howner hstep, ?command⟩
  case command =>
    intro s t c hcanon howner hexec
    have hkeep := exec_keep c (within_self _) (keep_self _ s hcanon howner) t hexec
    exact ⟨hkeep.canonical, hkeep.owner, hkeep.pending, hkeep.sent, hkeep.drawn⟩

end Sys2Proof.Machine

namespace Sys2Proof.Machine

/-! ## Renewals of leases (R301, R302, R306) -/

/-- The owner lease holds, up to the cycle of its expiry (R301, R302). -/
structure OwnerHolds (s : State) : Prop where
  owned : s.np.owned = true
  runs : s.np.lapsed = false
  inTime : slow s ≤ s.np.expiry

/-- The owner lease runs from now for the period in force. -/
def ownerRenewed (s : State) : State :=
  { s with np := { s.np with expiry := slow s + leaseCyc (rv s aNpLeaseTimeout) } }

/-- A session's lease runs from now for the period in force. -/
def sessionRenewed (s : State) (i : Nat) : State :=
  updSession s i (fun x => { x with expiry := slow s + leaseCyc (rv s aNpSesPeriod i) })

/-- A renewal sets the period it gives, if it gives one. -/
def periodSet (s : State) (a i p : Nat) : State := if p = 0 then s else rset s a i p

theorem periodSet_none {s : State} {a i p : Nat} (h : p = 0) : periodSet s a i p = s := if_pos h

theorem periodSet_given {s : State} {a i p : Nat} (h : 0 < p) : periodSet s a i p = rset s a i p := if_neg (by omega)

theorem exec_leaseRenewOwner {s : State} {n : Word} {c : Cmd} (h : Dispatched s 0 n 24 c) (hkind : cF c 16 1 = 0)
    (hres : leaseOk c = true ∧ cF c 18 2 = 0) (hperiod : cF c 20 4 = 0 ∨ 100 ≤ cF c 20 4 ∧ cF c 20 4 ≤ 60000)
    (hlease : OwnerHolds s) : exec (.leaseRenewOwner n) s = .next (finish
      (arrive (ownerRenewed (periodSet (cnt s aFeCntEntries) aNpLeaseTimeout 0 (cF c 20 4))) c) 0 n 0) := by
  obtain ⟨howned, hruns, htime⟩ := hlease
  have hmine : rowMine s 0 n (fun c => cF c 16 1 != 1) = true := by
    rw [rowMine_of_cmd h.1]
    simp [hkind]
  refine congrArg Host.Outcome.next ((if_pos hmine).trans
    ((own_dispatched h).trans ((if_neg ?operands).trans (if_neg ?lease))))
  case operands =>
    simp [hkind, hres]
    omega
  case lease => simpa [howned, hruns] using htime

theorem exec_leaseRenewSession {s : State} {n : Word} {c : Cmd} (h : Dispatched s 0 n 24 c) (hkind : cF c 16 1 = 1)
    (hres : leaseOk c = true) (hnumber : 1 ≤ cF c 18 2 ∧ cF c 18 2 ≤ 1023)
    (hperiod : cF c 20 4 = 0 ∨ 10 ≤ cF c 20 4 ∧ cF c 20 4 ≤ 60000) (hlive : (session s (cF c 18 2)).live = true)
    (htime : slow s ≤ (session s (cF c 18 2)).expiry) : exec (.leaseRenewSession n) s = .next (finish
      (arrive (sessionRenewed (periodSet (cnt s aFeCntEntries) aNpSesPeriod (cF c 18 2) (cF c 20 4)) (cF c 18 2)) c)
      0 n 0) := by
  have hmine : rowMine s 0 n (fun c => cF c 16 1 == 1) = true := by
    rw [rowMine_of_cmd h.1]
    simp [hkind]
  refine congrArg Host.Outcome.next ((if_pos hmine).trans
    ((own_dispatched h).trans ((if_neg ?operands).trans (if_neg ?lease))))
  case operands =>
    simp [hres]
    omega
  case lease => simpa [hlive] using htime

/-- The count of entries is no period of a lease. -/
theorem rv_leasePeriod_cntEntries (s : State) {a i : Nat} (ha : a = aNpLeaseTimeout ∨ a = aNpSesPeriod) (hi : i ≤ 1023) :
    rv (cnt s aFeCntEntries) a i = rv s a i := by
  refine rv_cnt_other _ _ _ _ _ ?_
  unfold regKey aFeCntEntries aNpLeaseTimeout aNpSesPeriod at *
  omega

/-- Settles O5: each renewal is made with the period in force, which is the one it gives or the one that stood. -/
theorem leaseRenewalsComplete : Obligations.LeaseRenewalsComplete := by
  refine ⟨?ownerPeriod, ?owner, ?session, ?sessionPeriod⟩
  case ownerPeriod =>
    intro s n c h hkind hok hres hlow hhigh howned hruns htime
    refine ⟨_, rfl, ?_⟩
    have hset : rv (rset (cnt s aFeCntEntries) aNpLeaseTimeout 0 (cF c 20 4)) aNpLeaseTimeout = cF c 20 4 :=
      (rv_rset_same _ _ _ _).trans (Nat.mod_eq_of_lt (by omega))
    rw [exec_leaseRenewOwner h hkind ⟨hok, hres⟩ (.inr ⟨hlow, hhigh⟩) ⟨howned, hruns, htime⟩,
      periodSet_given (by omega), ownerRenewed, hset]
    rfl
  case owner =>
    intro s n c h hkind hok hres hnone howned hruns htime
    refine ⟨_, rfl, ?_⟩
    rw [exec_leaseRenewOwner h hkind ⟨hok, hres⟩ (.inl hnone) ⟨howned, hruns, htime⟩, periodSet_none hnone,
      ownerRenewed, rv_leasePeriod_cntEntries s (.inl rfl) (by omega)]
    rfl
  case session =>
    intro s n c h hkind hok hlow hhigh hnone hlive htime
    rw [exec_leaseRenewSession h hkind hok ⟨hlow, hhigh⟩ (.inl hnone) hlive htime, periodSet_none hnone,
      sessionRenewed, rv_leasePeriod_cntEntries s (.inr rfl) hhigh]
    rfl
  case sessionPeriod =>
    intro s n c h hkind hok hlow hhigh hlow' hhigh' hlive htime
    have hset : rv (rset (cnt s aFeCntEntries) aNpSesPeriod (cF c 18 2) (cF c 20 4)) aNpSesPeriod (cF c 18 2) = cF c 20 4 :=
      (rv_rset_same _ _ _ _).trans (Nat.mod_eq_of_lt (by omega))
    rw [exec_leaseRenewSession h hkind hok ⟨hlow, hhigh⟩ (.inr ⟨hlow', hhigh'⟩) hlive htime, periodSet_given (by omega),
      sessionRenewed, hset]
    rfl

end Sys2Proof.Machine

namespace Sys2Proof.Machine

/-! ## Acknowledgements, time-outs and NAKs (R289, R309) -/

theorem exec_nakReceived {s u : State} {q : BitVec 13} {k : Pkt} (h : Arrives s u q.toNat 1 k) (e : Nak) :
    exec (.nakReceived ⟨q, k⟩ e) s = .next (match e with
      | .sequence => if waitsOn u q.toNat then retryQp u q.toNat else u
      | .remoteAccess => settle (qpError u q.toNat 3)
      | .invalidRequest => settle (qpError u q.toNat 4)) :=
  congrArg Host.Outcome.next (rxPkt_arrives h _)

theorem exec_ackTimeout_transport {s : State} {q : BitVec 13} (hrts : qpRts s q.toNat = true)
    (hwaits : waitsOn s q.toNat = true) : exec (.ackTimeout q false) s = .next (retryQp s q.toNat) :=
  congrArg Host.Outcome.next ((if_neg (by simp [hrts, hwaits])).trans (if_neg Bool.false_ne_true))

/-- An RNR retry: everything is sent again, or the queue pair goes to ERROR when its RNR retries are used up; 7 are
without limit (R289, R309). -/
def rnrRetryQp (s : State) (i : Nat) : State :=
  if rf s aNpQpTmo i 10 8 ≠ 7 ∧ rf s aNpQpTmo i 10 8 ≤ (qp s i).rnr then settle (qpError s i 2)
  else goBack (updQp s i (fun p => { p with rnr := p.rnr + 1 })) i

theorem exec_ackTimeout_rnr {s : State} {q : BitVec 13} (hrts : qpRts s q.toNat = true)
    (hwaits : waitsOn s q.toNat = true) : exec (.ackTimeout q true) s = .next (rnrRetryQp s q.toNat) :=
  congrArg Host.Outcome.next ((if_neg (by simp [hrts, hwaits])).trans (if_pos rfl))

/-- Settles O32: what arrives is taken off or answered as its kind says, and a retry is made while the limit of its kind
leaves one. -/
theorem transportComplete : Obligations.TransportComplete := by
  refine ⟨?acknowledged, ?retried, ?exhausted, ?rnrRetried, ?rnrExhausted, ?sequence, ?remoteAccess, ?invalidRequest⟩
  case acknowledged => exact fun s u q k count harrives => congrArg Host.Outcome.next (rxPkt_arrives harrives _)
  case retried =>
    intro s q hrts hwaits hleft
    rw [exec_ackTimeout_transport hrts hwaits, retryQp, if_neg (Nat.not_le.2 hleft)]
  case exhausted =>
    intro s q hrts hwaits hnone
    rw [exec_ackTimeout_transport hrts hwaits, retryQp, if_pos hnone]
  case rnrRetried =>
    intro s q hrts hwaits hleft
    rw [exec_ackTimeout_rnr hrts hwaits, rnrRetryQp, if_neg (by omega)]
  case rnrExhausted =>
    intro s q hrts hwaits hlimit hnone
    rw [exec_ackTimeout_rnr hrts hwaits, rnrRetryQp, if_pos ⟨hlimit, hnone⟩]
  case sequence =>
    intro s u q k harrives hwaits
    exact (exec_nakReceived harrives .sequence).trans (congrArg _ (if_pos hwaits))
  case remoteAccess => exact fun s u q k harrives => exec_nakReceived harrives .remoteAccess
  case invalidRequest => exact fun s u q k harrives => exec_nakReceived harrives .invalidRequest

end Sys2Proof.Machine

namespace Sys2Proof.Machine

/-! ## Congestion and flow control (R293 to R295) -/

theorem exec_ceMarkedPacket {s : State} {q : BitVec 13} {k : Pkt} (hopen : closed s = false) (hin : FrameIn s k.frame)
    (hrc : k.rc = true) (hrts : qpRts s q.toNat = true) (hfrom : pktFrom s q.toNat k = true)
    (hgap : ∀ t, (qp s q.toNat).cnpAt = some t → t.toNat + rf s aNpCcCfg 0 10 3 * 1000 ≤ now s) :
    exec (.ceMarkedPacket ⟨q, k⟩) s = .next (sendQp (cnt (updQp s q.toNat (fun p => { p with cnpAt := some s.np.ns }))
      aNpCntCnpTx) q.toNat 0 (.cnp (BitVec.ofNat 13 q.toNat))) := by
  obtain ⟨hup, hfec, hframe⟩ := hin
  refine congrArg Host.Outcome.next (if_neg ?_)
  cases hsent : (qp s q.toNat).cnpAt with
  | none => simp [hopen, hup, hfec, hframe, hrc, hrts, hfrom]
  | some t => simp [hopen, hup, hfec, hframe, hrc, hrts, hfrom, hgap t hsent]

/-- What a counted CNP does: with CC_EN the rate of a data-port queue pair falls by its cut (R294). -/
def cnpTaken (s : State) (i : Nat) : State :=
  if !rb s aNpCcCfg 0 27 ∨ i = 4096 then s
  else updQp s i (fun p => { p with rate := max 1 (p.rate * (1 - 1 / (2 : Rat) ^ (max 1 (rf s aNpCcCfg 0 2 0)))) })

theorem exec_cnpReceived {s u : State} {q : BitVec 13} {k : Pkt} (h : Arrives s u q.toNat 1 k) :
    exec (.cnpReceived ⟨q, k⟩) s = .next (cnpTaken (cnt u aNpCntCnpRx) q.toNat) :=
  congrArg Host.Outcome.next (rxPkt_arrives h _)

theorem exec_rateIncrease {s : State} {q : BitVec 12} (hrts : qpRts s q.toNat = true)
    (hcc : rb s aNpCcCfg 0 27 = true) : exec (.rateIncrease q) s = .next (updQp s q.toNat (fun p => { p with
      rate := min (lineRate s (rf s aNpQpCfg q.toNat 4 2)) (p.rate + rf s aNpCcCfg 0 18 11) })) :=
  congrArg Host.Outcome.next (if_neg (by simp [hrts, hcc]))

theorem exec_pfcXoff {s : State} {port : Fin 4} {prio : BitVec 3} (hup : portUp s port = true)
    (hpfc : pfcFor s port prio = true) (hheeded : mget false s.np.pfcIgnore port = false) :
    exec (.pfcXoff port prio) s = .next { s with np := { s.np with paused := mset false s.np.paused port true } } :=
  congrArg Host.Outcome.next ((if_neg (by simp [hup])).trans
    ((if_neg (by simp [hpfc])).trans (if_neg (Bool.eq_false_iff.1 hheeded))))

theorem exec_pfcXon {s : State} {port : Fin 4} {prio : BitVec 3} (hup : portUp s port = true)
    (hpfc : pfcFor s port prio = true) : exec (.pfcXon port prio) s =
      .next (unpause { s with np := { s.np with pfcIgnore := mset false s.np.pfcIgnore port false } } port) :=
  congrArg Host.Outcome.next ((if_neg (by simp [hup])).trans (if_neg (by simp [hpfc])))

/-- Settles O33: a mark and a CNP act on the queue pair that they reach, and each message of flow control on a port that is
up. -/
theorem congestionComplete : Obligations.CongestionComplete := by
  refine ⟨?marked, ?cut, ?counted, ?raised, ?paused, ?resumed, ?stuck⟩
  case marked =>
    exact fun s q k hopen hup hfec hframe hrc hrts hfrom hgap =>
      exec_ceMarkedPacket hopen ⟨hup, hfec, hframe⟩ hrc hrts hfrom hgap
  case cut =>
    intro s u q k harrives hcc hdata
    exact (exec_cnpReceived harrives).trans (congrArg _ (if_neg (by simp [hcc, hdata])))
  case counted =>
    intro s u q k harrives hkept
    exact (exec_cnpReceived harrives).trans (congrArg _ (if_pos (by simpa using hkept)))
  case raised => exact fun s q hrts hcc => exec_rateIncrease hrts hcc
  case paused => exact fun s port prio hup hpfc hheeded => exec_pfcXoff hup hpfc hheeded
  case resumed => exact fun s port prio hup hpfc => exec_pfcXon hup hpfc
  case stuck => exact fun s port hpaused => congrArg Host.Outcome.next (if_neg (by simp [hpaused]))

end Sys2Proof.Machine

namespace Sys2Proof.Machine

/-! ## Links and modes of the ports (R283, R309, R466) -/

theorem exec_macLinkChange_configured {s : State} {mac : Fin 9} (hwritten : mac.val ≠ 8 ∨ ∃ w ∈ (macWords s 8).take 7, w ≠ 0)
    (hon : macOn s mac = true) (hstage : stage s ≠ 15) : exec (.macLinkChange mac true) s = .next (setMac s mac true) := by
  refine congrArg Host.Outcome.next ((if_neg (by simp [hon, hstage])).trans (if_neg ?own))
  case own =>
    rintro ⟨hmgmt, -, hblank⟩
    obtain hdata | ⟨w, hw, hset⟩ := hwritten
    · exact hdata hmgmt
    · exact hset (by simpa using List.all_eq_true.1 hblank w hw)

theorem exec_macLinkChange_boot {s : State} (hblank : ∀ w ∈ (macWords s 8).take 7, w = 0) (hon : macOn s 8 = true)
    (hstage : stage s ≠ 15) : exec (.macLinkChange 8 true) s = .next (bootMac s) := by
  have hall : ((macWords s 8).take 7).all (· == 0) = true := List.all_eq_true.2 fun w hw => by simpa using hblank w hw
  exact congrArg Host.Outcome.next ((if_neg (by simp [hon, hstage])).trans (if_pos ⟨rfl, rfl, hall⟩))

theorem exec_macLinkChange_down (s : State) (mac : Fin 9) : exec (.macLinkChange mac false) s = .next (setMac s mac false) :=
  congrArg Host.Outcome.next ((if_neg (by simp)).trans (if_neg (by simp)))

/-- A write that changes MODE takes the port's links down; where PFC was off, it resumes nothing (R283, R295). -/
theorem wrPortCfg_newMode {s u : State} {a : Acc} {port : Nat} {v : Word} (hsec : a.secure = true)
    (hu : u = rset s (aNpPortCfg0 + 4 * port) 0 (v.toNat % 128)) (hmode : portMode u port ≠ portMode s port)
    (hpfc : rf s (aNpPortCfg0 + 4 * port) 0 5 2 % 2 = 0) :
    wrPortCfg s a port v = dropHeld (setMac (setMac u (2 * port) false) (2 * port + 1) false) port := by
  subst hu
  refine (secureOnly_of_secure s _ _ _ _ hsec).trans ((if_neg ?resumes).trans (if_pos hmode))
  case resumes => simp [hpfc]

/-! ## Frames for the port itself (R285) -/

theorem exec_neighbourDiscovery_own {s : State} {fr : Frame} {ipv6 : Bool} {addr : Bytes} (hin : FrameIn s fr)
    (hown : addr = if ipv6 then macBytes (macLive s fr.mac) 3 4 else macBytes (macLive s fr.mac) 2 1)
    (hset : ∃ b ∈ addr, b ≠ 0) : exec (.neighbourDiscovery fr ipv6 addr) s =
      .next (emit s (.ndAnswer fr.mac ((macBytes (macLive s fr.mac) 0 2).take 6))) := by
  refine congrArg Host.Outcome.next ((rxFrame_in hin _).trans (if_pos ⟨hown, ?_⟩))
  rw [← hown]
  simpa using hset

theorem exec_neighbourDiscovery_other {s : State} {fr : Frame} {ipv6 : Bool} {addr : Bytes} (hin : FrameIn s fr)
    (hother : addr ≠ if ipv6 then macBytes (macLive s fr.mac) 3 4 else macBytes (macLive s fr.mac) 2 1) :
    exec (.neighbourDiscovery fr ipv6 addr) s = .next (cnt s aNpCntRxDrop) :=
  congrArg Host.Outcome.next ((rxFrame_in hin _).trans (if_neg fun h => hother h.1))

/-! ## Device time (R297, R298) -/

/-- The offset, the run of synchronisations and the rate that a message of the selected master gives; the rate stays
where the offset exceeds 1 µs (R297). -/
def ptpMeasured (s : State) (sync : Bool) (offset rate : Int) : State :=
  { s with np := { s.np with
      ptpOffset := max (-2147483648) (min 2147483647 offset)
      ptpRun := if 1000 < offset.natAbs then 0 else if !sync then s.np.ptpRun
        else if offset.natAbs < 1000 then s.np.ptpRun + 1 else 0
      ptpRate := if 1000 < offset.natAbs then s.np.ptpRate else max (-200000) (min 200000 rate) } }

/-- The lock that a measurement leaves: lost beyond 1 µs, and held from 16 in a row on, where the first lock steps the
counter forward (R297, R298). -/
def ptpJudged (s : State) (offset : Int) (time : Dword) : State :=
  if 1000 < offset.natAbs then rsetF (if rb s aNpPtpStat 0 0 then rsetF s aNpPtpStat 0 2 2 1 else s) aNpPtpStat 0 0 0 0
  else if 16 ≤ s.np.ptpRun then rsetF (if rb s aNpPtpStat 0 1 then s else { s with np := { s.np with
    ns := if s.np.ns.toNat < time.toNat then time else s.np.ns } }) aNpPtpStat 0 2 0 3
  else s

theorem exec_ptpMessage_selected {s : State} {fr : Frame} {domain : Byte} {ieee sync : Bool} (offset : Int) (time : Dword)
    (rate : Int) (hin : FrameIn s fr) (hmine : ptpMine s fr domain ieee = true) :
    exec (.ptpMessage ⟨fr, domain, ieee, sync⟩ offset time rate) s = .next (ptpJudged
      (ptpMeasured (if sync then emit s (.ptpDelayReq fr.mac domain.toNat ieee) else s) sync offset rate) offset time) :=
  congrArg Host.Outcome.next ((rxFrame_in hin _).trans (if_neg (by simp [hmine])))

theorem exec_ptpMessage_other {s : State} {fr : Frame} {domain : Byte} {ieee : Bool} (sync : Bool) (offset : Int)
    (time : Dword) (rate : Int) (hin : FrameIn s fr) (hother : ptpMine s fr domain ieee = false) :
    exec (.ptpMessage ⟨fr, domain, ieee, sync⟩ offset time rate) s = .next (cnt s aNpCntRxDrop) :=
  congrArg Host.Outcome.next ((rxFrame_in hin _).trans (if_pos (by simp [hother])))

/-- With no command outstanding STEP_BACK takes the counter back by an offset ahead of the master (R298). -/
theorem wrPtpCtl_stepBack {s u : State} {a : Acc} {v : Word} (hsec : a.secure = true) (hstep : bit v.toNat 14 = true)
    (hidle : s.fe.cmds = []) (hahead : 0 < s.np.ptpOffset) (hu : u = rset s aNpPtpCtl 0 (v.toNat % 2 ^ 14)) :
    wrPtpCtl s a v = { u with np := { s.np with
      ns := BitVec.ofNat 64 (s.np.ns.toNat - s.np.ptpOffset.toNat), ptpOffset := 0 } } := by
  subst hu
  exact (secureOnly_of_secure s _ _ _ _ hsec).trans ((if_neg (by simp [hstep])).trans
    ((if_neg (by simp [hidle])).trans (if_pos hahead)))

/-- Settles O34: the link's configuration, the address and the master decide between the branches of each row. -/
theorem macsAndClockComplete : Obligations.MacsAndClockComplete := by
  refine ⟨?up, ?upBoot, ?down, ?mode, ?answered, ?dropped, ?pause, ?selected, ?other, ?syncLoss, ?stepBack⟩
  case up => exact fun s mac hwritten hon hstage => exec_macLinkChange_configured hwritten hon hstage
  case upBoot => exact fun s hblank hon hstage => exec_macLinkChange_boot hblank hon hstage
  case down => exact fun s mac => exec_macLinkChange_down s mac
  case mode => exact fun s u a port v hacc hsec hu hmode hpfc => next_acc1 hacc (wrPortCfg_newMode hsec hu hmode hpfc)
  case answered =>
    exact fun s fr ipv6 addr hup hfec hframe hown hset => exec_neighbourDiscovery_own ⟨hup, hfec, hframe⟩ hown hset
  case dropped =>
    exact fun s fr ipv6 addr hup hfec hframe hother => exec_neighbourDiscovery_other ⟨hup, hfec, hframe⟩ hother
  case pause => exact fun s mac hup => congrArg Host.Outcome.next (if_pos hup)
  case selected =>
    intro s u w fr domain ieee sync offset time rate hup hfec hframe hmine hu hw
    have hnp : u.np = s.np := by cases sync <;> simp [hu]
    have hmeasured : w = ptpMeasured u sync offset rate := by rw [hw, ptpMeasured, hnp]
    rw [exec_ptpMessage_selected offset time rate ⟨hup, hfec, hframe⟩ hmine, ← hu, ← hmeasured, ptpJudged]
  case other =>
    exact fun s fr domain ieee sync offset time rate hup hfec hframe hother =>
      exec_ptpMessage_other sync offset time rate ⟨hup, hfec, hframe⟩ hother
  case syncLoss =>
    intro s u hu
    subst hu
    rfl
  case stepBack =>
    exact fun s u a v hacc hsec hstep hidle hahead hu => next_acc1 hacc (wrPtpCtl_stepBack hsec hstep hidle hahead hu)

end Sys2Proof.Machine

namespace Sys2Proof.Machine

/-! ## The claim (R300, R457, R458) -/

theorem stage_setStage (s : State) {n : Nat} (hn : n < 16) : stage (setStage s n) = n := by
  rw [stage, rf, setStage, rsetF, rv_rset_same]
  unfold bits setBits
  omega

theorem slow_rsetBytes (s : State) (a i : Nat) (bs : Bytes) : slow (rsetBytes s a i bs) = slow s := by
  fun_induction rsetBytes s a i bs with
  | case1 => rfl
  | case2 s a b0 b1 b2 b3 bs ih => exact ih.trans (slow_rset _ _ _ _)
  | case3 => rfl

/-- The management queue pair configured as a claim gives it and moved to RTS (R300). -/
def mgmtConfigured (s : State) (d : Bytes) : State :=
  let g := slice d 4 16
  let s := rset s aNpQpCfg 4096 (3 + 32 * fld d 23 1 + 128 * b2n (!gidV4 g))
  let s := rset s aNpQpRqpn 4096 (fld d 20 3)
  let s := rset s aNpQpRpsn 4096 (fld d 24 3)
  let s := rset s aNpQpSpsn 4096 (fld d 28 3)
  let s := rsetBytes s aNpQpRgid0 4096 g
  setQp s 4096 { st := .rts, epsn := BitVec.ofNat 24 (fld d 24 3), spsn := BitVec.ofNat 24 (fld d 28 3) }

theorem slow_mgmtConfigured (s : State) (d : Bytes) : slow (mgmtConfigured s d) = slow s := by
  simp [mgmtConfigured, slow_rsetBytes]

/-- The owner lease starts with a period in ms (R300, R301). -/
def leaseStarted (s : State) (p : Nat) : State :=
  let s := rset s aNpLeaseTimeout 0 p
  { s with np := { s.np with owned := true, expiry := slow s + leaseCyc p } }

/-- A claim is taken: it is valid, and the part is READY and has no owner (R300). -/
structure Claimable (s : State) (d : Bytes) : Prop where
  accepts : closed s = false
  ready : stage s = 8
  free : s.np.owned = false
  valid : claimOk d = true

theorem exec_claim_taken {s : State} {fr : Frame} {d : Bytes} (hin : FrameIn s fr) (hport : fr.mac = 8)
    (hclaim : Claimable s d) :
    exec (.claim ⟨fr, d⟩) s = .next (setStage (leaseStarted (mgmtConfigured s d) (fld d 32 4)) 9) := by
  obtain ⟨hopen, hready, hfree, hvalid⟩ := hclaim
  exact congrArg Host.Outcome.next ((rxFrame_in hin _).trans ((if_neg (by simp [hport])).trans
    (if_neg (by simp [hopen, hready, hfree, hvalid]))))

theorem exec_claim_ignored {s : State} {fr : Frame} {d : Bytes} (hin : FrameIn s fr) (hport : fr.mac = 8)
    (hclaim : closed s = true ∨ stage s ≠ 8 ∨ s.np.owned = true ∨ claimOk d = false) :
    exec (.claim ⟨fr, d⟩) s = .next (cnt s aNpCntClaimIgn) :=
  congrArg Host.Outcome.next ((rxFrame_in hin _).trans ((if_neg (by simp [hport])).trans
    (if_pos (by simpa using hclaim))))

theorem claimOk_period {d : Bytes} (h : claimOk d = true) : fld d 32 4 ≤ 60000 := by
  simp only [claimOk, Bool.and_eq_true, decide_eq_true_eq] at h
  exact h.2

theorem rv_leaseStarted {s : State} {p : Nat} (hp : p ≤ 60000) : rv (leaseStarted s p) aNpLeaseTimeout = p :=
  (rv_rset_same _ _ _ _).trans (Nat.mod_eq_of_lt (by omega))

/-- The boot status is not the period of the lease. -/
theorem rv_setStage_leaseTimeout (s : State) (n : Nat) : rv (setStage s n) aNpLeaseTimeout = rv s aNpLeaseTimeout :=
  rv_rsetF_other _ _ _ _ _ _ _ _ (by decide)

/-! ## Leases and sessions (R301 to R307) -/

theorem wrLeaseRenew_holds {s : State} {a : Acc} {v : Word} (hsec : a.secure = true) (hrenew : bit v.toNat 0 = true)
    (hlease : OwnerHolds s) : wrLeaseRenew s a v = ownerRenewed s := by
  obtain ⟨howned, hruns, htime⟩ := hlease
  exact if_neg (by simpa [hsec, hrenew, howned, hruns] using htime)

theorem exec_ownerLeaseExpire {s : State} (howned : s.np.owned = true) (hruns : s.np.lapsed = false)
    (hover : s.np.expiry < slow s) : exec .ownerLeaseExpire s = .next (startOrderly s 2 stLeaseLost) :=
  congrArg Host.Outcome.next (if_neg (by simpa [howned, hruns] using hover))

theorem exec_sessionLeaseExpire {s : State} {ses : BitVec 10} (hopen : closed s = false)
    (hover : (session s ses.toNat).expiry < slow s) :
    exec (.sessionLeaseExpire ses) s = .next (closeSession s ses.toNat) :=
  congrArg Host.Outcome.next (if_neg (by simpa [hopen] using hover))

/-- OPEN makes a session live that has a queue pair of its own in RTS (R304). -/
theorem openSession_served {s : State} {i p : Nat} (hclient : i ≠ 0) (hdead : (session s i).live = false)
    (hrange : p < 4096) (hrole : qpRole s p = 1) (hserves : qpSession s p = i) (hrts : qpRts s p = true) :
    openSession s i = updSession s i (fun x => { x with
      live := true, expiry := slow s + leaseCyc (rv s aNpSesPeriod i) }) := by
  refine (if_neg (by simp [hclient, hdead])).trans (if_pos (List.any_eq_true.2 ⟨p, List.mem_range.2 hrange, ?_⟩))
  simp [hrole, hserves, hrts]

theorem wrSesCtl_open {s : State} {a : Acc} {v : Word} {i : Nat} (hsec : a.secure = true) (hset : bit v.toNat 0 = true)
    (hi : i = selOf s a.who aNpSesSel % 1024) (hdead : (session s i).live = false) :
    wrSesCtl s a v = openSession s i := by
  subst hi
  exact (if_neg (by simp [hsec])).trans ((if_neg (by simp [hdead])).trans (if_pos hset))

theorem wrSesCtl_close {s : State} {a : Acc} {v : Word} {i : Nat} (hsec : a.secure = true) (hset : bit v.toNat 1 = true)
    (hi : i = selOf s a.who aNpSesSel % 1024) (hlive : (session s i).live = true) :
    wrSesCtl s a v = closeSession s i := by
  subst hi
  exact (if_neg (by simp [hsec])).trans ((if_pos hlive).trans (if_pos hset))

/-! ## ENABLE and RESET of a queue pair (R288) -/

theorem wrQpCtl_enable {s : State} {a : Acc} {v : Word} {i : Nat} (hsec : a.secure = true) (hstay : bit v.toNat 1 = false)
    (hset : bit v.toNat 0 = true) (hi : i = selIx s a.who aNpQpSel) : wrQpCtl s a v = qpEnable s i := by
  subst hi
  exact (if_neg (by simp [hsec])).trans ((if_neg (by simp [hstay])).trans (if_pos hset))

theorem wrQpCtl_reset {s : State} {a : Acc} {v : Word} (hsec : a.secure = true) (hset : bit v.toNat 1 = true) :
    wrQpCtl s a v = settle (qpReset s (selIx s a.who aNpQpSel)) :=
  (if_neg (by simp [hsec])).trans (if_pos hset)

/-! ## Accesses of peers (R289, R331) -/

/-- The state of queue pair `i` once the PSNs of a peer's access are taken, the immediate of a WRITE dropped (R286,
R289). -/
def peerTook (u : State) (i m : Nat) (k : Pkt) (write : Bool) : State :=
  if write then dropImm (tookPsn u i m) k else tookPsn u i m

/-- A peer's access lies outside its window, or the window does not allow it (R331). -/
def OutsideWindow (s : State) (i : Nat) (write : Bool) (rkey : Word) (va n : Nat) : Prop :=
  let w := rkey.toNat % 4096
  let base := rv64 s aXlMwBaseLo w / 4096 * 4096
  rb s aXlMwCfg w 0 = false ∨ rkey.toNat / 4096 ≠ rf s aXlMwTag w 19 0 ∨ rf s aXlMwCfg w 27 16 ≠ i ∨ va < base ∨
    base + 4096 * rv s aXlMwPages w < va + n ∨ rb s aXlMwCfg w (if write then 2 else 1) = false

/-- The transfer of a peer's access, which goes behind those that its queue pair has not answered (R289, R331). -/
def peerXfer (s : State) (i : Nat) (write : Bool) (rkey : Word) (va : Dword) (n : Nat) (data : Bytes) (psn : BitVec 24) : Xfer :=
  { id := s.fe.nextXfer, kind := .peer, read := !write, q := 0, n := 0
    cid := BitVec.ofNat 12 (rf s aXlMwCfg (rkey.toNat % 4096) 15 4), secure := false, addr := va, left := n, data := data
    pieces := [BitVec.ofNat 13 i], psn := psn }

/-- What a peer's access of `n` bytes does once its PSNs are taken (R331). -/
def peerJudged (q : BitVec 12) (k : Pkt) (write : Bool) (rkey : Word) (va : Dword) (n : Nat) (data : Bytes) (s : State) : State :=
  let i := q.toNat
  let w := rkey.toNat % 4096
  let base := (rv64 s aXlMwBaseLo w) / 4096 * 4096
  if !rb s aXlMwCfg w 0 ∨ rkey.toNat / 4096 ≠ rf s aXlMwTag w 19 0 ∨ rf s aXlMwCfg w 27 16 ≠ i ∨
      va.toNat < base ∨ base + 4096 * rv s aXlMwPages w < va.toNat + n ∨ !rb s aXlMwCfg w (if write then 2 else 1) then
    peerDeny s i w va.toNat write k.psn
  else
    let t := peerXfer s i write rkey va n data k.psn
    let s := { s with fe := { s.fe with nextXfer := s.fe.nextXfer + 1, xfers := s.fe.xfers ++ [t] } }
    if mayIssue s t then peerRun (n / 4096 + 3) s t false else s

theorem peerJudged_outside {q : BitVec 12} {k : Pkt} {write : Bool} {rkey : Word} {va : Dword} {n : Nat} {data : Bytes}
    {s : State} (hout : OutsideWindow s q.toNat write rkey va.toNat n) : peerJudged q k write rkey va n data s =
      peerDeny s q.toNat (rkey.toNat % 4096) va.toNat write k.psn :=
  if_pos (by simpa [OutsideWindow] using hout)

theorem peerJudged_inside {q : BitVec 12} {k : Pkt} {write : Bool} {rkey : Word} {va : Dword} {n : Nat} {data : Bytes}
    {s v : State} {x : Xfer} (hin : ¬OutsideWindow s q.toNat write rkey va.toNat n)
    (hx : x = peerXfer s q.toNat write rkey va n data k.psn)
    (hv : v = { s with fe := { s.fe with nextXfer := s.fe.nextXfer + 1, xfers := s.fe.xfers ++ [x] } }) :
    peerJudged q k write rkey va n data s = if mayIssue v x then peerRun (n / 4096 + 3) v x false else v := by
  subst hx hv
  exact if_neg (by simpa [OutsideWindow] using hin)

/-- A peer's access in turn is judged, a READ where fewer than 16 of its queue pair are unanswered (R289). -/
theorem exec_peerWindowAccess {s u u' : State} {q : BitVec 12} {k : Pkt} {write : Bool} (rkey : Word) (va : Dword)
    {len n : Nat} {data : Bytes} (hn : n = if write then data.length else len)
    (harrives : Arrives s u q.toNat (if write then pkts s q.toNat n else 1) k) (hturn : k.psn = (qp u q.toNat).epsn)
    (hrole : qpRole s q.toNat = 2) (hu' : u' = peerTook u q.toNat (pkts s q.toNat n) k write)
    (hfew : write = false → peerReads u' q.toNat < 16) :
    exec (.peerWindowAccess ⟨q, k⟩ write rkey va len data) s = .next (peerJudged q k write rkey va n data u') := by
  subst hu'
  refine congrArg Host.Outcome.next ((if_neg (not_otherRole hrole)).trans ?_)
  subst hn
  cases write with
  | true => exact rxWrite_inTurn harrives hturn (peerJudged q k true rkey va data.length data)
  | false => exact rxRead_inTurn harrives hturn (hfew rfl) (peerJudged q k false rkey va len data)

/-- Settles O35: the part is claimable, the lease's cycle over or not, the session's queue pair in RTS, and the peer's
access inside its window or not, as each clause says. -/
theorem ownershipComplete : Obligations.OwnershipComplete := by
  refine ⟨?claimed, ?ignored, ?renewed, ?lapsed, ?opened, ?closed, ?expired, ?enabled, ?reset, ?denied, ?made⟩
  case claimed =>
    intro s fr d hup hfec hframe hport hopen hready hfree hvalid
    refine ⟨_, exec_claim_taken ⟨hup, hfec, hframe⟩ hport ⟨hopen, hready, hfree, hvalid⟩, rfl, ?rts,
      stage_setStage _ (by decide), ?period, ?expiry⟩
    case rts =>
      have hqp : qp (mgmtConfigured s d) 4096 =
          { st := .rts, epsn := BitVec.ofNat 24 (fld d 24 3), spsn := BitVec.ofNat 24 (fld d 28 3) } := qp_setQp_same _ _ _
      exact congrArg Qp.st hqp
    case period => exact (rv_setStage_leaseTimeout _ _).trans (rv_leaseStarted (claimOk_period hvalid))
    case expiry => exact congrArg (· + leaseCyc (fld d 32 4)) (slow_mgmtConfigured s d)
  case ignored =>
    exact fun s fr d hup hfec hframe hport hclaim => exec_claim_ignored ⟨hup, hfec, hframe⟩ hport hclaim
  case renewed =>
    exact fun s a v hacc hsec hrenew howned hruns htime =>
      next_acc1 hacc (wrLeaseRenew_holds hsec hrenew ⟨howned, hruns, htime⟩)
  case lapsed => exact fun s howned hruns hover => exec_ownerLeaseExpire howned hruns hover
  case opened =>
    intro s a v i p hacc hsec hset hi hclient hdead hrange hrole hserves hrts
    exact next_acc1 hacc ((wrSesCtl_open hsec hset hi hdead).trans
      (openSession_served hclient hdead hrange hrole hserves hrts))
  case closed => exact fun s a v i hacc hsec hset hi hlive => next_acc1 hacc (wrSesCtl_close hsec hset hi hlive)
  case expired => exact fun s ses hopen hover => exec_sessionLeaseExpire hopen hover
  case enabled =>
    intro s a v i hacc hsec hstay hset hi hreset hrole
    exact next_acc1 hacc ((wrQpCtl_enable hsec hstay hset hi).trans (if_neg (by simp [hreset, hrole])))
  case reset => exact fun s a v hacc hsec hset => next_acc1 hacc (wrQpCtl_reset hsec hset)
  case denied =>
    intro s u u' q k write rkey va len n w base data hn harrives hturn hrole hu' hfew hw hbase hout
    subst hw hbase
    rw [exec_peerWindowAccess rkey va hn harrives hturn hrole hu' hfew, peerJudged_outside hout]
  case made =>
    intro s u u' v q k write rkey va len n w base data x hn harrives hturn hrole hu' hfew hw hbase hvalid htag hqp hlow
      hhigh hallowed hx hv
    subst hw hbase
    have hin : ¬OutsideWindow u' q.toNat write rkey va.toNat n := by
      rintro (h | h | h | h | h | h)
      · exact absurd h (by simp [hvalid])
      · exact h htag
      · exact h hqp
      · exact absurd h (Nat.not_lt.2 hlow)
      · exact absurd h (Nat.not_lt.2 hhigh)
      · exact absurd h (by simp [hallowed])
    rw [exec_peerWindowAccess rkey va hn harrives hturn hrole hu' hfew, peerJudged_inside hin hx hv]

end Sys2Proof.Machine

namespace Sys2Proof.Machine

/-! ## What an access to fold memory leaves as it is

Runs, reads, writes and fills change registers, folds and the records of errors, and put data on the wire. -/

/-- A state apart from what fold memory changes. -/
def besidesMem (s : State) : State := { s with regs := [], folds := [], ig := {}, tx := [] }

theorem fe_of_besidesMem {s t : State} (h : besidesMem t = besidesMem s) : t.fe = s.fe := by
  have hfe := congrArg State.fe h
  exact hfe

theorem pc_of_besidesMem {s t : State} (h : besidesMem t = besidesMem s) : t.pc = s.pc := by
  have hpc := congrArg State.pc h
  exact hpc

theorem besidesMem_foldl {α : Type} {g : State → α → State} (hg : ∀ s x, besidesMem (g s x) = besidesMem s) (l : List α)
    (s : State) : besidesMem (l.foldl g s) = besidesMem s :=
  foldl_keep (fun t => besidesMem t = besidesMem s) l g s rfl fun t x h => (hg t x).trans h

@[simp] theorem besidesMem_updFold (s : State) (f : Nat) (g : Fold → Fold) : besidesMem (updFold s f g) = besidesMem s := rfl

@[simp] theorem besidesMem_cnt (s : State) (a i : Nat) : besidesMem (cnt s a i) = besidesMem s := rfl

@[simp] theorem besidesMem_cntN (s : State) (a i n : Nat) : besidesMem (cntN s a i n) = besidesMem s := rfl

@[simp] theorem besidesMem_rsetF (s : State) (a i hi lo v : Nat) : besidesMem (rsetF s a i hi lo v) = besidesMem s := rfl

@[simp] theorem besidesMem_rset (s : State) (a i v : Nat) : besidesMem (rset s a i v) = besidesMem s := rfl

@[simp] theorem besidesMem_setFlog (s : State) (i : Nat) (r : Frec) : besidesMem (setFlog s i r) = besidesMem s := rfl

@[simp] theorem besidesMem_emit (s : State) (t : Tx) : besidesMem (emit s t) = besidesMem s := rfl

@[simp] theorem besidesMem_updChan (s : State) (f ch : Nat) (g : Chan → Chan) :
    besidesMem (updChan s f ch g) = besidesMem s := rfl

theorem besidesMem_tokensOn (s : State) (f p k : Nat) (waits : Bool) :
    besidesMem (tokensOn s f p k waits) = besidesMem s := by
  simp [tokensOn]

theorem besidesMem_waitFm (s : State) (f p : Nat) : besidesMem (waitFm s f p) = besidesMem s := by
  unfold waitFm
  split
  · rfl
  · exact (besidesMem_updFold _ _ _).trans (besidesMem_foldl (fun s q => besidesMem_tokensOn s f q _ _) _ _)

theorem besidesMem_openRow (s : State) (f ch i : Nat) : besidesMem (openRow s f ch i) = besidesMem s := by
  simp [openRow, apply_ite besidesMem]

@[simp] theorem besidesMem_startRun (s : State) (f p ch i : Nat) : besidesMem (startRun s f p ch i) = besidesMem s := by
  simp [startRun, besidesMem_openRow, besidesMem_waitFm, apply_ite besidesMem]

@[simp] theorem besidesMem_spend (s : State) (f p ch : Nat) (rd wr : List Nat) :
    besidesMem (spend s f p ch rd wr) = besidesMem s := by
  simp [spend, charge]

theorem besidesMem_makeRuns (s : State) (f p : Nat) (as : List Nat) (isRd isWr : Nat → Bool) :
    besidesMem (makeRuns s f p as isRd isWr) = besidesMem s :=
  besidesMem_foldl (fun _ _ => (besidesMem_spend _ _ _ _ _ _).trans (besidesMem_startRun _ _ _ _ _)) _ _

@[simp] theorem besidesMem_putSector (s : State) (f a : Nat) (d : Bytes) (mark : Bool) :
    besidesMem (putSector s f a d mark) = besidesMem s := by
  simp [putSector, apply_ite besidesMem]

theorem besidesMem_writeBack (s : State) (f a : Nat) : besidesMem (writeBack s f a) = besidesMem s := by
  simp [writeBack]

theorem besidesMem_logEv (s : State) (e : Ev) : besidesMem (logEv s e) = besidesMem s := by
  unfold logEv
  dsimp only
  split
  · rfl
  · split
    · rw [besidesMem_rset, besidesMem_setFlog]
    · rw [besidesMem_cnt, besidesMem_rsetF]

theorem besidesMem_thisSecond (s : State) : besidesMem (thisSecond s) = besidesMem s := by
  unfold thisSecond
  dsimp only
  split <;> rfl

theorem besidesMem_ceCount (s : State) (code block inst : Nat) : besidesMem (ceCount s code block inst) = besidesMem s := by
  unfold ceCount
  dsimp only
  split
  · exact (besidesMem_logEv _ _).trans (besidesMem_thisSecond s)
  · exact besidesMem_thisSecond s

theorem besidesMem_reportUe (s : State) (f a : Nat) (row : Option RowRef) (h : Option Half) :
    besidesMem (reportUe s f a row h) = besidesMem s := besidesMem_logEv s _

@[simp] theorem besidesMem_noteSec (s : State) (f : Nat) (row : Option RowRef) (h : Option Half) (back : Bool) (a : Nat) :
    besidesMem (noteSec s f row h back a) = besidesMem s := by
  unfold noteSec
  dsimp only
  split
  · rfl
  · rw [besidesMem_reportUe, besidesMem_updChan, besidesMem_cnt]
  · simp [apply_ite besidesMem, besidesMem_writeBack, besidesMem_ceCount]

@[simp] theorem besidesMem_storeRun (s : State) (f : Nat) (r : Run) : besidesMem (storeRun s f r) = besidesMem s := by
  refine (besidesMem_foldl ?sector _ _).trans (besidesMem_spend _ _ _ _ _ _)
  case sector =>
    rintro s ⟨i, d, m⟩
    simp [apply_ite besidesMem]

theorem besidesMem_issueRun (s : State) (f : Nat) (r : Run) : besidesMem (issueRun s f r) = besidesMem s := by
  unfold issueRun
  dsimp only
  split
  · rw [besidesMem_storeRun, besidesMem_startRun, besidesMem_updFold]
  · rw [besidesMem_updChan, besidesMem_spend, besidesMem_startRun, besidesMem_updFold]

theorem besidesMem_returnRun (s : State) (f : Nat) (r : Run) : besidesMem (returnRun s f r) = besidesMem s := by
  unfold returnRun
  dsimp only
  split
  · simp
  · exact besidesMem_foldl (fun _ _ => besidesMem_noteSec _ _ _ _ _ _) _ _

theorem besidesMem_serveRun (s : State) (f : Nat) (r : Run) : besidesMem (serveRun s f r) = besidesMem s := by
  simp [serveRun, apply_ite besidesMem, besidesMem_issueRun, besidesMem_returnRun]

theorem besidesMem_serveTo (s : State) (f : Nat) (clash : Run → Bool) : besidesMem (serveTo s f clash) = besidesMem s :=
  besidesMem_foldl (fun _ _ => besidesMem_serveRun _ _ _) _ _

theorem besidesMem_flipSector (s : State) (f a : Nat) (fd : BitVec 256) (fc : BitVec 16) :
    besidesMem (flipSector s f a fd fc) = besidesMem s := by
  unfold flipSector
  split <;> rfl

theorem besidesMem_fillInject (s : State) (f lo hi : Nat) : besidesMem (fillInject s f lo hi) = besidesMem s := by
  unfold fillInject
  dsimp only
  split
  · split
    · exact besidesMem_putSector _ _ _ _ _
    · rfl
  · rfl

theorem besidesMem_fillRun (s : State) (f ch a b : Nat) : besidesMem (fillRun s f ch a b) = besidesMem s := by
  unfold fillRun
  dsimp only
  rw [besidesMem_cntN, besidesMem_cntN, besidesMem_updFold, besidesMem_startRun]

theorem besidesMem_fillRow (s : State) (f lo hi r : Nat) : besidesMem (fillRow s f lo hi r) = besidesMem s := by
  unfold fillRow
  exact besidesMem_foldl (fun s ch => besidesMem_fillRun s f ch _ _) _ _

theorem besidesMem_fillRowsFrom (s : State) (f lo hi n r : Nat) :
    besidesMem (fillRowsFrom s f lo hi n r) = besidesMem s := by
  fun_induction fillRowsFrom s f lo hi n r with
  | case1 => rfl
  | case2 s n r ih => exact ih.trans (besidesMem_fillRow _ _ _ _ _)

theorem besidesMem_fmFill (s : State) (f lo hi : Nat) : besidesMem (fmFill s f lo hi) = besidesMem s := by
  unfold fmFill
  dsimp only
  rw [besidesMem_fillInject]
  split
  · rw [besidesMem_fillRowsFrom, besidesMem_updFold, besidesMem_serveTo]
  · rw [besidesMem_updFold, besidesMem_serveTo]

/-! ## The scrub, the refresh and the maintenance slot (R346, R355 to R360) -/

/-- The sectors left of a channel's granule from sector `i` on (R346). -/
def granuleRest (ch i : Nat) : List Nat := (List.range (8 - i % 8)).map (fun k => addrOf ch (i + k))

/-- The fold with the sectors `as` read by the scrub, the first of them with bits gone wrong (R346, R355). -/
def scrubbed (s : State) (f ch i : Nat) (as : List Nat) (fd : BitVec 256) (fc : BitVec 16) : State :=
  as.foldl (fun s a => noteSec s f none none true a) (makeRuns (flipSector (serveBefore s f 15 as) f (addrOf ch i) fd fc)
    f 15 as (fun _ => true) (fun _ => false))

theorem chanSecs_scrubbed (s : State) (f ch i : Nat) (as : List Nat) (fd : BitVec 256) (fc : BitVec 16) :
    chanSecs (scrubbed s f ch i as fd fc) = chanSecs s := by
  have hbesides : besidesMem (scrubbed s f ch i as fd fc) = besidesMem s :=
    (besidesMem_foldl (fun _ _ => besidesMem_noteSec _ _ _ _ _ _) _ _).trans ((besidesMem_makeRuns _ _ _ _ _ _).trans
      ((besidesMem_flipSector _ _ _ _ _).trans (besidesMem_serveTo _ _ _)))
  rw [chanSecs, chanSecs, usable, usable, dieGb, dieGb, pc_of_besidesMem hbesides]

theorem exec_scrub {s : State} {f : Fin 8} {ch : Fin 16} (fd : BitVec 256) (fc : BitVec 16) {i : Nat}
    (hen : rb s (foldReg f aFmCtl) 0 1 = true) (hfilled : (fold s f).filled = true) (hsize : chanSecs s ≠ 0)
    (hmay : mayFm s f 15 = true) (hi : i = (mget {} (fold s f).chans ch).scrubAt) :
    exec (.scrub f ch fd fc) s = .next (updChan (scrubbed s f ch i (granuleRest ch i) fd fc) f ch
      (fun c => { c with scrubAt := (i + (8 - i % 8)) % chanSecs s })) := by
  subst hi
  rw [← chanSecs_scrubbed s f ch _ (granuleRest ch _) fd fc]
  exact congrArg Host.Outcome.next (if_neg (by simp [hen, hfilled, hsize, hmay]))

theorem exec_refresh {s : State} {f : Fin 8} {ch : Fin 16} {c : Chan} (hc : c = mget {} (fold s f).chans ch)
    (htrained : c.trained = true) :
    exec (.refresh f ch) s = .next (updChan (cntN s (foldReg f aFmChRefWait) ch
      (delayed (fold s f) ch (fun k => k % 8 == c.pair.toNat))) f ch (fun _ => { c with
        refMult := if c.pair = 0 then c.refNext else c.refMult, pair := c.pair + 1, intervals := c.intervals + 1
        openRow := mset 0 (mset 0 c.openRow c.pair.toNat 0) (c.pair.toNat + 8) 0 })) := by
  show execRefresh f ch s = _
  unfold execRefresh
  dsimp only
  rw [← hc, if_neg (by simp [htrained])]
  by_cases hstart : c.pair = 0
  · rw [if_pos hstart, if_pos hstart]
  · rw [if_neg hstart, if_neg hstart]

/-- A channel with the delay step that is due applied (R360). -/
def stepApplied (c : Chan) : Chan :=
  match c.pendingStep with
  | some up => { c with pendingStep := none, delay := if up then c.delay + 1 else c.delay - 1
                        driftSteps := c.driftSteps + 1, driftFlag := c.driftFlag || c.driftSteps + 1 == 8 }
  | none => c

/-- A channel with its oscillator started, or read against the value of the last training (R360). -/
def oscTurned (c : Chan) (lim : Nat) (osc : Int) : Chan :=
  if !c.oscStarted then { c with oscStarted := true }
  else { c with oscStarted := false
                pendingStep := if lim < (osc - c.oscBase).natAbs then some (decide (c.oscBase < osc)) else none }

theorem stepApplied_none {c : Chan} (h : c.pendingStep = none) : stepApplied c = c := by
  simp only [stepApplied, h]

theorem stepApplied_some {c : Chan} {up : Bool} (h : c.pendingStep = some up) : stepApplied c = { c with
    pendingStep := none, delay := if up then c.delay + 1 else c.delay - 1, driftSteps := c.driftSteps + 1
    driftFlag := c.driftFlag || c.driftSteps + 1 == 8 } := by
  simp only [stepApplied, h]

theorem oscTurned_idle {c : Chan} (h : c.oscStarted = false) (lim : Nat) (osc : Int) :
    oscTurned c lim osc = { c with oscStarted := true } := if_pos (by simp [h])

theorem oscTurned_started {c : Chan} (h : c.oscStarted = true) (lim : Nat) (osc : Int) : oscTurned c lim osc = { c with
    oscStarted := false
    pendingStep := if lim < (osc - c.oscBase).natAbs then some (decide (c.oscBase < osc)) else none } :=
  if_neg (by simp [h])

/-- A channel after a maintenance slot, which begins the interval anew (R358, R360). -/
def maintained (c : Chan) (lim : Nat) (osc : Int) : Chan := { oscTurned (stepApplied c) lim osc with intervals := 0 }

/-- The counts of a maintenance slot of channel `c`: the heads it delays and the delay step it applies (R358, R363). -/
def slotCounted (s : State) (f ch : Nat) (c : Chan) : State :=
  let s := cntN s (foldReg f aFmChRefWait) ch (delayed (fold s f) ch (fun _ => true))
  if c.pendingStep.isSome then cnt s (foldReg f aFmChDriftStep) ch else s

theorem fold_slotCounted (s : State) (f ch k : Nat) (c : Chan) : fold (slotCounted s f ch c) k = fold s k := by
  unfold slotCounted
  dsimp only
  split
  · rw [fold_cnt, fold_cntN]
  · rw [fold_cntN]

/-- A maintenance slot that raises no drift flag starts no re-plan (R360, R493). -/
theorem exec_maintenanceSlot {s u : State} {f : Fin 8} {ch : Fin 16} {osc : Int} {c d : Chan}
    (hc : c = mget {} (fold s f).chans ch) (htrained : c.trained = true) (hu : u = slotCounted s f ch c)
    (hd : d = maintained c (driftLim u f) osc) (hflag : d.driftFlag = c.driftFlag) :
    exec (.maintenanceSlot f ch osc) s = .next (updChan u f ch (fun _ => d)) := by
  have hwas : (mget {} (fold u f).chans ch).driftFlag = c.driftFlag := by rw [hu, fold_slotCounted, hc]
  have hraised : ¬(d.driftFlag && !(mget {} (fold u f).chans ch).driftFlag) = true := by
    rw [hwas, hflag]
    simp
  subst hd hu hc
  exact congrArg Host.Outcome.next ((if_neg (by rw [htrained]; exact Bool.false_ne_true)).trans (if_neg hraised))

/-! ## The retraining (R361, R495) -/

/-- A number put into a list where it is not there yet. -/
def noted (l : List Nat) (k : Nat) : List Nat := if l.contains k then l else l ++ [k]

theorem mem_noted {l : List Nat} {k j : Nat} : j ∈ noted l k ↔ j = k ∨ j ∈ l := by
  by_cases hk : k ∈ l
  · simp only [noted, List.contains_iff_mem, hk, if_true]
    exact ⟨.inr, fun h => h.elim (fun h => h ▸ hk) id⟩
  · simp [noted, hk, or_comm]

/-- A re-plan may retrain channel `c` of a fold: it is trained, the fold is not skipped, and no other channel of the fold
is being retrained (R361, R495). -/
structure Retrains (s : State) (f : Fin 8) (ch : Fin 16) (c : Chan) : Prop where
  chan : c = mget {} (fold s f).chans ch
  plan : s.pc.replanning = true
  trained : c.trained = true
  met : foldSkipped s f = false
  alone : ∀ e ∈ (fold s f).chans, e.1 ≠ ch.val → e.2.retraining = false

theorem Retrains.not_kept {s : State} {f : Fin 8} {ch : Fin 16} {c : Chan} (h : Retrains s f ch c) :
    ¬((!s.pc.replanning) = true ∨ (!(mget {} (fold s f).chans ch).trained) = true ∨ foldSkipped s f = true ∨
      (fold s f).chans.any (fun (k, y) => k ≠ ch.val && y.retraining) = true) := by
  obtain ⟨rfl, hplan, htrained, hmet, halone⟩ := h
  rintro (h | h | h | h)
  · simp [hplan] at h
  · rw [htrained] at h
    exact Bool.false_ne_true h
  · simp [hmet] at h
  · obtain ⟨e, he, hbusy⟩ := List.any_eq_true.1 h
    simp only [Bool.and_eq_true, decide_eq_true_eq] at hbusy
    simp [halone e he hbusy.1] at hbusy

theorem exec_retrainStep_more {s : State} {f : Fin 8} {ch : Fin 16} {c : Chan} (h : Retrains s f ch c)
    (rdEye wrEye vref : Byte) : exec (.retrainStep f ch rdEye wrEye vref false) s = .next (updChan s f ch (fun _ => { c with
      retraining := true, steps := if c.retraining then c.steps + 1 else 1 })) := by
  have hgo := h.not_kept
  obtain ⟨rfl, -⟩ := h
  exact congrArg Host.Outcome.next (if_neg hgo)

theorem exec_retrainStep_last {s : State} {f : Fin 8} {ch : Fin 16} {c : Chan} (h : Retrains s f ch c)
    (rdEye wrEye vref : Byte) : exec (.retrainStep f ch rdEye wrEye vref true) s = .next (updChan { (draw s).2 with
      pc := { s.pc with draws := (draw s).2.pc.draws, retrained := noted s.pc.retrained (16 * f.val + ch.val) } } f ch
        (fun _ => { c with
          retraining := false, steps := if c.retraining then c.steps + 1 else 1
          rdEye := rdEye, wrEye := wrEye, vref := vref, driftSteps := 0, oscBase := (draw s).1, oscStarted := false })) := by
  have hgo := h.not_kept
  obtain ⟨rfl, -⟩ := h
  exact congrArg Host.Outcome.next (if_neg hgo)

/-! ## The end of a fill (R303, R316, R347, R420, R462) -/

/-- A fold without a row or a byte written, as its boot fill leaves it before the injection of R510 (R347). -/
def emptied (x : Fold) : Fold :=
  { x with pasture := [], check := [], pen := [], penPoison := [], dir := [], masters := [], filled := true }

theorem exec_fillDone_boot {s w : State} {f : Fin 8} {ms : Nat} (hheld : heldInReset s = false) (hstage : stage s = 7)
    (hdisabled : (fold s f).disabled = false) (hfirst : (fold s f).filled = false) (htrained : foldTrained s f = true)
    (hw : w = fmFillAll (updFold s f emptied) f) :
    exec (.fillDone (.boot f ms)) s = .next (if allFilled w then enterReady w ms else w) := by
  subst hw
  exact congrArg Host.Outcome.next (if_neg (by simp [hheld, hstage, hdisabled, hfirst, htrained]))

/-- The fill of an unmapped region that has pages frees its descriptor and ends its REGION_UNMAP (R316). -/
theorem exec_fillDone_unmap {s : State} {i : Nat} {c : Cmd} (hgoing : (region s i).unmapping = true)
    (hmay : mayFm s (region s i).unit.toNat 15 = true) (hpages : (region s i).base < regionTop s (region s i))
    (hcmd : s.fe.cmds.find? (fun c => cOp c == 20 && c.q == 0 && c.phase == .unit && cF c 16 2 == i) = some c) :
    exec (.fillDone (.unmap i)) s = .next (finish
      (setRegion (fmFill s (region s i).unit.toNat (region s i).base (regionTop s (region s i))) i {}) 0 c.n 0) := by
  refine congrArg Host.Outcome.next ((if_pos hmay).trans ?_)
  have hgoing' : ¬(!(region s i).unmapping) = true := by simp [hgoing]
  simp only [unmapDone, if_neg hgoing', if_pos hpages, setRegion_fe, fe_of_besidesMem (besidesMem_fmFill _ _ _ _), hcmd]

theorem exec_fillDone_clear {s : State} {c : BitVec 4} (horderly : s.pc.orderly = some c) :
    exec (.fillDone .clear) s = .next (wholeReset s c.toNat) := by
  show execFillDone .clear s = _
  simp only [execFillDone, horderly]

/-- Settles O37: the channel is trained, the fold filled and not held, or the fill one that is under way, as each clause
says. -/
theorem channelUpkeepComplete : Obligations.ChannelUpkeepComplete := by
  refine ⟨?scrubs, ?refreshed, ?rates, ?oscillator, ?step, ?retrained, ?lastStep, ?boot, ?unmapped, ?cleared⟩
  case scrubs =>
    intro s u f ch fd fc i as hen hfilled hsize hmay hi has hu
    subst has hu
    exact exec_scrub fd fc hen hfilled hsize hmay hi
  case refreshed => exact fun s f ch c hc htrained => exec_refresh hc htrained
  case rates => exact fun s f rates => rfl
  case oscillator =>
    intro s u f ch osc c d hc htrained hu hdue hd
    refine exec_maintenanceSlot hc htrained ?counted ?chan ?flag
    case counted => rw [hu, slotCounted, hdue]; rfl
    case chan =>
      rw [hd, maintained, stepApplied_none hdue]
      cases hosc : c.oscStarted with
      | false => rw [oscTurned_idle hosc, if_neg Bool.false_ne_true]
      | true => rw [oscTurned_started hosc, if_pos rfl]
    case flag =>
      rw [hd]
      split <;> rfl
  case step =>
    intro s u f ch osc c d up hc htrained hdue hosc hu hd hflag
    refine exec_maintenanceSlot hc htrained ?counted ?chan hflag
    case counted => rw [hu, slotCounted, hdue]; rfl
    case chan =>
      have hidle : (stepApplied c).oscStarted = false := by
        rw [stepApplied_some hdue]
        exact hosc
      rw [hd, maintained, oscTurned_idle hidle, stepApplied_some hdue]
  case retrained =>
    exact fun s f ch rdEye wrEye vref c hc hplan htrained hmet halone =>
      exec_retrainStep_more ⟨hc, hplan, htrained, hmet, halone⟩ rdEye wrEye vref
  case lastStep =>
    exact fun s f ch rdEye wrEye vref c hc hplan htrained hmet halone => ⟨_, fun _ => mem_noted,
      exec_retrainStep_last ⟨hc, hplan, htrained, hmet, halone⟩ rdEye wrEye vref⟩
  case boot =>
    exact fun s w f ms hheld hstage hdisabled hfirst htrained hw =>
      exec_fillDone_boot hheld hstage hdisabled hfirst htrained hw
  case unmapped => exact fun s i c hgoing hmay hpages hcmd => exec_fillDone_unmap hgoing hmay hpages hcmd
  case cleared => exact fun s c horderly => exec_fillDone_clear horderly

end Sys2Proof.Machine

namespace Sys2Proof.Machine

/-! ## Collectives among the members (R381, R383) -/

theorem exec_clear_early {s : State} {key : Word} {idx : Half} (hnone : collBy s key idx = none) (m : BitVec 12) :
    exec (.clear m key idx) s = .next { s with dl := { s.dl with clears := s.dl.clears ++ [(m, key, idx)] } } := by
  show execClear m key idx s = _
  simp only [execClear, hnone]

theorem exec_clear_found {s : State} {key : Word} {idx : Half} {c : Coll} (hfound : collBy s key idx = some c)
    (m : BitVec 12) :
    exec (.clear m key idx) s = .next
      (if c.started && !c.sent.contains m then
        sendBlock (updColl s c.req idx (fun c => { c with cleared := m :: c.cleared })) c m
       else updColl s c.req idx (fun c => { c with cleared := m :: c.cleared })) := by
  show execClear m key idx s = _
  simp only [execClear, hfound]

/-- What of a slice lies in the block lands at the sender's place, and the last slice notes that its block has landed. -/
theorem exec_slice_lands {s : State} {key : Word} {idx : Half} {off : Nat} {data : Marked} {c : Coll}
    (hfound : collBy s key idx = some c)
    (hsome : (cutMarked data (min data.data.length (c.bytes - off))).data ≠ []) (m : BitVec 12) (last : Bool) {u : State}
    (hu : u = updCore s c.core (fun x => extPut x (c.dst + m.toNat * c.stride + off)
      (farMarked (cutMarked data (min data.data.length (c.bytes - off)))))) :
    exec (.slice m key idx off data last) s = .next (if last && !c.landed.contains m then
      updColl u c.req idx (fun c => { c with landed := m :: c.landed }) else u) := by
  subst hu
  show execSlice m key idx off data last s = _
  simp only [execSlice, hfound, List.isEmpty_iff, if_neg hsome]

theorem exec_collectiveTimeout_open {s : State} {h idx : Half} {c : Coll} (hfound : collOf s h idx = some c)
    (hrisen : c.risen = false) (hdone : collDone s c = false) :
    exec (.collectiveTimeout h idx) s = .next (failColl s c) := by
  show execCollectiveTimeout h idx s = _
  simp only [execCollectiveTimeout, hfound]
  rw [if_neg (by simp [hrisen, hdone])]

/-! ## Accesses through a remote window (R334, R382)

The table is matched once (`rwinAddr`); its answer, the memory of a fold, a scratchpad or nothing, chooses the branch
(log entry 149). -/

section
variable {s : State} {src : BitVec 12} {win : BitVec 6} {off : Dword}

/-- Partition 15 is the one of Drove accesses; a PUT that it may not make yet waits (R353; log entries 98, 132). -/
theorem putGo_fold {data : Marked} {f a : Nat}
    (hopen : rwinAddr s src.toNat win.toNat off.toNat data.data.length true = some (.fold f a)) (tag : Word) :
    putGo s src tag win off data =
      if mayFm s f 15 then fmPutMarked s 15 f a data else waitMsg s (.put src tag win off data) := by
  unfold putGo
  simp only [hopen]

theorem putGo_core {data : Marked} {c a : Nat}
    (hopen : rwinAddr s src.toNat win.toNat off.toNat data.data.length true = some (.core c a)) (tag : Word) :
    putGo s src tag win off data = updCore s c (fun x => extPut x a (farMarked data)) := by
  unfold putGo
  simp only [hopen]

theorem putGo_denied {data : Marked}
    (hshut : rwinAddr s src.toNat win.toNat off.toNat data.data.length true = none) (tag : Word) :
    putGo s src tag win off data =
      droveSend (rwinDeny s src.toNat off.toNat) src.toNat (.deny (BitVec.ofNat 12 (myId s)) tag) := by
  unfold putGo
  simp only [hshut]

theorem getGo_fold {len f a : Nat}
    (hopen : rwinAddr s src.toNat win.toNat off.toNat len false = some (.fold f a)) (tag : Word) :
    getGo s src tag win off len =
      if mayFm s f 15 then droveSend (fmRead s 15 f a len).1 src.toNat (.getData (BitVec.ofNat 12 (myId s)) tag
        { data := (fmRead s 15 f a len).2.1, marks := secMarks (fold (fmRead s 15 f a len).1 f) a len })
      else waitMsg s (.getReq src tag win off len) := by
  unfold getGo
  simp only [hopen]
  cases mayFm s f 15 <;> rfl

theorem getGo_core {len c a : Nat}
    (hopen : rwinAddr s src.toNat win.toNat off.toNat len false = some (.core c a)) (tag : Word) :
    getGo s src tag win off len = droveSend s src.toNat
      (.getData (BitVec.ofNat 12 (myId s)) tag (readMarked (core s c) a len)) := by
  unfold getGo
  simp only [hopen]

theorem getGo_denied {len : Nat} (hshut : rwinAddr s src.toNat win.toNat off.toNat len false = none) (tag : Word) :
    getGo s src tag win off len =
      droveSend (rwinDeny s src.toNat off.toNat) src.toNat (.deny (BitVec.ofNat 12 (myId s)) tag) := by
  unfold getGo
  simp only [hshut]

end

/-! ## Answers to this part's own accesses (R382) -/

/-- The data lands in the first piece of the collective where it carries the collective's own tag, in the second where its
bit 31 differs (log entry 160). -/
theorem exec_getData_found {s : State} {src : BitVec 12} {tag : Word} {c : Coll}
    (hfound : s.dl.colls.find? (fun c => c.kind == 3 && c.tag.toNat % 2 ^ 31 == tag.toNat % 2 ^ 31 &&
      memPrim s c.stride == src.toNat) = some c) (data : Marked) :
    exec (.getData src tag data) s = .next (updColl (updCore s c.core (fun x =>
      extPut x (c.dst + if tag = c.tag then 0 else pieceMax)
        (farMarked (cutMarked data (c.bytes - if tag = c.tag then 0 else pieceMax))))) c.req c.index
      (fun c => { c with landed := c.landed ++ [src] })) := by
  show execGetData src tag data s = _
  simp only [execGetData, hfound]

theorem exec_deny_found {s : State} {src : BitVec 12} {tag : Word} {c : Coll}
    (hfound : s.dl.colls.find? (fun c => (c.kind == 2 || c.kind == 3) &&
      c.tag.toNat % 2 ^ 31 == tag.toNat % 2 ^ 31 && memPrim s c.stride == src.toNat) = some c) :
    exec (.deny src tag) s =
      .next (updColl (excOf s c.req stRegionDenied) c.req c.index (fun c => { c with landed := c.landed ++ [src] })) := by
  show execDeny src tag s = _
  simp only [execDeny, hfound]

/-- Settles O27: a CLEAR, a slice, an answer and a timeout act on the collective that they find, and a PUT and a GET go as
the remote window answers. -/
theorem collectivesComplete : Obligations.CollectivesComplete := by
  refine ⟨?kept, ?cleared, ?sliced, ?putFold, ?putCore, ?putDenied, ?getFold, ?getWaits, ?getCore, ?getDenied, ?landed,
    ?denied, ?timedOut⟩
  case kept => exact fun s m key idx hnone => exec_clear_early hnone m
  case cleared => exact fun s m key idx c hfound => exec_clear_found hfound m
  case sliced => exact fun s u m key idx off data last c hfound hsome hu => exec_slice_lands hfound hsome m last hu
  case putFold => exact fun s src tag win off data f a hopen => congrArg Host.Outcome.next (putGo_fold hopen tag)
  case putCore => exact fun s src tag win off data c a hopen => congrArg Host.Outcome.next (putGo_core hopen tag)
  case putDenied => exact fun s src tag win off data hshut => congrArg Host.Outcome.next (putGo_denied hshut tag)
  case getFold =>
    intro s src tag win off len f a hopen hmay
    exact congrArg Host.Outcome.next ((getGo_fold hopen tag).trans (if_pos hmay))
  case getWaits =>
    intro s src tag win off len f a hopen hheld
    exact congrArg Host.Outcome.next ((getGo_fold hopen tag).trans (if_neg (by simp [hheld])))
  case getCore => exact fun s src tag win off len c a hopen => congrArg Host.Outcome.next (getGo_core hopen tag)
  case getDenied => exact fun s src tag win off len hshut => congrArg Host.Outcome.next (getGo_denied hshut tag)
  case landed => exact fun s src tag data c hfound => exec_getData_found hfound data
  case denied => exact fun s src tag c hfound => exec_deny_found hfound
  case timedOut => exact fun s h idx c hfound hrisen hdone => exec_collectiveTimeout_open hfound hrisen hdone

end Sys2Proof.Machine

namespace Sys2Proof.Machine

/-! ## The interleave and its inverse (R340, R341) -/

theorem chanMix_lt (x : Nat) : chanMix x < 16 := by
  unfold chanMix
  omega

theorem xor_chanMix_lt {c : Nat} (hc : c < 16) (x : Nat) : Nat.xor c (chanMix x) < 16 :=
  Nat.xor_lt_two_pow (n := 4) hc (chanMix_lt x)

theorem xor_chanMix_cancel (c x : Nat) : Nat.xor (Nat.xor c (chanMix x)) (chanMix x) = c :=
  Nat.xor_xor_cancel_right c (chanMix x)

theorem secOf_div_eight (a : Nat) : secOf a / 8 = a / 4096 := by
  unfold secOf
  omega

theorem chanOf_lt (a : Nat) : chanOf a < 16 := xor_chanMix_lt (by omega) _

theorem addrOf_eq {c : Nat} (hc : c < 16) (i : Nat) :
    addrOf c i = (i / 8 * 16 + Nat.xor c (chanMix (i / 8))) * 256 + i % 8 * 32 := by
  rw [addrOf, Nat.mod_eq_of_lt hc]

theorem chanOf_addrOf {c : Nat} (hc : c < 16) (i : Nat) : chanOf (addrOf c i) = c := by
  have hlt := xor_chanMix_lt hc (i / 8)
  have hlow : addrOf c i / 256 % 16 = Nat.xor c (chanMix (i / 8)) := by rw [addrOf_eq hc]; omega
  have hhigh : addrOf c i / 4096 = i / 8 := by rw [addrOf_eq hc]; omega
  rw [chanOf, hlow, hhigh, xor_chanMix_cancel]

theorem secOf_addrOf {c : Nat} (hc : c < 16) (i : Nat) : secOf (addrOf c i) = i := by
  have hlt := xor_chanMix_lt hc (i / 8)
  rw [secOf, addrOf_eq hc]
  omega

/-- The channel and the channel sector of an address give the first address of its sector again. -/
theorem addrOf_chanOf_secOf (a : Nat) : addrOf (chanOf a) (secOf a) = a / 32 * 32 := by
  rw [addrOf_eq (chanOf_lt a), secOf_div_eight, chanOf, xor_chanMix_cancel, secOf]
  omega

/-- The granule of a channel's sector is that of the first sector of its channel granule. -/
theorem addrOf_div_granule (c i : Nat) : addrOf c i / 256 = addrOf c (8 * (i / 8)) / 256 := by
  have hgranule : 8 * (i / 8) / 8 = i / 8 := by omega
  simp only [addrOf, hgranule]
  omega

theorem granule_eq_of_chanOf {a b : Nat} (hch : chanOf a = chanOf b) (hx : secOf a / 8 = secOf b / 8) :
    a / 256 = b / 256 := by
  have hsame : addrOf (chanOf a) (secOf a) / 256 = addrOf (chanOf b) (secOf b) / 256 := by
    rw [addrOf_div_granule, hch, hx, ← addrOf_div_granule]
  rw [addrOf_chanOf_secOf, addrOf_chanOf_secOf] at hsame
  omega

theorem sector_eq_of_chanOf {a b : Nat} (hch : chanOf a = chanOf b) (hsec : secOf a = secOf b) : a / 32 = b / 32 := by
  have hsame : a / 32 * 32 = b / 32 * 32 := by rw [← addrOf_chanOf_secOf, ← addrOf_chanOf_secOf, hch, hsec]
  omega

/-- Channel granule `x` of a channel is one of the sixteen granules from `16 * x` on. -/
theorem addrOf_granule_bounds {c : Nat} (hc : c < 16) (x : Nat) :
    ∃ g, addrOf c (8 * x) = 256 * g ∧ 16 * x ≤ g ∧ g ≤ 16 * x + 15 := by
  have hlt := xor_chanMix_lt hc (8 * x / 8)
  exact ⟨8 * x / 8 * 16 + Nat.xor c (chanMix (8 * x / 8)), by rw [addrOf_eq hc]; omega, by omega, by omega⟩

/-- The usable pasture is `n` channel granules of all sixteen channels (R338). -/
theorem usable_of_dieGb {s : State} {n : Nat} (h : (dieGb s = 32 ∧ n = 15728640) ∨ (dieGb s = 24 ∧ n = 11796480)) :
    usable s = 4096 * n := by
  rcases h with ⟨hgb, rfl⟩ | ⟨hgb, rfl⟩ <;> simp [usable, hgb]

/-- Settles O56: `addrOf` inverts the map to channels and channel sectors. -/
theorem interleaveOneToOne : Obligations.InterleaveOneToOne := by
  refine ⟨?places, ?injective, ?sectors, ?onto, ?sizes⟩
  case places =>
    intro a
    have hgranule : a / 256 / 16 = a / 4096 := Nat.div_div_eq_div_mul a 256 16
    rw [hgranule]
    exact ⟨rfl, rfl⟩
  case injective => exact fun a b hch hx => granule_eq_of_chanOf hch hx
  case sectors => exact fun a b hch hsec => sector_eq_of_chanOf hch hsec
  case onto =>
    intro x c hc
    obtain ⟨g, haddr, hlo, hhi⟩ := addrOf_granule_bounds hc x
    have hch : chanOf (256 * g) = c := by rw [← haddr, chanOf_addrOf hc]
    have hx : secOf (256 * g) / 8 = x := by rw [secOf_div_eight]; omega
    refine ⟨g, hlo, hhi, hch, hx, fun h hch' hx' => ?_⟩
    have hsame := granule_eq_of_chanOf (hch'.trans hch.symm) (hx'.trans hx.symm)
    omega
  case sizes =>
    intro s n hgb
    rw [usable_of_dieGb hgb]
    refine ⟨fun a ha => ?_, fun x c hx hc => ?_⟩
    · rw [secOf_div_eight]
      omega
    · obtain ⟨g, haddr, -, hhi⟩ := addrOf_granule_bounds hc x
      refine ⟨addrOf c (8 * x), by omega, chanOf_addrOf hc _, ?_⟩
      rw [secOf_addrOf hc]
      omega

end Sys2Proof.Machine

namespace Sys2Proof.Machine

/-! ## Requests (R339, R348 to R350, R424)

A filled fold that is not held takes a request; its size, then the room for its runs, choose what becomes of it. -/

/-- The runs `rs` do not fit beside what fold `x` has outstanding and queued (R350). -/
def noRoom (x : Fold) (rs : List Run) : Prop :=
  1024 < runsOut x + rs.length ∨ ∃ r ∈ rs, 32 < queued x r.part r.ch + (rs.filter (fun q => q.ch == r.ch)).length

/-- A fold with the runs `rs` queued after all earlier ones (R350). -/
def withRuns (x : Fold) (rs : List Run) : Fold :=
  { x with
    runs := x.runs ++ rs.zipIdx.map (fun e => { e.1 with order := x.nextRun + e.2 })
    nextRun := x.nextRun + rs.length }

theorem not_noRoom {x : Fold} {rs : List Run} (hall : runsOut x + rs.length ≤ 1024)
    (hqueue : ∀ r ∈ rs, queued x r.part r.ch + (rs.filter (fun q => q.ch == r.ch)).length ≤ 32) : ¬noRoom x rs := by
  rintro (hfull | ⟨r, hr, hfull⟩)
  · omega
  · have := hqueue r hr
    omega

section
variable {s : State} {f : Fin 8} {part : Fin 16} {write : Bool} {addr len n : Nat} {data : Bytes}

/-- R339 gives such an address no effect; the fault is the model's choice (log entry 120). -/
theorem exec_fmRequest_fault (hfilled : (fold s f).filled = true) (hheld : fmHeld s f = false)
    (hn : n = if write then data.length else len) (hsize : usable s < addr + n) (wide : Bool) :
    exec (.fmRequest f part wide write addr data len) s = .fault (.noSuchFoldAddress addr) := by
  subst hn
  exact (if_neg (by simp [hfilled, hheld])).trans (if_pos hsize)

theorem exec_fmRequest_held (hfilled : (fold s f).filled = true) (hheld : fmHeld s f = false)
    (hn : n = if write then data.length else len) (hsize : addr + n ≤ usable s)
    (hroom : noRoom (fold s f) (reqRuns part write addr n data)) (wide : Bool) :
    exec (.fmRequest f part wide write addr data len) s = .next s := by
  subst hn
  refine ((if_neg (by simp [hfilled, hheld])).trans (if_neg (by omega))).trans (if_pos ?_)
  simpa [noRoom] using hroom

theorem exec_fmRequest_queued (hfilled : (fold s f).filled = true) (hheld : fmHeld s f = false)
    (hn : n = if write then data.length else len) (hsize : addr + n ≤ usable s)
    (hroom : ¬noRoom (fold s f) (reqRuns part write addr n data)) (wide : Bool) :
    exec (.fmRequest f part wide write addr data len) s =
      .next (setFold s f (withRuns (fold s f) (reqRuns part write addr n data))) := by
  subst hn
  refine ((if_neg (by simp [hfilled, hheld])).trans (if_neg (by omega))).trans ((if_neg ?_).trans ?_)
  · simpa [noRoom] using hroom
  · dsimp only
    rw [List.length_map, List.length_zipIdx]
    rfl

end

/-! ## What a channel issues (R351 to R353) -/

/-- Channel `ch` of fold `f` may issue a run: it is trained, and its fold is not held in a whole reset (R353, R424). -/
def chanOpen (s : State) (f ch : Nat) : Prop :=
  (mget {} (fold s f).chans ch).trained = true ∧ ((unit s (2 + f)).st ≠ .resetting ∨ fmHeld s f = false)

theorem not_chanOpen_iff {s : State} {f ch : Nat} : ¬chanOpen s f ch ↔
    (mget {} (fold s f).chans ch).trained = false ∨ ((unit s (2 + f)).st = .resetting ∧ fmHeld s f = true) := by
  simp only [chanOpen, not_and_or, not_or, Bool.not_eq_true, not_not, Bool.not_eq_false]

theorem runTaken_closed {s : State} {f ch : Nat} (h : ¬chanOpen s f ch) : runTaken s f ch = none :=
  if_pos (not_chanOpen_iff.1 h)

/-- The earliest eligible head goes first (R353). -/
theorem runTaken_eligible {s : State} {f ch : Nat} {r : Run} (hopen : chanOpen s f ch)
    (hfirst : earliest ((heads (fold s f) ch).filter (fun r => eligible s f r.part)) = some r) :
    runTaken s f ch = some r := by
  rw [runTaken, if_neg (mt not_chanOpen_iff.2 (not_not.2 hopen)), hfirst]

/-- With no eligible head the earliest goes where BORROW is set (R353). -/
theorem runTaken_borrowed {s : State} {f ch : Nat} (hopen : chanOpen s f ch)
    (hnone : earliest ((heads (fold s f) ch).filter (fun r => eligible s f r.part)) = none) :
    runTaken s f ch = if borrows s f then earliest (heads (fold s f) ch) else none := by
  rw [runTaken, if_neg (mt not_chanOpen_iff.2 (not_not.2 hopen)), hnone]
  rfl

/-- At its next opportunity a channel issues `runTaken`, or nothing. -/
theorem exec_runIssue (s : State) (f : Fin 8) (ch : Fin 16) :
    exec (.runIssue f ch) s = .next ((runTaken s f ch).elim s (issueRun s f)) := by
  refine congrArg Host.Outcome.next ?_
  by_cases hopen : chanOpen s f ch
  · refine (if_neg (mt not_chanOpen_iff.2 (not_not.2 hopen))).trans ?_
    cases hfirst : earliest ((heads (fold s f) ch).filter (fun r => eligible s f r.part)) with
    | some r => rw [runTaken_eligible hopen hfirst]; rfl
    | none =>
      rw [runTaken_borrowed hopen hfirst]
      cases borrows s f with
      | false => rfl
      | true => cases hother : earliest (heads (fold s f) ch) <;> rfl
  · rw [runTaken_closed hopen]
    exact if_pos (not_chanOpen_iff.1 hopen)

theorem exec_runIssue_taken {s : State} {f : Fin 8} {ch : Fin 16} {r : Run} (h : runTaken s f ch = some r) :
    exec (.runIssue f ch) s = .next (issueRun s f r) := by
  rw [exec_runIssue, h, Option.elim_some]

theorem exec_runIssue_none {s : State} {f : Fin 8} {ch : Fin 16} (h : runTaken s f ch = none) :
    exec (.runIssue f ch) s = .next s := by
  rw [exec_runIssue, h, Option.elim_none]

theorem earliest_mem {l : List Run} {r : Run} (h : earliest l = some r) : r ∈ l := by
  suffices hall : ∀ q, earliest l = some q → q ∈ l from hall r h
  refine List.foldlRecOn l _ (motive := fun b => ∀ q, b = some q → q ∈ l) (fun q hq => nomatch hq) ?_
  rintro (_ | p) hb a ha q hq
  · cases hq
    exact ha
  · dsimp only at hq
    split at hq
    · cases hq
      exact ha
    · exact hb q hq

/-- Without BORROW no head goes whose partition has no tokens or RATE 0 (R352, R353). -/
theorem runTaken_none_of_no_tokens {s : State} {f ch : Nat} (hborrow : borrows s f = false)
    (hheads : ∀ r ∈ heads (fold s f) ch, tokens s f r.part ≤ 0 ∨ partRate s f r.part = 0) : runTaken s f ch = none := by
  by_cases hopen : chanOpen s f ch
  · have hfilter : (heads (fold s f) ch).filter (fun r => eligible s f r.part) = [] := by
      refine List.filter_eq_nil_iff.2 fun r hr => ?_
      have hlacks := hheads r hr
      simp only [eligible, Bool.and_eq_true, decide_eq_true_eq]
      omega
    rw [runTaken_borrowed hopen (congrArg earliest hfilter), hborrow, if_neg Bool.false_ne_true]
  · exact runTaken_closed hopen

/-- A run of partition `p` has nothing to wait for: the partition is eligible, or it borrows (R353). -/
def startsAtOnce (s : State) (f p : Nat) : Prop := eligible s f p = true ∨ borrows s f = true

theorem startsAtOnce_of_runTaken {s : State} {f ch : Nat} {r : Run} (h : runTaken s f ch = some r) :
    startsAtOnce s f r.part := by
  by_cases hopen : chanOpen s f ch
  · cases hfirst : earliest ((heads (fold s f) ch).filter (fun r => eligible s f r.part)) with
    | some q =>
      rw [runTaken_eligible hopen hfirst] at h
      cases h
      exact .inl (List.mem_filter.1 (earliest_mem hfirst)).2
    | none =>
      rw [runTaken_borrowed hopen hfirst] at h
      exact .inr (Option.ite_none_right_eq_some.1 h).1
  · simp [runTaken_closed hopen] at h

/-! ## What the counts of an access leave (R348, R351, R363) -/

/-- The counters that a run raises, of its partition and of its channel (R363). -/
def runCounters : List Nat :=
  [aFmPartCntBurst, aFmPartCntWait, aFmPartCntBorrow, aFmChRdBurst, aFmChWrBurst, aFmChAct]

/-- A register of a fold keeps its value when another of the fold's registers is counted. -/
theorem rv_cntN_runCounter {s : State} {f a b i j n : Nat} (ha : a ∈ runCounters) (hb : b ∉ runCounters) (hi : i < 16)
    (hj : j < 16) : rv (cntN s (foldReg f a) i n) (foldReg f b) j = rv s (foldReg f b) j := by
  have hne : b ≠ a := fun h => hb (h ▸ ha)
  refine rv_rset_other _ _ _ _ _ _ ?_
  unfold regKey foldReg
  omega

/-- Every fold of a state, fold `f` apart from what waits in it and what its channels do: what an access to it keeps that
stores nothing and charges nothing. -/
def besidesRuns (s : State) (f : Nat) : Nat → Fold :=
  fun g => if g = f then { fold s f with runs := [], chans := [] } else fold s g

section
variable {s t : State} {f : Nat} (h : besidesRuns t f = besidesRuns s f)
include h

theorem fold_of_besidesRuns {g : Nat} (hg : g ≠ f) : fold t g = fold s g := by
  simpa only [besidesRuns, if_neg hg] using congrFun h g

theorem pasture_of_besidesRuns : (fold t f).pasture = (fold s f).pasture := by
  have hf := congrArg Fold.pasture (congrFun h f)
  simpa only [besidesRuns, if_pos] using hf

theorem tokens_of_besidesRuns (p : Nat) : tokens t f p = tokens s f p := by
  have hf := congrArg (fun x => mget 0 x.tokens p) (congrFun h f)
  simpa only [besidesRuns, if_pos, tokens] using hf

end

theorem besidesRuns_congr {s t : State} {f : Nat} (h : t.folds = s.folds) : besidesRuns t f = besidesRuns s f := by
  funext g
  simp only [besidesRuns, fold, h]

@[simp] theorem besidesRuns_cntN (s : State) (a i n f : Nat) : besidesRuns (cntN s a i n) f = besidesRuns s f := rfl

@[simp] theorem besidesRuns_cnt (s : State) (a i f : Nat) : besidesRuns (cnt s a i) f = besidesRuns s f := rfl

theorem besidesRuns_updFold {s : State} {f : Nat} {g : Fold → Fold}
    (hg : { g (fold s f) with runs := [], chans := [] } = { fold s f with runs := [], chans := [] }) :
    besidesRuns (updFold s f g) f = besidesRuns s f := by
  funext k
  unfold besidesRuns
  split
  · rw [fold_updFold_same, hg]
  · next hk => rw [fold_updFold_other _ _ _ _ hk]

@[simp] theorem besidesRuns_updChan (s : State) (f ch : Nat) (g : Chan → Chan) :
    besidesRuns (updChan s f ch g) f = besidesRuns s f := besidesRuns_updFold rfl

theorem besidesRuns_openRow (s : State) (f ch i : Nat) : besidesRuns (openRow s f ch i) f = besidesRuns s f := by
  simp [openRow, apply_ite (besidesRuns · f)]

/-! ## The start of a run (R348, R353) -/

theorem waitFm_of_startsAtOnce {s : State} {f p : Nat} (h : startsAtOnce s f p) : waitFm s f p = s :=
  if_pos (by rcases h with h | h <;> simp [h])

/-- A run that may issue starts without a wait: a borrowing is counted, and its row is opened. -/
theorem startRun_of_startsAtOnce {s : State} {f p : Nat} (h : startsAtOnce s f p) (ch i : Nat) :
    startRun s f p ch i =
      openRow (if eligible s f p || !borrows s f then s else cnt s (foldReg f aFmPartCntBorrow) p) f ch i := by
  rw [startRun, waitFm_of_startsAtOnce h]

theorem besidesRuns_startRun {s : State} {f p : Nat} (h : startsAtOnce s f p) (ch i : Nat) :
    besidesRuns (startRun s f p ch i) f = besidesRuns s f := by
  simp [startRun_of_startsAtOnce h, besidesRuns_openRow, apply_ite (besidesRuns · f)]

theorem rv_openRow {s : State} {f ch b j : Nat} (hb : b ∉ runCounters) (hch : ch < 16) (hj : j < 16) (i : Nat) :
    rv (openRow s f ch i) (foldReg f b) j = rv s (foldReg f b) j := by
  unfold openRow
  dsimp only
  split
  · rfl
  · exact rv_cntN_runCounter (by decide) hb hch hj

theorem rv_startRun {s : State} {f p ch b j : Nat} (h : startsAtOnce s f p)
    (hb : b ∉ runCounters) (hp : p < 16) (hch : ch < 16) (hj : j < 16) (i : Nat) :
    rv (startRun s f p ch i) (foldReg f b) j = rv s (foldReg f b) j := by
  rw [startRun_of_startsAtOnce h, rv_openRow hb hch hj]
  split
  · rfl
  · exact rv_cntN_runCounter (by decide) hb hp hj

/-! ## The charge of a run (R351, R352) -/

theorem fold_spend_other (s : State) {f g : Nat} (hg : g ≠ f) (p ch : Nat) (rd wr : List Nat) :
    fold (spend s f p ch rd wr) g = fold s g := by
  simp [spend, charge, fold_updFold_other _ _ _ _ hg]

theorem pasture_spend (s : State) (f p ch : Nat) (rd wr : List Nat) :
    (fold (spend s f p ch rd wr) f).pasture = (fold s f).pasture := by
  simp [spend, charge]

/-- Each burst read costs once and each burst written twice; the count falls to −64 × DEPTH at the least. -/
theorem tokens_spend (s : State) (f p ch : Nat) (rd wr : List Nat) : tokens (spend s f p ch rd wr) f p =
    max (-(64 * partDepth s f p : Int)) (tokens s f p - 64 * (runBursts rd + 2 * runBursts wr : Nat)) := by
  simp [spend, charge, tokens]

theorem rv_spend {s : State} {f p ch b j : Nat} (hb : b ∉ runCounters) (hp : p < 16) (hch : ch < 16) (hj : j < 16)
    (rd wr : List Nat) : rv (spend s f p ch rd wr) (foldReg f b) j = rv s (foldReg f b) j := by
  rw [spend, rv_cntN_runCounter (by decide) hb hch hj, rv_cntN_runCounter (by decide) hb hch hj, charge,
    rv_cntN_runCounter (by decide) hb hp hj, rv_updFold]

/-! ## A sector stored (R345, R402, R510) -/

theorem logEv_folds (s : State) (e : Ev) : (logEv s e).folds = s.folds := by
  unfold logEv
  dsimp only
  split
  · rfl
  · split <;> rfl

theorem thisSecond_folds (s : State) : (thisSecond s).folds = s.folds := by
  unfold thisSecond
  dsimp only
  split <;> rfl

theorem ceCount_folds (s : State) (code block inst : Nat) : (ceCount s code block inst).folds = s.folds := by
  unfold ceCount
  dsimp only
  split
  · exact (logEv_folds _ _).trans (thisSecond_folds s)
  · exact thisSecond_folds s

/-- The read half of a read-modify-write stores nothing (R345). -/
theorem besidesRuns_noteSec (s : State) (f : Nat) (row : Option RowRef) (h : Option Half) (a : Nat) :
    besidesRuns (noteSec s f row h false a) f = besidesRuns s f := by
  unfold noteSec
  dsimp only
  split
  · rfl
  · rw [reportUe, besidesRuns_congr (logEv_folds _ _), besidesRuns_updChan, besidesRuns_cnt]
  · rw [if_neg Bool.false_ne_true, besidesRuns_congr (ceCount_folds _ _ _ _), besidesRuns_cnt]

theorem fold_putSector_other (s : State) {f g : Nat} (hg : g ≠ f) (a : Nat) (d : Bytes) (mark : Bool) :
    fold (putSector s f a d mark) g = fold s g := by
  simp [putSector, apply_ite (fold · g), fold_updFold_other _ _ _ _ hg]

theorem tokens_putSector (s : State) (f a : Nat) (d : Bytes) (mark : Bool) (p : Nat) :
    tokens (putSector s f a d mark) f p = tokens s f p := by
  simp [putSector, tokens, apply_ite (fold · f)]

/-- The bits of a sector's first byte that an armed injection inverts (R510). -/
def injectMask (s : State) (f a : Nat) : Byte :=
  if !(rb s (foldReg f aFmEccInj) 0 0 && rf s (foldReg f aFmEccInj) 0 7 4 == chanOf a) then 0
  else if rb s (foldReg f aFmEccInj) 0 1 then 3 else 1

/-- An injection leaves a sector's length. -/
theorem pasture_putSector (s : State) (f a : Nat) (d : Bytes) (mark : Bool) : ∃ d' : Bytes,
    d'.length = d.length ∧ (fold (putSector s f a d mark) f).pasture = wrN (fold s f).pasture a d' := by
  cases d with
  | nil => exact ⟨[], rfl, by simp [putSector, apply_ite (fold · f)]⟩
  | cons b r =>
    refine ⟨(b ^^^ injectMask s f a) :: r, rfl, ?_⟩
    simp only [putSector, apply_ite (fold · f), fold_rsetF, ite_self, fold_updFold_same, injectMask]

theorem pasture_putSector_unarmed {s : State} {f : Nat} (harm : rb s (foldReg f aFmEccInj) 0 0 = false) (a : Nat)
    (d : Bytes) (mark : Bool) : (fold (putSector s f a d mark) f).pasture = wrN (fold s f).pasture a d := by
  cases d <;> simp [putSector, harm]

theorem rd_putSector_outside {s : State} {f a b : Nat} {d : Bytes} (hb : b < a ∨ a + d.length ≤ b) (mark : Bool) :
    rd (fold (putSector s f a d mark) f).pasture b = rd (fold s f).pasture b := by
  obtain ⟨d', hlen, hpasture⟩ := pasture_putSector s f a d mark
  rw [hpasture, rd_wrN, if_neg (by omega)]

/-! ## A write run stored (R345) -/

/-- One sector of a write run stored on channel `ch`: whole, or merged where its read can be corrected. -/
def storeSec (f ch : Nat) (s : State) (e : Nat × Bytes × List Bool) : State :=
  let a := addrOf ch e.1
  if e.2.2.all (fun b => b) then putSector s f a e.2.1 false
  else
    let old := secRead (fold s f) a
    let s := noteSec s f none none false a
    if old.2 then s
    else putSector s f a ((old.1.zip (e.2.1.zip e.2.2)).map (fun x => if x.2.2 then x.2.1 else x.1)) false

/-- The sectors that a write run may write: all but those written in part whose read is uncorrectable. -/
def writtenSecs (s : State) (f : Nat) (r : Run) : List Nat :=
  r.secs.filter (fun i => !((partSecs r).contains i && (secRead (fold s f) (addrOf r.ch i)).2))

theorem storeRun_eq (s : State) (f : Nat) (r : Run) : storeRun s f r =
    (r.secs.zip r.data).foldl (storeSec f r.ch) (spend s f r.part r.ch [] (writtenSecs s f r)) := rfl

theorem writtenSecs_of_whole {r : Run} (h : partSecs r = []) (s : State) (f : Nat) : writtenSecs s f r = r.secs := by
  simp [writtenSecs, h]

theorem fold_storeSec_other {f g : Nat} (hg : g ≠ f) (ch : Nat) (s : State) (e : Nat × Bytes × List Bool) :
    fold (storeSec f ch s e) g = fold s g := by
  have hnote := fold_of_besidesRuns (besidesRuns_noteSec s f none none (addrOf ch e.1)) hg
  simp [storeSec, apply_ite (fold · g), fold_putSector_other _ hg, hnote]

theorem tokens_storeSec (f ch : Nat) (s : State) (e : Nat × Bytes × List Bool) (p : Nat) :
    tokens (storeSec f ch s e) f p = tokens s f p := by
  have hnote := tokens_of_besidesRuns (besidesRuns_noteSec s f none none (addrOf ch e.1)) p
  simp [storeSec, apply_ite (tokens · f p), tokens_putSector, hnote]

theorem rd_storeSec_outside {f ch b : Nat} {e : Nat × Bytes × List Bool}
    (hb : b < addrOf ch e.1 ∨ addrOf ch e.1 + e.2.1.length ≤ b) (s : State) :
    rd (fold (storeSec f ch s e) f).pasture b = rd (fold s f).pasture b := by
  have hnote := pasture_of_besidesRuns (besidesRuns_noteSec s f none none (addrOf ch e.1))
  unfold storeSec
  dsimp only
  split
  · exact rd_putSector_outside hb false
  · split
    · rw [hnote]
    · rw [rd_putSector_outside _ false, hnote]
      simp only [List.length_map, List.length_zip]
      omega

theorem fold_storeRun_other {f g : Nat} (hg : g ≠ f) (s : State) (r : Run) : fold (storeRun s f r) g = fold s g := by
  rw [storeRun_eq, foldl_keep (fun t => fold t g = _) _ _ _ rfl (fun t e h => (fold_storeSec_other hg r.ch t e).trans h),
    fold_spend_other _ hg]

theorem tokens_storeRun (s : State) (f : Nat) (r : Run) (p : Nat) :
    tokens (storeRun s f r) f p = tokens (spend s f r.part r.ch [] (writtenSecs s f r)) f p := by
  rw [storeRun_eq]
  exact foldl_keep (fun t => tokens t f p = _) _ _ _ rfl (fun t e h => (tokens_storeSec f r.ch t e p).trans h)

theorem rd_storeRun_outside {r : Run} {b : Nat} (hb : outsideRun r b) (s : State) (f : Nat) :
    rd (fold (storeRun s f r) f).pasture b = rd (fold s f).pasture b := by
  rw [storeRun_eq, ← pasture_spend s f r.part r.ch [] (writtenSecs s f r)]
  refine List.foldlRecOn _ _ (motive := fun t => rd (fold t f).pasture b = _) rfl fun t h e he => ?_
  exact (rd_storeSec_outside (hb e he) t).trans h

/-! ## A run issued (R345, R348, R351) -/

/-- A run taken from its queue. -/
def unqueued (s : State) (f : Nat) (r : Run) : State :=
  updFold s f (fun x => { x with runs := x.runs.filter (fun q => q.order ≠ r.order) })

theorem eligible_unqueued (s : State) (f : Nat) (r : Run) (p : Nat) : eligible (unqueued s f r) f p = eligible s f p := by
  simp only [eligible, tokens, unqueued, fold_updFold_same]
  rfl

theorem borrows_unqueued (s : State) (f : Nat) (r : Run) : borrows (unqueued s f r) f = borrows s f := rfl

/-- A run taken from its queue and started. -/
def started (s : State) (f : Nat) (r : Run) : State := startRun (unqueued s f r) f r.part r.ch (r.secs.headD 0)

/-- The sectors whose reads a run waits for: all of a read's, and those that a read-modify-write writes in part. -/
def readSecs (r : Run) : List Nat := if r.write then partSecs r else r.secs

theorem reads_or_whole (r : Run) : (r.write = false ∨ r.rmw = true) ∨ (r.write = true ∧ r.rmw = false) := by
  cases r.write <;> cases r.rmw <;> simp

theorem issueRun_whole {r : Run} (hwrite : r.write = true) (hwhole : r.rmw = false) (s : State) (f : Nat) :
    issueRun s f r = storeRun (started s f r) f r := if_pos (by simp [hwrite, hwhole])

theorem issueRun_reads {r : Run} (h : r.write = false ∨ r.rmw = true) (s : State) (f : Nat) :
    issueRun s f r = updChan (spend (started s f r) f r.part r.ch (readSecs r) []) f r.ch
      (fun c => { c with issued := c.issued ++ [r] }) := if_neg (by rcases h with h | h <;> simp [h])

theorem issueCost_whole {r : Run} (hwrite : r.write = true) (hwhole : r.rmw = false) :
    issueCost r = 2 * runBursts r.secs := if_pos (by simp [hwrite, hwhole])

theorem issueCost_reads {r : Run} (h : r.write = false ∨ r.rmw = true) : issueCost r = runBursts (readSecs r) :=
  if_neg (by rcases h with h | h <;> simp [h])

theorem startsAtOnce_unqueued {s : State} {f p : Nat} (r : Run) (h : startsAtOnce s f p) :
    startsAtOnce (unqueued s f r) f p := by
  rwa [startsAtOnce, eligible_unqueued, borrows_unqueued]

theorem besidesRuns_started {s : State} {f : Nat} {r : Run} (h : startsAtOnce s f r.part) :
    besidesRuns (started s f r) f = besidesRuns s f :=
  (besidesRuns_startRun (startsAtOnce_unqueued r h) _ _).trans (besidesRuns_updFold rfl)

theorem rv_started {s : State} {f b j : Nat} {r : Run} (h : startsAtOnce s f r.part)
    (hb : b ∉ runCounters) (hp : r.part < 16) (hch : r.ch < 16) (hj : j < 16) :
    rv (started s f r) (foldReg f b) j = rv s (foldReg f b) j :=
  rv_startRun (startsAtOnce_unqueued r h) hb hp hch hj _

/-! ## Returning data (R343 to R345) -/

theorem exec_readDataReturn {s : State} {f : Fin 8} {ch : Fin 16} {r : Run} {rs : List Run}
    (hissued : (mget {} (fold s f).chans ch).issued = r :: rs) (fd : BitVec 256) (fc : BitVec 16) :
    exec (.readDataReturn f ch fd fc) s = .next (returnRun (flipSector s f (addrOf ch (r.secs.headD 0)) fd fc) f r) := by
  show execReadDataReturn f ch fd fc s = _
  simp only [execReadDataReturn, hissued]

/-- A run whose data has returned, taken from those that its channel waits for. -/
def unissued (s : State) (f : Nat) (r : Run) : State :=
  updChan s f r.ch (fun c => { c with issued := c.issued.filter (fun q => q.order ≠ r.order) })

theorem returnRun_write {r : Run} (hwrite : r.write = true) (s : State) (f : Nat) :
    returnRun s f r = storeRun (unissued s f r) f r := if_pos hwrite

theorem returnRun_read {r : Run} (hread : r.write = false) (s : State) (f : Nat) :
    returnRun s f r = emit
      ((r.secs.map (addrOf r.ch)).foldl (fun s a => noteSec s f none none true a) (unissued s f r))
      (.fmData f r.order ((r.secs.map (addrOf r.ch)).flatMap (fun a => (secRead (fold (unissued s f r) f) a).1))
        ((r.secs.map (addrOf r.ch)).any (fun a => (secRead (fold (unissued s f r) f) a).2))) := by
  refine (if_neg (by simp [hread])).trans ?_
  rw [List.flatMap_map, List.any_map]
  rfl

/-- Settles O36: a filled fold that is not held queues what has room, an open channel issues `runTaken`, and the oldest issued
run returns with the flips in its stored first sector (the fault and these flips are log entries 120 and 99). -/
theorem foldMemoryComplete : Obligations.FoldMemoryComplete := by
  refine ⟨?queued, ?held, ?fault, ?eligible, ?borrowed, ?stores, ?reads⟩
  case queued =>
    intro s f part wide write addr len n data rs hfilled hheld hn hsize hrs hall hqueue
    subst hrs
    exact exec_fmRequest_queued hfilled hheld hn hsize (not_noRoom hall hqueue) wide
  case held =>
    intro s f part wide write addr len n data rs hfilled hheld hn hsize hrs hfull
    subst hrs
    exact exec_fmRequest_held hfilled hheld hn hsize hfull wide
  case fault =>
    exact fun s f part wide write addr len n data hfilled hheld hn hsize =>
      exec_fmRequest_fault hfilled hheld hn hsize wide
  case eligible =>
    intro s f ch r htrained hheld hfirst
    exact exec_runIssue_taken (runTaken_eligible ⟨htrained, hheld⟩ hfirst)
  case borrowed =>
    intro s f ch r htrained hheld hnone hborrow hfirst
    refine exec_runIssue_taken ?_
    rw [runTaken_borrowed ⟨htrained, hheld⟩ hnone, if_pos hborrow, hfirst]
  case stores =>
    intro s u f ch fd fc r rs hissued hwrite hu
    subst hu
    rw [exec_readDataReturn hissued, returnRun_write hwrite]
    rfl
  case reads =>
    intro s u f ch fd fc r rs hissued hread hu
    subst hu
    rw [exec_readDataReturn hissued, returnRun_read hread]
    rfl

/-! ## The regulators (R351 to R353) -/

/-- The tokens of a partition after a CLK_FAB cycle (R352). -/
def ticked (s : State) (f p : Nat) : Int := min (tokens s f p + partRate s f p) (64 * partDepth s f p : Int)

theorem ticked_congr {s t : State} {f p : Nat} (htokens : tokens t f p = tokens s f p)
    (hrate : rv t (foldReg f aFmPartRate) p = rv s (foldReg f aFmPartRate) p) : ticked t f p = ticked s f p := by
  simp only [ticked, htokens, partRate, partDepth, rf, hrate]

/-- A cycle in which a head of a partition is held with T ≤ 0 counted (R363). -/
def waitCounted (s : State) (f p : Nat) : State :=
  if tokens s f p ≤ 0 && (fold s f).runs.any (fun r => r.part == p) then cnt s (foldReg f aFmPartCntWait) p else s

theorem fold_waitCounted (s : State) (f p k : Nat) : fold (waitCounted s f p) k = fold s k := by
  simp [waitCounted, apply_ite (fold · k)]

theorem rv_waitCounted (s : State) (f : Nat) {p q : Nat} (hp : p < 16) (hq : q < 16) :
    rv (waitCounted s f p) (foldReg f aFmPartRate) q = rv s (foldReg f aFmPartRate) q := by
  unfold waitCounted
  split
  · exact rv_cntN_runCounter (by decide) (by decide) hp hq
  · rfl

/-- One partition's part of a CLK_FAB cycle. -/
def tickPart (f : Nat) (s : State) (p : Nat) : State :=
  updFold (waitCounted s f p) f (fun x => { x with tokens := mset 0 x.tokens p (ticked (waitCounted s f p) f p) })

theorem tickFold_eq (s : State) (f : Nat) : tickFold s f = (List.range 16).foldl (tickPart f) s := rfl

theorem tokens_tickPart_same (s : State) (f : Nat) {p : Nat} (hp : p < 16) :
    tokens (tickPart f s p) f p = ticked s f p := by
  rw [tokens, tickPart, fold_updFold_same, mget_mset_same]
  exact ticked_congr (by rw [tokens, fold_waitCounted, ← tokens]) (rv_waitCounted s f hp hp)

theorem tokens_tickPart_other (s : State) (f : Nat) {p q : Nat} (hne : q ≠ p) :
    tokens (tickPart f s p) f q = tokens s f q := by
  rw [tokens, tickPart, fold_updFold_same, mget_mset_other _ _ _ _ _ hne, fold_waitCounted, ← tokens]

theorem ticked_tickPart_other (s : State) (f : Nat) {p q : Nat} (hp : p < 16) (hq : q < 16) (hne : q ≠ p) :
    ticked (tickPart f s p) f q = ticked s f q :=
  ticked_congr (tokens_tickPart_other s f hne) (rv_waitCounted s f hp hq)

/-- Each partition's tokens rise by its own part of the cycle alone. -/
theorem tokens_foldl_tickPart {f p : Nat} (hp : p < 16) {l : List Nat} (hl : ∀ q ∈ l, q < 16) (hnodup : l.Nodup)
    (s : State) : tokens (l.foldl (tickPart f) s) f p = if p ∈ l then ticked s f p else tokens s f p := by
  induction l generalizing s with
  | nil => rfl
  | cons q l ih =>
    obtain ⟨hnot, hnodup⟩ := List.nodup_cons.1 hnodup
    have hq : q < 16 := hl q List.mem_cons_self
    rw [List.foldl_cons, ih (fun k hk => hl k (List.mem_cons_of_mem q hk)) hnodup]
    by_cases hpq : p = q
    · subst hpq
      rw [if_neg hnot, if_pos List.mem_cons_self, tokens_tickPart_same s f hp]
    · rw [ticked_tickPart_other s f hq hp hpq, tokens_tickPart_other s f hpq]
      simp only [List.mem_cons, hpq, false_or]

theorem tokens_issueRun {s : State} {f : Nat} {r : Run} (hgo : startsAtOnce s f r.part)
    (hpart : r.part < 16) (hch : r.ch < 16) (hmasks : r.write = true → r.rmw = false → partSecs r = []) :
    tokens (issueRun s f r) f r.part =
      max (-(64 * partDepth s f r.part : Int)) (tokens s f r.part - 64 * issueCost r) := by
  have htokens : tokens (started s f r) f r.part = tokens s f r.part := tokens_of_besidesRuns (besidesRuns_started hgo) _
  have hdepth : partDepth (started s f r) f r.part = partDepth s f r.part := by
    rw [partDepth, rf, rv_started hgo (by decide) hpart hch hpart, ← rf, ← partDepth]
  have hnone : runBursts [] = 0 := rfl
  rcases reads_or_whole r with hreads | ⟨hwrite, hwhole⟩
  · rw [issueRun_reads hreads, tokens_of_besidesRuns (besidesRuns_updChan _ _ _ _), tokens_spend, htokens, hdepth, hnone,
      issueCost_reads hreads]
    rfl
  · rw [issueRun_whole hwrite hwhole, tokens_storeRun, tokens_spend, htokens, hdepth, hnone,
      writtenSecs_of_whole (hmasks hwrite hwhole), issueCost_whole hwrite hwhole, Nat.zero_add]

/-- Settles O58: a partition's part of a cycle leaves the others' tokens and every RATE and DEPTH, and a run that may issue
starts at once, so that its charge alone changes its partition's tokens. -/
theorem tokensRegulate : Obligations.TokensRegulate := by
  refine ⟨?rises, ?charged, ?waits, ?issues⟩
  case rises =>
    intro s f p hp
    rw [tickFold_eq, tokens_foldl_tickPart hp (fun q hq => List.mem_range.1 hq) List.nodup_range,
      if_pos (List.mem_range.2 hp), ticked]
  case charged =>
    intro s t f ch r htaken hpart hch hmasks hstep
    rw [exec_runIssue_taken htaken] at hstep
    cases hstep
    exact tokens_issueRun (startsAtOnce_of_runTaken htaken) hpart hch hmasks
  case waits => exact fun s f ch hborrow hheads => exec_runIssue_none (runTaken_none_of_no_tokens hborrow hheads)
  case issues => exact fun s f ch r htaken => exec_runIssue_taken htaken

/-! ## What an issue leaves (R345, R348, R510) -/

theorem fold_issueRun_other {s : State} {f g : Nat} {r : Run} (hgo : startsAtOnce s f r.part)
    (hg : g ≠ f) : fold (issueRun s f r) g = fold s g := by
  have hstart : fold (started s f r) g = fold s g := fold_of_besidesRuns (besidesRuns_started hgo) hg
  rcases reads_or_whole r with hreads | ⟨hwrite, hwhole⟩
  · rw [issueRun_reads hreads, fold_of_besidesRuns (besidesRuns_updChan _ _ _ _) hg, fold_spend_other _ hg, hstart]
  · rw [issueRun_whole hwrite hwhole, fold_storeRun_other hg, hstart]

theorem pasture_issueRun_reads {s : State} {f : Nat} {r : Run} (hgo : startsAtOnce s f r.part)
    (hreads : r.write = false ∨ r.rmw = true) : (fold (issueRun s f r) f).pasture = (fold s f).pasture := by
  rw [issueRun_reads hreads, pasture_of_besidesRuns (besidesRuns_updChan _ _ _ _), pasture_spend,
    pasture_of_besidesRuns (besidesRuns_started hgo)]

theorem rd_issueRun_outside {s : State} {f b : Nat} {r : Run} (hgo : startsAtOnce s f r.part)
    (hwrite : r.write = true) (hwhole : r.rmw = false) (hb : outsideRun r b) :
    rd (fold (issueRun s f r) f).pasture b = rd (fold s f).pasture b := by
  rw [issueRun_whole hwrite hwhole, rd_storeRun_outside hb, pasture_of_besidesRuns (besidesRuns_started hgo)]

/-- A run of one whole sector leaves the sector's bytes as it writes them while no injection is armed. -/
theorem rdN_issueRun_sector {s : State} {f i : Nat} {r : Run} {d : Bytes} {m : List Bool}
    (hgo : startsAtOnce s f r.part) (hwrite : r.write = true) (hwhole : r.rmw = false)
    (hsecs : r.secs = [i]) (hdata : r.data = [(d, m)]) (hmask : ∀ b ∈ m, b = true)
    (harm : rb s (foldReg f aFmEccInj) 0 0 = false) (hpart : r.part < 16) (hch : r.ch < 16) :
    rdN (fold (issueRun s f r) f).pasture (addrOf r.ch i) d.length = d := by
  have harm' : rb (spend (started s f r) f r.part r.ch [] (writtenSecs (started s f r) f r)) (foldReg f aFmEccInj) 0 0 =
      false := by
    rw [rb, rv_spend (by decide) hpart hch (by decide), rv_started hgo (by decide) hpart hch (by decide), ← rb, harm]
  have hall : m.all (fun b => b) = true := List.all_eq_true.2 hmask
  have hstore : issueRun s f r =
      putSector (spend (started s f r) f r.part r.ch [] (writtenSecs (started s f r) f r)) f (addrOf r.ch i) d false := by
    rw [issueRun_whole hwrite hwhole, storeRun_eq, hsecs, hdata]
    exact if_pos hall
  rw [hstore, pasture_putSector_unarmed harm', rdN_wrN]

/-- Settles O59: what a channel issues starts at once, so that only its stores change bytes, and those of its own fold; a
whole write takes effect at its issue (log entry 99). -/
theorem storesFramed : Obligations.StoresFramed := by
  refine ⟨?waits, ?frame, ?sector⟩
  case waits => exact fun s f ch hnone => exec_runIssue_none hnone
  case frame =>
    intro s t f ch r htaken hstep
    have hgo := startsAtOnce_of_runTaken htaken
    rw [exec_runIssue_taken htaken] at hstep
    cases hstep
    exact ⟨fun g hg => fold_issueRun_other hgo hg, fun hreads => pasture_issueRun_reads hgo hreads,
      fun hwrite hwhole b hb => rd_issueRun_outside hgo hwrite hwhole hb⟩
  case sector =>
    intro s t f ch r i d m htaken hwrite hwhole hsecs hdata hlen hmask harm hpart hch hstep
    rw [exec_runIssue_taken htaken] at hstep
    cases hstep
    rw [← hlen]
    exact rdN_issueRun_sector (startsAtOnce_of_runTaken htaken) hwrite hwhole hsecs hdata hmask harm hpart hch

end Sys2Proof.Machine

namespace Sys2Proof.Machine

/-! ## Sending keeps the part's ID (R370, R371) -/

/-- A register above the part's ID does not hold it. -/
theorem myId_cnt {s : State} {a : Nat} (i : Nat) (ha : aDlPartId < a) : myId (cnt s a i) = myId s := by
  have hkey : regKey aDlPartId 0 ≠ regKey a i := by
    unfold regKey
    omega
  rw [myId, rf, rv_cnt_other _ _ _ _ _ hkey]
  rfl

theorem myId_loseFlit (s : State) (dst : BitVec 12) : myId (loseFlit s dst) = myId s := by
  unfold loseFlit
  split
  · rfl
  · rw [myId, rf, rv_rsetF_other _ _ _ _ _ _ _ _ (by decide)]
    rfl

theorem myId_putFlit (s : State) (l : Nat) (f : Flit) : myId (putFlit s l f) = myId s := myId_cnt l (by decide)

theorem myId_sendFlit (s : State) (f : Flit) : myId (sendFlit s f) = myId s := by
  unfold sendFlit
  split
  · rfl
  · split
    · exact myId_loseFlit s f.dst
    · split
      · exact myId_putFlit s _ f
      · rfl

theorem myId_drainFlits (s : State) (first : List Flit) : myId (drainFlits s first) = myId s :=
  foldl_keep (fun t => myId t = myId s) _ _ _ rfl fun t f h => (myId_sendFlit t f).trans h

theorem myId_ackFlits (s : State) (l : Nat) (ack : BitVec 12) : myId (ackFlits s l ack) = myId s := by
  unfold ackFlits
  split
  · exact myId_drainFlits _ _
  · rfl

/-! ## Flits that arrive (R365, R366, R371) -/

/-- A flit comes uncorrupted over a link that is UP. -/
structure FlitSound (s : State) (l : Fin 32) (b : Bytes) (crc : Word) : Prop where
  up : (link s l).st = .up
  crc : flitCrcOk b crc = true

/-- A correction of the FEC is counted. -/
def fecCounted (s : State) (l : Nat) (corrected : Bool) : State := if corrected then cnt s aDlLinkCntFec l else s

/-- The number of a flit is taken and the flit counted. -/
def flitTaken (s : State) (l : Nat) : State :=
  cnt (updLink s l (fun k => { k with rxSeq := k.rxSeq + 1 })) aDlLinkCntRx l

/-- The acknowledgement that a flit may carry is taken (R366). -/
def ackTaken (s : State) (l : Nat) (f : Flit) : State := if f.ackv then ackFlits s l f.ack else s

/-- A flit for another part goes on towards it (R371). -/
def flitForwarded (s : State) (f : Flit) : State :=
  if f.dst.toNat = myId s then s else sendFlit (if (routeTo s f.dst.toNat).isSome then cnt s aDlCntFwd else s) f

theorem myId_fecCounted (s : State) (l : Nat) (corrected : Bool) : myId (fecCounted s l corrected) = myId s := by
  cases corrected with
  | true => exact myId_cnt l (by decide)
  | false => rfl

theorem myId_flitTaken (s : State) (l : Nat) : myId (flitTaken s l) = myId s := myId_cnt l (by decide)

theorem myId_ackTaken (s : State) (l : Nat) (f : Flit) : myId (ackTaken s l f) = myId s := by
  unfold ackTaken
  split
  · exact myId_ackFlits s l f.ack
  · rfl

/-- What a sound flit does goes by its kind and its number. -/
theorem exec_flitReceive_sound {s : State} {l : Fin 32} {b : Bytes} {crc : Word} (h : FlitSound s l b crc)
    (corrected : Bool) : exec (.flitReceive l b crc true corrected) s = .next
      (if (flitOf b).kind = 0 then ackTaken (cnt (fecCounted s l corrected) aDlLinkCntRx l) l (flitOf b)
       else if (flitOf b).kind = 3 then
         resend (ackFlits (cnt (fecCounted s l corrected) aDlLinkCntRx l) l ((flitOf b).ack - 1)) l
       else if 3 < (flitOf b).kind.toNat ∨ (flitOf b).seq ≠ (link s l).rxSeq then sendNak (fecCounted s l corrected) l
       else sendIdle (flitForwarded (ackTaken (flitTaken (fecCounted s l corrected) l) l (flitOf b)) (flitOf b)) l) := by
  obtain ⟨hup, hcrc⟩ := h
  refine congrArg Host.Outcome.next ((if_neg (not_not_intro hup)).trans ?_)
  rw [hcrc]
  rfl

/-- A flit that carries a message is not idle and no NAK, and its kind is no reserved one. -/
theorem kind_of_message {k : BitVec 4} (h : k = 1 ∨ k = 2) : k ≠ 0 ∧ k ≠ 3 ∧ ¬3 < k.toNat := by
  rcases h with rfl | rfl <;> decide

theorem exec_flitReceive_accepted {s : State} {l : Fin 32} {b : Bytes} {crc : Word} (h : FlitSound s l b crc)
    (hkind : (flitOf b).kind = 1 ∨ (flitOf b).kind = 2) (hseq : (flitOf b).seq = (link s l).rxSeq) (corrected : Bool) :
    exec (.flitReceive l b crc true corrected) s = .next (sendIdle
      (flitForwarded (ackTaken (flitTaken (fecCounted s l corrected) l) l (flitOf b)) (flitOf b)) l) := by
  obtain ⟨hidle, hnak, hknown⟩ := kind_of_message hkind
  rw [exec_flitReceive_sound h, if_neg hidle, if_neg hnak, if_neg (by simp [hknown, hseq])]

theorem exec_flitReceive_outOfTurn {s : State} {l : Fin 32} {b : Bytes} {crc : Word} (h : FlitSound s l b crc)
    (hkind : (flitOf b).kind = 1 ∨ (flitOf b).kind = 2) (hseq : (flitOf b).seq ≠ (link s l).rxSeq) :
    exec (.flitReceive l b crc true false) s = .next (sendNak s l) := by
  obtain ⟨hidle, hnak, -⟩ := kind_of_message hkind
  rw [exec_flitReceive_sound h, if_neg hidle, if_neg hnak, if_pos (.inr hseq)]
  rfl

theorem exec_flitReceive_corrupt {s : State} {l : Fin 32} {b : Bytes} {crc : Word} (hup : (link s l).st = .up)
    (hcrc : flitCrcOk b crc = false) (fec : Bool) :
    exec (.flitReceive l b crc fec false) s = .next (sendNak (cnt s aDlLinkCntCrc l) l) := by
  refine congrArg Host.Outcome.next ((if_neg (not_not_intro hup)).trans ?_)
  rw [hcrc]
  rfl

/-! ## The state of a link (R367, R368, R399, R467) -/

theorem exec_linkTrainingDone {s : State} {l : Fin 32} (nbr : BitVec 12) (nlink : BitVec 5)
    (hst : (link s l).st = .training) : exec (.linkTrainingDone l nbr nlink) s =
      .next (comeUp (updLink s l (fun k => { k with trained := true, nbr := nbr, nlink := nlink, fails := 0 })) l) :=
  congrArg Host.Outcome.next (if_neg (not_not_intro hst))

theorem exec_linkTrainingFail {s : State} {l : Fin 32} (hst : (link s l).st = .training) :
    exec (.linkTrainingFail l) s = .next (setLink s l { link s l with
      fails := (link s l).fails + 1, trained := false, st := if 1 ≤ (link s l).fails then .failed else .training }) :=
  congrArg Host.Outcome.next (if_neg (not_not_intro hst))

/-- ENABLE is set: a link that is DOWN starts once the part has started its links, any other stays as it is. -/
theorem wrLinkEnable_on {s : State} {a : Acc} {v : Word} {l : Nat} (hsec : a.secure = true)
    (hon : bit v.toNat 0 = true) (hl : l = selIx s a.who aDlLinkSel) : wrLinkEnable s a v =
      if (link s l).st = .down ∧ dlRuns (rsetF s aDlLinkCtl l 0 0 1) = true then
        setLink (rsetF s aDlLinkCtl l 0 0 1) l { link s l with st := .training, trained := false, fails := 0 }
      else rsetF s aDlLinkCtl l 0 0 1 := by
  subst hl
  refine (secureOnly_of_secure s _ _ _ _ hsec).trans ?_
  rw [hon]
  rfl

theorem wrLinkEnable_off {s : State} {a : Acc} {v : Word} {l : Nat} (hsec : a.secure = true)
    (hoff : bit v.toNat 0 = false) (hl : l = selIx s a.who aDlLinkSel) (hst : (link s l).st ≠ .down) :
    wrLinkEnable s a v = leaveUp (rsetF s aDlLinkCtl l 0 0 0) l .down := by
  subst hl
  refine (secureOnly_of_secure s _ _ _ _ hsec).trans ?_
  rw [hoff]
  exact if_neg hst

theorem wrRetrain_unset {s : State} {a : Acc} {v : Word} (hset : bit v.toNat 1 = false) : wrRetrain s a v = s :=
  if_pos (.inr (by simp [hset]))

theorem wrRetrain_failed {s : State} {a : Acc} {v : Word} {l : Nat} (hsec : a.secure = true)
    (hset : bit v.toNat 1 = true) (hl : l = selIx s a.who aDlLinkSel) (hst : (link s l).st = .failed) :
    wrRetrain s a v = setLink s l { link s l with st := .training, fails := 0, trained := false } := by
  subst hl
  exact (if_neg (by simp [hsec, hset])).trans (if_pos hst)

theorem wrLinkCtl_retrain {s : State} {a : Acc} {v : Word} {l : Nat} (hsec : a.secure = true)
    (hon : bit v.toNat 0 = true) (hset : bit v.toNat 1 = true) (hl : l = selIx s a.who aDlLinkSel)
    (hst : (link s l).st = .failed) : wrLinkCtl s a v = setLink (rsetF s aDlLinkCtl l 0 0 1) l
      { link s l with st := .training, fails := 0, trained := false } := by
  have henable : wrLinkEnable s a v = rsetF s aDlLinkCtl l 0 0 1 := by
    rw [wrLinkEnable_on hsec hon hl, if_neg (by simp [hst])]
  rw [wrLinkCtl, henable]
  exact wrRetrain_failed hsec hset hl hst

theorem wrLinkCtl_enable {s : State} {a : Acc} {v : Word} {l : Nat} (hsec : a.secure = true)
    (hon : bit v.toNat 0 = true) (hset : bit v.toNat 1 = false) (hl : l = selIx s a.who aDlLinkSel)
    (hst : (link s l).st = .down) (hruns : dlRuns (rsetF s aDlLinkCtl l 0 0 1) = true) : wrLinkCtl s a v =
      setLink (rsetF s aDlLinkCtl l 0 0 1) l { link s l with st := .training, trained := false, fails := 0 } := by
  rw [wrLinkCtl, wrRetrain_unset hset, wrLinkEnable_on hsec hon hl, if_pos ⟨hst, hruns⟩]

theorem wrLinkCtl_disable {s : State} {a : Acc} {v : Word} {l : Nat} (hsec : a.secure = true)
    (hoff : bit v.toNat 0 = false) (hset : bit v.toNat 1 = false) (hl : l = selIx s a.who aDlLinkSel)
    (hst : (link s l).st ≠ .down) : wrLinkCtl s a v = leaveUp (rsetF s aDlLinkCtl l 0 0 0) l .down := by
  rw [wrLinkCtl, wrRetrain_unset hset, wrLinkEnable_off hsec hoff hl hst]

theorem wrPartId_taken {s : State} {a : Acc} {v : Word} (hsec : a.secure = true)
    (hdown : ∀ e ∈ s.dl.links, e.2.st ≠ .up) :
    wrPartId s a v = (List.range 32).foldl comeUp (rsetF s aDlPartId 0 11 0 v.toNat) :=
  (secureOnly_of_secure s _ _ _ _ hsec).trans (if_neg (by simpa using fun i k hk => hdown (i, k) hk))

/-- Settles O24: the kind and the number of a flit, and the state of a link, decide between the branches of each row; what a
flit's acknowledgement lets go leaves the part's ID. -/
theorem linksComplete : Obligations.LinksComplete := by
  refine ⟨?accepted, ?outOfTurn, ?corrupt, ?idle, ?nakFlit, ?nak, ?timeout, ?trained, ?failed, ?lost, ?retrain, ?enable,
    ?disable, ?partId⟩
  case accepted =>
    intro s u w l b crc corrected hup hcrc hkind hseq hu hw
    have hw' : w = ackTaken (flitTaken (fecCounted s l corrected) l) l (flitOf b) := by
      subst hw hu
      rfl
    have hid : myId w = myId s := by rw [hw', myId_ackTaken, myId_flitTaken, myId_fecCounted]
    rw [exec_flitReceive_accepted ⟨hup, hcrc⟩ hkind hseq, ← hw', flitForwarded, hid]
  case outOfTurn => exact fun s l b crc hup hcrc hkind hseq => exec_flitReceive_outOfTurn ⟨hup, hcrc⟩ hkind hseq
  case corrupt => exact fun s l b crc fec hup hcrc => exec_flitReceive_corrupt hup hcrc fec
  case idle =>
    intro s l b crc hup hcrc hkind
    rw [exec_flitReceive_sound ⟨hup, hcrc⟩, if_pos hkind]
    rfl
  case nakFlit =>
    intro s l b crc hup hcrc hkind
    rw [exec_flitReceive_sound ⟨hup, hcrc⟩, if_neg (by simp [hkind]), if_pos hkind]
    rfl
  case nak => exact fun s l seq => rfl
  case timeout => exact fun s l => rfl
  case trained => exact fun s l nbr nlink hst => exec_linkTrainingDone nbr nlink hst
  case failed => exact fun s l hst => exec_linkTrainingFail hst
  case lost => exact fun s l hst => congrArg Host.Outcome.next (if_pos hst)
  case retrain =>
    exact fun s a v l hacc hsec hon hset hl hst => next_acc1 hacc (wrLinkCtl_retrain hsec hon hset hl hst)
  case enable =>
    exact fun s a v l hacc hsec hon hset hl hst hruns => next_acc1 hacc (wrLinkCtl_enable hsec hon hset hl hst hruns)
  case disable =>
    exact fun s a v l hacc hsec hoff hset hl hst => next_acc1 hacc (wrLinkCtl_disable hsec hoff hset hl hst)
  case partId => exact fun s a v hacc hsec hdown => next_acc1 hacc (wrPartId_taken hsec hdown)

end Sys2Proof.Machine

namespace Sys2Proof.Machine

/-! ## The barrier of a group (R384 to R388) -/

/-- A READY is noted in the place of the same sender's for the same tables, and sent on to the leader's mirror (R384). -/
def readyNoted (s : State) (r : ReadyRec) : State :=
  let u := toLeadMirror s (.ready r.src r.upd r.tabs)
  { u with dl := { u.dl with readys := (u.dl.readys.filter (fun x => !(x.src == r.src && x.tabs == r.tabs))) ++ [r] } }

/-- What the leader does about the READYs `l` that share their tables: it cancels where they disagree, and lets go where
they are complete (R385, R386). -/
def barrierJudged (s : State) (l : List ReadyRec) : State :=
  if mismatched l then sendCancel (rsetF s aDlGrpStat 0 1 1 1) l true else if complete s l then sendGo s l else s

theorem exec_ready_grouped {s : State} {src : BitVec 12} {upd : Bool} {tabs : List StepTab}
    (hmember : s.dl.dissolved = false) (hgroup : grpOn s = true) : exec (.ready src upd tabs) s = .next
      (let w := readyNoted s { src := src, upd := upd, tabs := tabs }
       if leader w ≠ myId w then w
       else barrierJudged w (readySet w (tabs.headD { tid := 0, epoch := 0, root := [] }).tid)) :=
  congrArg Host.Outcome.next (if_neg (by simp [hmember, hgroup]))

theorem exec_barrierTimeout_led {s : State} {set : List (BitVec 12 × Word)} {l : List ReadyRec}
    (hlead : isLeader s = true)
    (hl : l = s.dl.readys.filter (fun r => r.tabs.any (fun x => set.any (fun e => e.1 == x.tid)))) :
    exec (.barrierTimeout set) s = .next
      (let u := if l.any (·.upd) then rsetF s aDlGrpStat 0 0 0 1 else s
       let w := if mismatched l then rsetF u aDlGrpStat 0 1 1 1 else u
       if l.any (fun r => !r.upd) then sendCancel w l (mismatched l) else w) := by
  subst hl
  exact congrArg Host.Outcome.next (if_neg (by simp [hlead]))

theorem wrGrpCtl_dissolve {s : State} {a : Acc} {v : Word} (hsec : a.secure = true) (hset : bit v.toNat 1 = true) :
    wrGrpCtl s a v = dissolveGroup s := by
  refine (secureOnly_of_secure s _ _ _ _ hsec).trans ?_
  rw [hset]
  exact if_pos (.inr rfl)

/-- Settles O26: with the READY noted, the leader decides between cancelling, letting go and waiting. -/
theorem barrierComplete : Obligations.BarrierComplete := by
  refine ⟨?noted, ?judged, ?go, ?cancel, ?timeout, ?dissolve⟩
  case noted =>
    intro s u w src upd tabs hmember hgroup hu hw hlead
    have hw' : w = readyNoted s { src := src, upd := upd, tabs := tabs } := by
      subst hw hu
      rfl
    rw [exec_ready_grouped hmember hgroup, ← hw']
    exact congrArg Host.Outcome.next (if_pos hlead)
  case judged =>
    intro s u w src upd x tabs hmember hgroup hu hw hlead
    have hw' : w = readyNoted s { src := src, upd := upd, tabs := x :: tabs } := by
      subst hw hu
      rfl
    rw [exec_ready_grouped hmember hgroup, ← hw']
    exact congrArg Host.Outcome.next (if_neg (not_not_intro hlead))
  case go => exact fun s set roots => rfl
  case cancel => exact fun s set mismatch => rfl
  case timeout =>
    intro s u w set l hlead hl hu hw
    subst hw hu
    exact exec_barrierTimeout_led hlead hl
  case dissolve => exact fun s a v hacc hsec hset => next_acc1 hacc (wrGrpCtl_dissolve hsec hset)

end Sys2Proof.Machine

namespace Sys2Proof.Machine

/-! ## PAIR_CTL (R397, R398) -/

/-- The arrival of a command leaves the links and the pair as they are. -/
@[simp] theorem dl_arrived (s : State) (c : Cmd) : (arrived s c).dl = s.dl := rfl

/-- The count of entries is not the part's ID. -/
@[simp] theorem meId_arrived (s : State) (c : Cmd) : meId (arrived s c) = meId s := by
  have hid : rv (arrived s c) aDlPartId = rv s aDlPartId := rv_cnt_other s _ _ _ _ (by decide)
  rw [meId, myId, rf, hid]
  rfl

/-- A PAIR_CTL with sound operands that is dispatched now takes the row of its action. -/
theorem pairRow_sound {s : State} {n : Word} {c : Cmd} {act : Nat} {go : State → Cmd → State}
    (h : Dispatched s 0 n 23 c) (hsound : pairOk s c = true) (hact : cF c 16 1 = act) :
    pairRow n act go s = go (arrived s c) c := by
  have hcmd : cmd s 0 n = some c := h.1
  simp only [pairRow, hcmd, hsound, if_true, hact]
  exact own_dispatched h

/-- A malformed PAIR_CTL is answered in the row of FORM. -/
theorem pairRow_malformed {s : State} {n : Word} {c : Cmd} {go : State → Cmd → State} (h : Dispatched s 0 n 23 c)
    (hbad : pairOk s c = false) : pairRow n 1 go s = reject (cnt s aFeCntEntries) c stBadField := by
  have hcmd : cmd s 0 n = some c := h.1
  simp only [pairRow, hcmd, hbad, Bool.false_eq_true, if_false, if_true]
  exact own_dispatched h

/-- Settles O28: a sound PAIR_CTL takes the row of its action, where the state of the pair decides between asking the
partner, acting at once and refusing. -/
theorem pairCommandsComplete : Obligations.PairCommandsComplete := by
  refine ⟨?form, ?formRefused, ?malformed, ?break_, ?switch, ?switchRefused, ?takeover, ?takeoverRefused, ?resync,
    ?resyncUnmirrored, ?resyncRefused⟩
  case form =>
    intro s n c h hsound hact hpair hidle
    show execPairForm n s = _
    rw [execPairForm, pairRow_sound h hsound hact, if_neg (by simp [hpair, hidle])]
  case formRefused =>
    intro s n c h hsound hact hstate
    show execPairForm n s = _
    rw [execPairForm, pairRow_sound h hsound hact, if_pos (by simpa using hstate)]
  case malformed => exact fun s n c h hbad => congrArg Host.Outcome.next (pairRow_malformed h hbad)
  case break_ =>
    intro s n c h hsound hact
    show execPairBreak n s = _
    rw [execPairBreak, pairRow_sound h hsound hact, dl_arrived, meId_arrived]
  case switch =>
    intro s n c h hsound hact hpair hswap hidle
    show execPairSwitch n s = _
    rw [execPairSwitch, pairRow_sound h hsound hact, if_neg (by simp [hpair, hswap, hidle]), meId_arrived]
  case switchRefused =>
    intro s n c h hsound hact hstate
    show execPairSwitch n s = _
    rw [execPairSwitch, pairRow_sound h hsound hact, if_pos (by simpa using hstate)]
  case takeover =>
    intro s n c h hsound hact hmirror hsilent hpair
    have hmay : ¬(s.dl.pair ≠ .stale ∧ s.dl.pair ≠ .solo) := by
      rcases hpair with hpair | hpair <;> simp [hpair]
    show execPairTakeover n s = _
    rw [execPairTakeover, pairRow_sound h hsound hact, if_neg (by simpa [hmirror, hsilent] using hmay)]
  case takeoverRefused =>
    intro s n c h hsound hact hstate
    show execPairTakeover n s = _
    rw [execPairTakeover, pairRow_sound h hsound hact, if_pos (by simpa using hstate)]
  case resync =>
    intro s n c h hsound hact hpaired hformed hmirror hidle htids
    show execPairResync n s = _
    rw [execPairResync, pairRow_sound h hsound hact, if_neg (by simp [hpaired, hformed, hmirror, hidle]),
      if_neg (by simpa using htids), meId_arrived]
  case resyncUnmirrored =>
    intro s n c h hsound hact hpaired hformed hmirror hidle htid
    show execPairResync n s = _
    rw [execPairResync, pairRow_sound h hsound hact, if_neg (by simp [hpaired, hformed, hmirror, hidle]),
      if_pos (by simpa using htid)]
  case resyncRefused =>
    intro s n c h hsound hact hstate
    show execPairResync n s = _
    rw [execPairResync, pairRow_sound h hsound hact, if_pos (by simpa [or_left_comm] using hstate)]

end Sys2Proof.Machine

namespace Sys2Proof.Machine

/-! ## What the end of a command leaves of the pair -/

theorem dl_startWaiting (n : Nat) (s : State) (f : Nat) : (startWaiting n s f).dl = s.dl := by
  induction n generalizing s with
  | zero => rfl
  | succ n ih =>
    unfold startWaiting
    dsimp only
    split
    · rfl
    · split
      · refine (ih _).trans ?_
        split <;> rfl
      · refine (ih _).trans ?_
        split <;> rfl
      · rfl

theorem dl_freeOnFold (s : State) (tid : Nat) (img : Bool) (f : Nat) : (freeOnFold s tid img f).dl = s.dl := by
  rw [freeOnFold, nextWaiting, dl_startWaiting, cntN_dl, setFold_dl]

theorem dl_freeImage (s : State) (tid : Nat) (img : Bool) : (freeImage s tid img).dl = s.dl := by
  unfold freeImage
  split
  · rfl
  · exact foldl_keep (fun t : State => t.dl = s.dl) _ _ _ rfl fun t f h => (dl_freeOnFold t tid img f).trans h

theorem dl_prevGone (s : State) (tid : Nat) : (prevGone s tid).dl = s.dl := by
  unfold prevGone
  dsimp only
  split
  · rfl
  · rename_i p _
    have hfreed : ∀ live : Bool, (if live = true then updTable s tid (fun t => { t with prev := none })
        else freeImage (updTable s tid (fun t => { t with prev := none })) tid p.img).dl = s.dl := by
      rintro ⟨⟩
      · exact dl_freeImage _ _ _
      · rfl
    split <;> exact hfreed _

theorem dl_unpin (s : State) (tid : Nat) (n : Word) : (unpin s tid n).dl = s.dl := by
  unfold unpin checkPrev
  dsimp only
  split
  · split
    · exact dl_prevGone _ _
    · rfl
  · rfl

/-- Pins that are taken off leave the links and the pair as they are. -/
theorem dl_unpins (s : State) (l : List (BitVec 12 × Word)) :
    (l.foldl (fun s (t, n) => unpin s t.toNat n) s).dl = s.dl :=
  foldl_keep (fun t : State => t.dl = s.dl) _ _ _ rfl fun t e h => (dl_unpin t e.1.toNat e.2).trans h

theorem dl_sweepVersions (s : State) : (sweepVersions s).dl = s.dl :=
  foldl_keep (fun t : State => t.dl = s.dl) _ _ _ rfl fun t (v : Version) h =>
    foldl_keep (fun t : State => t.dl = s.dl) v.places _ t h fun _ _ h => (cnt_dl _ _ _).trans h

theorem dl_releaseReq (s : State) (h : Half) : (releaseReq s h).dl = s.dl := by
  unfold releaseReq
  split
  · rfl
  · exact (dl_sweepVersions _).trans (dl_unpins _ _)

theorem dl_releasePins (s : State) (h : Half) : (releasePins s h).dl = s.dl := by
  unfold releasePins
  split
  · rfl
  · exact dl_unpins _ _

/-- The state of a part's pair and its side of it. -/
def pairSide (s : State) : PairSt × Bool := (s.dl.pair, s.dl.mirror)

theorem pairSide_of_dl {s t : State} (h : t.dl = s.dl) : pairSide t = pairSide s := by rw [pairSide, pairSide, h]

theorem pairSide_loseFlit (s : State) (dst : BitVec 12) : pairSide (loseFlit s dst) = pairSide s := by
  unfold loseFlit
  split <;> rfl

theorem pairSide_sendFlit (s : State) (f : Flit) : pairSide (sendFlit s f) = pairSide s := by
  unfold sendFlit
  split
  · rfl
  · split
    · exact pairSide_loseFlit s f.dst
    · split <;> rfl

theorem pairSide_droveSend (s : State) (d : Nat) (m : Instr) : pairSide (droveSend s d m) = pairSide s := by
  unfold droveSend
  split
  · rfl
  · split
    · rfl
    · split
      · exact foldl_keep (fun t => pairSide t = pairSide s) _ _ _ rfl fun t f h => (pairSide_sendFlit t f).trans h
      · exact pairSide_loseFlit s _

theorem pairSide_toMembers (s : State) (m : Instr) : pairSide (toMembers s m) = pairSide s :=
  foldl_keep (fun t => pairSide t = pairSide s) _ _ _ rfl fun t i h => (pairSide_droveSend t (memPrim t i) m).trans h

/-- A command that has its pins but is not admitted yet gives them up when it ends (R378). -/
def pinsGivenUp (s : State) (c : Cmd) : State :=
  match c.phase, c.asked with
  | .admission, some k => (c.gotPin.getD []).foldl (fun s (t, n) => unpin s t.toNat n) (toMembers s (.abandon k))
  | _, _ => s

theorem pairSide_pinsGivenUp (s : State) (c : Cmd) : pairSide (pinsGivenUp s c) = pairSide s := by
  unfold pinsGivenUp
  split
  · exact (pairSide_of_dl (dl_unpins _ _)).trans (pairSide_toMembers s _)
  · rfl

/-- A command that ends in silence goes, and its request with it. -/
def silentlyGone (s : State) (c : Cmd) (q : Nat) (n : Word) : State :=
  dropCmd (if c.handle = 0 then s else releaseReq s c.handle) q n

theorem pairSide_silentlyGone (s : State) (c : Cmd) (q : Nat) (n : Word) :
    pairSide (silentlyGone s c q n) = pairSide s := by
  unfold silentlyGone
  split
  · rfl
  · exact pairSide_of_dl (dl_releaseReq s c.handle)

/-- A command is ended with its status in the order of the ends. -/
def endNoted (s : State) (q : Nat) (n : Word) (st : Status) : State :=
  updCmd { s with fe := { s.fe with nextEnd := s.fe.nextEnd + 1 } } q n (fun c =>
    if c.phase = .ended then c else { c with phase := .ended, status := st, endNo := s.fe.nextEnd })

theorem finish_eq (s : State) (q : Nat) (n : Word) (st : Status) : finish s q n st =
    match cmd s q n with
    | none => s
    | some c =>
      if c.silent then silentlyGone (pinsGivenUp s c) c q n
      else endNoted (if c.handle ≠ 0 ∧ (st = stAborted ∨ st = stTimeout ∨ st = stUnitReset) then
        releasePins (pinsGivenUp s c) c.handle else pinsGivenUp s c) q n st := rfl

theorem pairSide_finish (s : State) (q : Nat) (n : Word) (st : Status) : pairSide (finish s q n st) = pairSide s := by
  rw [finish_eq]
  split
  · rfl
  · rename_i c _
    have hpins : pairSide (pinsGivenUp s c) = pairSide s := pairSide_pinsGivenUp s c
    split
    · exact (pairSide_silentlyGone _ c q n).trans hpins
    · split
      · exact (pairSide_of_dl (dl_releasePins (pinsGivenUp s c) c.handle)).trans hpins
      · exact hpins

/-- What ends the PAIR_CTL that waits leaves the state of the pair. -/
theorem pairSide_pairEnd (s : State) (st : Status) : pairSide (pairEnd s st) = pairSide s := by
  unfold pairEnd
  dsimp only
  split
  · exact pairSide_finish _ _ _ _
  · rfl

/-! ## Messages of the partner (R379, R388, R389, R393, R396 to R398) -/

theorem exec_pairMsg_form {s : State} {src : BitVec 12} {c : Cmd} (mirror syncEn : Bool) (rule : Byte)
    (tabs : List (BitVec 12 × Bytes)) (hwaits : waitingFor s 1 = some c) (hpartner : cF c 18 2 = src.toNat) :
    exec (.pairMsg (.form src mirror syncEn rule tabs)) s = .next
      (let u := droveSend s src.toNat (.pairMsg (formMsg s c))
       match formAgree u c mirror syncEn rule tabs with
       | none => pairEnd u stBadState
       | some tids => beginForm u src (cF c 20 1 == 1) syncEn tids) := by
  show execPairMsg (.form src mirror syncEn rule tabs) s = _
  simp only [execPairMsg, hwaits]
  exact congrArg Host.Outcome.next (if_neg (not_not_intro hpartner))

/-- An acceptance of the partner goes to the SWITCH that waits, then to the RESYNC, then to the swap of a mirror that
drains. -/
theorem exec_pairMsg_accept {s : State} {src : BitVec 12} (hpartner : src = s.dl.partner) :
    exec (.pairMsg (.accept src)) s = .next (match waitingFor s 3, waitingFor s 5 with
      | some _, _ => { s with dl := { s.dl with pairCmd := none, swap := .drain } }
      | _, some c => beginResync s (resyncTids c)
      | _, _ => if s.dl.swap = .drain ∧ s.dl.mirror then { s with dl := { s.dl with swap := .due } } else s) :=
  congrArg Host.Outcome.next (if_neg (not_not_intro hpartner))

/-! ## Heartbeats and silence (R393, R395) -/

/-- The heartbeats that a silent partner owes are counted. -/
def missesCounted (s : State) : State := cntN s aDlCntHbMiss 0 (pairMiss s - s.dl.hbMissed)

/-- The count of missed heartbeats is not the setting of how many make silence. -/
theorem pairMiss_missesCounted (s : State) : pairMiss (missesCounted s) = pairMiss s := by
  rw [pairMiss, rf, missesCounted, cntN, rv_rset_other _ _ _ _ _ _ (by decide)]
  rfl

/-- A silent partner is noted as such, and its pin as silent or not where the pair uses it (R393, R395). -/
def silenceNoted (s : State) (pin : Bool) : State :=
  { missesCounted s with dl := { s.dl with
    hbAlive := false, silent := true, hbMissed := max s.dl.hbMissed (pairMiss (missesCounted s))
    pinAlive := if s.dl.syncEn then !pin else s.dl.pinAlive } }

/-- What a primary, or a mirror, in SYNC becomes when its partner is silent (R395). -/
def aloneInSync (s : State) (mirror pin : Bool) : State :=
  if mirror = false then { s with dl := { s.dl with pair := .solo, swap := .no } }
  else if pin then takeOver s
  else { s with dl := { s.dl with pair := .stale, swap := .no } }

theorem exec_partnerSilent_inSync {s u : State} {pinSilent pin : Bool} (hpair : s.dl.pair = .sync)
    (hpin : pin = (pinSilent && s.dl.syncEn && !s.pc.sync.faulty)) (hu : u = pairEnd (silenceNoted s pin) stPeer) :
    exec (.partnerSilent pinSilent) s = .next (aloneInSync u s.dl.mirror pin) := by
  have hside : pairSide u = pairSide s := by
    rw [hu]
    exact pairSide_pairEnd _ _
  have hsync : u.dl.pair = .sync := (congrArg Prod.fst hside).trans hpair
  have hmirror : u.dl.mirror = s.dl.mirror := congrArg Prod.snd hside
  subst hpin hu
  refine congrArg Host.Outcome.next ((if_neg (by simp [hpair])).trans ((if_neg (not_not_intro hsync)).trans ?_))
  rw [aloneInSync, ← hmirror]
  simp only [Bool.not_eq_true']
  rfl

/-- Settles O29: the state of the pair and what waits for the partner decide between the branches of each message; the end
of what waited leaves the state of the pair, by which a silent partner is judged. -/
theorem pairMessagesComplete : Obligations.PairMessagesComplete := by
  refine ⟨?form, ?brk, ?switch, ?switchRefused, ?resync, ?resyncRefused, ?acceptSwitch, ?acceptResync, ?acceptSwap, ?holds,
    ?tookOver, ?refuse, ?timeout, ?heard, ?sent, ?toggled, ?silent⟩
  case form =>
    intro s u src mirror syncEn rule tabs c hwaits hpartner hu
    subst hu
    exact exec_pairMsg_form mirror syncEn rule tabs hwaits hpartner
  case brk => exact fun s src hpaired hpartner => congrArg Host.Outcome.next (if_pos ⟨hpaired, hpartner⟩)
  case switch =>
    exact fun s src hpair hpartner hswap => congrArg Host.Outcome.next (if_pos ⟨hpair, hpartner, hswap⟩)
  case switchRefused => exact fun s src hstate => congrArg Host.Outcome.next (if_neg hstate)
  case resync =>
    exact fun s src tids hpaired hformed hpartner hprimary =>
      congrArg Host.Outcome.next (if_pos ⟨hpaired, hpartner, by simp [hprimary], hformed⟩)
  case resyncRefused =>
    intro s src tids hstate
    refine congrArg Host.Outcome.next (if_neg ?_)
    rintro ⟨hpaired, hpartner, hprimary, hformed⟩
    rcases hstate with h | h | h | h
    · exact hpaired h
    · exact hformed h
    · exact h hpartner
    · simp [h] at hprimary
  case acceptSwitch =>
    intro s src hpartner hswitch
    obtain ⟨c, hc⟩ := Option.isSome_iff_exists.1 hswitch
    rw [exec_pairMsg_accept hpartner, hc]
  case acceptResync =>
    intro s src c hpartner hswitch hresync
    rw [exec_pairMsg_accept hpartner, hswitch, hresync]
  case acceptSwap =>
    intro s src hpartner hswitch hresync hswap hmirror
    rw [exec_pairMsg_accept hpartner, hswitch, hresync]
    exact congrArg Host.Outcome.next (if_pos ⟨hswap, hmirror⟩)
  case holds =>
    exact fun s src tid d epoch root hpaired hpartner => congrArg Host.Outcome.next (if_pos ⟨hpaired, hpartner⟩)
  case tookOver => exact fun s src idx => rfl
  case refuse => exact fun s src st hwaits => congrArg Host.Outcome.next (if_pos hwaits)
  case timeout => exact fun s hwaits => congrArg Host.Outcome.next (if_pos hwaits)
  case heard =>
    exact fun s src mirror st count hpaired hpartner =>
      congrArg Host.Outcome.next (if_neg (by simp [hpaired, hpartner]))
  case sent => exact fun s hpaired => congrArg Host.Outcome.next (if_neg hpaired)
  case toggled => exact fun s hpaired hsync => congrArg Host.Outcome.next (if_pos ⟨hpaired, hsync⟩)
  case silent =>
    intro s u pin pinSilent hpair hpin hu
    have hu' : u = pairEnd (silenceNoted s pin) stPeer := by
      rw [silenceNoted, pairMiss_missesCounted, hu]
      rfl
    exact exec_partnerSilent_inSync hpair hpin hu'

end Sys2Proof.Machine

namespace Sys2Proof.Machine

/-! ## The records that STREAM brings (R391) -/

/-- A part that is the mirror of a pair in SYNC. -/
structure MirrorInSync (s : State) : Prop where
  sync : s.dl.pair = .sync
  mirror : s.dl.mirror = true

theorem MirrorInSync.not_kept {s : State} (h : MirrorInSync s) : ¬(s.dl.pair ≠ .sync ∨ (!s.dl.mirror) = true) := by
  simp [h.sync, h.mirror]

theorem exec_stream_new {s : State} (h : MirrorInSync s) {t : StreamRec}
    (hnew : s.dl.streams.find? (fun x => x.upd == t.upd) = none) (hfresh : t.committed = false ∧ t.step2 = false) :
    exec (.stream t.upd t.tag t.epochs t.recs t.deltas t.whole) s = .next
      (if t.whole then takeStream { s with dl := { s.dl with streams := s.dl.streams ++ [t] } } t
       else { s with dl := { s.dl with streams := s.dl.streams ++ [t] } }) := by
  obtain ⟨hcommitted, hstep⟩ := hfresh
  obtain ⟨upd, tag, epochs, recs, deltas, whole, committed, step2⟩ := t
  subst hcommitted hstep
  refine congrArg Host.Outcome.next ((if_neg h.not_kept).trans ?_)
  rw [hnew]

/-- A stream that has begun goes on: with its first part whole the records are written at once, before it they are kept. -/
theorem exec_stream_begun {s : State} (h : MirrorInSync s) {upd : Half} {t : StreamRec}
    (hbegun : s.dl.streams.find? (fun x => x.upd == upd) = some t) (tag : Dword) (epochs : List (BitVec 12 × Word))
    (recs deltas : List Bytes) (whole : Bool) : exec (.stream upd tag epochs recs deltas whole) s = .next
      (if t.whole then
        (if whole then rollStreams (updStream (recs.foldl putStreamed s) upd (fun t => { t with step2 := true }))
         else recs.foldl putStreamed s)
       else
        let u : StreamRec := { t with
          epochs := t.epochs ++ epochs, recs := t.recs ++ recs, deltas := t.deltas ++ deltas, whole := whole }
        if whole then takeStream (updStream s upd (fun _ => u)) u else updStream s upd (fun _ => u)) := by
  refine congrArg Host.Outcome.next ((if_neg h.not_kept).trans ?_)
  rw [hbegun]

theorem exec_commit_whole {s : State} {upd : Half} {t : StreamRec}
    (hwhole : s.dl.streams.find? (fun t => t.upd == upd && t.whole && !t.committed) = some t) :
    exec (.commit upd) s = .next (rollStreams (commitStream s t)) := by
  refine congrArg Host.Outcome.next ?_
  rw [hwhole]

/-! ## Roots (R390, R394) -/

theorem exec_root_inSync {s : State} {tid : BitVec 12} (epoch : Word) (r : Bytes)
    (hformed : s.dl.forming.find? (fun x => x.tid == tid) = none) (hsync : s.dl.pair = .sync) (htid : tid ∈ s.dl.mtids) :
    exec (.root tid epoch r) s = .next (rootCheck s tid epoch r) := by
  refine congrArg Host.Outcome.next ?_
  rw [hformed]
  exact if_pos ⟨hsync, List.contains_iff_mem.2 htid⟩

theorem exec_root_formingMirror {s : State} {tid : BitVec 12} {x : FormRec} (epoch : Word) (r : Bytes)
    (hforming : s.dl.forming.find? (fun x => x.tid == tid) = some x) (hmirror : s.dl.mirror = true) :
    exec (.root tid epoch r) s =
      .next (formPublish (updForm s tid (fun x => { x with root := some (epoch, r) })) tid) := by
  refine congrArg Host.Outcome.next ?_
  rw [hforming]
  exact if_pos hmirror

theorem exec_root_formingPrimary {s : State} {tid : BitVec 12} {epoch : Word} {mine : Bytes} {x : FormRec} (r : Bytes)
    (hforming : s.dl.forming.find? (fun x => x.tid == tid) = some x) (hprimary : s.dl.mirror = false)
    (hsent : x.sent = true)
    (hmine : (table s tid.toNat).lastRoots.find? (fun e => e.1 == epoch) = some (epoch, mine)) :
    exec (.root tid epoch r) s = .next (if mine = r then formDone s tid else formFail s tid) := by
  refine congrArg Host.Outcome.next ?_
  rw [hforming]
  refine (if_neg (by simp [hprimary])).trans ((if_neg (by simp [hsent])).trans ?_)
  rw [hmine]

/-! ## Rows of BULK (R390) -/

/-- One row of BULK lands in the image that the mirror stages. -/
def bulkRow (im : Image) (first : Nat) (s : State) (e : Marked × Nat) : State :=
  let l := rowFold im.desc (first + e.2)
  fmPut s (ruPart s l.1) l.1 (homeA im l.1 l.2)
    (withPop (slice e.1.data 0 (dPslot im.desc)) (fld e.1.data 22 1) (fold s l.1).period.toNat) (!e.1.marks.isEmpty)

/-- With its last row an image has all its leaves. -/
def bulkCounted (w : State) (tid : BitVec 12) (im : Image) (n : Nat) : State :=
  if n < dRows im.desc then w
  else updTable w tid.toNat (fun t => setImg t t.stagedIn (some (growLeaves w { im with rows := n } tid.toNat t.stagedIn)))

theorem exec_bulk_lands {s u : State} {tid : BitVec 12} {first : Word} {rows : List Marked} {x : FormRec} {im : Image}
    (hforming : s.dl.forming.find? (fun x => x.tid == tid) = some x) (hmirror : s.dl.mirror = true)
    (hnew : first ∉ x.firsts) (hu : u = if x.began then s else startBulk s tid)
    (hstaged : (table u tid.toNat).staged = true)
    (him : imgOf (table u tid.toNat) (table u tid.toNat).stagedIn = some im)
    (hfits : first.toNat + rows.length ≤ dRows im.desc) :
    exec (.bulk tid first rows) s = .next (formPublish (updForm
      (bulkCounted ((rows.zipIdx).foldl (bulkRow im first.toNat) u) tid im (x.rows + rows.length)) tid
      (fun x' => { x' with rows := x.rows + rows.length, firsts := first :: x'.firsts })) tid) := by
  refine congrArg Host.Outcome.next ?_
  rw [hforming]
  refine (if_neg (by simp [hmirror, hnew])).trans ?_
  dsimp only
  rw [← hu, hstaged, him]
  dsimp only
  rw [List.take_of_length_le (by omega)]
  rfl

/-- Settles O30: a stream is new, begun or whole, a table forms or is in SYNC, and each row takes the branch of its
clause; the rows of BULK that fit are all taken. -/
theorem mirrorComplete : Obligations.MirrorComplete := by
  refine ⟨?new, ?whole, ?kept, ?prepared, ?commit, ?discard, ?root, ?formingMirror, ?formingPrimary, ?bulk⟩
  case new =>
    intro s upd tag epochs recs deltas whole t hsync hmirror hnew ht
    have hfresh : t.committed = false ∧ t.step2 = false := by simp [ht]
    have hrow := exec_stream_new ⟨hsync, hmirror⟩ (t := t) (by simpa [ht] using hnew) hfresh
    simpa only [ht] using hrow
  case whole =>
    intro s upd tag epochs recs deltas whole t hsync hmirror hbegun hwhole
    rw [exec_stream_begun ⟨hsync, hmirror⟩ hbegun, if_pos hwhole]
  case kept =>
    intro s upd tag epochs recs deltas whole t u hsync hmirror hbegun hpart hu
    subst hu
    rw [exec_stream_begun ⟨hsync, hmirror⟩ hbegun, if_neg (by simp [hpart])]
  case prepared => exact fun s upd => rfl
  case commit => exact fun s upd t hwhole => exec_commit_whole hwhole
  case discard => exact fun s upd => rfl
  case root => exact fun s tid epoch r hformed hsync htid => exec_root_inSync epoch r hformed hsync htid
  case formingMirror => exact fun s tid epoch r x hforming hmirror => exec_root_formingMirror epoch r hforming hmirror
  case formingPrimary =>
    exact fun s tid epoch r mine x hforming hprimary hsent hmine =>
      exec_root_formingPrimary r hforming hprimary hsent hmine
  case bulk =>
    intro s u w tid first rows x im hforming hmirror hnew hu hstaged him hfits hw
    subst hw
    exact exec_bulk_lands hforming hmirror hnew hu hstaged him hfits

end Sys2Proof.Machine

namespace Sys2Proof.Machine

/-! ## A field after it is set -/

theorem bits_setBits (v hi lo x : Nat) (hlo : lo ≤ hi) : bits (setBits v hi lo x) hi lo = x % 2 ^ (hi + 1 - lo) := by
  have hpow : 2 ^ (hi + 1) = 2 ^ lo * 2 ^ (hi + 1 - lo) := by rw [← Nat.pow_add, Nat.add_sub_cancel' (by omega)]
  have hsum : setBits v hi lo x =
      v % 2 ^ lo + 2 ^ lo * (x % 2 ^ (hi + 1 - lo) + 2 ^ (hi + 1 - lo) * (v / 2 ^ (hi + 1))) := by
    rw [setBits, hpow]
    ring
  rw [bits, hsum, Nat.add_mul_div_left _ _ (by positivity), Nat.div_eq_of_lt (Nat.mod_lt _ (by positivity)),
    Nat.zero_add, Nat.add_mul_mod_self_left, Nat.mod_mod]

/-- A register's width takes nothing from a field that lies in it. -/
theorem bits_mod_register (n hi lo : Nat) (hhi : hi < 32) (hlo : lo ≤ hi) : bits (n % 2 ^ 32) hi lo = bits n hi lo := by
  have hpow : 2 ^ 32 = 2 ^ lo * 2 ^ (32 - lo) := by rw [← Nat.pow_add, Nat.add_sub_cancel' (by omega)]
  rw [bits, bits, hpow, Nat.mod_mul_right_div_self, Nat.mod_mod_of_dvd _ (Nat.pow_dvd_pow 2 (by omega))]

/-- A field reads what it was set to. -/
theorem rf_rsetF_same (s : State) (a i hi lo v : Nat) (hhi : hi < 32) (hlo : lo ≤ hi) :
    rf (rsetF s a i hi lo v) a i hi lo = v % 2 ^ (hi + 1 - lo) := by
  rw [rf, rsetF, rv_rset_same, bits_mod_register _ _ _ hhi hlo, bits_setBits _ _ _ _ hlo]

/-- A bit reads what it was set to. -/
theorem rb_rsetF_same (s : State) (a i b v : Nat) (hb : b < 32) :
    rb (rsetF s a i b b v) a i b = decide (v % 2 = 1) := by
  have hbit : rf (rsetF s a i b b v) a i b b = v % 2 := by
    rw [rf_rsetF_same _ _ _ _ _ _ hb (Nat.le_refl b), Nat.add_sub_cancel_left]
    rfl
  rw [rf, bits, Nat.add_sub_cancel_left, Nat.pow_one] at hbit
  rw [rb, bit, hbit]

/-! ## Conditioned inputs (R393, R478 to R481) -/

/-- Outside its gap an input takes a new level at once, and its gap begins (R478). -/
theorem filterTo_outsideGap {s : State} {p : Pin} {lvl : Bool} (hedge : (condOf s p).filtered ≠ lvl)
    (hgap : (condOf s p).inGap = false) : filterTo s p lvl =
      setCond s p { condOf s p with filtered := lvl, accepted := lvl, inGap := true } :=
  (if_neg hedge).trans (if_neg (by simp [hgap]))

/-- Within its gap an input counts the edge, and only its filtered level follows (R478). -/
theorem filterTo_insideGap {s : State} {p : Pin} {lvl : Bool} (hedge : (condOf s p).filtered ≠ lvl)
    (hgap : (condOf s p).inGap = true) :
    filterTo s p lvl = cnt (setCond s p { condOf s p with filtered := lvl }) (ignCnt p) :=
  (if_neg hedge).trans (if_pos hgap)

/-- An edge of PAIR_SYNC_IN shows the partner alive, unless the pin is declared faulty (R393). -/
theorem syncEdge_eq (s : State) :
    syncEdge s = { s with dl := { s.dl with pinAlive := s.dl.pinAlive || !s.pc.sync.faulty } } := by
  unfold syncEdge
  cases h : s.pc.sync.faulty with
  | true => simp
  | false => simp

theorem exec_pairSyncIn_outsideGap {s : State} {high : Bool} (hedge : s.pc.sync.filtered ≠ high)
    (hgap : s.pc.sync.inGap = false) : exec (.pairSyncIn high) s = .next (syncEdge (setCond s .sync
      { s.pc.sync with filtered := high, accepted := high, inGap := true })) := by
  refine congrArg Host.Outcome.next ((if_neg hedge).trans ((if_pos (by simp [hgap])).trans ?_))
  rw [filterTo_outsideGap (p := .sync) hedge hgap]
  rfl

/-- CLK_FAB times of the latest ignored edges of PAIR_SYNC_IN, with one more of now (R479). -/
def ignoredEdges (s : State) : List Nat := (s.fab :: s.pc.sync.edges).take 64

/-- An ignored edge of PAIR_SYNC_IN is counted and its time kept (R478, R479). -/
def syncIgnored (s : State) (high : Bool) : State :=
  let u := cnt { s with pc := { s.pc with sync := { s.pc.sync with filtered := high } } } aPcCntSyncIgn
  { u with pc := { u.pc with sync := { u.pc.sync with edges := ignoredEdges s } } }

theorem exec_pairSyncIn_insideGap {s : State} {high : Bool} (hedge : s.pc.sync.filtered ≠ high)
    (hgap : s.pc.sync.inGap = true) : exec (.pairSyncIn high) s = .next
      (if s.pc.sync.faulty = false ∧ (ignoredEdges s).length = 64 ∧
          s.fab - (ignoredEdges s).getLast?.getD 0 ≤ 960000 then
        { declare_ (syncIgnored s high) .sync with
          dl := { (declare_ (syncIgnored s high) .sync).dl with pinAlive := true } }
      else syncIgnored s high) := by
  refine congrArg Host.Outcome.next ((if_neg hedge).trans ((if_neg (by simp [hgap])).trans ?_))
  rw [filterTo_insideGap (p := .sync) hedge hgap]
  simp only [Bool.not_eq_true']
  rfl

theorem exec_minimumGapEnd_input {s : State} {p : Pin} (hp : p ≠ .pwrgood) (hgap : (condOf s p).inGap = true) :
    exec (.minimumGapEnd p) s = .next
      (if (condOf s p).filtered = (condOf s p).accepted then setCond s p { condOf s p with inGap := false }
      else
        let u := setCond s p { condOf s p with accepted := (condOf s p).filtered }
        if p = .sync then syncEdge u else u) := by
  cases p with
  | pwrgood => exact absurd rfl hp
  | alert => exact congrArg Host.Outcome.next (if_neg (by simp [hgap]))
  | throttle => exact congrArg Host.Outcome.next (if_neg (by simp [hgap]))
  | sync => exact congrArg Host.Outcome.next (if_neg (by simp [hgap]))

/-! ## Stuck inputs (R479, R481) -/

/-- The fault of a pin shows in PIN_STAT and is counted. -/
theorem rb_declare (s : State) (p : Pin) : rb (declare_ s p) aPcPinStat 0 7 = true := by
  have hkey : regKey aPcPinStat 0 ≠ regKey aPcCntPinFault 0 := by decide
  rw [rb, declare_, rv_cnt_other _ _ _ _ _ hkey]
  exact rb_rsetF_same _ _ _ _ _ (by decide)

theorem rv_declare (s : State) (p : Pin) :
    rv (declare_ s p) aPcCntPinFault = (rv s aPcCntPinFault + 1) % 2 ^ 32 := by
  rw [declare_, rv_cnt_same, rv_rsetF_other _ _ _ _ _ _ _ _ (by decide)]
  cases p <;> rfl

/-- Settles O46: an input is inside its gap or not, its level new or not, and the time of the sixty-fourth edge decides. -/
theorem pinsComplete : Obligations.PinsComplete := by
  refine ⟨?levels, ?sync, ?syncIgnored, ?pwrgood, ?gapEnds, ?gapTakes, ?syncTakes, ?stuck, ?reArm, ?reArmSync⟩
  case levels =>
    intro s low
    refine ⟨fun hedge hgap => ?_, fun hedge hgap => ?_, fun hedge hgap => ?_, fun hedge hgap => ?_⟩
    · exact congrArg Host.Outcome.next (filterTo_outsideGap (p := .alert) hedge hgap)
    · exact congrArg Host.Outcome.next (filterTo_insideGap (p := .alert) hedge hgap)
    · exact congrArg Host.Outcome.next (filterTo_outsideGap (p := .throttle) hedge hgap)
    · exact congrArg Host.Outcome.next (filterTo_insideGap (p := .throttle) hedge hgap)
  case sync =>
    intro s high hedge hgap
    rw [exec_pairSyncIn_outsideGap hedge hgap, syncEdge_eq]
    rfl
  case syncIgnored =>
    intro s u w high es hedge hgap hu hes hw
    have hes' : es = ignoredEdges s := hes
    have hw' : w = syncIgnored s high := by
      subst hw hes hu
      rfl
    rw [exec_pairSyncIn_insideGap hedge hgap, hw', hes']
    refine ⟨fun h => ?_, fun hok hmany hsoon => ?_, fun hlate => ?_⟩
    · refine congrArg Host.Outcome.next (if_neg ?_)
      rintro ⟨hok, hmany, -⟩
      rcases h with hfaulty | hfew
      · simp [hok] at hfaulty
      · omega
    · exact congrArg Host.Outcome.next (if_pos ⟨hok, hmany, hsoon⟩)
    · exact congrArg Host.Outcome.next (if_neg fun h => absurd h.2.2 (Nat.not_le.2 hlate))
  case pwrgood => exact fun s => rfl
  case gapEnds =>
    intro s p hp hgap hsame
    rw [exec_minimumGapEnd_input hp hgap, if_pos hsame]
  case gapTakes =>
    intro s p hp hgap hdiff
    have hinput : p ≠ .pwrgood ∧ p ≠ .sync := by rcases hp with rfl | rfl <;> simp
    rw [exec_minimumGapEnd_input hinput.1 hgap, if_neg hdiff]
    exact congrArg Host.Outcome.next (if_neg hinput.2)
  case syncTakes =>
    intro s hgap hdiff
    have hend := exec_minimumGapEnd_input (p := .sync) (by simp) hgap
    exact hend.trans (congrArg Host.Outcome.next ((if_neg hdiff).trans (syncEdge_eq _)))
  case stuck =>
    intro s p hp hactive hok
    refine ⟨declare_ s p, ?_, rfl, rb_declare s p, rv_declare s p⟩
    exact congrArg Host.Outcome.next (if_pos ⟨hp, hactive, by simp [hok]⟩)
  case reArm =>
    intro s p hp hfaulty hidle
    have hinput : p ≠ .sync := by rcases hp with rfl | rfl <;> simp
    exact congrArg Host.Outcome.next ((if_neg (by simp [hfaulty])).trans
      ((if_neg hinput).trans (if_neg (by simp [hidle]))))
  case reArmSync =>
    exact fun s hfaulty => congrArg Host.Outcome.next ((if_neg (by simp [condOf, hfaulty])).trans (if_pos rfl))

end Sys2Proof.Machine

namespace Sys2Proof.Machine

/-! ## Resets of a unit (R416, R421, R423 to R425) -/

theorem exec_unitResetRequest {s : State} (u : UnitId) (sc : Scope) (cause : Word) (hopen : closed s = false)
    (hheld : heldInReset s = false) : exec (.unitResetRequest u sc cause) s =
      .next (wantReset s (unitNo u) (match u with | .core _ => .whole | .fold _ => sc) cause) :=
  congrArg Host.Outcome.next (if_neg (by simp [hopen, hheld]))

/-- The scope that a write of IG_URST names for a unit (R423). -/
def urstScope (u : Nat) (v : Word) : Scope :=
  if u < 2 then .whole else if bits v.toNat 2 1 = 0 then .gx else if bits v.toNat 2 1 = 1 then .ru else .whole

theorem wrIgUrst_set {s : State} {a : Acc} {v : Word} {u : Nat} (hsec : a.secure = true)
    (hset : bit v.toNat 0 = true) (hu : u = min 9 (selOf s a.who aIgUnitSel % 16)) :
    wrIgUrst s a v = wantReset s u (urstScope u v) 0xFFFFFFFF := by
  subst hu
  have hscope : (match bits v.toNat 2 1 with | 0 => Scope.gx | 1 => .ru | _ => .whole) =
      if bits v.toNat 2 1 = 0 then .gx else if bits v.toNat 2 1 = 1 then .ru else .whole := by
    split <;> simp_all
  rw [urstScope, ← hscope]
  exact if_pos (by simp [hsec, hset])

/-- A unit that is quiet, or whose deadline has come, has its records closed and a generation more; a fold's programs from
before the reset are told apart by number. -/
def unitHeld (s : State) (u : UnitId) (x : Unit_) : State :=
  let w := updUnit (closeRecs s (scopeUnits (unitNo u) x.scope)) (unitNo u)
    (fun y => { y with st := .resetting, gen := x.gen + 1, last := some s.np.ns })
  match u with
  | .core _ => w
  | .fold f => updFold w f (fun z => { z with bornAt := z.nextProg })

/-- A deadline that has passed is a DEADLINE event of the unit (R423, R425). -/
def lateNoted (s : State) (u : UnitId) (x : Unit_) (late : Option Word) : State :=
  match late with
  | some n => logEv s { cls := 7, block := scopeBlk (unitNo u) x.scope, inst := unitInst (unitNo u), detail := n.toNat
                        gen := x.gen.toNat }
  | none => s

/-- The generation of a unit advances, and the record of its reset opens (R425). -/
def resetRecorded (s : State) (u : UnitId) (x : Unit_) : State :=
  logEv (cnt s aIgCntUnitReset)
    { cls := 9, block := scopeBlk (unitNo u) x.scope, inst := unitInst (unitNo u), location := x.cause.toNat
      detail := (x.gen + 1).toNat + 256 * scopeCode (unitNo u) x.scope, gen := (x.gen + 1).toNat }

theorem exec_quiet {s : State} {u : UnitId} {x : Unit_} (late : Option Word) (hopen : closed s = false)
    (hx : x = unit s (unitNo u)) (hst : x.st = .quiescing) : exec (.quiet u late) s = .next (settle
      (unitEnds (resetRecorded (unitHeld (lateNoted s u x late) u x) u x) (unitNo u) x.scope)) := by
  subst hx
  refine congrArg Host.Outcome.next ((if_neg (by simp [hst, hopen])).trans ?_)
  cases u with
  | core c =>
    have hcore : unitNo (.core c) < 2 := c.isLt
    simp only [if_pos hcore]
    rfl
  | fold f =>
    have hfold : ¬unitNo (.fold f) < 2 := Nat.not_lt.2 (Nat.le_add_right 2 f.val)
    have hnumber : unitNo (.fold f) - 2 = f := Nat.add_sub_cancel_left 2 f.val
    simp only [if_neg hfold, hnumber]
    rfl

theorem exec_unitResetDone_core {s : State} {c : Fin 2} (hst : (unit s (unitNo (.core c))).st = .resetting) :
    exec (.unitResetDone (.core c)) s =
      .next (updUnit (coreFresh s c) c (fun x => { x with st := .service })) :=
  congrArg Host.Outcome.next ((if_neg (not_not_intro hst)).trans (if_pos c.isLt))

/-- An RU that was reset recovers (R424). -/
def ruRecovers (s : State) (f : Nat) (sc : Scope) : State :=
  if sc = .gx then s else rsetF s (foldReg f aRuStat) 0 0 0 1

/-- A fold that was reset as a whole, and is not disabled, has its modules and its clock again (R424). -/
def modulesBack (s : State) (f : Nat) (sc : Scope) : State :=
  if sc = .whole ∧ (fold s f).disabled = false then
    rsetF (updFold s f (fun y => { y with mods := 0 })) aPcClkStat 0 (1 + f) (1 + f) 1
  else s

/-- A gather engine goes on with what waits for its migrations (R424). -/
def gatherGoesOn (s : State) (f : Nat) (sc : Scope) : State :=
  if sc = .ru then s else (List.range 64).foldl (fun s _ => nextWaiting s f) s

theorem exec_unitResetDone_fold {s w : State} {f : Fin 8} {x : Unit_} (hx : x = unit s (unitNo (.fold f)))
    (hst : x.st = .resetting) (hw : w = modulesBack (ruRecovers s f x.scope) f x.scope) :
    exec (.unitResetDone (.fold f)) s = .next (gatherGoesOn
      (updUnit w (2 + f) (fun y => { y with st := if rb w (foldReg f aRuStat) 0 0 then .recovering else .service }))
      f x.scope) := by
  subst hx hw
  have hfold : ¬unitNo (.fold f) < 2 := Nat.not_lt.2 (Nat.le_add_right 2 f.val)
  have hnumber : unitNo (.fold f) - 2 = f := Nat.add_sub_cancel_left 2 f.val
  refine congrArg Host.Outcome.next ((if_neg (not_not_intro hst)).trans ((if_neg hfold).trans ?_))
  simp only [hnumber, Bool.not_eq_true']
  rfl

/-- Settles O40: the unit is a core or a fold, and the state of its reset decides what each row does. -/
theorem unitResetComplete : Obligations.UnitResetComplete := by
  refine ⟨?core, ?fold, ?register, ?orderly, ?quiet, ?coreDone, ?foldDone⟩
  case core => exact fun s k sc cause hopen hheld => exec_unitResetRequest (.core k) sc cause hopen hheld
  case fold => exact fun s f sc cause hopen hheld => exec_unitResetRequest (.fold f) sc cause hopen hheld
  case register => exact fun s a v u hacc hsec hset hu => next_acc1 hacc (wrIgUrst_set hsec hset hu)
  case orderly => exact fun s u late hclosed => congrArg Host.Outcome.next (if_pos (.inr hclosed))
  case quiet =>
    intro s v w y u late x b hopen hx hst hb hv hw hy
    have hv' : v = lateNoted s u x late := by
      subst hv hb
      rfl
    have hy' : y = unitHeld v u x := by
      subst hy hw
      rfl
    subst hb
    rw [exec_quiet late hopen hx hst, ← hv', ← hy']
    rfl
  case coreDone => exact fun s c hst => exec_unitResetDone_core hst
  case foldDone =>
    intro s u w f x hx hst hu hw
    subst hu
    exact exec_unitResetDone_fold hx hst hw

end Sys2Proof.Machine

namespace Sys2Proof.Machine

/-! ## Stages of the boot (R458 to R466) -/

/-- A step of the boot is made in its stage. -/
theorem inStage_now {s : State} {n : Nat} (g : State → State) (hheld : heldInReset s = false) (hstage : stage s = n) :
    inStage s n g = g s :=
  if_neg (by simp [hheld, hstage])

/-! ## The identity (R441, R445) -/

/-- What the fuses hold is read: the record and its helper data. -/
def fusesRead (s : State) (rec helper : Bytes) : State :=
  { s with pc := { s.pc with record := slice rec 0 5396, helper := helper } }

/-- The seed that a block of the PUF gives with the helper data (R445). -/
def pufSeedOf (helper block : Bytes) : Bytes := slice (Config.pufSeed (slice block 0 16384) helper) 0 32

theorem pufCycle_fst (s : State) (b : Bytes) : (pufCycle s b).1 = pufSeedOf s.pc.helper b := rfl

/-- The blocks of the PUF leave no reading behind. -/
theorem foldl_pufCycle {s : State} (hpuf : s.pc.puf = none) (blocks : List Bytes) :
    blocks.foldl (fun s b => (pufCycle s b).2) s = s := by
  have hcycle : ∀ b, (pufCycle s b).2 = s := fun b => by
    show { s with pc := { s.pc with puf := none } } = s
    rw [← hpuf]
  induction blocks with
  | nil => rfl
  | cons b l ih => rw [List.foldl_cons, hcycle b, ih]

/-- What the identity found is noted, and a part without one has no folds (R445). -/
def identityNoted (v : State) (recOk idOk : Bool) : State :=
  if idOk then v
  else rsetF (rsetF ((List.range 8).foldl (fun s f => updFold s f (fun x => { x with disabled := true }))
    (setCode v (if recOk then 6 else 5))) aPcBootStat 0 12 5 255) aPcBootStat 0 14 13 3

/-- A part whose boots have failed three times goes to the fallback, any other looks for its image (R459). -/
def identityDone (w : State) : State := if rv w aPcBootTries = 3 then toFallback w else setStage w 3

/-- A part with an identity has a sound record. -/
theorem recOk_of_idOk {idOk recOk helperOk seedOk : Bool} (hok : idOk = (recOk && helperOk && seedOk)) (h : idOk = true) :
    recOk = true := by
  simp only [hok, Bool.and_eq_true] at h
  exact h.1.1

/-- The code of a part without an identity says whether its record failed. -/
theorem identityNoted_eq (v : State) {recOk idOk : Bool} (hrec : idOk = true → recOk = true) :
    (if (recOk && idOk) = true then (if (!recOk) = true then setCode v 5 else if (!idOk) = true then setCode v 6 else v)
     else rsetF (rsetF ((List.range 8).foldl (fun s f => updFold s f (fun x => { x with disabled := true }))
       (if (!recOk) = true then setCode v 5 else if (!idOk) = true then setCode v 6 else v)) aPcBootStat 0 12 5 255)
       aPcBootStat 0 14 13 3) = identityNoted v recOk idOk := by
  cases idOk with
  | true => simp [identityNoted, hrec]
  | false => cases recOk <;> simp [identityNoted]

/-- The seed is kept and the flags of the record and the identity shown (R445). -/
def identityFlagged (s : State) (x : Bytes) (recOk idOk : Bool) : State :=
  rsetF { s with pc := { s.pc with seed := x } } aPcSecStat 0 1 0 (b2n recOk + 2 * b2n idOk)

/-- The identity in the order in which the boot looks at the record, the seeds and the flags. -/
theorem exec_identity_read {s t : State} {rec helper r : Bytes} {blocks seeds : List Bytes} {good : Bytes → Bool}
    {idOk : Bool} (hheld : heldInReset s = false) (hstage : stage s = 2) (hr : r = slice rec 0 5396)
    (ht : t = fusesRead s rec helper) (hseeds : seeds = (blocks.take 3).map (fun b => (pufCycle t b).1))
    (hgood : good = fun x => Config.mldsaPublic (idSeed x) == slice r 64 1312)
    (hok : idOk = (recordOk r && sha3 helper == slice r 32 32 && seeds.any good)) :
    exec (.identity rec helper blocks) s = .next (identityDone (identityNoted (identityFlagged
      (blocks.foldl (fun s b => (pufCycle s b).2) t) (if recordOk r then (seeds.find? good).getD [] else seeds.headD [])
      (recordOk r) idOk) (recordOk r) idOk)) := by
  have hrec : idOk = true → recordOk r = true := recOk_of_idOk hok
  rw [← identityNoted_eq _ hrec]
  subst hok hgood hseeds ht hr
  exact congrArg Host.Outcome.next (inStage_now _ hheld hstage)

theorem flags_of_identity {recOk idOk : Bool} (hrec : idOk = true → recOk = true) :
    b2n recOk + 2 * b2n idOk = if idOk then 3 else if recOk then 1 else 0 := by
  cases idOk with
  | true =>
    rw [hrec rfl]
    rfl
  | false => cases recOk <;> rfl

theorem exec_identity {s : State} {rec helper r x : Bytes} {blocks seeds : List Bytes} {good : Option Bytes} {idOk : Bool}
    (hheld : heldInReset s = false) (hstage : stage s = 2) (hpuf : s.pc.puf = none) (hr : r = slice rec 0 5396)
    (hseeds : seeds = (blocks.take 3).map (pufSeedOf helper))
    (hgood : good = seeds.find? (fun x => Config.mldsaPublic (idSeed x) == slice r 64 1312))
    (hx : x = if recordOk r then good.getD [] else seeds.headD [])
    (hok : idOk = (recordOk r && sha3 helper == slice r 32 32 && good.isSome)) :
    exec (.identity rec helper blocks) s = .next (identityDone (identityNoted
      (rsetF { s with pc := { s.pc with record := r, helper := helper, seed := x, puf := none } }
         aPcSecStat 0 1 0 (if idOk then 3 else if recordOk r then 1 else 0)) (recordOk r) idOk)) := by
  have hok' : idOk = (recordOk r && sha3 helper == slice r 32 32 &&
      seeds.any (fun x => Config.mldsaPublic (idSeed x) == slice r 64 1312)) := by
    rw [hok, hgood, List.isSome_find?]
  have hrec : idOk = true → recordOk r = true := recOk_of_idOk hok
  have hread : { fusesRead s rec helper with pc := { (fusesRead s rec helper).pc with seed := x } } =
      { s with pc := { s.pc with record := r, helper := helper, seed := x, puf := none } } := by
    rw [hr, ← hpuf]
    rfl
  rw [exec_identity_read hheld hstage hr rfl hseeds rfl hok', foldl_pufCycle (s := fusesRead s rec helper) hpuf, ← hgood, ← hx, identityFlagged, hread,
    flags_of_identity hrec]

/-! ## The image, the fallback and the firmware (R459 to R463) -/

theorem exec_imageSpi {s : State} (img : Bytes) (hheld : heldInReset s = false) (hstage : stage s = 3) :
    exec (.imageSpi img) s =
      .next (if imageCode img = 0 then runImage s img 0 else toFallback (setCode s (imageCode img))) :=
  congrArg Host.Outcome.next (inStage_now _ hheld hstage)

/-- The pieces of the fallback image with those of datagram `d`: a datagram of another length begins anew (R460). -/
def piecesWith (s : State) (d : Bytes) : Map Bytes :=
  mput (if s.pc.fbTotal = fld d 4 4 then s.pc.fbPieces else []) (fld d 8 4) (d.drop 16)

/-- A datagram's piece is kept and answered with the bytes held (R460). -/
def pieceKept (s : State) (d : Bytes) : State :=
  emit { s with pc := { s.pc with fbTotal := fld d 4 4, fbPieces := piecesWith s d } }
    (.fallback ([1, 0, 0, 0] ++ toLE 4 (fld d 4 4) ++ toLE 4 (fbHeld (piecesWith s d)) ++ toLE 4 0))

/-- A whole fallback image runs, or is dropped with its code (R460). -/
def fallbackWhole (u : State) (img puf : Bytes) : State :=
  if imageCode img = 0 then runImage (rereadPuf u puf) img 1
  else setCode { u with pc := { u.pc with fbTotal := 0, fbPieces := [] } } (imageCode img)

theorem exec_fallbackDatagram_sound {s : State} {fr : Frame} {d : Bytes} (puf : Bytes) (hheld : heldInReset s = false)
    (hstage : stage s = 4) (hsound : fbOk d = true) (hin : FrameIn s fr) (hport : fr.mac = 8) :
    exec (.fallbackDatagram ⟨fr, d, puf⟩) s = .next
      (if fbHeld (piecesWith s d) < fld d 4 4 then pieceKept s d
       else fallbackWhole (pieceKept s d) ((piecesWith s d).flatMap (·.2)) puf) :=
  congrArg Host.Outcome.next ((rxFrame_in hin _).trans (if_neg (by simp [hheld, hstage, hsound, hport])))

theorem exec_fallbackDatagram_malformed {s : State} {fr : Frame} {d : Bytes} (puf : Bytes) (hsound : fbOk d = false)
    (hin : FrameIn s fr) : exec (.fallbackDatagram ⟨fr, d, puf⟩) s = .next (rxDrop s) :=
  congrArg Host.Outcome.next ((rxFrame_in hin _).trans (if_pos (by simp [hsound])))

/-- The management port comes up with the firmware, or its failure is noted (R463). -/
def mgmtStarted (s : State) (up : Bool) : State := if up then bootMac s else setCode (setMac s 8 false) 12

theorem exec_fwStart_ok {s w : State} {coreFail : BitVec 2} {up : StartUp} (hheld : heldInReset s = false)
    (hstage : stage s = 5)
    (hw : w = mgmtStarted ((bitsSet 2 coreFail.toNat).foldl coreFailed (newNonce (makeKeys s))) up.mgmtUp) :
    exec (.fwStart true coreFail up) s =
      .next (if recFlag w && idFlag w then trainLinks (setStage w 6) else enterReady w up.ms) := by
  subst hw
  exact congrArg Host.Outcome.next (inStage_now _ hheld hstage)

/-! ## The memory (R464 to R466) -/

/-- The folds that are not disabled. -/
def foldsUp (s : State) : List Nat := (List.range 8).filter (fun f => !(fold s f).disabled)

/-- Each fold that is up is trained, and one with a channel that failed is disabled (R465). -/
def foldsTrained (s : State) (fail : BitVec 128) (eyes : List (Byte × Byte × Byte)) : State :=
  ((foldsUp s).filter (fun f => bits fail.toNat (16 * f + 15) (16 * f) ≠ 0)).foldl (foldFailed 3)
    ((foldsUp s).foldl (trainFold fail eyes) s)

/-- The first plan, over the channels of the folds that came up (R466). -/
def firstPlan (v : State) (up : List Nat) (m : BootMeas) : State :=
  makePlan { v with pc := { v.pc with
      retrained := (up.filter (fun f => !(fold v f).disabled)).flatMap (fun f => (List.range 16).map (fun k => 16 * f + k)) } }
    true 0 m.sites1 m.sites2 { links := [], eth := m.eth, ucie := m.ucie, skipLink := false, skipFold := false } {} m.acks

theorem exec_memory {s : State} (fail : BitVec 128) (eyes : List (Byte × Byte × Byte)) (m : BootMeas) (ms : Nat)
    (hheld : heldInReset s = false) (hstage : stage s = 7) (hplan : s.pc.plan = []) :
    exec (.memory fail eyes m ms) s = .next
      (let u := firstPlan (foldsTrained s fail eyes) (foldsUp s) m
       if allFilled u then enterReady u ms else u) :=
  congrArg Host.Outcome.next ((inStage_now _ hheld hstage).trans (if_neg (by simp [hplan])))

/-- Settles O43: each step is made in its own stage, and what it reads decides where it leads. -/
theorem bootComplete : Obligations.BootComplete := by
  refine ⟨?rom, ?identity, ?image, ?piece, ?whole, ?malformed, ?retry, ?sramFailed, ?firmware, ?folds, ?memory⟩
  case rom => exact fun s rom hheld hstage => congrArg Host.Outcome.next (inStage_now _ hheld hstage)
  case identity =>
    intro s v w rec helper r x blocks seeds good idOk hheld hstage hpuf hr hseeds hgood hx hok hv hw
    have hw' : w = identityNoted v (recordOk r) idOk := hw
    rw [exec_identity hheld hstage hpuf hr hseeds hgood hx hok, ← hv, ← hw', identityDone]
  case image => exact fun s img hheld hstage => exec_imageSpi img hheld hstage
  case piece =>
    intro s fr d puf m hheld hstage hsound hin hport hm hfew
    subst hm
    exact (exec_fallbackDatagram_sound puf hheld hstage hsound hin hport).trans
      (congrArg Host.Outcome.next (if_pos hfew))
  case whole =>
    intro s u fr d img puf m hheld hstage hsound hin hport hm hall himg hu
    subst hm himg hu
    exact (exec_fallbackDatagram_sound puf hheld hstage hsound hin hport).trans
      (congrArg Host.Outcome.next (if_neg (Nat.not_lt.2 hall)))
  case malformed => exact fun s fr d puf hin _ hbad => exec_fallbackDatagram_malformed puf hbad hin
  case retry => exact fun s img puf hheld hstage => congrArg Host.Outcome.next (inStage_now _ hheld hstage)
  case sramFailed => exact fun s coreFail up hheld hstage => congrArg Host.Outcome.next (inStage_now _ hheld hstage)
  case firmware =>
    intro s u w coreFail mgmtUp ms hheld hstage hu hw
    subst hu
    exact exec_fwStart_ok (up := ⟨mgmtUp, ms⟩) hheld hstage hw
  case folds => exact fun s pll ucie attempts hheld hstage => congrArg Host.Outcome.next (inStage_now _ hheld hstage)
  case memory =>
    intro s w v fail up eyes m ms hheld hstage hplan hup hw hv
    subst hv hw hup
    exact ⟨_, rfl, exec_memory fail eyes m ms hheld hstage hplan⟩

end Sys2Proof.Machine

namespace Sys2Proof.Machine

/-! ## ATTEST (R442, R443) -/

/-- The operands of an ATTEST lie within the bounds that R442 gives them. -/
structure AttestSound (c : Cmd) : Prop where
  nonce : 1 ≤ cF c 16 4 ∧ cF c 16 4 ≤ 64
  reserved : zero c 40 24 = true
  source : srcOk c (cF c 24 8) (cF c 16 4) = true
  dest : plainAddr (cF c 32 8) = true
  room : 11836 ≤ cF c 20 4

theorem exec_attest_dispatched {s : State} {n : Word} {c : Cmd} (h : Dispatched s 0 n 22 c) (hsound : AttestSound c)
    (halias : aliasHeld (cnt s aFeCntEntries) = true) :
    exec (.attest n) s = .next (fetchSrc (arrived s c) c .nonce (cF c 24 8) (cF c 16 4)) := by
  obtain ⟨⟨hlow, hhigh⟩, hres, hsrc, hdst, hroom⟩ := hsound
  refine congrArg Host.Outcome.next ((own_dispatched h).trans
    ((if_neg ?operands).trans ((if_neg (Nat.not_lt.2 hroom)).trans (if_neg (by simp [halias])))))
  case operands =>
    simp [hres, hsrc, hdst]
    omega

/-- The evidence of an ATTEST, once signed, is written and the command ends (R443). -/
def evidenceSent (s : State) (c : Cmd) (n : Word) : State :=
  let b := evidenceBody s c.data
  let g := sign s s.pc.aliasSk 4 b
  finish (sendDst g.2 c .evidence (cF c 32 8) (b ++ g.1)) 0 n 0

/-- An ATTEST signs when no earlier one is still to end. -/
theorem exec_attest_landed {s : State} {n : Word} {c : Cmd} (h : LandedNow s 0 n 22 c)
    (hturn : ∀ d ∈ s.fe.cmds, cOp d = 22 → d.phase ≠ .ended → d.arrival ≠ 0 → c.arrival ≤ d.arrival)
    (halias : aliasHeld s = true) : exec (.attest n) s = .next (evidenceSent s c n) := by
  refine congrArg Host.Outcome.next ((own_landed h).trans ((if_neg ?earlier).trans (if_neg (by simp [halias]))))
  case earlier => simpa using hturn

/-! ## Worlds, owner's key and debug token (R431, R445, R446, R448) -/

theorem wrWorldMap_taken {s : State} {a : Acc} {v : Word} (hsec : a.secure = true)
    (hmay : ∀ u < 10, bit (v.toNat % 1024) u = unitWorld s u ∨ unitEmpty s u = true) :
    wrWorldMap s a v = rset s aPcWorldMap 0 (v.toNat % 1024) :=
  (secureOnly_of_secure s _ _ _ _ hsec).trans (if_pos (by simpa using hmay))

theorem wrWorldMap_refused {s : State} {a : Acc} {v : Word} {u : Nat} (hsec : a.secure = true) (hu : u < 10)
    (hmoves : bit (v.toNat % 1024) u ≠ unitWorld s u) (hbusy : unitEmpty s u = false) :
    wrWorldMap s a v = rsetF s aPcSecStat 0 3 3 1 := by
  refine (secureOnly_of_secure s _ _ _ _ hsec).trans (if_neg ?_)
  intro hall
  have hunit := List.all_eq_true.1 hall u (List.mem_range.2 hu)
  simp [hmoves, hbusy] at hunit

theorem wrOwnerKey_first {s : State} {a : Acc} {k : Nat} {v : Word} (hsec : a.secure = true)
    (hfree : allZero (rbytes s aPcOwnerKey0 0 8) = true) :
    wrOwnerKey s a k v = rset s (aPcOwnerKey0 + 4 * k) 0 v.toNat :=
  (secureOnly_of_secure s _ _ _ _ hsec).trans (if_pos hfree)

theorem wrOwnerKey_set {s : State} {a : Acc} {k : Nat} {v : Word} (hsec : a.secure = true)
    (hset : allZero (rbytes s aPcOwnerKey0 0 8) = false) : wrOwnerKey s a k v = s :=
  (secureOnly_of_secure s _ _ _ _ hsec).trans (if_neg (by simp [hset]))

theorem wrDbgCtl_submit {s : State} {a : Acc} {v : Word} (hsec : a.secure = true) (hset : bit v.toNat 0 = true) :
    wrDbgCtl s a v = submitToken s := if_pos (by simp [hsec, hset])

/-- Settles O48: an ATTEST is dispatched or has its nonce, and the state decides whether a register of the secure world
takes its write. -/
theorem securityComplete : Obligations.SecurityComplete := by
  refine ⟨?dispatched, ?landed, ?worlds, ?worldsRefused, ?key, ?keySet, ?token⟩
  case dispatched =>
    exact fun s n c h hlow hhigh hres hsrc hdst hroom halias =>
      exec_attest_dispatched h ⟨⟨hlow, hhigh⟩, hres, hsrc, hdst, hroom⟩ halias
  case landed => exact fun s n c h hturn halias => exec_attest_landed h hturn halias
  case worlds => exact fun s a v hacc hsec hmay => next_acc1 hacc (wrWorldMap_taken hsec hmay)
  case worldsRefused =>
    exact fun s a v u hacc hsec hu hmoves hbusy => next_acc1 hacc (wrWorldMap_refused hsec hu hmoves hbusy)
  case key => exact fun s a k v hacc hsec hfree => next_acc1 hacc (wrOwnerKey_first hsec hfree)
  case keySet => exact fun s a k v hacc hsec hset => next_acc1 hacc (wrOwnerKey_set hsec hset)
  case token => exact fun s a v hacc hsec hset => next_acc1 hacc (wrDbgCtl_submit hsec hset)

end Sys2Proof.Machine

namespace Sys2Proof.Machine

/-! ## The test access port (R444, R479, R483, R484) -/

/-- An instruction that the debug level makes available is selected and does its work. -/
theorem tapGo_available {s : State} {level : Nat} {ir : TapIr} (g : State → State) (hrun : s.pc.tapReset = false)
    (hlevel : level ≤ s.pc.dbgLevel.toNat) : tapGo s level ir g = g { s with pc := { s.pc with tap := ir } } :=
  (if_neg (by simp [hrun])).trans (if_neg (Nat.not_lt.2 hlevel))

/-- An instruction that the debug level withholds selects BYPASS. -/
theorem tapGo_withheld {s : State} {level : Nat} {ir : TapIr} (g : State → State) (hrun : s.pc.tapReset = false)
    (hlevel : s.pc.dbgLevel.toNat < level) :
    tapGo s level ir g = driveTdo { s with pc := { s.pc with tap := .bypass } } [0] :=
  (if_neg (by simp [hrun])).trans (if_pos hlevel)

theorem driveTdo_driven {s : State} (b : Bytes) (hheld : heldInReset s = false) (hstage : 5 ≤ stage s) :
    driveTdo s b = emit s (.tdo b) :=
  if_neg (by simp [hheld, hstage])

theorem driveTdo_floating {s : State} (b : Bytes) (hoff : heldInReset s = true ∨ stage s < 5) : driveTdo s b = s :=
  if_pos hoff

theorem length_toLE (n v : Nat) : (toLE n v).length = n := by
  induction n generalizing v with
  | zero => rfl
  | succ n ih => exact congrArg (· + 1) (ih (v / 256))

/-- JTAG reaches the secure world at debug level 3 and the other at level 2 (R444). -/
theorem mayAccess_jtag {s : State} {secure : Bool} (hopen : closed s = false) (hheld : heldInReset s = false)
    (hlevel : s.pc.dbgLevel = if secure then 3 else 2) : mayAccess s { who := .jtag, secure := secure } = true := by
  cases secure with
  | true => simp [mayAccess, hopen, hheld, hlevel]
  | false => simp [mayAccess, hopen, hheld, hlevel]

theorem exec_debugAccess {s : State} {write secure : Bool} (addr v : Word) (hrun : s.pc.tapReset = false)
    (hopen : closed s = false) (hheld : heldInReset s = false)
    (hlevel : s.pc.dbgLevel = if secure then 3 else 2) : exec (.debugAccess write addr v) s = .next
      (let u := { s with pc := { s.pc with tap := .access } }
       let a : Acc := { who := .jtag, secure := secure }
       if write then regWrite u a addr.toNat v
       else driveTdo (regRead u a addr.toNat).2 (toLE 4 (regRead u a addr.toNat).1.toNat)) := by
  have havailable : 2 ≤ s.pc.dbgLevel.toNat := by
    rw [hlevel]
    cases secure <;> decide
  have hsecure : (s.pc.dbgLevel == 3) = secure := by
    rw [hlevel]
    cases secure <;> rfl
  refine congrArg Host.Outcome.next ((tapGo_available _ hrun havailable).trans ?_)
  simp only [hsecure]
  exact if_pos (mayAccess_jtag (s := { s with pc := { s.pc with tap := .access } }) hopen hheld hlevel)

/-- Settles O49: the reset of the port, the debug level and the stage of the boot decide what each instruction does. -/
theorem tapComplete : Obligations.TapComplete := by
  refine ⟨?reset, ?run, ?idcode, ?floating, ?bypass, ?sample, ?sampleWithheld, ?extest, ?token, ?write, ?read⟩
  case reset => exact fun s => rfl
  case run => exact fun s => rfl
  case idcode =>
    exact fun s hrun hheld hstage =>
      congrArg Host.Outcome.next ((tapGo_available _ hrun (Nat.zero_le _)).trans (driveTdo_driven _ hheld hstage))
  case floating =>
    exact fun s hrun hoff =>
      ⟨congrArg Host.Outcome.next ((tapGo_available _ hrun (Nat.zero_le _)).trans (driveTdo_floating _ hoff)),
        congrArg Host.Outcome.next ((tapGo_available _ hrun (Nat.zero_le _)).trans (driveTdo_floating _ hoff))⟩
  case bypass =>
    exact fun s hrun hheld hstage =>
      congrArg Host.Outcome.next ((tapGo_available _ hrun (Nat.zero_le _)).trans (driveTdo_driven _ hheld hstage))
  case sample =>
    exact fun s pins tdi hrun hheld hstage hlevel =>
      congrArg Host.Outcome.next ((tapGo_available _ hrun hlevel).trans (driveTdo_driven _ hheld hstage))
  case sampleWithheld =>
    exact fun s m hrun hheld hstage hlevel =>
      congrArg Host.Outcome.next ((tapGo_withheld _ hrun (by simp [hlevel])).trans (driveTdo_driven _ hheld hstage))
  case extest =>
    intro s hrun hheld hstage hlevel
    exact ⟨_, _, congrArg Host.Outcome.next ((tapGo_available _ hrun hlevel).trans (driveTdo_driven _ hheld hstage)),
      rfl, rfl, length_toLE _ _, rfl⟩
  case token =>
    intro s token hrun hopen hfw
    have hready : ¬(closed s = true ∨ (!fwRuns s) = true) := by simp [hopen, hfw]
    exact congrArg Host.Outcome.next ((tapGo_available _ hrun (Nat.zero_le _)).trans (if_neg hready))
  case write =>
    exact fun s addr v hrun hlevel hopen hheld =>
      exec_debugAccess (write := true) (secure := true) addr v hrun hopen hheld hlevel
  case read =>
    intro s u addr v hrun hlevel hopen hheld hu
    subst hu
    exact exec_debugAccess (write := false) (secure := false) addr v hrun hopen hheld hlevel

end Sys2Proof.Machine

namespace Sys2Proof.Machine

/-! ## Whole-part resets and the fault log (R416, R453, R455) -/

/-- A whole-part reset covers every block, so it closes every record of the fault log, whose contents it keeps. -/
theorem flog_wholeReset (s : State) (cause : Nat) :
    (wholeReset s cause).ig.flog = mmap {} (fun r => { r with open_ := false }) s.ig.flog := rfl

/-- A part after reset that has lost a module of fold 0, the record of which stands open (R421, R425). -/
def withOpenRecord : State := logEv State.reset { cls := 4, block := blkFM, inst := 0, detail := 1 }

/-- The open record of `withOpenRecord` is not in the log as it was once a whole-part reset has closed it. -/
theorem flog_closed_ne : mmap {} (fun r => { r with open_ := false }) withOpenRecord.ig.flog ≠ withOpenRecord.ig.flog := by
  decide +kernel

/-- Refutes O41: a thermal trip resets the whole part, which closes the open records of the fault log (log entry 155), where
the statement has the log as it was. The part is after reset, and the record that stands open is of a lost module. -/
theorem not_wholeResetsComplete : ¬ Obligations.WholeResetsComplete := by
  rintro ⟨-, -, -, -, -, -, -, htrip, -⟩
  obtain ⟨t, -, ht, -, -, hflog⟩ := htrip withOpenRecord (by decide +kernel) (by decide +kernel)
  rw [ht, flog_wholeReset] at hflog
  exact flog_closed_ne hflog

end Sys2Proof.Machine

namespace Sys2Proof.Machine

/-! ## The root clock (R452, R458) -/

theorem exec_rootPllLock {s : State} (hheld : heldInReset s = false) (hstage : stage s = 0) : exec .rootPllLock s =
    .next (setStage (rset { s with pc := { s.pc with pllTries := 0 } } aPcClkStat 0 1) 1) :=
  congrArg Host.Outcome.next (if_neg (by simp [hheld, hstage]))

/-- A time-out of the root clock's lock is counted, and the third halts the part on REFCLK (R458). -/
theorem exec_rootPllLockTimeout {s : State} (hheld : heldInReset s = false) (hstage : stage s = 0) :
    exec .rootPllLockTimeout s = .next
      (let u := { s with pc := { s.pc with pllTries := s.pc.pllTries + 1 } }
       if s.pc.pllTries + 1 < 3 then u else halt (rsetF u aPcClkStat 0 9 9 1) 8) :=
  congrArg Host.Outcome.next (if_neg (by simp [hheld, hstage]))

theorem stage_halt (s : State) (code : Nat) : stage (halt s code) = 15 := stage_setStage _ (by decide)

/-- The stage lies beside the code in BOOT_STAT. -/
theorem bootCode_setStage (s : State) (n : Nat) : rf (setStage s n) aPcBootStat 0 23 16 = rf s aPcBootStat 0 23 16 := by
  rw [rf, rf, setStage, rsetF, rv_rset_same]
  unfold bits setBits
  omega

theorem bootCode_halt (s : State) {code : Nat} (hcode : code < 256) : rf (halt s code) aPcBootStat 0 23 16 = code := by
  rw [halt, bootCode_setStage, setCode, rf_rsetF_same _ _ _ _ _ _ (by decide) (by decide)]
  exact Nat.mod_eq_of_lt hcode

/-- A halt leaves the status of the clocks. -/
theorem rv_clkStat_halt (s : State) (code : Nat) : rv (halt s code) aPcClkStat = rv s aPcClkStat := by
  rw [halt, setStage, rv_rsetF_other _ _ _ _ _ _ _ _ (by decide), setCode, rv_rsetF_other _ _ _ _ _ _ _ _ (by decide)]
  rfl

/-! ## References that are lost (R452, R465) -/

theorem exec_foldPllLoss {s : State} {f : Fin 8} (hopen : closed s = false) (hheld : heldInReset s = false)
    (hlocked : rb s aPcClkStat 0 (1 + f) = true) : exec (.foldPllLoss f) s = .next
      (let d := draw (rsetF s aPcClkStat 0 (1 + f) (1 + f) 0)
       moduleDown (moduleDown (draw d.2).2 f 0 false d.1) f 1 false (draw d.2).1) :=
  congrArg Host.Outcome.next (if_neg (by simp [hopen, hheld, hlocked]))

/-- The links of the MACs named go down. -/
def macsLost (s : State) (macs : List (Fin 9)) : State := macs.foldl (fun s m => setMac s m false) s

theorem linkUp_macsLost (s : State) (macs : List (Fin 9)) (k : Nat) : mget false (macsLost s macs).np.linkUp k =
    if ∃ m ∈ macs, m.val = k then false else mget false s.np.linkUp k := by
  induction macs generalizing s with
  | nil => simp [macsLost]
  | cons m l ih =>
    have hset : mget false (setMac s m false).np.linkUp k = if k = m.val then false else mget false s.np.linkUp k :=
      mget_mset false s.np.linkUp m k false
    show mget false (macsLost (setMac s m false) l).np.linkUp k = _
    rw [ih, hset]
    by_cases hk : m.val = k
    · simp [hk]
    · simp [hk, Ne.symm hk]

theorem qps_macsLost (s : State) (macs : List (Fin 9)) : (macsLost s macs).np.qps = s.np.qps :=
  foldl_keep (fun t : State => t.np.qps = s.np.qps) _ _ _ rfl fun _ _ h => h

/-- Settles O42: the stage and the count of time-outs decide what the root clock does; a lost reference takes its links one
after another. -/
theorem clocksComplete : Obligations.ClocksComplete := by
  refine ⟨?lock, ?timeout, ?halts, ?fold, ?ethernet, ?drove⟩
  case lock => exact fun s hheld hstage => exec_rootPllLock hheld hstage
  case timeout =>
    intro s hheld hstage hleft
    exact (exec_rootPllLockTimeout hheld hstage).trans (congrArg Host.Outcome.next (if_pos hleft))
  case halts =>
    intro s hheld hstage hnone
    refine ⟨_, (exec_rootPllLockTimeout hheld hstage).trans (congrArg Host.Outcome.next (if_neg (Nat.not_lt.2 hnone))),
      stage_halt _ _, bootCode_halt _ (by decide), ?_, rfl⟩
    rw [rb, rv_clkStat_halt]
    exact rb_rsetF_same _ _ _ _ _ (by decide)
  case fold => exact fun s f hopen hheld hlocked => exec_foldPllLoss hopen hheld hlocked
  case ethernet =>
    intro s macs
    refine ⟨macsLost s macs, rfl, fun m hm => ?_, fun k hk => ?_, qps_macsLost s macs⟩
    · rw [linkUp_macsLost, if_pos ⟨m, hm, rfl⟩]
    · rw [linkUp_macsLost, if_neg (by simpa using hk)]
  case drove => exact fun s => rfl

end Sys2Proof.Machine

namespace Sys2Proof.Machine

/-! ## The flash (R459, R461, R469) -/

/-- The bits of FLASH_CTL lie in its five lowest. -/
theorem bit_mod_flashCtl (n : Nat) {i : Nat} (hi : i < 5) : bit n i = bit (n % 32) i := by
  have hdiv : n % 32 / 2 ^ i % 2 = n / 2 ^ i % 2 := by interval_cases i <;> omega
  rw [bit, bit, hdiv]

theorem bit_of_flashCtl {n k i : Nat} {b : Bool} (h : n % 32 = k) (hi : i < 5) (hb : bit k i = b) : bit n i = b := by
  rw [bit_mod_flashCtl n hi, h, hb]

/-- A write of FLASH_CTL that leaves ERR starts nothing in the other world or while an operation runs. -/
theorem wrFlashCtl_ignored {s : State} {a : Acc} {v : Word} (herr : bit v.toNat 4 = false)
    (hidle : a.secure = false ∨ s.pc.flash.isSome = true) : wrFlashCtl s a v = s := by
  have hmay : (!a.secure || s.pc.flash.isSome) = true := by rcases hidle with h | h <;> simp [h]
  simp only [wrFlashCtl, herr]
  exact if_pos hmay

/-- The operation that a write of FLASH_CTL names, with its address (R469). -/
def flashAsked (s : State) (n : Nat) : State :=
  if bit n 0 then flashGo s (flashAddr s 65536) (.erase (flashAddr s 65536))
  else if bit n 1 then flashGo s (flashAddr s 4096) (.program (flashAddr s 4096) (rbytes s aPcFlashBuf 0 1024))
  else if bit n 2 then flashGo s (flashAddr s 4096) (.read (flashAddr s 4096))
  else s

theorem wrFlashCtl_idle {s : State} {a : Acc} {v : Word} (hsec : a.secure = true) (hidle : s.pc.flash = none)
    (herr : bit v.toNat 4 = false) : wrFlashCtl s a v = flashAsked s v.toNat := by
  simp only [wrFlashCtl, herr]
  exact if_neg (by simp [hsec, hidle])

theorem wrFlashCtl_erase {s : State} {a : Acc} {v : Word} (hsec : a.secure = true) (hidle : s.pc.flash = none)
    (hv : v.toNat % 32 = 1) : wrFlashCtl s a v = flashGo s (flashAddr s 65536) (.erase (flashAddr s 65536)) :=
  (wrFlashCtl_idle hsec hidle (bit_of_flashCtl hv (by decide) (by decide))).trans
    (if_pos (bit_of_flashCtl hv (by decide) (by decide)))

theorem wrFlashCtl_program {s : State} {a : Acc} {v : Word} (hsec : a.secure = true) (hidle : s.pc.flash = none)
    (hv : v.toNat % 32 = 2) : wrFlashCtl s a v =
      flashGo s (flashAddr s 4096) (.program (flashAddr s 4096) (rbytes s aPcFlashBuf 0 1024)) :=
  (wrFlashCtl_idle hsec hidle (bit_of_flashCtl hv (by decide) (by decide))).trans
    ((if_neg (Bool.eq_false_iff.1 (bit_of_flashCtl hv (by decide) (by decide)))).trans
      (if_pos (bit_of_flashCtl hv (by decide) (by decide))))

theorem wrFlashCtl_read {s : State} {a : Acc} {v : Word} (hsec : a.secure = true) (hidle : s.pc.flash = none)
    (hv : v.toNat % 32 = 4) : wrFlashCtl s a v = flashGo s (flashAddr s 4096) (.read (flashAddr s 4096)) :=
  (wrFlashCtl_idle hsec hidle (bit_of_flashCtl hv (by decide) (by decide))).trans
    ((if_neg (Bool.eq_false_iff.1 (bit_of_flashCtl hv (by decide) (by decide)))).trans
      ((if_neg (Bool.eq_false_iff.1 (bit_of_flashCtl hv (by decide) (by decide)))).trans
        (if_pos (bit_of_flashCtl hv (by decide) (by decide)))))

theorem flashGo_started {s : State} {x : Nat} (op : FlashOp) (hx : 0x10000 ≤ x) :
    flashGo s x op = rsetF { s with pc := { s.pc with flash := some op } } aPcFlashCtl 0 3 3 1 :=
  if_neg (Nat.not_lt.2 hx)

theorem flashGo_refused {s : State} {x : Nat} (op : FlashOp) (hx : x < 0x10000) :
    flashGo s x op = rsetF s aPcFlashCtl 0 4 4 1 := if_pos hx

/-- BUSY goes with the operation (R469). -/
def flashIdle (s : State) : State := rsetF { s with pc := { s.pc with flash := none } } aPcFlashCtl 0 3 3 0

/-- The data of a READ fills the buffer (R469). -/
def flashData (s : State) (op : FlashOp) (data : Bytes) : State :=
  match op with
  | .read _ => rsetBytes s aPcFlashBuf 0 (slice data 0 4096)
  | _ => s

theorem exec_flashOpDone {s : State} {op : FlashOp} (failed : Bool) (data : Bytes) (hop : s.pc.flash = some op) :
    exec (.flashOpDone failed data) s = .next
      (if failed then rsetF (flashIdle s) aPcFlashCtl 0 4 4 1 else flashData (flashIdle s) op data) := by
  show execFlashOpDone failed data s = _
  simp only [execFlashOpDone, hop]
  rfl

/-- Settles O44: the bits of FLASH_CTL name the operation, and its address and the state of the flash decide whether it
starts. -/
theorem flashComplete : Obligations.FlashComplete := by
  refine ⟨?erase, ?program, ?read, ?refused, ?ignored, ?done, ?failed⟩
  case erase =>
    exact fun s a v hacc hsec hidle hv haddr =>
      next_acc1 hacc ((wrFlashCtl_erase hsec hidle hv).trans (flashGo_started _ haddr))
  case program =>
    exact fun s a v hacc hsec hidle hv haddr =>
      next_acc1 hacc ((wrFlashCtl_program hsec hidle hv).trans (flashGo_started _ haddr))
  case read =>
    exact fun s a v hacc hsec hidle hv haddr =>
      next_acc1 hacc ((wrFlashCtl_read hsec hidle hv).trans (flashGo_started _ haddr))
  case refused =>
    intro s a v hacc hsec hidle
    exact ⟨fun hv haddr => next_acc1 hacc ((wrFlashCtl_erase hsec hidle hv).trans (flashGo_refused _ haddr)),
      fun hv haddr => next_acc1 hacc ((wrFlashCtl_program hsec hidle hv).trans (flashGo_refused _ haddr)),
      fun hv haddr => next_acc1 hacc ((wrFlashCtl_read hsec hidle hv).trans (flashGo_refused _ haddr))⟩
  case ignored =>
    intro s a v hacc hv hidle
    have herr : bit v.toNat 4 = false := by
      rw [bit_mod_flashCtl _ (by decide), bit, Nat.div_eq_of_lt (by omega)]
      rfl
    have hsame := wrFlashCtl_ignored herr hidle
    exact ⟨next_acc1 hacc hsame, next_acc1 hacc hsame, next_acc1 hacc hsame⟩
  case done => exact fun s data op hop => exec_flashOpDone false data hop
  case failed => exact fun s data op hop => exec_flashOpDone true data hop

end Sys2Proof.Machine

namespace Sys2Proof.Machine

/-! ## Bytes in fields -/

theorem length_padTo (n : Nat) (l : Bytes) : (padTo n l).length = n := by
  rw [padTo, List.length_take, List.length_append, List.length_replicate]
  omega

/-- A run of fields that are laid out one after another, with the sizes given, is read back at its offset. -/
theorem slice_padTo_fields {fs : List Bytes} {sizes : List Nat} (i k : Nat) {size off n : Nat}
    (hsizes : fs.map List.length = sizes) (hoff : (sizes.take i).sum = off) (hn : ((sizes.drop i).take k).sum = n)
    (hfit : off + n ≤ size) : slice (padTo size fs.flatten) off n = ((fs.drop i).take k).flatten := by
  have hbefore : (fs.take i).flatten.length = off := by rw [List.length_flatten, List.map_take, hsizes, hoff]
  have hrun : ((fs.drop i).take k).flatten.length = n := by
    rw [List.length_flatten, List.map_take, List.map_drop, hsizes, hn]
  have hcut : fs.flatten =
      (fs.take i).flatten ++ (((fs.drop i).take k).flatten ++ ((fs.drop i).drop k).flatten) := by
    rw [← List.flatten_append, List.take_append_drop, ← List.flatten_append, List.take_append_drop]
  have hread : ((padTo size fs.flatten).drop off).take n = ((fs.drop i).take k).flatten := by
    rw [padTo, hcut, List.append_assoc, List.append_assoc, List.drop_take, List.drop_left' hbefore, List.take_take,
      Nat.min_eq_left (by omega), List.take_left' hrun]
  rw [slice, hread, hrun, Nat.sub_self, List.replicate_zero, List.append_nil]

/-! ## Monitors (R490, R492) -/

/-- A reading of the monitors is stored, and each domain below its floor is raised at once (R490, R492). -/
def monitorsTaken (s : State) (m : Reading) : State := (reading s m.sites m.acks).1

/-- The runs of low readings of both domains go on or end (R492). -/
def lowRunsNoted (u : State) (c f : Nat) : State := { u with pc := { u.pc with lowCore := c, lowFold := f } }

/-- A domain of which 60 readings in a row were low starts a re-plan where it is enabled, and its run begins anew
(R492). -/
def lowRunsJudged (w : State) (c f : Nat) : State :=
  if rb w aPcMarginCtl 0 24 && (60 ≤ c || 60 ≤ f) then
    startReplan { w with pc := { w.pc with lowCore := if 60 ≤ c then 0 else c, lowFold := if 60 ≤ f then 0 else f } } 2
  else w

theorem exec_monitorRead {s u : State} {m : Reading} {c f : Nat} (hfw : fwRuns s = true) (hlen : m.sites.length = 64)
    (hu : u = monitorsTaken s m) (hc : c = lowRun u 0 u.pc.lowCore) (hf : f = lowRun u 1 u.pc.lowFold) :
    exec (.monitorRead m) s = .next (lowRunsJudged (lowRunsNoted u c f) c f) := by
  subst hf hc hu
  show execMonitorRead m s = _
  rw [execMonitorRead, if_neg (by simp [hfw, hlen]), lowRunsJudged, lowRunsNoted, monitorsTaken]

/-! ## The thermal and the power duty (R500, R502) -/

/-- The milliseconds of a duty below 16 are counted. -/
def dutyCounted (s : State) : State := if s.pc.duty < 16 then cnt s aPcCntThrMs else s

theorem pc_dutyCounted (s : State) : (dutyCounted s).pc = s.pc := by
  unfold dutyCounted
  split
  · exact cnt_pc _ _ _
  · rfl

/-- The limit of the junction temperature in sixteenths of a degree (R500). -/
def junctionLimit (s : State) : Int := 16 * rf s aPcThrCtl 0 7 0

/-- A site at the limit, or a hot channel, makes the part hot (R500). -/
def isHot (limit : Int) (s : State) : Bool := s.pc.sites.any (fun x => limit ≤ x.temp) || anyHot s

/-- A part is cool when all its sites are more than 5 degrees below the limit (R500). -/
def isCool (limit : Int) (s : State) : Bool := s.pc.sites.all (fun x => x.temp < limit - 80)

theorem isHot_iff (limit : Int) (s : State) :
    isHot limit s = true ↔ (∃ x ∈ s.pc.sites, limit ≤ x.temp) ∨ anyHot s = true := by simp [isHot]

theorem isCool_iff (limit : Int) (s : State) : isCool limit s = true ↔ ∀ x ∈ s.pc.sites, x.temp < limit - 80 := by
  simp [isCool]

theorem not_isHot {limit : Int} {s : State} (hsites : ∀ x ∈ s.pc.sites, x.temp < limit) (hchans : anyHot s = false) :
    isHot limit s = false := by
  rw [← Bool.not_eq_true, isHot_iff, hchans]
  rintro (⟨x, hx, hhot⟩ | h)
  · exact absurd hhot (Int.not_le.2 (hsites x hx))
  · exact Bool.false_ne_true h

/-- The count of milliseconds leaves the readings and the channels. -/
theorem isHot_dutyCounted (limit : Int) (s : State) : isHot limit (dutyCounted s) = isHot limit s := by
  have hchans : anyHot (dutyCounted s) = anyHot s := by
    unfold dutyCounted
    split
    · rw [anyHot, cnt_folds, anyHot]
    · rfl
  rw [isHot, isHot, hchans, pc_dutyCounted]

theorem isCool_dutyCounted (limit : Int) (s : State) : isCool limit (dutyCounted s) = isCool limit s := by
  rw [isCool, isCool, pc_dutyCounted]

theorem exec_thermalLoop {s u : State} (elapsed10 : Bool) (hfw : fwRuns s = true) (hu : u = dutyCounted s) :
    exec (.thermalLoop elapsed10) s = .next { u with pc := { u.pc with
      thermDuty := if isHot (junctionLimit s) s then stepDown s.pc.thermDuty
        else if elapsed10 && isCool (junctionLimit s) s then stepUp s.pc.thermDuty else s.pc.thermDuty } } := by
  have hpc : u.pc = s.pc := by rw [hu, pc_dutyCounted]
  rw [← isHot_dutyCounted, ← isCool_dutyCounted, ← hu, ← hpc]
  subst hu
  show execThermalLoop elapsed10 s = _
  rw [execThermalLoop, if_neg (by simp [hfw])]
  rfl

/-- The total power is shown and its energy added up (R504). -/
def powerTaken (s : State) (mw : Word) (energy : Dword) : State :=
  let s := rset s aPcPwrTotal 0 mw.toNat
  rset64 s aPcEnergyLo 0 ((rv64 s aPcEnergyLo 0 + energy.toNat) % 2 ^ 64)

/-- The power that the part may draw, in mW (R502). -/
def powerCap (s : State) : Nat := 1000 * rf s aPcThrCtl 0 19 8

theorem exec_powerLoop {s u : State} {mw mean : Word} {energy : Dword} (hfw : fwRuns s = true)
    (hu : u = powerTaken s mw energy) : exec (.powerLoop mw mean energy) s = .next
      (if min 10 (u.pc.powMs + 1) = 10 ∧ (100 * mean.toNat < 95 * powerCap u ∨ powerCap u < mean.toNat) then
        { u with pc := { u.pc with
          powMs := 0, powDuty := if powerCap u < mean.toNat then stepDown u.pc.powDuty else stepUp u.pc.powDuty } }
      else { u with pc := { u.pc with powMs := min 10 (u.pc.powMs + 1) } }) := by
  subst hu
  show execPowerLoop mw mean energy s = _
  rw [execPowerLoop, if_neg (by simp [hfw])]
  rfl

/-! ## Re-plans and rails (R475, R493 to R495) -/

theorem exec_replan {s v u : State} {sites1 sites2 : List Site} {links : List Half} {eth ucie : List Byte}
    {failed : List (Fin 32)} {acks1 acks2 : Acks} {done : List Nat} {skip : Bool} (hunder : s.pc.replanning = true)
    (hopen : closed s = false) (hheld : heldInReset s = false) (hlen1 : sites1.length = 64) (hlen2 : sites2.length = 64)
    (hlinks : retrainLinks s failed = (v, done, skip))
    (hu : u = makePlan v false v.pc.replanReason.toNat sites1 sites2
      { links := (List.range 32).map (fun l => if done.contains l then (links[l]?).getD 0 else 0), eth := eth, ucie := ucie
        skipLink := skip
        skipFold := (List.range 8).any (fun f => !(fold v f).disabled && foldSkipped v f) } acks1 acks2) :
    exec (.replan sites1 sites2 links eth ucie failed acks1 acks2) s = .next
      (if rb u aPcMarginCtl 0 25 then
        (List.range 8).foldl (fun w f => if ((ucie.drop (2 * f)).take 2).any (fun m => m.toNat < 4)
          then wantReset w (2 + f) .whole 0xFFFFFFFF else w) u
      else u) := by
  subst hu
  show execReplan sites1 sites2 links eth ucie failed acks1 acks2 s = _
  rw [execReplan, if_neg (by simp [hunder, hopen, hheld, hlen1, hlen2]), hlinks]

theorem wrMarginCtl_replan {s : State} {a : Acc} {v : Word} (hsec : a.secure = true) (hset : bit v.toNat 26 = true) :
    wrMarginCtl s a v = startReplan (rset s aPcMarginCtl 0 (v.toNat % 2 ^ 26)) 5 :=
  (secureOnly_of_secure s _ _ _ _ hsec).trans (if_pos hset)

theorem startReplan_starts {s : State} (hopen : closed s = false) (hheld : heldInReset s = false)
    (hidle : s.pc.replanning = false) (hstage : stage s = 8 ∨ stage s = 9) (r : Nat) :
    startReplan s r = rsetF { s with pc := { s.pc with
      replanning := true, replanReason := BitVec.ofNat 8 r, retrained := [], skipFolds := [] } } aPcMarginStat 0 0 0 1 :=
  if_neg (by rcases hstage with h | h <;> simp [hopen, hheld, hidle, h])

/-! ## Telemetry (R503) -/

/-- The highest of the temperatures of `n` sites from site `a` on. -/
def tempField (s : State) (a n : Nat) : Bytes := toLE 2 (tc 16 (maxInt (((s.pc.sites.drop a).take n).map (·.temp))))

/-- The folds with a hot channel, as a mask. -/
def hotMask (s : State) : Nat :=
  ((List.range 8).map (fun f => if (fold s f).chans.any (fun (_, c) => c.hot) then 2 ^ f else 0)).sum

/-- The fields of the telemetry bytes in their order (R503). -/
def telemetryFields (s : State) (rails : List Word) (hours : Word) : List Bytes :=
  [tempField s 0 40, tempField s 40 24, (List.range 8).flatMap (fun f => tempField s (40 + 3 * f) 3), toLE 1 (hotMask s),
    toLE 1 s.pc.duty, toLE 1 (dutyCauses s), toLE 1 0, toLE 4 (rv s aPcPwrTotal),
    padTo 20 (rails.flatMap (fun w => toLE 4 w.toNat)), toLE 8 (rv64 s aPcEnergyLo 0), toLE 2 (railMv s 0),
    toLE 2 (railMv s 1), toLE 1 (rf s aPcMarginStat 0 15 8), toLE 1 (rf s aPcMarginStat 0 23 16),
    toLE 1 (rf s aPcMarginStat 0 4 0), toLE 1 0, toLE 4 s.pc.planNo, toLE 4 hours.toNat]

theorem exec_telemetryRefresh {s : State} (rails : List Word) (hours : Word) (hfw : fwRuns s = true) :
    exec (.telemetryRefresh rails hours) s =
      .next { s with pc := { s.pc with telemetry := padTo 192 (telemetryFields s rails hours).flatten } } := by
  show execTelemetryRefresh rails hours s = _
  rw [execTelemetryRefresh, if_neg (by simp [hfw])]
  simp only [telemetryFields, List.flatten_cons, List.flatten_nil, List.append_nil, List.append_assoc]
  rfl

theorem sizes_telemetryFields (s : State) (rails : List Word) (hours : Word) :
    (telemetryFields s rails hours).map List.length = [2, 2, 16, 1, 1, 1, 1, 4, 20, 8, 2, 2, 1, 1, 1, 1, 4, 4] := by
  simp [telemetryFields, tempField, length_toLE, length_padTo]

/-- A run of the telemetry's fields is read back at its offset. -/
theorem slice_telemetry (s : State) (rails : List Word) (hours : Word) (i k : Nat) {off n : Nat}
    (hoff : ([2, 2, 16, 1, 1, 1, 1, 4, 20, 8, 2, 2, 1, 1, 1, 1, 4, 4].take i).sum = off)
    (hn : (([2, 2, 16, 1, 1, 1, 1, 4, 20, 8, 2, 2, 1, 1, 1, 1, 4, 4].drop i).take k).sum = n) (hfit : off + n ≤ 192) :
    slice (padTo 192 (telemetryFields s rails hours).flatten) off n =
      (((telemetryFields s rails hours).drop i).take k).flatten :=
  slice_padTo_fields i k (sizes_telemetryFields s rails hours) hoff hn hfit

/-- Settles O45: what the monitors read, the state of the loops and the plan decide between the branches; the telemetry
bytes are their fields one after another. -/
theorem loopsComplete : Obligations.LoopsComplete := by
  refine ⟨?monitors, ?thermal, ?power, ?replan, ?period, ?request, ?starts, ?retry, ?telemetry⟩
  case monitors =>
    intro s u w m hfw hlen hu hw
    have hrow := exec_monitorRead hfw hlen hu rfl rfl
    have hw' : w = lowRunsNoted u (lowRun u 0 u.pc.lowCore) (lowRun u 1 u.pc.lowFold) := hw
    rw [← hw'] at hrow
    have hcore : w.pc.lowCore = lowRun u 0 u.pc.lowCore := by rw [hw']; rfl
    have hfold : w.pc.lowFold = lowRun u 1 u.pc.lowFold := by rw [hw']; rfl
    have hen : rb w aPcMarginCtl 0 24 = rb u aPcMarginCtl 0 24 := by rw [hw']; rfl
    rw [← hcore, ← hfold, lowRunsJudged, hen] at hrow
    refine ⟨fun hstay => hrow.trans (congrArg _ (if_neg ?_)), fun hon hlow => hrow.trans (congrArg _ (if_pos ?_))⟩
    · rcases hstay with h | ⟨h, h'⟩
      · simp [h]
      · simp [Nat.not_le.2 h, Nat.not_le.2 h']
    · simpa [hon] using hlow
  case thermal =>
    intro s u elapsed10 hfw hu
    have hpc : u.pc = s.pc := (congrArg State.pc hu).trans (pc_dutyCounted s)
    refine ⟨fun hhot => ?_, fun hcool hchans => ?_, fun hwarm hchans => ?_⟩
    · have hhot' : isHot (junctionLimit s) s = true := (isHot_iff _ s).2 hhot
      rw [exec_thermalLoop _ hfw hu, if_pos hhot']
    · have hnot : isHot (junctionLimit s) s = false :=
        not_isHot (fun x hx => (hcool x hx).trans (Int.sub_lt_self _ (by decide))) hchans
      have hcool' : isCool (junctionLimit s) s = true := (isCool_iff _ s).2 hcool
      rw [exec_thermalLoop _ hfw hu, hnot, hcool']
      rfl
    · have hnot : isHot (junctionLimit s) s = false := not_isHot hwarm hchans
      rw [exec_thermalLoop _ hfw hu, hnot, ← hpc]
      rfl
  case power =>
    intro s u mw mean energy hfw hu
    have hms : u.pc.powMs = s.pc.powMs := by rw [hu]; rfl
    have hrow := exec_powerLoop (mean := mean) hfw hu
    rw [hms] at hrow
    refine ⟨fun hwait => ?_, fun hten hover => ?_, fun hten hunder => ?_, fun hten hover hunder => ?_⟩
    · rw [hrow, if_neg (by omega), Nat.min_eq_right (by omega)]
    · rw [hrow, if_pos ⟨by omega, .inr hover⟩, if_pos (show powerCap u < mean.toNat from hover)]
    · have hbelow : ¬powerCap u < mean.toNat := by unfold powerCap; omega
      rw [hrow, if_pos ⟨by omega, .inl hunder⟩, if_neg hbelow]
    · have hbetween : ¬(100 * mean.toNat < 95 * powerCap u ∨ powerCap u < mean.toNat) := by unfold powerCap; omega
      rw [hrow, if_neg (fun h => hbetween h.2), Nat.min_eq_left (by omega)]
  case replan =>
    intro s u v sites1 sites2 links eth ucie failed acks1 acks2 done skip hunder hopen hheld hlen1 hlen2 hlinks hu
    have hrow := exec_replan hunder hopen hheld hlen1 hlen2 hlinks hu
    exact ⟨fun hoff => hrow.trans (congrArg _ (if_neg (by simp [hoff]))), fun hon => hrow.trans (congrArg _ (if_pos hon))⟩
  case period => exact fun s hset => congrArg Host.Outcome.next (if_neg hset)
  case request => exact fun s a v hacc hsec hset => next_acc1 hacc (wrMarginCtl_replan hsec hset)
  case starts => exact fun s hopen hheld hidle hstage r => startReplan_starts hopen hheld hidle hstage r
  case retry => exact fun s acks hfw hsome => congrArg Host.Outcome.next (if_neg (by simp [hfw, hsome]))
  case telemetry =>
    intro s rails hours hfw
    refine ⟨_, exec_telemetryRefresh rails hours hfw, length_padTo _ _, ?_, ?_, ?_, ?_, ?_, ?_, ?_⟩
    · exact (slice_telemetry s rails hours 0 1 rfl rfl (by decide)).trans List.flatten_singleton
    · exact (slice_telemetry s rails hours 1 1 rfl rfl (by decide)).trans List.flatten_singleton
    · exact (slice_telemetry s rails hours 4 2 rfl rfl (by decide)).trans (by simp [telemetryFields])
    · exact (slice_telemetry s rails hours 7 1 rfl rfl (by decide)).trans List.flatten_singleton
    · exact (slice_telemetry s rails hours 9 1 rfl rfl (by decide)).trans List.flatten_singleton
    · exact (slice_telemetry s rails hours 10 2 rfl rfl (by decide)).trans (by simp [telemetryFields])
    · exact (slice_telemetry s rails hours 16 2 rfl rfl (by decide)).trans (by simp [telemetryFields])

end Sys2Proof.Machine

namespace Sys2Proof.Machine

/-! ## The sideband (R479, R486, R487) -/

theorem exec_sidebandRead_own {s : State} (n : Nat) (hanswers : sbAnswers s = true) :
    exec (.sidebandRead ⟨sbAddr s, n⟩) s = .next (emit (sbBytes n s).2 (.sideband (sbBytes n s).1)) :=
  congrArg Host.Outcome.next (if_pos ⟨hanswers, rfl⟩)

theorem exec_sideband_other {s : State} {a : BitVec 7} (data : Bytes) (n : Nat) (hother : a ≠ sbAddr s) :
    exec (.sidebandWrite ⟨a, data⟩) s = .next s ∧ exec (.sidebandRead ⟨a, n⟩) s = .next s := by
  have hnot : ¬((sbAnswers s : Prop) ∧ a = sbAddr s) := fun h => hother h.2
  refine ⟨?_, congrArg Host.Outcome.next (if_neg hnot)⟩
  cases data with
  | nil => rfl
  | cons b rest => exact congrArg Host.Outcome.next (if_neg hnot)

/-- Every byte that is read moves the pointer by one. -/
theorem sbPtr_sbByte (s : State) : (sbByte s).2.pc.sbPtr = s.pc.sbPtr + 1 := by
  unfold sbByte
  dsimp only
  split
  · rfl
  · split
    · split <;> rfl
    · rfl

theorem length_sbBytes (n : Nat) (s : State) : (sbBytes n s).1.length = n := by
  induction n generalizing s with
  | zero => rfl
  | succ n ih => exact congrArg (· + 1) (ih (sbByte s).2)

theorem sbPtr_sbBytes (n : Nat) (s : State) : (sbBytes n s).2.pc.sbPtr = s.pc.sbPtr + BitVec.ofNat 8 n := by
  induction n generalizing s with
  | zero => exact (BitVec.add_zero _).symm
  | succ n ih =>
    calc (sbBytes (n + 1) s).2.pc.sbPtr
        = (sbByte s).2.pc.sbPtr + BitVec.ofNat 8 n := ih _
      _ = s.pc.sbPtr + (1 + BitVec.ofNat 8 n) := by rw [sbPtr_sbByte, BitVec.add_assoc]
      _ = s.pc.sbPtr + (BitVec.ofNat 8 1 + BitVec.ofNat 8 n) := rfl
      _ = s.pc.sbPtr + BitVec.ofNat 8 (n + 1) := by rw [← BitVec.ofNat_add, Nat.add_comm]

/-- Byte 0 of a 4-byte field latches the field. -/
theorem sbByte_field {s : State} (hfield : sbFields.contains s.pc.sbPtr.toNat = true) :
    sbByte s = (((sbMap s)[s.pc.sbPtr.toNat]?).getD 0, { s with pc := { s.pc with
      sbPtr := s.pc.sbPtr + 1, sbLatch := some (s.pc.sbPtr.toNat, slice (sbMap s) s.pc.sbPtr.toNat 4) } }) :=
  if_pos hfield

/-- The other bytes of a field come from the latch. -/
theorem sbByte_latched {s : State} {b : Nat} {l : Bytes} (hlatch : s.pc.sbLatch = some (b, l))
    (hlow : b < s.pc.sbPtr.toNat) (hhigh : s.pc.sbPtr.toNat < b + 4)
    (hfield : sbFields.contains s.pc.sbPtr.toNat = false) : sbByte s =
      ((l[s.pc.sbPtr.toNat - b]?).getD 0, { s with pc := { s.pc with sbPtr := s.pc.sbPtr + 1 } }) := by
  refine (if_neg (Bool.eq_false_iff.1 hfield)).trans ?_
  rw [hlatch]
  exact if_pos ⟨hlow, hhigh⟩

theorem exec_sidebandRead_one {s : State} (hanswers : sbAnswers s = true) :
    exec (.sidebandRead ⟨sbAddr s, 1⟩) s = .next (emit (sbByte s).2 (.sideband [(sbByte s).1])) :=
  exec_sidebandRead_own 1 hanswers

/-- Without a dynamic address the target answers at the address that is strapped. -/
theorem sbAddr_static {s : State} (hdyn : s.pc.sbDyn = none) :
    sbAddr s = BitVec.ofNat 7 (0x58 + rf s aPcPinStat 0 10 8) := by rw [sbAddr, hdyn]

theorem sbAddr_dynamic {s : State} {a : BitVec 7} (hdyn : s.pc.sbDyn = some a) : sbAddr s = a := by rw [sbAddr, hdyn]

/-- The dynamic address is given by ENTDAA, which has the provisional ID sent, and by SETDASA to the static address. -/
theorem exec_entdaa {s : State} {m : DaaMsg} (hanswers : sbAnswers s = true) (hdyn : s.pc.sbDyn = none)
    (hstatic : m.direct = true → m.static_ = sbAddr s) : exec (.entdaa m) s = .next
      (let u := if m.direct then s else emit s (.sideband (toLE 6 (provId s)).reverse)
       { u with pc := { u.pc with sbDyn := some m.addr } }) :=
  congrArg Host.Outcome.next (if_neg (by simpa [hanswers, hdyn] using hstatic))

/-- Settles O47: the address decides whether the target answers, and its pointer which byte is read. -/
theorem sidebandComplete : Obligations.SidebandComplete := by
  refine ⟨?write, ?other, ?static, ?dynamic, ?read, ?field, ?latched, ?address, ?stuck⟩
  case write => exact fun s a b rest hanswers ha => congrArg Host.Outcome.next (if_pos ⟨hanswers, ha⟩)
  case other => exact fun s a data n _ hother => exec_sideband_other data n hother
  case static => exact fun s hdyn => sbAddr_static hdyn
  case dynamic => exact fun s a hdyn => sbAddr_dynamic hdyn
  case read =>
    exact fun s n hanswers => ⟨_, _, exec_sidebandRead_own n hanswers, length_sbBytes n s, rfl, sbPtr_sbBytes n s⟩
  case field =>
    intro s hanswers hfield
    rw [exec_sidebandRead_one hanswers, sbByte_field hfield]
  case latched =>
    intro s b l hanswers hlatch hlow hhigh hfield
    rw [exec_sidebandRead_one hanswers, sbByte_latched hlatch hlow hhigh hfield]
  case address =>
    intro s u m hanswers hdyn hstatic hu
    subst hu
    exact exec_entdaa hanswers hdyn fun hdirect => (hstatic hdirect).trans (sbAddr_static hdyn).symm
  case stuck => exact fun s => rfl

end Sys2Proof.Machine

namespace Sys2Proof.Machine

/-! ## The state after reset (R509) -/

/-- Settles O53: every register of the state after reset reads the reset value of its field map, so each value is computed
from it. -/
theorem resetState : Obligations.ResetState := by
  refine ⟨?platform, ?frontEnd, ?network, ?links, ?translation, ?cores, ?folds, ?addresses, ?empty, ?sound⟩
  case platform => decide +kernel
  case frontEnd => decide +kernel
  case network => decide +kernel
  case links => decide +kernel
  case translation => decide +kernel
  case cores => decide +kernel
  case folds => decide +kernel
  case addresses => decide +kernel
  case empty => exact ⟨by decide +kernel, rfl, rfl, rfl, rfl⟩
  case sound => exact ⟨rfl, rfl⟩

end Sys2Proof.Machine
